-- ==== Sys2Proof/Word.lean ====
section
/-! DEFINITION. The word types of the KC-M13 model. Registers are 32 bits (R12), addresses 48 bits (R17),
descriptors 512 bits (R211), macro-instructions 256 bits (R195), held as the bit vectors the manual treats them as. -/

namespace Sys2Proof

/-- One byte of a memory. -/
abbrev Byte := BitVec 8
/-- A register or a binary32 value. -/
abbrev Word := BitVec 32
/-- A 64-bit quantity (R13): FN, WFN, an IMAGE_ID. -/
abbrev DWord := BitVec 64

/-- A value for every key, all but finitely many at a default that the reader supplies: a list of key and value,
keys strictly rising, no value equal to the default of its key. -/
abbrev SMap (α : Type) := List (Nat × α)

/-- A byte memory: addresses strictly rising, no byte equal to what an unlisted address reads as. -/
abbrev Mem := SMap Byte

end Sys2Proof
end

