-- ==== Sys2Proof/Types.lean ====
section
/-! DEFINITION. The data that commands carry: frames, packets, votes, and the decoded contents of a Gusil image
(the layout of a section belongs to the compiler and the device, R253; log entry 11). -/

namespace Sys2Proof

/-- What the FEC decoder says of the codeword in which a block or a packet came (R288): uncorrectable, or the physical lanes
of the symbols that it corrected, one entry for each. -/
structure Codeword where
  uncorr : Bool := false
  errs : List Nat := []
  deriving DecidableEq, Repr, Inhabited

/-- A tick marker as its receiver sees it, without TYPE and CRC8 (Table 2.2). -/
structure Marker where
  fnLo : BitVec 24
  masterIx : BitVec 2
  hops : BitVec 4
  delayAcc : BitVec 16
  deriving DecidableEq, Repr, Inhabited

/-- The payload of a VOTE packet (Table 13.6), of any KIND. -/
structure VotePl where
  fn : DWord
  kind : BitVec 8
  flags : BitVec 8
  actions : BitVec 8
  attempt : Nat
  voters : Nat
  firstFail : Nat
  deriving DecidableEq, Repr, Inhabited

/-- One entry of a SEIF packet (Table 12.6): hi, lo, element number, sequence number, with the metadata of its packet
header kept beside it. -/
structure SeifEntry where
  hi : Word
  lo : Word
  elem : Nat
  seq : Nat
  deriving DecidableEq, Repr, Inhabited

/-- A Chipra packet (Tables 12.5 and 12.6); LEN is carried as the payload's length, and for RD_REQ as `want`. -/
structure Packet where
  ptype : Nat
  vc : Bool := decide (5 ≤ ptype)
  tagm : Bool := false
  last : Bool := false
  nonconf : Bool := false
  blk : Nat := 0
  dst : Nat
  src : Nat
  lseq : Nat := 0
  ftag : BitVec 8
  want : Nat := 0
  addr : Nat := 0
  md : BitVec 14 := 0
  xid : Nat := 0
  ackSt : Nat := 0
  data : List Byte := []
  entries : List SeifEntry := []
  vote : Option VotePl := none
  fnsync : DWord := 0
  crc : Word := 0
  deriving DecidableEq, Repr, Inhabited

/-- The payload of LC_SET (R392). `rsvZero` says whether it has 264 bytes, of which 1 to 7 and 144 to 199 are zero. -/
structure LcPayload where
  target : Nat
  nonce : DWord
  opKey : BitVec 512
  signer : BitVec 512
  signature : BitVec 512
  rsvZero : Bool
  deriving DecidableEq, Repr, Inhabited

/-- The payload of NV_STORE (R402). `rsvZero` says whether it has 20 bytes, of which 2 to 7, 14 and 15 are zero. -/
structure NvPayload where
  group : Nat
  src : Nat
  addr : Nat
  length : Nat
  rsvZero : Bool
  deriving DecidableEq, Repr, Inhabited

/-- A command as a CMD frame carries it (Table 15.3). NV_STORE and LC_SET have the bytes of their payload, whose layout the spec
gives (R392, R402). -/
inductive Cmd where
  | imgVerify (slot addr length : Nat)
  | imgActivate (slot a h : Nat)
  | imgRelease (slot : Nat)
  | fxResume (r : Nat)
  | fxExport (peer : Nat)
  | shpSet (mask : BitVec 768) (n : Nat) (value : Word)
  | regWrite (addr : Nat) (value : Word)
  | nvStore (data : List Byte)
  | lcSet (data : List Byte)
  | reserved (op : Nat)
  deriving DecidableEq, Repr, Inhabited

/-- An output element of a reduction: the core and position of the instruction that receives it, its batch iteration,
row and index. -/
structure ElemKey where
  core : Nat
  seq : Nat
  b : Nat
  m : Nat
  n : Nat
  deriving DecidableEq, Repr, Inhabited

/-- A seif node (Table 5.4). -/
inductive NodeId where
  | core (i : Nat)
  | die (d : Nat)
  | hub
  deriving DecidableEq, Repr, Inhabited

/-- A Drundoha frame (Table 15.1): the fields of its header, its payload and its CRC-32. `args` is the command that the payload
of a CMD carries where the spec does not give the payload's layout, and `time` the instant at which the start control character
leaves the PCS decoder (R383). -/
structure Frame where
  ftype : Nat
  flags : Nat := 0
  status : Nat := 0
  op : Nat := 0
  tag : Nat := 0
  fn : DWord := 0
  addr : Nat := 0
  core : Nat := 0
  len : Nat := 0
  md : Nat := 0
  rsv : Nat := 0
  data : List Byte := []
  crc : Word := 0
  args : Cmd := .reserved 0
  time : Nat := 0
  deriving DecidableEq, Repr, Inhabited

/-- The three access paths of a register (R425, R427). -/
inductive Path where
  | port0 | port1 | service
  deriving DecidableEq, Repr, Inhabited

/-- A unit that power-on BIST found failed (Table 17.2). -/
inductive BistFail where
  | array (d p pm : Nat)
  | bank (d p b : Nat)
  | core (d p : Nat)
  | die (d : Nat)
  | ring (d : Nat)
  | channel (i : Nat)
  | hub
  deriving DecidableEq, Repr, Inhabited

/-- What the power-on sequence finds (R388, R396, R411): which of the two firmware slots are valid with their versions,
whether the package mesh is open, and the BIST failures. -/
structure BootFindings where
  slotValid : Bool × Bool
  slotVersion : Nat × Nat
  meshOpen : Bool
  fails : List BistFail
  deriving DecidableEq, Repr, Inhabited

/-- What an online core test does next (R420): start the next one, or end with a pass, a failure or an abort. -/
inductive CoreTestEnd where
  | start | pass | fail | abort
  deriving DecidableEq, Repr, Inhabited

/-- A result of training one link (R295). -/
inductive TrainResult where
  | up | noSignal | lockFailed
  deriving DecidableEq, Repr, Inhabited

/-- Why a link that is UP fails (R300). -/
inductive LinkFault where
  | resendLimit | multiLane | silence
  deriving DecidableEq, Repr, Inhabited

/-- The tamper sensors (Table 16.6). -/
inductive Tamper where
  | glitch | temp | mesh
  deriving DecidableEq, Repr, Inhabited

/-! ### The contents of a Gusil image -/

/-- One tick tree (FRAME section): the links upstream and downstream of this module for the master of one rank. -/
structure TickTree where
  primary : Option Nat
  secondary : Option Nat
  down : List Nat
  deriving DecidableEq, Repr, Inhabited

/-- FRAME section (Table 10.4, type 0x01). `fallback` holds the module IDs of the fallback masters of rank 1 to 3. -/
structure FrameSect where
  periodNs : Nat
  guardPct : Nat
  src : Nat
  masterIx : Nat
  dpPort : Nat
  extOffset : BitVec 16
  trees : List TickTree
  master : Nat
  fallback : List Nat
  deriving DecidableEq, Repr, Inhabited

/-- DOMAIN section (R329). -/
structure DomainSect where
  members : List Nat
  depth : Nat
  treeD : Nat
  parent : Option (Nat × Nat)
  children : List (Nat × Nat)
  root : Nat
  replayMax : Nat
  deriving DecidableEq, Repr, Inhabited

/-- A route-table entry (Table 12.8). -/
structure Route where
  links : List Nat
  toLocal : Bool
  hops : Nat
  deriving DecidableEq, Repr, Inhabited

/-- ROUTE section: both tables (keyed by DST), and the peer each link must report. -/
structure RouteSect where
  vc0 : List (Nat × Route)
  vc1 : List (Nat × Route)
  expect : List (Nat × Nat × Nat)
  deriving DecidableEq, Repr, Inhabited

/-- A ping-pong region (Table 13.4). -/
structure Region where
  base : Nat
  side : Nat
  length : Nat
  kind : Nat
  init : Nat
  deriving DecidableEq, Repr, Inhabited

/-- PINGPONG section (R327) with the history region, the per-frame input allowance (R245, R378), and the BLK of each region
that the image marks as block-scaled (R382). -/
structure PingPongSect where
  stageBase : Nat
  stageLength : Nat
  regions : List Region
  histAddr : Nat
  histSide : Nat
  ctlInBytes : Nat
  regionBlk : List (Nat × Nat)
  deriving DecidableEq, Repr, Inhabited

/-- One reduction of the SEIF section: the instructions whose terms it joins, the module and core that receive it, the
number of die pairs that come from other modules, and the offset of each member core's terms in REDUCE (R219). `pairBase` is
the position of this module's first die pair among the inputs of the root hub node (R136). -/
structure Reduction where
  id : Nat
  members : List (Nat × Nat × Nat)
  destCore : Nat
  destSeq : Nat
  rootModule : Nat
  remotePairs : Nat
  pairBase : Nat
  width : Nat
  deriving DecidableEq, Repr, Inhabited

/-- A side tree (R143): the instructions whose side partials join in one record, and the one that writes it. -/
structure SideTree where
  members : List (Nat × Nat)
  destCore : Nat
  destSeq : Nat
  deriving DecidableEq, Repr, Inhabited

/-- The role of one logical macro (PLACE section, Table 3.16). -/
structure RoleEntry where
  role : Nat
  fmt : Nat
  posunit : Nat
  defer : Nat
  deriving DecidableEq, Repr, Inhabited

/-- A kernel-table entry (R220). -/
structure KernelEntry where
  offset : Nat
  length : Nat
  cycFixed : Nat
  cycPer64 : Nat
  deriving DecidableEq, Repr, Inhabited

/-- A rule of the tiling policy table (Table 7.3). -/
structure TileRule where
  mLo : Nat
  mHi : Nat
  nLo : Nat
  nHi : Nat
  kLo : Nat
  kHi : Nat
  bLo : Nat
  bHi : Nat
  planMb : Nat
  planRu : Nat
  planWave : Nat
  deriving DecidableEq, Repr, Inhabited

/-- A frame program: its task, its start offset, and the code-range contents (R195). -/
structure Program where
  task : Nat
  start : Nat
  code : List Byte
  deriving DecidableEq, Repr, Inhabited

/-- The SPAD section of one variant (Table 10.4, type 0x09). A segment map is 32 read classes and 32 write classes. -/
structure SpadSect where
  tasks : List (Word × Word)
  vbase : Nat
  vcount : Nat
  bankPwr : BitVec 64
  segs : List (List Nat × List Nat)
  deriving DecidableEq, Repr, Inhabited

/-- One scale-estimate mapping: descriptor, first entry, count (R241). -/
structure EstMap where
  td : Nat
  first : Nat
  count : Nat
  deriving DecidableEq, Repr, Inhabited

/-- The TOKEN section of one variant (Table 10.4, type 0x07): the watchdog limit, the LEVELs of the core's queues, and the
division of the depth of each queue that has several producers (R276, R278, R287). -/
structure TokenSect where
  wdog : Nat
  levels : List (Nat × Nat)
  credits : List (Nat × List Nat)
  deriving DecidableEq, Repr, Inhabited

/-- The core-scope sections of one used core (types 0x05 to 0x0B, 0x0D, 0x11); per-variant sections come in variant order.
`slotBlk` is the BLK of each logical slot that is marked as block-scaled (R382). -/
structure CoreSect where
  core : Nat
  scrubRows : Nat
  roles : List (Nat × RoleEntry)
  descs : List (Nat × BitVec 512)
  spads : List SpadSect
  tokens : List TokenSect
  progs : List Program
  kernels : List KernelEntry
  estMaps : List EstMap
  inits : List Program
  policies : List (Nat × List TileRule)
  slotBlk : List (Nat × Nat)
  deriving DecidableEq, Repr, Inhabited

/-- POWER section of one variant (Table 14.2). -/
structure PowerSect where
  pFrame : Nat
  actReq : Nat
  slew : Nat
  flatPct : Nat
  groups : Nat
  step : Nat
  pLoad : List Nat
  deriving DecidableEq, Repr, Inhabited

/-- The capacity record and the REQUIRE section (Table 10.7), without FN. -/
structure CapRec where
  links : BitVec 32
  hbmBytes : Nat
  cores : List Nat
  macros : List (Nat × Nat)
  deriving DecidableEq, Repr, Inhabited

/-- The decoded contents of an image, whole or group (Table 10.4). -/
structure ImageContent where
  imageId : DWord
  digest : BitVec 256
  kind : Nat
  group : Nat
  variants : Nat
  loadFrames : Nat
  sharedId : DWord
  frame : FrameSect
  domain : DomainSect
  route : RouteSect
  pingpong : PingPongSect
  reductions : List Reduction
  sides : List SideTree
  fwTiling : Bool
  nmCtrl : Word
  power : List PowerSect
  varHold : Nat
  groups : List (List Nat)
  require : CapRec
  cores : List CoreSect
  deriving DecidableEq, Repr, Inhabited

end Sys2Proof
end

