-- ==== Sys2Proof/Syntax.lean ====
section
/-! DEFINITION. The commands of the block: one constructor per row of spec/opcode_table.json. Macro-instructions carry
the core whose sequencer issues them and bits [255:8] of the instruction; the opcode is the constructor's. Times `t` are
the timebase in units of 0.125 ns. A control block `w` or a packet `p` from a link comes with its codeword `cw`; `around` is the
time, in the same units, from the arrival of a probe to the departure of its echo. -/

namespace Sys2Proof

/-- The commands, in the table's order. -/
inductive Instr where
  | tick
  | lockLost
  | fallbackMasterTakeover
  | markerEmit
  | tickMarker (link : Nat) (w : BitVec 64) (cw : Codeword) (t : Nat)
  | markerForward
  | tickRefEdge (t : Nat)
  | tickFrame (port : Nat) (f : Frame)
  | fnsync (link : Nat) (p : Packet) (cw : Codeword)
  | fnsyncBroadcast
  | workWindowEnd
  | linkDelayProbe (link t : Nat)
  | nop (core : Nat) (body : BitVec 248)
  | endProg (core : Nat) (body : BitVec 248)
  | wait (core : Nat) (body : BitVec 248)
  | signal (core : Nat) (body : BitVec 248)
  | fence (core : Nat) (body : BitVec 248)
  | load (core : Nat) (body : BitVec 248)
  | store (core : Nat) (body : BitVec 248)
  | send (core : Nat) (body : BitVec 248)
  | writeW (core : Nat) (body : BitVec 248)
  | winOpen (core : Nat) (body : BitVec 248)
  | winClose (core : Nat) (body : BitVec 248)
  | matmul (core : Nat) (body : BitVec 248)
  | fwPlanReply (core seq : Nat)
  | fwPlanTimeout (core seq : Nat)
  | matmulT (core : Nat) (body : BitVec 248)
  | attend (core : Nat) (body : BitVec 248)
  | reduce (core : Nat) (body : BitVec 248)
  | vecop (core : Nat) (body : BitVec 248)
  | vectorKernelBound (core seq : Nat)
  | update (core : Nat) (body : BitVec 248)
  | instructionComplete (core seq : Nat)
  | treeEmpty (core lm : Nat)
  | drainPortRead (core port : Nat)
  | seifNodeOutput (node : NodeId) (elem : ElemKey)
  | seifFold (node : NodeId) (elem : ElemKey)
  | tagWaitRelease (core slot : Nat)
  | tokenMessageArrival (core tok n : Nat)
  | wdogTrip (core : Nat)
  | flush (hubBlock : Bool) (core q : Nat)
  | tkQPeakRead (path : Path) (hubBlock : Bool) (core q : Nat)
  | voteForm
  | vote (link : Nat) (p : Packet) (cw : Codeword) (late : Bool)
  | voteDeadline
  | voteResult (link : Nat) (p : Packet) (cw : Codeword)
  | resultQuery (link : Nat) (p : Packet) (cw : Codeword)
  | resultAnswer (link : Nat) (p : Packet) (cw : Codeword)
  | voteResultApply
  | imageActivation
  | macroRetirement (testPass : Bool)
  | coreSwap (testPass : Bool)
  | pseudoChannelRemap
  | retirementComplete
  | rotationStep (core : Nat)
  | rotationTestDone (core : Nat) (pass : Bool)
  | rotationCopyBack (core : Nat)
  | coreTest (die : Nat) (r : CoreTestEnd)
  | cmdFrame (port : Nat) (f : Frame)
  | imgVerify (tag slot addr len : Nat)
  | imageVerifyDone (slot : Nat) (contents : Option ImageContent)
  | imgActivate (tag slot a h : Nat)
  | imgRelease (tag slot : Nat)
  | fxResume (tag r : Nat)
  | fxExport (tag peer : Nat)
  | shpSet (tag : Nat) (mask : BitVec 768) (n : Nat) (v : Word)
  | regWrite (tag addr : Nat) (v : Word)
  | nvStore (tag : Nat) (data : List Byte)
  | nvPageStore (readBack1 readBack2 : Bool)
  | lcSet (tag : Nat) (data : List Byte)
  | write (port : Nat) (f : Frame)
  | consume (port : Nat) (f : Frame)
  | consumeReexamine
  | peek (port : Nat) (f : Frame)
  | mem (port : Nat) (f : Frame)
  | capacity (port : Nat) (f : Frame)
  | attest (port : Nat) (f : Frame)
  | attestReport
  | regRead (port : Nat) (f : Frame)
  | evtAck (port : Nat) (f : Frame)
  | eventResend
  | portStateChange (port : Nat) (up : Bool)
  | wr (link : Nat) (p : Packet) (cw : Codeword)
  | wrAck (link : Nat) (p : Packet) (cw : Codeword)
  | rdReq (link : Nat) (p : Packet) (cw : Codeword)
  | rdResp (link : Nat) (p : Packet) (cw : Codeword)
  | seif (link : Nat) (p : Packet) (cw : Codeword)
  | ack (link : Nat) (w : BitVec 64) (cw : Codeword)
  | nak (link : Nat) (w : BitVec 64) (cw : Codeword)
  | credit (link : Nat) (w : BitVec 64) (cw : Codeword)
  | probe (link : Nat) (w : BitVec 64) (cw : Codeword) (around : Nat)
  | probeEcho (link : Nat) (w : BitVec 64) (cw : Codeword) (t : Nat)
  | laneSwap (link : Nat) (w : BitVec 64) (cw : Codeword)
  | laneFailure (link lane : Nat)
  | train (link : Nat) (w : BitVec 64) (cw : Codeword)
  | linkTrainingDone (link : Nat) (r : TrainResult)
  | linkFailure (link : Nat) (cause : LinkFault)
  | retrainTimeout (link : Nat)
  | clEnWrite (v : Word)
  | clIdWrite (v : Word)
  | dieToDieFlitError (die : Nat) (ring second : Bool)
  | dieControllerHeartbeatMiss (die : Nat)
  | clockSupplyFault (die : Nat)
  | governorSample (pReal : Nat)
  | governorMillisecond
  | preRampStart
  | targetDescentStart
  | tempSample (tj : List Nat)
  | junctionTrip (die : Nat)
  | dieThermalRelease (die : Nat) (fails : List BistFail)
  | inputLow
  | inputHigh
  | inputRestored
  | bringUp (f : BootFindings)
  | tamperTrip (sensor : Tamper)
  | biDebugOpen
  | lowWordRead (path : Path) (addr : Nat)
  | registerWrite (path : Path) (addr : Nat) (v : Word)
  | readRequest (bytes : List Byte)
  | writeRequest (bytes : List Byte)
  | resultRead (nbytes : Nat)
  | dynamicAddressAssignment (arbitrated : Bool) (addr : Nat)
  | cableSupplyOff (link : Nat)
  | inBandInterruptRetry
  deriving DecidableEq, Repr

end Sys2Proof
end

