-- ==== Sys2Proof/Decode.lean ====
section
/-! DEFINITION. The words of commands. No row of spec/opcode_table.json gives bits, so no table word spells a command; the
256-bit macro-instructions of a frame program have an opcode in bits [7:0] (R200, R201), which this file reads and
writes. -/

namespace Sys2Proof

/-- The command that a word of the table's bits spells: the table gives no row bits, so none. -/
def decodeTableWord (_nbits _w : Nat) : Option Instr := none

/-- The macro-instruction that core `core` finds in a 256-bit word (Table 8.2); none for a reserved opcode. -/
def decodeMacroOp (core : Nat) (w : BitVec 256) : Option Instr :=
  let body := w.extractLsb' 8 248
  match (w.extractLsb' 0 8).toNat with
  | 0x00 => some (.nop core body)
  | 0x01 => some (.endProg core body)
  | 0x02 => some (.wait core body)
  | 0x03 => some (.signal core body)
  | 0x04 => some (.fence core body)
  | 0x08 => some (.load core body)
  | 0x09 => some (.store core body)
  | 0x0A => some (.send core body)
  | 0x0B => some (.writeW core body)
  | 0x0C => some (.winOpen core body)
  | 0x0D => some (.winClose core body)
  | 0x10 => some (.matmul core body)
  | 0x11 => some (.matmulT core body)
  | 0x12 => some (.attend core body)
  | 0x13 => some (.reduce core body)
  | 0x18 => some (.vecop core body)
  | 0x19 => some (.update core body)
  | _ => none

/-- The 256-bit word of a macro-instruction, whatever core issues it; none for a command that is no macro-instruction. -/
def encodeMacroOp (i : Instr) : Option (Nat × BitVec 256) :=
  match i with
  | .nop c b => some (c, b ++ 0x00#8)
  | .endProg c b => some (c, b ++ 0x01#8)
  | .wait c b => some (c, b ++ 0x02#8)
  | .signal c b => some (c, b ++ 0x03#8)
  | .fence c b => some (c, b ++ 0x04#8)
  | .load c b => some (c, b ++ 0x08#8)
  | .store c b => some (c, b ++ 0x09#8)
  | .send c b => some (c, b ++ 0x0A#8)
  | .writeW c b => some (c, b ++ 0x0B#8)
  | .winOpen c b => some (c, b ++ 0x0C#8)
  | .winClose c b => some (c, b ++ 0x0D#8)
  | .matmul c b => some (c, b ++ 0x10#8)
  | .matmulT c b => some (c, b ++ 0x11#8)
  | .attend c b => some (c, b ++ 0x12#8)
  | .reduce c b => some (c, b ++ 0x13#8)
  | .vecop c b => some (c, b ++ 0x18#8)
  | .update c b => some (c, b ++ 0x19#8)
  | _ => none

end Sys2Proof
end

