-- ==== Sys2Proof/Machine/Bits.lean ====
section
/-! DEFINITION. Bit fields, byte order and the integer helpers the other files use. -/

namespace Sys2Proof.Machine

/-- The field of width w whose least significant bit is lo, as a number. -/
def fld {n : Nat} (x : BitVec n) (lo w : Nat) : Nat := (x.toNat >>> lo) % 2 ^ w

/-- One bit of a number. -/
def bitN (x i : Nat) : Bool := Nat.testBit x i

/-- Bit i of a register value. -/
def bit {n : Nat} (x : BitVec n) (i : Nat) : Bool := x.getLsbD i

/-- A number read as a two's-complement value of w bits. -/
def signed (x w : Nat) : Int := if x % 2 ^ w < 2 ^ (w - 1) then (x % 2 ^ w : Int) else (x % 2 ^ w : Int) - 2 ^ w

/-- The low w bits of an integer's two's complement. -/
def toField (x : Int) (w : Nat) : Nat := (x % (2 ^ w : Int)).toNat

/-- A word with the field at lo of width w set to v. -/
def putFld {n : Nat} (x : BitVec n) (lo w v : Nat) : BitVec n :=
  BitVec.ofNat n (x.toNat % 2 ^ lo + (v % 2 ^ w) * 2 ^ lo + (x.toNat >>> (lo + w)) * 2 ^ (lo + w))

/-- A word with bit i set. -/
def setB {n : Nat} (x : BitVec n) (i : Nat) : BitVec n := x ||| BitVec.ofNat n (2 ^ i)

/-- A word with bit i cleared. -/
def clrB {n : Nat} (x : BitVec n) (i : Nat) : BitVec n := x &&& ~~~ (BitVec.ofNat n (2 ^ i))

/-- A word with bit i at b. -/
def putB {n : Nat} (x : BitVec n) (i : Nat) (b : Bool) : BitVec n := if b then setB x i else clrB x i

/-- A word with one bit set per element of a list of flags, flag i in bit i. -/
def ofBits (l : List Bool) : Nat :=
  match l with
  | [] => 0
  | b :: rest => b.toNat + 2 * ofBits rest

/-- The number held by bytes, least significant first (R195, R447). -/
def leNat (l : List Byte) : Nat :=
  match l with
  | [] => 0
  | b :: rest => b.toNat + 256 * leNat rest

/-- The n bytes of a number, least significant first. -/
def leBytes (x : Nat) : Nat → List Byte
  | 0 => []
  | n + 1 => BitVec.ofNat 8 x :: leBytes (x / 256) n

/-- Ceiling division. -/
def cdiv (a b : Nat) : Nat := (a + b - 1) / b

/-- Sum of a list of naturals. -/
def sumN (l : List Nat) : Nat := l.foldl (· + ·) 0

/-- Sum of a list of integers. -/
def sumI (l : List Int) : Int := l.foldl (· + ·) 0

/-- An integer modulo 255 as a residue from 0 to 254 (R73). -/
def mod255 (x : Int) : Nat := (x % 255).toNat

/-- The numbers from a upward, n of them. -/
def rangeFrom (a : Nat) : Nat → List Nat
  | 0 => []
  | n + 1 => a :: rangeFrom (a + 1) n

/-- The list without repeats, first occurrences kept. -/
def nubN (l : List Nat) : List Nat :=
  l.foldl (fun acc x => if acc.contains x then acc else acc ++ [x]) []

/-- The least of a list of integers, with a value for none. -/
def minI (d : Int) (l : List Int) : Int :=
  match l with
  | [] => d
  | x :: rest => rest.foldl min x

/-- The greatest of a list of integers, with a value for none. -/
def maxI (d : Int) (l : List Int) : Int :=
  match l with
  | [] => d
  | x :: rest => rest.foldl max x

/-- Replace the first element that satisfies p. -/
def replaceFirst {α : Type} (p : α → Bool) (v : α) : List α → List α
  | [] => []
  | x :: rest => if p x then v :: rest else x :: replaceFirst p v rest

/-- The element at index i of a list, or a value where there is none. -/
def nth {α : Type} (d : α) (l : List α) (i : Nat) : α := l.getD i d

/-- One bit of the CRC-32 register, least significant bit first. -/
def crcBit (r : Word) : Word := if r.getLsbD 0 then (r >>> 1) ^^^ 0xEDB88320 else r >>> 1

/-- CRC-32 with the IEEE 802.3 polynomial, with that standard's bit order, initial value and complement (R245; PRESUMED, log
entry 6). -/
def crc32 (bytes : List Byte) : Word :=
  ~~~(bytes.foldl (fun r b => (List.range 8).foldl (fun x _ => crcBit x) (r ^^^ b.setWidth 32)) 0xFFFFFFFF)

/-- Split a list into runs of n; the fuel is the list's length. -/
def chunks {α : Type} (n : Nat) (l : List α) : Nat → List (List α)
  | 0 => []
  | k + 1 => if l.isEmpty then [] else l.take n :: chunks n (l.drop n) k

/-- The runs of n elements of a list. -/
def chunksOf {α : Type} (n : Nat) (l : List α) : List (List α) := chunks n l l.length

/-- Saturating addition at a limit. -/
def satAdd (x y limit : Nat) : Nat := min (x + y) limit

end Sys2Proof.Machine
end

