-- ==== Sys2Proof/Machine/Blocks.lean ====
section
/-! DEFINITION. What travels on a Chipra link: the 64-bit control blocks with their CRC-8 (R42, R297, Tables 2.2 and 12.4), and
the 24-byte packet header with its CRC-32 (R301, Tables 12.5 and 12.6); and what travels on a Drundoha port: the 32-byte frame header
with its CRC-32 (R369, Tables 15.1 and 15.2). -/

namespace Sys2Proof.Machine

/-! ### Control blocks -/

/-- CRC-8 with polynomial 0x07 over bits [63:8] of a block, the highest bit first, from 0 and without complement (DESIGN CHOICE,
log entry 125). -/
def crc8 (x : BitVec 56) : BitVec 8 :=
  (List.range 56).foldl (fun r i => (r <<< 1) ^^^ (if r.getLsbD 7 != x.getLsbD (55 - i) then 0x07 else 0)) 0

/-- A block of a TYPE whose bits [55:8] are f. -/
def ctrlBlock (type f : Nat) : BitVec 64 :=
  let x : BitVec 56 := BitVec.ofNat 56 (type * 2 ^ 48 + f % 2 ^ 48)
  x ++ crc8 x

/-- Bits [lo + n − 1 : lo] of a block. -/
def blkFld (w : BitVec 64) (lo n : Nat) : Nat := w.toNat / 2 ^ lo % 2 ^ n

/-- TYPE of a block. -/
def blkType (w : BitVec 64) : Nat := blkFld w 56 8

/-- Whether the CRC-8 of a block is right. -/
def blkCrcOk (w : BitVec 64) : Bool := decide (w.setWidth 8 = crc8 (w.extractLsb' 8 56))

/-- Whether a block that arrives in a codeword is taken as one of a TYPE: otherwise it is discarded (R42, R297). -/
def blkTaken (type : Nat) (w : BitVec 64) (cw : Codeword) : Bool := !cw.uncorr && blkCrcOk w && decide (blkType w = type)

/-- The block of a tick marker (Table 2.2); bits [9:8] are zero. -/
def markerBlock (m : Marker) : BitVec 64 :=
  ctrlBlock 0x5A (m.fnLo.toNat * 2 ^ 24 + m.masterIx.toNat * 2 ^ 22 + m.hops.toNat * 2 ^ 18 + m.delayAcc.toNat * 4)

/-- The marker that a block of TYPE 0x5A holds. -/
def blkMarker (w : BitVec 64) : Marker :=
  { fnLo := BitVec.ofNat 24 (blkFld w 32 24), masterIx := BitVec.ofNat 2 (blkFld w 30 2), hops := BitVec.ofNat 4 (blkFld w 26 4),
    delayAcc := BitVec.ofNat 16 (blkFld w 10 16) }

/-- ACK: LSEQ of the last packet received in order. -/
def ackBlock (lseq : Nat) : BitVec 64 := ctrlBlock 0xA1 (lseq % 65536 * 2 ^ 32)
/-- NAK: LSEQ expected next. -/
def nakBlock (lseq : Nat) : BitVec 64 := ctrlBlock 0xA2 (lseq % 65536 * 2 ^ 32)
/-- The LSEQ of an ACK or NAK. -/
def blkLseq (w : BitVec 64) : Nat := blkFld w 40 16
/-- CREDIT: the cumulative units freed on each virtual channel. -/
def creditBlock (c0 c1 : Nat) : BitVec 64 := ctrlBlock 0xA3 (c0 % 65536 * 2 ^ 32 + c1 % 65536 * 2 ^ 16)
/-- The counts of a CREDIT, VC0 and VC1. -/
def blkCredit (w : BitVec 64) : Nat × Nat := (blkFld w 40 16, blkFld w 24 16)
/-- PROBE: the low 32 bits of the sender's timebase. -/
def probeBlock (ts : Nat) : BitVec 64 := ctrlBlock 0xA4 (ts % 2 ^ 32 * 2 ^ 16)
/-- PROBE_ECHO: the echoed timebase, and the turnaround. -/
def echoBlock (ts around : Nat) : BitVec 64 := ctrlBlock 0xA5 (ts % 2 ^ 32 * 2 ^ 16 + around % 65536)
/-- The timebase of a PROBE or PROBE_ECHO. -/
def blkTime (w : BitVec 64) : Nat := blkFld w 24 32
/-- The turnaround of a PROBE_ECHO. -/
def blkAround (w : BitVec 64) : Nat := blkFld w 8 16
/-- LANE_SWAP: the physical lane to spare, a request or its acknowledgement. -/
def swapBlock (lane : Nat) (isAck : Bool) : BitVec 64 := ctrlBlock 0xA6 (lane % 32 * 2 ^ 40 + isAck.toNat * 2 ^ 32)
/-- The lane of a LANE_SWAP. -/
def blkLane (w : BitVec 64) : Nat := blkFld w 48 5
/-- Whether a LANE_SWAP acknowledges. -/
def blkSwapAck (w : BitVec 64) : Bool := w.getLsbD 40
/-- TRAIN: PART, stepping, module ID and link number. -/
def trainWord (part step mid lnk : Nat) : BitVec 64 :=
  ctrlBlock 0xA7 (part % 4096 * 2 ^ 36 + step % 256 * 2 ^ 28 + mid % 16384 * 2 ^ 14 + lnk % 32 * 2 ^ 9)

/-! ### Packets -/

/-- The virtual channel of a packet type (Table 12.6). -/
def vcOf (t : Nat) : Nat := if 5 ≤ t then 1 else 0

/-- The payload of a VOTE packet (Table 13.6). -/
def voteBytes (v : VotePl) : List Byte :=
  leBytes v.fn.toNat 8 ++ [v.kind, v.flags, v.actions, BitVec.ofNat 8 v.attempt] ++ leBytes v.voters 2 ++ leBytes v.firstFail 2

/-- The payload of a packet, in the order of its bytes (Table 12.6). -/
def packetPayload (p : Packet) : List Byte :=
  if p.ptype = 5 then p.entries.flatMap fun e => leBytes e.hi.toNat 4 ++ leBytes e.lo.toNat 4 ++ leBytes e.elem 4 ++ leBytes e.seq 4
  else if p.ptype = 6 then (p.vote.map voteBytes).getD (List.replicate 16 0)
  else if p.ptype = 7 then leBytes p.fnsync.toNat 8
  else p.data

/-- Payload bytes of a packet. -/
def packetBytes (p : Packet) : Nat :=
  if p.ptype = 5 then 16 * p.entries.length
  else if p.ptype = 6 then 16
  else if p.ptype = 7 then 8
  else p.data.length

/-- Bits [159:0] of a packet header (Table 12.5). LEN is 0 where there is no payload. -/
def packetHeader (p : Packet) : Nat :=
  let len := (if p.ptype = 3 then p.want else packetBytes p) - 1
  p.ptype % 16 + p.vc.toNat * 2 ^ 4 + p.tagm.toNat * 2 ^ 5 + p.last.toNat * 2 ^ 6 + p.nonconf.toNat * 2 ^ 7 + p.blk % 4 * 2 ^ 8 +
    p.dst % 16384 * 2 ^ 10 + p.src % 16384 * 2 ^ 24 + p.lseq % 65536 * 2 ^ 38 + p.ftag.toNat * 2 ^ 54 + len % 256 * 2 ^ 62 +
    p.addr % 2 ^ 48 * 2 ^ 70 + p.md.toNat * 2 ^ 118 + p.xid % 65536 * 2 ^ 132 + p.ackSt % 8 * 2 ^ 148

/-- The CRC32 of a packet, over bits [159:0] of its header and its payload (R301). -/
def packetCrc (p : Packet) : Word := crc32 (leBytes (packetHeader p) 20 ++ packetPayload p)

/-- The 24 bytes of a packet's header and its payload, as they travel (R301). -/
def packetWire (p : Packet) : List Byte := leBytes (packetHeader p) 20 ++ leBytes p.crc.toNat 4 ++ packetPayload p

/-- Buffer units of a packet (R299). -/
def packetUnits (p : Packet) : Nat := cdiv (24 + packetBytes p) 64

/-! ### Drundoha frames (R369) -/

/-- The 32-byte header of a frame, as it travels (Table 15.1). -/
def frameHead (f : Frame) : List Byte :=
  leBytes f.ftype 1 ++ leBytes f.flags 1 ++ leBytes f.status 1 ++ leBytes f.op 1 ++ leBytes f.tag 4 ++ leBytes f.fn.toNat 8 ++
    leBytes f.addr 6 ++ leBytes f.core 2 ++ leBytes f.len 4 ++ leBytes f.md 2 ++ leBytes f.rsv 2

/-- The CRC-32 of a frame, over its header and payload. -/
def frameCrc (f : Frame) : Word := crc32 (frameHead f ++ f.data)

/-- A frame with its LENGTH and CRC-32. -/
def sealFrame (f : Frame) : Frame :=
  let f := { f with len := f.data.length }
  { f with crc := frameCrc f }

/-- Whether LENGTH agrees with a frame to the module: the bytes of its payload, or for a READ, which has none, the bytes it asks
for (Table 15.2). -/
def frameLenOk (f : Frame) : Bool :=
  let n := f.data.length
  if f.ftype = 3 then decide (n = 0) && decide (1 ≤ f.len) && decide (f.len ≤ 4096)
  else decide (f.len = n) &&
    (if f.ftype = 1 then decide (n ≤ 4096)
     else if f.ftype = 2 then decide (1 ≤ n) && decide (n ≤ 4096)
     else if f.ftype = 4 then decide (n = 0)
     else decide (n = 8))

/-- Whether the hub discards a frame: a bad CRC, a TYPE that no frame to the module has, a LENGTH that disagrees, or a nonzero
reserved field, which are FLAGS [7:5] and bytes 30 and 31 (DEDUCED, log entry 145). -/
def frameBad (f : Frame) : Bool :=
  decide (f.ftype = 0) || decide (6 < f.ftype) || !frameLenOk f || decide (32 ≤ f.flags) || decide (f.rsv ≠ 0) ||
    decide (f.crc ≠ frameCrc f)

end Sys2Proof.Machine
end

