-- ==== Sys2Proof/Config.lean ====
section
/-! DEFINITION. What the spec leaves open: free values and functions that nothing in the model can evaluate. A statement
about them holds whatever they are. Log entries 3 and 6 to 9 name each. -/

namespace Sys2Proof.Config

/-- DESIGN CHOICE (log entry 3): the n-th free value, of any width; `State.freeCount` is the index of the next one. -/
opaque free (w n : Nat) : BitVec w

/-- SM3 (GB/T 32905), uninterpreted (log entry 6). -/
opaque sm3 (bytes : List Byte) : BitVec 256
/-- SM2 signature verification (GB/T 32918), uninterpreted: public key, message, signature (log entry 6). -/
opaque sm2Verify (key : BitVec 512) (msg : List Byte) (sig : BitVec 512) : Bool
/-- The SM2 signature that a private key makes of a message (log entry 6). -/
opaque sm2Sign (key : BitVec 256) (msg : List Byte) : BitVec 512
/-- The public key of a private key (log entry 6). -/
opaque sm2Public (key : BitVec 256) : BitVec 512
/-- The order n of the SM2 curve, which GB/T 32918 gives (R386; log entry 6). -/
opaque sm2Order : Nat

/-- ADDR and CORE of an ANSWER with a TAG, which the spec does not give (Table 15.1; log entry 145). -/
opaque answerRef (tag : Nat) : Nat × Nat
/-- A header field of an EVENT frame that the spec does not give, by the SEQ of its first entry and the field's first byte (Table
15.1; log entry 145). -/
opaque eventHead (seq field : Nat) : Nat
/-- The manufacturer's part of the service port's provisional ID (R436; log entry 146). -/
opaque serviceMaker : BitVec 15

/-- The vector unit's exponential, "a fixed function of its argument on every core and module" (R224; log entry 7). -/
opaque expF32 (x : Word) : Word

/-- The sum of the probabilities of a key block in the fixed order of the 64-lane tree (R224), which the spec does not
give (log entry 7). -/
opaque treeSum (p : List Word) : Word

/-- What a vector kernel sees (R157, R210, R220): its code, operand elements, metadata words, extents, IMM, the key of its
draws (R119), the shape registers as read at issue, and what its transposed and strided reads delivered. -/
structure KernelIn where
  code : List Byte
  a : List Word
  b : List Word
  mdw : List (Nat × Word)
  rows : Nat
  cols : Nat
  imm : Word
  draw : DWord
  shp : List Word := []
  reads : List (List Byte) := []
  deriving DecidableEq, Repr, Inhabited

/-- A read that a vector kernel asks of the vector unit's reader, at a task offset: a transposed block of 32 rows of 32
elements (R156), or 64 bytes of elements a stride apart (R157). The element is of 2 ^ lw bytes. -/
inductive VecRead where
  | transposed (base pitch : Nat) (lw : Fin 3)
  | strided (base stride : Nat) (lw : Fin 4)
  deriving DecidableEq, Repr, Inhabited

/-- The transposed and strided reads a vector kernel makes, in order (R156, R157, R220; log entry 8). -/
opaque kernelReads (i : KernelIn) : List VecRead
/-- The words a vector kernel writes (R220; log entry 8). The encoding of kernels is not part of the manual. -/
opaque kernel (i : KernelIn) : List Word
/-- The scalar result of a kernel whose destination is a shape register (R185, R220; log entry 8). -/
opaque kernelScalar (i : KernelIn) : Word

/-- Which unit of another pseudo-channel serves a 4 KiB unit of a retired one (R341): a number that picks one of the channels in
service (log entry 129). -/
opaque remapUnit (channel unit : Nat) : Nat

/-- The sign of a NaN that the vector unit computes from operands (R111; log entry 123). -/
opaque nanSign (l : List Word) : Bool

/-- What SECDED makes of three or more flipped bits in one codeword (R319): none, an uncorrectable word; some e, a
miscorrection that leaves the data wrong by the pattern e (log entry 9). -/
opaque secdedAlias (flips : BitVec 39) : Option Word

end Sys2Proof.Config
end

