-- ==== Sys2Proof/Machine/RegMap.lean ====
section
/-! DEFINITION. The register map (R423, R424, Tables 18.1 and 18.2): addresses, reset values and W1C masks of the stored
registers. -/

namespace Sys2Proof.Machine

/-- A hub register by its offset from 0x7000_0000_0000. -/
def hubA (off : Nat) : Nat := 0x700000000000 + off

/-- A register of die d by its offset (R424). -/
def dieA (d off : Nat) : Nat := 0x710000000000 + d * 2 ^ 32 + off

/-- A register of logical core `core` = 64d + c in the block at `blk` (Table 18.2). -/
def coreA (blk core off : Nat) : Nat := dieA (core / 64) (blk + (core % 64) * 4096 + off)

/-- Macro block of a core (Table 3.10). -/
def mcA (core off : Nat) : Nat := coreA 0x100000 core off
/-- Drain block of a core (Table 5.6). -/
def drA (core off : Nat) : Nat := coreA 0x200000 core off
/-- Scratchpad block of a core (Table 6.7). -/
def spA (core off : Nat) : Nat := coreA 0x400000 core off
/-- Sequencer block of a core (Table 7.6). -/
def sqA (core off : Nat) : Nat := coreA 0x500000 core off
/-- Numerics block of a core (Table 9.10). -/
def nmA (core off : Nat) : Nat := coreA 0x600000 core off
/-- Token block of a core (Table 11.6). -/
def tkA (core off : Nat) : Nat := coreA 0x800000 core off
/-- MC_ROLE of logical macro m (Table 3.16). -/
def roleA (core m : Nat) : Nat := mcA core (0x400 + 4 * m)
/-- SQ_SHP_n (Table 7.10). -/
def shpA (core n : Nat) : Nat := sqA core (0x100 + 4 * n)
/-- A register of hub queue q (Table 11.6): 0 TK_Q_CTRL, 4 TK_Q_STAT, 8 TK_Q_PEAK. -/
def hubQA (q off : Nat) : Nat := hubA (0x6100 + 16 * q + off)
/-- A register of core queue q. -/
def coreQA (core q off : Nat) : Nat := tkA core (0x100 + 16 * q + off)
/-- A register of link i (Table 12.12). -/
def linkA (i off : Nat) : Nat := hubA (0x8400 + 0x20 * i + off)
/-- PG_DIE_d (Table 14.12). -/
def pgDieA (d : Nat) : Nat := hubA (0x7100 + 4 * d)
/-- BI_DIE_d (Table 17.10). -/
def biDieA (d : Nat) : Nat := hubA (0xC100 + 4 * d)
/-- Word w of FX_LOG_i (Table 13.17). -/
def logA (i w : Nat) : Nat := hubA (0x5400 + 16 * i + 4 * w)
/-- A seif node's block: the hub node or die node d (Tables 5.11). -/
def dieNodeA (d off : Nat) : Nat := dieA d (0x300000 + off)
/-- The hub node's block. -/
def hubNodeA (off : Nat) : Nat := hubA (0x2000 + off)

def secIdent := hubA 0x10
def ftPeriod := hubA 0x1000
def ftGuard := hubA 0x1004
def ftSrc := hubA 0x1010
def ftStatus := hubA 0x1014
def ftSticky := hubA 0x1018
def ftCnt := hubA 0x101C
def ftExtOffset := hubA 0x1020
def nmCtrl := hubA 0x3000
def nmHist := hubA 0x3008
def nmHistSide := hubA 0x3010
def secImgState := hubA 0x4000
def fxCtrl := hubA 0x5000
def fxSticky := hubA 0x5008
def fxCnt := hubA 0x500C
def fxLogHead := hubA 0x501C
def fxEvtDrops := hubA 0x5024
def fxCapSum := hubA 0x5100
def pgCtrl := hubA 0x7000
def pgStagger := hubA 0x7004
def pgCeil := hubA 0x7008
def pgPower := hubA 0x700C
def pgTarget := hubA 0x7010
def pgSticky := hubA 0x7014
def pgCnt := hubA 0x7018
def clId := hubA 0x8000
def clEn := hubA 0x8004
def clSticky := hubA 0x8008
def clWclCnt := hubA 0x800C
def clCnt := hubA 0x8010
def dpPortStat (p : Nat) := hubA (0x9000 + 0x10 * p)
def dpPortCnt (p : Nat) := hubA (0x9004 + 0x10 * p)
def dpSticky := hubA 0x9020
def secLc := hubA 0xA000
def secLcNonce := hubA 0xA008
def secSerial := hubA 0xA010
def secTamper := hubA 0xA018
def secFw := hubA 0xA01C
def nvStatus := hubA 0xB000
def nvSticky := hubA 0xB004
def nvHoldup := hubA 0xB008
def biCtrl := hubA 0xC000
def biStatus := hubA 0xC004
def biSticky := hubA 0xC008
def biCnt := hubA 0xC00C
def biDebug := hubA 0xC010

/-- The reset value of a hub register by its offset; zero where its table gives zero or none (log entry 2). -/
def hubReset (off : Nat) : Word :=
  if off = 0x10 then 0xB5DD1311
  else if off = 0x1000 then 0x4E20
  else if off = 0x1004 then 0x0A
  else if off = 0x1010 then 1
  else if off = 0x2008 then 0x2000
  else if off = 0x3000 then 0x4022
  else if off = 0x5000 then 8
  else if off = 0x5100 then 0x03000000
  else if off = 0x7000 then 0x30040
  else if off = 0x7004 then 0x10000
  else if off = 0x7008 then 0x5F323232
  else if 0x7100 ≤ off ∧ off < 0x7130 ∧ off % 4 = 0 then 0x500
  else if off = 0x8004 then 0xFFFFFFFF
  else if 0x8400 ≤ off ∧ off < 0x8800 ∧ off % 0x20 = 0 then 0x1F0
  else if off = 0xC000 then 0x10400
  else if off = 0xC004 then 1
  else if 0xC100 ≤ off ∧ off < 0xC130 ∧ off % 4 = 0 then 0x00FF0000
  else 0

/-- The reset value of a die register by its offset in the die's window. -/
def dieReset (off : Nat) : Word :=
  let blk := off / 0x100000
  let r := off % 4096
  if blk = 1 then
    (if r = 0 then 0x4000
     else if r = 0x18 then 0x06FF
     else if 0x400 ≤ r ∧ r < 0x800 then BitVec.ofNat 32 ((r - 0x400) / 4 * 256)
     else 0)
  else if blk = 2 then (if r = 0xC then 0x200 else 0)
  else if blk = 3 then (if off = 0x300008 then 0x800 else 0)
  else if blk = 4 then
    (if r = 0 then 0x400000 else if r = 0x20 ∨ r = 0x24 then 0xAAAAAAAA else 0)
  else 0

/-- What a stored register reads as before it is first written: its table's Reset value (R429). -/
def regReset (a : Nat) : Word :=
  if a < 0x710000000000 then hubReset (a - 0x700000000000)
  else dieReset ((a - 0x710000000000) % 2 ^ 32)

/-- The W1C bits of a hub register by offset (Table 0.3 and the registers' own tables). -/
def hubW1C (off : Nat) : Nat :=
  if off = 0x1018 then 0xFF
  else if off = 0x2000 then 0xE
  else if off = 0x4000 then 0x80000000
  else if off = 0x5008 then 0xFFF
  else if off = 0x5100 then 0xC0000000
  else if 0x6100 ≤ off ∧ off < 0x6320 ∧ off % 16 = 4 then 0x70000
  else if off = 0x7014 then 0x3FF
  else if off = 0x8008 then 0xFF
  else if 0x8400 ≤ off ∧ off < 0x8800 ∧ off % 0x20 = 4 then 0x7F
  else if off = 0x9020 then 0x1F
  else if off = 0xB004 then 0xF
  else if off = 0xC008 then 0x7F
  else 0

/-- The W1C bits of a die register by offset. -/
def dieW1C (off : Nat) : Nat :=
  let blk := off / 0x100000
  let r := off % 4096
  if blk = 1 then (if r = 4 then 0x7FF else 0)
  else if blk = 2 then (if r = 0 then 0x7F else 0)
  else if blk = 3 then (if off = 0x300000 then 0xE else 0)
  else if blk = 4 then (if r = 4 then 0x3FF else 0)
  else if blk = 5 then (if r = 4 then 0x3F else 0)
  else if blk = 6 then (if r = 0 then 0x3F else 0)
  else if blk = 8 then
    (if r = 0 then 3 else if 0x100 ≤ r ∧ r < 0x2A0 ∧ r % 16 = 4 then 0x70000 else 0)
  else 0

/-- The W1C bits of the register at a local address. -/
def w1cMask (a : Nat) : Word :=
  if a < 0x710000000000 then BitVec.ofNat 32 (hubW1C (a - 0x700000000000))
  else BitVec.ofNat 32 (dieW1C ((a - 0x710000000000) % 2 ^ 32))

/-! ### Control-port status codes (Table 15.4) -/

def stOK := 0
def stNotReady := 1
def stWindowClosed := 2
def stBadSignature := 3
def stHoldupLow := 4
def stCapacityLowered := 5
def stProgramError := 6
def stReplayExhausted := 7

end Sys2Proof.Machine
end

