-- ==== Sys2Proof/Machine/Num.lean ====
section
/-! DEFINITION. Number formats (Table 4.1), rounding, the random source, block scales, compensated pairs and binary32
arithmetic. Every finite value is a dyadic: an integer times a power of two. -/

namespace Sys2Proof.Machine

/-- The value m × 2^e. -/
structure Dy where
  m : Int
  e : Int
  deriving DecidableEq, Repr, Inhabited

/-- A decoded element: a finite value with the sign of its zero, an infinity or a NaN (with its sign). -/
inductive Elem where
  | fin (neg : Bool) (v : Dy)
  | inf (neg : Bool)
  | nan (neg : Bool)
  deriving DecidableEq, Repr, Inhabited

/-- A rounding mode (Table 4.2, ALN_RND and OUT_RND), with its draw for the stochastic one (R120). -/
inductive Rnd where
  | nearest
  | zero
  | stochastic (u : Nat)
  deriving DecidableEq, Repr, Inhabited

/-- m × 2^e for e at least 0. -/
def shl (m : Int) (e : Nat) : Int := m * (2 ^ e : Nat)

/-- ⌊log₂ |v|⌋ of a value that is not zero. -/
def Dy.log2 (v : Dy) : Int := (Nat.log2 v.m.natAbs : Int) + v.e

/-- The product of two dyadics, exact. -/
def Dy.mul (a b : Dy) : Dy := { m := a.m * b.m, e := a.e + b.e }

/-- The sum of two dyadics, exact. -/
def Dy.add (a b : Dy) : Dy :=
  let e := min a.e b.e
  { m := shl a.m (a.e - e).toNat + shl b.m (b.e - e).toNat, e := e }

/-- Negation, exact. -/
def Dy.neg (a : Dy) : Dy := { m := -a.m, e := a.e }

/-- Numeric comparison of two dyadics. -/
def Dy.lt (a b : Dy) : Bool := decide ((Dy.add a b.neg).m < 0)

/-- Round num ÷ den (den positive) to an integer: nearest with ties to even, toward zero, or stochastically with the
fraction truncated to 32 bits (R120). -/
def roundRat (r : Rnd) (num : Int) (den : Nat) : Int :=
  let f := num / (den : Int)
  let rem := (num % (den : Int)).toNat
  match r with
  | .nearest =>
    if 2 * rem < den then f else if den < 2 * rem then f + 1 else if f % 2 = 0 then f else f + 1
  | .zero => if num < 0 ∧ rem ≠ 0 then f + 1 else f
  | .stochastic u => if u < rem * 2 ^ 32 / den then f + 1 else f

/-- Round the value v, in units of 2^lsb, to an integer. -/
def Dy.roundAt (r : Rnd) (v : Dy) (lsb : Int) : Int :=
  let k := v.e - lsb
  if 0 ≤ k then shl v.m k.toNat else roundRat r v.m (2 ^ (-k).toNat)

/-! ### Formats -/

/-- The shape of a floating-point format: exponent bits, fraction bits, bias (Table 4.1). -/
structure FFmt where
  ebits : Nat
  mbits : Nat
  bias : Int
  deriving DecidableEq, Repr, Inhabited

/-- The floating-point formats by EFMT code (Table 4.2); none for the integer formats. -/
def ffmt (f : Nat) : Option FFmt :=
  match f with
  | 3 => some { ebits := 4, mbits := 3, bias := 7 }
  | 4 => some { ebits := 5, mbits := 2, bias := 15 }
  | 5 => some { ebits := 2, mbits := 3, bias := 1 }
  | 6 => some { ebits := 3, mbits := 2, bias := 3 }
  | 7 => some { ebits := 2, mbits := 1, bias := 1 }
  | 9 => some { ebits := 8, mbits := 7, bias := 127 }
  | 10 => some { ebits := 5, mbits := 10, bias := 15 }
  | 11 => some { ebits := 8, mbits := 23, bias := 127 }
  | _ => none

/-- Bits of one element (Table 4.1). -/
def fmtBits (f : Nat) : Nat :=
  match f with
  | 0 => 8 | 1 => 4 | 2 => 2 | 3 => 8 | 4 => 8 | 5 => 6 | 6 => 6 | 7 => 4 | 8 => 8 | 9 => 16 | 10 => 16 | _ => 32

/-- Exponent of the largest normal, e_max (Table 4.1). -/
def fmtEmax (f : Nat) : Int :=
  match f with
  | 0 => 6 | 1 => 2 | 2 => 0 | 3 => 8 | 4 => 15 | 5 => 2 | 6 => 4 | 7 => 2 | 8 => 0 | 9 => 127 | 10 => 15 | _ => 127

/-- Exponent of the last place of an integer format: codes, or code × 2⁻⁶ for MXINT8. -/
def fmtIntLsb (f : Nat) : Int := if f = 8 then -6 else 0

/-- The largest finite value, as a dyadic (Table 4.1). -/
def fmtMax (f : Nat) : Dy :=
  match f with
  | 0 => { m := 127, e := 0 }
  | 1 => { m := 7, e := 0 }
  | 2 => { m := 1, e := 0 }
  | 3 => { m := 448, e := 0 }
  | 4 => { m := 57344, e := 0 }
  | 5 => { m := 15, e := -1 }
  | 6 => { m := 28, e := 0 }
  | 7 => { m := 6, e := 0 }
  | 8 => { m := 127, e := -6 }
  | 9 => { m := 255, e := 120 }
  | 10 => { m := 65504, e := 0 }
  | _ => { m := 16777215, e := 104 }

/-- The value of an element code, under its own format (R93); subnormals are kept. -/
def decodeElem (f code : Nat) : Elem :=
  match ffmt f with
  | none =>
    let v := signed code (fmtBits f)
    .fin (decide (v < 0)) { m := v, e := fmtIntLsb f }
  | some k =>
    let frac := code % 2 ^ k.mbits
    let ex := (code >>> k.mbits) % 2 ^ k.ebits
    let neg := bitN code (k.mbits + k.ebits)
    let special := ex = 2 ^ k.ebits - 1 ∧ (f = 4 ∨ f = 9 ∨ f = 10 ∨ f = 11)
    if special then (if frac = 0 then .inf neg else .nan neg)
    else if f = 3 ∧ ex = 15 ∧ frac = 7 then .nan neg
    else
      let sig := if ex = 0 then frac else frac + 2 ^ k.mbits
      let e : Int := (if ex = 0 then 1 else (ex : Int)) - k.bias - k.mbits
      .fin neg { m := if neg then -(sig : Int) else sig, e := e }

/-- What an output conversion records of one element (R118, R246). -/
structure ConvFlags where
  ovf : Bool := false
  nonfin : Bool := false
  underflow : Bool := false
  deriving DecidableEq, Repr, Inhabited

/-- The code of a floating-point value of sign `neg` and magnitude q × 2^lsb, where q fits the significand. -/
def packFloat (k : FFmt) (neg : Bool) (q : Nat) (lsb : Int) : Nat :=
  let lsbMin : Int := 1 - k.bias - k.mbits
  (if neg then 2 ^ (k.mbits + k.ebits) else 0) + (lsb - lsbMin).toNat * 2 ^ k.mbits + q

/-- The code of ±(largest finite). -/
def maxCode (f : Nat) (neg : Bool) : Nat :=
  match ffmt f with
  | none => toField (if neg then -(fmtMax f).m else (fmtMax f).m) (fmtBits f)
  | some k =>
    let mag := match f with
      | 3 => 0x7E | 4 => 0x7B | 5 => 0x1F | 6 => 0x1F | 7 => 0x7 | 9 => 0x7F7F | 10 => 0x7BFF | _ => 0x7F7FFFFF
    (if neg then 2 ^ (k.mbits + k.ebits) else 0) + mag

/-- The code of ±Inf under output conversion (Table 4.10). -/
def infCode (f : Nat) (neg : Bool) : Nat :=
  match f with
  | 9 => if neg then 0xFF80 else 0x7F80
  | 10 => if neg then 0xFC00 else 0x7C00
  | 11 => if neg then 0xFF800000 else 0x7F800000
  | _ => maxCode f neg

/-- The NaN code under output conversion (Table 4.10, R111); zero where the format has none. -/
def nanCode (f : Nat) (neg : Bool) : Nat :=
  match f with
  | 3 => if neg then 0xFF else 0x7F
  | 4 => if neg then 0xFE else 0x7E
  | 9 => 0x7FC0
  | 10 => 0x7E00
  | 11 => 0x7FC00000
  | _ => 0

/-- Conversion of one value to format f, by a single rounding (R113, R116 to R118, Table 4.10). A value already
divided by its block scale is passed for a scaled format. -/
def encodeElem (f : Nat) (r : Rnd) (x : Elem) : Nat × ConvFlags :=
  match x with
  | .inf neg => (infCode f neg, { nonfin := true })
  | .nan neg => (nanCode f neg, { nonfin := true })
  | .fin neg v =>
    if v.m = 0 then
      ((match ffmt f with
        | some k => if neg then 2 ^ (k.mbits + k.ebits) else 0
        | none => 0), {})
    else
      match ffmt f with
      | none =>
        let q := v.roundAt r (fmtIntLsb f)
        let hi := (fmtMax f).m
        if hi < q then (maxCode f false, { ovf := true })
        else if q < -hi then (maxCode f true, { ovf := true })
        else (toField q (fmtBits f), { underflow := q = 0 })
      | some k =>
        let lsbMin : Int := 1 - k.bias - k.mbits
        let lsb := max lsbMin (v.log2 - k.mbits)
        let q := v.roundAt r lsb
        if Dy.lt (fmtMax f) { m := q.natAbs, e := lsb } then
          if (f = 9 ∨ f = 10) ∧ r ≠ .zero then (infCode f neg, { ovf := true })
          else (maxCode f neg, { ovf := true })
        else (packFloat k neg q.natAbs lsb, { underflow := q = 0 })

/-- A value divided by 2^n, exactly. -/
def Elem.scale (x : Elem) (n : Int) : Elem :=
  match x with
  | .fin s v => .fin s { v with e := v.e - n }
  | y => y

/-! ### binary32 -/

/-- A binary32 pattern as an element. -/
def f32Elem (w : Word) : Elem := decodeElem 11 w.toNat

/-- A finite binary32 value as a dyadic; NaN and ±Inf as zero. -/
def f32Dy (w : Word) : Dy :=
  match f32Elem w with
  | .fin _ v => v
  | _ => { m := 0, e := 0 }

/-- Whether a binary32 pattern is finite. -/
def f32Finite (w : Word) : Bool := fld w 23 8 ≠ 255

/-- Whether a binary32 pattern is a NaN. -/
def f32IsNan (w : Word) : Bool := fld w 23 8 = 255 ∧ fld w 0 23 ≠ 0

/-- The value of a finite binary32 pattern in units of 2⁻¹⁴⁹ (R135). -/
def f32Int (w : Word) : Int :=
  let v := f32Dy w
  shl v.m (v.e + 149).toNat

/-- Round a dyadic to binary32 under nearest, ties to even; IEEE overflow to ±Inf. `neg` is the sign of a zero. -/
def f32Round (neg : Bool) (v : Dy) : Word :=
  if v.m = 0 then (if neg then 0x80000000 else 0)
  else
    let k : FFmt := { ebits := 8, mbits := 23, bias := 127 }
    let lsb := max (-149) (v.log2 - 23)
    let q := v.roundAt .nearest lsb
    let s := decide (v.m < 0)
    if Dy.lt (fmtMax 11) { m := q.natAbs, e := lsb } then BitVec.ofNat 32 (infCode 11 s)
    else BitVec.ofNat 32 (packFloat k s q.natAbs lsb)

/-- Round to binary32 with ±(largest finite) in place of ±Inf, and whether it overflowed (R109). -/
def f32RoundSat (v : Dy) : Word × Bool :=
  let w := f32Round false v
  if f32Finite w then (w, false) else (BitVec.ofNat 32 (maxCode 11 (decide (v.m < 0))), true)

/-- The quiet NaN the device writes (R111). -/
def qnan : Word := 0x7FC00000
/-- +Inf and −Inf in binary32. -/
def posInf : Word := 0x7F800000
/-- −Inf in binary32. -/
def negInf : Word := 0xFF800000

/-- The sign bit of a binary32 pattern. -/
def f32Neg (w : Word) : Bool := bit w 31

/-- binary32 with the sign flipped. -/
def f32Flip (w : Word) : Word := w ^^^ 0x80000000

/-- binary32 with the sign cleared. -/
def f32Abs (w : Word) : Word := w &&& 0x7FFFFFFF

/-- A quiet NaN of a sign. -/
def nanF32 (neg : Bool) : Word := if neg then 0xFFC00000 else qnan

/-- The NaN that an operation makes of its operands; IEEE 754 leaves its sign open, and so does the spec (log entry 123). -/
def nanOf (l : List Word) : Word := nanF32 (Config.nanSign l)

/-- Multiplication under IEEE 754, nearest even (R111). -/
def f32Mul (a b : Word) : Word :=
  let s := (f32Neg a) != (f32Neg b)
  if f32IsNan a ∨ f32IsNan b then nanOf [a, b]
  else if ¬ f32Finite a then (if f32Abs b = 0 then nanOf [a, b] else if s then negInf else posInf)
  else if ¬ f32Finite b then (if f32Abs a = 0 then nanOf [a, b] else if s then negInf else posInf)
  else f32Round s ((f32Dy a).mul (f32Dy b))

/-- Addition under IEEE 754, nearest even. -/
def f32Add (a b : Word) : Word :=
  if f32IsNan a ∨ f32IsNan b then nanOf [a, b]
  else if ¬ f32Finite a then (if ¬ f32Finite b ∧ a ≠ b then nanOf [a, b] else a)
  else if ¬ f32Finite b then b
  else f32Round (f32Neg a && f32Neg b) ((f32Dy a).add (f32Dy b))

/-- Fused multiply-add a × b + c, one rounding (R224, R230). -/
def f32Fma (a b c : Word) : Word :=
  let s := (f32Neg a) != (f32Neg b)
  if f32IsNan a ∨ f32IsNan b ∨ f32IsNan c then nanOf [a, b, c]
  else if ¬ f32Finite a ∨ ¬ f32Finite b then
    let p := f32Mul a b
    if f32IsNan p then nanOf [a, b, c] else if ¬ f32Finite c ∧ c ≠ p then nanOf [a, b, c] else p
  else if ¬ f32Finite c then c
  else f32Round (s && f32Neg c) (((f32Dy a).mul (f32Dy b)).add (f32Dy c))

/-- A quotient of dyadics rounded to binary32: enough quotient bits with the remainder kept as a sticky bit. -/
def quotRound (neg : Bool) (a b : Dy) : Word :=
  if a.m = 0 then (if neg then 0x80000000 else 0)
  else
    let n := a.m.natAbs * 2 ^ 400
    let q := n / b.m.natAbs
    let st := if n % b.m.natAbs = 0 then 0 else 1
    let m : Int := (2 * q + st : Nat)
    f32Round neg { m := if neg then -m else m, e := a.e - b.e - 401 }

/-- IEEE division, nearest even (R224, R230). -/
def f32Div (a b : Word) : Word :=
  let s := (f32Neg a) != (f32Neg b)
  if f32IsNan a ∨ f32IsNan b then nanOf [a, b]
  else if ¬ f32Finite a then (if ¬ f32Finite b then nanOf [a, b] else if s then negInf else posInf)
  else if ¬ f32Finite b then (if s then 0x80000000 else 0)
  else if f32Abs b = 0 then (if f32Abs a = 0 then nanOf [a, b] else if s then negInf else posInf)
  else quotRound s (f32Dy a) (f32Dy b)

/-- The integer square root, by bisection on the bits from the top (fuel: bits still to decide). -/
def isqrtBits (n : Nat) (acc : Nat) : Nat → Nat
  | 0 => acc
  | k + 1 => let t := acc + 2 ^ k; isqrtBits n (if t * t ≤ n then t else acc) k

/-- Correctly rounded square root (R230). -/
def f32Sqrt (a : Word) : Word :=
  if f32IsNan a then nanOf [a]
  else if f32Abs a = 0 then a
  else if f32Neg a then nanOf [a]
  else if ¬ f32Finite a then a
  else
    let v := f32Dy a
    let odd := v.e % 2 ≠ 0
    let m := (if odd then 2 * v.m.natAbs else v.m.natAbs) * 2 ^ 60
    let e := if odd then v.e - 1 else v.e
    let r := isqrtBits m 0 60
    let st := if r * r = m then 0 else 1
    f32Round false { m := (2 * r + st : Nat), e := e / 2 - 31 }

/-- Numeric comparison a < b of two binary32 values that are not NaN; −0 and +0 compare equal (R142). -/
def f32Lt (a b : Word) : Bool :=
  let key (w : Word) : Int := if f32Neg w then -((f32Abs w).toNat : Int) else (f32Abs w).toNat
  decide (key a < key b)

/-- The larger of two binary32 values, the first on a tie. -/
def f32Max (a b : Word) : Word := if f32Lt a b then b else a
/-- The smaller of two binary32 values, the first on a tie. -/
def f32Min (a b : Word) : Word := if f32Lt b a then b else a

/-- min(max(x, −c), c), with a NaN passed through (R230). -/
def f32Clip (c x : Word) : Word := if f32IsNan x then x else f32Min (f32Max x (f32Flip c)) c

/-- The compensated pair of an exact value in units of 2⁻¹⁴⁹, and whether it overflowed (R135). -/
def pairOf (v : Int) : Word × Word × Bool :=
  let d : Dy := { m := v, e := -149 }
  if (fmtMax 11).m.natAbs * 2 ^ 253 < v.natAbs then (BitVec.ofNat 32 (maxCode 11 (decide (v < 0))), 0, true)
  else
    let hi := (f32RoundSat d).1
    let lo := f32Round false { m := v - f32Int hi, e := -149 }
    (hi, lo, false)

/-- A pair's exact value in units of 2⁻¹⁴⁹. -/
def pairInt (hi lo : Word) : Int := f32Int hi + f32Int lo

/-- Stochastic or nearest rounding of an exact value to one binary32, for the fold of R140 and R239. -/
def foldRound (r : Rnd) (v : Int) : Word :=
  if v = 0 then 0
  else
    let d : Dy := { m := v, e := -149 }
    let k : FFmt := { ebits := 8, mbits := 23, bias := 127 }
    let lsb := max (-149) (d.log2 - 23)
    let q := d.roundAt r lsb
    if Dy.lt (fmtMax 11) { m := q.natAbs, e := lsb } then BitVec.ofNat 32 (maxCode 11 (decide (v < 0)))
    else BitVec.ofNat 32 (packFloat k (decide (v < 0)) q.natAbs lsb)

/-! ### Random source (R119) -/

/-- mix64 of R119. -/
def mix64 (z : DWord) : DWord :=
  let a := (z ^^^ (z >>> 31)) * 0x8F3AC5D71B2964E5
  let b := (a ^^^ (a >>> 29)) * 0x5C6BE0A193D72F8B
  b ^^^ (b >>> 32)

/-- sr_bits of R119. -/
def srBits (fn : DWord) (core td seq cls b idx : Nat) : Nat :=
  let tag : DWord := (BitVec.ofNat 64 seq <<< 48) ||| (BitVec.ofNat 64 core <<< 24) |||
    (BitVec.ofNat 64 td <<< 8) ||| BitVec.ofNat 64 cls
  let key := mix64 (fn ^^^ mix64 (BitVec.ofNat 64 (b + 1))) ^^^ tag
  (mix64 (key + mix64 (BitVec.ofNat 64 idx)) >>> 32).toNat

/-- A rounding mode from its two-bit code, with the draw of the element (R103, R117). -/
def rndOf (code u : Nat) : Rnd := if code = 0 then .nearest else if code = 1 then .zero else .stochastic u

/-! ### Block scales (R113, R114) -/

/-- The size of a block by its BLK code (Table 4.2). -/
def blkSize (c : Nat) : Nat := 16 * 2 ^ c

/-- ⌊log₂⌋ of the largest magnitude among the finite non-zero values of a block (R113). -/
def blockTop (l : List Elem) : Option Int :=
  l.foldl (fun acc x =>
    match x with
    | .fin _ v => if v.m = 0 then acc else
        (match acc with
          | none => some v.log2
          | some t => some (max t v.log2))
    | _ => acc) none

/-- Clamp an integer to [lo, hi]. -/
def clampI (lo hi x : Int) : Int := max lo (min hi x)

/-- The scale code the writer chooses for a block (R113). -/
def chooseScale (f : Nat) (l : List Elem) : Nat :=
  match blockTop l with
  | none => 0
  | some t => (clampI 0 254 (t - fmtEmax f + 127)).toNat

end Sys2Proof.Machine
end

