-- ==== Sys2Proof/Machine/SMap.lean ====
section
/-! DEFINITION. Reading and writing sparse maps in canonical form (`SMap` of Word.lean): every memory, register file and
table of the machine goes through these two operations. -/

namespace Sys2Proof.Machine

/-- The value at key `k`; `d` is what an unlisted key reads as. -/
def SMap.get {α : Type} (d : Nat → α) (m : SMap α) (k : Nat) : α :=
  match m with
  | [] => d k
  | (j, v) :: rest => if j = k then v else SMap.get d rest k

/-- Put (k, v) in front of a list of larger keys, unless v is what an unlisted key reads as. -/
def SMap.cons {α : Type} [DecidableEq α] (d : Nat → α) (k : Nat) (v : α) (m : SMap α) : SMap α :=
  if v = d k then m else (k, v) :: m

/-- Put (k, v) before the first larger key of a list without key k. -/
def SMap.insert {α : Type} [DecidableEq α] (d : Nat → α) (k : Nat) (v : α) (m : SMap α) : SMap α :=
  match m with
  | [] => SMap.cons d k v []
  | (j, w) :: rest => if k < j then SMap.cons d k v ((j, w) :: rest) else (j, w) :: SMap.insert d k v rest

/-- Write v at key k: it takes the place of whatever stood there. -/
def SMap.set {α : Type} [DecidableEq α] (d : Nat → α) (m : SMap α) (k : Nat) (v : α) : SMap α :=
  SMap.insert d k v (m.filter fun e => e.1 ≠ k)

/-- The canonical form: keys strictly rising, none at the value an unlisted key reads as. -/
def SMap.wf {α : Type} [DecidableEq α] (d : Nat → α) (m : SMap α) : Bool :=
  match m with
  | [] => true
  | (k, v) :: rest =>
    (match rest with
      | [] => true
      | (j, _) :: _ => decide (k < j)) && decide (v ≠ d k) && SMap.wf d rest

/-- Keep the entries whose key lies outside [lo, hi). -/
def SMap.dropRange {α : Type} (m : SMap α) (lo hi : Nat) : SMap α :=
  m.filter fun e => decide (e.1 < lo) || decide (hi ≤ e.1)

/-- What an unlisted byte of a memory reads as (DESIGN CHOICE, log entry 1). -/
def memDefault (_ : Nat) : Byte := 0

/-- One byte of a memory. -/
def Mem.get (m : Mem) (a : Nat) : Byte := SMap.get memDefault m a

/-- Write one byte of a memory. -/
def Mem.set (m : Mem) (a : Nat) (b : Byte) : Mem := SMap.set memDefault m a b

/-- The canonical form of a memory. -/
def Mem.wf (m : Mem) : Bool := SMap.wf memDefault m

/-- The n bytes from address a. -/
def Mem.read (m : Mem) (a : Nat) : Nat → List Byte
  | 0 => []
  | n + 1 => Mem.get m a :: Mem.read m (a + 1) n

/-- Write bytes from address a upward. -/
def Mem.write (m : Mem) (a : Nat) : List Byte → Mem
  | [] => m
  | b :: rest => Mem.write (Mem.set m a b) (a + 1) rest

end Sys2Proof.Machine
end

