-- ==== Sys2Proof/Machine/Parts.lean ====
section
/-! DEFINITION. The parts of a core and of a seif node that State holds: instructions in flight, tiles, accumulators,
versions, tags, the numerics watch and the estimates. -/

namespace Sys2Proof.Machine

/-- An event entry (Table 15.6) before its SEQ is given. `data` is bytes 24 to 31, little-endian. -/
structure Event where
  kind : Nat
  status : Nat
  fn : DWord
  addr : Nat
  bitIx : Nat
  data : Nat
  lost : Bool := false
  deriving DecidableEq, Repr, Inhabited

/-- The location of a detected fault (R321), with its detector (Table 13.17). -/
structure Loc where
  unit : Nat
  die : Nat
  pcore : Nat
  index : Nat
  det : Nat
  deriving DecidableEq, Repr, Inhabited

/-- One tile of a macro's live or mirage set (R123, R127): the wide accumulators of the channels in use, their residues
(R318), and what the drain needs: exponent and DSCALE of each channel, and the output index it delivers, if any.
`passes` counts the passes of its chain still to issue (R125); aRef and wMin are the chain's references. -/
structure Tile where
  seq : Nat
  b : Nat
  m : Nat
  seqNo : Nat
  expected : Nat
  wide : List Int
  sat : List Bool
  residue : List Nat
  exps : List Int
  outs : List (Option Nat)
  hidden : List Bool
  dscale : Word
  tdY : Nat
  md : Word
  passes : Nat := 0
  aRef : Int := 0
  wMin : List Nat := []
  deriving DecidableEq, Repr, Inhabited

/-- The accumulator sets of one logical macro and the tiles whose passes wait behind the live one (R127, R128).
`stalled` says that the stall of the next tile start has been counted. -/
structure MacroSt where
  live : Option Tile := none
  mirage : Option Tile := none
  walk : List Tile := []
  stalled : Bool := false
  deriving DecidableEq, Repr, Inhabited

/-- The extents of an instruction as read at issue (R183, R184). -/
structure Ext where
  m : Nat
  n : Nat
  k : Nat
  b : Nat
  deriving DecidableEq, Repr, Inhabited

/-- One segment of a long accumulator (R140): its number, the inputs received and their exact sum. -/
structure Segment where
  ix : Nat
  count : Nat
  sum : Int
  deriving DecidableEq, Repr, Inhabited

/-- The long accumulator of one output element at a node (R135), or its partial winner (R142). `op` is 0 for a sum, 1
for MAX, 2 for MIN; the inputs have sequence numbers from `first` on. -/
structure Acc where
  key : ElemKey
  op : Nat
  expected : Nat
  first : Nat := 0
  received : Nat
  segs : List Segment
  folded : Nat := 0
  best : Option (Word × Nat)
  md : Word
  tdIn : Nat
  ext : Ext
  deriving DecidableEq, Repr, Inhabited

/-- One input of a node: the element, the operation, how many inputs the node expects, the sequence number, the pair
(for MAX and MIN the value and its index), the metadata, the core and descriptor charged
with a non-finite input, and the extents of the instruction. -/
structure NodeIn where
  key : ElemKey
  op : Nat
  expected : Nat
  first : Nat := 0
  seq : Nat
  hi : Word
  lo : Word
  md : Word
  core : Nat
  td : Nat
  ext : Ext
  deriving DecidableEq, Repr, Inhabited

/-- A seif node: its long accumulators in use, the most in use during the running frame, and the inputs that wait for an
accumulator or for a fold, in the order of their arrival (R137, R140). -/
structure Node where
  accs : List Acc := []
  most : Nat := 0
  waits : List NodeIn := []
  deriving DecidableEq, Repr, Inhabited

/-- A resolved memory or placement operand of an issued instruction: the descriptor number, its 512 bits, and the
pitch and strides read at issue (R183). -/
structure Opd where
  td : Nat
  d : BitVec 512
  pitch : Nat
  bStride : Int
  sideStride : Int
  deriving DecidableEq, Repr, Inhabited

/-- A piece of an instruction's remaining work, run as one access sequence. -/
inductive Item where
  /-- The forward passes of activation row m of iteration b. -/
  | fwd (b m : Nat)
  /-- The forward passes of the chain of activation row m (R182). -/
  | chain (m : Nat)
  /-- The transposed passes of driven row m of iteration b. -/
  | trans (b m : Nat)
  /-- One query row of one head of ATTEND. -/
  | att (b m : Nat)
  /-- The terms of output element m of iteration b of REDUCE. -/
  | red (b m : Nat)
  /-- Row r of iteration b of a move. -/
  | mv (b r : Nat)
  /-- The word of a LOAD into a shape register. -/
  | shpLoad
  /-- Iteration b of a WRITE_W with ALL. -/
  | wall (b : Nat)
  /-- Position n of iteration b of a WRITE_W into or out of a transient placement. -/
  | wpos (b n : Nat)
  /-- Iteration b of a vector kernel. -/
  | vec (b : Nat)
  /-- Iteration b of UPDATE. -/
  | upd (b : Nat)
  /-- A finished output row, to convert and write. -/
  | out (b m : Nat)
  /-- A side record whose partials have all come, to write. -/
  | side (b m : Nat)
  deriving DecidableEq, Repr, Inhabited

/-- An output row at its destination (R138): the pair and metadata of each element that has arrived, by output index. -/
structure RowBuf where
  b : Nat
  m : Nat
  vals : List (Nat × Word × Word)
  md : Word
  deriving DecidableEq, Repr, Inhabited

/-- What the side unit of a root node holds of one output row (R143): the maximum with its index, the exact sum, and the cores
whose shares of the row it has taken. -/
structure SideRec where
  node : NodeId
  b : Nat
  m : Nat
  best : Word × Nat
  sum : Int
  seen : List Nat
  deriving DecidableEq, Repr, Inhabited

/-- An issued instruction that is not complete (R196, R197). `todo` lists the output rows (iteration, row) still to be
written, `sideTodo` the side records still to be written, `wave` the K tiles of a wave of its walk (R178), `shp` the shape
registers that its kernel may name. `signalled` marks a part that completed at issue and still takes
the rows of its destination (R177). -/
structure Op where
  seq : Nat
  word : BitVec 256
  seg : Nat
  ext : Ext
  opds : List Opd
  mb : Nat := 0
  ru : Nat := 0
  items : List Item := []
  rows : List RowBuf := []
  todo : List (Nat × Nat) := []
  sideTodo : List (Nat × Nat) := []
  xid : Nat := 0
  md : Word := 0
  waitSlot : Option Nat := none
  planWait : Bool := false
  acks : Nat := 0
  skip : Bool := false
  changed : Nat := 0
  imm : List Word := []
  signalled : Bool := false
  wave : Nat := 1
  shp : List Word := []
  deriving DecidableEq, Repr, Inhabited

/-- A wait of the sequencer in progress (R202, R205, R206): the position, its token and count pairs, whether the header
count has been taken, and whether its watchdog has tripped (R276). -/
structure Waiting where
  seq : Nat
  pairs : List (Nat × Nat)
  taken : Bool
  tripped : Bool
  deriving DecidableEq, Repr, Inhabited

/-- The running frame program (R195): task and start offset. -/
structure Prog where
  task : Nat
  start : Nat
  deriving DecidableEq, Repr, Inhabited

/-- An entry of the gather buffer (R158): physical word address divided by 64, and its valid bytes. -/
structure Gather where
  w : Nat
  bytes : List (Nat × Byte)
  produce : Bool
  deriving DecidableEq, Repr, Inhabited

/-- A slot of the version table (R164): current copy, the copy pending for the previous and the running frame; and the
descriptors that wrote it in those frames with the metadata of remote writes (R382). -/
structure VerSlot where
  cur : Nat := 0
  pendPrev : Option Nat := none
  pendCur : Option Nat := none
  tdsPrev : List Nat := []
  tdsCur : List Nat := []
  mdPrev : Word := 0
  mdCur : Word := 0
  deriving DecidableEq, Repr, Inhabited

/-- A position tag of a kept transient macro (Table 3.9); the frame is the whole WFN, of which the device keeps the
parity (R84). -/
inductive PosTag where
  | free
  | new (f : DWord)
  | valid
  | evicting (f : DWord)
  deriving DecidableEq, Repr, Inhabited

/-- The counts of the numerics watch for one descriptor (Table 9.8) with its metadata word. -/
structure WatchRec where
  zeros : Nat := 0
  sats : Nat := 0
  nonfin : Nat := 0
  md : Word := 0
  deriving DecidableEq, Repr, Inhabited

/-- The observations of one estimate entry in one frame (R242). -/
structure Obs where
  entry : Nat
  top : Option Int
  sats : Nat
  deriving DecidableEq, Repr, Inhabited

/-- An estimate entry (Table 9.7). -/
structure Est where
  e : Int := 0
  cold : Bool := false
  decay : Nat := 0
  coldLeft : Nat := 0
  deriving DecidableEq, Repr, Inhabited

/-- A stale-layer detector entry (R248). -/
structure Stale where
  layer : Nat
  silent : Nat
  reported : Bool
  deriving DecidableEq, Repr, Inhabited

/-- A remote window (R307). -/
structure Window where
  base : Nat := 0
  size : Nat := 0
  perm : Nat := 0
  deriving DecidableEq, Repr, Inhabited

/-- A window change that takes effect at the next tick; none closes the window (R307). -/
structure WinChange where
  win : Nat
  w : Option Window
  deriving DecidableEq, Repr, Inhabited

/-- What one core keeps of one uncommitted frame: the watch (R246), the observations of estimates (R242), the
UPDATEs by layer with their changed counts (R248), and the copy of the window table taken at its tick (R308). -/
structure CoreFrame where
  watch : SMap WatchRec := []
  obs : List Obs := []
  upd : List (Nat × Nat) := []
  winCopy : SMap Window := []
  deriving DecidableEq, Repr, Inhabited

/-- A rotation step in progress (R418, R419): the physical macro under test, the logical macro that a spare serves
meanwhile, if any, that spare, and whether the test has passed or failed. -/
structure Rotation where
  home : Nat
  lm : Option Nat
  spare : Nat
  tested : Bool
  failed : Bool
  deriving DecidableEq, Repr, Inhabited

/-- One logical core. `loaded` names the program whose code is in the code range: variant and 0, or 1 plus the INIT
program. `sideRecs` holds the side partials that have come, by the instruction that writes their record (R143), `queues`
the stages of its queues, head first (R279), `credits` the division of their depths in force (R278), `dmaNext` the DMA engine whose turn it is, `loop` the entries of the loop-back
buffer (R225), and `banks` the power state of each bank in force (R167). `marginHit` and `marginMin` are the column blocks that were low and the smallest slack in the running
frame (physical macro, block), `lowMargin` the blocks low in consecutive frames (R89, R91). `waits` is the tag wait table, oldest first: the slot and the instruction that waits, or none for
a remote write (R160). -/
structure Core where
  cfg : Option CoreSect := none
  desc : SMap (BitVec 512) := []
  mdw : SMap Word := []
  full : SMap Bool := []
  prod : SMap (BitVec 4) := []
  gather : List Gather := []
  ver : SMap VerSlot := []
  tokens : SMap Nat := []
  prog : Option Prog := none
  loaded : Option (Nat × Nat) := none
  pos : Nat := 0
  ended : Bool := false
  waiting : Option Waiting := none
  ops : List Op := []
  macros : SMap MacroSt := []
  localPos : List (Nat × Nat) := []
  node : Node := {}
  est : SMap Est := []
  stale : List Stale := []
  watch : SMap WatchRec := []
  windows : SMap Window := []
  winPend : List WinChange := []
  cur : CoreFrame := {}
  prev : CoreFrame := {}
  lowMargin : List (Nat × Nat × Nat) := []
  marginHit : List (Nat × Nat) := []
  marginMin : Option (Nat × Nat × Nat) := none
  rotation : Option Rotation := none
  nextRot : Nat := 0
  waits : List (Nat × Option Nat) := []
  waitMost : Nat := 0
  dmaMost : Nat := 0
  opsMost : Nat := 0
  sideRecs : List (Nat × SideRec) := []
  queues : SMap (List Nat) := []
  credits : List (Nat × List Nat) := []
  dmaNext : Nat := 0
  loop : List (List Word) := []
  banks : BitVec 64 := 0xAAAAAAAAAAAAAAAA
  deriving DecidableEq, Repr, Inhabited

end Sys2Proof.Machine
end

