-- ==== Sys2Proof/Machine/HubParts.lean ====
section
/-! DEFINITION. The parts of the hub that State holds: sandglass, links, commit unit, images, Drundoha ports, governor,
security core, self-test and service port. Registers themselves are in the register map. -/

namespace Sys2Proof.Machine

/-- The marker chosen for the coming tick (R47). -/
structure ChosenMarker where
  rank : Nat
  hops : Nat
  delay : Nat
  primary : Bool
  forwarded : Bool := false
  deriving DecidableEq, Repr, Inhabited

/-- The sandglass (R37 to R50). Times are in units of 0.125 ns; `period` is the FT_PERIOD in force, in ns. `chosen` is the
marker for the coming tick and `holdRun` the ticks in holdover since the last usable marker or event. `extIn` and `extOut`
count the external events in a row inside and outside the window, the last at `extLast`; `extPlaced` says that one has
placed the coming tick. `waitFirst` says that a follower has no frame number yet, or that the first tick waits for the
first external event; `pendingFn` is a frame number taken for the coming tick. `stopped` is the state that FN_MISMATCH
leaves, `emitting` says that a fallback master emits, `asked` that a request of this frame has been answered, and `lostRun` that
LOCK_LOST has been recorded for the present run of ticks in holdover. -/
structure TickSt where
  fn : DWord := 0
  started : Bool := false
  period : Nat := 20000
  nextTick : Nat := 0
  chosen : Option ChosenMarker := none
  holdRun : Nat := 0
  extLast : Option Nat := none
  extIn : Nat := 0
  extOut : Nat := 0
  extPlaced : Bool := false
  waitFirst : Bool := false
  pendingFn : Option DWord := none
  stopped : Bool := false
  emitting : Bool := false
  sect : Option FrameSect := none
  asked : Bool := false
  lostRun : Bool := false
  deriving DecidableEq, Repr, Inhabited

/-- What the peer reported at training (R295). -/
structure PeerId where
  part : Nat
  step : Nat
  mid : Nat
  lnk : Nat
  deriving DecidableEq, Repr, Inhabited

/-- One Chipra link (R294 to R300): sequence numbers; the replay buffer, with how often each LSEQ in it has been resent (R300);
the packets whole in the transmit queue, those that wait in the fabric for room in it, and how many stages of the first of
these are in it already (R277, R279); units sent and freed on each virtual channel; what training found; and the codewords of
the present window of 2^20 with the symbols corrected in it by lane (R292). -/
structure LinkSt where
  lseqTx : Nat := 0
  lseqRx : Nat := 0
  replay : List Packet := []
  tries : SMap Nat := []
  waiting : List Packet := []
  backlog : List Packet := []
  part : Nat := 0
  sent0 : Nat := 0
  sent1 : Nat := 0
  freed0 : Nat := 4096
  freed1 : Nat := 1024
  rxFreed0 : Nat := 0
  rxFreed1 : Nat := 0
  probe : Option Nat := none
  peer : Option PeerId := none
  swap : Option Nat := none
  failed : List Nat := []
  cableOff : Bool := false
  codewords : Nat := 0
  symErrs : SMap Nat := []
  deriving DecidableEq, Repr, Inhabited

/-- A SEND whose packets are not all acknowledged (R311). -/
structure SendRec where
  xid : Nat
  core : Nat
  seq : Nat
  left : Nat
  deriving DecidableEq, Repr, Inhabited

/-- The packet layer of the hub: SENDs outstanding, remote writes that wait for a slot, and the RD_RESPs that have come for this
hub (R312). -/
structure ChipSt where
  sends : List SendRec := []
  waitWr : List Packet := []
  responses : List Packet := []
  deriving DecidableEq, Repr, Inhabited

/-- What a frame runs: no work, the variant's program, or load frame i (R258, R261, R334). -/
inductive FrameKind where
  | quiet
  | program
  | load (i : Nat)
  deriving DecidableEq, Repr, Inhabited

/-- An input write held in the stage (R378). -/
structure Staged where
  port : Nat
  tag : Nat
  addr : Nat
  data : List Byte
  deriving DecidableEq, Repr, Inhabited

/-- What the hub keeps of one uncommitted frame (R324, R328, R330). `fn` is the tick at which it began; `kind` is the
work that belongs to it, and `inPlace` says that the module ran it quiet instead (R334). `groupQuiet` names the core
group whose cores ran it quiet (R258); `refused` lists the input writes refused in it, by port, TAG and status. `unitWr`
and `unitMd` hold, per ping-pong unit, the core and descriptor of each write, and the metadata of remote writes (R382). -/
structure FrameRec where
  fn : DWord := 0
  wfn : DWord := 0
  kind : FrameKind := .quiet
  inPlace : Bool := false
  groupQuiet : Option Nat := none
  fault : Bool := false
  lost : Bool := false
  overrun : Bool := false
  thermal : Option Bool := none
  attempt : Nat := 0
  locs : List Loc := []
  units : List Nat := []
  unitWr : List (Nat × Nat × Nat) := []
  unitMd : List (Nat × Word) := []
  updates : List Nat := []
  events : List Event := []
  beyond : Nat := 0
  inputs : List Staged := []
  refused : List (Nat × Nat × Nat) := []
  shpSets : List (BitVec 768 × Nat × Word) := []
  deriving DecidableEq, Repr, Inhabited

/-- Work to run again (R335): its WFN, kind, attempt number, input writes, quiet group, and the SHP_SETs of its tick. -/
structure Rework where
  wfn : DWord
  kind : FrameKind
  attempt : Nat
  inputs : List Staged
  groupQuiet : Option Nat
  shpSets : List (BitVec 768 × Nat × Word)
  deriving DecidableEq, Repr, Inhabited

/-- A location's history in one work frame (R321, R322): the replays at which it was recorded, and its log entry. -/
structure LogKey where
  ix : Nat
  loc : Loc
  wfn : DWord
  source : Nat
  replays : List Nat
  read : Bool
  deriving DecidableEq, Repr, Inhabited

/-- A retirement pending or in progress (R339 to R341): the unit, whether its test and restore are done, and the fault-log entry
of its location (R347). -/
structure Retire where
  unit : Nat
  die : Nat
  pcore : Nat
  index : Nat
  started : Bool
  entry : Nat
  deriving DecidableEq, Repr, Inhabited

/-- The commit unit (R320 to R345). `wfn` is the newest WFN; `cur` the running frame, `prev` the frame before it and
`old` the frames before those whose results are missing, oldest first (R334); `nextFn` is the tick of the frame whose
result is to be applied next, `applied` says that the result of `prev` has been. `received` holds results to apply,
`results` the last 16. `sentFor` is the frame of the last combined vote, `combined` its payload. `watchFn` is the frame that the watch tables hold (R247),
`shpPrev` and `shpCur` the copies of every shape register taken at the ticks of the previous and the running frame (R185). -/
structure CommitSt where
  wfn : DWord := 0
  cur : FrameRec := {}
  prev : FrameRec := {}
  old : List FrameRec := []
  lastWork : FrameRec := {}
  rework : List Rework := []
  attempts : Nat := 0
  attemptWfn : DWord := 0
  keys : List LogKey := []
  halt : Nat := 0
  hold : Bool := false
  retires : List Retire := []
  resumeAt : Option DWord := none
  exportPeer : Option Nat := none
  results : List VotePl := []
  received : List VotePl := []
  nextFn : DWord := 0
  noVote : List DWord := []
  applied : Bool := false
  own : Option VotePl := none
  children : List (Nat × VotePl) := []
  sentFor : Option DWord := none
  combined : Option VotePl := none
  capHalt : Bool := false
  watchFn : DWord := 0
  shpPrev : SMap Word := []
  shpCur : SMap Word := []
  deriving DecidableEq, Repr, Inhabited

/-- One image slot (R254). -/
structure SlotSt where
  state : Nat := 0
  addr : Nat := 0
  len : Nat := 0
  tag : Nat := 0
  content : Option ImageContent := none
  deriving DecidableEq, Repr, Inhabited

/-- A pending activation (R257, R259): the slot, A, the shift H, the deferrals made, and whether its readiness has
succeeded, so that it is carried out at tick A. -/
structure Pend where
  slot : Nat
  a : DWord
  h : Nat
  deferrals : Nat
  whole : Bool
  go : Bool
  deriving DecidableEq, Repr, Inhabited

/-- The image unit (R250 to R269). `sides` holds the units of the ping-pong regions whose current side is 1, keyed by
region × 2^30 + unit; `updRec` the WFN plus 1 of the last UPDATE of each region (R233). `unitInfo` holds the WFN and metadata of what each unit's current side holds (R382). `groups` gives the slot of each
active group image, `groupBase` the WFN of its first load frame; `actA` is A of the last activation and `wholeA` that of the
active whole image (R261). Frames before `quietTo` run quiet (R259), or only the cores of `quietGroup`. `cores`,
`macros`, `hbmBytes` and `capFn` are the capacity record (Table 10.7); `varCount` counts the frames of R264 and `varSkip` leaves the running frame out of that count, `nextFrame`
is the FRAME section to load at the next tick (R416). -/
structure ImageSt where
  slots : List SlotSt := [{}, {}, {}, {}]
  pend : Option Pend := none
  whole : Option Nat := none
  groups : List (Nat × Nat) := []
  groupBase : List (Nat × DWord) := []
  actA : DWord := 0
  wholeA : DWord := 0
  quietTo : DWord := 0
  quietGroup : Option Nat := none
  sides : SMap Bool := []
  updRec : SMap DWord := []
  unitInfo : SMap (DWord × Word) := []
  varCount : Nat := 0
  varSkip : Bool := false
  cores : List Nat := List.replicate 12 64
  macros : SMap Nat := []
  hbmBytes : Nat := 309036318720
  capFn : DWord := 0
  nextFrame : Option FrameSect := none
  deriving DecidableEq, Repr, Inhabited

/-- A command in the command FIFO (R372). -/
structure CmdEntry where
  port : Nat
  tag : Nat
  cmd : Cmd
  deriving DecidableEq, Repr, Inhabited

/-- An entry of the event FIFO (R374). -/
structure EvEntry where
  seq : Nat
  ev : Event
  sent : Bool
  deriving DecidableEq, Repr, Inhabited

/-- An ANSWER frame (Table 15.1). -/
structure Answer where
  tag : Nat
  op : Nat
  status : Nat
  fn : DWord
  nonconf : Bool := false
  blk : Nat := 0
  ready : Bool := false
  uncommitted : Bool := false
  md : BitVec 14 := 0
  data : List Byte := []
  deriving DecidableEq, Repr, Inhabited

/-- A CONSUME or ATTEST that waits for the next tick, with the FN at its arrival (R381, R398). -/
structure WaitRead where
  fn : DWord
  port : Nat
  tag : Nat
  core : Nat
  slot : Nat
  len : Nat
  deriving DecidableEq, Repr, Inhabited

/-- The high-word latch of one access path (R427): the register and the word. -/
structure Latch where
  addr : Nat
  v : Word
  deriving DecidableEq, Repr, Inhabited

/-- The Drundoha ports (R367 to R384). -/
structure PortSt where
  fifo : List CmdEntry := []
  events : List EvEntry := []
  seq : Nat := 0
  lostPending : Bool := false
  answers : List Answer := []
  stage : List Staged := []
  waitConsume : List WaitRead := []
  waitAttest : List WaitRead := []
  resultTags : SMap Bool := []
  resultInfo : SMap (DWord × Word) := []
  latch0 : Option Latch := none
  latch1 : Option Latch := none
  deriving DecidableEq, Repr, Inhabited

/-- The governor (R349 to R365). Powers in W; `input` is 0 off, 2 on, 3 low, 4 high. `samples` are the input powers of the
last millisecond and `means` the last 1,000 millisecond means, newest first; `tj` are the hottest readings of each die in the
last millisecond, `tjMax` those of the present one. `msRise` counts milliseconds since C_TH rose. -/
structure PowerSt where
  input : Nat := 0
  samples : List Nat := []
  ballasts : List Nat := []
  ballast : Nat := 0
  means : List Nat := []
  cap : Bool := false
  overThisFrame : Bool := false
  capThisFrame : Bool := false
  satThisMs : Bool := false
  target : Nat := 0
  targetMoved : Bool := false
  workBudget : Nat := 0
  descentWait : Option Nat := none
  descending : Bool := false
  preRamp : Option (Nat × Nat × Nat) := none
  ramping : Bool := false
  cV : Nat := 50
  cTh : Nat := 50
  pendCeff : Nat := 50
  msRise : Nat := 10
  tj : List Nat := List.replicate 13 0
  tjMax : List Nat := List.replicate 13 0
  ampleFrames : List Nat := List.replicate 12 0
  raise : List Bool := List.replicate 12 false
  deriving DecidableEq, Repr, Inhabited

/-- A physical page of the NVM (R400). -/
structure NvPage where
  data : List Byte := []
  gen : Nat := 0
  writes : Nat := 0
  group : Nat := 0
  page : Nat := 0
  len : Nat := 0
  complete : Bool := false
  worn : Bool := false
  deriving DecidableEq, Repr, Inhabited

/-- A store of the security core (R402): its group, TAG, pages still to write with their data, the transition it belongs to, and
whether the hold-up energy for all of them was checked before it began (R393). -/
structure StoreRec where
  group : Nat
  tag : Nat
  src : Nat
  pages : List (Nat × List Byte)
  transition : Option Nat
  checked : Bool
  deriving DecidableEq, Repr, Inhabited

/-- The security core (R385 to R407). -/
structure SecSt where
  nvm : SMap NvPage := []
  queue : List StoreRec := []
  running : Bool := false
  identity : Option (BitVec 256) := none
  opKey : Option (BitVec 512) := none
  stopped : Bool := false
  vendorHash : BitVec 256 := 0
  secret : BitVec 256 := 0
  fwDigest : BitVec 256 := 0
  newState : Option Nat := none
  cal : List Byte := []
  deriving DecidableEq, Repr, Inhabited

/-- Retirement and self-test (R344, R405, R411 to R422). `retired` holds the set bits of the live retirement map by
byte × 8 + bit; `pcoreOf` gives the physical core behind each logical core where a swap moved it. -/
structure TestSt where
  retired : SMap Bool := []
  pcoreOf : SMap Nat := []
  pmacroOf : SMap Nat := []
  coreTest : List (Option Nat) := List.replicate 12 none
  coreNext : List Nat := List.replicate 12 0
  dieHeld : List Bool := List.replicate 12 false
  thermHeld : List Bool := List.replicate 13 false
  pendCtrl : Option Word := none
  flitResend : SMap Nat := []
  flitSecond : SMap Nat := []
  hubFailed : Bool := false
  deriving DecidableEq, Repr, Inhabited

/-- The service port (R436 to R439). -/
structure ServiceSt where
  dynAddr : Option Nat := none
  result : Option (Nat × Word) := none
  latch : Option Latch := none
  ibiPending : Bool := false
  deriving DecidableEq, Repr, Inhabited

/-- Physical errors that the spec's checks can meet, as differences from the error-free contents (R72 to R75, R89,
R148): flipped bits per 39-bit codeword with the bits that fail again after a write-back, differences of residues,
wrong window sums, and the sensor slack of each column block. `descFlip` holds the flipped bits of the descriptor store, by
core × 8192 + descriptor × 16 + word; `pathFlip` and `tokFlip` those that the next instruction and the next token message of
a core meet, `netFlip` those of the next pair on the network of a die (12 for the hub fabric); `unitErr` is the amount, in units
of the last place, by which the next result of a drain unit (4 × core), a core node (+ 1), a vector unit (+ 2), a die node
(3072 + d) or the hub node (3084) is wrong (R317). -/
structure ErrSt where
  macFlip : SMap (BitVec 39) := []
  macHard : SMap (BitVec 39) := []
  scaleFlip : SMap (BitVec 39) := []
  rowRes : SMap Nat := []
  colRes : SMap Nat := []
  colFlip : SMap (BitVec 39) := []
  treeErr : SMap Int := []
  wideErr : SMap Int := []
  slack : SMap (BitVec 8) := []
  spFlip : SMap (BitVec 39) := []
  spHard : SMap (BitVec 39) := []
  hbmBad : SMap Bool := []
  descFlip : SMap (BitVec 39) := []
  pathFlip : SMap (BitVec 39) := []
  tokFlip : SMap (BitVec 39) := []
  netFlip : SMap (BitVec 39) := []
  unitErr : SMap Int := []
  deriving DecidableEq, Repr, Inhabited

/-- What the block sends (DESIGN CHOICE, log entry 5). -/
inductive Out where
  | block (link : Nat) (w : BitVec 64)
  | packet (link : Nat) (p : Packet)
  | frame (port : Nat) (f : Frame)
  | planRequest (core seq : Nat) (e : Ext)
  | token (core tok cnt : Nat)
  | regValue (path : Path) (v : Word) (st : Nat)
  | regStatus (path : Path) (st : Nat)
  | inBandInterrupt
  | serviceResult (bytes : List Byte)
  | serviceIdentity (id : BitVec 48) (bcr dcr : Byte)
  deriving DecidableEq, Repr, Inhabited

end Sys2Proof.Machine
end

