-- ==== Sys2Proof/Machine/State.lean ====
section
/-! DEFINITION. The machine state as plain data, the stops, and the state right after reset. -/

namespace Sys2Proof.Machine

/-- The reasons a step can stop with a fault. The spec gives every command an effect, so no meaning raises one; the
type has the one constructor a core needs. -/
inductive Fault where
  /-- Raised by no command: safe. -/
  | none
  deriving DecidableEq, Repr

/-- The reasons a command has no meaning. -/
inductive Refusal where
  /-- Raised by a command whose meaning is not in the model yet: safe, the machine stops where the hardware goes on. -/
  | notModelled (mnemonic : String)
  deriving DecidableEq, Repr

/-- The block. `regs` holds the stored registers by local address (R17); the memories and stores are keyed as Ops.lean
says; `flight` holds the token messages on their way (R273) as core, token and count, oldest first. -/
structure State where
  regs : SMap Word := []
  hbm : Mem := []
  spad : Mem := []
  mac : Mem := []
  scale : SMap Byte := []
  ptags : SMap PosTag := []
  err : ErrSt := {}
  cores : SMap Core := []
  dieNodes : SMap Node := []
  hubNode : Node := {}
  flight : List (Nat × Nat × Nat) := []
  tk : TickSt := {}
  links : SMap LinkSt := []
  chip : ChipSt := {}
  fx : CommitSt := {}
  img : ImageSt := {}
  port : PortSt := {}
  pwr : PowerSt := {}
  sec : SecSt := {}
  bist : TestSt := {}
  svc : ServiceSt := {}
  freeCount : Nat := 0
  out : List Out := []
  pending : List Instr := []
  deriving DecidableEq, Repr

/-- The machine right after reset: every register at the value its table gives (RegMap.lean, `regReset`), every buffer
and queue empty, FN and WFN 0, no image (R429; log entry 2 names the values the spec does not give). -/
def State.reset : State := {}

end Sys2Proof.Machine
end

