-- ==== Sys2Proof/Machine/Ops.lean ====
section
/-! DEFINITION. The named operations over the state: registers, cores, links, queues, events, detected faults, token
messages, and the physical units behind the logical ones. -/

namespace Sys2Proof.Machine

/-! ### Registers and parts -/

/-- A stored register. -/
def State.reg (s : State) (a : Nat) : Word := SMap.get regReset s.regs a
/-- Write a stored register. -/
def State.setReg (s : State) (a : Nat) (v : Word) : State := { s with regs := SMap.set regReset s.regs a v }
/-- Whether bit i of a register is set. -/
def State.regBit (s : State) (a i : Nat) : Bool := bit (s.reg a) i
/-- Set a bit of a register, as hardware sets a sticky bit. -/
def State.setBit (s : State) (a i : Nat) : State := s.setReg a (setB (s.reg a) i)
/-- Clear a bit of a register. -/
def State.clrBit (s : State) (a i : Nat) : State := s.setReg a (clrB (s.reg a) i)
/-- Put a bit of a register at b. -/
def State.putBit (s : State) (a i : Nat) (b : Bool) : State := s.setReg a (putB (s.reg a) i b)
/-- The field at lo of width w of a register. -/
def State.regFld (s : State) (a lo w : Nat) : Nat := fld (s.reg a) lo w
/-- Write a field of a register. -/
def State.setFld (s : State) (a lo w v : Nat) : State := s.setReg a (putFld (s.reg a) lo w v)
/-- Add n to a counter field, saturating. -/
def State.addCnt (s : State) (a lo w n : Nat) : State :=
  s.setFld a lo w (satAdd (s.regFld a lo w) n (2 ^ w - 1))
/-- Raise a field to at least v. -/
def State.maxFld (s : State) (a lo w v : Nat) : State := s.setFld a lo w (max (s.regFld a lo w) (min v (2 ^ w - 1)))
/-- A 64-bit register pair (R13). -/
def State.reg64 (s : State) (a : Nat) : DWord := (s.reg (a + 4)) ++ (s.reg a)
/-- Write a 64-bit register pair. -/
def State.setReg64 (s : State) (a : Nat) (v : DWord) : State :=
  (s.setReg a (v.setWidth 32)).setReg (a + 4) ((v >>> 32).setWidth 32)

/-- The core numbered 64d + c. -/
def State.core (s : State) (i : Nat) : Core := SMap.get (fun _ => {}) s.cores i
/-- Write a core. -/
def State.setCore (s : State) (i : Nat) (c : Core) : State := { s with cores := SMap.set (fun _ => {}) s.cores i c }
/-- Change a core. -/
def State.modCore (s : State) (i : Nat) (f : Core → Core) : State := s.setCore i (f (s.core i))
/-- Link i. -/
def State.link (s : State) (i : Nat) : LinkSt := SMap.get (fun _ => {}) s.links i
/-- Write a link. -/
def State.setLink (s : State) (i : Nat) (l : LinkSt) : State := { s with links := SMap.set (fun _ => {}) s.links i l }
/-- Change a link. -/
def State.modLink (s : State) (i : Nat) (f : LinkSt → LinkSt) : State := s.setLink i (f (s.link i))
/-- A seif node (Table 5.4). -/
def State.node (s : State) (n : NodeId) : Node :=
  match n with
  | .core i => (s.core i).node
  | .die d => SMap.get (fun _ => {}) s.dieNodes d
  | .hub => s.hubNode
/-- Write a seif node. -/
def State.setNode (s : State) (n : NodeId) (x : Node) : State :=
  match n with
  | .core i => s.modCore i fun c => { c with node := x }
  | .die d => { s with dieNodes := SMap.set (fun _ => {}) s.dieNodes d x }
  | .hub => { s with hubNode := x }
/-- Change the sandglass. -/
def State.modTk (s : State) (f : TickSt → TickSt) : State := { s with tk := f s.tk }
/-- Change the commit unit. -/
def State.modFx (s : State) (f : CommitSt → CommitSt) : State := { s with fx := f s.fx }
/-- Change the record of the running frame. -/
def State.modCur (s : State) (f : FrameRec → FrameRec) : State := s.modFx fun x => { x with cur := f x.cur }
/-- Change the image unit. -/
def State.modImg (s : State) (f : ImageSt → ImageSt) : State := { s with img := f s.img }
/-- Change the Drundoha ports. -/
def State.modPort (s : State) (f : PortSt → PortSt) : State := { s with port := f s.port }
/-- Change the governor. -/
def State.modPwr (s : State) (f : PowerSt → PowerSt) : State := { s with pwr := f s.pwr }
/-- Change the security core. -/
def State.modSec (s : State) (f : SecSt → SecSt) : State := { s with sec := f s.sec }
/-- Change the self-test unit. -/
def State.modBist (s : State) (f : TestSt → TestSt) : State := { s with bist := f s.bist }
/-- Change the service port. -/
def State.modSvc (s : State) (f : ServiceSt → ServiceSt) : State := { s with svc := f s.svc }
/-- Change the error store. -/
def State.modErr (s : State) (f : ErrSt → ErrSt) : State := { s with err := f s.err }
/-- Send something out of the block (log entry 5). -/
def State.send (s : State) (o : Out) : State := { s with out := o :: s.out }
/-- The next free value of width w (log entry 3). -/
def State.free (s : State) (w : Nat) : BitVec w := Config.free w s.freeCount
/-- The state after a free value is taken. -/
def State.usedFree (s : State) : State := { s with freeCount := s.freeCount + 1 }

/-- Apply a state change for each element of a list, in order. -/
def forEach {α : Type} (l : List α) (f : α → State → State) (s : State) : State := l.foldl (fun t x => f x t) s

/-- Apply a change where a condition holds. -/
def whenS (b : Bool) (f : State → State) (s : State) : State := if b then f s else s

/-- What every command answers: the next state, in which the queue is as it was. -/
def answer (s t : State) : Host.Outcome State Fault Refusal := .next { t with pending := s.pending }

/-! ### Image and identity -/

/-- The 768 cores. -/
def allCores : List Nat := List.range 768
/-- The content of a slot. -/
def State.slotContent (s : State) (i : Nat) : Option ImageContent := (nth {} s.img.slots i).content
/-- The content of the active whole image. -/
def State.image (s : State) : Option ImageContent := s.img.whole.bind fun i => s.slotContent i
/-- The group that a core belongs to (R261). -/
def groupOf (s : State) (core : Nat) : Option Nat :=
  s.image.bind fun c => (List.range c.groups.length).find? fun g => (nth [] c.groups g).contains core

/-- The image that governs a core: that of its group, where one is active, or the whole image (R262). -/
def State.contentOf (s : State) (core : Nat) : Option ImageContent :=
  match (groupOf s core).bind fun g => s.img.groups.find? fun x => x.1 = g with
  | some x => s.slotContent x.2
  | none => s.image

/-- Whether an image is active. -/
def State.active (s : State) : Bool := s.img.whole.isSome
/-- The schedule variant running (Table 2.12). -/
def State.variant (s : State) : Nat := s.regFld ftStatus 8 2
/-- This module's ID (R296). -/
def State.moduleId (s : State) : Nat := s.regFld clId 0 14
/-- Whether a module ID is loaded. -/
def State.idValid (s : State) : Bool := s.regBit clId 31
/-- FN (R37). -/
def State.fn (s : State) : DWord := s.tk.fn
/-- The WFN of the running frame (R320). -/
def State.wfn (s : State) : DWord := s.fx.cur.wfn
/-- The ping-pong regions in force, with their indices (R327). -/
def State.regions (s : State) : List (Nat × Region) :=
  match s.image with
  | none => []
  | some c => (List.range c.pingpong.regions.length).zip c.pingpong.regions

/-! ### Logical and physical units -/

/-- The physical core behind a logical core (R340). -/
def State.pcore (s : State) (core : Nat) : Nat := SMap.get (fun i => i % 64) s.bist.pcoreOf core
/-- The index of a logical core's physical core, d × 66 + pcore. -/
def State.pcIx (s : State) (core : Nat) : Nat := core / 64 * 66 + s.pcore core
/-- The physical macro that serves a logical macro: the spare of a rotation step (R418), else MC_ROLE.PMACRO. -/
def State.pmacro (s : State) (core lm : Nat) : Nat :=
  match SMap.get (fun _ => 0) s.bist.pmacroOf (core * 256 + lm) with
  | 0 => s.regFld (roleA core lm) 8 9
  | n + 1 => n
/-- The index of a physical macro of the module, (d × 66 + pcore) × 264 + pmacro (Table 16.14). -/
def State.pmIx (s : State) (core lm : Nat) : Nat := s.pcIx core * 264 + s.pmacro core lm
/-- Usable logical cores of a die (Table 10.7). -/
def State.coresOf (s : State) (d : Nat) : Nat := nth 0 s.img.cores d
/-- Whether capacity still offers a logical core (R266). -/
def State.coreOffered (s : State) (core : Nat) : Bool := decide (core % 64 < s.coresOf (core / 64))
/-- Usable logical macros of a core (Table 10.7); 0 for a core that capacity no longer offers. -/
def State.macrosOf (s : State) (core : Nat) : Nat :=
  if s.coreOffered core then SMap.get (fun _ => 256) s.img.macros core else 0
/-- The role of a logical macro; 0 beyond the capacity that remains (R82, R266). -/
def State.role (s : State) (core lm : Nat) : Nat := if lm < s.macrosOf core then s.regFld (roleA core lm) 0 3 else 0
/-- The weight format of a logical macro (Table 3.16). -/
def State.mfmt (s : State) (core lm : Nat) : Nat := s.regFld (roleA core lm) 3 2
/-- POSUNIT of a logical macro: true for column groups. -/
def State.colPos (s : State) (core lm : Nat) : Bool := s.regBit (roleA core lm) 5
/-- DEFER of a logical macro. -/
def State.deferBit (s : State) (core lm : Nat) : Bool := s.regBit (roleA core lm) 6
/-- Whether a unit of the live retirement map is retired (R405): map byte base and bit within the part. -/
def State.isRetired (s : State) (byteBase i : Nat) : Bool := SMap.get (fun _ => false) s.bist.retired (byteBase * 8 + i)
/-- Mark a unit of the live retirement map (R344). -/
def State.markRetired (s : State) (byteBase i : Nat) : State :=
  s.modBist fun b => { b with retired := SMap.set (fun _ => false) b.retired (byteBase * 8 + i) true }

/-! ### Queues and events -/

/-- The depth of a queue (Table 11.3). -/
def queueDepth (hubBlock : Bool) (q : Nat) : Nat :=
  if hubBlock then (if q = 0 then 64 else if q = 1 then 256 else 64)
  else if q < 20 then 16
  else match q with
    | 20 => 8 | 21 => 16 | 22 => 16 | _ => 8

/-- The ANSWER frame of an answer (R369); the spec gives no ADDR and no CORE of it (log entry 145). -/
def answerFrame (a : Answer) : Frame :=
  let r := Config.answerRef a.tag
  sealFrame
    { ftype := 0x81, flags := a.nonconf.toNat + 2 * (a.blk % 4) + 8 * a.ready.toNat + 16 * a.uncommitted.toNat, status := a.status,
      op := a.op, tag := a.tag, fn := a.fn, addr := r.1 % 2 ^ 48, core := r.2 % 65536, md := a.md.toNat, data := a.data }

/-- The 32 bytes of an event entry (Table 15.6). -/
def entryBytes (e : EvEntry) : List Byte :=
  leBytes e.seq 6 ++ leBytes e.ev.kind 1 ++ leBytes e.ev.status 1 ++ leBytes e.ev.fn.toNat 8 ++ leBytes e.ev.addr 6 ++
    leBytes e.ev.bitIx 1 ++ leBytes e.ev.lost.toNat 1 ++ leBytes e.ev.data 8

/-- An EVENT frame (R374): its entries; the spec gives no other field of its header (log entry 145). -/
def eventFrame (l : List EvEntry) : Frame :=
  let h := Config.eventHead ((l.head?.map (·.seq)).getD 0)
  sealFrame
    { ftype := 0x82, status := h 2 % 256, op := h 3 % 256, tag := h 4 % 2 ^ 32, fn := BitVec.ofNat 64 (h 8), addr := h 16 % 2 ^ 48,
      core := h 22 % 65536, md := h 28 % 65536, data := l.flatMap entryBytes }

/-- One entry of the event FIFO leaves on every UP port (R374). -/
def sendEvent (e : EvEntry) (s : State) : State :=
  forEach [0, 1] (fun p t =>
    if t.regBit (dpPortStat p) 0 then t.send (.frame p (eventFrame [e])) else t) s

/-- The level rule of a queue whose depth goes from d0 to d1 at register base a (R282). The crossing is reported by the
second component; the state has LVL_HIT set and PEAK raised. -/
def levelRule (a d0 d1 : Nat) (s : State) : State × Bool :=
  let lvl := s.regFld a 0 10
  let cross := decide (0 < lvl ∧ d0 < lvl ∧ lvl ≤ d1)
  let news := cross && !(s.regBit (a + 4) 16)
  let s := s.maxFld (a + 8) 0 9 d1
  let s := s.setFld (a + 4) 0 9 d1
  (whenS cross (fun t => t.setBit (a + 4) 16) s, news)

/-- An event enters the event FIFO with the next SEQ, or is dropped at a full FIFO (R281, R374). A crossing of its own
level goes to the service port (R283, R439). -/
def pushEvent (e : Event) (s : State) : State :=
  let d := s.port.events.length
  if 256 ≤ d then
    let s := (s.setBit (hubQA 1 4) 18).addCnt (hubQA 1 8) 16 16 1
    (s.setBit dpSticky 4).modPort fun p => { p with lostPending := true }
  else
    let up := s.regBit (dpPortStat 0) 0 || s.regBit (dpPortStat 1) 0
    let lost := e.lost || (up && s.port.lostPending)
    let n := (s.port.seq + 1) % 2 ^ 48
    let entry : EvEntry := { seq := n, ev := { e with lost := lost }, sent := up }
    let s := s.modPort fun p => { p with events := p.events ++ [entry], seq := n, lostPending := p.lostPending && !up }
    let (s, news) := levelRule (hubQA 1 0) d (d + 1) s
    let s := whenS news (fun t =>
      (t.send .inBandInterrupt).modSvc fun v => { v with ibiPending := true }) s
    whenS up (sendEvent entry) s

/-- An event of KIND 0 (Table 15.6). -/
def event0 (fn : DWord) (addr bitIx status data : Nat) : Event :=
  { kind := 0, status := status, fn := fn, addr := addr, bitIx := bitIx, data := data }

/-- Raise a KIND 0 event at once, with the FN of the present tick. -/
def raise0 (addr bitIx status data : Nat) (s : State) : State := pushEvent (event0 s.fn addr bitIx status data) s

/-- Stage an event of the running frame until its commit (R328). -/
def stageEvent (e : Event) (s : State) : State :=
  s.modCur fun f => if f.events.length < 64 then { f with events := f.events ++ [e] } else { f with beyond := f.beyond + 1 }

/-- Stage a KIND 0 event of the running frame. -/
def stage0 (addr bitIx status data : Nat) (s : State) : State := stageEvent (event0 s.wfn addr bitIx status data) s

/-- Set a sticky bit of a core and stage its event with status PROGRAM_ERROR; ADDR names the core's register. -/
def stickyEvent (addr bitIx : Nat) (s : State) : State :=
  stage0 addr bitIx stProgramError 0 (s.setBit addr bitIx)

/-- The crossing event of a hub queue other than the event FIFO, and of the core queues (R282). -/
def queueDepthChange (q d0 d1 : Nat) (s : State) : State :=
  let (s, news) := levelRule (hubQA q 0) d0 d1 s
  whenS news (raise0 (hubQA q 4) 16 stOK q) s

/-! ### Core queues (R277 to R282) -/

/-- The stages that a core queue holds, head first (R279). -/
def Core.queue (c : Core) (q : Nat) : List Nat := SMap.get (fun _ => []) c.queues q

/-- The division of a queue's depth among its producers: that which the image has loaded, or the whole depth for its single
producer (R278). -/
def divisionOf (c : Core) (q : Nat) : List Nat :=
  match (c.credits.filter fun e => e.1 = q).flatMap (·.2) with
  | [] => [queueDepth false q]
  | l => l

/-- The credits that the producers of a queue have left: a stage takes one when it is pushed and gives it back when it is popped
(R277). The model has one producer push at a time, so the producers' counters are held as their sum. -/
def creditsLeft (c : Core) (q : Nat) : Nat := min (queueDepth false q) (sumN (divisionOf c q)) - (c.queue q).length

/-- The stages of a core queue change: its depth, level and peak follow, and a crossing of its level raises an event that names
the block and q (R282). -/
def setQueue (core q : Nat) (l : List Nat) (s : State) : State :=
  let d0 := ((s.core core).queue q).length
  let s := s.modCore core fun c => { c with queues := SMap.set (fun _ => []) c.queues q l }
  if d0 = l.length then s
  else
    let (s, news) := levelRule (coreQA core q 0) d0 l.length s
    whenS news (raise0 (coreQA core q 4) 16 stOK q) s

/-- A producer with a credit pushes an item of one stage; without one it stalls, and nothing is pushed. -/
def pushQueue (core q item : Nat) (s : State) : State :=
  if creditsLeft (s.core core) q = 0 then s else setQueue core q ((s.core core).queue q ++ [item]) s

/-- The consumer pops the first stage that holds an item. -/
def popQueue (core q item : Nat) (s : State) : State := setQueue core q (((s.core core).queue q).erase item) s

/-- An item passes through a queue: its consumer takes it in a cycle after its push (R280). -/
def passQueue (core q item : Nat) (s : State) : State :=
  if creditsLeft (s.core core) q = 0 then s else popQueue core q item (pushQueue core q item s)

/-! ### Detected faults -/

/-- Whether a location can be classed permanent (R322). -/
def permanentKind (l : Loc) : Bool := !(l.unit = 1 && l.det = 13) && !(l.unit = 10)

/-- W0 of a fault-log entry (Table 13.17). -/
def logW0 (cls : Nat) (l : Loc) : Word :=
  BitVec.ofNat 32 (cls * 2 ^ 28 + l.unit * 2 ^ 24 + l.die * 2 ^ 20 + l.pcore * 2 ^ 13 + l.index * 16 + l.det)

/-- An event of the fault and recovery unit: FX_STICKY, the bit, the entry and the action (R347). Its FN is the WFN of the frame
for an entry created and for a location classed, and the FN of the tick otherwise (Table 15.6). -/
def raiseFx (fn : DWord) (bitIx entry action : Nat) (s : State) : State :=
  pushEvent (event0 fn fxSticky bitIx stOK (entry + 256 * action)) s

/-- The usable logical core behind which a physical core of a die stands. -/
def logicalOf (s : State) (die pcore : Nat) : Option Nat :=
  ((List.range (s.coresOf die)).map fun c => 64 * die + c).find? fun i => s.pcore i = pcore

/-- Whether a retirement is of a bank that is OFF under the active image (R168). -/
def offBank (s : State) (l : Retire) : Bool :=
  decide (l.unit = 2) && s.active && (logicalOf s l.die l.pcore).any fun core =>
    decide (s.regFld (spA core (if l.index < 16 then 0x20 else 0x24)) (2 * (l.index % 16)) 2 = 0)

/-- Ask for the retirement of the unit of a permanent location (Table 13.2), whose fault-log entry is i. A location of the vote or of a clock, supply or temperature retires no unit of this table. -/
def requestRetire (i : Nat) (l : Loc) (s : State) : State :=
  let r : Retire := { unit := l.unit, die := l.die, pcore := l.pcore, index := l.index, started := false, entry := i }
  if s.fx.retires.any fun x => x.unit = r.unit && x.die = r.die && x.pcore = r.pcore && x.index = r.index then s
  else if l.unit ≤ 2 ∨ l.unit = 5 then
    s.modFx fun f => { f with retires := f.retires ++ [r] }
  else s

/-- Write a new entry of the fault log, a ring of 64 (R347). -/
def newLogEntry (cls : Nat) (l : Loc) (source attempt : Nat) (wfn : DWord) (s : State) : State :=
  let i := s.regFld fxLogHead 0 6
  let wraps := s.fx.keys.any fun k => k.ix = i && !k.read
  let s := whenS wraps (fun t => t.setBit fxSticky 10) s
  let s := s.setReg (logA i 0) (logW0 cls l)
  let s := s.setReg (logA i 1) (BitVec.ofNat 32 (2 ^ 16 + source * 2 ^ 12 + attempt % 2 ^ 12))
  let s := s.setReg64 (logA i 2) wfn
  let s := (s.addCnt fxLogHead 16 16 1).setFld fxLogHead 0 6 (i + 1)
  let key : LogKey :=
    { ix := i, loc := l, wfn := wfn, source := source, replays := if attempt = 0 then [] else [attempt], read := false }
  let s := s.modFx fun f => { f with keys := (f.keys.filter fun k => k.ix ≠ i) ++ [key] }
  raiseFx wfn 0 i 0 s

/-- Class the location of entry i as permanent and ask for its retirement (R322). -/
def classPermanent (i : Nat) (l : Loc) (s : State) : State :=
  let s := s.setFld (logA i 0) 28 4 2
  requestRetire i l (raiseFx s.wfn 0 i 1 s)

/-- Record a detection at a location in a log entry of the running work frame (R321, R322, R347). -/
def logDetection (l : Loc) (s : State) : State :=
  let a := s.fx.cur.attempt
  let w := s.wfn
  match s.fx.keys.find? fun k => k.loc = l && k.wfn = w && k.source = 0 with
  | none => newLogEntry 1 l 0 a w s
  | some k =>
    let reps := if a = 0 ∨ k.replays.contains a then k.replays else k.replays ++ [a]
    let s := (s.addCnt (logA k.ix 1) 16 16 1).setFld (logA k.ix 1) 0 12 a
    let s := s.modFx fun f =>
      { f with keys := f.keys.map fun x => if x.ix = k.ix then { x with replays := reps, read := false } else x }
    if permanentKind l ∧ 3 ≤ reps.length ∧ s.regFld (logA k.ix 0) 28 4 = 1 then classPermanent k.ix l s else s

/-- A detected fault of the running frame (R317): recorded, counted, logged, and the module votes FAIL. -/
def detectFault (l : Loc) (s : State) : State :=
  let s := (s.setBit fxSticky 0).addCnt fxCnt 0 16 1
  let s := s.modCur fun f => { f with fault := true, locs := if f.locs.contains l then f.locs else f.locs ++ [l] }
  logDetection l s

/-- A location in the physical core of a logical core. -/
def coreLoc (s : State) (core unit index det : Nat) : Loc :=
  { unit := unit, die := core / 64, pcore := s.pcore core, index := index, det := det }

/-- The route location of a Chipra fault (R322). -/
def routeLoc : Loc := { unit := 10, die := 12, pcore := 0, index := 0, det := 10 }

/-- A hard error that scrub found and corrected: an entry of CLASS 3, and the unit is retired (R88, R322). -/
def hardError (l : Loc) (s : State) : State :=
  match s.fx.keys.find? fun k => k.loc = l && k.wfn = s.wfn with
  | some k => (s.addCnt (logA k.ix 1) 16 16 1).modFx fun f =>
      { f with keys := f.keys.map fun x => if x.ix = k.ix then { x with read := false } else x }
  | none =>
    let i := s.regFld fxLogHead 0 6
    classPermanentOf i l (newLogEntry 3 l 0 s.fx.cur.attempt s.wfn s)
where
  /-- The entry keeps CLASS 3; the classing is reported and the unit retired. -/
  classPermanentOf (i : Nat) (l : Loc) (s : State) : State := requestRetire i l (raiseFx s.wfn 0 i 1 s)

/-- A current version is lost (R343): the module votes LOST. -/
def versionLost (s : State) : State := (s.setBit fxSticky 8).modCur fun f => { f with lost := true }

/-! ### Tokens -/

/-- The value of a token counter (R270). -/
def Core.token (c : Core) (k : Nat) : Nat := SMap.get (fun _ => 0) c.tokens k
/-- Write a token counter. -/
def Core.setToken (c : Core) (k v : Nat) : Core := { c with tokens := SMap.set (fun _ => 0) c.tokens k v }

/-- Send a token message (R273). -/
def sendToken (core tok cnt : Nat) (s : State) : State :=
  { (s.send (.token core tok cnt)) with flight := s.flight ++ [(core, tok, cnt)] }

/-! ### Metadata and the numerics watch -/

/-- The metadata word of a descriptor for the frame (R210). -/
def Core.mdOf (c : Core) (td : Nat) : Word := SMap.get (fun _ => 0) c.mdw td
/-- OR flags into the metadata word of a descriptor (R210); the watch keeps the same word (R246). -/
def orMeta (core td : Nat) (md : Word) (s : State) : State :=
  s.modCore core fun c => { c with mdw := SMap.set (fun _ => 0) c.mdw td (c.mdOf td ||| md) }

/-- A metadata word with one flag of Table 8.6. -/
def mdFlag (i : Nat) : Word := BitVec.ofNat 32 (2 ^ i)

/-- The watch record of a descriptor in the running frame (R246). -/
def Core.watchOf (c : Core) (td : Nat) : WatchRec := SMap.get (fun _ => {}) c.cur.watch td

/-- Add to the counts of a descriptor, saturating at 0xFFFF_FFFF (R246). -/
def addWatch (core td zeros sats nonfin : Nat) (s : State) : State :=
  if zeros + sats + nonfin = 0 then s
  else s.modCore core fun c =>
    let r := c.watchOf td
    let r' : WatchRec :=
      { r with zeros := satAdd r.zeros zeros 0xFFFFFFFF, sats := satAdd r.sats sats 0xFFFFFFFF,
               nonfin := satAdd r.nonfin nonfin 0xFFFFFFFF }
    { c with cur := { c.cur with watch := SMap.set (fun _ => {}) c.cur.watch td r' } }

/-- A descriptor (R211). -/
def Core.td (c : Core) (i : Nat) : BitVec 512 := SMap.get (fun _ => 0) c.desc i

end Sys2Proof.Machine
end

