-- ==== Sys2Proof/Machine/Operands.lean ====
section
/-! DEFINITION. Every operand form: instruction fields (Tables 8.1 to 8.5), descriptor fields (Table 8.7), extents and
strides (R183, R184), and reads and writes of the scratchpad (R146 to R167) and of HBM (R255, R325, R326). -/

namespace Sys2Proof.Machine

/-! ### Descriptor fields (Table 8.7) -/

def dBase (d : BitVec 512) : Nat := fld d 0 48
def dModule (d : BitVec 512) : Nat := fld d 48 14
def dMbase (d : BitVec 512) : Nat := fld d 0 8
def dKt0 (d : BitVec 512) : Nat := fld d 8 16
def dKtc (d : BitVec 512) : Nat := fld d 24 9
def dNt0 (d : BitVec 512) : Nat := fld d 33 16
def dNtc (d : BitVec 512) : Nat := fld d 49 9
def dEfmt (d : BitVec 512) : Nat := fld d 64 4
def dScaled (d : BitVec 512) : Bool := bit d 68
def dBlk (d : BitVec 512) : Nat := fld d 69 2
def dPlanes (d : BitVec 512) : Nat := fld d 71 4
def dAlnRnd (d : BitVec 512) : Nat := fld d 75 2
def dAlnSpan (d : BitVec 512) : Nat := fld d 77 5
def dOutEfmt (d : BitVec 512) : Nat := fld d 82 4
def dOutScaled (d : BitVec 512) : Bool := bit d 86
def dOutBlk (d : BitVec 512) : Nat := fld d 87 2
def dOutRnd (d : BitVec 512) : Nat := fld d 89 2
def dScaleSrc (d : BitVec 512) : Bool := bit d 91
def dTag (d : BitVec 512) : Nat := fld d 92 2
def dLoc (d : BitVec 512) : Nat := fld d 94 2
def dDscale (d : BitVec 512) : Word := BitVec.ofNat 32 (fld d 96 32)
def dScaleAddr (d : BitVec 512) : Nat := fld d 128 48
def dMstride (d : BitVec 512) : Nat := fld d 128 8
def dRepl (d : BitVec 512) : Nat := fld d 136 6
def dRidx (d : BitVec 512) : Nat := fld d 142 6
def dMb (d : BitVec 512) : Nat := fld d 148 11
def dWave (d : BitVec 512) : Nat := fld d 159 5
def dFwTile (d : BitVec 512) : Bool := bit d 164
def dRowsMax (d : BitVec 512) : Nat := fld d 192 28
def dColsMax (d : BitVec 512) : Nat := fld d 220 28
def dPitch (d : BitVec 512) : Nat := fld d 256 32
def dBStride (d : BitVec 512) : Nat := fld d 288 32
def dBMax (d : BitVec 512) : Nat := fld d 320 16
def dBStrideShp (d : BitVec 512) : Bool := bit d 336
def dPitchShp (d : BitVec 512) : Bool := bit d 337
def dSideStrideShp (d : BitVec 512) : Bool := bit d 338
def dSideStride (d : BitVec 512) : Nat := fld d 352 32
def dSideAddr (d : BitVec 512) : Nat := fld d 384 48
def dSideLoc (d : BitVec 512) : Bool := bit d 432
def dIndexBase (d : BitVec 512) : Nat := fld d 448 32
def dLayer (d : BitVec 512) : Nat := fld d 480 12
def dLrExp (d : BitVec 512) : Int := signed (fld d 492 8) 8

/-- Whether a reserved bit of a descriptor, in the form that its LOC selects, is not zero (R211). -/
def dReservedBad (d : BitVec 512) : Bool :=
  (if dLoc d = 2 then decide (fld d 58 6 ≠ 0) || decide (fld d 165 27 ≠ 0)
   else decide (fld d 62 2 ≠ 0) || decide (fld d 176 16 ≠ 0) || decide (fld d 433 15 ≠ 0)) ||
  decide (fld d 248 8 ≠ 0) || decide (fld d 339 13 ≠ 0) || decide (fld d 500 12 ≠ 0)

/-- The element format under which a descriptor is accessed: EFMT on a read, OUT_EFMT on a write (R212). -/
def dFmt (wr : Bool) (d : BitVec 512) : Nat := if wr then dOutEfmt d else dEfmt d
/-- SCALED or OUT_SCALED (R212). -/
def dSc (wr : Bool) (d : BitVec 512) : Bool := if wr then dOutScaled d else dScaled d
/-- The block size, from BLK or OUT_BLK (R212, R448). -/
def dBs (wr : Bool) (d : BitVec 512) : Nat := blkSize (if wr then dOutBlk d else dBlk d)

/-! ### Instruction fields (Tables 8.1 to 8.5) -/

/-- The opcode. -/
def iOp (w : BitVec 256) : Nat := fld w 0 8
def iTask (w : BitVec 256) : Nat := fld w 8 4
def iSigEn (w : BitVec 256) : Bool := bit w 12
def iWtok (w : BitVec 256) : Nat := fld w 16 10
def iWcnt (w : BitVec 256) : Nat := fld w 32 16
def iStok (w : BitVec 256) : Nat := fld w 48 10
/-- TD_W, TD_SRC (bits 72:64). -/
def iTd0 (w : BitVec 256) : Nat := fld w 64 9
/-- TD_X, TD_DST, TD_W of the write form (bits 81:73). -/
def iTd1 (w : BitVec 256) : Nat := fld w 73 9
/-- TD_Y (bits 90:82). -/
def iTdY (w : BitVec 256) : Nat := fld w 82 9
/-- TD_V (bits 99:91). -/
def iTdV (w : BitVec 256) : Nat := fld w 91 9
/-- The vector form's operands. -/
def iVa (w : BitVec 256) : Nat := fld w 72 9
def iVb (w : BitVec 256) : Nat := fld w 81 9
def iVc (w : BitVec 256) : Nat := fld w 90 9
def iKernel (w : BitVec 256) : Nat := fld w 64 8
def iImm (w : BitVec 256) : Word := BitVec.ofNat 32 (fld w 212 32)
/-- ACCUM, TO_SHP, EVICT (bit 205). -/
def iB205 (w : BitVec 256) : Bool := bit w 205
/-- ALL (bit 206). -/
def iAll (w : BitVec 256) : Bool := bit w 206
def iSide (w : BitVec 256) : Nat := fld w 206 2
def iShpIx (w : BitVec 256) : Nat := fld w 206 6
def iEpi (w : BitVec 256) : Nat := fld w 208 8
def iRop (w : BitVec 256) : Nat := fld w 216 4
def iPair (w : BitVec 256) : Bool := bit w 220
def iMask (w : BitVec 256) : Nat := fld w 216 2
def iPosShp (w : BitVec 256) : Nat := fld w 218 6
def iWinLen (w : BitVec 256) : Nat := fld w 224 16
def iProbPlanes (w : BitVec 256) : Nat := fld w 240 4
def iProbRnd (w : BitVec 256) : Nat := fld w 244 2
def iTdStat (w : BitVec 256) : Nat := fld w 246 9
def iStatEn (w : BitVec 256) : Bool := bit w 255
/-- The three extent fields, by their lowest bit: 104, 132, 160. -/
def iExt (w : BitVec 256) (lo : Nat) : Nat := fld w lo 28
/-- BCOUNT with its SRC bit. -/
def iBc (w : BitVec 256) : Nat := fld w 188 17

/-- Whether an extent field that names a shape register has a bit of [26:6] set. -/
def extBad (x : Nat) : Bool := bitN x 27 && decide (x / 64 % 2 ^ 21 ≠ 0)
/-- Whether BCOUNT names a shape register and has a bit of [15:6] set. -/
def bcBad (x : Nat) : Bool := bitN x 16 && decide (x / 64 % 2 ^ 10 ≠ 0)

/-- The value of a shape register (R183). -/
def State.shp (s : State) (core n : Nat) : Nat := (s.reg (shpA core (n % 64))).toNat

/-- The value of an extent field, read at issue. -/
def extVal (s : State) (core x : Nat) : Nat := if bitN x 27 then s.shp core (x % 64) else x % 2 ^ 27
/-- The value of BCOUNT, read at issue. -/
def bcVal (s : State) (core x : Nat) : Nat := if bitN x 16 then s.shp core (x % 64) else x % 2 ^ 16

/-- Which of the four extents exceed their declared maximum (R184), and the extents after the clamp. -/
def clampExt (e mx : Ext) : Ext × Nat :=
  ({ m := min e.m mx.m, n := min e.n mx.n, k := min e.k mx.k, b := min e.b mx.b },
   (decide (mx.m < e.m)).toNat + (decide (mx.n < e.n)).toNat + (decide (mx.k < e.k)).toNat + (decide (mx.b < e.b)).toNat)

/-- A stride field: a signed value, or that of a shape register read at issue (R181). -/
def strideVal (s : State) (core : Nat) (shpd : Bool) (raw : Nat) : Int :=
  signed (if shpd then s.shp core (raw % 64) else raw) 32

/-! ### Tensor layout (R447, R448) -/

/-- The address of the first byte of row m of iteration b. -/
def rowAddr (o : Opd) (b m : Nat) : Nat := toField (dBase o.d + b * o.bStride + m * o.pitch) 48
/-- Bytes from the start of a row to the byte that holds column j. -/
def colByte (f j : Nat) : Nat := j * fmtBits f / 8
/-- Bytes that columns 0 to n − 1 of a row take. -/
def rowBytes (f n : Nat) : Nat := cdiv (n * fmtBits f) 8
/-- Blocks of a row of the declared width. -/
def blocksPerRow (wr : Bool) (d : BitVec 512) : Nat := cdiv (dColsMax d) (dBs wr d)
/-- The address of the scale of block k of row m of iteration b. -/
def scaleAddr (wr : Bool) (o : Opd) (b m k : Nat) : Nat :=
  toField (dScaleAddr o.d + b * dRowsMax o.d * blocksPerRow wr o.d + m * blocksPerRow wr o.d + k) 48

/-- The address of the scale of the block of rows g and column n, of a tensor whose blocks run along K (R97). -/
def kScaleAddr (wr : Bool) (o : Opd) (b g n : Nat) : Nat :=
  toField (dScaleAddr o.d + b * cdiv (dRowsMax o.d) (dBs wr o.d) * dColsMax o.d + g * dColsMax o.d + n) 48

/-- The code of element j of a row held as bytes. -/
def elemCode (f : Nat) (row : List Byte) (j : Nat) : Nat :=
  let w := fmtBits f
  if w < 8 then leNat ((row.drop (j * w / 8)).take 2) >>> (j * w % 8) % 2 ^ w
  else leNat ((row.drop (j * w / 8)).take (w / 8))

/-- The bytes of a row of element codes (R447), with the unused bits of the last byte zero (R188). -/
def packRow (f : Nat) (codes : List Nat) : List Byte :=
  let w := fmtBits f
  leBytes ((codes.zip (List.range codes.length)).foldl (fun acc e => acc + e.1 % 2 ^ w * 2 ^ (e.2 * w)) 0)
    (cdiv (codes.length * w) 8)

/-- The n elements of a row under a format, with the scale code of each (127 when the tensor is unscaled). -/
def rowElems (f bs : Nat) (scaled : Bool) (row : List Byte) (scales : List Byte) (n : Nat) : List (Elem × Nat) :=
  (List.range n).map fun j =>
    (decodeElem f (elemCode f row j), if scaled then (nth 0 scales (j / bs)).toNat else 127)

/-! ### SECDED (R72, R148) -/

/-- The number of set bits. -/
def popCount (x : BitVec 39) : Nat := sumN ((List.range 39).map fun i => (bit x i).toNat)

/-- What the corrector makes of a codeword: the error left in the data. -/
inductive Ecc where
  | clean
  | corrected (pat : BitVec 39)
  | uncorr (pat : BitVec 39)
  deriving DecidableEq, Repr

/-- SECDED over a codeword with flipped bits: one is corrected, two are uncorrectable, three or more may alias
(R148, R319; log entry 9). -/
def eccOf (f : BitVec 39) : Ecc :=
  let n := popCount f
  if n = 0 then .clean
  else if n = 1 then .corrected 0
  else if n = 2 then .uncorr f
  else match Config.secdedAlias f with
    | none => .uncorr f
    | some e => .corrected (e.setWidth 39)

/-- The error pattern that is left in the data of a codeword. -/
def Ecc.pat (e : Ecc) : BitVec 39 :=
  match e with
  | .clean => 0
  | .corrected p => p
  | .uncorr p => p

/-- Byte i of a 32-bit word's error pattern. -/
def patByte (p : BitVec 39) (i : Nat) : Byte := BitVec.ofNat 8 (fld p (8 * (i % 4)) 8)

/-! ### Words on their way and results of a unit (R317) -/

/-- The metadata that a word with flipped bits brings to what it touches. -/
def pathMd (f : BitVec 39) : Word :=
  match eccOf f with
  | .uncorr _ => mdFlag 0
  | _ => 0

/-- A word on a bus, a network or an instruction path: a single flipped bit is corrected in place, an uncorrectable word is a
detected fault of its location (DETECTOR 7). -/
def pathCheck (f : BitVec 39) (l : Loc) (s : State) : State :=
  match eccOf f with
  | .uncorr _ => detectFault l s
  | _ => s

/-- The location of a die's network, and of the hub fabric for d = 12. -/
def netLoc (d : Nat) : Loc := { unit := if d = 12 then 8 else 7, die := d, pcore := 0, index := 0, det := 7 }

/-- The error that the next pair on a network meets. -/
def netFlipOf (s : State) (d : Nat) : BitVec 39 := SMap.get (fun _ => 0) s.err.netFlip d

/-- A pair crosses the network of a die, or the hub fabric. -/
def netWord (d : Nat) (s : State) : State :=
  if netFlipOf s d = 0 then s
  else (pathCheck (netFlipOf s d) (netLoc d) s).modErr fun e => { e with netFlip := SMap.set (fun _ => 0) e.netFlip d 0 }

/-- The amount by which the next result of a unit is wrong. -/
def unitErrOf (s : State) (u : Nat) : Int := SMap.get (fun _ => 0) s.err.unitErr u

/-- The metadata of a result that disagrees with its residue modulo 7. -/
def unitMd (s : State) (u : Nat) : Word := if unitErrOf s u % 7 = 0 then 0 else mdFlag 0

/-- A unit delivers a result: one that disagrees with its residue modulo 7 is a detected fault (DETECTOR 6), any other error
passes unseen (R317, R319). -/
def unitCheck (u : Nat) (l : Loc) (s : State) : State :=
  if unitErrOf s u = 0 then s
  else (whenS (decide (unitErrOf s u % 7 ≠ 0)) (detectFault l) s).modErr fun e =>
    { e with unitErr := SMap.set (fun _ => 0) e.unitErr u 0 }

/-- The first word of a result as its unit delivers it. -/
def wrongHead (e : Int) (l : List Word) : List Word :=
  match l with
  | [] => []
  | w :: rest => BitVec.ofInt 32 (w.toNat + e) :: rest

/-- The flipped bits of word i of a descriptor in the store (R317). -/
def descFlipOf (s : State) (core td i : Nat) : BitVec 39 := SMap.get (fun _ => 0) s.err.descFlip (core * 8192 + td * 16 + i)

/-- What a read of the descriptor store leaves wrong in a descriptor. -/
def descError (s : State) (core td : Nat) : BitVec 512 :=
  if s.err.descFlip.isEmpty then 0
  else BitVec.ofNat 512 (sumN ((List.range 16).map fun i => fld (eccOf (descFlipOf s core td i)).pat 0 32 * 2 ^ (32 * i)))

/-- The metadata that the descriptors of an instruction bring: FAULT where one has an uncorrectable word. -/
def descMd (s : State) (core : Nat) (tds : List Nat) : Word :=
  if s.err.descFlip.isEmpty then 0
  else tds.foldl (fun a td => (List.range 16).foldl (fun b i => b ||| pathMd (descFlipOf s core td i)) a) 0

/-- An operand resolved at issue. -/
def opdOf (s : State) (core td : Nat) : Opd :=
  let d := (s.core core).td td ^^^ descError s core td
  { td := td, d := d,
    pitch := if dPitchShp d then s.shp core (dPitch d % 64) else dPitch d,
    bStride := strideVal s core (dBStrideShp d) (dBStride d),
    sideStride := strideVal s core (dSideStrideShp d) (dSideStride d) }

/-! ### The scratchpad -/

/-- What an access found, gathered over its bytes; each flag acts once per access (R151, R155). Words are byte offsets
divided by 64. `corrected` lists the codewords that were corrected, each once. -/
structure SpFlags where
  bound : Bool := false
  conflict : Option Nat := none
  codeWrite : Bool := false
  misuse : Bool := false
  asleep : Bool := false
  corrected : List Nat := []
  uncorr : Option Nat := none
  lost : Bool := false
  deriving DecidableEq, Repr, Inhabited

/-- Where one byte of a scratchpad access goes: what forbids it, each judged alone, and the byte of the array that it reaches
where nothing does. -/
structure SpTarget where
  bound : Bool := false
  conflict : Option Nat := none
  codeWrite : Bool := false
  misuse : Bool := false
  asleep : Bool := false
  phys : Option Nat := none
  deriving DecidableEq, Repr, Inhabited

/-- The part of the versioned layout in which a slot lies (R163). -/
inductive SlotKind where
  | working
  | logical (k : Nat)
  | copy
  deriving DecidableEq, Repr, Inhabited

/-- A requester: the task under which an access is translated, if any, its segment and its class (Table 6.3; 0 for an
access of the hub, which belongs to no class). A fetch is translated by the code range of its task (R151). -/
structure Req where
  core : Nat
  task : Option Nat := none
  seg : Nat := 0
  cls : Nat := 0
  fetch : Bool := false
  deriving DecidableEq, Repr, Inhabited

/-- SP_SIZE. -/
def spSize : Nat := 0x400000

/-- The offset that task offset q reaches, if it is in bound (R151). -/
def taskOffset (s : State) (core task q : Nat) : Option Nat :=
  let r := s.reg (spA core (0x104 + 8 * task))
  let o := fld r 0 14 * 256 + q
  if q < fld r 16 15 * 256 ∧ o < spSize then some o else none

/-- The offset that code offset q of a task reaches, if it is in bound (R151). -/
def codeOffset (s : State) (core task q : Nat) : Option Nat :=
  let r := s.reg (spA core (0x100 + 8 * task))
  let o := fld r 0 14 * 256 + q
  if q < fld r 16 15 * 256 ∧ o < spSize then some o else none

/-- The offset a request reaches. -/
def reqOffset (s : State) (r : Req) (q : Nat) : Option Nat :=
  match r.task with
  | some t => if r.fetch then codeOffset s r.core t q else taskOffset s r.core t q
  | none => if q < spSize then some q else none

/-- Whether an offset lies in the code range of some task context (R152). -/
def inCode (s : State) (core o : Nat) : Bool :=
  (List.range 16).any fun k =>
    let r := s.reg (spA core (0x100 + 8 * k))
    decide (fld r 0 14 * 256 ≤ o) && decide (o < (fld r 0 14 + fld r 16 15) * 256)

/-- VBASE and VCOUNT. -/
def verBase (s : State) (core : Nat) : Nat := s.regFld (spA core 0x18) 0 14
def verCount (s : State) (core : Nat) : Nat := s.regFld (spA core 0x18) 16 13

/-- The kind of a slot (R163). -/
def slotKind (s : State) (core slot : Nat) : SlotKind :=
  let vb := verBase s core
  let vc := verCount s core
  if vb ≤ slot ∧ slot < vb + vc then .logical (slot - vb)
  else if vb + vc ≤ slot ∧ slot < vb + 3 * vc then .copy
  else .working

/-- An entry of the version table. -/
def Core.verOf (c : Core) (k : Nat) : VerSlot := SMap.get (fun _ => {}) c.ver k

/-- The copy that a write of the running frame goes to (R165): the one it chose before, else the lowest that is neither
CUR nor pending for the previous frame. With no image active, there is no frame and a write goes to CUR. -/
def writeCopy (s : State) (v : VerSlot) : Nat :=
  if !s.active then v.cur
  else match v.pendCur with
    | some c => c
    | none => ((List.range 3).find? fun c => c ≠ v.cur && v.pendPrev ≠ some c).getD 0

/-- The class that owns a bank's read or write port in a segment (R154). -/
def segOwner (s : State) (core seg : Nat) (wr : Bool) (bank : Nat) : Nat :=
  match (s.core core).cfg with
  | none => 0
  | some g =>
    let m := nth ([], []) (nth { tasks := [], vbase := 0, vcount := 0, bankPwr := 0, segs := [] } g.spads s.variant).segs seg
    nth 0 (if wr then m.2 else m.1) bank

/-- The power state of a bank in force (Table 6.6, R167). -/
def bankPwr (s : State) (core bank : Nat) : Nat := fld (s.core core).banks (2 * bank) 2

/-- The byte of the bank that a logical offset stands for, or none where the access may not reach the slot (R163 to R165). -/
def spPlace (s : State) (r : Req) (wr : Bool) (tag o : Nat) : Option Nat :=
  match slotKind s r.core (o / 256) with
  | .working => some o
  | .copy => none
  | .logical k =>
    if tag ≠ 0 then none
    else
      let v := (s.core r.core).verOf k
      some ((verBase s r.core + (if wr then writeCopy s v else v.cur) * verCount s r.core + k) * 256 + o % 256)

/-- What a byte of an access meets: its bound (R151), the port of the bank that its address names (R155), the code ranges, by
address and by place (R152), the versioned region (R163), and the power of the bank that holds the byte (R167). -/
def spTarget (s : State) (r : Req) (wr : Bool) (tag q : Nat) : SpTarget :=
  match reqOffset s r q with
  | none => { bound := true }
  | some o =>
    let place := spPlace s r wr tag o
    let t : SpTarget :=
      { conflict := if r.cls ≠ 0 ∧ segOwner s r.core r.seg wr (o / 64 % 32) ≠ r.cls then some (o / 64) else none,
        codeWrite := wr && (inCode s r.core o || place.any (inCode s r.core)), misuse := place.isNone,
        asleep := decide (bankPwr s r.core (place.getD o / 64 % 32) ≠ 2) }
    { t with phys := if t.conflict.isSome || t.codeWrite || t.asleep then none else place }

/-- The stored flips of the codeword that holds byte p of a core's scratchpad. -/
def spFlip (s : State) (core p : Nat) : BitVec 39 := SMap.get (fun _ => 0) s.err.spFlip (s.pcIx core * 2 ^ 20 + p / 4)

/-- A byte that the gather buffer holds for a physical offset (R158). -/
def gatherByte (c : Core) (p : Nat) : Option Byte :=
  (c.gather.find? fun g => g.w = p / 64).bind fun g => (g.bytes.find? fun e => e.1 = p % 64).map (·.2)

/-- Add what a byte met to the flags of its access. -/
def SpFlags.add (f : SpFlags) (t : SpTarget) : SpFlags :=
  { f with bound := f.bound || t.bound, conflict := f.conflict.or t.conflict, codeWrite := f.codeWrite || t.codeWrite,
           misuse := f.misuse || t.misuse, asleep := f.asleep || t.asleep }

/-- Read one byte (R148, R149): corrected data, with the gather buffer forwarded. A byte that does not reach the array
reads as zero. -/
def spReadByte (s : State) (r : Req) (tag q : Nat) (f : SpFlags) : Byte × SpFlags :=
  let t := spTarget s r false tag q
  match t.phys with
  | some p =>
    match gatherByte (s.core r.core) p with
    | some b => (b, f)
    | none =>
      let e := eccOf (spFlip s r.core p)
      let b := Mem.get s.spad (s.pcIx r.core * 2 ^ 22 + p) ^^^ patByte e.pat p
      match e with
      | .clean => (b, f)
      | .corrected _ => (b, if f.corrected.contains (p / 4) then f else { f with corrected := f.corrected ++ [p / 4] })
      | .uncorr _ =>
        let cur := match slotKind s r.core ((reqOffset s r q).getD 0 / 256) with
          | .logical _ => true
          | _ => false
        (b, { f with uncorr := f.uncorr.or (some (p / 64)), lost := f.lost || cur })
  | none => (0, f.add t)

/-- Read the bytes at the offsets qs one after another. -/
def readBytes (s : State) (r : Req) (tag : Nat) (qs : List Nat) : List Byte × SpFlags :=
  qs.foldl (fun acc q =>
    let (b, f) := spReadByte s r tag q acc.2
    (acc.1 ++ [b], f)) ([], {})

/-- Read the n bytes from offset q. -/
def spRead (s : State) (r : Req) (tag q n : Nat) : List Byte × SpFlags := readBytes s r tag (rangeFrom q n)

/-- Record the first error after the recording bits of SP_STICKY were all clear (R170). -/
def spRecord (core kind cls word seg : Nat) (s : State) : State :=
  let st := s.reg (spA core 4)
  if bit st 1 ∨ bit st 2 ∨ bit st 3 then s
  else
    let v := kind * 2 ^ 29 + cls * 2 ^ 26 + word % 32 * 2 ^ 19 + word / 32 % 2048 * 2 ^ 8 + seg % 64
    (s.setReg (spA core 0xC) (BitVec.ofNat 32 v)).setReg64 (spA core 0x10) s.wfn

/-- An uncorrectable scratchpad word (R148): recorded, and a detected fault of the bank. -/
def spUncorr (r : Req) (word : Nat) (lost : Bool) (s : State) : State :=
  let s := (spRecord r.core 1 r.cls word r.seg s).setBit (spA r.core 4) 1
  let s := detectFault (coreLoc s r.core 2 (word % 32) 4) s
  whenS lost versionLost s

/-- The effects of an access's flags, each once per access, and the metadata of the tile it touches. -/
def spEffects (r : Req) (f : SpFlags) (s : State) : State × Word :=
  let a := spA r.core 4
  let s := match f.conflict with
    | none => s
    | some w => ((spRecord r.core 3 r.cls w r.seg s).addCnt (spA r.core 8) 0 16 1)
  let s := whenS f.conflict.isSome (stickyEvent a 3) s
  let s := match f.uncorr with
    | none => s
    | some w => spUncorr r w f.lost s
  let s := whenS (!f.corrected.isEmpty) (fun t => (t.setBit a 0).addCnt (spA r.core 8) 16 16 f.corrected.length) s
  let s := whenS f.bound (stickyEvent a 4) s
  let s := whenS f.codeWrite (stickyEvent a 5) s
  let s := whenS f.asleep (stickyEvent a 6) s
  let s := whenS f.misuse (stickyEvent a 7) s
  (s, (if f.bound then mdFlag 9 else 0) ||| (if f.conflict.isSome then mdFlag 10 else 0) |||
      (if f.uncorr.isSome then mdFlag 0 else 0))

/-- Read the n bytes from offset q, with every effect of the access. -/
def spReadS (r : Req) (tag q n : Nat) (s : State) : List Byte × Word × State :=
  let (l, f) := spRead s r tag q n
  let (s, md) := spEffects r f s
  (l, md, s)

/-- The access of a byte list as whole 32-bit words (R150): bytes outside it are written as zero, except those that the
same operation has written already (`keep`), which stay. -/
def wordMask (q : Nat) (bytes : List Byte) (keep : Nat → Bool) : List (Nat × Option Byte) :=
  let pad (x : Nat) : Nat × Option Byte := (x, if keep x then none else some 0)
  let lo := q / 4 * 4
  let hi := cdiv (q + bytes.length) 4 * 4
  if bytes.isEmpty then []
  else (rangeFrom lo (q - lo)).map pad ++ (rangeFrom q bytes.length).zip (bytes.map some) ++
    (rangeFrom (q + bytes.length) (hi - (q + bytes.length))).map pad

/-- A scratchpad write in progress: the state, its flags, and the logical bank words stored to. -/
structure SpWr where
  s : State
  f : SpFlags
  words : List Nat
  deriving DecidableEq, Repr

/-- Put one byte into the array: the codeword's check bits are computed anew (R150). -/
def spPut (core p : Nat) (b : Byte) (s : State) : State :=
  let w := s.pcIx core * 2 ^ 20 + p / 4
  { s with spad := Mem.set s.spad (s.pcIx core * 2 ^ 22 + p) b,
           err := { s.err with spFlip := SMap.set (fun _ => 0) s.err.spFlip w (SMap.get (fun _ => 0) s.err.spHard w) } }

/-- A byte that is written past the gather buffer replaces the one that an entry holds for it; an entry left with no byte is
free (R149; log entry 119). -/
def ungather (core p : Nat) (s : State) : State :=
  let keep (g : Gather) : Gather := { g with bytes := g.bytes.filter fun e => e.1 ≠ p % 64 }
  if ((s.core core).gather.any fun g => g.w = p / 64) then
    s.modCore core fun c =>
      { c with gather := (c.gather.map fun g => if g.w = p / 64 then keep g else g).filter fun g => !g.bytes.isEmpty }
  else s

/-- Store one byte in the scratchpad: in the array, and in no entry of the gather buffer. -/
def spStore (core p : Nat) (b : Byte) (s : State) : State := spPut core p b (ungather core p s)

/-- The version table notes the copy that the running frame writes, and the descriptor (R164, R382). -/
def noteVersion (core slot td : Nat) (s : State) : State :=
  match slotKind s core slot with
  | .logical k =>
    if !s.active then s
    else s.modCore core fun c =>
      let v := c.verOf k
      let v := { v with pendCur := some (writeCopy s v), tdsCur := if v.tdsCur.contains td || decide (512 ≤ td) then v.tdsCur else v.tdsCur ++ [td] }
      { c with ver := SMap.set (fun _ => {}) c.ver k v }
  | _ => s

/-- Write one byte of an access; no byte given leaves the present one. -/
def spWriteByte (r : Req) (tag td : Nat) (x : Nat × Option Byte) (a : SpWr) : SpWr :=
  let t := spTarget a.s r true tag x.1
  match t.phys with
  | some p =>
    match x.2 with
    | none => a
    | some b =>
      let o := (reqOffset a.s r x.1).getD 0
      let s := spStore r.core p b a.s
      { a with s := noteVersion r.core (o / 256) td s, words := if a.words.contains (o / 64) then a.words else a.words ++ [o / 64] }
  | none => { a with f := a.f.add t }

/-- Whether a slot's tag is FULL (R159). -/
def Core.isFull (c : Core) (slot : Nat) : Bool := SMap.get (fun _ => false) c.full slot
/-- Make a slot FULL. -/
def setFull (core slot : Nat) (s : State) : State :=
  s.modCore core fun c => { c with full := SMap.set (fun _ => false) c.full slot true }
/-- Make a slot EMPTY; the words written in PRODUCE mode are counted anew. -/
def setEmpty (core slot : Nat) (s : State) : State :=
  s.modCore core fun c =>
    { c with full := SMap.set (fun _ => false) c.full slot false, prod := SMap.set (fun _ => 0) c.prod slot 0 }

/-- A bank word was written in PRODUCE mode: its slot becomes FULL with the fourth (R159). -/
def produced (core word : Nat) (s : State) : State :=
  match slotKind s core (word / 4) with
  | .working =>
    let s := s.modCore core fun c =>
      { c with prod := SMap.set (fun _ => 0) c.prod (word / 4) (setB (SMap.get (fun _ => 0) c.prod (word / 4)) (word % 4)) }
    if SMap.get (fun _ => 0) (s.core core).prod (word / 4) = 0xF then setFull core (word / 4) s else s
  | _ => s

/-- Write an access of class 3, 5 or the hub: byte by byte, then the tags, then the flags. `tdx` is the descriptor
number written through (512 for none). -/
def spWriteS (r : Req) (tag tdx : Nat) (l : List (Nat × Option Byte)) (s : State) : Word × State :=
  let a := l.foldl (fun a x => spWriteByte r tag tdx x a) { s := s, f := {}, words := [] }
  let s := whenS (decide (tag ≠ 0)) (forEach a.words (produced r.core)) a.s
  let (s, md) := spEffects r a.f s
  (md, s)

/-- The last write of an operation in a slot (R159, R188): a working slot written in PRODUCE mode becomes FULL. -/
def lastInSlot (r : Req) (tag q : Nat) (s : State) : State :=
  match reqOffset s r q with
  | none => s
  | some o =>
    match slotKind s r.core (o / 256) with
    | .working => if tag ≠ 0 then setFull r.core (o / 256) s else s
    | _ => s

/-! ### The gather buffer (R158) -/

/-- Flush one entry: 32-bit words with four valid bytes are written, partly valid ones are dropped. -/
def flushEntry (core : Nat) (g : Gather) (s : State) : State :=
  let valid (i : Nat) : Option Byte := (g.bytes.find? fun e => e.1 = i).map (·.2)
  let whole (w : Nat) : Bool := (List.range 4).all fun i => (valid (4 * w + i)).isSome
  let some1 (w : Nat) : Bool := (List.range 4).any fun i => (valid (4 * w + i)).isSome
  let s := forEach (List.range 64) (fun i t =>
    match valid i with
    | some b => if whole (i / 4) then spPut core (g.w * 64 + i) b t else t
    | none => t) s
  let s := whenS ((List.range 16).any fun w => some1 w && !whole w) (fun t => t.setBit (spA core 4) 8) s
  whenS (g.produce && decide (g.bytes.length = 64)) (produced core g.w) s

/-- Flush every entry, oldest first, as a FENCE does. -/
def flushGather (core : Nat) (s : State) : State :=
  let gs := (s.core core).gather
  forEach gs (flushEntry core) (s.modCore core fun c => { c with gather := [] })

/-- One byte enters the gather buffer; the entry is flushed once its 64 bytes are valid. -/
def gatherPut (core p : Nat) (b : Byte) (produce : Bool) (s : State) : State :=
  let c := s.core core
  match c.gather.find? fun g => g.w = p / 64 with
  | some g =>
    let bytes := (g.bytes.filter fun e => e.1 ≠ p % 64) ++ [(p % 64, b)]
    let g' := { g with bytes := bytes, produce := g.produce || produce }
    if bytes.length = 64 then
      flushEntry core g' (s.setCore core { c with gather := c.gather.filter fun x => x.w ≠ g.w })
    else s.setCore core { c with gather := c.gather.map fun x => if x.w = g.w then g' else x }
  | none =>
    let s := match c.gather with
      | old :: rest => if rest.length = 7 then flushEntry core old (s.setCore core { c with gather := rest }) else s
      | [] => s
    s.modCore core fun c => { c with gather := c.gather ++ [{ w := p / 64, bytes := [(p % 64, b)], produce := produce }] }

/-- One byte of a vector store that is narrower than its bank word. -/
def gatherByteWr (r : Req) (tag td : Nat) (x : Nat × Byte) (a : SpWr) : SpWr :=
  let t := spTarget a.s r true tag x.1
  match t.phys with
  | some p =>
    let o := (reqOffset a.s r x.1).getD 0
    { a with s := noteVersion r.core (o / 256) td (gatherPut r.core p x.2 (decide (tag ≠ 0)) a.s) }
  | none => { a with f := a.f.add t }

/-- A vector store of bytes of one bank word: a whole word goes to the array, less than one to the gather buffer (R158). -/
def storeWord (r : Req) (tag td : Nat) (l : List (Nat × Byte)) (a : SpWr) : SpWr :=
  if l.length = 64 then l.foldl (fun a x => spWriteByte r tag td (x.1, some x.2) a) a
  else l.foldl (fun a x => gatherByteWr r tag td x a) a

/-- The bytes of a run by the bank words in which they lie. -/
def byWord (q : Nat) (bytes : List Byte) : List (List (Nat × Byte)) :=
  let l := (rangeFrom q bytes.length).zip bytes
  let h := (64 - q % 64) % 64
  l.take h :: chunksOf 64 (l.drop h)

/-- A vector store of a run of bytes (class 4), as stores of the bank words that it touches. -/
def gatherWriteS (r : Req) (tag td q : Nat) (bytes : List Byte) (s : State) : Word × State :=
  let a := (byWord q bytes).foldl (fun a l => storeWord r tag td l a) { s := s, f := {}, words := [] }
  let s := whenS (decide (tag ≠ 0)) (forEach a.words (produced r.core)) a.s
  let (s, md) := spEffects r a.f s
  (md, s)

/-! ### HBM -/

/-- Where a byte address lies among the ping-pong regions. -/
structure UnitAt where
  region : Nat
  side0 : Nat
  sideBytes : Nat
  ofs : Nat
  deriving DecidableEq, Repr, Inhabited

/-- The region whose side 0 or side 1 covers an address, the lower index first (R327). -/
def State.unitAt (s : State) (a : Nat) : Option UnitAt :=
  (s.regions.find? fun r =>
      (decide (r.2.base ≤ a) && decide (a < r.2.base + r.2.length)) ||
      (decide (r.2.base + r.2.side ≤ a) && decide (a < r.2.base + r.2.side + r.2.length))).map fun r =>
    { region := r.1, side0 := r.2.base, sideBytes := r.2.side,
      ofs := if a < r.2.base + r.2.length ∧ r.2.base ≤ a then a - r.2.base else a - (r.2.base + r.2.side) }

/-- The key of a unit: region × 2^30 + unit. -/
def UnitAt.key (u : UnitAt) : Nat := u.region * 2 ^ 30 + u.ofs / 4096

/-- The current side of a unit (R325). -/
def State.sideOf (s : State) (key : Nat) : Bool := SMap.get (fun _ => false) s.img.sides key

/-- The address of a byte of a unit on one side. -/
def UnitAt.addr (u : UnitAt) (side : Bool) : Nat := u.side0 + (if side then u.sideBytes else 0) + u.ofs

/-- The address that a read of any instruction but WRITE_W reaches (R325). -/
def hbmReadAddr (s : State) (a : Nat) : Nat :=
  match s.unitAt a with
  | none => a
  | some u => u.addr (s.sideOf u.key)

/-- Whether the HBM data of an address are uncorrectable (Table 13.1). -/
def hbmBad (s : State) (a : Nat) : Bool := SMap.get (fun _ => false) s.err.hbmBad (a / 64)

/-- The pseudo-channel on which an address lies while none is retired, 64 × stack + pseudo-channel (log entry 32). -/
def hbmHome (a : Nat) : Nat := 64 * (a / 4096 % 6) + a / 4096 / 6 % 64

/-- The pseudo-channel that serves an address: its own, or, once that is retired, one of those in service (R341; log entry 129). -/
def hbmChannel (s : State) (a : Nat) : Nat :=
  let i := hbmHome a
  if s.isRetired 29484 i then
    let l := (List.range 384).filter fun j => !s.isRetired 29484 j
    nth i l (Config.remapUnit i (a / 4096) % max l.length 1)
  else i

/-- Uncorrectable HBM data: a detected fault, and a lost version when they are the current side of a unit (R343). -/
def hbmFault (a : Nat) (s : State) : State :=
  let s := detectFault { unit := 5, die := 12, pcore := 0, index := hbmChannel s a, det := 9 } s
  match s.unitAt a with
  | some u => if u.addr (s.sideOf u.key) = a then versionLost s else s
  | none => s

/-- Read n bytes of HBM at the addresses that f gives; bad data are returned as they are and make one fault. -/
def hbmReadVia (f : Nat → Nat) (a n : Nat) (s : State) : List Byte × Word × State :=
  let as := (rangeFrom a n).map f
  let l := as.map fun x => Mem.get s.hbm x
  match as.find? fun x => hbmBad s x with
  | none => (l, 0, s)
  | some x => (l, mdFlag 0, hbmFault x s)

/-- Read n bytes of HBM, every unit from its current side. -/
def hbmRead (a n : Nat) (s : State) : List Byte × Word × State := hbmReadVia (hbmReadAddr s) a n s

/-- Store one byte of HBM; the interface data are good again. -/
def hbmStore (a : Nat) (b : Byte) (s : State) : State :=
  { s with hbm := Mem.set s.hbm a b, err := { s.err with hbmBad := SMap.set (fun _ => false) s.err.hbmBad (a / 64) false } }

/-- Whether an address lies in the range of a slot that is VERIFYING, VERIFIED or ACTIVE (R255). -/
def hbmLocked (s : State) (a : Nat) : Bool :=
  s.img.slots.any fun x => decide (1 ≤ x.state) && decide (x.state ≤ 3) && decide (x.addr ≤ a) && decide (a < x.addr + x.len)

/-- Whether any byte of a run lies in a locked slot range. -/
def runLocked (s : State) (a n : Nat) : Bool := (rangeFrom a n).any fun x => hbmLocked s x

/-- Whether a write that names an address of HBM falls in a locked slot range: at the address, or where it lands (R255, R325). -/
def unitLocked (s : State) (a : Nat) : Bool :=
  hbmLocked s a || (s.unitAt a).any fun u => hbmLocked s (u.addr (!s.sideOf u.key))

/-- The units that the previous work frame wrote (R326). -/
def prevUnits (s : State) : List Nat :=
  if s.fx.prev.wfn + 1 = s.fx.cur.wfn ∧ s.fx.prev.kind ≠ .quiet then s.fx.prev.units
  else if s.fx.lastWork.wfn + 1 = s.fx.cur.wfn then s.fx.lastWork.units
  else []

/-- Copy n bytes of HBM, keeping the canonical form. -/
def Mem.copyRange (m : Mem) (src dst n : Nat) : Mem :=
  let es := m.filter fun e => decide (src ≤ e.1) && decide (e.1 < src + n)
  es.foldl (fun acc e => Mem.set acc (dst + (e.1 - src)) e.2) (SMap.dropRange m dst (dst + n))

/-- Copy the current side of a whole unit onto the other (R325). Data that cannot be read back are a lost version (R343). -/
def copyUnit (v : UnitAt) (s : State) : State :=
  let src := v.addr (s.sideOf v.key)
  let dst := v.addr (!s.sideOf v.key)
  let bad := ((List.range 64).map fun i => src + 64 * i).find? (hbmBad s)
  let s := { s with hbm := Mem.copyRange s.hbm src dst 4096,
                    err := { s.err with hbmBad := SMap.dropRange s.err.hbmBad (dst / 64) (dst / 64 + 64) } }
  match bad with
  | none => s
  | some a => hbmFault a s

/-- The running frame writes a unit for the first time: the current side is copied to the other, and the unit is
logged (R325). A write of the whole unit leaves nothing of the copy. -/
def touchUnit (u : UnitAt) (s : State) : State :=
  if s.fx.cur.units.contains u.key then s
  else
    (copyUnit { u with ofs := u.ofs / 4096 * 4096 } s).modCur fun f => { f with units := f.units ++ [u.key] }

/-- What a run of HBM bytes met: a locked slot range, or a unit of the previous frame. -/
structure HbmWr where
  s : State
  locked : Bool := false
  cadence : Bool := false
  deriving DecidableEq, Repr

/-- Write one byte of HBM from a frame program (R255, R325, R326). -/
def hbmWriteByte (x : Nat × Byte) (a : HbmWr) : HbmWr :=
  if unitLocked a.s x.1 then { a with locked := true }
  else match a.s.unitAt x.1 with
    | none => { a with s := hbmStore x.1 x.2 a.s }
    | some u =>
      if (prevUnits a.s).contains u.key then { a with cadence := true }
      else
        let s := touchUnit u a.s
        { a with s := hbmStore (u.addr (!s.sideOf u.key)) x.2 s }

/-- Write a run of bytes to HBM from a frame program; a dropped byte raises one event for the write. -/
def hbmWriteS (a : Nat) (bytes : List Byte) (s : State) : State :=
  let w := ((rangeFrom a bytes.length).zip bytes).foldl (fun w x => hbmWriteByte x w) { s := s }
  let s := whenS w.locked (stickyEvent secImgState 31) w.s
  whenS w.cadence (stickyEvent fxSticky 7) s

/-- The keys of the units that a run of HBM addresses touches. -/
def unitKeys (s : State) (a n : Nat) : List Nat := nubN ((rangeFrom a n).filterMap fun x => (s.unitAt x).map UnitAt.key)

/-- Note the descriptor through which the running frame wrote the units of a run (R382). -/
def noteUnits (core td a n : Nat) (s : State) : State :=
  let ks := (unitKeys s a n).filter fun k => s.fx.cur.units.contains k && !(s.fx.cur.unitWr.contains (k, core, td))
  if ks.isEmpty then s
  else s.modCur fun f => { f with unitWr := f.unitWr ++ ks.map fun k => (k, core, td) }

/-- Note the metadata with which a remote or an input write reached the units of a run (R382). -/
def noteUnitMd (md : Word) (a n : Nat) (s : State) : State :=
  let ks := (unitKeys s a n).filter fun k => s.fx.cur.units.contains k
  if ks.isEmpty ∨ md = 0 then s
  else s.modCur fun f => { f with unitMd := f.unitMd ++ ks.map fun k => (k, md) }

end Sys2Proof.Machine
end

