-- ==== Sys2Proof/Machine/Flags.lean ====
section
/-! DEFINITION. Every flag and count computation: output conversion with block scales (R113 to R118), the counts of the
numerics watch (R246), the scale estimates' observations (R242), and the tile metadata of Tables 4.9 and 8.6. -/

namespace Sys2Proof.Machine

/-- The result of converting a row: codes, scale codes, the counts of Table 9.8, metadata and observations. -/
structure ConvOut where
  codes : List Nat := []
  scales : List Byte := []
  zeros : Nat := 0
  sats : Nat := 0
  nonfin : Nat := 0
  md : Word := 0
  obs : List Obs := []
  deriving DecidableEq, Repr, Inhabited

/-- Metadata of the flags of one conversion (R118). -/
def convMd (f : ConvFlags) : Word := (if f.ovf then mdFlag 7 else 0) ||| (if f.nonfin then mdFlag 8 else 0)

/-- Add one converted element. -/
def ConvOut.push (o : ConvOut) (c : Nat × ConvFlags) : ConvOut :=
  { o with codes := o.codes ++ [c.1], zeros := o.zeros + c.2.underflow.toNat, sats := o.sats + c.2.ovf.toNat,
           nonfin := o.nonfin + c.2.nonfin.toNat, md := o.md ||| convMd c.2 }

/-- Conversion of one element under a block's scale (R113): clamped to ±(largest finite), with Table 4.10's codes for
the non-finite ones. `v` is the value already divided by the scale. -/
def encodeBlk (f : Nat) (r : Rnd) (v : Elem) : Nat × ConvFlags :=
  match v with
  | .inf neg => (maxCode f neg, { nonfin := true })
  | .nan neg => (if f = 3 ∨ f = 4 then nanCode f neg else 0, { nonfin := true })
  | .fin neg x =>
    let (c, fl) := encodeElem f r (.fin neg x)
    if fl.ovf then (maxCode f neg, fl) else (c, fl)

/-- Convert the elements of one block under scale code S; a block with no finite value other than zero has code zero for
its finite values (R113). -/
def convBlock (f S : Nat) (l : List (Elem × Rnd)) (o : ConvOut) : ConvOut :=
  let none0 := (blockTop (l.map (·.1))).isNone
  l.foldl (fun o e =>
    match e.1 with
    | .fin _ _ => if none0 then o.push (0, {}) else o.push (encodeBlk f e.2 (e.1.scale (S - 127)))
    | x => o.push (encodeBlk f e.2 x)) o

/-- An estimate entry. -/
def Core.estOf (c : Core) (e : Nat) : Est := SMap.get (fun _ => {}) c.est e

/-- The scale code that a running estimate gives (R242). -/
def estScale (est : Int) (headroom : Nat) (f : Nat) : Nat := (clampI 0 254 (est + headroom - fmtEmax f + 127)).toNat

/-- The estimate entry of column block k of a descriptor (R241). -/
def estEntry (c : Core) (td k : Nat) : Option Nat :=
  c.cfg.bind fun g => (g.estMaps.find? fun m => m.td = td).map fun m => m.first + (if m.count = 1 then 0 else k)

/-- Convert the values of a row to the output format of a descriptor (R115 to R118). -/
def convRow (s : State) (core td : Nat) (d : BitVec 512) (l : List (Elem × Rnd)) : ConvOut :=
  let f := dOutEfmt d
  if !dOutScaled d then l.foldl (fun o e => o.push (encodeElem f e.2 e.1)) {}
  else
    let bs := chunksOf (dBs true d) l
    (bs.zip (List.range bs.length)).foldl (fun o x =>
      let ent := if dScaleSrc d then estEntry (s.core core) td x.2 else none
      let S := match ent with
        | some e => estScale ((s.core core).estOf e).e (s.regFld nmCtrl 4 3) f
        | none => chooseScale f (x.1.map (·.1))
      let o' := convBlock f S x.1 o
      let ob := match ent with
        | some e => [{ entry := e, top := blockTop (x.1.map (·.1)), sats := o'.sats - o.sats : Obs }]
        | none => []
      { o' with scales := o'.scales ++ [BitVec.ofNat 8 S], obs := o'.obs ++ ob }) {}

/-- Join an observation of the running frame to those of its entry (R242). -/
def addObs (o : Obs) (l : List Obs) : List Obs :=
  match l with
  | [] => [o]
  | x :: rest =>
    if x.entry = o.entry then
      { x with top := (match x.top, o.top with
                | some a, some b => some (max a b)
                | some a, none => some a
                | none, t => t), sats := x.sats + o.sats } :: rest
    else x :: addObs o rest

/-- Count a conversion in the watch of the written descriptor, and gather its observations. -/
def countConv (core td : Nat) (o : ConvOut) (s : State) : State :=
  let s := addWatch core td o.zeros o.sats o.nonfin s
  if o.obs.isEmpty then s
  else s.modCore core fun c => { c with cur := { c.cur with obs := o.obs.foldl (fun acc x => addObs x acc) c.cur.obs } }

/-- The rounding of element idx of an output under OUT_RND, with class 1 (R117, R119). -/
def outRnd (s : State) (core td seq cls code b idx : Nat) : Rnd :=
  rndOf code (if code = 2 then srBits s.wfn core td seq cls b idx else 0)

/-- The value of an element times its block scale, exactly (R101). -/
def Elem.scaled (x : Elem) (code : Nat) : Elem := x.scale (127 - code)

end Sys2Proof.Machine
end

