-- ==== Sys2Proof/Machine/Nodes.lean ====
section
/-! DEFINITION. The seif tree (R134 to R142): the nodes' long accumulators, their inputs and pairs, and the inputs that
each node expects for an output element by the image's reductions. -/

namespace Sys2Proof.Machine

/-- Channels of a macro by its weight format (Table 3.2). -/
def chansOf (fmt : Nat) : Nat := 64 * 2 ^ fmt

/-- The address of a node's sticky register (R144, R145). -/
def nodeSticky (n : NodeId) : Nat :=
  match n with
  | .core i => drA i 0
  | .die d => dieNodeA d 0
  | .hub => hubNodeA 0

/-- The address of a node's fold counter. -/
def nodeFolds (n : NodeId) : Nat :=
  match n with
  | .core i => drA i 8
  | .die d => dieNodeA d 4
  | .hub => hubNodeA 4

/-- The accumulator of an element at a node, if it has one. -/
def Node.find (n : Node) (k : ElemKey) : Option Acc := n.accs.find? fun a => a.key = k

/-- The long accumulators of a node (Table 5.4). -/
def nodeLimit (n : NodeId) : Nat :=
  match n with
  | .core _ => 512
  | .die _ => 2048
  | .hub => 8192

/-- The long accumulators that an element takes: two where its inputs fold (R140). -/
def accCost (op expected : Nat) : Nat := if op = 0 ∧ 2 ^ 20 < expected then 2 else 1

/-- The long accumulators in use at a node. -/
def Node.used (n : Node) : Nat := sumN (n.accs.map fun a => accCost a.op a.expected)

/-- Write the accumulator of its element. -/
def Node.put (n : Node) (a : Acc) : Node :=
  let accs := if (n.find a.key).isSome then n.accs.map (fun x => if x.key = a.key then a else x) else n.accs ++ [a]
  let n := { n with accs := accs }
  { n with most := max n.most n.used }

/-- Free the accumulator of an element. -/
def Node.drop (n : Node) (k : ElemKey) : Node := { n with accs := n.accs.filter fun a => a.key ≠ k }

/-- Add an exact input with its sequence number to the segment it belongs to (R140). -/
def addSeg (ix : Nat) (v : Int) (l : List Segment) : List Segment :=
  match l with
  | [] => [{ ix := ix, count := 1, sum := v }]
  | x :: rest => if x.ix = ix then { x with count := x.count + 1, sum := x.sum + v } :: rest else x :: addSeg ix v rest

/-- The better of two candidates for a maximum (op 1) or a minimum (op 2); the lower index wins a tie (R142). -/
def better (op : Nat) (a b : Word × Nat) : Word × Nat :=
  let lt := if op = 1 then f32Lt a.1 b.1 else f32Lt b.1 a.1
  let gt := if op = 1 then f32Lt b.1 a.1 else f32Lt a.1 b.1
  if lt then b else if gt then a else if a.2 ≤ b.2 then a else b

/-- Whether an input is replaced or skipped: any non-finite value for a sum, a NaN for MAX and MIN (R135, R142). -/
def NodeIn.bad (i : NodeIn) : Bool := if i.op = 0 then !(f32Finite i.hi && f32Finite i.lo) else f32IsNan i.hi

/-- The unit number of a node under which the error store holds a wrong result (R317). -/
def nodeUnit (n : NodeId) : Nat :=
  match n with
  | .core i => 4 * i + 1
  | .die d => 3072 + d
  | .hub => 3084

/-- The location of a fault of a node's own adders and control (Table 13.2). -/
def nodeLoc (s : State) (n : NodeId) (det : Nat) : Loc :=
  match n with
  | .core i => coreLoc s i 1 0 det
  | .die d => { unit := 7, die := d, pcore := 0, index := 0, det := det }
  | .hub => { unit := 8, die := 12, pcore := 0, index := 0, det := det }

/-- Whether an input has to wait at its node: for a free accumulator, or for the fold of a segment that is two before its own
(R137, R140). -/
def nodeWaits (n : NodeId) (x : Node) (i : NodeIn) : Bool :=
  let early (op expected folded : Nat) : Bool :=
    decide (op = 0) && decide (2 ^ 20 < expected) && decide (folded + 2 ≤ i.seq / 2 ^ 20)
  match x.find i.key with
  | none => decide (nodeLimit n < x.used + accCost i.op i.expected) || early i.op i.expected (i.first / 2 ^ 20)
  | some a => early a.op a.expected a.folded

/-- An input is added to the accumulator of its element, which it opens where there is none (R135, R136, R142). A NaN that MAX
or MIN skips sets NONFIN_NODE as a replaced input does (DESIGN CHOICE, log entry 118). -/
def addInput (n : NodeId) (i : NodeIn) (s : State) : State :=
  let a := ((s.node n).find i.key).getD
    { key := i.key, op := i.op, expected := i.expected, first := i.first, received := 0, segs := [], folded := i.first / 2 ^ 20, best := none, md := 0, tdIn := i.td, ext := i.ext }
  let bad := i.bad
  let a := { a with received := a.received + 1, md := a.md ||| i.md ||| (if bad then mdFlag 4 else 0) }
  let a :=
    if i.op = 0 then { a with segs := addSeg (i.seq / 2 ^ 20) (if bad then 0 else pairInt i.hi i.lo) a.segs }
    else if bad then a
    else { a with best := match a.best with
             | none => some (i.hi, i.lo.toNat)
             | some b => some (better i.op b (i.hi, i.lo.toNat)) }
  let s := whenS bad (fun t => (addWatch i.core i.td 0 0 1 t).setBit (nodeSticky n) 3) s
  s.setNode n ((s.node n).put a)

/-- An input reaches a node: it is added, or waits for its turn. -/
def enterNode (n : NodeId) (i : NodeIn) (s : State) : State :=
  let x := s.node n
  if nodeWaits n x i then s.setNode n { x with waits := x.waits ++ [i] } else addInput n i s

/-- The waiting inputs of a node try again, in the order of their arrival. -/
def retryWaits (n : NodeId) (s : State) : State :=
  let x := s.node n
  if x.waits.isEmpty then s else forEach x.waits (enterNode n) (s.setNode n { x with waits := [] })

/-- Whether a node has received every input of an element and folded every segment but the last (R135, R140). -/
def Acc.full (a : Acc) : Bool :=
  decide (a.received = a.expected) && (decide (a.expected ≤ 2 ^ 20) || decide (a.segs.length ≤ 1))

/-- The partial winner with no input left (R142). -/
def noWinner (op : Nat) : Word × Nat := (if op = 1 then negInf else posInf, 0xFFFFFFFF)

/-- The pair of a full accumulator, or its winner, with its metadata and whether it overflowed (R135, R142). -/
def Acc.out (a : Acc) : Word × Word × Word × Bool :=
  if a.op = 0 then
    let (hi, lo, ovf) := pairOf (sumI (a.segs.map (·.sum)))
    (hi, lo, a.md ||| (if ovf then mdFlag 7 else 0), ovf)
  else
    match a.best with
    | some b => (b.1, BitVec.ofNat 32 b.2, a.md, false)
    | none => ((noWinner a.op).1, BitVec.ofNat 32 (noWinner a.op).2, a.md, false)

/-- The flag of a result for which no input was left at the root (R142). -/
def Acc.lostMd (a : Acc) : Word :=
  if a.op ≠ 0 ∧ a.out.1 = (noWinner a.op).1 ∧ a.out.2.1 = 0xFFFFFFFF then mdFlag 8 else 0

/-- Take the pair of a full accumulator out of its node; its accumulators are free for the inputs that wait (R137). -/
def takePair (n : NodeId) (a : Acc) (s : State) : State :=
  let s := retryWaits n (s.setNode n ((s.node n).drop a.key))
  whenS a.out.2.2.2 (fun t => t.setBit (nodeSticky n) 2) s

/-- The inputs of an element whose sequence numbers lie in segment k. -/
def Acc.segSize (a : Acc) (k : Nat) : Nat :=
  min (2 ^ 20 * (k + 1)) (a.first + a.expected) - max (2 ^ 20 * k) a.first

/-- Whether a node with more than 2^20 inputs of an element has all those of the next segment, and another follows
(R140). -/
def Acc.canFold (a : Acc) : Bool :=
  decide (a.op = 0) && decide (2 ^ 20 < a.expected) && decide (2 ^ 20 * (a.folded + 1) < a.first + a.expected) &&
    (a.segs.any fun x => decide (x.ix = a.folded) && decide (x.count = a.segSize a.folded))

/-- Fold the next segment into the one after it, under a rounding (R140, R239). -/
def Acc.fold (r : Rnd) (a : Acc) : Acc :=
  let v := ((a.segs.find? fun x => x.ix = a.folded).map (·.sum)).getD 0
  let rest := a.segs.filter fun x => x.ix ≠ a.folded
  let w := f32Int (foldRound r v)
  let rest := if rest.any fun x => x.ix = a.folded + 1 then
      rest.map fun x => if x.ix = a.folded + 1 then { x with sum := x.sum + w } else x
    else rest ++ [{ ix := a.folded + 1, count := 0, sum := w }]
  { a with segs := rest, folded := a.folded + 1, md := a.md ||| mdFlag 3 }

/-! ### What a node expects -/

/-- The instruction at a position of a core's frame program (R195), from its code range. -/
def instrAt (s : State) (core seq : Nat) : BitVec 256 :=
  match (s.core core).prog with
  | none => 0
  | some p =>
    match codeOffset s core p.task (p.start + 32 * seq) with
    | none => 0
    | some o => BitVec.ofNat 256 (leNat (Mem.read s.spad (s.pcIx core * 2 ^ 22 + o) 32))

/-- The reduction that an instruction's terms belong to (R134). -/
def reductionOf (s : State) (core seq : Nat) : Option Reduction :=
  (s.contentOf core).bind fun c => c.reductions.find? fun r => r.members.any fun m => m.1 = core && m.2.1 = seq

/-- The reduction whose result an instruction receives (R138). -/
def destReduction (s : State) (core seq : Nat) : Option Reduction :=
  (s.contentOf core).bind fun c => c.reductions.find? fun r => decide (r.destCore = core) && decide (r.destSeq = seq)

/-- Whether a member core holds terms of output element n, by its own placement (R177). -/
def memberHolds (s : State) (core seq : Nat) (e : Ext) (n : Nat) : Bool :=
  let w := instrAt s core seq
  let d := (s.core core).td (iTd0 w)
  let c := chansOf (s.mfmt core (dMbase d))
  if iOp w = 0x10 then
    decide (dNt0 d * c ≤ n) && decide (n < (dNt0 d + dNtc d) * c) && decide (n < e.n) && decide (dKt0 d * 512 < e.k)
  else if iOp w = 0x11 then
    decide (dKt0 d * 512 ≤ n) && decide (n < (dKt0 d + dKtc d) * 512) && decide (n < e.k) && decide (dNt0 d * c < e.n)
  else true

/-- The member cores of a reduction that hold terms of element n. -/
def holders (s : State) (r : Reduction) (e : Ext) (n : Nat) : List Nat :=
  (r.members.filter fun m => memberHolds s m.1 m.2.1 e n).map (·.1)

/-- The pair at TD_Y that enters the root of an accumulating REDUCE (R219). -/
def accumPair (s : State) (r : Reduction) (node : Option NodeId) (root : Option NodeId) : Nat :=
  let w := instrAt s r.destCore r.destSeq
  if iOp w = 0x13 && iB205 w && decide (node = root) then 1 else 0

/-- The root of a reduction (R134): none where it is the hub node of another module. -/
def rootOf (s : State) (r : Reduction) : Option NodeId :=
  if r.rootModule ≠ s.moduleId then none
  else if r.remotePairs ≠ 0 then some .hub
  else
    match nubN (r.members.map (·.1)) with
    | [c] => some (.core c)
    | cs =>
      match nubN (cs.map (· / 64)) with
      | [d] => some (.die d)
      | _ => some .hub

/-- The positions of an element's inputs at a node of a reduction: a core's among the member cores of its die, a die's among the
member dies, in the order in which the section names the members (R136). The pair of TD_Y comes first where one enters (R219). -/
def corePos (s : State) (r : Reduction) (core : Nat) : Nat :=
  ((nubN (r.members.map (·.1))).filter fun c => c / 64 = core / 64).idxOf core + accumPair s r (some (.die (core / 64))) (rootOf s r)
/-- The position of a die's pair in the root's order; the image gives where those of this module begin. -/
def diePos (r : Reduction) (d : Nat) : Nat := r.pairBase + (nubN (r.members.map (·.1 / 64))).idxOf d

/-- Inputs that the die node of die d expects for an element: one pair per holding core. -/
def dieExpects (s : State) (r : Reduction) (e : Ext) (n d : Nat) : Nat :=
  ((holders s r e n).filter fun c => c / 64 = d).length + accumPair s r (some (.die d)) (rootOf s r)

/-- Inputs that the hub node expects: one pair per holding die, and the pairs of other modules. -/
def hubExpects (s : State) (r : Reduction) (e : Ext) (n : Nat) : Nat :=
  (nubN ((holders s r e n).map (· / 64))).length + r.remotePairs + accumPair s r (some .hub) (rootOf s r)

/-- Whether an instruction receives its own outputs: it is in no reduction, or is the destination of its own. -/
def isDest (s : State) (core seq : Nat) : Bool :=
  match reductionOf s core seq with
  | none => true
  | some r => decide (r.destCore = core) && decide (r.destSeq = seq) && decide (r.rootModule = s.moduleId)

/-- An instruction in flight on a core. -/
def Core.op (c : Core) (seq : Nat) : Option Op := c.ops.find? fun o => o.seq = seq
/-- Write an instruction in flight. -/
def Core.putOp (c : Core) (o : Op) : Core := { c with ops := c.ops.map fun x => if x.seq = o.seq then o else x }
/-- Change an instruction in flight. -/
def modOp (core seq : Nat) (f : Op → Op) (s : State) : State :=
  s.modCore core fun c => { c with ops := c.ops.map fun x => if x.seq = seq then f x else x }

end Sys2Proof.Machine
end

