-- ==== Sys2Proof/Machine/Oasis.lean ====
section
/-! DEFINITION. The life-cycle state and the oasis (R390, R393, R395 to R397), and the opening of scan and debug (R421). -/

namespace Sys2Proof.Machine

/-- The life-cycle state (Table 16.3). -/
def State.lcState (s : State) : Nat := s.regFld secLc 0 3
/-- LC_BUSY (R393). -/
def State.lcBusy (s : State) : Bool := s.regBit secLc 3
/-- REBOOT_REQ (R393). -/
def State.rebootReq (s : State) : Bool := s.regBit secLc 6
/-- DEBUG_OPEN (R421). -/
def State.debugOpen (s : State) : Bool := s.regBit secLc 5
/-- The safe state (Table 17.3); 0 for none. -/
def State.safe (s : State) : Nat := s.regFld biStatus 8 3
/-- The stage of Table 17.1. -/
def State.stage (s : State) : Nat := s.regFld biStatus 0 4
/-- Whether a die is held in reset (R363, R408, R411): by BIST, for temperature, or before stage 6 releases it. -/
def dieHeldNow (s : State) (d : Nat) : Bool :=
  nth false s.bist.dieHeld d || nth false s.bist.thermHeld d || decide (s.stage < 6)

/-- Whether a core can be reached: capacity offers it, and its die is not held in reset. -/
def coreReachable (s : State) (core : Nat) : Bool := s.coreOffered core && !dieHeldNow s (core / 64)

/-- Whether the life-cycle state has an identity (Table 16.3). -/
def State.hasIdentity (s : State) : Bool := decide (s.lcState = 1) || decide (s.lcState = 2)

/-- The status with which a safe state answers what it does not serve (Table 17.3). -/
def State.safeStatus (s : State) : Option Nat :=
  if s.safe = 1 ∨ s.safe = 2 then some stBadSignature else if s.safe = 3 then some stCapacityLowered else none

/-- A wipe of the oasis (R395): no key is left in it. -/
def wipeOasis (s : State) : State :=
  (s.modSec fun x => { x with identity := none, opKey := none }).setBit secLc 4

/-- A write of 1 to BI_DEBUG.OPEN, with its status (R421). -/
def openDebug (s : State) : State × Nat :=
  let ok := (decide (s.lcState = 0) || decide (s.lcState = 3)) && (s.img.slots.all fun x => decide (x.state = 0)) &&
    s.sec.queue.isEmpty && !s.sec.running && !s.lcBusy
  if ok then ((wipeOasis s).setBit secLc 5, stOK) else (s, stProgramError)

/-- BI_DEBUG_OPEN. -/
def execBiDebugOpen (s : State) : Host.Outcome State Fault Refusal := answer s (openDebug s).1

end Sys2Proof.Machine
end

