-- ==== Sys2Proof/Machine/Fabric.lean ====
section
/-! DEFINITION. The local address map (R17, R18), link transmission and routing (R297 to R305), and packets that this
module receives: remote writes, their acknowledgements, reads and seif partials (R307 to R312). -/

namespace Sys2Proof.Machine

/-! ### The local address map -/

/-- What a local address names (Table 0.5). -/
inductive LAddr where
  | hbm (a : Nat)
  | spad (core o : Nat)
  | array (core lm ofs : Nat)
  | register
  | unmapped
  deriving DecidableEq, Repr, Inhabited

/-- Decode a local address (R17, R18); the save area at the top of HBM, and HBM that pseudo-channel retirement took
away, are unmapped. -/
def localAddr (s : State) (a : Nat) : LAddr :=
  if a < s.img.hbmBytes then .hbm a
  else
    let w := a / 2 ^ 44
    let d := a / 2 ^ 32 % 4096
    let c := a / 2 ^ 24 % 256
    if w = 4 ∧ a < 0x500000000000 ∧ d < 12 ∧ c < 64 ∧ a % 2 ^ 24 < spSize then .spad (64 * d + c) (a % 2 ^ 24)
    else if w = 5 ∧ d < 12 ∧ c < 64 ∧ a % 2 ^ 24 < 2 ^ 23 then .array (64 * d + c) (a % 2 ^ 24 / 2 ^ 15) (a % 2 ^ 15)
    else if w = 7 then .register
    else .unmapped

/-- The part of the local address map in which every byte of a run lies. -/
inductive RunAt where
  | hbm
  | spad (core o : Nat)
  | array (core : Nat)
  | bad
  deriving DecidableEq, Repr, Inhabited

/-- Where a run of local addresses lies; a run that lies in no one part of memory, or in registers, is refused. -/
def runAt (s : State) (a n : Nat) : RunAt :=
  let part (x : Nat) : RunAt :=
    match localAddr s x with
    | .hbm _ => .hbm
    | .spad c _ => .spad c 0
    | .array c _ _ => .array c
    | _ => .bad
  let first := part a
  if (rangeFrom a n).all fun x => part x = first then
    match localAddr s a with
    | .spad c o => .spad c o
    | _ => first
  else .bad

/-! ### The marks of committed data (R98, R382) -/

/-- The key of a result tag: core × 4096 + logical slot. -/
def tagKey (core k : Nat) : Nat := core * 4096 + k

/-- The newest WFN and the OR of the metadata of a list of records (R382). -/
def joinInfo (l : List (DWord × Word)) : DWord × Word :=
  l.foldl (fun a e => (if a.1.toNat < e.1.toNat then e.1 else a.1, a.2 ||| e.2)) (0, 0)

/-- The committed record behind a local address, of its unit or logical slot; none for a byte that is frame-local. -/
def byteInfo (s : State) (a : Nat) : Option (DWord × Word) :=
  match localAddr s a with
  | .hbm _ => (s.unitAt a).map fun u => SMap.get (fun _ => (0, 0)) s.img.unitInfo u.key
  | .spad c o => match slotKind s c (o / 256) with
    | .logical k => some (SMap.get (fun _ => (0, 0)) s.port.resultInfo (tagKey c k))
    | _ => none
  | _ => none

/-- The committed records behind a run of local addresses; none where a byte is frame-local. -/
def runInfo (s : State) (a n : Nat) : Option (List (DWord × Word)) := (rangeFrom a n).mapM (byteInfo s)

/-- BLK of a run of slots or regions that the image marks as block-scaled, if it marks one. -/
def blkOf (marks : List (Nat × Nat)) (l : List Nat) : Option Nat := l.findSome? fun k => (marks.find? fun m => m.1 = k).map (·.2)

/-- BLK of a local address, where the image marks its region or slot as block-scaled. -/
def byteBlk (s : State) (a : Nat) : Option Nat :=
  match localAddr s a with
  | .hbm _ => (s.unitAt a).bind fun u => blkOf ((s.image.map fun c => c.pingpong.regionBlk).getD []) [u.region]
  | .spad c o => match slotKind s c (o / 256) with
    | .logical k => blkOf (((s.core c).cfg.map fun g => g.slotBlk).getD []) [k]
    | _ => none
  | _ => none

/-- BLK of a run of local addresses: of the first marked byte. -/
def runBlk (s : State) (a n : Nat) : Option Nat := (rangeFrom a n).findSome? (byteBlk s)

/-! ### Links -/

/-- The state of a link (Table 12.3). -/
def State.linkState (s : State) (i : Nat) : Nat := s.regFld (linkA i 0) 0 3
/-- Whether a link is UP. -/
def State.linkUp (s : State) (i : Nat) : Bool := decide (s.linkState i = 2)

/-- What a codeword brings to its link's records (R292, R316): an uncorrectable one is counted; one with corrected symbols is
counted, and its symbols by physical lane. CL_LINK_LANE follows each completed window of 2^20 codewords. The model sees the
codewords that its commands bring, one for each block or packet (log entry 82). -/
def noteCodeword (i : Nat) (cw : Codeword) (s : State) : State :=
  let errs := if cw.uncorr then [] else cw.errs
  let s := whenS cw.uncorr (fun t => (t.setBit (linkA i 4) 0).addCnt (linkA i 8) 0 16 1) s
  let s := whenS (!errs.isEmpty) (fun t => t.addCnt (linkA i 0xC) 0 32 1) s
  let l := s.link i
  let sums := errs.foldl (fun m e => SMap.set (fun _ => 0) m e (SMap.get (fun _ => 0) m e + 1)) l.symErrs
  if l.codewords + 1 < 2 ^ 20 then s.setLink i { l with codewords := l.codewords + 1, symErrs := sums }
  else
    let top := sums.foldl (fun a e => if a.2 < e.2 then e else a) (0, 0)
    (s.setLink i { l with codewords := 0, symErrs := [] }).setReg (linkA i 0x14) (BitVec.ofNat 32 (min top.2 65535 * 2 ^ 16 + top.1 % 32))

/-- Whether a link may send a packet now (R298, R299). -/
def LinkSt.canSend (l : LinkSt) (p : Packet) : Bool :=
  decide (l.replay.length < 4096) &&
    (if vcOf p.ptype = 1 then decide (l.sent1 + packetUnits p ≤ l.freed1) else decide (l.sent0 + packetUnits p ≤ l.freed0))

/-- Put a packet on a link: it takes the next LSEQ and its CRC32, and stays in the replay buffer until acknowledged (R298,
R301). -/
def launch (i : Nat) (p : Packet) (s : State) : State :=
  let l := s.link i
  let p := { p with lseq := l.lseqTx }
  let p := { p with crc := packetCrc p }
  let l := { l with lseqTx := (l.lseqTx + 1) % 65536, replay := l.replay ++ [p],
                    sent0 := if vcOf p.ptype = 0 then l.sent0 + packetUnits p else l.sent0,
                    sent1 := if vcOf p.ptype = 1 then l.sent1 + packetUnits p else l.sent1 }
  (s.setLink i l).send (.packet i p)

/-! ### Transmit queues (R277 to R282, R299, Table 11.3) -/

/-- The stages of a link's transmit queue. -/
def linkStages : Nat := 64

/-- Stages that a link's transmit queue holds: its whole packets, and the part of the one that is entering. -/
def LinkSt.depth (l : LinkSt) : Nat := sumN (l.waiting.map packetUnits) + l.part

/-- Push the stages of the packets that wait in the fabric, one after another, while the queue has credit; a packet is visible
once its last stage is in (R277, R279). The fuel bounds the packets. -/
def LinkSt.fill : Nat → LinkSt → LinkSt
  | 0, l => l
  | n + 1, l =>
    match l.backlog with
    | [] => l
    | p :: rest =>
      let free := linkStages - l.depth
      if packetUnits p - l.part ≤ free then LinkSt.fill n { l with waiting := l.waiting ++ [p], backlog := rest, part := 0 }
      else { l with part := l.part + free }

/-- The hub fabric pushes what the queue of a link has room for. -/
def pushStages (i : Nat) (s : State) : State :=
  let l := s.link i
  let l' := LinkSt.fill l.backlog.length l
  if l'.depth = l.depth then s else queueDepthChange (2 + i) l.depth l'.depth (s.setLink i l')

/-- The next packet of a link's queue: VC1 is served before VC0 (R299). -/
def LinkSt.next (l : LinkSt) : Option Packet := (l.waiting.find? fun p => vcOf p.ptype = 1).or l.waiting.head?

/-- Whether a link may send control blocks other than the swap handshake (R292). -/
def State.linkOpen (s : State) (i : Nat) : Bool := (s.link i).swap.isNone

/-- The packet that a link can send now. -/
def nextSend (s : State) (i : Nat) : Option Packet :=
  if s.linkUp i && s.linkOpen i then (s.link i).next.bind fun p => if (s.link i).canSend p then some p else none else none

/-- A link takes a packet from its queue and sends it. -/
def popPacket (i : Nat) (p : Packet) (s : State) : State :=
  let l := s.link i
  let l' := { l with waiting := l.waiting.erase p }
  launch i p (queueDepthChange (2 + i) l.depth l'.depth (s.setLink i l'))

/-- Packets enter the queue of a link and leave it while credit lasts; the fuel bounds the packets sent. -/
def pump (i : Nat) : Nat → State → State
  | 0, s => s
  | n + 1, s =>
    let s := pushStages i s
    match nextSend s i with
    | none => s
    | some p => pump i n (popPacket i p s)

/-- Send what a link may send. -/
def pumpLink (i : Nat) (s : State) : State := pump i ((s.link i).backlog.length + (s.link i).waiting.length + 1) s

/-- A packet goes to a link's transmit queue. -/
def enqueue (i : Nat) (p : Packet) (s : State) : State :=
  pumpLink i (s.modLink i fun l => { l with backlog := l.backlog ++ [p] })

/-! ### The receiving side of the link layer (R297 to R299) -/

/-- Send a control block, unless the link pauses for a lane swap (R292). -/
def sendBlock (i : Nat) (w : BitVec 64) (s : State) : State := whenS (s.linkOpen i) (fun t => t.send (.block i w)) s

/-- The cumulative ACK and CREDIT of a link. -/
def sendAcks (i : Nat) (s : State) : State :=
  let l := s.link i
  sendBlock i (creditBlock l.rxFreed0 l.rxFreed1) (sendBlock i (ackBlock ((l.lseqRx + 65535) % 65536)) s)

/-- A packet is accepted in order: it is acknowledged, and its buffer units return to the transmitter as the hub delivers
it (R298, R299). -/
def rxAccept (i : Nat) (p : Packet) (s : State) : State :=
  let l := s.link i
  let one := decide (vcOf p.ptype = 1)
  let l := { l with lseqRx := (l.lseqRx + 1) % 65536,
                    rxFreed0 := if one then l.rxFreed0 else (l.rxFreed0 + packetUnits p) % 65536,
                    rxFreed1 := if one then (l.rxFreed1 + packetUnits p) % 65536 else l.rxFreed1 }
  sendAcks i (s.setLink i l)

/-- The receiver asks for the packet that it expects next (R298). -/
def rxNak (i : Nat) (s : State) : State := sendBlock i (nakBlock (s.link i).lseqRx) s

/-- A packet is discarded and answered with a NAK: its codeword is uncorrectable, or its CRC is bad, which is recorded (R298,
R316). -/
def rxBad (i : Nat) (cw : Codeword) (s : State) : State := rxNak i (whenS (!cw.uncorr) (fun t => t.setBit (linkA i 4) 1) s)

/-- Whether the codewords and the CRC of a packet are good. -/
def rxGood (p : Packet) (cw : Codeword) : Bool := !cw.uncorr && decide (p.crc = packetCrc p)

/-- A packet comes to a link that is UP: it is accepted where it is the one expected, discarded as a duplicate, or answered with a
NAK (R298). `deliver` is what an accepted packet does. -/
def rxPacket (i : Nat) (p : Packet) (cw : Codeword) (deliver : State → State) (s : State) : State :=
  if !s.linkUp i then s
  else
    let s := noteCodeword i cw s
    let exp := (s.link i).lseqRx
    let behind := (exp + 65536 - p.lseq % 65536) % 65536
    if !rxGood p cw then rxBad i cw s
    else if behind = 0 then deliver (rxAccept i p s)
    else if behind ≤ 4096 then s
    else rxNak i s

/-- A control block of a TYPE comes to a link: one that fails its CRC, that an uncorrectable codeword brings or that is of no
known TYPE is discarded (R297). -/
def rxBlock (i type : Nat) (w : BitVec 64) (cw : Codeword) (take : State → State) (s : State) : State :=
  if 1 ≤ s.linkState i ∧ s.linkState i ≤ 3 then
    let s := noteCodeword i cw s
    if blkTaken type w cw then take s else s
  else s

/-- The packet in which a VOTE payload travels. -/
def votePacket (dst src : Nat) (ftag : BitVec 8) (pl : VotePl) : Packet :=
  { ptype := 6, dst := dst, src := src, ftag := ftag, vote := some pl }

/-- The route of a packet: a link, delivery within the hub, or none (R303, R304). -/
inductive Hop where
  | link (i : Nat)
  | here
  | none
  deriving DecidableEq, Repr, Inhabited

/-- The first choice of link that is UP (R304). -/
def nextHop (s : State) (vc dst : Nat) : Hop :=
  match s.image.bind fun c => ((if vc = 1 then c.route.vc1 else c.route.vc0).find? fun e => e.1 = dst).map (·.2) with
  | none => .none
  | some r =>
    if r.toLocal then .here
    else match r.links.find? fun i => s.linkUp i with
      | some i => .link i
      | none => .none

/-! ### Judging a remote write (R308 to R310) -/

/-- FTAG of the running frame (R301). -/
def State.ftag (s : State) : BitVec 8 := s.fn.setWidth 8

/-- The window that covers a range with a permission: the lowest core, then the lowest window (R309). -/
def findWindow (s : State) (a n perm : Nat) : Option (Nat × Nat) :=
  s.cores.findSome? fun e =>
    (e.2.windows.find? fun w =>
      bitN w.2.perm perm && decide (w.2.base ≤ a) && decide (a + n ≤ w.2.base + w.2.size)).map fun w => (e.1, w.1)

/-- The row of Table 12.9 under which a byte falls. -/
inductive WrRow where
  | region (i : Nat)
  | hbmPlain
  | versioned (core : Nat)
  | working (core : Nat)
  | other
  deriving DecidableEq, Repr, Inhabited

/-- The row of one byte. -/
def wrRow (s : State) (a : Nat) : WrRow :=
  match localAddr s a with
  | .hbm a => match s.unitAt a with
    | some u => .region u.region
    | none => .hbmPlain
  | .spad core o => match slotKind s core (o / 256) with
    | .logical _ => .versioned core
    | _ => .working core
  | _ => .other

/-- What comes of a write judged against its target: landed, refused, or waiting for a slot to become EMPTY or for a
unit that the previous frame wrote. -/
inductive Landing where
  | landed (s : State)
  | refused (s : State)
  | waitSlot (core slot : Nat)
  | waitUnit
  deriving DecidableEq, Repr

/-- The flags that a list of byte targets would raise. -/
def targetFlags (s : State) (r : Req) (tag q n : Nat) : SpFlags :=
  (rangeFrom q n).foldl (fun f x => f.add (spTarget s r true tag x)) {}

/-- Whether any flag of a write is set. -/
def SpFlags.any (f : SpFlags) : Bool := f.bound || f.conflict.isSome || f.codeWrite || f.misuse || f.asleep

/-- The segment map in force on a core (R154). -/
def State.seg (s : State) (core : Nat) : Nat := s.regFld (spA core 0x1C) 16 6

/-- An access of an instruction, or a remote write, waits on a slot tag (R160, R310): it takes the youngest place of the core's
table; a full table stalls its unit, and the peak is what the table holds. -/
def waitOnSlot (core slot : Nat) (who : Option Nat) (s : State) : State :=
  let c := s.core core
  let s := whenS (decide (64 ≤ c.waits.length)) (fun t => t.setBit (spA core 4) 9) s
  s.modCore core fun c =>
    { c with waits := c.waits ++ [(slot, who)], waitMost := max c.waitMost (min 64 (c.waits.length + 1)) }

/-- Refuse a write with the sticky bits and staged events of the rules that refuse it. -/
def refuseSp (r : Req) (f : SpFlags) (s : State) : Landing := .refused (spEffects r f s).1

/-- Land a write in the version of the running frame (Table 12.9). `cls` is 5 for a remote write and 0 for an input
write; `md` is the metadata of its header. -/
def landWrite (cls a : Nat) (bytes : List Byte) (tagm last : Bool) (md : Word) (s : State) : Landing :=
  let n := bytes.length
  let rows := (rangeFrom a n).map (wrRow s)
  match rows with
  | [] => .refused s
  | row :: rest =>
    if rest.any fun x => x ≠ row then .refused s
    else
      let o := match localAddr s a with
        | .spad _ o => o
        | _ => a
      match row with
      | .hbmPlain => .refused (whenS (runLocked s a n) (stickyEvent secImgState 31) s)
      | .region _ =>
        match s.unitAt a with
        | none => .refused s
        | some u =>
          if (rangeFrom a n).any (unitLocked s) then .refused (stickyEvent secImgState 31 s)
          else if (prevUnits s).contains u.key then
            (if cls = 0 then .waitUnit else .refused (stickyEvent fxSticky 7 s))
          else .landed (noteUnitMd md a n (hbmWriteS a bytes s))
      | .versioned core =>
        let r : Req := { core := core, seg := s.seg core, cls := cls }
        let f := targetFlags s r (if tagm then 1 else 0) o n
        if f.any then refuseSp r f s
        else if n ≠ 256 ∨ o % 256 ≠ 0 then .refused s
        else
          let (_, s) := spWriteS r 0 512 (wordMask o bytes fun _ => false) s
          let k := o / 256 - verBase s core
          .landed (s.modCore core fun c =>
            { c with ver := SMap.set (fun _ => {}) c.ver k { c.verOf k with mdCur := (c.verOf k).mdCur ||| md } })
      | .working core =>
        let r : Req := { core := core, seg := s.seg core, cls := cls }
        let tag := if tagm then 1 else 0
        let f := targetFlags s r tag o n
        if f.any then refuseSp r f s
        else if tagm && (s.core core).isFull (o / 256) then .waitSlot core (o / 256)
        else
          let (_, s) := spWriteS r tag 512 (wordMask o bytes fun _ => false) s
          .landed (whenS last (lastInSlot r tag o) s)
      | _ => .refused s

/-- Raise a sticky bit of the Chipra block with its counter. -/
def clCount (bitIx cnt lo : Nat) (s : State) : State := (s.setBit clSticky bitIx).addCnt cnt lo 16 1

/-- A write or its answer was WINDOW_CLOSED at one end (R309): bit 1 at the receiver, bit 0 at the sender. The event is
raised when the bit goes from clear to set. -/
def windowClosed (bitIx lo : Nat) (s : State) : State :=
  let news := !(s.regBit clSticky bitIx)
  let s := clCount bitIx clWclCnt lo s
  whenS news (stage0 clSticky bitIx stWindowClosed 0) s

/-- The acknowledgement of a packet (R311). -/
def ackOf (s : State) (p : Packet) (st : Nat) : Packet :=
  { ptype := 2, dst := p.src, src := s.moduleId, ftag := p.ftag, xid := p.xid, ackSt := st }

/-- A packet that no module of the path can forward (R305): bit and count, and for a packet without acknowledgement a
detected fault here. -/
def unreachable (p : Packet) (s : State) : State :=
  let s := clCount 3 clCnt 0 s
  whenS (decide (p.ptype ≠ 1) && decide (p.ptype ≠ 3)) (detectFault routeLoc) s

/-- The ACK_ST 4 answer of an unreachable WR or RD_REQ. -/
def unreachableAnswer (s : State) (p : Packet) : List Packet :=
  if p.ptype = 1 then [{ ackOf s p 4 with src := p.dst }]
  else if p.ptype = 3 then [{ ackOf s p 4 with ptype := 4, src := p.dst }]
  else []

/-- A WR that this module receives (R308 to R310). A frame that runs quiet for want of a result takes no remote write (R334; log
entry 127). The second component is its acknowledgement. -/
def takeWr (p : Packet) (s : State) : State × List Packet :=
  if p.ftag ≠ s.ftag then (clCount 2 clCnt 16 s, [ackOf s p 3])
  else if s.fx.cur.inPlace then (s.setBit clSticky 4, [ackOf s p 2])
  else if (findWindow s p.addr p.data.length 0).isNone then (windowClosed 1 0 s, [ackOf s p 1])
  else match landWrite 5 p.addr p.data p.tagm p.last (p.md.setWidth 32) s with
    | .landed s => (s, [ackOf s p 0])
    | .refused s => (s.setBit clSticky 4, [ackOf s p 2])
    | .waitUnit => (s.setBit clSticky 4, [ackOf s p 2])
    | .waitSlot core slot =>
      (waitOnSlot core slot none { s with chip := { s.chip with waitWr := s.chip.waitWr ++ [p] } }, [])

/-- A WR_ACK for a transfer of this module (R305, R308, R309, R311). -/
def takeAck (p : Packet) (s : State) : State :=
  match s.chip.sends.find? fun x => x.xid = p.xid with
  | none => s
  | some r =>
    let rest := s.chip.sends.filter fun x => x.xid ≠ p.xid
    let left := r.left - 1
    let s := { s with chip := { s.chip with sends := if left = 0 then rest else { r with left := left } :: rest } }
    let md (i : Nat) (o : Op) : Op := { o with md := o.md ||| mdFlag i }
    let s := modOp r.core r.seq (fun o => { o with acks := o.acks - 1 }) s
    if p.ackSt = 1 then windowClosed 0 16 (modOp r.core r.seq (md 13) s)
    else if p.ackSt = 2 then stage0 clSticky 4 stProgramError r.core (modOp r.core r.seq (md 1) s)
    else if 3 ≤ p.ackSt then detectFault routeLoc s
    else s

/-- The current version that an RD_REQ returns (R312): copy CUR of a versioned slot, the current side of a unit, other memory as
it stands; none where a byte of the run is not in one mapped memory, or its target refuses the read. -/
def readCurrent (a n : Nat) (s : State) : Option (List Byte) × State :=
  match runAt s a n with
  | .hbm => let (l, _, s) := hbmRead a n s; (some l, s)
  | .spad core o =>
    if !coreReachable s core then (none, s)
    else
      let (l, f) := spRead s { core := core } 0 o n
      let s := (spEffects { core := core } f s).1
      if f.any then (none, s) else (some l, s)
  | _ => (none, s)

/-- An RD_REQ that this module serves (R312, R345). The response carries the block size and the metadata of its data (R98,
R301). -/
def takeRdReq (p : Packet) (s : State) : State × List Packet :=
  let resp (st : Nat) (l : List Byte) : Packet :=
    let b := if st = 0 then runBlk s p.addr p.want else none
    let md := if st = 0 then (joinInfo ((runInfo s p.addr p.want).getD [])).2 else 0
    { ackOf s p st with ptype := 4, addr := p.addr, data := l, blk := b.getD 0, nonconf := b.any (· ≠ 1), md := md.setWidth 14 }
  let exported := s.fx.exportPeer = some p.src
  if !exported && p.ftag ≠ s.ftag then (clCount 2 clCnt 16 s, [resp 3 []])
  else if !exported && (findWindow s p.addr p.want 1).isNone then (s, [resp 1 []])
  else match readCurrent p.addr p.want s with
    | (some l, s) => (s, [resp 0 l])
    | (none, s) => (s.setBit clSticky 4, [resp 2 []])

/-- An RD_RESP for this hub (R305, R308, R312): it is kept with its data, and a status STALE or UNREACHABLE is a detected fault of
the asker's frame. -/
def takeRdResp (p : Packet) (s : State) : State :=
  let s := { s with chip := { s.chip with responses := s.chip.responses ++ [p] } }
  whenS (decide (3 ≤ p.ackSt)) (detectFault routeLoc) s

/-- The reductions in force, each of the image that governs its destination (R262). -/
def State.reductions (s : State) : List Reduction :=
  let of (c : Option ImageContent) : List Reduction := (c.map (·.reductions)).getD []
  (of s.image).filter (fun r => (groupOf s r.destCore).all fun g => s.img.groups.all fun x => x.1 ≠ g) ++
    s.img.groups.flatMap fun g => of (s.slotContent g.2)

/-- The reduction and the receiving instruction that a SEIF entry names (R311); the element number is
(b × M + m) × width + n. -/
def seifKey (s : State) (red elem : Nat) : Option (Reduction × Op × ElemKey) :=
  (s.reductions.find? fun r => r.id = red && decide (r.remotePairs ≠ 0)).bind fun r =>
    ((s.core r.destCore).op r.destSeq).bind fun o =>
      if r.width = 0 ∨ o.ext.m = 0 ∨ o.ext.b * o.ext.m * r.width ≤ elem then none
      else some (r, o, { core := r.destCore, seq := r.destSeq, b := elem / r.width / o.ext.m, m := elem / r.width % o.ext.m,
                         n := elem % r.width })

/-- One entry of a SEIF packet enters the hub node, or is unexpected (R311). -/
def takeSeifEntry (red : Nat) (md : Word) (e : SeifEntry) (s : State) : State :=
  match seifKey s red e.elem with
  | none => detectFault routeLoc s
  | some (r, o, k) =>
    let a := (s.hubNode).find k
    let exp := hubExpects s r o.ext k.n
    if (a.map fun x => decide (exp ≤ x.received)).getD false then detectFault routeLoc s
    else enterNode .hub { key := k, op := if iOp o.word = 0x13 then iRop o.word else 0, expected := exp, seq := e.seq, hi := e.hi,
                          lo := e.lo, md := md, core := r.destCore, td := iTd1 o.word,
                          ext := o.ext } s

/-- A SEIF packet (R308, R311): a packet outside its frame is discarded. -/
def takeSeif (p : Packet) (s : State) : State :=
  if p.ftag ≠ s.ftag then clCount 2 clCnt 16 s
  else forEach p.entries (takeSeifEntry p.addr (p.md.setWidth 32)) s

/-- Whether the fields of a packet contradict its type (R302). -/
def packetBad (p : Packet) : Bool :=
  let d := p.data.length
  if p.vc != decide (vcOf p.ptype = 1) then true
  else if p.ptype = 1 then decide (d = 0) || decide (256 < d) || decide (p.ackSt ≠ 0)
  else if p.ptype = 2 then decide (d ≠ 0) || decide (4 < p.ackSt)
  else if p.ptype = 3 then decide (d ≠ 0) || decide (p.want = 0) || decide (256 < p.want) || decide (p.ackSt ≠ 0)
  else if p.ptype = 4 then decide (256 < d) || decide (4 < p.ackSt) || (decide (p.ackSt ≠ 0) && decide (d ≠ 0)) ||
    (decide (p.ackSt = 0) && decide (d = 0))
  else if p.ptype = 5 then decide (p.entries.length = 0) || decide (16 < p.entries.length) || decide (p.ackSt ≠ 0)
  else if p.ptype = 6 then p.vote.isNone || decide (p.ackSt ≠ 0)
  else decide (p.ptype ≠ 7) || decide (p.ackSt ≠ 0)

/-- A packet with a reserved TYPE, or whose fields contradict its type, is discarded: BAD_PACKET and a detected fault (R302). -/
def badPacket (s : State) : State := detectFault routeLoc (s.setBit clSticky 7)

/-- A packet for this module: what it does, and the packets that answer it. -/
def takePacket (p : Packet) (s : State) : State × List Packet :=
  if packetBad p then (badPacket s, [])
  else if p.ptype = 1 then takeWr p s
  else if p.ptype = 2 then (takeAck p s, [])
  else if p.ptype = 3 then takeRdReq p s
  else if p.ptype = 4 then (takeRdResp p s, [])
  else if p.ptype = 5 then (takeSeif p s, [])
  else (s, [])

/-- Whether a packet to a module would find a way (R305). -/
def canReach (s : State) (p : Packet) : Bool := nextHop s (vcOf p.ptype) p.dst ≠ .none

/-- Route a packet (R304, R305): to a link, or deliver it within the hub; answers are routed in turn, but an UNREACHABLE answer
only where its module can be reached. The fuel bounds the chain of a request, its answer, and no more. -/
def emit : Nat → Packet → State → State
  | 0, _, s => s
  | k + 1, p, s =>
    match nextHop s (vcOf p.ptype) p.dst with
    | .link i => enqueue i p s
    | .here =>
      let (s, r) := takePacket p s
      forEach r (emit k) s
    | .none =>
      let r := unreachableAnswer s p
      let s := unreachable p s
      if p.src = s.moduleId then forEach r (fun q t => (takePacket q t).1) s
      else forEach (r.filter (canReach s)) (emit k) s

/-- Route a packet of this module. -/
def sendPacket (p : Packet) (s : State) : State := emit 3 p s

/-- The lowest free transfer slot of a core (R301). -/
def freeXid (s : State) (core : Nat) : Nat :=
  let used (i : Nat) : Bool := s.chip.sends.any fun x => x.xid = core + i * 1024
  core + (((List.range 64).find? fun i => !used i).getD 63) * 1024

/-- The pieces of a run at an address, none of which crosses a 256-byte boundary; the fuel is the run's length. -/
def split256 (a : Nat) (l : List Byte) : Nat → List (Nat × List Byte)
  | 0 => []
  | k + 1 =>
    if l.isEmpty then []
    else
      let n := min l.length (256 - a % 256)
      (a, l.take n) :: split256 (a + n) (l.drop n) k

/-- Send a run of bytes to a remote module as WR packets of one transfer (R301, R311). The last piece carries LAST when
`last` is set and the target is written in PRODUCE mode. -/
def sendRun (core seq xid : Nat) (d : BitVec 512) (md : Word) (a : Nat) (bytes : List Byte) (last : Bool) (s : State) : State :=
  let pieces := split256 a bytes bytes.length
  let tagm := decide (dTag d ≠ 0)
  let np := pieces.length
  let s := modOp core seq (fun o => { o with acks := o.acks + np }) s
  let rec0 := (s.chip.sends.find? fun x => x.xid = xid).getD { xid := xid, core := core, seq := seq, left := 0 }
  let s := { s with chip := { s.chip with
    sends := (s.chip.sends.filter fun x => x.xid ≠ xid) ++ (if np = 0 then [] else [{ rec0 with left := rec0.left + np }]) } }
  forEach (pieces.zip (List.range np)) (fun x t =>
    sendPacket
      { ptype := 1, tagm := tagm, last := tagm && last && decide (x.2 + 1 = np),
        nonconf := dOutScaled d && decide (dOutBlk d ≠ 1), blk := if dOutScaled d then dOutBlk d else 0,
        dst := dModule d, src := t.moduleId, ftag := t.ftag, addr := x.1.1, md := md.setWidth 14, xid := xid, data := x.1.2 } t) s

end Sys2Proof.Machine
end

