-- ==== Sys2Proof/Machine/Issue.lean ====
section
/-! DEFINITION. Issue and completion of macro-instructions (R180, R196 to R202): one attempt of the sequencer at its
position, the refusal at issue, and the completion with its signal and its inherited metadata. -/

namespace Sys2Proof.Machine

/-- The 256 bits of an instruction: the opcode of its row and the operand bits of the command. -/
def fullWord (op : BitVec 8) (body : BitVec 248) : BitVec 256 := body ++ op

/-- Whether any of the fields (lowest bit, width) of an instruction is not zero. -/
def anySet (w : BitVec 256) (l : List (Nat × Nat)) : Bool := l.any fun f => decide (fld w f.1 f.2 ≠ 0)

/-- Reserved bits of the header (Table 8.1). -/
def hdrReserved : List (Nat × Nat) := [(13, 3), (26, 6), (58, 6)]

/-- Whether the sequencer has passed the end of its program's code (R199). -/
def pastEnd (s : State) (core : Nat) : Bool :=
  let c := s.core core
  match c.prog with
  | none => false
  | some p => decide (65536 ≤ c.pos) || (codeOffset s core p.task (p.start + 32 * c.pos + 31)).isNone

/-- Whether a core's sequencer stands at an instruction. -/
def running (s : State) (core : Nat) : Bool := (s.core core).prog.isSome && !(s.core core).ended

/-! ### The share of a core (R177) -/

/-- K tiles of the placement inside K. -/
def ktcValid (d : BitVec 512) (k : Nat) : Nat := min (dKtc d) (cdiv k 512 - dKt0 d)
/-- N tiles of the placement inside N, with c channels per tile. -/
def ntcValid (d : BitVec 512) (c n : Nat) : Nat := min (dNtc d) (cdiv n c - dNt0 d)
/-- Elements along K of the core's share. -/
def kShare (d : BitVec 512) (k : Nat) : Nat := min k (512 * (dKt0 d + dKtc d)) - 512 * dKt0 d
/-- Channels of the core's share. -/
def nShare (d : BitVec 512) (c n : Nat) : Nat := min n (c * (dNt0 d + dNtc d)) - c * dNt0 d
/-- The logical macro of a tile (R172). -/
def tileMac (d : BitVec 512) (b kt nt : Nat) : Nat := dMbase d + b * dMstride d + kt + dKtc d * nt
/-- Channels of a placement's macros. -/
def chansAt (s : State) (core : Nat) (d : BitVec 512) : Nat := chansOf (s.mfmt core (dMbase d))

/-! ### Limits and queues -/

/-- The opcodes that count as macro operations in flight (R180). -/
def isMacroOp (o : Nat) : Bool := o = 0x10 || o = 0x11 || o = 0x12 || o = 0x0B
/-- Whether an instruction is a DMA transfer (R180): the moves, a WRITE_W that writes (R81), and a REDUCE whose source is in HBM
(R219). The list is DEDUCED (log entry 120). -/
def isDmaOp (c : Core) (w : BitVec 256) : Bool :=
  let o := iOp w
  o = 0x08 || o = 0x09 || o = 0x0A || (o = 0x0B && !iB205 w) || (o = 0x13 && dLoc (c.td (iTd1 w)) = 1)

/-- Instructions of a kind in flight on a core; a part that completed at issue is in flight no more. -/
def inFlight (c : Core) (kind : BitVec 256 → Bool) : Nat := (c.ops.filter fun o => !o.signalled && kind o.word).length
/-- Macro operations in flight. -/
def macroOps (c : Core) : Nat := inFlight c fun w => isMacroOp (iOp w)
/-- DMA transfers in flight. -/
def dmaOps (c : Core) : Nat := inFlight c (isDmaOp c)

/-- Whether an in-flight limit holds an instruction back (R180). -/
def atLimit (c : Core) (w : BitVec 256) : Bool :=
  (isMacroOp (iOp w) && decide (256 ≤ macroOps c)) || (isDmaOp c w && decide (64 ≤ dmaOps c))

/-- The drain ports that the tiles of an instruction use on a core, by the extents as its fields give them (R129, R131). -/
def portsOf (s : State) (core : Nat) (w : BitVec 256) : List Nat :=
  let e : Ext := { m := extVal s core (iExt w 104), n := extVal s core (iExt w 132), k := extVal s core (iExt w 160), b := bcVal s core (iBc w) }
  let ports (d : BitVec 512) (n k : Nat) : List Nat :=
    (List.range (min e.b 256)).flatMap fun b =>
      (List.range (ktcValid d k)).flatMap fun kt => (List.range (ntcValid d (chansAt s core d) n)).map fun nt => tileMac d b kt nt / 16
  let d := (s.core core).td (iTd0 w)
  if iOp w = 0x10 ∨ iOp w = 0x11 then nubN (ports d e.n e.k)
  else if iOp w = 0x12 then nubN (ports d e.n e.k ++ ports ((s.core core).td (iTdV w)) e.k e.n)
  else []

/-- The core queues into which an instruction pushes as it issues: the next DMA engine's, the drain ports', and the vector
unit's (R129, R180, R221). -/
def issueQueues (s : State) (core : Nat) (w : BitVec 256) : List Nat :=
  let c := s.core core
  (if isDmaOp c w then [c.dmaNext % 4] else []) ++ (portsOf s core w).map (4 + ·) ++
    (if iOp w = 0x18 then [22] else if iOp w = 0x19 then [23] else [])

/-- Whether a queue that an instruction needs has no credit left (R196, R277). -/
def queuesFull (s : State) (core : Nat) (w : BitVec 256) : Bool :=
  (issueQueues s core w).any fun q => decide (creditsLeft (s.core core) q = 0)

/-- Take the counts of token pairs (R202, R205). -/
def takeTokens (core : Nat) (l : List (Nat × Nat)) (s : State) : State :=
  s.modCore core fun c => l.foldl (fun c p => c.setToken p.1 (c.token p.1 - p.2)) c

/-- Whether every pair is satisfied at once; counts of one token add up (R205, R272). -/
def pairsMet (c : Core) (l : List (Nat × Nat)) : Bool :=
  l.all fun p => decide (sumN ((l.filter fun q => q.1 = p.1).map (·.2)) ≤ c.token p.1)

/-- Record a wait of the sequencer. -/
def setWaiting (core : Nat) (pairs : List (Nat × Nat)) (taken : Bool) (s : State) : State :=
  s.modCore core fun c =>
    let old := match c.waiting with
      | some w => decide (w.taken = taken) && w.tripped
      | none => false
    { c with waiting := some { seq := c.pos, pairs := pairs, taken := taken, tripped := old } }

/-- The sequencer goes on to the next position. -/
def advance (core : Nat) (s : State) : State := s.modCore core fun c => { c with pos := c.pos + 1, waiting := none }

/-- The source descriptors of an instruction, for the metadata that it inherits (R210): its operands in memory and in macros. -/
def opSources (w : BitVec 256) : List Nat :=
  let o := iOp w
  if o = 0x08 ∨ o = 0x09 ∨ o = 0x0A then [iTd0 w]
  else if o = 0x0B then (if iB205 w then [] else [iTd0 w])
  else if o = 0x10 then [iTd0 w, iTd1 w] ++ (if iEpi w ≠ 0 then [iTdV w] else [])
  else if o = 0x11 then [iTd0 w, iTd1 w]
  else if o = 0x12 then [iTd0 w, iTd1 w, iTdV w]
  else if o = 0x13 then [iTd1 w] ++ (if iB205 w then [iTdY w] else [])
  else if o = 0x18 then [iVa w, iVb w]
  else if o = 0x19 then
    [iVa w, iVb w] ++ (if 2 ≤ iKernel w then [iVb w + 1] else []) ++ (if 3 ≤ iKernel w then [iVb w + 2] else []) ++ [iVc w]
  else []

/-- The descriptors an instruction writes through. -/
def opDests (w : BitVec 256) : List Nat :=
  let o := iOp w
  if o = 0x08 then (if iB205 w then [] else [iTd1 w])
  else if o = 0x09 ∨ o = 0x0A ∨ o = 0x0B then [iTd1 w]
  else if o = 0x10 ∨ o = 0x11 ∨ o = 0x13 then [iTdY w]
  else if o = 0x12 then [iTdY w] ++ (if iStatEn w then [iTdStat w] else [])
  else if o = 0x18 then (if iB205 w then [] else [iVc w])
  else if o = 0x19 then
    [iVb w] ++ (if 2 ≤ iKernel w then [iVb w + 1] else []) ++ (if 3 ≤ iKernel w then [iVb w + 2] else []) ++ [iVc w]
  else []

/-- The descriptors that an instruction reads through or writes through. -/
def opTds (w : BitVec 256) : List Nat := nubN (opSources w ++ opDests w)

/-- The sequencer takes an instruction and its descriptors from the store: an uncorrectable word is a detected fault of the core
(R317). -/
def fetchChecks (core : Nat) (w : BitVec 256) (s : State) : State :=
  let l := coreLoc s core 1 0 7
  let f := SMap.get (fun _ => 0) s.err.pathFlip core
  let s := if f = 0 then s else (pathCheck f l s).modErr fun e => { e with pathFlip := SMap.set (fun _ => 0) e.pathFlip core 0 }
  whenS (decide (descMd s core (opTds w) ≠ 0)) (detectFault l) s

/-- The metadata that the fetch of an instruction and of its descriptors brings. -/
def fetchMd (s : State) (core : Nat) (w : BitVec 256) : Word :=
  pathMd (SMap.get (fun _ => 0) s.err.pathFlip core) ||| descMd s core (opTds w)

/-- The instruction at a position took no place in flight, or the queues that it pushes into have room for it. -/
def mayIssue (s : State) (core seq : Nat) (w : BitVec 256) (t : State) : Bool :=
  ((t.core core).ops.all fun o => o.seq ≠ seq) || !queuesFull s core w

/-- Try an instruction whose limits and header wait are satisfied: where it would go into flight and a queue that it needs is
full, nothing happens (R129, R196, R277). Flags of its fetch go with it. -/
def tryIssue (core : Nat) (w : BitVec 256) (seq : Nat) (k : Nat → State → State) (s0 s : State) : State :=
  let md := fetchMd s core w
  let t := k seq (fetchChecks core w s)
  let t := if md = 0 then t else t.modCore core fun c => { c with ops := c.ops.map fun o => if o.seq = seq then { o with md := o.md ||| md } else o }
  if mayIssue s core seq w t then t else s0

/-- An issue attempt of an instruction at the sequencer's position: it needs a running program, a place within the
in-flight limits, its header wait satisfied, whose count it takes, and room in its queues (R180, R196, R202). `k` is given the
position. -/
def attempt (core : Nat) (w : BitVec 256) (k : Nat → State → State) (s : State) : State :=
  let c := s.core core
  if !running s core || pastEnd s core then s
  else if atLimit c w then
    let counted := (c.waiting.map fun x => x.pairs.isEmpty && !x.taken).getD false
    setWaiting core [] false (whenS (!counted) (fun t => (t.setBit (sqA core 4) 3).addCnt (sqA core 8) 0 16 1) s)
  else
    let taken := (c.waiting.map (·.taken)).getD false
    if taken || decide (iWcnt w = 0) then tryIssue core w c.pos k s s
    else if c.token (iWtok w) < iWcnt w then setWaiting core [(iWtok w, iWcnt w)] false s
    else tryIssue core w c.pos k s (takeTokens core [(iWtok w, iWcnt w)] s)

/-- The signal of a completed instruction (R197): a message through the core's injection queue (Table 11.3). -/
def signalDone (core : Nat) (w : BitVec 256) (s : State) : State :=
  whenS (iSigEn w) (fun s => sendToken core (iStok w) 1 (passQueue core 24 0 s)) s

/-- An instruction that completes at issue. -/
def doneAtIssue (core : Nat) (w : BitVec 256) (s : State) : State := signalDone core w (advance core s)

/-- A refusal: the sticky bits that the refusing rule names (address and bit), and the descriptors the instruction
would have written. -/
structure Refuse where
  sticky : List (Nat × Nat) := []
  outs : List Nat := []
  deriving DecidableEq, Repr, Inhabited

/-- The KIND 6 event of a refusal (R198, Table 15.6). -/
def refusalEvent (s : State) (core seq op : Nat) : Event :=
  { kind := 6, status := stProgramError, fn := s.wfn, addr := 0, bitIx := 0, data := core + seq * 2 ^ 16 + op * 2 ^ 32 }

/-- A refusal at issue (R198), apart from the advance and the signal. -/
def refusal (core seq : Nat) (w : BitVec 256) (r : Refuse) (s : State) : State :=
  let s := forEach r.sticky (fun x t => t.setBit x.1 x.2) s
  let s := forEach r.outs (fun td => orMeta core td (mdFlag 1)) s
  stageEvent (refusalEvent s core seq (iOp w)) s

/-- An instruction refused at issue (R198). -/
def refuseAtIssue (core seq : Nat) (w : BitVec 256) (r : Refuse) (s : State) : State :=
  doneAtIssue core w (refusal core seq w r s)

/-- The request of a transfer goes through the queue of the DMA engine whose turn it is (Table 11.3; log entry 120). -/
def dmaRequest (core : Nat) (w : BitVec 256) (s : State) : State :=
  let c := s.core core
  if isDmaOp c w then (passQueue core (c.dmaNext % 4) 0 s).modCore core fun c => { c with dmaNext := (c.dmaNext + 1) % 4 } else s

/-- The work of a VECOP waits in the vector unit's queue until the kernel runs; that of an UPDATE passes through (R221; log entry
33). -/
def vectorRequest (core seq : Nat) (w : BitVec 256) (s : State) : State :=
  if iOp w = 0x18 then pushQueue core 22 seq s else if iOp w = 0x19 then passQueue core 23 seq s else s

/-- An instruction issues and goes into flight; the peaks of R180 follow. -/
def putInFlight (core : Nat) (o : Op) (s : State) : State :=
  let s := vectorRequest core o.seq o.word (dmaRequest core o.word (advance core s))
  s.modCore core fun c =>
    let c := { c with ops := c.ops ++ [o] }
    { c with opsMost := max c.opsMost (macroOps c), dmaMost := max c.dmaMost (dmaOps c) }

/-- The sticky bit and position of a refusal that names none. -/
def plainRefuse (outs : List Nat) : Refuse := { outs := outs }

/-- The OR of the metadata words of descriptors. -/
def mdOfList (c : Core) (l : List Nat) : Word := l.foldl (fun a td => a ||| c.mdOf td) 0

/-- Complete an instruction in flight (R197, R210): its metadata with that of its sources goes to the descriptors that
it writes, and it signals, unless its part has signalled at issue (R177). -/
def completeOp (core : Nat) (o : Op) (s : State) : State :=
  let md := o.md ||| mdOfList (s.core core) (opSources o.word)
  let s := forEach (if isDest s core o.seq then opDests o.word else []) (fun td => orMeta core td md) s
  let s := s.modCore core fun c => { c with ops := c.ops.filter fun x => x.seq ≠ o.seq }
  whenS (!o.signalled) (signalDone core o.word) s

/-- Whether an instruction in flight has nothing left to do: no item, no row, no acknowledgement or plan awaited. -/
def Op.finished (o : Op) : Bool :=
  o.items.isEmpty && o.todo.isEmpty && o.sideTodo.isEmpty && decide (o.acks = 0) && !o.planWait && o.waitSlot.isNone

end Sys2Proof.Machine
end

