-- ==== Sys2Proof/Machine/Program.lean ====
section
/-! DEFINITION. The frame-program instructions that order work: NOP, END, WAIT, SIGNAL, FENCE, WIN_OPEN and WIN_CLOSE
(R199, R205, R206, R307), and the token unit (R270 to R276). -/

namespace Sys2Proof.Machine

/-! ### NOP and END -/

/-- The instruction at the sequencer's position, where its opcode is reserved (R195, Table 8.2). -/
def reservedHere (s : State) (core : Nat) : Option (BitVec 256) :=
  (s.core core).prog.bind fun p => (codeOffset s core p.task (p.start + 32 * (s.core core).pos)).bind fun o =>
    let w : BitVec 256 := BitVec.ofNat 256 (leNat (Mem.read s.spad (s.pcIx core * 2 ^ 22 + o) 32))
    if (decodeMacroOp core w).isNone then some w else none

/-- NOP (Table 8.2): its header, and nothing else. The table has no row for a reserved opcode, so where the code range holds
one at the sequencer's position, it is that instruction which this row's attempt issues: it is refused (R198, R201). -/
def runNop (core : Nat) (w : BitVec 256) (s : State) : State :=
  match reservedHere s core with
  | some v => attempt core v (fun seq s => refuseAtIssue core seq v {} s) s
  | none => attempt core w (fun seq s =>
    if anySet w (hdrReserved ++ [(64, 192)]) then refuseAtIssue core seq w {} s else doneAtIssue core w s) s

/-- NOP. -/
def execNop (core : Nat) (body : BitVec 248) (s : State) : Host.Outcome State Fault Refusal :=
  answer s (runNop core (fullWord 0x00 body) s)

/-- The frame program ends (R199). -/
def endProgram (core : Nat) (s : State) : State := s.modCore core fun c => { c with ended := true, waiting := none }

/-- END, and the end that the sequencer assumes past the code range or past position 65,535 (R199). -/
def runEnd (core : Nat) (w : BitVec 256) (s : State) : State :=
  if running s core && pastEnd s core then stickyEvent (spA core 4) 4 (endProgram core s)
  else attempt core w (fun seq s =>
    if anySet w (hdrReserved ++ [(64, 192)]) then refuseAtIssue core seq w {} s
    else endProgram core (doneAtIssue core w s)) s

/-- END. -/
def execEnd (core : Nat) (body : BitVec 248) (s : State) : Host.Outcome State Fault Refusal :=
  answer s (runEnd core (fullWord 0x01 body) s)

/-! ### WAIT, SIGNAL, FENCE -/

/-- The used pairs of a WAIT (Table 8.5). -/
def waitPairs (w : BitVec 256) : List (Nat × Nat) :=
  ((List.range 4).map fun i => (fld w (64 + 32 * i) 10, fld w (74 + 32 * i) 16)).filter fun p => p.2 ≠ 0

/-- Reserved bits of the wait form. -/
def waitReserved : List (Nat × Nat) := [(90, 6), (122, 6), (154, 6), (186, 6), (192, 64)]

/-- WAIT (R205): its counts are taken together once all are present; until then nothing later issues. -/
def runWait (core : Nat) (w : BitVec 256) (s : State) : State :=
  attempt core w (fun seq s =>
    if anySet w (hdrReserved ++ waitReserved) then refuseAtIssue core seq w {} s
    else if pairsMet (s.core core) (waitPairs w) then doneAtIssue core w (takeTokens core (waitPairs w) s)
    else setWaiting core (waitPairs w) true s) s

/-- WAIT. -/
def execWait (core : Nat) (body : BitVec 248) (s : State) : Host.Outcome State Fault Refusal :=
  answer s (runWait core (fullWord 0x02 body) s)

/-- Target i of a SIGNAL: the core, the token and the count; a target with count 0 is unused (Table 8.5). -/
def signalTarget (core : Nat) (w : BitVec 256) (i : Nat) : Nat × Nat × Nat :=
  let b := 64 + 48 * i
  (if bit w (b + 36) then core else 64 * fld w (b + 26) 4 + fld w (b + 30) 6, fld w b 10, fld w (b + 10) 16)

/-- The used targets of a SIGNAL. -/
def signalTargets (core : Nat) (w : BitVec 256) : List (Nat × Nat × Nat) :=
  ((List.range 4).map (signalTarget core w)).filter fun t => t.2.2 ≠ 0

/-- Reserved bits of the signal form. -/
def signalReserved : List (Nat × Nat) := [(101, 11), (149, 11), (197, 11), (245, 11)]

/-- SIGNAL (R205, R272, R273): one message for each used target; a die above 11 is refused (R16). -/
def runSignal (core : Nat) (w : BitVec 256) (s : State) : State :=
  attempt core w (fun seq s =>
    let ts := signalTargets core w
    if anySet w (hdrReserved ++ signalReserved) || ts.any (fun t => decide (768 ≤ t.1)) then refuseAtIssue core seq w {} s
    else doneAtIssue core w (forEach ts (fun t s => sendToken t.1 t.2.1 t.2.2 (passQueue core 24 0 s)) s)) s

/-- SIGNAL. -/
def execSignal (core : Nat) (body : BitVec 248) (s : State) : Host.Outcome State Fault Refusal :=
  answer s (runSignal core (fullWord 0x03 body) s)

/-- The FENCE class of an opcode (Table 8.2). -/
def fenceClass (o : Nat) : Option Nat :=
  if o = 0x08 ∨ o = 0x09 then some 1
  else if o = 0x0A then some 2
  else if o = 0x0B then some 3
  else if 0x10 ≤ o ∧ o ≤ 0x13 then some 0
  else if o = 0x18 ∨ o = 0x19 then some 4
  else none

/-- Whether every instruction of the awaited classes has completed (R206). -/
def fenceMet (c : Core) (mask : Nat) : Bool :=
  c.ops.all fun o => o.signalled || match fenceClass (iOp o.word) with
    | some k => !(bitN mask k)
    | none => true

/-- The segment map in force changes (R154). -/
def setSegment (core seg : Nat) (s : State) : State := s.setFld (spA core 0x1C) 16 6 seg

/-- FENCE (R206): the gather buffer is flushed, and it completes once the awaited classes have. -/
def runFence (core : Nat) (w : BitVec 256) (s : State) : State :=
  attempt core w (fun seq s =>
    if anySet w (hdrReserved ++ [(69, 3), (79, 177)]) then refuseAtIssue core seq w {} s
    else if fenceMet (s.core core) (fld w 64 5) then
      doneAtIssue core w (whenS (bit w 72) (setSegment core (fld w 73 6)) (flushGather core s))
    else setWaiting core [] true s) s

/-- FENCE. -/
def execFence (core : Nat) (body : BitVec 248) (s : State) : Host.Outcome State Fault Refusal :=
  answer s (runFence core (fullWord 0x04 body) s)

/-! ### Windows (R307, R308) -/

/-- Whether a window lies wholly in HBM or wholly in the owner's populated scratchpad, in multiples of 256 bytes. -/
def windowOk (s : State) (core base size : Nat) : Bool :=
  decide (base % 256 = 0) && decide (size % 256 = 0) && decide (256 ≤ size) &&
    (decide (base + size ≤ s.img.hbmBytes) ||
      (match localAddr s base with
        | .spad c o => decide (c = core) && decide (o + size ≤ spSize)
        | _ => false))

/-- Register a window change for the next tick. -/
def pendWindow (core win : Nat) (v : Option Window) (s : State) : State :=
  s.modCore core fun c => { c with winPend := c.winPend ++ [{ win := win, w := v }] }

/-- WIN_OPEN (R216, R307). -/
def runWinOpen (core : Nat) (w : BitVec 256) (s : State) : State :=
  attempt core w (fun seq s =>
    let v : Window := { base := fld w 70 48, size := fld w 118 40, perm := fld w 158 2 }
    if anySet w (hdrReserved ++ [(160, 96)]) || !windowOk s core v.base v.size then refuseAtIssue core seq w {} s
    else doneAtIssue core w (pendWindow core (fld w 64 6) (some v) s)) s

/-- WIN_OPEN. -/
def execWinOpen (core : Nat) (body : BitVec 248) (s : State) : Host.Outcome State Fault Refusal :=
  answer s (runWinOpen core (fullWord 0x0C body) s)

/-- WIN_CLOSE (R216, R307). -/
def runWinClose (core : Nat) (w : BitVec 256) (s : State) : State :=
  attempt core w (fun seq s =>
    if anySet w (hdrReserved ++ [(70, 186)]) then refuseAtIssue core seq w {} s
    else doneAtIssue core w (pendWindow core (fld w 64 6) none s)) s

/-- WIN_CLOSE. -/
def execWinClose (core : Nat) (body : BitVec 248) (s : State) : Host.Outcome State Fault Refusal :=
  answer s (runWinClose core (fullWord 0x0D body) s)

/-! ### The token unit -/

/-- Take the n oldest messages to a counter out of flight: their total, and the messages that remain. -/
def takeFlight (core tok : Nat) : Nat → List (Nat × Nat × Nat) → Nat × List (Nat × Nat × Nat)
  | _, [] => (0, [])
  | n, m :: rest =>
    if n ≠ 0 ∧ m.1 = core ∧ m.2.1 = tok then
      let (a, l) := takeFlight core tok (n - 1) rest
      (m.2.2 + a, l)
    else
      let (a, l) := takeFlight core tok n rest
      (a, m :: l)

/-- Additions that arrive for a counter in one cycle (R271): the counter saturates at 65,535, and the loss is recorded
and reported. -/
def addTokens (core tok a : Nat) (s : State) : State :=
  let v := (s.core core).token tok
  let s' := s.modCore core fun c => c.setToken tok (min (v + a) 65535)
  if v + a ≤ 65535 then s'
  else
    let t := tkA core 0
    let s' := whenS (!(s'.regBit t 0)) (fun x => x.setFld (tkA core 8) 0 10 tok) s'
    stickyEvent t 0 (s'.addCnt (tkA core 4) 16 16 1)

/-- A token message passes the ejection queue of its core; an uncorrectable one is a detected fault (R317). -/
def ejectToken (core : Nat) (s : State) : State :=
  let f := SMap.get (fun _ => 0) s.err.tokFlip core
  let s := passQueue core 25 0 s
  if f = 0 then s
  else (pathCheck f (coreLoc s core 1 0 7) s).modErr fun e => { e with tokFlip := SMap.set (fun _ => 0) e.tokFlip core 0 }

/-- The n oldest messages on their way to token `tok` of a core arrive together. -/
def tokensArrive (core tok n : Nat) (s : State) : State :=
  let (a, l) := takeFlight core tok n s.flight
  if l.length = s.flight.length then s else addTokens core tok a (ejectToken core { s with flight := l })

/-- TOKEN_MESSAGE_ARRIVAL. -/
def execTokenMessageArrival (core tok n : Nat) (s : State) : Host.Outcome State Fault Refusal :=
  answer s (tokensArrive core tok n s)

/-- The lowest unsatisfied token of a wait (R276). -/
def lowestUnmet (c : Core) (l : List (Nat × Nat)) : Option Nat :=
  let bad := (l.map (·.1)).filter fun k => !pairsMet c (l.filter fun q => q.1 = k)
  bad.foldl (fun a k => match a with
    | none => some k
    | some x => some (min x k)) none

/-- WDOG_TRIP (R276): a header wait or a WAIT has lasted LIMIT × 64 cc. The wait goes on. -/
def tripWatchdog (core : Nat) (s : State) : State :=
  let c := s.core core
  match c.waiting with
  | none => s
  | some w =>
    match lowestUnmet c w.pairs with
    | none => s
    | some tok =>
      if w.tripped ∨ s.regFld (tkA core 0xC) 0 16 = 0 then s
      else
        let t := tkA core 0
        let s := whenS (!(s.regBit t 1)) (fun x => x.setFld (tkA core 8) 16 10 tok) s
        let s := (s.setBit t 1).addCnt (tkA core 4) 0 16 1
        let s := s.modCore core fun c => { c with waiting := some { w with tripped := true } }
        detectFault (coreLoc s core 1 0 11) s

/-- WDOG_TRIP. -/
def execWdogTrip (core : Nat) (s : State) : Host.Outcome State Fault Refusal := answer s (tripWatchdog core s)

end Sys2Proof.Machine
end

