-- ==== Sys2Proof/Machine/Tensor.lean ====
section
/-! DEFINITION. Rows of memory tensors: the checks of a descriptor in its role (Tables 4.2, 4.3 and 8.8, R211, R212),
reading and writing a row with its scales, slot tags (R159, R160) and the end of an output (R188); transposed
and strided reads (R156, R157). -/

namespace Sys2Proof.Machine

/-! ### Checks at issue -/

/-- The element codes of Table 4.2 that are not reserved. -/
def fmtOk (f : Nat) : Bool := decide (f ≤ 11)

/-- The codes 0x5 to 0x8 always require SCALED = 1 (Table 4.2). -/
def scaleRuleOk (f : Nat) (sc : Bool) : Bool := if 5 ≤ f ∧ f ≤ 8 then sc else true

/-- A scratchpad or HBM tensor: any format but INT4 and INT2 unscaled (Table 4.3). -/
def memFmtOk (f : Nat) (sc : Bool) : Bool := fmtOk f && scaleRuleOk f sc && !((f = 1 || f = 2) && !sc)

/-- An activation format into the row feeder (Table 4.3). -/
def actFmtOk (f : Nat) (sc : Bool) : Bool := memFmtOk f sc && decide (f ≠ 1) && decide (f ≠ 2)

/-- A drain output format (Table 4.3): unscaled E4M3, E5M2, BF16, FP16, FP32, or block-scaled 0x3 to 0x8. -/
def drainFmtOk (f : Nat) (sc : Bool) : Bool :=
  if sc then decide (3 ≤ f) && decide (f ≤ 8) else f = 3 || f = 4 || f = 9 || f = 10 || f = 11

/-- Rows of w sub-byte elements are whole bytes, and PITCH covers n of them (R211): n are the columns that the instruction
accesses. Of a move w is n, and of any other operand the declared width, so that an output may end part-way through a byte
(R188; DEDUCED, log entry 28). -/
def rowShapeOk (f : Nat) (o : Opd) (w n : Nat) : Bool :=
  decide (w * fmtBits f % 8 = 0) && decide (rowBytes f n ≤ o.pitch)

/-- Whether a tensor is a region of the HBM weight image: its blocks run along K (R97, R327, R448). -/
def kBlocks (s : State) (wr : Bool) (o : Opd) : Bool :=
  decide (dLoc o.d = 1) && decide (dFmt wr o.d ≤ 2) && dSc wr o.d &&
    (s.unitAt (dBase o.d)).any fun u => s.regions.any fun r => decide (r.1 = u.region) && decide (r.2.kind = 1)

/-- The scale bytes that belong to the first n columns of row m of iteration b: address and count. `kb` is whether the blocks run
along K. -/
def rowScales (kb wr : Bool) (o : Opd) (b m n : Nat) : Nat × Nat :=
  if !dSc wr o.d then (0, 0)
  else if kb then (kScaleAddr wr o b (m / dBs wr o.d) 0, n)
  else (scaleAddr wr o b m 0, cdiv n (dBs wr o.d))

/-- Whether the scale bytes of a row are those that a write of the row carries: along K they go with the first row of their
block. -/
def carriesScales (kb wr : Bool) (o : Opd) (m : Nat) : Bool := !kb || decide (m % dBs wr o.d = 0)

/-- The least and the greatest address of rows 0 to m − 1 of iterations 0 to b − 1, before wrapping. -/
def rowSpan (o : Opd) (b m : Nat) : Int × Int :=
  let lastB : Int := (b - 1 : Nat) * o.bStride
  let lastM : Int := (m - 1 : Nat) * o.pitch
  (dBase o.d + min 0 lastB, dBase o.d + max 0 lastB + lastM)

/-- Whether the elements and scales of the given extents lie in usable HBM (R212). -/
def hbmRangeOk (s : State) (kb wr : Bool) (o : Opd) (b m n : Nat) : Bool :=
  if b = 0 ∨ m = 0 ∨ n = 0 then true
  else
    let (lo, hi) := rowSpan o b m
    let bs := dBs wr o.d
    let last :=
      if kb then ((b - 1) * cdiv (dRowsMax o.d) bs + (cdiv m bs - 1)) * dColsMax o.d + n
      else ((b - 1) * dRowsMax o.d + (m - 1)) * blocksPerRow wr o.d + cdiv n bs
    decide (0 ≤ lo) && decide (hi + rowBytes (dFmt wr o.d) n ≤ s.img.hbmBytes) &&
      (!dSc wr o.d || decide (dScaleAddr o.d + last ≤ s.img.hbmBytes))

/-- Whether the rounding code of a descriptor that an instruction writes through is not stochastic under NM_SR_MODE = 1 (R238). -/
def srOk (s : State) (d : BitVec 512) : Bool := !(decide (dOutRnd d = 2) && s.regBit nmCtrl 0)

/-- An output's rounding code: not reserved, and allowed under NM_SR_MODE (R94, R238). -/
def outRndOk (s : State) (d : BitVec 512) : Bool := decide (dOutRnd d ≠ 3) && srOk s d

/-- Whether row r of an operand, n columns wide, lies with its scales in usable HBM (R212). -/
def rowInHbm (s : State) (wr : Bool) (o : Opd) (n : Nat) (r : Nat × Nat) : Bool :=
  let a : Int := dBase o.d + r.1 * o.bStride + r.2 * o.pitch
  let bs := dBs wr o.d
  decide (0 ≤ a) && decide (a + rowBytes (dFmt wr o.d) n ≤ s.img.hbmBytes) &&
    (!dSc wr o.d ||
      decide (dScaleAddr o.d + (r.1 * dRowsMax o.d + r.2) * blocksPerRow wr o.d + cdiv n bs ≤ s.img.hbmBytes))

/-- Whether the side record of a row lies where its descriptor may put it: one in HBM lies in usable HBM (R212). -/
def sideInHbm (s : State) (o : Opd) (r : Nat × Nat) : Bool :=
  let a : Int := dSideAddr o.d + r.1 * o.sideStride + 16 * r.2
  !dSideLoc o.d || (decide (0 ≤ a) && decide (a + 16 ≤ s.img.hbmBytes))

/-- The extents that exceeded their maximum, n of them: SHAPE_CLAMP, with a count and an event for each (R184). -/
def shapeClamp (core n : Nat) (s : State) : State :=
  forEach (List.range n) (fun _ s => stickyEvent (sqA core 4) 0 (s.addCnt (sqA core 8) 16 16 1)) s

/-- The metadata of a clamped instruction. -/
def clampMd (n : Nat) : Word := if n = 0 then 0 else mdFlag 11

/-! ### Accesses of an instruction to tagged slots -/

/-- One tagged access: write or read, tag mode of the descriptor, first task offset and length. -/
structure Acs where
  wr : Bool
  tag : Nat
  q : Nat
  n : Nat
  deriving DecidableEq, Repr, Inhabited

/-- The working slots that a run of a task touches. -/
def runSlots (s : State) (core task : Nat) (a : Acs) : List Nat :=
  nubN ((rangeFrom a.q a.n).filterMap fun x =>
    (taskOffset s core task x).bind fun o =>
      match slotKind s core (o / 256) with
      | .working => some (o / 256)
      | _ => none)

/-- The accesses of a row's elements and scales, for a descriptor in the scratchpad. -/
def rowAcs (kb wr : Bool) (o : Opd) (b m n : Nat) : List Acs :=
  if dLoc o.d ≠ 0 ∨ n = 0 then []
  else
    let (q, k) := rowScales kb wr o b m n
    { wr := wr, tag := dTag o.d, q := rowAddr o b m, n := rowBytes (dFmt wr o.d) n : Acs } ::
      (if k ≠ 0 ∧ carriesScales kb wr o m then [{ wr := wr, tag := dTag o.d, q := q, n := k }] else [])

/-- The first slot on which an access waits: a write for EMPTY, a read for FULL (Table 6.4). -/
def acsWaits (s : State) (core task : Nat) (a : Acs) : Option Nat :=
  if a.tag = 0 then none
  else (runSlots s core task a).find? fun sl => (s.core core).isFull sl = a.wr

/-- The first slot on which a list of accesses waits. -/
def firstWait (s : State) (core task : Nat) (l : List Acs) : Option Nat := l.findSome? (acsWaits s core task)

/-- The slots that a list of accesses reads in CONSUME mode. -/
def consumed (s : State) (core task : Nat) (l : List Acs) : List Nat :=
  nubN ((l.filter fun a => !a.wr && decide (a.tag = 1)).flatMap (runSlots s core task))

/-! ### Reading and writing a row -/

/-- Read a run of bytes through a descriptor. -/
def readRun (core task seg cls : Nat) (d : BitVec 512) (a n : Nat) (s : State) : List Byte × Word × State :=
  if n = 0 then ([], 0, s)
  else if dLoc d = 0 then spReadS { core := core, task := some task, seg := seg, cls := cls } (dTag d) a n s
  else hbmRead a n s

/-- A row as read: its bytes, its scale bytes with the columns that each serves, and the metadata of the accesses. -/
structure RowIn where
  bytes : List Byte
  scales : List Byte
  per : Nat
  md : Word
  s : State
  deriving DecidableEq, Repr

/-- Read the first n columns of a row with their scales. -/
def readRowK (core task seg cls : Nat) (kb : Bool) (o : Opd) (b m n : Nat) (s : State) : RowIn :=
  let (q, k) := rowScales kb false o b m n
  let (l, md, s) := readRun core task seg cls o.d (rowAddr o b m) (rowBytes (dEfmt o.d) n) s
  let (sc, md', s) := readRun core task seg cls o.d q k s
  { bytes := l, scales := sc, per := if kb then 1 else dBs false o.d, md := md ||| md', s := s }

/-- Read a row of a tensor in its own layout. -/
def readRow (core task seg cls : Nat) (o : Opd) (b m n : Nat) (s : State) : RowIn :=
  readRowK core task seg cls (kBlocks s false o) o b m n s

/-- The elements of a row that was read under EFMT. -/
def RowIn.elems (r : RowIn) (o : Opd) (n : Nat) : List (Elem × Nat) :=
  rowElems (dEfmt o.d) r.per (dScaled o.d) r.bytes r.scales n

/-- The byte ranges that an instruction writes through a descriptor: start and length. -/
abbrev Ranges := List (Nat × Nat)

/-- Element ranges of rows. -/
def elemRanges (o : Opd) (n : Nat) (rows : List (Nat × Nat)) : Ranges :=
  rows.map fun r => (rowAddr o r.1 r.2, rowBytes (dOutEfmt o.d) n)

/-- Scale ranges of rows. -/
def scaleRanges (kb : Bool) (o : Opd) (n : Nat) (rows : List (Nat × Nat)) : Ranges :=
  (rows.filter fun r => carriesScales kb true o r.2).map fun r => rowScales kb true o r.1 r.2 n

/-- Whether a byte lies in a range. -/
def inRanges (l : Ranges) (x : Nat) : Bool := l.any fun r => decide (r.1 ≤ x) && decide (x < r.1 + r.2)
/-- Whether a range meets [a, b). -/
def rangesMeet (l : Ranges) (a b : Nat) : Bool := l.any fun r => decide (r.1 < b) && decide (a < r.1 + r.2)

/-- The bytes after the end of a run that fill its versioned slot with zeros, when the instruction writes no later byte
of the slot (R188). -/
def slotTail (s : State) (core task : Nat) (all : Ranges) (a n : Nat) : Nat :=
  match taskOffset s core task (a + n - 1) with
  | none => 0
  | some o =>
    match slotKind s core (o / 256) with
    | .logical _ =>
      let gap := 255 - o % 256
      if rangesMeet all (a + n) (a + n + gap) then 0 else gap
    | _ => 0

/-- Write a run of an output or a transfer through a descriptor. `all` are the ranges the whole instruction writes,
`rest` those it has still to write: a slot with none of those is marked last-in-slot. -/
def writeRun (core task seg cls : Nat) (o : Opd) (seq xid : Nat) (md : Word) (all rest : Ranges) (a : Nat)
    (bytes : List Byte) (s : State) : Word × State :=
  if bytes.isEmpty then (0, s)
  else if dLoc o.d = 1 then (0, noteUnits core o.td a bytes.length (hbmWriteS a bytes s))
  else if dLoc o.d = 3 then (0, sendRun core seq xid o.d md a bytes rest.isEmpty s)
  else
    let r : Req := { core := core, task := some task, seg := seg, cls := cls }
    let bytes := bytes ++ List.replicate (slotTail s core task all a bytes.length) 0
    let last := a + bytes.length - 1
    let (md', s) :=
      if cls = 4 then gatherWriteS r (dTag o.d) o.td a bytes s
      else spWriteS r (dTag o.d) o.td (wordMask a bytes fun x => inRanges all x) s
    let s := whenS (!rangesMeet rest (last / 256 * 256) (last / 256 * 256 + 256)) (lastInSlot r (dTag o.d) last) s
    (md', s)

/-- A row to be written: its place, its bytes and scales, the number of its columns, all rows and the remaining rows of the
instruction, and whether the blocks run along K. -/
structure RowOut where
  b : Nat
  m : Nat
  n : Nat
  bytes : List Byte
  scales : List Byte
  all : List (Nat × Nat)
  rest : List (Nat × Nat)
  kb : Bool := false
  deriving DecidableEq, Repr, Inhabited

/-- Write a row and its scales. -/
def writeRow (core task seg cls : Nat) (o : Opd) (seq xid : Nat) (md : Word) (r : RowOut) (s : State) : Word × State :=
  let (m1, s) := writeRun core task seg cls o seq xid md (elemRanges o r.n r.all) (elemRanges o r.n r.rest)
    (rowAddr o r.b r.m) r.bytes s
  let (m2, s) := writeRun core task seg cls o seq xid md (scaleRanges r.kb o r.n r.all) (scaleRanges r.kb o r.n r.rest)
    (rowScales r.kb true o r.b r.m r.n).1 (if carriesScales r.kb true o r.m then r.scales else []) s
  (m1 ||| m2, s)

/-- All rows of an extent. -/
def allRows (b m : Nat) : List (Nat × Nat) := (List.range b).flatMap fun i => (List.range m).map fun j => (i, j)

/-- The address of record m of iteration b of a descriptor's side records (R143, R226). -/
def sideAddr (o : Opd) (b m : Nat) : Nat := toField (dSideAddr o.d + b * o.sideStride + 16 * m) 48

/-- The ranges of the side records of rows. -/
def sideRanges (o : Opd) (rows : List (Nat × Nat)) : Ranges := rows.map fun r => (sideAddr o r.1 r.2, 16)

/-- The accesses of a side record, which takes the tag mode of its descriptor (R159). -/
def sideAcs (o : Opd) (b m : Nat) : List Acs :=
  if dSideLoc o.d then [] else [{ wr := true, tag := dTag o.d, q := sideAddr o b m, n := 16 }]

/-- Write the 16 bytes of a side record (R143, R226): in the scratchpad, or in HBM. `all` are the records that the instruction
writes, `rest` those that it has still to write. -/
def writeSide (core task seg cls : Nat) (o : Opd) (all rest : List (Nat × Nat)) (b m : Nat) (bytes : List Byte) (s : State) :
    Word × State :=
  let a := sideAddr o b m
  if dSideLoc o.d then (0, noteUnits core o.td a bytes.length (hbmWriteS a bytes s))
  else
    let r : Req := { core := core, task := some task, seg := seg, cls := cls }
    let last := a + bytes.length - 1
    let (md, s) :=
      if cls = 4 then gatherWriteS r (dTag o.d) o.td a bytes s
      else spWriteS r (dTag o.d) o.td (wordMask a bytes fun x => inRanges (sideRanges o all) x) s
    (md, whenS (!rangesMeet (sideRanges o rest) (last / 256 * 256) (last / 256 * 256 + 256)) (lastInSlot r (dTag o.d) last) s)

/-! ### Transposed and strided reads of the vector unit -/

/-- The bank word that the byte at offset q lies in, if it is in bound. -/
def bankWord (s : State) (r : Req) (q : Nat) : Option Nat :=
  (reqOffset s r q).map fun o => o / 64

/-- The first bank word that shares its bank with a distinct word of its group. -/
def groupClash (groups : List (List Nat)) : Option Nat :=
  groups.findSome? fun g => g.find? fun w => g.any fun x => decide (x ≠ w ∧ x % 32 = w % 32)

/-- One read of the vector unit's reader, which takes its bytes in the order of its rows. A transposed read delivers them column
by column; it is refused, and gives zeros, where its base or pitch is not a multiple of 32 elements or two words of a group of
16 lie in one bank (R156); a strided read where two elements of a group of 16 lie in distinct words of one bank (R157). -/
def vecRead (s : State) (r : Req) (x : Config.VecRead) : List Byte × SpFlags :=
  match x with
  | .transposed base pitch lw =>
    let w := 2 ^ lw.val
    let qs := (List.range 32).flatMap fun i => rangeFrom (base + i * pitch) (32 * w)
    let words := (qs.filterMap (bankWord s r)).eraseDups
    let bad := if base % (32 * w) ≠ 0 ∨ pitch % (32 * w) ≠ 0 then some (words.headD (base / 64)) else groupClash (chunksOf 16 words)
    match bad with
    | some word => (qs.map fun _ => 0, { conflict := some word })
    | none =>
      let (l, f) := readBytes s r 0 qs
      let rows := chunksOf (32 * w) l
      ((List.range 32).flatMap fun j => rows.flatMap fun row => (row.drop (j * w)).take w, f)
  | .strided base stride lw =>
    let w := 2 ^ lw.val
    let elems := (List.range (64 / w)).map fun i => rangeFrom (base + i * stride) w
    match groupClash ((chunksOf 16 elems).map fun g => g.flatten.filterMap (bankWord s r)) with
    | some word => (elems.flatten.map fun _ => 0, { conflict := some word })
    | none => readBytes s r 0 elems.flatten

/-- What the reads of a kernel deliver, with their metadata. -/
structure VecReads where
  data : List (List Byte)
  md : Word
  s : State
  deriving DecidableEq, Repr

/-- The transposed and strided reads of a kernel, in the order in which it makes them, with their effects. -/
def vecReads (core task seg : Nat) (i : Config.KernelIn) (s : State) : VecReads :=
  (Config.kernelReads i).foldl (fun a x =>
    let r : Req := { core := core, task := some task, seg := seg, cls := 4 }
    let (l, f) := vecRead a.s r x
    let e := spEffects r f a.s
    { data := a.data ++ [l], md := a.md ||| e.2, s := e.1 }) { data := [], md := 0, s := s }

end Sys2Proof.Machine
end

