-- ==== Sys2Proof/Machine/Arrays.lean ====
section
/-! DEFINITION. The compute-in-memory arrays: stored weights and scales, residues, writes (R60 to R79), positions (R83),
alignment (R101 to R103), forward and transposed passes with promotion and the in-line checks (R62 to R76, R107, R108,
R123, R126, R318). -/

namespace Sys2Proof.Machine

/-! ### Stored data -/

/-- Bits of a weight (Table 3.2). -/
def wBits (fmt : Nat) : Nat := if fmt = 0 then 8 else if fmt = 1 then 4 else 2

/-- The stored byte of a physical array, error-free. -/
def arrByte (s : State) (pm o : Nat) : Byte := Mem.get s.mac (pm * 32768 + o)
/-- The flipped bits of the word that holds a byte. -/
def arrFlip (s : State) (pm o : Nat) : BitVec 39 := SMap.get (fun _ => 0) s.err.macFlip (pm * 8192 + o / 4)
/-- The byte that the compute path senses (R72). -/
def arrSensed (s : State) (pm o : Nat) : Byte := arrByte s pm o ^^^ patByte (arrFlip s pm o) o

/-- Byte offset of channel j in row r (R61). -/
def wOfs (fmt r j : Nat) : Nat := r * 64 + j * wBits fmt / 8

/-- The weight held in a byte. -/
def wOf (fmt j : Nat) (b : Byte) : Int :=
  let w := wBits fmt
  signed (b.toNat >>> (j * w % 8)) w

/-- The weight of row r and channel j as written. -/
def weight (s : State) (pm fmt r j : Nat) : Int := wOf fmt j (arrByte s pm (wOfs fmt r j))
/-- The weight as the compute path senses it. -/
def sensed (s : State) (pm fmt r j : Nat) : Int := wOf fmt j (arrSensed s pm (wOfs fmt r j))

/-- The channels of a check group (R73). -/
def groupChans (fmt q : Nat) : List Nat := rangeFrom (q * (chansOf fmt / 2)) (chansOf fmt / 2)

/-- The stored residue of row r and check group q (R73), with its error; none where the field reads 0xFF. -/
def rowResidue (s : State) (pm fmt r q : Nat) : Option Nat :=
  let e := SMap.get (fun _ => 0) s.err.rowRes (pm * 1024 + r * 2 + q)
  if e = 255 then none
  else some ((mod255 (sumI ((groupChans fmt q).map (weight s pm fmt r))) + e) % 255)

/-- The entry of the column residue store for row group g and channel j (R75) as it was written, with its error. -/
def colStored (s : State) (pm fmt g j : Nat) : Nat :=
  (mod255 (sumI ((rangeFrom (64 * g) 64).map fun r => weight s pm fmt r j)) +
    SMap.get (fun _ => 0) s.err.colRes (pm * 2048 + g * 256 + j)) % 255

/-- The codeword of the column residue store that holds an entry (R75; four entries to a codeword: log entry 116). -/
def colWord (pm g j : Nat) : Nat := pm * 512 + (g * 256 + j) / 4

/-- An entry of the column residue store as it is read, through its SECDED (R75). -/
def colResidue (s : State) (pm fmt g j : Nat) : Nat :=
  (BitVec.ofNat 8 (colStored s pm fmt g j) ^^^
    patByte (eccOf (SMap.get (fun _ => 0) s.err.colFlip (colWord pm g j))).pat j).toNat

/-- What the data of a row and check group miss against a stored residue. -/
def residueGap (old : Nat) (sum : Int) : Nat := (old + 255 - mod255 sum) % 255

/-- A row's residue field stays at what it held in t0, whatever has become of the row's data. -/
def keepRowRes (t0 : State) (pm fmt r q : Nat) (s : State) : State :=
  match rowResidue t0 pm fmt r q with
  | none => s
  | some v =>
    let gap := residueGap v (sumI ((groupChans fmt q).map (weight s pm fmt r)))
    s.modErr fun e => { e with rowRes := SMap.set (fun _ => 0) e.rowRes (pm * 1024 + r * 2 + q) gap }

/-- An entry of the column residue store becomes v. -/
def setColRes (pm fmt g j v : Nat) (s : State) : State :=
  let gap := residueGap v (sumI ((rangeFrom (64 * g) 64).map fun r => weight s pm fmt r j))
  s.modErr fun e => { e with colRes := SMap.set (fun _ => 0) e.colRes (pm * 2048 + g * 256 + j) gap }

/-- A code of the scale store, through its SECDED (R99). -/
def scaleCode (s : State) (pm c : Nat) : Nat :=
  (SMap.get (fun _ => 0) s.scale (pm * 2048 + c) ^^^ patByte (eccOf (SMap.get (fun _ => 0) s.err.scaleFlip (pm * 512 + c / 4))).pat c).toNat

/-- Write a code of the scale store. -/
def putScale (pm c v : Nat) (s : State) : State :=
  { s with scale := SMap.set (fun _ => 0) s.scale (pm * 2048 + c) (BitVec.ofNat 8 v),
           err := { s.err with scaleFlip := SMap.set (fun _ => 0) s.err.scaleFlip (pm * 512 + c / 4) 0 } }

/-- The code of a scale byte that the compute path uses for in-array block g of channel j. -/
def wScale (s : State) (pm fmt g j : Nat) : Nat := scaleCode s pm (g * chansOf fmt + j)

/-- In-array blocks per channel: 8, or 4 with DEFER set (R99). -/
def arrBlocks (defer : Bool) : Nat := if defer then 4 else 8

/-- Whether a logical macro is transient with row positions. -/
def rowPos (s : State) (core lm : Nat) : Bool :=
  (s.role core lm = 2 || s.role core lm = 3) && !s.colPos core lm
/-- Whether a logical macro is transient with column positions. -/
def colPosT (s : State) (core lm : Nat) : Bool :=
  (s.role core lm = 2 || s.role core lm = 3) && s.colPos core lm

/-- The codewords of the column residue store of row group g that hold an error are read, corrected and written anew, as every
write into the row group updates them (R75, R77): an uncorrectable one stays as it was read. -/
def updateCols (pm fmt g : Nat) (s : State) : State :=
  forEach ((s.err.colFlip.filter fun e => e.1 / 64 = pm * 8 + g).map (·.1)) (fun w t =>
    let t' := forEach (rangeFrom (w % 64 * 4) 4) (fun j u => setColRes pm fmt g j (colResidue t pm fmt g j) u) t
    t'.modErr fun e => { e with colFlip := SMap.set (fun _ => 0) e.colFlip w 0 }) s

/-! ### Detected faults of a macro (R76, R88, R92) -/

/-- Record the first detected fault after the recording bits of MC_STICKY were all clear (R92). -/
def mcRecord (core kind block lm row : Nat) (s : State) : State :=
  let st := s.reg (mcA core 4)
  if fld st 1 4 ≠ 0 ∨ bit st 6 then s
  else
    let v := kind * 2 ^ 29 + block * 2 ^ 26 + s.pmacro core lm * 2 ^ 17 + lm * 2 ^ 9 + row
    (s.setReg (mcA core 0xC) (BitVec.ofNat 32 v)).setReg64 (mcA core 0x10) s.wfn

/-- A detected fault of a macro: record, sticky bit, and the fault of its location. -/
def mcFault (core kind block lm row bitIx det : Nat) (s : State) : State :=
  let s := (mcRecord core kind block lm row s).setBit (mcA core 4) bitIx
  detectFault (coreLoc s core 0 (s.pmacro core lm) det) s

/-- A residue mismatch of the in-line check, forward (bit 2, KIND 2) or transposed (bit 3, KIND 3) (R76). -/
def residueMismatch (fwd : Bool) (core lm g q : Nat) (s : State) : State :=
  let s := s.addCnt (mcA core 8) 0 16 1
  if fwd then mcFault core 2 q lm (64 * g) 2 0 s else mcFault core 3 q lm (64 * g) 3 0 s

/-! ### Writes -/

/-- A code with the reserved value replaced by the next value towards zero (R60). -/
def unreserve (fmt code : Nat) : Nat × Bool :=
  let w := wBits fmt
  if code % 2 ^ w = 2 ^ (w - 1) then (2 ^ (w - 1) + 1, true) else (code % 2 ^ w, false)

/-- A byte of a row with its reserved codes replaced. -/
def unreserveByte (fmt : Nat) (b : Byte) : Byte × Bool :=
  let w := wBits fmt
  (List.range (8 / w)).foldl (fun a i =>
    let (c, k) := unreserve fmt (b.toNat >>> (i * w))
    (a.1 + BitVec.ofNat 8 (c * 2 ^ (i * w)), a.2 || k)) (0, false)

/-- Store a byte of an array, with check bits anew: only hard errors remain (R72). -/
def arrStore (pm o : Nat) (b : Byte) (s : State) : State :=
  let w := pm * 8192 + o / 4
  { s with mac := Mem.set s.mac (pm * 32768 + o) b,
           err := { s.err with macFlip := SMap.set (fun _ => 0) s.err.macFlip w (SMap.get (fun _ => 0) s.err.macHard w) } }

/-- A stored row's residues are computed anew (R77). -/
def fixRowRes (pm r : Nat) (s : State) : State :=
  s.modErr fun e => { e with rowRes := SMap.set (fun _ => 0) (SMap.set (fun _ => 0) e.rowRes (pm * 1024 + r * 2) 0) (pm * 1024 + r * 2 + 1) 0 }

/-- The row write of R77: 64 bytes, reserved codes clamped. -/
def writeArrRow (core lm r : Nat) (bytes : List Byte) (s : State) : State :=
  let pm := s.pmIx core lm
  let fmt := s.mfmt core lm
  let l := bytes.map (unreserveByte fmt)
  let s := updateCols pm fmt (r / 64) s
  let s := forEach ((List.range 64).zip l) (fun x t => arrStore pm (r * 64 + x.1) x.2.1 t) s
  let s := fixRowRes pm r s
  whenS (l.any (·.2)) (fun t => t.setBit (mcA core 4) 8) s

/-- Leave the word of an array at byte o as its reader took it, with the pattern p of error left in its data, under new check
bits. The stored residues, which no one has computed anew, stay as they were: a wrong word disagrees with them. -/
def settleWord (pm fmt o : Nat) (p : BitVec 39) (s : State) : State :=
  let w := o / 4 * 4
  let t := forEach (List.range 4) (fun i t => arrStore pm (w + i) (arrByte t pm (w + i) ^^^ patByte p i) t) s
  if p = 0 then t
  else
    let r := o / 64
    let g := r / 64
    let chans := rangeFrom (w % 64 * 8 / wBits fmt) (32 / wBits fmt)
    forEach chans (fun j u => setColRes pm fmt g j (colStored s pm fmt g j) u) (keepRowRes s pm fmt r (o % 64 / 32) t)

/-- Correct the word of an array at byte o, as a read by words does (R72): the state with its data corrected, and
whether it was uncorrectable; then it is left as sensed, under new check bits. -/
def correctWord (pm fmt o : Nat) (s : State) : State × Bool × Bool :=
  match eccOf (arrFlip s pm o) with
  | .clean => (s, false, false)
  | .corrected p => (settleWord pm fmt o p s, true, false)
  | .uncorr p => (settleWord pm fmt o p s, false, true)

/-- A corrected error: ECC_CORR and its count (R88). -/
def eccCorrected (core : Nat) (s : State) : State := (s.setBit (mcA core 4) 0).addCnt (mcA core 8) 16 16 1

/-- Read-correct the word of a row before a merge (R78, R79): an uncorrectable word is a detected fault. -/
def mergeWord (core lm o : Nat) (s : State) : State :=
  let (t, c, u) := correctWord (s.pmIx core lm) (s.mfmt core lm) o s
  let t := whenS c (eccCorrected core) t
  whenS u (mcFault core 1 (o % 64 / 8) lm (o / 64) 1 1) t

/-- A stored row residue that is found wrong: RES_MISMATCH with its count, KIND 2 with the row (R73, R88). -/
def rowResFault (core lm r q : Nat) (s : State) : State := mcFault core 2 q lm r 2 0 (s.addCnt (mcA core 8) 0 16 1)

/-- A row read that finds 0xFF in a residue field is a residue mismatch of the row (R73). -/
def rowReadRes (core lm r : Nat) (s : State) : State :=
  let bad := [0, 1].filter fun q => (rowResidue s (s.pmIx core lm) (s.mfmt core lm) r q).isNone
  forEach bad (rowResFault core lm r) s

/-- Put bit i of a weight code into an array. -/
def putCodeBit (pm fmt r j code i : Nat) (s : State) : State :=
  let o := wOfs fmt r j
  arrStore pm o (putB (arrByte s pm o) (j * wBits fmt % 8 + i) (bitN code i)) s

/-- One cycle of a column-group write (R78): bit column i of channel j, merged into the corrected words of all rows. -/
def writeBitCol (core lm j i : Nat) (codes : List Nat) (s : State) : State :=
  let pm := s.pmIx core lm
  let fmt := s.mfmt core lm
  forEach ((List.range 512).zip codes) (fun x t => putCodeBit pm fmt x.1 j x.2 i (mergeWord core lm (wOfs fmt x.1 j) t)) s

/-- The column-group write of R78: one channel's codes in rows 0 to 511, a bit column at a time. Each row's residue follows the
difference of its channel; the channel's eight column residues are those of the codes written (log entry 116). -/
def writeArrCol (core lm j : Nat) (codes : List Nat) (s : State) : State :=
  let pm := s.pmIx core lm
  let fmt := s.mfmt core lm
  let l := codes.map (unreserve fmt)
  let s := forEach (List.range 8) (updateCols pm fmt) s
  let s := forEach (List.range (wBits fmt)) (fun i t => writeBitCol core lm j i (l.map (·.1)) t) s
  let s := forEach (List.range 8) (fun g t => t.modErr fun e =>
    { e with colRes := SMap.set (fun _ => 0) e.colRes (pm * 2048 + g * 256 + j) 0 }) s
  whenS (l.any (·.2)) (fun t => t.setBit (mcA core 4) 8) s

/-- Read-correct every word of a row before a merge (R79), with its residue fields (R73). -/
def mergeRow (core lm r : Nat) (s : State) : State :=
  rowReadRes core lm r (forEach (List.range 16) (fun w t => mergeWord core lm (r * 64 + w * 4) t) s)

/-- The rows that n bytes at o touch. -/
def touchedRows (o n : Nat) : List Nat := rangeFrom (o / 64) (cdiv (o + n) 64 - o / 64)

/-- A window write of bytes (R79): a read-modify-write of each row that it writes in part. -/
def writeArrBytes (core lm o : Nat) (bytes : List Byte) (s : State) : State :=
  let pm := s.pmIx core lm
  let fmt := s.mfmt core lm
  let part := (touchedRows o bytes.length).filter fun r => decide (r * 64 < o) || decide (o + bytes.length < r * 64 + 64)
  let s := forEach (nubN ((touchedRows o bytes.length).map (· / 64))) (updateCols pm (s.mfmt core lm)) s
  let s := forEach part (fun r t => mergeRow core lm r t) s
  forEach ((rangeFrom o bytes.length).zip bytes) (fun x t =>
    let (b, k) := unreserveByte fmt x.2
    whenS k (fun u => u.setBit (mcA core 4) 8) (fixRowRes pm (x.1 / 64) (arrStore pm x.1 b t))) s

/-- The errors that a window read meets in the rows it takes (R73, R79, R88): a correction is counted, and an uncorrectable
word or a residue field of 0xFF is a detected fault. -/
def noteArrRead (core lm o n : Nat) (s : State) : State :=
  forEach (touchedRows o n) (rowReadRes core lm) <| forEach ((touchedRows o n).flatMap fun r => (List.range 16).map fun w => r * 64 + w * 4) (fun x t =>
    match eccOf (arrFlip t (t.pmIx core lm) x) with
    | .clean => t
    | .corrected _ => eccCorrected core t
    | .uncorr _ => mcFault core 1 (x % 64 / 8) lm (x / 64) 1 1 t) s

/-- A window read (R79): SECDED-corrected data. -/
def readArr (s : State) (core lm o : Nat) : Byte :=
  let pm := s.pmIx core lm
  arrByte s pm o ^^^ patByte (eccOf (arrFlip s pm o)).pat o

/-! ### Positions (R83) -/

/-- The tag of a position of a kept transient macro. -/
def posTag (s : State) (pm n : Nat) : PosTag := SMap.get (fun _ => .free) s.ptags (pm * 512 + n)
/-- Write a position tag. -/
def setPosTag (pm n : Nat) (t : PosTag) (s : State) : State := { s with ptags := SMap.set (fun _ => .free) s.ptags (pm * 512 + n) t }

/-- Whether the running frame sees a position (Table 3.9); in a local transient macro, the positions it has written. -/
def posVisible (s : State) (core lm n : Nat) : Bool :=
  if s.role core lm = 3 then
    match posTag s (s.pmIx core lm) n with
    | .free => false
    | .new f => f = s.wfn
    | .valid => true
    | .evicting f => f = s.wfn || f + 1 = s.wfn
  else if s.role core lm = 2 then (s.core core).localPos.contains (lm, n)
  else true

/-! ### Alignment (R101 to R103, R125) -/

/-- The result of aligning the elements of a pass: A′ of each group, the codes of each group, whether a group was raised. -/
structure Align where
  exps : List Int
  codes : List (List Int)
  raised : Bool
  deriving DecidableEq, Repr, Inhabited

/-- One code: the value in units of 2^lsb, rounded and clamped to ±(2^(P−1) − 1) (R103). -/
def alignCode (P : Nat) (lsb : Int) (r : Rnd) (x : Elem) : Int :=
  match x with
  | .fin _ v => clampI (-(2 ^ (P - 1) - 1)) (2 ^ (P - 1) - 1) (v.roundAt r lsb)
  | _ => 0

/-- Align the groups of a pass. `floor` is A_chain in the later passes of a chain. Non-finite elements have been
replaced by zero (R110). -/
def alignGroups (P span : Nat) (floor : Option Int) (groups : List (List (Elem × Rnd))) : Align :=
  let tops := groups.map fun g => blockTop (g.map (·.1))
  let aMax := maxI 0 (tops.filterMap id)
  let low : Int := match floor with
    | none => aMax - span
    | some f => max (aMax - span) f
  let exps := tops.map fun t => match t with
    | none => low
    | some a => max a low
  { exps := exps,
    codes := (groups.zip exps).map fun g => g.1.map fun x => alignCode P (g.2 - P + 2) x.2 x.1,
    raised := tops.any fun t => match t with
      | none => false
      | some a => decide (a < low) }

/-- Whether an element with its block scale code is replaced by zero at alignment (R110). -/
def nonfinite (x : Elem × Nat) : Bool :=
  x.2 = 255 || (match x.1 with
    | .fin _ _ => false
    | _ => true)

/-- What replacing the non-finite elements of a pass found (R110): the elements, the count, and whether a scale was
0xFF. `sc` is the block scale code of each element. -/
def replaceNonfin (l : List (Elem × Nat)) : List Elem × Nat × Bool :=
  l.foldl (fun a x =>
    let bad := nonfinite x
    (a.1 ++ [if bad then .fin false { m := 0, e := 0 } else x.1.scaled x.2], a.2.1 + bad.toNat, a.2.2 || decide (x.2 = 255)))
    ([], 0, false)

/-- The metadata of replaced elements. -/
def replacedMd (n : Nat) (nan : Bool) : Word := (if n = 0 then 0 else mdFlag 4) ||| (if nan then mdFlag 5 else 0)

/-! ### Passes -/

/-- One promotion: the row group, the alignment group, the driven rows with their window values, and the left shift of
the window (R64, R65). -/
structure Promo where
  g : Nat
  a : Nat
  rows : List (Nat × Int)
  shift : Nat
  deriving DecidableEq, Repr, Inhabited

/-- The windows of a code of P planes (R64): value and shift. -/
def windowsOf (P : Nat) (v : Int) : List (Int × Nat) := if P ≤ 8 then [(v, 0)] else [(v % 128, 0), (v / 128, 7)]

/-- The promotions of a forward pass over the rows whose codes are given, by row group, or by pair under effective
deferral (R64, R65). `G` is the alignment group size. -/
def promosOf (P G : Nat) (pair : Bool) (codes : List Int) : List Promo :=
  let step := if pair then 128 else 64
  let gs := chunksOf step codes
  (gs.zip (List.range gs.length)).flatMap fun x =>
    let rows := (rangeFrom (x.2 * step) x.1.length).zip x.1
    if P ≤ 8 then [{ g := x.2 * step / 64, a := x.2 * step / G, rows := rows, shift := 0 : Promo }]
    else [{ g := x.2 * step / 64, a := x.2 * step / G, rows := rows.map fun r => (r.1, r.2 % 128), shift := 0 },
          { g := x.2 * step / 64, a := x.2 * step / G, rows := rows.map fun r => (r.1, r.2 / 128), shift := 7 }]

/-- The saturation limit of a wide accumulator (R123). -/
def wideMax : Int := 2 ^ 47 - 1

/-- Add a shifted group accumulator to a wide channel; a saturated channel keeps its value (R123). -/
def wideAdd (w : Int) (sat : Bool) (v : Int) : Int × Bool :=
  if sat then (w, true)
  else if wideMax < w + v then (wideMax, true)
  else if w + v < -wideMax then (-wideMax, true)
  else (w + v, false)

/-- Promote the group accumulators of a window into a tile, with the residue path beside it (R123, R318). `shifts` is the
promotion shift of each channel, `half` the channels of a check group. -/
def promote (t : Tile) (acc : List Int) (shifts : List Nat) (half : Nat) : Tile :=
  let sums := (acc.zip shifts).map fun x => x.1 * 2 ^ x.2
  let w := ((t.wide.zip t.sat).zip sums).map fun x => wideAdd x.1.1 x.1.2 x.2
  let part (q : Nat) : Int := sumI ((sums.drop (q * half)).take half)
  { t with wide := w.map (·.1), sat := w.map (·.2),
           residue := (t.residue.zip (List.range t.residue.length)).map fun x => mod255 (x.1 + part x.2) }

/-- The group accumulators of a forward window: the sum of each channel over the driven rows; a wrong tree sum enters the
first channel of its check group. Channels of a gated check group stay zero (R187). -/
def fwdAcc (s : State) (pm fmt nValid : Nat) (p : Promo) : List Int :=
  let c := chansOf fmt
  (List.range c).map fun j =>
    let q := j / (c / 2)
    if nValid ≤ q * (c / 2) then 0
    else
      let e := if j % (c / 2) = 0 ∧ p.shift = 0 then SMap.get (fun _ => 0) s.err.treeErr ((pm * 8 + p.g) * 2 + q) else 0
      sumI ((p.rows.filter fun r => r.2 ≠ 0).map fun r => r.2 * sensed s pm fmt r.1 j) + e

/-- The check of R74 on a window: the check groups that mismatch. A driven row whose residue field holds 0xFF makes its group
mismatch, as a row read does (R73; DESIGN CHOICE, log entry 117). -/
def fwdCheck (s : State) (pm fmt nValid : Nat) (p : Promo) (acc : List Int) : List Nat :=
  let half := chansOf fmt / 2
  [0, 1].filter fun q =>
    if nValid ≤ q * half then false
    else
      let rs := (p.rows.filter fun r => r.2 ≠ 0).map fun r => (rowResidue s pm fmt r.1 q, r.2)
      let bad := rs.any fun r => r.1.isNone
      bad || decide (mod255 (sumI ((acc.drop (q * half)).take half)) ≠ mod255 (sumI (rs.map fun r => r.2 * (r.1.getD 0 : Nat))))

/-- A pass over one macro: the tile after it, and its mismatches (row group, check group). -/
structure PassOut where
  tile : Tile
  bad : List (Nat × Nat)
  deriving DecidableEq, Repr, Inhabited

/-- A forward pass over the macro with its codes aligned (R62 to R65, R108). `t` holds the tile's references. -/
def fwdPass (s : State) (core lm P G nValid : Nat) (al : Align) (t : Tile) : PassOut :=
  let pm := s.pmIx core lm
  let fmt := s.mfmt core lm
  let pair := s.deferBit core lm && decide (fmt ≠ 0) && decide (P ≤ 8)
  let c := chansOf fmt
  let ps := promosOf P G pair al.codes.flatten
  ps.foldl (fun o p =>
    let acc := fwdAcc s pm fmt nValid p
    let a := nth 0 al.exps p.a - t.aRef
    let shifts := (List.range c).map fun j =>
      let w : Int := if rowPos s core lm then 0 else (wScale s pm fmt (if s.deferBit core lm then p.g / 2 else p.g) j : Int) - nth 127 t.wMin j
      (a + w).toNat + p.shift
    { tile := promote o.tile acc shifts (c / 2), bad := o.bad ++ (fwdCheck s pm fmt nValid p acc).map fun q => (p.g, q) })
    { tile := t, bad := [] }

/-- The smallest in-array scale code of each channel (Table 4.6); 127 for row positions, whose scales are folded in. -/
def minScales (s : State) (core lm : Nat) : List Nat :=
  let pm := s.pmIx core lm
  let fmt := s.mfmt core lm
  (List.range (chansOf fmt)).map fun j =>
    if rowPos s core lm then 127
    else ((List.range (arrBlocks (s.deferBit core lm))).map fun g => wScale s pm fmt g j).foldl min 255

/-- The group accumulators of a transposed window: one sum per row of the row group (R70). `ys` are the driven values
of the channels in the window. -/
def transAcc (s : State) (pm fmt g : Nat) (first : Bool) (ys : List Int) : List Int :=
  (List.range 64).map fun i =>
    let e := if i = 0 ∧ first then SMap.get (fun _ => 0) s.err.treeErr ((pm * 8 + g) * 2) else 0
    sumI (((List.range ys.length).zip ys).filterMap fun y =>
      if y.2 = 0 then none else some (y.2 * sensed s pm fmt (64 * g + i) y.1)) + e

/-- The check of R75 on a transposed window. -/
def transCheck (s : State) (pm fmt g : Nat) (ys acc : List Int) : Bool :=
  decide (mod255 (sumI acc) ≠
    mod255 (sumI (((List.range ys.length).zip ys).map fun y => y.2 * (colResidue s pm fmt g y.1 : Nat))))

/-- A transposed pass of one row group (R70, R71, R126). Its one check covers all channels, and a mismatch is recorded with
check group 0 (DESIGN CHOICE, log entry 117). -/
def transPass (s : State) (core lm P g : Nat) (codes : List Int) (t : Tile) : PassOut :=
  let pm := s.pmIx core lm
  let fmt := s.mfmt core lm
  let wins : List (List Int × Nat) :=
    if P ≤ 8 then [(codes, 0)] else [(codes.map (· % 128), 0), (codes.map (· / 128), 7)]
  wins.foldl (fun o w =>
    let acc := transAcc s pm fmt g (decide (w.2 = 0)) w.1
    { tile := promote o.tile acc (List.replicate 64 w.2) 64,
      bad := o.bad ++ (if transCheck s pm fmt g w.1 acc then [(g, 0)] else []) }) { tile := t, bad := [] }

/-! ### What a pass leaves in the records -/

/-- The slack that the sensor of a column block reports. -/
def slackOf (s : State) (core lm blk : Nat) : Nat := (SMap.get (fun _ => 0xFF) s.err.slack (s.pmIx core lm * 8 + blk)).toNat

/-- The column blocks that a forward pass over nValid channels drives: those of the check groups that are not gated (R89,
R187). -/
def activeBlocks (fmt nValid : Nat) : List Nat := if nValid ≤ chansOf fmt / 2 then List.range 4 else List.range 8

/-- The margin sensors of the active blocks of a macro (R89): the smallest slack of the frame, MARGIN_LOW with the request for
a higher supply step, and MARGIN_FAIL, whose record names row 0 (DESIGN CHOICE, log entry 117). -/
def marginCheck (core lm : Nat) (blks : List Nat) (s : State) : State :=
  forEach blks (fun blk s =>
    let sl := slackOf s core lm blk
    let s := s.modCore core fun c =>
      { c with marginMin := match c.marginMin with
          | some x => if sl < x.1 then some (sl, s.pmacro core lm, blk) else some x
          | none => some (sl, s.pmacro core lm, blk) }
    let s := if sl < s.regFld (mcA core 0x18) 8 8 then
        let s := s.setBit (mcA core 4) 5
        let s := s.modPwr fun p => { p with raise := p.raise.set (core / 64) true }
        s.modCore core fun c =>
          { c with marginHit := if c.marginHit.contains (s.pmacro core lm, blk) then c.marginHit else c.marginHit ++ [(s.pmacro core lm, blk)] }
      else s
    if sl = 0 then mcFault core 5 blk lm 0 6 3 s else s) s

/-- The effects of a pass that drives the column blocks blks: mismatches, saturations counted for the output descriptor, and
the margin sensors. The tile takes FAULT and SAT. -/
def passEffects (core lm : Nat) (fwd : Bool) (blks : List Nat) (before : Tile) (o : PassOut) (s : State) : Tile × State :=
  let s := forEach o.bad (fun x => residueMismatch fwd core lm x.1 x.2) s
  let newSat := (o.tile.sat.filter id).length - (before.sat.filter id).length
  let s := whenS (decide (0 < newSat)) (fun t =>
    addWatch core before.tdY 0 newSat 0 ((t.setBit (drA core 0) 0).addCnt (drA core 4) 0 16 newSat)) s
  let marg := blks.any fun b => slackOf s core lm b = 0
  ({ o.tile with md := o.tile.md ||| (if o.bad.isEmpty && !marg then 0 else mdFlag 0) ||| (if 0 < newSat then mdFlag 2 else 0) },
   marginCheck core lm blks s)

end Sys2Proof.Machine
end

