-- ==== Sys2Proof/Machine/MoveItems.lean ====
section
/-! DEFINITION. The work of the moves and of WRITE_W (R213 to R216, R85, R97, R99, R100, R114): one item at a time. -/

namespace Sys2Proof.Machine

/-- The operand at an index of an instruction. -/
def Op.opd (o : Op) (i : Nat) : Opd := nth { td := 0, d := 0, pitch := 0, bStride := 0, sideStride := 0 } o.opds i

/-- OR metadata into an instruction in flight. -/
def opMd (core seq : Nat) (md : Word) (s : State) : State := modOp core seq (fun o => { o with md := o.md ||| md }) s

/-- Whether a move goes between tensors whose blocks run along K: one that is a region of the HBM weight image keeps R97's layout
in the copy (R213, R448; DEDUCED, log entry 121). -/
def moveK (s : State) (src dst : Opd) : Bool := kBlocks s false src || kBlocks s true dst

/-- Row r of iteration b of a LOAD, STORE or SEND (R213), by the DMA engines (class 5). -/
def doMove (core : Nat) (op : Op) (b r : Nat) (s : State) : State :=
  let src := op.opd 0
  let dst := op.opd 1
  let t := iTask op.word
  let kb := moveK s src dst
  let i := readRowK core t op.seg 5 kb src b r op.ext.n s
  let md := op.md ||| i.md ||| (i.s.core core).mdOf src.td
  let rest := op.todo.filter fun x => x ≠ (b, r)
  let (md', s) := writeRow core t op.seg 5 dst op.seq op.xid md
    { b := b, m := r, n := op.ext.n, bytes := i.bytes, scales := i.scales, all := allRows op.ext.b op.ext.m, rest := rest, kb := kb } i.s
  modOp core op.seq (fun o => { o with md := o.md ||| i.md ||| md', todo := rest }) s

/-- A LOAD into a shape register (R213): the first 4 bytes of row 0 of iteration 0, unsigned. -/
def doShpLoad (core : Nat) (op : Op) (s : State) : State :=
  let src := op.opd 0
  let (l, md, s) := readRun core (iTask op.word) op.seg 5 src.d (rowAddr src 0 0) 4 s
  opMd core op.seq md (s.setReg (shpA core (iShpIx op.word)) (BitVec.ofNat 32 (leNat l)))

/-! ### WRITE_W into a resident or streamed placement -/

/-- The tiles of a placement in one iteration: K tile, N tile (from 0) and logical macro (R172). -/
def placeTiles (d : BitVec 512) (b : Nat) : List (Nat × Nat × Nat) :=
  (List.range (dNtc d)).flatMap fun nt => (List.range (dKtc d)).map fun kt =>
    (kt, nt, dMbase d + b * dMstride d + kt + dKtc d * nt)

/-- Rows and columns of a tile that lie inside the declared maxima of the placement (R174). -/
def tileRows (d : BitVec 512) (kt : Nat) : Nat := min 512 (dRowsMax d - 512 * (dKt0 d + kt))
def tileCols (d : BitVec 512) (fmt nt : Nat) : Nat := min (chansOf fmt) (dColsMax d - chansOf fmt * (dNt0 d + nt))

/-- The scale codes of channel j of a tile, one per in-array block: those that the source gives, and for a block wholly
beyond K the smallest of them (R99). `rd` reads a scale byte. -/
def tileScales (w src : Opd) (fmt b kt nt j : Nat) (rd : Nat → Nat) : List Nat :=
  let bs := dBs false src.d
  let nb := 512 / bs
  let rows := tileRows w.d kt
  let given := ((List.range nb).filter fun q => q * bs < rows).map fun q =>
    rd (kScaleAddr false src b (kt * nb + q) (nt * chansOf fmt + j))
  if j < tileCols w.d fmt nt then given ++ List.replicate (nb - given.length) (given.foldl min 255)
  else List.replicate nb 0

/-- One iteration of a WRITE_W with ALL: each tile's codes by row writes, its scale codes unchanged (R214). -/
def doWall (core : Nat) (op : Op) (b : Nat) (s : State) : State :=
  let src := op.opd 0
  let w := op.opd 1
  forEach (placeTiles w.d b) (fun t s =>
    let (kt, nt, lm) := t
    let fmt := s.mfmt core lm
    let rows := tileRows w.d kt
    let cols := tileCols w.d fmt nt
    let s := forEach (List.range 512) (fun r s =>
      let nb := if r < rows then cdiv (cols * wBits fmt) 8 else 0
      let (l, md, s) := hbmReadVia id (rowAddr src b (kt * 512 + r) + nt * 64) nb s
      let codes := (List.range cols).map fun j => elemCode fmt l j
      let bytes := if r < rows then packRow fmt codes else []
      opMd core op.seq md (writeArrRow core lm r (bytes ++ List.replicate (64 - bytes.length) 0) s)) s
    let pm := s.pmIx core lm
    forEach (List.range (chansOf fmt)) (fun j s =>
      let sc := tileScales w src fmt b kt nt j fun a => (Mem.get s.hbm a).toNat
      forEach ((List.range sc.length).zip sc) (fun x s => putScale pm (x.1 * chansOf fmt + j) x.2 s) s) s) s

/-- Whether an HBM address names the current side of a ping-pong unit (R85). -/
def namesCurrent (s : State) (a : Nat) : Bool :=
  match s.unitAt a with
  | none => false
  | some u => u.addr (s.sideOf u.key) = a

/-- Whether every unit that [a, a + n) covers names its current side. -/
def rangeCurrent (s : State) (a n : Nat) : Bool :=
  n = 0 || (rangeFrom (a / 4096) ((a + n - 1) / 4096 + 1 - a / 4096)).all fun u => namesCurrent s (max a (u * 4096))

/-- Rows and columns of the source that a placement takes (R214). -/
def shareRows (d : BitVec 512) : Nat := min (dRowsMax d) (512 * (dKt0 d + dKtc d)) - 512 * dKt0 d
def shareCols (d : BitVec 512) (fmt : Nat) : Nat :=
  min (dColsMax d) (chansOf fmt * (dNt0 d + dNtc d)) - chansOf fmt * dNt0 d

/-- Whether the elements and scales of a weight source are current at the frame's tick (R85). -/
def sourceCurrent (s : State) (src w : Opd) (fmt nb : Nat) : Bool :=
  let nr := shareRows w.d
  let nc := shareCols w.d fmt
  let bs := dBs false src.d
  (List.range nb).all fun b =>
    ((List.range nr).all fun r => rangeCurrent s (rowAddr src b r) (rowBytes fmt nc)) &&
      ((List.range (cdiv nr bs)).all fun g => rangeCurrent s (kScaleAddr false src b g 0) nc)

/-- The scale bytes that a WRITE_W with ALL takes are read, once, at issue: bad data are a detected fault and mark what they touch
(R148, R209). -/
def readTileScales (src w : Opd) (fmt nb : Nat) (s : State) : Word × State :=
  let bs := dBs false src.d
  (List.range nb).foldl (fun a b => (placeTiles w.d b).foldl (fun a t =>
    (List.range (cdiv (tileRows w.d t.1) bs)).foldl (fun a g =>
      let (_, md, s) := hbmReadVia id (kScaleAddr false src b (t.1 * (512 / bs) + g) (t.2.1 * chansOf fmt)) (tileCols w.d fmt t.2.1) a.2
      (a.1 ||| md, s)) a) a) (0, s)

/-- Whether the scales of every channel of every tile lie within 8 binades (R100). -/
def scalesClose (s : State) (src w : Opd) (fmt nb : Nat) : Bool :=
  (List.range nb).all fun b => (placeTiles w.d b).all fun t =>
    (List.range (chansOf fmt)).all fun j =>
      let sc := tileScales w src fmt b t.1 t.2.1 j fun a => (Mem.get s.hbm a).toNat
      decide (sc.foldl max 0 ≤ sc.foldl min 255 + 8)

/-! ### WRITE_W into a transient placement -/

/-- The value of an element with its block scale; a scale of 0xFF makes it a NaN. -/
def elemVal (x : Elem × Nat) : Elem := if x.2 = 255 then .nan false else x.1.scaled x.2

/-- Positions of one tile, and values of one position in one macro (R215). -/
def posUnit (col : Bool) (fmt : Nat) : Nat := if col then chansOf fmt else 512
def posVals (col : Bool) (fmt : Nat) : Nat := if col then 512 else chansOf fmt

/-- The elements of a position that a placement holds, below the declared maximum (R177, R215). -/
def posLen (d : BitVec 512) (col : Bool) (fmt : Nat) : Nat := if col then shareRows d else shareCols d fmt
/-- Elements per position, E of R119. -/
def posE (d : BitVec 512) (col : Bool) : Nat := if col then dRowsMax d else dColsMax d
/-- The first element of the placement in the whole position. -/
def posE0 (d : BitVec 512) (col : Bool) (fmt : Nat) : Nat := if col then 512 * dKt0 d else chansOf fmt * dNt0 d

/-- The macros that position n of an iteration takes, with the piece of it that each holds (R215). -/
def posMacros (d : BitVec 512) (b : Nat) (col : Bool) (fmt n : Nat) : List (Nat × Nat) :=
  let u := n / posUnit col fmt
  if col then (List.range (dKtc d)).map fun kt => (kt, dMbase d + b * dMstride d + kt + dKtc d * u)
  else (List.range (dNtc d)).map fun nt => (nt, dMbase d + b * dMstride d + u + dKtc d * nt)

/-- The conversion of a position's values in one macro (R113, R114): one block per 64 rows with every code raised to the
largest minus 8 for a column, one block for a row. -/
def convPos (fmt : Nat) (col : Bool) (l : List (Elem × Rnd)) : ConvOut :=
  if col then
    let bs := chunksOf 64 l
    let top := (bs.map fun x => chooseScale fmt (x.map (·.1))).foldl max 0
    bs.foldl (fun o x =>
      let S := max (chooseScale fmt (x.map (·.1))) (top - 8)
      { (convBlock fmt S x o) with scales := o.scales ++ [BitVec.ofNat 8 S] }) {}
  else
    let S := chooseScale fmt (l.map (·.1))
    { (convBlock fmt S l {}) with scales := [BitVec.ofNat 8 S] }

/-- Write position p of one macro: codes and scales, and its tag (Table 3.9). -/
def writePos (core lm p : Nat) (col : Bool) (o : ConvOut) (s : State) : State :=
  let pm := s.pmIx core lm
  let fmt := s.mfmt core lm
  let s := if col then writeArrCol core lm p o.codes s else writeArrRow core lm p (packRow fmt o.codes) s
  let sc := (List.range o.scales.length).zip o.scales
  let s := forEach sc (fun x s => putScale pm (if col then x.1 * chansOf fmt + p else p) x.2.toNat s) s
  if s.role core lm = 3 then setPosTag pm p (.new s.wfn) s
  else s.modCore core fun c => { c with localPos := if c.localPos.contains (lm, p) then c.localPos else c.localPos ++ [(lm, p)] }

/-- A write or eviction that R84 drops: POS_BUSY and its event. -/
def posBusy (core : Nat) (s : State) : State := stickyEvent (mcA core 4) 7 s

/-- Whether a column-group write of position p meets a word that SECDED cannot correct (R78). -/
def columnBad (s : State) (pm fmt p : Nat) : Bool :=
  (List.range 512).any fun r => match eccOf (arrFlip s pm (wOfs fmt r p)) with
    | .uncorr _ => true
    | _ => false

/-- One macro's part of a position that is written: dropped when its tag is not FREE (R84). A stochastic write draws with class 3,
as a narrow write (DESIGN CHOICE, log entry 122). -/
def posPart (core : Nat) (op : Op) (b n : Nat) (col : Bool) (vals : List Elem) (x : Nat × Nat) (s : State) : State :=
  let w := op.opd 1
  let lm := x.2
  let fmt := s.mfmt core lm
  let p := n % posUnit col fmt
  if s.role core lm = 3 && decide (posTag s (s.pmIx core lm) p ≠ .free) then posBusy core s
  else
    let per := posVals col fmt
    let part := (vals.drop (x.1 * per)).take per
    let part := part ++ List.replicate (per - part.length) (.fin false { m := 0, e := 0 })
    let e0 := posE0 w.d col fmt + x.1 * per
    let rnd (j : Nat) : Rnd := outRnd s core w.td op.seq 3 (dOutRnd w.d) b (n * posE w.d col + e0 + j)
    let o := convPos fmt col (part.zip ((List.range per).map rnd))
    let md := o.md ||| (if col && columnBad s (s.pmIx core lm) fmt p then mdFlag 0 else 0)
    opMd core op.seq md (addWatch core w.td o.zeros o.sats o.nonfin (writePos core lm p col o s))

/-- One macro's part of a position that is evicted (R84, R216). -/
def evictPart (core : Nat) (n : Nat) (col : Bool) (x : Nat × Nat) (s : State) : State :=
  let pm := s.pmIx core x.2
  let p := n % posUnit col (s.mfmt core x.2)
  if posTag s pm p = .valid then setPosTag pm p (.evicting s.wfn) s else posBusy core s

/-- Position i of an iteration of a WRITE_W into a transient placement (R215, R216). -/
def doWpos (core : Nat) (op : Op) (b i : Nat) (s : State) : State :=
  let src := op.opd 0
  let w := op.opd 1
  let lm0 := dMbase w.d
  let col := s.colPos core lm0
  let fmt := s.mfmt core lm0
  let n := op.ext.k + i
  if iB205 op.word then forEach (posMacros w.d b col fmt n) (evictPart core n col) s
  else
    let len := posLen w.d col fmt
    let r := readRow core (iTask op.word) op.seg 5 src b i len s
    let vals := (r.elems src len).map elemVal
    forEach (posMacros w.d b col fmt n) (posPart core op b n col vals) (opMd core op.seq r.md r.s)

end Sys2Proof.Machine
end

