-- ==== Sys2Proof/Machine/ComputeItems.lean ====
section
/-! DEFINITION. The work of MATMUL, MATMUL_T and REDUCE (R123 to R130, R177, R178, R186, R187, R217 to R219) one item at a
time, and the finished output row: epilogue, conversion, side partial and write (R138, R143, R188). -/

namespace Sys2Proof.Machine

/-! ### The rows of an instruction -/

/-- The rows of M that a replica takes (R176). -/
def replicaRows (mb ru ridx m : Nat) : List Nat := (List.range m).filter fun i => i / mb % ru = ridx

/-- Whether an instruction chains its batch loop (R182). -/
def iAccum (w : BitVec 256) : Bool := iOp w = 0x10 && iB205 w
/-- The iterations of an instruction's output. -/
def outIters (op : Op) : Nat := if iAccum op.word then 1 else op.ext.b
/-- The output rows of an instruction on its core, of those of its replica (R176); row 0 of each iteration for REDUCE. -/
def outRows (op : Op) : List (Nat × Nat) :=
  if iOp op.word = 0x13 then allRows op.ext.b 1
  else (List.range (outIters op)).flatMap fun b =>
    (replicaRows op.mb op.ru (dRidx (op.opd 1).d) op.ext.m).map fun m => (b, m)
/-- Whether a REDUCE delivers 8 bytes per element (R219). -/
def reduceRaw (w : BitVec 256) : Bool := iPair w || decide (iRop w ≠ 0)

/-- The elements of one output row of an instruction over a placement on its core. -/
def shareWidth (s : State) (core : Nat) (w : BitVec 256) (d : BitVec 512) (e : Ext) : Nat :=
  let o := iOp w
  if o = 0x10 then nShare d (chansAt s core d) e.n
  else if o = 0x11 then kShare d e.k
  else if o = 0x12 then e.k
  else e.m
/-- The elements of one output row of an instruction on its core. -/
def rowWidth (s : State) (core : Nat) (op : Op) : Nat := shareWidth s core op.word (op.opd 1).d op.ext
/-- The first element of the core's share in the whole output row. -/
def shareFirst (s : State) (core : Nat) (w : BitVec 256) (d : BitVec 512) : Nat :=
  if iOp w = 0x10 then chansAt s core d * dNt0 d else if iOp w = 0x11 then 512 * dKt0 d else 0
/-- The first element of an instruction's share. -/
def rowFirst (s : State) (core : Nat) (op : Op) : Nat := shareFirst s core op.word (op.opd 1).d
/-- Whether a core holds a tile of a placement inside the extents (R177). -/
def holdsTiles (s : State) (core : Nat) (d : BitVec 512) (e : Ext) : Bool :=
  decide (0 < ktcValid d e.k) && decide (0 < ntcValid d (chansAt s core d) e.n)
/-- Whether an instruction receives elements of its output on its core: it is the destination, and its core or another one
holds terms of its share (R134, R177). -/
def getsRows (s : State) (core seq : Nat) (w : BitVec 256) (d : BitVec 512) (e : Ext) : Bool :=
  isDest s core seq && decide (0 < shareWidth s core w d e) &&
    (holdsTiles s core d e || (destReduction s core seq).any fun r => !(holders s r e (shareFirst s core w d)).isEmpty)
/-- W of R119: the length of the whole output row. -/
def rowWhole (op : Op) : Nat := if iOp op.word = 0x10 then op.ext.n else if iOp op.word = 0x13 then 0 else op.ext.k

/-! ### Accumulator sets -/

/-- The accumulator sets of a logical macro. -/
def macSt (s : State) (core lm : Nat) : MacroSt := SMap.get (fun _ => {}) (s.core core).macros lm
/-- Write the accumulator sets of a logical macro. -/
def setMacSt (core lm : Nat) (m : MacroSt) (s : State) : State :=
  s.modCore core fun c => { c with macros := SMap.set (fun _ => {}) c.macros lm m }
/-- The tiles in the live set and behind it. -/
def MacroSt.tiles (m : MacroSt) : List Tile := m.live.toList ++ m.walk
/-- Whether a chain has not issued all its passes (R130). -/
def MacroSt.openChain (m : MacroSt) : Bool := m.tiles.any fun t => decide (t.passes ≠ 0)
/-- A tile starts in the live set, or waits behind it (R128). -/
def MacroSt.start (t : Tile) (m : MacroSt) : MacroSt :=
  match m.live with
  | none => { m with live := some t }
  | some _ => { m with walk := m.walk ++ [t] }
/-- The open chain tile of an instruction's row. -/
def MacroSt.chainTile (seq b m : Nat) (x : MacroSt) : Option Tile :=
  x.tiles.find? fun t => t.seq = seq && t.b = b && t.m = m && decide (t.passes ≠ 0)
/-- Replace the open chain tile of its row. -/
def MacroSt.putChain (t : Tile) (x : MacroSt) : MacroSt :=
  let same (y : Tile) : Bool := y.seq = t.seq && y.b = t.b && y.m = t.m && decide (y.passes ≠ 0)
  { x with live := x.live.map fun y => if same y then t else y, walk := x.walk.map fun y => if same y then t else y }

/-- An empty tile of an instruction: c channels whose outputs are given. -/
def blankTile (op : Op) (b m seqNo expected c : Nat) (outs : List (Option Nat)) : Tile :=
  { seq := op.seq, b := b, m := m, seqNo := seqNo, expected := expected, wide := List.replicate c 0,
    sat := List.replicate c false, residue := [0, 0], exps := List.replicate c 0, outs := outs,
    hidden := List.replicate c false, dscale := dDscale (op.opd 1).d, tdY := (op.opd 2).td, md := op.md }

/-! ### Drain requests (R129) -/

/-- The tiles of a port's macros whose drain requests are not in its queue yet, by macro. -/
def portMissing (s : State) (core port : Nat) : List Nat :=
  (rangeFrom (16 * port) 16).flatMap fun lm =>
    List.replicate ((macSt s core lm).tiles.length - ((s.core core).queue (4 + port)).count lm) lm

/-- The drain requests of a port go into its queue while it has places (R129). -/
def fillPort (core port : Nat) (s : State) : State :=
  forEach ((portMissing s core port).take (creditsLeft (s.core core) (4 + port))) (pushQueue core (4 + port)) s

/-- The port takes the request of a macro's tile from its queue. -/
def dropRequest (core lm : Nat) (s : State) : State := popQueue core (4 + lm / 16) lm s

/-- A tile starts on a macro, with its drain request (R128, R129). -/
def startTile (core lm : Nat) (t : Tile) (s : State) : State :=
  fillPort core (lm / 16) (setMacSt core lm ((macSt s core lm).start t) s)

/-- A tile start that R130 refuses: a tile of zeros with REFUSED. -/
def refuseTile (core lm : Nat) (t : Tile) (s : State) : State :=
  startTile core lm { t with md := t.md ||| mdFlag 1 } (stickyEvent (drA core 0) 4 s)

/-! ### Forward passes -/

/-- The elements that a pass drives into a macro: under row positions, with each row's scale folded in and the rows that
the frame does not see left at zero (R83, R101). -/
def driven (s : State) (core lm : Nat) (xs : List (Elem × Rnd)) : List (Elem × Rnd) :=
  if rowPos s core lm then
    (xs.zip (List.range xs.length)).map fun x =>
      (if posVisible s core lm x.2 then x.1.1.scaled (scaleCode s (s.pmIx core lm) x.2) else .fin false { m := 0, e := 0 }, x.1.2)
  else xs

/-- The alignment group of a macro: 64 elements, or 128 with DEFER set. -/
def alignSize (s : State) (core lm : Nat) : Nat := if s.deferBit core lm then 128 else 64

/-- Alignment of a forward pass over a macro. -/
def alignFor (s : State) (core lm P span : Nat) (floor : Option Int) (xs : List (Elem × Rnd)) : Align :=
  alignGroups P span floor (chunksOf (alignSize s core lm) (driven s core lm xs))

/-- The references that the first pass of a tile fixes (R109, R125), and the column positions it does not see (R83). -/
def openTile (s : State) (core lm P : Nat) (al : Align) (t : Tile) : Tile :=
  let aRef := minI 0 al.exps
  let wMin := minScales s core lm
  { t with aRef := aRef, wMin := wMin, exps := wMin.map fun (w : Nat) => aRef - P + 2 + w - 127,
           hidden := (List.range t.wide.length).map fun j => colPosT s core lm && !posVisible s core lm j }

/-- The metadata of an alignment. -/
def alignMd (al : Align) : Word := if al.raised then mdFlag 6 else 0

/-- One forward pass into a tile, with its records (R62 to R76). -/
def passInto (core lm P nValid : Nat) (al : Align) (t : Tile) (s : State) : Tile × State :=
  let t := { t with md := t.md ||| alignMd al }
  passEffects core lm true (activeBlocks (s.mfmt core lm) nValid) t (fwdPass s core lm P (alignSize s core lm) nValid al t) s

/-- Pass c of the chain of row m over tile (kt, nt) of the placement: iteration b of the output, `md` and `xs` the metadata and
the elements of the slice that drives it. -/
def fwdTile (core : Nat) (op : Op) (b m c kt nt : Nat) (md : Word) (xs : List (Elem × Rnd)) (s : State) : State :=
  let x := op.opd 0
  let d := (op.opd 1).d
  let n := chansAt s core d
  let lm := tileMac d (if iAccum op.word then c else b) kt nt
  let st := macSt s core lm
  let first := n * (dNt0 d + nt)
  let P := dPlanes x.d
  let left := (if iAccum op.word then op.ext.b else 1) - 1 - c
  if c = 0 then
    let t := blankTile op b m kt (ktcValid d op.ext.k) n
      ((List.range n).map fun j => if first + j < op.ext.n then some (first + j) else none)
    if st.openChain then refuseTile core lm t s
    else
      let al := alignFor s core lm P (dAlnSpan x.d) none xs
      let t := openTile s core lm P al { t with md := t.md ||| md }
      let (t, s) := passInto core lm P (min n (op.ext.n - first)) al t s
      startTile core lm { t with passes := left } s
  else
    match st.chainTile op.seq b m with
    | none => s
    | some t =>
      let al := alignFor s core lm P (dAlnSpan x.d) (some t.aRef) xs
      let (t, s) := passInto core lm P (min n (op.ext.n - first)) al { t with md := t.md ||| md } s
      setMacSt core lm ((macSt s core lm).putChain { t with passes := left }) s

/-- The rounding of a driven element: its index along the reduction and its row give the draw (R119). -/
def alignRnd (s : State) (core : Nat) (op : Op) (td code b ix m : Nat) : Rnd :=
  rndOf code (if code = 2 then srBits s.wfn core td op.seq 0 b (ix + 2 ^ 32 * m) else 0)

/-- A driven row as read: non-finite elements replaced and counted (R110). `marks` says of each element whether it was replaced,
and whether its scale was 0xFF. -/
structure Driven where
  elems : List Elem
  marks : List (Bool × Bool)
  md : Word
  s : State
  deriving DecidableEq, Repr

/-- Read the driven row m of iteration b, n elements wide, by the row feeder (class 2). The replaced elements are counted once
for each row that is read, however many passes they drive (DESIGN CHOICE, log entry 124). -/
def readDriven (core : Nat) (op : Op) (b m n : Nat) (s : State) : Driven :=
  let x := op.opd 0
  let r := readRow core (iTask op.word) op.seg 2 x b m n s
  let (l, cnt, _) := replaceNonfin (r.elems x n)
  { elems := l, marks := (r.elems x n).map fun e => (nonfinite e, decide (e.2 = 255)), md := r.md, s := addWatch core x.td 0 0 cnt r.s }

/-- The elements of a driven row from index i, n of them, each with its rounding. -/
def Driven.slice (r : Driven) (rnd : Nat → Rnd) (i n : Nat) : List (Elem × Rnd) :=
  let l := (r.elems.drop i).take n
  l.zip ((rangeFrom i l.length).map rnd)

/-- The metadata that a slice of a driven row brings to the tiles that it feeds: of the read, and of its replaced elements
(R110). -/
def Driven.sliceMd (r : Driven) (i n : Nat) : Word :=
  let l := (r.marks.drop i).take n
  r.md ||| replacedMd (l.filter (·.1)).length (l.any (·.2))

/-- The walk of one row over the core's tiles inside the extents (R178): waves of K tiles, then N tiles, then the K tiles of the
wave. -/
def walkOf (wave ktc ntc : Nat) : List (Nat × Nat) :=
  (List.range (cdiv ktc wave)).flatMap fun w => (List.range ntc).flatMap fun nt =>
    (rangeFrom (w * wave) (min wave (ktc - w * wave))).map fun kt => (nt, kt)

/-- The walk of an instruction's rows on its core. -/
def opWalk (s : State) (core : Nat) (op : Op) : List (Nat × Nat) :=
  let d := (op.opd 1).d
  walkOf op.wave (ktcValid d op.ext.k) (ntcValid d (chansAt s core d) op.ext.n)

/-- Pass c of row m over a tile, driven by the slice of a row that was read in iteration bi. -/
def fwdPassOf (core : Nat) (op : Op) (b m c bi : Nat) (r : Driven) (t : Nat × Nat) (s : State) : State :=
  let x := op.opd 0
  let d := (op.opd 1).d
  let rnd (i : Nat) : Rnd := alignRnd s core op x.td (dAlnRnd x.d) bi (512 * dKt0 d + i) m
  fwdTile core op b m c t.2 t.1 (r.sliceMd (512 * t.2) 512) (r.slice rnd (512 * t.2) 512) s

/-- The forward passes of row m of iteration b (R178). -/
def doFwd (core : Nat) (op : Op) (b m : Nat) (s : State) : State :=
  let r := readDriven core op b m (kShare (op.opd 1).d op.ext.k) s
  forEach (opWalk s core op) (fun t s => fwdPassOf core op b m 0 b r t s) r.s

/-- Read the driven rows of a chain, in ascending iteration. -/
def readChain (core : Nat) (op : Op) (m n : Nat) (s : State) : List Driven × State :=
  (List.range op.ext.b).foldl (fun a b =>
    let r := readDriven core op b m n a.2
    (a.1 ++ [r], r.s)) ([], s)

/-- The chain of row m: the batch loop stands inside the walk, so that the passes of a chain reach each macro one after another
(R182). -/
def doChain (core : Nat) (op : Op) (m : Nat) (s : State) : State :=
  let (rs, s) := readChain core op m (kShare (op.opd 1).d op.ext.k) s
  forEach (opWalk s core op) (fun t s =>
    forEach (rs.zip (List.range rs.length)) (fun r s => fwdPassOf core op 0 m r.2 r.2 r.1 t s) s) s

/-! ### Transposed passes -/

/-- The elements of y that drive one row group of a macro: block scales of column-organised weights folded in, column
positions that the frame does not see at zero (R83, Table 4.6). -/
def drivenT (s : State) (core lm g : Nat) (ys : List (Elem × Rnd)) : List (Elem × Rnd) :=
  let pm := s.pmIx core lm
  let fmt := s.mfmt core lm
  (ys.zip (List.range ys.length)).map fun y =>
    (if rowPos s core lm then y.1.1
     else if colPosT s core lm && !posVisible s core lm y.2 then .fin false { m := 0, e := 0 }
     else y.1.1.scaled (wScale s pm fmt (if s.deferBit core lm then g / 2 else g) y.2), y.1.2)

/-- The alignment of a driven vector for every row group of a macro that lies inside K (R101 to R103, Table 4.6). -/
def alignT (s : State) (core lm P span groups : Nat) (ys : List (Elem × Rnd)) : Align :=
  alignGroups P span none ((List.range groups).map fun g => drivenT s core lm g ys)

/-- The transposed pass of row group g of tile (kt, nt), a tile of its own (R71, R126). -/
def transTile (core : Nat) (op : Op) (b m kt g nt : Nat) (md : Word) (ys : List (Elem × Rnd)) (s : State) : State :=
  let x := op.opd 0
  let d := (op.opd 1).d
  let lm := tileMac d b kt nt
  let P := dPlanes x.d
  let k0 := 512 * (dKt0 d + kt)
  let al := alignT s core lm P (dAlnSpan x.d) (cdiv (min 512 (op.ext.k - k0)) 64) ys
  let rows := rangeFrom (64 * g) 64
  let t := blankTile op b m nt (ntcValid d (chansAt s core d) op.ext.n) 64
    (rows.map fun r => if k0 + r < op.ext.k then some (k0 + r) else none)
  if (macSt s core lm).openChain then refuseTile core lm t s
  else
    let rp := rowPos s core lm
    let a := nth 0 al.exps g - P + 2
    let t := { t with md := t.md ||| md ||| alignMd al, residue := [0],
                      exps := rows.map fun r => if rp then a + scaleCode s (s.pmIx core lm) r - 127 else a,
                      hidden := rows.map fun r => rp && !posVisible s core lm r }
    let (t, s) := passEffects core lm false (List.range 8) t (transPass s core lm P g (nth [] al.codes g) t) s
    startTile core lm t s

/-- The transposed passes of driven row m (R218): K tiles, then row groups inside K, then N tiles. -/
def doTrans (core : Nat) (op : Op) (b m : Nat) (s : State) : State :=
  let x := op.opd 0
  let d := (op.opd 1).d
  let c := chansAt s core d
  let r := readDriven core op b m (nShare d c op.ext.n) s
  forEach (List.range (ktcValid d op.ext.k)) (fun kt s =>
    forEach (List.range (cdiv (min 512 (op.ext.k - 512 * (dKt0 d + kt))) 64)) (fun g s =>
      forEach (List.range (ntcValid d c op.ext.n)) (fun nt s =>
        let rnd (i : Nat) : Rnd := alignRnd s core op x.td (dAlnRnd x.d) b (c * dNt0 d + i) m
        transTile core op b m kt g nt (r.sliceMd (c * nt) c) (r.slice rnd (c * nt) c) s) s) s) r.s

/-! ### REDUCE -/

/-- A source element as binary32 (R219): exact, but a scaled value beyond the range saturates. A NaN
keeps its sign; that of a NaN scale is open. -/
def elemF32 (x : Elem × Nat) : Word × Bool :=
  if x.2 = 255 then (nanOf [], false)
  else match x.1.scaled x.2 with
    | .fin neg v => if v.m = 0 then (f32Round neg v, false) else f32RoundSat v
    | .inf neg => (if neg then negInf else posInf, false)
    | .nan neg => (nanF32 neg, false)

/-- The terms of output element m of iteration b of REDUCE (R142, R219): they enter the core node. With ACCUM, the
destination's pair enters the root first. -/
def doRed (core : Nat) (op : Op) (b m : Nat) (s : State) : State :=
  let x := op.opd 0
  let y := op.opd 2
  let w := op.word
  let n := op.ext.n
  let red := reductionOf s core op.seq
  let root := (red.map fun r => rootOf s r).getD (some (.core core))
  let mine := isDest s core op.seq
  let acc := decide (iRop w = 0) && iB205 w
  let atCore := decide (root = some (.core core))
  let key : ElemKey :=
    match red with
    | some r => { core := r.destCore, seq := r.destSeq, b := b, m := m, n := 0 }
    | none => { core := core, seq := op.seq, b := b, m := m, n := 0 }
  let off := ((red.bind fun r => r.members.find? fun e => e.1 = core && e.2.1 = op.seq).map (·.2.2)).getD 0
  let one := if acc then 1 else 0
  let base : NodeIn :=
    { key := key, op := iRop w, expected := n + (if atCore then one else 0), first := if atCore && acc then 0 else off + one,
      seq := 0, hi := 0, lo := 0, md := op.md, core := core, td := x.td, ext := op.ext }
  let s :=
    if acc && mine then
      let (l, md, s) := readRun core (iTask w) op.seg 4 y.d (toField (rowAddr y b 0 + 8 * m) 48) 8 s
      let i := { base with hi := BitVec.ofNat 32 (leNat (l.take 4)), lo := BitVec.ofNat 32 (leNat (l.drop 4)), md := op.md ||| md,
                           first := 0 }
      match root with
      | some (.core c) => enterNode (.core c) i s
      | some (.die d) => enterNode (.die d) { i with expected := (red.map fun r => dieExpects s r op.ext 0 d).getD 0 } s
      | some .hub => enterNode .hub { i with expected := (red.map fun r => hubExpects s r op.ext 0).getD 0 } s
      | none => s
    else s
  let r := readRow core (iTask w) op.seg (if dLoc x.d = 0 then 4 else 5) x b m n s
  let es := r.elems x n
  forEach (es.zip (List.range es.length)) (fun e s =>
    let (v, ovf) := elemF32 e.1
    enterNode (.core core)
      { base with seq := off + one + e.2, hi := v,
                  lo := if iRop w = 0 then 0 else dIndexBase x.d |> fun k => BitVec.ofNat 32 (k + e.2),
                  md := op.md ||| r.md ||| (if ovf then mdFlag 7 else 0) } s) r.s

/-! ### Finished output rows -/

/-- The entry of kernel k of a core, if its table has one (R220). -/
def kernelOf (s : State) (core k : Nat) : Option KernelEntry :=
  (s.core core).cfg.bind fun g => if k = 0 then none else g.kernels[k - 1]?

/-- The vector unit fetches the code of a kernel (class 1, R151, R155): bytes out of bound or of another class's bank read as
zeros. -/
def fetchKernel (core task seg k : Nat) (s : State) : List Byte × Word × State :=
  match kernelOf s core k with
  | none => ([], 0, s)
  | some e => spReadS { core := core, task := some task, seg := seg, cls := 1, fetch := true } 0 e.offset e.length s

/-- The vector unit's result as it leaves the unit, with the metadata of its check (R317). -/
def vecResult (core : Nat) (l : List Word) (s : State) : List Word × Word × State :=
  let u := 4 * core + 2
  (wrongHead (unitErrOf s u) l, unitMd s u, unitCheck u (coreLoc s core 1 0 6) s)

/-- The key of R119 from which every draw of an operation in an iteration comes. -/
def drawKey (fn : DWord) (core td seq cls b : Nat) : DWord :=
  mix64 (fn ^^^ mix64 (BitVec.ofNat 64 (b + 1))) ^^^
    ((BitVec.ofNat 64 seq <<< 48) ||| (BitVec.ofNat 64 core <<< 24) ||| (BitVec.ofNat 64 td <<< 8) ||| BitVec.ofNat 64 cls)

/-- A list made exactly n long. -/
def fitTo (n : Nat) (l : List Word) : List Word := l.take n ++ List.replicate (n - l.length) 0

/-- The epilogue of an output row (R217): kernel EPI on the row's binary32 values, with row 0 of TD_V beside it. -/
def epilogue (core : Nat) (op : Op) (b : Nat) (vals : List Word) (s : State) : List Word × Word × State :=
  let v := op.opd 3
  let aux := dColsMax v.d
  let s := passQueue core 21 op.seq s
  let r :=
    if iOp op.word = 0x10 then readRow core (iTask op.word) op.seg (if dLoc v.d = 0 then 4 else 5) v 0 0 aux s
    else { bytes := [], scales := [], per := 1, md := 0, s := s }
  let a := if iOp op.word = 0x10 then (r.elems v aux).map fun x => (elemF32 x).1 else []
  let (code, md1, s) := fetchKernel core (iTask op.word) op.seg (iEpi op.word) r.s
  let i : Config.KernelIn :=
    { code := code, a := vals, b := a, mdw := (s.core core).mdw, rows := 1, cols := vals.length, imm := 0,
      draw := drawKey s.wfn core (op.opd 2).td op.seq 1 b, shp := op.shp }
  let x := vecReads core (iTask op.word) op.seg i s
  let (out, md2, s) := vecResult core (fitTo vals.length (Config.kernel { i with reads := x.data })) x.s
  (out, r.md ||| md1 ||| x.md ||| md2, s)

/-! ### Side records (R143) -/

/-- A value of the side unit's sum: the value, or its square rounded to binary32 and saturated (R143). -/
def sideTerm (sq : Bool) (v : Word) : Word × Bool :=
  if !sq then (v, false) else f32RoundSat ((f32Dy v).mul (f32Dy v))

/-- A share of a row enters a side unit: the better maximum, a NaN never winning (R142), and the exact sum, to which a non-finite
value adds nothing. -/
def SideRec.take (x : SideRec) (core first : Nat) (sq : Bool) (vals : List Word) : SideRec :=
  let ix := vals.zip (rangeFrom first vals.length)
  { x with best := (ix.filter fun v => !f32IsNan v.1).foldl (better 1) x.best,
           sum := x.sum + sumI ((vals.filter f32Finite).map fun v => f32Int (sideTerm sq v).1), seen := x.seen ++ [core] }

/-- The metadata of a share: OUT_OVF of a square that overflows, and NONFIN_IN of a value that is not finite; and the number of
those. -/
def sideMd (sq : Bool) (vals : List Word) : Word × Nat :=
  let fin := vals.filter f32Finite
  let bad := vals.length - fin.length
  ((if fin.any fun v => (sideTerm sq v).2 then mdFlag 7 else 0) ||| (if bad = 0 then 0 else mdFlag 4), bad)

/-- The side tree that an instruction belongs to (R143): its own core alone where the image names none. -/
def sideTreeOf (s : State) (core seq : Nat) : SideTree :=
  (((s.contentOf core).bind fun c => c.sides.find? fun t => t.members.any fun m => m.1 = core && m.2 = seq)).getD
    { members := [(core, seq)], destCore := core, destSeq := seq }

/-- The node whose side unit takes the elements of an instruction: the root that finishes them (R143). -/
def sideNode (s : State) (core seq : Nat) : NodeId :=
  ((destReduction s core seq).bind fun r => rootOf s r).getD (.core core)

/-- The cores of a side tree whose instructions receive elements of the row, by their programs and placements. -/
def sideCores (s : State) (t : SideTree) (e : Ext) : List Nat :=
  nubN ((t.members.filter fun m =>
    let w := instrAt s m.1 m.2
    getsRows s m.1 m.2 w ((s.core m.1).td (iTd0 w)) e).map (·.1))

/-- The partials of a row of an instruction that writes side records. -/
def sideParts (c : Core) (seq b m : Nat) : List SideRec :=
  (c.sideRecs.filter fun x => x.1 = seq && x.2.b = b && x.2.m = m).map (·.2)

/-- Whether every core of the tree has given its share of a row. -/
def sideReady (s : State) (t : SideTree) (e : Ext) (b m : Nat) : Bool :=
  let seen := (sideParts (s.core t.destCore) t.destSeq b m).flatMap (·.seen)
  (sideCores s t e).all seen.contains

/-- A share of a row enters the side unit of its root node; once the row's last has come, the instruction that writes its record,
if it has issued, has an item to write it. -/
def enterSide (core : Nat) (op : Op) (b m first : Nat) (sq : Bool) (vals : List Word) (s : State) : State :=
  let t := sideTreeOf s core op.seq
  let n := sideNode s core op.seq
  let mine (x : Nat × SideRec) : Bool := x.1 = t.destSeq && x.2.node = n && x.2.b = b && x.2.m = m
  let old := (((s.core t.destCore).sideRecs.find? mine).map (·.2)).getD
    { node := n, b := b, m := m, best := noWinner 1, sum := 0, seen := [] }
  let x := old.take core first sq vals
  let s := s.modCore t.destCore fun c =>
    { c with sideRecs := (c.sideRecs.filter fun x => !(mine x)) ++ [(t.destSeq, x)] }
  if sideReady s t op.ext b m then
    modOp t.destCore t.destSeq (fun o => if o.sideTodo.contains (b, m) then { o with items := .side b m :: o.items } else o) s
  else s

/-- A pair formed at a node, with NODE_OVF where it overflows (R135). -/
def sidePair (n : NodeId) (v : Int) (s : State) : (Word × Word × Bool) × State :=
  let p := pairOf v
  (p, whenS p.2.2 (fun t => t.setBit (nodeSticky n) 2) s)

/-- The die of a side unit; 12 for the hub's. -/
def sideDie (n : NodeId) : Nat :=
  match n with
  | .core i => i / 64
  | .die d => d
  | .hub => 12

/-- Join side sums at a node: the sums of the units below come as pairs, that of its own unit is exact (R135, R143). -/
def joinSums (n : NodeId) (l : List SideRec) (s : State) : (Word × Word × Bool) × State :=
  let below := l.filter fun x => x.node ≠ n
  let (v, o, s) := below.foldl (fun (a : Int × Bool × State) x =>
    let (p, s) := sidePair x.node x.sum a.2.2
    (a.1 + pairInt p.1 p.2.1, a.2.1 || p.2.2, s)) (0, false, s)
  let (p, s) := sidePair n (v + sumI ((l.filter fun x => x.node = n).map (·.sum))) s
  ((p.1, p.2.1, p.2.2 || o), s)

/-- The sum of a row's record from its partials, over the levels of the tree: the one unit's pair; or the die node's; or the hub
node's, to which each die sends one pair (R134, R143). -/
def sideSum (l : List SideRec) (s : State) : (Word × Word × Bool) × State :=
  match l, nubN (l.map fun x => sideDie x.node) with
  | [x], _ => sidePair x.node x.sum s
  | _, [d] => joinSums (if d = 12 then .hub else .die d) l s
  | _, ds =>
    let (v, o, s) := (ds.filter fun d => d ≠ 12).foldl (fun (a : Int × Bool × State) d =>
      let (p, s) := joinSums (.die d) (l.filter fun x => sideDie x.node = d) a.2.2
      (a.1 + pairInt p.1 p.2.1, a.2.1 || p.2.2, s)) (0, false, s)
    let (p, s) := sidePair .hub (v + sumI ((l.filter fun x => sideDie x.node = 12).map (·.sum))) s
    ((p.1, p.2.1, p.2.2 || o), s)

/-- The 16 bytes of a side record (R143). -/
def sideBytes (best : Word × Nat) (hi lo : Word) : List Byte :=
  leBytes best.1.toNat 4 ++ leBytes best.2 4 ++ leBytes hi.toNat 4 ++ leBytes lo.toNat 4

/-- Write the side record of a row (R143). -/
def doSide (core : Nat) (op : Op) (b m : Nat) (s : State) : State :=
  let l := sideParts (s.core core) op.seq b m
  let best := (l.map (·.best)).foldl (better 1) (noWinner 1)
  let ((hi, lo, ovf), s) := sideSum l s
  let rest := op.sideTodo.filter fun x => x ≠ (b, m)
  let s := s.modCore core fun c => { c with sideRecs := c.sideRecs.filter fun x => !(x.1 = op.seq && x.2.b = b && x.2.m = m) }
  let (md, s) := writeSide core (iTask op.word) op.seg 3 (op.opd 2) (outRows op) rest b m (sideBytes best hi lo) s
  let md := md ||| (if ovf then mdFlag 7 else 0) ||| (if best = noWinner 1 then mdFlag 8 else 0)
  modOp core op.seq (fun o => { o with sideTodo := rest, md := o.md ||| md }) s

/-! ### Rows -/

/-- The share of a row enters the side unit of its root (R143). -/
def sideOf (core : Nat) (op : Op) (b m : Nat) (vals : List Word) (s : State) : State :=
  if iSide op.word = 0 ∨ iOp op.word = 0x11 ∨ iOp op.word = 0x13 then s
  else
    let sq := decide (iSide op.word = 2)
    let (md, bad) := sideMd sq vals
    enterSide core op b m (rowFirst s core op) sq vals (opMd core op.seq md (addWatch core (op.opd 2).td 0 0 bad s))

/-- Convert and write an output row of binary32 values (R116 to R118, R188), after its epilogue. -/
def convPut (core : Nat) (op : Op) (b m : Nat) (vals : List Word) (md : Word) (s : State) : State :=
  let y := op.opd 2
  let first := rowFirst s core op
  let epi := decide (iEpi op.word ≠ 0) && decide (iOp op.word = 0x10 ∨ iOp op.word = 0x12)
  let (out, md1, s) := if epi then epilogue core op b vals s else (vals, 0, s)
  let idx (i : Nat) : Nat := if iOp op.word = 0x13 then i else m * rowWhole op + first + i
  let o := convRow s core y.td y.d ((out.zip (List.range out.length)).map fun v =>
    (f32Elem v.1, outRnd s core y.td op.seq 1 (dOutRnd y.d) b (idx v.2)))
  let s := countConv core y.td o s
  let md := op.md ||| md ||| md1 ||| o.md ||| mdOfList (s.core core) (opSources op.word)
  let rest := op.todo.filter fun x => x ≠ (b, m)
  let (md2, s) := writeRow core (iTask op.word) op.seg (if epi || decide (iOp op.word = 0x12) then 4 else 3) y op.seq op.xid md
    { b := b, m := m, n := out.length, bytes := packRow (dOutEfmt y.d) o.codes, scales := o.scales,
      all := outRows op, rest := rest } s
  modOp core op.seq (fun o => { o with md := o.md ||| md ||| md2, todo := rest }) s

/-- A finished row of binary32 values: its side partial, and its write, unless a bound has stopped its epilogue (R220). -/
def putRow (core : Nat) (op : Op) (b m : Nat) (vals : List Word) (md : Word) (s : State) : State :=
  let s := sideOf core op b m vals s
  if op.todo.contains (b, m) then convPut core op b m vals md s else opMd core op.seq md s

/-- Write the pairs, or values with indices, of iteration b of REDUCE (R219). -/
def putRaw (core : Nat) (op : Op) (b : Nat) (vals : List (Word × Word)) (md : Word) (s : State) : State :=
  let y := op.opd 2
  let range (x : Nat × Nat) : Nat × Nat := (rowAddr y x.1 0, 8 * op.ext.m)
  let rest := op.todo.filter fun x => x ≠ (b, 0)
  let md := op.md ||| md ||| mdOfList (s.core core) (opSources op.word)
  let (md2, s) := writeRun core (iTask op.word) op.seg 3 y op.seq op.xid md ((allRows op.ext.b 1).map range) (rest.map range)
    (rowAddr y b 0) (vals.flatMap fun v => leBytes v.1.toNat 4 ++ leBytes v.2.toNat 4) s
  modOp core op.seq (fun o => { o with md := o.md ||| md ||| md2, todo := rest }) s

/-- A finished output row of an instruction: converted and written. -/
def doOut (core : Nat) (op : Op) (b m : Nat) (s : State) : State :=
  match op.rows.find? fun r => r.b = b && r.m = m with
  | none => s
  | some r =>
    let first := rowFirst s core op
    let at' (i : Nat) : Word × Word := ((r.vals.find? fun v => v.1 = first + i).map (·.2)).getD (0, 0)
    let vals := (List.range (rowWidth s core op)).map at'
    let s := modOp core op.seq (fun o => { o with rows := o.rows.filter fun x => !(x.b = b && x.m = m) }) s
    if iOp op.word = 0x13 && reduceRaw op.word then putRaw core op b vals r.md s
    else putRow core op b m (vals.map (·.1)) r.md s

/-- An element of an output arrives at its destination (R138); a row with its last element has an item to write it. -/
def deliver (k : ElemKey) (hi lo md : Word) (s : State) : State :=
  match (s.core k.core).op k.seq with
  | none => s
  | some op =>
    let red := iOp op.word = 0x13
    let row := if red then 0 else k.m
    let n := if red then k.m else k.n
    let old := (op.rows.find? fun r => r.b = k.b && r.m = row).getD { b := k.b, m := row, vals := [], md := 0 }
    let r : RowBuf := { old with vals := old.vals ++ [(n, hi, lo)], md := old.md ||| md }
    let rows := (op.rows.filter fun x => !(x.b = k.b && x.m = row)) ++ [r]
    let done := decide (r.vals.length = rowWidth s k.core op)
    modOp k.core k.seq (fun o =>
      { o with rows := rows, items := if done then .out k.b row :: o.items else o.items }) s

end Sys2Proof.Machine
end

