-- ==== Sys2Proof/Machine/AttendItems.lean ====
section
/-! DEFINITION. Reading a tile out of its accumulator set (R109, R131, R318), and the work of ATTEND for one head and
query row (R222 to R226). -/

namespace Sys2Proof.Machine

/-! ### Read-and-clear of a tile -/

/-- What a drained tile gives: the output index and binary32 term of each channel in use, and its metadata. -/
structure Drained where
  terms : List (Nat × Word)
  md : Word
  s : State
  deriving DecidableEq, Repr

/-- The wide channels as the drain reads them; a wrong wide value stands in the first channel of its check group. -/
def wideRead (s : State) (pm half : Nat) (t : Tile) : List Int :=
  (t.wide.zip (List.range t.wide.length)).map fun w =>
    if w.2 % half = 0 then w.1 + SMap.get (fun _ => 0) s.err.wideErr (pm * 2 + w.2 / half) else w.1

/-- The check groups whose channels, none of them saturated, disagree with their residue (R318). -/
def wideCheck (half : Nat) (t : Tile) (w : List Int) : List Nat :=
  (List.range t.residue.length).filter fun q =>
    !(((t.sat.drop (q * half)).take half).any id) &&
      decide (mod255 (sumI ((w.drop (q * half)).take half)) ≠ nth 0 t.residue q)

/-- The term of a channel (R109): one rounding of the exact product, saturated. -/
def drainTerm (t : Tile) (w : List Int) (j : Nat) : Word × Bool :=
  if nth false t.hidden j then (0, false)
  else f32RoundSat ((f32Dy t.dscale).mul { m := nth 0 w j, e := nth 0 t.exps j })

/-- A drain port reads and clears a tile of a macro. The check of the wide residue is on the values that it reads, that of the
residue modulo 7 on the terms that it makes (R317, R318). -/
def drainTile (core lm : Nat) (t : Tile) (s : State) : Drained :=
  let half := if t.residue.length = 1 then 64 else t.wide.length / 2
  let w := wideRead s (s.pmIx core lm) half t
  let bad := wideCheck half t w
  let s := forEach bad (fun _ s => detectFault (coreLoc s core 0 (s.pmacro core lm) 5) s) s
  let l := (t.outs.zip (List.range t.outs.length)).filterMap fun x => x.1.map fun n => (n, drainTerm t w x.2)
  let u := 4 * core
  { terms := (l.map (·.1)).zip (wrongHead (unitErrOf s u) (l.map (·.2.1))),
    md := t.md ||| (if bad.isEmpty then 0 else mdFlag 0) ||| (if l.any (·.2.2) then mdFlag 7 else 0) ||| unitMd s u,
    s := unitCheck u (coreLoc s core 1 0 6) s }

/-! ### ATTEND -/

/-- The progress of one row: running maximum, its key, the sum, the outputs and the metadata. -/
structure AttRow where
  mx : Word := negInf
  arg : Nat := 0xFFFFFFFF
  l : Word := 0
  o : List Word
  md : Word := 0
  s : State
  deriving DecidableEq, Repr

/-- Whether the mask excludes key n for the query at position q (R223). -/
def maskOut (w : BitVec 256) (q n : Nat) : Bool :=
  (iMask w = 1 && decide (q < n)) || (iMask w = 2 && (decide (q < n) || decide (n + iWinLen w ≤ q)))

/-! ### The loop-back buffer (R225) -/

/-- Whether the loop-back buffer of a core has no free entry. -/
def loopFull (c : Core) : Bool := decide (4 ≤ c.loop.length)

/-- The softmax step writes an entry. -/
def loopWrite (core : Nat) (p : List Word) (s : State) : State := s.modCore core fun c => { c with loop := c.loop ++ [p] }

/-- The row feeder reads the oldest entry, which is then free. -/
def loopRead (core : Nat) (s : State) : List Word × State :=
  ((s.core core).loop.headD [], s.modCore core fun c => { c with loop := c.loop.tail })

/-- A pass of ATTEND over one macro, drained at once. A macro whose live set holds an open chain gives zeros (R130). -/
def attPass (core : Nat) (op : Op) (d : BitVec 512) (m lm P span nValid : Nat) (outs : List (Option Nat))
    (xs : List (Elem × Rnd)) (s : State) : Drained :=
  let t : Tile := { blankTile op 0 m 0 1 outs.length outs with dscale := dDscale d }
  if (macSt s core lm).openChain then
    { terms := outs.filterMap fun o => o.map fun n => (n, 0), md := mdFlag 1, s := stickyEvent (drA core 0) 4 s }
  else
    let al := alignFor s core lm P span none xs
    let (t, s) := passInto core lm P nValid al (openTile s core lm P al t) s
    drainTile core lm t (passQueue core (4 + lm / 16) lm s)

/-- The scores of key block kb (R224): the drained values, and −Inf for an excluded key. -/
def attScores (core : Nat) (op : Op) (b m kb q : Nat) (xs : List (Elem × Rnd)) (s : State) : Drained :=
  let d := (op.opd 1).d
  let c := chansAt s core d
  let L := op.ext.n
  let nts := (List.range (512 / c)).filterMap fun i => if kb * (512 / c) + i < ntcValid d c L then some (kb * (512 / c) + i) else none
  let x := op.opd 0
  let r := nts.foldl (fun (a : Drained) nt =>
    let first := c * nt
    let r := attPass core op d m (tileMac d b 0 nt) (dPlanes x.d) (dAlnSpan x.d) (min c (L - first))
      ((List.range c).map fun j => if first + j < L then some (first + j) else none) xs a.s
    { terms := a.terms ++ r.terms, md := a.md ||| r.md, s := r.s }) { terms := [], md := 0, s := s }
  let score (i : Nat) : Word :=
    let n := 512 * kb + i
    if L ≤ n ∨ maskOut op.word q n ∨ !posVisible r.s core (tileMac d b 0 (n / c)) (n % c) then negInf
    else ((r.terms.find? fun t => t.1 = n).map (·.2)).getD negInf
  { r with terms := (List.range 512).map fun i => (i, score i) }

/-- The values of block kb weighted by its probabilities, which the row feeder takes from the loop-back buffer: one binary32 value
for each feature. The probabilities have no descriptor of their own: they count, and draw, under TD_V (DESIGN CHOICE, log entry
124). -/
def attValues (core : Nat) (op : Op) (b m kb : Nat) (s : State) : Drained :=
  let (p, s) := loopRead core s
  let v := op.opd 3
  let d := v.d
  let c := chansAt s core d
  let K := op.ext.k
  let len := min 512 (op.ext.n - 512 * kb)
  let (es, cnt, nan) := replaceNonfin ((p.take len).map fun w => (f32Elem w, 127))
  let s := addWatch core v.td 0 0 cnt s
  let xs := (es.zip (List.range es.length)).map fun e =>
    (e.1, alignRnd s core op v.td (iProbRnd op.word) b (512 * kb + e.2) m)
  if ktcValid d op.ext.n ≤ kb then { terms := [], md := 0, s := s }
  else (List.range (ntcValid d c K)).foldl (fun (a : Drained) nt =>
    let first := c * nt
    let r := attPass core op d m (tileMac d b kb nt) (iProbPlanes op.word) (dAlnSpan d) (min c (K - first))
      ((List.range c).map fun j => if first + j < K then some (first + j) else none) xs a.s
    { terms := a.terms ++ r.terms, md := a.md ||| r.md, s := r.s }) { terms := [], md := replacedMd cnt nan, s := s }

/-- The greatest score of a block and the lowest key that has it. -/
def bestScore (l : List (Nat × Word)) : Nat × Word :=
  l.foldl (fun a x => if f32Lt a.2 x.2 then x else a) (0, negInf)

/-- One key block of a row (R224). -/
def attBlock (core : Nat) (op : Op) (b m q : Nat) (xs : List (Elem × Rnd)) (a : AttRow) (kb : Nat) : AttRow :=
  let all := (rangeFrom (512 * kb) 512).all fun n => decide (op.ext.n ≤ n) || maskOut op.word q n
  if all then a
  else
    let sc := attScores core op b m kb q xs a.s
    let (ib, mb) := bestScore sc.terms
    let mn := f32Max a.mx mb
    let arg := if f32Lt a.mx mb then 512 * kb + ib else a.arg
    let alpha := if a.mx = negInf then 0 else Config.expF32 (f32Add a.mx (f32Flip mn))
    let p := sc.terms.map fun x => if x.2 = negInf then 0 else Config.expF32 (f32Add x.2 (f32Flip mn))
    let l := f32Fma alpha a.l (Config.treeSum p)
    let pv := attValues core op b m kb (loopWrite core p (passQueue core 20 op.seq sc.s))
    let o := (a.o.zip (List.range a.o.length)).map fun x =>
      f32Fma alpha x.1 (((pv.terms.find? fun t => t.1 = x.2).map (·.2)).getD 0)
    { mx := mn, arg := arg, l := l, o := o, md := a.md ||| sc.md ||| pv.md, s := pv.s }

/-- The statistics record of a row (R226). -/
def statBytes (a : AttRow) : List Byte :=
  leBytes a.mx.toNat 4 ++ leBytes a.arg 4 ++ leBytes a.l.toNat 4 ++ List.replicate 4 0

/-- Query row m of head b of ATTEND. The position of row 0 stands first in the constants read at issue. -/
def doAtt (core : Nat) (op : Op) (b m : Nat) (s : State) : State :=
  let x := op.opd 0
  let q := (nth 0 op.imm 0).toNat + m
  let r := readDriven core op b m op.ext.k s
  let xs := r.slice (fun i => alignRnd s core op x.td (dAlnRnd x.d) b i m) 0 op.ext.k
  let a := (List.range (cdiv op.ext.n 512)).foldl (attBlock core op b m q xs)
    { o := List.replicate op.ext.k 0, md := r.sliceMd 0 op.ext.k, s := r.s }
  let empty := decide (f32Abs a.l = 0)
  let out := a.o.map fun v => if empty then 0 else f32Div v a.l
  let md := a.md ||| (if empty then mdFlag 12 else 0)
  let s :=
    if iStatEn op.word then
      let st := op.opd 4
      let rest := op.todo.filter fun x => x ≠ (b, m)
      let (md', s) := writeSide core (iTask op.word) op.seg 4 st (outRows op) rest b m (statBytes a) a.s
      opMd core op.seq md' s
    else a.s
  putRow core op b m out md s

end Sys2Proof.Machine
end

