-- ==== Sys2Proof/Machine/VectorItems.lean ====
section
/-! DEFINITION. The work of VECOP (R220) and of UPDATE (R228 to R237) one iteration at a time. -/

namespace Sys2Proof.Machine

/-- The class that reads an operand for the vector unit: its own in the scratchpad, the DMA engines from HBM. -/
def vecCls (o : Opd) : Nat := if dLoc o.d = 0 then 4 else 5

/-- A tensor of an iteration as rows of binary32 values. -/
structure VecIn where
  rows : List (List Word)
  md : Word
  s : State
  deriving DecidableEq, Repr

/-- Read iteration b of an operand for the vector unit. -/
def readTensor (core : Nat) (op : Op) (o : Opd) (b : Nat) (s : State) : VecIn :=
  (List.range op.ext.m).foldl (fun a m =>
    let r := readRow core (iTask op.word) op.seg (vecCls o) o b m op.ext.n a.s
    { rows := a.rows ++ [(r.elems o op.ext.n).map fun x => (elemF32 x).1], md := a.md ||| r.md, s := r.s })
    { rows := [], md := 0, s := s }

/-- A row of a vector result, converted (R116, R119). -/
def vecConv (s : State) (core : Nat) (op : Op) (b m : Nat) (vals : List Word) : ConvOut :=
  let c := op.opd 2
  convRow s core c.td c.d ((vals.zip (List.range vals.length)).map fun v =>
    (f32Elem v.1, outRnd s core c.td op.seq 1 (dOutRnd c.d) b (m * op.ext.n + v.2)))

/-- The rows m to m + 1, … of a vector result that form one row of blocks along K (R97): the first carries the scales and the
counts. The scales are chosen from the data (R113; log entry 121). -/
def vecConvBlock (s : State) (core : Nat) (op : Op) (b m : Nat) (rows : List (List Word)) : List ConvOut :=
  let c := op.opd 2
  let f := dOutEfmt c.d
  let cols : List (Nat × ConvOut) := (List.range op.ext.n).map fun n =>
    let es := (rows.zip (List.range rows.length)).map fun r =>
      (f32Elem (nth 0 r.1 n), outRnd s core c.td op.seq 1 (dOutRnd c.d) b ((m + r.2) * op.ext.n + n))
    let S := chooseScale f (es.map (·.1))
    (S, convBlock f S es {})
  let tot (p : ConvOut → Nat) : Nat := sumN (cols.map fun x => p x.2)
  (List.range rows.length).map fun i =>
    let o : ConvOut := { codes := cols.map fun x => nth 0 x.2.codes i, scales := cols.map fun x => BitVec.ofNat 8 x.1 }
    if i = 0 then { o with zeros := tot (·.zeros), sats := tot (·.sats), nonfin := tot (·.nonfin),
                           md := cols.foldl (fun a x => a ||| x.2.md) 0 }
    else o

/-- The converted rows of an iteration of a vector result. -/
def vecRows (s : State) (core : Nat) (op : Op) (b : Nat) (kb : Bool) (rows : List (List Word)) : List ConvOut :=
  if kb then
    let bs := dBs true (op.opd 2).d
    let l := chunksOf bs rows
    (l.zip (List.range l.length)).flatMap fun x => vecConvBlock s core op b (x.2 * bs) x.1
  else (rows.zip (List.range rows.length)).map fun r => vecConv s core op b r.2 r.1

/-- Write row m of iteration b of a vector result; its metadata has that of the sources (R210). -/
def putVec (core : Nat) (op : Op) (b m : Nat) (kb : Bool) (o : ConvOut) (s : State) : State :=
  let c := op.opd 2
  let s := countConv core c.td o s
  let rest := op.todo.filter fun x => x ≠ (b, m)
  let md := op.md ||| o.md ||| mdOfList (s.core core) (opSources op.word)
  let (md', s) := writeRow core (iTask op.word) op.seg 4 c op.seq op.xid md
    { b := b, m := m, n := op.ext.n, bytes := packRow (dOutEfmt c.d) o.codes, scales := o.scales,
      all := allRows op.ext.b op.ext.m, rest := rest, kb := kb } s
  modOp core op.seq (fun x => { x with md := x.md ||| o.md ||| md', todo := rest }) s

/-- Iteration b of a vector kernel (R220): its scalar goes to a shape register, or its words to TD_C. -/
def doVec (core : Nat) (op : Op) (b : Nat) (s : State) : State :=
  let (code, md0, s) := fetchKernel core (iTask op.word) op.seg (iKernel op.word) s
  let a := readTensor core op (op.opd 0) b s
  let bb := readTensor core op (op.opd 1) b a.s
  let i : Config.KernelIn :=
    { code := code, a := a.rows.flatten, b := bb.rows.flatten, mdw := (bb.s.core core).mdw, rows := op.ext.m, cols := op.ext.n,
      imm := iImm op.word, draw := drawKey s.wfn core (op.opd 2).td op.seq 1 b, shp := op.shp }
  let v := vecReads core (iTask op.word) op.seg i bb.s
  let i := { i with reads := v.data }
  let s := opMd core op.seq (md0 ||| a.md ||| bb.md ||| v.md) v.s
  let (out, md, s) := vecResult core
    (if iB205 op.word then [Config.kernelScalar i] else fitTo (op.ext.m * op.ext.n) (Config.kernel i)) s
  let s := opMd core op.seq md s
  if iB205 op.word then s.setReg (shpA core (iShpIx op.word)) (out.headD 0)
  else
    let kb := kBlocks s true (op.opd 2)
    let rows := vecRows s core op b kb (chunksOf op.ext.n out)
    forEach ((List.range op.ext.m).zip rows) (fun r s =>
      match (s.core core).op op.seq with
      | none => s
      | some o => putVec core o b r.1 kb r.2 s) s

/-! ### UPDATE -/

/-- The bytes from the first to the last that an iteration range of a tensor covers: start and length. -/
def tensorSpan (o : Opd) (f b m n : Nat) : Nat × Nat :=
  let (lo, hi) := rowSpan o b m
  (lo.toNat, (hi + rowBytes f n - lo).toNat)

/-- The scale bytes of a weight tensor with blocks along K (R97), under the block size bs: start and length. -/
def wScaleSpan (o : Opd) (bs b m n : Nat) : Nat × Nat :=
  (dScaleAddr o.d, ((b - 1) * cdiv (dRowsMax o.d) bs + (cdiv m bs - 1)) * dColsMax o.d + n)

/-- The ping-pong region that a range is, in whole units, on either side (R232; log entry 40). -/
def regionOf (s : State) (r : Nat × Nat) : Option (Nat × Region) :=
  s.regions.find? fun x =>
    (decide (x.2.base = r.1) || decide (x.2.base + x.2.side = r.1)) && decide (x.2.length = cdiv r.2 4096 * 4096)

/-- The state tensors of an optimiser: the descriptors after the masters (Table 9.2). -/
def updStates (w : BitVec 256) : Nat := iKernel w - 1

/-- The ranges that an UPDATE writes: masters, states, codes and block scales. -/
def updRanges (op : Op) : List (Nat × Nat) :=
  let e := op.ext
  let c := op.opd 2
  [tensorSpan (op.opd 1) 11 e.b e.m e.n] ++
    (List.range (updStates op.word)).map (fun i => tensorSpan (op.opd (3 + i)) (dOutEfmt (op.opd (3 + i)).d) e.b e.m e.n) ++
    [tensorSpan c (dOutEfmt c.d) e.b e.m e.n, wScaleSpan c (dBs true c.d) e.b e.m e.n]

/-- The regions that an UPDATE writes. -/
def updRegions (s : State) (op : Op) : List (Nat × Region) := (updRanges op).filterMap (regionOf s)

/-- One byte of an UPDATE goes to the side that is not current (R232); a locked slot range keeps its byte (R255). -/
def updByte (x : Nat × Byte) (w : HbmWr) : HbmWr :=
  match w.s.unitAt x.1 with
  | none => w
  | some u =>
    let a := u.addr (!w.s.sideOf u.key)
    if hbmLocked w.s a then { w with locked := true } else { w with s := hbmStore a x.2 w.s }

/-- A run of bytes of an UPDATE. -/
def updWrite (a : Nat) (l : List Byte) (s : State) : State :=
  let w := ((rangeFrom a l.length).zip l).foldl (fun w x => updByte x w) { s := s }
  whenS w.locked (stickyEvent secImgState 31) w.s

/-- The bytes of a region that an UPDATE does not write come over from the current side, except in units that the frame
has written already (R325). -/
def updCopy (s : State) (r : Nat × Region) : State :=
  forEach (List.range (r.2.length / 4096)) (fun i s =>
    let u : UnitAt := { region := r.1, side0 := r.2.base, sideBytes := r.2.side, ofs := i * 4096 }
    if s.fx.cur.units.contains u.key then s
    else copyUnit u s) s

/-- The constants of the parameter record and the step (Table 9.3, R229), in the order of the instruction's constants. -/
structure UpdPar where
  gscale : Word
  beta1 : Word
  beta2 : Word
  eps : Word
  decay : Word
  bc1 : Word
  bc2 : Word
  clip : Word
  eta : Word
  deriving DecidableEq, Repr, Inhabited

/-- The constants of an UPDATE. -/
def updPar (op : Op) : UpdPar :=
  let w (i : Nat) : Word := nth 0 op.imm i
  { gscale := w 0, beta1 := w 1, beta2 := w 2, eps := w 3, decay := w 4, bc1 := w 5, bc2 := w 6, clip := w 7, eta := w 8 }

/-- What UPDATE computes for one element (R230). -/
structure UpdEl where
  g1 : Word
  m1 : Word
  v1 : Word
  w1 : Word
  deriving DecidableEq, Repr, Inhabited

/-- One element of R230. -/
def updElem (k : Nat) (p : UpdPar) (g m v w : Word) : UpdEl :=
  let one : Word := 0x3F800000
  let g0 := f32Mul g p.gscale
  let g1 := if f32Abs p.clip = 0 then g0 else f32Clip p.clip g0
  let m1 := if k = 2 then f32Fma p.beta1 m g1 else f32Fma p.beta1 m (f32Mul (f32Add one (f32Flip p.beta1)) g1)
  let v1 := f32Fma p.beta2 v (f32Mul (f32Add one (f32Flip p.beta2)) (f32Mul g1 g1))
  let u := if k = 1 then g1 else if k = 2 then m1
    else f32Div (f32Mul m1 p.bc1) (f32Add (f32Sqrt (f32Mul v1 p.bc2)) p.eps)
  { g1 := g1, m1 := m1, v1 := v1, w1 := f32Fma (f32Flip p.eta) (f32Fma p.decay w u) w }

/-- Whether a computed value that the optimiser has is not finite. -/
def UpdEl.bad (k : Nat) (e : UpdEl) : Bool :=
  !f32Finite e.g1 || (decide (2 ≤ k) && !f32Finite e.m1) || (decide (3 ≤ k) && !f32Finite e.v1) || !f32Finite e.w1

/-- A value as it is written: under R237 a non-finite one is the element's current value. -/
def keepFinite (skip : Bool) (v cur : Word) : Word := if skip || f32Finite v then v else cur

/-- Write a row of a state or of the masters: converted under OUT_RND with class 3 (R230). -/
def updRow (core : Nat) (op : Op) (o : Opd) (b m : Nat) (vals : List Word) (s : State) : State :=
  let c := convRow s core o.td o.d ((vals.zip (List.range vals.length)).map fun v =>
    (f32Elem v.1, outRnd s core o.td op.seq 3 (dOutRnd o.d) b (m * op.ext.n + v.2)))
  opMd core op.seq c.md (updWrite (rowAddr o b m) (packRow (dOutEfmt o.d) c.codes) (countConv core o.td c s))

/-- A column of new masters, rows 512t to 512t + 511, as codes and block scales (R114, R231). -/
def updCol (s : State) (core : Nat) (op : Op) (b n t : Nat) (l : List Word) : ConvOut :=
  let c := op.opd 2
  let f := dOutEfmt c.d
  let es := (l.zip (List.range l.length)).map fun v =>
    (f32Elem v.1, outRnd s core c.td op.seq 3 2 b ((512 * t + v.2) * op.ext.n + n))
  let bs := chunksOf (dBs true c.d) es
  let top := (bs.map fun x => chooseScale f (x.map (·.1))).foldl max 0
  bs.foldl (fun o x =>
    let S := max (chooseScale f (x.map (·.1))) (top - 8)
    { (convBlock f S x o) with scales := o.scales ++ [BitVec.ofNat 8 S] }) {}

/-- The narrow image of an iteration (R231): codes and scales to the other side, and the number of elements whose code or
block scale differs from the current side. -/
def updNarrow (core : Nat) (op : Op) (b : Nat) (w1 : List (List Word)) (s : State) : State :=
  let c := op.opd 2
  let f := dOutEfmt c.d
  let bs := dBs true c.d
  let M := op.ext.m
  let cols : List ConvOut := (List.range op.ext.n).map fun n =>
    (chunksOf 512 (w1.map fun r => nth 0 r n)).zip (List.range (cdiv M 512)) |>.foldl (fun o x =>
      let t := updCol s core op b n x.2 x.1
      { o with codes := o.codes ++ t.codes, scales := o.scales ++ t.scales, zeros := o.zeros + t.zeros, sats := o.sats + t.sats,
               nonfin := o.nonfin + t.nonfin, md := o.md ||| t.md }) {}
  let oldRow (s : State) (m : Nat) : List Byte := (hbmRead (rowAddr c b m) (rowBytes f op.ext.n) s).1
  let oldScale (g n : Nat) : Byte := Mem.get s.hbm (hbmReadAddr s (kScaleAddr true c b g n))
  let changed := sumN ((List.range M).map fun m =>
    let row := oldRow s m
    ((cols.zip (List.range cols.length)).filter fun x =>
      decide (elemCode f row x.2 ≠ nth 0 x.1.codes m) || decide (oldScale (m / bs) x.2 ≠ nth 0 x.1.scales (m / bs))).length)
  let s := forEach (List.range M) (fun m s =>
    let (_, md, s) := hbmRead (rowAddr c b m) (rowBytes f op.ext.n) s
    opMd core op.seq md (updWrite (rowAddr c b m) (packRow f (cols.map fun o => nth 0 o.codes m)) s)) s
  let s := forEach (List.range (cdiv M bs)) (fun g s =>
    forEach (cols.zip (List.range cols.length)) (fun x s => updWrite (kScaleAddr true c b g x.2) [nth 0 x.1.scales g] s) s) s
  let s := forEach cols (fun o s => opMd core op.seq o.md (countConv core c.td { o with obs := [] } s)) s
  modOp core op.seq (fun o => { o with changed := o.changed + changed }) s

/-- Iteration b of UPDATE (R230, R231, R236, R237). -/
def doUpd (core : Nat) (op : Op) (b : Nat) (s : State) : State :=
  let k := iKernel op.word
  let skip := s.regBit nmCtrl 1
  let s := if b = 0 then (updRegions s op).foldl updCopy s else s
  let g := readTensor core op (op.opd 0) b s
  let w := readTensor core op (op.opd 1) b g.s
  let m := if 2 ≤ k then readTensor core op (op.opd 3) b w.s else { rows := [], md := 0, s := w.s }
  let v := if 3 ≤ k then readTensor core op (op.opd 4) b m.s else { rows := [], md := 0, s := m.s }
  let s := opMd core op.seq (g.md ||| w.md ||| m.md ||| v.md) v.s
  let at' (t : VecIn) (i j : Nat) : Word := nth 0 (nth [] t.rows i) j
  let gAt (i j : Nat) : Word := if !skip && !f32Finite (at' g i j) then 0 else at' g i j
  let el : List (List UpdEl) := (List.range op.ext.m).map fun i => (List.range op.ext.n).map fun j =>
    updElem k (updPar op) (gAt i j) (at' m i j) (at' v i j) (at' w i j)
  let badG := (g.rows.flatten.filter fun x => !f32Finite x).length
  let bad := badG ≠ 0 || el.flatten.any (UpdEl.bad k)
  let count (p : UpdEl → Word) : Nat := (el.flatten.filter fun e => !f32Finite (p e)).length
  let fix (t : VecIn) (p : UpdEl → Word) : List (List Word) :=
    (el.zip (List.range el.length)).map fun r => (r.1.zip (List.range r.1.length)).map fun e =>
      keepFinite skip (p e.1) (at' t r.2 e.2)
  let put (o : Opd) (rows : List (List Word)) (s : State) : State :=
    forEach (rows.zip (List.range rows.length)) (fun r s => updRow core op o b r.2 r.1 s) s
  let w1 := fix w (·.w1)
  let s := whenS (!skip) (fun s =>
    addWatch core (op.opd 1).td 0 0 (count (·.w1)) (addWatch core (op.opd 0).td 0 0 badG s)) s
  let s := whenS (!skip && decide (2 ≤ k)) (addWatch core (op.opd 3).td 0 0 (count (·.m1))) s
  let s := whenS (!skip && decide (3 ≤ k)) (addWatch core (op.opd 4).td 0 0 (count (·.v1))) s
  let s := put (op.opd 1) w1 s
  let s := whenS (decide (2 ≤ k)) (put (op.opd 3) (fix m (·.m1))) s
  let s := whenS (decide (3 ≤ k)) (put (op.opd 4) (fix v (·.v1))) s
  let s := updNarrow core op b w1 s
  modOp core op.seq (fun o => { o with skip := o.skip || bad }) s

/-- An UPDATE at its completion (R232, R233, R236, R248): skipped, with its event; or its regions and their units are
written in the frame, and its changed elements count for its layer. -/
def settleUpd (core : Nat) (op : Op) (s : State) : State :=
  let md := (s.core core).mdOf (op.opd 0).td
  let skip := s.regBit nmCtrl 1 && (op.skip || bit md 4 || bit md 8 || bit md 5)
  let layer := dLayer (op.opd 1).d
  if skip then
    let a := nmA core 0
    stage0 a 0 stOK (core + layer * 2 ^ 16) ((s.setBit a 0).addCnt (nmA core 4) 0 16 1)
  else
    let rs := updRegions s op
    let keys := rs.flatMap fun r => (List.range (r.2.length / 4096)).map fun i => r.1 * 2 ^ 30 + i
    let s := s.modCur fun f =>
      { f with updates := f.updates ++ rs.map (·.1), units := f.units ++ keys.filter fun k => !f.units.contains k }
    s.modCore core fun c => { c with cur := { c.cur with upd := c.cur.upd ++ [(layer, op.changed)] } }

end Sys2Proof.Machine
end

