-- ==== Sys2Proof/Machine/Engine.lean ====
section
/-! DEFINITION. How the work of an issued instruction goes on (R159, R160, R196, R197): item by item, waiting on slot tags,
emptying slots at their last read, and complete when nothing is left. -/

namespace Sys2Proof.Machine

/-- The accesses of an epilogue's auxiliary operand: every row reads it, and the last one empties its slots in CONSUME mode
(R159, R217). -/
def epiAcs (op : Op) (b m : Nat) : List Acs :=
  if iOp op.word = 0x10 ∧ iEpi op.word ≠ 0 then
    let v := op.opd 3
    (rowAcs false false v 0 0 (dColsMax v.d)).map fun a => if a.tag = 1 ∧ op.todo ≠ [(b, m)] then { a with tag := 2 } else a
  else []

/-- The tagged accesses of an item (R159). -/
def itemAcs (s : State) (core : Nat) (op : Op) (i : Item) : List Acs :=
  let x := op.opd 0
  let y := op.opd 2
  let d := (op.opd 1).d
  let w := op.word
  let rows (wr : Bool) (o : Opd) (b m n : Nat) : List Acs := rowAcs false wr o b m n
  let raw (wr : Bool) (o : Opd) (q n : Nat) : List Acs := if dLoc o.d ≠ 0 then [] else [{ wr := wr, tag := dTag o.d, q := q, n := n }]
  match i with
  | .fwd b m => rows false x b m (kShare d op.ext.k)
  | .chain m => (List.range op.ext.b).flatMap fun b => rows false x b m (kShare d op.ext.k)
  | .trans b m => rows false x b m (nShare d (chansAt s core d) op.ext.n)
  | .att b m => rows false x b m op.ext.k ++ rows true y b m op.ext.k ++ (if iStatEn w then sideAcs (op.opd 4) b m else [])
  | .red b m => rows false x b m op.ext.n ++
      (if iB205 w && isDest s core op.seq then raw false y (toField (rowAddr y b 0 + 8 * m) 48) 8 else [])
  | .mv b r =>
    let kb := moveK s x (op.opd 1)
    rowAcs kb false x b r op.ext.n ++ rowAcs kb true (op.opd 1) b r op.ext.n
  | .shpLoad => raw false x (rowAddr x 0 0) 4
  | .wall _ => []
  | .wpos b n => if iB205 w then [] else rows false x b n (posLen d (s.colPos core (dMbase d)) (s.mfmt core (dMbase d)))
  | .vec b =>
    (List.range op.ext.m).flatMap fun m => rows false x b m op.ext.n ++ rows false (op.opd 1) b m op.ext.n ++
      (if iB205 w then [] else rows true y b m op.ext.n)
  | .upd b => (List.range op.ext.m).flatMap fun m => rows false x b m op.ext.n
  | .out b m =>
    (if iOp w = 0x13 && reduceRaw w then raw true y (rowAddr y b 0) (8 * op.ext.m) else rows true y b m (rowWidth s core op)) ++
      epiAcs op b m
  | .side b m => sideAcs y b m

/-- Do the work of an item. -/
def runItem (core : Nat) (op : Op) (i : Item) (s : State) : State :=
  match i with
  | .fwd b m => doFwd core op b m s
  | .chain m => doChain core op m s
  | .trans b m => doTrans core op b m s
  | .att b m => doAtt core op b m s
  | .red b m => doRed core op b m s
  | .mv b r => doMove core op b r s
  | .shpLoad => doShpLoad core op s
  | .wall b => doWall core op b s
  | .wpos b n => doWpos core op b n s
  | .vec b => doVec core op b s
  | .upd b => doUpd core op b s
  | .out b m => doOut core op b m s
  | .side b m => doSide core op b m s

/-- One item done: the slots that it reads in CONSUME mode, and that no item after it reads, become EMPTY (R159). -/
def stepItem (core : Nat) (op : Op) (i : Item) (rest : List Item) (s : State) : State :=
  let used := consumed s core (iTask op.word) (itemAcs s core op i)
  let later := consumed s core (iTask op.word) (rest.flatMap (itemAcs s core op))
  let s := runItem core op i (modOp core op.seq (fun o => { o with items := rest }) s)
  forEach (used.filter fun x => !later.contains x) (setEmpty core) s

/-- Go on with an instruction until nothing is left, or a tag or a full loop-back buffer holds it (R160, R225); the fuel bounds the
items. -/
def runItems (core seq : Nat) : Nat → State → State
  | 0, s => s
  | n + 1, s =>
    match (s.core core).op seq with
    | none => s
    | some op =>
      match op.items with
      | [] => s
      | i :: rest =>
        if op.waitSlot.isSome || (decide (iOp op.word = 0x12) && loopFull (s.core core)) then s
        else match firstWait s core (iTask op.word) (itemAcs s core op i) with
          | some sl => waitOnSlot core sl (some seq) (modOp core seq (fun o => { o with waitSlot := some sl }) s)
          | none => runItems core seq n (stepItem core op i rest s)

/-- The fuel of an instruction's items: each may leave one more, the side record that it completes. -/
def itemFuel (op : Op) : Nat := 2 * op.items.length + 1

/-- The instruction that writes the side records of another one's tree goes on with those that are ready (R143). -/
def wakeSide (core : Nat) (op : Op) (s : State) : State :=
  let t := sideTreeOf s core op.seq
  if (iOp op.word ≠ 0x10 ∧ iOp op.word ≠ 0x12) ∨ iSide op.word = 0 ∨ (t.destCore = core ∧ t.destSeq = op.seq) then s
  else match (s.core t.destCore).op t.destSeq with
    | none => s
    | some o => runItems t.destCore t.destSeq (itemFuel o) s

/-- Go on with an instruction in flight. A vector kernel runs until its completion (R220; log entry 33). Under the power
cap no macro plane, transposed pair or macro write issues (R356), and nothing does while a plan is awaited (R190). The issue
order of R80 is that in which passes and writes reach the macro: what a later instruction writes there comes before a pass that
is held (DEDUCED, log entry 137). -/
def goOn (core seq : Nat) (s : State) : State :=
  match (s.core core).op seq with
  | none => s
  | some op =>
    if iOp op.word = 0x18 ∨ op.planWait then s
    else if s.pwr.cap && isMacroOp (iOp op.word) then s
    else wakeSide core op (runItems core seq (itemFuel op) s)

/-- Issue an instruction: it goes into flight and its work begins. -/
def issueOp (core : Nat) (op : Op) (s : State) : State := goOn core op.seq (putInFlight core op s)

/-- The destination of an instruction's terms. -/
def destOf (s : State) (core seq : Nat) : Nat × Nat :=
  match reductionOf s core seq with
  | none => (core, seq)
  | some r => (r.destCore, r.destSeq)

/-- Whether no tile of an instruction is in a set of its core, and no term for it is at its core node. -/
def drained (s : State) (core seq : Nat) : Bool :=
  let c := s.core core
  let d := destOf s core seq
  (c.macros.all fun m => (m.2.tiles ++ m.2.mirage.toList).all fun t => decide (t.seq ≠ seq)) &&
    (c.node.accs.all fun a => !(a.key.core = d.1 && a.key.seq = d.2)) &&
    c.node.waits.all fun i => !(i.key.core = d.1 && i.key.seq = d.2)

/-- Whether the work of an instruction in flight is done (Table 8.2). -/
def opDone (s : State) (core : Nat) (op : Op) : Bool := op.finished && drained s core op.seq

/-- INSTRUCTION_COMPLETE (R197): an issued instruction whose work is done completes and signals. -/
def completeInstr (core seq : Nat) (s : State) : State :=
  match (s.core core).op seq with
  | none => s
  | some op =>
    let s := if iOp op.word = 0x18 then runItems core seq op.items.length (popQueue core 22 seq s) else s
    match (s.core core).op seq with
    | none => s
    | some op =>
      if opDone s core op then
        completeOp core op (if iOp op.word = 0x19 then settleUpd core op s else s)
      else s

/-- INSTRUCTION_COMPLETE. -/
def execInstructionComplete (core seq : Nat) (s : State) : Host.Outcome State Fault Refusal :=
  answer s (completeInstr core seq s)

/-! ### Tag waits -/

/-- Land a remote write that waited for its slot (R160, R310); its acknowledgement goes back. -/
def landWaiting (core slot : Nat) (s : State) : State :=
  let here (p : Packet) : Bool :=
    match localAddr s p.addr with
    | .spad c o => decide (c = core) && decide (o / 256 = slot)
    | _ => false
  match s.chip.waitWr.find? here with
  | none => s
  | some p =>
    let s := { s with chip := { s.chip with waitWr := s.chip.waitWr.erase p } }
    let (s, acks) := takeWr p s
    forEach acks sendPacket s

/-- Whether a waiting access can proceed: every tagged access of the instruction's next item, or the write's slot. -/
def waitOver (s : State) (core : Nat) (w : Nat × Option Nat) : Bool :=
  match w.2 with
  | none => !(s.core core).isFull w.1
  | some seq =>
    match (s.core core).op seq with
    | none => true
    | some op =>
      match op.items with
      | [] => true
      | i :: _ => firstWait s core (iTask op.word) (itemAcs s core op i) ≠ some w.1

/-- TAG_WAIT_RELEASE (R160): the oldest access that waits on a slot, and whose tag has changed, proceeds. -/
def releaseWait (core slot : Nat) (s : State) : State :=
  match (s.core core).waits.find? fun w => w.1 = slot && waitOver s core w with
  | none => s
  | some w =>
    let s := s.modCore core fun c => { c with waits := c.waits.erase w }
    match w.2 with
    | none => landWaiting core slot s
    | some seq => goOn core seq (modOp core seq (fun o => { o with waitSlot := none }) s)

/-- TAG_WAIT_RELEASE. -/
def execTagWaitRelease (core slot : Nat) (s : State) : Host.Outcome State Fault Refusal := answer s (releaseWait core slot s)

/-! ### The bound of a vector kernel -/

/-- KIND 6 event of a kernel that its bound has stopped (R220; log entry 33). -/
def boundEvent (core : Nat) (op : Op) (s : State) : State :=
  stageEvent (refusalEvent s core op.seq (iOp op.word)) (opMd core op.seq (mdFlag 1) s)

/-- VECTOR_KERNEL_BOUND (R220): a VECOP stops after a number of its iterations that the spec leaves to time (a free value);
an epilogue loses the row it has in hand. -/
def stopKernel (core seq : Nat) (s : State) : State :=
  match (s.core core).op seq with
  | none => s
  | some op =>
    if iOp op.word = 0x18 ∧ op.items ≠ [] then
      let k := (s.free 16).toNat % op.items.length
      let s := runItems core seq k (popQueue core 22 seq s.usedFree)
      let s := modOp core seq (fun o => { o with items := [], todo := [], waitSlot := none }) s
      let s := s.modCore core fun c => { c with waits := c.waits.filter fun w => w.2 ≠ some seq }
      boundEvent core op s
    else if (iOp op.word = 0x10 ∨ iOp op.word = 0x12) ∧ iEpi op.word ≠ 0 ∧ op.todo ≠ [] then
      boundEvent core op (modOp core seq (fun o => { o with todo := o.todo.tail }) s)
    else s

/-- VECTOR_KERNEL_BOUND. -/
def execVectorKernelBound (core seq : Nat) (s : State) : Host.Outcome State Fault Refusal := answer s (stopKernel core seq s)

end Sys2Proof.Machine
end

