-- ==== Sys2Proof/Machine/Move.lean ====
section
/-! DEFINITION. Issue of the moves and of WRITE_W: the checks of a placement (R82, R173) and of each operand (R211 to R216),
and what goes into flight. -/

namespace Sys2Proof.Machine

/-! ### Placements -/

/-- Whether the fields of a placement lie in the ranges of Table 7.1. -/
def placeFieldsOk (d : BitVec 512) : Bool :=
  decide (1 ≤ dKtc d) && decide (dKtc d ≤ 256) && decide (1 ≤ dNtc d) && decide (dNtc d ≤ 256) &&
    decide (dRidx d < dRepl d) && decide (1 ≤ dMb d) && decide (dMb d ≤ 1024) && decide (1 ≤ dWave d) && decide (dWave d ≤ 16)

/-- The last macro of a placement over nb iterations (R173). -/
def placeLast (d : BitVec 512) (nb : Nat) : Nat := dMbase d + nb * dMstride d + dKtc d * dNtc d - dMstride d - 1

/-- The logical macros of a placement over nb iterations. -/
def placeMacs (d : BitVec 512) (nb : Nat) : List Nat :=
  nubN ((List.range nb).flatMap fun b => rangeFrom (dMbase d + b * dMstride d) (dKtc d * dNtc d))

/-- Whether a role is transient. -/
def transientRole (r : Nat) : Bool := r = 2 || r = 3

/-- The sticky bit of a placement that an instruction may not name (R82, R173): PLACE_RANGE, or OP_REFUSED for an unused
macro or one that the capacity no longer offers. -/
def placeBad (s : State) (core : Nat) (d : BitVec 512) (nb : Nat) : Option (Nat × Nat) :=
  let range := some (sqA core 4, 1)
  if !placeFieldsOk d || decide (255 < placeLast d nb) then range
  else
    let ms := placeMacs d nb
    let m0 := dMbase d
    if ms.any fun m => s.role core m = 0 then some (mcA core 4, 10)
    else if ms.any fun m => s.mfmt core m ≠ s.mfmt core m0 || s.deferBit core m != s.deferBit core m0 ||
        s.colPos core m != s.colPos core m0 then range
    else if ms.any fun m => transientRole (s.role core m) != transientRole (s.role core m0) then range
    else none

/-- Whether the weight format of a transient placement is one that Table 4.3 allows: column positions with DEFER clear, row
positions not in INT2. -/
def transientOk (s : State) (core : Nat) (d : BitVec 512) : Bool :=
  let m := dMbase d
  !transientRole (s.role core m) || (if s.colPos core m then !s.deferBit core m else decide (s.mfmt core m ≠ 2))

/-- The sticky bits of the refusal of a placement that an instruction may not name or use, none where it may (R82, R94, R173). -/
def placeRefused (s : State) (core : Nat) (d : BitVec 512) (nb : Nat) : Option (List (Nat × Nat)) :=
  match placeBad s core d nb with
  | some st => some [st]
  | none => if transientOk s core d then none else some []

/-! ### LOAD, STORE and SEND -/

/-- A memory operand without the extents: LOC, format, TAG and reserved bits in its role (R94, R211, R212). -/
def memRoleOk (wr : Bool) (locs : List Nat) (f : Nat → Bool → Bool) (d : BitVec 512) : Bool :=
  !dReservedBad d && locs.contains (dLoc d) && f (dFmt wr d) (dSc wr d) && decide (dTag d ≠ 3)

/-- Whether rows of an operand are well shaped and inside usable HBM for the extents read at issue. -/
def memExtentOk (s : State) (wr : Bool) (o : Opd) (b m n : Nat) : Bool :=
  rowShapeOk (dFmt wr o.d) o (dColsMax o.d) n && (decide (dLoc o.d ≠ 1) || hbmRangeOk s (kBlocks s wr o) wr o b m n)

/-- The same of an operand of a move: its rows are those that the move names. -/
def moveExtentOk (s : State) (kb wr : Bool) (o : Opd) (b m n : Nat) : Bool :=
  rowShapeOk (dFmt wr o.d) o n n && (decide (dLoc o.d ≠ 1) || hbmRangeOk s kb wr o b m n)

/-- Equal element formats of a source and a destination: the format, SCALED, and the block size of scaled tensors (R213). -/
def sameFormat (src dst : BitVec 512) : Bool :=
  decide (dEfmt src = dOutEfmt dst) && (dScaled src == dOutScaled dst) && (!dScaled src || decide (dBlk src = dOutBlk dst))

/-- Reserved bits of the move form. -/
def moveReserved : List (Nat × Nat) := hdrReserved ++ [(82, 22), (160, 28), (212, 44)]

/-- The extents of a move, read at issue, and how many were clamped (R183, R184). -/
def moveExtents (s : State) (core : Nat) (w : BitVec 256) (d : BitVec 512) : Ext × Nat :=
  clampExt { m := extVal s core (iExt w 104), n := extVal s core (iExt w 132), k := 0, b := bcVal s core (iBc w) }
    { m := dRowsMax d, n := dColsMax d, k := 0, b := dBMax d }

/-- Whether an extent field of a move or a vector form is malformed. -/
def moveExtBad (w : BitVec 256) : Bool := extBad (iExt w 104) || extBad (iExt w 132) || bcBad (iBc w)

/-- A move between two tensors: `srcLoc` and `dstLoc` are the locations its opcode allows (R213). -/
def startMove (srcLoc dstLoc : List Nat) (core : Nat) (w : BitVec 256) (seq : Nat) (s : State) : State :=
  let src := opdOf s core (iTd0 w)
  let dst := opdOf s core (iTd1 w)
  let no := refuseAtIssue core seq w { outs := [dst.td] }
  if anySet w (moveReserved ++ [(205, 1)]) || moveExtBad w || !memRoleOk false srcLoc memFmtOk src.d ||
      !memRoleOk true dstLoc memFmtOk dst.d || !sameFormat src.d dst.d || !outRndOk s dst.d then no s
  else
    let (e, n) := moveExtents s core w src.d
    let s := shapeClamp core n s
    if e.m = 0 ∨ e.n = 0 ∨ e.b = 0 then doneAtIssue core w s
    else if !moveExtentOk s (moveK s src dst) false src e.b e.m e.n || !moveExtentOk s (moveK s src dst) true dst e.b e.m e.n then no s
    else
      let rows := allRows e.b e.m
      issueOp core { seq := seq, word := w, seg := s.seg core, ext := e, opds := [src, dst], items := rows.map fun r => .mv r.1 r.2,
                     todo := rows, md := clampMd n, xid := if dLoc dst.d = 3 then freeXid s core else 0 } s

/-- A LOAD whose destination is a shape register (R213). -/
def startShpLoad (core : Nat) (w : BitVec 256) (seq : Nat) (s : State) : State :=
  let src := opdOf s core (iTd0 w)
  let no := refuseAtIssue core seq w {}
  if anySet w moveReserved || moveExtBad w || !memRoleOk false [0, 1] memFmtOk src.d then no s
  else
    let (e, n) := moveExtents s core w src.d
    let s := shapeClamp core n s
    if e.m = 0 ∨ e.n = 0 ∨ e.b = 0 then doneAtIssue core w s
    else if !moveExtentOk s (kBlocks s false src) false src e.b e.m e.n || decide (e.m ≠ 1) || decide (e.b ≠ 1) ||
        decide (e.n * fmtBits (dEfmt src.d) ≠ 32) then no s
    else issueOp core { seq := seq, word := w, seg := s.seg core, ext := e, opds := [src], items := [.shpLoad], md := clampMd n } s

/-- LOAD (R213). -/
def runLoad (core : Nat) (w : BitVec 256) (s : State) : State :=
  attempt core w (if iB205 w then startShpLoad core w else startMove [0, 1] [0] core w) s

/-- LOAD. -/
def execLoad (core : Nat) (body : BitVec 248) (s : State) : Host.Outcome State Fault Refusal :=
  answer s (runLoad core (fullWord 0x08 body) s)

/-- STORE (R213). -/
def runStore (core : Nat) (w : BitVec 256) (s : State) : State := attempt core w (startMove [0] [1] core w) s

/-- STORE. -/
def execStore (core : Nat) (body : BitVec 248) (s : State) : Host.Outcome State Fault Refusal :=
  answer s (runStore core (fullWord 0x09 body) s)

/-- SEND (R213, R311). -/
def runSend (core : Nat) (w : BitVec 256) (s : State) : State := attempt core w (startMove [0, 1] [3] core w) s

/-- SEND. -/
def execSend (core : Nat) (body : BitVec 248) (s : State) : Host.Outcome State Fault Refusal :=
  answer s (runSend core (fullWord 0x0A body) s)

/-! ### WRITE_W -/

/-- Reserved bits of the write form. -/
def writeReserved : List (Nat × Nat) := hdrReserved ++ [(82, 22), (160, 28), (207, 49)]

/-- The weight format of a placement as an EFMT code. -/
def placeFmt (s : State) (core : Nat) (d : BitVec 512) : Nat := s.mfmt core (dMbase d)

/-- WRITE_W into a resident or streamed placement (R85, R100, R214). -/
def startWriteAll (core : Nat) (w : BitVec 256) (seq : Nat) (src tw : Opd) (nb : Nat) (md : Word) (s : State) : State :=
  let no (st : List (Nat × Nat)) := refuseAtIssue core seq w { sticky := st, outs := [tw.td] }
  let fmt := placeFmt s core tw.d
  let nr := shareRows tw.d
  let nc := shareCols tw.d fmt
  let blk := if s.deferBit core (dMbase tw.d) then 3 else 2
  if !iAll w || iB205 w || decide (dEfmt src.d ≠ fmt) || !dScaled src.d || decide (dBlk src.d ≠ blk) then no [] s
  else if !rowShapeOk fmt src (dColsMax src.d) nc || !srOk s tw.d then no [] s
  else if dLoc src.d ≠ 1 then no [(mcA core 4, 9)] s
  else if !hbmRangeOk s true false src nb nr nc then no [] s
  else if !sourceCurrent s src tw fmt nb then no [(mcA core 4, 9)] s
  else
    let (md', s) := readTileScales src tw fmt nb s
    if !scalesClose s src tw fmt nb then no [(mcA core 4, 10)] s
    else issueOp core { seq := seq, word := w, seg := s.seg core, ext := { m := nr, n := nc, k := 0, b := nb }, opds := [src, tw],
                        items := (List.range nb).map .wall, md := md ||| md' } s

/-- WRITE_W into a transient placement (R215, R216). -/
def startWritePos (core : Nat) (w : BitVec 256) (seq : Nat) (src tw : Opd) (nb : Nat) (md : Word) (s : State) : State :=
  let no := refuseAtIssue core seq w { outs := [tw.td] }
  let col := s.colPos core (dMbase tw.d)
  let fmt := placeFmt s core tw.d
  if iAll w || !outRndOk s tw.d then no s
  else
    let pos := extVal s core (iExt w 104)
    let want := extVal s core (iExt w 132)
    let cnt := min want (dColsMax tw.d)
    let clamped := (decide (cnt < want)).toNat
    let s := shapeClamp core clamped s
    let len := posLen tw.d col fmt
    let held := if col then dNtc tw.d * chansOf fmt else dKtc tw.d * 512
    if cnt = 0 then doneAtIssue core w s
    else if held < pos + cnt then no s
    else if !iB205 w && !memExtentOk s false src nb cnt len then no s
    else issueOp core { seq := seq, word := w, seg := s.seg core, ext := { m := cnt, n := cnt, k := pos, b := nb }, opds := [src, tw],
                        items := (allRows nb cnt).map fun r => .wpos r.1 r.2, md := md ||| clampMd clamped } s

/-- WRITE_W (R173, R212, R214 to R216). -/
def startWriteW (core : Nat) (w : BitVec 256) (seq : Nat) (s : State) : State :=
  let src := opdOf s core (iTd0 w)
  let tw := opdOf s core (iTd1 w)
  let no (st : List (Nat × Nat)) := refuseAtIssue core seq w { sticky := st, outs := [tw.td] }
  let ev := iB205 w
  if anySet w writeReserved || extBad (iExt w 104) || extBad (iExt w 132) || bcBad (iBc w) || (!ev && dReservedBad src.d) ||
      dReservedBad tw.d || decide (dLoc tw.d ≠ 2) || (!ev && !memRoleOk false [0, 1] memFmtOk src.d) then no [] s
  else
    let want := bcVal s core (iBc w)
    let nb := min want (dBMax (if ev then tw.d else src.d))
    let clamped := (decide (nb < want)).toNat
    let s := shapeClamp core clamped s
    match placeRefused s core tw.d nb with
    | some st => no st s
    | none =>
      if nb = 0 then doneAtIssue core w s
      else
        let r := s.role core (dMbase tw.d)
        if ev && (placeMacs tw.d nb).any (fun m => s.role core m ≠ 3) then no [(mcA core 4, 10)] s
        else if r = 1 ∨ r = 4 then startWriteAll core w seq src tw nb (clampMd clamped) s
        else startWritePos core w seq src tw nb (clampMd clamped) s

/-- WRITE_W. -/
def runWriteW (core : Nat) (w : BitVec 256) (s : State) : State := attempt core w (startWriteW core w) s

/-- WRITE_W. -/
def execWriteW (core : Nat) (body : BitVec 248) (s : State) : Host.Outcome State Fault Refusal :=
  answer s (runWriteW core (fullWord 0x0B body) s)

end Sys2Proof.Machine
end

