-- ==== Sys2Proof/Machine/Compute.lean ====
section
/-! DEFINITION. Issue of MATMUL, MATMUL_T, ATTEND and REDUCE with the checks of each (R63, R94, R108, R125, R173, R177,
R182, R184, R203, R217 to R226, R238), and the walk plans of firmware tiling (R189 to R191). -/

namespace Sys2Proof.Machine

/-! ### Operand checks -/

/-- The driven operand of a pass without its extents, but for PLANES (Table 8.8, R94, R108, R120). -/
def drivenOk (s : State) (d : BitVec 512) : Bool :=
  memRoleOk false [0] actFmtOk d && decide (dAlnRnd d ≠ 3) && decide (dAlnSpan d ≤ 16) &&
    !(decide (dAlnRnd d = 2) && s.regBit nmCtrl 0)

/-- A weight or transient operand: LOC 2, reserved bits zero, and a finite DSCALE that is not zero (Table 4.2). -/
def weightOk (d : BitVec 512) : Bool :=
  !dReservedBad d && decide (dLoc d = 2) && f32Finite (dDscale d) && decide (f32Abs (dDscale d) ≠ 0)

/-- The output of an instruction: LOC, format, rounding and TAG. -/
def outputOk (s : State) (vec : Bool) (d : BitVec 512) : Bool :=
  memRoleOk true [0, 1, 3] (if vec then memFmtOk else drainFmtOk) d && outRndOk s d

/-- Whether a non-zero kernel number has an entry in the core's table (R220; log entry 34). -/
def kernelOk (s : State) (core k : Nat) : Bool := k = 0 || (kernelOf s core k).isSome

/-- The extents of a compute instruction as read at issue, with the number that were clamped (R183, R184, R203). -/
def computeExtents (s : State) (core : Nat) (w : BitVec 256) (x t : BitVec 512) : Ext × Nat :=
  let k := if iOp w = 0x13 then 0 else extVal s core (iExt w 160)
  clampExt { m := extVal s core (iExt w 104), n := extVal s core (iExt w 132), k := k, b := bcVal s core (iBc w) }
    { m := dRowsMax x, n := if iOp w = 0x13 then dColsMax x else dColsMax t, k := if iOp w = 0x13 then 0 else dRowsMax t, b := dBMax x }

/-- Whether an extent field of a compute instruction is malformed. -/
def computeExtBad (w : BitVec 256) : Bool :=
  extBad (iExt w 104) || extBad (iExt w 132) || (decide (iOp w ≠ 0x13) && extBad (iExt w 160)) || bcBad (iBc w)

/-! ### The work of an instruction -/

/-- The shape registers as a kernel finds them, for an instruction that runs one (R157, R185). -/
def kernelShp (s : State) (core k : Nat) : List Word :=
  if k = 0 then [] else (List.range 64).map fun i => s.reg (shpA core i)

/-- The passes of a compute instruction on its core, where it holds a tile inside the extents (R176 to R178, R182, R218, R222). -/
def passItems (s : State) (core : Nat) (op : Op) : List Item :=
  let d := (op.opd 1).d
  let w := op.word
  let rows := replicaRows op.mb op.ru (dRidx d) op.ext.m
  let each (f : Nat → Nat → Item) : List Item := (List.range op.ext.b).flatMap fun b => rows.map (f b)
  if !holdsTiles s core d op.ext then []
  else if iOp w = 0x11 then each .trans
  else if iOp w = 0x12 then each .att
  else if iAccum w then rows.map .chain
  else each .fwd

/-- Whether an instruction writes the side records of its tree (R143). -/
def writesSide (s : State) (core : Nat) (op : Op) : Bool :=
  let t := sideTreeOf s core op.seq
  decide (iSide op.word ≠ 0) && decide (iOp op.word ≠ 0x11) && decide (t.destCore = core) && decide (t.destSeq = op.seq) &&
    !(sideCores s t op.ext).isEmpty

/-- The items of a compute instruction on its core, and the rows and side records it is to write, under the plan that the
instruction holds (R176 to R178, R182, R218, R222). -/
def computeWork (s : State) (core : Nat) (op : Op) : Op :=
  { op with
    items := passItems s core op
    todo := if getsRows s core op.seq op.word (op.opd 1).d op.ext then outRows op else []
    sideTodo := if writesSide s core op then outRows op else [] }

/-- Whether every byte that an instruction is to access in HBM is usable: its output rows, its side and statistics records, and
the operand of its epilogue (R212). -/
def outInside (s : State) (op : Op) (n : Nat) : Bool :=
  let y := op.opd 2
  let epi := decide (iOp op.word = 0x10) && decide (iEpi op.word ≠ 0)
  (decide (dLoc y.d ≠ 1) || op.todo.all (rowInHbm s true y n)) && op.sideTodo.all (sideInHbm s y) &&
    (!(decide (iOp op.word = 0x12) && iStatEn op.word) || op.items.isEmpty || (outRows op).all (sideInHbm s (op.opd 4))) &&
    (!epi || op.todo.isEmpty || decide (dLoc (op.opd 3).d ≠ 1) || rowInHbm s false (op.opd 3) (dColsMax (op.opd 3).d) (0, 0))

/-- The side records that an instruction can write as it issues: those whose partials have all come (R143). -/
def sideItems (s : State) (core : Nat) (op : Op) : List Item :=
  (op.sideTodo.filter fun r => sideReady s (sideTreeOf s core op.seq) op.ext r.1 r.2).map fun r => .side r.1 r.2

/-- Whether nothing is left for a core to do or to receive for an instruction. -/
def Op.nothing (op : Op) : Bool := op.items.isEmpty && op.todo.isEmpty && op.sideTodo.isEmpty

/-- Issue a compute instruction whose plan is known. Where it issues no pass its part completes at issue; what its destination
receives is then written behind it (R176, R177; log entry 20). -/
def issueCompute (core : Nat) (op : Op) (s : State) : State :=
  let op := computeWork s core op
  if !outInside s op (rowWidth s core op) then refuseAtIssue core op.seq op.word { outs := opDests op.word } s
  else if op.nothing then doneAtIssue core op.word s
  else
    let all := { op with items := op.items ++ sideItems s core op, signalled := op.items.isEmpty }
    goOn core op.seq (whenS op.items.isEmpty (signalDone core op.word) (putInFlight core all s))

/-- Issue a compute instruction over a placement: under firmware tiling its plan is asked for first, with its extents (R189,
R190). -/
def planCompute (core : Nat) (op : Op) (s : State) : State :=
  let d := (op.opd 1).d
  if s.regBit (sqA core 0) 31 && dFwTile d then
    (putInFlight core { op with planWait := true } s).send (.planRequest core op.seq op.ext)
  else issueCompute core { op with mb := dMb d, ru := dRepl d, wave := dWave d } s

/-! ### MATMUL and MATMUL_T -/

/-- Reserved bits of MATMUL (Table 8.3). -/
def matmulReserved (w : BitVec 256) : List (Nat × Nat) :=
  hdrReserved ++ (if iEpi w = 0 then [(91, 9)] else []) ++ [(100, 4), (216, 40)]
/-- Reserved bits of MATMUL_T; ACCUM must be 0 (R218). -/
def matmulTReserved : List (Nat × Nat) := hdrReserved ++ [(91, 9), (100, 4), (205, 1), (216, 40)]

/-- What the two matrix products check on their operands before their extents. -/
def productStatic (s : State) (core : Nat) (w : BitVec 256) (x t y v : BitVec 512) : Bool :=
  let fwd := decide (iOp w = 0x10)
  let epi := fwd && decide (iEpi w ≠ 0)
  !computeExtBad w && drivenOk s x && weightOk t && outputOk s epi y && !(fwd && decide (iSide w = 3)) &&
    (!epi || (memRoleOk false [0, 1] memFmtOk v && kernelOk s core (iEpi w)))

/-- The shape of an operand's rows, of n columns (R211). -/
def shapeOk (wr : Bool) (o : Opd) (n : Nat) : Bool := rowShapeOk (dFmt wr o.d) o (dColsMax o.d) n

/-- The sticky bit of a refusal of a matrix product that depends on its extents, none where it may run: a chain on column
positions (R125), and then row shapes (R211). -/
def productDynamic (s : State) (core : Nat) (op : Op) : Option (List (Nat × Nat)) :=
  let d := (op.opd 1).d
  let e := op.ext
  if iAccum op.word && decide (1 < e.b) && transientRole (s.role core (dMbase d)) && s.colPos core (dMbase d) then
    some [(drA core 0, 5)]
  else
    let nx := if iOp op.word = 0x11 then nShare d (chansAt s core d) e.n else kShare d e.k
    if !shapeOk false (op.opd 0) nx || !shapeOk true (op.opd 2) (rowWidth s core op) ||
        (decide (iEpi op.word ≠ 0) && decide (iOp op.word = 0x10) && !shapeOk false (op.opd 3) (dColsMax (op.opd 3).d)) then some []
    else none

/-- MATMUL or MATMUL_T at issue. -/
def startProduct (reserved : List (Nat × Nat)) (core : Nat) (w : BitVec 256) (seq : Nat) (s : State) : State :=
  let x := opdOf s core (iTd1 w)
  let t := opdOf s core (iTd0 w)
  let y := opdOf s core (iTdY w)
  let v := opdOf s core (iTdV w)
  let no (st : List (Nat × Nat)) := refuseAtIssue core seq w { sticky := st, outs := [y.td] }
  if anySet w reserved || !productStatic s core w x.d t.d y.d v.d then no [] s
  else if dPlanes x.d < 2 ∨ 12 < dPlanes x.d then no [(mcA core 4, 10)] s
  else if 24 < dPlanes x.d + dAlnSpan x.d then no [] s
  else
    let (e, n) := computeExtents s core w x.d t.d
    let s := shapeClamp core n s
    if iAccum w ∧ (64 < e.b ∨ dMstride t.d ≠ 0) then no [(sqA core 4, 2)] s
    else match placeRefused s core t.d e.b with
      | some st => no st s
      | none =>
        if e.m = 0 ∨ e.n = 0 ∨ e.k = 0 ∨ e.b = 0 then doneAtIssue core w s
        else
          let op : Op := { seq := seq, word := w, seg := s.seg core, ext := e, opds := [x, t, y, v], md := clampMd n,
                           xid := if dLoc y.d = 3 then freeXid s core else 0,
                           shp := kernelShp s core (if iOp w = 0x10 then iEpi w else 0) }
          match productDynamic s core op with
          | some st => no st s
          | none => planCompute core op s

/-- MATMUL (R217). -/
def runMatmul (core : Nat) (w : BitVec 256) (s : State) : State := attempt core w (startProduct (matmulReserved w) core w) s

/-- MATMUL. -/
def execMatmul (core : Nat) (body : BitVec 248) (s : State) : Host.Outcome State Fault Refusal :=
  answer s (runMatmul core (fullWord 0x10 body) s)

/-- MATMUL_T (R218). -/
def runMatmulT (core : Nat) (w : BitVec 256) (s : State) : State := attempt core w (startProduct matmulTReserved core w) s

/-- MATMUL_T. -/
def execMatmulT (core : Nat) (body : BitVec 248) (s : State) : Host.Outcome State Fault Refusal :=
  answer s (runMatmulT core (fullWord 0x11 body) s)

/-! ### ATTEND -/

/-- What R222 refuses before the extents. -/
def attendStatic (s : State) (core : Nat) (w : BitVec 256) (x t y v st : BitVec 512) : Bool :=
  !computeExtBad w && drivenOk s x && weightOk t && weightOk v && outputOk s true y && decide (iSide w ≠ 3) &&
    decide (dKtc t = 1) && decide (dKt0 t = 0) && decide (dNt0 t = 0) && decide (dKt0 v = 0) && decide (dNt0 v = 0) &&
    decide (iMask w ≠ 3) && !(decide (iMask w = 2) && decide (iWinLen w = 0)) &&
    decide (2 ≤ iProbPlanes w) && decide (iProbPlanes w ≤ 12) && decide (iProbRnd w ≠ 3) &&
    !(decide (iProbRnd w = 2) && s.regBit nmCtrl 0) && decide (dAlnSpan v ≤ 16) && decide (iProbPlanes w + dAlnSpan v ≤ 24) &&
    kernelOk s core (iEpi w) && (!iStatEn w || (!dReservedBad st && decide (dLoc st ≠ 2) && srOk s st))

/-- Whether the keys of ATTEND are column positions and its values row positions of transient placements (R222). -/
def attendPlaces (s : State) (core : Nat) (d v : BitVec 512) : Bool :=
  transientRole (s.role core (dMbase d)) && s.colPos core (dMbase d) && transientRole (s.role core (dMbase v)) &&
    !s.colPos core (dMbase v)

/-- The sticky bit of a refusal of ATTEND for its placements. -/
def attendRefused (s : State) (core : Nat) (d v : BitVec 512) (nb : Nat) : Option (List (Nat × Nat)) :=
  ((placeRefused s core d nb).or (placeRefused s core v nb)).or (if attendPlaces s core d v then none else some [])

/-- Whether the extents of ATTEND fit its operands (R211, R222). -/
def attendFits (op : Op) : Bool :=
  decide (op.ext.k ≤ 512) && shapeOk false (op.opd 0) op.ext.k && shapeOk true (op.opd 2) op.ext.k

/-- ATTEND at issue (R222). -/
def startAttend (core : Nat) (w : BitVec 256) (seq : Nat) (s : State) : State :=
  let x := opdOf s core (iTd1 w)
  let t := opdOf s core (iTd0 w)
  let y := opdOf s core (iTdY w)
  let v := opdOf s core (iTdV w)
  let st := opdOf s core (iTdStat w)
  let no (l : List (Nat × Nat)) :=
    refuseAtIssue core seq w { sticky := l, outs := [y.td] ++ (if iStatEn w then [st.td] else []) }
  if anySet w (hdrReserved ++ [(100, 4), (205, 1)]) || !attendStatic s core w x.d t.d y.d v.d st.d then no [] s
  else if dPlanes x.d < 2 ∨ 12 < dPlanes x.d then no [(mcA core 4, 10)] s
  else if 24 < dPlanes x.d + dAlnSpan x.d then no [] s
  else
    let (e, n) := computeExtents s core w x.d t.d
    let s := shapeClamp core n s
    match attendRefused s core t.d v.d e.b with
    | some l => no l s
    | none =>
      if e.m = 0 ∨ e.n = 0 ∨ e.k = 0 ∨ e.b = 0 then doneAtIssue core w s
      else
        let op : Op := { seq := seq, word := w, seg := s.seg core, ext := e, opds := [x, t, y, v, st], md := clampMd n,
                         imm := [s.reg (shpA core (iPosShp w))], xid := if dLoc y.d = 3 then freeXid s core else 0,
                         shp := kernelShp s core (iEpi w) }
        if attendFits op then planCompute core op s else no [] s

/-- ATTEND (R222). -/
def runAttend (core : Nat) (w : BitVec 256) (s : State) : State := attempt core w (startAttend core w) s

/-- ATTEND. -/
def execAttend (core : Nat) (body : BitVec 248) (s : State) : Host.Outcome State Fault Refusal :=
  answer s (runAttend core (fullWord 0x12 body) s)

/-! ### REDUCE -/

/-- Whether an output of 8 bytes for each of m elements fits its row and, where it is written, usable HBM (R211, R212, R219). -/
def rawOutOk (s : State) (mine : Bool) (y : Opd) (b m : Nat) : Bool :=
  decide (8 * m ≤ y.pitch) && (decide (dLoc y.d ≠ 1) || !mine ||
    (let (lo, hi) := rowSpan y b 1
     decide (0 ≤ lo) && decide (hi + 8 * m ≤ s.img.hbmBytes)))

/-- Whether the output of a REDUCE fits: its range counts only on the core that receives it (R138, R212). -/
def reduceOutOk (s : State) (mine : Bool) (w : BitVec 256) (y : Opd) (b m : Nat) : Bool :=
  if reduceRaw w then rawOutOk s mine y b m
  else shapeOk true y m && (decide (dLoc y.d ≠ 1) || !mine || hbmRangeOk s false true y b 1 m)

/-- What REDUCE checks before its extents (R219). -/
def reduceStatic (s : State) (w : BitVec 256) (x y : BitVec 512) : Bool :=
  let acc := iB205 w
  !computeExtBad w && memRoleOk false [0, 1] memFmtOk x && decide (iRop w ≤ 2) && decide (iSide w ≠ 3) &&
    !(acc && (!iPair w || decide (iRop w ≠ 0) || decide (dLoc y = 3))) && !dReservedBad y &&
    [0, 1, 3].contains (dLoc y) && decide (dTag y ≠ 3) &&
    (if reduceRaw w then fmtOk (dOutEfmt y) && outRndOk s y else outputOk s false y)

/-- REDUCE at issue (R219). -/
def startReduce (core : Nat) (w : BitVec 256) (seq : Nat) (s : State) : State :=
  let x := opdOf s core (iTd1 w)
  let y := opdOf s core (iTdY w)
  let no := refuseAtIssue core seq w { outs := [y.td] }
  if anySet w (hdrReserved ++ [(64, 9), (91, 9), (100, 4), (160, 28), (221, 35)]) || !reduceStatic s w x.d y.d then no s
  else
    let (e, n) := computeExtents s core w x.d 0
    let s := shapeClamp core n s
    if e.m = 0 ∨ e.n = 0 ∨ e.b = 0 then doneAtIssue core w s
    else if !memExtentOk s false x e.b e.m e.n || !reduceOutOk s (isDest s core seq) w y e.b e.m then no s
    else
      let op : Op := { seq := seq, word := w, seg := s.seg core, ext := e, opds := [x, { td := 0, d := 0, pitch := 0, bStride := 0, sideStride := 0 }, y],
                       md := clampMd n, items := (allRows e.b e.m).map fun r => .red r.1 r.2,
                       xid := if dLoc y.d = 3 then freeXid s core else 0 }
      issueOp core { op with todo := if isDest s core seq then allRows e.b 1 else [] } s

/-- REDUCE (R219). -/
def runReduce (core : Nat) (w : BitVec 256) (s : State) : State := attempt core w (startReduce core w) s

/-- REDUCE. -/
def execReduce (core : Nat) (body : BitVec 248) (s : State) : Host.Outcome State Fault Refusal :=
  answer s (runReduce core (fullWord 0x13 body) s)

/-! ### Walk plans (R190, R191) -/

/-- Whether a rule covers four extents. -/
def ruleCovers (r : TileRule) (e : Ext) : Bool :=
  decide (r.mLo ≤ e.m) && decide (e.m ≤ r.mHi) && decide (r.nLo ≤ e.n) && decide (e.n ≤ r.nHi) &&
    decide (r.kLo ≤ e.k) && decide (e.k ≤ r.kHi) && decide (r.bLo ≤ e.b) && decide (e.b ≤ r.bHi)

/-- The rules of the policy table for an instruction. -/
def rulesOf (s : State) (core seq : Nat) : List TileRule :=
  (((s.core core).cfg.bind fun g => (g.policies.find? fun p => p.1 = seq).map (·.2))).getD []

/-- Take an instruction out of flight, as if it had completed at issue. -/
def dropOp (core seq : Nat) (s : State) : State := s.modCore core fun c => { c with ops := c.ops.filter fun o => o.seq ≠ seq }

/-- An instruction that awaited its plan is refused as at issue (R190, R198). -/
def refuseOp (core : Nat) (op : Op) (sticky : List (Nat × Nat)) (s : State) : State :=
  signalDone core op.word (refusal core op.seq op.word { sticky := sticky, outs := opDests op.word } (dropOp core op.seq s))

/-- FW_PLAN_REPLY (R190): the first rule that covers the extents fills the plan, or the instruction is refused. -/
def planReply (core seq : Nat) (s : State) : State :=
  match (s.core core).op seq with
  | none => s
  | some op =>
    if !op.planWait then s
    else match (rulesOf s core seq).find? fun r => ruleCovers r op.ext with
      | some r =>
        let op' := computeWork s core { op with planWait := false, mb := r.planMb, ru := r.planRu, wave := r.planWave }
        if !outInside s op' (rowWidth s core op') then refuseOp core op [] s
        else if op'.nothing then signalDone core op.word (dropOp core seq s)
        else
          let all := { op' with items := op'.items ++ sideItems s core op' ++ op.items, signalled := op'.items.isEmpty }
          goOn core seq (whenS op'.items.isEmpty (signalDone core op.word) (s.modCore core fun c => c.putOp all))
      | none => refuseOp core op [(sqA core 4, 5)] s

/-- FW_PLAN_REPLY. -/
def execFwPlanReply (core seq : Nat) (s : State) : Host.Outcome State Fault Refusal := answer s (planReply core seq s)

/-- FW_PLAN_TIMEOUT (R191): no tile of the instruction issues; a detected fault of the die controller. -/
def planTimeout (core seq : Nat) (s : State) : State :=
  match (s.core core).op seq with
  | none => s
  | some op =>
    if !op.planWait then s
    else
      let s := (modOp core seq (fun o => { o with planWait := false, items := [], md := o.md ||| mdFlag 0 }) s).setBit (sqA core 4) 4
      detectFault { unit := 7, die := core / 64, pcore := 0, index := 0, det := 12 } s

/-- FW_PLAN_TIMEOUT. -/
def execFwPlanTimeout (core seq : Nat) (s : State) : Host.Outcome State Fault Refusal := answer s (planTimeout core seq s)

end Sys2Proof.Machine
end

