-- ==== Sys2Proof/Machine/Vector.lean ====
section
/-! DEFINITION. Issue of VECOP (R220) and of UPDATE with its refusals (R228, R229, R232, R233). -/

namespace Sys2Proof.Machine

/-- Reserved bits of the vector form. -/
def vectorReserved : List (Nat × Nat) := hdrReserved ++ [(99, 5), (160, 28), (244, 12)]

/-! ### VECOP -/

/-- VECOP at issue. -/
def startVecop (core : Nat) (w : BitVec 256) (seq : Nat) (s : State) : State :=
  let a := opdOf s core (iVa w)
  let b := opdOf s core (iVb w)
  let c := opdOf s core (iVc w)
  let toShp := iB205 w
  let no := refuseAtIssue core seq w { outs := if toShp then [] else [c.td] }
  if anySet w vectorReserved || moveExtBad w || decide (iKernel w = 0) || !kernelOk s core (iKernel w) ||
      !memRoleOk false [0, 1] memFmtOk a.d || !memRoleOk false [0, 1] memFmtOk b.d || (!toShp && !outputOk s true c.d) then no s
  else
    let (e, n) := moveExtents s core w a.d
    let s := shapeClamp core n s
    if e.m = 0 ∨ e.n = 0 ∨ e.b = 0 then doneAtIssue core w s
    else if !memExtentOk s false a e.b e.m e.n || !memExtentOk s false b e.b e.m e.n ||
        (!toShp && !memExtentOk s true c e.b e.m e.n) then no s
    else
      issueOp core { seq := seq, word := w, seg := s.seg core, ext := e, opds := [a, b, c], md := clampMd n,
                     items := (List.range e.b).map .vec, todo := if toShp then [] else allRows e.b e.m,
                     shp := kernelShp s core (iKernel w),
                     xid := if !toShp && decide (dLoc c.d = 3) then freeXid s core else 0 } s

/-- VECOP (R220). -/
def runVecop (core : Nat) (w : BitVec 256) (s : State) : State := attempt core w (startVecop core w) s

/-- VECOP. -/
def execVecop (core : Nat) (body : BitVec 248) (s : State) : Host.Outcome State Fault Refusal :=
  answer s (runVecop core (fullWord 0x18 body) s)

/-! ### UPDATE -/

/-- The step η = IMM × 2^LR_EXP, if it is a positive, finite, normal binary32 value (R229). -/
def stepOf (imm : Word) (lr : Int) : Option Word :=
  if f32Neg imm ∨ !f32Finite imm ∨ f32Abs imm = 0 then none
  else
    let v : Dy := { (f32Dy imm) with e := (f32Dy imm).e + lr }
    if v.log2 < -126 ∨ 127 < v.log2 then none else some (f32Round false v)

/-- A format of the gradient and of the states: FP32 or BF16, unscaled. -/
def wideFmt (f : Nat) (sc : Bool) : Bool := (f = 9 || f = 11) && !sc

/-- A tensor that UPDATE reads and writes: LOC 1 and the same format in both sets (R228). -/
def updTensorOk (f : Nat → Bool → Bool) (d : BitVec 512) : Bool :=
  memRoleOk false [1] f d && memRoleOk true [1] f d && decide (dEfmt d = dOutEfmt d) && decide (dOutRnd d ≠ 3)

/-- The narrow weight image: a weight format, scaled, with in-array blocks and scales from the data (R228, R231). -/
def narrowOk (d : BitVec 512) : Bool :=
  !dReservedBad d && decide (dLoc d = 1) && decide (dEfmt d ≤ 2) && dScaled d && decide (dOutEfmt d ≤ 2) && dOutScaled d && !dScaleSrc d && decide (2 ≤ dOutBlk d) &&
    decide (dTag d ≠ 3)

/-- The 32 bytes of the parameter record (Table 9.3), read at issue. -/
def readRecord (core : Nat) (w : BitVec 256) (o : Opd) (s : State) : List Byte × Word × State :=
  if dSideLoc o.d then hbmRead (dSideAddr o.d) 32 s
  else spReadS { core := core, task := some (iTask w), seg := s.seg core, cls := 4 } 0 (dSideAddr o.d) 32 s

/-- The descriptors of an UPDATE in the order of its operands: gradient, masters, narrow image, states. -/
def updOpds (s : State) (core : Nat) (w : BitVec 256) : List Opd :=
  [opdOf s core (iVa w), opdOf s core (iVb w), opdOf s core (iVc w)] ++
    (List.range (updStates w)).map fun i => opdOf s core (iVb w + 1 + i)

/-- Whether a region records an UPDATE of the frame before the running one (R233). -/
def updatedLast (s : State) (r : Nat) : Bool :=
  decide (SMap.get (fun _ => 0) s.img.updRec r = s.wfn) && decide (s.wfn ≠ 0) ||
    (decide (s.fx.prev.wfn + 1 = s.wfn) && s.fx.prev.updates.contains r)

/-- What UPDATE checks before its extents (R228). -/
def updateStatic (s : State) (core : Nat) (w : BitVec 256) : Bool :=
  let o := updOpds s core w
  let d (i : Nat) : BitVec 512 := (nth (opdOf s core 0) o i).d
  decide (1 ≤ iKernel w) && decide (iKernel w ≤ 3) && decide (iVb w + updStates w ≤ 511) &&
    memRoleOk false [0, 1] wideFmt (d 0) && updTensorOk (fun f sc => f = 11 && !sc) (d 1) && narrowOk (d 2) &&
    ((o.drop 3).all fun x => updTensorOk wideFmt x.d) && !(dSideLoc (d 1) && decide (s.img.hbmBytes < dSideAddr (d 1) + 32)) &&
    (stepOf (iImm w) (dLrExp (d 1))).isSome

/-- What UPDATE checks with its extents: row shapes, and every range written exactly one region (R232). -/
def updateDynamic (s : State) (op : Op) : Bool :=
  let e := op.ext
  let c := op.opd 2
  memExtentOk s false (op.opd 0) e.b e.m e.n && shapeOk true c e.n &&
    ([1, 3, 4].all fun i => decide (op.opds.length ≤ i) || shapeOk true (op.opd i) e.n) &&
    (updRanges op).all fun r => (regionOf s r).isSome

/-- UPDATE at issue (R228, R229, R232, R233). -/
def startUpdate (core : Nat) (w : BitVec 256) (seq : Nat) (s : State) : State :=
  let no (st : List (Nat × Nat)) := refuseAtIssue core seq w { sticky := st, outs := opDests w }
  let ref := (nmA core 0, 4)
  if anySet w (vectorReserved ++ [(205, 1)]) || moveExtBad w then no [] s
  else if !updateStatic s core w then no [ref] s
  else
    let o := updOpds s core w
    let b := nth (opdOf s core 0) o 1
    let (e, n) := moveExtents s core w (nth (opdOf s core 0) o 0).d
    if n ≠ 0 then no [ref] s
    else if e.m = 0 ∨ e.n = 0 ∨ e.b = 0 then doneAtIssue core w s
    else
      let op : Op := { seq := seq, word := w, seg := s.seg core, ext := e, opds := o, items := (List.range e.b).map .upd }
      if !updateDynamic s op then no [ref] s
      else if (updRegions s op).any fun r => updatedLast s r.1 then no [ref, (nmA core 0, 5)] s
      else
        let (l, md, s) := readRecord core w b s
        let imm := (List.range 8).map fun i => (BitVec.ofNat 32 (leNat ((l.drop (4 * i)).take 4)) : Word)
        issueOp core { op with imm := imm ++ [(stepOf (iImm w) (dLrExp b.d)).getD 0], md := md } s

/-- UPDATE (R228). -/
def runUpdate (core : Nat) (w : BitVec 256) (s : State) : State := attempt core w (startUpdate core w) s

/-- UPDATE. -/
def execUpdate (core : Nat) (body : BitVec 248) (s : State) : Host.Outcome State Fault Refusal :=
  answer s (runUpdate core (fullWord 0x19 body) s)

end Sys2Proof.Machine
end

