-- ==== Sys2Proof/Machine/Drain.lean ====
section
/-! DEFINITION. What the macros, drain ports and seif nodes do on their own (R127 to R142): TREE_EMPTY with the swap, the
read of a drain port, the output of a node, and the fold of a long sum. -/

namespace Sys2Proof.Machine

/-! ### TREE_EMPTY and the drain ports -/

/-- TREE_EMPTY (R127, R128): the complete live tile moves to the mirage set, and the tile behind it becomes live. The drain
request that its port held leaves the queue (R129). A tile whose start was refused follows its own start, whatever has become
of the open chain before it (R133). While the mirage set is occupied, the start of the tile behind is stalled, and counted
once. -/
def treeEmpty (core lm : Nat) (s : State) : State :=
  let m := macSt s core lm
  match m.live with
  | none => s
  | some t =>
    if t.passes ≠ 0 then
      match m.walk.find? fun z => z.passes = 0 with
      | some z =>
        if m.mirage.isNone then
          fillPort core (lm / 16) (dropRequest core lm (setMacSt core lm { m with mirage := some z, walk := m.walk.erase z } s))
        else s
      | none => s
    else if m.mirage.isNone then
      fillPort core (lm / 16) (dropRequest core lm
        (setMacSt core lm { live := m.walk.head?, mirage := some t, walk := m.walk.tail, stalled := false } s))
    else if m.walk.isEmpty || m.stalled then s
    else
      let s := (s.setBit (drA core 0) 6).addCnt (drA core 4) 16 16 1
      setMacSt core lm { m with stalled := true } s

/-- TREE_EMPTY. -/
def execTreeEmpty (core lm : Nat) (s : State) : Host.Outcome State Fault Refusal := answer s (treeEmpty core lm s)

/-- The lowest logical macro of a port that holds a tile in its mirage set (R131). -/
def portMacro (s : State) (core port : Nat) : Option Nat :=
  (rangeFrom (16 * port) 16).find? fun lm => (macSt s core lm).mirage.isSome

/-- The terms of a drained tile enter the core node under the element of their destination (R131, R134). -/
def enterTerms (core : Nat) (t : Tile) (r : Drained) : State :=
  let d := destOf r.s core t.seq
  match (r.s.core core).op t.seq with
  | none => r.s
  | some op =>
    forEach r.terms (fun x s =>
      enterNode (.core core)
        { key := { core := d.1, seq := d.2, b := t.b, m := t.m, n := x.1 }, op := 0, expected := t.expected, seq := t.seqNo,
          hi := x.2, lo := 0, md := r.md, core := core, td := (op.opd 0).td, ext := op.ext } s) r.s

/-- A drain port reads and clears the tile of the lowest logical macro it may serve. -/
def portRead (core port : Nat) (s : State) : State :=
  match portMacro s core port with
  | none => s
  | some lm =>
    let m := macSt s core lm
    match m.mirage with
    | none => s
    | some t => enterTerms core t (drainTile core lm t (setMacSt core lm { m with mirage := none } s))

/-- DRAIN_PORT_READ. -/
def execDrainPortRead (core port : Nat) (s : State) : Host.Outcome State Fault Refusal :=
  answer s (if port < 16 then portRead core port s else s)

/-! ### Seif nodes -/

/-- The element number of a partial on its way to another module. -/
def elemNumber (r : Reduction) (e : Ext) (k : ElemKey) : Nat := (k.b * e.m + k.m) * r.width + k.n

/-- The input that a node's pair, or partial winner, makes at the node above, with the flags of its way there. -/
def upward (a : Acc) (expected seq : Nat) (way : Word) : NodeIn :=
  let (hi, lo, md, _) := a.out
  { key := a.key, op := a.op, expected := expected, seq := seq, hi := hi, lo := lo, md := md ||| way, core := a.key.core, td := a.tdIn,
    ext := a.ext }

/-- The pair of a node goes to the node above, to another module, or to its destination (R134, R138). -/
def passOn (node : NodeId) (r : Option Reduction) (a : Acc) (s : State) : State :=
  let root := (r.map fun r => rootOf s r).getD (some node)
  let (hi, lo, md, _) := a.out
  if root = some node then goOn a.key.core a.key.seq (deliver a.key hi lo (md ||| a.lostMd) s)
  else match r, node with
    | some r, .core i =>
      enterNode (.die (i / 64)) (upward a (dieExpects s r a.ext a.key.n (i / 64)) (corePos s r i) (pathMd (netFlipOf s (i / 64))))
        (netWord (i / 64) s)
    | some r, .die d =>
      if root = some .hub then enterNode .hub (upward a (hubExpects s r a.ext a.key.n) (diePos r d) (pathMd (netFlipOf s 12))) (netWord 12 s)
      else
        sendPacket
          { ptype := 5, dst := r.rootModule, src := s.moduleId, ftag := s.ftag, addr := r.id, md := md.setWidth 14,
            entries := [{ hi := hi, lo := lo, elem := elemNumber r a.ext a.key, seq := diePos r d }] } s
    | _, _ => s

/-- Whether the destination of a pair can take it: an instruction that has not issued leaves it in its node. -/
def canDeliver (s : State) (node : NodeId) (r : Option Reduction) (k : ElemKey) : Bool :=
  ((r.map fun r => rootOf s r).getD (some node) ≠ some node) || ((s.core k.core).op k.seq).isSome

/-- The reduction of an element's destination. -/
def elemReduction (s : State) (k : ElemKey) : Option Reduction := destReduction s k.core k.seq

/-- An accumulator whose sum, or winner, comes out wrong by e from its node, with the flags of a wrong result (R317). -/
def Acc.wrong (e : Int) (md : Word) (a : Acc) : Acc :=
  if e = 0 then a
  else
    { a with
      segs := match a.segs with
        | [] => []
        | x :: rest => { x with sum := x.sum + e } :: rest
      best := a.best.map fun b => (BitVec.ofInt 32 (b.1.toNat + e), b.2)
      md := a.md ||| md }

/-- SEIF_NODE_OUTPUT (R135, R142): a node that holds every input of an element forms the pair, or the winner, and sends it
on. A wrong result that its residues show is a detected fault (R317). -/
def nodeOutput (node : NodeId) (k : ElemKey) (s : State) : State :=
  match (s.node node).find k with
  | none => s
  | some a =>
    let r := elemReduction s k
    let u := nodeUnit node
    let a' := a.wrong (unitErrOf s u) (unitMd s u)
    if a.full && canDeliver s node r k then passOn node r a' (unitCheck u (nodeLoc s node 6) (takePair node a' s)) else s

/-- SEIF_NODE_OUTPUT. -/
def execSeifNodeOutput (node : NodeId) (k : ElemKey) (s : State) : Host.Outcome State Fault Refusal :=
  answer s (nodeOutput node k s)

/-- The draw of a fold (R119, class 2): the element's index in its destination's output, with the core, TD_Y and position of
the instruction that receives it, at every node (DESIGN CHOICE, log entry 118). -/
def foldRnd (s : State) (a : Acc) : Rnd :=
  if s.regBit nmCtrl 0 then .nearest
  else
    let k := a.key
    let w := instrAt s k.core k.seq
    let idx := if iOp w = 0x13 then k.m else k.m * (if iOp w = 0x10 then a.ext.n else a.ext.k) + k.n
    .stochastic (srBits s.wfn k.core (iTdY w) k.seq 2 k.b idx)

/-- SEIF_FOLD (R140, R239): the next segment is rounded to one binary32 value and carried into the segment after it. -/
def nodeFold (node : NodeId) (k : ElemKey) (s : State) : State :=
  match (s.node node).find k with
  | none => s
  | some a =>
    if a.canFold then
      let s := retryWaits node (s.setNode node ((s.node node).put (a.fold (foldRnd s a))))
      (s.setBit (nodeSticky node) 1).addCnt (nodeFolds node) 0 32 1
    else s

/-- SEIF_FOLD. -/
def execSeifFold (node : NodeId) (k : ElemKey) (s : State) : Host.Outcome State Fault Refusal := answer s (nodeFold node k s)

end Sys2Proof.Machine
end

