-- ==== Sys2Proof/Machine/Capacity.lean ====
section
/-! DEFINITION. The capacity record (R266 to R268, Table 10.7), and the states of the links, whose UP set it follows (R294 to
R296). -/

namespace Sys2Proof.Machine

/-- An event of a KIND other than 0 (Table 15.6), raised at the tick of a given FN. -/
def raiseKindAt (fn : DWord) (kind status addr data : Nat) (s : State) : State :=
  pushEvent { kind := kind, status := status, fn := fn, addr := addr, bitIx := 0, data := data } s

/-- An event of a KIND other than 0, raised in the running frame. -/
def raiseKind (kind status addr data : Nat) (s : State) : State := raiseKindAt s.fn kind status addr data s

/-- FN of the tick at which a vote result acts: the tick that follows, or, for one that comes late, the present one (R334). -/
def resultTick (s : State) : DWord := if s.fx.old.isEmpty then s.fn + 1 else s.fn

/-- Usable logical cores of the module. -/
def capCores (s : State) : Nat := sumN s.img.cores
/-- Logical macros that a core of a die has lost. -/
def macrosLostOf (s : State) (core : Nat) : Nat := 256 - s.macrosOf core
/-- Logical macros unavailable in the module, saturating (Table 10.11). -/
def capMacrosLost (s : State) : Nat := min (sumN (allCores.map (macrosLostOf s))) 0xFFFF

/-- The links that are trained and usable (Table 10.7). -/
def capLinks (s : State) : BitVec 32 := BitVec.ofNat 32 (ofBits ((List.range 32).map fun i => s.linkUp i))

/-- Whether a REQUIRE lies within the capacity record (R267). -/
def withinCapacity (s : State) (r : CapRec) : Bool :=
  decide (r.links &&& ~~~(capLinks s) = 0) && decide (r.hbmBytes ≤ s.img.hbmBytes) &&
    ((List.range 12).all fun d => decide (nth 0 r.cores d ≤ s.coresOf d)) &&
    r.macros.all fun m => decide (m.2 ≤ s.macrosOf m.1)

/-- The REQUIREs of the active images. -/
def activeRequires (s : State) : List CapRec :=
  (s.image.map (·.require)).toList ++ s.img.groups.filterMap fun g => (s.slotContent g.2).map (·.require)

/-- The capacity record has changed (Table 10.11, R268): CAP_CHANGED, an event of KIND 4, and a halt request when it
falls below the REQUIRE of an active image; after an accepted IMG_ACTIVATE of a whole image the module sets HALT no more. -/
def capacityChanged (status : Nat) (s : State) : State :=
  let s := (s.setBit fxCapSum 30).modImg fun i => { i with capFn := s.fn }
  let s := raiseKind 4 status 0 (capCores s + capMacrosLost s * 2 ^ 32) s
  whenS (!(s.img.pend.any (·.whole)) && (activeRequires s).any fun r => !withinCapacity s r) (fun t => t.modFx fun f => { f with capHalt := true }) s

/-! ### Link states -/

/-- The identity that this module reports on a link (R295). -/
def trainBlock (s : State) (i : Nat) : Out :=
  .block i (trainWord (s.regFld secIdent 8 12) (s.regFld secIdent 0 8) s.moduleId i)

/-- A link takes a state and an UNTRAINED reason; the capacity record follows the set of UP links (R295). -/
def setLinkState (i st reason : Nat) (s : State) : State :=
  let was := s.linkUp i
  let s := (s.setFld (linkA i 0) 0 3 st).setFld (linkA i 0) 28 4 reason
  let now := decide (st = 2)
  if was = now ∨ s.stage < 7 then s else capacityChanged (if now then stOK else stCapacityLowered) s

/-- A link starts training (R294, R316): its link layer starts afresh and its training records are reset. -/
def startTraining (i : Nat) (s : State) : State :=
  let s := setLinkState i 1 0 s
  let s := (s.setReg (linkA i 0xC) 0).setReg (linkA i 0x14) 0
  let s := s.modLink i fun l => { waiting := l.waiting, backlog := l.backlog, part := l.part, failed := l.failed, cableOff := l.cableOff }
  s.send (trainBlock s i)

end Sys2Proof.Machine
end

