-- ==== Sys2Proof/Machine/RegAccess.lean ====
section
/-! DEFINITION. Register access on the three paths (R12 to R15, R423 to R431): which addresses are registers, what each
reads as, and what a write to it does. -/

namespace Sys2Proof.Machine

/-! ### The map -/

/-- Whether a hub offset holds a register of Table 18.1. -/
def hubMapped (o : Nat) : Bool :=
  let within (lo hi : Nat) : Bool := decide (lo ≤ o) && decide (o ≤ hi)
  decide (o % 4 = 0) &&
  (decide (o = 0x10) || within 0x1000 0x1020 || within 0x2000 0x2008 || decide (o = 0x3000) ||
    within 0x3008 0x3014 || decide (o = 0x4000) || within 0x4008 0x4014 || within 0x5000 0x5024 || decide (o = 0x5100) ||
    within 0x5400 0x57FC || (within 0x6100 0x6318 && decide (o % 16 ≠ 12)) || within 0x7000 0x7018 || within 0x7100 0x7130 ||
    within 0x8000 0x8010 || (within 0x8400 0x87F4 && decide (o % 0x20 ≤ 0x14)) || within 0x9000 0x9004 || within 0x9010 0x9014 ||
    decide (o = 0x9020) || within 0x9028 0x902C || decide (o = 0xA000) || within 0xA008 0xA01C || within 0xB000 0xB008 ||
    within 0xC000 0xC010 || within 0xC100 0xC12C)

/-- Whether an offset r of a per-core block is a register (Tables 3.10, 5.6, 6.7, 7.6, 9.10, 11.6). -/
def coreRegMapped (blk r : Nat) : Bool :=
  let within (lo hi : Nat) : Bool := decide (lo ≤ r) && decide (r ≤ hi)
  decide (r % 4 = 0) &&
  (if blk = 1 then within 0 0x18 || within 0x400 0x7FC
   else if blk = 2 then within 0 0xC
   else if blk = 4 then within 0 0x28 || within 0x100 0x17C
   else if blk = 5 then within 0 8 || within 0x100 0x1FC
   else if blk = 6 then within 0 0x14
   else if blk = 8 then within 0 0xC || (within 0x100 0x298 && decide (r % 16 ≠ 12)) || within 0x800 0xFFC
   else false)

/-- What a register address names: a hub register, a register of a die, a register of a core's block, or a word of the
watch table. -/
inductive RegAt where
  | hub (o : Nat)
  | die (d o : Nat)
  | core (core blk r : Nat)
  | watch (core td w : Nat)
  | none
  deriving DecidableEq, Repr, Inhabited

/-- Decode a register address (R423, R424). -/
def regAt (a : Nat) : RegAt :=
  if 0x700000000000 ≤ a ∧ a < 0x700000010000 then
    (if hubMapped (a - 0x700000000000) then .hub (a - 0x700000000000) else .none)
  else
    let x := a - 0x710000000000
    let d := x / 2 ^ 32
    let o := x % 2 ^ 32
    let blk := o / 0x100000
    let y := o % 0x100000
    if a < 0x710000000000 ∨ 12 ≤ d ∨ a % 4 ≠ 0 then .none
    else if o = 0 ∨ o = 8 ∨ o = 0xC ∨ o = 0x300000 ∨ o = 0x300004 ∨ o = 0x300008 then .die d o
    else if blk = 7 then
      (if y < 0x80000 then .watch (64 * d + y / 8192) (y % 8192 / 16) (y % 16 / 4) else .none)
    else if y / 4096 < 64 && coreRegMapped blk (y % 4096) then .core (64 * d + y / 4096) blk (y % 4096)
    else .none

/-- The status of an access to a register (R12, R14, R428). -/
def accessStatus (s : State) (a : Nat) : Nat :=
  if a % 4 ≠ 0 then stProgramError
  else match regAt a with
    | .none => stProgramError
    | .hub _ => stOK
    | .die d _ => if dieHeldNow s d then stCapacityLowered else stOK
    | .core c _ _ => if dieHeldNow s (c / 64) || !s.coreOffered c then stCapacityLowered else stOK
    | .watch c _ _ => if dieHeldNow s (c / 64) || !s.coreOffered c then stCapacityLowered else stOK

/-! ### Values -/

/-- A bit field for a computed register. -/
def at' (v lo : Nat) : Nat := v * 2 ^ lo

/-- Whether any stored register of the module that satisfies p has a W1C bit set. -/
def anyW1C (s : State) (p : Nat → Bool) : Bool := s.regs.any fun e => p e.1 && decide (e.2 &&& w1cMask e.1 ≠ 0)

/-- The core of a die register address, with its block. -/
def dieRegOwner (a : Nat) : Nat × Nat × Nat :=
  let x := a - 0x710000000000
  let o := x % 2 ^ 32
  (x / 2 ^ 32, o / 0x100000, o % 0x100000 / 4096)

/-- The FX_DIE_SUM bit of a die block (Table 18.4). -/
def dieSumBit (blk : Nat) : Nat :=
  if blk = 1 then 0 else if blk = 2 then 1 else if blk = 3 then 2 else if blk = 4 then 3
  else if blk = 5 then 4 else if blk = 6 then 5 else 6

/-- FX_DIE_SUM of CD d (R431). -/
def dieSum (s : State) (d : Nat) : Nat :=
  ofBits ((List.range 7).map fun i => anyW1C s fun a =>
    let w := dieRegOwner a
    decide (0x710000000000 ≤ a) && decide (w.1 = d) && decide (dieSumBit w.2.1 = i) && decide (w.2.1 ≠ 0) &&
      (decide (w.2.1 = 3) || s.coreOffered (64 * d + w.2.2)))

/-- FX_DIE_CORES of CD d (R431). -/
def dieCores (s : State) (d : Nat) : Nat :=
  ofBits ((List.range 64).map fun c => s.coreOffered (64 * d + c) && anyW1C s fun a =>
    let w := dieRegOwner a
    decide (0x710000000000 ≤ a) && decide (w.1 = d) && decide (w.2.1 ≠ 0) && decide (w.2.1 ≠ 3) && decide (w.2.2 = c))

/-- The FX_SUM bit of a hub register offset (Table 18.3); 0 for none. -/
def hubSumBit (o : Nat) : Nat :=
  if o = 0x1018 then 1 else if o = 0x2000 then 2 else if o = 0x4000 then 3 else if o = 0x5008 then 4
  else if o = 0x5100 then 5 else if 0x6100 ≤ o ∧ o < 0x6320 then 6 else if o = 0x7014 then 7 else if o = 0x8008 then 8
  else if 0x8400 ≤ o ∧ o < 0x8800 then 9 else if o = 0x9020 then 10 else if o = 0xB004 then 11 else if o = 0xC008 then 12
  else 0

/-- FX_SUM (R430). -/
def hubSum (s : State) : Nat :=
  let hub := (List.range 12).map fun i => anyW1C s fun a =>
    decide (a < 0x710000000000) && decide (hubSumBit (a - 0x700000000000) = i + 1)
  let dies := (List.range 12).map fun d => decide (dieSum s d ≠ 0)
  let l := hub ++ [false, false, false] ++ dies
  (l.any id).toNat + 2 * ofBits l

/-- SEC_IMG_STATE without its sticky bit (Table 10.10). -/
def imgStateReg (s : State) : Nat :=
  let slot (i : Nat) : Nat := (nth {} s.img.slots i).state
  let p := match s.img.pend with
    | none => 0
    | some p => at' p.deferrals 20 + at' 1 19 + at' p.slot 17
  let w := match s.img.whole with
    | none => 0
    | some i => at' 1 16 + at' i 14
  p + w + slot 0 + at' (slot 1) 2 + at' (slot 2) 4 + at' (slot 3) 6

/-- FX_STATUS.ATTEMPTS: the failed attempts of the oldest uncommitted work frame, a failed vote being counted as soon as the
module holds its result (R321, Table 13.13). -/
def openAttempts (s : State) : Nat :=
  match s.fx.received.find? fun r => r.fn = s.fx.nextFn, (s.fx.old ++ [s.fx.prev]).find? fun f => f.fn = s.fx.nextFn with
  | some r, some h => if !s.fx.applied && decide (r.flags ≠ 0) && decide (h.kind ≠ .quiet) then r.attempt else s.fx.attempts
  | _, _ => s.fx.attempts

/-- FX_STATUS (Table 13.13). -/
def fxStatusReg (s : State) : Nat :=
  let d := (s.image.map (·.domain)).getD default
  at' (min (openAttempts s) 15) 20 + at' (d.treeD % 16) 16 + at' (d.depth % 16) 12 + at' s.fx.halt 6 + at' (decide (s.fx.halt ≠ 0)).toNat 5 +
    at' s.fx.hold.toNat 4 + at' (!s.fx.retires.isEmpty).toNat 3

/-- NV_STATUS (Table 16.12). -/
def nvStatusReg (s : State) : Nat :=
  match s.sec.queue with
  | [] => 0
  | r :: rest =>
    if s.sec.running then at' 1 31 + at' (rest.length % 16) 24 + at' (r.group % 256) 16 + r.pages.length % 65536
    else at' ((r :: rest).length % 16) 24

/-- The number of estimate entries of a core still cold (R244). -/
def coldEntries (s : State) (core : Nat) : Nat := min 4096 ((s.core core).est.filter fun e => e.2.cold).length

/-- A hub register's value. -/
def hubValue (s : State) (o : Nat) : Word :=
  let lo (x : DWord) : Word := x.setWidth 32
  let hi (x : DWord) : Word := (x >>> 32).setWidth 32
  let st := s.reg (hubA o)
  if o = 0x1008 then lo s.fn else if o = 0x100C then hi s.fn
  else if o = 0x4000 then (st &&& 0x80000000) ||| BitVec.ofNat 32 (imgStateReg s)
  else if o = 0x4008 then lo ((s.image.map (·.imageId)).getD 0) else if o = 0x400C then hi ((s.image.map (·.imageId)).getD 0)
  else if o = 0x4010 then lo s.img.actA else if o = 0x4014 then hi s.img.actA
  else if o = 0x5004 then BitVec.ofNat 32 (fxStatusReg s)
  else if o = 0x5010 then lo s.wfn else if o = 0x5014 then hi s.wfn
  else if o = 0x5018 then BitVec.ofNat 32 (min (s.fn - s.wfn).toNat 0xFFFFFFFF)
  else if o = 0x5020 then BitVec.ofNat 32 (hubSum s)
  else if o = 0x5100 then (st &&& 0xC0000000) ||| BitVec.ofNat 32 (at' (capCores s) 16 + capMacrosLost s)
  else if 0x7100 ≤ o ∧ o ≤ 0x7130 then
    let d := (o - 0x7100) / 4
    (st &&& 0xF00) ||| BitVec.ofNat 32 (at' (nth 0 s.pwr.tj d % 256) 16 + (nth false s.bist.thermHeld d).toNat)
  else if o = 0x9000 ∨ o = 0x9010 then
    let p := (o - 0x9000) / 0x10
    (st &&& 1) ||| (if s.regFld ftSrc 0 2 = 2 ∧ s.regFld ftSrc 2 1 = p then 2 else 0)
  else if o = 0x9028 then BitVec.ofNat 32 s.port.seq else if o = 0x902C then BitVec.ofNat 32 (s.port.seq / 2 ^ 32)
  else if o = 0xB000 then BitVec.ofNat 32 (nvStatusReg s)
  else if o = 0xC000 then s.bist.pendCtrl.getD st
  else if o = 0xC010 then 0
  else if 0xC100 ≤ o ∧ o ≤ 0xC12C then
    (st &&& 3) ||| BitVec.ofNat 32 (at' ((nth none s.bist.coreTest ((o - 0xC100) / 4)).getD 255) 16)
  else if 0x6100 ≤ o ∧ o < 0x6320 ∧ o % 16 = 0 then st &&& 0x3FF
  else st

/-- A core register's value. -/
def coreValue (s : State) (core blk r : Nat) : Word :=
  let st := s.reg (coreA (blk * 0x100000) core r)
  if blk = 1 ∧ 0x400 ≤ r ∧ s.macrosOf core ≤ (r - 0x400) / 4 then st &&& 0xFFFFFFF8
  else if blk = 6 ∧ r = 0xC then s.fx.watchFn.setWidth 32
  else if blk = 6 ∧ r = 0x10 then (s.fx.watchFn >>> 32).setWidth 32
  else if blk = 6 ∧ r = 0x14 then (st &&& 0x10000) ||| BitVec.ofNat 32 (coldEntries s core)
  else if blk = 8 ∧ 0x800 ≤ r then
    let k := (r - 0x800) / 4
    BitVec.ofNat 32 ((s.core core).token (2 * k) + 65536 * (s.core core).token (2 * k + 1))
  else st

/-- A word of the watch table (R247). -/
def watchValue (s : State) (core td w : Nat) : Word :=
  let r := SMap.get (fun _ => {}) (s.core core).watch td
  if w = 0 then BitVec.ofNat 32 r.zeros else if w = 1 then BitVec.ofNat 32 r.sats
  else if w = 2 then BitVec.ofNat 32 r.nonfin else r.md

/-- The live value of a register; zero where none is read. -/
def regValue (s : State) (a : Nat) : Word :=
  if accessStatus s a ≠ stOK then 0
  else match regAt a with
    | .none => 0
    | .hub o => hubValue s o
    | .die d o =>
      if o = 0 then BitVec.ofNat 32 (dieSum s d) else if o = 8 then BitVec.ofNat 32 (dieCores s d)
      else if o = 0xC then BitVec.ofNat 32 (dieCores s d / 2 ^ 32) else s.reg (dieA d o)
    | .core c blk r => coreValue s c blk r
    | .watch c td w => watchValue s c td w

/-! ### Reading -/

/-- Whether an address is the low word of a 64-bit quantity (R13). -/
def isLow64 (a : Nat) : Bool :=
  match regAt a with
  | .hub o => [0x1008, 0x3008, 0x3010, 0x4008, 0x4010, 0x5010, 0x9028, 0xA008, 0xA010].contains o ||
      (decide (0x5400 ≤ o) && decide (o ≤ 0x57FC) && decide (o % 16 = 8))
  | .die _ o => decide (o = 8)
  | .core _ blk r => (decide (blk = 1) && decide (r = 0x10)) || (decide (blk = 4) && decide (r = 0x10)) ||
      (decide (blk = 6) && decide (r = 0xC))
  | _ => false

/-- The latch of a path (R427). -/
def State.latch (s : State) (p : Path) : Option Latch :=
  match p with
  | .port0 => s.port.latch0
  | .port1 => s.port.latch1
  | .service => s.svc.latch

/-- Load the latch of a path. -/
def setLatch (p : Path) (l : Latch) (s : State) : State :=
  match p with
  | .port0 => s.modPort fun x => { x with latch0 := some l }
  | .port1 => s.modPort fun x => { x with latch1 := some l }
  | .service => s.modSvc fun x => { x with latch := some l }

/-- The entry of the fault log that a register belongs to. -/
def logEntryAt (a : Nat) : Option Nat :=
  match regAt a with
  | .hub o => if 0x5400 ≤ o ∧ o ≤ 0x57FC then some ((o - 0x5400) / 16) else none
  | _ => none

/-- Whether a register is a TK_Q_PEAK. -/
def isPeak (a : Nat) : Bool :=
  match regAt a with
  | .hub o => decide (0x6100 ≤ o) && decide (o < 0x6320) && decide (o % 16 = 8)
  | .core _ blk r => decide (blk = 8) && decide (0x100 ≤ r) && decide (r < 0x2A0) && decide (r % 16 = 8)
  | _ => false

/-- A read of TK_Q_PEAK sets PEAK to the present depth (R284). -/
def peakRead (a : Nat) (s : State) : State := s.setFld a 0 9 (s.regFld (a - 4) 0 9)

/-- A register read on a path, with its value and status (R13, R284, R427). -/
def readReg (p : Path) (a : Nat) (s : State) : Word × Nat × State :=
  let st := accessStatus s a
  let v := match s.latch p with
    | some l => if l.addr + 4 = a ∧ isLow64 l.addr ∧ st = stOK then l.v else regValue s a
    | none => regValue s a
  let s' := whenS (decide (st = stOK) && isLow64 a) (setLatch p { addr := a, v := regValue s (a + 4) }) s
  let s' := whenS (decide (st = stOK) && isPeak a) (peakRead a) s'
  let s' := match logEntryAt a with
    | some i => s'.modFx fun f => { f with keys := f.keys.map fun k => if k.ix = i then { k with read := true } else k }
    | none => s'
  (v, st, s')

/-! ### Writing -/

/-- The writable bits of a register. -/
def rwMask (a : Nat) : Word :=
  match regAt a with
  | .hub o =>
    if o = 0x1000 then 0xFFFFF else if o = 0x1004 then 0x3F else if o = 0x1010 then 0x37 else if o = 0x1020 then 0xFFFF
    else if o = 0x3000 then 0x7FF73 else if o = 0x3008 ∨ o = 0x3010 then 0xFFFFFFFF
    else if o = 0x300C ∨ o = 0x3014 then 0xFFFF else if o = 0x5000 then 0xF
    else if 0x6100 ≤ o ∧ o < 0x6320 ∧ o % 16 = 0 then 0x3FF
    else if o = 0x7000 then 0x1F07FF else if o = 0x7004 then 0x7FFFFFF else if o = 0x7008 then 0xFF0000FF else 0
  | .core _ blk r =>
    if blk = 1 then (if r = 0 then 0xF000 else if r = 0x18 then 0xFF00 else if 0x400 ≤ r then 0x7F else 0)
    else if blk = 4 then
      (if r = 0x18 then 0x1FFF3FFF else if r = 0x20 ∨ r = 0x24 then 0xFFFFFFFF else if 0x100 ≤ r then 0x7FFF3FFF else 0)
    else if blk = 5 then (if 0x100 ≤ r then 0xFFFFFFFF else 0)
    else if blk = 8 then
      (if r = 0xC then 0xFFFF else if 0x100 ≤ r ∧ r < 0x2A0 ∧ r % 16 = 0 then 0x3FF else 0)
    else 0
  | _ => 0

/-- Whether a register refuses writes while an image is active (Tables 18.1 and 18.2). -/
def lockedReg (a : Nat) : Bool :=
  match regAt a with
  | .hub o => [0x1000, 0x1004, 0x1010, 0x3000, 0x3008, 0x300C, 0x3010, 0x3014, 0x5000, 0x7000, 0x7004, 0x8004].contains o
  | .core _ blk r =>
    (decide (blk = 1) && (decide (r = 0) || decide (0x400 ≤ r))) ||
    (decide (blk = 4) && (decide (r = 0x18) || decide (r = 0x20) || decide (r = 0x24) || decide (0x100 ≤ r))) ||
    (decide (blk = 5) && decide (0x100 ≤ r)) || (decide (blk = 8) && decide (r = 0xC))
  | _ => false

/-- Whether bank b of a logical core is retired. -/
def bankRetired (s : State) (core b : Nat) : Bool := s.isRetired 26244 (s.pcIx core * 32 + b)

/-- Whether the value is one that the register's rule refuses. -/
def badValue (s : State) (a : Nat) (v : Word) : Bool :=
  let out (x lo hi : Nat) : Bool := decide (x < lo) || decide (hi < x)
  match regAt a with
  | .hub o =>
    if o = 0x1000 then out (fld v 0 20) 4000 1000000 else if o = 0x1004 then decide (50 < fld v 0 6)
    else if o = 0x3000 then out (fld v 8 11) 1 1024 else if o = 0x5000 then decide (fld v 0 4 < 4)
    else if 0x6100 ≤ o ∧ o < 0x6320 ∧ o % 16 = 0 then
      let q := (o - 0x6100) / 16
      decide (queueDepth true q < fld v 0 10) || (bit v 31 && decide (2 ≤ q))
    else if o = 0x7000 then out (fld v 0 11) 8 1024 || out (fld v 16 5) 1 20
    else if o = 0x7004 then out (fld v 16 11) 1 1024
    else if o = 0x7008 then out (fld v 0 8) 1 50 || out (fld v 24 8) 85 100
    else if o = 0xC000 then out (fld v 0 16) 64 65535 && decide (fld v 0 16 ≠ 0)
    else false
  | .core c blk r =>
    if blk = 1 then
      (if r = 0 then decide (fld v 12 4 = 0)
       else if 0x400 ≤ r then decide (fld v 3 2 = 3) || decide (4 < fld v 0 3) else false)
    else if blk = 4 ∧ (r = 0x20 ∨ r = 0x24) then
      (List.range 16).any fun i => decide (fld v (2 * i) 2 = 3) != bankRetired s c (i + if r = 0x20 then 0 else 16)
    else if blk = 8 ∧ 0x100 ≤ r ∧ r < 0x2A0 ∧ r % 16 = 0 then
      decide (queueDepth false ((r - 0x100) / 16) < fld v 0 10) || (bit v 31 && s.active)
    else false
  | _ => false

/-- The counters that the clearing of sticky bits clears: the bits that must all be clear, then the counter's address,
lowest bit and width. -/
def countersOf (a : Nat) : List (Nat × Nat × Nat × Nat) :=
  match regAt a with
  | .hub o =>
    if o = 0x1018 then [(1, ftCnt, 16, 16), (0x20, ftCnt, 0, 16)]
    else if o = 0x2000 then [(2, hubNodeA 4, 0, 32)]
    else if o = 0x5008 then
      [(2, fxCnt, 16, 16), (1, fxCnt, 0, 16), (0x400, fxLogHead, 16, 16), (0x800, fxEvtDrops, 0, 16)]
    else if 0x6100 ≤ o ∧ o < 0x6320 ∧ o % 16 = 4 then [(0x40000, a + 4, 16, 16)]
    else if o = 0x7014 then [(8, pgCnt, 16, 16), (4, pgCnt, 0, 16)]
    else if o = 0x8008 then [(1, clWclCnt, 16, 16), (2, clWclCnt, 0, 16), (4, clCnt, 16, 16), (8, clCnt, 0, 16)]
    else if 0x8400 ≤ o ∧ o < 0x8800 ∧ o % 0x20 = 4 then [(4, a + 4, 16, 16), (1, a + 4, 0, 16)]
    else if o = 0x9020 then
      [(2, dpPortCnt 0, 16, 16), (2, dpPortCnt 1, 16, 16), (1, dpPortCnt 0, 0, 16), (1, dpPortCnt 1, 0, 16)]
    else if o = 0xC008 then [(0x10, biCnt, 16, 16), (8, biCnt, 0, 16)]
    else []
  | .die d o => if o = 0x300000 then [(2, dieNodeA d 4, 0, 32)] else []
  | .core c blk r =>
    if blk = 1 ∧ r = 4 then [(1, mcA c 8, 16, 16), (0xC, mcA c 8, 0, 16)]
    else if blk = 2 ∧ r = 0 then [(0x40, drA c 4, 16, 16), (1, drA c 4, 0, 16), (2, drA c 8, 0, 32)]
    else if blk = 4 ∧ r = 4 then [(1, spA c 8, 16, 16), (8, spA c 8, 0, 16)]
    else if blk = 5 ∧ r = 4 then [(1, sqA c 8, 16, 16), (8, sqA c 8, 0, 16)]
    else if blk = 6 ∧ r = 0 then [(4, nmA c 4, 16, 16), (1, nmA c 4, 0, 16)]
    else if blk = 8 ∧ r = 0 then [(1, tkA c 4, 16, 16), (2, tkA c 4, 0, 16)]
    else if blk = 8 ∧ 0x100 ≤ r ∧ r < 0x2A0 ∧ r % 16 = 4 then [(0x40000, a + 4, 16, 16)]
    else []
  | _ => []

/-- Clear the counters whose bits a write has cleared. -/
def clearCounters (a : Nat) (v : Word) (s : State) : State :=
  forEach (countersOf a) (fun e t =>
    whenS (decide (v.toNat &&& e.1 ≠ 0) && decide ((t.reg a).toNat &&& e.1 = 0)) (fun u => u.setFld e.2.1 e.2.2.1 e.2.2.2 0) t) s

/-- The stored part of a write: RW fields take the value, W1C bits with a 1 clear (R15). -/
def storeReg (a : Nat) (v : Word) (s : State) : State :=
  let rw := rwMask a
  let w1c := w1cMask a
  let old := s.reg a
  s.setReg a (((old &&& ~~~rw) ||| (v &&& rw)) &&& ~~~(v &&& w1c))

/-! ### Writes with an effect of their own -/

/-- FLUSH of a queue (R285): empty it, without a level event. A hub queue above 1, and a core queue while an image is
active, refuse it. -/
def flushQueue (hubBlock : Bool) (core q : Nat) (s : State) : State :=
  if hubBlock then
    if q = 0 then (s.modPort fun p => { p with fifo := [] }).setFld (hubQA 0 4) 0 9 0
    else if q = 1 then (s.modPort fun p => { p with events := [] }).setFld (hubQA 1 4) 0 9 0
    else s
  else if s.active then s
  else (s.modCore core fun c => { c with queues := SMap.set (fun _ => []) c.queues q [] }).setFld (coreQA core q 4) 0 9 0

/-- CL_EN takes a value (R294): a link whose bit is clear is held DOWN; one whose bit is set leaves DOWN or UNTRAINED
for TRAINING once the module has an ID. A RETIRED link stays. -/
def linkEnable (i : Nat) (v : Word) (s : State) : State :=
  let st := s.linkState i
  if st = 5 then s
  else if !bit v i then setLinkState i 0 6 s
  else if s.idValid && (decide (st = 0) || (decide (st = 4) && !s.regBit clEn i)) then startTraining i s
  else s

/-- A write of CL_EN (R294, R316), with its status. -/
def writeClEn (v : Word) (s : State) : State × Nat :=
  if s.active then (s, stProgramError)
  else ((forEach (List.range 32) (fun i t => linkEnable i v t) s).setReg clEn v, stOK)

/-- A write of CL_ID (R296), with its status. -/
def writeClId (v : Word) (s : State) : State × Nat :=
  if s.active || decide (s.reg clEn ≠ 0) then (s, stProgramError)
  else (s.setReg clId (0x80000000 ||| (v &&& 0x3FFF)), stOK)

/-- The tick source has changed from `old` (R40, R416): a source other than the internal reference has to reach lock anew,
and a follower waits for a frame number. -/
def sourceChanged (old : Nat) (s : State) : State :=
  let src := s.regFld ftSrc 0 2
  if src = old then s
  else
    let s := s.modTk fun k =>
      { k with extLast := none, extIn := 0, extOut := 0, extPlaced := false, holdRun := 0, lostRun := false,
               emitting := false, waitFirst := decide (src = 0), pendingFn := none }
    whenS (decide (src ≠ 1)) (fun t => t.clrBit ftStatus 0) s

/-- The part of a write that its register performs beyond its stored fields. -/
def writeEffect (a : Nat) (v : Word) (s : State) : State × Nat :=
  match regAt a with
  | .hub o =>
    if o = 0x8004 then writeClEn v s
    else if o = 0x8000 then writeClId v s
    else if o = 0xC000 then (s.modBist fun b => { b with pendCtrl := some (v &&& 0x1FFFF) }, stOK)
    else if o = 0xC010 then (if bit v 0 then openDebug s else (s, stOK))
    else if o = 0x1010 then (sourceChanged (s.regFld ftSrc 0 2) (storeReg a v s), stOK)
    else if 0x6100 ≤ o ∧ o < 0x6320 ∧ o % 16 = 0 then
      (whenS (bit v 31) (flushQueue true 0 ((o - 0x6100) / 16)) (storeReg a v s), stOK)
    else (clearCounters a v (storeReg a v s), stOK)
  | .core c blk r =>
    if blk = 8 ∧ 0x100 ≤ r ∧ r < 0x2A0 ∧ r % 16 = 0 then
      (whenS (bit v 31) (flushQueue false c ((r - 0x100) / 16)) (storeReg a v s), stOK)
    else (clearCounters a v (storeReg a v s), stOK)
  | .die _ _ => (clearCounters a v (storeReg a v s), stOK)
  | _ => (s, stOK)

/-- A window write to the macros of a core (R79, R81): each piece goes to its logical macro. -/
def arrayWrite (core a : Nat) (l : List Byte) (s : State) : State :=
  let o := a % 2 ^ 24
  let n := 32768 - o % 32768
  let put (o : Nat) (l : List Byte) (t : State) : State :=
    if o / 32768 < t.macrosOf core then writeArrBytes core (o / 32768) (o % 32768) l t else t
  put (o + n) (l.drop n) (put o (l.take n) s)

/-- The core whose macro window holds every byte of a word. -/
def windowCore (s : State) (a : Nat) : Option Nat :=
  match runAt s a 4 with
  | .array core => some core
  | _ => none

/-- A 32-bit write to a macro window on a register path (R81): accepted while no image is active, else refused with
OP_REFUSED. -/
def windowWordWrite (core a : Nat) (v : Word) (s : State) : State × Nat :=
  if s.active then (s.setBit (mcA core 4) 10, stProgramError)
  else if a % 4 ≠ 0 then (s, stProgramError)
  else if !coreReachable s core then (s, stCapacityLowered)
  else (arrayWrite core a (leBytes v.toNat 4) s, stOK)

/-- A register write with its status (R12, R14, R15, R81, R428 and the locks of Tables 18.1 and 18.2); no safe state serves one
(R414). -/
def writeReg (a : Nat) (v : Word) (s : State) : State × Nat :=
  match s.safeStatus, windowCore s a with
  | some st, _ => (s, st)
  | none, some core => windowWordWrite core a v s
  | none, none =>
    let st := accessStatus s a
    if st ≠ stOK then (s, st)
    else if (s.active && lockedReg a) || badValue s a v then (s, stProgramError)
    else writeEffect a v s

/-! ### The commands of the register level -/

/-- FLUSH. -/
def execFlush (hubBlock : Bool) (core q : Nat) (s : State) : Host.Outcome State Fault Refusal :=
  answer s (flushQueue hubBlock core q s)

/-- The address of TK_Q_PEAK of a queue. -/
def peakAddr (hubBlock : Bool) (core q : Nat) : Nat := if hubBlock then hubQA q 8 else coreQA core q 8

/-- A read that returns its value on its path. -/
def readOnPath (p : Path) (a : Nat) (s : State) : State :=
  let (v, st, s) := readReg p a s
  s.send (.regValue p v st)

/-- TK_Q_PEAK_READ. -/
def execTkQPeakRead (p : Path) (hubBlock : Bool) (core q : Nat) (s : State) : Host.Outcome State Fault Refusal :=
  answer s (readOnPath p (peakAddr hubBlock core q) s)

/-- LOW_WORD_READ. -/
def execLowWordRead (p : Path) (a : Nat) (s : State) : Host.Outcome State Fault Refusal := answer s (readOnPath p a s)

/-- A write that returns its status on its path. -/
def writeOnPath (p : Path) (a : Nat) (v : Word) (s : State) : State :=
  let (s, st) := writeReg a v s
  s.send (.regStatus p st)

/-- REGISTER_WRITE. -/
def execRegisterWrite (p : Path) (a : Nat) (v : Word) (s : State) : Host.Outcome State Fault Refusal :=
  answer s (writeOnPath p a v s)

/-- CL_EN_WRITE. -/
def execClEnWrite (v : Word) (s : State) : Host.Outcome State Fault Refusal := answer s (writeClEn v s).1

/-- CL_ID_WRITE. -/
def execClIdWrite (v : Word) (s : State) : Host.Outcome State Fault Refusal := answer s (writeClId v s).1

end Sys2Proof.Machine
end

