-- ==== Sys2Proof/Machine/Frames.lean ====
section
/-! DEFINITION. What becomes of a frame's work: answers of the ports, commit of a frame
(R165, R243 to R248, R325, R328, R379) and its discard (R335, R336), and the loading of programs, sections and variants
(R253, R260, R263). -/

namespace Sys2Proof.Machine

/-! ### Answers -/

/-- The port status register of a port has UP set. -/
def State.portUp (s : State) (p : Nat) : Bool := s.regBit (dpPortStat p) 0

/-- An ANSWER leaves on the port of its request, and is kept with its TAG among the last 64 (R368, R371). -/
def answerOn (port : Nat) (a : Answer) (s : State) : State :=
  let s := s.modPort fun p => { p with answers := (p.answers ++ [a]).drop (p.answers.length + 1 - 64) }
  whenS (s.portUp port) (fun t => t.send (.frame port (answerFrame a))) s

/-! ### The commit domain -/

/-- The DOMAIN section in force: that of the active whole image, or of the whole image whose activation is pending
(DEDUCED, log entry 12). -/
def State.domain (s : State) : Option DomainSect :=
  match s.image with
  | some c => some c.domain
  | none => match s.img.pend with
    | some p => (s.slotContent p.slot).map (·.domain)
    | none => none

/-- Whether the module can run frame programs and vote: as master or fallback master, or as a follower with lock, and
not stopped by FN_MISMATCH (R32, R47, R417). -/
def canRun (s : State) : Bool :=
  !s.tk.stopped && (decide (s.regFld ftSrc 0 2 ≠ 0) || s.regBit ftStatus 0 || s.tk.emitting)

/-! ### Programs -/

/-- The SPAD section of the running variant of a core. -/
def spadOf (s : State) (g : CoreSect) : SpadSect :=
  nth { tasks := [], vbase := 0, vcount := 0, bankPwr := 0, segs := [] } g.spads s.variant

/-- Write the code of a program into its task's code range (R253). -/
def loadCode (core : Nat) (p : Program) (s : State) : State :=
  let base := s.regFld (spA core (0x100 + 8 * p.task)) 0 14 * 256
  (p.code.zip (List.range p.code.length)).foldl (fun t x =>
    if base + x.2 < spSize then spStore core (base + x.2) x.1 t else t) s

/-- The load frames of the image that governs a core, and the WFN of its first load frame. -/
def loadPlan (s : State) (core : Nat) : Nat × DWord :=
  match (groupOf s core).bind fun g => (s.img.groupBase.find? fun b => b.1 = g) with
  | some b =>
    (((s.img.groups.find? fun g => g.1 = b.1).bind fun g => s.slotContent g.2).map (·.loadFrames) |>.getD 0, b.2)
  | none => ((s.image.map (·.loadFrames)).getD 0, s.img.wholeA)

/-- The program a core runs in a frame: 1 + i for INIT program i, 0 for the variant's program (R261). -/
def programIx (s : State) (core : Nat) (f : FrameRec) : Nat :=
  let p := loadPlan s core
  let k := (f.wfn - p.2).toNat
  if decide (p.2.toNat ≤ f.wfn.toNat) && decide (k < p.1) then k + 1 else 0

/-- The frame program of a core at a tick (R26, R195, R261), with its code in place. -/
def startCore (core : Nat) (f : FrameRec) (s : State) : State :=
  let c := s.core core
  let quiet := decide (f.kind = .quiet) || f.inPlace || decide (groupOf s core = f.groupQuiet ∧ f.groupQuiet ≠ none) ||
    !s.coreOffered core || dieHeldNow s (core / 64)
  match c.cfg with
  | none => s
  | some g =>
    if quiet then s.setCore core { c with prog := none, pos := 0, ended := true, waiting := none }
    else
      let ix := programIx s core f
      let p? := if ix = 0 then g.progs[s.variant]? else g.inits[ix - 1]?
      match p? with
      | none => s.setCore core { c with prog := none, pos := 0, ended := true, waiting := none }
      | some p =>
        let s := whenS (decide (c.loaded ≠ some (s.variant, ix))) (loadCode core p) s
        s.modCore core fun c =>
          { c with prog := some { task := p.task, start := p.start }, loaded := some (s.variant, ix), pos := 0, ended := false,
                   waiting := none }

/-! ### Commit -/

/-- Change every position tag. -/
def mapTags (f : PosTag → PosTag) (s : State) : State :=
  { s with ptags := s.ptags.filterMap fun e => if f e.2 = .free then none else some (e.1, f e.2) }

/-- Position tags at the commit of frame w (Table 3.9). -/
def commitTag (w : DWord) (t : PosTag) : PosTag :=
  match t with
  | .new f => if f = w then .valid else t
  | .evicting f => if f = w then .free else t
  | t => t

/-- Position tags at the replay of frames ws (Table 3.9). -/
def discardTag (ws : List DWord) (t : PosTag) : PosTag :=
  match t with
  | .new f => if ws.contains f then .free else t
  | .evicting f => if ws.contains f then .valid else t
  | t => t

/-- The metadata of the descriptors that wrote a slot in the committed frame (R382). -/
def slotMeta (c : Core) (v : VerSlot) : Word :=
  v.tdsPrev.foldl (fun a td => a ||| (SMap.get (fun _ => {}) c.prev.watch td).md) v.mdPrev

/-- A logical slot at the commit of the frame before the running one (R165, R379, R382). -/
def commitSlot (w : DWord) (core k : Nat) (s : State) : State :=
  let c := s.core core
  let v := c.verOf k
  match v.pendPrev with
  | none => s
  | some n =>
    let s := s.setCore core
      { c with ver := SMap.set (fun _ => {}) c.ver k { v with cur := n, pendPrev := none, tdsPrev := [], mdPrev := 0 } }
    s.modPort fun p =>
      { p with resultTags := SMap.set (fun _ => false) p.resultTags (tagKey core k) true,
               resultInfo := SMap.set (fun _ => (0, 0)) p.resultInfo (tagKey core k) (w, slotMeta c v) }

/-- An estimate entry at commit (Table 9.5): the entry, whether it was corrected on saturation, and whether it left cold
start. -/
def estCommit (e : Est) (o : Obs) : Est × Bool × Bool :=
  match o.top with
  | none => (e, false, false)
  | some a =>
    let clampE (x : Est) : Est := { x with e := clampI (-149) 127 x.e }
    let (x, sat) : Est × Bool :=
      if 0 < o.sats then ({ e with e := a, decay := 0 }, true)
      else if e.cold then ({ e with e := if e.e < a then a else if a < e.e then e.e - 1 else e.e }, false)
      else if e.e < a then ({ e with e := e.e + 1, decay := 0 }, false)
      else if a = e.e then ({ e with decay := 0 }, false)
      else if e.decay = 15 then ({ e with e := e.e - 1, decay := 0 }, false)
      else ({ e with decay := e.decay + 1 }, false)
    if e.cold then
      let left := x.coldLeft - 1
      (clampE { x with coldLeft := left, cold := decide (left ≠ 0) }, sat, decide (left = 0))
    else (clampE x, sat, false)

/-- The observations of a core's committed frame update its estimates (R243). -/
def commitEst (w : DWord) (core : Nat) (s : State) : State :=
  forEach (s.core core).prev.obs (fun o s =>
    let (e, sat, warm) := estCommit ((s.core core).estOf o.entry) o
    let s := s.modCore core fun c => { c with est := SMap.set (fun _ => {}) c.est o.entry e }
    let s := whenS sat (fun t => (t.setBit (nmA core 0) 2).addCnt (nmA core 4) 16 16 1) s
    whenS warm (fun t => pushEvent (event0 w (nmA core 0) 3 stOK core) (t.setBit (nmA core 0) 3)) s) s

/-- The descriptors of a core whose estimate entries include a cold one (R244). -/
def coldDescs (c : Core) : List Nat :=
  match c.cfg with
  | none => []
  | some g => (g.estMaps.filter fun m => (List.range m.count).any fun i => (c.estOf (m.first + i)).cold).map (·.td)

/-- The watch table of the committed frame becomes readable (R246, R247). -/
def commitWatch (core : Nat) (s : State) : State :=
  let c := s.core core
  let t := (coldDescs c).foldl (fun (t : SMap WatchRec) td =>
    let r := SMap.get (fun _ => {}) t td
    SMap.set (fun _ => {}) t td { r with md := setB r.md 31 }) c.prev.watch
  s.setCore core { c with watch := t }

/-- The stale-layer detector of a core at commit (R248); its events join those that the frame staged (R328). -/
def commitStale (w : DWord) (core : Nat) (s : State) : State :=
  let upd := (s.core core).prev.upd
  forEach (nubN (upd.map (·.1))) (fun layer s =>
    let changed := sumN ((upd.filter fun u => u.1 = layer).map (·.2))
    let c := s.core core
    let e := (c.stale.find? fun x => x.layer = layer).getD { layer := layer, silent := 0, reported := false }
    let silent := if changed = 0 then satAdd e.silent 1 0xFFFF else 0
    let hit := decide (silent = s.regFld nmCtrl 8 11) && !e.reported
    let e := { e with silent := silent, reported := decide (silent ≠ 0) && (e.reported || hit) }
    let stale := if c.stale.any fun x => x.layer = layer then c.stale.map fun x => if x.layer = layer then e else x
      else c.stale ++ [e]
    let s := s.setCore core { c with stale := stale }
    if !hit then s
    else
      let a := nmA core 0
      let s := whenS (!(s.regBit a 1)) (fun t => t.setReg (nmA core 8) (BitVec.ofNat 32 (silent * 65536 + layer))) s
      stageEvent (event0 w a 1 stOK (core + layer * 65536)) (s.setBit a 1)) s

/-- The mapped estimate entries of a core, ascending (R245). -/
def mappedEntries (c : Core) : List Nat :=
  match c.cfg with
  | none => []
  | some g => (List.range 4096).filter fun e => g.estMaps.any fun m => decide (m.first ≤ e) && decide (e < m.first + m.count)

/-- An estimate entry as 8 bytes (Table 9.7). -/
def estBytes (e : Est) : List Byte :=
  leBytes (toField e.e 9 + e.cold.toNat * 2 ^ 9 + e.decay % 16 * 2 ^ 12 + e.coldLeft % 512 * 2 ^ 16) 8

/-- The entries of the scale history (R245). -/
def historyEntries (s : State) : List Byte :=
  s.cores.flatMap fun c => (mappedEntries c.2).flatMap fun e => estBytes (c.2.estOf e)

/-- The address of a side of the scale history. -/
def historySide (s : State) (side : Nat) : Nat :=
  (s.reg64 nmHist).toNat % 2 ^ 48 + side * ((s.reg64 nmHistSide).toNat % 2 ^ 48)

/-- The scale history is written at the commit of frame w (R245, Table 9.6), unless its side meets a locked slot range (R255). -/
def writeHistory (w : DWord) (s : State) : State :=
  if s.reg64 nmHist = 0 then s
  else
    let l := historyEntries s
    let a := historySide s (w.toNat % 2)
    let id := (s.image.map fun c => c.imageId.toNat).getD 0
    let header := leBytes 0x4E4D4853 4 ++ leBytes 1 4 ++ leBytes w.toNat 8 ++ leBytes id 8 ++
      leBytes (crc32 l).toNat 4 ++ List.replicate 36 0
    if runLocked s a (64 + l.length) then raise0 secImgState 31 stProgramError 0 (s.setBit secImgState 31)
    else { s with hbm := Mem.write s.hbm a (header ++ l) }

/-- Held events of a committed frame enter the event FIFO (R328). -/
def releaseEvents (f : FrameRec) (s : State) : State :=
  let evs := if f.beyond = 0 then f.events else
    match f.events with
    | [] => []
    | e :: rest => { e with lost := true } :: rest
  let s := whenS (decide (0 < f.beyond)) (fun t => (t.setBit fxSticky 11).addCnt fxEvtDrops 0 16 f.beyond) s
  forEach evs pushEvent s

/-- The answers of a committed frame's input writes (R378). -/
def answerInputs (f : FrameRec) (s : State) : State :=
  let bad := f.refused.map fun x => x.2.1
  let s := forEach f.inputs (fun x t =>
    if bad.contains x.tag then t else answerOn x.port { tag := x.tag, op := 0, status := stOK, fn := f.wfn } t) s
  forEach f.refused (fun x t => answerOn x.1 { tag := x.2.1, op := 0, status := x.2.2, fn := f.wfn } t) s

/-- The metadata of what a committed frame wrote to a unit (R382). -/
def unitMeta (s : State) (f : FrameRec) (k : Nat) : Word :=
  let a := (f.unitMd.filter fun e => e.1 = k).foldl (fun a e => a ||| e.2) 0
  (f.unitWr.filter fun e => e.1 = k).foldl (fun a e => a ||| (SMap.get (fun _ => {}) (s.core e.2.1).prev.watch e.2.2).md) a

/-- The part of a commit that one core does. -/
def commitCore (w : DWord) (core : Nat) (s : State) : State :=
  let s := forEach ((s.core core).ver.map (·.1)) (commitSlot w core) s
  commitStale w core (commitWatch core (commitEst w core s))

/-- Run a part of a frame's commit with the frame's own staging list in place of that of the running frame (R328). -/
def stagingIn (f : FrameRec) (act : State → State) (s : State) : FrameRec × State :=
  let t := act (s.modCur fun c => { c with events := f.events, beyond := f.beyond })
  ({ f with events := t.fx.cur.events, beyond := t.fx.cur.beyond },
    t.modCur fun c => { c with events := s.fx.cur.events, beyond := s.fx.cur.beyond })

/-- A frame commits (R335): the versions of its work become current. -/
def commitFrame (f : FrameRec) (s : State) : State :=
  if f.kind = .quiet ∨ f.inPlace then answerInputs f (releaseEvents f s)
    else
      let s := mapTags (commitTag f.wfn) s
      let (f, s) := stagingIn f (forEach (s.cores.map (·.1)) (commitCore f.wfn)) s
      let s := s.modImg fun i =>
        { i with sides := f.units.foldl (fun m k => SMap.set (fun _ => false) m k (!(SMap.get (fun _ => false) m k))) i.sides,
                 unitInfo := f.units.foldl (fun m k => SMap.set (fun _ => (0, 0)) m k (f.wfn, unitMeta s f k)) i.unitInfo,
                 updRec := f.updates.foldl (fun m r => SMap.set (fun _ => 0) m r (f.wfn + 1)) i.updRec }
      let s := writeHistory f.wfn s
      let s := s.modFx fun x =>
        { x with lastWork := f, watchFn := f.wfn, attempts := if x.attemptWfn = f.wfn then 0 else x.attempts }
      answerInputs f (releaseEvents f s)

/-! ### Discard -/

/-- Shape registers (Table 7.6): block 5, from offset 0x100. -/
def isShape (a : Nat) : Bool :=
  match regAt a with
  | .core _ blk r => decide (blk = 5) && decide (0x100 ≤ r)
  | _ => false

/-- The shape registers of every core, as a tick copies them (R185). -/
def shapeRegs (s : State) : SMap Word := s.regs.filter fun e => isShape e.1

/-- The shape registers return to the copy taken at the first replayed frame's tick (R185, R336). -/
def restoreShapes (s : State) : State :=
  forEach s.fx.shpPrev (fun e t => t.setReg e.1 e.2) (forEach (shapeRegs s) (fun e t => t.setReg e.1 (regReset e.1)) s)

/-- A core drops what its uncommitted frames wrote, and its windows return to their copy (R336). -/
def discardCore (core : Nat) (s : State) : State :=
  let c := s.core core
  s.setCore core
    { c with ver := (c.ver.map fun e => (e.1, { cur := e.2.cur : VerSlot })).filter fun e => decide (e.2 ≠ {}),
             windows := c.prev.winCopy, winPend := [], gather := [],
             prev := { winCopy := c.prev.winCopy }, cur := { winCopy := c.cur.winCopy } }

/-- Shape register n of every offered core of a mask takes a value (Table 15.3). -/
def setShapes (mask : BitVec 768) (n : Nat) (v : Word) (s : State) : State :=
  forEach ((List.range 768).filter fun i => bit mask i && s.coreOffered i) (fun i t => t.setReg (shpA i n) v) s

/-- The SHP_SETs of a frame's original tick are made again at the tick of its replay, so that a replayed instruction reads
the values that the original read (R185; DEDUCED, log entry 111). -/
def repeatShapes (s : State) : State := forEach s.fx.cur.shpSets (fun x t => setShapes x.1 x.2.1 x.2.2 t) s

/-- The work of a discarded frame, to run again. -/
def reworkOf (attempt : Nat) (f : FrameRec) : Rework :=
  { wfn := f.wfn, kind := f.kind, attempt := attempt, inputs := f.inputs, groupQuiet := f.groupQuiet,
    shpSets := f.shpSets }

/-- Frames are discarded and their work is to run again, with `attempt` for the first (R335). A frame that was itself
quiet and takes the place of no work is not run again, but a quiet frame before a load frame is (R261). -/
def discardFrames (attempt : Nat) (a b : FrameRec) (s : State) : State :=
  let s := mapTags (discardTag [a.wfn, b.wfn]) s
  let s := restoreShapes (forEach (s.cores.map (·.1)) discardCore s)
  let work (f : FrameRec) : Bool := decide (f.kind ≠ .quiet)
  let l := (if work a then [reworkOf attempt a] else if work b then [reworkOf 0 a] else []) ++
    (if work b then [reworkOf b.attempt b] else [])
  let drop (f : FrameRec) : FrameRec :=
    if f.fn = a.fn ∨ f.fn = b.fn then
      { f with kind := .quiet, units := [], unitWr := [], unitMd := [], updates := [], events := [], beyond := 0, inputs := [], refused := [], locs := [],
               shpSets := [] }
    else f
  s.modFx fun f => { f with rework := l ++ f.rework, prev := drop f.prev, cur := drop f.cur, old := f.old.map drop }

/-! ### Loading sections -/

/-- The power profile of a variant (R351): PG_CTRL and PG_STAGGER. -/
def loadPower (v : Nat) (s : State) : State :=
  match s.image.bind fun c => c.power[v]? with
  | none => s
  | some p =>
    (s.setReg pgCtrl (BitVec.ofNat 32 (p.flatPct * 65536 + p.slew))).setReg pgStagger (BitVec.ofNat 32 (p.groups * 65536 + p.step))

/-- The scratchpad partition of a core (Table 10.4): SP_TASK and SP_VER; the bank power states only at activation (R167),
where a retired bank keeps its state. -/
def loadSpad (core : Nat) (banks : Bool) (g : CoreSect) (s : State) : State :=
  let p := spadOf s g
  let s := forEach (List.range 16) (fun k t =>
    let x := nth (0, 0) p.tasks k
    (t.setReg (spA core (0x100 + 8 * k)) x.1).setReg (spA core (0x104 + 8 * k)) x.2) s
  let s := s.setReg (spA core 0x18) (BitVec.ofNat 32 (p.vcount * 65536 + p.vbase))
  let pwr (lo : Nat) : Word := BitVec.ofNat 32 (sumN ((List.range 16).map fun i =>
    (if bankRetired s core (lo + i) then 3 else fld p.bankPwr (2 * (lo + i)) 2) * 4 ^ i))
  let s := s.setFld (spA core 0x1C) 16 6 0
  if banks then (s.setReg (spA core 0x20) (pwr 0)).setReg (spA core 0x24) (pwr 16) else s

/-- The TOKEN section of a core's running variant (R276, R278, R287): the watchdog limit, the LEVEL of every queue, and the
credits of their producers. A queue without a LEVEL in the section takes 0. -/
def loadToken (core : Nat) (g : CoreSect) (s : State) : State :=
  let k := nth { wdog := 0, levels := [], credits := [] } g.tokens s.variant
  let s := s.setReg (tkA core 0xC) (BitVec.ofNat 32 (k.wdog % 65536))
  let s := s.modCore core fun c => { c with credits := k.credits }
  forEach (List.range 26) (fun q t =>
    let v := ((k.levels.find? fun l => l.1 = q).map (·.2)).getD 0
    if t.regFld (coreQA core q 0) 0 10 = v then t else t.setFld (coreQA core q 0) 0 10 v) s

/-- A change of variant takes effect (R56, R263, R264), with its event of KIND 3. -/
def setVariant (v : Nat) (s : State) : State :=
  let s := (s.setFld ftStatus 8 2 v).modImg fun i => { i with varCount := 0, varSkip := true }
  let s := loadPower v s
  let s := forEach s.cores (fun c t => match c.2.cfg with
    | none => t
    | some g => loadToken c.1 g (loadSpad c.1 false g t)) s
  raiseKindAt (resultTick s) 3 stOK 0 v s

end Sys2Proof.Machine
end

