-- ==== Sys2Proof/Machine/Votes.lean ====
section
/-! DEFINITION. The commit vote (R329 to R334, R338): forming a module's vote, combining, the root's decision, results and
their queries. -/

namespace Sys2Proof.Machine

/-! ### A module's own vote -/

/-- Whether the module votes on the frame that ended at the last tick: it is in a domain, it can run, the frame takes part
in voting, and the hub die has no permanent fault (R330, R335, R342). -/
def voting (s : State) : Bool :=
  s.domain.isSome && canRun s && !s.bist.hubFailed && !(nth false s.bist.thermHeld 12) && decide (s.fx.nextFn ≤ s.fx.prev.fn) &&
    !s.fx.noVote.contains s.fx.prev.fn && decide (s.fx.prev.fn + 1 = s.fn)

/-- The readiness bit for the frame that ended (R259). -/
def readyBit (s : State) : Bool :=
  match s.img.pend with
  | none => false
  | some p => decide (s.fx.prev.fn + 2 = p.a) && decide ((nth {} s.img.slots p.slot).state = 2) &&
      ((s.slotContent p.slot).map fun c => withinCapacity s c.require).getD false &&
      (decide (s.fx.halt ≠ 0) || (s.fx.rework.isEmpty && s.fx.old.isEmpty))

/-- The step-up bit (R264). -/
def stepUpBit (s : State) : Bool :=
  match s.image with
  | none => false
  | some c => decide (c.varHold ≤ s.img.varCount) && decide (0 < s.variant)

/-- A vote's FLAGS (Table 13.6). -/
def voteFlags (fail missing hold slow ready stepUp halt lost : Bool) : BitVec 8 :=
  BitVec.ofNat 8 (ofBits [fail, missing, hold, slow, ready, stepUp, halt, lost])

/-- Failed attempts of the work voted on, counting this vote (Table 13.6). A quiet frame has no attempts. -/
def attemptAfter (f : FrameRec) (fail : Bool) : Nat := if f.kind = .quiet then 0 else f.attempt + fail.toNat

/-- The module's own vote on the frame that ended (R330, R338, R362). -/
def ownVote (s : State) : VotePl :=
  let f := s.fx.prev
  let halted := decide (s.fx.halt ≠ 0)
  let fail := f.fault || (!halted && (f.overrun || f.inPlace || decide (f.thermal = some true)))
  let hold := !halted && ((s.fx.retires.any fun r => !offBank s r) || decide (f.thermal = some false))
  let slow := !halted && ((f.overrun && decide (1 ≤ f.attempt)) || decide (f.thermal = some true))
  let lost := f.lost
  let bad := fail || lost || s.fx.capHalt
  { fn := f.fn, kind := 0, flags := voteFlags fail false hold slow (readyBit s) (!halted && stepUpBit s) s.fx.capHalt lost,
    actions := 0, attempt := attemptAfter f fail, voters := 1, firstFail := if bad then s.moduleId else 0xFFFF }

/-- The module forms its own vote (R330). -/
def formVote (s : State) : State :=
  if voting s then s.modFx fun f => { f with own := some (ownVote s) } else s

/-- VOTE_FORM. -/
def execVoteForm (s : State) : Host.Outcome State Fault Refusal := answer s (formVote s)

/-! ### Combining -/

/-- Whether a module is a child of this one in the commit tree. -/
def isChild (s : State) (m : Nat) : Bool := ((s.domain.map fun d => d.children.any fun c => c.1 = m)).getD false

/-- The link to a tree neighbour. -/
def neighbourLink (s : State) (m : Nat) : Option Nat :=
  s.domain.bind fun d => ((d.parent.toList ++ d.children).find? fun x => x.1 = m).map (·.2)

/-- A child's vote arrives (R332). A late vote is discarded; one that names another frame counts as absent. -/
def takeVote (child : Nat) (pl : VotePl) (late : Bool) (s : State) : State :=
  if !isChild s child || s.fx.noVote.contains s.fx.prev.fn then s
  else if late || decide (s.fx.sentFor = some s.fx.prev.fn) then s.setBit fxSticky 5
  else if pl.fn ≠ s.fx.prev.fn then s
  else s.modFx fun f => { f with children := (f.children.filter fun c => c.1 ≠ child) ++ [(child, pl)] }

/-- Flag i of a vote. -/
def vflag (v : VotePl) (i : Nat) : Bool := bit v.flags i

/-- Two votes combined (R332). -/
def joinVotes (a b : VotePl) : VotePl :=
  let o (i : Nat) : Bool := vflag a i || vflag b i
  let n (i : Nat) : Bool := vflag a i && vflag b i
  { a with flags := voteFlags (o 0) (o 1) (o 2) (o 3) (n 4) (n 5) (o 6) (o 7), voters := a.voters + b.voters,
           firstFail := min a.firstFail b.firstFail, attempt := max a.attempt b.attempt }

/-- A vote with MISSING set; the readiness and step-up of an absent child are not given (R332). -/
def withMissing (v : VotePl) : VotePl :=
  { v with flags := (v.flags ||| 2) &&& 0xCF }

/-- The combined vote of this node, whether a child was absent, and whether the root's count of voters is short. -/
def combineVotes (s : State) (d : DomainSect) (own : VotePl) : VotePl × Bool × Bool :=
  let got := d.children.filterMap fun c => (s.fx.children.find? fun x => x.1 = c.1).map (·.2)
  let v := got.foldl joinVotes own
  let absent := decide (got.length ≠ d.children.length)
  let short := d.parent.isNone && decide (v.voters ≠ d.members.length)
  (if absent || short then withMissing v else v, absent, short)

/-- A VOTE packet goes to a tree neighbour by the VC1 route (R304, R305, R329); while no image is active, and so no route table is
loaded, by its tree link. -/
def voteTo (dst link : Nat) (pl : VotePl) (s : State) : State :=
  let p := votePacket dst s.moduleId s.ftag pl
  if s.active then sendPacket p s
  else if s.linkUp link then enqueue link p s
  else unreachable p s

/-! ### The root and results -/

/-- ACTIONS (Table 13.6). -/
def voteActions (hold down up activate : Bool) : BitVec 8 := BitVec.ofNat 8 (ofBits [hold, down, up, activate])

/-- The root's decision (Tables 13.6 and 13.7; R338 while halted): OUTCOME and ACTIONS. -/
def decideVote (s : State) (v : VotePl) : BitVec 8 × BitVec 8 :=
  let failed := vflag v 0 || vflag v 1
  let slowest := ((s.image.map fun c => decide (s.variant + 1 = c.variants))).getD true
  let max := s.regFld fxCtrl 0 4
  if vflag v 6 then (3, 0)
  else if s.fx.halt ≠ 0 then
    (if failed || vflag v 7 then (if s.fx.halt = 2 then 3 else 2, 0) else (0, voteActions false false false (vflag v 4)))
  else if vflag v 7 || (failed && decide (max ≤ v.attempt)) || (vflag v 3 && slowest) then (2, 0)
  else if failed then (1, voteActions (vflag v 2) (vflag v 3) false false)
  else (0, voteActions (vflag v 2) false (vflag v 5) (vflag v 4))

/-- A result is kept among the last 16 and waits to be applied (R334). -/
def keepResult (r : VotePl) (s : State) : State :=
  if s.fx.results.any fun x => x.fn = r.fn then s
  else s.modFx fun f =>
    { f with results := (f.results ++ [r]).drop (f.results.length + 1 - 16),
             received := if f.nextFn ≤ r.fn then f.received ++ [r] else f.received }

/-- A result goes to every child (R330). -/
def forwardResult (r : VotePl) (s : State) : State :=
  match s.domain with
  | none => s
  | some d => forEach d.children (fun c t => voteTo c.1 c.2 r t) s

/-- The attempt count of the root's result: its own count is authoritative (R332). -/
def rootAttempt (s : State) (v : VotePl) : Nat := attemptAfter s.fx.prev (vflag v 0 || vflag v 1)

/-- The location of a missing or mismatched vote (Table 13.1). -/
def voteLoc : Loc := { unit := 9, die := 12, pcore := 0, index := 0, det := 14 }

/-- At its deadline a node sends its combined vote, or as root decides (R330, R332). -/
def sendVote (s : State) : State :=
  let s := if s.fx.own.isNone then formVote s else s
  match s.domain, s.fx.own with
  | some d, some own =>
    if !voting s || decide (own.fn ≠ s.fx.prev.fn) || decide (s.fx.sentFor = some s.fx.prev.fn) then s
    else
      let (v, absent, short) := combineVotes s d own
      let v := { v with attempt := rootAttempt s v }
      let s := whenS absent (fun t => t.setBit fxSticky 4) s
      let s := whenS (absent || short) (detectFault voteLoc) s
      let s := s.modFx fun f => { f with sentFor := some f.prev.fn, combined := some v }
      match d.parent with
      | some p => voteTo p.1 p.2 v s
      | none =>
        let (o, acts) := decideVote s v
        let r : VotePl := { v with kind := 1, flags := o, actions := acts }
        forwardResult r (keepResult r s)
  | _, _ => s

/-- VOTE_DEADLINE. -/
def execVoteDeadline (s : State) : Host.Outcome State Fault Refusal := answer s (sendVote s)

/-- A result arrives from the parent: it is forwarded and kept (R330). -/
def takeResult (src : Nat) (pl : VotePl) (s : State) : State :=
  if (s.domain.bind (·.parent)).map (·.1) = some src then keepResult pl (forwardResult pl s) else s

/-- A result query of a tree neighbour is answered from the last 16 results (R334). -/
def takeQuery (nbr : Nat) (fn : DWord) (s : State) : State :=
  match neighbourLink s nbr, s.fx.results.find? fun r => r.fn = fn with
  | some l, some r => voteTo nbr l { r with kind := 3 } s
  | _, _ => s

/-- A tree neighbour's answer to a query (R334): the missing result is kept, to be applied in order. -/
def takeAnswer (nbr : Nat) (pl : VotePl) (s : State) : State :=
  if (neighbourLink s nbr).isSome then keepResult { pl with kind := 1 } s else s

/-! ### VOTE packets -/

/-- A VOTE packet for this module, of any KIND (R331); one outside its frame is discarded as STALE (R308, R311). -/
def takeVotePacket (late : Bool) (p : Packet) (s : State) : State :=
  match p.vote with
  | none => s
  | some pl =>
    if p.ftag ≠ s.ftag then whenS (late && isChild s p.src && decide (pl.kind = 0)) (fun t => t.setBit fxSticky 5) (clCount 2 clCnt 16 s)
    else if pl.kind = 0 then takeVote p.src pl late s
    else if pl.kind = 1 then takeResult p.src pl s
    else if pl.kind = 2 then takeQuery p.src pl.fn s
    else if pl.kind = 3 then takeAnswer p.src pl s
    else s

/-- An accepted packet of a link goes to its module: it is judged (R302), taken here, or forwarded (R304). -/
def deliverPacket (late : Bool) (p : Packet) (s : State) : State :=
  if packetBad p then badPacket s
  else if p.ptype = 6 ∧ p.dst = s.moduleId then takeVotePacket late p s
  else emit 3 p s

/-- A packet arrives on a link (R298). -/
def receive (i : Nat) (p : Packet) (cw : Codeword) (late : Bool) (s : State) : State := rxPacket i p cw (deliverPacket late p) s

/-- VOTE. -/
def execVote (i : Nat) (p : Packet) (cw : Codeword) (late : Bool) (s : State) : Host.Outcome State Fault Refusal :=
  answer s (receive i p cw late s)

/-- VOTE_RESULT. -/
def execVoteResult (i : Nat) (p : Packet) (cw : Codeword) (s : State) : Host.Outcome State Fault Refusal :=
  answer s (receive i p cw false s)

/-- RESULT_QUERY. -/
def execResultQuery (i : Nat) (p : Packet) (cw : Codeword) (s : State) : Host.Outcome State Fault Refusal :=
  answer s (receive i p cw false s)

/-- RESULT_ANSWER. -/
def execResultAnswer (i : Nat) (p : Packet) (cw : Codeword) (s : State) : Host.Outcome State Fault Refusal :=
  answer s (receive i p cw false s)

/-- Query every tree neighbour for the result that is missing (R334). -/
def queryResults (s : State) : State :=
  match s.domain with
  | none => s
  | some d =>
    let q : VotePl :=
      { fn := s.fx.nextFn, kind := 2, flags := 0, actions := 0, attempt := 0, voters := 0, firstFail := 0xFFFF }
    forEach (d.parent.toList ++ d.children) (fun x t => voteTo x.1 x.2 q t) s

end Sys2Proof.Machine
end

