-- ==== Sys2Proof/Machine/Verify.lean ====
section
/-! DEFINITION. Verification of a Gusil image (R250 to R255): the header, the section table, the hashes and signature, and
the checks of Table 10.5; and the commands IMG_VERIFY, IMG_ACTIVATE and IMG_RELEASE. -/

namespace Sys2Proof.Machine

/-! ### Reading an image -/

/-- n bytes of an image from offset o. -/
def imgBytes (s : State) (sl : SlotSt) (o n : Nat) : List Byte := Mem.read s.hbm (sl.addr + o) n
/-- A little-endian field of an image. -/
def imgFld (s : State) (sl : SlotSt) (o n : Nat) : Nat := leNat (imgBytes s sl o n)
/-- A hash as it stands in memory, first byte least significant. -/
def hashOf (l : List Byte) : Nat := (Config.sm3 l).toNat
/-- The bytes of a 512-bit key, in the order in which they are stored. -/
def keyBytes (k : BitVec 512) : List Byte := leBytes k.toNat 64

/-- The image digest (R251). -/
def imgDigest (s : State) (sl : SlotSt) : BitVec 256 := Config.sm3 (imgBytes s sl 0 192)
/-- IMAGE_LEN and SECT_COUNT, SECT_TABLE (Table 10.2). -/
def imgLen (s : State) (sl : SlotSt) : Nat := imgFld s sl 16 8
def sectCount (s : State) (sl : SlotSt) : Nat := imgFld s sl 12 4
def sectTable (s : State) (sl : SlotSt) : Nat := imgFld s sl 24 8

/-- The header rules (R250). -/
def headerOk (s : State) (sl : SlotSt) : Bool :=
  let f := imgFld s sl
  let len := imgLen s sl
  decide (f 0 4 = 0x47534931) && decide (f 4 2 = 2) && decide (f 6 2 = 0x0D13) && decide (f 8 1 ≤ s.regFld secIdent 0 8) &&
    decide (f 9 1 ≤ 1) && decide (f 10 1 ≤ 15) && (decide (f 9 1 = 1) || decide (f 10 1 = 0)) &&
    decide (1 ≤ f 11 1) && decide (f 11 1 ≤ 4) && decide (1 ≤ sectCount s sl) && decide (sectCount s sl ≤ 8192) &&
    decide (len % 4096 = 0) && decide (len ≤ 2 ^ 32) && decide (len ≤ sl.len) && decide (sectTable s sl % 64 = 0) &&
    decide (256 ≤ sectTable s sl) && decide (sectTable s sl + 64 * sectCount s sl ≤ len) && decide (f 88 2 ≤ 4095) &&
    s.idValid && decide (f 90 2 = s.moduleId) && (imgBytes s sl 96 96).all fun b => decide (b = 0)

/-- A section-table entry (Table 10.3). -/
structure SectEntry where
  ty : Nat
  variant : Nat
  scope : Nat
  die : Nat
  core : Nat
  offset : Nat
  length : Nat
  hash : Nat
  reserved : Nat
  deriving DecidableEq, Repr, Inhabited

/-- Entry i of the section table. -/
def sectAt (s : State) (sl : SlotSt) (i : Nat) : SectEntry :=
  let f := fun o n => imgFld s sl (sectTable s sl + 64 * i + o) n
  { ty := f 0 1, variant := f 1 1, scope := f 2 1, die := f 3 1, core := f 4 1, offset := f 8 8, length := f 16 4, hash := f 24 32,
    reserved := f 5 3 + f 20 4 + f 56 8 }

/-- The section table. -/
def sects (s : State) (sl : SlotSt) : List SectEntry := (List.range (sectCount s sl)).map (sectAt s sl)

/-- The bytes of a section. -/
def sectBytes (s : State) (sl : SlotSt) (e : SectEntry) : List Byte := imgBytes s sl e.offset e.length

/-- The sort key of an entry (R252). -/
def SectEntry.key (e : SectEntry) : Nat := (((e.ty * 256 + e.variant) * 256 + e.scope) * 256 + e.die) * 256 + e.core

/-- Whether a type may have a scope (Table 10.4), with DIE and CORE in the scope's range. -/
def SectEntry.scopeOk (e : SectEntry) : Bool :=
  if e.scope = 0 then
    [1, 2, 3, 4, 6, 0xC, 0xD, 0xE, 0xF, 0x10, 0x12].contains e.ty && decide (e.die = 0) && decide (e.core = 0)
  else if e.scope = 1 then [6, 0xC].contains e.ty && decide (e.die < 12) && decide (e.core = 0)
  else if e.scope = 2 then
    [5, 6, 7, 8, 9, 0xA, 0xB, 0xD, 0x11].contains e.ty && decide (e.die < 12) && decide (e.core < 64)
  else false

/-- Whether VARIANT is one that Table 10.4 gives the type: a schedule variant, or 0xFF for a section that serves all. -/
def SectEntry.variantOk (e : SectEntry) : Bool :=
  if [7, 9, 0xA, 0xE].contains e.ty then decide (e.variant < 4) else decide (e.variant = 255)

/-- Whether keys rise strictly along a list. -/
def rising : List Nat → Bool
  | [] => true
  | x :: rest => (match rest with
    | [] => true
    | y :: _ => decide (x < y)) && rising rest

/-- Whether no two ranges (start, length) of a list overlap. -/
def disjoint : List (Nat × Nat) → Bool
  | [] => true
  | a :: rest => rest.all (fun b => decide (a.1 + a.2 ≤ b.1) || decide (b.1 + b.2 ≤ a.1) || decide (a.2 = 0) || decide (b.2 = 0)) &&
      disjoint rest

/-- The table rules (R252). -/
def tableOk (s : State) (sl : SlotSt) : Bool :=
  let l := sects s sl
  rising (l.map SectEntry.key) && (l.all SectEntry.scopeOk) && (l.all SectEntry.variantOk) &&
    (l.all fun e => decide (e.offset % 64 = 0) && decide (e.reserved = 0) && decide (e.offset + e.length ≤ imgLen s sl)) &&
    disjoint ((0, 256) :: (sectTable s sl, 64 * sectCount s sl) :: l.map fun e => (e.offset, e.length))

/-- The cores that an image uses (R253). -/
def usedCores (l : List SectEntry) : List Nat :=
  nubN ((l.filter fun e => decide (e.scope = 2) && decide (5 ≤ e.ty) && decide (e.ty ≤ 0xB)).map fun e => 64 * e.die + e.core)

/-- Whether a section of a type is present for every variant it needs: one that serves all, or one per variant. -/
def hasSect (l : List SectEntry) (variants ty scope die core : Nat) : Bool :=
  let mine := l.filter fun e =>
    decide (e.ty = ty) && decide (e.scope = scope) && decide (e.die = die) && decide (e.core = core)
  if [7, 9, 0xA, 0xE].contains ty then decide (mine.map (·.variant) = List.range variants)
  else decide (mine.map (·.variant) = [255])

/-- The sections that a used core must hold (R253). -/
def coreSectsOk (l : List SectEntry) (variants loadFrames : Nat) : Bool :=
  (usedCores l).all fun c =>
    ([5, 6, 7, 8, 9, 0xA] ++ if loadFrames = 0 then [] else [0x11]).all fun t => hasSect l variants t 2 (c / 64) (c % 64)

/-- The required module and die sections of a whole image (R253). -/
def moduleSectsOk (l : List SectEntry) (variants : Nat) : Bool :=
  ([1, 2, 3, 4, 6, 0xC, 0xD, 0xE, 0xF, 0x10, 0x12].all fun t => hasSect l variants t 0 0 0) &&
    (List.range 12).all fun d => hasSect l variants 6 1 d 0

/-! ### Sections whose layout the spec gives -/

/-- A ping-pong region (Table 13.4), if its fields are in range. -/
def regionAt (l : List Byte) (i : Nat) : Option Region :=
  let f := fun o n => leNat ((l.drop (32 + 32 * i + o)).take n)
  let r : Region := { base := f 0 8, side := f 8 8, length := f 16 8, kind := f 24 1, init := f 25 1 }
  if r.base % 4096 = 0 ∧ r.side % 4096 = 0 ∧ r.length % 4096 = 0 ∧ r.length ≤ r.side ∧ r.kind ≤ 2 ∧ r.init ≤ 2 ∧ f 26 6 = 0
  then some r else none

/-- The header and the entries of a PINGPONG section (R327), read into the rest of its decoded contents. -/
def pingpongOf (l : List Byte) (p : PingPongSect) : Option PingPongSect :=
  let f := fun o n => leNat ((l.drop o).take n)
  let n := f 16 2
  let rs := (List.range n).filterMap (regionAt l)
  if l.length < 32 + 32 * n ∨ 1024 < n ∨ f 18 14 ≠ 0 ∨ f 0 8 % 4096 ≠ 0 ∨ f 8 8 % 4096 ≠ 0 ∨ rs.length ≠ n then none
  else some { p with stageBase := f 0 8, stageLength := f 8 8, regions := rs }

/-- A REQUIRE section (Table 10.7). -/
def requireOf (l : List Byte) : Option CapRec :=
  let f := fun o n => leNat ((l.drop o).take n)
  let r : CapRec := { links := BitVec.ofNat 32 (f 8 4), hbmBytes := f 16 8, cores := (List.range 12).map fun d => f (24 + d) 1,
                      macros := ((List.range 768).map fun c => (c, f (96 + 2 * c) 2)).filter fun m => m.2 ≠ 0 }
  if l.length ≠ 1632 ∨ f 0 8 ≠ 0 ∨ f 12 4 ≠ 0 ∨ f 36 60 ≠ 0 ∨ (r.cores.any fun x => decide (64 < x)) ∨ (r.macros.any fun m => decide (256 < m.2))
  then none else some r

/-- The section of a module-scope type. -/
def moduleSect (l : List SectEntry) (ty : Nat) : Option SectEntry := l.find? fun e => decide (e.ty = ty) && decide (e.scope = 0)

/-- The contents of an image: what the command gives for the sections whose layout belongs to the compiler (log entry 11),
with what the spec lays out read from the image itself. None where a section does not decode. -/
def fullContent (s : State) (sl : SlotSt) (c? : Option ImageContent) : Option ImageContent := do
  let c ← c?
  let l := sects s sl
  let pp ← match moduleSect l 4 with
    | none => some c.pingpong
    | some e => pingpongOf (sectBytes s sl e) c.pingpong
  let rq ← match moduleSect l 0x12 with
    | none => some c.require
    | some e => requireOf (sectBytes s sl e)
  let d := imgDigest s sl
  return { c with
    imageId := BitVec.ofNat 64 d.toNat, digest := d, kind := imgFld s sl 9 1, group := imgFld s sl 10 1, variants := imgFld s sl 11 1,
    loadFrames := imgFld s sl 88 2, sharedId := BitVec.ofNat 64 (imgFld s sl 72 8), pingpong := pp, require := rq }

/-! ### The checks of Table 10.5 -/

/-- The instructions of a frame program from its start to its END; the fuel bounds them. -/
def programInstrs (code : List Byte) (o : Nat) : Nat → List (BitVec 256)
  | 0 => []
  | n + 1 =>
    let w := BitVec.ofNat 256 (leNat ((code.drop o).take 32))
    if code.length < o + 32 ∨ iOp w = 1 then [] else w :: programInstrs code (o + 32) n

/-- The distinct LAYERs of a core's UPDATE instructions (R248). -/
def trainedLayers (g : CoreSect) : List Nat :=
  nubN ((g.progs ++ g.inits).flatMap fun p =>
    ((programInstrs p.code p.start (p.code.length / 32)).filter fun w => iOp w = 0x19).map fun w =>
      dLayer (((g.descs.find? fun e => e.1 = iVb w).map (·.2)).getD 0))

/-- At most 64 transient macros, and none with INT2 row positions (R82, R95). -/
def rolesOk (g : CoreSect) : Bool :=
  let t := g.roles.filter fun r => decide (r.2.role = 2) || decide (r.2.role = 3)
  decide (t.length ≤ 64) && t.all fun r => !(decide (r.2.fmt = 2) && decide (r.2.posunit = 0))

/-- Segment maps give ports only to allowed classes (R154), and the versioned region is within its limits (R163). -/
def spadsOk (g : CoreSect) : Bool :=
  g.spads.all fun p =>
    (p.segs.all fun m => (m.1.all fun c => decide (c ≠ 3)) && m.2.all fun c => decide (c ≠ 1) && decide (c ≠ 2)) &&
      decide (p.vcount ≤ 4096) && decide (p.vbase + 3 * p.vcount ≤ 16384)

/-- The estimate map is consistent (R241). -/
def estOk (g : CoreSect) : Bool :=
  (g.estMaps.all fun m => decide (m.first + m.count ≤ 4096)) && disjoint (g.estMaps.map fun m => (m.first, m.count)) &&
    g.descs.all fun d => !(dScaleSrc d.2) || dOutScaled d.2

/-- Credit divisions lie within their queues (R278). -/
def creditsOk (g : CoreSect) : Bool :=
  g.tokens.all fun k => (List.range 26).all fun q =>
    decide (sumN ((k.credits.filter fun e => e.1 = q).flatMap (·.2)) ≤ queueDepth false q)

/-- The staging range (R327): below HBM_BYTES, clear of every region and of the history. -/
def stagingOk (s : State) (c : ImageContent) : Bool :=
  let p := c.pingpong
  let stage := (p.stageBase, p.stageLength)
  let regs := p.regions.flatMap fun r => [(r.base, r.length), (r.base + r.side, r.length)]
  let entries := sumN (c.cores.map fun g => sumN (g.estMaps.map (·.count)))
  let hist := if p.histAddr = 0 then [] else [(p.histAddr, 64 + 8 * entries), (p.histAddr + p.histSide, 64 + 8 * entries)]
  decide (p.stageLength = 0) ||
    (decide (p.stageBase + p.stageLength ≤ s.img.hbmBytes) && (regs ++ hist).all fun r => disjoint [stage, r])

/-- A group image holds only core-scope sections, of the allowed types, of cores in its group (R262). -/
def groupSectsOk (s : State) (l : List SectEntry) (group : Nat) : Bool :=
  match s.image with
  | none => false
  | some w => l.all fun e => decide (e.scope = 2) && [5, 6, 7, 8, 9, 0xA, 0xB, 0xD, 0x11].contains e.ty &&
      (nth [] w.groups group).contains (64 * e.die + e.core)

/-- Whether a value lies in a range. -/
def inRange (lo hi x : Nat) : Bool := decide (lo ≤ x) && decide (x ≤ hi)

/-- The DOMAIN section (R329): at most 4 children, a depth within the tree's, and the root at depth 0. -/
def domainOk (s : State) (d : DomainSect) : Bool :=
  let mid (i : Nat) : Bool := decide (i < 16384)
  d.members.all mid && mid d.root && ((d.parent.toList ++ d.children).all fun x => mid x.1 && decide (x.2 < 32)) &&
    decide (d.children.length ≤ 4) && decide (d.treeD < 16) && decide (d.depth ≤ d.treeD) &&
    decide (d.parent.isNone ↔ d.depth = 0) && (d.parent.isSome || decide (d.root = s.moduleId)) && inRange 4 15 d.replayMax

/-- The ROUTE section (Table 12.8): module IDs, links and hops that exist, and at most 3 choices. -/
def routesOk (r : RouteSect) : Bool :=
  ((r.vc0 ++ r.vc1).all fun e => decide (e.1 < 16384) && decide (e.2.links.length ≤ 3) && (e.2.links.all (· < 32)) && decide (e.2.hops ≤ 12)) &&
    r.expect.all fun e => decide (e.1 < 32) && decide (e.2.1 < 16384) && decide (e.2.2 < 32)

/-- The module-scope sections of a whole image load values that their registers and stores take, and name units that exist
(R253; Tables 2.11, 9.11, 9.12, 13.13, 14.2, 14.6, 14.7; R264, R327). -/
def moduleRangesOk (s : State) (c : ImageContent) : Bool :=
  let f := c.frame
  let link (i : Nat) : Bool := decide (i < 32)
  let mid (i : Nat) : Bool := decide (i < 16384)
  let p := c.pingpong
  let keys := c.reductions.flatMap fun r => r.members.map fun m => (m.1, m.2.1)
  decide (f.src < 4) && decide (f.masterIx < 4) && decide (f.dpPort < 2) && decide (f.trees.length ≤ 4) && decide (f.fallback.length ≤ 3) &&
    (f.trees.all fun t => (t.primary.toList ++ t.secondary.toList ++ t.down).all link) && (f.master :: f.fallback).all mid &&
    domainOk s c.domain && routesOk c.route &&
    (p.regions.all fun r => decide (r.base + r.side + r.length ≤ s.img.hbmBytes)) &&
    decide (sumN (p.regions.map fun r => r.length / 4096) ≤ 2 ^ 25) && decide (p.histAddr % 4096 = 0) && decide (p.histSide % 4096 = 0) &&
    decide (p.histAddr < 2 ^ 48) && decide (p.histSide < 2 ^ 48) &&
    decide (c.nmCtrl &&& 0x7FF73 = c.nmCtrl) && inRange 1 1024 (fld c.nmCtrl 8 11) &&
    decide (c.power.length = c.variants) && decide ((c.power.head?.map fun w => w.pLoad.length) = some c.loadFrames) &&
    (c.power.all fun w => inRange 8 1024 w.slew && inRange 1 20 w.flatPct && inRange 1 1024 w.groups && decide (w.step < 65536) && decide (w.actReq ≤ 100)) &&
    inRange 64 65535 c.varHold && decide (c.groups.length ≤ 16) && decide (c.groups.flatten.all (· < 768)) && decide c.groups.flatten.Nodup &&
    (keys.all fun k => decide (k.1 < 768) && decide (k.2 < 65536)) && decide keys.Nodup &&
    (c.reductions.all fun r => decide (r.destCore < 768) &&
      (decide (r.rootModule ≠ s.moduleId) || r.members.any fun m => decide (m.1 = r.destCore) && decide (m.2.1 = r.destSeq))) &&
    c.sides.all fun t => decide (t.destCore < 768) && t.members.all fun m => decide (m.1 < 768)

/-- Whether a program, its code and the kernels that run under its task lie in the task's code range, in a variant (R151, R195,
R220). -/
def programOk (g : CoreSect) (variant : Nat) (p : Program) : Bool :=
  let w := (((g.spads[variant]?).bind fun x => x.tasks[p.task]?).map (·.1)).getD 0
  let size := fld w 16 15 * 256
  decide (p.task < 16) && decide (p.start < p.code.length) && decide (p.code.length ≤ size) && decide (fld w 0 14 * 256 + size ≤ spSize) &&
    g.kernels.all fun k => decide (k.offset + k.length ≤ size)

/-- The plans of an instruction use no more replicas than its placement has (Table 7.3). -/
def planFits (g : CoreSect) (q : Nat × List TileRule) : Bool :=
  g.progs.all fun p =>
    match (programInstrs p.code p.start (p.code.length / 32))[q.1]? with
    | none => true
    | some w =>
      let d := ((g.descs.find? fun d => d.1 = iTd0 w).map (·.2)).getD 0
      !([0x10, 0x11, 0x12].contains (iOp w) && dFwTile d) || q.2.all fun r => decide (r.planRu ≤ dRepl d)

/-- The same for the sections of a core (Tables 3.11, 3.16, 6.14, 6.16, 7.3, 11.3, 11.10; R16, R154, R190, R220). -/
def coreRangesOk (c : ImageContent) (g : CoreSect) : Bool :=
  decide (g.core < 768) && inRange 1 15 g.scrubRows &&
    (g.roles.all fun r => decide (r.1 < 256) && decide (r.2.role ≤ 4) && decide (r.2.fmt ≤ 2) && decide (r.2.posunit ≤ 1) && decide (r.2.defer ≤ 1)) &&
    (g.descs.all fun d => decide (d.1 < 512)) && decide (g.spads.length = c.variants) && decide (g.tokens.length = c.variants) &&
    decide (g.progs.length = c.variants) && decide (g.inits.length = c.loadFrames) &&
    ((g.progs.zip (List.range c.variants)).all fun p => programOk g p.2 p.1) && (g.inits.all (programOk g 0)) && (g.policies.all (planFits g)) &&
    (g.spads.all fun p =>
      decide (p.tasks.length ≤ 16) && (p.tasks.all fun t => decide (t.1 &&& 0x7FFF3FFF = t.1) && decide (t.2 &&& 0x7FFF3FFF = t.2) &&
        decide (fld t.1 16 15 ≤ 16384) && decide (fld t.2 16 15 ≤ 16384)) &&
      ((List.range 32).all fun b => decide (fld p.bankPwr (2 * b) 2 ≠ 3)) && decide (p.segs.length ≤ 64) &&
      p.segs.all fun m => decide (m.1.length = 32) && decide (m.2.length = 32) && (m.1 ++ m.2).all fun x => decide (x < 6)) &&
    (g.tokens.all fun k => decide (k.wdog < 65536) && (k.levels.all fun l => decide (l.1 < 26) && decide (l.2 ≤ queueDepth false l.1)) &&
      (k.levels.map (·.1)).Nodup && k.credits.all fun q => decide (q.1 < 26)) && decide (g.kernels.length ≤ 255) && (g.estMaps.all fun m => decide (m.td < 512)) &&
    g.policies.all fun q => decide (q.1 < 65536) && decide (q.2.length ≤ 16) &&
      q.2.all fun r => inRange 1 1024 r.planMb && inRange 1 64 r.planRu && inRange 1 16 r.planWave

/-- Every section decodes under its type (R253, Table 10.5). -/
def rangesOk (s : State) (c : ImageContent) : Bool :=
  (decide (c.kind ≠ 0) || moduleRangesOk s c) && c.cores.all (coreRangesOk c)

/-- The decoded core sections are those of the cores that the image uses, one for each (R253). -/
def coresMatch (l : List SectEntry) (c : ImageContent) : Bool :=
  let used := usedCores l
  let have_ := c.cores.map (·.core)
  have_.all used.contains && used.all have_.contains && decide have_.Nodup

/-- The checks of step 6 that carry PROGRAM_ERROR. -/
def contentOk (s : State) (sl : SlotSt) (c : ImageContent) : Bool :=
  let l := sects s sl
  let whole := decide (c.kind = 0)
  (!whole || (decide (4000 ≤ c.frame.periodNs) && decide (c.frame.periodNs ≤ 1000000) && decide (c.frame.guardPct ≤ 50))) &&
    rangesOk s c && (c.cores.all fun g => rolesOk g && spadsOk g && estOk g && decide ((trainedLayers g).length ≤ 64) && creditsOk g) &&
    (!whole || c.fwTiling || decide (c.domain.members.length ≤ 64)) && coreSectsOk l c.variants c.loadFrames && coresMatch l c &&
    (if whole then moduleSectsOk l c.variants && stagingOk s c && c.domain.members.contains s.moduleId
     else groupSectsOk s l c.group)

/-- The outcome of verification (R254): the status, and the contents on success. -/
def verifyImage (s : State) (sl : SlotSt) (c? : Option ImageContent) : Nat × Option ImageContent :=
  let keyOk (k : BitVec 512) : Bool := decide (hashOf (keyBytes k) % 2 ^ 64 = imgFld s sl 80 8)
  let sig := BitVec.ofNat 512 (imgFld s sl 192 64)
  if !headerOk s sl then (stProgramError, none)
  else match s.sec.opKey with
    | none => (stBadSignature, none)
    | some k =>
      if !keyOk k then (stBadSignature, none)
      else if !Config.sm2Verify k (leBytes (imgDigest s sl).toNat 32) sig then (stBadSignature, none)
      else if hashOf (imgBytes s sl (sectTable s sl) (64 * sectCount s sl)) ≠ imgFld s sl 32 32 then (stBadSignature, none)
      else if !tableOk s sl then (stProgramError, none)
      else if (sects s sl).any fun e => hashOf (sectBytes s sl e) ≠ e.hash then (stBadSignature, none)
      else match fullContent s sl c? with
        | none => (stProgramError, none)
        | some c =>
          if !contentOk s sl c then (stProgramError, none)
          else if !withinCapacity s c.require then (stCapacityLowered, none)
          else (stOK, some c)

/-! ### The image commands -/

/-- Write an image slot. -/
def setSlot (i : Nat) (x : SlotSt) (s : State) : State := s.modImg fun g => { g with slots := g.slots.set i x }

/-- A slot of the image unit. -/
def State.slot (s : State) (i : Nat) : SlotSt := nth {} s.img.slots i

/-- IMG_VERIFY at its tick (R254, R390, R393, R421), with its status. -/
def cmdImgVerify (tag slot addr len : Nat) (s : State) : State × Nat :=
  let others := ((List.range 4).filter fun i => decide (i ≠ slot) && decide ((s.slot i).state ≠ 0)).map s.slot
  let clear := others.all fun o => disjoint [(o.addr, o.len), (addr, len)]
  if s.lcState ≠ 2 ∨ s.rebootReq ∨ s.debugOpen ∨ 4 ≤ slot ∨ (s.slot slot).state ≠ 0 ∨ addr % 4096 ≠ 0 ∨ s.img.hbmBytes < addr + len ∨ !clear
  then (s, stProgramError)
  else (setSlot slot { state := 1, addr := addr, len := len, tag := tag, content := none } s, stOK)

/-- IMAGE_VERIFY_DONE (R254, R416): the slot becomes VERIFIED, or EMPTY again; either raises an event of KIND 1. A whole
image verified while none is active gives its FRAME section to the next tick. -/
def verifyDone (slot : Nat) (c? : Option ImageContent) (s : State) : State :=
  let sl := s.slot slot
  if 4 ≤ slot ∨ sl.state ≠ 1 then s
  else
    match verifyImage s sl c? with
    | (st, none) => raiseKind 1 st slot 0 (setSlot slot {} s)
    | (st, some c) =>
      let s := setSlot slot { sl with state := 2, content := some c } s
      let s := whenS (decide (c.kind = 0) && !s.active) (fun t => t.modImg fun g => { g with nextFrame := some c.frame }) s
      raiseKind 1 st slot c.imageId.toNat s

/-- IMAGE_VERIFY_DONE. -/
def execImageVerifyDone (slot : Nat) (c? : Option ImageContent) (s : State) : Host.Outcome State Fault Refusal :=
  answer s (verifyDone slot c? s)

/-- The idle draw (R350). -/
def pIdle : Nat := 550

/-- What the governor needs for the pre-ramp of an accepted IMG_ACTIVATE (R360): frames to wait, target and slew. -/
def preRampOf (s : State) (c : ImageContent) : Option (Nat × Nat × Nat) :=
  (c.power[0]?).map fun p =>
    ((s.moduleId % max p.groups 1) * p.step, min (nth p.pFrame p.pLoad 0) (pIdle + 1200), p.slew)

/-- Whether a shift puts every task range of a group image within the scratchpad (R257). -/
def shiftOk (h : Nat) (c : ImageContent) : Bool :=
  c.cores.all fun g => g.spads.all fun p => p.tasks.all fun t =>
    decide (fld t.1 0 14 + h + fld t.1 16 15 ≤ 16384) && decide (fld t.2 0 14 + h + fld t.2 16 15 ≤ 16384)

/-- IMG_ACTIVATE at its tick (R257, R268), with its status. -/
def cmdImgActivate (slot a h : Nat) (s : State) : State × Nat :=
  match s.slotContent slot with
  | none => (s, stProgramError)
  | some c =>
    let whole := decide (c.kind = 0)
    if s.lcState ≠ 2 ∨ (s.slot slot).state ≠ 2 ∨ 2 ^ 64 ≤ a ∨ a < s.fn.toNat + 3 ∨ s.img.pend.isSome then (s, stProgramError)
    else if !whole && (((s.image.map fun w => decide (w.sharedId = c.sharedId)).getD false && shiftOk h c) = false) then
      (s, stProgramError)
    else if whole && !withinCapacity s c.require then (s, stCapacityLowered)
    else
      let first := s.domain.isNone
      let s := s.modImg fun g =>
        { g with pend := some { slot := slot, a := BitVec.ofNat 64 a, h := h, deferrals := 0, whole := whole, go := false } }
      let s := whenS first (fun t => t.modFx fun f => { f with nextFn := t.fn, noVote := [], received := [], old := [] }) s
      (whenS whole (fun t => (t.modFx fun f => { f with capHalt := false }).modPwr fun p => { p with preRamp := preRampOf t c }) s, stOK)

/-- IMG_RELEASE at its tick (R255), with its status. -/
def cmdImgRelease (slot : Nat) (s : State) : State × Nat :=
  let st := (s.slot slot).state
  if 4 ≤ slot ∨ st = 1 ∨ st = 3 then (s, stProgramError)
  else if st = 0 then (s, stOK)
  else (setSlot slot {} s, stOK)

end Sys2Proof.Machine
end

