-- ==== Sys2Proof/Machine/Activate.lean ====
section
/-! DEFINITION. Image activation (R260 to R262, R244, R256): the sections loaded, tags and versions reset, sides set and the
estimates started; and the loading of a FRAME section before the first image (R416). -/

namespace Sys2Proof.Machine

/-! ### The FRAME section -/

/-- A FRAME section is loaded (R35, R416). -/
def loadFrameSect (f : FrameSect) (s : State) : State :=
  let old := s.regFld ftSrc 0 2
  let s := (s.setReg ftPeriod (BitVec.ofNat 32 f.periodNs)).setReg ftGuard (BitVec.ofNat 32 f.guardPct)
  let s := (s.setReg ftSrc (BitVec.ofNat 32 (f.masterIx % 4 * 16 + f.dpPort % 2 * 4 + f.src % 4))).setReg ftExtOffset (f.extOffset.setWidth 32)
  sourceChanged old (s.modTk fun k => { k with sect := some f, period := f.periodNs })

/-! ### Estimates (R244, R245) -/

/-- Every mapped estimate entry of the module, in the order of the history. -/
def historyKeys (s : State) : List (Nat × Nat) := s.cores.flatMap fun c => (mappedEntries c.2).map fun e => (c.1, e)

/-- Whether a side of the scale history is valid for an image (R245). -/
def historyValid (s : State) (id : DWord) (side : Nat) : Bool :=
  let a := historySide s side
  let n := 8 * (historyKeys s).length
  decide (leNat (Mem.read s.hbm a 4) = 0x4E4D4853) && decide (leNat (Mem.read s.hbm (a + 16) 8) = id.toNat) &&
    decide (leNat (Mem.read s.hbm (a + 24) 4) = (crc32 (Mem.read s.hbm (a + 64) n)).toNat)

/-- The side of the scale history that an activation uses: the one with the larger FN if valid, else the other if valid. -/
def historyPick (s : State) (id : DWord) : Option Nat :=
  if s.reg64 nmHist = 0 then none
  else
    let fn (i : Nat) : Nat := leNat (Mem.read s.hbm (historySide s i + 8) 8)
    let a := if fn 0 < fn 1 then 1 else 0
    if historyValid s id a then some a else if historyValid s id (1 - a) then some (1 - a) else none

/-- An estimate entry from its 8 bytes (Table 9.7). -/
def estOfBytes (x : Nat) : Est :=
  { e := signed x 9, cold := bitN x 9, decay := x / 2 ^ 12 % 16, coldLeft := x / 2 ^ 16 % 512 }

/-- A cold entry of a descriptor's output format (R244). -/
def coldEst (c : Core) (e : Nat) : Est :=
  let td := ((c.cfg.bind fun g => g.estMaps.find? fun m => decide (m.first ≤ e) && decide (e < m.first + m.count)).map (·.td)).getD 0
  { e := fmtEmax (dOutEfmt (c.td td)) - 8, cold := true, decay := 0, coldLeft := 256 }

/-- The estimate tables of the affected cores start (R244). -/
def startEstimates (cores : List Nat) (id : DWord) (s : State) : State :=
  let pick := historyPick s id
  let keys := historyKeys s
  let s := forEach cores (fun i t =>
    let t := t.modCore i fun c => { c with est := [], stale := [] }
    if t.regBit (nmA i 0x14) 16 = pick.isSome then t else t.putBit (nmA i 0x14) 16 pick.isSome) s
  forEach (keys.zip (List.range keys.length)) (fun k t =>
    if cores.contains k.1.1 then
      let e := match pick with
        | some side => estOfBytes (leNat (Mem.read t.hbm (historySide t side + 64 + 8 * k.2) 8))
        | none => coldEst (t.core k.1.1) k.1.2
      t.modCore k.1.1 fun c => { c with est := SMap.set (fun _ => {}) c.est k.1.2 e }
    else t) s

/-! ### Cores -/

/-- A task base moved by H (R260). -/
def shiftTask (h : Nat) (t : Word × Word) : Word × Word :=
  (putFld t.1 0 14 (fld t.1 0 14 + h), putFld t.2 0 14 (fld t.2 0 14 + h))

/-- A core's sections with H added to every task base. -/
def shiftSect (h : Nat) (g : CoreSect) : CoreSect :=
  { g with spads := g.spads.map fun p => { p with tasks := p.tasks.map (shiftTask h) } }

/-- The word of a role (Table 3.16), beside PMACRO. -/
def roleBits (r : RoleEntry) : Nat := r.role % 8 + r.fmt % 4 * 8 + r.posunit % 2 * 32 + r.defer % 2 * 64

/-- MC_ROLE and MC_SCRUB of a core; a macro without an entry takes ROLE 0. -/
def loadRoles (core rows : Nat) (roles : List (Nat × RoleEntry)) (s : State) : State :=
  let s := forEach (List.range 256) (fun m t =>
    t.setFld (roleA core m) 0 8 (match roles.find? fun r => r.1 = m with
      | some r => roleBits r.2
      | none => 0)) s
  s.setFld (mcA core 0) 12 4 rows

/-- Banks that leave or enter the OFF state lose their contents: an OFF bank is all zero when it is next ON (Table 6.6). -/
def clearOffBanks (core : Nat) (old : Nat → Nat) (s : State) : State :=
  let base := s.pcIx core * 2 ^ 22
  let off (k : Nat) : Bool := decide (base ≤ k) && decide (k < base + 2 ^ 22) &&
    (decide (old (k % 2 ^ 22 / 64 % 32) = 0) || decide (bankPwr s core (k % 2 ^ 22 / 64 % 32) = 0))
  { s with spad := s.spad.filter fun e => !off e.1,
           err := { s.err with spFlip := s.err.spFlip.filter fun e => !off (e.1 * 4) } }

/-- The bank power states that SP_BANK_PWR holds come into force (R167). -/
def setBanks (core : Nat) (s : State) : State :=
  let v : BitVec 64 := s.reg (spA core 0x24) ++ s.reg (spA core 0x20)
  if (s.core core).banks = v then s else s.modCore core fun c => { c with banks := v }

/-- The configuration of one core takes effect (R253, R260, Table 10.4). -/
def loadCore (core : Nat) (g? : Option CoreSect) (s : State) : State :=
  let old := fun b => bankPwr s core b
  let s := s.modCore core fun c =>
    { c with cfg := g?, desc := [], full := [], ver := [], gather := [], prog := none, loaded := none, ended := false, waiting := none,
             ops := [], macros := [], localPos := [], windows := [], winPend := [], waits := [] }
  let s := match g? with
    | none =>
      let s := loadRoles core (s.regFld (mcA core 0) 12 4) [] s
      let bits (lo : Nat) : Word := BitVec.ofNat 32 (sumN ((List.range 16).map fun i => (if bankRetired s core (lo + i) then 3 else 0) * 4 ^ i))
      (s.setReg (spA core 0x20) (bits 0)).setReg (spA core 0x24) (bits 16)
    | some g =>
      let s := s.modCore core fun c => { c with desc := g.descs.foldl (fun m d => SMap.set (fun _ => 0) m d.1 d.2) [] }
      loadToken core g (loadSpad core true g (loadRoles core g.scrubRows g.roles s))
  clearOffBanks core old (setBanks core s)

/-- Every position tag of the affected cores becomes FREE, and every result tag EMPTY (R260, R379). -/
def freeTags (cores : List Nat) (s : State) : State :=
  let mine := cores.map s.pcIx
  let s := { s with ptags := s.ptags.filter fun e => !mine.contains (e.1 / 512 / 264) }
  s.modPort fun p => { p with resultTags := p.resultTags.filter fun e => !cores.contains (e.1 / 4096),
                              resultInfo := p.resultInfo.filter fun e => !cores.contains (e.1 / 4096) }

/-! ### Activation -/

/-- The entries of an inherited region's units, under its new number. -/
def inheritUnits {α : Type} [DecidableEq α] (d : Nat → α) (old : List (Nat × Region)) (src : SMap α) (e : Nat × Region)
    (m : SMap α) : SMap α :=
  match old.find? fun o => decide (o.2.base = e.2.base) && decide (o.2.length = e.2.length) with
  | none => m
  | some o => (src.filter fun x => decide (x.1 / 2 ^ 30 = o.1)).foldl (fun m x => SMap.set d m (e.1 * 2 ^ 30 + x.1 % 2 ^ 30) x.2) m

/-- The sides of the regions of a new image (R260): what the image names; an inherited region keeps its sides. -/
def initialSides (old : List (Nat × Region)) (sides : SMap Bool) (new : List Region) : SMap Bool :=
  ((List.range new.length).zip new).foldl (fun m e =>
    let units := List.range (e.2.length / 4096)
    if e.2.init = 1 then units.foldl (fun m u => SMap.set (fun _ => false) m (e.1 * 2 ^ 30 + u) true) m
    else if e.2.init = 2 then
      inheritUnits (fun _ => false) old sides e m
    else m) []

/-- What the inherited regions of a new image hold, unit by unit. -/
def initialInfo (old : List (Nat × Region)) (info : SMap (DWord × Word)) (new : List Region) : SMap (DWord × Word) :=
  ((List.range new.length).zip new).foldl (fun m e => if e.2.init = 2 then inheritUnits (fun _ => (0, 0)) old info e m else m) []

/-- The state of a slot changes. -/
def slotState (i st : Nat) (s : State) : State := setSlot i { s.slot i with state := st } s

/-- At activation every UP link whose peer is not the one that the new image names goes to UNTRAINED (R295). -/
def checkWiring (c : ImageContent) (s : State) : State :=
  forEach c.route.expect (fun e t =>
    let wired := ((t.link e.1).peer.map fun p => decide (p.mid = e.2.1) && decide (p.lnk = e.2.2)).getD false
    if t.linkUp e.1 && !wired then setLinkState e.1 4 5 (t.setBit clSticky 6) else t) s

/-- A whole image becomes active at tick A (R256, R260). -/
def activateWhole (p : Pend) (c : ImageContent) (s : State) : State :=
  let oldRegions := s.regions
  let s := forEach ((s.img.whole.toList) ++ s.img.groups.map (·.2)) (fun i t => slotState i 2 t) s
  let s := slotState p.slot 3 s
  let s := s.modImg fun g =>
    { g with whole := some p.slot, groups := [], groupBase := [], actA := p.a, wholeA := p.a, pend := none, varCount := 0, varSkip := true, updRec := [],
             sides := initialSides oldRegions g.sides c.pingpong.regions,
             unitInfo := initialInfo oldRegions g.unitInfo c.pingpong.regions, quietTo := 0, quietGroup := none }
  let s := loadFrameSect c.frame s
  let s := s.setFld fxCtrl 0 4 c.domain.replayMax
  let s := (s.setReg64 nmHist (BitVec.ofNat 64 c.pingpong.histAddr)).setReg64 nmHistSide (BitVec.ofNat 64 c.pingpong.histSide)
  let s := (s.setReg nmCtrl c.nmCtrl).setFld ftStatus 8 2 0
  let s := loadPower 0 s
  let s := forEach allCores (fun i t =>
    (loadCore i (c.cores.find? fun g => g.core = i) t).putBit (sqA i 0) 31 c.fwTiling) s
  let s := freeTags allCores s
  let s := startEstimates allCores c.imageId (checkWiring c s)
  let s := s.modFx fun f =>
    { f with wfn := p.a - 1, halt := 0, hold := false, rework := [], attempts := 0, resumeAt := none, exportPeer := none, lastWork := {} }
  raiseKindAt p.a 2 stOK 0 p.a.toNat (s.modPwr fun w => { w with preRamp := none, ramping := false })

/-- The section of a core in a group image: H is added to every task base, and the tiling policies stay those of the whole image
(R260, R262). -/
def groupSect (s : State) (h : Nat) (g : CoreSect) : CoreSect :=
  { shiftSect h g with
    policies := ((s.image.bind fun w => w.cores.find? fun x => x.core = g.core).map (·.policies)).getD [] }

/-- A group image becomes active at tick A (R260, R262): core-scope state of the cores of its group. -/
def activateGroup (p : Pend) (c : ImageContent) (s : State) : State :=
  let cores := (s.image.map fun w => nth [] w.groups c.group).getD []
  let s := forEach (s.img.groups.filter fun g => g.1 = c.group) (fun g t => slotState g.2 2 t) s
  let s := slotState p.slot 3 s
  let s := s.modImg fun g =>
    { g with groups := (g.groups.filter fun x => x.1 ≠ c.group) ++ [(c.group, p.slot)], actA := p.a, pend := none,
             groupBase := (g.groupBase.filter fun x => x.1 ≠ c.group) ++ [(c.group, s.fx.wfn + 1)] }
  let s := forEach cores (fun i t => loadCore i ((c.cores.find? fun g => g.core = i).map (groupSect t p.h)) t) s
  let s := freeTags cores s
  let s := startEstimates cores ((s.image.map (·.imageId)).getD 0) s
  raiseKindAt p.a 2 stOK 0 p.a.toNat (s.modFx fun f => { f with exportPeer := none })

/-- A pending activation whose readiness has succeeded is carried out (R260). -/
def activate (s : State) : State :=
  match s.img.pend with
  | none => s
  | some p =>
    if !p.go then s
    else match s.slotContent p.slot with
      | none => s
      | some c => if p.whole then activateWhole p c s else activateGroup p c s

/-- IMAGE_ACTIVATION: at tick A, before the frame that starts there. -/
def execImageActivation (s : State) : Host.Outcome State Fault Refusal :=
  answer s (if (s.img.pend.map fun p => decide (p.a = s.fn + 1)).getD false then activate s else s)

/-- Readiness has failed (R259): A is deferred by 4 frames, or after 16 deferrals the activation is abandoned. -/
def deferActivation (s : State) : State :=
  match s.img.pend with
  | none => s
  | some p =>
    let own := ((s.slotContent p.slot).map fun c => withinCapacity s c.require).getD true
    if 16 ≤ p.deferrals then
      let s := s.modImg fun g =>
        { g with pend := none, quietTo := p.a + 1,
                 quietGroup := if p.whole then none else (s.slotContent p.slot).map (·.group) }
      raiseKindAt (resultTick s) 2 stReplayExhausted 0 p.a.toNat (s.modPwr fun w => { w with preRamp := none, ramping := false })
    else
      let s := s.modImg fun g => { g with pend := some { p with a := p.a + 4, deferrals := p.deferrals + 1 } }
      raiseKindAt (resultTick s) 2 (if own then stOK else stCapacityLowered) 0 (p.a + 4).toNat s

end Sys2Proof.Machine
end

