-- ==== Sys2Proof/Machine/Apply.lean ====
section
/-! DEFINITION. Applying a vote result (R335 to R338), and the choice of the work that a frame runs (R258, R261, R320,
R334, R335). -/

namespace Sys2Proof.Machine

/-! ### The work of a frame -/

/-- The load frame that a WFN is under the active whole image, or an ordinary frame (R261). -/
def kindOf (s : State) (w : DWord) : FrameKind :=
  let k := (w - s.img.wholeA).toNat
  if k < (s.image.map (·.loadFrames)).getD 0 then .load k else .program

/-- Whether a pending activation makes a frame quiet: frames A − 2 and A − 1, and every frame since a first A was deferred
(R258, R259). -/
def beforeActivation (s : State) (fn : DWord) : Bool :=
  match s.img.pend with
  | none => false
  | some p => decide (p.a.toNat ≤ fn.toNat + 4 * p.deferrals + 2) && decide (fn.toNat < p.a.toNat)

/-- The core group that runs a frame quiet (R258, R259). -/
def quietGroupOf (s : State) (fn : DWord) : Option Nat :=
  match s.img.pend with
  | some p => if beforeActivation s fn && !p.whole then (s.slotContent p.slot).map (·.group) else none
  | none => if fn.toNat < s.img.quietTo.toNat then s.img.quietGroup else none

/-- Whether every core runs a frame quiet because of an activation. -/
def quietForActivation (s : State) (fn : DWord) : Bool :=
  match s.img.pend with
  | some p => beforeActivation s fn && p.whole
  | none => decide (fn.toNat < s.img.quietTo.toNat) && s.img.quietGroup.isNone

/-- The work of the frame that begins at tick fn (R320, R335): quiet with no image, under a halt and under a hold; discarded
work first; quiet before an activation; else new work. -/
def chooseWork (fn : DWord) (s : State) : FrameRec × State :=
  let quiet (w : DWord) : FrameRec := { fn := fn, wfn := w }
  if !s.active then (quiet fn, s.modFx fun f => { f with wfn := fn })
  else if s.fx.halt ≠ 0 then (quiet s.fx.cur.wfn, s)
  else if s.fx.hold then (quiet ((s.fx.rework.head?.map (·.wfn)).getD s.fx.cur.wfn), s)
  else match s.fx.rework with
    | r :: rest =>
      ({ fn := fn, wfn := r.wfn, kind := r.kind, attempt := r.attempt, inputs := r.inputs, groupQuiet := r.groupQuiet, shpSets := r.shpSets,
         inPlace := !canRun s }, s.modFx fun f => { f with rework := rest })
    | [] =>
      if quietForActivation s fn then
        let w := if s.fx.wfn + 1 = fn then fn else s.fx.wfn
        (quiet w, s.modFx fun f => { f with wfn := w })
      else
        let w := s.fx.wfn + 1
        ({ fn := fn, wfn := w, kind := kindOf s w, groupQuiet := quietGroupOf s fn, inPlace := !canRun s },
          s.modFx fun f => { f with wfn := w })

/-! ### Replay and halt -/

/-- The frames whose results are not applied yet, oldest first, and the running one. -/
def openFrames (s : State) : List FrameRec := s.fx.old ++ [s.fx.prev, s.fx.cur]

/-- The second frame that a replay or a halt discards (R335): the one after the frame voted on. -/
def secondFrame (s : State) (h : FrameRec) : FrameRec :=
  (((openFrames s).dropWhile fun f => f.fn ≠ h.fn).drop 1).headD {}

/-- Discard a frame and the one after it; no vote is cast on the second, and votes in flight are dropped (R335). -/
def discardPair (attempt : Nat) (h : FrameRec) (s : State) : State :=
  let b := secondFrame s h
  let s := discardFrames attempt h b s
  s.modFx fun f => { f with noVote := (f.noVote.filter fun x => f.nextFn ≤ x) ++ [b.fn], own := none, children := [] }

/-- The count of a work frame's failed attempts takes what the failed vote carries (R321). -/
def countAttempt (r : VotePl) (h : FrameRec) (s : State) : State :=
  if h.kind = .quiet then s else s.modFx fun f => { f with attempts := r.attempt, attemptWfn := h.wfn }

/-- A REPLAY is applied (R335, R347). -/
def applyReplay (r : VotePl) (h : FrameRec) (s : State) : State :=
  let s := countAttempt r h (discardPair r.attempt h s)
  let s := (s.setBit fxSticky 1).addCnt fxCnt 16 16 1
  let s := s.modImg fun g => { g with varCount := 0, varSkip := true }
  raiseFx (resultTick s) 1 0xFF 3 s

/-- Whether LOST caused a HALT_EXHAUSTED (R335, Table 13.7): a vote that this node combined says so, or no other row of the table
gives the outcome, the attempts being below REPLAY_MAX and a slower variant present (DEDUCED, log entry 128). -/
def lostHalt (s : State) (r : VotePl) : Bool :=
  let slowest := ((s.image.map fun c => decide (s.variant + 1 = c.variants))).getD true
  (s.fx.combined.map fun v => decide (v.fn = r.fn) && vflag v 7).getD false ||
    (decide (r.attempt < s.regFld fxCtrl 0 4) && !slowest)

/-- A halt begins (R268, R335): kind 1 exhausted, 2 capacity, 3 version lost. Its event is raised once. A HALT_CAPACITY ends only by
an activation, so that a resume tick taken before it is void (R337). -/
def applyHalt (r : VotePl) (h : FrameRec) (s : State) : State :=
  let capacity := decide (r.flags = 3)
  let lost := lostHalt s r
  let k := if capacity then 2 else if lost then 3 else 1
  let s := whenS (decide (s.fx.halt = 0)) (fun t => countAttempt r h (discardPair r.attempt h t)) s
  let begins := decide (s.fx.halt = 0)
  let s := if begins ∨ capacity then s.modFx fun f => { f with halt := k, resumeAt := if capacity then none else f.resumeAt } else s
  let (a, b, st) : Nat × Nat × Nat :=
    if capacity then (fxCapSum, 31, stCapacityLowered)
    else (fxSticky, if k = 3 then 8 else 9, stReplayExhausted)
  let s := whenS (begins || capacity) (fun t => t.setBit a b) s
  let s := whenS (begins && !capacity) (fun t => t.setBit fxSticky 9) s
  whenS begins (pushEvent (event0 (resultTick s) a b st (r.firstFail % 65536))) s

/-- The HOLD action of a result (R335, R347). -/
def applyHold (hold : Bool) (s : State) : State :=
  let was := s.fx.hold
  let s := s.modFx fun f => { f with hold := hold }
  if hold && !was then raiseFx (resultTick s) 2 0xFF 4 (s.setBit fxSticky 2)
  else if !hold && was then raiseFx (resultTick s) 2 0xFF 5 s
  else s

/-- VAR_DOWN and VAR_UP (R56, R264). -/
def applyVariant (down up : Bool) (s : State) : State :=
  let n := (s.image.map (·.variants)).getD 1
  if down && decide (s.variant + 1 < n) then setVariant (s.variant + 1) s
  else if up && decide (0 < s.variant) then setVariant (s.variant - 1) s
  else s

/-- Readiness of a pending activation at the result of frame A − 2, or at the discard of that frame (R259): the module goes
on to activate, or defers. -/
def applyReadiness (r : VotePl) (h : FrameRec) (s : State) : State :=
  match s.img.pend with
  | none => s
  | some p =>
    let commit := decide (r.flags = 0)
    if p.go then s
    else if h.fn + 2 = p.a then
      let own := ((s.fx.own.filter fun v => v.fn = h.fn).map fun v => vflag v 4).getD false
      if commit && (if p.whole then bit r.actions 3 else own) then
        s.modImg fun g => { g with pend := some { p with go := true } }
      else deferActivation s
    else if !commit && decide (h.fn + 3 = p.a) then deferActivation s
    else s

/-- After a result that came late is applied, the frames it decides for, which ran quiet in place, take the work that the
rest of the domain ran in them (R334). -/
def assignFrame (fn : DWord) (s : State) : State :=
  if (openFrames s).any fun f => f.fn = fn && f.inPlace && f.kind = .quiet then
    let (w, s) := chooseWork fn s
    let put (f : FrameRec) : FrameRec :=
      if f.fn = fn then
        { f with wfn := w.wfn, kind := w.kind, attempt := w.attempt, inputs := w.inputs, groupQuiet := w.groupQuiet,
                 shpSets := w.shpSets }
      else f
    s.modFx fun f => { f with old := f.old.map put, prev := put f.prev, cur := put f.cur }
  else s

/-- The versions of a core move up by one frame: what the later of two open frames wrote becomes what the earlier wrote. -/
def shiftCore (c : Core) : Core :=
  { c with ver := (c.ver.map fun e => (e.1, { e.2 with pendPrev := e.2.pendCur, pendCur := none, tdsPrev := e.2.tdsCur,
                                                         tdsCur := [], mdPrev := e.2.mdCur, mdCur := 0 })).filter fun e => e.2 ≠ {},
           prev := c.cur, cur := { winCopy := c.cur.winCopy } }

/-- Shift every core, and the copies of the shape registers. -/
def shiftCores (s : State) : State :=
  { s with cores := (s.cores.map fun e => (e.1, shiftCore e.2)).filter fun e => e.2 ≠ {}, fx := { s.fx with shpPrev := s.fx.shpCur } }

/-- The oldest result to apply, with its frame: the result of frame `nextFn`, once it is held and that frame has ended. -/
def nextResult (s : State) : Option (VotePl × FrameRec) :=
  match s.fx.received.find? fun r => r.fn = s.fx.nextFn, (s.fx.old ++ [s.fx.prev]).find? fun f => f.fn = s.fx.nextFn with
  | some r, some h => if s.fx.applied then none else some (r, h)
  | _, _ => none

/-- The frame after a frame whose result has been applied that has a result of its own. -/
def afterFrame (s : State) (fn : DWord) : DWord := if s.fx.noVote.contains (fn + 1) then fn + 2 else fn + 1

/-- A result is applied to its frame (R335). -/
def applyOutcome (r : VotePl) (h : FrameRec) (s : State) : State :=
  let s := if r.flags = 0 then commitFrame h s
    else if r.flags = 1 then applyReplay r h s
    else applyHalt r h s
  let s := applyHold (bit r.actions 0) s
  applyReadiness r h (applyVariant (bit r.actions 1) (bit r.actions 2) s)

/-- VOTE_RESULT_APPLY (R334, R335): the next result in order is applied. A result that comes late is applied at once, and its
activation too. -/
def applyNext (s : State) : State :=
  match nextResult s with
  | none => s
  | some (r, h) =>
    let late := !s.fx.old.isEmpty
    let s := applyOutcome r h s
    let next := afterFrame s r.fn
    let s := s.modFx fun f =>
      { f with nextFn := next, received := f.received.filter fun x => x.fn ≠ r.fn, applied := !late,
               old := f.old.filter fun x => next ≤ x.fn }
    if !late then s
    else
      let s := activate (if r.flags = 0 then shiftCores s else s)
      let s := assignFrame (r.fn + 2) s
      if next = r.fn + 1 then s else assignFrame (r.fn + 3) s

/-- VOTE_RESULT_APPLY. -/
def execVoteResultApply (s : State) : Host.Outcome State Fault Refusal := answer s (applyNext s)

end Sys2Proof.Machine
end

