-- ==== Sys2Proof/Machine/Recovery.lean ====
section
/-! DEFINITION. Retirement and its restores (R266, R339 to R345), the online self-test (R418 to R420), and the commands
FX_RESUME and FX_EXPORT. -/

namespace Sys2Proof.Machine

/-! ### Units and spares -/

/-- Physical macros of a core that serve its usable logical macros. -/
def usedMacros (s : State) (core : Nat) : List Nat :=
  (List.range (SMap.get (fun _ => 256) s.img.macros core)).map fun lm => s.regFld (roleA core lm) 8 9

/-- Whether a physical macro of a core's physical core is retired. -/
def macroRetired (s : State) (core pm : Nat) : Bool := s.isRetired 0 (s.pcIx core * 264 + pm)

/-- The lowest free spare macro of a core, other than those listed (R339). -/
def freeSpare (s : State) (core : Nat) (but : List Nat) : Option Nat :=
  (List.range 264).find? fun pm => !(usedMacros s core).contains pm && !macroRetired s core pm && !but.contains pm

/-- Whether a physical core is retired. -/
def coreRetired (s : State) (die pcore : Nat) : Bool := s.isRetired 26144 (die * 66 + pcore)

/-- The lowest free spare core of a die (R340). -/
def freeCore (s : State) (die : Nat) : Option Nat :=
  (List.range 66).find? fun p => (logicalOf s die p).isNone && !coreRetired s die p

/-! ### Copies -/

/-- The uncorrectable words of a physical array: word number and flips. -/
def badWords (s : State) (pm : Nat) : List (Nat × BitVec 39) :=
  (s.err.macFlip.filter fun e => decide (pm * 8192 ≤ e.1) && decide (e.1 < (pm + 1) * 8192)).filterMap fun e =>
    match eccOf e.2 with
    | .uncorr p => some (e.1 % 8192, p)
    | _ => none

/-- The errors of an array that stay after its whole content is written anew: those of its hard bits. -/
def freshErrors (pm : Nat) (e : ErrSt) : ErrSt :=
  let hard := e.macHard.filter fun x => decide (pm * 8192 ≤ x.1) && decide (x.1 < (pm + 1) * 8192)
  { e with
    macFlip := hard.foldl (fun m x => SMap.set (fun _ => 0) m x.1 x.2) (SMap.dropRange e.macFlip (pm * 8192) ((pm + 1) * 8192)),
    scaleFlip := SMap.dropRange e.scaleFlip (pm * 512) ((pm + 1) * 512),
    rowRes := SMap.dropRange e.rowRes (pm * 1024) ((pm + 1) * 1024),
    colRes := SMap.dropRange e.colRes (pm * 2048) ((pm + 1) * 2048),
    colFlip := SMap.dropRange e.colFlip (pm * 512) ((pm + 1) * 512) }

/-- The uncorrectable words of a physical macro's scale store (R99): word number and flips. -/
def badScales (s : State) (pm : Nat) : List (Nat × BitVec 39) :=
  (s.err.scaleFlip.filter fun e => decide (pm * 512 ≤ e.1) && decide (e.1 < (pm + 1) * 512)).filterMap fun e =>
    match eccOf e.2 with
    | .uncorr p => some (e.1 % 512, p)
    | _ => none

/-- The location of a physical macro's SECDED. -/
def macroLoc (pm : Nat) : Loc := { unit := 0, die := pm / 264 / 66, pcore := pm / 264 % 66, index := pm % 264, det := 1 }

/-- A current version cannot be read back at a location (R343): it is recorded as a detected fault, and the module votes LOST. -/
def lostAt (l : Loc) (s : State) : State := versionLost (detectFault l s)

/-- Copy a physical array onto another through SECDED-corrected reads (R339, R418): rows, scale store and position tags; an
uncorrectable word arrives as sensed. -/
def copyArray (src dst : Nat) (s : State) : State :=
  let bad := badWords s src
  let sc := badScales s src
  let s := { s with mac := Mem.copyRange s.mac (src * 32768) (dst * 32768) 32768,
                    scale := Mem.copyRange s.scale (src * 2048) (dst * 2048) 2048,
                    ptags := (s.ptags.filter fun e => decide (e.1 / 512 = src)).foldl
                      (fun m e => SMap.set (fun _ => .free) m (dst * 512 + e.1 % 512) e.2) (SMap.dropRange s.ptags (dst * 512) ((dst + 1) * 512)),
                    err := freshErrors dst s.err }
  forEach bad (fun w t => forEach (List.range 4) (fun i t =>
    { t with mac := Mem.set t.mac (dst * 32768 + w.1 * 4 + i) (arrByte t dst (w.1 * 4 + i) ^^^ patByte w.2 i) }) t)
    (forEach sc (fun w t => forEach (List.range 4) (fun i t =>
      let a := dst * 2048 + w.1 * 4 + i
      { t with scale := SMap.set (fun _ => 0) t.scale a (SMap.get (fun _ => 0) t.scale a ^^^ patByte w.2 i) }) t) s)

/-- The WRITE_W of a core's programs that writes a resident or streamed macro: source, placement, iteration, K and N tile. -/
def weightSource (s : State) (core lm : Nat) : Option (Nat × Nat × Nat × Nat × Nat) :=
  (s.core core).cfg.bind fun g =>
    let ps := g.inits ++ (g.progs[s.variant]?).toList
    let ws := (ps.flatMap fun p => programInstrs p.code p.start (p.code.length / 32)).filter fun w =>
      decide (iOp w = 0x0B) && iAll w && !iB205 w
    ws.findSome? fun w =>
      let d := (s.core core).td (iTd1 w)
      (List.range (dBMax d)).findSome? fun b =>
        ((placeTiles d b).find? fun t => t.2.2 = lm).map fun t => (iTd0 w, iTd1 w, b, t.1, t.2.1)

/-- A resident or streamed macro takes its contents from the current side of its weight image (R234, R339). -/
def restoreTile (core lm : Nat) (s : State) : State :=
  match weightSource s core lm with
  | none => s
  | some (td0, td1, b, kt, nt) =>
    let src := opdOf s core td0
    let w := opdOf s core td1
    let fmt := s.mfmt core lm
    let rows := tileRows w.d kt
    let cols := tileCols w.d fmt nt
    let s := forEach (List.range 512) (fun r s =>
      let nb := if r < rows then cdiv (cols * wBits fmt) 8 else 0
      let (l, _, s) := hbmRead (rowAddr src b (kt * 512 + r) + nt * 64) nb s
      let codes := (List.range cols).map fun j => elemCode fmt l j
      let bytes := if r < rows then packRow fmt codes else []
      writeArrRow core lm r (bytes ++ List.replicate (64 - bytes.length) 0) s) s
    let pm := s.pmIx core lm
    forEach (List.range (chansOf fmt)) (fun j s =>
      let sc := tileScales w src fmt b kt nt j fun a => (Mem.get s.hbm (hbmReadAddr s a)).toNat
      forEach ((List.range sc.length).zip sc) (fun x s => putScale pm (x.1 * chansOf fmt + j) x.2 s) s) s

/-- The contents of a logical macro are restored on the physical macro that now serves it (R339): resident and streamed
macros from their weight image, a kept transient from the macro `old` it had; a word that cannot be read back is a lost
version (R343). -/
def restoreMacro (core lm old : Nat) (s : State) : State :=
  let role := s.role core lm
  if role = 1 ∨ role = 4 then restoreTile core lm s
  else if role = 3 then
    copyArray old (s.pmIx core lm) (whenS (!(badWords s old).isEmpty || !(badScales s old).isEmpty) (lostAt (macroLoc old)) s)
  else s

/-! ### Macro retirement (R266, R339) -/

/-- Put a logical macro onto a physical one. -/
def setPmacro (core lm pm : Nat) (s : State) : State := s.setFld (roleA core lm) 8 9 pm

/-- A rotation step ends: the spare is free again. -/
def endRotation (core : Nat) (s : State) : State :=
  let rot := (s.core core).rotation
  let s := s.modCore core fun c => { c with rotation := none }
  match rot.bind (·.lm) with
  | none => s
  | some lm => s.modBist fun b => { b with pmacroOf := SMap.set (fun _ => 0) b.pmacroOf (core * 256 + lm) 0 }

/-- A borrowed spare gives its contents back, when a retirement needs it (R419). -/
def giveBack (core : Nat) (s : State) : State :=
  match (s.core core).rotation with
  | none => s
  | some r =>
    let s := whenS r.lm.isSome (copyArray (s.pcIx core * 264 + r.spare) (s.pcIx core * 264 + r.home)) s
    endRotation core (s.modCore core fun c => { c with nextRot := r.home })

/-- The capacity of a core falls by one logical macro, the highest (R266): its number is no longer offered. -/
def loseMacro (core : Nat) (s : State) : State :=
  let n := SMap.get (fun _ => 256) s.img.macros core
  capacityChanged stCapacityLowered (s.modImg fun g => { g with macros := SMap.set (fun _ => 256) g.macros core (n - 1) })

/-- Move a logical macro off a failed physical one: to a spare, or else to the physical macro of the highest logical number;
`keep` moves its contents. -/
def remapMacro (core lm pm : Nat) (spare : Option Nat) (keep : Bool) (s : State) : State :=
  let old := s.pcIx core * 264 + pm
  let restore (t : State) : State := if keep then restoreMacro core lm old t else copyArray old (t.pmIx core lm) t
  match spare with
  | some q => restore (setPmacro core lm q s)
  | none =>
    let top := SMap.get (fun _ => 256) s.img.macros core - 1
    let s := loseMacro core s
    if lm = top then s else restore (setPmacro core lm (s.regFld (roleA core top) 8 9) s)

/-- The retirement of a physical macro of a core: the map, and the logical macro that it serves. A spare that fails its
own test is retired too, and the retirement begins again (DEDUCED, log entry 62). -/
def retireMacro (r : Retire) (core : Nat) (testPass : Bool) (s : State) : State × Bool :=
  let s := (s.markRetired 0 (s.pcIx core * 264 + r.index)).setBit fxSticky 3
  let rot := (s.core core).rotation
  match rot with
  | some ⟨home, some lm, spare, _, _⟩ =>
    if spare = r.index then
      let s := endRotation core (s.modCore core fun c => { c with nextRot := home })
      match freeSpare s core [home] with
      | some q =>
        if testPass then (restoreMacro core lm (s.pcIx core * 264 + spare) (setPmacro core lm q s), true)
        else (s.markRetired 0 (s.pcIx core * 264 + q), false)
      | none => (restoreMacro core lm (s.pcIx core * 264 + spare) s, true)
    else mapped (giveBack core s)
  | _ => mapped (giveBack core s)
where
  /-- The logical macro whose home the failed macro is, if any, moves to the lowest free spare. -/
  mapped (s : State) : State × Bool :=
    match (List.range (SMap.get (fun _ => 256) s.img.macros core)).find? fun lm => s.regFld (roleA core lm) 8 9 = r.index with
    | none => (s, true)
    | some lm =>
      match freeSpare s core [] with
      | some q =>
        if testPass then (remapMacro core lm r.index (some q) true s, true) else (s.markRetired 0 (s.pcIx core * 264 + q), false)
      | none => (remapMacro core lm r.index none true s, true)

/-- Whether the die controller may run a retirement: in a hold, under a halt, or with no image (R339). -/
def mayRetire (s : State) : Bool := s.fx.hold || decide (s.fx.halt ≠ 0) || !s.active

/-- Mark a retirement as carried out, apart from its completion. -/
def startRetire (r : Retire) (s : State) : State :=
  s.modFx fun f => { f with retires := f.retires.map fun x => if x = r then { r with started := true } else x }

/-- The oldest retirement of some units that has not been carried out. -/
def nextRetire (s : State) (units : List Nat) : Option Retire := s.fx.retires.find? fun r => units.contains r.unit && !r.started

/-- MACRO_RETIREMENT (R339). -/
def macroRetirement (testPass : Bool) (s : State) : State :=
  match nextRetire s [0] with
  | none => s
  | some r =>
    if !mayRetire s then s
    else match logicalOf s r.die r.pcore with
      | none => startRetire r ((s.markRetired 0 ((r.die * 66 + r.pcore) * 264 + r.index)).setBit fxSticky 3)
      | some core =>
        let (s, done) := retireMacro r core testPass s
        if done then startRetire r s else s

/-- MACRO_RETIREMENT. -/
def execMacroRetirement (testPass : Bool) (s : State) : Host.Outcome State Fault Refusal := answer s (macroRetirement testPass s)

/-! ### Core swap (R340) -/

/-- Copy the ON and RETENTION banks of a physical core onto another through corrected reads; a lost word of a current version
is a lost version (R343). -/
def copyBanks (core old new : Nat) (s : State) : State :=
  let kept (p : Nat) : Bool := let w := bankPwr s core (p / 64 % 32); decide (w = 1) || decide (w = 2)
  let bad := (s.err.spFlip.filter fun e => decide (old * 2 ^ 20 ≤ e.1) && decide (e.1 < (old + 1) * 2 ^ 20) && kept (e.1 % 2 ^ 20 * 4)).filterMap
    fun e => match eccOf e.2 with
      | .uncorr p => some (e.1 % 2 ^ 20, p)
      | _ => none
  let lost := bad.find? fun w => match slotKind s core (w.1 * 4 / 256) with
    | .working => false
    | _ => (List.range (verCount s core)).any fun k =>
        decide (w.1 * 4 / 256 = verBase s core + ((s.core core).verOf k).cur * verCount s core + k)
  let src := (s.spad.filter fun e => decide (old * 2 ^ 22 ≤ e.1) && decide (e.1 < (old + 1) * 2 ^ 22) && kept (e.1 % 2 ^ 22))
  let hard := s.err.spHard.filter fun e => decide (new * 2 ^ 20 ≤ e.1) && decide (e.1 < (new + 1) * 2 ^ 20)
  let s := { s with
    spad := src.foldl (fun m e => Mem.set m (new * 2 ^ 22 + e.1 % 2 ^ 22) e.2) (SMap.dropRange s.spad (new * 2 ^ 22) ((new + 1) * 2 ^ 22)),
    err := { s.err with spFlip := hard.foldl (fun m x => SMap.set (fun _ => 0) m x.1 x.2)
                          (SMap.dropRange s.err.spFlip (new * 2 ^ 20) ((new + 1) * 2 ^ 20)) } }
  let s := forEach bad (fun w t => forEach (List.range 4) (fun i t =>
    let a := new * 2 ^ 22 + w.1 * 4 + i
    { t with spad := Mem.set t.spad a (Mem.get t.spad a ^^^ patByte w.2 i) }) t) s
  match lost with
  | none => s
  | some w => lostAt { unit := 2, die := old / 66, pcore := old % 66, index := w.1 / 16 % 32, det := 4 } s

/-- The physical macros of a physical core that are not retired, in ascending order. -/
def goodMacros (s : State) (ix : Nat) : List Nat := (List.range 264).filter fun pm => !s.isRetired 0 (ix * 264 + pm)

/-- The macros of a physical core as power-on leaves them: each logical macro on the physical macro of its number where that
is good, else on the lowest free spare. -/
def homeMacros (s : State) (ix n : Nat) : List (Nat × Nat) :=
  let good := goodMacros s ix
  let own := (List.range n).filter fun lm => good.contains lm
  let spares := good.filter fun pm => decide (n ≤ pm)
  let rest := (List.range n).filter fun lm => !good.contains lm
  own.map (fun lm => (lm, lm)) ++ rest.zip spares

/-- The registers of a core are loaded anew from its section of the active image (R340): roles stay with the macros that serve
them, and a retired bank of the new physical core reads RETIRED. -/
def reloadRegs (core : Nat) (s : State) : State :=
  match (s.core core).cfg with
  | none => s
  | some g => setBanks core ((loadToken core g (loadSpad core true g s)).setFld (mcA core 0) 12 4 g.scrubRows)

/-- Put a logical core onto a physical core, with its banks and macros (R340). `keep` says that the contents are restored. -/
def moveCore (core new : Nat) (keep : Bool) (s : State) : State :=
  let s := endRotation core s
  let old := s.pcIx core
  let nix := core / 64 * 66 + new
  let n := SMap.get (fun _ => 256) s.img.macros core
  let oldPm := (List.range n).map fun lm => old * 264 + s.regFld (roleA core lm) 8 9
  let usable := min n (goodMacros s nix).length
  let s := whenS keep (copyBanks core old nix) s
  let s := s.modBist fun b => { b with pcoreOf := SMap.set (fun i => i % 64) b.pcoreOf core new }
  let s := forEach (homeMacros s nix usable) (fun m t => setPmacro core m.1 m.2 t) s
  let s := whenS (decide (usable < n)) (fun t =>
    capacityChanged stCapacityLowered (t.modImg fun g => { g with macros := SMap.set (fun _ => 256) g.macros core usable })) s
  let s := reloadRegs core (s.modCore core fun c => { c with loaded := none })
  whenS keep (forEach ((List.range usable).zip oldPm) (fun x t => restoreMacro core x.1 x.2 t)) s

/-- A die offers one logical core less, the highest (R266). -/
def loseCore (die : Nat) (s : State) : State :=
  capacityChanged stCapacityLowered (s.modImg fun g => { g with cores := g.cores.set die (nth 0 g.cores die - 1) })

/-- The online test of a die ends early, where it runs on a physical core (R420). -/
def abortCoreTest (die pcore : Nat) (s : State) : State :=
  if nth none s.bist.coreTest die = some pcore then
    (s.modBist fun b => { b with coreTest := b.coreTest.set die none }).setBit biSticky 6
  else s

/-- A physical core leaves service: its logical core goes to a spare core, or to the physical core of the highest logical
number. -/
def replaceCore (die pcore : Nat) (keep : Bool) (s : State) : State :=
  match logicalOf s die pcore with
  | none => s
  | some core =>
    match freeCore s die with
    | some q => moveCore core q keep (abortCoreTest die q s)
    | none =>
      let top := 64 * die + (s.coresOf die - 1)
      let q := s.pcore top
      let s := loseCore die s
      if core = top then s else moveCore core q keep s

/-- The power state of a bank of a logical core becomes RETIRED (Table 6.6). -/
def retireBankPwr (core bank : Nat) (s : State) : State :=
  (s.setFld (spA core (if bank < 16 then 0x20 else 0x24)) (2 * (bank % 16)) 2 3).modCore core fun c =>
    { c with banks := c.banks ||| (3 <<< (2 * bank)) }

/-- A bank of a physical core is retired in place (R168). -/
def clearBankPwr (die pcore bank : Nat) (s : State) : State :=
  let s := s.markRetired 26244 ((die * 66 + pcore) * 32 + bank)
  match logicalOf s die pcore with
  | none => s
  | some core => retireBankPwr core bank s

/-- CORE_SWAP (R168, R340): the unit of a core, or a bank that is ON or in RETENTION; a bank that is OFF is retired in
place, with no hold.
A spare core that fails its test is retired too (DEDUCED, log entry 62). -/
def coreSwap (testPass : Bool) (s : State) : State :=
  match nextRetire s [1, 2] with
  | none => s
  | some r =>
    if offBank s r then
      let s := (clearBankPwr r.die r.pcore r.index s).modFx fun f => { f with retires := f.retires.erase r }
      raiseFx s.fn 3 r.entry 2 (s.setBit fxSticky 3)
    else if !mayRetire s then s
    else
      let ix := r.die * 66 + r.pcore
      let s := s.setBit fxSticky 3
      let s := whenS (decide (r.unit = 2)) (fun t => t.markRetired 26244 (ix * 32 + r.index)) s
      let s := s.markRetired 26144 ix
      match logicalOf s r.die r.pcore, freeCore s r.die with
      | some _, some q =>
        if testPass then startRetire r (replaceCore r.die r.pcore true s) else s.markRetired 26144 (r.die * 66 + q)
      | _, _ => startRetire r (replaceCore r.die r.pcore true s)

/-- CORE_SWAP. -/
def execCoreSwap (testPass : Bool) (s : State) : Host.Outcome State Fault Refusal := answer s (coreSwap testPass s)

/-! ### HBM pseudo-channels (R341) -/

/-- Bytes of usable HBM that a pseudo-channel holds. -/
def channelBytes : Nat := 805306368

/-- A pseudo-channel is retired: HBM_BYTES falls, and what lay in the highest usable addresses is gone. -/
def retireChannel (i : Nat) (s : State) : State :=
  let top := s.img.hbmBytes
  let s := (s.markRetired 29484 i).modImg fun g => { g with hbmBytes := top - channelBytes }
  let s := { s with hbm := SMap.dropRange s.hbm (top - channelBytes) top,
                    err := { s.err with hbmBad := SMap.dropRange s.err.hbmBad ((top - channelBytes) / 64) (top / 64) } }
  capacityChanged stCapacityLowered s

/-- The 64-byte words that a pseudo-channel serves and that its on-die correction cannot mend. -/
def badOfChannel (s : State) (i : Nat) : List Nat :=
  (s.err.hbmBad.map (·.1)).filter fun w => decide (hbmChannel s (w * 64) = i)

/-- Copy what a failed channel served: words that cannot be mended arrive as free values, and one on the current side of a unit is
a lost version (R343). -/
def copyChannel (i : Nat) (bad : List Nat) (s : State) : State :=
  forEach (bad.filter fun w => decide (w * 64 < s.img.hbmBytes)) (fun w t =>
    let t := match t.unitAt (w * 64) with
      | some u => if u.addr (t.sideOf u.key) = w * 64 then lostAt { unit := 5, die := 12, pcore := 0, index := i, det := 9 } t else t
      | none => t
    let v : BitVec 512 := t.free 512
    let t := t.usedFree
    { t with hbm := Mem.write t.hbm (w * 64) (leBytes v.toNat 64),
             err := { t.err with hbmBad := SMap.set (fun _ => false) t.err.hbmBad w false } }) s

/-- PSEUDO_CHANNEL_REMAP. -/
def pseudoChannelRemap (s : State) : State :=
  match nextRetire s [5] with
  | none => s
  | some r =>
    if !mayRetire s then s
    else startRetire r (copyChannel r.index (badOfChannel s r.index) (retireChannel r.index (s.setBit fxSticky 3)))

/-- PSEUDO_CHANNEL_REMAP. -/
def execPseudoChannelRemap (s : State) : Host.Outcome State Fault Refusal := answer s (pseudoChannelRemap s)

/-- RETIREMENT_COMPLETE (R339, R347): the oldest retirement carried out is complete, and HOLD leaves the next vote. -/
def retirementComplete (s : State) : State :=
  match s.fx.retires.find? fun r => r.started with
  | none => s
  | some r => raiseFx s.fn 3 r.entry 2 ((s.modFx fun f => { f with retires := f.retires.erase r }).setBit fxSticky 3)

/-- RETIREMENT_COMPLETE. -/
def execRetirementComplete (s : State) : Host.Outcome State Fault Refusal := answer s (retirementComplete s)

/-! ### Macro rotation (R418, R419) -/

/-- Whether the running frame began at a tick that applied a COMMIT without HOLD (R418). -/
def commitTick (s : State) : Bool :=
  s.fx.results.any fun r => decide (r.fn + 2 = s.fn) && decide (r.flags = 0) && !bit r.actions 0

/-- The next physical macro to test: ascending, not retired, wrapping after 263. -/
def rotationNext (s : State) (core : Nat) : Option Nat :=
  let from_ := (s.core core).nextRot
  ((List.range 264).map fun i => (from_ + i) % 264).find? fun pm => !macroRetired s core pm

/-- The log entry of an online retirement, and its counters (R419, R420). -/
def onlineFail (l : Loc) (source : Nat) (s : State) : State :=
  let i := s.regFld fxLogHead 0 6
  let s := newLogEntry 2 l source 0 s.wfn s
  let s := (s.setBit biSticky 3).addCnt biCnt 0 16 1
  raiseFx s.fn 3 i 2 (s.setBit fxSticky 3)

/-- The uncorrectable words of a copied macro, each as scrub treats one (R88, R419). -/
def copyFaults (core lm pm : Nat) (s : State) : State :=
  forEach (badWords s pm) (fun w t => mcFault core 1 (w.1 % 16 / 2) lm (w.1 / 16) 1 1 t) s

/-- ROTATION_STEP (R418): copy the next macro into the lowest free spare, if it serves a logical macro, and test it. -/
def rotationStep (core : Nat) (s : State) : State :=
  match (s.core core).rotation, rotationNext s core with
  | none, some pm =>
    if s.regFld biCtrl 0 16 = 0 ∨ dieHeldNow s (core / 64) ∨ !s.coreOffered core then s
    else
      match (List.range (s.macrosOf core)).find? fun lm => s.regFld (roleA core lm) 8 9 = pm && s.role core lm ≠ 0 with
      | none => s.modCore core fun c =>
          { c with rotation := some { home := pm, lm := none, spare := 0, tested := false, failed := false }, nextRot := pm + 1 }
      | some lm =>
        if !commitTick s then s
        else match freeSpare s core [] with
          | none => (s.setBit biSticky 4).addCnt biCnt 16 16 1
          | some q =>
            let ix := s.pcIx core * 264
            let s := s.modCore core fun c => { c with nextRot := pm + 1 }
            if !(badWords s (ix + pm)).isEmpty then (copyFaults core lm (ix + pm) s).setBit biSticky 5
            else
              let s := copyArray (ix + pm) (ix + q) s
              let s := s.modBist fun b => { b with pmacroOf := SMap.set (fun _ => 0) b.pmacroOf (core * 256 + lm) (q + 1) }
              s.modCore core fun c =>
                { c with rotation := some { home := pm, lm := some lm, spare := q, tested := false, failed := false } }
  | _, _ => s

/-- ROTATION_STEP. -/
def execRotationStep (core : Nat) (s : State) : Host.Outcome State Fault Refusal := answer s (rotationStep core s)

/-- ROTATION_TEST_DONE (R419): a failed macro is retired; a spare, or a macro of ROLE 0, has no copy to bring back. -/
def rotationTestDone (core : Nat) (pass : Bool) (s : State) : State :=
  match (s.core core).rotation with
  | none => s
  | some r =>
    if r.tested ∨ r.failed then s
    else
      let s := if pass then s else
        let loc : Loc := { unit := 0, die := core / 64, pcore := s.pcore core, index := r.home, det := 0 }
        onlineFail loc 2 (s.markRetired 0 (s.pcIx core * 264 + r.home))
      match r.lm with
      | some _ => s.modCore core fun c => { c with rotation := some { r with tested := pass, failed := !pass } }
      | none =>
        let s := s.modCore core fun c => { c with rotation := none }
        if pass then s
        else match (List.range (SMap.get (fun _ => 256) s.img.macros core)).find? fun lm => s.regFld (roleA core lm) 8 9 = r.home with
          | none => s
          | some lm => remapMacro core lm r.home (freeSpare s core []) false s

/-- ROTATION_TEST_DONE. -/
def execRotationTestDone (core : Nat) (pass : Bool) (s : State) : Host.Outcome State Fault Refusal :=
  answer s (rotationTestDone core pass s)

/-- ROTATION_COPY_BACK (R418, R419): at an eligible tick the contents go back; after a failed test the spare becomes the
permanent macro instead. -/
def rotationCopyBack (core : Nat) (s : State) : State :=
  match (s.core core).rotation with
  | some ⟨home, some lm, spare, tested, failed⟩ =>
    if !commitTick s ∨ (!tested ∧ !failed) then s
    else if failed then setPmacro core lm spare (endRotation core s)
    else
      let ix := s.pcIx core * 264
      let bad := !(badWords s (ix + spare)).isEmpty
      let s := whenS bad (fun t => (copyFaults core lm (ix + spare) t).setBit biSticky 5) s
      endRotation core (copyArray (ix + spare) (ix + home) s)
  | _ => s

/-- ROTATION_COPY_BACK. -/
def execRotationCopyBack (core : Nat) (s : State) : Host.Outcome State Fault Refusal := answer s (rotationCopyBack core s)

/-! ### Core test (R420) -/

/-- Whether the active image uses a logical core (R253). -/
def coreUsed (s : State) (core : Nat) : Bool := (s.core core).cfg.isSome

/-- The next physical core that a die may test: a free spare core, or one behind an unused logical core. -/
def coreTestNext (s : State) (die : Nat) : Option Nat :=
  let from_ := nth 0 s.bist.coreNext die
  ((List.range 66).map fun i => (from_ + i) % 66).find? fun p => !coreRetired s die p &&
    match logicalOf s die p with
    | none => true
    | some core => !coreUsed s core

/-- CORE_TEST. -/
def coreTest (die : Nat) (r : CoreTestEnd) (s : State) : State :=
  match r, nth none s.bist.coreTest die with
  | .start, none =>
    if !s.regBit biCtrl 16 ∨ dieHeldNow s die ∨ 12 ≤ die then s
    else match coreTestNext s die with
      | none => s
      | some p => s.modBist fun b => { b with coreTest := b.coreTest.set die (some p), coreNext := b.coreNext.set die (p + 1) }
  | .pass, some _ => s.modBist fun b => { b with coreTest := b.coreTest.set die none }
  | .abort, some p => abortCoreTest die p s
  | .fail, some p =>
    let s := s.modBist fun b => { b with coreTest := b.coreTest.set die none }
    let s := onlineFail { unit := 1, die := die, pcore := p, index := 0, det := 0 } 3 (s.markRetired 26144 (die * 66 + p))
    replaceCore die p false s
  | _, _ => s

/-- CORE_TEST. -/
def execCoreTest (die : Nat) (r : CoreTestEnd) (s : State) : Host.Outcome State Fault Refusal := answer s (coreTest die r s)

/-- At tick A − 2 of an activation, the tests of cores that its image uses end (R420). -/
def abortForActivation (s : State) : State :=
  match s.img.pend with
  | none => s
  | some p =>
    if s.fn + 2 ≠ p.a then s
    else
      let used := ((s.slotContent p.slot).map fun c => c.cores.map (·.core)).getD []
      forEach used (fun core t => abortCoreTest (core / 64) (t.pcore core) t) s

/-! ### Commands of a halted domain -/

/-- FX_RESUME at its tick (R337), with its status. -/
def cmdFxResume (r : Nat) (s : State) : State × Nat :=
  if s.fx.halt = 0 ∨ s.fx.halt = 2 ∨ r < s.fn.toNat + 3 ∨ 2 ^ 64 ≤ r then (s, stProgramError)
  else (s.modFx fun f => { f with resumeAt := some (BitVec.ofNat 64 r) }, stOK)

/-- At the resume tick the failed-attempt counts are cleared and the discarded frames run again (R337). -/
def resume (s : State) : State :=
  if s.fx.resumeAt = some s.fn then
    s.modFx fun f => { f with halt := 0, attempts := 0, resumeAt := none, rework := f.rework.map fun r => { r with attempt := 0 } }
  else s

/-- FX_EXPORT at its tick (R345), with its status. -/
def cmdFxExport (peer : Nat) (s : State) : State × Nat :=
  if s.fx.halt = 0 ∨ 16384 ≤ peer then (s, stProgramError)
  else (s.modFx fun f => { f with exportPeer := some peer }, stOK)

end Sys2Proof.Machine
end

