-- ==== Sys2Proof/Machine/Security.lean ====
section
/-! DEFINITION. The security core (R385 to R407): NVM pages, the stores of NV_STORE and LC_SET, and the live retirement map
as NVM holds it. -/

namespace Sys2Proof.Machine

/-! ### NVM pages (R400) -/

/-- Data bytes of a physical page. -/
def pageSize : Nat := 4064

/-- A physical page. -/
def nvPhys (s : State) (i : Nat) : NvPage := SMap.get (fun _ => {}) s.sec.nvm i

/-- Write a physical page. -/
def setPhys (i : Nat) (p : NvPage) (s : State) : State :=
  s.modSec fun x => { x with nvm := SMap.set (fun _ => {}) x.nvm i p }

/-- Whether generation a is later than b in serial-number arithmetic. -/
def genAfter (a b : Nat) : Bool :=
  let d := (a + 2 ^ 32 - b % 2 ^ 32) % 2 ^ 32
  decide (d ≠ 0) && decide (d < 2 ^ 31)

/-- The physical copy from which a logical page is read: its valid copy with the later generation. -/
def readCopy (s : State) (p : Nat) : Option Nat :=
  let a := nvPhys s (2 * p)
  let b := nvPhys s (2 * p + 1)
  if a.complete && b.complete then some (if genAfter b.gen a.gen then 2 * p + 1 else 2 * p)
  else if a.complete then some (2 * p)
  else if b.complete then some (2 * p + 1)
  else none

/-- The data of a logical page; none where it is absent. -/
def logicalPage (s : State) (p : Nat) : Option (List Byte) :=
  (readCopy s p).map fun i => let x := nvPhys s i; x.data.take x.len

/-- A field of a logical page, zero where absent. -/
def pageFld (s : State) (p o n : Nat) : Nat := leNat ((((logicalPage s p).getD []).drop o).take n)

/-- The SALT of logical page 1, if there is a valid one (R386). -/
def storedSalt (s : State) : Option (BitVec 256) :=
  (logicalPage s 1).bind fun l => if l.length < 32 then none else some (BitVec.ofNat 256 (leNat (l.take 32)))

/-- The operator image key of logical page 2. -/
def storedOpKey (s : State) : Option (BitVec 512) :=
  (logicalPage s 2).bind fun l => if l.length < 64 then none else some (BitVec.ofNat 512 (leNat (l.take 64)))

/-- The page a page store writes: a firmware page is itself; a logical page takes the copy that is not read (R401). -/
def targetPhys (s : State) (page : Nat) : Nat :=
  if 1024 ≤ page then page
  else match readCopy s page with
    | some i => if i = 2 * page then 2 * page + 1 else 2 * page
    | none => 2 * page

/-- Whether a page has a worn copy (R406). -/
def pageWorn (s : State) (page : Nat) : Bool :=
  let w (i : Nat) : Bool := (nvPhys s i).worn || decide (200000 ≤ (nvPhys s i).writes)
  if 1024 ≤ page then w page else w (2 * page) || w (2 * page + 1)

/-! ### The live retirement map (R405) -/

/-- A byte of the live retirement map. -/
def mapByte (s : State) (i : Nat) : Byte :=
  BitVec.ofNat 8 (ofBits ((List.range 8).map fun b => SMap.get (fun _ => false) s.bist.retired (i * 8 + b)))

/-- Map byte range of logical page 4 + k. -/
def mapPage (s : State) (k : Nat) : List Byte := (List.range pageSize).map fun i => mapByte s (k * pageSize + i)

/-- The live map. -/
def mapBytes (s : State) : List Byte := (List.range 8).flatMap (mapPage s)

/-- The stored map; an absent page reads as zero. -/
def storedMap (s : State) : List Byte :=
  (List.range 8).flatMap fun k =>
    let l := (logicalPage s (4 + k)).getD []
    l ++ List.replicate (pageSize - l.length) 0

/-! ### Hold-up (R403) -/

/-- NV_HOLDUP.INPUT_OK. -/
def inputOk (s : State) : Bool := s.regBit nvHoldup 31
/-- Whether the hold-up energy allows n pages: 1.5 times 0.40 J each. -/
def energyOk (s : State) (n : Nat) : Bool := decide (600 * n ≤ s.regFld nvHoldup 0 16)

/-! ### NV_STORE (R402, R404) -/

/-- Whether the life-cycle state allows a store group (Table 16.3). -/
def groupAllowed (lc g : Nat) : Bool :=
  if lc = 0 then [3, 5, 7, 8].contains g
  else if lc = 1 then [1, 3, 4, 6, 7, 8].contains g
  else if lc = 2 then [1, 2, 3, 4, 6, 7, 8].contains g
  else if lc = 3 then [3, 4, 5, 7, 8].contains g
  else false

/-- The SRC of a group (Table 16.5). -/
def groupSrc (g : Nat) : Nat := if [2, 3, 7, 8].contains g then 1 else 0

/-- The bytes of a firmware slot, as its pages hold them. -/
def fwBytes (s : State) (slot : Nat) : List Byte :=
  (List.range 384).flatMap fun i => let x := nvPhys s (1024 + 384 * slot + i); if x.complete then x.data.take x.len else []

/-- Whether a firmware slot is valid with a minimum version (R387). -/
def fwValid (s : State) (slot minVer : Nat) : Bool :=
  let l := fwBytes s slot
  let f := fun o n => leNat ((l.drop o).take n)
  let key := (l.drop 16).take 64
  let n := f 8 4
  decide (f 0 4 = 0x46574B31) && decide (f 6 2 = 0) && decide (f 12 4 = 0) && decide (144 ≤ n) && decide (n ≤ 1560576) &&
    decide (n ≤ l.length) && decide (Config.sm3 key = s.sec.vendorHash) && decide (minVer ≤ f 4 2) && decide (1 ≤ f 4 2) &&
    Config.sm2Verify (BitVec.ofNat 512 (leNat key)) (leBytes (hashOf (l.take 80 ++ (l.take n).drop 144)) 32)
      (BitVec.ofNat 512 (f 80 64))

/-- SEC_SERIAL as 8 bytes. -/
def serialBytes (s : State) : List Byte := leBytes (s.reg64 secSerial).toNat 8

/-- The check of an OPKEY rotation record (R404): a status, and the new key. -/
def checkRotation (s : State) (l : List Byte) : Nat :=
  let msg := serialBytes s ++ l.take 8 ++ (l.drop 8).take 64
  match s.sec.opKey with
  | none => stProgramError
  | some k =>
    if l.length ≠ 136 ∨ leNat (l.take 8) ≠ (s.reg64 secLcNonce).toNat then stProgramError
    else if Config.sm2Verify k (leBytes (hashOf msg) 32) (BitVec.ofNat 512 (leNat ((l.drop 72).take 64))) then stOK
    else stBadSignature

/-- The check of a BOOT record (R404). -/
def checkBoot (s : State) (l : List Byte) : Nat :=
  let slot := leNat (l.take 1)
  let v := leNat ((l.drop 2).take 2)
  if l.length ≠ 4 ∨ 1 < slot ∨ leNat ((l.drop 1).take 1) ≠ 0 ∨ v < pageFld s 3 2 2 ∨ s.regFld secFw 16 16 < v ∨ !fwValid s slot v
  then stProgramError else stOK

/-- The pages of a store with their data (Table 16.5). `l` is the source in HBM. -/
def storePages (s : State) (g : Nat) (l : List Byte) : List (Nat × List Byte) :=
  if g = 1 then [(1, ((logicalPage s 1).getD []).take 96 ++ leBytes (s.reg clId).toNat 4)]
  else if g = 2 then [(2, (l.drop 8).take 64)]
  else if g = 3 then [(3, l)]
  else if g = 4 then (List.range 8).map fun k => (4 + k, mapPage s k)
  else if g = 5 then (List.range 64).map fun k => (12 + k, (s.sec.cal.drop (k * pageSize)).take pageSize)
  else if g = 6 then [(76, leBytes (s.reg pgCtrl).toNat 4 ++ leBytes (s.reg pgStagger).toNat 4)]
  else
    let cs := chunksOf pageSize l
    ((List.range cs.length).zip cs).map fun x => (1024 + 384 * (g - 7) + x.1, x.2)

/-- The payload of NV_STORE (R402). -/
def nvPayload (l : List Byte) : NvPayload :=
  { group := leNat (l.take 1), src := leNat ((l.drop 1).take 1), addr := leNat ((l.drop 8).take 6), length := leNat ((l.drop 16).take 4),
    rsvZero := decide (l.length = 20) && ((l.drop 2).take 6 ++ (l.drop 14).take 2).all fun b => decide (b = 0) }

/-- The payload of LC_SET (R392). -/
def lcPayload (l : List Byte) : LcPayload :=
  let f (o n : Nat) : Nat := leNat ((l.drop o).take n)
  { target := f 0 1, nonce := BitVec.ofNat 64 (f 8 8), opKey := BitVec.ofNat 512 (f 16 64), signer := BitVec.ofNat 512 (f 80 64),
    signature := BitVec.ofNat 512 (f 200 64),
    rsvZero := decide (l.length = 264) && ((l.drop 1).take 7 ++ (l.drop 144).take 56).all fun b => decide (b = 0) }

/-- NV_STORE at its tick (R402), with its status. A source in HBM is read as any read of HBM is, each unit from its current side. -/
def cmdNvStore (tag : Nat) (p : NvPayload) (s : State) : State × Nat :=
  let fw := decide (p.group = 7) || decide (p.group = 8)
  let bad := !p.rsvZero || decide (p.group = 0) || decide (8 < p.group) || decide (p.src ≠ groupSrc p.group) ||
    !groupAllowed s.lcState p.group || (s.debugOpen && (fw || decide (p.group = 3))) ||
    (decide (p.src = 1) && (decide (s.img.hbmBytes < p.addr + p.length) || decide (p.length = 0))) ||
    (fw && (decide (1560576 < p.length) || decide (s.regFld secFw 0 1 = p.group - 7))) ||
    (decide (p.group = 2) && s.rebootReq)
  if bad then (s, stProgramError)
  else
    let (l, _, s) := if p.src = 1 then hbmRead p.addr p.length s else ([], 0, s)
    let chk := if p.group = 2 then checkRotation s l else if p.group = 3 then checkBoot s l else stOK
    let pages := storePages s p.group l
    if chk ≠ stOK then (s, chk)
    else if pages.any fun x => pageWorn s x.1 then (s.setBit nvSticky 3, stProgramError)
    else if s.lcBusy ∨ 8 ≤ (if s.sec.running then s.sec.queue.length - 1 else s.sec.queue.length) ∨
        (p.src = 1 ∧ s.sec.queue.any fun q => q.src = 1) then (s, stNotReady)
    else
      let r : StoreRec := { group := p.group, tag := tag, src := p.src, pages := pages, transition := none, checked := false }
      (s.modSec fun x => { x with queue := x.queue ++ [r] }, stOK)

/-! ### LC_SET (R391 to R393) -/

/-- Whether a transition is in Table 16.4, and whether the operator authorises it. -/
def transitionBy (src dst : Nat) : Option Bool :=
  if src = 0 ∧ dst = 1 then some false
  else if src = 1 ∧ dst = 2 then some false
  else if src = 2 ∧ dst = 3 then some true
  else if src = 3 ∧ dst = 1 then some false
  else if (src = 0 ∨ src = 1 ∨ src = 3) ∧ dst = 4 then some false
  else if src = 2 ∧ dst = 4 then some true
  else none

/-- The signature, the signer and the nonce of an LC_SET (R392). -/
def lcAuthorised (s : State) (p : LcPayload) (operator : Bool) : Bool :=
  let signer := if operator then decide (s.sec.opKey = some p.signer) else decide (Config.sm3 (keyBytes p.signer) = s.sec.vendorHash)
  let msg := serialBytes s ++ [BitVec.ofNat 8 s.lcState, BitVec.ofNat 8 p.target] ++ leBytes p.nonce.toNat 8 ++ keyBytes p.opKey
  signer && decide (p.nonce = s.reg64 secLcNonce) && Config.sm2Verify p.signer (leBytes (hashOf msg) 32) p.signature

/-- The identity private key d = (SM3(DEVICE_SECRET ‖ SALT) mod (n − 1)) + 1 (R386). -/
def identityKey (secret salt : BitVec 256) : BitVec 256 :=
  BitVec.ofNat 256 (hashOf (leBytes secret.toNat 32 ++ leBytes salt.toNat 32) % (Config.sm2Order - 1) + 1)

/-- The pages of a transition, page 0 last (Table 16.4, R405); the new SALT is a free value. -/
def transitionPages (s : State) (target : Nat) (opKey : BitVec 512) : List (Nat × List Byte) :=
  let salt : BitVec 256 := s.free 256
  let page1 := leBytes salt.toNat 32 ++ keyBytes (Config.sm2Public (identityKey s.sec.secret salt)) ++ leBytes (s.reg clId).toNat 4
  let body :=
    if target = 1 then [(1, page1)] ++ (if s.lcState = 3 then (List.range 8).map fun k => (4 + k, []) else [])
    else if target = 2 then [(2, keyBytes opKey)]
    else [(1, []), (2, [])]
  body ++ [(0, [BitVec.ofNat 8 target])]

/-- LC_SET at its tick (R391 to R393, R396, R403, R421), with its status. Every LC_SET taken changes the nonce; an accepted
transition wipes the oasis first, and checks the hold-up energy before its first page. -/
def cmdLcSet (tag : Nat) (p : LcPayload) (s : State) : State × Nat :=
  let renew (t : State) : State := (t.setReg64 secLcNonce (t.free 64)).usedFree
  let bad := !p.rsvZero || s.debugOpen || (s.img.slots.any fun x => decide (x.state = 3)) || !s.sec.queue.isEmpty || s.lcBusy ||
    (decide (p.target ≠ 2) && decide (p.opKey ≠ 0)) || (s.regBit secTamper 3 && decide (p.target ≠ 4))
  match transitionBy s.lcState p.target with
  | none => (renew s, stProgramError)
  | some op =>
    if bad then (renew s, stProgramError)
    else if !lcAuthorised s p op then (renew s, stBadSignature)
    else
      let pages := transitionPages s p.target p.opKey
      let s := (wipeOasis (renew s.usedFree)).setBit secLc 6
      if !inputOk s || !energyOk s pages.length then (raiseKind 5 stHoldupLow 0 tag (s.setBit nvSticky 1), stOK)
      else
        let s := s.setBit secLc 3
        let r : StoreRec := { group := 0, tag := tag, src := 0, pages := pages, transition := some p.target, checked := true }
        (s.modSec fun x => { x with queue := [r] }, stOK)

/-! ### Page stores (R401, R403, R406) -/

/-- The store at the head ends with an outcome event of KIND 5. -/
def endStore (r : StoreRec) (status : Nat) (s : State) : State :=
  let s := s.modSec fun x => { x with queue := x.queue.tail, running := false }
  let s := whenS r.transition.isSome (fun t => t.clrBit secLc 3) s
  raiseKind 5 status 0 r.tag s

/-- What a completed store brings about: the new operator key (R404), or the new state from the next tick (R393). -/
def storeEffect (r : StoreRec) (s : State) : State :=
  let s := whenS (decide (r.group = 2)) (fun t => t.modSec fun x => { x with opKey := storedOpKey t }) s
  whenS r.transition.isSome (fun t => t.modSec fun x => { x with newState := r.transition }) s

/-- Write a page into its target copy, with its trailer; `n` counts the writes, and a copy that is not good stays without
COMPLETE and is worn. -/
def writePage (page : Nat) (data : List Byte) (group : Nat) (good : Bool) (n : Nat) (s : State) : State :=
  let i := targetPhys s page
  let old := nvPhys s i
  let gen := match (if 1024 ≤ page then none else readCopy s page) with
    | some j => (nvPhys s j).gen + 1
    | none => old.gen + 1
  setPhys i { data := data, gen := gen % 2 ^ 32, writes := old.writes + n, group := group,
              page := if 1024 ≤ page then (page - 1024) % 384 else page, len := data.length, complete := good, worn := !good || old.worn } s

/-- NV_PAGE_STORE (R401, R403, R406): the next page of the store at the head. -/
def pageStore (rb1 rb2 : Bool) (s : State) : State :=
  match s.sec.queue with
  | [] => s
  | r :: rest =>
    if s.sec.stopped then s
    else match r.pages with
    | [] => endStore r stOK s
    | (page, data) :: pages =>
      if !r.checked && (!inputOk s || !energyOk s 1) then endStore r stHoldupLow (s.setBit nvSticky 1)
      else if pageWorn s page then endStore r stProgramError (s.setBit nvSticky 3)
      else
        let s := whenS (!rb1) (fun t => t.setBit nvSticky 2) s
        let ok := rb1 || rb2
        let s := writePage page data r.group ok (if rb1 then 1 else 2) s
        if !ok then endStore r stProgramError s
        else if pages.isEmpty then endStore r stOK (storeEffect r (s.setBit nvSticky 0))
        else s.modSec fun x => { x with queue := { r with pages := pages } :: rest, running := true }

/-- NV_PAGE_STORE. -/
def execNvPageStore (rb1 rb2 : Bool) (s : State) : Host.Outcome State Fault Refusal := answer s (pageStore rb1 rb2 s)

/-! ### Tamper (R396) -/

/-- Bit of SEC_TAMPER that a sensor sets. -/
def tamperBit : Tamper → Nat
  | .glitch => 0
  | .temp => 1
  | .mesh => 2

/-- Compute dies and links stop: no frame program runs, and every link is DOWN (R396, R414). -/
def stopDies (s : State) : State :=
  let s := { s with cores := s.cores.map fun e => (e.1, { e.2 with prog := none, ops := [], waiting := none, ended := true }), flight := [] }
  forEach (List.range 32) (fun i t => if t.linkState i = 5 then t else t.setFld (linkA i 0) 0 3 0) s

/-- TAMPER_TRIP. -/
def tamperTrip (t : Tamper) (s : State) : State :=
  let s := (wipeOasis s).modSec fun x => { x with stopped := true, queue := [], running := false }
  let s := s.setBit secTamper (tamperBit t)
  let s := whenS (decide (t = .mesh)) (fun u => u.setBit secTamper 3) s
  stopDies (s.setFld biStatus 8 3 2)

/-- TAMPER_TRIP. -/
def execTamperTrip (t : Tamper) (s : State) : Host.Outcome State Fault Refusal := answer s (tamperTrip t s)

end Sys2Proof.Machine
end

