-- ==== Sys2Proof/Machine/Port.lean ====
section
/-! DEFINITION. The Drundoha ports (R367 to R384): frames, answers, the command FIFO and the taking of commands at a tick,
writes and input writes, reads of every kind, attestation and events. -/

namespace Sys2Proof.Machine

/-! ### What the module serves (R388, R409, R414) -/

/-- The kinds of request that R409 and Table 17.3 tell apart. -/
inductive ReqKind where
  | regRead | evtAck | attest | lcSet | nvStore0 | other
  deriving DecidableEq, Repr, Inhabited

/-- The status with which a request is refused in the present stage or safe state, if it is. -/
def gate (s : State) (k : ReqKind) : Option Nat :=
  if s.safe = 1 ∨ s.safe = 2 then (if k = .regRead then none else some stBadSignature)
  else if s.safe = 3 then (if k = .regRead ∨ k = .attest ∨ k = .lcSet then none else some stCapacityLowered)
  else if s.stage < 7 then (if k = .other then some stNotReady else none)
  else none

/-- The kind of a command. -/
def cmdKind (c : Cmd) : ReqKind :=
  match c with
  | .lcSet _ => .lcSet
  | .nvStore l => if (nvPayload l).src = 0 then .nvStore0 else .other
  | _ => .other

/-- The command code (Table 15.3). -/
def cmdOp (c : Cmd) : Nat :=
  match c with
  | .imgVerify _ _ _ => 1
  | .imgActivate _ _ _ => 2
  | .imgRelease _ => 3
  | .fxResume _ => 4
  | .fxExport _ => 5
  | .shpSet _ _ _ => 6
  | .regWrite _ _ => 7
  | .nvStore _ => 8
  | .lcSet _ => 9
  | .reserved op => op

/-- A malformed frame is discarded (R369). -/
def badFrame (port : Nat) (s : State) : State := (s.setBit dpSticky 0).addCnt (dpPortCnt port) 0 16 1

/-- Whether a frame on a port is received at all: the port is UP, and the module has come to stage 3 or is in safe state 1
(R409, R414). -/
def frameHeard (s : State) (port : Nat) : Bool :=
  decide (port < 2) && s.portUp port && (decide (3 ≤ s.stage) || decide (s.safe = 1))

/-- A request that is not discarded: a repeated TAG gets its stored ANSWER again (R371), a request that is not served now
its refusal, and any other is served. -/
def request (port tag op : Nat) (k : ReqKind) (serve : State → State) (s : State) : State :=
  match s.port.answers.find? fun a => a.tag = tag with
  | some a => whenS (s.portUp port) (fun t => t.send (.frame port (answerFrame a))) s
  | none =>
    match gate s k with
    | some st => answerOn port { tag := tag, op := op, status := st, fn := s.fn } s
    | none => serve s

/-- A short ANSWER: status only. -/
def reply (port tag op status : Nat) (s : State) : State :=
  answerOn port { tag := tag, op := op, status := status, fn := s.fn } s

/-! ### Commands -/

/-- SHP_SET at its tick (R372), with its status: every core in the mask that capacity offers. -/
def cmdShpSet (mask : BitVec 768) (n : Nat) (v : Word) (s : State) : State × Nat :=
  if 64 ≤ n then (s, stProgramError)
  else ((setShapes mask n v s).modCur fun f => { f with shpSets := f.shpSets ++ [(mask, n, v)] }, stOK)

/-- A command acts, with the status of its ANSWER (Table 15.3). -/
def doCommand (tag : Nat) (c : Cmd) (s : State) : State × Nat :=
  match c with
  | .imgVerify slot addr len => cmdImgVerify tag slot addr len s
  | .imgActivate slot a h => cmdImgActivate slot a h s
  | .imgRelease slot => cmdImgRelease slot s
  | .fxResume r => cmdFxResume r s
  | .fxExport peer => cmdFxExport peer s
  | .shpSet mask n v => cmdShpSet mask n v s
  | .regWrite a v => writeReg a v s
  | .nvStore l => cmdNvStore tag (nvPayload l) s
  | .lcSet l => cmdLcSet tag (lcPayload l) s
  | .reserved _ => (s, stProgramError)

/-- A command is taken at a tick and answered (R372). -/
def takeCommand (e : CmdEntry) (s : State) : State :=
  let fn := s.fn
  let (s, st) := match gate s (cmdKind e.cmd) with
    | some st => (s, st)
    | none => doCommand e.tag e.cmd s
  answerOn e.port { tag := e.tag, op := cmdOp e.cmd, status := st, fn := fn } s

/-- At a tick the hub takes every entry of the command FIFO, in order (R372). -/
def takeCommands (s : State) : State :=
  let es := s.port.fifo
  let s := (s.modPort fun p => { p with fifo := [] })
  forEach es takeCommand (s.setFld (hubQA 0 4) 0 9 0)

/-- A CMD frame enters the command FIFO (R372, R281). -/
def pushCommand (port tag : Nat) (c : Cmd) (s : State) : State :=
  let d := s.port.fifo.length
  if 64 ≤ d then
    reply port tag (cmdOp c) stNotReady (((s.setBit (hubQA 0 4) 18).addCnt (hubQA 0 8) 16 16 1).setBit dpSticky 2)
  else
    queueDepthChange 0 d (d + 1) (s.modPort fun p => { p with fifo := p.fifo ++ [{ port := port, tag := tag, cmd := c }] })

/-- A command as it is taken at the present tick, from port 0. -/
def commandNow (tag : Nat) (c : Cmd) (s : State) : State :=
  if s.stage < 3 then s else request 0 tag (cmdOp c) (cmdKind c) (takeCommand { port := 0, tag := tag, cmd := c }) s

/-- IMG_VERIFY. -/
def execImgVerify (tag slot addr len : Nat) (s : State) : Host.Outcome State Fault Refusal :=
  answer s (commandNow tag (.imgVerify slot addr len) s)

/-- IMG_ACTIVATE. -/
def execImgActivate (tag slot a h : Nat) (s : State) : Host.Outcome State Fault Refusal :=
  answer s (commandNow tag (.imgActivate slot a h) s)

/-- IMG_RELEASE. -/
def execImgRelease (tag slot : Nat) (s : State) : Host.Outcome State Fault Refusal :=
  answer s (commandNow tag (.imgRelease slot) s)

/-- FX_RESUME. -/
def execFxResume (tag r : Nat) (s : State) : Host.Outcome State Fault Refusal := answer s (commandNow tag (.fxResume r) s)

/-- FX_EXPORT. -/
def execFxExport (tag peer : Nat) (s : State) : Host.Outcome State Fault Refusal :=
  answer s (commandNow tag (.fxExport peer) s)

/-- SHP_SET. -/
def execShpSet (tag : Nat) (mask : BitVec 768) (n : Nat) (v : Word) (s : State) : Host.Outcome State Fault Refusal :=
  answer s (commandNow tag (.shpSet mask n v) s)

/-- REG_WRITE. -/
def execRegWrite (tag a : Nat) (v : Word) (s : State) : Host.Outcome State Fault Refusal :=
  answer s (commandNow tag (.regWrite a v) s)

/-- NV_STORE. -/
def execNvStore (tag : Nat) (l : List Byte) (s : State) : Host.Outcome State Fault Refusal :=
  answer s (commandNow tag (.nvStore l) s)

/-- LC_SET. -/
def execLcSet (tag : Nat) (l : List Byte) (s : State) : Host.Outcome State Fault Refusal :=
  answer s (commandNow tag (.lcSet l) s)

/-! ### WRITE (R376 to R378) -/

/-- Run an access of the hub: the events it raises enter the event FIFO at once, not at the commit of a frame. -/
def atOnce (f : State → State) (s : State) : State :=
  let t := f (s.modCur fun c => { c with events := [] })
  let evs := t.fx.cur.events
  let t := t.modCur fun c => { c with events := s.fx.cur.events }
  forEach evs (fun e u => pushEvent { e with fn := u.fn } u) t

/-- A WRITE into a locked slot range is dropped whole (R255). -/
def lockedWrite (s : State) : State × Nat := (raise0 secImgState 31 stProgramError 0 (s.setBit secImgState 31), stProgramError)

/-- Store a run of bytes in HBM. -/
def hbmStoreRun (a : Nat) (l : List Byte) (s : State) : State :=
  forEach ((rangeFrom a l.length).zip l) (fun x t => hbmStore x.1 x.2 t) s

/-- A hub write to a scratchpad (R153), with its status. -/
def spadWrite (core o : Nat) (l : List Byte) (s : State) : State × Nat :=
  let ok := !(targetFlags s { core := core } 0 o l.length).any
  (atOnce (fun t => (spWriteS { core := core } 0 512 (wordMask o l fun _ => false) t).2) s, if ok then stOK else stProgramError)

/-- A WRITE while no image is active (R376), with its status. -/
def writeFree (a : Nat) (l : List Byte) (s : State) : State × Nat :=
  match runAt s a l.length with
  | .hbm => if runLocked s a l.length then lockedWrite s else (hbmStoreRun a l s, stOK)
  | .spad core o => if coreReachable s core then spadWrite core o l s else (s, stCapacityLowered)
  | .array core => if coreReachable s core then (arrayWrite core a l s, stOK) else (s, stCapacityLowered)
  | .bad => (s, stProgramError)

/-- Whether a run lies inside the staging range of the active image. -/
def inStaging (s : State) (a n : Nat) : Bool :=
  (s.image.map fun c => decide (c.pingpong.stageBase ≤ a) && decide (a + n ≤ c.pingpong.stageBase + c.pingpong.stageLength)).getD false

/-- Whether any byte of a run lies in a ping-pong region of KIND 1 or 2. -/
def inWeights (s : State) (a n : Nat) : Bool :=
  (rangeFrom a n).any fun x => match s.unitAt x with
    | none => false
    | some u => (s.regions.any fun r => decide (r.1 = u.region) && (decide (r.2.kind = 1) || decide (r.2.kind = 2)))

/-- Bytes that the input stage holds: writes that wait, and those of frames that have not committed (R378). -/
def stageBytes (s : State) : Nat :=
  let size (l : List Staged) : Nat := sumN (l.map fun x => x.data.length)
  size s.port.stage + sumN ((s.fx.old ++ [s.fx.prev, s.fx.cur]).map fun f => size f.inputs) +
    sumN (s.fx.rework.map fun r => size r.inputs)

/-- An input write enters the stage, or finds it full; the status of an ANSWER that goes back at once. -/
def stageInput (port tag a : Nat) (l : List Byte) (s : State) : State × Option Nat :=
  if 8388608 < stageBytes s + l.length then (s.setBit dpSticky 3, some stNotReady)
  else (s.modPort fun p => { p with stage := p.stage ++ [{ port := port, tag := tag, addr := a, data := l }] }, none)

/-- A WRITE while an image is active (R377): the status of its ANSWER, or none for an input write, answered at commit. -/
def writeActive (port tag a : Nat) (l : List Byte) (s : State) : State × Option Nat :=
  let n := l.length
  match runAt s a n with
  | .hbm =>
    if runLocked s a n then let r := lockedWrite s; (r.1, some r.2)
    else if inStaging s a n then (hbmStoreRun a l s, some stOK)
    else if inWeights s a n || inStaging s a 1 then (s, some stProgramError)
    else stageInput port tag a l s
  | .spad core o =>
    if !coreReachable s core then (s, some stCapacityLowered)
    else if (rangeFrom o n).any fun x => inCode s core x then
      (raise0 (spA core 4) 5 stProgramError 0 (s.setBit (spA core 4) 5), some stProgramError)
    else stageInput port tag a l s
  | .array core => (s.setBit (mcA core 4) 10, some stProgramError)
  | .bad => (s, some stProgramError)

/-- A WRITE is served. -/
def serveWrite (port tag a : Nat) (l : List Byte) (s : State) : State :=
  if s.active then
    match writeActive port tag a l s with
    | (s, some st) => reply port tag 0 st s
    | (s, none) => s
  else
    let r := writeFree a l s
    reply port tag 0 r.2 r.1

/-! ### Input writes at a tick (R378) -/

/-- Whether an input write waits because the previous work frame wrote its target. -/
def inputWaits (s : State) (x : Staged) : Bool :=
  match wrRow s x.addr with
  | .region _ => (unitKeys s x.addr x.data.length).any fun k => (prevUnits s).contains k
  | .versioned core => match localAddr s x.addr with
    | .spad _ o => ((s.core core).verOf (o / 256 - verBase s core)).pendPrev.isSome
    | _ => false
  | _ => false

/-- An input write is judged as a remote write of the frame that starts (R309, R310, Table 12.9). -/
def judgeInput (x : Staged) (s : State) : State :=
  let no (st : Nat) (t : State) : State := t.modCur fun f => { f with refused := f.refused ++ [(x.port, x.tag, st)] }
  if (findWindow s x.addr x.data.length 0).isNone then no stWindowClosed (windowClosed 1 0 s)
  else match landWrite 0 x.addr x.data false false 0 s with
    | .landed s => s
    | .refused s => no stProgramError (s.setBit clSticky 4)
    | _ => no stProgramError (s.setBit clSticky 4)

/-- The input writes that the frame which starts takes: in arrival order, up to the image's allowance; one that must wait
keeps its place. `left` is what is left of the allowance. -/
def pickInputs (s : State) (left : Nat) : List Staged → List Staged × List Staged
  | [] => ([], [])
  | x :: rest =>
    if inputWaits s x then
      let (a, b) := pickInputs s left rest
      (a, x :: b)
    else if left < x.data.length then ([], x :: rest)
    else
      let (a, b) := pickInputs s (left - x.data.length) rest
      (x :: a, b)

/-- The input writes of the frame that starts; a frame that runs again takes those it had (R378). -/
def applyInputs (again : Bool) (s : State) : State :=
  if s.fx.cur.kind = .quiet ∨ s.fx.cur.inPlace then s
  else if again then forEach s.fx.cur.inputs judgeInput s
  else
    let (now, later) := pickInputs s ((s.image.map fun c => c.pingpong.ctlInBytes).getD 0) s.port.stage
    let s := (s.modPort fun p => { p with stage := later }).modCur fun f => { f with inputs := now }
    forEach now judgeInput s

/-! ### READ of kinds CONSUME and PEEK (R380 to R382) -/

/-- Slots that a read of n bytes covers. -/
def slotsOf (slot n : Nat) : List Nat := rangeFrom slot (cdiv n 256)

/-- Whether a slot read is allowed: an image is active, and every slot lies below VCOUNT. -/
def slotsOk (s : State) (core slot n : Nat) : Bool :=
  s.active && decide (core < 768) && coreReachable s core && decide (slot + cdiv n 256 ≤ verCount s core)

/-- The result tag of a slot. -/
def State.resultFull (s : State) (core k : Nat) : Bool := SMap.get (fun _ => false) s.port.resultTags (tagKey core k)

/-- Whether every result tag of a run is FULL. -/
def allFull (s : State) (core slot n : Nat) : Bool := (slotsOf slot n).all fun k => s.resultFull core k

/-- The WFN that an answer of committed data gives (R382). Where no frame wrote the data, the spec states none and it is a free
value (log entry 114). -/
def writerFn (f : DWord) (s : State) : DWord × State := if f = 0 then (s.free 64, s.usedFree) else (f, s)

/-- Put BLK and NONCONF into an answer (R98): the block size 32 conforms. -/
def withBlk (b : Option Nat) (a : Answer) : Answer :=
  match b with
  | none => a
  | some b => { a with blk := b % 4, nonconf := decide (b % 4 ≠ 1) }

/-- The data answer of a slot read: copy CUR of each slot. -/
def slotAnswer (port tag op core slot n : Nat) (ready : Bool) (s : State) : State :=
  let (f, md) := joinInfo ((slotsOf slot n).map fun k => SMap.get (fun _ => (0, 0)) s.port.resultInfo (tagKey core k))
  let q := (verBase s core + slot) * 256
  let data := (spRead s { core := core } 0 q n).1
  let s := atOnce (fun t => (spReadS { core := core } 0 q n t).2.2) s
  let (f, s) := writerFn f s
  let marks := ((s.core core).cfg.map fun g => g.slotBlk).getD []
  answerOn port (withBlk (blkOf marks (slotsOf slot n))
    { tag := tag, op := op, status := stOK, fn := f, ready := ready, md := md.setWidth 14, data := data }) s

/-- A CONSUME is served: its data, and its tags become EMPTY. -/
def serveConsume (port tag core slot n : Nat) (s : State) : State :=
  let s := slotAnswer port tag 0 core slot n false s
  s.modPort fun p => { p with resultTags := (slotsOf slot n).foldl (fun m k => SMap.set (fun _ => false) m (tagKey core k) false) p.resultTags }

/-- A CONSUME arrives (R381). -/
def takeConsume (port tag core slot n : Nat) (s : State) : State :=
  if !slotsOk s core slot n then reply port tag 0 stProgramError s
  else if allFull s core slot n then serveConsume port tag core slot n s
  else s.modPort fun p =>
    { p with waitConsume := p.waitConsume ++ [{ fn := s.fn, port := port, tag := tag, core := core, slot := slot, len := n }] }

/-- A waiting CONSUME is examined again at the next tick, after its commit. -/
def reexamine (w : WaitRead) (s : State) : State :=
  if slotsOk s w.core w.slot w.len && allFull s w.core w.slot w.len then serveConsume w.port w.tag w.core w.slot w.len s
  else reply w.port w.tag 0 stNotReady s

/-- CONSUME_REEXAMINE (R381): every CONSUME that arrived before the present tick. -/
def consumeReexamine (s : State) : State :=
  let due := s.port.waitConsume.filter fun w => decide (w.fn < s.fn)
  forEach due reexamine (s.modPort fun p => { p with waitConsume := p.waitConsume.filter fun w => !decide (w.fn < s.fn) })

/-- CONSUME_REEXAMINE. -/
def execConsumeReexamine (s : State) : Host.Outcome State Fault Refusal := answer s (consumeReexamine s)

/-- A PEEK is served (R380). -/
def takePeek (port tag core slot n : Nat) (s : State) : State :=
  if !slotsOk s core slot n then reply port tag 1 stProgramError s
  else slotAnswer port tag 1 core slot n (allFull s core slot n) s

/-! ### READ of kind MEM (R380) -/

/-- The errors that a read of n bytes at o of a core's macro window meets, in each logical macro that it takes. -/
def noteWindowRead (core o n : Nat) (s : State) : State :=
  let m := min n (32768 - o % 32768)
  let s := noteArrRead core (o / 32768) (o % 32768) m s
  whenS (decide (m < n)) (noteArrRead core ((o + m) / 32768) 0 (n - m)) s

/-- The data answer of a MEM read: committed data, or frame-local bytes with UNCOMMITTED. -/
def memAnswer (port tag a n : Nat) (data : List Byte) (s : State) : State :=
  match runInfo s a n with
  | some l =>
    let (f, md) := joinInfo l
    let (f, s) := writerFn f s
    answerOn port (withBlk (runBlk s a n) { tag := tag, op := 2, status := stOK, fn := f, md := md.setWidth 14, data := data }) s
  | none => answerOn port (withBlk (runBlk s a n) { tag := tag, op := 2, status := stOK, fn := s.fn, uncommitted := true, data := data }) s

/-- A MEM read is served. -/
def takeMem (port tag a n : Nat) (s : State) : State :=
  match runAt s a n with
  | .hbm =>
    let (l, _, s) := hbmRead a n s
    memAnswer port tag a n l s
  | .spad core o =>
    if !coreReachable s core then reply port tag 2 stCapacityLowered s
    else
      let (l, f) := spRead s { core := core } 0 o n
      let s := atOnce (fun t => (spEffects { core := core } f t).1) s
      if f.any then reply port tag 2 stProgramError s else memAnswer port tag a n l s
  | .array core =>
    if !coreReachable s core then reply port tag 2 stCapacityLowered s
    else if (rangeFrom a n).any fun x => decide (s.macrosOf core ≤ x % 2 ^ 24 / 32768) then reply port tag 2 stCapacityLowered s
    else memAnswer port tag a n ((rangeFrom a n).map fun x => readArr s core (x % 2 ^ 24 / 32768) (x % 32768))
      (atOnce (noteWindowRead core (a % 2 ^ 24) n) s)
  | .bad => reply port tag 2 stProgramError s

/-! ### CAPACITY (R267) -/

/-- The capacity record (Table 10.7). -/
def capBytes (s : State) : List Byte :=
  leBytes s.img.capFn.toNat 8 ++ leBytes (capLinks s).toNat 4 ++ List.replicate 4 0 ++ leBytes s.img.hbmBytes 8 ++
    ((List.range 12).flatMap fun d => leBytes (s.coresOf d) 1) ++ List.replicate 60 0 ++
    allCores.flatMap fun i => leBytes (s.macrosOf i) 2

/-- A CAPACITY read is served. -/
def takeCapacity (port tag n : Nat) (s : State) : State :=
  answerOn port { tag := tag, op := 3, status := stOK, fn := s.fn, data := (capBytes s).take n } s

/-! ### ATTEST (R398, R399) -/

/-- Whether the module can attest now. -/
def canAttest (s : State) : Bool := s.hasIdentity && s.sec.identity.isSome

/-- An ATTEST arrives; `a` is ADDR, the first 6 bytes of the nonce. -/
def takeAttest (port tag a n : Nat) (s : State) : State :=
  if n ≠ 832 ∨ !canAttest s then reply port tag 4 stProgramError s
  else s.modPort fun p =>
    { p with waitAttest := p.waitAttest ++ [{ fn := s.fn, port := port, tag := tag, core := 0, slot := a, len := n }] }

/-- The digest of an image as 32 bytes, zero for none. -/
def digestBytes (c : Option ImageContent) : List Byte := leBytes ((c.map fun c => c.digest.toNat).getD 0) 32

/-- Bytes 0 to 767 of the attestation report (Table 16.7). -/
def reportBody (s : State) (a tag : Nat) (key : BitVec 256) : List Byte :=
  let flags := (decide (s.regFld secTamper 0 3 ≠ 0)).toNat + 2 * (decide (mapBytes s ≠ storedMap s)).toNat
  let group (g : Nat) : Option ImageContent := (s.img.groups.find? fun x => x.1 = g).bind fun x => s.slotContent x.2
  leBytes 0x41545331 4 ++ leBytes 1 2 ++ leBytes s.lcState 1 ++ leBytes flags 1 ++ leBytes (s.reg secIdent).toNat 4 ++
    leBytes s.moduleId 2 ++ List.replicate 2 0 ++ leBytes a 6 ++ leBytes tag 4 ++ List.replicate 6 0 ++ leBytes s.fn.toNat 8 ++
    leBytes s.sec.fwDigest.toNat 32 ++ leBytes (s.regFld secFw 16 16) 2 ++ leBytes (s.regFld secFw 0 1) 1 ++ List.replicate 5 0 ++
    digestBytes s.image ++ ((List.range 16).flatMap fun g => digestBytes (group g)) ++ leBytes (hashOf (mapBytes s)) 32 ++
    leBytes (((storedOpKey s).map fun k => hashOf (keyBytes k)).getD 0) 32 ++ keyBytes (Config.sm2Public key) ++
    List.replicate 16 0

/-- The attestation report, signed by the identity key. -/
def reportBytes (s : State) (a tag : Nat) (key : BitVec 256) : List Byte :=
  let body := reportBody s a tag key
  body ++ leBytes (Config.sm2Sign key (leBytes (hashOf body) 32)).toNat 64

/-- One report is formed and answered. -/
def attestOne (w : WaitRead) (s : State) : State :=
  match gate s .attest, s.sec.identity with
  | some st, _ => reply w.port w.tag 4 st s
  | none, none => reply w.port w.tag 4 stProgramError s
  | none, some key =>
    answerOn w.port { tag := w.tag, op := 4, status := stOK, fn := s.fn, data := reportBytes s w.slot w.tag key } s

/-- ATTEST_REPORT (R398): every request that arrived before the present tick. -/
def attestReport (s : State) : State :=
  let due := s.port.waitAttest.filter fun w => decide (w.fn < s.fn)
  forEach due attestOne (s.modPort fun p => { p with waitAttest := p.waitAttest.filter fun w => !decide (w.fn < s.fn) })

/-- ATTEST_REPORT. -/
def execAttestReport (s : State) : Host.Outcome State Fault Refusal := answer s (attestReport s)

/-! ### REG_READ (R373) -/

/-- The path of a port. -/
def portPath (port : Nat) : Path := if port = 0 then .port0 else .port1

/-- A REG_READ is served. -/
def takeRegRead (port tag a : Nat) (s : State) : State :=
  let (v, st, s) := readReg (portPath port) a s
  answerOn port { tag := tag, op := 0, status := st, fn := s.fn, data := leBytes v.toNat 4 } s

/-! ### Events (R374) and port state (R367) -/

/-- EVT_ACK: the entries it covers leave the event FIFO. -/
def ackEvents (seq : Nat) (s : State) : State :=
  let keep := s.port.events.filter fun e => decide (seq < e.seq)
  (s.modPort fun p => { p with events := keep }).setFld (hubQA 1 4) 0 9 keep.length

/-- Send entries on a port, 64 to a frame, in SEQ order. -/
def sendEntries (port : Nat) (l : List EvEntry) (s : State) : State :=
  forEach (chunksOf 64 l) (fun c t => match c with
    | [] => t
    | _ => t.send (.frame port (eventFrame c))) s

/-- EVENT_LOST in the first entry that is due. -/
def flagLost (due : EvEntry → Bool) : List EvEntry → List EvEntry
  | [] => []
  | e :: r => if due e then { e with ev := { e.ev with lost := true } } :: r else e :: flagLost due r

/-- After entries were dropped, the next EVENT frame carries EVENT_LOST in its first entry (R374). -/
def reportLost (due : EvEntry → Bool) (s : State) : State :=
  if s.port.lostPending && s.port.events.any due then
    s.modPort fun p => { p with events := flagLost due p.events, lostPending := false }
  else s

/-- EVENT_RESEND: every entry still held is sent again on every UP port. -/
def eventResend (s : State) : State :=
  let up := [0, 1].filter fun p => s.portUp p
  if up.isEmpty then s
  else
    let s := reportLost (fun _ => true) s
    let s := forEach up (fun p t => sendEntries p t.port.events t) s
    s.modPort fun p => { p with events := p.events.map fun e => { e with sent := true } }

/-- EVENT_RESEND. -/
def execEventResend (s : State) : Host.Outcome State Fault Refusal := answer s (eventResend s)

/-- PORT_STATE_CHANGE (R367): entries not sent yet leave on a port that comes UP. -/
def portState (port : Nat) (up : Bool) (s : State) : State :=
  if 2 ≤ port ∨ s.portUp port = up then s
  else if up then
    let s := reportLost (fun e => !e.sent) (s.setBit (dpPortStat port) 0)
    let s := sendEntries port (s.port.events.filter fun e => !e.sent) s
    s.modPort fun p => { p with events := p.events.map fun e => { e with sent := true } }
  else ((s.clrBit (dpPortStat port) 0).setBit dpSticky 1).addCnt (dpPortCnt port) 16 16 1

/-- PORT_STATE_CHANGE. -/
def execPortStateChange (port : Nat) (up : Bool) (s : State) : Host.Outcome State Fault Refusal := answer s (portState port up s)

end Sys2Proof.Machine
end

