-- ==== Sys2Proof/Machine/Links.lean ====
section
/-! DEFINITION. The Chipra links as they receive (R290 to R300, R440): packets, link-layer control blocks, lanes, training and
failures; and the faults of the die-to-die interfaces, die controllers, clocks and supplies (R22, R317, R342). -/

namespace Sys2Proof.Machine

/-! ### Packets (R298, R304, R305) -/

/-- WR: the packet is judged and landed (R308 to R310), or forwarded. -/
def execWr (i : Nat) (p : Packet) (cw : Codeword) (s : State) : Host.Outcome State Fault Refusal := answer s (receive i p cw false s)

/-- WR_ACK: it advances the completion of its SEND (R311). -/
def execWrAck (i : Nat) (p : Packet) (cw : Codeword) (s : State) : Host.Outcome State Fault Refusal := answer s (receive i p cw false s)

/-- RD_REQ: it is served from the current version (R312). -/
def execRdReq (i : Nat) (p : Packet) (cw : Codeword) (s : State) : Host.Outcome State Fault Refusal := answer s (receive i p cw false s)

/-- RD_RESP: the data reach the hub that asked (R312). -/
def execRdResp (i : Nat) (p : Packet) (cw : Codeword) (s : State) : Host.Outcome State Fault Refusal := answer s (receive i p cw false s)

/-- SEIF: its entries enter the root hub node (R311). -/
def execSeif (i : Nat) (p : Packet) (cw : Codeword) (s : State) : Host.Outcome State Fault Refusal := answer s (receive i p cw false s)

/-! ### ACK, NAK and CREDIT (R298, R299) -/

/-- ACK: the packets up to an LSEQ leave the replay buffer. -/
def takeAckBlock (i lseq : Nat) (s : State) : State :=
  if !s.linkUp i then s
  else
    let l := s.link i
    let keep := l.replay.filter fun p => !decide ((lseq + 65536 - p.lseq) % 65536 < 4096)
    pumpLink i (s.setLink i { l with replay := keep, tries := l.tries.filter fun e => keep.any fun p => p.lseq = e.1 })

/-- ACK. -/
def execAck (i : Nat) (w : BitVec 64) (cw : Codeword) (s : State) : Host.Outcome State Fault Refusal :=
  answer s (rxBlock i 0xA1 w cw (takeAckBlock i (blkLseq w)) s)

/-- Resend packets of the replay buffer, in order: each adds 1 to REPLAYS and sets REPLAY (R298), and counts towards the limit
of R300. -/
def resend (i : Nat) (l : List Packet) (s : State) : State :=
  forEach l (fun p t =>
    let t := t.modLink i fun l => { l with tries := SMap.set (fun _ => 0) l.tries p.lseq (SMap.get (fun _ => 0) l.tries p.lseq + 1) }
    ((t.send (.packet i p)).addCnt (linkA i 8) 16 16 1).setBit (linkA i 4) 2) s

/-- NAK: every unacknowledged packet from the named LSEQ is sent again. -/
def takeNak (i lseq : Nat) (s : State) : State :=
  let again := (s.link i).replay.filter fun p => decide ((p.lseq + 65536 - lseq % 65536) % 65536 < 4096)
  if s.linkUp i && s.linkOpen i then resend i again s else s

/-- NAK. -/
def execNak (i : Nat) (w : BitVec 64) (cw : Codeword) (s : State) : Host.Outcome State Fault Refusal :=
  answer s (rxBlock i 0xA2 w cw (takeNak i (blkLseq w)) s)

/-- A cumulative credit count brought up to date: `units` is the buffer's size. -/
def creditTo (units freed c : Nat) : Nat := freed + (c + 65536 - (freed - units) % 65536) % 65536

/-- CREDIT: receive-buffer units return, and packets that waited for them go. -/
def takeCredit (i c0 c1 : Nat) (s : State) : State :=
  if !s.linkUp i then s
  else pumpLink i (s.modLink i fun l => { l with freed0 := creditTo 4096 l.freed0 c0, freed1 := creditTo 1024 l.freed1 c1 })

/-- CREDIT. -/
def execCredit (i : Nat) (w : BitVec 64) (cw : Codeword) (s : State) : Host.Outcome State Fault Refusal :=
  answer s (rxBlock i 0xA3 w cw (takeCredit i (blkCredit w).1 (blkCredit w).2) s)

/-! ### Timing probes (R45, R290) -/

/-- Whether a link has a signal: TRAINING, UP or RETRAINING. -/
def State.linkAlive (s : State) (i : Nat) : Bool := decide (1 ≤ s.linkState i) && decide (s.linkState i ≤ 3)

/-- PROBE: it is echoed, with the time that the echo took to leave. -/
def execProbe (i : Nat) (w : BitVec 64) (cw : Codeword) (around : Nat) (s : State) : Host.Outcome State Fault Refusal :=
  answer s (rxBlock i 0xA4 w cw (sendBlock i (echoBlock (blkTime w) around)) s)

/-- LINK_DELAY_PROBE (R45): a probe leaves with the present timebase. -/
def execLinkDelayProbe (i t : Nat) (s : State) : Host.Outcome State Fault Refusal :=
  answer s
    (if s.linkAlive i && s.linkOpen i then sendBlock i (probeBlock t) (s.modLink i fun l => { l with probe := some t }) else s)

/-- PROBE_ECHO: half the round trip, without the turnaround, is the one-way delay; above 220 ns it is reported (R290). Half of an
odd number of units is rounded down (DESIGN CHOICE, log entry 130). -/
def takeEcho (i ts turnaround t : Nat) (s : State) : State :=
  match (s.link i).probe with
  | none => s
  | some t0 =>
    if t0 % 2 ^ 32 ≠ ts ∨ t < t0 + turnaround then s
    else
      let d := (t - t0 - turnaround) / 2
      let s := s.modLink i fun l => { l with probe := none }
      let s := s.setReg (linkA i 0x10) (BitVec.ofNat 32 (min d 65535))
      if 1760 < d then raise0 (linkA i 4) 6 stOK i (s.setBit (linkA i 4) 6) else s

/-- PROBE_ECHO. -/
def execProbeEcho (i : Nat) (w : BitVec 64) (cw : Codeword) (t : Nat) (s : State) : Host.Outcome State Fault Refusal :=
  answer s (rxBlock i 0xA5 w cw (takeEcho i (blkTime w) (blkAround w) t) s)

/-! ### Retirement of lanes and links (R292, R293, R300, R322, Table 13.2) -/

/-- A unit is retired at once, with its entry of CLASS 2 and the events of R347. -/
def retiredNow (l : Loc) (s : State) : State :=
  let i := s.regFld fxLogHead 0 6
  let s := raiseFx s.wfn 0 i 1 (newLogEntry 2 l 0 s.fx.cur.attempt s.wfn s)
  raiseFx s.fn 3 i 2 (s.setBit fxSticky 3)

/-- A link is retired: its replay buffer is discarded and its transmit queue flushed; a packet whose stages were partly pushed
sets FLUSH_MID_ITEM (R285, R300). -/
def retireLink (i : Nat) (s : State) : State :=
  let s := whenS (decide (0 < (s.link i).part)) (fun t => t.setBit (hubQA (2 + i) 4) 17) s
  let s := s.modLink i fun l =>
    { l with replay := [], tries := [], waiting := [], backlog := [], part := 0, swap := none, peer := none, probe := none }
  let s := (s.setFld (hubQA (2 + i) 4) 0 9 0).setBit (linkA i 4) 5
  let s := setLinkState i 5 0 (s.markRetired 29480 i)
  retiredNow { unit := 4, die := 12, pcore := 0, index := i, det := 10 } s

/-- Whether lane 16 carries a logical lane. -/
def State.spareInUse (s : State) (i : Nat) : Bool := s.regBit (linkA i 0) 3

/-- A logical lane moves onto lane 16, and the link resumes: with its cumulative ACK and CREDIT, and with its packets from the
oldest unacknowledged one (R292; log entry 126). `mine` says that the lane that failed is one on which this module receives. -/
def moveLane (i lane : Nat) (mine : Bool) (s : State) : State :=
  let s := ((s.setFld (linkA i 0) 4 5 lane).setBit (linkA i 0) 3).setBit (linkA i 4) 3
  let s := s.modLink i fun l => { l with swap := none }
  let s := whenS mine (fun t =>
    retiredNow { unit := 3, die := 12, pcore := 0, index := lane, det := 10 } (t.markRetired 29412 (i * 17 + lane))) s
  if s.linkUp i then
    let s := sendAcks i s
    pumpLink i (resend i (s.link i).replay s)
  else s

/-- LANE_FAILURE (R292, R293): the receiver asks for a swap; with the spare in use, or itself failed, the link is retired. -/
def laneFails (i lane : Nat) (s : State) : State :=
  let l := s.link i
  if !s.linkAlive i ∨ 17 ≤ lane ∨ l.failed.contains lane then s
  else
    let s := s.setLink i { l with failed := l.failed ++ [lane] }
    if lane = 16 ∧ !s.spareInUse i then s
    else if s.spareInUse i ∨ l.swap.isSome ∨ l.failed.contains 16 then retireLink i s
    else (s.modLink i fun l => { l with swap := some lane }).send (.block i (swapBlock lane false))

/-- LANE_FAILURE. -/
def execLaneFailure (i lane : Nat) (s : State) : Host.Outcome State Fault Refusal := answer s (laneFails i lane s)

/-- LANE_SWAP (R292): a request is acknowledged and the lane moved; an acknowledgement completes this module's request. -/
def takeSwap (i lane : Nat) (isAck : Bool) (s : State) : State :=
  if !s.linkAlive i ∨ 16 ≤ lane then s
  else if isAck then (if (s.link i).swap = some lane then moveLane i lane true s else s)
  else if s.spareInUse i then retireLink i s
  else moveLane i lane false (s.send (.block i (swapBlock lane true)))

/-- LANE_SWAP. -/
def execLaneSwap (i : Nat) (w : BitVec 64) (cw : Codeword) (s : State) : Host.Outcome State Fault Refusal :=
  answer s (rxBlock i 0xA6 w cw (takeSwap i (blkLane w) (blkSwapAck w)) s)

/-! ### Training (R294, R295) -/

/-- The PART of a module that a link trains with (R295). -/
def linkPart : Nat := 0xD13

/-- Why the peer that a TRAIN block reports is refused: an UNTRAINED reason and the bit of CL_STICKY, if any. -/
def peerRefusal (s : State) (i : Nat) (p : PeerId) : Option (Nat × Option Nat) :=
  if p.part ≠ linkPart then some (3, none)
  else if p.mid = s.moduleId then some (4, some 5)
  else match s.image.bind fun c => c.route.expect.find? fun e => e.1 = i with
    | some e => if e.2.1 = p.mid ∧ e.2.2 = p.lnk then none else some (5, some 6)
    | none => none

/-- TRAIN: the peer's identity is recorded and checked. -/
def takeTrain (i : Nat) (p : PeerId) (s : State) : State :=
  let st := s.linkState i
  if st ≠ 1 ∧ st ≠ 3 then s
  else
    let s := (s.setFld (linkA i 0) 14 14 p.mid).setFld (linkA i 0) 9 5 p.lnk
    match peerRefusal s i p with
    | none => s.modLink i fun l => { l with peer := some p }
    | some (reason, b) =>
      let s := match b with
        | some b => s.setBit clSticky b
        | none => s
      let s := s.modLink i fun l => { l with peer := none }
      if st = 1 then setLinkState i 4 reason s else s

/-- The identity that a TRAIN block carries. -/
def blkPeer (w : BitVec 64) : PeerId := { part := blkFld w 44 12, step := blkFld w 36 8, mid := blkFld w 22 14, lnk := blkFld w 17 5 }

/-- TRAIN. -/
def execTrain (i : Nat) (w : BitVec 64) (cw : Codeword) (s : State) : Host.Outcome State Fault Refusal :=
  answer s (rxBlock i 0xA7 w cw (takeTrain i (blkPeer w)) s)

/-- LINK_TRAINING_DONE: UP once the identity exchange has passed, or UNTRAINED with its reason; a link that retrains resumes
from its oldest unacknowledged packet (R300). -/
def trainingDone (i : Nat) (r : TrainResult) (s : State) : State :=
  let st := s.linkState i
  let l := s.link i
  if st ≠ 1 ∧ st ≠ 3 then s
  else match r with
    | .up =>
      if l.peer.isNone ∨ l.cableOff then s
      else
        let s := setLinkState i 2 0 s
        pumpLink i (resend i (s.link i).replay s)
    | .noSignal => if st = 1 then setLinkState i 4 1 s else s
    | .lockFailed => if st = 1 then setLinkState i 4 2 s else s

/-- LINK_TRAINING_DONE. -/
def execLinkTrainingDone (i : Nat) (r : TrainResult) (s : State) : Host.Outcome State Fault Refusal := answer s (trainingDone i r s)

/-- Whether one packet has been resent 8 times in succession (R300). -/
def resentOften (l : LinkSt) : Bool := l.tries.any fun e => decide (8 ≤ e.2)

/-- LINK_FAILURE (R300): an UP link enters RETRAINING. -/
def linkFails (i : Nat) (cause : LinkFault) (s : State) : State :=
  if !s.linkUp i ∨ (cause = .resendLimit ∧ !resentOften (s.link i)) then s
  else
    let s := setLinkState i 3 0 (s.setBit (linkA i 4) 4)
    let s := s.modLink i fun l => { l with peer := none, probe := none, swap := none, tries := [] }
    s.send (trainBlock s i)

/-- LINK_FAILURE. -/
def execLinkFailure (i : Nat) (cause : LinkFault) (s : State) : Host.Outcome State Fault Refusal := answer s (linkFails i cause s)

/-- RETRAIN_TIMEOUT (R300): the link is retired. -/
def execRetrainTimeout (i : Nat) (s : State) : Host.Outcome State Fault Refusal :=
  answer s (if s.linkState i = 3 then retireLink i s else s)

/-- CABLE_SUPPLY_OFF (R440): the link of a front cage ends in UNTRAINED with reason 1. -/
def cableOff (i : Nat) (s : State) : State :=
  if i < 12 ∨ 32 ≤ i then s
  else
    let s := s.modLink i fun l => { l with cableOff := true }
    if s.linkAlive i then setLinkState i 4 1 s else s

/-- CABLE_SUPPLY_OFF. -/
def execCableSupplyOff (i : Nat) (s : State) : Host.Outcome State Fault Refusal := answer s (cableOff i s)

/-! ### Dies (R22, R317, R342) -/

/-- A die is lost: its capacity falls to 0 (R342). -/
def loseDie (d : Nat) (s : State) : State :=
  let s := s.markRetired 29532 d
  capacityChanged stCapacityLowered (s.modImg fun g => { g with cores := g.cores.set d 0 })

/-- The entry of a location in the running work frame, where it is permanent. -/
def classedEntry (s : State) (l : Loc) : Option Nat :=
  (s.fx.keys.find? fun k => k.loc = l && k.wfn = s.wfn && k.source = 0).bind fun k =>
    if s.regFld (logA k.ix 0) 28 4 = 2 then some k.ix else none

/-- What the retirement of a unit that has no replacement does (Table 13.2): a ring interface, a die, or the hub die. -/
def retireDieUnit (i : Nat) (l : Loc) (s : State) : State :=
  if l.unit = 8 then s.modBist fun b => { b with hubFailed := true }
  else
    let s := if l.unit = 6 ∧ l.index = 1 then s.markRetired 29532 (12 + l.die) else loseDie l.die s
    raiseFx s.fn 3 i 2 (s.setBit fxSticky 3)

/-- A detected fault of a die, of its interfaces or of the hub die; a location that becomes permanent retires its unit. -/
def dieFault (l : Loc) (s : State) : State :=
  let was := (classedEntry s l).isSome
  let s := detectFault l s
  match classedEntry s l with
  | some i => if was then s else retireDieUnit i l s
  | none => s

/-- DIE_TO_DIE_FLIT_ERROR (R22): the first failure of a flit is a resend, the second a detected fault; each is counted. -/
def flitError (d : Nat) (ring second : Bool) (s : State) : State :=
  let k := d * 2 + ring.toNat
  if 12 ≤ d ∨ dieHeldNow s d then s
  else if second then
    let s := s.modBist fun b => { b with flitSecond := SMap.set (fun _ => 0) b.flitSecond k (SMap.get (fun _ => 0) b.flitSecond k + 1) }
    dieFault { unit := 6, die := d, pcore := 0, index := ring.toNat, det := 8 } s
  else s.modBist fun b => { b with flitResend := SMap.set (fun _ => 0) b.flitResend k (SMap.get (fun _ => 0) b.flitResend k + 1) }

/-- DIE_TO_DIE_FLIT_ERROR. -/
def execDieToDieFlitError (d : Nat) (ring second : Bool) (s : State) : Host.Outcome State Fault Refusal :=
  answer s (flitError d ring second s)

/-- DIE_CONTROLLER_HEARTBEAT_MISS. -/
def execDieControllerHeartbeatMiss (d : Nat) (s : State) : Host.Outcome State Fault Refusal :=
  answer s (if 12 ≤ d ∨ dieHeldNow s d then s else dieFault { unit := 7, die := d, pcore := 0, index := 0, det := 12 } s)

/-- CLOCK_SUPPLY_FAULT: of a compute die, or of the hub die (12). -/
def execClockSupplyFault (d : Nat) (s : State) : Host.Outcome State Fault Refusal :=
  answer s
    (if d = 12 then dieFault { unit := 8, die := 12, pcore := 0, index := 0, det := 15 } s
     else if 12 < d ∨ dieHeldNow s d then s
     else dieFault { unit := 7, die := d, pcore := 0, index := 0, det := 15 } s)

end Sys2Proof.Machine
end

