-- ==== Sys2Proof/Machine/Power.lean ====
section
/-! DEFINITION. The load-slew governor and the power cap (R350 to R360), temperature (R361 to R363) and the input (R349, R403,
R429). -/

namespace Sys2Proof.Machine

/-! ### Budgets (R354) -/

/-- The budget of a frame that runs work: P_FRAME of the running variant or P_LOAD of a load frame, at most 3,200 W (R356). -/
def workBudget (s : State) (f : FrameRec) : Nat :=
  match s.image with
  | none => pIdle
  | some c =>
    let b := match f.kind with
      | .load i => nth 0 (((c.power[0]?).map (·.pLoad)).getD []) i
      | _ => ((c.power[s.variant]?).map (·.pFrame)).getD pIdle
    min b 3200

/-- P_BUDGET now: of the running frame's work, of the last work frame in a frame that runs none, or P_idle with no image and
after a halt. -/
def budgetNow (s : State) : Nat :=
  if !s.active ∨ s.fx.halt ≠ 0 then pIdle
  else if s.fx.cur.kind = .quiet ∨ s.fx.cur.inPlace then (if s.pwr.workBudget = 0 then pIdle else s.pwr.workBudget)
  else workBudget s s.fx.cur

/-- This module's slot of R359: module ID mod GROUPS. -/
def staggerSlot (s : State) : Nat := s.moduleId % max (s.regFld pgStagger 16 11) 1

/-! ### Every microsecond (R355, R356) -/

/-- The ballast maximum: 90 W in each compute die that is not in reset, and 120 W in the hub die. -/
def ballastMax (s : State) : Nat :=
  90 * ((List.range 12).filter fun d => !dieHeldNow s d).length + (if nth false s.bist.thermHeld 12 then 0 else 120)

/-- Macro work that the cap held back goes on. -/
def resumeMacros (s : State) : State :=
  forEach s.cores (fun c t => forEach (c.2.ops.filter fun o => isMacroOp (iOp o.word)) (fun o u => goOn c.1 o.seq u) t) s

/-- The power cap after a sample (R356): asserted above 3,250 W of the mean of the last millisecond, released at 3,200 W. -/
def capRule (s : State) : State :=
  let n := s.pwr.samples.length
  let sum := sumN s.pwr.samples
  let on := if s.pwr.cap then decide (3200 * n < sum) else decide (3250 * n < sum)
  let was := s.pwr.cap
  let s := s.modPwr fun p => { p with cap := on }
  let s := whenS (on && !s.pwr.capThisFrame) (fun t =>
    (raise0 pgSticky 9 stOK 0 (t.setBit pgSticky 9)).modPwr fun p => { p with capThisFrame := true }) s
  whenS (was && !on) resumeMacros s

/-- GOVERNOR_SAMPLE: the ballast is set towards the target, and the cases of Table 14.3 are recorded. -/
def governorSample (pReal : Nat) (s : State) : State :=
  if s.pwr.input ≠ 2 then s
  else
    let top := ballastMax s
    let ballast := min (s.pwr.target - pReal) top
    let sat := decide (pReal + top < s.pwr.target)
    let above := decide (s.pwr.target < pReal)
    let s := s.modPwr fun p =>
      { p with ballast := ballast, samples := ((pReal + ballast) :: p.samples).take 1000, ballasts := (ballast :: p.ballasts).take 1000 }
    let s := whenS (sat && !s.pwr.satThisMs) (fun t => (t.setBit pgSticky 1).modPwr fun p => { p with satThisMs := true }) s
    let s := whenS (above && !s.pwr.overThisFrame) (fun t =>
      (raise0 pgSticky 0 stOK 0 (t.setBit pgSticky 0)).modPwr fun p => { p with overThisFrame := true }) s
    capRule s

/-- GOVERNOR_SAMPLE. -/
def execGovernorSample (pReal : Nat) (s : State) : Host.Outcome State Fault Refusal := answer s (governorSample pReal s)

/-! ### Every millisecond (R350, R352, R354, R357, R361, R365) -/

/-- The slew and flatness checks of a millisecond mean (R357). -/
def slewFlat (pIn : Nat) (s : State) : State :=
  let far (a b n : Nat) : Bool := decide (b + n < a) || decide (a + n < b)
  let s := match s.pwr.means with
    | [] => s
    | m :: _ => whenS (far pIn m (s.regFld pgCtrl 0 11)) (fun t => (t.setBit pgSticky 2).addCnt pgCnt 0 16 1) s
  let sum := sumN s.pwr.means
  whenS (decide (s.pwr.means.length = 1000) && !s.pwr.targetMoved && far (pIn * 100000) (sum * 100) (s.regFld pgCtrl 16 5 * sum))
    (fun t => (t.setBit pgSticky 3).addCnt pgCnt 16 16 1) s

/-- P_TGT moves by at most `slew` towards a goal above it. -/
def riseTo (goal slew tgt : Nat) : Nat := min goal (tgt + slew)

/-- P_TGT and the wait of its descent, at the start of a millisecond (R354, R359, R360). -/
def moveTarget (s : State) : State :=
  let budget := budgetNow s
  let old := s.regFld pgTarget 16 16
  let tgt := s.pwr.target
  let slew := s.regFld pgCtrl 0 11
  let (goal, up) : Nat × Nat := match s.pwr.preRamp with
    | some (_, g, sl) => if s.pwr.ramping ∧ budget < g then (g, sl) else (budget, slew)
    | none => (budget, slew)
  let wait := some (staggerSlot s * s.regFld pgStagger 0 16)
  let p := s.pwr
  let (new, p) : Nat × PowerSt :=
    if tgt ≤ goal then (riseTo goal up tgt, { p with descentWait := none, descending := false })
    else if p.descending then (max goal (tgt - slew), p)
    else if p.descentWait.isNone ∨ old < budget then (tgt, { p with descentWait := wait })
    else (tgt, p)
  let s := { s with pwr := { p with target := new, targetMoved := decide (new ≠ tgt) } }
  s.setReg pgTarget (BitVec.ofNat 32 (budget * 65536 + new))

/-- Tj: the hottest reading of the module. -/
def hottest (l : List Nat) : Nat := l.foldl max 0

/-- C_TH from Tj (R361). -/
def thermalCeiling (ceil warn tj : Nat) : Nat := if tj ≤ warn then ceil else ceil * (105 - tj) / (105 - warn)

/-- C_V from the highest supply step (R364, R365). -/
def supplyCeiling (ceil step : Nat) : Nat := ceil * 740 ^ 2 / (700 + 8 * step) ^ 2

/-- The ceilings are recomputed; C_EFF applies at the next tick (R352). -/
def ceilings (s : State) : State :=
  let ceil := s.regFld pgCeil 0 8
  let tj := if s.pwr.tjMax.all fun x => decide (x = 0) then s.pwr.tj else s.pwr.tjMax
  let th := thermalCeiling ceil (s.regFld pgCeil 24 8) (hottest tj)
  let ms := min 10 (s.pwr.msRise + 1)
  let (cTh, ms) : Nat × Nat :=
    if th ≤ s.pwr.cTh then (th, ms)
    else if 10 ≤ ms then (s.pwr.cTh + 1, 0)
    else (s.pwr.cTh, ms)
  let cV := supplyCeiling ceil (hottest ((List.range 12).map fun d => s.regFld (pgDieA d) 8 4))
  let s := s.modPwr fun p =>
    { p with tj := tj, tjMax := List.replicate 13 0, cTh := cTh, cV := cV, msRise := ms, pendCeff := min cTh cV }
  s.setFld pgCeil 8 8 cTh

/-- The mean of the samples of the last millisecond, rounded down (DESIGN CHOICE, log entry 131); 0 before the first sample. -/
def meanOf (l : List Nat) : Nat := sumN l / l.length

/-- GOVERNOR_MILLISECOND: the mean input power and ballast of the millisecond that ended (R350). -/
def governorMs (s : State) : State :=
  if s.pwr.input ≠ 2 then s
  else
    let pIn := meanOf s.pwr.samples
    let ballast := meanOf s.pwr.ballasts
    let s := s.setReg pgPower (BitVec.ofNat 32 (ballast % 65536 * 65536 + pIn % 65536))
    let s := (slewFlat pIn s).modPwr fun p => { p with means := (pIn :: p.means).take 1000, satThisMs := false }
    ceilings (moveTarget s)

/-- GOVERNOR_MILLISECOND. -/
def execGovernorMillisecond (s : State) : Host.Outcome State Fault Refusal := answer s (governorMs s)

/-! ### Start and stop (R359, R360) -/

/-- PRE_RAMP_START: after the slot wait that followed IMG_ACTIVATE, the target rises towards the first load budget. -/
def preRampStart (s : State) : State :=
  match s.pwr.preRamp with
  | some (0, _, _) => s.modPwr fun p => { p with ramping := true }
  | _ => s

/-- PRE_RAMP_START. -/
def execPreRampStart (s : State) : Host.Outcome State Fault Refusal := answer s (preRampStart s)

/-- TARGET_DESCENT_START: after the slot delay that followed a fall of the budget, the target descends. -/
def descentStart (s : State) : State :=
  if s.pwr.descentWait = some 0 then s.modPwr fun p => { p with descentWait := none, descending := true } else s

/-- TARGET_DESCENT_START. -/
def execTargetDescentStart (s : State) : Host.Outcome State Fault Refusal := answer s (descentStart s)

/-! ### Temperature (R361, R363) -/

/-- The greater of two readings, die by die. -/
def maxEach (a b : List Nat) : List Nat := (List.range 13).map fun d => max (nth 0 a d) (nth 0 b d)

/-- TEMP_SAMPLE: the hottest sensor of each die; the hub die is die 12. -/
def execTempSample (tj : List Nat) (s : State) : Host.Outcome State Fault Refusal :=
  answer s (if s.pwr.input ≠ 2 then s else s.modPwr fun p => { p with tjMax := maxEach p.tjMax tj })

/-- Stop what the cores of a die do. -/
def stopDie (d : Nat) (s : State) : State :=
  { s with
    cores := s.cores.map fun e =>
      if e.1 / 64 = d then (e.1, { e.2 with prog := none, ops := [], macros := [], waiting := none, waits := [], ended := true })
      else e,
    flight := s.flight.filter fun m => m.1 / 64 ≠ d }

/-- JUNCTION_TRIP: the die is held in reset at once; a detected fault, and its capacity is gone. -/
def junctionTrip (d : Nat) (s : State) : State :=
  if 13 ≤ d ∨ nth false s.bist.thermHeld d ∨ s.pwr.input ≠ 2 ∨ (d < 12 ∧ dieHeldNow s d) then s
  else
    let s := (s.setBit pgSticky 5).modBist fun b => { b with thermHeld := b.thermHeld.set d true }
    let s := detectFault { unit := if d = 12 then 8 else 7, die := d, pcore := 0, index := 0, det := 15 } s
    if d = 12 then s
    else capacityChanged stCapacityLowered ((stopDie d s).modImg fun g => { g with cores := g.cores.set d 0 })

/-- JUNCTION_TRIP. -/
def execJunctionTrip (d : Nat) (s : State) : Host.Outcome State Fault Refusal := answer s (junctionTrip d s)

/-! ### The input (R349, R403, R429) -/

/-- A transition that is under way runs to its end on hold-up energy (R393, R403). -/
def finishTransition (s : State) : State :=
  match s.sec.queue with
  | r :: _ => if r.transition.isSome then (List.range r.pages.length).foldl (fun t _ => pageStore true true t) s else s
  | [] => s

/-- What survives the loss of the input: the NVM, the fuses and physical defects. Everything else takes its reset value
(R429). -/
def powerReset (s : State) : State :=
  let r : State := { State.reset with
    err := { macFlip := s.err.macHard, macHard := s.err.macHard, treeErr := s.err.treeErr, wideErr := s.err.wideErr,
             slack := s.err.slack, spFlip := s.err.spHard, spHard := s.err.spHard },
    sec := { nvm := s.sec.nvm, vendorHash := s.sec.vendorHash, secret := s.sec.secret },
    freeCount := s.freeCount, out := s.out, pending := s.pending }
  (r.setReg64 secSerial (s.reg64 secSerial)).putBit secTamper 3 (s.regBit secTamper 3)

/-- The input leaves its range (Table 14.1): every die is held in reset. -/
def inputLost (state bitIx : Nat) (s : State) : State :=
  if s.pwr.input = 0 ∨ s.pwr.input = state then s
  else ((powerReset (finishTransition s)).setBit pgSticky bitIx).modPwr fun p => { p with input := state }

/-- INPUT_LOW. -/
def execInputLow (s : State) : Host.Outcome State Fault Refusal := answer s (inputLost 3 6 s)

/-- INPUT_HIGH. -/
def execInputHigh (s : State) : Host.Outcome State Fault Refusal := answer s (inputLost 4 7 s)

/-- INPUT_RESTORED: after soft start, or after the low or the high state; registers are at their reset values. -/
def inputRestored (s : State) : State :=
  if s.pwr.input = 2 then s
  else ((powerReset s).setBit nvHoldup 31).modPwr fun p => { p with input := 2 }

/-- INPUT_RESTORED. -/
def execInputRestored (s : State) : Host.Outcome State Fault Refusal := answer s (inputRestored s)

end Sys2Proof.Machine
end

