-- ==== Sys2Proof/Machine/Bringup.lean ====
section
/-! DEFINITION. Bring-up (R386 to R396, R405, R408 to R415): the stages from power-on to READY, power-on self-test, safe states, and
the release of a die after a thermal reset. -/

namespace Sys2Proof.Machine

/-- STAGE of BI_STATUS. -/
def setStage (n : Nat) (s : State) : State := s.setFld biStatus 0 4 n

/-! ### Stage 2: fuses, life cycle, firmware and identity -/

/-- Whether a store has written a page of a firmware slot; the contents that a slot left the factory with are not modelled. -/
def fwWritten (s : State) (slot : Nat) : Bool := (List.range 384).any fun i => decide (nvPhys s (1024 + 384 * slot + i) ≠ {})

/-- One of a pair, by firmware slot. -/
def ofSlot {α : Type} (slot : Nat) (p : α × α) : α := if slot = 0 then p.1 else p.2

/-- The minimum firmware version of logical page 3. -/
def minVersion (s : State) : Nat := pageFld s 3 2 2

/-- The version of the image in a firmware slot. -/
def slotVersion (f : BootFindings) (s : State) (slot : Nat) : Nat :=
  if fwWritten s slot then leNat (((fwBytes s slot).drop 4).take 2) else ofSlot slot f.slotVersion

/-- Whether the boot ROM finds a firmware slot valid (R387). -/
def slotGood (f : BootFindings) (s : State) (slot : Nat) : Bool :=
  if fwWritten s slot then fwValid s slot (minVersion s)
  else ofSlot slot f.slotValid && decide (1 ≤ ofSlot slot f.slotVersion) && decide (minVersion s ≤ ofSlot slot f.slotVersion)

/-- The slot that the boot ROM runs: the active one if valid, else the other if valid (R388). -/
def bootSlot (f : BootFindings) (s : State) : Option Nat :=
  let a := pageFld s 3 0 1 % 2
  if slotGood f s a then some a else if slotGood f s (1 - a) then some (1 - a) else none

/-- The life-cycle state at power-on (R390, R394, Table 16.6). -/
def bootState (s : State) : Nat :=
  let st := pageFld s 0 0 1
  if s.regBit secTamper 3 then 3
  else if (st = 1 ∨ st = 2) ∧ (storedSalt s).isNone then 3
  else if st = 2 ∧ (storedOpKey s).isNone then 3
  else st

/-- The digest of the image that runs, and the state after a free value is taken where its bytes are not modelled. -/
def fwDigestOf (s : State) (slot : Nat) : BitVec 256 × State :=
  if fwWritten s slot then
    let l := fwBytes s slot
    (Config.sm3 (l.take (leNat ((l.drop 8).take 4))), s)
  else (s.free 256, s.usedFree)

/-- Stage 2. The second component says whether a firmware slot runs. -/
def stageTwo (f : BootFindings) (s : State) : State × Bool :=
  let s := setStage 2 (whenS f.meshOpen (fun t => t.setBit secTamper 3) s)
  let s := s.setFld secLc 0 3 (bootState s)
  match bootSlot f s with
  | none => (s.setFld biStatus 8 3 1, false)
  | some slot =>
    let s := s.setReg secFw (BitVec.ofNat 32 (slotVersion f s slot % 65536 * 65536 + slot))
    let (d, s) := fwDigestOf s slot
    (s.modSec fun x =>
      { x with fwDigest := d, stopped := false, identity := if s.hasIdentity then (storedSalt s).map (identityKey x.secret) else none }, true)

/-! ### Stage 3: settings, retirement map and the first tick -/

/-- The set bits of the stored retirement map (R405). -/
def storedRetired (s : State) : SMap Bool :=
  let l := storedMap s
  (l.zip (List.range l.length)).flatMap fun x =>
    if x.1 = 0 then [] else (List.range 8).filterMap fun b => if bit x.1 b then some (x.2 * 8 + b, true) else none

/-- CL_ID from the identity in NVM (R296). -/
def loadClId (s : State) : State :=
  let v := BitVec.ofNat 32 (pageFld s 1 96 4)
  if bit v 31 then s.setReg clId (v &&& 0x80003FFF) else s

/-- PG_CTRL and PG_STAGGER from the default slew profile, when one is stored (R358). -/
def loadSlew (s : State) : State :=
  match logicalPage s 76 with
  | none => s
  | some l => (s.setReg pgCtrl (BitVec.ofNat 32 (leNat (l.take 4)))).setReg pgStagger (BitVec.ofNat 32 (leNat ((l.drop 4).take 4)))

/-- The stored calibration (logical pages 12 to 75). -/
def storedCal (s : State) : List Byte := (List.range 64).flatMap fun k => (logicalPage s (12 + k)).getD []

/-- The first tick at the end of stage 3 (R37, R40, R410). A source that is external waits for its first event. -/
def firstTick (s : State) : State :=
  let src := s.regFld ftSrc 0 2
  let p := s.regFld ftPeriod 0 20
  let ext := decide (2 ≤ src)
  let s := s.modTk fun k =>
    { k with fn := 0, started := !ext, period := p, nextTick := 8 * p, waitFirst := decide (src ≠ 1) }
  whenS (decide (src = 1)) (fun t => t.setBit ftStatus 0) s

/-- Stage 3. -/
def stageThree (s : State) : State :=
  let s := setStage 3 s
  let s := loadSlew (loadClId s)
  let s := s.modBist fun b => { b with retired := storedRetired s }
  let s := s.modSec fun x => { x with cal := storedCal s, opKey := if s.lcState = 2 then storedOpKey s else none }
  firstTick ((s.setReg64 secLcNonce (s.free 64)).usedFree)

/-! ### Self-test (R411, R412, Table 17.2) -/

/-- A unit that BIST retires: its bit of the live map, its log entry and BIST_RETIRED. -/
def bistRetire (base i : Nat) (l : Loc) (s : State) : State :=
  if s.isRetired base i then s else newLogEntry 2 l 1 0 0 ((s.markRetired base i).setBit biSticky 2)

/-- A physical core that BIST retires. -/
def bistCore (d p : Nat) (s : State) : State := bistRetire 26144 (d * 66 + p) { unit := 1, die := d, pcore := p, index := 0, det := 0 } s

/-- What a failure found by BIST does (Table 17.2). A bank takes its physical core with it, under one log entry of the bank. -/
def bistFail (x : BistFail) (s : State) : State :=
  match x with
  | .array d p pm => bistRetire 0 ((d * 66 + p) * 264 + pm) { unit := 0, die := d, pcore := p, index := pm, det := 0 } s
  | .bank d p b =>
    (bistRetire 26244 ((d * 66 + p) * 32 + b) { unit := 2, die := d, pcore := p, index := b, det := 0 } s).markRetired 26144 (d * 66 + p)
  | .core d p => bistCore d p s
  | .die d => ((s.modBist fun b => { b with dieHeld := b.dieHeld.set d true }).setFld (biDieA d) 0 2 2).setBit biSticky 1
  | .ring d => bistRetire 29532 (12 + d) { unit := 6, die := d, pcore := 0, index := 1, det := 0 } s
  | .channel i => bistRetire 29484 i { unit := 5, die := 12, pcore := 0, index := i, det := 0 } s
  | .hub => s

/-- The die in which a failure of stage 6 lies. -/
def bistDie : BistFail → Option Nat
  | .array d _ _ => some d
  | .bank d _ _ => some d
  | .core d _ => some d
  | .die d => some d
  | .ring d => some d
  | _ => none

/-! ### Stages 4 to 7 -/

/-- Hub BIST: on a failure the module enters safe state 3 (Table 17.3). -/
def hubBist (f : BootFindings) (s : State) : State × Bool :=
  let s := setStage 4 s
  if f.fails.contains .hub then
    (raise0 biSticky 0 stOK 0 ((s.setFld biStatus 8 3 3).setBit biSticky 0), false)
  else (s, true)

/-- Physical receive lanes of a link that the map retires. -/
def retiredLanes (s : State) (i : Nat) : List Nat := (List.range 17).filter fun k => s.isRetired 29412 (i * 17 + k)

/-- A link at power-on: retired, its failed lane spared, or left DOWN. -/
def bootLink (i : Nat) (s : State) : State :=
  let bad := retiredLanes s i
  let s := s.modLink i fun l => { l with failed := bad }
  if s.isRetired 29480 i then s.setFld (linkA i 0) 0 3 5
  else match bad.find? fun k => k < 16 with
    | none => s
    | some k => (s.setFld (linkA i 0) 4 5 k).setBit (linkA i 0) 3

/-- HBM_BYTES with the pseudo-channels that the map retires. -/
def usableHbm (s : State) : Nat :=
  309036318720 - channelBytes * ((List.range 384).filter fun i => s.isRetired 29484 i).length

/-- Stage 5: HBM BIST, and the training of every enabled link (R294); the results of training are commands of their own. -/
def stageFive (f : BootFindings) (s : State) : State :=
  let s := setStage 5 s
  let s := forEach f.fails (fun x t => match x with
    | .channel _ => bistFail x t
    | _ => t) s
  let s := s.modImg fun g => { g with hbmBytes := usableHbm s }
  forEach (List.range 32) (fun i t =>
    let t := bootLink i t
    if t.idValid && t.regBit clEn i && decide (t.linkState i ≠ 5) then startTraining i t else t) s

/-- The logical cores of a die on its good physical cores, as `homeMacros` places macros (R411). -/
def homeCores (s : State) (d : Nat) : List (Nat × Nat) :=
  let good := (List.range 66).filter fun p => !coreRetired s d p
  let n := min 64 good.length
  let own := (List.range n).filter fun c => good.contains c
  let rest := (List.range n).filter fun c => !good.contains c
  own.map (fun c => (c, c)) ++ rest.zip (good.filter fun p => decide (n ≤ p))

/-- The macros of one logical core after BIST. -/
def mapMacros (core : Nat) (s : State) : State :=
  let ix := s.pcIx core
  let n := min 256 (goodMacros s ix).length
  let s := s.modImg fun g => { g with macros := SMap.set (fun _ => 256) g.macros core n }
  let s := forEach ((homeMacros s ix n).filter fun m => m.1 ≠ m.2) (fun m t => setPmacro core m.1 m.2 t) s
  forEach ((List.range 32).filter (bankRetired s core)) (retireBankPwr core) s

/-- The cores and macros of a die after BIST; a die that is lost or held has none. -/
def mapDie (d : Nat) (s : State) : State :=
  if s.isRetired 29532 d ∨ nth false s.bist.dieHeld d then s.modImg fun g => { g with cores := g.cores.set d 0 }
  else
    let l := homeCores s d
    let s := s.modImg fun g => { g with cores := g.cores.set d l.length }
    let s := forEach l (fun c t => t.modBist fun b => { b with pcoreOf := SMap.set (fun i => i % 64) b.pcoreOf (64 * d + c.1) c.2 }) s
    forEach (List.range l.length) (fun c t => mapMacros (64 * d + c) t) s

/-- Die BIST of one die: its failures, its RESULT, and its mapping. -/
def dieBist (d : Nat) (fails : List BistFail) (s : State) : State :=
  let s := forEach (fails.filter fun x => bistDie x = some d) bistFail s
  let s := if nth false s.bist.dieHeld d then s else s.setFld (biDieA d) 0 2 1
  mapDie d s

/-- Whether the module has its full capacity. -/
def fullCapacity (s : State) : Bool := decide (capCores s = 768) && decide (capMacrosLost s = 0) && decide (s.img.hbmBytes = 309036318720)

/-- Stages 6 and 7: the dies are released and tested, the capacity record is formed, and the module is READY. -/
def stageSixSeven (f : BootFindings) (s : State) : State :=
  let s := forEach (List.range 12) (fun d t => dieBist d f.fails t) (setStage 6 s)
  let s := setStage 7 (s.modImg fun g => { g with capFn := s.fn })
  raiseKind 4 (if fullCapacity s then stOK else stCapacityLowered) 0 (capCores s + capMacrosLost s * 2 ^ 32) s

/-- The hold-up capacitors are charged: at least 6 J of usable energy, a free value above that (R403). -/
def chargeHoldup (s : State) : State :=
  let v : BitVec 16 := s.free 16
  (s.setFld nvHoldup 0 16 (max 6000 v.toNat)).usedFree

/-- BRING_UP (R408). -/
def bringUp (f : BootFindings) (s : State) : State :=
  if s.pwr.input ≠ 2 ∨ s.stage ≠ 1 ∨ s.safe ≠ 0 then s
  else
    let (s, go) := stageTwo f s
    if !go then s
    else
      let (s, go) := hubBist f (stageThree s)
      if !go then s else chargeHoldup (stageSixSeven f (stageFive f s))

/-- BRING_UP. -/
def execBringUp (f : BootFindings) (s : State) : Host.Outcome State Fault Refusal := answer s (bringUp f s)

/-! ### Release after a thermal reset (R363, R415) -/

/-- The registers of a die return to their reset values; the die's part of the hub block keeps its own. -/
def dieRegsReset (d : Nat) (s : State) : State :=
  { s with regs := SMap.dropRange s.regs (dieA d 0) (dieA (d + 1) 0) }

/-- The state of a core that a reset clears. -/
def coreReset (core : Nat) (s : State) : State :=
  let cfg := (s.core core).cfg
  s.modCore core fun _ => { cfg := cfg }

/-- The configuration of a core after its die's reset: what the active images give it, tags FREE. -/
def reloadCore (core : Nat) (s : State) : State := loadCore core (s.core core).cfg (coreReset core s)

/-- A store with n cells at b that are those at a of an earlier store. -/
def bring {α : Type} [DecidableEq α] (d : Nat → α) (old : SMap α) (a b n : Nat) (m : SMap α) : SMap α :=
  (old.filter fun e => decide (a ≤ e.1) && decide (e.1 < a + n)).foldl (fun m e => SMap.set d m (b + (e.1 - a)) e.2)
    (SMap.dropRange m b (b + n))

/-- The banks of a physical core take the contents that another had, bit for bit. -/
def bringBanks (s0 : State) (old new : Nat) (s : State) : State :=
  if old = new then s
  else { s with
    spad := bring memDefault s0.spad (old * 2 ^ 22) (new * 2 ^ 22) (2 ^ 22) s.spad,
    err := { s.err with spFlip := bring (fun _ => 0) s0.err.spFlip (old * 2 ^ 20) (new * 2 ^ 20) (2 ^ 20) s.err.spFlip } }

/-- A physical macro takes the contents that another had, bit for bit, with its check bits, residues, scale store and tags. -/
def bringMacro (s0 : State) (old new : Nat) (s : State) : State :=
  if old = new then s
  else { s with
    mac := bring memDefault s0.mac (old * 32768) (new * 32768) 32768 s.mac,
    scale := bring memDefault s0.scale (old * 2048) (new * 2048) 2048 s.scale,
    ptags := bring (fun _ => .free) s0.ptags (old * 512) (new * 512) 512 s.ptags,
    err := { s.err with
      macFlip := bring (fun _ => 0) s0.err.macFlip (old * 8192) (new * 8192) 8192 s.err.macFlip,
      scaleFlip := bring (fun _ => 0) s0.err.scaleFlip (old * 512) (new * 512) 512 s.err.scaleFlip,
      rowRes := bring (fun _ => 0) s0.err.rowRes (old * 1024) (new * 1024) 1024 s.err.rowRes,
      colRes := bring (fun _ => 0) s0.err.colRes (old * 2048) (new * 2048) 2048 s.err.colRes,
      colFlip := bring (fun _ => 0) s0.err.colFlip (old * 512) (new * 512) 512 s.err.colFlip } }

/-- After self-test has placed the cores and macros of a die anew, each has the contents it had: those of a failed unit go to its
replacement (R413). -/
def bringContents (d : Nat) (s0 : State) (s : State) : State :=
  forEach (List.range (s.coresOf d)) (fun c t =>
    let core := 64 * d + c
    forEach (List.range (t.macrosOf core)) (fun lm u => bringMacro s0 (s0.pmIx core lm) (u.pmIx core lm) u)
      (bringBanks s0 (s0.pcIx core) (t.pcIx core) t)) s

/-- DIE_THERMAL_RELEASE: the die has cooled below TJ_WARN − 5, and runs the BIST of stage 6. -/
def thermalRelease (d : Nat) (fails : List BistFail) (s : State) : State :=
  if 12 ≤ d ∨ !(nth false s.bist.thermHeld d) ∨ s.regFld pgCeil 24 8 ≤ nth 0 s.pwr.tj d + 5 then s
  else
    let s0 := s
    let s := s.modBist fun b =>
      { b with thermHeld := b.thermHeld.set d false, coreTest := b.coreTest.set d none,
               pmacroOf := b.pmacroOf.filter fun e => e.1 / 256 / 64 ≠ d }
    let s := dieRegsReset d s
    let cores := (List.range 64).map fun c => 64 * d + c
    let s := forEach cores coreReset s
    let s := (s.setFld (pgDieA d) 8 4 5).modPwr fun p => { p with ampleFrames := p.ampleFrames.set d 0, raise := p.raise.set d false }
    let s := bringContents d s0 (dieBist d fails s)
    let s := freeTags cores (forEach ((List.range (s.coresOf d)).map fun c => 64 * d + c) reloadCore s)
    capacityChanged (if fullCapacity s then stOK else stCapacityLowered) s

/-- DIE_THERMAL_RELEASE. -/
def execDieThermalRelease (d : Nat) (fails : List BistFail) (s : State) : Host.Outcome State Fault Refusal :=
  answer s (thermalRelease d fails s)

end Sys2Proof.Machine
end

