-- ==== Sys2Proof/Machine/Service.lean ====
section
/-! DEFINITION. The service port (R12 to R15, R283, R409, R414, R427, R436 to R439). -/

namespace Sys2Proof.Machine

/-- Whether the service port is alive: the input is on (R349, Table 17.1). -/
def serviceAlive (s : State) : Bool := decide (s.pwr.input = 2)

/-- Whether the target drives ALERT_N low: it follows LVL_HIT of hub queue 1 (R439). -/
def alertLow (s : State) : Bool := s.regBit (hubQA 1 4) 16

/-- A request leaves one result, and discards one that has not been read (R438). -/
def leaveResult (st : Nat) (v : Word) (s : State) : State := s.modSvc fun x => { x with result := some (st, v) }

/-- A read request (R437). -/
def readRequest (a : Nat) (s : State) : State :=
  let (v, st, s) := readReg .service a s
  leaveResult st v s

/-- A write request, which acts on arrival (R437). -/
def writeRequest (a : Nat) (v : Word) (s : State) : State :=
  let (s, st) := writeReg a v s
  leaveResult st 0 s

/-- The register address of a private write. -/
def requestAddr (l : List Byte) : Nat := leNat ((l.drop 1).take 6)

/-- A private write (Table 19.3): 7 bytes with OP 0x01 are a read request, 11 bytes with OP 0x02 a write request; any other length or
OP is not acted on, and so is an access of any width but 32 bits (R12, R437). -/
def privateWrite (l : List Byte) (s : State) : State :=
  if !serviceAlive s then s
  else match l with
    | op :: _ =>
      if op = 1 ∧ l.length = 7 then readRequest (requestAddr l) s
      else if op = 2 ∧ l.length = 11 then writeRequest (requestAddr l) (BitVec.ofNat 32 (leNat (l.drop 7))) s
      else leaveResult stProgramError 0 s
    | [] => leaveResult stProgramError 0 s

/-- READ_REQUEST. -/
def execReadRequest (l : List Byte) (s : State) : Host.Outcome State Fault Refusal := answer s (privateWrite l s)

/-- WRITE_REQUEST. -/
def execWriteRequest (l : List Byte) (s : State) : Host.Outcome State Fault Refusal := answer s (privateWrite l s)

/-- The five bytes of a result (Table 19.3). -/
def resultBytes (r : Nat × Word) : List Byte := leBytes r.1 1 ++ leBytes r.2.toNat 4

/-- A private read of n bytes (R438). With no result pending it returns PROGRAM_ERROR and zero data. -/
def resultRead (n : Nat) (s : State) : State :=
  if !serviceAlive s then s
  else
    let r := s.svc.result.getD (stProgramError, 0)
    let s := s.send (.serviceResult ((resultBytes r).take n))
    if 5 ≤ n then s.modSvc fun x => { x with result := none } else s

/-- RESULT_READ. -/
def execResultRead (n : Nat) (s : State) : Host.Outcome State Fault Refusal := answer s (resultRead n s)

/-- The provisional ID in the random-value form (R436): its bit 32 is 1, as I3C has it (PRESUMED, log entry 146), and its low 32
bits are those of SEC_SERIAL. -/
def provisionalId (s : State) : BitVec 48 := Config.serviceMaker ++ 1#1 ++ (s.reg64 secSerial).setWidth 32

/-- DYNAMIC_ADDRESS_ASSIGNMENT (R436): by ENTDAA, in which the target sends its provisional ID, BCR and DCR, or by SETDASA. -/
def takeAddress (arbitrated : Bool) (a : Nat) (s : State) : State :=
  if !serviceAlive s then s
  else
    let s := whenS arbitrated (fun t => t.send (.serviceIdentity (provisionalId t) 0x06 0x00)) s
    s.modSvc fun x => { x with dynAddr := some (a % 128) }

/-- DYNAMIC_ADDRESS_ASSIGNMENT. -/
def execDynamicAddressAssignment (arbitrated : Bool) (a : Nat) (s : State) : Host.Outcome State Fault Refusal :=
  answer s (takeAddress arbitrated a s)

/-- IN_BAND_INTERRUPT_RETRY (R439): an interrupt that lost arbitration is raised again, once. -/
def retryInterrupt (s : State) : State :=
  if s.svc.ibiPending then (s.send .inBandInterrupt).modSvc fun x => { x with ibiPending := false } else s

/-- IN_BAND_INTERRUPT_RETRY. -/
def execInBandInterruptRetry (s : State) : Host.Outcome State Fault Refusal := answer s (retryInterrupt s)

end Sys2Proof.Machine
end

