-- ==== Sys2Proof/Machine/Sandglass.lean ====
section
/-! DEFINITION. The sandglass apart from the tick itself (R34 to R50, R383, R416, R417): markers, holdover, external references and
frame-number synchronisation. -/

namespace Sys2Proof.Machine

/-! ### The tick tree -/

/-- FT_LEAD in units of 0.125 ns (R43). -/
def ftLead : Nat := 28000

/-- FT_SRC.SRC. -/
def tickSrc (s : State) : Nat := s.regFld ftSrc 0 2

/-- FT_STATUS.LOCKED. -/
def locked (s : State) : Bool := s.regBit ftStatus 0

/-- The tick tree for the master of a rank. -/
def treeOf (s : State) (rank : Nat) : Option TickTree := s.tk.sect.bind fun f => f.trees[rank]?

/-- This module's rank as a fallback master, 1 to 3, if it is one (R48). -/
def fallbackRank (s : State) : Option Nat :=
  s.tk.sect.bind fun f => ((List.range f.fallback.length).find? fun i => nth 0x10000 f.fallback i = s.moduleId).map (· + 1)

/-- The rank under which this module emits markers: its rank as master, or as a fallback master that has taken over. -/
def masterRank (s : State) : Option Nat :=
  if tickSrc s ≠ 0 then some (s.regFld ftSrc 4 2) else if s.tk.emitting then fallbackRank s else none

/-- FN of the next tick (R37, R50): the number taken from a synchronisation packet, or one more; 0 at the first tick. -/
def nextFrameNumber (s : State) : DWord := if s.tk.started then s.tk.pendingFn.getD (s.fn + 1) else 0

/-- The links of a list that are UP. -/
def upLinks (s : State) (l : List Nat) : List Nat := l.filter fun i => s.linkUp i

/-! ### LOCK_LOST and FALLBACK_MASTER_TAKEOVER (R39, R48) -/

/-- LOCK_LOST: after 4 consecutive ticks in holdover, once in each run of them. A follower has to take a frame number anew (R50);
with an external source there is an event as well (R39). -/
def lockLost (s : State) : State :=
  let follower := decide (tickSrc s = 0)
  if s.tk.holdRun < 4 ∨ tickSrc s = 1 ∨ s.tk.lostRun then s
  else
    let s := s.modTk fun k => { k with extIn := 0, waitFirst := k.waitFirst || follower, lostRun := true }
    whenS (!follower) (raise0 ftSticky 3 stOK 0) ((s.clrBit ftStatus 0).setBit ftSticky 3)

/-- LOCK_LOST. -/
def execLockLost (s : State) : Host.Outcome State Fault Refusal := answer s (lockLost s)

/-- FALLBACK_MASTER_TAKEOVER: a fallback master of rank k emits after k + 1 consecutive ticks in holdover. -/
def takeover (s : State) : State :=
  match fallbackRank s with
  | none => s
  | some k => if tickSrc s = 0 ∧ k + 1 ≤ s.tk.holdRun then s.modTk fun t => { t with emitting := true } else s

/-- FALLBACK_MASTER_TAKEOVER. -/
def execFallbackMasterTakeover (s : State) : Host.Outcome State Fault Refusal := answer s (takeover s)

/-! ### Markers (R42 to R48) -/

/-- MARKER_EMIT: the marker for the next tick, on every downstream link of this master's tree. -/
def markerEmit (s : State) : State :=
  match masterRank s with
  | none => s
  | some k =>
    match treeOf s k with
    | none => s
    | some t =>
      if !s.tk.started then s
      else
        let m : Marker := { fnLo := (nextFrameNumber s).setWidth 24, masterIx := BitVec.ofNat 2 k, hops := 0, delayAcc := 0 }
        forEach (upLinks s t.down) (fun i u => sendBlock i (markerBlock m) u) s

/-- MARKER_EMIT. -/
def execMarkerEmit (s : State) : Host.Outcome State Fault Refusal := answer s (markerEmit s)

/-- Whether a marker is preferred to the one chosen so far: a lower rank wins, and then the primary link (R47). -/
def preferred (a : ChosenMarker) (b : Option ChosenMarker) : Bool :=
  match b with
  | none => true
  | some b => decide (a.rank < b.rank) || (decide (a.rank = b.rank) && a.primary && !b.primary)

/-- FN_MISMATCH (R47): the module stops running frame programs and voting until it has a new frame number. -/
def fnMismatch (s : State) : State :=
  let s := ((s.setBit ftSticky 2).setBit ftSticky 3).clrBit ftStatus 0
  s.modTk fun k => { k with stopped := true, chosen := none, waitFirst := true, pendingFn := none }

/-- A marker that agrees is chosen: it schedules the tick, and establishes lock (R44, R47, R50). A time half way between two
nanoseconds is rounded up (DESIGN CHOICE, log entry 132). -/
def chooseMarker (m : ChosenMarker) (t : Nat) (s : State) : State :=
  let s := whenS (decide (m.rank ≠ s.regFld ftStatus 2 2)) (fun u => u.setBit ftSticky 4) s
  let at_ := (t + ftLead - m.delay + 4) / 8 * 8
  (s.modTk fun k => { k with chosen := some m, nextTick := at_, stopped := false, waitFirst := false }).setBit ftStatus 0

/-- Whether the module takes no marker before a new frame number (R47, R50): a fallback master that emits follows a lower rank at
once, unless FN_MISMATCH has stopped it (R48). -/
def mustSync (s : State) : Bool := s.tk.waitFirst && (s.tk.stopped || !s.tk.emitting)

/-- A marker on an upstream link of the tree of its master. One that falls in the pause of a lane swap is lost (R292). -/
def tickMarker (i : Nat) (mk : Marker) (t : Nat) (s : State) : State :=
  match treeOf s mk.masterIx.toNat with
  | none => s
  | some tr =>
    let primary := decide (tr.primary = some i)
    let d := mk.delayAcc.toNat + (s.reg (linkA i 0x10)).toNat
    let own := (masterRank s).getD 4
    if tickSrc s ≠ 0 ∨ !s.linkUp i ∨ !s.linkOpen i ∨ (!primary ∧ tr.secondary ≠ some i) ∨ own ≤ mk.masterIx.toNat then s
    else if ftLead - 800 < d then s.setBit ftSticky 1
    else if mustSync s then s
    else if (nextFrameNumber s).setWidth 24 ≠ mk.fnLo then fnMismatch s
    else
      let m : ChosenMarker := { rank := mk.masterIx.toNat, hops := mk.hops.toNat + 1, delay := d, primary := primary }
      if preferred m s.tk.chosen then chooseMarker m t s else s

/-- TICK_MARKER. -/
def execTickMarker (i : Nat) (w : BitVec 64) (cw : Codeword) (t : Nat) (s : State) : Host.Outcome State Fault Refusal :=
  answer s (rxBlock i 0x5A w cw (tickMarker i (blkMarker w) t) s)

/-- MARKER_FORWARD: the chosen marker leaves 8 ns after its arrival, on the downstream links of its tree. -/
def markerForward (s : State) : State :=
  match s.tk.chosen with
  | none => s
  | some m =>
    match treeOf s m.rank with
    | none => s
    | some t =>
      if m.forwarded then s
      else
        let mk : Marker := { fnLo := (nextFrameNumber s).setWidth 24, masterIx := BitVec.ofNat 2 m.rank, hops := BitVec.ofNat 4 m.hops,
                             delayAcc := BitVec.ofNat 16 (m.delay + 64) }
        let s := s.modTk fun k => { k with chosen := some { m with forwarded := true } }
        forEach (upLinks s t.down) (fun i u => sendBlock i (markerBlock mk) u) s

/-- MARKER_FORWARD. -/
def execMarkerForward (s : State) : Host.Outcome State Fault Refusal := answer s (markerForward s)

/-! ### External references (R39 to R41, R383) -/

/-- FT_EXT_OFFSET in units of 0.125 ns. -/
def extOffset (s : State) : Int := 8 * signed (s.regFld ftExtOffset 0 16) 16

/-- Whether two times lie within 100 ns of each other. -/
def within100 (a b : Int) : Bool := decide (a - b ≤ 800) && decide (b - a ≤ 800)

/-- An event inside the window places the tick; the second in a row establishes lock (R39, R40). -/
def placeTick (t : Nat) (s : State) : State :=
  let n := s.tk.extIn + 1
  let s := s.modTk fun k =>
    { k with nextTick := (t + extOffset s).toNat, extIn := n, extOut := 0, extLast := some t, extPlaced := true }
  whenS (decide (2 ≤ n)) (fun u => u.setBit ftStatus 0) s

/-- An event outside the window is ignored and recorded; with no image active, the second of two spaced by the period moves the
timebase (R40). -/
def eventOutside (t : Nat) (s : State) : State :=
  let s := s.setBit ftSticky 6
  let spaced := match s.tk.extLast with
    | none => false
    | some t0 => within100 (t : Int) (t0 + 8 * s.tk.period : Nat)
  let move := spaced && decide (1 ≤ s.tk.extOut) && !s.active
  s.modTk fun k =>
    { k with extIn := 0, extLast := some t, extOut := if move then 0 else if spaced then k.extOut + 1 else 1,
             nextTick := if move then ((t + 8 * k.period : Nat) + extOffset s).toNat else k.nextTick }

/-- An external event (R39, R40): the first one after stage 3 gives the first tick. -/
def externalEvent (t : Nat) (s : State) : State :=
  if s.stage < 3 then s
  else if !s.tk.started then s.modTk fun k => { k with nextTick := (t + extOffset s).toNat, extLast := some t, extPlaced := true, waitFirst := false }
  else if within100 (t + extOffset s) s.tk.nextTick then placeTick t s
  else eventOutside t s

/-- TICK_REF_EDGE. -/
def execTickRefEdge (t : Nat) (s : State) : Host.Outcome State Fault Refusal :=
  answer s (if tickSrc s = 3 then externalEvent t s else s)

/-- TICK_FRAME (R383): the event of source 2, with its FN checked against the tick that it would place. -/
def tickFrame (port : Nat) (fn : DWord) (t : Nat) (s : State) : State :=
  let places := !s.tk.started || within100 (t + extOffset s) s.tk.nextTick
  if tickSrc s ≠ 2 ∨ port ≠ s.regFld ftSrc 2 1 then s
  else if places && decide (fn ≠ nextFrameNumber s) then fnMismatch s
  else externalEvent t (whenS (places && !s.tk.waitFirst) (fun u => u.modTk fun k => { k with stopped := false }) s)

/-! ### Frame-number synchronisation (R50, R416, R417) -/

/-- The payload of a request. -/
def fnsyncRequest : DWord := 0xFFFFFFFFFFFFFFFF

/-- An FNSYNC packet leaves on a tick-tree link, to the peer that the link's identity exchange reported. -/
def sendFnsync (i : Nat) (v : DWord) (s : State) : State :=
  if !s.linkUp i then s
  else enqueue i { ptype := 7, dst := ((s.link i).peer.map (·.mid)).getD 0, src := s.moduleId, ftag := s.ftag, fnsync := v } s

/-- The tree of the lowest rank of which a link is upstream. -/
def treeFrom (s : State) (i : Nat) : Option TickTree :=
  s.tk.sect.bind fun f => f.trees.find? fun t => t.primary = some i ∨ t.secondary = some i

/-- This module's primary upstream link. -/
def upstream (s : State) : Option Nat := (treeOf s 0).bind (·.primary)

/-- The FN of the next tick goes down the tree of this master. -/
def broadcastFn (s : State) : State :=
  match (masterRank s).bind (treeOf s) with
  | none => s
  | some t => forEach t.down (fun i u => sendFnsync i (nextFrameNumber s) u) s

/-- A request: the master answers the first of each frame, any other module passes it on upstream. -/
def takeRequest (s : State) : State :=
  if (masterRank s).isSome then
    if s.tk.asked then s else broadcastFn (s.modTk fun k => { k with asked := true })
  else match upstream s with
    | none => s
    | some i => sendFnsync i fnsyncRequest s

/-- A frame number from upstream: it goes on down the tree, and a module that is not locked takes it. A copy that comes on
the secondary link while the primary is UP adds nothing. -/
def takeFnsync (i : Nat) (v : DWord) (s : State) : State :=
  match treeFrom s i with
  | none => s
  | some t =>
    if t.primary ≠ some i ∧ (t.primary.map fun p => s.linkUp p) = some true then s
    else
      let s := forEach t.down (fun j u => sendFnsync j v u) s
      if (tickSrc s = 0 ∧ !locked s) ∨ s.tk.stopped then s.modTk fun k => { k with pendingFn := some v, waitFirst := false } else s

/-- An accepted packet with an FNSYNC: it is judged (R302) and taken by each module of its path (R416). -/
def deliverFnsync (i : Nat) (p : Packet) (s : State) : State :=
  if packetBad p then badPacket s
  else if p.ptype ≠ 7 then deliverPacket false p s
  else if p.fnsync = fnsyncRequest then takeRequest s
  else takeFnsync i p.fnsync s

/-- FNSYNC. -/
def execFnsync (i : Nat) (p : Packet) (cw : Codeword) (s : State) : Host.Outcome State Fault Refusal :=
  answer s (rxPacket i p cw (deliverFnsync i p) s)

/-- FNSYNC_BROADCAST. -/
def execFnsyncBroadcast (s : State) : Host.Outcome State Fault Refusal := answer s (if s.tk.started then broadcastFn s else s)

/-! ### The work window (R36) -/

/-- Whether a core is still issuing or completing work of the frame. A part that completed at issue is done (R177). -/
def Core.busy (c : Core) : Bool := c.prog.isSome && !(c.ended && c.ops.all (·.signalled))

/-- WORK_WINDOW_END. -/
def execWorkWindowEnd (s : State) : Host.Outcome State Fault Refusal :=
  answer s (if s.cores.any fun c => c.2.busy then s.setBit ftSticky 7 else s)

end Sys2Proof.Machine
end

