-- ==== Sys2Proof/Machine/Reception.lean ====
section
/-! DEFINITION. A frame comes to a Drundoha port (R367 to R374, R380, R383): it is discarded, or it is the request that its TYPE
says. -/

namespace Sys2Proof.Machine

/-- The command of a CMD frame: that of its OP, whose payload the spec lays out, or as `args` reads it; any other OP is reserved
(Table 15.3). -/
def cmdOf (f : Frame) : Cmd :=
  if f.op = 8 then .nvStore f.data
  else if f.op = 9 then .lcSet f.data
  else if cmdOp f.args = f.op then f.args
  else .reserved f.op

/-- A READ by its kind (Table 15.5). A kind that is not in the table is answered PROGRAM_ERROR (DEDUCED, log entry 145). -/
def serveRead (port : Nat) (f : Frame) (s : State) : State :=
  match f.op with
  | 0 => takeConsume port f.tag f.core (f.addr % 2 ^ 14) f.len s
  | 1 => takePeek port f.tag f.core (f.addr % 2 ^ 14) f.len s
  | 2 => takeMem port f.tag f.addr f.len s
  | 3 => takeCapacity port f.tag f.len s
  | 4 => takeAttest port f.tag f.addr f.len s
  | _ => reply port f.tag f.op stProgramError s

/-- A frame that is not discarded, by its TYPE (Table 15.2). EVT_ACK and TICK have no answer (R370). -/
def serveFrame (port : Nat) (f : Frame) (s : State) : State :=
  match f.ftype with
  | 1 => request port f.tag f.op (cmdKind (cmdOf f)) (pushCommand port f.tag (cmdOf f)) s
  | 2 => request port f.tag 0 .other (serveWrite port f.tag f.addr f.data) s
  | 3 => request port f.tag f.op (if f.op = 4 then .attest else .other) (serveRead port f) s
  | 4 => request port f.tag 0 .regRead (takeRegRead port f.tag f.addr) s
  | 5 => if (gate s .evtAck).isSome then s else ackEvents (leNat f.data) s
  | 6 => if (gate s .evtAck).isSome then s else tickFrame port (BitVec.ofNat 64 (leNat f.data)) f.time s
  | _ => s

/-- A frame comes to a port: it is not heard, malformed, or served. -/
def takeFrame (port : Nat) (f : Frame) (s : State) : State :=
  if !frameHeard s port then s else if frameBad f then badFrame port s else serveFrame port f s

/-- CMD_FRAME: its command enters the command FIFO (R372). -/
def execCmdFrame (port : Nat) (f : Frame) (s : State) : Host.Outcome State Fault Refusal := answer s (takeFrame port f s)

/-- WRITE: its bytes are stored, staged or refused (R376, R377). -/
def execWrite (port : Nat) (f : Frame) (s : State) : Host.Outcome State Fault Refusal := answer s (takeFrame port f s)

/-- CONSUME: full result slots are read and emptied, or it waits (R381). -/
def execConsume (port : Nat) (f : Frame) (s : State) : Host.Outcome State Fault Refusal := answer s (takeFrame port f s)

/-- PEEK: result slots are read as they are (R380). -/
def execPeek (port : Nat) (f : Frame) (s : State) : Host.Outcome State Fault Refusal := answer s (takeFrame port f s)

/-- MEM: bytes at an address are read (R380). -/
def execMem (port : Nat) (f : Frame) (s : State) : Host.Outcome State Fault Refusal := answer s (takeFrame port f s)

/-- CAPACITY: the capacity record is read (R267). -/
def execCapacity (port : Nat) (f : Frame) (s : State) : Host.Outcome State Fault Refusal := answer s (takeFrame port f s)

/-- ATTEST: an attestation report is asked for (R398). -/
def execAttest (port : Nat) (f : Frame) (s : State) : Host.Outcome State Fault Refusal := answer s (takeFrame port f s)

/-- REG_READ: a register is read on arrival (R373). -/
def execRegRead (port : Nat) (f : Frame) (s : State) : Host.Outcome State Fault Refusal := answer s (takeFrame port f s)

/-- EVT_ACK: the entries that it covers leave the event FIFO (R374). -/
def execEvtAck (port : Nat) (f : Frame) (s : State) : Host.Outcome State Fault Refusal := answer s (takeFrame port f s)

/-- TICK_FRAME: the external event of source 2 (R383). -/
def execTickFrame (port : Nat) (f : Frame) (s : State) : Host.Outcome State Fault Refusal := answer s (takeFrame port f s)

end Sys2Proof.Machine
end

