-- ==== Sys2Proof/Machine/Tick.lean ====
section
/-! DEFINITION. The frame tick (R26, R37, R38, R55, R87, R88, R91, R132, R162, R169, R185, R208, R258, R261, R308, R334, R362, R364,
R372, R378): the end of one frame and the start of the next. -/

namespace Sys2Proof.Machine

/-- Write a field where it differs. -/
def putIf (a lo w v : Nat) (s : State) : State := if s.regFld a lo w = v % 2 ^ w then s else s.setFld a lo w v

/-! ### What takes effect at a tick -/

/-- BI_CTRL (R422), C_EFF (R352), a new life-cycle state (R393), the FRAME section of a verified image (R416) and FT_PERIOD (R35). -/
def settle (s : State) : State :=
  let s := match s.bist.pendCtrl with
    | none => s
    | some v => (s.setReg biCtrl v).modBist fun b => { b with pendCtrl := none }
  let s := putIf pgCeil 16 8 s.pwr.pendCeff s
  let s := match s.sec.newState with
    | none => s
    | some st => (s.setFld secLc 0 3 st).modSec fun x => { x with newState := none }
  let s := match s.img.nextFrame with
    | none => s
    | some f => whenS (!s.active) (loadFrameSect f) (s.modImg fun g => { g with nextFrame := none })
  if s.active then s else s.modTk fun k => { k with period := s.regFld ftPeriod 0 20 }

/-! ### The end of a frame -/

/-- A core that has not completed its frame program (R55): counted, and a detected fault of the frame that ends. -/
def overrunCore (i : Nat) (s : State) : State :=
  let s := (s.addCnt ftCnt 0 16 1).setBit ftSticky 5
  let s := s.modCur fun f => { f with overrun := true }
  detectFault (coreLoc s i 1 0 13) s

/-- Every overrun of the frame that ends. -/
def overruns (s : State) : State := forEach (s.cores.filter fun e => e.2.busy) (fun e t => overrunCore e.1 t) s

/-- ACT_REQ of a variant. -/
def actReq (s : State) (v : Nat) : Nat := ((s.image.bind fun c => c.power[v]?).map (·.actReq)).getD 0

/-- C_EFF. -/
def cEff (s : State) : Nat := s.regFld pgCeil 16 8

/-- THERM_STEP (R362): recorded in the frame that ends, with its event. -/
def thermalStep (s : State) : State :=
  if !s.active ∨ actReq s s.variant ≤ cEff s then s
  else
    let slower := ((s.image.map fun c => decide (s.variant + 1 < c.variants))).getD false
    let s := (s.setBit pgSticky 4).modCur fun f => { f with thermal := some slower }
    raise0 pgSticky 4 stOK (cEff s + s.variant * 256) s

/-- The count of R264: frames without overrun or replay in which C_EFF covered the next faster variant. The frame that ran while a
change of variant or a replay was applied counts in neither run. -/
def countVariant (s : State) : State :=
  let ok := !s.img.varSkip && !s.fx.cur.overrun && decide (0 < s.variant) && decide (actReq s (s.variant - 1) ≤ cEff s)
  s.modImg fun g => { g with varCount := if ok then g.varCount + 1 else 0, varSkip := false }

/-- MC_MARGIN shows the smallest slack of the frame that ended (R89). -/
def publishMargin (i : Nat) (s : State) : State :=
  let (sl, pm, blk) := (s.core i).marginMin.getD (0xFF, 0, 0)
  putIf (mcA i 0x18) 25 3 blk (putIf (mcA i 0x18) 16 9 pm (putIf (mcA i 0x18) 0 8 sl s))

/-- The step of a die's supply. -/
def supplyStep (s : State) (d : Nat) : Nat := s.regFld (pgDieA d) 8 4

/-- Column blocks low at the highest supply step in consecutive frames; the third time marks the macro for retirement (R91). -/
def lowBlocks (i : Nat) (s : State) : State :=
  let c := s.core i
  if decide (c.marginHit = []) && decide (c.lowMargin = []) then s
  else
    let old (x : Nat × Nat) : Nat := ((c.lowMargin.find? fun y => y.1 = x.1 && y.2.1 = x.2).map (·.2.2)).getD 0
    let low := if supplyStep s (i / 64) = 15 then c.marginHit.map fun x => (x.1, x.2, old x + 1) else []
    let due := nubN ((low.filter fun x => x.2.2 = 3).map (·.1))
    let s := s.setCore i { c with lowMargin := low.filter fun x => decide (x.2.2 < 3) }
    forEach due (fun pm t =>
      let l := coreLoc t i 0 pm 3
      let e := t.regFld fxLogHead 0 6
      requestRetire e l (raiseFx t.wfn 0 e 1 (newLogEntry 2 l 0 t.fx.cur.attempt t.wfn t))) s

/-- Whether every core of a die had ample margin in the frame that ended (R364). -/
def ampleMargin (s : State) (d : Nat) : Bool :=
  (List.range (s.coresOf d)).all fun c => decide (s.regFld (mcA (64 * d + c) 0x18) 8 8 + 4 ≤ s.regFld (mcA (64 * d + c) 0x18) 0 8)

/-- SUPPLY_STEP_CHANGE (R364). -/
def supplyTick (d : Nat) (s : State) : State :=
  if dieHeldNow s d then s
  else
    let step := supplyStep s d
    let n := if ampleMargin s d then nth 0 s.pwr.ampleFrames d + 1 else 0
    let up := nth false s.pwr.raise d && decide (step < 15)
    let down := !up && decide (4096 ≤ n) && decide (0 < step)
    let step := if up then step + 1 else if down then step - 1 else step
    let s := s.modPwr fun p => { p with ampleFrames := p.ampleFrames.set d (if up ∨ 4096 ≤ n then 0 else n), raise := p.raise.set d false }
    whenS (decide (step = 15)) (fun t => t.setBit pgSticky 8) (putIf (pgDieA d) 8 4 step s)

/-- The peaks of the frame that ended (R137, R160, R180). -/
def publishPeaks (i : Nat) (s : State) : State :=
  let c := s.core i
  putIf (drA i 0xC) 16 14 c.node.most
    (putIf (spA i 0x1C) 0 7 c.waitMost (putIf (sqA i 0) 0 9 (min c.opsMost 256) (putIf (sqA i 0) 16 7 (min c.dmaMost 64) s)))

/-- The peaks of the die nodes and the hub node. -/
def publishNodes (s : State) : State :=
  let s := forEach (List.range 12) (fun d t => putIf (dieNodeA d 8) 16 14 (t.node (.die d)).most t) s
  putIf (hubNodeA 8) 16 14 s.hubNode.most s

/-- The metadata words of the frame that ends join its watch (R210, R246). -/
def watchMeta (c : Core) : SMap WatchRec :=
  c.mdw.foldl (fun m e => let r := SMap.get (fun _ => {}) m e.1; SMap.set (fun _ => {}) m e.1 { r with md := r.md ||| e.2 }) c.cur.watch

/-- What no tick carries over in a core (R55, R132, R162, R208, R210, R225, R286, R324). -/
def clearCore (c : Core) : Core :=
  { c with mdw := [], cur := { c.cur with watch := watchMeta c }, full := [], prod := [], tokens := [], prog := none, pos := 0, ended := true,
           waiting := none, ops := [], macros := [], localPos := [], node := {}, waits := [], waitMost := 0, dmaMost := 0, opsMost := 0,
           gather := [], queues := [], loop := [], sideRecs := [], marginHit := [], marginMin := none }

/-- The queues of a core are emptied, without a level event (R286). -/
def emptyQueues (core : Nat) (s : State) : State :=
  forEach (s.core core).queues (fun e t => putIf (coreQA core e.1 4) 0 9 0 t) s

/-- The gather buffer outlives no frame (R324): a core that completed its program has it flushed, and one that aborts drops it (DEDUCED,
log entry 42). -/
def endGather (core : Nat) (s : State) : State := if (s.core core).busy then s else flushGather core s

/-- Remote writes that still wait at the tick are outside their frame (R162, R308). -/
def dropWaiting (s : State) : State :=
  let l := s.chip.waitWr
  let s := { s with chip := {} }
  forEach l (fun p t => sendPacket (ackOf t p 3) (clCount 2 clCnt 16 t)) s

/-- The records of the frame that ends, and the work that it drops. -/
def endFrame (s : State) : State :=
  let s := overruns s
  let s := forEach allCores (fun i t => publishPeaks i (publishMargin i t)) s
  let s := publishNodes (forEach (s.cores.map (·.1)) lowBlocks s)
  let s := forEach (List.range 12) supplyTick s
  let s := forEach (s.cores.map (·.1)) (fun i t => emptyQueues i (endGather i t)) s
  let s := { s with cores := (s.cores.map fun e => (e.1, clearCore e.2)).filter (fun e => e.2 ≠ {}), dieNodes := [], hubNode := {}, flight := [] }
  dropWaiting s

/-! ### FN and the sandglass -/

/-- A tick that no marker or event has placed (R39, R48). -/
def holdoverTick (s : State) : State :=
  ((s.setBit ftStatus 1).setBit ftSticky 0).addCnt ftCnt 16 16 1 |>.modTk fun k => { k with holdRun := k.holdRun + 1, extIn := 0 }

/-- A tick that a marker has placed: its HOPS and MASTER_IX; a fallback master gives way to a lower rank (R48). -/
def markedTick (m : ChosenMarker) (s : State) : State :=
  (((s.clrBit ftStatus 1).setFld ftStatus 2 2 m.rank).setFld ftStatus 4 4 m.hops).modTk fun k => { k with holdRun := 0, lostRun := false, emitting := false }

/-- FN advances by one, and the next tick is due one period on (R37, R38). -/
def advanceFn (s : State) : State :=
  let src := tickSrc s
  let s := match src, s.tk.chosen with
    | 0, some m => markedTick m s
    | 0, none => holdoverTick s
    | 1, _ => ((s.clrBit ftStatus 1).setBit ftStatus 0).modTk fun k => { k with holdRun := 0, lostRun := false }
    | _, _ =>
      if s.tk.extPlaced then (s.clrBit ftStatus 1).modTk fun k => { k with holdRun := 0, lostRun := false } else holdoverTick s
  let fn := nextFrameNumber s
  s.modTk fun k =>
    { k with fn := fn, started := true, pendingFn := none, chosen := none, extPlaced := false, asked := false,
             nextTick := k.nextTick + 8 * k.period }

/-- A module that is not locked, or has set FN_MISMATCH, asks for a frame number (R417). -/
def askFn (s : State) : State :=
  if (tickSrc s = 0 ∧ !locked s) ∨ s.tk.stopped then
    match upstream s with
    | none => s
    | some i => sendFnsync i fnsyncRequest s
  else s

/-! ### The work of the new frame -/

/-- Whether the result that the tick had to apply is missing (R334). -/
def resultMissing (s : State) : Bool :=
  s.domain.isSome && (!s.fx.old.isEmpty || (decide (s.fx.nextFn ≤ s.fx.prev.fn) && !s.fx.applied))

/-- A frame that has no vote releases its events when it leaves (R328). -/
def leaveFrame (s : State) : State :=
  if s.fx.applied ∨ (s.domain.isSome ∧ (s.fx.nextFn ≤ s.fx.prev.fn ∨ s.fx.noVote.contains s.fx.prev.fn)) then s
  else releaseEvents s.fx.prev s

/-- The frame that begins, and the shift of the frames before it. The second component says that a replayed frame takes the
input writes that it had. -/
def nextFrame (s : State) : State × Bool :=
  let s := resume s
  if resultMissing s then
    let quiet : FrameRec := { fn := s.fn, wfn := s.fx.cur.wfn, inPlace := true }
    let s := s.modFx fun f => { f with old := f.old ++ [f.prev], prev := f.cur, cur := quiet, own := none, children := [] }
    (queryResults (s.setBit fxSticky 6), false)
  else
    let s := leaveFrame s
    let again := !s.fx.rework.isEmpty
    let (w, s) := chooseWork s.fn s
    let s := shiftCores s
    (s.modFx fun f => { f with prev := f.cur, cur := w, applied := false, own := none, children := [] },
      again && decide (w.kind ≠ .quiet))

/-- The governor's counts of frames (R354, R356, R359, R360), and the budget of a frame that runs work. -/
def powerTick (s : State) : State :=
  let work := decide (s.fx.cur.kind ≠ .quiet) && !s.fx.cur.inPlace
  s.modPwr fun p =>
    { p with workBudget := if work then workBudget s s.fx.cur else p.workBudget,
             descentWait := p.descentWait.map (· - 1), preRamp := p.preRamp.map fun r => (r.1 - 1, r.2),
             overThisFrame := false, capThisFrame := false }

/-- A window change of the frame before (R307, R308). -/
def applyWindow (m : SMap Window) (w : WinChange) : SMap Window := SMap.set (fun _ => {}) m w.win (w.w.getD {})

/-- The window table of the new frame, with the copy that a replay returns to (R308); segment map 0 is in force (R154). A frame that
runs quiet for lack of a result keeps the copy of the last frame before it. -/
def snapshotCore (i : Nat) (s : State) : State :=
  let s := s.modCore i fun c =>
    let ws := c.winPend.foldl applyWindow c.windows
    { c with windows := ws, winPend := [], cur := if s.fx.old.isEmpty then { c.cur with winCopy := ws } else c.cur }
  putIf (spA i 0x1C) 16 6 0 s

/-- The copy of every shape register that a replay returns to (R185). -/
def snapshotShapes (s : State) : State := if s.fx.old.isEmpty then s.modFx fun f => { f with shpCur := shapeRegs s } else s

/-- Cores that an active image configures. -/
def configured (s : State) : List Nat := (s.cores.filter fun e => e.2.cfg.isSome).map (·.1)

/-! ### Scrub (R87, R88, R169) -/

/-- Whether a stored error lies in the arrays or scale stores of a physical core. -/
def arrayErrors (s : State) (ix : Nat) : Bool :=
  let within (w n : Nat) (k : Nat) : Bool := decide (ix * 264 * n ≤ k * w) && decide (k * w < (ix + 1) * 264 * n)
  (s.err.macFlip.any fun e => within 1 8192 e.1) || (s.err.scaleFlip.any fun e => within 1 512 e.1) ||
    (s.err.rowRes.any fun e => within 1 1024 e.1) || (s.err.colRes.any fun e => within 1 2048 e.1) ||
    (s.err.colFlip.any fun e => within 1 512 e.1)

/-- A hard error that scrub found in a macro (R88). -/
def macroHard (core lm row block : Nat) (s : State) : State :=
  hardError (coreLoc s core 0 (s.pmacro core lm) 2) ((mcRecord core 4 block lm row s).setBit (mcA core 4) 4)

/-- Scrub one word of a row: a corrected word is written back and read once more. -/
def scrubWord (core lm r w : Nat) (s : State) : State :=
  let pm := s.pmIx core lm
  let o := r * 64 + 4 * w
  match eccOf (arrFlip s pm o) with
  | .clean => s
  | .corrected _ =>
    let f := arrFlip s pm o
    let (s, _, _) := correctWord pm (s.mfmt core lm) o s
    let s := eccCorrected core s
    if arrFlip s pm o &&& f ≠ 0 then macroHard core lm r (w / 2) s else s
  | .uncorr _ => mcFault core 1 (w / 2) lm r 1 1 s

/-- The residue of row r and check group q of the corrected data. -/
def correctedRes (s : State) (pm fmt r q : Nat) : Nat :=
  mod255 (sumI ((groupChans fmt q).map fun j =>
    let o := wOfs fmt r j
    wOf fmt j (arrByte s pm o ^^^ patByte (eccOf (arrFlip s pm o)).pat o)))

/-- Scrub the stored residues of a row; one that disagrees is a residue mismatch under R76, which counts it. -/
def scrubRowRes (core lm r : Nat) (s : State) : State :=
  let pm := s.pmIx core lm
  let fmt := s.mfmt core lm
  forEach [0, 1] (fun q t =>
    if rowResidue t pm fmt r q = some (correctedRes t pm fmt r q) then t else rowResFault core lm r q t) s

/-- Scrub the column residues of a row group. -/
def scrubColRes (core lm g : Nat) (s : State) : State :=
  let pm := s.pmIx core lm
  let fmt := s.mfmt core lm
  forEach (List.range (chansOf fmt)) (fun j t =>
    let v := mod255 (sumI ((rangeFrom (64 * g) 64).map fun r =>
      let o := wOfs fmt r j
      wOf fmt j (arrByte t pm o ^^^ patByte (eccOf (arrFlip t pm o)).pat o)))
    if colResidue t pm fmt g j = v then t
    else mcFault core 3 (j * wBits fmt / 64) lm (64 * g) 3 0 (t.addCnt (mcA core 8) 0 16 1)) s

/-- Words of a macro's scale store (R99). -/
def scaleWords (s : State) (core lm : Nat) : Nat :=
  if rowPos s core lm then 128 else arrBlocks (s.deferBit core lm) * chansOf (s.mfmt core lm) / 4

/-- Scrub a word of the scale store. -/
def scrubScale (core lm r : Nat) (s : State) : State :=
  let k := s.pmIx core lm * 512 + r
  let f := SMap.get (fun _ => 0) s.err.scaleFlip k
  if scaleWords s core lm ≤ r then s
  else match eccOf f with
    | .clean => s
    | .corrected p =>
      let s := forEach (List.range 4) (fun i t =>
        let a := s.pmIx core lm * 2048 + 4 * r + i
        { t with scale := SMap.set (fun _ => 0) t.scale a (SMap.get (fun _ => 0) t.scale a ^^^ patByte p i) }) s
      eccCorrected core (s.modErr fun e => { e with scaleFlip := SMap.set (fun _ => 0) e.scaleFlip k 0 })
    | .uncorr _ => mcFault core 6 0 lm r 1 1 s

/-- Scrub one row of a macro. -/
def scrubRow (core lm r : Nat) (s : State) : State :=
  let s := forEach (List.range 16) (fun w t => scrubWord core lm r w t) s
  let s := scrubScale core lm r (scrubRowRes core lm r s)
  if r % 64 = 63 then scrubColRes core lm (r / 64) s else s

/-- Logical macros of a core that its scrub serves: ROLE 1, 3 or 4 (R87). A role register that is not listed holds its reset
value, ROLE 0. -/
def scrubbedMacros (core : Nat) (s : State) : List Nat :=
  let a := roleA core 0
  ((s.regs.filter fun e => decide (a ≤ e.1) && decide (e.1 < roleA core 256)).map fun e => (e.1 - a) / 4).filter fun lm =>
    [1, 3, 4].contains (s.role core lm)

/-- MACRO_SCRUB of a core (R87): its scrubbed macros, and the pointer, which stands still while there are none. -/
def scrubMacros (core : Nat) (s : State) : State :=
  let a := mcA core 0
  let first := s.regFld a 0 9
  let n := s.regFld a 12 4
  let rows := (rangeFrom first n).map (· % 512)
  let todo := scrubbedMacros core s
  if todo.isEmpty then s
  else
    let s := if !arrayErrors s (s.pcIx core) then s
      else forEach todo (fun lm t => forEach rows (fun r u => scrubRow core lm r u) t) s
    s.setFld a 0 9 (first + n)

/-- A hard error that scrub found in a scratchpad bank (R169). -/
def bankHard (core word : Nat) (s : State) : State :=
  hardError (coreLoc s core 2 (word % 32) 2) ((spRecord core 2 0 word 0 s).setBit (spA core 4) 2)

/-- Whether a bank word holds the current copy of a logical slot (R343). -/
def wordCurrent (s : State) (core word : Nat) : Bool :=
  let vc := verCount s core
  let o := word / 4 - verBase s core
  decide (verBase s core ≤ word / 4) && decide (o < 3 * vc) && decide (((s.core core).verOf (o % vc)).cur = o / vc)

/-- Scrub one codeword of a scratchpad. -/
def scrubCode (core k : Nat) (s : State) : State :=
  let p := k * 4
  let word := p / 64
  let f := spFlip s core p
  match eccOf f with
  | .clean => s
  | .corrected e =>
    let ix := s.pcIx core * 2 ^ 22
    let s := forEach (List.range 4) (fun i t => spStore core (p + i) (Mem.get t.spad (ix + p + i) ^^^ patByte e i) t) s
    let s := (s.setBit (spA core 4) 0).addCnt (spA core 8) 16 16 1
    if spFlip s core p &&& f ≠ 0 then bankHard core word s else s
  | .uncorr _ => spUncorr { core := core } word (wordCurrent s core word) s

/-- SCRATCHPAD_SCRUB of a core (R169): the next row of every ON bank, and the pointer. -/
def scrubBanks (core : Nat) (s : State) : State :=
  let row := s.regFld (spA core 0x28) 0 11
  let lo := s.pcIx core * 2 ^ 20 + row * 512
  let ks := ((s.err.spFlip.filter fun e => decide (lo ≤ e.1) && decide (e.1 < lo + 512)).map fun e => e.1 % 2 ^ 20).filter fun k =>
    bankPwr s core (k % 512 / 16) = 2
  (forEach ks (scrubCode core) s).setFld (spA core 0x28) 0 11 (row + 1)

/-- Cores that are out of reset. -/
def liveCores (s : State) : List Nat := allCores.filter fun i => s.coreOffered i && !dieHeldNow s (i / 64)

/-! ### The tick -/

/-- Whether a tick can come: the first tick has been issued, or falls now (R38, R40, R410). -/
def tickDue (s : State) : Bool := decide (3 ≤ s.stage) && (s.tk.started || !s.tk.waitFirst || decide (tickSrc s = 0))

/-- An activation due at the tick that IMAGE_ACTIVATION has not carried out yet. -/
def activateDue (s : State) : State :=
  if (s.img.pend.map fun p => p.go && decide (p.a = nextFrameNumber s)).getD false then activate s else s

/-! ### Sticky bits that the tick sets as a write of 1 to them lands (R58) -/

/-- The registers that the REG_WRITEs of the command FIFO name. -/
def fifoWrites (s : State) : List Nat :=
  nubN (s.port.fifo.filterMap fun e => match e.cmd with
    | .regWrite a _ => some a
    | _ => none)

/-- Bits that a tick may set again without a count: THERM_STEP (R362), SUPPLY_MAX (R364) and RESULT_MISSING (R334). -/
def setAgain (s : State) (a b : Nat) : Bool :=
  (decide (a = pgSticky) && decide (b = 4) && s.fx.prev.thermal.isSome) ||
    (decide (a = pgSticky) && decide (b = 8) && (List.range 12).any fun d => !dieHeldNow s d && decide (supplyStep s d = 15)) ||
    (decide (a = fxSticky) && decide (b = 6) && !s.fx.old.isEmpty)

/-- Whether the tick set a bit before the commands were taken: `s0` is the state before the tick and `s1` the one before them. -/
def tickSet (s0 s1 : State) (a b : Nat) : Bool :=
  s1.regBit a b &&
    (!s0.regBit a b || setAgain s1 a b ||
      (countersOf a).any fun e => bitN e.1 b && decide (s0.regFld e.2.1 e.2.2.1 e.2.2.2 ≠ s1.regFld e.2.1 e.2.2.1 e.2.2.2))

/-- A register whose sticky bits the tick set, before or after the commands that cleared them: the bits stay set, and their counters
keep what they held. `s2` is the state after the commands. -/
def keepReg (s0 s1 s2 : State) (a : Nat) (s : State) : State :=
  let cleared := (List.range 32).filter fun b => s1.regBit a b && !s2.regBit a b
  let kept := cleared.filter fun b => tickSet s0 s1 a b || s.regBit a b
  let s := forEach kept (fun b t => t.setBit a b) s
  forEach ((countersOf a).filter fun e => kept.any fun b => bitN e.1 b) (fun e t =>
    if s2.regFld e.2.1 e.2.2.1 e.2.2.2 = 0 then t.addCnt e.2.1 e.2.2.1 e.2.2.2 (s1.regFld e.2.1 e.2.2.1 e.2.2.2) else t) s

/-- The start of the new frame: commands, copies, input writes, scrub, and the frame programs (R26). `s0` is the state before the
tick. -/
def startFrame (again : Bool) (s0 s : State) : State :=
  let s1 := repeatShapes s
  let s2 := takeCommands s1
  let s := abortForActivation s2
  let s := powerTick (snapshotShapes (forEach (configured s) snapshotCore s))
  let s := forEach (liveCores s) (fun i t => scrubBanks i (scrubMacros i t)) s
  let s := applyInputs again s
  let s := forEach (configured s) (fun i t => startCore i t.fx.cur t) s
  forEach (fifoWrites s1) (fun a t => keepReg s0 s1 s2 a t) s

/-! ### Dies (R322) -/

/-- Whether the unit of a location of a die, its interfaces or the hub die is retired. -/
def dieUnitRetired (s : State) (l : Loc) : Bool :=
  if l.unit = 8 then s.bist.hubFailed
  else s.isRetired 29532 (if l.unit = 6 ∧ l.index = 1 then 12 + l.die else l.die)

/-- Locations of dies, interfaces and the hub die that are classed as permanent, with their entries, and are not retired yet. -/
def permanentDies (s : State) : List (Nat × Loc) :=
  (s.fx.keys.filter fun k =>
    decide (6 ≤ k.loc.unit) && decide (k.loc.unit ≤ 8) && decide (s.regFld (logA k.ix 0) 28 4 = 2) && !dieUnitRetired s k.loc).map
    fun k => (k.ix, k.loc)

/-- The unit of each is retired (Table 13.2); one fault may have several entries. -/
def retireDies (s : State) : State :=
  forEach (permanentDies s) (fun x t => if dieUnitRetired t x.2 then t else retireDieUnit x.1 x.2 t) s

/-- TICK. -/
def tick (s : State) : State :=
  if !tickDue s then s
  else
    let s0 := s
    let s := countVariant (thermalStep (advanceFn (endFrame (retireDies (settle (activateDue s))))))
    let (s, again) := nextFrame s
    startFrame again s0 (askFn s)

/-- TICK. -/
def execTick (s : State) : Host.Outcome State Fault Refusal := answer s (tick s)

end Sys2Proof.Machine
end

