-- ==== Sys2Proof/Machine/Dispatch.lean ====
section
/-! DEFINITION. The commands of the block and their meanings. -/

namespace Sys2Proof.Machine

/-- The effect of a command on everything but the queue of waiting commands. -/
def exec (i : Instr) (s : State) : Host.Outcome State Fault Refusal :=
  match i with
  | .tick => Sys2Proof.Machine.execTick s
  | .lockLost => Sys2Proof.Machine.execLockLost s
  | .fallbackMasterTakeover => Sys2Proof.Machine.execFallbackMasterTakeover s
  | .markerEmit => Sys2Proof.Machine.execMarkerEmit s
  | .tickMarker link w cw t => Sys2Proof.Machine.execTickMarker link w cw t s
  | .markerForward => Sys2Proof.Machine.execMarkerForward s
  | .tickRefEdge t => Sys2Proof.Machine.execTickRefEdge t s
  | .tickFrame port f => Sys2Proof.Machine.execTickFrame port f s
  | .fnsync link p cw => Sys2Proof.Machine.execFnsync link p cw s
  | .fnsyncBroadcast => Sys2Proof.Machine.execFnsyncBroadcast s
  | .workWindowEnd => Sys2Proof.Machine.execWorkWindowEnd s
  | .linkDelayProbe link t => Sys2Proof.Machine.execLinkDelayProbe link t s
  | .nop core body => Sys2Proof.Machine.execNop core body s
  | .endProg core body => Sys2Proof.Machine.execEnd core body s
  | .wait core body => Sys2Proof.Machine.execWait core body s
  | .signal core body => Sys2Proof.Machine.execSignal core body s
  | .fence core body => Sys2Proof.Machine.execFence core body s
  | .load core body => Sys2Proof.Machine.execLoad core body s
  | .store core body => Sys2Proof.Machine.execStore core body s
  | .send core body => Sys2Proof.Machine.execSend core body s
  | .writeW core body => Sys2Proof.Machine.execWriteW core body s
  | .winOpen core body => Sys2Proof.Machine.execWinOpen core body s
  | .winClose core body => Sys2Proof.Machine.execWinClose core body s
  | .matmul core body => Sys2Proof.Machine.execMatmul core body s
  | .fwPlanReply core seq => Sys2Proof.Machine.execFwPlanReply core seq s
  | .fwPlanTimeout core seq => Sys2Proof.Machine.execFwPlanTimeout core seq s
  | .matmulT core body => Sys2Proof.Machine.execMatmulT core body s
  | .attend core body => Sys2Proof.Machine.execAttend core body s
  | .reduce core body => Sys2Proof.Machine.execReduce core body s
  | .vecop core body => Sys2Proof.Machine.execVecop core body s
  | .vectorKernelBound core seq => Sys2Proof.Machine.execVectorKernelBound core seq s
  | .update core body => Sys2Proof.Machine.execUpdate core body s
  | .instructionComplete core seq => Sys2Proof.Machine.execInstructionComplete core seq s
  | .treeEmpty core lm => Sys2Proof.Machine.execTreeEmpty core lm s
  | .drainPortRead core port => Sys2Proof.Machine.execDrainPortRead core port s
  | .seifNodeOutput node elem => Sys2Proof.Machine.execSeifNodeOutput node elem s
  | .seifFold node elem => Sys2Proof.Machine.execSeifFold node elem s
  | .tagWaitRelease core slot => Sys2Proof.Machine.execTagWaitRelease core slot s
  | .tokenMessageArrival core tok n => Sys2Proof.Machine.execTokenMessageArrival core tok n s
  | .wdogTrip core => Sys2Proof.Machine.execWdogTrip core s
  | .flush hubBlock core q => Sys2Proof.Machine.execFlush hubBlock core q s
  | .tkQPeakRead path hubBlock core q => Sys2Proof.Machine.execTkQPeakRead path hubBlock core q s
  | .voteForm => Sys2Proof.Machine.execVoteForm s
  | .vote link p cw late => Sys2Proof.Machine.execVote link p cw late s
  | .voteDeadline => Sys2Proof.Machine.execVoteDeadline s
  | .voteResult link p cw => Sys2Proof.Machine.execVoteResult link p cw s
  | .resultQuery link p cw => Sys2Proof.Machine.execResultQuery link p cw s
  | .resultAnswer link p cw => Sys2Proof.Machine.execResultAnswer link p cw s
  | .voteResultApply => Sys2Proof.Machine.execVoteResultApply s
  | .imageActivation => Sys2Proof.Machine.execImageActivation s
  | .macroRetirement testPass => Sys2Proof.Machine.execMacroRetirement testPass s
  | .coreSwap testPass => Sys2Proof.Machine.execCoreSwap testPass s
  | .pseudoChannelRemap => Sys2Proof.Machine.execPseudoChannelRemap s
  | .retirementComplete => Sys2Proof.Machine.execRetirementComplete s
  | .rotationStep core => Sys2Proof.Machine.execRotationStep core s
  | .rotationTestDone core pass => Sys2Proof.Machine.execRotationTestDone core pass s
  | .rotationCopyBack core => Sys2Proof.Machine.execRotationCopyBack core s
  | .coreTest die r => Sys2Proof.Machine.execCoreTest die r s
  | .cmdFrame port f => Sys2Proof.Machine.execCmdFrame port f s
  | .imgVerify tag slot addr len => Sys2Proof.Machine.execImgVerify tag slot addr len s
  | .imageVerifyDone slot contents => Sys2Proof.Machine.execImageVerifyDone slot contents s
  | .imgActivate tag slot a h => Sys2Proof.Machine.execImgActivate tag slot a h s
  | .imgRelease tag slot => Sys2Proof.Machine.execImgRelease tag slot s
  | .fxResume tag r => Sys2Proof.Machine.execFxResume tag r s
  | .fxExport tag peer => Sys2Proof.Machine.execFxExport tag peer s
  | .shpSet tag mask n v => Sys2Proof.Machine.execShpSet tag mask n v s
  | .regWrite tag addr v => Sys2Proof.Machine.execRegWrite tag addr v s
  | .nvStore tag data => Sys2Proof.Machine.execNvStore tag data s
  | .nvPageStore readBack1 readBack2 => Sys2Proof.Machine.execNvPageStore readBack1 readBack2 s
  | .lcSet tag data => Sys2Proof.Machine.execLcSet tag data s
  | .write port f => Sys2Proof.Machine.execWrite port f s
  | .consume port f => Sys2Proof.Machine.execConsume port f s
  | .consumeReexamine => Sys2Proof.Machine.execConsumeReexamine s
  | .peek port f => Sys2Proof.Machine.execPeek port f s
  | .mem port f => Sys2Proof.Machine.execMem port f s
  | .capacity port f => Sys2Proof.Machine.execCapacity port f s
  | .attest port f => Sys2Proof.Machine.execAttest port f s
  | .attestReport => Sys2Proof.Machine.execAttestReport s
  | .regRead port f => Sys2Proof.Machine.execRegRead port f s
  | .evtAck port f => Sys2Proof.Machine.execEvtAck port f s
  | .eventResend => Sys2Proof.Machine.execEventResend s
  | .portStateChange port up => Sys2Proof.Machine.execPortStateChange port up s
  | .wr link p cw => Sys2Proof.Machine.execWr link p cw s
  | .wrAck link p cw => Sys2Proof.Machine.execWrAck link p cw s
  | .rdReq link p cw => Sys2Proof.Machine.execRdReq link p cw s
  | .rdResp link p cw => Sys2Proof.Machine.execRdResp link p cw s
  | .seif link p cw => Sys2Proof.Machine.execSeif link p cw s
  | .ack link w cw => Sys2Proof.Machine.execAck link w cw s
  | .nak link w cw => Sys2Proof.Machine.execNak link w cw s
  | .credit link w cw => Sys2Proof.Machine.execCredit link w cw s
  | .probe link w cw around => Sys2Proof.Machine.execProbe link w cw around s
  | .probeEcho link w cw t => Sys2Proof.Machine.execProbeEcho link w cw t s
  | .laneSwap link w cw => Sys2Proof.Machine.execLaneSwap link w cw s
  | .laneFailure link lane => Sys2Proof.Machine.execLaneFailure link lane s
  | .train link w cw => Sys2Proof.Machine.execTrain link w cw s
  | .linkTrainingDone link r => Sys2Proof.Machine.execLinkTrainingDone link r s
  | .linkFailure link cause => Sys2Proof.Machine.execLinkFailure link cause s
  | .retrainTimeout link => Sys2Proof.Machine.execRetrainTimeout link s
  | .clEnWrite v => Sys2Proof.Machine.execClEnWrite v s
  | .clIdWrite v => Sys2Proof.Machine.execClIdWrite v s
  | .dieToDieFlitError die ring second => Sys2Proof.Machine.execDieToDieFlitError die ring second s
  | .dieControllerHeartbeatMiss die => Sys2Proof.Machine.execDieControllerHeartbeatMiss die s
  | .clockSupplyFault die => Sys2Proof.Machine.execClockSupplyFault die s
  | .governorSample pReal => Sys2Proof.Machine.execGovernorSample pReal s
  | .governorMillisecond => Sys2Proof.Machine.execGovernorMillisecond s
  | .preRampStart => Sys2Proof.Machine.execPreRampStart s
  | .targetDescentStart => Sys2Proof.Machine.execTargetDescentStart s
  | .tempSample tj => Sys2Proof.Machine.execTempSample tj s
  | .junctionTrip die => Sys2Proof.Machine.execJunctionTrip die s
  | .dieThermalRelease die fails => Sys2Proof.Machine.execDieThermalRelease die fails s
  | .inputLow => Sys2Proof.Machine.execInputLow s
  | .inputHigh => Sys2Proof.Machine.execInputHigh s
  | .inputRestored => Sys2Proof.Machine.execInputRestored s
  | .bringUp f => Sys2Proof.Machine.execBringUp f s
  | .tamperTrip sensor => Sys2Proof.Machine.execTamperTrip sensor s
  | .biDebugOpen => Sys2Proof.Machine.execBiDebugOpen s
  | .lowWordRead path addr => Sys2Proof.Machine.execLowWordRead path addr s
  | .registerWrite path addr v => Sys2Proof.Machine.execRegisterWrite path addr v s
  | .readRequest bytes => Sys2Proof.Machine.execReadRequest bytes s
  | .writeRequest bytes => Sys2Proof.Machine.execWriteRequest bytes s
  | .resultRead nbytes => Sys2Proof.Machine.execResultRead nbytes s
  | .dynamicAddressAssignment arbitrated addr => Sys2Proof.Machine.execDynamicAddressAssignment arbitrated addr s
  | .cableSupplyOff link => Sys2Proof.Machine.execCableSupplyOff link s
  | .inBandInterruptRetry => Sys2Proof.Machine.execInBandInterruptRetry s

end Sys2Proof.Machine
end

