-- ==== Sys2Proof/WellFormed.lean ====
section
/-! DEFINITION. Well-formed commands: every operand within the width or the range that the spec gives it. The meanings are
total and do not ask for it. -/

namespace Sys2Proof

/-- A logical core, 64d + c with d from 0 to 11 (R17). -/
def coreOk (c : Nat) : Bool := decide (c < 768)
/-- A Chipra link (R287). -/
def linkOk (l : Nat) : Bool := decide (l < 32)
/-- A packet of a TYPE, with fields of the widths of Table 12.5. -/
def packetOk (type : Nat) (p : Packet) : Bool :=
  decide (p.ptype = type) && decide (p.dst < 16384) && decide (p.src < 16384) && decide (p.lseq < 65536) && decide (p.addr < 2 ^ 48) &&
    decide (p.blk < 4) && decide (p.xid < 65536) && decide (p.ackSt < 8) && decide (p.data.length ≤ 256) && decide (p.entries.length ≤ 16)
/-- A reserved TYPE, which no row of the table has; such a packet comes as a WR and is discarded (R302). -/
def reservedType (t : Nat) : Bool := decide (t = 0) || (decide (8 ≤ t) && decide (t < 16))
/-- A VOTE packet of a KIND (Tables 12.6 and 13.6). -/
def votePktOk (kind : Byte) (p : Packet) : Bool := packetOk 6 p && decide (p.vote.map (·.kind) = some kind)
/-- A Drundoha port (R367). -/
def portOk (p : Nat) : Bool := decide (p < 2)
/-- A TAG, 32 bits (Table 15.1). -/
def tagOk (t : Nat) : Bool := decide (t < 2 ^ 32)
/-- A 48-bit address (R17). -/
def addrOk (a : Nat) : Bool := decide (a < 2 ^ 48)
/-- A queue of Table 11.3: 34 hub queues, 26 queues of a core. -/
def queueOk (hubBlock : Bool) (core q : Nat) : Bool := if hubBlock then decide (q < 34) else coreOk core && decide (q < 26)
/-- A seif node (Table 5.4). -/
def nodeOk (n : NodeId) : Bool :=
  match n with
  | .core i => coreOk i
  | .die d => decide (d < 12)
  | .hub => true

/-- The operands of a command that a CMD frame carries (Table 15.3). -/
def cmdOk (c : Cmd) : Bool :=
  match c with
  | .imgVerify slot addr _ => decide (slot < 4) && addrOk addr
  | .imgActivate slot a h => decide (slot < 4) && decide (a < 2 ^ 64) && decide (h < 65536)
  | .imgRelease slot => decide (slot < 4)
  | .fxResume r => decide (r < 2 ^ 64)
  | .fxExport peer => decide (peer < 16384)
  | .shpSet _ n _ => decide (n < 64)
  | .regWrite addr _ => addrOk addr
  | .nvStore l | .lcSet l => decide (l.length ≤ 4096)
  | .reserved op => decide (op < 256)

/-- Whether each field of a Drundoha frame fits its bytes (Table 15.1), and what a CMD carries is well formed. -/
def frameFieldsOk (f : Frame) : Bool :=
  decide (f.ftype < 256) && decide (f.flags < 256) && decide (f.status < 256) && decide (f.op < 256) && tagOk f.tag && addrOk f.addr &&
    decide (f.core < 65536) && decide (f.len < 2 ^ 32) && decide (f.md < 65536) && decide (f.rsv < 65536) &&
    decide (f.data.length ≤ 4096) && cmdOk f.args

/-- Whether a command is well formed. -/
def Instr.wellFormed (i : Instr) : Bool :=
  match i with
  | .tick | .lockLost | .fallbackMasterTakeover | .markerEmit | .markerForward | .fnsyncBroadcast | .workWindowEnd => true
  | .tickMarker link _ _ _ => linkOk link
  | .tickRefEdge _ => true
  | .tickFrame port f => portOk port && frameFieldsOk f
  | .fnsync link p _ => linkOk link && packetOk 7 p
  | .linkDelayProbe link _ => linkOk link
  | .nop c _ | .endProg c _ | .wait c _ | .signal c _ | .fence c _ | .load c _ | .store c _ | .send c _ | .writeW c _
  | .winOpen c _ | .winClose c _ | .matmul c _ | .matmulT c _ | .attend c _ | .reduce c _ | .vecop c _
  | .update c _ => coreOk c
  | .fwPlanReply c seq | .fwPlanTimeout c seq | .vectorKernelBound c seq | .instructionComplete c seq =>
    coreOk c && decide (seq < 65536)
  | .treeEmpty c lm => coreOk c && decide (lm < 256)
  | .drainPortRead c p => coreOk c && decide (p < 16)
  | .seifNodeOutput n e | .seifFold n e => nodeOk n && coreOk e.core
  | .tagWaitRelease c slot => coreOk c && decide (slot < 4096)
  | .tokenMessageArrival c tok n => coreOk c && decide (tok < 1024) && decide (n < 65536)
  | .wdogTrip c => coreOk c
  | .flush h c q => queueOk h c q
  | .tkQPeakRead _ h c q => queueOk h c q
  | .voteForm | .voteDeadline | .voteResultApply | .imageActivation => true
  | .vote l p _ _ => linkOk l && votePktOk 0 p
  | .voteResult l p _ => linkOk l && votePktOk 1 p
  | .resultQuery l p _ => linkOk l && votePktOk 2 p
  | .resultAnswer l p _ => linkOk l && votePktOk 3 p
  | .macroRetirement _ | .coreSwap _ | .pseudoChannelRemap | .retirementComplete => true
  | .rotationStep c | .rotationTestDone c _ | .rotationCopyBack c => coreOk c
  | .coreTest d _ => decide (d < 12)
  | .cmdFrame p f | .write p f | .consume p f | .peek p f | .mem p f | .capacity p f | .attest p f | .regRead p f | .evtAck p f =>
    portOk p && frameFieldsOk f
  | .imgVerify t slot addr _ => tagOk t && decide (slot < 4) && addrOk addr
  | .imageVerifyDone slot _ => decide (slot < 4)
  | .imgActivate t slot a h => tagOk t && decide (slot < 4) && decide (a < 2 ^ 64) && decide (h < 65536)
  | .imgRelease t slot => tagOk t && decide (slot < 4)
  | .fxResume t r => tagOk t && decide (r < 2 ^ 64)
  | .fxExport t peer => tagOk t && decide (peer < 16384)
  | .shpSet t _ n _ => tagOk t && decide (n < 64)
  | .regWrite t addr _ => tagOk t && addrOk addr
  | .nvStore t l | .lcSet t l => tagOk t && decide (l.length ≤ 4096)
  | .nvPageStore _ _ => true
  | .consumeReexamine | .attestReport | .eventResend => true
  | .portStateChange p _ => portOk p
  | .wr l p _ => linkOk l && (packetOk 1 p || (packetOk p.ptype p && reservedType p.ptype))
  | .wrAck l p _ => linkOk l && packetOk 2 p
  | .rdReq l p _ => linkOk l && packetOk 3 p
  | .rdResp l p _ => linkOk l && packetOk 4 p
  | .seif l p _ => linkOk l && packetOk 5 p
  | .ack l _ _ | .nak l _ _ | .credit l _ _ | .probe l _ _ _ | .probeEcho l _ _ _ | .laneSwap l _ _ | .train l _ _ => linkOk l
  | .laneFailure l lane => linkOk l && decide (lane < 17)
  | .linkTrainingDone l _ | .linkFailure l _ | .retrainTimeout l => linkOk l
  | .clEnWrite _ | .clIdWrite _ => true
  | .dieToDieFlitError d _ _ | .dieControllerHeartbeatMiss d => decide (d < 12)
  | .clockSupplyFault d => decide (d < 13)
  | .governorSample _ | .governorMillisecond | .preRampStart | .targetDescentStart => true
  | .tempSample tj => decide (tj.length = 13)
  | .junctionTrip d => decide (d < 13)
  | .dieThermalRelease d _ => decide (d < 13)
  | .inputLow | .inputHigh | .inputRestored | .bringUp _ | .tamperTrip _ | .biDebugOpen => true
  | .lowWordRead _ addr | .registerWrite _ addr _ => addrOk addr
  | .readRequest l | .writeRequest l => decide (l.length ≤ 4096)
  | .resultRead n => decide (n ≤ 4096)
  | .dynamicAddressAssignment _ a => decide (a < 128)
  | .cableSupplyOff l => linkOk l
  | .inBandInterruptRetry => true

end Sys2Proof
end

