-- ==== Sys2Proof/Safety.lean ====
section
/-! DEFINITION. What counts as a sound state and a safe step, in the terms the statements use. -/

namespace Sys2Proof.Machine

/-- Every byte memory is in its canonical form (SMap.lean): the HBM, the scratchpads, the macros and the stored scales. -/
def State.memOk (s : State) : Bool := Mem.wf s.hbm && Mem.wf s.spad && Mem.wf s.mac && Mem.wf s.scale

/-- Every byte of memory reads the same. -/
def State.sameBytes (s t : State) : Prop :=
  ∀ a, Mem.get t.hbm a = Mem.get s.hbm a ∧ Mem.get t.spad a = Mem.get s.spad a ∧ Mem.get t.mac a = Mem.get s.mac a ∧
    Mem.get t.scale a = Mem.get s.scale a

/-- Every stored register reads the same, but for those of a list. -/
def State.sameRegs (s t : State) (l : List Nat) : Prop := ∀ a, a ∉ l → t.reg a = s.reg a

/-- The registers of the event FIFO and of the event loss, which an event that enters the FIFO may change (R281, R374). -/
def eventRegs : List Nat := [hubQA 1 4, hubQA 1 8, dpSticky]

/-- Whether the sequencer of a core issues an instruction when it attempts it: it stands at an instruction of a running
program, no in-flight limit and no full queue holds it, its header wait is satisfied or was taken before, and no flipped bit stands
in its path or in the words of its descriptors (R129, R180, R196, R199, R202, R317). -/
def canIssue (s : State) (core : Nat) (w : BitVec 256) : Bool :=
  running s core && !pastEnd s core && !atLimit (s.core core) w && !queuesFull s core w &&
    decide (SMap.get (fun _ => 0) s.err.pathFlip core = 0) && decide (descMd s core (opTds w) = 0) &&
    (((s.core core).waiting.map (·.taken)).getD false || decide (iWcnt w = 0) ||
      decide (iWcnt w ≤ (s.core core).token (iWtok w)))

/-- The counts that the header wait takes at issue (R202). -/
def headerPairs (s : State) (core : Nat) (w : BitVec 256) : List (Nat × Nat) :=
  if ((s.core core).waiting.map (·.taken)).getD false || decide (iWcnt w = 0) then [] else [(iWtok w, iWcnt w)]

/-- The token messages of an instruction that completes and signals (R197, R273). -/
def signalOf (core : Nat) (w : BitVec 256) : List (Nat × Nat × Nat) := if iSigEn w then [(core, iStok w, 1)] else []

/-- The outputs by which token messages are seen to leave, the last one first. -/
def tokenOuts (l : List (Nat × Nat × Nat)) : List Out := (l.map fun m => Out.token m.1 m.2.1 m.2.2).reverse

/-- A core whose token counters have been lowered by pairs. -/
def Core.took (c : Core) (pairs : List (Nat × Nat)) : Core := pairs.foldl (fun c p => c.setToken p.1 (c.token p.1 - p.2)) c

/-- A core whose sequencer has gone past an instruction, the counts of pairs taken. -/
def Core.wentOn (c : Core) (pairs : List (Nat × Nat)) : Core := { c.took pairs with pos := c.pos + 1, waiting := none }

/-- The registers of a core queue that an item which passes through it may change (R282). -/
def queueRegs (core q : Nat) : List Nat := [coreQA core q 4, coreQA core q 8]

/-- The registers that change where an instruction signals: those of its core's injection queue (Table 11.3). -/
def signalRegs (core : Nat) (w : BitVec 256) : List Nat := if iSigEn w then queueRegs core 24 ++ eventRegs else []

/-- Whether an output is a token message. -/
def Out.isToken (o : Out) : Bool :=
  match o with
  | .token _ _ _ => true
  | _ => false

/-- Items have passed through a queue of the core, which holds as many stages as before; nothing else of it has changed. -/
def Core.passed (d c : Core) (q : Nat) : Prop :=
  c = { d with queues := c.queues } ∧ (∀ r, r ≠ q → c.queue r = d.queue r) ∧ (c.queue q).length = (d.queue q).length

/-- What items that pass through a core queue may change outside the core: the queue's depth and peak, and, where its depth
crosses a level that is set, the event FIFO (R282); and the given registers. -/
def State.passedQueue (s t : State) (core q : Nat) (also : List Nat) : Prop :=
  s.sameRegs t (also ++ queueRegs core q ++ eventRegs) ∧
  t.port = { s.port with events := t.port.events, seq := t.port.seq, lostPending := t.port.lostPending } ∧
  t.svc = { s.svc with ibiPending := t.svc.ibiPending } ∧
  (s.regFld (coreQA core q 0) 0 10 = 0 → t.port = s.port ∧ t.svc = s.svc ∧ s.sameRegs t (also ++ queueRegs core q))

/-- Everything but one core, given registers, the messages in flight, what is seen from outside and what the injection queue
changes is as it was; the messages are sent. -/
def State.onlyCore (s t : State) (core : Nat) (msgs : List (Nat × Nat × Nat)) (also : List Nat := []) : Prop :=
  (∀ j, j ≠ core → t.core j = s.core j) ∧ t.flight = s.flight ++ msgs ∧
    t.out.filter Out.isToken = tokenOuts msgs ++ s.out.filter Out.isToken ∧
    t = { s with cores := t.cores, flight := t.flight, out := t.out, regs := t.regs, port := t.port, svc := t.svc } ∧
    s.passedQueue t core 24 also ∧ (s.regFld (coreQA core 24 0) 0 10 = 0 → t.out = tokenOuts msgs ++ s.out) ∧
    (msgs = [] → t = { s with cores := t.cores, regs := t.regs } ∧ s.sameRegs t also)

/-- What issue gives an instruction for good: its position, its word, the segment, its extents and its operands. -/
def Op.asIssued (o : Op) : Nat × BitVec 256 × Nat × Ext × List Opd := (o.seq, o.word, o.seg, o.ext, o.opds)

/-- Where the sequencer of a core stands: position, end, wait and tokens. -/
def Core.sequencer (c : Core) : Nat × Bool × Option Waiting × SMap Nat := (c.pos, c.ended, c.waiting, c.tokens)

/-- What no instruction changes in a core: its section, program, descriptors, estimates and windows. -/
def Core.fixed (c : Core) : Option CoreSect × Option Prog × SMap (BitVec 512) × SMap Est × SMap Window :=
  (c.cfg, c.prog, c.desc, c.est, c.windows)

/-- An instruction has issued: its core's sequencer has gone past it with the count of its header taken, and it is the last
instruction in flight there; no other core's sequencer has moved nor an instruction been issued or completed there; and the
tick, the images, the security core, the self-test, and what no instruction changes in a core are as they were. -/
def State.issued (s t : State) (core : Nat) (w : BitVec 256) (e : Ext) (opds : List Opd) : Prop :=
  (t.core core).sequencer = ((s.core core).wentOn (headerPairs s core w)).sequencer ∧
  (t.core core).ops.map Op.asIssued = (s.core core).ops.map Op.asIssued ++ [((s.core core).pos, w, s.seg core, e, opds)] ∧
  (∀ j, j ≠ core → (t.core j).sequencer = (s.core j).sequencer ∧ (t.core j).ops.map Op.asIssued = (s.core j).ops.map Op.asIssued) ∧
  (∀ j, (t.core j).fixed = (s.core j).fixed) ∧
  t.tk = s.tk ∧ t.img = s.img ∧ t.sec = s.sec ∧ t.bist = s.bist ∧ t.pending = s.pending

/-- The instruction at a core's position issues now, and no instruction of that position is in flight there. -/
def canIssueNew (s : State) (core : Nat) (w : BitVec 256) : Bool :=
  canIssue s core w && ((s.core core).op (s.core core).pos).isNone

/-- The task offsets or addresses that rows of an operand take, in whole 32-bit words: elements, and scales if the operand is
scaled, by rows or by K blocks (R97, R150, R447, R448). -/
def rowsTouch (kb wr : Bool) (o : Opd) (b m n x : Nat) : Prop :=
  ∃ r ∈ allRows b m,
    (rowAddr o r.1 r.2 / 4 * 4 ≤ x ∧ x < cdiv (rowAddr o r.1 r.2 + rowBytes (dFmt wr o.d) n) 4 * 4) ∨
    (dSc wr o.d = true ∧ (rowScales kb wr o r.1 r.2 n).1 / 4 * 4 ≤ x ∧
      x < cdiv ((rowScales kb wr o r.1 r.2 n).1 + (rowScales kb wr o r.1 r.2 n).2) 4 * 4)

/-- Every byte of HBM outside the given addresses reads the same, and outside the whole units of ping-pong regions that they
lie in, on the side that is not current (R325). -/
def State.hbmOutside (s t : State) (touch : Nat → Prop) : Prop :=
  ∀ a, (∀ x, touch x → (s.unitAt x = none → a ≠ x) ∧
      ∀ u, s.unitAt x = some u → ∀ y, y < 4096 → a ≠ { u with ofs := u.ofs / 4096 * 4096 + y }.addr (!s.sideOf u.key)) →
    Mem.get t.hbm a = Mem.get s.hbm a

/-- Every byte of the scratchpads reads the same, but for those that a write of the given task offsets reaches, and those after
it in a versioned slot, which the last write of the slot fills with zeros (R150, R164, R188). -/
def State.spadOutside (s t : State) (r : Req) (tag : Nat) (touch : Nat → Prop) : Prop :=
  ∀ a, (∀ x p, (touch x ∨ ∃ y o q, touch y ∧ y ≤ x ∧ reqOffset s r y = some o ∧ reqOffset s r x = some q ∧ q / 256 = o / 256 ∧
      slotKind s r.core (o / 256) ≠ .working) →
      (spTarget s r true tag x).phys = some p → a ≠ s.pcIx r.core * 2 ^ 22 + p) →
    Mem.get t.spad a = Mem.get s.spad a

/-- A packet that its link accepts next, whole and well formed (R298, R302). -/
def comesNext (s : State) (i : Nat) (p : Packet) (cw : Codeword) : Bool :=
  s.linkUp i && rxGood p cw && decide (p.lseq < 65536) && decide (p.lseq = (s.link i).lseqRx) && !packetBad p

/-- A VOTE packet for this module, in its frame, that its link accepts next (R298, R308, R331). -/
def voteComes (s : State) (i : Nat) (p : Packet) (cw : Codeword) (pl : VotePl) : Prop :=
  comesNext s i p cw = true ∧ p.ptype = 6 ∧ p.dst = s.moduleId ∧ p.ftag = s.ftag ∧ p.vote = some pl

/-- The link on which a VOTE packet to a tree neighbour leaves, none where it has no way (R304, R329). -/
def voteHop (s : State) (dst link : Nat) : Option Nat :=
  if s.active then
    match nextHop s 1 dst with
    | .link k => some k
    | _ => none
  else if s.linkUp link then some link else none

/-- A link that sends a VOTE packet at once: it is open, nothing waits before it, and it has the credit (R279, R299). -/
def State.sendsVote (s : State) (k : Nat) : Prop :=
  (s.link k).waiting = [] ∧ (s.link k).backlog = [] ∧ (s.link k).part = 0 ∧ (s.link k).swap = none ∧
    ∀ q : Packet, q.ptype = 6 → (s.link k).canSend q = true

/-- The registers that an accepted packet may change (R292). -/
def rxRegs (i : Nat) : List Nat := [linkA i 0xC, linkA i 0x14]

/-- The module serves a new request: it is READY, in no safe state, and none of the answers it keeps has the TAG (R371, R409). -/
def servesNow (s : State) (tag : Nat) : Bool :=
  decide (7 ≤ s.stage) && decide (s.safe = 0) && !(s.port.answers.any fun a => decide (a.tag = tag))

/-- A port that is UP takes a frame as well formed (R369). -/
def State.hears (s : State) (port : Nat) (f : Frame) : Bool := decide (port < 2) && s.portUp port && !frameBad f

/-- The commands in which a frame comes to a port. -/
def frameRows (port : Nat) (f : Frame) : List Instr :=
  [.cmdFrame port f, .write port f, .consume port f, .peek port f, .mem port f, .capacity port f, .attest port f, .regRead port f,
   .evtAck port f, .tickFrame port f]

/-- A request has been answered: the answer is the newest of those kept, and has left if its port is UP (R368, R371). -/
def State.answered (s t : State) (port : Nat) (a : Answer) : Prop :=
  t.port.answers.getLast? = some a ∧ (s.portUp port = true → Out.frame port (answerFrame a) ∈ t.out)

/-- The short answer of a command or a WRITE: its status alone. -/
def shortAnswer (s : State) (tag op st : Nat) : Answer := { tag := tag, op := op, status := st, fn := s.fn }

/-- The FN that an answer of committed data gives: the WFN of the frame that wrote it, or a free value where none did (R382;
log entry 114). -/
def State.writerOf (s t : State) (fn w : DWord) : Prop :=
  if w = 0 then fn = s.free 64 ∧ t.freeCount = s.freeCount + 1 else fn = w ∧ t.freeCount = s.freeCount

/-- Nothing but the ports' answers, what is seen from outside and the given parts has changed. -/
def State.onlyAnswer (s t : State) : Prop :=
  t = { s with port := { s.port with answers := t.port.answers }, out := t.out }

/-- Every waiting command is well formed. -/
def State.queueOk (s : State) : Bool := s.pending.all Instr.wellFormed

/-- The event FIFO holds at most its 256 entries (R374, Table 11.3). -/
def State.eventsOk (s : State) : Bool := decide (s.port.events.length ≤ 256)

/-- A step is safe if it neither faults nor is refused. -/
def State.stepSafe (s : State) : Prop := ∃ t, step s = .next t

end Sys2Proof.Machine
end

