-- ==== Sys2Proof/Certificates/Slice0/Obligations.lean ====
section
/-! DEFINITION. The statements for the provers: one `def Obligations.<Name> : Prop` for each. Where a statement rests on a choice
of the model, its docstring names the log entry. -/

open Sys2Proof Sys2Proof.Machine

/-! ### The block -/

/-- The command at the front of the queue is the one that a step runs, on the state with the rest of the queue; with
nothing waiting the block idles, which is the model's choice (log entry 4). -/
def Obligations.StepRunsTheFrontCommand : Prop :=
  (∀ (c : Instr) (q : List Instr) (s : State), s.pending = c :: q → step s = exec c { s with pending := q }) ∧
  ∀ s : State, s.pending = [] → step s = .next s

/-- Commands are taken first in, first out, and every one of them completes: after as many steps as commands wait, the
queue is empty, and each step has taken the oldest (the model's queue, log entry 4). -/
def Obligations.QueueIsServedInOrder : Prop :=
  ∀ s : State, ∃ run : Nat → State, run 0 = s ∧ (∀ n, n < s.pending.length →
    step (run n) = .next (run (n + 1)) ∧ (run n).pending = s.pending.drop n) ∧ (run s.pending.length).pending = []

/-- The 256-bit words of macro-instructions: encoding then decoding gives the instruction back, decoding then encoding the
word, and a reserved opcode decodes to none (R200, R201, Table 8.2). -/
def Obligations.MacroOpWordsRoundTrip : Prop :=
  (∀ (i : Instr) (core : Nat) (w : BitVec 256), encodeMacroOp i = some (core, w) → decodeMacroOp core w = some i) ∧
  (∀ (core : Nat) (w : BitVec 256) (i : Instr), decodeMacroOp core w = some i → encodeMacroOp i = some (core, w)) ∧
  ∀ (core : Nat) (w : BitVec 256), (decodeMacroOp core w).isSome = true ↔
    (w.extractLsb' 0 8).toNat ∈ [0x00, 0x01, 0x02, 0x03, 0x04, 0x08, 0x09, 0x0A, 0x0B, 0x0C, 0x0D, 0x10, 0x11, 0x12, 0x13, 0x18, 0x19]

/-- Every step keeps the byte memories in their canonical form, so equal memories are equal data (log entry 1). -/
def Obligations.StepKeepsMemoryCanonical : Prop :=
  ∀ s t : State, s.memOk = true → step s = .next t → t.memOk = true

/-- Every step keeps the event FIFO, the command FIFO, the answers and the results kept within the sizes of R281, R371, R374
and R342, and the four image slots; and it changes no fuse: the vendor key's hash and the device secret (R385). -/
def Obligations.SizesAndFusesAreKept : Prop :=
  (∀ s t : State, step s = .next t →
    (s.port.events.length ≤ 256 → t.port.events.length ≤ 256) ∧ (s.port.fifo.length ≤ 64 → t.port.fifo.length ≤ 64) ∧
    (s.port.answers.length ≤ 64 → t.port.answers.length ≤ 64) ∧ (s.fx.results.length ≤ 16 → t.fx.results.length ≤ 16) ∧
    (s.img.slots.length = 4 → t.img.slots.length = 4)) ∧
  ∀ s t : State, step s = .next t → t.sec.vendorHash = s.sec.vendorHash ∧ t.sec.secret = s.sec.secret

/-- TICK (R37, R38): a tick that is due, with no number taken from outside, raises FN by 1, and the first one makes it 0; no
other command changes FN, but for those that reset the module or bring it up. -/
def Obligations.FrameNumberMovesAtTicks : Prop :=
  (∀ s : State, 3 ≤ s.stage → s.tk.pendingFn = none → (s.tk.started = true ∨ s.tk.waitFirst = false) →
    ∃ t, exec .tick s = .next t ∧ t.tk.started = true ∧ t.fn = if s.tk.started then s.fn + 1 else 0) ∧
  ∀ (i : Instr) (s t : State), i ≠ .tick → i ≠ .inputLow → i ≠ .inputHigh → i ≠ .inputRestored → (∀ f, i ≠ .bringUp f) →
    exec i s = .next t → t.fn = s.fn ∧ t.tk.started = s.tk.started

/-! ### Sandglass -/

/-- LOCK_LOST, FALLBACK_MASTER_TAKEOVER and WORK_WINDOW_END (R36, R39, R48): after 4 consecutive ticks in holdover, once in a run of
them, a module that does not run from its own timebase clears FT_STATUS.LOCKED and sets LOCK_LOST; one with an external source also
raises an event on the Drundoha port, which joins the event FIFO where it has room, and a follower raises none; after fewer
nothing changes. A fallback master of rank k emits markers after k + 1 ticks in holdover and not before. A core still at work at
the end of the work window sets GUARD_USED, which has no other effect. -/
def Obligations.LockTakeoverAndWorkWindow : Prop :=
  ((∀ s : State, 4 ≤ s.tk.holdRun → tickSrc s ≠ 1 → s.tk.lostRun = false → ∃ t, exec .lockLost s = .next t ∧
      t.regBit ftStatus 0 = false ∧ t.regBit ftSticky 3 = true ∧
      (tickSrc s ≠ 0 → s.port.events.length < 256 → t.port.events.length = s.port.events.length + 1 ∧
        ∃ e, t.port.events.getLast? = some e ∧ e.ev.kind = 0 ∧ e.ev.status = stOK ∧ e.ev.addr = ftSticky ∧ e.ev.bitIx = 3 ∧
          e.ev.fn = s.fn) ∧
      (tickSrc s = 0 → t = { s with regs := t.regs, tk := t.tk } ∧ s.sameRegs t [ftStatus, ftSticky]) ∧
      t = { s with regs := t.regs, port := t.port, svc := t.svc, out := t.out, tk := t.tk } ∧
      t.tk = { s.tk with extIn := 0, waitFirst := s.tk.waitFirst || decide (tickSrc s = 0), lostRun := true } ∧
      s.sameRegs t (ftStatus :: ftSticky :: eventRegs)) ∧
    ∀ s : State, (s.tk.holdRun < 4 ∨ tickSrc s = 1 ∨ s.tk.lostRun = true) → exec .lockLost s = .next s) ∧
  ((∀ (s : State) (k : Nat), fallbackRank s = some k → tickSrc s = 0 → k + 1 ≤ s.tk.holdRun →
      exec .fallbackMasterTakeover s = .next { s with tk := { s.tk with emitting := true } }) ∧
    (∀ (s : State) (k : Nat), fallbackRank s = some k → s.tk.holdRun < k + 1 → exec .fallbackMasterTakeover s = .next s) ∧
    (∀ (s : State) (c : Nat × Core), c ∈ s.cores → c.2.prog.isSome = true →
      (c.2.ended = false ∨ ∃ o ∈ c.2.ops, o.signalled = false) → exec .workWindowEnd s = .next (s.setBit ftSticky 7)) ∧
    ∀ s : State, (∀ c ∈ s.cores, c.2.prog = none ∨ (c.2.ended = true ∧ ∀ o ∈ c.2.ops, o.signalled = true)) →
      exec .workWindowEnd s = .next s)

/-- MARKER_EMIT and MARKER_FORWARD (R42 to R44, R292): the master's marker for the next tick leaves on every downstream link of its
tree that is UP and in no lane swap, with HOPS 0 and DELAY_ACC 0; the chosen marker leaves with its HOPS and with DELAY_ACC raised
by 8 ns (64 units), once. Nothing else changes. A marker's block has its fields at the bits of Table 2.2, TYPE 0x5A, zeros at bits
9 and 8, and a right CRC-8. -/
def Obligations.MarkersLeaveDownTheTree : Prop :=
  (∀ (s : State) (k : Nat) (tr : TickTree), masterRank s = some k → treeOf s k = some tr → s.tk.started = true →
    exec .markerEmit s = .next { s with out := (((upLinks s tr.down).filter s.linkOpen).map fun i => Out.block i (markerBlock
      { fnLo := (nextFrameNumber s).setWidth 24, masterIx := BitVec.ofNat 2 k, hops := 0, delayAcc := 0 })).reverse ++ s.out }) ∧
  (∀ (s : State) (m : ChosenMarker) (tr : TickTree), s.tk.chosen = some m → treeOf s m.rank = some tr → m.forwarded = false →
    exec .markerForward s = .next { s with
      tk := { s.tk with chosen := some { m with forwarded := true } },
      out := (((upLinks s tr.down).filter s.linkOpen).map fun i => Out.block i (markerBlock
        { fnLo := (nextFrameNumber s).setWidth 24, masterIx := BitVec.ofNat 2 m.rank, hops := BitVec.ofNat 4 m.hops,
          delayAcc := BitVec.ofNat 16 (m.delay + 64) })).reverse ++ s.out }) ∧
  (∀ (s : State) (m : ChosenMarker), s.tk.chosen = some m → m.forwarded = true → exec .markerForward s = .next s) ∧
  ∀ m : Marker, (markerBlock m).extractLsb' 56 8 = 0x5A ∧ (markerBlock m).extractLsb' 32 24 = m.fnLo ∧
    (markerBlock m).extractLsb' 30 2 = m.masterIx ∧ (markerBlock m).extractLsb' 26 4 = m.hops ∧
    (markerBlock m).extractLsb' 10 16 = m.delayAcc ∧ (markerBlock m).extractLsb' 8 2 = 0 ∧ blkCrcOk (markerBlock m) = true

/-- TICK_MARKER (R42, R44, R47, R50, R292): the first marker of a frame whose block and codeword are good, on an upstream link of its
master's tree that is UP and in no lane swap, from a master that outranks this module, whose FN_LO agrees and whose accumulated
delay is no more than FT_LEAD less 100 ns, schedules the tick at its arrival plus FT_LEAD less the delay, to the nearest
nanosecond, and sets LOCKED; one whose FN_LO disagrees sets FN_MISMATCH and LOCK_LOST, clears LOCKED and stops the module. One with
a wrong CRC or TYPE, or out of an uncorrectable codeword, is discarded. A time half way between two nanoseconds goes up, which is the
model's choice (log entry 132). -/
def Obligations.MarkerSchedulesTheTick : Prop :=
  (∀ (s : State) (i : Nat) (w : BitVec 64) (cw : Codeword) (mk : Marker) (t : Nat) (tr : TickTree), tickSrc s = 0 → s.linkUp i = true →
    s.linkOpen i = true → blkTaken 0x5A w cw = true → blkMarker w = mk →
    treeOf s mk.masterIx.toNat = some tr → (tr.primary = some i ∨ tr.secondary = some i) →
    mk.masterIx.toNat < (masterRank s).getD 4 → mk.delayAcc.toNat + (s.reg (linkA i 0x10)).toNat ≤ ftLead - 800 →
    s.tk.waitFirst = false → s.tk.chosen = none →
    (mk.fnLo = (nextFrameNumber s).setWidth 24 → ∃ u, exec (.tickMarker i w cw t) s = .next u ∧
      u.tk.nextTick = (t + 28000 - (mk.delayAcc.toNat + (s.reg (linkA i 0x10)).toNat) + 4) / 8 * 8 ∧
      u.tk.chosen = some
        { rank := mk.masterIx.toNat, hops := mk.hops.toNat + 1, delay := mk.delayAcc.toNat + (s.reg (linkA i 0x10)).toNat,
          primary := decide (tr.primary = some i) } ∧
      u.regBit ftStatus 0 = true ∧ (u.regBit ftSticky 4 = true ∨ mk.masterIx.toNat = s.regFld ftStatus 2 2) ∧
      u = { noteCodeword i cw s with tk := u.tk, regs := u.regs } ∧ (noteCodeword i cw s).sameRegs u [ftStatus, ftSticky]) ∧
    (mk.fnLo ≠ (nextFrameNumber s).setWidth 24 → ∃ u, exec (.tickMarker i w cw t) s = .next u ∧
      u.regBit ftSticky 2 = true ∧ u.regBit ftSticky 3 = true ∧ u.regBit ftStatus 0 = false ∧ u.tk.stopped = true ∧
      u = { noteCodeword i cw s with tk := u.tk, regs := u.regs } ∧ (noteCodeword i cw s).sameRegs u [ftStatus, ftSticky])) ∧
  (∀ (s : State) (i : Nat) (w : BitVec 64) (cw : Codeword) (t : Nat), s.linkUp i = true →
    (cw.uncorr = true ∨ blkCrcOk w = false ∨ blkType w ≠ 0x5A ∨ s.linkOpen i = false) →
    exec (.tickMarker i w cw t) s = .next (noteCodeword i cw s)) ∧
  ∀ (s : State) (i : Nat) (w : BitVec 64) (cw : Codeword) (t : Nat), s.tk.stopped = true → s.tk.waitFirst = true →
    ∀ u, exec (.tickMarker i w cw t) s = .next u → u.tk = s.tk

/-- TICK_REF_EDGE and TICK_FRAME (R39, R40, R383): an event within 100 ns of the tick predicted places the tick at its time
plus FT_EXT_OFFSET, and the second in a row sets LOCKED; one outside is ignored and sets EXT_REF_OUT_OF_WINDOW; a TICK frame
whose FN is not that of the tick it would place sets FN_MISMATCH. -/
def Obligations.ExternalEventPlacesTheTick : Prop :=
  (∀ (s : State) (t : Nat), tickSrc s = 3 → 3 ≤ s.stage → s.tk.started = true →
    within100 (t + extOffset s) s.tk.nextTick = true → ∃ u, exec (.tickRefEdge t) s = .next u ∧
      u.tk = { s.tk with nextTick := (t + extOffset s).toNat, extIn := s.tk.extIn + 1, extOut := 0, extLast := some t, extPlaced := true } ∧
      u = { s with tk := u.tk, regs := u.regs } ∧ s.sameRegs u [ftStatus] ∧ (1 ≤ s.tk.extIn → u.regBit ftStatus 0 = true)) ∧
  (∀ (s : State) (t : Nat), tickSrc s = 3 → 3 ≤ s.stage → s.tk.started = true → s.active = true →
    within100 (t + extOffset s) s.tk.nextTick = false → ∃ u, exec (.tickRefEdge t) s = .next u ∧
      u.regBit ftSticky 6 = true ∧ u.tk.nextTick = s.tk.nextTick ∧ u.tk.fn = s.tk.fn ∧
      u = { s with tk := u.tk, regs := u.regs } ∧ s.sameRegs u [ftSticky]) ∧
  (∀ (s : State) (p : Nat) (f : Frame), tickSrc s = 2 → s.hears p f = true → f.ftype = 6 → 3 ≤ s.stage → s.safe = 0 →
    s.tk.started = true → within100 (f.time + extOffset s) s.tk.nextTick = true → s.tk.stopped = false →
    (p ≠ s.regFld ftSrc 2 1 → exec (.tickFrame p f) s = .next s) ∧
    (p = s.regFld ftSrc 2 1 → BitVec.ofNat 64 (leNat f.data) = nextFrameNumber s → ∃ u, exec (.tickFrame p f) s = .next u ∧
      u.tk.nextTick = (f.time + extOffset s).toNat ∧ u.tk.extPlaced = true ∧ u = { s with tk := u.tk, regs := u.regs } ∧
      s.sameRegs u [ftStatus]) ∧
    (p = s.regFld ftSrc 2 1 → BitVec.ofNat 64 (leNat f.data) ≠ nextFrameNumber s → ∃ u, exec (.tickFrame p f) s = .next u ∧
      u.regBit ftSticky 2 = true ∧ u.tk.stopped = true ∧ u.tk.nextTick = s.tk.nextTick))

/-- FNSYNC and FNSYNC_BROADCAST (R50, R298, R416): an FNSYNC packet that its link accepts gives a module that is not locked the frame
number of its next tick, and a module that is locked and not stopped takes none; the master's number goes down its tree, one
packet for each downstream link. -/
def Obligations.FrameNumbersAreSynchronised : Prop :=
  (∀ (s : State) (i : Nat) (p : Packet) (cw : Codeword) (tr : TickTree), s.linkUp i = true → rxGood p cw = true → p.lseq < 65536 →
    p.lseq = (s.link i).lseqRx → p.ptype = 7 → packetBad p = false → p.fnsync ≠ fnsyncRequest → treeFrom s i = some tr →
    tr.primary = some i → tickSrc s = 0 → locked s = false → tr.down = [] →
    ∃ u, exec (.fnsync i p cw) s = .next u ∧ u.tk.pendingFn = some p.fnsync ∧ u.tk.fn = s.tk.fn ∧ u.tk.waitFirst = false) ∧
  (∀ (s : State) (i : Nat) (p : Packet) (cw : Codeword) (tr : TickTree), s.linkUp i = true → rxGood p cw = true → p.lseq < 65536 →
    p.lseq = (s.link i).lseqRx → p.ptype = 7 → packetBad p = false → p.fnsync ≠ fnsyncRequest → treeFrom s i = some tr →
    tr.primary = some i → locked s = true → s.tk.stopped = false → tr.down = [] →
    ∃ u, exec (.fnsync i p cw) s = .next u ∧ u.tk = s.tk) ∧
  (∀ (s : State) (k : Nat) (tr : TickTree), s.tk.started = true → masterRank s = some k → treeOf s k = some tr →
    exec .fnsyncBroadcast s = .next
      { forEach tr.down (fun i u => if u.linkUp i then
          enqueue i { ptype := 7, dst := ((u.link i).peer.map (·.mid)).getD 0, src := u.moduleId, ftag := u.ftag,
                      fnsync := nextFrameNumber s } u else u) s with pending := s.pending })

/-! ### Frame programs -/

/-- NOP, END, WAIT and SIGNAL (R199, R205, R273, Table 8.2): with its reserved bits zero, NOP completes at issue and END ends the
frame program; each takes the count of its header wait and signals if SIG_EN is set. Where the code range holds a reserved opcode
at the sequencer's position, the attempt refuses it (R198, R201): it signals and stages an event. A WAIT whose pairs are all satisfied, its
header count taken, takes every count and completes, and otherwise keeps its place; a SIGNAL sends one message for each used
target, all on dies 0 to 11. Each message passes through the core's injection queue, and nothing else changes. -/
def Obligations.NopEndWaitAndSignalComplete : Prop :=
  ((∀ (s : State) (core : Nat) (body : BitVec 248), reservedHere s core = none → canIssue s core (fullWord 0x00 body) = true →
      anySet (fullWord 0x00 body) (hdrReserved ++ [(64, 192)]) = false →
      ∃ t, exec (.nop core body) s = .next t ∧ s.onlyCore t core (signalOf core (fullWord 0x00 body)) ∧
        Core.passed ((s.core core).wentOn (headerPairs s core (fullWord 0x00 body))) (t.core core) 24) ∧
    (∀ (s : State) (core : Nat) (body : BitVec 248) (v : BitVec 256), reservedHere s core = some v → canIssue s core v = true →
      s.fx.cur.events.length < 64 →
      ∃ t, exec (.nop core body) s = .next t ∧ (t.core core).pos = (s.core core).pos + 1 ∧ t.flight = s.flight ++ signalOf core v ∧
        t.fx.cur.events = s.fx.cur.events ++ [refusalEvent s core (s.core core).pos (iOp v)] ∧ s.sameBytes t ∧ s.sameRegs t (signalRegs core v)) ∧
    ∀ (s : State) (core : Nat) (body : BitVec 248), canIssue s core (fullWord 0x01 body) = true →
      anySet (fullWord 0x01 body) (hdrReserved ++ [(64, 192)]) = false →
      ∃ t, exec (.endProg core body) s = .next t ∧ s.onlyCore t core (signalOf core (fullWord 0x01 body)) ∧
        Core.passed { (s.core core).wentOn (headerPairs s core (fullWord 0x01 body)) with ended := true } (t.core core) 24) ∧
  ((∀ (s : State) (core : Nat) (body : BitVec 248), canIssue s core (fullWord 0x02 body) = true →
      anySet (fullWord 0x02 body) (hdrReserved ++ waitReserved) = false →
      pairsMet ((s.core core).took (headerPairs s core (fullWord 0x02 body))) (waitPairs (fullWord 0x02 body)) = true →
      ∃ t, exec (.wait core body) s = .next t ∧ s.onlyCore t core (signalOf core (fullWord 0x02 body)) ∧
        Core.passed ((s.core core).wentOn (headerPairs s core (fullWord 0x02 body) ++ waitPairs (fullWord 0x02 body))) (t.core core) 24) ∧
    (∀ (s : State) (core : Nat) (body : BitVec 248), canIssue s core (fullWord 0x02 body) = true →
      anySet (fullWord 0x02 body) (hdrReserved ++ waitReserved) = false →
      pairsMet ((s.core core).took (headerPairs s core (fullWord 0x02 body))) (waitPairs (fullWord 0x02 body)) = false →
      ∃ t, exec (.wait core body) s = .next t ∧ s.onlyCore t core [] ∧ (t.core core).pos = (s.core core).pos ∧
        (t.core core).ops = (s.core core).ops ∧ (t.core core).tokens = ((s.core core).took (headerPairs s core (fullWord 0x02 body))).tokens) ∧
    ∀ (s : State) (core : Nat) (body : BitVec 248), canIssue s core (fullWord 0x03 body) = true →
      anySet (fullWord 0x03 body) (hdrReserved ++ signalReserved) = false →
      (∀ m ∈ signalTargets core (fullWord 0x03 body), m.1 < 768) →
      ∃ t, exec (.signal core body) s = .next t ∧
        s.onlyCore t core (signalTargets core (fullWord 0x03 body) ++ signalOf core (fullWord 0x03 body)) ∧
        Core.passed ((s.core core).wentOn (headerPairs s core (fullWord 0x03 body))) (t.core core) 24)

/-- FENCE (R206, R154): it completes once every instruction of the classes in its mask has completed; the gather buffer is
flushed, and with SEG_EN set its segment map is in force. Until then the sequencer stays. -/
def Obligations.FenceOrdersTheProgram : Prop :=
  (∀ (s : State) (core : Nat) (body : BitVec 248), canIssue s core (fullWord 0x04 body) = true →
    anySet (fullWord 0x04 body) (hdrReserved ++ [(69, 3), (79, 177)]) = false →
    fenceMet (s.core core) (fld (fullWord 0x04 body) 64 5) = true → (s.core core).gather = [] →
    ∃ t, exec (.fence core body) s = .next t ∧
      s.onlyCore t core (signalOf core (fullWord 0x04 body)) (if bit (fullWord 0x04 body) 72 then [spA core 0x1C] else []) ∧
      Core.passed ((s.core core).wentOn (headerPairs s core (fullWord 0x04 body))) (t.core core) 24 ∧
      (bit (fullWord 0x04 body) 72 = true → t.seg core = fld (fullWord 0x04 body) 73 6)) ∧
  (∀ (s : State) (core : Nat) (body : BitVec 248), canIssue s core (fullWord 0x04 body) = true →
    anySet (fullWord 0x04 body) (hdrReserved ++ [(69, 3), (79, 177)]) = false →
    fenceMet (s.core core) (fld (fullWord 0x04 body) 64 5) = true →
    ∃ t, exec (.fence core body) s = .next t ∧ (t.core core).gather = [] ∧ (t.core core).pos = (s.core core).pos + 1) ∧
  ∀ (s : State) (core : Nat) (body : BitVec 248), canIssue s core (fullWord 0x04 body) = true →
    anySet (fullWord 0x04 body) (hdrReserved ++ [(69, 3), (79, 177)]) = false →
    fenceMet (s.core core) (fld (fullWord 0x04 body) 64 5) = false →
    ∃ t, exec (.fence core body) s = .next t ∧ s.onlyCore t core [] ∧ (t.core core).pos = (s.core core).pos ∧
      (t.core core).ops = (s.core core).ops

/-- WIN_OPEN and WIN_CLOSE (R216, R307): the change of the window waits for the next tick, in seq order; a WIN_OPEN whose
range is not wholly in HBM or wholly in the owner's scratchpad, in multiples of 256 bytes, is refused at issue (R198): it
completes and signals, changes no window, and stages an event of KIND 6 for the running frame. -/
def Obligations.WindowsChangeAtTheNextTick : Prop :=
  (∀ (s : State) (core : Nat) (body : BitVec 248), canIssue s core (fullWord 0x0C body) = true →
    anySet (fullWord 0x0C body) (hdrReserved ++ [(160, 96)]) = false →
    windowOk s core (fld (fullWord 0x0C body) 70 48) (fld (fullWord 0x0C body) 118 40) = true →
    ∃ t, exec (.winOpen core body) s = .next t ∧ s.onlyCore t core (signalOf core (fullWord 0x0C body)) ∧
      Core.passed { (s.core core).wentOn (headerPairs s core (fullWord 0x0C body)) with
        winPend := (s.core core).winPend ++ [⟨fld (fullWord 0x0C body) 64 6,
          some ⟨fld (fullWord 0x0C body) 70 48, fld (fullWord 0x0C body) 118 40, fld (fullWord 0x0C body) 158 2⟩⟩] } (t.core core) 24) ∧
  (∀ (s : State) (core : Nat) (body : BitVec 248), canIssue s core (fullWord 0x0C body) = true →
    windowOk s core (fld (fullWord 0x0C body) 70 48) (fld (fullWord 0x0C body) 118 40) = false → s.fx.cur.events.length < 64 →
    ∃ t, exec (.winOpen core body) s = .next t ∧ (t.core core).winPend = (s.core core).winPend ∧
      (t.core core).pos = (s.core core).pos + 1 ∧ t.flight = s.flight ++ signalOf core (fullWord 0x0C body) ∧
      t.fx.cur.events = s.fx.cur.events ++ [refusalEvent s core (s.core core).pos 0x0C] ∧ s.sameBytes t ∧
      s.sameRegs t (signalRegs core (fullWord 0x0C body))) ∧
  ∀ (s : State) (core : Nat) (body : BitVec 248), canIssue s core (fullWord 0x0D body) = true →
    anySet (fullWord 0x0D body) (hdrReserved ++ [(70, 186)]) = false →
    ∃ t, exec (.winClose core body) s = .next t ∧ s.onlyCore t core (signalOf core (fullWord 0x0D body)) ∧
      Core.passed { (s.core core).wentOn (headerPairs s core (fullWord 0x0D body)) with
        winPend := (s.core core).winPend ++ [{ win := fld (fullWord 0x0D body) 64 6, w := none }] } (t.core core) 24

/-- TOKEN_MESSAGE_ARRIVAL and WDOG_TRIP (R271, R273, R276): the messages that arrive together pass the core's ejection queue, their
counts are added at once, and the counter holds at 65,535; without an overflow nothing else changes, and with one TOK_OVF is set
and counted. With no message for the counter on its way nothing happens. A wait that goes
on, with a limit set, trips once: the flag, the count and, if the flag was clear, the lowest token awaited are recorded, the frame
has a detected fault, and the wait itself goes on. -/
def Obligations.TokensSaturateAndWaitsTrip : Prop :=
  ((∀ (s : State) (core tok n : Nat), (takeFlight core tok n s.flight).2.length < s.flight.length →
      SMap.get (fun _ => 0) s.err.tokFlip core = 0 → (s.core core).token tok + (takeFlight core tok n s.flight).1 ≤ 65535 →
      ∃ t, exec (.tokenMessageArrival core tok n) s = .next t ∧ t.flight = (takeFlight core tok n s.flight).2 ∧
        Core.passed ((s.core core).setToken tok ((s.core core).token tok + (takeFlight core tok n s.flight).1)) (t.core core) 25 ∧
        (∀ j, j ≠ core → t.core j = s.core j) ∧ s.passedQueue t core 25 [] ∧
        t = { s with cores := t.cores, flight := t.flight, out := t.out, regs := t.regs, port := t.port, svc := t.svc } ∧
        (s.regFld (coreQA core 25 0) 0 10 = 0 → t.out = s.out)) ∧
    (∀ (s : State) (core tok n : Nat), (takeFlight core tok n s.flight).2.length = s.flight.length →
      exec (.tokenMessageArrival core tok n) s = .next s) ∧
    (∀ (s : State) (core tok n : Nat), (takeFlight core tok n s.flight).2.length < s.flight.length →
      SMap.get (fun _ => 0) s.err.tokFlip core = 0 → 65535 < (s.core core).token tok + (takeFlight core tok n s.flight).1 →
      ∃ t, exec (.tokenMessageArrival core tok n) s = .next t ∧ (t.core core).token tok = 65535 ∧ t.regBit (tkA core 0) 0 = true ∧
        t.flight = (takeFlight core tok n s.flight).2 ∧ s.sameBytes t ∧
        s.passedQueue t core 25 [tkA core 0, tkA core 4, tkA core 8] ∧
        (s.regBit (tkA core 0) 0 = false → t.regFld (tkA core 8) 0 10 = tok % 1024)) ∧
    ∀ (core tok n : Nat) (l : List (Nat × Nat × Nat)), ∃ took : List (Nat × Nat × Nat),
      took.length ≤ n ∧ (∀ m ∈ took, m.1 = core ∧ m.2.1 = tok) ∧ (takeFlight core tok n l).1 = sumN (took.map (·.2.2)) ∧
      ((takeFlight core tok n l).2 ++ took).Perm l) ∧
  ((∀ (s : State) (core tok : Nat) (w : Waiting), core < 768 → (s.core core).waiting = some w → w.tripped = false →
      s.regFld (tkA core 0xC) 0 16 ≠ 0 → lowestUnmet (s.core core) w.pairs = some tok →
      ∃ t, exec (.wdogTrip core) s = .next t ∧ t.regBit (tkA core 0) 1 = true ∧ t.fx.cur.fault = true ∧
        (t.core core).waiting = some { w with tripped := true } ∧ (t.core core).pos = (s.core core).pos ∧
        (t.core core).tokens = (s.core core).tokens ∧ s.sameBytes t ∧
        (s.regBit (tkA core 0) 1 = false → t.regFld (tkA core 8) 16 10 = tok % 1024)) ∧
    ∀ (s : State) (core : Nat), s.regFld (tkA core 0xC) 0 16 = 0 → exec (.wdogTrip core) s = .next s)

/-! ### Registers and the service port -/

/-- REGISTER_WRITE (R12, R14, R15, R428, Table 0.3): on every path, a write to a plain register gives its RW fields the value,
clears the W1C bits written with 1 and leaves every other bit; beside it only the counters of the cleared sticky bits and the
status change. A write to an address that is no register, or that is not aligned, or of a register whose core or die is not
offered, has no effect but its status. A word of a macro window is no register: under an image its write is refused with
OP_REFUSED (R81). -/
def Obligations.RegisterWritesFollowTheirFields : Prop :=
  (∀ (s : State) (p : Path) (a : Nat) (v : Word), s.safeStatus = none → windowCore s a = none → accessStatus s a = stOK →
    (s.active = true → lockedReg a = false) → badValue s a v = false →
    a ∉ [clEn, clId, biCtrl, biDebug, ftSrc] → isPeak (a + 8) = false →
    ∃ t, exec (.registerWrite p a v) s = .next t ∧
      (∀ i, i < 32 → t.regBit a i = if bit (w1cMask a) i && bit v i then false else if bit (rwMask a) i then bit v i else s.regBit a i) ∧
      t = { s with regs := t.regs, out := .regStatus p stOK :: s.out } ∧
      s.sameRegs t (a :: (countersOf a).map (·.2.1))) ∧
  (∀ (s : State) (p : Path) (a : Nat) (v : Word), s.safeStatus = none → windowCore s a = none → (a % 4 ≠ 0 ∨ regAt a = .none) →
    exec (.registerWrite p a v) s = .next { s with out := .regStatus p stProgramError :: s.out }) ∧
  (∀ (s : State) (p : Path) (a core blk r : Nat) (v : Word), s.safeStatus = none → windowCore s a = none → a % 4 = 0 → regAt a = .core core blk r →
    (dieHeldNow s (core / 64) = true ∨ s.coreOffered core = false) →
    exec (.registerWrite p a v) s = .next { s with out := .regStatus p stCapacityLowered :: s.out }) ∧
  (∀ (s : State) (p : Path) (a core : Nat) (v : Word), s.safeStatus = none → windowCore s a = some core → s.active = true →
    exec (.registerWrite p a v) s = .next ((s.setBit (mcA core 4) 10).send (.regStatus p stProgramError))) ∧
  ∀ (s : State) (p : Path) (a : Nat) (v : Word), s.safeStatus = none → windowCore s a = none → accessStatus s a = stOK →
    ((s.active = true ∧ lockedReg a = true) ∨ badValue s a v = true) →
    exec (.registerWrite p a v) s = .next { s with out := .regStatus p stProgramError :: s.out }

/-- LOW_WORD_READ (R13, R427): a read of the low word of a 64-bit quantity latches its high word for its own path alone; the
next read of that high word on the path returns what was latched; a read of the high word whose path has no latch of the same
register returns the live high word. Of the stored registers none changes. -/
def Obligations.LowWordReadLatchesTheHighWord : Prop :=
  (∀ (s : State) (p : Path) (a : Nat), accessStatus s a = stOK → isLow64 a = true → (∀ l, s.latch p = some l → l.addr + 4 ≠ a) →
    ∃ t, exec (.lowWordRead p a) s = .next t ∧ t.out = .regValue p (regValue s a) stOK :: s.out ∧
      t.latch p = some { addr := a, v := regValue s (a + 4) } ∧ (∀ q, q ≠ p → t.latch q = s.latch q) ∧
      t = { s with port := { s.port with latch0 := t.port.latch0, latch1 := t.port.latch1 },
                   svc := { s.svc with latch := t.svc.latch }, fx := { s.fx with keys := t.fx.keys }, out := t.out }) ∧
  (∀ (s : State) (p : Path) (a : Nat) (v : Word), accessStatus s (a + 4) = stOK → isLow64 a = true →
    s.latch p = some { addr := a, v := v } →
    ∃ t, exec (.lowWordRead p (a + 4)) s = .next t ∧ t.out = .regValue p v stOK :: s.out ∧
      (∀ q, q ≠ p → t.latch q = s.latch q) ∧ s.sameRegs t []) ∧
  (∀ (s : State) (p : Path) (a : Nat), accessStatus s (a + 4) = stOK → isLow64 a = true →
    (∀ l, s.latch p = some l → l.addr ≠ a) →
    ∃ t, exec (.lowWordRead p (a + 4)) s = .next t ∧ t.out = .regValue p (regValue s (a + 4)) stOK :: s.out ∧
      (∀ q, q ≠ p → t.latch q = s.latch q) ∧ s.sameRegs t []) ∧
  ∀ (s : State) (p : Path) (a : Nat), a % 4 ≠ 0 → logEntryAt a = none →
    exec (.lowWordRead p a) s = .next { s with out := .regValue p (regValue s a) stProgramError :: s.out }

/-- TK_Q_PEAK_READ and FLUSH (R284, R285): the read returns PEAK and leaves it at the present depth; a flush of hub queue 0 or
1 empties it, and one of a core queue, while no image is active, clears its depth; LVL_HIT and OVF stay. -/
def Obligations.PeakReadsAndFlushes : Prop :=
  (∀ (s : State) (p : Path) (q : Nat), q < 34 → ∃ t, exec (.tkQPeakRead p true 0 q) s = .next t ∧
    t.out = .regValue p (s.reg (hubQA q 8)) stOK :: s.out ∧ t.regFld (hubQA q 8) 0 9 = s.regFld (hubQA q 4) 0 9 ∧
    t = { s with regs := t.regs, out := t.out } ∧ s.sameRegs t [hubQA q 8]) ∧
  (∀ (s : State) (p : Path) (core q : Nat), core < 768 → q < 26 → dieHeldNow s (core / 64) = false → s.coreOffered core = true →
    ∃ t, exec (.tkQPeakRead p false core q) s = .next t ∧ t.out = .regValue p (s.reg (coreQA core q 8)) stOK :: s.out ∧
    t.regFld (coreQA core q 8) 0 9 = s.regFld (coreQA core q 4) 0 9 ∧ t = { s with regs := t.regs, out := t.out } ∧
    s.sameRegs t [coreQA core q 8]) ∧
  (∀ (s : State) (core q : Nat), q < 2 → ∃ t, exec (.flush true core q) s = .next t ∧
    t.port = (if q = 0 then { s.port with fifo := [] } else { s.port with events := [] }) ∧ t.regFld (hubQA q 4) 0 9 = 0 ∧
    t.regBit (hubQA q 4) 16 = s.regBit (hubQA q 4) 16 ∧ t.regBit (hubQA q 4) 18 = s.regBit (hubQA q 4) 18 ∧
    t = { s with port := t.port, regs := t.regs } ∧ s.sameRegs t [hubQA q 4]) ∧
  (∀ (s : State) (core q : Nat), s.active = false → ∃ t, exec (.flush false core q) s = .next t ∧
    t.regFld (coreQA core q 4) 0 9 = 0 ∧ t.regBit (coreQA core q 4) 16 = s.regBit (coreQA core q 4) 16 ∧
    t.core core = { s.core core with queues := (t.core core).queues } ∧ (t.core core).queue q = [] ∧
    (∀ n, n ≠ q → (t.core core).queue n = (s.core core).queue n) ∧ (∀ j, j ≠ core → t.core j = s.core j) ∧
    t = { s with regs := t.regs, cores := t.cores } ∧ s.sameRegs t [coreQA core q 4]) ∧
  ∀ (s : State) (core q : Nat), s.active = true → exec (.flush false core q) s = .next s

/-- CL_ID_WRITE and CL_EN_WRITE (R296, R294): with CL_EN zero and no image active, a write of CL_ID sets MODULE_ID and VALID;
with no image active a write of CL_EN puts each link whose bit is clear DOWN and each enabled DOWN link, once the module has an
ID, into TRAINING, where it sends its TRAIN block; a RETIRED link stays. Otherwise nothing changes. -/
def Obligations.LinkEnablesAndTheModuleId : Prop :=
  (∀ (s : State) (v : Word), s.active = false → s.reg clEn = 0 → ∃ t, exec (.clIdWrite v) s = .next t ∧
    t.moduleId = (v &&& 0x3FFF).toNat ∧ t.idValid = true ∧ t = { s with regs := t.regs } ∧ s.sameRegs t [clId]) ∧
  (∀ (s : State) (v : Word), (s.active = true ∨ s.reg clEn ≠ 0) → exec (.clIdWrite v) s = .next s) ∧
  (∀ (s : State) (v : Word), s.active = true → exec (.clEnWrite v) s = .next s) ∧
  ∀ (s : State) (v : Word), s.active = false → ∃ t, exec (.clEnWrite v) s = .next t ∧ t.reg clEn = v ∧
    (∀ i, i < 32 → (s.linkState i ≠ 5 → bit v i = false → t.linkState i = 0) ∧
      ((s.linkState i = 0 ∨ s.linkState i = 4 ∧ s.regBit clEn i = false) → bit v i = true → s.idValid = true →
        t.linkState i = 1 ∧ (t.link i).lseqTx = 0 ∧ (t.link i).replay = [] ∧
        Out.block i (trainWord (s.regFld secIdent 8 12) (s.regFld secIdent 0 8) s.moduleId i) ∈ t.out) ∧
      (s.linkState i = 5 → t.linkState i = 5) ∧ (bit v i = true → s.idValid = false → t.linkState i = s.linkState i) ∧
      (s.linkState i ≠ 0 → s.linkState i ≠ 4 → bit v i = true → t.linkState i = s.linkState i)) ∧
    t = { s with regs := t.regs, links := t.links, out := t.out, port := t.port, svc := t.svc,
                 img := { s.img with capFn := t.img.capFn }, fx := { s.fx with capHalt := t.fx.capHalt } } ∧
    s.sameRegs t (clEn :: fxCapSum :: eventRegs ++ (List.range 32).flatMap fun i => [linkA i 0, linkA i 0xC, linkA i 0x14])

/-- The service port (R12, R436 to R439): a private write of 7 bytes with OP 0x01 is a read and leaves one result with its status and
value; one of 11 bytes with OP 0x02 is a write, acts at once and leaves its status; any other leaves PROGRAM_ERROR and nothing
else; each discards a result that has not been read; a private read returns the result, status first and the value
little-endian, and after the fifth byte the result is cleared. A target address is taken; an interrupt that lost
arbitration is raised once more. -/
def Obligations.ServicePortKeepsOneResult : Prop :=
  (∀ (s : State) (a : Nat), a < 2 ^ 48 → s.pwr.input = 2 → (∀ l, s.svc.latch = some l → l.addr + 4 ≠ a) →
    ∃ t, exec (.readRequest (0x01 :: leBytes a 6)) s = .next t ∧
    t.svc.result = some (accessStatus s a, regValue s a) ∧ s.sameBytes t ∧ (isPeak a = false → s.sameRegs t []) ∧ t.out = s.out) ∧
  (∀ (s : State) (a : Nat) (v : Word), a < 2 ^ 48 → s.pwr.input = 2 →
    ∃ t, exec (.writeRequest (0x02 :: leBytes a 6 ++ leBytes v.toNat 4)) s = .next t ∧
    t.svc.result = some ((writeReg a v s).2, 0) ∧
    t = { (writeReg a v s).1 with svc := { (writeReg a v s).1.svc with result := t.svc.result }, pending := s.pending }) ∧
  (∀ (s : State) (l : List Byte), s.pwr.input = 2 → ¬(l.length = 7 ∧ l.head? = some 0x01) → ¬(l.length = 11 ∧ l.head? = some 0x02) →
    exec (.readRequest l) s = .next { s with svc := { s.svc with result := some (6, 0) } } ∧
    exec (.writeRequest l) s = .next { s with svc := { s.svc with result := some (6, 0) } }) ∧
  (∀ (s : State) (n st : Nat) (v : Word), s.pwr.input = 2 → s.svc.result = some (st, v) → st < 256 →
    exec (.resultRead n) s = .next { s with
      out := .serviceResult (([BitVec.ofNat 8 st] ++ leBytes v.toNat 4).take n) :: s.out,
      svc := { s.svc with result := if 5 ≤ n then none else some (st, v) } }) ∧
  (∀ (s : State) (n : Nat), s.pwr.input = 2 → s.svc.result = none →
    exec (.resultRead n) s = .next { s with out := .serviceResult ([6, 0, 0, 0, 0].take n) :: s.out }) ∧
  (∀ (s : State) (a : Nat), s.pwr.input = 2 → a < 128 →
    exec (.dynamicAddressAssignment false a) s = .next { s with svc := { s.svc with dynAddr := some a } } ∧
    ∃ id, id.setWidth 32 = s.reg secSerial ∧ exec (.dynamicAddressAssignment true a) s = .next { s with
      svc := { s.svc with dynAddr := some a }, out := .serviceIdentity id 0x06 0x00 :: s.out }) ∧
  ∀ s : State, exec .inBandInterruptRetry s = .next (if s.svc.ibiPending then
    { s with out := .inBandInterrupt :: s.out, svc := { s.svc with ibiPending := false } } else s)

/-! ### Chipra -/

/-- WR and WR_ACK (R298, R308 to R311, R325, R334): a write that arrives in order in its own frame, inside an open window, at bytes of
one ping-pong unit that the frame before did not write, lands in the side that is not current: its bytes are written there, the
rest of the unit keeps what the frame wrote or is copied from the current side, no other byte changes, and it is answered
with WR_ACK 0. One of another frame changes no byte and sets STALE; one that meets a frame run quiet for want of a result changes
no byte and sets TARGET_REFUSED (log entry 127). The acknowledgement of a SEND's packet lowers the count of those outstanding. -/
def Obligations.RemoteWritesLandInTheNextVersion : Prop :=
  (∀ (s : State) (i : Nat) (p : Packet) (cw : Codeword) (u : UnitAt), Mem.wf s.hbm = true → s.linkUp i = true → rxGood p cw = true →
    p.lseq < 65536 → p.lseq = (s.link i).lseqRx →
    nextHop s 0 p.dst = .here → p.ptype = 1 → packetBad p = false → p.ftag = s.ftag → s.fx.cur.inPlace = false →
    (findWindow s p.addr p.data.length 0).isSome = true → u.ofs % 4096 + p.data.length ≤ 4096 →
    (∀ j, j < p.data.length → localAddr s (p.addr + j) = .hbm (p.addr + j) ∧ s.unitAt (p.addr + j) = some { u with ofs := u.ofs + j } ∧
      unitLocked s (p.addr + j) = false) → (prevUnits s).contains u.key = false → nextHop s 0 p.src ≠ .here →
    ∃ t, exec (.wr i p cw) s = .next t ∧ (t.link i).lseqRx = (p.lseq + 1) % 65536 ∧
      (∀ j, j < p.data.length → Mem.get t.hbm ((u.addr (!s.sideOf u.key)) + j) = nth 0 p.data j) ∧
      (∀ x, x < 4096 → (x < u.ofs % 4096 ∨ u.ofs % 4096 + p.data.length ≤ x) →
        Mem.get t.hbm ({ u with ofs := u.ofs / 4096 * 4096 + x }.addr (!s.sideOf u.key)) =
          if s.fx.cur.units.contains u.key then Mem.get s.hbm ({ u with ofs := u.ofs / 4096 * 4096 + x }.addr (!s.sideOf u.key))
          else Mem.get s.hbm ({ u with ofs := u.ofs / 4096 * 4096 + x }.addr (s.sideOf u.key))) ∧
      (∀ a, (∀ x, x < 4096 → a ≠ { u with ofs := u.ofs / 4096 * 4096 + x }.addr (!s.sideOf u.key)) →
        Mem.get t.hbm a = Mem.get s.hbm a) ∧
      t.fx.cur.units.contains u.key = true ∧
      (∀ k, nextHop s 0 p.src = .link k → (s.link k).waiting = [] → (s.link k).backlog = [] → (s.link k).part = 0 →
        (s.link k).swap = none → (s.link k).canSend (ackOf s p 0) = true →
        ∃ q, Out.packet k q ∈ t.out ∧ q.ptype = 2 ∧ q.ackSt = 0 ∧ q.xid = p.xid ∧ q.dst = p.src ∧ q.ftag = p.ftag ∧
          q.crc = packetCrc q) ∧
      t.spad = s.spad ∧ t.mac = s.mac ∧ t.scale = s.scale ∧ t.cores = s.cores) ∧
  (∀ (s : State) (i : Nat) (p : Packet) (cw : Codeword), s.linkUp i = true → rxGood p cw = true → p.lseq < 65536 →
    p.lseq = (s.link i).lseqRx → nextHop s 0 p.dst = .here → p.ptype = 1 → packetBad p = false →
    (p.ftag ≠ s.ftag → ∃ t, exec (.wr i p cw) s = .next t ∧ t.regBit clSticky 2 = true ∧ s.sameBytes t) ∧
    (p.ftag = s.ftag → s.fx.cur.inPlace = true →
      ∃ t, exec (.wr i p cw) s = .next t ∧ t.regBit clSticky 4 = true ∧ s.sameBytes t)) ∧
  ∀ (s : State) (i : Nat) (p : Packet) (cw : Codeword) (r : SendRec), s.linkUp i = true → rxGood p cw = true → p.lseq < 65536 →
    p.lseq = (s.link i).lseqRx → nextHop s 0 p.dst = .here → p.ptype = 2 → packetBad p = false → p.ackSt = 0 →
    (s.chip.sends.find? fun x => x.xid = p.xid) = some r →
    ∃ t, exec (.wrAck i p cw) s = .next t ∧
      t.chip.sends = (if r.left ≤ 1 then [] else [{ r with left := r.left - 1 }]) ++ s.chip.sends.filter (fun x => x.xid ≠ p.xid) ∧
      (∀ o, (s.core r.core).op r.seq = some o → (t.core r.core).op r.seq = some { o with acks := o.acks - 1 }) ∧
      t = { noteCodeword i cw s with chip := { s.chip with sends := t.chip.sends }, cores := t.cores, links := t.links, out := t.out } ∧
      (∀ j, j ≠ i → t.link j = s.link j) ∧ (∀ j, j ≠ r.core → t.core j = s.core j)

/-- RD_REQ and RD_RESP (R7, R98, R312, R345): a read inside an open window, or from the module to which an export is open, of bytes
that lie in HBM returns the current version with the block size of a marked region, and changes no byte; one that runs past what
the address map gives to one memory is refused with status 2 and no data (R17, R18). A response is accepted in order and kept with
its data; no frame program sends RD_REQ (R212), and nothing else of this model reads what is kept (log entry 45). -/
def Obligations.RemoteReadsReturnTheCurrentVersion : Prop :=
  (∀ (s : State) (i k : Nat) (p : Packet) (cw : Codeword), s.linkUp i = true → rxGood p cw = true → p.lseq < 65536 →
    p.lseq = (s.link i).lseqRx → nextHop s 0 p.dst = .here → p.ptype = 3 → packetBad p = false →
    (s.fx.exportPeer = some p.src ∨ p.ftag = s.ftag ∧ (findWindow s p.addr p.want 1).isSome = true) →
    nextHop s 0 p.src = .link k → (s.link k).waiting = [] → (s.link k).backlog = [] → (s.link k).part = 0 → (s.link k).swap = none →
    (∀ q : Packet, q.ptype = 4 → q.data.length ≤ p.want → (s.link k).canSend q = true) →
    ((∀ j, j < p.want → localAddr s (p.addr + j) = .hbm (p.addr + j) ∧ hbmBad s (hbmReadAddr s (p.addr + j)) = false) →
      ∃ t, exec (.rdReq i p cw) s = .next t ∧ s.sameBytes t ∧
        ∃ q, Out.packet k q ∈ t.out ∧ q.ptype = 4 ∧ q.ackSt = 0 ∧ q.dst = p.src ∧ q.xid = p.xid ∧ q.addr = p.addr ∧
          q.blk = (runBlk s p.addr p.want).getD 0 ∧ q.nonconf = (runBlk s p.addr p.want).any (· ≠ 1) ∧
          q.data = (rangeFrom p.addr p.want).map fun a => Mem.get s.hbm (hbmReadAddr s a)) ∧
    ((∃ j, j < p.want ∧ (localAddr s (p.addr + j) = .unmapped ∨ localAddr s (p.addr + j) = .register)) →
      ∃ t, exec (.rdReq i p cw) s = .next t ∧ s.sameBytes t ∧ t.regBit clSticky 4 = true ∧
        ∃ q, Out.packet k q ∈ t.out ∧ q.ptype = 4 ∧ q.ackSt = 2 ∧ q.dst = p.src ∧ q.data = [])) ∧
  ∀ (s : State) (i : Nat) (p : Packet) (cw : Codeword), s.linkUp i = true → s.linkOpen i = true → rxGood p cw = true → p.lseq < 65536 →
    p.lseq = (s.link i).lseqRx → nextHop s 0 p.dst = .here → p.ptype = 4 → packetBad p = false →
    ∃ t, exec (.rdResp i p cw) s = .next t ∧ (t.link i).lseqRx = (p.lseq + 1) % 65536 ∧ (∀ j, j ≠ i → t.link j = s.link j) ∧
      t.chip.responses = s.chip.responses ++ [p] ∧ s.sameBytes t ∧
      (p.ackSt < 3 → t.out = .block i (creditBlock (t.link i).rxFreed0 (t.link i).rxFreed1) :: .block i (ackBlock p.lseq) :: s.out ∧
        t = { noteCodeword i cw s with links := t.links, out := t.out, chip := t.chip }) ∧
      (3 ≤ p.ackSt → t.fx.cur.fault = true)

/-- SEIF (R311, R135, R137): an entry of a packet of the running frame that its reduction expects enters the root hub node where an
accumulator is free for it: one input more of its element, and its exact pair added to the sum; with none free it waits; a packet of
another frame is discarded. -/
def Obligations.SeifPacketsEnterTheHubNode : Prop :=
  (∀ (s : State) (i : Nat) (p : Packet) (cw : Codeword) (e : SeifEntry) (r : Reduction) (o : Op) (k : ElemKey), s.linkUp i = true →
    rxGood p cw = true → p.lseq < 65536 → p.lseq = (s.link i).lseqRx → nextHop s 1 p.dst = .here → p.ptype = 5 →
    packetBad p = false → p.entries = [e] → p.ftag = s.ftag → seifKey s p.addr e.elem = some (r, o, k) → iOp o.word ≠ 0x13 →
    f32Finite e.hi = true → f32Finite e.lo = true → hubExpects s r o.ext k.n ≤ 2 ^ 20 →
    (∀ a, s.hubNode.find k = some a → a.received < hubExpects s r o.ext k.n ∧ a.expected ≤ 2 ^ 20) →
    (((s.hubNode.find k).isSome = true ∨ s.hubNode.used < 8192) →
      ∃ t, exec (.seif i p cw) s = .next t ∧ (∃ a, t.hubNode.find k = some a ∧
        a.received = ((s.hubNode.find k).map (·.received)).getD 0 + 1 ∧
        sumI (a.segs.map (·.sum)) = ((s.hubNode.find k).map fun b => sumI (b.segs.map (·.sum))).getD 0 + pairInt e.hi e.lo) ∧
        (∀ j, j ≠ k → t.hubNode.find j = s.hubNode.find j) ∧
        t = { noteCodeword i cw s with hubNode := t.hubNode, links := t.links, out := t.out }) ∧
    ((s.hubNode.find k).isNone = true → 8192 ≤ s.hubNode.used →
      ∃ t, exec (.seif i p cw) s = .next t ∧ t.hubNode.accs = s.hubNode.accs ∧
        (∃ x, t.hubNode.waits = s.hubNode.waits ++ [x] ∧ x.key = k ∧ x.hi = e.hi ∧ x.lo = e.lo) ∧
        t = { noteCodeword i cw s with hubNode := t.hubNode, links := t.links, out := t.out })) ∧
  ∀ (s : State) (i : Nat) (p : Packet) (cw : Codeword), s.linkUp i = true → rxGood p cw = true → p.lseq < 65536 →
    p.lseq = (s.link i).lseqRx → nextHop s 1 p.dst = .here → p.ptype = 5 → packetBad p = false → p.ftag ≠ s.ftag →
    ∃ t, exec (.seif i p cw) s = .next t ∧ t.regBit clSticky 2 = true ∧ t.hubNode = s.hubNode ∧
      t = { s with regs := t.regs, links := t.links, out := t.out }

/-- The receiver of each packet type accepts the packet it expects next and only that (R298): a bad packet is discarded with a
NAK for the one expected, one already accepted is discarded, one that comes early is answered with a NAK, and on a link that
is not UP nothing arrives. What the FEC decoder says of the codeword is recorded each time (R292, R316): an uncorrectable one sets
FEC_UNCORR and is counted, one with corrected symbols is counted. -/
def Obligations.OnlyTheExpectedPacketIsAccepted : Prop :=
  (∀ (s : State) (i : Nat) (p : Packet) (late : Bool) (c : Codeword → Instr),
    c ∈ [Instr.wr i p, .wrAck i p, .rdReq i p, .rdResp i p, .seif i p, .voteResult i p, .resultQuery i p, .resultAnswer i p,
      .fnsync i p, fun cw => .vote i p cw late] →
    (s.linkUp i = true → s.linkOpen i = true → ∀ cw, rxGood p cw = false → ∃ t, exec (c cw) s = .next t ∧
      t = { noteCodeword i cw s with regs := t.regs, out := .block i (nakBlock (s.link i).lseqRx) :: s.out } ∧
      (cw.uncorr = false → t.regBit (linkA i 4) 1 = true ∧ (noteCodeword i cw s).sameRegs t [linkA i 4]) ∧
      (cw.uncorr = true → t.regs = (noteCodeword i cw s).regs)) ∧
    (s.linkUp i = true → ∀ cw n, rxGood p cw = true → 1 ≤ n → n ≤ 4096 → (s.link i).lseqRx < 65536 →
      p.lseq = ((s.link i).lseqRx + 65536 - n) % 65536 → exec (c cw) s = .next (noteCodeword i cw s)) ∧
    (s.linkUp i = true → s.linkOpen i = true → ∀ cw n, rxGood p cw = true → 4096 < n → n < 65536 → (s.link i).lseqRx < 65536 →
      p.lseq = ((s.link i).lseqRx + 65536 - n) % 65536 →
      exec (c cw) s = .next { noteCodeword i cw s with out := .block i (nakBlock (s.link i).lseqRx) :: s.out }) ∧
    (s.linkUp i = false → ∀ cw, exec (c cw) s = .next s)) ∧
  ∀ (s : State) (i : Nat) (cw : Codeword),
    (cw.uncorr = true → (noteCodeword i cw s).regBit (linkA i 4) 0 = true ∧
      (noteCodeword i cw s).regFld (linkA i 8) 0 16 = min (s.regFld (linkA i 8) 0 16 + 1) 0xFFFF) ∧
    (cw.uncorr = false → cw.errs ≠ [] → (noteCodeword i cw s).regFld (linkA i 0xC) 0 32 = min (s.regFld (linkA i 0xC) 0 32 + 1) 0xFFFFFFFF ∧
      s.sameRegs (noteCodeword i cw s) [linkA i 0xC, linkA i 0x14]) ∧
    noteCodeword i cw s = { s with links := (noteCodeword i cw s).links, regs := (noteCodeword i cw s).regs } ∧
    (∀ j, j ≠ i → (noteCodeword i cw s).link j = s.link j) ∧
    (noteCodeword i cw s).link i = { s.link i with codewords := ((noteCodeword i cw s).link i).codewords,
                                                   symErrs := ((noteCodeword i cw s).link i).symErrs }

/-- ACK, CREDIT and NAK (R298, R299, R300): an ACK takes the packets it covers out of the replay buffer, a CREDIT brings the counts of
the returned units up to date, and each lets waiting packets go in order; a NAK sends again every unacknowledged packet from
the one it names, counts each, for the link and for itself, and sets REPLAY. -/
def Obligations.AcknowledgementsCreditsAndReplays : Prop :=
  (∀ (s : State) (i lseq : Nat) (cw : Codeword), s.linkUp i = true → cw.uncorr = false → lseq < 65536 →
    ∃ t, exec (.ack i (ackBlock lseq) cw) s = .next t ∧
    (∃ sent, (t.link i).replay = ((s.link i).replay.filter fun p => !decide ((lseq + 65536 - p.lseq) % 65536 < 4096)) ++ sent ∧
      sent.length + (t.link i).waiting.length + (t.link i).backlog.length = (s.link i).waiting.length + (s.link i).backlog.length) ∧
    (∀ j, j ≠ i → t.link j = s.link j) ∧
    t = { s with links := t.links, regs := t.regs, out := t.out, port := t.port, svc := t.svc } ∧
    s.sameRegs t (linkA i 0xC :: linkA i 0x14 :: hubQA (2 + i) 4 :: hubQA (2 + i) 8 :: eventRegs)) ∧
  (∀ (s : State) (i c0 c1 : Nat) (cw : Codeword), s.linkUp i = true → cw.uncorr = false → 4096 ≤ (s.link i).freed0 →
    1024 ≤ (s.link i).freed1 →
    ∃ t, exec (.credit i (creditBlock c0 c1) cw) s = .next t ∧ ((t.link i).freed0 - 4096) % 65536 = c0 % 65536 ∧
    (s.link i).freed0 ≤ (t.link i).freed0 ∧ (t.link i).freed0 < (s.link i).freed0 + 65536 ∧
    ((t.link i).freed1 - 1024) % 65536 = c1 % 65536 ∧ (s.link i).freed1 ≤ (t.link i).freed1 ∧
    (t.link i).freed1 < (s.link i).freed1 + 65536 ∧
    (∃ sent, (t.link i).replay = (s.link i).replay ++ sent ∧
      sent.length + (t.link i).waiting.length + (t.link i).backlog.length = (s.link i).waiting.length + (s.link i).backlog.length) ∧
    (∀ j, j ≠ i → t.link j = s.link j) ∧
    t = { s with links := t.links, regs := t.regs, out := t.out, port := t.port, svc := t.svc } ∧
    s.sameRegs t (linkA i 0xC :: linkA i 0x14 :: hubQA (2 + i) 4 :: hubQA (2 + i) 8 :: eventRegs)) ∧
  ∀ (s : State) (i lseq : Nat) (cw : Codeword) (again : List Packet), s.linkUp i = true → (s.link i).swap = none → cw.uncorr = false →
    lseq < 65536 → again = (s.link i).replay.filter (fun p => decide ((p.lseq + 65536 - lseq % 65536) % 65536 < 4096)) → again ≠ [] →
    ∃ t, exec (.nak i (nakBlock lseq) cw) s = .next t ∧ t.out = (again.map fun p => Out.packet i p).reverse ++ s.out ∧
    t.link i = { (noteCodeword i cw s).link i with tries := (t.link i).tries } ∧
    (∀ n, SMap.get (fun _ => 0) (t.link i).tries n =
      SMap.get (fun _ => 0) (s.link i).tries n + (again.filter fun p => p.lseq = n).length) ∧ t.regBit (linkA i 4) 2 = true ∧
    t.regFld (linkA i 8) 16 16 = min (s.regFld (linkA i 8) 16 16 + again.length) 0xFFFF ∧
    t.regFld (linkA i 8) 0 16 = s.regFld (linkA i 8) 0 16 ∧ (∀ j, j ≠ i → t.link j = s.link j) ∧
    t = { s with links := t.links, regs := t.regs, out := t.out } ∧
    (noteCodeword i cw s).sameRegs t [linkA i 4, linkA i 8]

/-- LINK_DELAY_PROBE, PROBE and PROBE_ECHO (R45, R290, R297): a probe leaves with the timebase and is echoed with it and the
turnaround; the delay of the link is half the round trip without the peer's turnaround, to 65,535 units; one above 220 ns sets
DELAY_OVER and raises an event. -/
def Obligations.ProbesMeasureTheDelay : Prop :=
  (∀ (s : State) (i t0 : Nat), 1 ≤ s.linkState i → s.linkState i ≤ 3 → s.linkOpen i = true →
    ∃ t, exec (.linkDelayProbe i t0) s = .next t ∧
    t.link i = { s.link i with probe := some t0 } ∧ (∀ j, j ≠ i → t.link j = s.link j) ∧
    t = { s with links := t.links, out := .block i (probeBlock t0) :: s.out }) ∧
  (∀ (s : State) (i ts around : Nat) (cw : Codeword), 1 ≤ s.linkState i → s.linkState i ≤ 3 → s.linkOpen i = true → cw.uncorr = false →
    ts < 2 ^ 32 →
    exec (.probe i (probeBlock ts) cw around) s = .next { noteCodeword i cw s with out := .block i (echoBlock ts around) :: s.out }) ∧
  (∀ (s : State) (i t0 around d : Nat) (cw : Codeword), 1 ≤ s.linkState i → s.linkState i ≤ 3 → cw.uncorr = false → around < 65536 →
    (s.link i).probe = some t0 → d ≤ 1760 →
    ∃ t, exec (.probeEcho i (echoBlock t0 around) cw (t0 + around + 2 * d)) s = .next t ∧ t.reg (linkA i 0x10) = BitVec.ofNat 32 d ∧
    t.link i = { (noteCodeword i cw s).link i with probe := none } ∧ (∀ j, j ≠ i → t.link j = s.link j) ∧
    t = { s with links := t.links, regs := t.regs } ∧ (noteCodeword i cw s).sameRegs t [linkA i 0x10]) ∧
  ∀ (s : State) (i t0 around d : Nat) (cw : Codeword), 1 ≤ s.linkState i → s.linkState i ≤ 3 → cw.uncorr = false → around < 65536 →
    (s.link i).probe = some t0 → 1760 < d → d ≤ 65535 → i < 32 →
    ∃ t, exec (.probeEcho i (echoBlock t0 around) cw (t0 + around + 2 * d)) s = .next t ∧ t.reg (linkA i 0x10) = BitVec.ofNat 32 d ∧
    t.regBit (linkA i 4) 6 = true ∧ (s.port.events.length < 256 →
      ∃ e, t.port.events.getLast? = some e ∧ e.ev.kind = 0 ∧ e.ev.addr = linkA i 4 ∧ e.ev.bitIx = 6) ∧
    t = { s with links := t.links, regs := t.regs, port := t.port, svc := t.svc, out := t.out } ∧
    (noteCodeword i cw s).sameRegs t (linkA i 0x10 :: linkA i 4 :: eventRegs)

/-- LANE_FAILURE and LANE_SWAP (R285, R292, R293, R322): the first failed lane asks the peer for a swap; at the peer's
acknowledgement, or its request, the lane moves to lane 16, SPARE_USED and LANE_SPARED are set and traffic resumes; a second failure
retires the link for good and flushes its transmit queue, FLUSH_MID_ITEM telling of a packet partly pushed. -/
def Obligations.OneLaneIsSparedASecondRetiresTheLink : Prop :=
  (∀ (s : State) (i lane : Nat), 1 ≤ s.linkState i → s.linkState i ≤ 3 → lane < 16 → lane ∉ (s.link i).failed →
    s.regBit (linkA i 0) 3 = false → (s.link i).swap = none → 16 ∉ (s.link i).failed →
    ∃ t, exec (.laneFailure i lane) s = .next t ∧
    t.link i = { s.link i with failed := (s.link i).failed ++ [lane], swap := some lane } ∧
    (∀ j, j ≠ i → t.link j = s.link j) ∧ t = { s with links := t.links, out := .block i (swapBlock lane false) :: s.out }) ∧
  (∀ (s : State) (i lane : Nat), i < 32 → 1 ≤ s.linkState i → s.linkState i ≤ 3 → lane < 16 → lane ∉ (s.link i).failed →
    s.regBit (linkA i 0) 3 = true → ∃ t, exec (.laneFailure i lane) s = .next t ∧ t.linkState i = 5 ∧
    (t.link i).replay = [] ∧ (t.link i).waiting = [] ∧ (t.link i).backlog = [] ∧
    (0 < (s.link i).part → t.regBit (hubQA (2 + i) 4) 17 = true) ∧ t.isRetired 29480 i = true ∧ t.regBit (linkA i 4) 5 = true ∧
    (∀ j, j ≠ i → t.link j = s.link j) ∧ s.sameBytes t ∧ t.cores = s.cores ∧ t.tk = s.tk ∧ t.sec = s.sec) ∧
  (∀ (s : State) (i lane : Nat) (cw : Codeword), i < 32 → 1 ≤ s.linkState i → s.linkState i ≤ 3 → lane < 16 →
    s.regBit (linkA i 0) 3 = false → cw.uncorr = false →
    ∃ t, exec (.laneSwap i (swapBlock lane false) cw) s = .next t ∧ Out.block i (swapBlock lane true) ∈ t.out ∧
    t.regBit (linkA i 0) 3 = true ∧
    t.regFld (linkA i 0) 4 5 = lane ∧ t.regBit (linkA i 4) 3 = true ∧ t.linkState i = s.linkState i ∧
    (s.linkUp i = true → ∀ p ∈ (s.link i).replay, Out.packet i p ∈ t.out) ∧
    (∀ j, j ≠ i → t.link j = s.link j) ∧ s.sameBytes t ∧ t.cores = s.cores ∧ t.tk = s.tk ∧ t.sec = s.sec) ∧
  ∀ (s : State) (i lane : Nat) (cw : Codeword), i < 32 → 1 ≤ s.linkState i → s.linkState i ≤ 3 → lane < 16 →
    (s.link i).swap = some lane → cw.uncorr = false →
    ∃ t, exec (.laneSwap i (swapBlock lane true) cw) s = .next t ∧ t.regBit (linkA i 0) 3 = true ∧ t.regFld (linkA i 0) 4 5 = lane ∧
    t.regBit (linkA i 4) 3 = true ∧ (t.link i).swap = none ∧ t.isRetired 29412 (i * 17 + lane) = true ∧
    (s.linkUp i = true → ∀ p ∈ (s.link i).replay, Out.packet i p ∈ t.out) ∧
    (∀ j, j ≠ i → t.link j = s.link j) ∧ s.sameBytes t ∧ t.cores = s.cores ∧ t.tk = s.tk ∧ t.sec = s.sec

/-- TRAIN, LINK_TRAINING_DONE, LINK_FAILURE, RETRAIN_TIMEOUT and CABLE_SUPPLY_OFF (R294, R295, R300, R440): a peer of the right
PART, with an ID other than this module's and as the image expects, is recorded, and the link then comes UP; without signal, or
with a peer that is refused, it ends UNTRAINED with the reason; a link that fails retrains with its TRAIN block, and is retired
if that does not end in time; the loss of a cable's supply ends the link UNTRAINED without signal. -/
def Obligations.LinksTrainRetrainAndEnd : Prop :=
  (∀ (s : State) (i part step mid lnk : Nat) (cw : Codeword), s.linkState i = 1 → part < 4096 → step < 256 → mid < 2 ^ 14 → lnk < 32 →
    cw.uncorr = false → peerRefusal s i { part := part, step := step, mid := mid, lnk := lnk } = none →
    ∃ t, exec (.train i (trainWord part step mid lnk) cw) s = .next t ∧
    (t.link i).peer = some { part := part, step := step, mid := mid, lnk := lnk } ∧ t.regFld (linkA i 0) 14 14 = mid ∧
    t.regFld (linkA i 0) 9 5 = lnk ∧ t.linkState i = 1 ∧ t = { s with links := t.links, regs := t.regs } ∧
    (noteCodeword i cw s).sameRegs t [linkA i 0] ∧ ∀ j, j ≠ i → t.link j = s.link j) ∧
  (∀ (s : State) (i part step mid lnk : Nat) (cw : Codeword), i < 32 → s.linkState i = 1 → part < 4096 → part ≠ 0xD13 →
    cw.uncorr = false → ∃ t, exec (.train i (trainWord part step mid lnk) cw) s = .next t ∧
    t.linkState i = 4 ∧ t.regFld (linkA i 0) 28 4 = 3 ∧ (t.link i).peer = none ∧ s.sameBytes t) ∧
  (∀ (s : State) (i : Nat), i < 32 → (s.linkState i = 1 ∨ s.linkState i = 3) → (s.link i).peer ≠ none → (s.link i).cableOff = false →
    ∃ t, exec (.linkTrainingDone i .up) s = .next t ∧ t.linkState i = 2 ∧ (∀ p ∈ (s.link i).replay, Out.packet i p ∈ t.out) ∧
    (∀ j, j ≠ i → t.link j = s.link j) ∧ s.sameBytes t ∧ t.cores = s.cores ∧ t.tk = s.tk ∧ t.sec = s.sec) ∧
  (∀ (s : State) (i : Nat), i < 32 → s.linkState i = 1 → ∃ t, exec (.linkTrainingDone i .noSignal) s = .next t ∧ t.linkState i = 4 ∧
    t.regFld (linkA i 0) 28 4 = 1 ∧ t = { s with regs := t.regs } ∧ s.sameRegs t [linkA i 0]) ∧
  (∀ (s : State) (i : Nat) (c : LinkFault), i < 32 → s.linkUp i = true → (c = .resendLimit → resentOften (s.link i) = true) →
    ∃ t, exec (.linkFailure i c) s = .next t ∧ t.linkState i = 3 ∧ t.regBit (linkA i 4) 4 = true ∧
    (t.link i).replay = (s.link i).replay ∧ (t.link i).peer = none ∧ (t.link i).tries = [] ∧ trainBlock s i ∈ t.out ∧
    (∀ j, j ≠ i → t.link j = s.link j) ∧ s.sameBytes t ∧ t.cores = s.cores ∧ t.tk = s.tk ∧ t.sec = s.sec) ∧
  (∀ (s : State) (i : Nat), i < 32 → s.linkState i = 3 → ∃ t, exec (.retrainTimeout i) s = .next t ∧ t.linkState i = 5 ∧
    t.isRetired 29480 i = true ∧ (t.link i).replay = [] ∧ (∀ j, j ≠ i → t.link j = s.link j) ∧ s.sameBytes t ∧ t.cores = s.cores) ∧
  ∀ (s : State) (i : Nat), 12 ≤ i → i < 32 → 1 ≤ s.linkState i → s.linkState i ≤ 3 → ∃ t, exec (.cableSupplyOff i) s = .next t ∧
    t.linkState i = 4 ∧ t.regFld (linkA i 0) 28 4 = 1 ∧ (t.link i).cableOff = true ∧ (∀ j, j ≠ i → t.link j = s.link j) ∧
    s.sameBytes t ∧ t.cores = s.cores

/-! ### Moves and weights -/

/-- LOAD, STORE and SEND (R213, R180, R196): with operands in order and extents that are not zero, the move issues: it is in
flight with its extents as read, and its rows begin to move. A LOAD writes only scratchpad bytes of its own core that its
rows take, a STORE only HBM bytes that its rows take (or their unit's other side, R325), a SEND to another module neither;
no array changes. -/
def Obligations.MovesIssueAndWriteOnlyTheirRows : Prop :=
  (∀ (s : State) (core : Nat) (body : BitVec 248) (w : BitVec 256) (src dst : Opd) (e : Ext) (n : Nat), w = fullWord 0x08 body →
    src = opdOf s core (iTd0 w) → dst = opdOf s core (iTd1 w) → canIssueNew s core w = true → iB205 w = false →
    anySet w moveReserved = false → moveExtBad w = false → memRoleOk false [0, 1] memFmtOk src.d = true →
    memRoleOk true [0] memFmtOk dst.d = true → sameFormat src.d dst.d = true → outRndOk s dst.d = true →
    moveExtents s core w src.d = (e, n) →
    e.m ≠ 0 → e.n ≠ 0 → e.b ≠ 0 → moveExtentOk s (moveK s src dst) false src e.b e.m e.n = true →
    moveExtentOk s (moveK s src dst) true dst e.b e.m e.n = true →
    ∃ t, exec (.load core body) s = .next t ∧ s.issued t core w e [src, dst] ∧
      s.spadOutside t { core := core, task := some (iTask w), seg := s.seg core, cls := 5 } (dTag dst.d)
        (rowsTouch (moveK s src dst) true dst e.b e.m e.n) ∧
      t.hbm = s.hbm ∧ t.mac = s.mac ∧ t.scale = s.scale) ∧
  (∀ (s : State) (core : Nat) (body : BitVec 248) (w : BitVec 256) (src dst : Opd) (e : Ext) (n : Nat), w = fullWord 0x09 body →
    src = opdOf s core (iTd0 w) → dst = opdOf s core (iTd1 w) → canIssueNew s core w = true →
    anySet w (moveReserved ++ [(205, 1)]) = false → moveExtBad w = false → memRoleOk false [0] memFmtOk src.d = true →
    memRoleOk true [1] memFmtOk dst.d = true → sameFormat src.d dst.d = true → outRndOk s dst.d = true →
    moveExtents s core w src.d = (e, n) →
    e.m ≠ 0 → e.n ≠ 0 → e.b ≠ 0 → moveExtentOk s (moveK s src dst) false src e.b e.m e.n = true →
    moveExtentOk s (moveK s src dst) true dst e.b e.m e.n = true →
    ∃ t, exec (.store core body) s = .next t ∧ s.issued t core w e [src, dst] ∧
      s.hbmOutside t (rowsTouch (moveK s src dst) true dst e.b e.m e.n) ∧ t.spad = s.spad ∧ t.mac = s.mac ∧ t.scale = s.scale) ∧
  ∀ (s : State) (core : Nat) (body : BitVec 248) (w : BitVec 256) (src dst : Opd) (e : Ext) (n : Nat), w = fullWord 0x0A body →
    src = opdOf s core (iTd0 w) → dst = opdOf s core (iTd1 w) → canIssueNew s core w = true →
    anySet w (moveReserved ++ [(205, 1)]) = false → moveExtBad w = false → memRoleOk false [0, 1] memFmtOk src.d = true →
    memRoleOk true [3] memFmtOk dst.d = true → sameFormat src.d dst.d = true → outRndOk s dst.d = true →
    moveExtents s core w src.d = (e, n) →
    e.m ≠ 0 → e.n ≠ 0 → e.b ≠ 0 → moveExtentOk s (moveK s src dst) false src e.b e.m e.n = true →
    moveExtentOk s (moveK s src dst) true dst e.b e.m e.n = true →
    ∃ t, exec (.send core body) s = .next t ∧ s.issued t core w e [src, dst] ∧ t.mac = s.mac ∧ t.scale = s.scale ∧
      (nextHop s 0 (dModule dst.d) ≠ .here → t.hbm = s.hbm ∧ t.spad = s.spad)

/-- LOAD (R213): a move of one unscaled row from HBM puts the current version of each byte of the row at the scratchpad byte that its
task offset reaches, where a write may go there; with TO_SHP the first four bytes of the row, unsigned, are in the shape register,
and with a source in HBM whose bytes are good and extents within their maxima no other register and no memory changes, but for the
queue of the DMA engine that the request passes through. -/
def Obligations.LoadCopiesItsRow : Prop :=
  (∀ (s : State) (core : Nat) (body : BitVec 248) (w : BitVec 256) (src dst : Opd) (n : Nat), w = fullWord 0x08 body →
      src = opdOf s core (iTd0 w) → dst = opdOf s core (iTd1 w) → canIssueNew s core w = true → iB205 w = false →
      anySet w moveReserved = false → moveExtBad w = false → memRoleOk false [1] memFmtOk src.d = true →
      memRoleOk true [0] memFmtOk dst.d = true → sameFormat src.d dst.d = true → outRndOk s dst.d = true → dScaled src.d = false → dTag dst.d = 0 →
      moveExtents s core w src.d = ({ m := 1, n := n, k := 0, b := 1 }, 0) → n ≠ 0 →
      moveExtentOk s false false src 1 1 n = true → moveExtentOk s false true dst 1 1 n = true →
      ∃ t, exec (.load core body) s = .next t ∧ ∀ j p, j < rowBytes (dEfmt src.d) n →
        (spTarget s { core := core, task := some (iTask w), seg := s.seg core, cls := 5 } true 0 (rowAddr dst 0 0 + j)).phys = some p →
        Mem.get t.spad (s.pcIx core * 2 ^ 22 + p) = Mem.get s.hbm (hbmReadAddr s (rowAddr src 0 0 + j))) ∧
  (∀ (s : State) (core : Nat) (body : BitVec 248) (w : BitVec 256) (src : Opd) (n : Nat), w = fullWord 0x08 body →
      src = opdOf s core (iTd0 w) → canIssueNew s core w = true → iB205 w = true → anySet w moveReserved = false →
      moveExtBad w = false → memRoleOk false [1] memFmtOk src.d = true → n * fmtBits (dEfmt src.d) = 32 →
      moveExtents s core w src.d = ({ m := 1, n := n, k := 0, b := 1 }, 0) → moveExtentOk s (kBlocks s false src) false src 1 1 n = true →
      (∀ j, j < 4 → hbmBad s (hbmReadAddr s (rowAddr src 0 0 + j)) = false) →
      ∃ t, exec (.load core body) s = .next t ∧ s.issued t core w { m := 1, n := n, k := 0, b := 1 } [src] ∧
        t.reg (shpA core (iShpIx w)) = BitVec.ofNat 32 (leNat ((List.range 4).map fun j =>
          Mem.get s.hbm (hbmReadAddr s (rowAddr src 0 0 + j)))) ∧
        s.passedQueue t core ((s.core core).dmaNext % 4) [shpA core (iShpIx w)] ∧
        t = { s with regs := t.regs, cores := t.cores, port := t.port, svc := t.svc, out := t.out })

/-- WRITE_W (R85, R100, R214 to R216): with its operands and its placement in order it issues, into a resident or streamed
placement with ALL or into a transient one by position, and writes only macros of its placement; HBM and the scratchpads are
as they were. An eviction, which ignores its source, writes nothing. -/
def Obligations.WeightWritesIssueAndWriteOnlyTheirMacros : Prop :=
  (∀ (s : State) (core : Nat) (body : BitVec 248) (w : BitVec 256) (src tw : Opd) (nb : Nat), w = fullWord 0x0B body →
    src = opdOf s core (iTd0 w) → tw = opdOf s core (iTd1 w) → canIssueNew s core w = true → anySet w writeReserved = false →
    extBad (iExt w 104) = false → extBad (iExt w 132) = false → bcBad (iBc w) = false →
    dReservedBad tw.d = false → dLoc tw.d = 2 → iB205 w = false → memRoleOk false [1] memFmtOk src.d = true →
    nb = min (bcVal s core (iBc w)) (dBMax src.d) → nb ≠ 0 → placeRefused s core tw.d nb = none →
    (s.role core (dMbase tw.d) = 1 ∨ s.role core (dMbase tw.d) = 4) → iAll w = true →
    dEfmt src.d = placeFmt s core tw.d → dScaled src.d = true → dBlk src.d = (if s.deferBit core (dMbase tw.d) then 3 else 2) →
    rowShapeOk (placeFmt s core tw.d) src (dColsMax src.d) (shareCols tw.d (placeFmt s core tw.d)) = true → srOk s tw.d = true →
    hbmRangeOk s true false src nb (shareRows tw.d) (shareCols tw.d (placeFmt s core tw.d)) = true →
    sourceCurrent s src tw (placeFmt s core tw.d) nb = true → scalesClose s src tw (placeFmt s core tw.d) nb = true →
    ∃ t, exec (.writeW core body) s = .next t ∧
      s.issued t core w { m := shareRows tw.d, n := shareCols tw.d (placeFmt s core tw.d), k := 0, b := nb } [src, tw] ∧
      (∀ a, (∀ lm ∈ placeMacs tw.d nb, a / 32768 ≠ s.pmIx core lm) → Mem.get t.mac a = Mem.get s.mac a) ∧
      (∀ a, (∀ lm ∈ placeMacs tw.d nb, a / 2048 ≠ s.pmIx core lm) → Mem.get t.scale a = Mem.get s.scale a) ∧
      t.hbm = s.hbm ∧ t.spad = s.spad) ∧
  ∀ (s : State) (core : Nat) (body : BitVec 248) (w : BitVec 256) (src tw : Opd) (nb cnt : Nat) (ev : Bool), w = fullWord 0x0B body →
    src = opdOf s core (iTd0 w) → tw = opdOf s core (iTd1 w) → canIssueNew s core w = true → anySet w writeReserved = false →
    extBad (iExt w 104) = false → extBad (iExt w 132) = false → bcBad (iBc w) = false →
    dReservedBad tw.d = false → dLoc tw.d = 2 → iB205 w = ev → (ev = false → memRoleOk false [0, 1] memFmtOk src.d = true) →
    nb = min (bcVal s core (iBc w)) (dBMax (if ev then tw.d else src.d)) → nb ≠ 0 → placeRefused s core tw.d nb = none →
    (s.role core (dMbase tw.d) = 2 ∨ s.role core (dMbase tw.d) = 3) →
    (ev = true → ∀ m ∈ placeMacs tw.d nb, s.role core m = 3) → iAll w = false → outRndOk s tw.d = true →
    cnt = min (extVal s core (iExt w 132)) (dColsMax tw.d) → cnt ≠ 0 →
    extVal s core (iExt w 104) + cnt ≤ (if s.colPos core (dMbase tw.d) then dNtc tw.d * chansOf (placeFmt s core tw.d) else dKtc tw.d * 512) →
    (ev = false → memExtentOk s false src nb cnt (posLen tw.d (s.colPos core (dMbase tw.d)) (placeFmt s core tw.d)) = true) →
    ∃ t, exec (.writeW core body) s = .next t ∧
      s.issued t core w { m := cnt, n := cnt, k := extVal s core (iExt w 104), b := nb } [src, tw] ∧
      (∀ a, (∀ lm ∈ placeMacs tw.d nb, a / 32768 ≠ s.pmIx core lm) → Mem.get t.mac a = Mem.get s.mac a) ∧
      (∀ a, (∀ lm ∈ placeMacs tw.d nb, a / 2048 ≠ s.pmIx core lm) → Mem.get t.scale a = Mem.get s.scale a) ∧
      (ev = true → t.mac = s.mac ∧ t.scale = s.scale) ∧ t.hbm = s.hbm ∧ t.spad = s.spad

/-! ### Compute -/

/-- MATMUL and MATMUL_T (R173, R177, R184, R189, R211, R217, R218): with every check passed and extents that are not zero, the
instruction issues. Under firmware tiling its plan is asked for with its extents and its core's work waits; else, with work for its
core, its passes begin, where it issues no pass it signals at once, and if nothing is left for its core it completes at issue and
signals. Whichever it is, no array changes, and with SIDE 0 no byte of any memory. -/
def Obligations.MatrixProductsIssue : Prop :=
  ∀ (s : State) (core : Nat) (body : BitVec 248) (w : BitVec 256) (x a y v : Opd) (e : Ext) (n : Nat) (op work : Op) (i : Instr)
    (fw : Bool),
    (i = .matmul core body ∧ w = fullWord 0x10 body ∧ anySet w (matmulReserved w) = false ∨
      i = .matmulT core body ∧ w = fullWord 0x11 body ∧ anySet w matmulTReserved = false) →
    x = opdOf s core (iTd1 w) → a = opdOf s core (iTd0 w) → y = opdOf s core (iTdY w) → v = opdOf s core (iTdV w) →
    canIssueNew s core w = true → productStatic s core w x.d a.d y.d v.d = true → 2 ≤ dPlanes x.d → dPlanes x.d ≤ 12 →
    dPlanes x.d + dAlnSpan x.d ≤ 24 → computeExtents s core w x.d a.d = (e, n) →
    (iAccum w = true → e.b ≤ 64 ∧ dMstride a.d = 0) → placeRefused s core a.d e.b = none → e.m ≠ 0 → e.n ≠ 0 → e.k ≠ 0 → e.b ≠ 0 →
    op = { seq := (s.core core).pos, word := w, seg := s.seg core, ext := e, opds := [x, a, y, v], md := clampMd n,
           xid := if dLoc y.d = 3 then freeXid s core else 0, shp := kernelShp s core (if iOp w = 0x10 then iEpi w else 0) } →
    productDynamic s core op = none → fw = (s.regBit (sqA core 0) 31 && dFwTile a.d) →
    work = computeWork s core { op with mb := dMb a.d, ru := dRepl a.d, wave := dWave a.d } →
    (fw = false → outInside s work (rowWidth s core work) = true) →
    ∃ t, exec i s = .next t ∧ t.mac = s.mac ∧ t.scale = s.scale ∧
      (iSide w = 0 ∨ iOp w = 0x11 ∨ fw = true → s.sameBytes t) ∧
      (fw = true → s.issued t core w e [x, a, y, v] ∧
        Out.planRequest core op.seq e ∈ t.out ∧ ∃ o, (t.core core).op op.seq = some o ∧ o.planWait = true ∧ o.items = []) ∧
      (fw = false → work.nothing = false → s.issued t core w e [x, a, y, v] ∧
        (work.items = [] → t.flight = s.flight ++ signalOf core w)) ∧
      (fw = false → work.nothing = true →
        (t.core core).sequencer = ((s.core core).wentOn (headerPairs s core w)).sequencer ∧
        (t.core core).ops = (s.core core).ops ∧ t.flight = s.flight ++ signalOf core w)

/-- ATTEND (R173, R222, R224, R226): with every check passed and extents that are not zero it issues, under firmware tiling with its
plan asked for; the queries of its rows are worked through, and no array changes. If nothing is left for its core it completes at
issue and signals. -/
def Obligations.AttendIssues : Prop :=
  ∀ (s : State) (core : Nat) (body : BitVec 248) (w : BitVec 256) (x a y v st : Opd) (e : Ext) (n : Nat) (op work : Op) (fw : Bool),
    w = fullWord 0x12 body → anySet w (hdrReserved ++ [(100, 4), (205, 1)]) = false →
    x = opdOf s core (iTd1 w) → a = opdOf s core (iTd0 w) → y = opdOf s core (iTdY w) → v = opdOf s core (iTdV w) →
    st = opdOf s core (iTdStat w) → canIssueNew s core w = true → attendStatic s core w x.d a.d y.d v.d st.d = true →
    2 ≤ dPlanes x.d → dPlanes x.d ≤ 12 → dPlanes x.d + dAlnSpan x.d ≤ 24 → computeExtents s core w x.d a.d = (e, n) →
    attendRefused s core a.d v.d e.b = none → e.m ≠ 0 → e.n ≠ 0 → e.k ≠ 0 → e.b ≠ 0 →
    op = { seq := (s.core core).pos, word := w, seg := s.seg core, ext := e, opds := [x, a, y, v, st], md := clampMd n,
           imm := [s.reg (shpA core (iPosShp w))], xid := if dLoc y.d = 3 then freeXid s core else 0,
           shp := kernelShp s core (iEpi w) } →
    attendFits op = true → fw = (s.regBit (sqA core 0) 31 && dFwTile a.d) →
    work = computeWork s core { op with mb := dMb a.d, ru := dRepl a.d, wave := dWave a.d } →
    (fw = false → outInside s work (rowWidth s core work) = true) →
    ∃ t, exec (.attend core body) s = .next t ∧ t.mac = s.mac ∧ t.scale = s.scale ∧
      (fw = true → s.issued t core w e [x, a, y, v, st] ∧ s.sameBytes t ∧ Out.planRequest core op.seq e ∈ t.out) ∧
      (fw = false → work.nothing = false → s.issued t core w e [x, a, y, v, st]) ∧
      (fw = false → work.nothing = true →
        (t.core core).sequencer = ((s.core core).wentOn (headerPairs s core w)).sequencer ∧
        (t.core core).ops = (s.core core).ops ∧ t.flight = s.flight ++ signalOf core w)

/-- REDUCE (R142, R219): with every check passed and extents that are not zero it issues, its terms enter its core's node, and no
byte of any memory changes. -/
def Obligations.ReduceIssues : Prop :=
  ∀ (s : State) (core : Nat) (body : BitVec 248) (w : BitVec 256) (x y : Opd) (e : Ext) (n : Nat),
    w = fullWord 0x13 body → anySet w (hdrReserved ++ [(64, 9), (91, 9), (100, 4), (160, 28), (221, 35)]) = false →
    x = opdOf s core (iTd1 w) → y = opdOf s core (iTdY w) → canIssueNew s core w = true → reduceStatic s w x.d y.d = true →
    computeExtents s core w x.d 0 = (e, n) → e.m ≠ 0 → e.n ≠ 0 → e.b ≠ 0 → memExtentOk s false x e.b e.m e.n = true →
    reduceOutOk s (isDest s core (s.core core).pos) w y e.b e.m = true →
    ∃ t, exec (.reduce core body) s = .next t ∧
      s.issued t core w e [x, { td := 0, d := 0, pitch := 0, bStride := 0, sideStride := 0 }, y] ∧ s.sameBytes t ∧
      (dTag x.d = 0 → iB205 w = false → reductionOf s core (s.core core).pos = none → e.m = 1 → e.b = 1 → e.n ≤ 2 ^ 20 →
        (s.core core).node.used < 512 →
        (s.core core).node.find { core := core, seq := (s.core core).pos, b := 0, m := 0, n := 0 } = none →
        ∃ k, (t.core core).node.find { core := core, seq := (s.core core).pos, b := 0, m := 0, n := 0 } = some k ∧
          k.received = e.n ∧ k.expected = e.n ∧ k.op = iRop w)

/-- VECOP, UPDATE and VECTOR_KERNEL_BOUND (R220, R228 to R233): with every check passed each issues; a VECOP changes no byte
before its completion, and waits in the vector unit's queue; an UPDATE changes no scratchpad byte and no array. A VECOP that is
stopped by its bound has no item and no row left to write, an epilogue loses the row it has in hand; the tile's metadata and an event
of KIND 6 tell. -/
def Obligations.VectorInstructionsIssueAndAreBounded : Prop :=
  (∀ (s : State) (core : Nat) (body : BitVec 248) (w : BitVec 256) (a b c : Opd) (e : Ext) (n : Nat), w = fullWord 0x18 body →
    a = opdOf s core (iVa w) → b = opdOf s core (iVb w) → c = opdOf s core (iVc w) → canIssueNew s core w = true →
    anySet w vectorReserved = false → moveExtBad w = false → iKernel w ≠ 0 → kernelOk s core (iKernel w) = true →
    memRoleOk false [0, 1] memFmtOk a.d = true → memRoleOk false [0, 1] memFmtOk b.d = true →
    (iB205 w = false → outputOk s true c.d = true) → moveExtents s core w a.d = (e, n) → e.m ≠ 0 → e.n ≠ 0 → e.b ≠ 0 →
    memExtentOk s false a e.b e.m e.n = true → memExtentOk s false b e.b e.m e.n = true →
    (iB205 w = false → memExtentOk s true c e.b e.m e.n = true) →
    ∃ t, exec (.vecop core body) s = .next t ∧ s.issued t core w e [a, b, c] ∧ s.sameBytes t ∧
      (t.core core).queue 22 = (s.core core).queue 22 ++ [(s.core core).pos] ∧
      (n = 0 → s.passedQueue t core 22 [] ∧
        t = { s with cores := t.cores, regs := t.regs, port := t.port, svc := t.svc, out := t.out })) ∧
  (∀ (s : State) (core : Nat) (body : BitVec 248) (w : BitVec 256) (o : List Opd) (e : Ext) (op : Op), w = fullWord 0x19 body →
    o = updOpds s core w → canIssueNew s core w = true → anySet w (vectorReserved ++ [(205, 1)]) = false → moveExtBad w = false →
    updateStatic s core w = true → moveExtents s core w (nth (opdOf s core 0) o 0).d = (e, 0) → e.m ≠ 0 → e.n ≠ 0 → e.b ≠ 0 →
    op = { seq := (s.core core).pos, word := w, seg := s.seg core, ext := e, opds := o, items := (List.range e.b).map .upd } →
    updateDynamic s op = true → (∀ r ∈ updRegions s op, updatedLast s r.1 = false) →
    ∃ t, exec (.update core body) s = .next t ∧ s.issued t core w e o ∧ t.spad = s.spad ∧ t.mac = s.mac ∧ t.scale = s.scale) ∧
  (∀ (s : State) (core seq : Nat) (op : Op), (s.core core).op seq = some op → (iOp op.word = 0x10 ∨ iOp op.word = 0x12) →
    iEpi op.word ≠ 0 → op.todo ≠ [] →
    ∃ t o, exec (.vectorKernelBound core seq) s = .next t ∧ (t.core core).op seq = some o ∧ o.items = op.items ∧
      o.todo = op.todo.tail ∧ bit o.md 1 = true ∧ s.sameBytes t ∧ s.sameRegs t [] ∧
      (s.fx.cur.events.length < 64 → t.fx.cur.events = s.fx.cur.events ++ [refusalEvent s core seq (iOp op.word)])) ∧
  ∀ (s : State) (core seq : Nat) (op : Op), (s.core core).op seq = some op → iOp op.word = 0x18 → op.items ≠ [] →
    ∃ t o, exec (.vectorKernelBound core seq) s = .next t ∧ (t.core core).op seq = some o ∧ o.items = [] ∧ o.todo = [] ∧
      bit o.md 1 = true ∧ (t.fx.cur.events.length < 64 → ∃ ev ∈ t.fx.cur.events, ev.kind = 6) ∧ t.mac = s.mac ∧ t.scale = s.scale ∧ t.tk = s.tk ∧
      t.img = s.img ∧ (∀ j, (t.core j).sequencer = (s.core j).sequencer ∧ (t.core j).fixed = (s.core j).fixed)

/-- FW_PLAN_REPLY and FW_PLAN_TIMEOUT (R190, R191): the first rule that covers the extents gives the plan and the work begins, or, where nothing is left for
the core, the instruction signals; with none the instruction is refused, FW_PLAN_NONE set and its event staged; a plan that does not come in time leaves it without a
tile, FW_PLAN_TIMEOUT set and the frame at fault. -/
def Obligations.PlansAreAnsweredOrTimeOut : Prop :=
  (∀ (s : State) (core seq : Nat) (op work : Op) (r : TileRule), (s.core core).op seq = some op → op.planWait = true →
    (rulesOf s core seq).find? (fun r => ruleCovers r op.ext) = some r →
    work = computeWork s core { op with planWait := false, mb := r.planMb, ru := r.planRu, wave := r.planWave } →
    outInside s work (rowWidth s core work) = true → (∀ i ∈ op.items, ∃ b m, i = .out b m) →
    ∃ t, exec (.fwPlanReply core seq) s = .next t ∧ t.mac = s.mac ∧ t.scale = s.scale ∧ t.tk = s.tk ∧ t.img = s.img ∧
      (∀ j, (t.core j).sequencer = (s.core j).sequencer ∧ (t.core j).fixed = (s.core j).fixed) ∧
      (work.nothing = false → (∃ o, (t.core core).op seq = some o ∧ o.mb = r.planMb ∧ o.ru = r.planRu ∧ o.wave = r.planWave ∧
          o.planWait = false ∧ o.asIssued = op.asIssued) ∧
        (op.items = [] → iOp op.word ≠ 0x12 → iSide op.word = 0 → s.sameBytes t)) ∧
      (work.nothing = true → (t.core core).ops = (s.core core).ops.filter (fun o => o.seq ≠ seq) ∧
        t.flight = s.flight ++ signalOf core op.word ∧ s.sameBytes t)) ∧
  (∀ (s : State) (core seq : Nat) (op : Op), (s.core core).op seq = some op → op.planWait = true →
    (rulesOf s core seq).find? (fun r => ruleCovers r op.ext) = none → s.fx.cur.events.length < 64 →
    ∃ t, exec (.fwPlanReply core seq) s = .next t ∧ (t.core core).ops = (s.core core).ops.filter (fun o => o.seq ≠ seq) ∧
      t.regBit (sqA core 4) 5 = true ∧ t.fx.cur.events = s.fx.cur.events ++ [refusalEvent s core seq (iOp op.word)] ∧
      t.flight = s.flight ++ signalOf core op.word ∧ (∀ td ∈ opDests op.word, bit ((t.core core).mdOf td) 1 = true) ∧
      t.fx.cur.fault = s.fx.cur.fault ∧ s.sameBytes t ∧ s.sameRegs t (sqA core 4 :: signalRegs core op.word) ∧
      ∀ j, (t.core j).sequencer = (s.core j).sequencer ∧ (t.core j).fixed = (s.core j).fixed) ∧
  ∀ (s : State) (core seq : Nat) (op : Op), core < 768 → (s.core core).op seq = some op → op.planWait = true →
    ∃ t o, exec (.fwPlanTimeout core seq) s = .next t ∧ (t.core core).op seq = some o ∧ o.planWait = false ∧ o.items = [] ∧
      o.asIssued = op.asIssued ∧ t.regBit (sqA core 4) 4 = true ∧ t.fx.cur.fault = true ∧ s.sameBytes t ∧
      ∀ j, (t.core j).sequencer = (s.core j).sequencer ∧ (t.core j).fixed = (s.core j).fixed

/-- INSTRUCTION_COMPLETE and TAG_WAIT_RELEASE (R160, R197, R210, R233): an instruction whose work is done leaves flight, gives its
metadata to the descriptors it writes and signals; one whose work is not done stays; an UPDATE's regions are recorded. An access
whose slot tag has changed proceeds: the instruction's next item is done, or the remote write leaves the waiting packets. -/
def Obligations.DoneInstructionsCompleteAndReleasedAccessesProceed : Prop :=
  (∀ (s : State) (core seq : Nat) (op : Op), (s.core core).op seq = some op → iOp op.word ≠ 0x18 → iOp op.word ≠ 0x19 →
    opDone s core op = true →
    ∃ t, exec (.instructionComplete core seq) s = .next t ∧ (t.core core).ops = (s.core core).ops.filter (fun o => o.seq ≠ seq) ∧
      s.onlyCore t core (signalOf core op.word) ∧
      (isDest s core seq = true → ∀ td ∈ opDests op.word, ∀ i, bit op.md i = true → bit ((t.core core).mdOf td) i = true) ∧
      (∀ td, (isDest s core seq = false ∨ td ∉ opDests op.word) → (t.core core).mdOf td = (s.core core).mdOf td) ∧
      (t.core core).sequencer = (s.core core).sequencer ∧ (t.core core).fixed = (s.core core).fixed) ∧
  (∀ (s : State) (core seq : Nat) (op : Op), (s.core core).op seq = some op → iOp op.word ≠ 0x18 → opDone s core op = false →
    exec (.instructionComplete core seq) s = .next s) ∧
  (∀ (s : State) (core seq : Nat) (op : Op), (s.core core).op seq = some op → iOp op.word = 0x19 → opDone s core op = true →
    s.regBit nmCtrl 1 = false →
    ∃ t, exec (.instructionComplete core seq) s = .next t ∧ (t.core core).ops = (s.core core).ops.filter (fun o => o.seq ≠ seq) ∧
      t.fx.cur.updates = s.fx.cur.updates ++ (updRegions s op).map (·.1) ∧ t.flight = s.flight ++ signalOf core op.word ∧
      s.sameBytes t ∧ s.sameRegs t (signalRegs core op.word) ∧ ∀ j, j ≠ core → t.core j = s.core j) ∧
  (∀ (s : State) (core slot seq : Nat) (op : Op) (i : Item) (rest : List Item),
    ((s.core core).waits.find? fun w => w.1 = slot && waitOver s core w) = some (slot, some seq) → (s.core core).op seq = some op →
    op.items = i :: rest → firstWait s core (iTask op.word) (itemAcs s core op i) = none → iOp op.word ≠ 0x18 →
    op.planWait = false → s.pwr.cap = false → (iOp op.word = 0x12 → loopFull (s.core core) = false) →
    ∃ t o, exec (.tagWaitRelease core slot) s = .next t ∧ (t.core core).op seq = some o ∧
      (∃ k sides, o.items = sides ++ rest.drop k ∧ ∀ x ∈ sides, ∃ b m, x = .side b m) ∧
      (∃ more, (t.core core).waits = (s.core core).waits.erase (slot, some seq) ++ more) ∧ t.tk = s.tk ∧ t.img = s.img ∧
      ∀ j, (t.core j).sequencer = (s.core j).sequencer ∧ (t.core j).fixed = (s.core j).fixed) ∧
  ∀ (s : State) (core slot o : Nat) (p : Packet),
    ((s.core core).waits.find? fun w => w.1 = slot && waitOver s core w) = some (slot, none) →
    s.chip.waitWr.head? = some p → localAddr s p.addr = .spad core o → o / 256 = slot →
    ∃ t, exec (.tagWaitRelease core slot) s = .next t ∧ t.chip.waitWr = s.chip.waitWr.tail ∧
      (t.core core).waits = (s.core core).waits.erase (slot, none) ∧ t.hbm = s.hbm ∧ t.mac = s.mac ∧ t.scale = s.scale ∧
      ∀ j, (t.core j).sequencer = (s.core j).sequencer ∧ (t.core j).fixed = (s.core j).fixed

/-- TREE_EMPTY and DRAIN_PORT_READ (R127, R128, R131, R133): the complete live tile moves to a free mirage set and the tile behind it
becomes live, and its request leaves its drain port's queue; a refused tile does so past the open chain before it; while the mirage
set is occupied the stall of the tile behind is recorded once. A drain port takes the tile of
the lowest of its macros that holds one, and each of its terms enters the core node, where accumulators are free for them. -/
def Obligations.TilesSwapAndDrain : Prop :=
  (∀ (s : State) (core lm : Nat) (x : Tile), (macSt s core lm).live = some x → x.passes = 0 → (macSt s core lm).mirage = none →
    ∃ t, exec (.treeEmpty core lm) s = .next t ∧
      macSt t core lm = ⟨(macSt s core lm).walk.head?, some x, (macSt s core lm).walk.tail, false⟩ ∧
      (∀ k, k ≠ lm → macSt t core k = macSt s core k) ∧ (∀ j, j ≠ core → t.core j = s.core j) ∧
      t.core core = { s.core core with macros := (t.core core).macros, queues := (t.core core).queues } ∧
      (∀ q, q ≠ 4 + lm / 16 → (t.core core).queue q = (s.core core).queue q) ∧ s.passedQueue t core (4 + lm / 16) [] ∧
      t = { s with cores := t.cores, regs := t.regs, port := t.port, svc := t.svc, out := t.out }) ∧
  (∀ (s : State) (core lm : Nat) (x z : Tile), (macSt s core lm).live = some x → x.passes ≠ 0 → (macSt s core lm).mirage = none →
    (macSt s core lm).walk.find? (fun y => y.passes = 0) = some z →
    ∃ t, exec (.treeEmpty core lm) s = .next t ∧
      macSt t core lm = { macSt s core lm with mirage := some z, walk := (macSt s core lm).walk.erase z } ∧
      (∀ k, k ≠ lm → macSt t core k = macSt s core k) ∧ (∀ j, j ≠ core → t.core j = s.core j) ∧
      (t.core core).ops = (s.core core).ops ∧ s.passedQueue t core (4 + lm / 16) [] ∧ s.sameBytes t) ∧
  (∀ (s : State) (core lm : Nat) (x : Tile), (macSt s core lm).live = some x → x.passes = 0 → (macSt s core lm).mirage ≠ none →
    (macSt s core lm).walk ≠ [] → (macSt s core lm).stalled = false →
    ∃ t, exec (.treeEmpty core lm) s = .next t ∧ macSt t core lm = { macSt s core lm with stalled := true } ∧
      t.regBit (drA core 0) 6 = true ∧ t.regFld (drA core 4) 16 16 = min (s.regFld (drA core 4) 16 16 + 1) 0xFFFF ∧
      s.sameRegs t [drA core 0, drA core 4] ∧ t = { s with cores := t.cores, regs := t.regs }) ∧
  ∀ (s : State) (core port lm : Nat) (x : Tile) (op : Op) (r : Drained), port < 16 → portMacro s core port = some lm →
    (macSt s core lm).mirage = some x → (s.core core).op x.seq = some op → r = drainTile core lm x s →
    wideCheck (if x.residue.length = 1 then 64 else x.wide.length / 2) x
      (wideRead s (s.pmIx core lm) (if x.residue.length = 1 then 64 else x.wide.length / 2) x) = [] →
    (r.terms.map (·.1)).Nodup → (∀ y ∈ r.terms, f32Finite y.2 = true) → unitErrOf s (4 * core) = 0 →
    (s.core core).node.used + r.terms.length ≤ 512 → x.expected ≤ 2 ^ 20 →
    (∀ a ∈ (s.core core).node.accs, a.expected ≤ 2 ^ 20) →
    ∃ t, exec (.drainPortRead core port) s = .next t ∧ macSt t core lm = { macSt s core lm with mirage := none } ∧
      (∀ k, k ≠ lm → macSt t core k = macSt s core k) ∧
      (∀ y ∈ r.terms, ∀ k : ElemKey, k = ⟨(destOf s core x.seq).1, (destOf s core x.seq).2, x.b, x.m, y.1⟩ →
        ∃ a, (t.core core).node.find k = some a ∧
          a.received = (((s.core core).node.find k).map (·.received)).getD 0 + 1 ∧
          sumI (a.segs.map (·.sum)) = (((s.core core).node.find k).map fun b => sumI (b.segs.map (·.sum))).getD 0 + pairInt y.2 0) ∧
      (∀ k, (∀ y ∈ r.terms, k ≠ ⟨(destOf s core x.seq).1, (destOf s core x.seq).2, x.b, x.m, y.1⟩) →
        (t.core core).node.find k = (s.core core).node.find k) ∧
      (t.core core).ops = (s.core core).ops ∧ (∀ j, j ≠ core → t.core j = s.core j) ∧ t = { s with cores := t.cores }

/-- SEIF_NODE_OUTPUT and SEIF_FOLD (R134, R135, R138, R140): a node that has every input of an element frees its accumulator and
sends the pair up: from a core to its die, from a die to the hub, or to the instruction that receives it; at a node that is
still short of one nothing happens. The node above takes the pair where it has an accumulator for it. A full segment of a long sum is rounded into the next and counted. -/
def Obligations.NodesSendWholeElements : Prop :=
  (∀ (s : State) (node : NodeId) (k : ElemKey) (a : Acc), (s.node node).find k = some a → a.full = false →
    exec (.seifNodeOutput node k) s = .next s) ∧
  (∀ (s : State) (i : Nat) (k : ElemKey) (a : Acc) (r : Reduction), (s.core i).node.find k = some a → a.full = true →
    elemReduction s k = some r → rootOf s r ≠ some (.core i) → a.op = 0 → f32Finite a.out.1 = true → f32Finite a.out.2.1 = true →
    a.out.2.2.2 = false → (s.core i).node.waits = [] → unitErrOf s (nodeUnit (.core i)) = 0 → netFlipOf s (i / 64) = 0 →
    nodeWaits (.die (i / 64)) (s.node (.die (i / 64)))
      (upward a (dieExpects s r a.ext k.n (i / 64)) (corePos s r i) 0) = false →
    ∃ t b, exec (.seifNodeOutput (.core i) k) s = .next t ∧ (t.core i).node.find k = none ∧
      (t.node (.die (i / 64))).find k = some b ∧
      b.received = (((s.node (.die (i / 64))).find k).map (·.received)).getD 0 + 1 ∧
      sumI (b.segs.map (·.sum)) =
        (((s.node (.die (i / 64))).find k).map fun c => sumI (c.segs.map (·.sum))).getD 0 + pairInt a.out.1 a.out.2.1 ∧
      (∀ j, j ≠ k → (t.core i).node.find j = (s.core i).node.find j ∧
        (t.node (.die (i / 64))).find j = (s.node (.die (i / 64))).find j) ∧
      (∀ j, j ≠ i → t.core j = s.core j) ∧ t = { s with cores := t.cores, dieNodes := t.dieNodes }) ∧
  (∀ (s : State) (d : Nat) (k : ElemKey) (a : Acc) (r : Reduction), (s.node (.die d)).find k = some a → a.full = true →
    elemReduction s k = some r → rootOf s r = some .hub → a.op = 0 → f32Finite a.out.1 = true → f32Finite a.out.2.1 = true →
    a.out.2.2.2 = false → (s.node (.die d)).waits = [] → unitErrOf s (nodeUnit (.die d)) = 0 → netFlipOf s 12 = 0 →
    nodeWaits .hub s.hubNode (upward a (hubExpects s r a.ext k.n) (diePos r d) 0) = false →
    ∃ t b, exec (.seifNodeOutput (.die d) k) s = .next t ∧ (t.node (.die d)).find k = none ∧ t.hubNode.find k = some b ∧
      b.received = ((s.hubNode.find k).map (·.received)).getD 0 + 1 ∧
      sumI (b.segs.map (·.sum)) = ((s.hubNode.find k).map fun c => sumI (c.segs.map (·.sum))).getD 0 + pairInt a.out.1 a.out.2.1 ∧
      (∀ j, j ≠ k → t.hubNode.find j = s.hubNode.find j) ∧
      t = { s with dieNodes := t.dieNodes, hubNode := t.hubNode }) ∧
  (∀ (s : State) (node : NodeId) (k : ElemKey) (a : Acc) (op : Op), (s.node node).find k = some a → a.full = true →
    ((elemReduction s k).map fun r => rootOf s r).getD (some node) = some node → a.out.2.2.2 = false → a.lostMd = 0 →
    (s.core k.core).op k.seq = some op → iOp op.word ≠ 0x13 → op.items = [] →
    (op.rows.find? fun r => r.b = k.b && r.m = k.m) = none → rowWidth s k.core op ≠ 1 → iSide op.word = 0 →
    (s.node node).waits = [] → unitErrOf s (nodeUnit node) = 0 →
    ∃ t, exec (.seifNodeOutput node k) s = .next t ∧ (t.node node).find k = none ∧
      (t.core k.core).op k.seq = some { op with rows := (op.rows.filter fun x => !(x.b = k.b && x.m = k.m)) ++
        [⟨k.b, k.m, [(k.n, a.out.1, a.out.2.1)], a.out.2.2.1⟩] } ∧
      s.sameBytes t ∧ s.sameRegs t [] ∧ ∀ j, (t.core j).sequencer = (s.core j).sequencer ∧ (t.core j).fixed = (s.core j).fixed) ∧
  ∀ (s : State) (node : NodeId) (k : ElemKey) (a : Acc), (s.node node).find k = some a → a.canFold = true →
    ∃ t, exec (.seifFold node k) s = .next t ∧ t.regBit (nodeSticky node) 1 = true ∧
      ((s.node node).waits = [] → (t.node node).find k = some (a.fold (foldRnd s a)) ∧
        ∀ j, j ≠ k → (t.node node).find j = (s.node node).find j) ∧
      s.sameRegs t [nodeSticky node, nodeFolds node] ∧ s.sameBytes t ∧ t.flight = s.flight ∧
      ∀ j, (t.core j).sequencer = (s.core j).sequencer ∧ (t.core j).ops = (s.core j).ops

/-! ### Votes, results and commit -/

/-- VOTE_FORM, VOTE and VOTE_DEADLINE (R298, R304, R308, R330, R332, Table 13.6): a module that votes forms its own vote, FAIL if its frame had a
detected fault, an overrun or did not run its work; a child's vote that its link accepts in its frame and in time is kept, one of another frame is STALE, a late one sets VOTE_LATE; at the deadline the votes
are joined: FAIL, HOLD, SLOW, HALT and LOST if any has them, voters added; a vote that is missing, or voters that are, set MISSING and are a detected fault, and an absent child sets VOTE_MISSING;
a node sends the joined vote to its parent by the VC1 route, the root decides. -/
def Obligations.VotesAreJoinedUpTheTree : Prop :=
  (∀ (s : State), voting s = true → s.fx.halt = 0 →
    ∃ v, exec .voteForm s = .next { s with fx := { s.fx with own := some v } } ∧ v.fn = s.fx.prev.fn ∧ v.kind = 0 ∧
      vflag v 0 = (s.fx.prev.fault || s.fx.prev.overrun || s.fx.prev.inPlace || decide (s.fx.prev.thermal = some true)) ∧
      vflag v 2 = ((s.fx.retires.any fun r => !offBank s r) || decide (s.fx.prev.thermal = some false)) ∧ vflag v 6 = s.fx.capHalt ∧
      vflag v 7 = s.fx.prev.lost) ∧
  (∀ (s : State), voting s = false → exec .voteForm s = .next s) ∧
  (∀ (s : State) (i : Nat) (p : Packet) (cw : Codeword) (pl : VotePl) (d : DomainSect), voteComes s i p cw pl →
    s.domain = some d → (∃ l, (p.src, l) ∈ d.children) → s.fx.noVote.contains s.fx.prev.fn = false → pl.kind = 0 →
    s.fx.sentFor ≠ some s.fx.prev.fn → pl.fn = s.fx.prev.fn →
    ∃ t, exec (.vote i p cw false) s = .next t ∧ (t.link i).lseqRx = (p.lseq + 1) % 65536 ∧
      t.fx.children = (s.fx.children.filter fun c => c.1 ≠ p.src) ++ [(p.src, pl)] ∧ s.sameRegs t (rxRegs i) ∧
      t = { s with fx := { s.fx with children := t.fx.children }, links := t.links, out := t.out, regs := t.regs }) ∧
  (∀ (s : State) (i : Nat) (p : Packet) (cw : Codeword) (pl : VotePl) (d : DomainSect), voteComes s i p cw pl →
    s.domain = some d → (∃ l, (p.src, l) ∈ d.children) → s.fx.noVote.contains s.fx.prev.fn = false → pl.kind = 0 →
    ∃ t, exec (.vote i p cw true) s = .next t ∧ t.regBit fxSticky 5 = true ∧ s.sameRegs t (fxSticky :: rxRegs i) ∧
      t = { s with links := t.links, out := t.out, regs := t.regs }) ∧
  (∀ (s : State) (i : Nat) (p : Packet) (cw : Codeword), comesNext s i p cw = true → p.ptype = 6 → p.dst = s.moduleId →
    p.vote.isSome = true → p.ftag ≠ s.ftag →
    ∃ t, exec (.vote i p cw false) s = .next t ∧ t.regBit clSticky 2 = true ∧ s.sameRegs t (clSticky :: clCnt :: rxRegs i) ∧
      t = { s with links := t.links, out := t.out, regs := t.regs }) ∧
  ∀ (s : State) (d : DomainSect) (own : VotePl) (got : List VotePl) (missing : Prop), s.domain = some d → voting s = true →
    s.fx.own = some own → own.fn = s.fx.prev.fn → s.fx.sentFor ≠ some s.fx.prev.fn →
    got = d.children.filterMap (fun c => (s.fx.children.find? fun x => x.1 = c.1).map (·.2)) →
    (missing ↔ got.length ≠ d.children.length ∨ d.parent = none ∧ own.voters + sumN (got.map (·.voters)) ≠ d.members.length) →
    ∃ t v, exec .voteDeadline s = .next t ∧ t.fx.combined = some v ∧ t.fx.sentFor = some s.fx.prev.fn ∧ v.fn = s.fx.prev.fn ∧
      (∀ i ∈ [0, 2, 3, 6, 7], vflag v i = (vflag own i || got.any fun g => vflag g i)) ∧
      v.voters = own.voters + sumN (got.map (·.voters)) ∧
      (missing → vflag v 1 = true ∧ vflag v 4 = false ∧ vflag v 5 = false ∧ t.fx.cur.fault = true) ∧
      (got.length ≠ d.children.length → t.regBit fxSticky 4 = true) ∧
      (got.length = d.children.length → t.regBit fxSticky 4 = s.regBit fxSticky 4) ∧
      (¬missing → (∀ i ∈ [4, 5], vflag v i = (vflag own i && got.all fun g => vflag g i)) ∧
        vflag v 1 = (vflag own 1 || got.any fun g => vflag g 1) ∧
        ((∀ x, (d.parent = some x ∨ d.parent = none ∧ x ∈ d.children) → (voteHop s x.1 x.2).isSome = true) →
          t.fx.cur.fault = s.fx.cur.fault)) ∧
      (∀ p k, d.parent = some p → voteHop s p.1 p.2 = some k → s.sendsVote k →
        ∃ q, Out.packet k q ∈ t.out ∧ q.vote = some v ∧ q.dst = p.1) ∧
      (d.parent = none → (∀ x ∈ s.fx.results, x.fn ≠ s.fx.prev.fn) →
        ∃ r ∈ t.fx.results, r.fn = s.fx.prev.fn ∧ r.kind = 1 ∧ r.flags = (decideVote s v).1 ∧ r.actions = (decideVote s v).2 ∧
          (s.fx.halt = 0 → vflag v 0 = false → vflag v 1 = false → vflag v 3 = false → vflag v 6 = false → vflag v 7 = false →
            r.flags = 0) ∧
          (vflag v 6 = true → r.flags = 3)) ∧ s.sameBytes t ∧ t.cores = s.cores ∧ t.tk = s.tk ∧ t.img = s.img

/-- VOTE_RESULT, RESULT_QUERY and RESULT_ANSWER (R298, R304, R330, R334): a result from the parent, or in answer to a query, is kept
among the last 16 and waits for its turn, and one from the parent goes on to the children; one from another module is not taken
(log entry 134). A neighbour's query is answered from those kept, and not at all where the result is not among them. -/
def Obligations.ResultsAreKeptForwardedAndAnswered : Prop :=
  (∀ (s : State) (i : Nat) (p : Packet) (cw : Codeword) (pl : VotePl) (d : DomainSect), voteComes s i p cw pl → s.domain = some d →
    d.parent.map (·.1) = some p.src → pl.kind = 1 → (∀ x ∈ s.fx.results, x.fn ≠ pl.fn) →
    ∃ t, exec (.voteResult i p cw) s = .next t ∧ t.fx.results = (s.fx.results ++ [pl]).drop (s.fx.results.length + 1 - 16) ∧
      t.fx.received = (if s.fx.nextFn ≤ pl.fn then s.fx.received ++ [pl] else s.fx.received) ∧
      (∀ c k, d.children = [c] → voteHop s c.1 c.2 = some k → s.sendsVote k →
        ∃ q, Out.packet k q ∈ t.out ∧ q.vote = some pl ∧ q.dst = c.1) ∧
      s.sameBytes t ∧ t.cores = s.cores ∧ t.tk = s.tk ∧ t.img = s.img) ∧
  (∀ (s : State) (i : Nat) (p : Packet) (cw : Codeword) (pl : VotePl), voteComes s i p cw pl →
    (s.domain.bind (·.parent)).map (·.1) ≠ some p.src → pl.kind = 1 →
    ∃ t, exec (.voteResult i p cw) s = .next t ∧ s.sameRegs t (rxRegs i) ∧
      t = { s with links := t.links, out := t.out, regs := t.regs }) ∧
  (∀ (s : State) (i l k : Nat) (p : Packet) (cw : Codeword) (pl r : VotePl), voteComes s i p cw pl → pl.kind = 2 →
    neighbourLink s p.src = some l → (s.fx.results.find? fun r => r.fn = pl.fn) = some r → voteHop s p.src l = some k → s.sendsVote k →
    ∃ t q, exec (.resultQuery i p cw) s = .next t ∧ Out.packet k q ∈ t.out ∧ q.vote = some { r with kind := 3 } ∧ q.dst = p.src ∧
      t.fx = s.fx ∧ s.sameBytes t ∧ t.cores = s.cores ∧ t.tk = s.tk) ∧
  (∀ (s : State) (i : Nat) (p : Packet) (cw : Codeword) (pl : VotePl), voteComes s i p cw pl → pl.kind = 2 →
    (∀ x ∈ s.fx.results, x.fn ≠ pl.fn) →
    ∃ t, exec (.resultQuery i p cw) s = .next t ∧ s.sameRegs t (rxRegs i) ∧
      t = { s with links := t.links, out := t.out, regs := t.regs }) ∧
  ∀ (s : State) (i : Nat) (p : Packet) (cw : Codeword) (pl : VotePl), voteComes s i p cw pl → pl.kind = 3 →
    (neighbourLink s p.src).isSome = true → (∀ x ∈ s.fx.results, x.fn ≠ pl.fn) →
    ∃ t, exec (.resultAnswer i p cw) s = .next t ∧
      t.fx.results = (s.fx.results ++ [{ pl with kind := 1 }]).drop (s.fx.results.length + 1 - 16) ∧
      t.fx.received = (if s.fx.nextFn ≤ pl.fn then s.fx.received ++ [{ pl with kind := 1 }] else s.fx.received) ∧
      s.sameRegs t (rxRegs i) ∧
      t = { s with fx := { s.fx with results := t.fx.results, received := t.fx.received }, links := t.links, out := t.out, regs := t.regs }

/-- VOTE_RESULT_APPLY with COMMIT (R325, R335, R165): every ping-pong unit that the frame wrote changes its current side and no
other does, every version pending for it becomes current, and scratchpads, arrays and, with no scale history, HBM keep their
bytes. -/
def Obligations.CommitMakesTheFramesVersionsCurrent : Prop :=
  ∀ (s : State) (r : VotePl) (h : FrameRec), nextResult s = some (r, h) → s.fx.old = [] → r.flags = 0 → r.actions = 0 →
    s.img.pend = none → h.kind ≠ .quiet → h.inPlace = false → h.units.Nodup →
    ∃ t, exec .voteResultApply s = .next t ∧
      (∀ k, t.sideOf k = if k ∈ h.units then !s.sideOf k else s.sideOf k) ∧
      (∀ core k n, ((s.core core).verOf k).pendPrev = some n → ((t.core core).verOf k).cur = n ∧ ((t.core core).verOf k).pendPrev = none) ∧
      (∀ core k, ((s.core core).verOf k).pendPrev = none → (t.core core).verOf k = (s.core core).verOf k) ∧
      (∀ core k n, ((s.core core).verOf k).pendPrev = some n → t.resultFull core k = true) ∧
      t.fx.applied = true ∧ t.fx.nextFn = afterFrame s r.fn ∧ t.fx.halt = s.fx.halt ∧ t.fx.hold = false ∧ t.fx.rework = s.fx.rework ∧
      t.spad = s.spad ∧ t.mac = s.mac ∧ t.scale = s.scale ∧ (s.reg64 nmHist = 0 → t.hbm = s.hbm) ∧ t.tk = s.tk

/-- VOTE_RESULT_APPLY with REPLAY and HALT (R335, R336, R342): both frames that are open are discarded: no version stays pending
and no current version changes, no byte of memory either; with REPLAY their work is to run again, first the frame voted on;
with HALT the module halts, for lost capacity (OUTCOME 3) or because replays are exhausted (OUTCOME 2). -/
def Obligations.ReplayAndHaltDiscardTheOpenFrames : Prop :=
  (∀ (s : State) (r : VotePl) (h : FrameRec), nextResult s = some (r, h) → s.fx.old = [] → r.flags = 1 → r.actions = 0 →
    s.img.pend = none →
    ∃ t, exec .voteResultApply s = .next t ∧ t.img.sides = s.img.sides ∧
      (∀ core k, ((t.core core).verOf k).pendPrev = none ∧ ((t.core core).verOf k).pendCur = none ∧
        ((t.core core).verOf k).cur = ((s.core core).verOf k).cur) ∧
      (∀ core, (t.core core).windows = (s.core core).prev.winCopy ∧ (t.core core).winPend = []) ∧
      (h.kind ≠ .quiet → s.fx.cur.kind ≠ .quiet →
        t.fx.rework = reworkOf r.attempt h :: reworkOf s.fx.cur.attempt s.fx.cur :: s.fx.rework) ∧
      t.regBit fxSticky 1 = true ∧ t.regFld fxCnt 16 16 = min (s.regFld fxCnt 16 16 + 1) 0xFFFF ∧ t.fx.halt = s.fx.halt ∧
      t.fx.noVote.contains s.fx.cur.fn = true ∧ s.sameBytes t ∧ t.tk = s.tk) ∧
  ∀ (s : State) (r : VotePl) (h : FrameRec), nextResult s = some (r, h) → s.fx.old = [] → (r.flags = 2 ∨ r.flags = 3) →
    r.actions = 0 → s.img.pend = none → s.fx.halt = 0 →
    ∃ t, exec .voteResultApply s = .next t ∧ t.fx.halt ≠ 0 ∧ (r.flags = 3 → t.fx.halt = 2 ∧ t.regBit fxCapSum 31 = true) ∧
      (r.flags = 2 → t.fx.halt = 1 ∨ t.fx.halt = 3) ∧ t.img.sides = s.img.sides ∧
      (∀ core k, ((t.core core).verOf k).pendPrev = none ∧ ((t.core core).verOf k).pendCur = none ∧
        ((t.core core).verOf k).cur = ((s.core core).verOf k).cur) ∧ s.sameBytes t ∧ t.tk = s.tk

/-! ### Images -/

/-- IMG_VERIFY, IMAGE_VERIFY_DONE and IMG_RELEASE (R254, R255): IMG_VERIFY puts an EMPTY slot into VERIFYING over a range of its own,
and else is answered PROGRAM_ERROR and changes nothing; the end of verification makes the slot VERIFIED, or EMPTY again, and
raises an event of KIND 1; IMG_RELEASE empties a VERIFIED slot and is refused for a VERIFYING or an ACTIVE one. -/
def Obligations.ImagesAreVerifiedAndReleased : Prop :=
  (∀ (s : State) (tag slot addr len : Nat), servesNow s tag = true → s.img.slots.length = 4 → s.lcState = 2 →
    s.rebootReq = false → s.debugOpen = false → slot < 4 → (s.slot slot).state = 0 → addr % 4096 = 0 → addr + len ≤ s.img.hbmBytes →
    (∀ i, i < 4 → i ≠ slot → (s.slot i).state ≠ 0 →
      (s.slot i).addr + (s.slot i).len ≤ addr ∨ addr + len ≤ (s.slot i).addr) →
    ∃ t, exec (.imgVerify tag slot addr len) s = .next t ∧ t.slot slot = { state := 1, addr := addr, len := len, tag := tag } ∧
      (∀ i, i ≠ slot → t.slot i = s.slot i) ∧ s.answered t 0 (shortAnswer s tag 1 stOK) ∧
      t = { s with img := { s.img with slots := t.img.slots }, port := { s.port with answers := t.port.answers }, out := t.out }) ∧
  (∀ (s : State) (tag slot addr len : Nat), servesNow s tag = true →
    (s.lcState ≠ 2 ∨ s.rebootReq = true ∨ s.debugOpen = true ∨ 4 ≤ slot ∨ (s.slot slot).state ≠ 0 ∨ addr % 4096 ≠ 0 ∨
      s.img.hbmBytes < addr + len) →
    ∃ t, exec (.imgVerify tag slot addr len) s = .next t ∧ s.answered t 0 (shortAnswer s tag 1 stProgramError) ∧ s.onlyAnswer t) ∧
  (∀ (s : State) (slot : Nat) (c? : Option ImageContent), s.img.slots.length = 4 → slot < 4 → (s.slot slot).state = 1 →
    ∃ t, exec (.imageVerifyDone slot c?) s = .next t ∧
      (∀ c, (verifyImage s (s.slot slot) c?).2 = some c → t.slot slot = { s.slot slot with state := 2, content := some c } ∧
        (c.kind = 0 → s.active = false → t.img.nextFrame = some c.frame)) ∧
      ((verifyImage s (s.slot slot) c?).2 = none → t.slot slot = {}) ∧ (∀ i, i ≠ slot → t.slot i = s.slot i) ∧
      (s.port.events.length < 256 → ∃ e, t.port.events.getLast? = some e ∧ e.ev.kind = 1 ∧
        e.ev.status = (verifyImage s (s.slot slot) c?).1 ∧ e.ev.addr = slot) ∧
      t.img.whole = s.img.whole ∧ s.sameBytes t ∧ s.sameRegs t eventRegs ∧ t.cores = s.cores ∧ t.fx = s.fx) ∧
  (∀ (s : State) (slot : Nat) (c? : Option ImageContent), s.img.slots.length = 4 → slot < 4 → (s.slot slot).state = 1 →
    headerOk s (s.slot slot) = true → s.sec.opKey = none → s.port.events.length < 256 →
    ∃ t e, exec (.imageVerifyDone slot c?) s = .next t ∧ t.slot slot = {} ∧ t.port.events.getLast? = some e ∧
      e.ev.status = stBadSignature) ∧
  (∀ (s : State) (tag slot : Nat), servesNow s tag = true → s.img.slots.length = 4 → slot < 4 → (s.slot slot).state = 2 →
    ∃ t, exec (.imgRelease tag slot) s = .next t ∧ t.slot slot = {} ∧ (∀ i, i ≠ slot → t.slot i = s.slot i) ∧
      s.answered t 0 (shortAnswer s tag 3 stOK) ∧
      t = { s with img := { s.img with slots := t.img.slots }, port := { s.port with answers := t.port.answers }, out := t.out }) ∧
  ∀ (s : State) (tag slot : Nat), servesNow s tag = true → (4 ≤ slot ∨ (s.slot slot).state = 1 ∨ (s.slot slot).state = 3) →
    ∃ t, exec (.imgRelease tag slot) s = .next t ∧ s.answered t 0 (shortAnswer s tag 3 stProgramError) ∧ s.onlyAnswer t

/-- IMG_ACTIVATE (R257, R262, R268): a VERIFIED whole image within the present capacity, at an A at least 3 ticks ahead with no
activation pending, becomes the pending activation, and so does a group image that shares the active image and whose shift fits;
a whole image beyond the capacity is answered CAPACITY_LOWERED, and an A too near PROGRAM_ERROR, with no other effect. -/
def Obligations.ActivationsAreScheduled : Prop :=
  (∀ (s : State) (tag slot a h : Nat) (c : ImageContent), servesNow s tag = true → s.slotContent slot = some c → c.kind = 0 →
    s.lcState = 2 → (s.slot slot).state = 2 → s.fn.toNat + 3 ≤ a → a < 2 ^ 64 → s.img.pend = none →
    withinCapacity s c.require = true →
    ∃ t, exec (.imgActivate tag slot a h) s = .next t ∧ t.img.pend = some ⟨slot, BitVec.ofNat 64 a, h, 0, true, false⟩ ∧
      t.pwr.preRamp = preRampOf s c ∧ t.fx.capHalt = false ∧ s.answered t 0 (shortAnswer s tag 2 stOK) ∧
      t.img = { s.img with pend := t.img.pend } ∧ t.fx.cur = s.fx.cur ∧ t.fx.halt = s.fx.halt ∧ s.sameBytes t ∧ s.sameRegs t [] ∧
      t.cores = s.cores ∧ t.tk = s.tk) ∧
  (∀ (s : State) (tag slot a h : Nat) (c w : ImageContent), servesNow s tag = true → s.slotContent slot = some c → c.kind = 1 →
    s.image = some w → w.sharedId = c.sharedId → shiftOk h c = true → s.lcState = 2 → (s.slot slot).state = 2 →
    s.fn.toNat + 3 ≤ a → a < 2 ^ 64 → s.img.pend = none →
    ∃ t, exec (.imgActivate tag slot a h) s = .next t ∧ t.img.pend = some ⟨slot, BitVec.ofNat 64 a, h, 0, false, false⟩ ∧
      s.answered t 0 (shortAnswer s tag 2 stOK) ∧
      t = { s with img := { s.img with pend := t.img.pend }, port := { s.port with answers := t.port.answers }, out := t.out }) ∧
  (∀ (s : State) (tag slot a h : Nat) (c : ImageContent), servesNow s tag = true → s.slotContent slot = some c → c.kind = 0 →
    s.lcState = 2 → (s.slot slot).state = 2 → s.fn.toNat + 3 ≤ a → a < 2 ^ 64 → s.img.pend = none →
    withinCapacity s c.require = false →
    ∃ t, exec (.imgActivate tag slot a h) s = .next t ∧ s.answered t 0 (shortAnswer s tag 2 stCapacityLowered) ∧ s.onlyAnswer t) ∧
  ∀ (s : State) (tag slot a h : Nat), servesNow s tag = true →
    (s.slotContent slot = none ∨ s.lcState ≠ 2 ∨ (s.slot slot).state ≠ 2 ∨ a < s.fn.toNat + 3 ∨ s.img.pend ≠ none) →
    ∃ t, exec (.imgActivate tag slot a h) s = .next t ∧ s.answered t 0 (shortAnswer s tag 2 stProgramError) ∧ s.onlyAnswer t

/-- IMAGE_ACTIVATION (R256, R260): at the tick before which readiness succeeded, a whole image becomes ACTIVE: its sections give
every core its configuration, no instruction, version or window of before remains, result tags are EMPTY, the image's registers
are loaded, the variant is 0, and WFN goes on from A; HBM and the arrays keep their bytes. Without readiness, or at another
tick, nothing happens. -/
def Obligations.ActivationTakesEffectAtItsTick : Prop :=
  (∀ (s : State) (p : Pend) (c : ImageContent), s.img.pend = some p → p.a = s.fn + 1 → p.go = true → p.whole = true →
    s.img.slots.length = 4 → p.slot < 4 → s.slotContent p.slot = some c →
    ∃ t, exec .imageActivation s = .next t ∧ t.img.whole = some p.slot ∧ (t.slot p.slot).state = 3 ∧ t.image = some c ∧
      t.img.actA = p.a ∧ t.img.pend = none ∧ t.img.groups = [] ∧ t.fx.wfn = p.a - 1 ∧ t.fx.halt = 0 ∧ t.fx.rework = [] ∧
      t.variant = 0 ∧ t.reg nmCtrl = c.nmCtrl ∧ t.regFld fxCtrl 0 4 = c.domain.replayMax % 16 ∧ t.tk.period = c.frame.periodNs ∧
      (∀ i, i < 768 → (t.core i).cfg = (c.cores.find? fun g => g.core = i) ∧ (t.core i).ops = [] ∧ (t.core i).ver = [] ∧
        (t.core i).windows = [] ∧ (t.core i).prog = none ∧ (t.core i).tokens = (s.core i).tokens) ∧
      (∀ core k, core < 768 → k < 4096 → t.resultFull core k = false) ∧ t.hbm = s.hbm ∧ t.mac = s.mac ∧ t.scale = s.scale ∧
      t.sec = s.sec) ∧
  ∀ (s : State), (∀ p, s.img.pend = some p → p.a ≠ s.fn + 1 ∨ p.go = false) → exec .imageActivation s = .next s

/-! ### Recovery and self-test -/

/-- MACRO_RETIREMENT, CORE_SWAP, PSEUDO_CHANNEL_REMAP and RETIREMENT_COMPLETE (R339, R340, R341, R405): where retirement is allowed,
the failed macro is marked retired and its logical macro goes to the lowest free spare, a kept transient with its contents; the
failed core is marked and its logical core goes to a spare core with its banks, but a bank that is OFF takes the state RETIRED in
place with no hold (R168); a failed pseudo-channel takes 768 MiB off usable
HBM; a retirement carried out leaves the list when it completes, with its event. With none to carry out, nothing happens. -/
def Obligations.FailedUnitsAreRetiredAndReplaced : Prop :=
  (∀ (s : State) (r : Retire) (core lm q : Nat), nextRetire s [0] = some r → mayRetire s = true →
    logicalOf s r.die r.pcore = some core → (s.core core).rotation = none → core / 64 = r.die → core < 768 → lm < 256 →
    ((List.range (SMap.get (fun _ => 256) s.img.macros core)).find? fun l => s.regFld (roleA core l) 8 9 = r.index) = some lm →
    SMap.get (fun _ => 0) s.bist.pmacroOf (core * 256 + lm) = 0 →
    freeSpare ((s.markRetired 0 (s.pcIx core * 264 + r.index)).setBit fxSticky 3) core [] = some q →
    ∃ t, exec (.macroRetirement true) s = .next t ∧ t.isRetired 0 (s.pcIx core * 264 + r.index) = true ∧ t.pmacro core lm = q ∧
      t.regBit fxSticky 3 = true ∧ (∀ l, l < 256 → l ≠ lm → t.pmacro core l = s.pmacro core l) ∧
      (s.role core lm = 3 → badWords s (s.pcIx core * 264 + r.index) = [] → Mem.wf s.mac = true → ∀ o, o < 32768 →
        Mem.get t.mac ((s.pcIx core * 264 + q) * 32768 + o) = Mem.get s.mac ((s.pcIx core * 264 + r.index) * 32768 + o)) ∧
      (∀ a, a / 32768 ≠ s.pcIx core * 264 + q → Mem.get t.mac a = Mem.get s.mac a) ∧
      (∃ x ∈ t.fx.retires, x = { r with started := true }) ∧ t.img = s.img ∧ t.hbm = s.hbm ∧ t.spad = s.spad ∧ t.tk = s.tk) ∧
  (∀ (s : State), nextRetire s [0] = none → ∀ pass, exec (.macroRetirement pass) s = .next s) ∧
  (∀ (s : State) (r : Retire) (core q : Nat), nextRetire s [1, 2] = some r → mayRetire s = true → r.unit = 1 →
    logicalOf s r.die r.pcore = some core → core / 64 = r.die →
    freeCore ((s.setBit fxSticky 3).markRetired 26144 (r.die * 66 + r.pcore)) r.die = some q →
    ∃ t, exec (.coreSwap true) s = .next t ∧ t.isRetired 26144 (r.die * 66 + r.pcore) = true ∧ t.pcore core = q ∧
      t.regBit fxSticky 3 = true ∧ (∃ x ∈ t.fx.retires, x = { r with started := true }) ∧
      (∀ j, j ≠ core → t.pcore j = s.pcore j) ∧ (Mem.wf s.spad = true → s.err.spFlip = [] → ∀ o, o < 2 ^ 22 →
        (bankPwr s core (o / 64 % 32) = 1 ∨ bankPwr s core (o / 64 % 32) = 2) →
        Mem.get t.spad ((r.die * 66 + q) * 2 ^ 22 + o) = Mem.get s.spad ((r.die * 66 + r.pcore) * 2 ^ 22 + o)) ∧
      t.hbm = s.hbm ∧ t.tk = s.tk ∧ t.sec = s.sec) ∧
  (∀ (s : State), nextRetire s [1, 2] = none → ∀ pass, exec (.coreSwap pass) s = .next s) ∧
  (∀ (s : State) (r : Retire) (pass : Bool), nextRetire s [1, 2] = some r → offBank s r = true → r.index < 32 →
    ∃ t, exec (.coreSwap pass) s = .next t ∧ t.isRetired 26244 ((r.die * 66 + r.pcore) * 32 + r.index) = true ∧
      (∀ core, logicalOf s r.die r.pcore = some core → bankPwr t core r.index = 3) ∧ t.fx.retires = s.fx.retires.erase r ∧
      t.regBit fxSticky 3 = true ∧ t.fx.hold = s.fx.hold ∧ t.img = s.img ∧
      (∀ j, t.core j = { s.core j with banks := (t.core j).banks }) ∧ s.sameBytes t) ∧
  (∀ (s : State) (r : Retire), nextRetire s [5] = some r → mayRetire s = true → s.err.hbmBad = [] →
    ∃ t, exec .pseudoChannelRemap s = .next t ∧ t.img.hbmBytes = s.img.hbmBytes - 805306368 ∧ t.isRetired 29484 r.index = true ∧
      t.regBit fxSticky 3 = true ∧ t.regBit fxCapSum 30 = true ∧ t.img.capFn = s.fn ∧
      (∃ x ∈ t.fx.retires, x = { r with started := true }) ∧
      (∀ a, a < s.img.hbmBytes - 805306368 → Mem.get t.hbm a = Mem.get s.hbm a) ∧ t.spad = s.spad ∧ t.mac = s.mac ∧
      t.scale = s.scale ∧ t.cores = s.cores ∧ t.tk = s.tk) ∧
  ∀ (s : State) (r : Retire), (s.fx.retires.find? fun r => r.started) = some r →
    ∃ t, exec .retirementComplete s = .next t ∧ t.fx.retires = s.fx.retires.erase r ∧ t.regBit fxSticky 3 = true ∧
      (s.port.events.length < 256 → ∃ e, t.port.events.getLast? = some e ∧ e.ev.addr = fxSticky ∧ e.ev.bitIx = 3 ∧ e.ev.data = r.entry + 512 ∧ e.ev.fn = s.fn) ∧
      t = { s with fx := { s.fx with retires := t.fx.retires }, regs := t.regs, port := t.port, svc := t.svc, out := t.out } ∧
      s.sameRegs t (fxSticky :: eventRegs)

/-- ROTATION_STEP, ROTATION_TEST_DONE, ROTATION_COPY_BACK and CORE_TEST (R418 to R420): a step copies the next macro into the lowest free
spare, which serves it while it is tested, or tests an unused one as it is; a failed test retires the macro; after a passed
test the contents go back and the spare is free again, after a failed one the spare keeps them for good. A die tests a core it
does not use, lets it go, or retires it. -/
def Obligations.MacrosRotateAndCoresAreTested : Prop :=
  (∀ (s : State) (core pm lm q : Nat), (s.core core).rotation = none → rotationNext s core = some pm → s.regFld biCtrl 0 16 ≠ 0 →
    dieHeldNow s (core / 64) = false → s.coreOffered core = true → Mem.wf s.mac = true →
    ((List.range (s.macrosOf core)).find? fun l => s.regFld (roleA core l) 8 9 = pm && s.role core l ≠ 0) = some lm →
    commitTick s = true → freeSpare s core [] = some q → badWords s (s.pcIx core * 264 + pm) = [] →
    ∃ t, exec (.rotationStep core) s = .next t ∧ (t.core core).rotation = some ⟨pm, some lm, q, false, false⟩ ∧
      (t.core core).nextRot = pm + 1 ∧ t.pmacro core lm = q ∧
      (∀ o, o < 32768 → Mem.get t.mac ((s.pcIx core * 264 + q) * 32768 + o) = Mem.get s.mac ((s.pcIx core * 264 + pm) * 32768 + o)) ∧
      (∀ a, a / 32768 ≠ s.pcIx core * 264 + q → Mem.get t.mac a = Mem.get s.mac a) ∧ (∀ j, j ≠ core → t.core j = s.core j) ∧
      t.hbm = s.hbm ∧ t.spad = s.spad ∧ s.sameRegs t [] ∧ t.fx = s.fx ∧ t.img = s.img ∧ t.tk = s.tk) ∧
  (∀ (s : State) (core pm : Nat), (s.core core).rotation = none → rotationNext s core = some pm → s.regFld biCtrl 0 16 ≠ 0 →
    dieHeldNow s (core / 64) = false → s.coreOffered core = true →
    ((List.range (s.macrosOf core)).find? fun l => s.regFld (roleA core l) 8 9 = pm && s.role core l ≠ 0) = none →
    exec (.rotationStep core) s = .next (s.modCore core fun c =>
      { c with rotation := some ⟨pm, none, 0, false, false⟩, nextRot := pm + 1 })) ∧
  (∀ (s : State) (core lm : Nat) (r : Rotation), (s.core core).rotation = some r → r.tested = false → r.failed = false →
    r.lm = some lm →
    exec (.rotationTestDone core true) s = .next (s.modCore core fun c => { c with rotation := some { r with tested := true, failed := false } }) ∧
    ∃ t, exec (.rotationTestDone core false) s = .next t ∧
      (t.core core).rotation = some { r with tested := false, failed := true } ∧
      t.isRetired 0 (s.pcIx core * 264 + r.home) = true ∧ t.regBit biSticky 3 = true ∧ t.regBit fxSticky 3 = true ∧
      t.regFld biCnt 0 16 = min (s.regFld biCnt 0 16 + 1) 0xFFFF ∧ s.sameBytes t ∧ (∀ j, j ≠ core → t.core j = s.core j)) ∧
  (∀ (s : State) (core : Nat) (r : Rotation), (s.core core).rotation = some r → r.tested = false → r.failed = false → r.lm = none →
    exec (.rotationTestDone core true) s = .next (s.modCore core fun c => { c with rotation := none })) ∧
  (∀ (s : State) (core lm home spare : Nat), (s.core core).rotation = some ⟨home, some lm, spare, true, false⟩ → commitTick s = true →
    Mem.wf s.mac = true → badWords s (s.pcIx core * 264 + spare) = [] →
    ∃ t, exec (.rotationCopyBack core) s = .next t ∧ (t.core core).rotation = none ∧ t.pmacro core lm = s.regFld (roleA core lm) 8 9 ∧
      (∀ o, o < 32768 →
        Mem.get t.mac ((s.pcIx core * 264 + home) * 32768 + o) = Mem.get s.mac ((s.pcIx core * 264 + spare) * 32768 + o)) ∧
      (∀ a, a / 32768 ≠ s.pcIx core * 264 + home → Mem.get t.mac a = Mem.get s.mac a) ∧ t.hbm = s.hbm ∧ t.spad = s.spad ∧
      s.sameRegs t [] ∧ (∀ j, j ≠ core → t.core j = s.core j)) ∧
  (∀ (s : State) (core lm home spare : Nat), (s.core core).rotation = some ⟨home, some lm, spare, false, true⟩ → commitTick s = true →
    spare < 512 →
    ∃ t, exec (.rotationCopyBack core) s = .next t ∧ (t.core core).rotation = none ∧ t.regFld (roleA core lm) 8 9 = spare ∧
      t.pmacro core lm = spare ∧ s.sameBytes t ∧ s.sameRegs t [roleA core lm] ∧ (∀ j, j ≠ core → t.core j = s.core j)) ∧
  (∀ (s : State) (die p : Nat), die < 12 → s.bist.coreTest.length = 12 → nth none s.bist.coreTest die = none →
    s.regBit biCtrl 16 = true → dieHeldNow s die = false → coreTestNext s die = some p →
    ∃ t, exec (.coreTest die .start) s = .next t ∧ nth none t.bist.coreTest die = some p ∧
      t = { s with bist := { s.bist with coreTest := t.bist.coreTest, coreNext := t.bist.coreNext } }) ∧
  (∀ (s : State) (die p : Nat), die < 12 → s.bist.coreTest.length = 12 → nth none s.bist.coreTest die = some p →
    (∃ t, exec (.coreTest die .pass) s = .next t ∧ nth none t.bist.coreTest die = none ∧
      t = { s with bist := { s.bist with coreTest := t.bist.coreTest } }) ∧
    (∃ t, exec (.coreTest die .abort) s = .next t ∧ nth none t.bist.coreTest die = none ∧ t.regBit biSticky 6 = true ∧
      t = { s with bist := { s.bist with coreTest := t.bist.coreTest }, regs := t.regs } ∧ s.sameRegs t [biSticky]) ∧
    ∃ t, exec (.coreTest die .fail) s = .next t ∧ nth none t.bist.coreTest die = none ∧ t.isRetired 26144 (die * 66 + p) = true ∧
      t.regBit biSticky 3 = true ∧ t.hbm = s.hbm ∧ t.mac = s.mac ∧ t.spad = s.spad)

/-! ### The Drundoha ports -/

/-- CMD_FRAME and the commands FX_RESUME, FX_EXPORT, SHP_SET and REG_WRITE (R369, R371, R372, R281): a good frame on a port that
is UP puts its command into the FIFO, and at a full FIFO is answered NOT_READY with OVF and CMD_FULL set; a frame of any row with
a bad CRC, a reserved TYPE, a LENGTH that disagrees or a nonzero reserved field is discarded and counted; a repeated TAG gets the
answer kept for it. A command taken acts and is answered with its status, on port 0 (the model's choice for a command given at its
tick): it names the first resumed frame or the peer, sets a shape register of every core of the mask that capacity offers, or
writes a register. -/
def Obligations.CommandsAreQueuedAndTaken : Prop :=
  (∀ (s : State) (p : Nat) (f : Frame), s.hears p f = true → f.ftype = 1 → servesNow s f.tag = true → s.port.fifo.length < 64 →
    ∃ t, exec (.cmdFrame p f) s = .next t ∧ t.port.fifo = s.port.fifo ++ [{ port := p, tag := f.tag, cmd := cmdOf f }] ∧
      t.port.answers = s.port.answers ∧ t.regFld (hubQA 0 4) 0 9 = s.port.fifo.length + 1 ∧
      t = { s with port := t.port, regs := t.regs, out := t.out, svc := t.svc } ∧
      s.sameRegs t (hubQA 0 4 :: hubQA 0 8 :: eventRegs)) ∧
  (∀ (s : State) (p : Nat) (f : Frame), s.hears p f = true → f.ftype = 1 → servesNow s f.tag = true → 64 ≤ s.port.fifo.length →
    ∃ t, exec (.cmdFrame p f) s = .next t ∧ s.answered t p (shortAnswer s f.tag (cmdOp (cmdOf f)) stNotReady) ∧
      t.regBit (hubQA 0 4) 18 = true ∧ t.regBit dpSticky 2 = true ∧ t.port.fifo = s.port.fifo ∧
      t = { s with port := { s.port with answers := t.port.answers }, out := t.out, regs := t.regs } ∧
      s.sameRegs t [hubQA 0 4, hubQA 0 8, dpSticky]) ∧
  (∀ (s : State) (p : Nat) (f : Frame), p < 2 → s.portUp p = true → 3 ≤ s.stage →
    (f.crc ≠ frameCrc f ∨ f.ftype = 0 ∨ 6 < f.ftype ∨ frameLenOk f = false ∨ 32 ≤ f.flags ∨ f.rsv ≠ 0) →
    ∀ i ∈ frameRows p f, ∃ t, exec i s = .next t ∧ t.regBit dpSticky 0 = true ∧
      t.regFld (dpPortCnt p) 0 16 = min (s.regFld (dpPortCnt p) 0 16 + 1) 0xFFFF ∧ t = { s with regs := t.regs } ∧
      s.sameRegs t [dpSticky, dpPortCnt p]) ∧
  (∀ (s : State) (p : Nat) (f : Frame) (a : Answer), s.hears p f = true → 1 ≤ f.ftype → f.ftype ≤ 4 → 3 ≤ s.stage →
    (s.port.answers.find? fun a => a.tag = f.tag) = some a →
    ∀ i ∈ frameRows p f, exec i s = .next { s with out := .frame p (answerFrame a) :: s.out }) ∧
  (∀ (s : State) (tag r : Nat), servesNow s tag = true → (s.fx.halt = 1 ∨ s.fx.halt = 3) → s.fn.toNat + 3 ≤ r → r < 2 ^ 64 →
    ∃ t, exec (.fxResume tag r) s = .next t ∧ t.fx = { s.fx with resumeAt := some (BitVec.ofNat 64 r) } ∧
      s.answered t 0 (shortAnswer s tag 4 stOK) ∧
      t = { s with fx := t.fx, port := { s.port with answers := t.port.answers }, out := t.out }) ∧
  (∀ (s : State) (tag r : Nat), servesNow s tag = true → r < s.fn.toNat + 3 →
    ∃ t, exec (.fxResume tag r) s = .next t ∧ s.answered t 0 (shortAnswer s tag 4 stProgramError) ∧ s.onlyAnswer t) ∧
  (∀ (s : State) (tag peer : Nat), servesNow s tag = true → s.fx.halt ≠ 0 → peer < 16384 →
    ∃ t, exec (.fxExport tag peer) s = .next t ∧ t.fx = { s.fx with exportPeer := some peer } ∧
      s.answered t 0 (shortAnswer s tag 5 stOK) ∧
      t = { s with fx := t.fx, port := { s.port with answers := t.port.answers }, out := t.out }) ∧
  (∀ (s : State) (tag peer : Nat), servesNow s tag = true → s.fx.halt = 0 →
    ∃ t, exec (.fxExport tag peer) s = .next t ∧ s.answered t 0 (shortAnswer s tag 5 stProgramError) ∧ s.onlyAnswer t) ∧
  (∀ (s : State) (tag n : Nat) (mask : BitVec 768) (v : Word), servesNow s tag = true → n < 64 →
    ∃ t, exec (.shpSet tag mask n v) s = .next t ∧ s.answered t 0 (shortAnswer s tag 6 stOK) ∧
      (∀ i, i < 768 → t.reg (shpA i n) = if bit mask i && s.coreOffered i then v else s.reg (shpA i n)) ∧
      s.sameRegs t ((List.range 768).map fun i => shpA i n) ∧
      t = { s with regs := t.regs, fx := { s.fx with cur := { s.fx.cur with shpSets := s.fx.cur.shpSets ++ [(mask, n, v)] } },
                   port := { s.port with answers := t.port.answers }, out := t.out }) ∧
  (∀ (s : State) (tag n : Nat) (mask : BitVec 768) (v : Word), servesNow s tag = true → 64 ≤ n →
    ∃ t, exec (.shpSet tag mask n v) s = .next t ∧ s.answered t 0 (shortAnswer s tag 6 stProgramError) ∧ s.onlyAnswer t) ∧
  ∀ (s : State) (tag a : Nat) (v : Word), servesNow s tag = true →
    ∃ t, exec (.regWrite tag a v) s = .next t ∧ s.answered t 0 (shortAnswer s tag 7 (writeReg a v s).2) ∧
      t = { (writeReg a v s).1 with
        pending := s.pending, out := t.out, port := { (writeReg a v s).1.port with answers := t.port.answers } }

/-- WRITE (R255, R376 to R378): with no image active, or into the staging range of the active one, the bytes of a write to
HBM are stored and it is answered OK; one into a locked slot range is dropped whole with its flag; any other HBM target of
an active image takes a place in the input stage and is answered later, or, where the stage has no room, is answered NOT_READY. -/
def Obligations.HostWritesAreStoredOrStaged : Prop :=
  (∀ (s : State) (p : Nat) (f : Frame), s.hears p f = true → f.ftype = 2 → servesNow s f.tag = true →
    f.addr + f.data.length ≤ s.img.hbmBytes → runLocked s f.addr f.data.length = false →
    (s.active = false ∨ inStaging s f.addr f.data.length = true) →
    ∃ t, exec (.write p f) s = .next t ∧ s.answered t p (shortAnswer s f.tag 0 stOK) ∧
      (∀ i, i < f.data.length → Mem.get t.hbm (f.addr + i) = nth 0 f.data i ∧ hbmBad t (f.addr + i) = false) ∧
      (∀ x, (x < f.addr ∨ f.addr + f.data.length ≤ x) → Mem.get t.hbm x = Mem.get s.hbm x) ∧
      t = { s with
        hbm := t.hbm, err := { s.err with hbmBad := t.err.hbmBad }, port := { s.port with answers := t.port.answers }, out := t.out }) ∧
  (∀ (s : State) (p : Nat) (f : Frame), s.hears p f = true → f.ftype = 2 → servesNow s f.tag = true →
    f.addr + f.data.length ≤ s.img.hbmBytes → runLocked s f.addr f.data.length = true →
    ∃ t, exec (.write p f) s = .next t ∧ s.answered t p (shortAnswer s f.tag 0 stProgramError) ∧
      t.regBit secImgState 31 = true ∧ t = { s with regs := t.regs, port := t.port, svc := t.svc, out := t.out } ∧
      s.sameRegs t (secImgState :: eventRegs)) ∧
  ∀ (s : State) (p : Nat) (f : Frame), s.hears p f = true → f.ftype = 2 → servesNow s f.tag = true →
    f.addr + f.data.length ≤ s.img.hbmBytes → runLocked s f.addr f.data.length = false → s.active = true →
    inStaging s f.addr f.data.length = false → inStaging s f.addr 1 = false → inWeights s f.addr f.data.length = false →
    (stageBytes s + f.data.length ≤ 8388608 →
      exec (.write p f) s = .next { s with
        port := { s.port with stage := s.port.stage ++ [{ port := p, tag := f.tag, addr := f.addr, data := f.data }] } }) ∧
    (8388608 < stageBytes s + f.data.length →
      ∃ t, exec (.write p f) s = .next t ∧ s.answered t p (shortAnswer s f.tag 0 stNotReady) ∧
        t.regBit dpSticky 3 = true ∧ t = { s with
          regs := t.regs, port := { s.port with answers := t.port.answers }, out := t.out } ∧ s.sameRegs t [dpSticky])

/-- CONSUME, CONSUME_REEXAMINE and PEEK of one slot (R380 to R382): a full slot answers a CONSUME with the bytes of its current
copy, its WFN and its metadata, and its tag becomes EMPTY; a slot that is not full lets it wait for the next tick, where it is
answered or refused NOT_READY; a PEEK answers at once, says whether the slot is READY and changes nothing. The WFN of data that
no frame wrote is a free value (log entry 114). -/
def Obligations.ResultSlotsAreReadOnce : Prop :=
  (∀ (s : State) (p core slot : Nat) (f : Frame) (full : Bool), s.hears p f = true → f.ftype = 3 → servesNow s f.tag = true → f.len ≤ 256 →
    core = f.core → slot = f.addr % 2 ^ 14 →
    slotsOk s core slot f.len = true → s.resultFull core slot = full → (s.core core).gather = [] →
    (∀ i, i < f.len → (verBase s core + slot) * 256 + i < spSize ∧
      bankPwr s core (((verBase s core + ((s.core core).verOf slot).cur * verCount s core + slot) * 256 + i) / 64 % 32) = 2 ∧
      spFlip s core ((verBase s core + ((s.core core).verOf slot).cur * verCount s core + slot) * 256 + i) = 0) →
    (f.op = 1 → ∃ t a, exec (.peek p f) s = .next t ∧ s.answered t p a ∧ a.tag = f.tag ∧ a.op = 1 ∧
      a.status = stOK ∧ a.ready = full ∧ s.writerOf t a.fn (SMap.get (fun _ => (0, 0)) s.port.resultInfo (tagKey core slot)).1 ∧
      t = { s with port := { s.port with answers := t.port.answers }, out := t.out, freeCount := t.freeCount } ∧
      a.md = (SMap.get (fun _ => (0, 0)) s.port.resultInfo (tagKey core slot)).2.setWidth 14 ∧
      a.data = (List.range f.len).map fun i => Mem.get s.spad (s.pcIx core * 2 ^ 22 +
        ((verBase s core + ((s.core core).verOf slot).cur * verCount s core + slot) * 256 + i))) ∧
    (f.op = 0 → full = true → ∃ t a, exec (.consume p f) s = .next t ∧ s.answered t p a ∧ a.tag = f.tag ∧ a.op = 0 ∧
      a.status = stOK ∧ s.writerOf t a.fn (SMap.get (fun _ => (0, 0)) s.port.resultInfo (tagKey core slot)).1 ∧
      (a.data = (List.range f.len).map fun i => Mem.get s.spad (s.pcIx core * 2 ^ 22 +
        ((verBase s core + ((s.core core).verOf slot).cur * verCount s core + slot) * 256 + i))) ∧
      t.resultFull core slot = false ∧
      (∀ k, k ≠ tagKey core slot → SMap.get (fun _ => false) t.port.resultTags k = SMap.get (fun _ => false) s.port.resultTags k) ∧
      t = { s with port := { s.port with answers := t.port.answers, resultTags := t.port.resultTags }, out := t.out,
                   freeCount := t.freeCount }) ∧
    (f.op = 0 → full = false → exec (.consume p f) s = .next { s with
      port := { s.port with
        waitConsume := s.port.waitConsume ++ [{ fn := s.fn, port := p, tag := f.tag, core := core, slot := slot, len := f.len }] } })) ∧
  (∀ (s : State) (p : Nat) (f : Frame), s.hears p f = true → f.ftype = 3 → servesNow s f.tag = true →
    slotsOk s f.core (f.addr % 2 ^ 14) f.len = false →
    (f.op = 0 → ∃ t, exec (.consume p f) s = .next t ∧ s.answered t p (shortAnswer s f.tag 0 stProgramError) ∧ s.onlyAnswer t) ∧
    (f.op = 1 → ∃ t, exec (.peek p f) s = .next t ∧ s.answered t p (shortAnswer s f.tag 1 stProgramError) ∧ s.onlyAnswer t)) ∧
  (∀ s : State, (∀ w ∈ s.port.waitConsume, ¬ w.fn < s.fn) → exec .consumeReexamine s = .next s) ∧
  ∀ (s : State) (w : WaitRead), s.port.waitConsume = [w] → w.port < 2 → w.fn < s.fn → slotsOk s w.core w.slot w.len = true →
    (allFull s w.core w.slot w.len = true → ∃ t a, exec .consumeReexamine s = .next t ∧ s.answered t w.port a ∧ a.tag = w.tag ∧
      a.op = 0 ∧ a.status = stOK ∧ t.port.waitConsume = [] ∧ (∀ k ∈ slotsOf w.slot w.len, t.resultFull w.core k = false) ∧
      s.sameBytes t) ∧
    (allFull s w.core w.slot w.len = false → ∃ t, exec .consumeReexamine s = .next t ∧
      s.answered t w.port (shortAnswer s w.tag 0 stNotReady) ∧ t.port.waitConsume = [] ∧
      t = { s with port := { s.port with answers := t.port.answers, waitConsume := [] }, out := t.out })

/-- MEM, CAPACITY, ATTEST, ATTEST_REPORT and REG_READ (R267, R373, R380, R398, R399): a MEM read of HBM answers the current bytes,
marked UNCOMMITTED where they are in no unit; CAPACITY answers the record's first bytes; an ATTEST of 832 bytes waits for the
next tick, whose report holds its nonce and is signed, and any other is refused; REG_READ answers the value of the register with
its status. -/
def Obligations.HostReadsAreAnswered : Prop :=
  (∀ (s : State) (p a n : Nat) (f : Frame), s.hears p f = true → f.ftype = 3 → servesNow s f.tag = true → f.op = 2 →
    a = f.addr → n = f.len → a + n ≤ s.img.hbmBytes → (∀ i, i < n → hbmBad s (hbmReadAddr s (a + i)) = false) →
    ∃ t b, exec (.mem p f) s = .next t ∧ s.answered t p b ∧ b.tag = f.tag ∧ b.op = 2 ∧ b.status = stOK ∧
      (b.data = (List.range n).map fun i => Mem.get s.hbm (hbmReadAddr s (a + i))) ∧
      t = { s with port := { s.port with answers := t.port.answers }, out := t.out, freeCount := t.freeCount } ∧
      ((∃ i, i < n ∧ s.unitAt (a + i) = none) → b.uncommitted = true ∧ b.fn = s.fn ∧ s.onlyAnswer t) ∧
      ((∀ i, i < n → s.unitAt (a + i) ≠ none) → b.uncommitted = false)) ∧
  (∀ (s : State) (p : Nat) (f : Frame), s.hears p f = true → f.ftype = 3 → servesNow s f.tag = true → f.op = 3 →
    ∃ t b, exec (.capacity p f) s = .next t ∧ s.answered t p b ∧ s.onlyAnswer t ∧ b.tag = f.tag ∧ b.op = 3 ∧
      b.status = stOK ∧ b.data = (capBytes s).take f.len) ∧
  (∀ (s : State) (p : Nat) (f : Frame), s.hears p f = true → f.ftype = 3 → servesNow s f.tag = true → f.op = 4 → f.len = 832 →
    canAttest s = true → exec (.attest p f) s = .next { s with
      port := { s.port with
        waitAttest := s.port.waitAttest ++ [{ fn := s.fn, port := p, tag := f.tag, core := 0, slot := f.addr, len := 832 }] } }) ∧
  (∀ (s : State) (p : Nat) (f : Frame), s.hears p f = true → f.ftype = 3 → servesNow s f.tag = true → f.op = 4 →
    (f.len ≠ 832 ∨ canAttest s = false) →
    ∃ t, exec (.attest p f) s = .next t ∧ s.answered t p (shortAnswer s f.tag 4 stProgramError) ∧ s.onlyAnswer t) ∧
  (∀ s : State, (∀ w ∈ s.port.waitAttest, ¬ w.fn < s.fn) → exec .attestReport s = .next s) ∧
  (∀ (s : State) (w : WaitRead) (key : BitVec 256), s.port.waitAttest = [w] → w.port < 2 → w.fn < s.fn → s.safe = 0 → 7 ≤ s.stage →
    s.sec.identity = some key → ∃ t b, exec .attestReport s = .next t ∧ s.answered t w.port b ∧ b.tag = w.tag ∧ b.op = 4 ∧
      b.status = stOK ∧ b.data.take 28 = leBytes 0x41545331 4 ++ leBytes 1 2 ++ leBytes s.lcState 1 ++ leBytes
        ((decide (s.regFld secTamper 0 3 ≠ 0)).toNat + 2 * (decide (mapBytes s ≠ storedMap s)).toNat) 1 ++
        leBytes (s.reg secIdent).toNat 4 ++ leBytes s.moduleId 2 ++ List.replicate 2 0 ++ leBytes w.slot 6 ++ leBytes w.tag 4 ++
        List.replicate 2 0 ∧
      b.data.drop 768 = leBytes (Config.sm2Sign key (leBytes (hashOf (b.data.take 768)) 32)).toNat 64 ∧
      t = { s with port := { s.port with answers := t.port.answers, waitAttest := [] }, out := t.out }) ∧
  ∀ (s : State) (p a : Nat) (f : Frame), s.hears p f = true → f.ftype = 4 → servesNow s f.tag = true → a = f.addr →
    (∀ l, s.latch (portPath p) = some l → l.addr + 4 ≠ a) →
    ∃ t, exec (.regRead p f) s = .next t ∧
      s.answered t p { tag := f.tag, op := 0, status := accessStatus s a, fn := s.fn, data := leBytes (regValue s a).toNat 4 } ∧
      s.sameBytes t ∧ (isPeak a = false → s.sameRegs t [])

/-- EVT_ACK, EVENT_RESEND and PORT_STATE_CHANGE (R367, R374): an acknowledged entry leaves the event FIFO; entries still held are
sent again on every port that is UP, and those not yet sent on a port that comes UP; after entries were dropped, the first entry
that leaves carries EVENT_LOST; a port that goes DOWN is flagged and counted. -/
def Obligations.EventsReachTheHost : Prop :=
  (∀ (s : State) (seq p : Nat) (f : Frame), s.hears p f = true → f.ftype = 5 → seq = leNat f.data → 3 ≤ s.stage → s.safe = 0 →
    ∃ t, exec (.evtAck p f) s = .next t ∧ t.port = { s.port with events := s.port.events.filter fun e => decide (seq < e.seq) } ∧
      (s.eventsOk = true → t.regFld (hubQA 1 4) 0 9 = t.port.events.length) ∧ t = { s with port := t.port, regs := t.regs } ∧
      s.sameRegs t [hubQA 1 4]) ∧
  (∀ (s : State), (s.portUp 0 = true ∨ s.portUp 1 = true) → ∃ t, exec .eventResend s = .next t ∧
    t.port = { (reportLost (fun _ => true) s).port with
      events := (reportLost (fun _ => true) s).port.events.map fun e => { e with sent := true } } ∧
    (∀ p e rest, p < 2 → s.portUp p = true → s.port.lostPending = true → s.port.events = e :: rest →
      t.port.lostPending = false ∧ ∃ l, Out.frame p (eventFrame ({ e with ev := { e.ev with lost := true } } :: l)) ∈ t.out) ∧
    (∀ p, p < 2 → s.portUp p = true → ∀ e ∈ s.port.events, ∃ l, l.length ≤ 64 ∧
      (∃ x ∈ l, x.seq = e.seq ∧ x.ev = { e.ev with lost := x.ev.lost }) ∧ Out.frame p (eventFrame l) ∈ t.out) ∧
    t = { s with port := t.port, out := t.out }) ∧
  (∀ (s : State), s.portUp 0 = false → s.portUp 1 = false → exec .eventResend s = .next s) ∧
  (∀ (s : State) (p : Nat), p < 2 → s.portUp p = false → ∃ t, exec (.portStateChange p true) s = .next t ∧ t.portUp p = true ∧
    t.port = { (reportLost (fun e => !e.sent) s).port with
      events := (reportLost (fun e => !e.sent) s).port.events.map fun e => { e with sent := true } } ∧
    (∀ e ∈ s.port.events, e.sent = false → ∃ l, l.length ≤ 64 ∧
      (∃ x ∈ l, x.seq = e.seq ∧ x.ev = { e.ev with lost := x.ev.lost }) ∧ Out.frame p (eventFrame l) ∈ t.out) ∧
    t = { s with port := t.port, regs := t.regs, out := t.out } ∧ s.sameRegs t [dpPortStat p]) ∧
  (∀ (s : State) (p : Nat), p < 2 → s.portUp p = true → ∃ t, exec (.portStateChange p false) s = .next t ∧ t.portUp p = false ∧
    t.regBit dpSticky 1 = true ∧ t.regFld (dpPortCnt p) 16 16 = min (s.regFld (dpPortCnt p) 16 16 + 1) 0xFFFF ∧
    t = { s with regs := t.regs } ∧ s.sameRegs t [dpPortStat p, dpSticky, dpPortCnt p]) ∧
  ∀ (s : State) (p : Nat), exec (.portStateChange p (s.portUp p)) s = .next s

/-! ### Security and bring-up -/

/-- NV_STORE and NV_PAGE_STORE (R400 to R404, R406): a store that the life-cycle state allows joins the queue with its pages and
is answered OK, one it does not allow PROGRAM_ERROR; the security core writes the next page into the copy that is not read,
marks it complete after a good read-back and leaves every other page; after the last page the store leaves the queue; without the
hold-up energy it ends with nothing written. -/
def Obligations.StoresWritePagesOneAtATime : Prop :=
  (∀ (s : State) (tag : Nat) (d : List Byte) (pl : NvPayload), pl = nvPayload d → servesNow s tag = true → pl.group ∈ [1, 4, 5, 6] →
    pl.src = 0 → pl.rsvZero = true → groupAllowed s.lcState pl.group = true →
    ((storePages s pl.group []).any fun x => pageWorn s x.1) = false → s.lcBusy = false → s.sec.queue = [] → s.sec.running = false →
    ∃ t, exec (.nvStore tag d) s = .next t ∧ s.answered t 0 (shortAnswer s tag 8 stOK) ∧
      t.sec = { s.sec with queue := [⟨pl.group, tag, 0, storePages s pl.group [], none, false⟩] } ∧
      t = { s with sec := t.sec, port := { s.port with answers := t.port.answers }, out := t.out }) ∧
  (∀ (s : State) (tag : Nat) (d l : List Byte) (pl : NvPayload), pl = nvPayload d → servesNow s tag = true → pl.group ∈ [2, 3, 7, 8] →
    pl.src = 1 → pl.rsvZero = true → groupAllowed s.lcState pl.group = true → (pl.group = 2 ∨ s.debugOpen = false) →
    (pl.group = 2 → s.rebootReq = false) → pl.length ≠ 0 → pl.addr + pl.length ≤ s.img.hbmBytes →
    (7 ≤ pl.group → pl.length ≤ 1560576 ∧ s.regFld secFw 0 1 ≠ pl.group - 7) →
    (∀ i, i < pl.length → hbmBad s (hbmReadAddr s (pl.addr + i)) = false) →
    l = (List.range pl.length).map (fun i => Mem.get s.hbm (hbmReadAddr s (pl.addr + i))) →
    ∃ chk, chk = (if pl.group = 2 then checkRotation s l else if pl.group = 3 then checkBoot s l else stOK) ∧
      (chk ≠ stOK → ∃ t, exec (.nvStore tag d) s = .next t ∧ s.answered t 0 (shortAnswer s tag 8 chk) ∧ s.onlyAnswer t) ∧
      (chk = stOK → ((storePages s pl.group l).any fun x => pageWorn s x.1) = false → s.lcBusy = false → s.sec.queue = [] →
        s.sec.running = false → ∃ t, exec (.nvStore tag d) s = .next t ∧ s.answered t 0 (shortAnswer s tag 8 stOK) ∧
          t.sec = { s.sec with queue := [⟨pl.group, tag, 1, storePages s pl.group l, none, false⟩] } ∧
          t = { s with sec := t.sec, port := { s.port with answers := t.port.answers }, out := t.out })) ∧
  (∀ (s : State) (tag : Nat) (d : List Byte) (pl : NvPayload), pl = nvPayload d → servesNow s tag = true →
    (groupAllowed s.lcState pl.group = false ∨ pl.rsvZero = false ∨ pl.src ≠ groupSrc pl.group) →
    ∃ t, exec (.nvStore tag d) s = .next t ∧ s.answered t 0 (shortAnswer s tag 8 stProgramError) ∧ s.onlyAnswer t) ∧
  (∀ (s : State) (r : StoreRec) (rest : List StoreRec) (page : Nat) (data : List Byte) (more : List (Nat × List Byte)) (rb1 rb2 : Bool),
    s.sec.queue = r :: rest → s.sec.stopped = false → r.pages = (page, data) :: more → pageWorn s page = false →
    (r.checked = true ∨ inputOk s = true ∧ energyOk s 1 = true) → (rb1 || rb2) = true →
    ∃ t, exec (.nvPageStore rb1 rb2) s = .next t ∧ (nvPhys t (targetPhys s page)).data = data ∧
      (nvPhys t (targetPhys s page)).len = data.length ∧ (nvPhys t (targetPhys s page)).complete = true ∧
      (nvPhys t (targetPhys s page)).writes = (nvPhys s (targetPhys s page)).writes + (if rb1 then 1 else 2) ∧
      (∀ i, i ≠ targetPhys s page → nvPhys t i = nvPhys s i) ∧
      t.sec.queue = (if more = [] then rest else { r with pages := more } :: rest) ∧
      t.sec.newState = (if more = [] ∧ r.transition.isSome then r.transition else s.sec.newState) ∧
      (rb1 = false → t.regBit nvSticky 2 = true) ∧
      t = { s with sec := t.sec, regs := t.regs, port := t.port, svc := t.svc, out := t.out } ∧
      s.sameRegs t (nvSticky :: secLc :: eventRegs)) ∧
  (∀ (s : State) (r : StoreRec) (rest : List StoreRec) (page : Nat) (data : List Byte) (more : List (Nat × List Byte)),
    s.sec.queue = r :: rest → s.sec.stopped = false → r.pages = (page, data) :: more → pageWorn s page = false →
    (r.checked = true ∨ inputOk s = true ∧ energyOk s 1 = true) →
    ∃ t, exec (.nvPageStore false false) s = .next t ∧ (nvPhys t (targetPhys s page)).complete = false ∧
      (nvPhys t (targetPhys s page)).worn = true ∧ (∀ i, i ≠ targetPhys s page → nvPhys t i = nvPhys s i) ∧ t.sec.queue = rest) ∧
  (∀ (s : State) (r : StoreRec) (rest : List StoreRec) (rb1 rb2 : Bool), s.sec.queue = r :: rest → s.sec.stopped = false →
    r.pages ≠ [] → r.checked = false → (inputOk s = false ∨ energyOk s 1 = false) →
    ∃ t, exec (.nvPageStore rb1 rb2) s = .next t ∧ t.sec.nvm = s.sec.nvm ∧ t.sec.queue = rest ∧ t.regBit nvSticky 1 = true) ∧
  ∀ (s : State) (rb1 rb2 : Bool), s.sec.queue = [] → exec (.nvPageStore rb1 rb2) s = .next s

/-- LC_SET (R391 to R393, R395): every LC_SET taken changes the nonce; a transition that is not in the table is refused; one
that is, with nothing in its way, is refused BAD_SIGNATURE unless its signature is good, and otherwise wipes the oasis, shows
LC_BUSY and REBOOT_REQ and queues its pages, the state's own page last. -/
def Obligations.TransitionsAreAuthorised : Prop :=
  (∀ (s : State) (tag : Nat) (d : List Byte) (pl : LcPayload), pl = lcPayload d → servesNow s tag = true →
    transitionBy s.lcState pl.target = none → ∃ t, exec (.lcSet tag d) s = .next t ∧ s.answered t 0 (shortAnswer s tag 9 stProgramError) ∧ t.reg64 secLcNonce = s.free 64 ∧
      t.freeCount = s.freeCount + 1 ∧ t.sec = s.sec ∧ s.sameRegs t [secLcNonce, secLcNonce + 4] ∧ s.sameBytes t) ∧
  ∀ (s : State) (tag : Nat) (d : List Byte) (pl : LcPayload) (op : Bool), pl = lcPayload d → servesNow s tag = true →
    transitionBy s.lcState pl.target = some op →
    pl.rsvZero = true → s.debugOpen = false → (s.img.slots.all fun x => decide (x.state ≠ 3)) = true → s.sec.queue = [] →
    s.lcBusy = false → (pl.target = 2 ∨ pl.opKey = 0) → (s.regBit secTamper 3 = false ∨ pl.target = 4) → inputOk s = true →
    energyOk s (transitionPages s pl.target pl.opKey).length = true →
    ∃ t, exec (.lcSet tag d) s = .next t ∧ t.freeCount ≠ s.freeCount ∧ s.sameBytes t ∧ t.lcState = s.lcState ∧
      s.sameRegs t [secLcNonce, secLcNonce + 4, secLc] ∧
      (lcAuthorised s pl op = false → s.answered t 0 (shortAnswer s tag 9 stBadSignature) ∧ t.sec = s.sec ∧ t.reg secLc = s.reg secLc) ∧
      (lcAuthorised s pl op = true → s.answered t 0 (shortAnswer s tag 9 stOK) ∧ t.sec.identity = none ∧ t.sec.opKey = none ∧
        t.lcBusy = true ∧ t.rebootReq = true ∧ t.regBit secLc 4 = true ∧
        ∃ r, t.sec.queue = [r] ∧ r.transition = some pl.target ∧ r.pages = transitionPages s pl.target pl.opKey ∧
          r.pages.getLast? = some (0, [BitVec.ofNat 8 pl.target]) ∧ t.sec.nvm = s.sec.nvm)

/-- TAMPER_TRIP, BI_DEBUG_OPEN and BRING_UP (R388, R395, R396, R408, R409, R414, R421): a tamper trip wipes the oasis, stops the security
core and the compute dies, takes every link that is not retired DOWN and puts the module in safe state 2; debug opens, with a wipe,
only in MANUFACTURE or RMA with every slot EMPTY and no store; bring-up ends READY with a good firmware slot and a good hub, in safe
state 1 with no good firmware, and in safe state 3 with a failed hub. -/
def Obligations.TamperDebugAndBringUp : Prop :=
  (∀ (s : State) (k : Tamper), ∃ t, exec (.tamperTrip k) s = .next t ∧ t.sec.identity = none ∧ t.sec.opKey = none ∧
    t.sec.stopped = true ∧ t.sec.queue = [] ∧ t.sec.nvm = s.sec.nvm ∧ t.safe = 2 ∧ t.stage = s.stage ∧
    t.regBit secTamper (tamperBit k) = true ∧ (k = .mesh → t.regBit secTamper 3 = true) ∧ t.regBit secLc 4 = true ∧
    (∀ j, (t.core j).prog = none) ∧ t.flight = [] ∧
    (∀ i, i < 32 → t.linkState i = if s.linkState i = 5 then 5 else 0) ∧ s.sameBytes t ∧
    s.sameRegs t (secTamper :: secLc :: biStatus :: (List.range 32).map fun i => linkA i 0)) ∧
  (∀ s : State, (s.lcState = 0 ∨ s.lcState = 3) → (s.img.slots.all fun x => decide (x.state = 0)) = true → s.sec.queue = [] →
    s.sec.running = false → s.lcBusy = false → ∃ t, exec .biDebugOpen s = .next t ∧ t.debugOpen = true ∧ t.regBit secLc 4 = true ∧
      t.lcState = s.lcState ∧ t = { s with sec := { s.sec with identity := none, opKey := none }, regs := t.regs } ∧
      s.sameRegs t [secLc]) ∧
  (∀ s : State, ((s.lcState ≠ 0 ∧ s.lcState ≠ 3) ∨ (s.img.slots.any fun x => decide (x.state ≠ 0)) = true ∨ s.sec.queue ≠ []) →
    exec .biDebugOpen s = .next s) ∧
  (∀ (s : State) (f : BootFindings), s.pwr.input = 2 → s.stage = 1 → s.safe = 0 → fwWritten s 0 = false → fwWritten s 1 = false →
    f.slotValid = (false, false) → ∃ t, exec (.bringUp f) s = .next t ∧ t.safe = 1 ∧ t.stage = 2 ∧ t.sec = s.sec ∧ t.tk = s.tk ∧
      t.img = s.img ∧ s.sameBytes t ∧ s.sameRegs t [secTamper, secLc, biStatus]) ∧
  (∀ (s : State) (f : BootFindings), s.pwr.input = 2 → s.stage = 1 → s.safe = 0 → pageFld s 3 0 1 % 2 = 0 → fwWritten s 0 = false →
    f.slotValid.1 = true → 1 ≤ f.slotVersion.1 → minVersion s ≤ f.slotVersion.1 →
    ∃ t, exec (.bringUp f) s = .next t ∧ t.fn = 0 ∧ (f.fails.contains .hub = false → t.stage = 7 ∧ t.safe = 0) ∧
      (f.fails.contains .hub = true → t.stage = 4 ∧ t.safe = 3 ∧ t.regBit biSticky 0 = true) ∧
      t.regFld secFw 0 1 = 0 ∧ t.sec.nvm = s.sec.nvm ∧ t.hbm = s.hbm ∧ t.mac = s.mac ∧ t.spad = s.spad) ∧
  ∀ (s : State) (f : BootFindings), (s.pwr.input ≠ 2 ∨ s.stage ≠ 1 ∨ s.safe ≠ 0) → exec (.bringUp f) s = .next s

/-! ### Power, temperature and the dies -/

/-- GOVERNOR_SAMPLE, GOVERNOR_MILLISECOND, PRE_RAMP_START and TARGET_DESCENT_START (R350, R354 to R357, R359, R360): the ballast fills the
real power up to the target, within its maximum; the cap follows the mean of the last samples; once a millisecond the
means of the samples are read out (rounded down, which is the model's choice, log entry 131), the target moves towards the budget by at most SLEW_MAX, and the ceiling to apply is the least of the two; the target
rises towards the first load budget, and descends, once its wait is over. -/
def Obligations.GovernorHoldsTheTarget : Prop :=
  (∀ (s : State) (pReal : Nat), s.pwr.input = 2 → s.pwr.cap = false → ∃ t, exec (.governorSample pReal) s = .next t ∧
    t.pwr.ballast = min (s.pwr.target - pReal) (ballastMax s) ∧ t.pwr.target = s.pwr.target ∧
    t.pwr.samples = ((pReal + t.pwr.ballast) :: s.pwr.samples).take 1000 ∧
    t.pwr.ballasts = (t.pwr.ballast :: s.pwr.ballasts).take 1000 ∧
    t.pwr.cap = decide (3250 * t.pwr.samples.length < sumN t.pwr.samples) ∧
    (s.pwr.target < pReal → s.pwr.overThisFrame = false → t.regBit pgSticky 0 = true) ∧
    (pReal + ballastMax s < s.pwr.target → s.pwr.satThisMs = false → t.regBit pgSticky 1 = true) ∧
    t = { s with pwr := t.pwr, regs := t.regs, port := t.port, svc := t.svc, out := t.out } ∧
    s.sameRegs t (pgSticky :: eventRegs)) ∧
  (∀ (s : State) (pIn ballast : Nat), s.pwr.input = 2 → s.pwr.preRamp = none → pIn = meanOf s.pwr.samples →
    ballast = meanOf s.pwr.ballasts → ∃ t, exec .governorMillisecond s = .next t ∧
    t.reg pgPower = BitVec.ofNat 32 (ballast % 65536 * 65536 + pIn % 65536) ∧ t.pwr.means = (pIn :: s.pwr.means).take 1000 ∧
    t.pwr.target ≤ s.pwr.target + s.regFld pgCtrl 0 11 ∧ s.pwr.target ≤ t.pwr.target + s.regFld pgCtrl 0 11 ∧
    (s.pwr.target ≤ budgetNow s → t.pwr.target = min (budgetNow s) (s.pwr.target + s.regFld pgCtrl 0 11)) ∧
    t.reg pgTarget = BitVec.ofNat 32 (budgetNow s * 65536 + t.pwr.target) ∧
    t.pwr.pendCeff = min t.pwr.cTh t.pwr.cV ∧ t.pwr.cTh ≤ s.pwr.cTh + 1 ∧
    t = { s with pwr := t.pwr, regs := t.regs } ∧ s.sameRegs t [pgPower, pgSticky, pgCnt, pgTarget, pgCeil]) ∧
  (∀ (s : State) (g sl : Nat), s.pwr.preRamp = some (0, g, sl) →
    exec .preRampStart s = .next { s with pwr := { s.pwr with ramping := true } }) ∧
  (∀ s : State, s.pwr.preRamp = none → exec .preRampStart s = .next s) ∧
  (∀ s : State, exec .targetDescentStart s = .next (if s.pwr.descentWait = some 0 then
    { s with pwr := { s.pwr with descentWait := none, descending := true } } else s)) ∧
  ∀ (s : State) (pReal : Nat), s.pwr.input ≠ 2 →
    exec (.governorSample pReal) s = .next s ∧ exec .governorMillisecond s = .next s

/-- TEMP_SAMPLE, JUNCTION_TRIP, DIE_THERMAL_RELEASE, INPUT_LOW, INPUT_HIGH, INPUT_RESTORED, DIE_TO_DIE_FLIT_ERROR,
DIE_CONTROLLER_HEARTBEAT_MISS and CLOCK_SUPPLY_FAULT (R317, R349, R361, R363, R415, R429): the hottest reading of each die is kept; a tripped die
is held, its cores stop and leave the capacity, and the frame has a fault; it is released when cool; an input out of range resets
the module but for the NVM, and a good input brings it to stage 1; a first failure of a flit is resent, and a second one, a missed
heartbeat or a supply fault is a fault of the frame. -/
def Obligations.DiesTripAndTheInputResets : Prop :=
  (∀ (s : State) (tj : List Nat), s.pwr.input = 2 →
    exec (.tempSample tj) s = .next { s with pwr := { s.pwr with tjMax := maxEach s.pwr.tjMax tj } }) ∧
  (∀ (s : State) (d : Nat), d < 12 → s.pwr.input = 2 → nth false s.bist.thermHeld d = false → dieHeldNow s d = false →
    ∃ t, exec (.junctionTrip d) s = .next t ∧ t.bist.thermHeld = s.bist.thermHeld.set d true ∧ t.regBit pgSticky 5 = true ∧
      t.regBit fxSticky 0 = true ∧ t.fx.cur.fault = true ∧ t.img.cores = s.img.cores.set d 0 ∧ t.regBit fxCapSum 30 = true ∧
      (∀ j, j / 64 = d → (t.core j).prog = none ∧ (t.core j).ops = []) ∧ (∀ j, j / 64 ≠ d → t.core j = s.core j) ∧
      s.sameBytes t ∧ t.tk = s.tk ∧ t.sec = s.sec ∧ t.links = s.links) ∧
  (∀ (s : State) (d : Nat) (fails : List BistFail), d < 12 → nth false s.bist.thermHeld d = true →
    nth 0 s.pwr.tj d + 5 < s.regFld pgCeil 24 8 → ∃ t, exec (.dieThermalRelease d fails) s = .next t ∧
      t.bist.thermHeld = s.bist.thermHeld.set d false ∧ t.regBit fxCapSum 30 = true ∧ t.img.capFn = s.fn ∧
      (∀ j, j / 64 ≠ d → t.core j = s.core j) ∧ t.hbm = s.hbm ∧ t.tk = s.tk ∧ t.sec = s.sec ∧
      (∀ x, x / (66 * 264 * 32768) ≠ d → Mem.get t.mac x = Mem.get s.mac x) ∧
      (∀ x, x / (66 * 2 ^ 22) ≠ d → Mem.get t.spad x = Mem.get s.spad x) ∧
      (fails = [] → nth false s.bist.dieHeld d = false → t.regFld (biDieA d) 0 2 = 1)) ∧
  (∀ (s : State) (d : Nat) (fails : List BistFail), (nth false s.bist.thermHeld d = false ∨
    s.regFld pgCeil 24 8 ≤ nth 0 s.pwr.tj d + 5) → exec (.dieThermalRelease d fails) s = .next s) ∧
  (∀ s : State, s.pwr.input = 2 → s.sec.queue = [] →
    (∃ t, exec .inputLow s = .next t ∧ t.pwr.input = 3 ∧ t.regBit pgSticky 6 = true ∧ t.sec.nvm = s.sec.nvm ∧ t.stage = 1 ∧
      t.safe = 0 ∧ t.fn = 0 ∧ t.active = false ∧ t.sec.identity = none ∧ t.reg64 secSerial = s.reg64 secSerial) ∧
    ∃ t, exec .inputHigh s = .next t ∧ t.pwr.input = 4 ∧ t.regBit pgSticky 7 = true ∧ t.sec.nvm = s.sec.nvm ∧ t.stage = 1 ∧
      t.safe = 0 ∧ t.fn = 0 ∧ t.active = false ∧ t.sec.identity = none ∧ t.reg64 secSerial = s.reg64 secSerial) ∧
  (∀ s : State, s.pwr.input ≠ 2 → ∃ t, exec .inputRestored s = .next t ∧ t.pwr.input = 2 ∧ t.regBit nvHoldup 31 = true ∧
    t.sec.nvm = s.sec.nvm ∧ t.stage = 1 ∧ t.safe = 0 ∧ t.fn = 0) ∧
  (∀ s : State, s.pwr.input = 2 → exec .inputRestored s = .next s) ∧
  (∀ (s : State) (d : Nat) (ring : Bool), d < 12 → dieHeldNow s d = false → ∃ t, exec (.dieToDieFlitError d ring false) s = .next t ∧
    SMap.get (fun _ => 0) t.bist.flitResend (d * 2 + ring.toNat) = SMap.get (fun _ => 0) s.bist.flitResend (d * 2 + ring.toNat) + 1 ∧
    t = { s with bist := { s.bist with flitResend := t.bist.flitResend } }) ∧
  (∀ (s : State) (d : Nat) (i : Instr), d < 12 → dieHeldNow s d = false →
    i ∈ [.dieToDieFlitError d true true, .dieToDieFlitError d false true, .dieControllerHeartbeatMiss d, .clockSupplyFault d] →
    ∃ t, exec i s = .next t ∧ t.fx.cur.fault = true ∧ t.regBit fxSticky 0 = true ∧
      (s.regFld fxCnt 0 16 < 65535 → t.regFld fxCnt 0 16 = s.regFld fxCnt 0 16 + 1) ∧ s.sameBytes t ∧ t.cores = s.cores ∧
      t.tk = s.tk ∧ t.sec = s.sec) ∧
  ∀ (s : State) (d : Nat) (i : Instr), d < 12 → dieHeldNow s d = true →
    i ∈ [.dieToDieFlitError d true false, .dieToDieFlitError d true true, .dieControllerHeartbeatMiss d, .clockSupplyFault d] →
    exec i s = .next s

/-! ### Reset and reductions -/

/-- The state after reset (R429 and the Reset columns of Tables 2.12, 9.10, 13.17, 14.12, 17.10 and 18.1): it is sound, no image is
active, FN is 0, and the registers of those tables read their reset values. The values that the spec does not give are the
model's (log entry 2) and no clause is about one. -/
def Obligations.ResetIsSound : Prop :=
  State.reset.memOk = true ∧ State.reset.queueOk = true ∧ State.reset.eventsOk = true ∧ State.reset.pending = [] ∧
  State.reset.active = false ∧ State.reset.fn = 0 ∧ State.reset.reg ftPeriod = 0x4E20 ∧ State.reset.reg ftGuard = 0x0A ∧
  State.reset.reg ftSrc = 1 ∧ State.reset.reg nmCtrl = 0x4022 ∧ State.reset.reg fxCtrl = 8 ∧ State.reset.reg fxCapSum = 0x03000000 ∧
  State.reset.reg pgCtrl = 0x30040 ∧ State.reset.reg pgStagger = 0x10000 ∧ State.reset.reg pgCeil = 0x5F323232 ∧
  State.reset.reg clEn = 0xFFFFFFFF ∧ State.reset.reg biCtrl = 0x10400 ∧ State.reset.reg biStatus = 1 ∧
  (∀ i, i < 32 → State.reset.linkState i = 0) ∧ (∀ d, d < 12 → State.reset.regFld (pgDieA d) 8 4 = 5) ∧
  ∀ core lm, core < 768 → lm < 256 → State.reset.role core lm = 0 ∧ State.reset.pmacro core lm = lm

/-- R136: the pair that a node forms for an element, its metadata and its readiness do not depend on the order in which the
inputs arrive, whatever the state of the node before; nor does the winner of a MAX or MIN whose candidates have indices of their
own, from a node that has none of the element. -/
def Obligations.ReductionsDoNotDependOnOrder : Prop :=
  (∀ (s : State) (n : NodeId) (k : ElemKey) (l l' : List NodeIn), l.Perm l' → (∀ i ∈ l, i.key = k ∧ i.op = 0) →
    (∀ i ∈ l, ∀ j ∈ l, i.expected = j.expected ∧ i.first = j.first) →
    (((forEach l (enterNode n) s).node n).find k).map (fun a => (a.received, a.full, a.canFold, a.out)) =
      (((forEach l' (enterNode n) s).node n).find k).map fun a => (a.received, a.full, a.canFold, a.out)) ∧
  ∀ (s : State) (n : NodeId) (k : ElemKey) (op : Nat) (l l' : List NodeIn), l.Perm l' → (op = 1 ∨ op = 2) →
    (s.node n).find k = none → (∀ i ∈ l, i.key = k ∧ i.op = op) →
    (∀ i ∈ l, ∀ j ∈ l, i.expected = j.expected ∧ i.first = j.first) → (l.map (·.lo)).Nodup →
    (((forEach l (enterNode n) s).node n).find k).map (fun a => (a.received, a.full, a.out)) =
      (((forEach l' (enterNode n) s).node n).find k).map fun a => (a.received, a.full, a.out)
end

