-- ==== Sys2Proof/Laws/Maps.lean ====
section
/-! SUPPORT. Laws of sparse maps and byte memories: read after write, and the canonical form. -/

namespace Sys2Proof.Machine

variable {α : Type}

theorem SMap.get_cons_self [DecidableEq α] (d : Nat → α) (k : Nat) (v : α) (m : SMap α)
    (h : ∀ e ∈ m, e.1 ≠ k) : SMap.get d (SMap.cons d k v m) k = v := by
  unfold SMap.cons
  split
  · rename_i hv
    rw [hv]
    clear hv
    induction m with
    | nil => rfl
    | cons e m ih =>
      obtain ⟨j, w⟩ := e
      have hj : j ≠ k := h (j, w) (by simp)
      simp only [SMap.get, if_neg hj]
      exact ih fun e he => h e (by simp [he])
  · simp [SMap.get]

theorem SMap.get_cons_other [DecidableEq α] (d : Nat → α) {j k : Nat} (v : α) (m : SMap α) (h : j ≠ k) :
    SMap.get d (SMap.cons d k v m) j = SMap.get d m j := by
  unfold SMap.cons
  split
  · rfl
  · simp [SMap.get, Ne.symm h]

theorem SMap.get_insert_self [DecidableEq α] (d : Nat → α) (k : Nat) (v : α) (m : SMap α)
    (h : ∀ e ∈ m, e.1 ≠ k) : SMap.get d (SMap.insert d k v m) k = v := by
  induction m with
  | nil => exact SMap.get_cons_self d k v [] (by simp)
  | cons e m ih =>
    obtain ⟨j, w⟩ := e
    have hj : j ≠ k := h (j, w) (by simp)
    simp only [SMap.insert]
    split
    · exact SMap.get_cons_self d k v _ h
    · simp only [SMap.get, if_neg hj]
      exact ih fun e he => h e (by simp [he])

theorem SMap.get_insert_other [DecidableEq α] (d : Nat → α) {i k : Nat} (v : α) (m : SMap α) (h : i ≠ k) :
    SMap.get d (SMap.insert d k v m) i = SMap.get d m i := by
  induction m with
  | nil => exact SMap.get_cons_other d v [] h
  | cons e m ih =>
    obtain ⟨j, w⟩ := e
    simp only [SMap.insert]
    split
    · exact SMap.get_cons_other d v _ h
    · simp only [SMap.get]
      split
      · rfl
      · exact ih

theorem SMap.get_filter_other (d : Nat → α) {i k : Nat} (m : SMap α) (h : i ≠ k) :
    SMap.get d (m.filter fun e => decide (e.1 ≠ k)) i = SMap.get d m i := by
  induction m with
  | nil => rfl
  | cons e m ih =>
    obtain ⟨j, w⟩ := e
    by_cases hj : j = k
    · simp [hj, SMap.get, Ne.symm h] at ih ⊢
      exact ih
    · simp [hj, SMap.get] at ih ⊢
      rw [ih]

/-- Reading what was just written. -/
@[simp] theorem SMap.get_set_self [DecidableEq α] (d : Nat → α) (m : SMap α) (k : Nat) (v : α) :
    SMap.get d (SMap.set d m k v) k = v := by
  unfold SMap.set
  exact SMap.get_insert_self d k v _ (by simp)

/-- A write leaves every other key alone. -/
theorem SMap.get_set_other [DecidableEq α] (d : Nat → α) (m : SMap α) {i k : Nat} (v : α) (h : i ≠ k) :
    SMap.get d (SMap.set d m k v) i = SMap.get d m i := by
  unfold SMap.set
  rw [SMap.get_insert_other d v _ h, SMap.get_filter_other d m h]

/-- Both laws in one. -/
theorem SMap.get_set [DecidableEq α] (d : Nat → α) (m : SMap α) (i k : Nat) (v : α) :
    SMap.get d (SMap.set d m k v) i = if i = k then v else SMap.get d m i := by
  split
  · rename_i h; subst h; exact SMap.get_set_self d m i v
  · rename_i h; exact SMap.get_set_other d m v h

/-! ### The canonical form -/

/-- The canonical form in one proposition: keys strictly rising, and no value at its default. -/
theorem SMap.wf_iff [DecidableEq α] (d : Nat → α) (m : SMap α) :
    SMap.wf d m = true ↔ List.Pairwise (fun a b => a.1 < b.1) m ∧ ∀ e ∈ m, e.2 ≠ d e.1 := by
  induction m with
  | nil => simp [SMap.wf]
  | cons e m ih =>
    obtain ⟨k, v⟩ := e
    cases m with
    | nil => simp [SMap.wf]
    | cons f rest =>
      obtain ⟨j, w⟩ := f
      simp only [SMap.wf, Bool.and_eq_true, decide_eq_true_eq] at ih ⊢
      rw [ih]
      simp only [List.pairwise_cons, List.mem_cons, forall_eq_or_imp]
      constructor
      · rintro ⟨⟨hk, hv⟩, ⟨hr, hp⟩, hw, ha⟩
        exact ⟨⟨⟨hk, fun a h => Nat.lt_trans hk (hr a h)⟩, hr, hp⟩, hv, hw, ha⟩
      · rintro ⟨⟨⟨hk, _⟩, hr, hp⟩, hv, hw, ha⟩
        exact ⟨⟨hk, hv⟩, ⟨hr, hp⟩, hw, ha⟩

/-- Dropping entries keeps the canonical form. -/
theorem SMap.wf_filter [DecidableEq α] (d : Nat → α) (m : SMap α) (p : Nat × α → Bool) (h : SMap.wf d m = true) :
    SMap.wf d (m.filter p) = true := by
  rw [SMap.wf_iff] at h ⊢
  exact ⟨h.1.filter p, fun e he => h.2 e (List.mem_of_mem_filter he)⟩

theorem SMap.mem_insert [DecidableEq α] (d : Nat → α) (k : Nat) (v : α) (m : SMap α) (e : Nat × α)
    (h : e ∈ SMap.insert d k v m) : e ∈ m ∨ (e = (k, v) ∧ v ≠ d k) := by
  induction m with
  | nil =>
    simp only [SMap.insert, SMap.cons] at h
    split at h
    · cases h
    · rename_i hv; simp at h; exact .inr ⟨h, hv⟩
  | cons f m ih =>
    obtain ⟨j, w⟩ := f
    simp only [SMap.insert, SMap.cons] at h
    split at h
    · split at h
      · exact .inl h
      · rename_i hv
        rcases List.mem_cons.mp h with h | h
        · exact .inr ⟨h, hv⟩
        · exact .inl h
    · rcases List.mem_cons.mp h with h | h
      · exact .inl (by simp [h])
      · rcases ih h with h | h
        · exact .inl (by simp [h])
        · exact .inr h

theorem SMap.sorted_insert [DecidableEq α] (d : Nat → α) (k : Nat) (v : α) (m : SMap α)
    (hp : List.Pairwise (fun a b => a.1 < b.1) m) (hk : ∀ e ∈ m, e.1 ≠ k) :
    List.Pairwise (fun a b : Nat × α => a.1 < b.1) (SMap.insert d k v m) := by
  induction m with
  | nil => simp only [SMap.insert, SMap.cons]; split <;> simp
  | cons f m ih =>
    obtain ⟨j, w⟩ := f
    have hjk : j ≠ k := hk (j, w) (by simp)
    rw [List.pairwise_cons] at hp
    simp only [SMap.insert, SMap.cons]
    split
    · rename_i hlt
      split
      · exact List.pairwise_cons.mpr hp
      · refine List.pairwise_cons.mpr ⟨?_, List.pairwise_cons.mpr hp⟩
        intro e he
        rcases List.mem_cons.mp he with he | he
        · rw [he]; exact hlt
        · exact Nat.lt_trans hlt (hp.1 e he)
    · rename_i hge
      refine List.pairwise_cons.mpr ⟨?_, ih hp.2 fun e he => hk e (by simp [he])⟩
      intro e he
      rcases SMap.mem_insert d k v m e he with he | he
      · exact hp.1 e he
      · rw [he.1]
        have : ¬ k < j := hge
        simp only
        omega

/-- A write keeps the canonical form. -/
theorem SMap.wf_set [DecidableEq α] (d : Nat → α) (m : SMap α) (k : Nat) (v : α) (h : SMap.wf d m = true) :
    SMap.wf d (SMap.set d m k v) = true := by
  have hf := SMap.wf_filter d m (fun e => decide (e.1 ≠ k)) h
  rw [SMap.wf_iff] at hf ⊢
  refine ⟨SMap.sorted_insert d k v _ hf.1 (by simp), ?_⟩
  intro e he
  rcases SMap.mem_insert d k v _ e he with he | ⟨he, hv⟩
  · exact hf.2 e he
  · rw [he]; exact hv

/-- Dropping a range keeps the canonical form. -/
theorem SMap.wf_dropRange [DecidableEq α] (d : Nat → α) (m : SMap α) (lo hi : Nat) (h : SMap.wf d m = true) :
    SMap.wf d (SMap.dropRange m lo hi) = true := SMap.wf_filter d m _ h

/-! ### Byte memories -/

@[simp] theorem Mem.get_set_self (m : Mem) (a : Nat) (b : Byte) : Mem.get (Mem.set m a b) a = b :=
  SMap.get_set_self memDefault m a b

theorem Mem.get_set_other (m : Mem) {a x : Nat} (b : Byte) (h : x ≠ a) : Mem.get (Mem.set m a b) x = Mem.get m x :=
  SMap.get_set_other memDefault m b h

theorem Mem.wf_set (m : Mem) (a : Nat) (b : Byte) (h : Mem.wf m = true) : Mem.wf (Mem.set m a b) = true :=
  SMap.wf_set memDefault m a b h

theorem Mem.wf_write (m : Mem) (a : Nat) (l : List Byte) (h : Mem.wf m = true) : Mem.wf (Mem.write m a l) = true := by
  induction l generalizing m a with
  | nil => exact h
  | cons b l ih => exact ih (Mem.set m a b) (a + 1) (Mem.wf_set m a b h)

/-- A run of bytes leaves every byte outside it alone. -/
theorem Mem.get_write_outside (m : Mem) (a x : Nat) (l : List Byte) (h : x < a ∨ a + l.length ≤ x) :
    Mem.get (Mem.write m a l) x = Mem.get m x := by
  induction l generalizing m a with
  | nil => rfl
  | cons b l ih =>
    simp only [List.length_cons] at h
    rw [Mem.write, ih (Mem.set m a b) (a + 1) (by omega)]
    exact Mem.get_set_other m b (by omega)

/-- Reading back a run of bytes that was just written. -/
theorem Mem.read_write (m : Mem) (a : Nat) (l : List Byte) : Mem.read (Mem.write m a l) a l.length = l := by
  induction l generalizing m a with
  | nil => rfl
  | cons b l ih =>
    simp only [List.length_cons, Mem.read, Mem.write]
    rw [Mem.get_write_outside _ _ _ _ (by omega), Mem.get_set_self, ih]

end Sys2Proof.Machine
end

