-- ==== Sys2Proof/Laws/State.lean ====
section
/-! SUPPORT. What each update of State leaves and what it writes: one lemma per field per update. -/

namespace Sys2Proof.Machine

/-! ### setReg -/

@[simp] theorem State.setReg_hbm (s : State) (a : Nat) (v : Word) : (s.setReg a v).hbm = s.hbm := rfl
@[simp] theorem State.setReg_spad (s : State) (a : Nat) (v : Word) : (s.setReg a v).spad = s.spad := rfl
@[simp] theorem State.setReg_mac (s : State) (a : Nat) (v : Word) : (s.setReg a v).mac = s.mac := rfl
@[simp] theorem State.setReg_scale (s : State) (a : Nat) (v : Word) : (s.setReg a v).scale = s.scale := rfl
@[simp] theorem State.setReg_ptags (s : State) (a : Nat) (v : Word) : (s.setReg a v).ptags = s.ptags := rfl
@[simp] theorem State.setReg_err (s : State) (a : Nat) (v : Word) : (s.setReg a v).err = s.err := rfl
@[simp] theorem State.setReg_cores (s : State) (a : Nat) (v : Word) : (s.setReg a v).cores = s.cores := rfl
@[simp] theorem State.setReg_dieNodes (s : State) (a : Nat) (v : Word) : (s.setReg a v).dieNodes = s.dieNodes := rfl
@[simp] theorem State.setReg_hubNode (s : State) (a : Nat) (v : Word) : (s.setReg a v).hubNode = s.hubNode := rfl
@[simp] theorem State.setReg_flight (s : State) (a : Nat) (v : Word) : (s.setReg a v).flight = s.flight := rfl
@[simp] theorem State.setReg_tk (s : State) (a : Nat) (v : Word) : (s.setReg a v).tk = s.tk := rfl
@[simp] theorem State.setReg_links (s : State) (a : Nat) (v : Word) : (s.setReg a v).links = s.links := rfl
@[simp] theorem State.setReg_chip (s : State) (a : Nat) (v : Word) : (s.setReg a v).chip = s.chip := rfl
@[simp] theorem State.setReg_fx (s : State) (a : Nat) (v : Word) : (s.setReg a v).fx = s.fx := rfl
@[simp] theorem State.setReg_img (s : State) (a : Nat) (v : Word) : (s.setReg a v).img = s.img := rfl
@[simp] theorem State.setReg_port (s : State) (a : Nat) (v : Word) : (s.setReg a v).port = s.port := rfl
@[simp] theorem State.setReg_pwr (s : State) (a : Nat) (v : Word) : (s.setReg a v).pwr = s.pwr := rfl
@[simp] theorem State.setReg_sec (s : State) (a : Nat) (v : Word) : (s.setReg a v).sec = s.sec := rfl
@[simp] theorem State.setReg_bist (s : State) (a : Nat) (v : Word) : (s.setReg a v).bist = s.bist := rfl
@[simp] theorem State.setReg_svc (s : State) (a : Nat) (v : Word) : (s.setReg a v).svc = s.svc := rfl
@[simp] theorem State.setReg_freeCount (s : State) (a : Nat) (v : Word) : (s.setReg a v).freeCount = s.freeCount := rfl
@[simp] theorem State.setReg_out (s : State) (a : Nat) (v : Word) : (s.setReg a v).out = s.out := rfl
@[simp] theorem State.setReg_pending (s : State) (a : Nat) (v : Word) : (s.setReg a v).pending = s.pending := rfl

/-! ### setBit -/

@[simp] theorem State.setBit_hbm (s : State) (a i : Nat) : (s.setBit a i).hbm = s.hbm := rfl
@[simp] theorem State.setBit_spad (s : State) (a i : Nat) : (s.setBit a i).spad = s.spad := rfl
@[simp] theorem State.setBit_mac (s : State) (a i : Nat) : (s.setBit a i).mac = s.mac := rfl
@[simp] theorem State.setBit_scale (s : State) (a i : Nat) : (s.setBit a i).scale = s.scale := rfl
@[simp] theorem State.setBit_ptags (s : State) (a i : Nat) : (s.setBit a i).ptags = s.ptags := rfl
@[simp] theorem State.setBit_err (s : State) (a i : Nat) : (s.setBit a i).err = s.err := rfl
@[simp] theorem State.setBit_cores (s : State) (a i : Nat) : (s.setBit a i).cores = s.cores := rfl
@[simp] theorem State.setBit_dieNodes (s : State) (a i : Nat) : (s.setBit a i).dieNodes = s.dieNodes := rfl
@[simp] theorem State.setBit_hubNode (s : State) (a i : Nat) : (s.setBit a i).hubNode = s.hubNode := rfl
@[simp] theorem State.setBit_flight (s : State) (a i : Nat) : (s.setBit a i).flight = s.flight := rfl
@[simp] theorem State.setBit_tk (s : State) (a i : Nat) : (s.setBit a i).tk = s.tk := rfl
@[simp] theorem State.setBit_links (s : State) (a i : Nat) : (s.setBit a i).links = s.links := rfl
@[simp] theorem State.setBit_chip (s : State) (a i : Nat) : (s.setBit a i).chip = s.chip := rfl
@[simp] theorem State.setBit_fx (s : State) (a i : Nat) : (s.setBit a i).fx = s.fx := rfl
@[simp] theorem State.setBit_img (s : State) (a i : Nat) : (s.setBit a i).img = s.img := rfl
@[simp] theorem State.setBit_port (s : State) (a i : Nat) : (s.setBit a i).port = s.port := rfl
@[simp] theorem State.setBit_pwr (s : State) (a i : Nat) : (s.setBit a i).pwr = s.pwr := rfl
@[simp] theorem State.setBit_sec (s : State) (a i : Nat) : (s.setBit a i).sec = s.sec := rfl
@[simp] theorem State.setBit_bist (s : State) (a i : Nat) : (s.setBit a i).bist = s.bist := rfl
@[simp] theorem State.setBit_svc (s : State) (a i : Nat) : (s.setBit a i).svc = s.svc := rfl
@[simp] theorem State.setBit_freeCount (s : State) (a i : Nat) : (s.setBit a i).freeCount = s.freeCount := rfl
@[simp] theorem State.setBit_out (s : State) (a i : Nat) : (s.setBit a i).out = s.out := rfl
@[simp] theorem State.setBit_pending (s : State) (a i : Nat) : (s.setBit a i).pending = s.pending := rfl

/-! ### clrBit -/

@[simp] theorem State.clrBit_hbm (s : State) (a i : Nat) : (s.clrBit a i).hbm = s.hbm := rfl
@[simp] theorem State.clrBit_spad (s : State) (a i : Nat) : (s.clrBit a i).spad = s.spad := rfl
@[simp] theorem State.clrBit_mac (s : State) (a i : Nat) : (s.clrBit a i).mac = s.mac := rfl
@[simp] theorem State.clrBit_scale (s : State) (a i : Nat) : (s.clrBit a i).scale = s.scale := rfl
@[simp] theorem State.clrBit_ptags (s : State) (a i : Nat) : (s.clrBit a i).ptags = s.ptags := rfl
@[simp] theorem State.clrBit_err (s : State) (a i : Nat) : (s.clrBit a i).err = s.err := rfl
@[simp] theorem State.clrBit_cores (s : State) (a i : Nat) : (s.clrBit a i).cores = s.cores := rfl
@[simp] theorem State.clrBit_dieNodes (s : State) (a i : Nat) : (s.clrBit a i).dieNodes = s.dieNodes := rfl
@[simp] theorem State.clrBit_hubNode (s : State) (a i : Nat) : (s.clrBit a i).hubNode = s.hubNode := rfl
@[simp] theorem State.clrBit_flight (s : State) (a i : Nat) : (s.clrBit a i).flight = s.flight := rfl
@[simp] theorem State.clrBit_tk (s : State) (a i : Nat) : (s.clrBit a i).tk = s.tk := rfl
@[simp] theorem State.clrBit_links (s : State) (a i : Nat) : (s.clrBit a i).links = s.links := rfl
@[simp] theorem State.clrBit_chip (s : State) (a i : Nat) : (s.clrBit a i).chip = s.chip := rfl
@[simp] theorem State.clrBit_fx (s : State) (a i : Nat) : (s.clrBit a i).fx = s.fx := rfl
@[simp] theorem State.clrBit_img (s : State) (a i : Nat) : (s.clrBit a i).img = s.img := rfl
@[simp] theorem State.clrBit_port (s : State) (a i : Nat) : (s.clrBit a i).port = s.port := rfl
@[simp] theorem State.clrBit_pwr (s : State) (a i : Nat) : (s.clrBit a i).pwr = s.pwr := rfl
@[simp] theorem State.clrBit_sec (s : State) (a i : Nat) : (s.clrBit a i).sec = s.sec := rfl
@[simp] theorem State.clrBit_bist (s : State) (a i : Nat) : (s.clrBit a i).bist = s.bist := rfl
@[simp] theorem State.clrBit_svc (s : State) (a i : Nat) : (s.clrBit a i).svc = s.svc := rfl
@[simp] theorem State.clrBit_freeCount (s : State) (a i : Nat) : (s.clrBit a i).freeCount = s.freeCount := rfl
@[simp] theorem State.clrBit_out (s : State) (a i : Nat) : (s.clrBit a i).out = s.out := rfl
@[simp] theorem State.clrBit_pending (s : State) (a i : Nat) : (s.clrBit a i).pending = s.pending := rfl

/-! ### putBit -/

@[simp] theorem State.putBit_hbm (s : State) (a i : Nat) (b : Bool) : (s.putBit a i b).hbm = s.hbm := rfl
@[simp] theorem State.putBit_spad (s : State) (a i : Nat) (b : Bool) : (s.putBit a i b).spad = s.spad := rfl
@[simp] theorem State.putBit_mac (s : State) (a i : Nat) (b : Bool) : (s.putBit a i b).mac = s.mac := rfl
@[simp] theorem State.putBit_scale (s : State) (a i : Nat) (b : Bool) : (s.putBit a i b).scale = s.scale := rfl
@[simp] theorem State.putBit_ptags (s : State) (a i : Nat) (b : Bool) : (s.putBit a i b).ptags = s.ptags := rfl
@[simp] theorem State.putBit_err (s : State) (a i : Nat) (b : Bool) : (s.putBit a i b).err = s.err := rfl
@[simp] theorem State.putBit_cores (s : State) (a i : Nat) (b : Bool) : (s.putBit a i b).cores = s.cores := rfl
@[simp] theorem State.putBit_dieNodes (s : State) (a i : Nat) (b : Bool) : (s.putBit a i b).dieNodes = s.dieNodes := rfl
@[simp] theorem State.putBit_hubNode (s : State) (a i : Nat) (b : Bool) : (s.putBit a i b).hubNode = s.hubNode := rfl
@[simp] theorem State.putBit_flight (s : State) (a i : Nat) (b : Bool) : (s.putBit a i b).flight = s.flight := rfl
@[simp] theorem State.putBit_tk (s : State) (a i : Nat) (b : Bool) : (s.putBit a i b).tk = s.tk := rfl
@[simp] theorem State.putBit_links (s : State) (a i : Nat) (b : Bool) : (s.putBit a i b).links = s.links := rfl
@[simp] theorem State.putBit_chip (s : State) (a i : Nat) (b : Bool) : (s.putBit a i b).chip = s.chip := rfl
@[simp] theorem State.putBit_fx (s : State) (a i : Nat) (b : Bool) : (s.putBit a i b).fx = s.fx := rfl
@[simp] theorem State.putBit_img (s : State) (a i : Nat) (b : Bool) : (s.putBit a i b).img = s.img := rfl
@[simp] theorem State.putBit_port (s : State) (a i : Nat) (b : Bool) : (s.putBit a i b).port = s.port := rfl
@[simp] theorem State.putBit_pwr (s : State) (a i : Nat) (b : Bool) : (s.putBit a i b).pwr = s.pwr := rfl
@[simp] theorem State.putBit_sec (s : State) (a i : Nat) (b : Bool) : (s.putBit a i b).sec = s.sec := rfl
@[simp] theorem State.putBit_bist (s : State) (a i : Nat) (b : Bool) : (s.putBit a i b).bist = s.bist := rfl
@[simp] theorem State.putBit_svc (s : State) (a i : Nat) (b : Bool) : (s.putBit a i b).svc = s.svc := rfl
@[simp] theorem State.putBit_freeCount (s : State) (a i : Nat) (b : Bool) : (s.putBit a i b).freeCount = s.freeCount := rfl
@[simp] theorem State.putBit_out (s : State) (a i : Nat) (b : Bool) : (s.putBit a i b).out = s.out := rfl
@[simp] theorem State.putBit_pending (s : State) (a i : Nat) (b : Bool) : (s.putBit a i b).pending = s.pending := rfl

/-! ### setFld -/

@[simp] theorem State.setFld_hbm (s : State) (a lo w v : Nat) : (s.setFld a lo w v).hbm = s.hbm := rfl
@[simp] theorem State.setFld_spad (s : State) (a lo w v : Nat) : (s.setFld a lo w v).spad = s.spad := rfl
@[simp] theorem State.setFld_mac (s : State) (a lo w v : Nat) : (s.setFld a lo w v).mac = s.mac := rfl
@[simp] theorem State.setFld_scale (s : State) (a lo w v : Nat) : (s.setFld a lo w v).scale = s.scale := rfl
@[simp] theorem State.setFld_ptags (s : State) (a lo w v : Nat) : (s.setFld a lo w v).ptags = s.ptags := rfl
@[simp] theorem State.setFld_err (s : State) (a lo w v : Nat) : (s.setFld a lo w v).err = s.err := rfl
@[simp] theorem State.setFld_cores (s : State) (a lo w v : Nat) : (s.setFld a lo w v).cores = s.cores := rfl
@[simp] theorem State.setFld_dieNodes (s : State) (a lo w v : Nat) : (s.setFld a lo w v).dieNodes = s.dieNodes := rfl
@[simp] theorem State.setFld_hubNode (s : State) (a lo w v : Nat) : (s.setFld a lo w v).hubNode = s.hubNode := rfl
@[simp] theorem State.setFld_flight (s : State) (a lo w v : Nat) : (s.setFld a lo w v).flight = s.flight := rfl
@[simp] theorem State.setFld_tk (s : State) (a lo w v : Nat) : (s.setFld a lo w v).tk = s.tk := rfl
@[simp] theorem State.setFld_links (s : State) (a lo w v : Nat) : (s.setFld a lo w v).links = s.links := rfl
@[simp] theorem State.setFld_chip (s : State) (a lo w v : Nat) : (s.setFld a lo w v).chip = s.chip := rfl
@[simp] theorem State.setFld_fx (s : State) (a lo w v : Nat) : (s.setFld a lo w v).fx = s.fx := rfl
@[simp] theorem State.setFld_img (s : State) (a lo w v : Nat) : (s.setFld a lo w v).img = s.img := rfl
@[simp] theorem State.setFld_port (s : State) (a lo w v : Nat) : (s.setFld a lo w v).port = s.port := rfl
@[simp] theorem State.setFld_pwr (s : State) (a lo w v : Nat) : (s.setFld a lo w v).pwr = s.pwr := rfl
@[simp] theorem State.setFld_sec (s : State) (a lo w v : Nat) : (s.setFld a lo w v).sec = s.sec := rfl
@[simp] theorem State.setFld_bist (s : State) (a lo w v : Nat) : (s.setFld a lo w v).bist = s.bist := rfl
@[simp] theorem State.setFld_svc (s : State) (a lo w v : Nat) : (s.setFld a lo w v).svc = s.svc := rfl
@[simp] theorem State.setFld_freeCount (s : State) (a lo w v : Nat) : (s.setFld a lo w v).freeCount = s.freeCount := rfl
@[simp] theorem State.setFld_out (s : State) (a lo w v : Nat) : (s.setFld a lo w v).out = s.out := rfl
@[simp] theorem State.setFld_pending (s : State) (a lo w v : Nat) : (s.setFld a lo w v).pending = s.pending := rfl

/-! ### addCnt -/

@[simp] theorem State.addCnt_hbm (s : State) (a lo w n : Nat) : (s.addCnt a lo w n).hbm = s.hbm := rfl
@[simp] theorem State.addCnt_spad (s : State) (a lo w n : Nat) : (s.addCnt a lo w n).spad = s.spad := rfl
@[simp] theorem State.addCnt_mac (s : State) (a lo w n : Nat) : (s.addCnt a lo w n).mac = s.mac := rfl
@[simp] theorem State.addCnt_scale (s : State) (a lo w n : Nat) : (s.addCnt a lo w n).scale = s.scale := rfl
@[simp] theorem State.addCnt_ptags (s : State) (a lo w n : Nat) : (s.addCnt a lo w n).ptags = s.ptags := rfl
@[simp] theorem State.addCnt_err (s : State) (a lo w n : Nat) : (s.addCnt a lo w n).err = s.err := rfl
@[simp] theorem State.addCnt_cores (s : State) (a lo w n : Nat) : (s.addCnt a lo w n).cores = s.cores := rfl
@[simp] theorem State.addCnt_dieNodes (s : State) (a lo w n : Nat) : (s.addCnt a lo w n).dieNodes = s.dieNodes := rfl
@[simp] theorem State.addCnt_hubNode (s : State) (a lo w n : Nat) : (s.addCnt a lo w n).hubNode = s.hubNode := rfl
@[simp] theorem State.addCnt_flight (s : State) (a lo w n : Nat) : (s.addCnt a lo w n).flight = s.flight := rfl
@[simp] theorem State.addCnt_tk (s : State) (a lo w n : Nat) : (s.addCnt a lo w n).tk = s.tk := rfl
@[simp] theorem State.addCnt_links (s : State) (a lo w n : Nat) : (s.addCnt a lo w n).links = s.links := rfl
@[simp] theorem State.addCnt_chip (s : State) (a lo w n : Nat) : (s.addCnt a lo w n).chip = s.chip := rfl
@[simp] theorem State.addCnt_fx (s : State) (a lo w n : Nat) : (s.addCnt a lo w n).fx = s.fx := rfl
@[simp] theorem State.addCnt_img (s : State) (a lo w n : Nat) : (s.addCnt a lo w n).img = s.img := rfl
@[simp] theorem State.addCnt_port (s : State) (a lo w n : Nat) : (s.addCnt a lo w n).port = s.port := rfl
@[simp] theorem State.addCnt_pwr (s : State) (a lo w n : Nat) : (s.addCnt a lo w n).pwr = s.pwr := rfl
@[simp] theorem State.addCnt_sec (s : State) (a lo w n : Nat) : (s.addCnt a lo w n).sec = s.sec := rfl
@[simp] theorem State.addCnt_bist (s : State) (a lo w n : Nat) : (s.addCnt a lo w n).bist = s.bist := rfl
@[simp] theorem State.addCnt_svc (s : State) (a lo w n : Nat) : (s.addCnt a lo w n).svc = s.svc := rfl
@[simp] theorem State.addCnt_freeCount (s : State) (a lo w n : Nat) : (s.addCnt a lo w n).freeCount = s.freeCount := rfl
@[simp] theorem State.addCnt_out (s : State) (a lo w n : Nat) : (s.addCnt a lo w n).out = s.out := rfl
@[simp] theorem State.addCnt_pending (s : State) (a lo w n : Nat) : (s.addCnt a lo w n).pending = s.pending := rfl

/-! ### maxFld -/

@[simp] theorem State.maxFld_hbm (s : State) (a lo w v : Nat) : (s.maxFld a lo w v).hbm = s.hbm := rfl
@[simp] theorem State.maxFld_spad (s : State) (a lo w v : Nat) : (s.maxFld a lo w v).spad = s.spad := rfl
@[simp] theorem State.maxFld_mac (s : State) (a lo w v : Nat) : (s.maxFld a lo w v).mac = s.mac := rfl
@[simp] theorem State.maxFld_scale (s : State) (a lo w v : Nat) : (s.maxFld a lo w v).scale = s.scale := rfl
@[simp] theorem State.maxFld_ptags (s : State) (a lo w v : Nat) : (s.maxFld a lo w v).ptags = s.ptags := rfl
@[simp] theorem State.maxFld_err (s : State) (a lo w v : Nat) : (s.maxFld a lo w v).err = s.err := rfl
@[simp] theorem State.maxFld_cores (s : State) (a lo w v : Nat) : (s.maxFld a lo w v).cores = s.cores := rfl
@[simp] theorem State.maxFld_dieNodes (s : State) (a lo w v : Nat) : (s.maxFld a lo w v).dieNodes = s.dieNodes := rfl
@[simp] theorem State.maxFld_hubNode (s : State) (a lo w v : Nat) : (s.maxFld a lo w v).hubNode = s.hubNode := rfl
@[simp] theorem State.maxFld_flight (s : State) (a lo w v : Nat) : (s.maxFld a lo w v).flight = s.flight := rfl
@[simp] theorem State.maxFld_tk (s : State) (a lo w v : Nat) : (s.maxFld a lo w v).tk = s.tk := rfl
@[simp] theorem State.maxFld_links (s : State) (a lo w v : Nat) : (s.maxFld a lo w v).links = s.links := rfl
@[simp] theorem State.maxFld_chip (s : State) (a lo w v : Nat) : (s.maxFld a lo w v).chip = s.chip := rfl
@[simp] theorem State.maxFld_fx (s : State) (a lo w v : Nat) : (s.maxFld a lo w v).fx = s.fx := rfl
@[simp] theorem State.maxFld_img (s : State) (a lo w v : Nat) : (s.maxFld a lo w v).img = s.img := rfl
@[simp] theorem State.maxFld_port (s : State) (a lo w v : Nat) : (s.maxFld a lo w v).port = s.port := rfl
@[simp] theorem State.maxFld_pwr (s : State) (a lo w v : Nat) : (s.maxFld a lo w v).pwr = s.pwr := rfl
@[simp] theorem State.maxFld_sec (s : State) (a lo w v : Nat) : (s.maxFld a lo w v).sec = s.sec := rfl
@[simp] theorem State.maxFld_bist (s : State) (a lo w v : Nat) : (s.maxFld a lo w v).bist = s.bist := rfl
@[simp] theorem State.maxFld_svc (s : State) (a lo w v : Nat) : (s.maxFld a lo w v).svc = s.svc := rfl
@[simp] theorem State.maxFld_freeCount (s : State) (a lo w v : Nat) : (s.maxFld a lo w v).freeCount = s.freeCount := rfl
@[simp] theorem State.maxFld_out (s : State) (a lo w v : Nat) : (s.maxFld a lo w v).out = s.out := rfl
@[simp] theorem State.maxFld_pending (s : State) (a lo w v : Nat) : (s.maxFld a lo w v).pending = s.pending := rfl

/-! ### setReg64 -/

@[simp] theorem State.setReg64_hbm (s : State) (a : Nat) (v : DWord) : (s.setReg64 a v).hbm = s.hbm := rfl
@[simp] theorem State.setReg64_spad (s : State) (a : Nat) (v : DWord) : (s.setReg64 a v).spad = s.spad := rfl
@[simp] theorem State.setReg64_mac (s : State) (a : Nat) (v : DWord) : (s.setReg64 a v).mac = s.mac := rfl
@[simp] theorem State.setReg64_scale (s : State) (a : Nat) (v : DWord) : (s.setReg64 a v).scale = s.scale := rfl
@[simp] theorem State.setReg64_ptags (s : State) (a : Nat) (v : DWord) : (s.setReg64 a v).ptags = s.ptags := rfl
@[simp] theorem State.setReg64_err (s : State) (a : Nat) (v : DWord) : (s.setReg64 a v).err = s.err := rfl
@[simp] theorem State.setReg64_cores (s : State) (a : Nat) (v : DWord) : (s.setReg64 a v).cores = s.cores := rfl
@[simp] theorem State.setReg64_dieNodes (s : State) (a : Nat) (v : DWord) : (s.setReg64 a v).dieNodes = s.dieNodes := rfl
@[simp] theorem State.setReg64_hubNode (s : State) (a : Nat) (v : DWord) : (s.setReg64 a v).hubNode = s.hubNode := rfl
@[simp] theorem State.setReg64_flight (s : State) (a : Nat) (v : DWord) : (s.setReg64 a v).flight = s.flight := rfl
@[simp] theorem State.setReg64_tk (s : State) (a : Nat) (v : DWord) : (s.setReg64 a v).tk = s.tk := rfl
@[simp] theorem State.setReg64_links (s : State) (a : Nat) (v : DWord) : (s.setReg64 a v).links = s.links := rfl
@[simp] theorem State.setReg64_chip (s : State) (a : Nat) (v : DWord) : (s.setReg64 a v).chip = s.chip := rfl
@[simp] theorem State.setReg64_fx (s : State) (a : Nat) (v : DWord) : (s.setReg64 a v).fx = s.fx := rfl
@[simp] theorem State.setReg64_img (s : State) (a : Nat) (v : DWord) : (s.setReg64 a v).img = s.img := rfl
@[simp] theorem State.setReg64_port (s : State) (a : Nat) (v : DWord) : (s.setReg64 a v).port = s.port := rfl
@[simp] theorem State.setReg64_pwr (s : State) (a : Nat) (v : DWord) : (s.setReg64 a v).pwr = s.pwr := rfl
@[simp] theorem State.setReg64_sec (s : State) (a : Nat) (v : DWord) : (s.setReg64 a v).sec = s.sec := rfl
@[simp] theorem State.setReg64_bist (s : State) (a : Nat) (v : DWord) : (s.setReg64 a v).bist = s.bist := rfl
@[simp] theorem State.setReg64_svc (s : State) (a : Nat) (v : DWord) : (s.setReg64 a v).svc = s.svc := rfl
@[simp] theorem State.setReg64_freeCount (s : State) (a : Nat) (v : DWord) : (s.setReg64 a v).freeCount = s.freeCount := rfl
@[simp] theorem State.setReg64_out (s : State) (a : Nat) (v : DWord) : (s.setReg64 a v).out = s.out := rfl
@[simp] theorem State.setReg64_pending (s : State) (a : Nat) (v : DWord) : (s.setReg64 a v).pending = s.pending := rfl

/-! ### setCore -/

@[simp] theorem State.setCore_regs (s : State) (i : Nat) (c : Core) : (s.setCore i c).regs = s.regs := rfl
@[simp] theorem State.setCore_hbm (s : State) (i : Nat) (c : Core) : (s.setCore i c).hbm = s.hbm := rfl
@[simp] theorem State.setCore_spad (s : State) (i : Nat) (c : Core) : (s.setCore i c).spad = s.spad := rfl
@[simp] theorem State.setCore_mac (s : State) (i : Nat) (c : Core) : (s.setCore i c).mac = s.mac := rfl
@[simp] theorem State.setCore_scale (s : State) (i : Nat) (c : Core) : (s.setCore i c).scale = s.scale := rfl
@[simp] theorem State.setCore_ptags (s : State) (i : Nat) (c : Core) : (s.setCore i c).ptags = s.ptags := rfl
@[simp] theorem State.setCore_err (s : State) (i : Nat) (c : Core) : (s.setCore i c).err = s.err := rfl
@[simp] theorem State.setCore_dieNodes (s : State) (i : Nat) (c : Core) : (s.setCore i c).dieNodes = s.dieNodes := rfl
@[simp] theorem State.setCore_hubNode (s : State) (i : Nat) (c : Core) : (s.setCore i c).hubNode = s.hubNode := rfl
@[simp] theorem State.setCore_flight (s : State) (i : Nat) (c : Core) : (s.setCore i c).flight = s.flight := rfl
@[simp] theorem State.setCore_tk (s : State) (i : Nat) (c : Core) : (s.setCore i c).tk = s.tk := rfl
@[simp] theorem State.setCore_links (s : State) (i : Nat) (c : Core) : (s.setCore i c).links = s.links := rfl
@[simp] theorem State.setCore_chip (s : State) (i : Nat) (c : Core) : (s.setCore i c).chip = s.chip := rfl
@[simp] theorem State.setCore_fx (s : State) (i : Nat) (c : Core) : (s.setCore i c).fx = s.fx := rfl
@[simp] theorem State.setCore_img (s : State) (i : Nat) (c : Core) : (s.setCore i c).img = s.img := rfl
@[simp] theorem State.setCore_port (s : State) (i : Nat) (c : Core) : (s.setCore i c).port = s.port := rfl
@[simp] theorem State.setCore_pwr (s : State) (i : Nat) (c : Core) : (s.setCore i c).pwr = s.pwr := rfl
@[simp] theorem State.setCore_sec (s : State) (i : Nat) (c : Core) : (s.setCore i c).sec = s.sec := rfl
@[simp] theorem State.setCore_bist (s : State) (i : Nat) (c : Core) : (s.setCore i c).bist = s.bist := rfl
@[simp] theorem State.setCore_svc (s : State) (i : Nat) (c : Core) : (s.setCore i c).svc = s.svc := rfl
@[simp] theorem State.setCore_freeCount (s : State) (i : Nat) (c : Core) : (s.setCore i c).freeCount = s.freeCount := rfl
@[simp] theorem State.setCore_out (s : State) (i : Nat) (c : Core) : (s.setCore i c).out = s.out := rfl
@[simp] theorem State.setCore_pending (s : State) (i : Nat) (c : Core) : (s.setCore i c).pending = s.pending := rfl

/-! ### modCore -/

@[simp] theorem State.modCore_regs (s : State) (i : Nat) (f : Core → Core) : (s.modCore i f).regs = s.regs := rfl
@[simp] theorem State.modCore_hbm (s : State) (i : Nat) (f : Core → Core) : (s.modCore i f).hbm = s.hbm := rfl
@[simp] theorem State.modCore_spad (s : State) (i : Nat) (f : Core → Core) : (s.modCore i f).spad = s.spad := rfl
@[simp] theorem State.modCore_mac (s : State) (i : Nat) (f : Core → Core) : (s.modCore i f).mac = s.mac := rfl
@[simp] theorem State.modCore_scale (s : State) (i : Nat) (f : Core → Core) : (s.modCore i f).scale = s.scale := rfl
@[simp] theorem State.modCore_ptags (s : State) (i : Nat) (f : Core → Core) : (s.modCore i f).ptags = s.ptags := rfl
@[simp] theorem State.modCore_err (s : State) (i : Nat) (f : Core → Core) : (s.modCore i f).err = s.err := rfl
@[simp] theorem State.modCore_dieNodes (s : State) (i : Nat) (f : Core → Core) : (s.modCore i f).dieNodes = s.dieNodes := rfl
@[simp] theorem State.modCore_hubNode (s : State) (i : Nat) (f : Core → Core) : (s.modCore i f).hubNode = s.hubNode := rfl
@[simp] theorem State.modCore_flight (s : State) (i : Nat) (f : Core → Core) : (s.modCore i f).flight = s.flight := rfl
@[simp] theorem State.modCore_tk (s : State) (i : Nat) (f : Core → Core) : (s.modCore i f).tk = s.tk := rfl
@[simp] theorem State.modCore_links (s : State) (i : Nat) (f : Core → Core) : (s.modCore i f).links = s.links := rfl
@[simp] theorem State.modCore_chip (s : State) (i : Nat) (f : Core → Core) : (s.modCore i f).chip = s.chip := rfl
@[simp] theorem State.modCore_fx (s : State) (i : Nat) (f : Core → Core) : (s.modCore i f).fx = s.fx := rfl
@[simp] theorem State.modCore_img (s : State) (i : Nat) (f : Core → Core) : (s.modCore i f).img = s.img := rfl
@[simp] theorem State.modCore_port (s : State) (i : Nat) (f : Core → Core) : (s.modCore i f).port = s.port := rfl
@[simp] theorem State.modCore_pwr (s : State) (i : Nat) (f : Core → Core) : (s.modCore i f).pwr = s.pwr := rfl
@[simp] theorem State.modCore_sec (s : State) (i : Nat) (f : Core → Core) : (s.modCore i f).sec = s.sec := rfl
@[simp] theorem State.modCore_bist (s : State) (i : Nat) (f : Core → Core) : (s.modCore i f).bist = s.bist := rfl
@[simp] theorem State.modCore_svc (s : State) (i : Nat) (f : Core → Core) : (s.modCore i f).svc = s.svc := rfl
@[simp] theorem State.modCore_freeCount (s : State) (i : Nat) (f : Core → Core) : (s.modCore i f).freeCount = s.freeCount := rfl
@[simp] theorem State.modCore_out (s : State) (i : Nat) (f : Core → Core) : (s.modCore i f).out = s.out := rfl
@[simp] theorem State.modCore_pending (s : State) (i : Nat) (f : Core → Core) : (s.modCore i f).pending = s.pending := rfl

/-! ### setLink -/

@[simp] theorem State.setLink_regs (s : State) (i : Nat) (l : LinkSt) : (s.setLink i l).regs = s.regs := rfl
@[simp] theorem State.setLink_hbm (s : State) (i : Nat) (l : LinkSt) : (s.setLink i l).hbm = s.hbm := rfl
@[simp] theorem State.setLink_spad (s : State) (i : Nat) (l : LinkSt) : (s.setLink i l).spad = s.spad := rfl
@[simp] theorem State.setLink_mac (s : State) (i : Nat) (l : LinkSt) : (s.setLink i l).mac = s.mac := rfl
@[simp] theorem State.setLink_scale (s : State) (i : Nat) (l : LinkSt) : (s.setLink i l).scale = s.scale := rfl
@[simp] theorem State.setLink_ptags (s : State) (i : Nat) (l : LinkSt) : (s.setLink i l).ptags = s.ptags := rfl
@[simp] theorem State.setLink_err (s : State) (i : Nat) (l : LinkSt) : (s.setLink i l).err = s.err := rfl
@[simp] theorem State.setLink_cores (s : State) (i : Nat) (l : LinkSt) : (s.setLink i l).cores = s.cores := rfl
@[simp] theorem State.setLink_dieNodes (s : State) (i : Nat) (l : LinkSt) : (s.setLink i l).dieNodes = s.dieNodes := rfl
@[simp] theorem State.setLink_hubNode (s : State) (i : Nat) (l : LinkSt) : (s.setLink i l).hubNode = s.hubNode := rfl
@[simp] theorem State.setLink_flight (s : State) (i : Nat) (l : LinkSt) : (s.setLink i l).flight = s.flight := rfl
@[simp] theorem State.setLink_tk (s : State) (i : Nat) (l : LinkSt) : (s.setLink i l).tk = s.tk := rfl
@[simp] theorem State.setLink_chip (s : State) (i : Nat) (l : LinkSt) : (s.setLink i l).chip = s.chip := rfl
@[simp] theorem State.setLink_fx (s : State) (i : Nat) (l : LinkSt) : (s.setLink i l).fx = s.fx := rfl
@[simp] theorem State.setLink_img (s : State) (i : Nat) (l : LinkSt) : (s.setLink i l).img = s.img := rfl
@[simp] theorem State.setLink_port (s : State) (i : Nat) (l : LinkSt) : (s.setLink i l).port = s.port := rfl
@[simp] theorem State.setLink_pwr (s : State) (i : Nat) (l : LinkSt) : (s.setLink i l).pwr = s.pwr := rfl
@[simp] theorem State.setLink_sec (s : State) (i : Nat) (l : LinkSt) : (s.setLink i l).sec = s.sec := rfl
@[simp] theorem State.setLink_bist (s : State) (i : Nat) (l : LinkSt) : (s.setLink i l).bist = s.bist := rfl
@[simp] theorem State.setLink_svc (s : State) (i : Nat) (l : LinkSt) : (s.setLink i l).svc = s.svc := rfl
@[simp] theorem State.setLink_freeCount (s : State) (i : Nat) (l : LinkSt) : (s.setLink i l).freeCount = s.freeCount := rfl
@[simp] theorem State.setLink_out (s : State) (i : Nat) (l : LinkSt) : (s.setLink i l).out = s.out := rfl
@[simp] theorem State.setLink_pending (s : State) (i : Nat) (l : LinkSt) : (s.setLink i l).pending = s.pending := rfl

/-! ### modLink -/

@[simp] theorem State.modLink_regs (s : State) (i : Nat) (f : LinkSt → LinkSt) : (s.modLink i f).regs = s.regs := rfl
@[simp] theorem State.modLink_hbm (s : State) (i : Nat) (f : LinkSt → LinkSt) : (s.modLink i f).hbm = s.hbm := rfl
@[simp] theorem State.modLink_spad (s : State) (i : Nat) (f : LinkSt → LinkSt) : (s.modLink i f).spad = s.spad := rfl
@[simp] theorem State.modLink_mac (s : State) (i : Nat) (f : LinkSt → LinkSt) : (s.modLink i f).mac = s.mac := rfl
@[simp] theorem State.modLink_scale (s : State) (i : Nat) (f : LinkSt → LinkSt) : (s.modLink i f).scale = s.scale := rfl
@[simp] theorem State.modLink_ptags (s : State) (i : Nat) (f : LinkSt → LinkSt) : (s.modLink i f).ptags = s.ptags := rfl
@[simp] theorem State.modLink_err (s : State) (i : Nat) (f : LinkSt → LinkSt) : (s.modLink i f).err = s.err := rfl
@[simp] theorem State.modLink_cores (s : State) (i : Nat) (f : LinkSt → LinkSt) : (s.modLink i f).cores = s.cores := rfl
@[simp] theorem State.modLink_dieNodes (s : State) (i : Nat) (f : LinkSt → LinkSt) : (s.modLink i f).dieNodes = s.dieNodes := rfl
@[simp] theorem State.modLink_hubNode (s : State) (i : Nat) (f : LinkSt → LinkSt) : (s.modLink i f).hubNode = s.hubNode := rfl
@[simp] theorem State.modLink_flight (s : State) (i : Nat) (f : LinkSt → LinkSt) : (s.modLink i f).flight = s.flight := rfl
@[simp] theorem State.modLink_tk (s : State) (i : Nat) (f : LinkSt → LinkSt) : (s.modLink i f).tk = s.tk := rfl
@[simp] theorem State.modLink_chip (s : State) (i : Nat) (f : LinkSt → LinkSt) : (s.modLink i f).chip = s.chip := rfl
@[simp] theorem State.modLink_fx (s : State) (i : Nat) (f : LinkSt → LinkSt) : (s.modLink i f).fx = s.fx := rfl
@[simp] theorem State.modLink_img (s : State) (i : Nat) (f : LinkSt → LinkSt) : (s.modLink i f).img = s.img := rfl
@[simp] theorem State.modLink_port (s : State) (i : Nat) (f : LinkSt → LinkSt) : (s.modLink i f).port = s.port := rfl
@[simp] theorem State.modLink_pwr (s : State) (i : Nat) (f : LinkSt → LinkSt) : (s.modLink i f).pwr = s.pwr := rfl
@[simp] theorem State.modLink_sec (s : State) (i : Nat) (f : LinkSt → LinkSt) : (s.modLink i f).sec = s.sec := rfl
@[simp] theorem State.modLink_bist (s : State) (i : Nat) (f : LinkSt → LinkSt) : (s.modLink i f).bist = s.bist := rfl
@[simp] theorem State.modLink_svc (s : State) (i : Nat) (f : LinkSt → LinkSt) : (s.modLink i f).svc = s.svc := rfl
@[simp] theorem State.modLink_freeCount (s : State) (i : Nat) (f : LinkSt → LinkSt) : (s.modLink i f).freeCount = s.freeCount := rfl
@[simp] theorem State.modLink_out (s : State) (i : Nat) (f : LinkSt → LinkSt) : (s.modLink i f).out = s.out := rfl
@[simp] theorem State.modLink_pending (s : State) (i : Nat) (f : LinkSt → LinkSt) : (s.modLink i f).pending = s.pending := rfl

/-! ### modTk -/

@[simp] theorem State.modTk_regs (s : State) (f : TickSt → TickSt) : (s.modTk f).regs = s.regs := rfl
@[simp] theorem State.modTk_hbm (s : State) (f : TickSt → TickSt) : (s.modTk f).hbm = s.hbm := rfl
@[simp] theorem State.modTk_spad (s : State) (f : TickSt → TickSt) : (s.modTk f).spad = s.spad := rfl
@[simp] theorem State.modTk_mac (s : State) (f : TickSt → TickSt) : (s.modTk f).mac = s.mac := rfl
@[simp] theorem State.modTk_scale (s : State) (f : TickSt → TickSt) : (s.modTk f).scale = s.scale := rfl
@[simp] theorem State.modTk_ptags (s : State) (f : TickSt → TickSt) : (s.modTk f).ptags = s.ptags := rfl
@[simp] theorem State.modTk_err (s : State) (f : TickSt → TickSt) : (s.modTk f).err = s.err := rfl
@[simp] theorem State.modTk_cores (s : State) (f : TickSt → TickSt) : (s.modTk f).cores = s.cores := rfl
@[simp] theorem State.modTk_dieNodes (s : State) (f : TickSt → TickSt) : (s.modTk f).dieNodes = s.dieNodes := rfl
@[simp] theorem State.modTk_hubNode (s : State) (f : TickSt → TickSt) : (s.modTk f).hubNode = s.hubNode := rfl
@[simp] theorem State.modTk_flight (s : State) (f : TickSt → TickSt) : (s.modTk f).flight = s.flight := rfl
@[simp] theorem State.modTk_links (s : State) (f : TickSt → TickSt) : (s.modTk f).links = s.links := rfl
@[simp] theorem State.modTk_chip (s : State) (f : TickSt → TickSt) : (s.modTk f).chip = s.chip := rfl
@[simp] theorem State.modTk_fx (s : State) (f : TickSt → TickSt) : (s.modTk f).fx = s.fx := rfl
@[simp] theorem State.modTk_img (s : State) (f : TickSt → TickSt) : (s.modTk f).img = s.img := rfl
@[simp] theorem State.modTk_port (s : State) (f : TickSt → TickSt) : (s.modTk f).port = s.port := rfl
@[simp] theorem State.modTk_pwr (s : State) (f : TickSt → TickSt) : (s.modTk f).pwr = s.pwr := rfl
@[simp] theorem State.modTk_sec (s : State) (f : TickSt → TickSt) : (s.modTk f).sec = s.sec := rfl
@[simp] theorem State.modTk_bist (s : State) (f : TickSt → TickSt) : (s.modTk f).bist = s.bist := rfl
@[simp] theorem State.modTk_svc (s : State) (f : TickSt → TickSt) : (s.modTk f).svc = s.svc := rfl
@[simp] theorem State.modTk_freeCount (s : State) (f : TickSt → TickSt) : (s.modTk f).freeCount = s.freeCount := rfl
@[simp] theorem State.modTk_out (s : State) (f : TickSt → TickSt) : (s.modTk f).out = s.out := rfl
@[simp] theorem State.modTk_pending (s : State) (f : TickSt → TickSt) : (s.modTk f).pending = s.pending := rfl

/-! ### modFx -/

@[simp] theorem State.modFx_regs (s : State) (f : CommitSt → CommitSt) : (s.modFx f).regs = s.regs := rfl
@[simp] theorem State.modFx_hbm (s : State) (f : CommitSt → CommitSt) : (s.modFx f).hbm = s.hbm := rfl
@[simp] theorem State.modFx_spad (s : State) (f : CommitSt → CommitSt) : (s.modFx f).spad = s.spad := rfl
@[simp] theorem State.modFx_mac (s : State) (f : CommitSt → CommitSt) : (s.modFx f).mac = s.mac := rfl
@[simp] theorem State.modFx_scale (s : State) (f : CommitSt → CommitSt) : (s.modFx f).scale = s.scale := rfl
@[simp] theorem State.modFx_ptags (s : State) (f : CommitSt → CommitSt) : (s.modFx f).ptags = s.ptags := rfl
@[simp] theorem State.modFx_err (s : State) (f : CommitSt → CommitSt) : (s.modFx f).err = s.err := rfl
@[simp] theorem State.modFx_cores (s : State) (f : CommitSt → CommitSt) : (s.modFx f).cores = s.cores := rfl
@[simp] theorem State.modFx_dieNodes (s : State) (f : CommitSt → CommitSt) : (s.modFx f).dieNodes = s.dieNodes := rfl
@[simp] theorem State.modFx_hubNode (s : State) (f : CommitSt → CommitSt) : (s.modFx f).hubNode = s.hubNode := rfl
@[simp] theorem State.modFx_flight (s : State) (f : CommitSt → CommitSt) : (s.modFx f).flight = s.flight := rfl
@[simp] theorem State.modFx_tk (s : State) (f : CommitSt → CommitSt) : (s.modFx f).tk = s.tk := rfl
@[simp] theorem State.modFx_links (s : State) (f : CommitSt → CommitSt) : (s.modFx f).links = s.links := rfl
@[simp] theorem State.modFx_chip (s : State) (f : CommitSt → CommitSt) : (s.modFx f).chip = s.chip := rfl
@[simp] theorem State.modFx_img (s : State) (f : CommitSt → CommitSt) : (s.modFx f).img = s.img := rfl
@[simp] theorem State.modFx_port (s : State) (f : CommitSt → CommitSt) : (s.modFx f).port = s.port := rfl
@[simp] theorem State.modFx_pwr (s : State) (f : CommitSt → CommitSt) : (s.modFx f).pwr = s.pwr := rfl
@[simp] theorem State.modFx_sec (s : State) (f : CommitSt → CommitSt) : (s.modFx f).sec = s.sec := rfl
@[simp] theorem State.modFx_bist (s : State) (f : CommitSt → CommitSt) : (s.modFx f).bist = s.bist := rfl
@[simp] theorem State.modFx_svc (s : State) (f : CommitSt → CommitSt) : (s.modFx f).svc = s.svc := rfl
@[simp] theorem State.modFx_freeCount (s : State) (f : CommitSt → CommitSt) : (s.modFx f).freeCount = s.freeCount := rfl
@[simp] theorem State.modFx_out (s : State) (f : CommitSt → CommitSt) : (s.modFx f).out = s.out := rfl
@[simp] theorem State.modFx_pending (s : State) (f : CommitSt → CommitSt) : (s.modFx f).pending = s.pending := rfl

/-! ### modCur -/

@[simp] theorem State.modCur_regs (s : State) (f : FrameRec → FrameRec) : (s.modCur f).regs = s.regs := rfl
@[simp] theorem State.modCur_hbm (s : State) (f : FrameRec → FrameRec) : (s.modCur f).hbm = s.hbm := rfl
@[simp] theorem State.modCur_spad (s : State) (f : FrameRec → FrameRec) : (s.modCur f).spad = s.spad := rfl
@[simp] theorem State.modCur_mac (s : State) (f : FrameRec → FrameRec) : (s.modCur f).mac = s.mac := rfl
@[simp] theorem State.modCur_scale (s : State) (f : FrameRec → FrameRec) : (s.modCur f).scale = s.scale := rfl
@[simp] theorem State.modCur_ptags (s : State) (f : FrameRec → FrameRec) : (s.modCur f).ptags = s.ptags := rfl
@[simp] theorem State.modCur_err (s : State) (f : FrameRec → FrameRec) : (s.modCur f).err = s.err := rfl
@[simp] theorem State.modCur_cores (s : State) (f : FrameRec → FrameRec) : (s.modCur f).cores = s.cores := rfl
@[simp] theorem State.modCur_dieNodes (s : State) (f : FrameRec → FrameRec) : (s.modCur f).dieNodes = s.dieNodes := rfl
@[simp] theorem State.modCur_hubNode (s : State) (f : FrameRec → FrameRec) : (s.modCur f).hubNode = s.hubNode := rfl
@[simp] theorem State.modCur_flight (s : State) (f : FrameRec → FrameRec) : (s.modCur f).flight = s.flight := rfl
@[simp] theorem State.modCur_tk (s : State) (f : FrameRec → FrameRec) : (s.modCur f).tk = s.tk := rfl
@[simp] theorem State.modCur_links (s : State) (f : FrameRec → FrameRec) : (s.modCur f).links = s.links := rfl
@[simp] theorem State.modCur_chip (s : State) (f : FrameRec → FrameRec) : (s.modCur f).chip = s.chip := rfl
@[simp] theorem State.modCur_img (s : State) (f : FrameRec → FrameRec) : (s.modCur f).img = s.img := rfl
@[simp] theorem State.modCur_port (s : State) (f : FrameRec → FrameRec) : (s.modCur f).port = s.port := rfl
@[simp] theorem State.modCur_pwr (s : State) (f : FrameRec → FrameRec) : (s.modCur f).pwr = s.pwr := rfl
@[simp] theorem State.modCur_sec (s : State) (f : FrameRec → FrameRec) : (s.modCur f).sec = s.sec := rfl
@[simp] theorem State.modCur_bist (s : State) (f : FrameRec → FrameRec) : (s.modCur f).bist = s.bist := rfl
@[simp] theorem State.modCur_svc (s : State) (f : FrameRec → FrameRec) : (s.modCur f).svc = s.svc := rfl
@[simp] theorem State.modCur_freeCount (s : State) (f : FrameRec → FrameRec) : (s.modCur f).freeCount = s.freeCount := rfl
@[simp] theorem State.modCur_out (s : State) (f : FrameRec → FrameRec) : (s.modCur f).out = s.out := rfl
@[simp] theorem State.modCur_pending (s : State) (f : FrameRec → FrameRec) : (s.modCur f).pending = s.pending := rfl

/-! ### modImg -/

@[simp] theorem State.modImg_regs (s : State) (f : ImageSt → ImageSt) : (s.modImg f).regs = s.regs := rfl
@[simp] theorem State.modImg_hbm (s : State) (f : ImageSt → ImageSt) : (s.modImg f).hbm = s.hbm := rfl
@[simp] theorem State.modImg_spad (s : State) (f : ImageSt → ImageSt) : (s.modImg f).spad = s.spad := rfl
@[simp] theorem State.modImg_mac (s : State) (f : ImageSt → ImageSt) : (s.modImg f).mac = s.mac := rfl
@[simp] theorem State.modImg_scale (s : State) (f : ImageSt → ImageSt) : (s.modImg f).scale = s.scale := rfl
@[simp] theorem State.modImg_ptags (s : State) (f : ImageSt → ImageSt) : (s.modImg f).ptags = s.ptags := rfl
@[simp] theorem State.modImg_err (s : State) (f : ImageSt → ImageSt) : (s.modImg f).err = s.err := rfl
@[simp] theorem State.modImg_cores (s : State) (f : ImageSt → ImageSt) : (s.modImg f).cores = s.cores := rfl
@[simp] theorem State.modImg_dieNodes (s : State) (f : ImageSt → ImageSt) : (s.modImg f).dieNodes = s.dieNodes := rfl
@[simp] theorem State.modImg_hubNode (s : State) (f : ImageSt → ImageSt) : (s.modImg f).hubNode = s.hubNode := rfl
@[simp] theorem State.modImg_flight (s : State) (f : ImageSt → ImageSt) : (s.modImg f).flight = s.flight := rfl
@[simp] theorem State.modImg_tk (s : State) (f : ImageSt → ImageSt) : (s.modImg f).tk = s.tk := rfl
@[simp] theorem State.modImg_links (s : State) (f : ImageSt → ImageSt) : (s.modImg f).links = s.links := rfl
@[simp] theorem State.modImg_chip (s : State) (f : ImageSt → ImageSt) : (s.modImg f).chip = s.chip := rfl
@[simp] theorem State.modImg_fx (s : State) (f : ImageSt → ImageSt) : (s.modImg f).fx = s.fx := rfl
@[simp] theorem State.modImg_port (s : State) (f : ImageSt → ImageSt) : (s.modImg f).port = s.port := rfl
@[simp] theorem State.modImg_pwr (s : State) (f : ImageSt → ImageSt) : (s.modImg f).pwr = s.pwr := rfl
@[simp] theorem State.modImg_sec (s : State) (f : ImageSt → ImageSt) : (s.modImg f).sec = s.sec := rfl
@[simp] theorem State.modImg_bist (s : State) (f : ImageSt → ImageSt) : (s.modImg f).bist = s.bist := rfl
@[simp] theorem State.modImg_svc (s : State) (f : ImageSt → ImageSt) : (s.modImg f).svc = s.svc := rfl
@[simp] theorem State.modImg_freeCount (s : State) (f : ImageSt → ImageSt) : (s.modImg f).freeCount = s.freeCount := rfl
@[simp] theorem State.modImg_out (s : State) (f : ImageSt → ImageSt) : (s.modImg f).out = s.out := rfl
@[simp] theorem State.modImg_pending (s : State) (f : ImageSt → ImageSt) : (s.modImg f).pending = s.pending := rfl

/-! ### modPort -/

@[simp] theorem State.modPort_regs (s : State) (f : PortSt → PortSt) : (s.modPort f).regs = s.regs := rfl
@[simp] theorem State.modPort_hbm (s : State) (f : PortSt → PortSt) : (s.modPort f).hbm = s.hbm := rfl
@[simp] theorem State.modPort_spad (s : State) (f : PortSt → PortSt) : (s.modPort f).spad = s.spad := rfl
@[simp] theorem State.modPort_mac (s : State) (f : PortSt → PortSt) : (s.modPort f).mac = s.mac := rfl
@[simp] theorem State.modPort_scale (s : State) (f : PortSt → PortSt) : (s.modPort f).scale = s.scale := rfl
@[simp] theorem State.modPort_ptags (s : State) (f : PortSt → PortSt) : (s.modPort f).ptags = s.ptags := rfl
@[simp] theorem State.modPort_err (s : State) (f : PortSt → PortSt) : (s.modPort f).err = s.err := rfl
@[simp] theorem State.modPort_cores (s : State) (f : PortSt → PortSt) : (s.modPort f).cores = s.cores := rfl
@[simp] theorem State.modPort_dieNodes (s : State) (f : PortSt → PortSt) : (s.modPort f).dieNodes = s.dieNodes := rfl
@[simp] theorem State.modPort_hubNode (s : State) (f : PortSt → PortSt) : (s.modPort f).hubNode = s.hubNode := rfl
@[simp] theorem State.modPort_flight (s : State) (f : PortSt → PortSt) : (s.modPort f).flight = s.flight := rfl
@[simp] theorem State.modPort_tk (s : State) (f : PortSt → PortSt) : (s.modPort f).tk = s.tk := rfl
@[simp] theorem State.modPort_links (s : State) (f : PortSt → PortSt) : (s.modPort f).links = s.links := rfl
@[simp] theorem State.modPort_chip (s : State) (f : PortSt → PortSt) : (s.modPort f).chip = s.chip := rfl
@[simp] theorem State.modPort_fx (s : State) (f : PortSt → PortSt) : (s.modPort f).fx = s.fx := rfl
@[simp] theorem State.modPort_img (s : State) (f : PortSt → PortSt) : (s.modPort f).img = s.img := rfl
@[simp] theorem State.modPort_pwr (s : State) (f : PortSt → PortSt) : (s.modPort f).pwr = s.pwr := rfl
@[simp] theorem State.modPort_sec (s : State) (f : PortSt → PortSt) : (s.modPort f).sec = s.sec := rfl
@[simp] theorem State.modPort_bist (s : State) (f : PortSt → PortSt) : (s.modPort f).bist = s.bist := rfl
@[simp] theorem State.modPort_svc (s : State) (f : PortSt → PortSt) : (s.modPort f).svc = s.svc := rfl
@[simp] theorem State.modPort_freeCount (s : State) (f : PortSt → PortSt) : (s.modPort f).freeCount = s.freeCount := rfl
@[simp] theorem State.modPort_out (s : State) (f : PortSt → PortSt) : (s.modPort f).out = s.out := rfl
@[simp] theorem State.modPort_pending (s : State) (f : PortSt → PortSt) : (s.modPort f).pending = s.pending := rfl

/-! ### modPwr -/

@[simp] theorem State.modPwr_regs (s : State) (f : PowerSt → PowerSt) : (s.modPwr f).regs = s.regs := rfl
@[simp] theorem State.modPwr_hbm (s : State) (f : PowerSt → PowerSt) : (s.modPwr f).hbm = s.hbm := rfl
@[simp] theorem State.modPwr_spad (s : State) (f : PowerSt → PowerSt) : (s.modPwr f).spad = s.spad := rfl
@[simp] theorem State.modPwr_mac (s : State) (f : PowerSt → PowerSt) : (s.modPwr f).mac = s.mac := rfl
@[simp] theorem State.modPwr_scale (s : State) (f : PowerSt → PowerSt) : (s.modPwr f).scale = s.scale := rfl
@[simp] theorem State.modPwr_ptags (s : State) (f : PowerSt → PowerSt) : (s.modPwr f).ptags = s.ptags := rfl
@[simp] theorem State.modPwr_err (s : State) (f : PowerSt → PowerSt) : (s.modPwr f).err = s.err := rfl
@[simp] theorem State.modPwr_cores (s : State) (f : PowerSt → PowerSt) : (s.modPwr f).cores = s.cores := rfl
@[simp] theorem State.modPwr_dieNodes (s : State) (f : PowerSt → PowerSt) : (s.modPwr f).dieNodes = s.dieNodes := rfl
@[simp] theorem State.modPwr_hubNode (s : State) (f : PowerSt → PowerSt) : (s.modPwr f).hubNode = s.hubNode := rfl
@[simp] theorem State.modPwr_flight (s : State) (f : PowerSt → PowerSt) : (s.modPwr f).flight = s.flight := rfl
@[simp] theorem State.modPwr_tk (s : State) (f : PowerSt → PowerSt) : (s.modPwr f).tk = s.tk := rfl
@[simp] theorem State.modPwr_links (s : State) (f : PowerSt → PowerSt) : (s.modPwr f).links = s.links := rfl
@[simp] theorem State.modPwr_chip (s : State) (f : PowerSt → PowerSt) : (s.modPwr f).chip = s.chip := rfl
@[simp] theorem State.modPwr_fx (s : State) (f : PowerSt → PowerSt) : (s.modPwr f).fx = s.fx := rfl
@[simp] theorem State.modPwr_img (s : State) (f : PowerSt → PowerSt) : (s.modPwr f).img = s.img := rfl
@[simp] theorem State.modPwr_port (s : State) (f : PowerSt → PowerSt) : (s.modPwr f).port = s.port := rfl
@[simp] theorem State.modPwr_sec (s : State) (f : PowerSt → PowerSt) : (s.modPwr f).sec = s.sec := rfl
@[simp] theorem State.modPwr_bist (s : State) (f : PowerSt → PowerSt) : (s.modPwr f).bist = s.bist := rfl
@[simp] theorem State.modPwr_svc (s : State) (f : PowerSt → PowerSt) : (s.modPwr f).svc = s.svc := rfl
@[simp] theorem State.modPwr_freeCount (s : State) (f : PowerSt → PowerSt) : (s.modPwr f).freeCount = s.freeCount := rfl
@[simp] theorem State.modPwr_out (s : State) (f : PowerSt → PowerSt) : (s.modPwr f).out = s.out := rfl
@[simp] theorem State.modPwr_pending (s : State) (f : PowerSt → PowerSt) : (s.modPwr f).pending = s.pending := rfl

/-! ### modSec -/

@[simp] theorem State.modSec_regs (s : State) (f : SecSt → SecSt) : (s.modSec f).regs = s.regs := rfl
@[simp] theorem State.modSec_hbm (s : State) (f : SecSt → SecSt) : (s.modSec f).hbm = s.hbm := rfl
@[simp] theorem State.modSec_spad (s : State) (f : SecSt → SecSt) : (s.modSec f).spad = s.spad := rfl
@[simp] theorem State.modSec_mac (s : State) (f : SecSt → SecSt) : (s.modSec f).mac = s.mac := rfl
@[simp] theorem State.modSec_scale (s : State) (f : SecSt → SecSt) : (s.modSec f).scale = s.scale := rfl
@[simp] theorem State.modSec_ptags (s : State) (f : SecSt → SecSt) : (s.modSec f).ptags = s.ptags := rfl
@[simp] theorem State.modSec_err (s : State) (f : SecSt → SecSt) : (s.modSec f).err = s.err := rfl
@[simp] theorem State.modSec_cores (s : State) (f : SecSt → SecSt) : (s.modSec f).cores = s.cores := rfl
@[simp] theorem State.modSec_dieNodes (s : State) (f : SecSt → SecSt) : (s.modSec f).dieNodes = s.dieNodes := rfl
@[simp] theorem State.modSec_hubNode (s : State) (f : SecSt → SecSt) : (s.modSec f).hubNode = s.hubNode := rfl
@[simp] theorem State.modSec_flight (s : State) (f : SecSt → SecSt) : (s.modSec f).flight = s.flight := rfl
@[simp] theorem State.modSec_tk (s : State) (f : SecSt → SecSt) : (s.modSec f).tk = s.tk := rfl
@[simp] theorem State.modSec_links (s : State) (f : SecSt → SecSt) : (s.modSec f).links = s.links := rfl
@[simp] theorem State.modSec_chip (s : State) (f : SecSt → SecSt) : (s.modSec f).chip = s.chip := rfl
@[simp] theorem State.modSec_fx (s : State) (f : SecSt → SecSt) : (s.modSec f).fx = s.fx := rfl
@[simp] theorem State.modSec_img (s : State) (f : SecSt → SecSt) : (s.modSec f).img = s.img := rfl
@[simp] theorem State.modSec_port (s : State) (f : SecSt → SecSt) : (s.modSec f).port = s.port := rfl
@[simp] theorem State.modSec_pwr (s : State) (f : SecSt → SecSt) : (s.modSec f).pwr = s.pwr := rfl
@[simp] theorem State.modSec_bist (s : State) (f : SecSt → SecSt) : (s.modSec f).bist = s.bist := rfl
@[simp] theorem State.modSec_svc (s : State) (f : SecSt → SecSt) : (s.modSec f).svc = s.svc := rfl
@[simp] theorem State.modSec_freeCount (s : State) (f : SecSt → SecSt) : (s.modSec f).freeCount = s.freeCount := rfl
@[simp] theorem State.modSec_out (s : State) (f : SecSt → SecSt) : (s.modSec f).out = s.out := rfl
@[simp] theorem State.modSec_pending (s : State) (f : SecSt → SecSt) : (s.modSec f).pending = s.pending := rfl

/-! ### modBist -/

@[simp] theorem State.modBist_regs (s : State) (f : TestSt → TestSt) : (s.modBist f).regs = s.regs := rfl
@[simp] theorem State.modBist_hbm (s : State) (f : TestSt → TestSt) : (s.modBist f).hbm = s.hbm := rfl
@[simp] theorem State.modBist_spad (s : State) (f : TestSt → TestSt) : (s.modBist f).spad = s.spad := rfl
@[simp] theorem State.modBist_mac (s : State) (f : TestSt → TestSt) : (s.modBist f).mac = s.mac := rfl
@[simp] theorem State.modBist_scale (s : State) (f : TestSt → TestSt) : (s.modBist f).scale = s.scale := rfl
@[simp] theorem State.modBist_ptags (s : State) (f : TestSt → TestSt) : (s.modBist f).ptags = s.ptags := rfl
@[simp] theorem State.modBist_err (s : State) (f : TestSt → TestSt) : (s.modBist f).err = s.err := rfl
@[simp] theorem State.modBist_cores (s : State) (f : TestSt → TestSt) : (s.modBist f).cores = s.cores := rfl
@[simp] theorem State.modBist_dieNodes (s : State) (f : TestSt → TestSt) : (s.modBist f).dieNodes = s.dieNodes := rfl
@[simp] theorem State.modBist_hubNode (s : State) (f : TestSt → TestSt) : (s.modBist f).hubNode = s.hubNode := rfl
@[simp] theorem State.modBist_flight (s : State) (f : TestSt → TestSt) : (s.modBist f).flight = s.flight := rfl
@[simp] theorem State.modBist_tk (s : State) (f : TestSt → TestSt) : (s.modBist f).tk = s.tk := rfl
@[simp] theorem State.modBist_links (s : State) (f : TestSt → TestSt) : (s.modBist f).links = s.links := rfl
@[simp] theorem State.modBist_chip (s : State) (f : TestSt → TestSt) : (s.modBist f).chip = s.chip := rfl
@[simp] theorem State.modBist_fx (s : State) (f : TestSt → TestSt) : (s.modBist f).fx = s.fx := rfl
@[simp] theorem State.modBist_img (s : State) (f : TestSt → TestSt) : (s.modBist f).img = s.img := rfl
@[simp] theorem State.modBist_port (s : State) (f : TestSt → TestSt) : (s.modBist f).port = s.port := rfl
@[simp] theorem State.modBist_pwr (s : State) (f : TestSt → TestSt) : (s.modBist f).pwr = s.pwr := rfl
@[simp] theorem State.modBist_sec (s : State) (f : TestSt → TestSt) : (s.modBist f).sec = s.sec := rfl
@[simp] theorem State.modBist_svc (s : State) (f : TestSt → TestSt) : (s.modBist f).svc = s.svc := rfl
@[simp] theorem State.modBist_freeCount (s : State) (f : TestSt → TestSt) : (s.modBist f).freeCount = s.freeCount := rfl
@[simp] theorem State.modBist_out (s : State) (f : TestSt → TestSt) : (s.modBist f).out = s.out := rfl
@[simp] theorem State.modBist_pending (s : State) (f : TestSt → TestSt) : (s.modBist f).pending = s.pending := rfl

/-! ### modSvc -/

@[simp] theorem State.modSvc_regs (s : State) (f : ServiceSt → ServiceSt) : (s.modSvc f).regs = s.regs := rfl
@[simp] theorem State.modSvc_hbm (s : State) (f : ServiceSt → ServiceSt) : (s.modSvc f).hbm = s.hbm := rfl
@[simp] theorem State.modSvc_spad (s : State) (f : ServiceSt → ServiceSt) : (s.modSvc f).spad = s.spad := rfl
@[simp] theorem State.modSvc_mac (s : State) (f : ServiceSt → ServiceSt) : (s.modSvc f).mac = s.mac := rfl
@[simp] theorem State.modSvc_scale (s : State) (f : ServiceSt → ServiceSt) : (s.modSvc f).scale = s.scale := rfl
@[simp] theorem State.modSvc_ptags (s : State) (f : ServiceSt → ServiceSt) : (s.modSvc f).ptags = s.ptags := rfl
@[simp] theorem State.modSvc_err (s : State) (f : ServiceSt → ServiceSt) : (s.modSvc f).err = s.err := rfl
@[simp] theorem State.modSvc_cores (s : State) (f : ServiceSt → ServiceSt) : (s.modSvc f).cores = s.cores := rfl
@[simp] theorem State.modSvc_dieNodes (s : State) (f : ServiceSt → ServiceSt) : (s.modSvc f).dieNodes = s.dieNodes := rfl
@[simp] theorem State.modSvc_hubNode (s : State) (f : ServiceSt → ServiceSt) : (s.modSvc f).hubNode = s.hubNode := rfl
@[simp] theorem State.modSvc_flight (s : State) (f : ServiceSt → ServiceSt) : (s.modSvc f).flight = s.flight := rfl
@[simp] theorem State.modSvc_tk (s : State) (f : ServiceSt → ServiceSt) : (s.modSvc f).tk = s.tk := rfl
@[simp] theorem State.modSvc_links (s : State) (f : ServiceSt → ServiceSt) : (s.modSvc f).links = s.links := rfl
@[simp] theorem State.modSvc_chip (s : State) (f : ServiceSt → ServiceSt) : (s.modSvc f).chip = s.chip := rfl
@[simp] theorem State.modSvc_fx (s : State) (f : ServiceSt → ServiceSt) : (s.modSvc f).fx = s.fx := rfl
@[simp] theorem State.modSvc_img (s : State) (f : ServiceSt → ServiceSt) : (s.modSvc f).img = s.img := rfl
@[simp] theorem State.modSvc_port (s : State) (f : ServiceSt → ServiceSt) : (s.modSvc f).port = s.port := rfl
@[simp] theorem State.modSvc_pwr (s : State) (f : ServiceSt → ServiceSt) : (s.modSvc f).pwr = s.pwr := rfl
@[simp] theorem State.modSvc_sec (s : State) (f : ServiceSt → ServiceSt) : (s.modSvc f).sec = s.sec := rfl
@[simp] theorem State.modSvc_bist (s : State) (f : ServiceSt → ServiceSt) : (s.modSvc f).bist = s.bist := rfl
@[simp] theorem State.modSvc_freeCount (s : State) (f : ServiceSt → ServiceSt) : (s.modSvc f).freeCount = s.freeCount := rfl
@[simp] theorem State.modSvc_out (s : State) (f : ServiceSt → ServiceSt) : (s.modSvc f).out = s.out := rfl
@[simp] theorem State.modSvc_pending (s : State) (f : ServiceSt → ServiceSt) : (s.modSvc f).pending = s.pending := rfl

/-! ### modErr -/

@[simp] theorem State.modErr_regs (s : State) (f : ErrSt → ErrSt) : (s.modErr f).regs = s.regs := rfl
@[simp] theorem State.modErr_hbm (s : State) (f : ErrSt → ErrSt) : (s.modErr f).hbm = s.hbm := rfl
@[simp] theorem State.modErr_spad (s : State) (f : ErrSt → ErrSt) : (s.modErr f).spad = s.spad := rfl
@[simp] theorem State.modErr_mac (s : State) (f : ErrSt → ErrSt) : (s.modErr f).mac = s.mac := rfl
@[simp] theorem State.modErr_scale (s : State) (f : ErrSt → ErrSt) : (s.modErr f).scale = s.scale := rfl
@[simp] theorem State.modErr_ptags (s : State) (f : ErrSt → ErrSt) : (s.modErr f).ptags = s.ptags := rfl
@[simp] theorem State.modErr_cores (s : State) (f : ErrSt → ErrSt) : (s.modErr f).cores = s.cores := rfl
@[simp] theorem State.modErr_dieNodes (s : State) (f : ErrSt → ErrSt) : (s.modErr f).dieNodes = s.dieNodes := rfl
@[simp] theorem State.modErr_hubNode (s : State) (f : ErrSt → ErrSt) : (s.modErr f).hubNode = s.hubNode := rfl
@[simp] theorem State.modErr_flight (s : State) (f : ErrSt → ErrSt) : (s.modErr f).flight = s.flight := rfl
@[simp] theorem State.modErr_tk (s : State) (f : ErrSt → ErrSt) : (s.modErr f).tk = s.tk := rfl
@[simp] theorem State.modErr_links (s : State) (f : ErrSt → ErrSt) : (s.modErr f).links = s.links := rfl
@[simp] theorem State.modErr_chip (s : State) (f : ErrSt → ErrSt) : (s.modErr f).chip = s.chip := rfl
@[simp] theorem State.modErr_fx (s : State) (f : ErrSt → ErrSt) : (s.modErr f).fx = s.fx := rfl
@[simp] theorem State.modErr_img (s : State) (f : ErrSt → ErrSt) : (s.modErr f).img = s.img := rfl
@[simp] theorem State.modErr_port (s : State) (f : ErrSt → ErrSt) : (s.modErr f).port = s.port := rfl
@[simp] theorem State.modErr_pwr (s : State) (f : ErrSt → ErrSt) : (s.modErr f).pwr = s.pwr := rfl
@[simp] theorem State.modErr_sec (s : State) (f : ErrSt → ErrSt) : (s.modErr f).sec = s.sec := rfl
@[simp] theorem State.modErr_bist (s : State) (f : ErrSt → ErrSt) : (s.modErr f).bist = s.bist := rfl
@[simp] theorem State.modErr_svc (s : State) (f : ErrSt → ErrSt) : (s.modErr f).svc = s.svc := rfl
@[simp] theorem State.modErr_freeCount (s : State) (f : ErrSt → ErrSt) : (s.modErr f).freeCount = s.freeCount := rfl
@[simp] theorem State.modErr_out (s : State) (f : ErrSt → ErrSt) : (s.modErr f).out = s.out := rfl
@[simp] theorem State.modErr_pending (s : State) (f : ErrSt → ErrSt) : (s.modErr f).pending = s.pending := rfl

/-! ### send -/

@[simp] theorem State.send_regs (s : State) (o : Out) : (s.send o).regs = s.regs := rfl
@[simp] theorem State.send_hbm (s : State) (o : Out) : (s.send o).hbm = s.hbm := rfl
@[simp] theorem State.send_spad (s : State) (o : Out) : (s.send o).spad = s.spad := rfl
@[simp] theorem State.send_mac (s : State) (o : Out) : (s.send o).mac = s.mac := rfl
@[simp] theorem State.send_scale (s : State) (o : Out) : (s.send o).scale = s.scale := rfl
@[simp] theorem State.send_ptags (s : State) (o : Out) : (s.send o).ptags = s.ptags := rfl
@[simp] theorem State.send_err (s : State) (o : Out) : (s.send o).err = s.err := rfl
@[simp] theorem State.send_cores (s : State) (o : Out) : (s.send o).cores = s.cores := rfl
@[simp] theorem State.send_dieNodes (s : State) (o : Out) : (s.send o).dieNodes = s.dieNodes := rfl
@[simp] theorem State.send_hubNode (s : State) (o : Out) : (s.send o).hubNode = s.hubNode := rfl
@[simp] theorem State.send_flight (s : State) (o : Out) : (s.send o).flight = s.flight := rfl
@[simp] theorem State.send_tk (s : State) (o : Out) : (s.send o).tk = s.tk := rfl
@[simp] theorem State.send_links (s : State) (o : Out) : (s.send o).links = s.links := rfl
@[simp] theorem State.send_chip (s : State) (o : Out) : (s.send o).chip = s.chip := rfl
@[simp] theorem State.send_fx (s : State) (o : Out) : (s.send o).fx = s.fx := rfl
@[simp] theorem State.send_img (s : State) (o : Out) : (s.send o).img = s.img := rfl
@[simp] theorem State.send_port (s : State) (o : Out) : (s.send o).port = s.port := rfl
@[simp] theorem State.send_pwr (s : State) (o : Out) : (s.send o).pwr = s.pwr := rfl
@[simp] theorem State.send_sec (s : State) (o : Out) : (s.send o).sec = s.sec := rfl
@[simp] theorem State.send_bist (s : State) (o : Out) : (s.send o).bist = s.bist := rfl
@[simp] theorem State.send_svc (s : State) (o : Out) : (s.send o).svc = s.svc := rfl
@[simp] theorem State.send_freeCount (s : State) (o : Out) : (s.send o).freeCount = s.freeCount := rfl
@[simp] theorem State.send_pending (s : State) (o : Out) : (s.send o).pending = s.pending := rfl

/-! ### usedFree -/

@[simp] theorem State.usedFree_regs (s : State) : (s.usedFree).regs = s.regs := rfl
@[simp] theorem State.usedFree_hbm (s : State) : (s.usedFree).hbm = s.hbm := rfl
@[simp] theorem State.usedFree_spad (s : State) : (s.usedFree).spad = s.spad := rfl
@[simp] theorem State.usedFree_mac (s : State) : (s.usedFree).mac = s.mac := rfl
@[simp] theorem State.usedFree_scale (s : State) : (s.usedFree).scale = s.scale := rfl
@[simp] theorem State.usedFree_ptags (s : State) : (s.usedFree).ptags = s.ptags := rfl
@[simp] theorem State.usedFree_err (s : State) : (s.usedFree).err = s.err := rfl
@[simp] theorem State.usedFree_cores (s : State) : (s.usedFree).cores = s.cores := rfl
@[simp] theorem State.usedFree_dieNodes (s : State) : (s.usedFree).dieNodes = s.dieNodes := rfl
@[simp] theorem State.usedFree_hubNode (s : State) : (s.usedFree).hubNode = s.hubNode := rfl
@[simp] theorem State.usedFree_flight (s : State) : (s.usedFree).flight = s.flight := rfl
@[simp] theorem State.usedFree_tk (s : State) : (s.usedFree).tk = s.tk := rfl
@[simp] theorem State.usedFree_links (s : State) : (s.usedFree).links = s.links := rfl
@[simp] theorem State.usedFree_chip (s : State) : (s.usedFree).chip = s.chip := rfl
@[simp] theorem State.usedFree_fx (s : State) : (s.usedFree).fx = s.fx := rfl
@[simp] theorem State.usedFree_img (s : State) : (s.usedFree).img = s.img := rfl
@[simp] theorem State.usedFree_port (s : State) : (s.usedFree).port = s.port := rfl
@[simp] theorem State.usedFree_pwr (s : State) : (s.usedFree).pwr = s.pwr := rfl
@[simp] theorem State.usedFree_sec (s : State) : (s.usedFree).sec = s.sec := rfl
@[simp] theorem State.usedFree_bist (s : State) : (s.usedFree).bist = s.bist := rfl
@[simp] theorem State.usedFree_svc (s : State) : (s.usedFree).svc = s.svc := rfl
@[simp] theorem State.usedFree_out (s : State) : (s.usedFree).out = s.out := rfl
@[simp] theorem State.usedFree_pending (s : State) : (s.usedFree).pending = s.pending := rfl

/-! ### markRetired -/

@[simp] theorem State.markRetired_regs (s : State) (b i : Nat) : (s.markRetired b i).regs = s.regs := rfl
@[simp] theorem State.markRetired_hbm (s : State) (b i : Nat) : (s.markRetired b i).hbm = s.hbm := rfl
@[simp] theorem State.markRetired_spad (s : State) (b i : Nat) : (s.markRetired b i).spad = s.spad := rfl
@[simp] theorem State.markRetired_mac (s : State) (b i : Nat) : (s.markRetired b i).mac = s.mac := rfl
@[simp] theorem State.markRetired_scale (s : State) (b i : Nat) : (s.markRetired b i).scale = s.scale := rfl
@[simp] theorem State.markRetired_ptags (s : State) (b i : Nat) : (s.markRetired b i).ptags = s.ptags := rfl
@[simp] theorem State.markRetired_err (s : State) (b i : Nat) : (s.markRetired b i).err = s.err := rfl
@[simp] theorem State.markRetired_cores (s : State) (b i : Nat) : (s.markRetired b i).cores = s.cores := rfl
@[simp] theorem State.markRetired_dieNodes (s : State) (b i : Nat) : (s.markRetired b i).dieNodes = s.dieNodes := rfl
@[simp] theorem State.markRetired_hubNode (s : State) (b i : Nat) : (s.markRetired b i).hubNode = s.hubNode := rfl
@[simp] theorem State.markRetired_flight (s : State) (b i : Nat) : (s.markRetired b i).flight = s.flight := rfl
@[simp] theorem State.markRetired_tk (s : State) (b i : Nat) : (s.markRetired b i).tk = s.tk := rfl
@[simp] theorem State.markRetired_links (s : State) (b i : Nat) : (s.markRetired b i).links = s.links := rfl
@[simp] theorem State.markRetired_chip (s : State) (b i : Nat) : (s.markRetired b i).chip = s.chip := rfl
@[simp] theorem State.markRetired_fx (s : State) (b i : Nat) : (s.markRetired b i).fx = s.fx := rfl
@[simp] theorem State.markRetired_img (s : State) (b i : Nat) : (s.markRetired b i).img = s.img := rfl
@[simp] theorem State.markRetired_port (s : State) (b i : Nat) : (s.markRetired b i).port = s.port := rfl
@[simp] theorem State.markRetired_pwr (s : State) (b i : Nat) : (s.markRetired b i).pwr = s.pwr := rfl
@[simp] theorem State.markRetired_sec (s : State) (b i : Nat) : (s.markRetired b i).sec = s.sec := rfl
@[simp] theorem State.markRetired_svc (s : State) (b i : Nat) : (s.markRetired b i).svc = s.svc := rfl
@[simp] theorem State.markRetired_freeCount (s : State) (b i : Nat) : (s.markRetired b i).freeCount = s.freeCount := rfl
@[simp] theorem State.markRetired_out (s : State) (b i : Nat) : (s.markRetired b i).out = s.out := rfl
@[simp] theorem State.markRetired_pending (s : State) (b i : Nat) : (s.markRetired b i).pending = s.pending := rfl

@[simp] theorem State.modTk_tk (s : State) (f : TickSt → TickSt) : (s.modTk f).tk = f s.tk := rfl
@[simp] theorem State.modFx_fx (s : State) (f : CommitSt → CommitSt) : (s.modFx f).fx = f s.fx := rfl
@[simp] theorem State.modImg_img (s : State) (f : ImageSt → ImageSt) : (s.modImg f).img = f s.img := rfl
@[simp] theorem State.modPort_port (s : State) (f : PortSt → PortSt) : (s.modPort f).port = f s.port := rfl
@[simp] theorem State.modPwr_pwr (s : State) (f : PowerSt → PowerSt) : (s.modPwr f).pwr = f s.pwr := rfl
@[simp] theorem State.modSec_sec (s : State) (f : SecSt → SecSt) : (s.modSec f).sec = f s.sec := rfl
@[simp] theorem State.modBist_bist (s : State) (f : TestSt → TestSt) : (s.modBist f).bist = f s.bist := rfl
@[simp] theorem State.modSvc_svc (s : State) (f : ServiceSt → ServiceSt) : (s.modSvc f).svc = f s.svc := rfl
@[simp] theorem State.modErr_err (s : State) (f : ErrSt → ErrSt) : (s.modErr f).err = f s.err := rfl
@[simp] theorem State.modCur_fx (s : State) (f : FrameRec → FrameRec) : (s.modCur f).fx = { s.fx with cur := f s.fx.cur } := rfl
@[simp] theorem State.send_out (s : State) (o : Out) : (s.send o).out = o :: s.out := rfl
@[simp] theorem State.usedFree_freeCount (s : State) : s.usedFree.freeCount = s.freeCount + 1 := rfl

/-! ### Registers -/

/-- A register reads what was last written to it, and no other register changes. -/
theorem State.reg_setReg (s : State) (a b : Nat) (v : Word) : (s.setReg a v).reg b = if b = a then v else s.reg b :=
  SMap.get_set regReset s.regs b a v

@[simp] theorem State.reg_setReg_self (s : State) (a : Nat) (v : Word) : (s.setReg a v).reg a = v := by simp [State.reg_setReg]

theorem State.reg_setReg_other (s : State) {a b : Nat} (v : Word) (h : b ≠ a) : (s.setReg a v).reg b = s.reg b := by
  simp [State.reg_setReg, h]

theorem State.reg_setBit (s : State) (a i b : Nat) : (s.setBit a i).reg b = if b = a then setB (s.reg a) i else s.reg b :=
  State.reg_setReg s a b _
theorem State.reg_clrBit (s : State) (a i b : Nat) : (s.clrBit a i).reg b = if b = a then clrB (s.reg a) i else s.reg b :=
  State.reg_setReg s a b _
theorem State.reg_putBit (s : State) (a i : Nat) (x : Bool) (b : Nat) :
    (s.putBit a i x).reg b = if b = a then putB (s.reg a) i x else s.reg b := State.reg_setReg s a b _
theorem State.reg_setFld (s : State) (a lo w v b : Nat) :
    (s.setFld a lo w v).reg b = if b = a then putFld (s.reg a) lo w v else s.reg b := State.reg_setReg s a b _
theorem State.reg_addCnt (s : State) (a lo w n b : Nat) :
    (s.addCnt a lo w n).reg b = if b = a then putFld (s.reg a) lo w (satAdd (s.regFld a lo w) n (2 ^ w - 1)) else s.reg b :=
  State.reg_setReg s a b _

/-- Registers are a function of the stored map alone. -/
theorem State.reg_congr {s t : State} (h : t.regs = s.regs) (a : Nat) : t.reg a = s.reg a := by unfold State.reg; rw [h]

/-! ### Cores and links -/

theorem State.core_setCore (s : State) (i j : Nat) (c : Core) : (s.setCore i c).core j = if j = i then c else s.core j :=
  SMap.get_set _ s.cores j i c

@[simp] theorem State.core_setCore_self (s : State) (i : Nat) (c : Core) : (s.setCore i c).core i = c := by
  simp [State.core_setCore]

theorem State.core_modCore (s : State) (i j : Nat) (f : Core → Core) :
    (s.modCore i f).core j = if j = i then f (s.core i) else s.core j := State.core_setCore s i j _

@[simp] theorem State.core_modCore_self (s : State) (i : Nat) (f : Core → Core) : (s.modCore i f).core i = f (s.core i) := by
  simp [State.core_modCore]

/-- Cores are a function of their map alone. -/
theorem State.core_congr {s t : State} (h : t.cores = s.cores) (i : Nat) : t.core i = s.core i := by unfold State.core; rw [h]

theorem State.link_setLink (s : State) (i j : Nat) (l : LinkSt) : (s.setLink i l).link j = if j = i then l else s.link j :=
  SMap.get_set _ s.links j i l

@[simp] theorem State.link_setLink_self (s : State) (i : Nat) (l : LinkSt) : (s.setLink i l).link i = l := by
  simp [State.link_setLink]

theorem State.link_modLink (s : State) (i j : Nat) (f : LinkSt → LinkSt) :
    (s.modLink i f).link j = if j = i then f (s.link i) else s.link j := State.link_setLink s i j _

@[simp] theorem State.link_modLink_self (s : State) (i : Nat) (f : LinkSt → LinkSt) : (s.modLink i f).link i = f (s.link i) := by
  simp [State.link_modLink]

/-! ### Lists of changes -/

/-- What every change of a list keeps, the whole list keeps. -/
theorem forEach_keeps {β : Type} (P : State → Prop) (l : List β) (f : β → State → State)
    (h : ∀ x ∈ l, ∀ t, P t → P (f x t)) (s : State) (hs : P s) : P (forEach l f s) := by
  unfold forEach
  induction l generalizing s with
  | nil => exact hs
  | cons x l ih => exact ih (fun y hy => h y (by simp [hy])) (f x s) (h x (by simp) s hs)

/-- What no change of a list touches, the whole list does not touch. -/
theorem forEach_same {β γ : Type} (p : State → γ) (l : List β) (f : β → State → State) (h : ∀ x ∈ l, ∀ t, p (f x t) = p t)
    (s : State) : p (forEach l f s) = p s :=
  forEach_keeps (fun t => p t = p s) l f (fun x hx t ht => (h x hx t).trans ht) s rfl

theorem whenS_same {γ : Type} (p : State → γ) (b : Bool) (f : State → State) (h : ∀ t, p (f t) = p t) (s : State) :
    p (whenS b f s) = p s := by cases b <;> simp [whenS, h]

@[simp] theorem whenS_true (f : State → State) (s : State) : whenS true f s = f s := rfl
@[simp] theorem whenS_false (f : State → State) (s : State) : whenS false f s = s := rfl
@[simp] theorem forEach_nil {β : Type} (f : β → State → State) (s : State) : forEach [] f s = s := rfl
@[simp] theorem forEach_cons {β : Type} (x : β) (l : List β) (f : β → State → State) (s : State) :
    forEach (x :: l) f s = forEach l f (f x s) := rfl

/-- Every command answers a next state, with the queue that it was given. -/
theorem answer_next (s t : State) : answer s t = .next { t with pending := s.pending } := rfl

/-- A change that leaves the queue is answered as it stands. -/
theorem answer_eq {s t : State} (h : t.pending = s.pending) : answer s t = .next t := by rw [answer_next, ← h]

end Sys2Proof.Machine
end

