-- ==== Sys2Proof/Laws/Bits.lean ====
section
/-! SUPPORT. Bits and fields of words and of registers: what a bit or field reads as after one was written. -/

namespace Sys2Proof.Machine

theorem bit_setB {n : Nat} (x : BitVec n) (i j : Nat) (hi : i < n) : bit (setB x i) j = (decide (j = i) || bit x j) := by
  simp only [bit, setB, BitVec.getLsbD_or, BitVec.getLsbD_ofNat, Nat.testBit_two_pow]
  by_cases h : j = i
  · subst h; simp [hi]
  · simp [h, Ne.symm h]

theorem bit_clrB {n : Nat} (x : BitVec n) (i j : Nat) (hi : i < n) : bit (clrB x i) j = (bit x j && !decide (j = i)) := by
  simp only [bit, clrB, BitVec.getLsbD_and, BitVec.getLsbD_not, BitVec.getLsbD_ofNat, Nat.testBit_two_pow]
  by_cases h : j = i
  · subst h; simp [hi]
  · by_cases hj : j < n
    · simp [h, Ne.symm h, hj]
    · simp [h, Ne.symm h, hj, BitVec.getLsbD_of_ge x j (by omega)]

theorem fld_putFld {n : Nat} (x : BitVec n) (lo w v : Nat) (h : lo + w ≤ n) : fld (putFld x lo w v) lo w = v % 2 ^ w := by
  have hx : x.toNat < 2 ^ n := x.isLt
  simp only [fld, putFld, BitVec.toNat_ofNat, Nat.shiftRight_eq_div_pow]
  have h1 : x.toNat % 2 ^ lo < 2 ^ lo := Nat.mod_lt _ (by positivity)
  have h2 : v % 2 ^ w < 2 ^ w := Nat.mod_lt _ (by positivity)
  set a := x.toNat % 2 ^ lo with ha
  set b := v % 2 ^ w with hb
  set c := x.toNat / 2 ^ (lo + w) with hc
  have hcn : c * 2 ^ (lo + w) ≤ x.toNat := Nat.div_mul_le_self _ _
  have hlt : a + b * 2 ^ lo + c * 2 ^ (lo + w) < 2 ^ n := by
    have e1 : a + b * 2 ^ lo < 2 ^ (lo + w) := by
      rw [pow_add]; nlinarith [Nat.mul_le_mul_right (2 ^ lo) (Nat.succ_le_of_lt h2)]
    have hcl : c < 2 ^ (n - (lo + w)) := by
      rw [hc, Nat.div_lt_iff_lt_mul (by positivity), ← pow_add]; simpa [Nat.sub_add_cancel h] using hx
    have e2 : (c + 1) * 2 ^ (lo + w) ≤ 2 ^ n := by
      calc (c + 1) * 2 ^ (lo + w) ≤ 2 ^ (n - (lo + w)) * 2 ^ (lo + w) := Nat.mul_le_mul_right _ hcl
        _ = 2 ^ n := by rw [← pow_add, Nat.sub_add_cancel h]
    nlinarith
  rw [Nat.mod_eq_of_lt hlt]
  have : a + b * 2 ^ lo + c * 2 ^ (lo + w) = a + (b + c * 2 ^ w) * 2 ^ lo := by rw [pow_add]; ring
  rw [this, Nat.add_mul_div_right _ _ (by positivity), Nat.div_eq_of_lt h1, zero_add, Nat.add_mul_mod_self_right,
    Nat.mod_eq_of_lt h2]

/-! ### Registers -/

theorem State.regBit_setBit (s : State) (a i b j : Nat) (hi : i < 32) :
    (s.setBit a i).regBit b j = if b = a then decide (j = i) || s.regBit a j else s.regBit b j := by
  unfold State.regBit
  rw [State.reg_setBit]
  split
  · rw [bit_setB _ _ _ hi]
  · rfl

theorem State.regBit_clrBit (s : State) (a i b j : Nat) (hi : i < 32) :
    (s.clrBit a i).regBit b j = if b = a then s.regBit a j && !decide (j = i) else s.regBit b j := by
  unfold State.regBit
  rw [State.reg_clrBit]
  split
  · rw [bit_clrB _ _ _ hi]
  · rfl

theorem State.regFld_setFld_self (s : State) (a lo w v : Nat) (h : lo + w ≤ 32) : (s.setFld a lo w v).regFld a lo w = v % 2 ^ w := by
  unfold State.regFld
  rw [State.reg_setFld, if_pos rfl, fld_putFld _ _ _ _ h]

/-- A register outside a list reads the same bits. -/
theorem regBit_of_sameRegs {s t : State} {l : List Nat} (h : s.sameRegs t l) {a : Nat} (ha : a ∉ l) (i : Nat) :
    t.regBit a i = s.regBit a i := by unfold State.regBit; rw [h a ha]

end Sys2Proof.Machine
end

