-- ==== Sys2Proof/Laws/Events.lean ====
section
/-! SUPPORT. What raising an event and crossing a queue's level do, said once: `EventOnly s0 t` says that t differs from s0 in
registers, the ports, the service port and what is seen from outside only. -/

namespace Sys2Proof.Machine

/-! ### Registers -/

theorem sameRegs_refl (s : State) (l : List Nat) : s.sameRegs s l := fun _ _ => rfl
theorem sameRegs_trans {s t u : State} {l : List Nat} (h : s.sameRegs t l) (k : t.sameRegs u l) : s.sameRegs u l :=
  fun a ha => (k a ha).trans (h a ha)
theorem sameRegs_mono {s t : State} {l m : List Nat} (h : s.sameRegs t l) (hl : l ⊆ m) : s.sameRegs t m :=
  fun a ha => h a fun e => ha (hl e)

variable {s0 s t : State} {l : List Nat}

theorem sameRegs_setReg (h : s0.sameRegs s l) {a : Nat} (v : Word) (ha : a ∈ l) : s0.sameRegs (s.setReg a v) l :=
  fun b hb => (State.reg_setReg_other s v (b := b) (fun e => hb (by rw [e]; exact ha))).trans (h b hb)
theorem sameRegs_setBit (h : s0.sameRegs s l) {a : Nat} (i : Nat) (ha : a ∈ l) : s0.sameRegs (s.setBit a i) l :=
  sameRegs_setReg h _ ha
theorem sameRegs_clrBit (h : s0.sameRegs s l) {a : Nat} (i : Nat) (ha : a ∈ l) : s0.sameRegs (s.clrBit a i) l :=
  sameRegs_setReg h _ ha
theorem sameRegs_putBit (h : s0.sameRegs s l) {a : Nat} (i : Nat) (b : Bool) (ha : a ∈ l) : s0.sameRegs (s.putBit a i b) l :=
  sameRegs_setReg h _ ha
theorem sameRegs_setFld (h : s0.sameRegs s l) {a : Nat} (lo w v : Nat) (ha : a ∈ l) : s0.sameRegs (s.setFld a lo w v) l :=
  sameRegs_setReg h _ ha
theorem sameRegs_addCnt (h : s0.sameRegs s l) {a : Nat} (lo w n : Nat) (ha : a ∈ l) : s0.sameRegs (s.addCnt a lo w n) l :=
  sameRegs_setReg h _ ha
theorem sameRegs_maxFld (h : s0.sameRegs s l) {a : Nat} (lo w v : Nat) (ha : a ∈ l) : s0.sameRegs (s.maxFld a lo w v) l :=
  sameRegs_setReg h _ ha
theorem sameRegs_whenS (b : Bool) (f : State → State) (hf : ∀ t, s0.sameRegs t l → s0.sameRegs (f t) l) (h : s0.sameRegs s l) :
    s0.sameRegs (whenS b f s) l := by cases b <;> simp [whenS, h, hf]
/-- A change that leaves the registers. -/
theorem sameRegs_of_regs (h : s0.sameRegs s l) (e : t.regs = s.regs) : s0.sameRegs t l :=
  fun a ha => (State.reg_congr e a).trans (h a ha)

/-! ### The parts that an event changes -/

structure EventOnly (s0 t : State) : Prop where
  hbm : t.hbm = s0.hbm
  spad : t.spad = s0.spad
  mac : t.mac = s0.mac
  scale : t.scale = s0.scale
  ptags : t.ptags = s0.ptags
  err : t.err = s0.err
  cores : t.cores = s0.cores
  dieNodes : t.dieNodes = s0.dieNodes
  hubNode : t.hubNode = s0.hubNode
  flight : t.flight = s0.flight
  tk : t.tk = s0.tk
  links : t.links = s0.links
  chip : t.chip = s0.chip
  fx : t.fx = s0.fx
  img : t.img = s0.img
  pwr : t.pwr = s0.pwr
  sec : t.sec = s0.sec
  bist : t.bist = s0.bist
  freeCount : t.freeCount = s0.freeCount
  pending : t.pending = s0.pending

theorem EventOnly.refl (s : State) : EventOnly s s := ⟨rfl, rfl, rfl, rfl, rfl, rfl, rfl, rfl, rfl, rfl, rfl, rfl, rfl, rfl, rfl, rfl, rfl, rfl, rfl, rfl⟩

theorem EventOnly.trans (h : EventOnly s0 s) (k : EventOnly s t) : EventOnly s0 t :=
  ⟨k.hbm.trans h.hbm, k.spad.trans h.spad, k.mac.trans h.mac, k.scale.trans h.scale, k.ptags.trans h.ptags, k.err.trans h.err, k.cores.trans h.cores, k.dieNodes.trans h.dieNodes, k.hubNode.trans h.hubNode, k.flight.trans h.flight,
    k.tk.trans h.tk, k.links.trans h.links, k.chip.trans h.chip, k.fx.trans h.fx, k.img.trans h.img, k.pwr.trans h.pwr, k.sec.trans h.sec, k.bist.trans h.bist, k.freeCount.trans h.freeCount, k.pending.trans h.pending⟩

theorem EventOnly.setReg (h : EventOnly s0 s) (a : Nat) (v : Word) : EventOnly s0 (s.setReg a v) := { h with }
theorem EventOnly.setBit (h : EventOnly s0 s) (a i : Nat) : EventOnly s0 (s.setBit a i) := { h with }
theorem EventOnly.clrBit (h : EventOnly s0 s) (a i : Nat) : EventOnly s0 (s.clrBit a i) := { h with }
theorem EventOnly.setFld (h : EventOnly s0 s) (a lo w v : Nat) : EventOnly s0 (s.setFld a lo w v) := { h with }
theorem EventOnly.addCnt (h : EventOnly s0 s) (a lo w v : Nat) : EventOnly s0 (s.addCnt a lo w v) := { h with }
theorem EventOnly.maxFld (h : EventOnly s0 s) (a lo w v : Nat) : EventOnly s0 (s.maxFld a lo w v) := { h with }
theorem EventOnly.modPort (h : EventOnly s0 s) (f : PortSt → PortSt) : EventOnly s0 (s.modPort f) := { h with }
theorem EventOnly.modSvc (h : EventOnly s0 s) (f : ServiceSt → ServiceSt) : EventOnly s0 (s.modSvc f) := { h with }
theorem EventOnly.send (h : EventOnly s0 s) (o : Out) : EventOnly s0 (s.send o) := { h with }
theorem EventOnly.whenS (b : Bool) (f : State → State) (hf : ∀ t, EventOnly s0 t → EventOnly s0 (f t)) (h : EventOnly s0 s) :
    EventOnly s0 (whenS b f s) := by cases b <;> simp [Machine.whenS, h, hf]

/-- The difference written out. -/
theorem EventOnly.eq (h : EventOnly s0 t) : t = { s0 with regs := t.regs, port := t.port, svc := t.svc, out := t.out } := by
  cases t; cases s0; cases h; simp_all

theorem eventOnly_sendEvent (h : EventOnly s0 s) (e : EvEntry) : EventOnly s0 (sendEvent e s) := by
  simp only [sendEvent, forEach, List.foldl]
  split <;> split <;> first | exact h | exact h.send _ | exact (h.send _).send _

theorem regs_sendEvent (e : EvEntry) (s : State) : (sendEvent e s).regs = s.regs := by
  simp only [sendEvent, forEach, List.foldl]
  split <;> split <;> rfl

theorem port_sendEvent (e : EvEntry) (s : State) : (sendEvent e s).port = s.port := by
  simp only [sendEvent, forEach, List.foldl]
  split <;> split <;> rfl

/-! ### The level rule (R282) -/

theorem eventOnly_levelRule (h : EventOnly s0 s) (a d0 d1 : Nat) : EventOnly s0 (levelRule a d0 d1 s).1 :=
  EventOnly.whenS _ _ (fun _ k => k.setBit _ _) ((h.maxFld _ _ _ _).setFld _ _ _ _)

theorem regs_levelRule (a d0 d1 : Nat) (s : State) : s.sameRegs (levelRule a d0 d1 s).1 [a + 4, a + 8] :=
  sameRegs_whenS _ _ (fun _ k => sameRegs_setBit k _ (by simp))
    (sameRegs_setFld (sameRegs_maxFld (sameRegs_refl _ _) _ _ _ (by simp)) _ _ _ (by simp))

theorem port_levelRule (a d0 d1 : Nat) (s : State) : (levelRule a d0 d1 s).1.port = s.port := by
  simp only [levelRule, whenS]
  split <;> rfl

/-! ### Events (R281, R374) -/

theorem eventOnly_pushEvent (h : EventOnly s0 s) (e : Event) : EventOnly s0 (pushEvent e s) := by
  unfold pushEvent
  extract_lets d s1 up lost n entry s2
  split
  · exact (((h.setBit _ _).addCnt _ _ _ _).setBit _ _).modPort _
  · refine EventOnly.whenS _ _ (fun _ k => eventOnly_sendEvent k _) (EventOnly.whenS _ _ (fun _ k => (k.send _).modSvc _) ?_)
    exact eventOnly_levelRule (h.modPort _) _ _ _

/-- The registers that an event which enters the FIFO, or is lost, may change. -/
theorem regs_pushEvent (e : Event) (s : State) : s.sameRegs (pushEvent e s) eventRegs := by
  unfold pushEvent
  extract_lets d s1 up lost n entry s2
  split
  · exact sameRegs_of_regs (sameRegs_setBit (sameRegs_addCnt (sameRegs_setBit (sameRegs_refl s _) _ (by simp [eventRegs])) _ _ _
      (by simp [eventRegs])) _ (by simp [eventRegs])) rfl
  · have k : s.sameRegs (levelRule (hubQA 1 0) d (d + 1) s2).1 eventRegs :=
      sameRegs_mono (sameRegs_trans (sameRegs_of_regs (sameRegs_refl s _) rfl) (regs_levelRule _ _ _ s2))
        (by intro a; simp [eventRegs, hubQA]; tauto)
    refine sameRegs_whenS _ _ (fun t k => sameRegs_of_regs k (regs_sendEvent _ t)) ?_
    exact sameRegs_whenS _ _ (fun t k => sameRegs_of_regs k rfl) k

/-- An event joins a FIFO that has room, with the next SEQ. -/
theorem events_pushEvent (e : Event) (s : State) (h : s.port.events.length < 256) : (pushEvent e s).port.events = s.port.events ++
    [{ seq := (s.port.seq + 1) % 2 ^ 48,
       ev := { e with lost := e.lost || ((s.regBit (dpPortStat 0) 0 || s.regBit (dpPortStat 1) 0) && s.port.lostPending) },
       sent := s.regBit (dpPortStat 0) 0 || s.regBit (dpPortStat 1) 0 }] := by
  unfold pushEvent
  extract_lets d s1 up lost n entry s2
  have hd : ¬256 ≤ d := by omega
  rw [if_neg hd]
  have k : (levelRule (hubQA 1 0) d (d + 1) s2).1.port = s2.port := port_levelRule _ _ _ _
  generalize levelRule (hubQA 1 0) d (d + 1) s2 = r at k
  obtain ⟨s3, news⟩ := r
  have k2 : (whenS news (fun t => (t.send .inBandInterrupt).modSvc fun v => { v with ibiPending := true }) s3).port = s2.port := by
    cases news <;> simpa [whenS] using k
  have k3 : s2.port.events = s.port.events ++ [entry] := rfl
  have k4 : ∀ b u, (whenS b (sendEvent entry) u).port = u.port := fun b u => by cases b <;> simp [whenS, port_sendEvent]
  rw [k4, k2, k3]

@[simp] theorem pushEvent_hbm (e : Event) (s : State) : (pushEvent e s).hbm = s.hbm := (eventOnly_pushEvent (.refl s) e).hbm
@[simp] theorem pushEvent_spad (e : Event) (s : State) : (pushEvent e s).spad = s.spad := (eventOnly_pushEvent (.refl s) e).spad
@[simp] theorem pushEvent_mac (e : Event) (s : State) : (pushEvent e s).mac = s.mac := (eventOnly_pushEvent (.refl s) e).mac
@[simp] theorem pushEvent_scale (e : Event) (s : State) : (pushEvent e s).scale = s.scale := (eventOnly_pushEvent (.refl s) e).scale
@[simp] theorem pushEvent_ptags (e : Event) (s : State) : (pushEvent e s).ptags = s.ptags := (eventOnly_pushEvent (.refl s) e).ptags
@[simp] theorem pushEvent_err (e : Event) (s : State) : (pushEvent e s).err = s.err := (eventOnly_pushEvent (.refl s) e).err
@[simp] theorem pushEvent_cores (e : Event) (s : State) : (pushEvent e s).cores = s.cores := (eventOnly_pushEvent (.refl s) e).cores
@[simp] theorem pushEvent_dieNodes (e : Event) (s : State) : (pushEvent e s).dieNodes = s.dieNodes := (eventOnly_pushEvent (.refl s) e).dieNodes
@[simp] theorem pushEvent_hubNode (e : Event) (s : State) : (pushEvent e s).hubNode = s.hubNode := (eventOnly_pushEvent (.refl s) e).hubNode
@[simp] theorem pushEvent_flight (e : Event) (s : State) : (pushEvent e s).flight = s.flight := (eventOnly_pushEvent (.refl s) e).flight
@[simp] theorem pushEvent_tk (e : Event) (s : State) : (pushEvent e s).tk = s.tk := (eventOnly_pushEvent (.refl s) e).tk
@[simp] theorem pushEvent_links (e : Event) (s : State) : (pushEvent e s).links = s.links := (eventOnly_pushEvent (.refl s) e).links
@[simp] theorem pushEvent_chip (e : Event) (s : State) : (pushEvent e s).chip = s.chip := (eventOnly_pushEvent (.refl s) e).chip
@[simp] theorem pushEvent_fx (e : Event) (s : State) : (pushEvent e s).fx = s.fx := (eventOnly_pushEvent (.refl s) e).fx
@[simp] theorem pushEvent_img (e : Event) (s : State) : (pushEvent e s).img = s.img := (eventOnly_pushEvent (.refl s) e).img
@[simp] theorem pushEvent_pwr (e : Event) (s : State) : (pushEvent e s).pwr = s.pwr := (eventOnly_pushEvent (.refl s) e).pwr
@[simp] theorem pushEvent_sec (e : Event) (s : State) : (pushEvent e s).sec = s.sec := (eventOnly_pushEvent (.refl s) e).sec
@[simp] theorem pushEvent_bist (e : Event) (s : State) : (pushEvent e s).bist = s.bist := (eventOnly_pushEvent (.refl s) e).bist
@[simp] theorem pushEvent_freeCount (e : Event) (s : State) : (pushEvent e s).freeCount = s.freeCount := (eventOnly_pushEvent (.refl s) e).freeCount
@[simp] theorem pushEvent_pending (e : Event) (s : State) : (pushEvent e s).pending = s.pending := (eventOnly_pushEvent (.refl s) e).pending

end Sys2Proof.Machine
end

