-- ==== Sys2Proof/Laws/Issue.lean ====
section
/-! SUPPORT. The issue of a macro-instruction said once (R180, R196, R197, R198, R202): what an attempt that may issue runs,
and what completion at issue leaves. -/

namespace Sys2Proof.Machine

/-- The core after the header wait's count is taken. -/
theorem core_header (s : State) (core : Nat) (l : List (Nat × Nat)) :
    (if l = [] then s else takeTokens core l s).core core = (s.core core).took l := by
  split
  · next e => subst e; rfl
  · simp [takeTokens, Core.took]

theorem core_header_other (s : State) (core : Nat) (l : List (Nat × Nat)) {j : Nat} (h : j ≠ core) :
    (if l = [] then s else takeTokens core l s).core j = s.core j := by
  split
  · rfl
  · simp [takeTokens, State.core_modCore, h]

/-- A header wait changes its core alone. -/
theorem header_eq (s : State) (core : Nat) (l : List (Nat × Nat)) :
    (if l = [] then s else takeTokens core l s) =
      { s with cores := (if l = [] then s else takeTokens core l s).cores } := by
  split <;> rfl

theorem took_pos (c : Core) (l : List (Nat × Nat)) : (c.took l).pos = c.pos := by
  unfold Core.took
  induction l generalizing c with
  | nil => rfl
  | cons x l ih => exact (ih _).trans rfl

/-- A header wait changes its core's tokens alone. -/
theorem took_eq (c : Core) (l : List (Nat × Nat)) : c.took l = { c with tokens := (c.took l).tokens } := by
  unfold Core.took
  induction l generalizing c with
  | nil => rfl
  | cons x l ih => exact (ih _).trans rfl

/-- The queues that an instruction needs do not depend on the tokens. -/
theorem queuesFull_header (s : State) (core : Nat) (w : BitVec 256) (l : List (Nat × Nat)) :
    queuesFull (if l = [] then s else takeTokens core l s) core w = queuesFull s core w := by
  have e := header_eq s core l
  have c := core_header s core l
  rw [took_eq] at c
  generalize (if l = [] then s else takeTokens core l s) = t at *
  have er : ∀ a, t.reg a = s.reg a := fun a => by rw [e]; rfl
  have hq : ∀ q, creditsLeft (t.core core) q = creditsLeft (s.core core) q := fun q => by rw [c]; rfl
  have hi : issueQueues t core w = issueQueues s core w := by
    simp only [issueQueues, portsOf, chansAt, State.mfmt, extVal, bcVal, State.regFld, State.shp, er]
    rw [c]
    rfl
  simp only [queuesFull, hq, hi]

/-- A clean fetch brings nothing. -/
theorem fetch_clean {s : State} {core : Nat} {w : BitVec 256} (h1 : SMap.get (fun _ => 0) s.err.pathFlip core = 0)
    (h2 : descMd s core (opTds w) = 0) : fetchChecks core w s = s ∧ fetchMd s core w = 0 := by
  have h3 : SMap.get (fun _ => 0#39) s.err.pathFlip core = 0#39 := h1
  constructor
  · simp [fetchChecks, h3, h2, whenS]
  · simp [fetchMd, h3, h2, pathMd, show eccOf 0#39 = .clean by decide]

/-- An attempt that may issue runs the instruction at the sequencer's position, the header wait's count taken. -/
theorem attempt_canIssue {s : State} {core : Nat} {w : BitVec 256} (h : canIssue s core w = true) (k : Nat → State → State) :
    attempt core w k s = k (s.core core).pos
      (if headerPairs s core w = [] then s else takeTokens core (headerPairs s core w) s) := by
  simp only [canIssue, Bool.and_eq_true, Bool.or_eq_true, Bool.not_eq_true', decide_eq_true_eq] at h
  obtain ⟨⟨⟨⟨⟨⟨h1, h2⟩, h3⟩, h4⟩, h5⟩, h6⟩, h7⟩ := h
  have go (l : List (Nat × Nat)) : tryIssue core w (s.core core).pos k s (if l = [] then s else takeTokens core l s) =
      k (s.core core).pos (if l = [] then s else takeTokens core l s) := by
    have e := header_eq s core l
    have q := queuesFull_header s core w l
    generalize (if l = [] then s else takeTokens core l s) = t at *
    have ee : t.err = s.err := by rw [e]
    obtain ⟨f1, f2⟩ := fetch_clean (s := t) (core := core) (w := w) (by rw [ee]; exact h5)
      (by simpa [descMd, descFlipOf, ee] using h6)
    simp [tryIssue, f1, f2, mayIssue, q, h4]
  simp only [attempt, h1, h2, h3, Bool.not_true, Bool.or_self, Bool.false_eq_true, if_false, headerPairs]
  by_cases ht : ((s.core core).waiting.map (·.taken)).getD false = true ∨ iWcnt w = 0
  · have := go []
    simpa [ht] using this
  · have hn : ¬(s.core core).token (iWtok w) < iWcnt w := by
      rcases h7 with h7 | h7
      · exact absurd h7 ht
      · omega
    have := go [(iWtok w, iWcnt w)]
    simpa [ht, hn] using this

theorem took_append (c : Core) (l m : List (Nat × Nat)) : c.took (l ++ m) = (c.took l).took m := by
  simp [Core.took, List.foldl_append]

end Sys2Proof.Machine
end

