-- ==== Sys2Proof/Laws/Keeps.lean ====
section
/-! SUPPORT. What every operation of the machine keeps: the canonical form of the byte memories and of the register map, the
bounds of the event FIFO, the command FIFO, the kept answers and the kept results, the number of image slots, and the fuses;
at level 1 also FN and whether the first tick has come, and at level 2 that no frame number from a synchronisation packet
waits. `Keeps lv s0 t` says that t keeps them as s0 has them. -/

namespace Sys2Proof.Machine

structure Keeps (lv : Nat) (s0 t : State) : Prop where
  hbm : Mem.wf s0.hbm = true → Mem.wf t.hbm = true
  spad : Mem.wf s0.spad = true → Mem.wf t.spad = true
  mac : Mem.wf s0.mac = true → Mem.wf t.mac = true
  scale : Mem.wf s0.scale = true → Mem.wf t.scale = true
  regs : SMap.wf regReset s0.regs = true → SMap.wf regReset t.regs = true
  events : s0.port.events.length ≤ 256 → t.port.events.length ≤ 256
  fifo : s0.port.fifo.length ≤ 64 → t.port.fifo.length ≤ 64
  answers : s0.port.answers.length ≤ 64 → t.port.answers.length ≤ 64
  results : s0.fx.results.length ≤ 16 → t.fx.results.length ≤ 16
  slots : s0.img.slots.length = 4 → t.img.slots.length = 4
  vendor : t.sec.vendorHash = s0.sec.vendorHash
  secret : t.sec.secret = s0.sec.secret
  fn : 1 ≤ lv → t.tk.fn = s0.tk.fn
  started : 1 ≤ lv → t.tk.started = s0.tk.started
  pend : 2 ≤ lv → s0.tk.pendingFn = none → t.tk.pendingFn = none

variable {lv : Nat} {s0 s t : State}

theorem Keeps.refl (lv : Nat) (s : State) : Keeps lv s s :=
  ⟨id, id, id, id, id, id, id, id, id, id, rfl, rfl, fun _ => rfl, fun _ => rfl, fun _ => id⟩

theorem Keeps.trans (h : Keeps lv s0 s) (k : Keeps lv s t) : Keeps lv s0 t :=
  ⟨k.hbm ∘ h.hbm, k.spad ∘ h.spad, k.mac ∘ h.mac, k.scale ∘ h.scale, k.regs ∘ h.regs, k.events ∘ h.events, k.fifo ∘ h.fifo,
    k.answers ∘ h.answers, k.results ∘ h.results, k.slots ∘ h.slots, k.vendor.trans h.vendor, k.secret.trans h.secret,
    fun e => (k.fn e).trans (h.fn e), fun e => (k.started e).trans (h.started e), fun e => k.pend e ∘ h.pend e⟩

/-- Less of the sandglass taken into account. -/
theorem Keeps.weak {k : Nat} (h : Keeps k s0 t) (hk : lv ≤ k) : Keeps lv s0 t :=
  { h with fn := fun e => h.fn (e.trans hk), started := fun e => h.started (e.trans hk), pend := fun e => h.pend (e.trans hk) }

/-- A change that leaves all of it as it stands. -/
theorem Keeps.same (h : Keeps lv s0 s) (h1 : t.hbm = s.hbm) (h2 : t.spad = s.spad) (h3 : t.mac = s.mac) (h4 : t.scale = s.scale)
    (h5 : t.regs = s.regs) (h6 : t.port.events = s.port.events) (h7 : t.port.fifo = s.port.fifo)
    (h8 : t.port.answers = s.port.answers) (h9 : t.fx.results = s.fx.results) (h10 : t.img.slots = s.img.slots)
    (h11 : t.sec.vendorHash = s.sec.vendorHash) (h12 : t.sec.secret = s.sec.secret) (h13 : t.tk = s.tk) : Keeps lv s0 t :=
  ⟨h1 ▸ h.hbm, h2 ▸ h.spad, h3 ▸ h.mac, h4 ▸ h.scale, h5 ▸ h.regs, h6 ▸ h.events, h7 ▸ h.fifo, h8 ▸ h.answers, h9 ▸ h.results,
    h10 ▸ h.slots, h11 ▸ h.vendor, h12 ▸ h.secret, h13 ▸ h.fn, h13 ▸ h.started, h13 ▸ h.pend⟩

/-! ### Changes of one part -/

theorem Keeps.regsTo (h : Keeps lv s0 s) (r : SMap Word) (hr : SMap.wf regReset s.regs = true → SMap.wf regReset r = true) :
    Keeps lv s0 { s with regs := r } := { h with regs := fun e => hr (h.regs e) }
theorem Keeps.hbmTo (h : Keeps lv s0 s) (m : Mem) (hm : Mem.wf s.hbm = true → Mem.wf m = true) :
    Keeps lv s0 { s with hbm := m } := { h with hbm := fun e => hm (h.hbm e) }
theorem Keeps.spadTo (h : Keeps lv s0 s) (m : Mem) (hm : Mem.wf s.spad = true → Mem.wf m = true) :
    Keeps lv s0 { s with spad := m } := { h with spad := fun e => hm (h.spad e) }
theorem Keeps.macTo (h : Keeps lv s0 s) (m : Mem) (hm : Mem.wf s.mac = true → Mem.wf m = true) :
    Keeps lv s0 { s with mac := m } := { h with mac := fun e => hm (h.mac e) }
theorem Keeps.scaleTo (h : Keeps lv s0 s) (m : Mem) (hm : Mem.wf s.scale = true → Mem.wf m = true) :
    Keeps lv s0 { s with scale := m } := { h with scale := fun e => hm (h.scale e) }

theorem Keeps.setReg (h : Keeps lv s0 s) (a : Nat) (v : Word) : Keeps lv s0 (s.setReg a v) :=
  h.regsTo _ (SMap.wf_set regReset s.regs a v)
theorem Keeps.setBit (h : Keeps lv s0 s) (a i : Nat) : Keeps lv s0 (s.setBit a i) := h.setReg a _
theorem Keeps.clrBit (h : Keeps lv s0 s) (a i : Nat) : Keeps lv s0 (s.clrBit a i) := h.setReg a _
theorem Keeps.putBit (h : Keeps lv s0 s) (a i : Nat) (b : Bool) : Keeps lv s0 (s.putBit a i b) := h.setReg a _
theorem Keeps.setFld (h : Keeps lv s0 s) (a lo w v : Nat) : Keeps lv s0 (s.setFld a lo w v) := h.setReg a _
theorem Keeps.addCnt (h : Keeps lv s0 s) (a lo w n : Nat) : Keeps lv s0 (s.addCnt a lo w n) := h.setReg a _
theorem Keeps.maxFld (h : Keeps lv s0 s) (a lo w v : Nat) : Keeps lv s0 (s.maxFld a lo w v) := h.setReg a _
theorem Keeps.setReg64 (h : Keeps lv s0 s) (a : Nat) (v : DWord) : Keeps lv s0 (s.setReg64 a v) := (h.setReg a _).setReg _ _
theorem Keeps.setCore (h : Keeps lv s0 s) (i : Nat) (c : Core) : Keeps lv s0 (s.setCore i c) := { h with }
theorem Keeps.modCore (h : Keeps lv s0 s) (i : Nat) (f : Core → Core) : Keeps lv s0 (s.modCore i f) := { h with }
theorem Keeps.setLink (h : Keeps lv s0 s) (i : Nat) (l : LinkSt) : Keeps lv s0 (s.setLink i l) := { h with }
theorem Keeps.modLink (h : Keeps lv s0 s) (i : Nat) (f : LinkSt → LinkSt) : Keeps lv s0 (s.modLink i f) := { h with }
theorem Keeps.setNode (h : Keeps lv s0 s) (n : NodeId) (x : Node) : Keeps lv s0 (s.setNode n x) := by
  cases n <;> exact { h with }
theorem Keeps.modTk (h : Keeps lv s0 s) (f : TickSt → TickSt) (h1 : 1 ≤ lv → (f s.tk).fn = s.tk.fn)
    (h2 : 1 ≤ lv → (f s.tk).started = s.tk.started) (h3 : 2 ≤ lv → s.tk.pendingFn = none → (f s.tk).pendingFn = none) :
    Keeps lv s0 (s.modTk f) :=
  { h with fn := fun e => (h1 e).trans (h.fn e), started := fun e => (h2 e).trans (h.started e), pend := fun e => h3 e ∘ h.pend e }
theorem Keeps.modFx (h : Keeps lv s0 s) (f : CommitSt → CommitSt)
    (hf : s.fx.results.length ≤ 16 → (f s.fx).results.length ≤ 16) : Keeps lv s0 (s.modFx f) :=
  { h with results := fun e => hf (h.results e) }
theorem Keeps.modCur (h : Keeps lv s0 s) (f : FrameRec → FrameRec) : Keeps lv s0 (s.modCur f) := { h with }
theorem Keeps.modImg (h : Keeps lv s0 s) (f : ImageSt → ImageSt) (hf : (f s.img).slots.length = s.img.slots.length) :
    Keeps lv s0 (s.modImg f) := { h with slots := fun e => hf.trans (h.slots e) }
theorem Keeps.modPort (h : Keeps lv s0 s) (f : PortSt → PortSt)
    (h1 : s.port.events.length ≤ 256 → (f s.port).events.length ≤ 256) (h2 : s.port.fifo.length ≤ 64 → (f s.port).fifo.length ≤ 64)
    (h3 : s.port.answers.length ≤ 64 → (f s.port).answers.length ≤ 64) : Keeps lv s0 (s.modPort f) :=
  { h with events := fun e => h1 (h.events e), fifo := fun e => h2 (h.fifo e), answers := fun e => h3 (h.answers e) }
theorem Keeps.modPwr (h : Keeps lv s0 s) (f : PowerSt → PowerSt) : Keeps lv s0 (s.modPwr f) := { h with }
theorem Keeps.modSec (h : Keeps lv s0 s) (f : SecSt → SecSt) (h1 : (f s.sec).vendorHash = s.sec.vendorHash)
    (h2 : (f s.sec).secret = s.sec.secret) : Keeps lv s0 (s.modSec f) :=
  { h with vendor := h1.trans h.vendor, secret := h2.trans h.secret }
theorem Keeps.modBist (h : Keeps lv s0 s) (f : TestSt → TestSt) : Keeps lv s0 (s.modBist f) := { h with }
theorem Keeps.modSvc (h : Keeps lv s0 s) (f : ServiceSt → ServiceSt) : Keeps lv s0 (s.modSvc f) := { h with }
theorem Keeps.modErr (h : Keeps lv s0 s) (f : ErrSt → ErrSt) : Keeps lv s0 (s.modErr f) := { h with }
theorem Keeps.send (h : Keeps lv s0 s) (o : Out) : Keeps lv s0 (s.send o) := { h with }
theorem Keeps.usedFree (h : Keeps lv s0 s) : Keeps lv s0 s.usedFree := { h with }
theorem Keeps.markRetired (h : Keeps lv s0 s) (b i : Nat) : Keeps lv s0 (s.markRetired b i) := { h with }

/-- A literal change of parts that do not count. -/
theorem Keeps.rest (h : Keeps lv s0 s) (p : SMap PosTag) (e : ErrSt) (c : SMap Core) (dn : SMap Node) (hn : Node)
    (fl : List (Nat × Nat × Nat)) (l : SMap LinkSt) (ch : ChipSt) (pw : PowerSt) (b : TestSt) (sv : ServiceSt) (fc : Nat) (o : List Out)
    (pe : List Instr) :
    Keeps lv s0 ⟨s.regs, s.hbm, s.spad, s.mac, s.scale, p, e, c, dn, hn, fl, s.tk, l, ch, s.fx, s.img, s.port, pw, s.sec, b, sv, fc,
      o, pe⟩ := { h with }

/-- What a command answers. -/
theorem Keeps.answer {u : State} (h : Keeps lv s0 t) (e : answer s t = .next u) : Keeps lv s0 u := by
  cases e
  exact { h with }

/-! ### Lists of changes -/

theorem Keeps.forEach {β : Type} (l : List β) (f : β → State → State) (hf : ∀ x t, Keeps lv s0 t → Keeps lv s0 (f x t))
    (h : Keeps lv s0 s) : Keeps lv s0 (forEach l f s) := forEach_keeps _ l f (fun x _ t => hf x t) s h
theorem Keeps.whenS (b : Bool) (f : State → State) (hf : ∀ t, Keeps lv s0 t → Keeps lv s0 (f t)) (h : Keeps lv s0 s) :
    Keeps lv s0 (whenS b f s) := by cases b <;> simp [Machine.whenS, h, hf]
theorem Keeps.foldl {β : Type} (l : List β) (f : State → β → State) (hf : ∀ x t, Keeps lv s0 t → Keeps lv s0 (f t x))
    (h : Keeps lv s0 s) : Keeps lv s0 (l.foldl f s) := by
  induction l generalizing s with
  | nil => exact h
  | cons x l ih => exact ih (hf x s h)

/-- A fold over a record that carries a state. -/
theorem Keeps.foldlS {β τ : Type} (p : τ → State) (l : List β) (f : τ → β → τ)
    (hf : ∀ x a, Keeps lv s0 (p a) → Keeps lv s0 (p (f a x))) (a : τ) (h : Keeps lv s0 (p a)) :
    Keeps lv s0 (p (l.foldl f a)) := by
  induction l generalizing a with
  | nil => exact h
  | cons x l ih => exact ih (f a x) (hf x a h)

/-! ### Copies within a byte memory -/

theorem Mem.wf_foldSet {β : Type} (l : List β) (k : β → Nat) (v : β → Byte) (m : Mem) (h : Mem.wf m = true) :
    Mem.wf (l.foldl (fun m e => Mem.set m (k e) (v e)) m) = true := by
  induction l generalizing m with
  | nil => exact h
  | cons e l ih => exact ih _ (Mem.wf_set m _ _ h)

theorem Mem.wf_copyRange (m : Mem) (src dst n : Nat) (h : Mem.wf m = true) : Mem.wf (Mem.copyRange m src dst n) = true :=
  Mem.wf_foldSet _ _ _ _ (SMap.wf_dropRange memDefault m dst (dst + n) h)

end Sys2Proof.Machine
end

