-- ==== Sys2Proof/Laws/KeepsOps.lean ====
section
/-! SUPPORT. `Keeps` (Laws/Keeps.lean) for every function from states to states of the shared operations, the memories, the
nodes and the fabric. -/

set_option maxRecDepth 4000

namespace Sys2Proof.Machine

variable {lv : Nat} {s0 s : State}

theorem keeps_sendEvent (h : Keeps lv s0 s) (e : EvEntry) : Keeps lv s0 (sendEvent e s) := by
  unfold sendEvent
  try dsimp only
  repeat' first
    | assumption | with_reducible apply Keeps.send | with_reducible apply Keeps.forEach | exact id | exact fun _ => rfl
    | exact fun _ => id | exact fun _ _ => rfl | rfl | split | intro _

theorem keeps_levelRule (h : Keeps lv s0 s) (a d0 d1 : Nat) : Keeps lv s0 (levelRule a d0 d1 s).1 := by
  unfold levelRule
  try dsimp only
  repeat' first
    | assumption | with_reducible apply Keeps.setBit | with_reducible apply Keeps.setFld | with_reducible apply Keeps.maxFld
    | with_reducible apply Keeps.whenS | exact id | exact fun _ => rfl | exact fun _ => id | exact fun _ _ => rfl | rfl | split
    | intro _

theorem keeps_pushEvent (h : Keeps lv s0 s) (e : Event) : Keeps lv s0 (pushEvent e s) := by
  unfold pushEvent
  dsimp only
  split
  · exact ((h.setBit _ _).addCnt _ _ _ _).setBit _ _ |>.modPort _ id id id
  · rename_i hd
    refine Keeps.whenS _ _ (fun t k => keeps_sendEvent k _) (Keeps.whenS _ _ (fun t k => (k.send _).modSvc _) (keeps_levelRule ?_ _ _ _))
    exact h.modPort _ (fun _ => by simp only [List.length_append, List.length_cons, List.length_nil]; omega) id id

theorem keeps_raise0 (h : Keeps lv s0 s) (addr bitIx status data : Nat) : Keeps lv s0 (raise0 addr bitIx status data s) := by
  unfold raise0
  try dsimp only
  repeat' first | assumption | with_reducible apply keeps_pushEvent

theorem keeps_stageEvent (h : Keeps lv s0 s) (e : Event) : Keeps lv s0 (stageEvent e s) := by
  unfold stageEvent
  try dsimp only
  repeat' first | assumption | with_reducible apply Keeps.modCur

theorem keeps_stage0 (h : Keeps lv s0 s) (addr bitIx status data : Nat) : Keeps lv s0 (stage0 addr bitIx status data s) := by
  unfold stage0
  try dsimp only
  repeat' first | assumption | with_reducible apply keeps_stageEvent

theorem keeps_stickyEvent (h : Keeps lv s0 s) (addr bitIx : Nat) : Keeps lv s0 (stickyEvent addr bitIx s) := by
  unfold stickyEvent
  try dsimp only
  repeat' first | assumption | with_reducible apply Keeps.setBit | with_reducible apply keeps_stage0

theorem keeps_queueDepthChange (h : Keeps lv s0 s) (q d0 d1 : Nat) : Keeps lv s0 (queueDepthChange q d0 d1 s) := by
  unfold queueDepthChange
  try dsimp only
  repeat' first
    | assumption | with_reducible apply Keeps.whenS | with_reducible apply keeps_levelRule | with_reducible apply keeps_raise0
    | exact id | exact fun _ => rfl | exact fun _ => id | exact fun _ _ => rfl | rfl | split | intro _

theorem keeps_setQueue (h : Keeps lv s0 s) (core q : Nat) (l : List Nat) : Keeps lv s0 (setQueue core q l s) := by
  unfold setQueue
  try dsimp only
  repeat' first
    | assumption | with_reducible apply Keeps.modCore | with_reducible apply Keeps.whenS | with_reducible apply keeps_levelRule
    | with_reducible apply keeps_raise0
    | exact id | exact fun _ => rfl | exact fun _ => id | exact fun _ _ => rfl | rfl | split | intro _

theorem keeps_pushQueue (h : Keeps lv s0 s) (core q item : Nat) : Keeps lv s0 (pushQueue core q item s) := by
  unfold pushQueue
  try dsimp only
  repeat' first
    | assumption | with_reducible apply keeps_setQueue
    | exact id | exact fun _ => rfl | exact fun _ => id | exact fun _ _ => rfl | rfl | split | intro _

theorem keeps_popQueue (h : Keeps lv s0 s) (core q item : Nat) : Keeps lv s0 (popQueue core q item s) := by
  unfold popQueue
  try dsimp only
  repeat' first
    | assumption | with_reducible apply keeps_setQueue
    | exact id | exact fun _ => rfl | exact fun _ => id | exact fun _ _ => rfl | rfl | split | intro _

theorem keeps_passQueue (h : Keeps lv s0 s) (core q item : Nat) : Keeps lv s0 (passQueue core q item s) := by
  unfold passQueue
  try dsimp only
  repeat' first
    | assumption | with_reducible apply keeps_pushQueue | with_reducible apply keeps_popQueue
    | exact id | exact fun _ => rfl | exact fun _ => id | exact fun _ _ => rfl | rfl | split | intro _

theorem keeps_raiseFx (h : Keeps lv s0 s) (fn : DWord) (bitIx entry action : Nat) : Keeps lv s0 (raiseFx fn bitIx entry action s) := by
  unfold raiseFx
  try dsimp only
  repeat' first | assumption | with_reducible apply keeps_pushEvent

theorem keeps_requestRetire (h : Keeps lv s0 s) (i : Nat) (l : Loc) : Keeps lv s0 (requestRetire i l s) := by
  unfold requestRetire
  try dsimp only
  repeat' first
    | assumption | with_reducible apply Keeps.modFx | exact id | exact fun _ => rfl | exact fun _ => id | exact fun _ _ => rfl
    | rfl | split

theorem keeps_newLogEntry (h : Keeps lv s0 s) (cls : Nat) (l : Loc) (source attempt : Nat) (wfn : DWord) : Keeps lv s0 (newLogEntry cls l source attempt wfn s) := by
  unfold newLogEntry
  try dsimp only
  repeat' first
    | assumption | with_reducible apply Keeps.setReg | with_reducible apply Keeps.setBit | with_reducible apply Keeps.setFld
    | with_reducible apply Keeps.addCnt | with_reducible apply Keeps.setReg64 | with_reducible apply Keeps.modFx
    | with_reducible apply Keeps.whenS | with_reducible apply keeps_raiseFx | exact id | exact fun _ => rfl | exact fun _ => id
    | exact fun _ _ => rfl | rfl | split | intro _

theorem keeps_classPermanent (h : Keeps lv s0 s) (i : Nat) (l : Loc) : Keeps lv s0 (classPermanent i l s) := by
  unfold classPermanent
  try dsimp only
  repeat' first
    | assumption | with_reducible apply Keeps.setFld | with_reducible apply keeps_requestRetire
    | with_reducible apply keeps_raiseFx

theorem keeps_logDetection (h : Keeps lv s0 s) (l : Loc) : Keeps lv s0 (logDetection l s) := by
  unfold logDetection
  try dsimp only
  repeat' first
    | assumption | with_reducible apply Keeps.setFld | with_reducible apply Keeps.addCnt | with_reducible apply Keeps.modFx
    | with_reducible apply keeps_newLogEntry | with_reducible apply keeps_classPermanent | exact id | exact fun _ => rfl
    | exact fun _ => id | exact fun _ _ => rfl | rfl | split

theorem keeps_detectFault (h : Keeps lv s0 s) (l : Loc) : Keeps lv s0 (detectFault l s) := by
  unfold detectFault
  try dsimp only
  repeat' first
    | assumption | with_reducible apply Keeps.setBit | with_reducible apply Keeps.addCnt | with_reducible apply Keeps.modCur
    | with_reducible apply keeps_logDetection

theorem keeps_hardError (h : Keeps lv s0 s) (l : Loc) : Keeps lv s0 (hardError l s) := by
  unfold hardError
  split
  · exact (h.addCnt _ _ _ _).modFx _ id
  · exact keeps_requestRetire (keeps_raiseFx (keeps_newLogEntry h _ _ _ _ _) _ _ _ _) _ _

theorem keeps_versionLost (h : Keeps lv s0 s)  : Keeps lv s0 (versionLost s) := by
  unfold versionLost
  try dsimp only
  repeat' first | assumption | with_reducible apply Keeps.setBit | with_reducible apply Keeps.modCur

theorem keeps_sendToken (h : Keeps lv s0 s) (core tok cnt : Nat) : Keeps lv s0 (sendToken core tok cnt s) := by
  unfold sendToken
  try dsimp only
  all_goals (with_reducible apply Keeps.rest)
  repeat' first | assumption | with_reducible apply Keeps.send

theorem keeps_orMeta (h : Keeps lv s0 s) (core td : Nat) (md : Word) : Keeps lv s0 (orMeta core td md s) := by
  unfold orMeta
  try dsimp only
  repeat' first | assumption | with_reducible apply Keeps.modCore

theorem keeps_addWatch (h : Keeps lv s0 s) (core td zeros sats nonfin : Nat) : Keeps lv s0 (addWatch core td zeros sats nonfin s) := by
  unfold addWatch
  try dsimp only
  repeat' first
    | assumption | with_reducible apply Keeps.modCore | exact id | exact fun _ => rfl | exact fun _ => id | exact fun _ _ => rfl
    | rfl | split

theorem keeps_pathCheck (h : Keeps lv s0 s) (f : BitVec 39) (l : Loc) : Keeps lv s0 (pathCheck f l s) := by
  unfold pathCheck
  try dsimp only
  repeat' first
    | assumption | with_reducible apply keeps_detectFault
    | exact id | exact fun _ => rfl | exact fun _ => id | exact fun _ _ => rfl | rfl | split | intro _

theorem keeps_netWord (h : Keeps lv s0 s) (d : Nat) : Keeps lv s0 (netWord d s) := by
  unfold netWord
  try dsimp only
  repeat' first
    | assumption | with_reducible apply Keeps.modErr | with_reducible apply keeps_pathCheck
    | exact id | exact fun _ => rfl | exact fun _ => id | exact fun _ _ => rfl | rfl | split | intro _

theorem keeps_unitCheck (h : Keeps lv s0 s) (u : Nat) (l : Loc) : Keeps lv s0 (unitCheck u l s) := by
  unfold unitCheck
  try dsimp only
  repeat' first
    | assumption | with_reducible apply Keeps.modErr | with_reducible apply Keeps.whenS | with_reducible apply keeps_detectFault
    | exact id | exact fun _ => rfl | exact fun _ => id | exact fun _ _ => rfl | rfl | split | intro _

theorem keeps_spRecord (h : Keeps lv s0 s) (core kind cls word seg : Nat) : Keeps lv s0 (spRecord core kind cls word seg s) := by
  unfold spRecord
  try dsimp only
  repeat' first
    | assumption | with_reducible apply Keeps.setReg | with_reducible apply Keeps.setReg64 | exact id | exact fun _ => rfl
    | exact fun _ => id | exact fun _ _ => rfl | rfl | split

theorem keeps_spUncorr (h : Keeps lv s0 s) (r : Req) (word : Nat) (lost : Bool) : Keeps lv s0 (spUncorr r word lost s) := by
  unfold spUncorr
  try dsimp only
  repeat' first
    | assumption | with_reducible apply Keeps.setBit | with_reducible apply Keeps.whenS | with_reducible apply keeps_detectFault
    | with_reducible apply keeps_versionLost | with_reducible apply keeps_spRecord

theorem keeps_spEffects (h : Keeps lv s0 s) (r : Req) (f : SpFlags) : Keeps lv s0 (spEffects r f s).1 := by
  unfold spEffects
  try dsimp only
  repeat' first
    | assumption | with_reducible apply Keeps.setBit | with_reducible apply Keeps.addCnt | with_reducible apply Keeps.whenS
    | with_reducible apply keeps_stickyEvent | with_reducible apply keeps_spRecord | with_reducible apply keeps_spUncorr
    | exact id | exact fun _ => rfl | exact fun _ => id | exact fun _ _ => rfl | rfl | split | intro _

theorem keeps_spReadS (h : Keeps lv s0 s) (r : Req) (tag q n : Nat) : Keeps lv s0 (spReadS r tag q n s).2.2 := by
  unfold spReadS
  try dsimp only
  repeat' first | assumption | with_reducible apply keeps_spEffects

theorem keeps_spPut (h : Keeps lv s0 s) (core p : Nat) (b : Byte) : Keeps lv s0 (spPut core p b s) :=
  { h.spadTo _ (Mem.wf_set _ _ _) with }

theorem keeps_ungather (h : Keeps lv s0 s) (core p : Nat) : Keeps lv s0 (ungather core p s) := by
  unfold ungather
  try dsimp only
  repeat' first
    | assumption | with_reducible apply Keeps.modCore
    | exact id | exact fun _ => rfl | exact fun _ => id | exact fun _ _ => rfl | rfl | split | intro _

theorem keeps_spStore (h : Keeps lv s0 s) (core p : Nat) (b : Byte) : Keeps lv s0 (spStore core p b s) :=
  keeps_spPut (keeps_ungather h core p) core p b

theorem keeps_noteVersion (h : Keeps lv s0 s) (core slot td : Nat) : Keeps lv s0 (noteVersion core slot td s) := by
  unfold noteVersion
  try dsimp only
  repeat' first
    | assumption | with_reducible apply Keeps.modCore | exact id | exact fun _ => rfl | exact fun _ => id | exact fun _ _ => rfl
    | rfl | split

theorem keeps_spWriteByte (z : SpWr) (h : Keeps lv s0 z.s) (r : Req) (tag td : Nat) (x : Nat × Option Byte) : Keeps lv s0 (spWriteByte r tag td x z).s := by
  unfold spWriteByte
  try dsimp only
  repeat' first
    | assumption | with_reducible apply keeps_spStore | with_reducible apply keeps_noteVersion | exact id | exact fun _ => rfl
    | exact fun _ => id | exact fun _ _ => rfl | rfl | split

theorem keeps_setFull (h : Keeps lv s0 s) (core slot : Nat) : Keeps lv s0 (setFull core slot s) := by
  unfold setFull
  try dsimp only
  repeat' first | assumption | with_reducible apply Keeps.modCore

theorem keeps_setEmpty (h : Keeps lv s0 s) (core slot : Nat) : Keeps lv s0 (setEmpty core slot s) := by
  unfold setEmpty
  try dsimp only
  repeat' first | assumption | with_reducible apply Keeps.modCore

theorem keeps_produced (h : Keeps lv s0 s) (core word : Nat) : Keeps lv s0 (produced core word s) := by
  unfold produced
  try dsimp only
  repeat' first
    | assumption | with_reducible apply Keeps.modCore | with_reducible apply keeps_setFull | exact id | exact fun _ => rfl
    | exact fun _ => id | exact fun _ _ => rfl | rfl | split

theorem keeps_spWriteS (h : Keeps lv s0 s) (r : Req) (tag tdx : Nat) (l : List (Nat × Option Byte)) : Keeps lv s0 (spWriteS r tag tdx l s).2 := by
  unfold spWriteS
  try dsimp only
  repeat' first
    | assumption | with_reducible apply Keeps.forEach | with_reducible apply Keeps.whenS | with_reducible apply Keeps.foldl
    | with_reducible apply Keeps.foldlS SpWr.s | with_reducible apply keeps_spEffects | with_reducible apply keeps_spWriteByte
    | with_reducible apply keeps_produced | exact id | exact fun _ => rfl | exact fun _ => id | exact fun _ _ => rfl | rfl
    | split | intro _

theorem keeps_lastInSlot (h : Keeps lv s0 s) (r : Req) (tag q : Nat) : Keeps lv s0 (lastInSlot r tag q s) := by
  unfold lastInSlot
  try dsimp only
  repeat' first
    | assumption | with_reducible apply keeps_setFull | exact id | exact fun _ => rfl | exact fun _ => id | exact fun _ _ => rfl
    | rfl | split

theorem keeps_flushEntry (h : Keeps lv s0 s) (core : Nat) (g : Gather) : Keeps lv s0 (flushEntry core g s) := by
  unfold flushEntry
  try dsimp only
  repeat' first
    | assumption | with_reducible apply Keeps.setBit | with_reducible apply Keeps.forEach | with_reducible apply Keeps.whenS
    | with_reducible apply keeps_spPut | with_reducible apply keeps_produced
    | exact id | exact fun _ => rfl | exact fun _ => id | exact fun _ _ => rfl | rfl | split | intro _

theorem keeps_flushGather (h : Keeps lv s0 s) (core : Nat) : Keeps lv s0 (flushGather core s) := by
  unfold flushGather
  try dsimp only
  repeat' first
    | assumption | with_reducible apply Keeps.modCore | with_reducible apply Keeps.forEach
    | with_reducible apply keeps_flushEntry | exact id | exact fun _ => rfl | exact fun _ => id | exact fun _ _ => rfl | rfl
    | split | intro _

theorem keeps_gatherPut (h : Keeps lv s0 s) (core p : Nat) (b : Byte) (produce : Bool) : Keeps lv s0 (gatherPut core p b produce s) := by
  unfold gatherPut
  try dsimp only
  repeat' first
    | assumption | with_reducible apply Keeps.setCore | with_reducible apply Keeps.modCore
    | with_reducible apply keeps_flushEntry | exact id | exact fun _ => rfl | exact fun _ => id | exact fun _ _ => rfl | rfl
    | split

theorem keeps_gatherByteWr (z : SpWr) (h : Keeps lv s0 z.s) (r : Req) (tag td : Nat) (x : Nat × Byte) : Keeps lv s0 (gatherByteWr r tag td x z).s := by
  unfold gatherByteWr
  try dsimp only
  repeat' first
    | assumption | with_reducible apply keeps_noteVersion | with_reducible apply keeps_gatherPut | exact id | exact fun _ => rfl
    | exact fun _ => id | exact fun _ _ => rfl | rfl | split

theorem keeps_storeWord (z : SpWr) (h : Keeps lv s0 z.s) (r : Req) (tag td : Nat) (l : List (Nat × Byte)) :
    Keeps lv s0 (storeWord r tag td l z).s := by
  unfold storeWord
  split
  · exact Keeps.foldlS SpWr.s _ _ (fun x a k => keeps_spWriteByte a k r tag td _) _ h
  · exact Keeps.foldlS SpWr.s _ _ (fun x a k => keeps_gatherByteWr a k r tag td x) _ h

theorem keeps_gatherWriteS (h : Keeps lv s0 s) (r : Req) (tag td q : Nat) (bytes : List Byte) : Keeps lv s0 (gatherWriteS r tag td q bytes s).2 := by
  unfold gatherWriteS
  try dsimp only
  repeat' first
    | assumption | with_reducible apply Keeps.forEach | with_reducible apply Keeps.whenS | with_reducible apply Keeps.foldl
    | with_reducible apply Keeps.foldlS SpWr.s | with_reducible apply keeps_spEffects | with_reducible apply keeps_produced
    | with_reducible apply keeps_storeWord
    | exact id | exact fun _ => rfl | exact fun _ => id | exact fun _ _ => rfl | rfl | split | intro _

theorem keeps_hbmFault (h : Keeps lv s0 s) (a : Nat) : Keeps lv s0 (hbmFault a s) := by
  unfold hbmFault
  try dsimp only
  repeat' first
    | assumption | with_reducible apply keeps_detectFault | with_reducible apply keeps_versionLost | exact id
    | exact fun _ => rfl | exact fun _ => id | exact fun _ _ => rfl | rfl | split

theorem keeps_hbmReadVia (h : Keeps lv s0 s) (f : Nat → Nat) (a n : Nat) : Keeps lv s0 (hbmReadVia f a n s).2.2 := by
  unfold hbmReadVia
  try dsimp only
  repeat' first
    | assumption | with_reducible apply keeps_hbmFault | exact id | exact fun _ => rfl | exact fun _ => id
    | exact fun _ _ => rfl | rfl | split

theorem keeps_hbmRead (h : Keeps lv s0 s) (a n : Nat) : Keeps lv s0 (hbmRead a n s).2.2 := by
  unfold hbmRead
  try dsimp only
  repeat' first | assumption | with_reducible apply keeps_hbmReadVia

theorem keeps_hbmStore (h : Keeps lv s0 s) (a : Nat) (b : Byte) : Keeps lv s0 (hbmStore a b s) :=
  { h.hbmTo _ (Mem.wf_set _ _ _) with }

theorem keeps_copyUnit (h : Keeps lv s0 s) (v : UnitAt) : Keeps lv s0 (copyUnit v s) := by
  have k (a b : Nat) (e : ErrSt) : Keeps lv s0 { s with hbm := Mem.copyRange s.hbm a b 4096, err := e } :=
    { h.hbmTo _ (Mem.wf_copyRange s.hbm a b 4096) with }
  unfold copyUnit
  dsimp only
  split
  · exact k _ _ _
  · exact keeps_hbmFault (k _ _ _) _

theorem keeps_touchUnit (h : Keeps lv s0 s) (u : UnitAt) : Keeps lv s0 (touchUnit u s) := by
  unfold touchUnit
  split
  · exact h
  · exact (keeps_copyUnit h _).modCur _

theorem keeps_hbmWriteByte (z : HbmWr) (h : Keeps lv s0 z.s) (x : Nat × Byte) : Keeps lv s0 (hbmWriteByte x z).s := by
  unfold hbmWriteByte
  try dsimp only
  repeat' first
    | assumption | with_reducible apply keeps_hbmStore | with_reducible apply keeps_touchUnit | exact id | exact fun _ => rfl
    | exact fun _ => id | exact fun _ _ => rfl | rfl | split

theorem keeps_hbmWriteS (h : Keeps lv s0 s) (a : Nat) (bytes : List Byte) : Keeps lv s0 (hbmWriteS a bytes s) := by
  unfold hbmWriteS
  try dsimp only
  repeat' first
    | assumption | with_reducible apply Keeps.whenS | with_reducible apply Keeps.foldl
    | with_reducible apply Keeps.foldlS HbmWr.s | with_reducible apply keeps_stickyEvent
    | with_reducible apply keeps_hbmWriteByte | exact id | exact fun _ => rfl | exact fun _ => id | exact fun _ _ => rfl | rfl
    | split | intro _

theorem keeps_noteUnits (h : Keeps lv s0 s) (core td a n : Nat) : Keeps lv s0 (noteUnits core td a n s) := by
  unfold noteUnits
  try dsimp only
  repeat' first
    | assumption | with_reducible apply Keeps.modCur | exact id | exact fun _ => rfl | exact fun _ => id | exact fun _ _ => rfl
    | rfl | split

theorem keeps_noteUnitMd (h : Keeps lv s0 s) (md : Word) (a n : Nat) : Keeps lv s0 (noteUnitMd md a n s) := by
  unfold noteUnitMd
  try dsimp only
  repeat' first
    | assumption | with_reducible apply Keeps.modCur | exact id | exact fun _ => rfl | exact fun _ => id | exact fun _ _ => rfl
    | rfl | split

theorem keeps_countConv (h : Keeps lv s0 s) (core td : Nat) (o : ConvOut) : Keeps lv s0 (countConv core td o s) := by
  unfold countConv
  try dsimp only
  repeat' first
    | assumption | with_reducible apply Keeps.modCore | with_reducible apply Keeps.foldl | with_reducible apply keeps_addWatch
    | exact id | exact fun _ => rfl | exact fun _ => id | exact fun _ _ => rfl | rfl | split

theorem keeps_addInput (h : Keeps lv s0 s) (n : NodeId) (i : NodeIn) : Keeps lv s0 (addInput n i s) := by
  unfold addInput
  try dsimp only
  repeat' first
    | assumption | with_reducible apply Keeps.setBit | with_reducible apply Keeps.setNode | with_reducible apply Keeps.whenS
    | with_reducible apply keeps_addWatch
    | exact id | exact fun _ => rfl | exact fun _ => id | exact fun _ _ => rfl | rfl | split | intro _

theorem keeps_enterNode (h : Keeps lv s0 s) (n : NodeId) (i : NodeIn) : Keeps lv s0 (enterNode n i s) := by
  unfold enterNode
  try dsimp only
  repeat' first
    | assumption | with_reducible apply Keeps.setNode | with_reducible apply keeps_addInput
    | exact id | exact fun _ => rfl | exact fun _ => id | exact fun _ _ => rfl | rfl | split | intro _

theorem keeps_retryWaits (h : Keeps lv s0 s) (n : NodeId) : Keeps lv s0 (retryWaits n s) := by
  unfold retryWaits
  try dsimp only
  repeat' first
    | assumption | with_reducible apply Keeps.setNode | with_reducible apply Keeps.forEach
    | with_reducible apply keeps_enterNode
    | exact id | exact fun _ => rfl | exact fun _ => id | exact fun _ _ => rfl | rfl | split | intro _

theorem keeps_takePair (h : Keeps lv s0 s) (n : NodeId) (a : Acc) : Keeps lv s0 (takePair n a s) := by
  unfold takePair
  try dsimp only
  repeat' first
    | assumption | with_reducible apply Keeps.setBit | with_reducible apply Keeps.setNode | with_reducible apply Keeps.whenS
    | with_reducible apply keeps_retryWaits
    | exact id | exact fun _ => rfl | exact fun _ => id | exact fun _ _ => rfl | rfl | split | intro _

theorem keeps_modOp (h : Keeps lv s0 s) (core seq : Nat) (f : Op → Op) : Keeps lv s0 (modOp core seq f s) := by
  unfold modOp
  try dsimp only
  repeat' first | assumption | with_reducible apply Keeps.modCore

theorem keeps_wipeOasis (h : Keeps lv s0 s)  : Keeps lv s0 (wipeOasis s) := by
  unfold wipeOasis
  try dsimp only
  repeat' first
    | assumption | with_reducible apply Keeps.setBit | with_reducible apply Keeps.modSec
    | exact id | exact fun _ => rfl | exact fun _ => id | exact fun _ _ => rfl | rfl | split | intro _

theorem keeps_openDebug (h : Keeps lv s0 s)  : Keeps lv s0 (openDebug s).1 := by
  unfold openDebug
  try dsimp only
  repeat' first
    | assumption | with_reducible apply Keeps.setBit | with_reducible apply keeps_wipeOasis
    | exact id | exact fun _ => rfl | exact fun _ => id | exact fun _ _ => rfl | rfl | split | intro _

theorem keeps_noteCodeword (h : Keeps lv s0 s) (i : Nat) (cw : Codeword) : Keeps lv s0 (noteCodeword i cw s) := by
  unfold noteCodeword
  try dsimp only
  repeat' first
    | assumption | with_reducible apply Keeps.setReg | with_reducible apply Keeps.setBit | with_reducible apply Keeps.addCnt
    | with_reducible apply Keeps.setLink | with_reducible apply Keeps.whenS | with_reducible apply Keeps.foldl
    | exact id | exact fun _ => rfl | exact fun _ => id | exact fun _ _ => rfl | rfl | split | intro _

theorem keeps_launch (h : Keeps lv s0 s) (i : Nat) (p : Packet) : Keeps lv s0 (launch i p s) := by
  unfold launch
  try dsimp only
  repeat' first | assumption | with_reducible apply Keeps.setLink | with_reducible apply Keeps.send

theorem keeps_pushStages (h : Keeps lv s0 s) (i : Nat) : Keeps lv s0 (pushStages i s) := by
  unfold pushStages
  try dsimp only
  repeat' first
    | assumption | with_reducible apply Keeps.setLink | with_reducible apply keeps_queueDepthChange
    | exact id | exact fun _ => rfl | exact fun _ => id | exact fun _ _ => rfl | rfl | split | intro _

theorem keeps_popPacket (h : Keeps lv s0 s) (i : Nat) (p : Packet) : Keeps lv s0 (popPacket i p s) := by
  unfold popPacket
  try dsimp only
  repeat' first
    | assumption | with_reducible apply Keeps.setLink | with_reducible apply keeps_queueDepthChange
    | with_reducible apply keeps_launch
    | exact id | exact fun _ => rfl | exact fun _ => id | exact fun _ _ => rfl | rfl | split | intro _

theorem keeps_pump (h : Keeps lv s0 s) (i n : Nat) : Keeps lv s0 (pump i n s) := by
  induction n generalizing s with
  | zero => exact h
  | succ n ih =>
    unfold pump
    dsimp only
    split
    · exact keeps_pushStages h _
    · exact ih (keeps_popPacket (keeps_pushStages h _) _ _)

theorem keeps_pumpLink (h : Keeps lv s0 s) (i : Nat) : Keeps lv s0 (pumpLink i s) := keeps_pump h _ _

theorem keeps_enqueue (h : Keeps lv s0 s) (i : Nat) (p : Packet) : Keeps lv s0 (enqueue i p s) :=
  keeps_pumpLink (h.modLink _ _) _

theorem keeps_sendBlock (h : Keeps lv s0 s) (i : Nat) (w : BitVec 64) : Keeps lv s0 (sendBlock i w s) := by
  unfold sendBlock
  try dsimp only
  repeat' first
    | assumption | with_reducible apply Keeps.send | with_reducible apply Keeps.whenS
    | exact id | exact fun _ => rfl | exact fun _ => id | exact fun _ _ => rfl | rfl | split | intro _

theorem keeps_sendAcks (h : Keeps lv s0 s) (i : Nat) : Keeps lv s0 (sendAcks i s) := by
  unfold sendAcks
  try dsimp only
  repeat' first
    | assumption | with_reducible apply keeps_sendBlock
    | exact id | exact fun _ => rfl | exact fun _ => id | exact fun _ _ => rfl | rfl | split | intro _

theorem keeps_rxAccept (h : Keeps lv s0 s) (i : Nat) (p : Packet) : Keeps lv s0 (rxAccept i p s) := by
  unfold rxAccept
  try dsimp only
  repeat' first
    | assumption | with_reducible apply Keeps.setLink | with_reducible apply keeps_sendAcks
    | exact id | exact fun _ => rfl | exact fun _ => id | exact fun _ _ => rfl | rfl | split | intro _

theorem keeps_rxNak (h : Keeps lv s0 s) (i : Nat) : Keeps lv s0 (rxNak i s) := by
  unfold rxNak
  try dsimp only
  repeat' first
    | assumption | with_reducible apply keeps_sendBlock
    | exact id | exact fun _ => rfl | exact fun _ => id | exact fun _ _ => rfl | rfl | split | intro _

theorem keeps_rxBad (h : Keeps lv s0 s) (i : Nat) (cw : Codeword) : Keeps lv s0 (rxBad i cw s) := by
  unfold rxBad
  try dsimp only
  repeat' first
    | assumption | with_reducible apply Keeps.setBit | with_reducible apply Keeps.whenS | with_reducible apply keeps_rxNak
    | exact id | exact fun _ => rfl | exact fun _ => id | exact fun _ _ => rfl | rfl | split | intro _

theorem keeps_rxPacket (h : Keeps lv s0 s) (i : Nat) (p : Packet) (cw : Codeword) (deliver : State → State)
    (hd : ∀ t, Keeps lv s0 t → Keeps lv s0 (deliver t)) : Keeps lv s0 (rxPacket i p cw deliver s) := by
  unfold rxPacket
  dsimp only
  repeat' first
    | assumption | with_reducible apply keeps_noteCodeword | with_reducible apply keeps_rxAccept | with_reducible apply keeps_rxBad
    | with_reducible apply keeps_rxNak | split | apply hd

theorem keeps_rxBlock (h : Keeps lv s0 s) (i type : Nat) (w : BitVec 64) (cw : Codeword) (take : State → State)
    (ht : ∀ t, Keeps lv s0 t → Keeps lv s0 (take t)) : Keeps lv s0 (rxBlock i type w cw take s) := by
  unfold rxBlock
  dsimp only
  repeat' first | assumption | with_reducible apply keeps_noteCodeword | split | apply ht

theorem keeps_waitOnSlot (h : Keeps lv s0 s) (core slot : Nat) (who : Option Nat) : Keeps lv s0 (waitOnSlot core slot who s) := by
  unfold waitOnSlot
  try dsimp only
  repeat' first
    | assumption | with_reducible apply Keeps.setBit | with_reducible apply Keeps.modCore | with_reducible apply Keeps.whenS
    | exact id | exact fun _ => rfl | exact fun _ => id | exact fun _ _ => rfl | rfl | split | intro _

theorem keeps_clCount (h : Keeps lv s0 s) (bitIx cnt lo : Nat) : Keeps lv s0 (clCount bitIx cnt lo s) := by
  unfold clCount
  try dsimp only
  repeat' first | assumption | with_reducible apply Keeps.setBit | with_reducible apply Keeps.addCnt

theorem keeps_windowClosed (h : Keeps lv s0 s) (bitIx lo : Nat) : Keeps lv s0 (windowClosed bitIx lo s) := by
  unfold windowClosed
  try dsimp only
  repeat' first
    | assumption | with_reducible apply Keeps.whenS | with_reducible apply keeps_stage0 | with_reducible apply keeps_clCount
    | exact id | exact fun _ => rfl | exact fun _ => id | exact fun _ _ => rfl | rfl | split | intro _

theorem keeps_unreachable (h : Keeps lv s0 s) (p : Packet) : Keeps lv s0 (unreachable p s) := by
  unfold unreachable
  try dsimp only
  repeat' first
    | assumption | with_reducible apply Keeps.whenS | with_reducible apply keeps_detectFault
    | with_reducible apply keeps_clCount | exact id | exact fun _ => rfl | exact fun _ => id | exact fun _ _ => rfl | rfl
    | split | intro _

theorem keeps_refuseSp (h : Keeps lv s0 s) (r : Req) (f : SpFlags) (t : State)
    (e : refuseSp r f s = .landed t ∨ refuseSp r f s = .refused t) : Keeps lv s0 t := by
  unfold refuseSp at e
  simp only [reduceCtorEq, Landing.refused.injEq, false_or] at e
  subst e
  exact keeps_spEffects h _ _

theorem keeps_landWrite (h : Keeps lv s0 s) (cls a : Nat) (bytes : List Byte) (tagm last : Bool) (md : Word) (t : State)
    (e : landWrite cls a bytes tagm last md s = .landed t ∨ landWrite cls a bytes tagm last md s = .refused t) :
    Keeps lv s0 t := by
  revert e
  unfold landWrite
  dsimp only
  repeat' first
    | split | (intro e; simp only [reduceCtorEq, Landing.landed.injEq, Landing.refused.injEq, or_false, false_or] at e)
  all_goals first
    | exact keeps_refuseSp h _ _ _
    | (subst e; exact h)
    | (subst e; exact keeps_stickyEvent h _ _)
    | (subst e; exact h.whenS _ _ fun t k => keeps_stickyEvent k _ _)
    | (subst e; exact keeps_noteUnitMd (keeps_hbmWriteS h _ _) _ _ _)
    | (subst e; exact (keeps_spWriteS h _ _ _ _).modCore _ _)
    | (subst e; exact (keeps_spWriteS h _ _ _ _).whenS _ _ fun t k => keeps_lastInSlot k _ _ _)

theorem keeps_takeWr (h : Keeps lv s0 s) (p : Packet) : Keeps lv s0 (takeWr p s).1 := by
  have k := keeps_landWrite h 5 p.addr p.data p.tagm p.last (p.md.setWidth 32)
  unfold takeWr
  split
  · exact keeps_clCount h _ _ _
  · split
    · exact h.setBit _ _
    · split
      · exact keeps_windowClosed h _ _
      · split
        · exact k _ (.inl ‹_›)
        · exact (k _ (.inr ‹_›)).setBit _ _
        · exact h.setBit _ _
        · exact keeps_waitOnSlot (h.rest _ _ _ _ _ _ _ _ _ _ _ _ _ _) _ _ _

theorem keeps_takeAck (h : Keeps lv s0 s) (p : Packet) : Keeps lv s0 (takeAck p s) := by
  unfold takeAck
  try dsimp only
  repeat' first
    | assumption | with_reducible apply Keeps.send | with_reducible apply keeps_stage0 | with_reducible apply keeps_detectFault
    | with_reducible apply keeps_modOp | with_reducible apply keeps_windowClosed | exact id | exact fun _ => rfl
    | exact fun _ => id | exact fun _ _ => rfl | rfl | split | intro _
  all_goals (with_reducible apply Keeps.rest)
  repeat' assumption

theorem keeps_readCurrent (h : Keeps lv s0 s) (a n : Nat) : Keeps lv s0 (readCurrent a n s).2 := by
  unfold readCurrent
  try dsimp only
  repeat' first
    | assumption | with_reducible apply keeps_spEffects | with_reducible apply keeps_hbmRead
    | exact id | exact fun _ => rfl | exact fun _ => id | exact fun _ _ => rfl | rfl | split | intro _

theorem keeps_takeRdReq (h : Keeps lv s0 s) (p : Packet) : Keeps lv s0 (takeRdReq p s).1 := by
  have k := keeps_readCurrent h p.addr p.want
  unfold takeRdReq
  dsimp only
  split
  · exact keeps_clCount h _ _ _
  · split
    · exact h
    · split <;> (rename_i e; rw [e] at k)
      · exact k
      · exact k.setBit _ _

theorem keeps_takeSeifEntry (h : Keeps lv s0 s) (red : Nat) (md : Word) (e : SeifEntry) : Keeps lv s0 (takeSeifEntry red md e s) := by
  unfold takeSeifEntry
  try dsimp only
  repeat' first
    | assumption | with_reducible apply keeps_detectFault | with_reducible apply keeps_enterNode | exact id | exact fun _ => rfl
    | exact fun _ => id | exact fun _ _ => rfl | rfl | split

theorem keeps_takeSeif (h : Keeps lv s0 s) (p : Packet) : Keeps lv s0 (takeSeif p s) := by
  unfold takeSeif
  try dsimp only
  repeat' first
    | assumption | with_reducible apply Keeps.forEach | with_reducible apply keeps_clCount
    | with_reducible apply keeps_takeSeifEntry | exact id | exact fun _ => rfl | exact fun _ => id | exact fun _ _ => rfl | rfl
    | split | intro _

theorem keeps_badPacket (h : Keeps lv s0 s)  : Keeps lv s0 (badPacket s) := by
  unfold badPacket
  try dsimp only
  repeat' first
    | assumption | with_reducible apply Keeps.setBit | with_reducible apply keeps_detectFault
    | exact id | exact fun _ => rfl | exact fun _ => id | exact fun _ _ => rfl | rfl | split | intro _

theorem keeps_takeRdResp (h : Keeps lv s0 s) (p : Packet) : Keeps lv s0 (takeRdResp p s) := by
  unfold takeRdResp
  exact Keeps.whenS _ _ (fun t k => keeps_detectFault k _) { h with }

theorem keeps_takePacket (h : Keeps lv s0 s) (p : Packet) : Keeps lv s0 (takePacket p s).1 := by
  unfold takePacket
  try dsimp only
  repeat' first
    | assumption | with_reducible apply Keeps.setBit | with_reducible apply keeps_detectFault
    | with_reducible apply keeps_takeWr | with_reducible apply keeps_takeAck | with_reducible apply keeps_takeRdReq
    | with_reducible apply keeps_takeSeif | with_reducible apply keeps_takeRdResp
    | with_reducible apply keeps_badPacket | exact id | exact fun _ => rfl | exact fun _ => id | exact fun _ _ => rfl | rfl
    | split

theorem keeps_emit (h : Keeps lv s0 s) (n : Nat) (p : Packet) : Keeps lv s0 (emit n p s) := by
  induction n generalizing s p with
  | zero => exact h
  | succ n ih =>
    unfold emit
    split
    · exact keeps_enqueue h _ _
    · exact Keeps.forEach _ _ (fun q t k => ih k q) (keeps_takePacket h _)
    · dsimp only
      split
      · exact Keeps.forEach _ _ (fun q t k => keeps_takePacket k _) (keeps_unreachable h _)
      · exact Keeps.forEach _ _ (fun q t k => ih k q) (keeps_unreachable h _)

theorem keeps_sendPacket (h : Keeps lv s0 s) (p : Packet) : Keeps lv s0 (sendPacket p s) := keeps_emit h 3 p

theorem keeps_sendRun (h : Keeps lv s0 s) (core seq xid : Nat) (d : BitVec 512) (md : Word) (a : Nat) (bytes : List Byte) (last : Bool) : Keeps lv s0 (sendRun core seq xid d md a bytes last s) := by
  unfold sendRun
  try dsimp only
  repeat' first
    | assumption | with_reducible apply Keeps.send | with_reducible apply Keeps.forEach | with_reducible apply keeps_modOp
    | with_reducible apply keeps_sendPacket | exact id | exact fun _ => rfl | exact fun _ => id | exact fun _ _ => rfl | rfl
    | split | intro _
  all_goals (with_reducible apply Keeps.rest)
  repeat' first
    | assumption | with_reducible apply Keeps.send | with_reducible apply Keeps.forEach | with_reducible apply keeps_modOp

end Sys2Proof.Machine
end

