-- ==== Sys2Proof/Laws/KeepsItems.lean ====
section
/-! SUPPORT. `Keeps` (Laws/Keeps.lean) for every function from states to states of issue, the program commands and the work
items of the macro-instructions. -/

set_option maxRecDepth 4000

namespace Sys2Proof.Machine

variable {lv : Nat} {s0 s : State}

theorem keeps_takeTokens (h : Keeps lv s0 s) (core : Nat) (l : List (Nat × Nat)) : Keeps lv s0 (takeTokens core l s) := by
  unfold takeTokens
  try dsimp only
  repeat' first | assumption | with_reducible apply Keeps.modCore

theorem keeps_setWaiting (h : Keeps lv s0 s) (core : Nat) (pairs : List (Nat × Nat)) (taken : Bool) : Keeps lv s0 (setWaiting core pairs taken s) := by
  unfold setWaiting
  try dsimp only
  repeat' first | assumption | with_reducible apply Keeps.modCore

theorem keeps_advance (h : Keeps lv s0 s) (core : Nat) : Keeps lv s0 (advance core s) := by
  unfold advance
  try dsimp only
  repeat' first | assumption | with_reducible apply Keeps.modCore

theorem keeps_fetchChecks (h : Keeps lv s0 s) (core : Nat) (w : BitVec 256) : Keeps lv s0 (fetchChecks core w s) := by
  unfold fetchChecks
  try dsimp only
  repeat' first
    | assumption | with_reducible apply Keeps.modErr | with_reducible apply Keeps.whenS | with_reducible apply keeps_detectFault
    | with_reducible apply keeps_pathCheck
    | exact id | exact fun _ => rfl | exact fun _ => id | exact fun _ _ => rfl | rfl | split | intro _

theorem keeps_tryIssue (h : Keeps lv s0 s) (core : Nat) (w : BitVec 256) (seq : Nat) (k : Nat → State → State) (r : State)
    (hr : Keeps lv s0 r) (hk : ∀ n t, Keeps lv s0 t → Keeps lv s0 (k n t)) : Keeps lv s0 (tryIssue core w seq k r s) := by
  have k1 := hk seq _ (keeps_fetchChecks h core w)
  unfold tryIssue
  extract_lets md t1 t2
  have k2 : Keeps lv s0 t2 := by
    unfold t2
    split
    · exact k1
    · exact k1.modCore _ _
  split
  · exact k2
  · exact hr

theorem keeps_attempt (h : Keeps lv s0 s) (core : Nat) (w : BitVec 256) (k : Nat → State → State)
    (hk : ∀ n t, Keeps lv s0 t → Keeps lv s0 (k n t)) : Keeps lv s0 (attempt core w k s) := by
  unfold attempt
  dsimp only
  split
  · exact h
  · split
    · exact keeps_setWaiting (h.whenS _ _ fun t k => (k.setBit _ _).addCnt _ _ _ _) _ _ _
    · split
      · exact keeps_tryIssue h _ _ _ _ _ h hk
      · split
        · exact keeps_setWaiting h _ _ _
        · exact keeps_tryIssue (keeps_takeTokens h _ _) _ _ _ _ _ h hk

theorem keeps_signalDone (h : Keeps lv s0 s) (core : Nat) (w : BitVec 256) : Keeps lv s0 (signalDone core w s) := by
  unfold signalDone
  try dsimp only
  repeat' first
    | assumption | with_reducible apply Keeps.whenS | with_reducible apply keeps_passQueue
    | with_reducible apply keeps_sendToken
    | exact id | exact fun _ => rfl | exact fun _ => id | exact fun _ _ => rfl | rfl | split | intro _

theorem keeps_doneAtIssue (h : Keeps lv s0 s) (core : Nat) (w : BitVec 256) : Keeps lv s0 (doneAtIssue core w s) := by
  unfold doneAtIssue
  try dsimp only
  repeat' first | assumption | with_reducible apply keeps_advance | with_reducible apply keeps_signalDone

theorem keeps_refusal (h : Keeps lv s0 s) (core seq : Nat) (w : BitVec 256) (r : Refuse) : Keeps lv s0 (refusal core seq w r s) := by
  unfold refusal
  try dsimp only
  repeat' first
    | assumption | with_reducible apply Keeps.setBit | with_reducible apply Keeps.forEach
    | with_reducible apply keeps_stageEvent | with_reducible apply keeps_orMeta | exact id | exact fun _ => rfl
    | exact fun _ => id | exact fun _ _ => rfl | rfl | split | intro _

theorem keeps_refuseAtIssue (h : Keeps lv s0 s) (core seq : Nat) (w : BitVec 256) (r : Refuse) : Keeps lv s0 (refuseAtIssue core seq w r s) := by
  unfold refuseAtIssue
  try dsimp only
  repeat' first | assumption | with_reducible apply keeps_doneAtIssue | with_reducible apply keeps_refusal

theorem keeps_dmaRequest (h : Keeps lv s0 s) (core : Nat) (w : BitVec 256) : Keeps lv s0 (dmaRequest core w s) := by
  unfold dmaRequest
  try dsimp only
  repeat' first
    | assumption | with_reducible apply Keeps.modCore | with_reducible apply keeps_passQueue
    | exact id | exact fun _ => rfl | exact fun _ => id | exact fun _ _ => rfl | rfl | split | intro _

theorem keeps_vectorRequest (h : Keeps lv s0 s) (core seq : Nat) (w : BitVec 256) : Keeps lv s0 (vectorRequest core seq w s) := by
  unfold vectorRequest
  try dsimp only
  repeat' first
    | assumption | with_reducible apply keeps_pushQueue | with_reducible apply keeps_passQueue
    | exact id | exact fun _ => rfl | exact fun _ => id | exact fun _ _ => rfl | rfl | split | intro _

theorem keeps_putInFlight (h : Keeps lv s0 s) (core : Nat) (o : Op) : Keeps lv s0 (putInFlight core o s) := by
  unfold putInFlight
  try dsimp only
  repeat' first
    | assumption | with_reducible apply Keeps.modCore | with_reducible apply keeps_advance
    | with_reducible apply keeps_dmaRequest | with_reducible apply keeps_vectorRequest
    | exact id | exact fun _ => rfl | exact fun _ => id | exact fun _ _ => rfl | rfl | split | intro _

theorem keeps_completeOp (h : Keeps lv s0 s) (core : Nat) (o : Op) : Keeps lv s0 (completeOp core o s) := by
  unfold completeOp
  try dsimp only
  repeat' first
    | assumption | with_reducible apply Keeps.modCore | with_reducible apply Keeps.forEach | with_reducible apply Keeps.whenS
    | with_reducible apply keeps_orMeta | with_reducible apply keeps_signalDone
    | exact id | exact fun _ => rfl | exact fun _ => id | exact fun _ _ => rfl | rfl | split | intro _

theorem keeps_runNop (h : Keeps lv s0 s) (core : Nat) (w : BitVec 256) : Keeps lv s0 (runNop core w s) := by
  unfold runNop
  try dsimp only
  repeat' first
    | assumption | with_reducible apply keeps_attempt | with_reducible apply keeps_doneAtIssue
    | with_reducible apply keeps_refuseAtIssue | exact id | exact fun _ => rfl | exact fun _ => id | exact fun _ _ => rfl | rfl
    | split | intro _

theorem keeps_endProgram (h : Keeps lv s0 s) (core : Nat) : Keeps lv s0 (endProgram core s) := by
  unfold endProgram
  try dsimp only
  repeat' first | assumption | with_reducible apply Keeps.modCore

theorem keeps_runEnd (h : Keeps lv s0 s) (core : Nat) (w : BitVec 256) : Keeps lv s0 (runEnd core w s) := by
  unfold runEnd
  try dsimp only
  repeat' first
    | assumption | with_reducible apply keeps_stickyEvent | with_reducible apply keeps_attempt
    | with_reducible apply keeps_doneAtIssue | with_reducible apply keeps_refuseAtIssue | with_reducible apply keeps_endProgram
    | exact id | exact fun _ => rfl | exact fun _ => id | exact fun _ _ => rfl | rfl | split | intro _

theorem keeps_runWait (h : Keeps lv s0 s) (core : Nat) (w : BitVec 256) : Keeps lv s0 (runWait core w s) := by
  unfold runWait
  try dsimp only
  repeat' first
    | assumption | with_reducible apply keeps_takeTokens | with_reducible apply keeps_setWaiting
    | with_reducible apply keeps_attempt | with_reducible apply keeps_doneAtIssue | with_reducible apply keeps_refuseAtIssue
    | exact id | exact fun _ => rfl | exact fun _ => id | exact fun _ _ => rfl | rfl | split | intro _

theorem keeps_runSignal (h : Keeps lv s0 s) (core : Nat) (w : BitVec 256) : Keeps lv s0 (runSignal core w s) := by
  unfold runSignal
  try dsimp only
  repeat' first
    | assumption | with_reducible apply Keeps.forEach | with_reducible apply keeps_passQueue
    | with_reducible apply keeps_sendToken | with_reducible apply keeps_attempt | with_reducible apply keeps_doneAtIssue
    | with_reducible apply keeps_refuseAtIssue
    | exact id | exact fun _ => rfl | exact fun _ => id | exact fun _ _ => rfl | rfl | split | intro _

theorem keeps_setSegment (h : Keeps lv s0 s) (core seg : Nat) : Keeps lv s0 (setSegment core seg s) := by
  unfold setSegment
  try dsimp only
  repeat' first | assumption | with_reducible apply Keeps.setFld

theorem keeps_runFence (h : Keeps lv s0 s) (core : Nat) (w : BitVec 256) : Keeps lv s0 (runFence core w s) := by
  refine keeps_attempt h core w _ (fun seq t k => ?_)
  split
  · exact keeps_refuseAtIssue k _ _ _ _
  · split
    · exact keeps_doneAtIssue (Keeps.whenS _ _ (fun _ k => keeps_setSegment k _ _) (keeps_flushGather k _)) _ _
    · exact keeps_setWaiting k _ _ _

theorem keeps_pendWindow (h : Keeps lv s0 s) (core win : Nat) (v : Option Window) : Keeps lv s0 (pendWindow core win v s) := by
  unfold pendWindow
  try dsimp only
  repeat' first | assumption | with_reducible apply Keeps.modCore

theorem keeps_runWinOpen (h : Keeps lv s0 s) (core : Nat) (w : BitVec 256) : Keeps lv s0 (runWinOpen core w s) := by
  unfold runWinOpen
  try dsimp only
  repeat' first
    | assumption | with_reducible apply keeps_attempt | with_reducible apply keeps_doneAtIssue
    | with_reducible apply keeps_refuseAtIssue | with_reducible apply keeps_pendWindow | exact id | exact fun _ => rfl
    | exact fun _ => id | exact fun _ _ => rfl | rfl | split | intro _

theorem keeps_runWinClose (h : Keeps lv s0 s) (core : Nat) (w : BitVec 256) : Keeps lv s0 (runWinClose core w s) := by
  unfold runWinClose
  try dsimp only
  repeat' first
    | assumption | with_reducible apply keeps_attempt | with_reducible apply keeps_doneAtIssue
    | with_reducible apply keeps_refuseAtIssue | with_reducible apply keeps_pendWindow | exact id | exact fun _ => rfl
    | exact fun _ => id | exact fun _ _ => rfl | rfl | split | intro _

theorem keeps_addTokens (h : Keeps lv s0 s) (core tok a : Nat) : Keeps lv s0 (addTokens core tok a s) := by
  unfold addTokens
  try dsimp only
  repeat' first
    | assumption | with_reducible apply Keeps.setFld | with_reducible apply Keeps.addCnt | with_reducible apply Keeps.modCore
    | with_reducible apply Keeps.whenS | with_reducible apply keeps_stickyEvent | exact id | exact fun _ => rfl
    | exact fun _ => id | exact fun _ _ => rfl | rfl | split | intro _

theorem keeps_ejectToken (h : Keeps lv s0 s) (core : Nat) : Keeps lv s0 (ejectToken core s) := by
  unfold ejectToken
  try dsimp only
  repeat' first
    | assumption | with_reducible apply Keeps.modErr | with_reducible apply keeps_passQueue
    | with_reducible apply keeps_pathCheck
    | exact id | exact fun _ => rfl | exact fun _ => id | exact fun _ _ => rfl | rfl | split | intro _

theorem keeps_tokensArrive (h : Keeps lv s0 s) (core tok n : Nat) : Keeps lv s0 (tokensArrive core tok n s) := by
  unfold tokensArrive
  try dsimp only
  repeat' first
    | assumption | with_reducible apply keeps_addTokens | with_reducible apply keeps_ejectToken
    | exact id | exact fun _ => rfl | exact fun _ => id | exact fun _ _ => rfl | rfl | split | intro _
  all_goals (with_reducible apply Keeps.rest)
  repeat' first
    | assumption | with_reducible apply keeps_addTokens | with_reducible apply keeps_ejectToken
    | exact id | exact fun _ => rfl | exact fun _ => id | exact fun _ _ => rfl | rfl | split | intro _

theorem keeps_tripWatchdog (h : Keeps lv s0 s) (core : Nat) : Keeps lv s0 (tripWatchdog core s) := by
  unfold tripWatchdog
  try dsimp only
  repeat' first
    | assumption | with_reducible apply Keeps.setBit | with_reducible apply Keeps.setFld | with_reducible apply Keeps.addCnt
    | with_reducible apply Keeps.modCore | with_reducible apply Keeps.whenS | with_reducible apply keeps_detectFault | exact id
    | exact fun _ => rfl | exact fun _ => id | exact fun _ _ => rfl | rfl | split | intro _

theorem keeps_shapeClamp (h : Keeps lv s0 s) (core n : Nat) : Keeps lv s0 (shapeClamp core n s) := by
  unfold shapeClamp
  try dsimp only
  repeat' first
    | assumption | with_reducible apply Keeps.addCnt | with_reducible apply Keeps.forEach
    | with_reducible apply keeps_stickyEvent
    | exact id | exact fun _ => rfl | exact fun _ => id | exact fun _ _ => rfl | rfl | split | intro _

theorem keeps_readRun (h : Keeps lv s0 s) (core task seg cls : Nat) (d : BitVec 512) (a n : Nat) : Keeps lv s0 (readRun core task seg cls d a n s).2.2 := by
  unfold readRun
  try dsimp only
  repeat' first
    | assumption | with_reducible apply keeps_spReadS | with_reducible apply keeps_hbmRead | exact id | exact fun _ => rfl
    | exact fun _ => id | exact fun _ _ => rfl | rfl | split

theorem keeps_readRowK (h : Keeps lv s0 s) (core task seg cls : Nat) (kb : Bool) (o : Opd) (b m n : Nat) : Keeps lv s0 (readRowK core task seg cls kb o b m n s).s := by
  unfold readRowK
  try dsimp only
  repeat' first
    | assumption | with_reducible apply keeps_readRun
    | exact id | exact fun _ => rfl | exact fun _ => id | exact fun _ _ => rfl | rfl | split | intro _

theorem keeps_readRow (h : Keeps lv s0 s) (core task seg cls : Nat) (o : Opd) (b m n : Nat) : Keeps lv s0 (readRow core task seg cls o b m n s).s := by
  unfold readRow
  try dsimp only
  repeat' first
    | assumption | with_reducible apply keeps_readRowK
    | exact id | exact fun _ => rfl | exact fun _ => id | exact fun _ _ => rfl | rfl | split | intro _

theorem keeps_vecReads (h : Keeps lv s0 s) (core task seg : Nat) (i : Config.KernelIn) :
    Keeps lv s0 (vecReads core task seg i s).s :=
  Keeps.foldlS VecReads.s _ _ (fun _ _ k => keeps_spEffects k _ _) _ h

theorem keeps_writeRun (h : Keeps lv s0 s) (core task seg cls : Nat) (o : Opd) (seq xid : Nat) (md : Word) (all rest : Ranges) (a : Nat) (bytes : List Byte) : Keeps lv s0 (writeRun core task seg cls o seq xid md all rest a bytes s).2 := by
  unfold writeRun
  try dsimp only
  repeat' first
    | assumption | with_reducible apply Keeps.whenS | with_reducible apply keeps_spWriteS
    | with_reducible apply keeps_lastInSlot | with_reducible apply keeps_gatherWriteS | with_reducible apply keeps_hbmWriteS
    | with_reducible apply keeps_noteUnits | with_reducible apply keeps_sendRun | exact id | exact fun _ => rfl
    | exact fun _ => id | exact fun _ _ => rfl | rfl | split | intro _

theorem keeps_writeRow (h : Keeps lv s0 s) (core task seg cls : Nat) (o : Opd) (seq xid : Nat) (md : Word) (r : RowOut) : Keeps lv s0 (writeRow core task seg cls o seq xid md r s).2 := by
  unfold writeRow
  try dsimp only
  repeat' first | assumption | with_reducible apply keeps_writeRun

theorem keeps_writeSide (h : Keeps lv s0 s) (core task seg cls : Nat) (o : Opd) (all rest : List (Nat × Nat)) (b m : Nat) (bytes : List Byte) : Keeps lv s0 (writeSide core task seg cls o all rest b m bytes s).2 := by
  unfold writeSide
  try dsimp only
  repeat' first
    | assumption | with_reducible apply Keeps.whenS | with_reducible apply keeps_spWriteS
    | with_reducible apply keeps_lastInSlot | with_reducible apply keeps_gatherWriteS | with_reducible apply keeps_hbmWriteS
    | with_reducible apply keeps_noteUnits
    | exact id | exact fun _ => rfl | exact fun _ => id | exact fun _ _ => rfl | rfl | split | intro _

theorem keeps_keepRowRes (h : Keeps lv s0 s) (t0 : State) (pm fmt r q : Nat) : Keeps lv s0 (keepRowRes t0 pm fmt r q s) := by
  unfold keepRowRes
  try dsimp only
  repeat' first
    | assumption | with_reducible apply Keeps.modErr
    | exact id | exact fun _ => rfl | exact fun _ => id | exact fun _ _ => rfl | rfl | split | intro _

theorem keeps_setColRes (h : Keeps lv s0 s) (pm fmt g j v : Nat) : Keeps lv s0 (setColRes pm fmt g j v s) := by
  unfold setColRes
  try dsimp only
  repeat' first
    | assumption | with_reducible apply Keeps.modErr
    | exact id | exact fun _ => rfl | exact fun _ => id | exact fun _ _ => rfl | rfl | split | intro _

theorem keeps_putScale (h : Keeps lv s0 s) (pm c v : Nat) : Keeps lv s0 (putScale pm c v s) :=
  { h.scaleTo _ (SMap.wf_set _ _ _ _) with }

theorem keeps_updateCols (h : Keeps lv s0 s) (pm fmt g : Nat) : Keeps lv s0 (updateCols pm fmt g s) :=
  Keeps.forEach _ _ (fun _ _ k => (Keeps.forEach _ _ (fun _ _ k => keeps_setColRes k _ _ _ _ _) k).modErr _) h

theorem keeps_mcRecord (h : Keeps lv s0 s) (core kind block lm row : Nat) : Keeps lv s0 (mcRecord core kind block lm row s) := by
  unfold mcRecord
  try dsimp only
  repeat' first
    | assumption | with_reducible apply Keeps.setReg | with_reducible apply Keeps.setReg64 | exact id | exact fun _ => rfl
    | exact fun _ => id | exact fun _ _ => rfl | rfl | split

theorem keeps_mcFault (h : Keeps lv s0 s) (core kind block lm row bitIx det : Nat) : Keeps lv s0 (mcFault core kind block lm row bitIx det s) := by
  unfold mcFault
  try dsimp only
  repeat' first
    | assumption | with_reducible apply Keeps.setBit | with_reducible apply keeps_detectFault
    | with_reducible apply keeps_mcRecord

theorem keeps_residueMismatch (h : Keeps lv s0 s) (fwd : Bool) (core lm g q : Nat) : Keeps lv s0 (residueMismatch fwd core lm g q s) := by
  unfold residueMismatch
  try dsimp only
  repeat' first
    | assumption | with_reducible apply Keeps.addCnt | with_reducible apply keeps_mcFault | exact id | exact fun _ => rfl
    | exact fun _ => id | exact fun _ _ => rfl | rfl | split

theorem keeps_arrStore (h : Keeps lv s0 s) (pm o : Nat) (b : Byte) : Keeps lv s0 (arrStore pm o b s) :=
  { h.macTo _ (Mem.wf_set _ _ _) with }

theorem keeps_fixRowRes (h : Keeps lv s0 s) (pm r : Nat) : Keeps lv s0 (fixRowRes pm r s) := by
  unfold fixRowRes
  try dsimp only
  repeat' first | assumption | with_reducible apply Keeps.modErr

theorem keeps_writeArrRow (h : Keeps lv s0 s) (core lm r : Nat) (bytes : List Byte) : Keeps lv s0 (writeArrRow core lm r bytes s) := by
  unfold writeArrRow
  try dsimp only
  repeat' first
    | assumption | with_reducible apply Keeps.setBit | with_reducible apply Keeps.forEach | with_reducible apply Keeps.whenS
    | with_reducible apply keeps_updateCols | with_reducible apply keeps_arrStore | with_reducible apply keeps_fixRowRes
    | exact id | exact fun _ => rfl | exact fun _ => id | exact fun _ _ => rfl | rfl | split | intro _

theorem keeps_settleWord (h : Keeps lv s0 s) (pm fmt o : Nat) (p : BitVec 39) : Keeps lv s0 (settleWord pm fmt o p s) := by
  unfold settleWord
  try dsimp only
  repeat' first
    | assumption | with_reducible apply Keeps.forEach | with_reducible apply keeps_keepRowRes
    | with_reducible apply keeps_setColRes | with_reducible apply keeps_arrStore
    | exact id | exact fun _ => rfl | exact fun _ => id | exact fun _ _ => rfl | rfl | split | intro _

theorem keeps_correctWord (h : Keeps lv s0 s) (pm fmt o : Nat) : Keeps lv s0 (correctWord pm fmt o s).1 := by
  unfold correctWord
  try dsimp only
  repeat' first
    | assumption | with_reducible apply keeps_settleWord
    | exact id | exact fun _ => rfl | exact fun _ => id | exact fun _ _ => rfl | rfl | split | intro _

theorem keeps_eccCorrected (h : Keeps lv s0 s) (core : Nat) : Keeps lv s0 (eccCorrected core s) := by
  unfold eccCorrected
  try dsimp only
  repeat' first | assumption | with_reducible apply Keeps.setBit | with_reducible apply Keeps.addCnt

theorem keeps_mergeWord (h : Keeps lv s0 s) (core lm o : Nat) : Keeps lv s0 (mergeWord core lm o s) := by
  unfold mergeWord
  try dsimp only
  repeat' first
    | assumption | with_reducible apply Keeps.whenS | with_reducible apply keeps_mcFault
    | with_reducible apply keeps_correctWord | with_reducible apply keeps_eccCorrected
    | exact id | exact fun _ => rfl | exact fun _ => id | exact fun _ _ => rfl | rfl | split | intro _

theorem keeps_rowResFault (h : Keeps lv s0 s) (core lm r q : Nat) : Keeps lv s0 (rowResFault core lm r q s) := by
  unfold rowResFault
  try dsimp only
  repeat' first
    | assumption | with_reducible apply Keeps.addCnt | with_reducible apply keeps_mcFault
    | exact id | exact fun _ => rfl | exact fun _ => id | exact fun _ _ => rfl | rfl | split | intro _

theorem keeps_rowReadRes (h : Keeps lv s0 s) (core lm r : Nat) : Keeps lv s0 (rowReadRes core lm r s) := by
  unfold rowReadRes
  try dsimp only
  repeat' first
    | assumption | with_reducible apply Keeps.forEach | with_reducible apply keeps_rowResFault
    | exact id | exact fun _ => rfl | exact fun _ => id | exact fun _ _ => rfl | rfl | split | intro _

theorem keeps_putCodeBit (h : Keeps lv s0 s) (pm fmt r j code i : Nat) : Keeps lv s0 (putCodeBit pm fmt r j code i s) := by
  unfold putCodeBit
  try dsimp only
  repeat' first
    | assumption | with_reducible apply keeps_arrStore
    | exact id | exact fun _ => rfl | exact fun _ => id | exact fun _ _ => rfl | rfl | split | intro _

theorem keeps_writeBitCol (h : Keeps lv s0 s) (core lm j i : Nat) (codes : List Nat) : Keeps lv s0 (writeBitCol core lm j i codes s) := by
  unfold writeBitCol
  try dsimp only
  repeat' first
    | assumption | with_reducible apply Keeps.forEach | with_reducible apply keeps_mergeWord
    | with_reducible apply keeps_putCodeBit
    | exact id | exact fun _ => rfl | exact fun _ => id | exact fun _ _ => rfl | rfl | split | intro _

theorem keeps_writeArrCol (h : Keeps lv s0 s) (core lm j : Nat) (codes : List Nat) : Keeps lv s0 (writeArrCol core lm j codes s) := by
  refine Keeps.whenS _ _ (fun _ k => k.setBit _ _) ?_
  refine Keeps.forEach _ _ (fun _ _ k => k.modErr _) ?_
  refine Keeps.forEach _ _ (fun _ _ k => keeps_writeBitCol k _ _ _ _ _) ?_
  exact Keeps.forEach _ _ (fun _ _ k => keeps_updateCols k _ _ _) h

theorem keeps_mergeRow (h : Keeps lv s0 s) (core lm r : Nat) : Keeps lv s0 (mergeRow core lm r s) := by
  unfold mergeRow
  try dsimp only
  repeat' first
    | assumption | with_reducible apply Keeps.forEach | with_reducible apply keeps_mergeWord
    | with_reducible apply keeps_rowReadRes
    | exact id | exact fun _ => rfl | exact fun _ => id | exact fun _ _ => rfl | rfl | split | intro _

theorem keeps_writeArrBytes (h : Keeps lv s0 s) (core lm o : Nat) (bytes : List Byte) : Keeps lv s0 (writeArrBytes core lm o bytes s) := by
  unfold writeArrBytes
  try dsimp only
  repeat' first
    | assumption | with_reducible apply Keeps.setBit | with_reducible apply Keeps.forEach | with_reducible apply Keeps.whenS
    | with_reducible apply keeps_updateCols | with_reducible apply keeps_arrStore | with_reducible apply keeps_fixRowRes
    | with_reducible apply keeps_mergeRow
    | exact id | exact fun _ => rfl | exact fun _ => id | exact fun _ _ => rfl | rfl | split | intro _

theorem keeps_noteArrRead (h : Keeps lv s0 s) (core lm o n : Nat) : Keeps lv s0 (noteArrRead core lm o n s) := by
  unfold noteArrRead
  try dsimp only
  repeat' first
    | assumption | with_reducible apply Keeps.forEach | with_reducible apply keeps_mcFault
    | with_reducible apply keeps_eccCorrected | with_reducible apply keeps_rowReadRes
    | exact id | exact fun _ => rfl | exact fun _ => id | exact fun _ _ => rfl | rfl | split | intro _

theorem keeps_setPosTag (h : Keeps lv s0 s) (pm n : Nat) (t : PosTag) : Keeps lv s0 (setPosTag pm n t s) := by
  unfold setPosTag
  try dsimp only
  all_goals (with_reducible apply Keeps.rest)
  repeat' assumption

theorem keeps_marginCheck (h : Keeps lv s0 s) (core lm : Nat) (blks : List Nat) : Keeps lv s0 (marginCheck core lm blks s) := by
  refine Keeps.forEach _ _ (fun blk t k => ?_) h
  extract_lets sl t1 u u2 t2
  have k1 : Keeps lv s0 t1 := k.modCore _ _
  have k2 : Keeps lv s0 t2 := by
    unfold t2
    clear_value t1
    split
    · exact ((k1.setBit _ _).modPwr _).modCore _ _
    · exact k1
  clear_value t2
  split
  · exact keeps_mcFault k2 _ _ _ _ _ _ _
  · exact k2

theorem keeps_passEffects (h : Keeps lv s0 s) (core lm : Nat) (fwd : Bool) (blks : List Nat) (before : Tile) (o : PassOut) :
    Keeps lv s0 (passEffects core lm fwd blks before o s).2 := by
  unfold passEffects
  extract_lets s1 newSat s2 marg
  have k1 : Keeps lv s0 s1 := Keeps.forEach _ _ (fun _ _ k => keeps_residueMismatch k _ _ _ _ _) h
  have k2 : Keeps lv s0 s2 := Keeps.whenS _ _ (fun _ k => keeps_addWatch ((k.setBit _ _).addCnt _ _ _ _) _ _ _ _ _) k1
  clear_value s2 marg
  exact keeps_marginCheck k2 core lm blks

theorem keeps_opMd (h : Keeps lv s0 s) (core seq : Nat) (md : Word) : Keeps lv s0 (opMd core seq md s) := by
  unfold opMd
  try dsimp only
  repeat' first | assumption | with_reducible apply keeps_modOp

theorem keeps_doMove (h : Keeps lv s0 s) (core : Nat) (op : Op) (b r : Nat) : Keeps lv s0 (doMove core op b r s) := by
  unfold doMove
  try dsimp only
  repeat' first
    | assumption | with_reducible apply keeps_modOp | with_reducible apply keeps_readRowK | with_reducible apply keeps_writeRow
    | exact id | exact fun _ => rfl | exact fun _ => id | exact fun _ _ => rfl | rfl | split | intro _

theorem keeps_doShpLoad (h : Keeps lv s0 s) (core : Nat) (op : Op) : Keeps lv s0 (doShpLoad core op s) := by
  unfold doShpLoad
  try dsimp only
  repeat' first
    | assumption | with_reducible apply Keeps.setReg | with_reducible apply keeps_readRun | with_reducible apply keeps_opMd

theorem keeps_doWall (h : Keeps lv s0 s) (core : Nat) (op : Op) (b : Nat) : Keeps lv s0 (doWall core op b s) := by
  unfold doWall
  try dsimp only
  repeat' first
    | assumption | with_reducible apply Keeps.forEach | with_reducible apply keeps_hbmReadVia
    | with_reducible apply keeps_putScale | with_reducible apply keeps_writeArrRow | with_reducible apply keeps_opMd | exact id
    | exact fun _ => rfl | exact fun _ => id | exact fun _ _ => rfl | rfl | split | intro _

theorem keeps_readTileScales (h : Keeps lv s0 s) (src w : Opd) (fmt nb : Nat) : Keeps lv s0 (readTileScales src w fmt nb s).2 := by
  refine Keeps.foldlS (fun a : Word × State => a.2) _ _ (fun b a k => ?_) _ h
  refine Keeps.foldlS (fun a : Word × State => a.2) _ _ (fun t a k => ?_) _ k
  refine Keeps.foldlS (fun a : Word × State => a.2) _ _ (fun g a k => ?_) _ k
  exact keeps_hbmReadVia k _ _ _

theorem keeps_writePos (h : Keeps lv s0 s) (core lm p : Nat) (col : Bool) (o : ConvOut) : Keeps lv s0 (writePos core lm p col o s) := by
  unfold writePos
  try dsimp only
  repeat' first
    | assumption | with_reducible apply Keeps.modCore | with_reducible apply Keeps.forEach | with_reducible apply keeps_putScale
    | with_reducible apply keeps_writeArrRow | with_reducible apply keeps_writeArrCol | with_reducible apply keeps_setPosTag
    | exact id | exact fun _ => rfl | exact fun _ => id | exact fun _ _ => rfl | rfl | split | intro _

theorem keeps_posBusy (h : Keeps lv s0 s) (core : Nat) : Keeps lv s0 (posBusy core s) := by
  unfold posBusy
  try dsimp only
  repeat' first | assumption | with_reducible apply keeps_stickyEvent

theorem keeps_posPart (h : Keeps lv s0 s) (core : Nat) (op : Op) (b n : Nat) (col : Bool) (vals : List Elem) (x : Nat × Nat) : Keeps lv s0 (posPart core op b n col vals x s) := by
  unfold posPart
  try dsimp only
  repeat' first
    | assumption | with_reducible apply keeps_addWatch | with_reducible apply keeps_opMd | with_reducible apply keeps_writePos
    | with_reducible apply keeps_posBusy | exact id | exact fun _ => rfl | exact fun _ => id | exact fun _ _ => rfl | rfl
    | split

theorem keeps_evictPart (h : Keeps lv s0 s) (core : Nat) (n : Nat) (col : Bool) (x : Nat × Nat) : Keeps lv s0 (evictPart core n col x s) := by
  unfold evictPart
  try dsimp only
  repeat' first
    | assumption | with_reducible apply keeps_setPosTag | with_reducible apply keeps_posBusy | exact id | exact fun _ => rfl
    | exact fun _ => id | exact fun _ _ => rfl | rfl | split

theorem keeps_doWpos (h : Keeps lv s0 s) (core : Nat) (op : Op) (b i : Nat) : Keeps lv s0 (doWpos core op b i s) := by
  unfold doWpos
  try dsimp only
  repeat' first
    | assumption | with_reducible apply Keeps.forEach | with_reducible apply keeps_readRow | with_reducible apply keeps_opMd
    | with_reducible apply keeps_posPart | with_reducible apply keeps_evictPart
    | exact id | exact fun _ => rfl | exact fun _ => id | exact fun _ _ => rfl | rfl | split | intro _

theorem keeps_setMacSt (h : Keeps lv s0 s) (core lm : Nat) (m : MacroSt) : Keeps lv s0 (setMacSt core lm m s) := by
  unfold setMacSt
  try dsimp only
  repeat' first | assumption | with_reducible apply Keeps.modCore

theorem keeps_fillPort (h : Keeps lv s0 s) (core port : Nat) : Keeps lv s0 (fillPort core port s) := by
  unfold fillPort
  try dsimp only
  repeat' first
    | assumption | with_reducible apply Keeps.forEach | with_reducible apply keeps_pushQueue
    | exact id | exact fun _ => rfl | exact fun _ => id | exact fun _ _ => rfl | rfl | split | intro _

theorem keeps_dropRequest (h : Keeps lv s0 s) (core lm : Nat) : Keeps lv s0 (dropRequest core lm s) := by
  unfold dropRequest
  try dsimp only
  repeat' first
    | assumption | with_reducible apply keeps_popQueue
    | exact id | exact fun _ => rfl | exact fun _ => id | exact fun _ _ => rfl | rfl | split | intro _

theorem keeps_startTile (h : Keeps lv s0 s) (core lm : Nat) (t : Tile) : Keeps lv s0 (startTile core lm t s) := by
  unfold startTile
  try dsimp only
  repeat' first
    | assumption | with_reducible apply keeps_setMacSt | with_reducible apply keeps_fillPort
    | exact id | exact fun _ => rfl | exact fun _ => id | exact fun _ _ => rfl | rfl | split | intro _

theorem keeps_refuseTile (h : Keeps lv s0 s) (core lm : Nat) (t : Tile) : Keeps lv s0 (refuseTile core lm t s) := by
  unfold refuseTile
  try dsimp only
  repeat' first
    | assumption | with_reducible apply keeps_stickyEvent | with_reducible apply keeps_startTile
    | exact id | exact fun _ => rfl | exact fun _ => id | exact fun _ _ => rfl | rfl | split | intro _

theorem keeps_passInto (h : Keeps lv s0 s) (core lm P nValid : Nat) (al : Align) (t : Tile) :
    Keeps lv s0 (passInto core lm P nValid al t s).2 := by
  unfold passInto
  exact keeps_passEffects h _ _ _ _ _ _

theorem keeps_fwdTile (h : Keeps lv s0 s) (core : Nat) (op : Op) (b m c kt nt : Nat) (md : Word) (xs : List (Elem × Rnd)) :
    Keeps lv s0 (fwdTile core op b m c kt nt md xs s) := by
  unfold fwdTile
  extract_lets x d n lm st first P left t al t1
  split
  · split
    · exact keeps_refuseTile h _ _ _
    · generalize e : passInto core lm P (min n (op.ext.n - first)) al _ s = r
      have k : Keeps lv s0 r.2 := e ▸ keeps_passInto h core lm P _ al _
      clear_value x d n lm st first P left al t1
      obtain ⟨t2, s2⟩ := r
      exact keeps_startTile k _ _ _
  · split
    · exact h
    · extract_lets al2
      generalize e : passInto core lm P (min n (op.ext.n - first)) al2 _ s = r
      have k : Keeps lv s0 r.2 := e ▸ keeps_passInto h core lm P _ al2 _
      clear_value x d n lm st first P left al2
      obtain ⟨t2, s2⟩ := r
      exact keeps_setMacSt k _ _ _

theorem keeps_readDriven (h : Keeps lv s0 s) (core : Nat) (op : Op) (b m n : Nat) : Keeps lv s0 (readDriven core op b m n s).s := by
  unfold readDriven
  try dsimp only
  repeat' first
    | assumption | with_reducible apply keeps_addWatch | with_reducible apply keeps_readRow
    | exact id | exact fun _ => rfl | exact fun _ => id | exact fun _ _ => rfl | rfl | split | intro _

theorem keeps_fwdPassOf (h : Keeps lv s0 s) (core : Nat) (op : Op) (b m c bi : Nat) (r : Driven) (t : Nat × Nat) : Keeps lv s0 (fwdPassOf core op b m c bi r t s) := by
  unfold fwdPassOf
  try dsimp only
  repeat' first
    | assumption | with_reducible apply keeps_fwdTile
    | exact id | exact fun _ => rfl | exact fun _ => id | exact fun _ _ => rfl | rfl | split | intro _

theorem keeps_doFwd (h : Keeps lv s0 s) (core : Nat) (op : Op) (b m : Nat) : Keeps lv s0 (doFwd core op b m s) := by
  unfold doFwd
  try dsimp only
  repeat' first
    | assumption | with_reducible apply Keeps.forEach | with_reducible apply keeps_readDriven
    | with_reducible apply keeps_fwdPassOf
    | exact id | exact fun _ => rfl | exact fun _ => id | exact fun _ _ => rfl | rfl | split | intro _

theorem keeps_readChain (h : Keeps lv s0 s) (core : Nat) (op : Op) (m n : Nat) : Keeps lv s0 (readChain core op m n s).2 :=
  Keeps.foldlS (fun a : List Driven × State => a.2) _ _ (fun _ _ k => keeps_readDriven k _ _ _ _ _) _ h

theorem keeps_doChain (h : Keeps lv s0 s) (core : Nat) (op : Op) (m : Nat) : Keeps lv s0 (doChain core op m s) := by
  unfold doChain
  try dsimp only
  repeat' first
    | assumption | with_reducible apply Keeps.forEach | with_reducible apply keeps_fwdPassOf
    | with_reducible apply keeps_readChain
    | exact id | exact fun _ => rfl | exact fun _ => id | exact fun _ _ => rfl | rfl | split | intro _

theorem keeps_transTile (h : Keeps lv s0 s) (core : Nat) (op : Op) (b m kt g nt : Nat) (md : Word) (ys : List (Elem × Rnd)) :
    Keeps lv s0 (transTile core op b m kt g nt md ys s) := by
  unfold transTile
  extract_lets x d lm P k0 al rows t rp a t1
  split
  · exact keeps_refuseTile h _ _ _
  · generalize e : passEffects core lm false _ _ _ s = r
    have k : Keeps lv s0 r.2 := e ▸ keeps_passEffects h core lm _ _ _ _
    clear_value rp a t1 t
    obtain ⟨t3, s3⟩ := r
    exact keeps_startTile k _ _ _

theorem keeps_doTrans (h : Keeps lv s0 s) (core : Nat) (op : Op) (b m : Nat) : Keeps lv s0 (doTrans core op b m s) := by
  unfold doTrans
  extract_lets x d c r
  have k : Keeps lv s0 r.s := keeps_readDriven h _ _ _ _ _
  clear_value r
  refine Keeps.forEach _ _ (fun _ _ k => Keeps.forEach _ _ (fun _ _ k => Keeps.forEach _ _ (fun _ _ k => ?_) k) k) k
  exact keeps_transTile k _ _ _ _ _ _ _ _ _

theorem keeps_doRed (h : Keeps lv s0 s) (core : Nat) (op : Op) (b m : Nat) : Keeps lv s0 (doRed core op b m s) := by
  unfold doRed
  extract_lets x y w n red root mine acc atCore key off one base s1 r es
  have k1 : Keeps lv s0 s1 := by
    unfold s1
    split
    · generalize e : readRun core _ _ _ _ _ _ _ = z
      have k : Keeps lv s0 z.2.2 := e ▸ keeps_readRun h core _ _ _ _ _ _
      obtain ⟨l, md, t⟩ := z
      clear_value root key off base
      rcases root with _ | _ | _ | _
      · exact k
      all_goals exact keeps_enterNode k _ _
    · exact h
  have k2 : Keeps lv s0 r.s := keeps_readRow k1 _ _ _ _ _ _ _ _
  clear_value s1 r es
  refine Keeps.forEach _ _ (fun e t k => ?_) k2
  exact keeps_enterNode k _ _

theorem keeps_fetchKernel (h : Keeps lv s0 s) (core task seg k : Nat) : Keeps lv s0 (fetchKernel core task seg k s).2.2 := by
  unfold fetchKernel
  try dsimp only
  repeat' first
    | assumption | with_reducible apply keeps_spReadS
    | exact id | exact fun _ => rfl | exact fun _ => id | exact fun _ _ => rfl | rfl | split | intro _

theorem keeps_vecResult (h : Keeps lv s0 s) (core : Nat) (l : List Word) : Keeps lv s0 (vecResult core l s).2.2 := by
  unfold vecResult
  try dsimp only
  repeat' first
    | assumption | with_reducible apply keeps_unitCheck
    | exact id | exact fun _ => rfl | exact fun _ => id | exact fun _ _ => rfl | rfl | split | intro _

theorem keeps_epilogue (h : Keeps lv s0 s) (core : Nat) (op : Op) (b : Nat) (vals : List Word) : Keeps lv s0 (epilogue core op b vals s).2.2 := by
  unfold epilogue
  extract_lets v aux s1 r a
  have k1 : Keeps lv s0 s1 := keeps_passQueue h _ _ _
  have k2 : Keeps lv s0 r.s := by
    unfold r
    split
    · exact keeps_readRow k1 _ _ _ _ _ _ _ _
    · exact k1
  clear_value s1 r a
  dsimp -zeta only
  extract_lets i x
  have k3 : Keeps lv s0 x.s := keeps_vecReads (keeps_fetchKernel k2 _ _ _ _) _ _ _ _
  clear_value x
  exact keeps_unitCheck k3 _ _

theorem keeps_enterSide (h : Keeps lv s0 s) (core : Nat) (op : Op) (b m first : Nat) (sq : Bool) (vals : List Word) : Keeps lv s0 (enterSide core op b m first sq vals s) := by
  unfold enterSide
  try dsimp only
  repeat' first
    | assumption | with_reducible apply Keeps.modCore | with_reducible apply keeps_modOp
    | exact id | exact fun _ => rfl | exact fun _ => id | exact fun _ _ => rfl | rfl | split | intro _

theorem keeps_sidePair (h : Keeps lv s0 s) (n : NodeId) (v : Int) : Keeps lv s0 (sidePair n v s).2 :=
  h.whenS _ _ fun _ k => k.setBit _ _

theorem keeps_joinSums (h : Keeps lv s0 s) (n : NodeId) (l : List SideRec) : Keeps lv s0 (joinSums n l s).2 := by
  unfold joinSums
  extract_lets below
  split
  rename_i v o s1 e
  have k : Keeps lv s0 s1 := by
    have k := Keeps.foldlS (fun a : Int × Bool × State => a.2.2) below
      (fun (a : Int × Bool × State) x =>
        match sidePair x.node x.sum a.2.2 with
        | (p, s) => (a.1 + pairInt p.1 p.2.1, a.2.1 || p.2.2, s))
      (fun x a k => keeps_sidePair k x.node x.sum) (0, false, s) h
    rw [e] at k
    exact k
  generalize e2 : sidePair n _ s1 = z
  have k2 : Keeps lv s0 z.2 := e2 ▸ keeps_sidePair k n _
  exact k2

theorem keeps_sideSum (h : Keeps lv s0 s) (l : List SideRec) : Keeps lv s0 (sideSum l s).2 := by
  unfold sideSum
  split
  · exact keeps_sidePair h _ _
  · exact keeps_joinSums h _ _
  · split
    rename_i l1 _ _ _ _ _ v o s1 e
    have k : Keeps lv s0 s1 := by
      have k := Keeps.foldlS (fun a : Int × Bool × State => a.2.2) ((nubN (l1.map fun x => sideDie x.node)).filter fun d => d ≠ 12)
        (fun (a : Int × Bool × State) d =>
          match joinSums (.die d) (l1.filter fun x => sideDie x.node = d) a.2.2 with
          | (p, s) => (a.1 + pairInt p.1 p.2.1, a.2.1 || p.2.2, s))
        (fun x a k => keeps_joinSums k _ _) (0, false, s) h
      rw [e] at k
      exact k
    generalize e2 : sidePair .hub _ s1 = z
    have k2 : Keeps lv s0 z.2 := e2 ▸ keeps_sidePair k .hub _
    exact k2

theorem keeps_doSide (h : Keeps lv s0 s) (core : Nat) (op : Op) (b m : Nat) : Keeps lv s0 (doSide core op b m s) := by
  unfold doSide
  extract_lets l best rest
  split
  rename_i hi lo ovf s1 e
  have k : Keeps lv s0 s1 := by
    have k := keeps_sideSum h l
    rw [e] at k
    exact k
  extract_lets s2
  have k2 : Keeps lv s0 s2 := k.modCore _ _
  clear_value s2 rest
  have k3 := keeps_writeSide k2 core (iTask op.word) op.seg 3 (op.opd 2) (outRows op) rest b m (sideBytes best hi lo)
  exact keeps_modOp k3 _ _ _

theorem keeps_sideOf (h : Keeps lv s0 s) (core : Nat) (op : Op) (b m : Nat) (vals : List Word) : Keeps lv s0 (sideOf core op b m vals s) := by
  unfold sideOf
  try dsimp only
  repeat' first
    | assumption | with_reducible apply keeps_addWatch | with_reducible apply keeps_opMd | with_reducible apply keeps_enterSide
    | exact id | exact fun _ => rfl | exact fun _ => id | exact fun _ _ => rfl | rfl | split | intro _

theorem keeps_convPut (h : Keeps lv s0 s) (core : Nat) (op : Op) (b m : Nat) (vals : List Word) (md : Word) : Keeps lv s0 (convPut core op b m vals md s) := by
  unfold convPut
  try dsimp only
  repeat' first
    | assumption | with_reducible apply keeps_countConv | with_reducible apply keeps_modOp | with_reducible apply keeps_writeRow
    | with_reducible apply keeps_epilogue
    | exact id | exact fun _ => rfl | exact fun _ => id | exact fun _ _ => rfl | rfl | split | intro _

theorem keeps_putRow (h : Keeps lv s0 s) (core : Nat) (op : Op) (b m : Nat) (vals : List Word) (md : Word) :
    Keeps lv s0 (putRow core op b m vals md s) := by
  have k := keeps_sideOf h core op b m vals
  unfold putRow
  dsimp only
  split
  · exact keeps_convPut k _ _ _ _ _ _
  · exact keeps_opMd k _ _ _

theorem keeps_putRaw (h : Keeps lv s0 s) (core : Nat) (op : Op) (b : Nat) (vals : List (Word × Word)) (md : Word) : Keeps lv s0 (putRaw core op b vals md s) := by
  unfold putRaw
  try dsimp only
  repeat' first | assumption | with_reducible apply keeps_modOp | with_reducible apply keeps_writeRun

theorem keeps_doOut (h : Keeps lv s0 s) (core : Nat) (op : Op) (b m : Nat) : Keeps lv s0 (doOut core op b m s) := by
  unfold doOut
  try dsimp only
  repeat' first
    | assumption | with_reducible apply keeps_modOp | with_reducible apply keeps_putRow | with_reducible apply keeps_putRaw
    | exact id | exact fun _ => rfl | exact fun _ => id | exact fun _ _ => rfl | rfl | split

theorem keeps_deliver (h : Keeps lv s0 s) (k : ElemKey) (hi lo md : Word) : Keeps lv s0 (deliver k hi lo md s) := by
  unfold deliver
  try dsimp only
  repeat' first
    | assumption | with_reducible apply keeps_modOp | exact id | exact fun _ => rfl | exact fun _ => id | exact fun _ _ => rfl
    | rfl | split

theorem keeps_drainTile (h : Keeps lv s0 s) (core lm : Nat) (t : Tile) : Keeps lv s0 (drainTile core lm t s).s := by
  unfold drainTile
  try dsimp only
  repeat' first
    | assumption | with_reducible apply Keeps.forEach | with_reducible apply keeps_detectFault
    | with_reducible apply keeps_unitCheck
    | exact id | exact fun _ => rfl | exact fun _ => id | exact fun _ _ => rfl | rfl | split | intro _

theorem keeps_attPass (h : Keeps lv s0 s) (core : Nat) (op : Op) (d : BitVec 512) (m lm P span nValid : Nat)
    (outs : List (Option Nat)) (xs : List (Elem × Rnd)) : Keeps lv s0 (attPass core op d m lm P span nValid outs xs s).s := by
  unfold attPass
  extract_lets t t1 al
  split
  · exact keeps_stickyEvent h _ _
  · generalize e : passInto core lm P nValid al _ s = r
    have k : Keeps lv s0 r.2 := e ▸ keeps_passInto h core lm P _ al _
    clear_value t1 al
    obtain ⟨t2, s2⟩ := r
    exact keeps_drainTile (keeps_passQueue k _ _ _) _ _ _

theorem keeps_attScores (h : Keeps lv s0 s) (core : Nat) (op : Op) (b m kb q : Nat) (xs : List (Elem × Rnd)) :
    Keeps lv s0 (attScores core op b m kb q xs s).s := by
  unfold attScores
  extract_lets d c L nts x r score
  have k : Keeps lv s0 r.s := by
    refine Keeps.foldlS Drained.s _ _ (fun nt a k => ?_) _ h
    extract_lets first r1
    exact keeps_attPass k _ _ _ _ _ _ _ _ _ _
  clear_value r
  exact k

theorem keeps_loopWrite (h : Keeps lv s0 s) (core : Nat) (p : List Word) : Keeps lv s0 (loopWrite core p s) := h.modCore _ _

theorem keeps_loopRead (h : Keeps lv s0 s) (core : Nat) : Keeps lv s0 (loopRead core s).2 :=
  h.modCore core fun c => { c with loop := c.loop.tail }

theorem keeps_attValues (h : Keeps lv s0 s) (core : Nat) (op : Op) (b m kb : Nat) :
    Keeps lv s0 (attValues core op b m kb s).s := by
  unfold attValues
  generalize e : loopRead core s = z
  have k0 : Keeps lv s0 z.2 := e ▸ keeps_loopRead h core
  obtain ⟨p, s1⟩ := z
  dsimp -zeta only
  extract_lets v d c K len s2 xs
  have k : Keeps lv s0 s2 := keeps_addWatch k0 _ _ _ _ _
  clear_value s2 xs
  split
  · exact k
  · refine Keeps.foldlS Drained.s _ _ (fun nt a k => ?_) _ k
    exact keeps_attPass k _ _ _ _ _ _ _ _ _ _

theorem keeps_attBlock (z : AttRow) (h : Keeps lv s0 z.s) (core : Nat) (op : Op) (b m q : Nat) (xs : List (Elem × Rnd)) (kb : Nat) : Keeps lv s0 (attBlock core op b m q xs z kb).s := by
  unfold attBlock
  extract_lets all sc
  have k1 : Keeps lv s0 sc.s := keeps_attScores h _ _ _ _ _ _ _
  clear_value all sc
  split
  · exact h
  · exact keeps_attValues (keeps_loopWrite (keeps_passQueue k1 _ _ _) _ _) _ _ _ _ _

theorem keeps_doAtt (h : Keeps lv s0 s) (core : Nat) (op : Op) (b m : Nat) : Keeps lv s0 (doAtt core op b m s) := by
  unfold doAtt
  extract_lets x q r xs a empty out md st rest s1
  have k1 : Keeps lv s0 r.s := keeps_readDriven h _ _ _ _ _
  have k2 : Keeps lv s0 a.s := Keeps.foldlS AttRow.s _ _ (fun kb z k => keeps_attBlock z k _ _ _ _ _ _ _) _ k1
  clear_value a
  have k3 : Keeps lv s0 s1 := by
    unfold s1
    split
    · have k := keeps_writeSide k2 core (iTask op.word) op.seg 4 st (outRows op) rest b m (statBytes a)
      exact keeps_opMd k _ _ _
    · exact k2
  clear_value s1
  exact keeps_putRow k3 _ _ _ _ _ _

theorem keeps_readTensor (h : Keeps lv s0 s) (core : Nat) (op : Op) (o : Opd) (b : Nat) :
    Keeps lv s0 (readTensor core op o b s).s :=
  Keeps.foldlS VecIn.s _ _ (fun _ _ k => keeps_readRow k _ _ _ _ _ _ _ _) _ h

theorem keeps_putVec (h : Keeps lv s0 s) (core : Nat) (op : Op) (b m : Nat) (kb : Bool) (o : ConvOut) : Keeps lv s0 (putVec core op b m kb o s) := by
  unfold putVec
  try dsimp only
  repeat' first
    | assumption | with_reducible apply keeps_countConv | with_reducible apply keeps_modOp | with_reducible apply keeps_writeRow
    | exact id | exact fun _ => rfl | exact fun _ => id | exact fun _ _ => rfl | rfl | split | intro _

theorem keeps_doVec (h : Keeps lv s0 s) (core : Nat) (op : Op) (b : Nat) : Keeps lv s0 (doVec core op b s) := by
  unfold doVec
  generalize e : fetchKernel core (iTask op.word) op.seg (iKernel op.word) s = z
  have k0 : Keeps lv s0 z.2.2 := e ▸ keeps_fetchKernel h _ _ _ _
  obtain ⟨code, md0, s1⟩ := z
  dsimp -zeta only
  extract_lets a bb i v i2 s2 s4 kb rows
  have ka : Keeps lv s0 a.s := keeps_readTensor k0 _ _ _ _
  have kb' : Keeps lv s0 bb.s := keeps_readTensor ka _ _ _ _
  have kv : Keeps lv s0 v.s := keeps_vecReads kb' _ _ _ _
  have k2 : Keeps lv s0 s2 := keeps_opMd kv _ _ _
  clear_value a bb i v i2 s2
  have k4 : Keeps lv s0 s4 := keeps_opMd (keeps_unitCheck k2 _ _) _ _ _
  clear_value s4 rows
  split
  · exact k4.setReg _ _
  · refine Keeps.forEach _ _ (fun r t k => ?_) k4
    split
    · exact k
    · exact keeps_putVec k _ _ _ _ _ _

theorem keeps_updByte (z : HbmWr) (h : Keeps lv s0 z.s) (x : Nat × Byte) : Keeps lv s0 (updByte x z).s := by
  unfold updByte
  try dsimp only
  repeat' first
    | assumption | with_reducible apply keeps_hbmStore | exact id | exact fun _ => rfl | exact fun _ => id
    | exact fun _ _ => rfl | rfl | split

theorem keeps_updWrite (h : Keeps lv s0 s) (a : Nat) (l : List Byte) : Keeps lv s0 (updWrite a l s) := by
  unfold updWrite
  try dsimp only
  repeat' first
    | assumption | with_reducible apply Keeps.whenS | with_reducible apply Keeps.foldl
    | with_reducible apply Keeps.foldlS HbmWr.s | with_reducible apply keeps_stickyEvent | with_reducible apply keeps_updByte
    | exact id | exact fun _ => rfl | exact fun _ => id | exact fun _ _ => rfl | rfl | split | intro _

theorem keeps_updCopy (h : Keeps lv s0 s) (r : Nat × Region) : Keeps lv s0 (updCopy s r) := by
  refine Keeps.forEach _ _ (fun i t k => ?_) h
  dsimp only
  split
  · exact k
  · exact keeps_copyUnit k _

theorem keeps_updRow (h : Keeps lv s0 s) (core : Nat) (op : Op) (o : Opd) (b m : Nat) (vals : List Word) : Keeps lv s0 (updRow core op o b m vals s) := by
  unfold updRow
  try dsimp only
  repeat' first
    | assumption | with_reducible apply keeps_countConv | with_reducible apply keeps_opMd | with_reducible apply keeps_updWrite

theorem keeps_updNarrow (h : Keeps lv s0 s) (core : Nat) (op : Op) (b : Nat) (w1 : List (List Word)) : Keeps lv s0 (updNarrow core op b w1 s) := by
  unfold updNarrow
  try dsimp only
  repeat' first
    | assumption | with_reducible apply Keeps.forEach | with_reducible apply Keeps.foldl | with_reducible apply keeps_hbmRead
    | with_reducible apply keeps_countConv | with_reducible apply keeps_modOp | with_reducible apply keeps_opMd
    | with_reducible apply keeps_updWrite | exact id | exact fun _ => rfl | exact fun _ => id | exact fun _ _ => rfl | rfl
    | split | intro _

theorem keeps_doUpd (h : Keeps lv s0 s) (core : Nat) (op : Op) (b : Nat) : Keeps lv s0 (doUpd core op b s) := by
  unfold doUpd
  extract_lets k skip s1 g w m v s2 at' gAt el badG bad count fix put w1 s3 s4 s5 s6 s7 s8 s9
  have k1 : Keeps lv s0 s1 := by
    unfold s1
    split
    · exact Keeps.foldl _ _ (fun _ _ k => keeps_updCopy k _) h
    · exact h
  have kg : Keeps lv s0 g.s := keeps_readTensor k1 _ _ _ _
  have kw : Keeps lv s0 w.s := keeps_readTensor kg _ _ _ _
  have km : Keeps lv s0 m.s := by
    clear_value w
    unfold m
    split
    · exact keeps_readTensor kw _ _ _ _
    · exact kw
  have kv : Keeps lv s0 v.s := by
    clear_value m
    unfold v
    split
    · exact keeps_readTensor km _ _ _ _
    · exact km
  have k2 : Keeps lv s0 s2 := keeps_opMd kv _ _ _
  have kput : ∀ o rows t, Keeps lv s0 t → Keeps lv s0 (put o rows t) := fun o rows t k =>
    Keeps.forEach _ _ (fun _ _ k => keeps_updRow k _ _ _ _ _ _) k
  clear_value s2 put
  have k3 : Keeps lv s0 s3 :=
    Keeps.whenS _ _ (fun _ k => keeps_addWatch (keeps_addWatch k _ _ _ _ _) _ _ _ _ _) k2
  clear_value s3
  have k4 : Keeps lv s0 s4 := Keeps.whenS _ _ (fun _ k => keeps_addWatch k _ _ _ _ _) k3
  clear_value s4
  have k5 : Keeps lv s0 s5 := Keeps.whenS _ _ (fun _ k => keeps_addWatch k _ _ _ _ _) k4
  clear_value s5
  have k6 : Keeps lv s0 s6 := kput _ _ _ k5
  have k7 : Keeps lv s0 s7 := Keeps.whenS _ _ (fun _ k => kput _ _ _ k) k6
  have k8 : Keeps lv s0 s8 := Keeps.whenS _ _ (fun _ k => kput _ _ _ k) k7
  clear_value s8
  have k9 : Keeps lv s0 s9 := keeps_updNarrow k8 _ _ _ _
  clear_value s9
  exact keeps_modOp k9 _ _ _

theorem keeps_settleUpd (h : Keeps lv s0 s) (core : Nat) (op : Op) : Keeps lv s0 (settleUpd core op s) := by
  unfold settleUpd
  try dsimp only
  repeat' first
    | assumption | with_reducible apply Keeps.setBit | with_reducible apply Keeps.addCnt | with_reducible apply Keeps.modCore
    | with_reducible apply Keeps.modCur | with_reducible apply keeps_stage0 | exact id | exact fun _ => rfl | exact fun _ => id
    | exact fun _ _ => rfl | rfl | split

end Sys2Proof.Machine
end

