-- ==== Sys2Proof/Laws/KeepsEngine.lean ====
section
/-! SUPPORT. `Keeps` (Laws/Keeps.lean) for every function from states to states of the engine, the macro-instructions and the drain. -/

set_option maxRecDepth 4000

namespace Sys2Proof.Machine

variable {lv : Nat} {s0 s : State}

theorem keeps_runItem (h : Keeps lv s0 s) (core : Nat) (op : Op) (i : Item) : Keeps lv s0 (runItem core op i s) := by
  cases i
  · exact keeps_doFwd h _ _ _ _
  · exact keeps_doChain h _ _ _
  · exact keeps_doTrans h _ _ _ _
  · exact keeps_doAtt h _ _ _ _
  · exact keeps_doRed h _ _ _ _
  · exact keeps_doMove h _ _ _ _
  · exact keeps_doShpLoad h _ _
  · exact keeps_doWall h _ _ _
  · exact keeps_doWpos h _ _ _ _
  · exact keeps_doVec h _ _ _
  · exact keeps_doUpd h _ _ _
  · exact keeps_doOut h _ _ _ _
  · exact keeps_doSide h _ _ _ _

theorem keeps_stepItem (h : Keeps lv s0 s) (core : Nat) (op : Op) (i : Item) (rest : List Item) : Keeps lv s0 (stepItem core op i rest s) := by
  unfold stepItem
  try dsimp only
  repeat' first
    | assumption | with_reducible apply Keeps.forEach | with_reducible apply keeps_setEmpty | with_reducible apply keeps_modOp
    | with_reducible apply keeps_runItem | exact id | exact fun _ => rfl | exact fun _ => id | exact fun _ _ => rfl | rfl
    | split | intro _

theorem keeps_runItems (h : Keeps lv s0 s) (core seq n : Nat) : Keeps lv s0 (runItems core seq n s) := by
  induction n generalizing s with
  | zero => exact h
  | succ n ih =>
    unfold runItems
    split
    · exact h
    · split
      · exact h
      · split
        · exact h
        · split
          · exact keeps_waitOnSlot (keeps_modOp h _ _ _) _ _ _
          · exact ih (keeps_stepItem h _ _ _ _)

theorem keeps_wakeSide (h : Keeps lv s0 s) (core : Nat) (op : Op) : Keeps lv s0 (wakeSide core op s) := by
  unfold wakeSide
  dsimp only
  repeat' split
  all_goals first | exact h | exact keeps_runItems h _ _ _

theorem keeps_goOn (h : Keeps lv s0 s) (core seq : Nat) : Keeps lv s0 (goOn core seq s) := by
  unfold goOn
  repeat' split
  all_goals first | exact h | exact keeps_wakeSide (keeps_runItems h _ _ _) _ _

theorem keeps_issueOp (h : Keeps lv s0 s) (core : Nat) (op : Op) : Keeps lv s0 (issueOp core op s) := by
  unfold issueOp
  try dsimp only
  repeat' first
    | assumption | with_reducible apply keeps_putInFlight | with_reducible apply keeps_goOn
    | exact id | exact fun _ => rfl | exact fun _ => id | exact fun _ _ => rfl | rfl | split | intro _

theorem keeps_completeInstr (h : Keeps lv s0 s) (core seq : Nat) : Keeps lv s0 (completeInstr core seq s) := by
  unfold completeInstr
  split
  · exact h
  · rename_i op _
    extract_lets s1
    have k : Keeps lv s0 s1 := by
      unfold s1
      split
      · exact keeps_runItems (keeps_popQueue h _ _ _) _ _ _
      · exact h
    clear_value s1
    split
    · exact k
    · split
      · split
        · exact keeps_completeOp (keeps_settleUpd k _ _) _ _
        · exact keeps_completeOp k _ _
      · exact k

theorem keeps_landWaiting (h : Keeps lv s0 s) (core slot : Nat) : Keeps lv s0 (landWaiting core slot s) := by
  unfold landWaiting
  try dsimp only
  repeat' first
    | assumption | with_reducible apply Keeps.forEach | with_reducible apply keeps_takeWr
    | with_reducible apply keeps_sendPacket | exact id | exact fun _ => rfl | exact fun _ => id | exact fun _ _ => rfl | rfl
    | split | intro _
  all_goals (with_reducible apply Keeps.rest)
  repeat' assumption

theorem keeps_releaseWait (h : Keeps lv s0 s) (core slot : Nat) : Keeps lv s0 (releaseWait core slot s) := by
  unfold releaseWait
  try dsimp only
  repeat' first
    | assumption | with_reducible apply Keeps.modCore | with_reducible apply keeps_modOp | with_reducible apply keeps_goOn
    | with_reducible apply keeps_landWaiting
    | exact id | exact fun _ => rfl | exact fun _ => id | exact fun _ _ => rfl | rfl | split | intro _

theorem keeps_boundEvent (h : Keeps lv s0 s) (core : Nat) (op : Op) : Keeps lv s0 (boundEvent core op s) := by
  unfold boundEvent
  try dsimp only
  repeat' first | assumption | with_reducible apply keeps_stageEvent | with_reducible apply keeps_opMd

theorem keeps_stopKernel (h : Keeps lv s0 s) (core seq : Nat) : Keeps lv s0 (stopKernel core seq s) := by
  unfold stopKernel
  split
  · exact h
  · split
    · exact keeps_boundEvent ((keeps_modOp (keeps_runItems (keeps_popQueue h.usedFree _ _ _) _ _ _) _ _ _).modCore _ _) _ _
    · split
      · exact keeps_boundEvent (keeps_modOp h _ _ _) _ _
      · exact h

theorem keeps_startMove (h : Keeps lv s0 s) (srcLoc dstLoc : List Nat) (core : Nat) (w : BitVec 256) (seq : Nat) : Keeps lv s0 (startMove srcLoc dstLoc core w seq s) := by
  unfold startMove
  try dsimp only
  repeat' first
    | assumption | with_reducible apply keeps_doneAtIssue | with_reducible apply keeps_refuseAtIssue
    | with_reducible apply keeps_shapeClamp | with_reducible apply keeps_issueOp | exact id | exact fun _ => rfl
    | exact fun _ => id | exact fun _ _ => rfl | rfl | split

theorem keeps_startShpLoad (h : Keeps lv s0 s) (core : Nat) (w : BitVec 256) (seq : Nat) : Keeps lv s0 (startShpLoad core w seq s) := by
  unfold startShpLoad
  try dsimp only
  repeat' first
    | assumption | with_reducible apply keeps_doneAtIssue | with_reducible apply keeps_refuseAtIssue
    | with_reducible apply keeps_shapeClamp | with_reducible apply keeps_issueOp | exact id | exact fun _ => rfl
    | exact fun _ => id | exact fun _ _ => rfl | rfl | split

theorem keeps_runLoad (h : Keeps lv s0 s) (core : Nat) (w : BitVec 256) : Keeps lv s0 (runLoad core w s) := by
  unfold runLoad
  try dsimp only
  repeat' first
    | assumption | with_reducible apply keeps_attempt | with_reducible apply keeps_startMove
    | with_reducible apply keeps_startShpLoad | exact id | exact fun _ => rfl | exact fun _ => id | exact fun _ _ => rfl | rfl
    | split | intro _

theorem keeps_runStore (h : Keeps lv s0 s) (core : Nat) (w : BitVec 256) : Keeps lv s0 (runStore core w s) := by
  unfold runStore
  try dsimp only
  repeat' first
    | assumption | with_reducible apply keeps_attempt | with_reducible apply keeps_startMove | exact id | exact fun _ => rfl
    | exact fun _ => id | exact fun _ _ => rfl | rfl | split | intro _

theorem keeps_runSend (h : Keeps lv s0 s) (core : Nat) (w : BitVec 256) : Keeps lv s0 (runSend core w s) := by
  unfold runSend
  try dsimp only
  repeat' first
    | assumption | with_reducible apply keeps_attempt | with_reducible apply keeps_startMove | exact id | exact fun _ => rfl
    | exact fun _ => id | exact fun _ _ => rfl | rfl | split | intro _

theorem keeps_startWriteAll (h : Keeps lv s0 s) (core : Nat) (w : BitVec 256) (seq : Nat) (src tw : Opd) (nb : Nat) (md : Word) : Keeps lv s0 (startWriteAll core w seq src tw nb md s) := by
  unfold startWriteAll
  try dsimp only
  repeat' first
    | assumption | with_reducible apply keeps_refuseAtIssue | with_reducible apply keeps_readTileScales
    | with_reducible apply keeps_issueOp
    | exact id | exact fun _ => rfl | exact fun _ => id | exact fun _ _ => rfl | rfl | split | intro _

theorem keeps_startWritePos (h : Keeps lv s0 s) (core : Nat) (w : BitVec 256) (seq : Nat) (src tw : Opd) (nb : Nat) (md : Word) : Keeps lv s0 (startWritePos core w seq src tw nb md s) := by
  unfold startWritePos
  try dsimp only
  repeat' first
    | assumption | with_reducible apply keeps_doneAtIssue | with_reducible apply keeps_refuseAtIssue
    | with_reducible apply keeps_shapeClamp | with_reducible apply keeps_issueOp | exact id | exact fun _ => rfl
    | exact fun _ => id | exact fun _ _ => rfl | rfl | split

theorem keeps_startWriteW (h : Keeps lv s0 s) (core : Nat) (w : BitVec 256) (seq : Nat) : Keeps lv s0 (startWriteW core w seq s) := by
  unfold startWriteW
  try dsimp only
  repeat' first
    | assumption | with_reducible apply keeps_doneAtIssue | with_reducible apply keeps_refuseAtIssue
    | with_reducible apply keeps_shapeClamp | with_reducible apply keeps_startWriteAll
    | with_reducible apply keeps_startWritePos | exact id | exact fun _ => rfl | exact fun _ => id | exact fun _ _ => rfl | rfl
    | split

theorem keeps_runWriteW (h : Keeps lv s0 s) (core : Nat) (w : BitVec 256) : Keeps lv s0 (runWriteW core w s) := by
  unfold runWriteW
  try dsimp only
  repeat' first
    | assumption | with_reducible apply keeps_attempt | with_reducible apply keeps_startWriteW | exact id | exact fun _ => rfl
    | exact fun _ => id | exact fun _ _ => rfl | rfl | split | intro _

theorem keeps_issueCompute (h : Keeps lv s0 s) (core : Nat) (op : Op) : Keeps lv s0 (issueCompute core op s) := by
  unfold issueCompute
  try dsimp only
  repeat' first
    | assumption | with_reducible apply Keeps.whenS | with_reducible apply keeps_signalDone
    | with_reducible apply keeps_doneAtIssue | with_reducible apply keeps_refuseAtIssue | with_reducible apply keeps_putInFlight
    | with_reducible apply keeps_goOn
    | exact id | exact fun _ => rfl | exact fun _ => id | exact fun _ _ => rfl | rfl | split | intro _

theorem keeps_planCompute (h : Keeps lv s0 s) (core : Nat) (op : Op) : Keeps lv s0 (planCompute core op s) := by
  unfold planCompute
  try dsimp only
  repeat' first
    | assumption | with_reducible apply Keeps.send | with_reducible apply keeps_putInFlight
    | with_reducible apply keeps_issueCompute | exact id | exact fun _ => rfl | exact fun _ => id | exact fun _ _ => rfl | rfl
    | split

theorem keeps_startProduct (h : Keeps lv s0 s) (reserved : List (Nat × Nat)) (core : Nat) (w : BitVec 256) (seq : Nat) : Keeps lv s0 (startProduct reserved core w seq s) := by
  unfold startProduct
  try dsimp only
  repeat' first
    | assumption | with_reducible apply keeps_doneAtIssue | with_reducible apply keeps_refuseAtIssue
    | with_reducible apply keeps_shapeClamp | with_reducible apply keeps_planCompute | exact id | exact fun _ => rfl
    | exact fun _ => id | exact fun _ _ => rfl | rfl | split

theorem keeps_runMatmul (h : Keeps lv s0 s) (core : Nat) (w : BitVec 256) : Keeps lv s0 (runMatmul core w s) := by
  unfold runMatmul
  try dsimp only
  repeat' first
    | assumption | with_reducible apply keeps_attempt | with_reducible apply keeps_startProduct | exact id | exact fun _ => rfl
    | exact fun _ => id | exact fun _ _ => rfl | rfl | split | intro _

theorem keeps_runMatmulT (h : Keeps lv s0 s) (core : Nat) (w : BitVec 256) : Keeps lv s0 (runMatmulT core w s) := by
  unfold runMatmulT
  try dsimp only
  repeat' first
    | assumption | with_reducible apply keeps_attempt | with_reducible apply keeps_startProduct | exact id | exact fun _ => rfl
    | exact fun _ => id | exact fun _ _ => rfl | rfl | split | intro _

theorem keeps_startAttend (h : Keeps lv s0 s) (core : Nat) (w : BitVec 256) (seq : Nat) : Keeps lv s0 (startAttend core w seq s) := by
  unfold startAttend
  try dsimp only
  repeat' first
    | assumption | with_reducible apply keeps_doneAtIssue | with_reducible apply keeps_refuseAtIssue
    | with_reducible apply keeps_shapeClamp | with_reducible apply keeps_planCompute | exact id | exact fun _ => rfl
    | exact fun _ => id | exact fun _ _ => rfl | rfl | split

theorem keeps_runAttend (h : Keeps lv s0 s) (core : Nat) (w : BitVec 256) : Keeps lv s0 (runAttend core w s) := by
  unfold runAttend
  try dsimp only
  repeat' first
    | assumption | with_reducible apply keeps_attempt | with_reducible apply keeps_startAttend | exact id | exact fun _ => rfl
    | exact fun _ => id | exact fun _ _ => rfl | rfl | split | intro _

theorem keeps_startReduce (h : Keeps lv s0 s) (core : Nat) (w : BitVec 256) (seq : Nat) : Keeps lv s0 (startReduce core w seq s) := by
  unfold startReduce
  try dsimp only
  repeat' first
    | assumption | with_reducible apply keeps_doneAtIssue | with_reducible apply keeps_refuseAtIssue
    | with_reducible apply keeps_shapeClamp | with_reducible apply keeps_issueOp | exact id | exact fun _ => rfl
    | exact fun _ => id | exact fun _ _ => rfl | rfl | split

theorem keeps_runReduce (h : Keeps lv s0 s) (core : Nat) (w : BitVec 256) : Keeps lv s0 (runReduce core w s) := by
  unfold runReduce
  try dsimp only
  repeat' first
    | assumption | with_reducible apply keeps_attempt | with_reducible apply keeps_startReduce | exact id | exact fun _ => rfl
    | exact fun _ => id | exact fun _ _ => rfl | rfl | split | intro _

theorem keeps_dropOp (h : Keeps lv s0 s) (core seq : Nat) : Keeps lv s0 (dropOp core seq s) := by
  unfold dropOp
  try dsimp only
  repeat' first | assumption | with_reducible apply Keeps.modCore

theorem keeps_refuseOp (h : Keeps lv s0 s) (core : Nat) (op : Op) (sticky : List (Nat × Nat)) : Keeps lv s0 (refuseOp core op sticky s) := by
  unfold refuseOp
  try dsimp only
  repeat' first
    | assumption | with_reducible apply keeps_signalDone | with_reducible apply keeps_refusal
    | with_reducible apply keeps_dropOp
    | exact id | exact fun _ => rfl | exact fun _ => id | exact fun _ _ => rfl | rfl | split | intro _

theorem keeps_planReply (h : Keeps lv s0 s) (core seq : Nat) : Keeps lv s0 (planReply core seq s) := by
  unfold planReply
  try dsimp only
  repeat' first
    | assumption | with_reducible apply Keeps.modCore | with_reducible apply Keeps.whenS | with_reducible apply keeps_signalDone
    | with_reducible apply keeps_goOn | with_reducible apply keeps_dropOp | with_reducible apply keeps_refuseOp
    | exact id | exact fun _ => rfl | exact fun _ => id | exact fun _ _ => rfl | rfl | split | intro _

theorem keeps_planTimeout (h : Keeps lv s0 s) (core seq : Nat) : Keeps lv s0 (planTimeout core seq s) := by
  unfold planTimeout
  try dsimp only
  repeat' first
    | assumption | with_reducible apply Keeps.setBit | with_reducible apply keeps_detectFault | with_reducible apply keeps_modOp
    | exact id | exact fun _ => rfl | exact fun _ => id | exact fun _ _ => rfl | rfl | split

theorem keeps_startVecop (h : Keeps lv s0 s) (core : Nat) (w : BitVec 256) (seq : Nat) : Keeps lv s0 (startVecop core w seq s) := by
  unfold startVecop
  try dsimp only
  repeat' first
    | assumption | with_reducible apply keeps_doneAtIssue | with_reducible apply keeps_refuseAtIssue
    | with_reducible apply keeps_shapeClamp | with_reducible apply keeps_issueOp | exact id | exact fun _ => rfl
    | exact fun _ => id | exact fun _ _ => rfl | rfl | split

theorem keeps_runVecop (h : Keeps lv s0 s) (core : Nat) (w : BitVec 256) : Keeps lv s0 (runVecop core w s) := by
  unfold runVecop
  try dsimp only
  repeat' first
    | assumption | with_reducible apply keeps_attempt | with_reducible apply keeps_startVecop | exact id | exact fun _ => rfl
    | exact fun _ => id | exact fun _ _ => rfl | rfl | split | intro _

theorem keeps_readRecord (h : Keeps lv s0 s) (core : Nat) (w : BitVec 256) (o : Opd) : Keeps lv s0 (readRecord core w o s).2.2 := by
  unfold readRecord
  try dsimp only
  repeat' first
    | assumption | with_reducible apply keeps_spReadS | with_reducible apply keeps_hbmRead | exact id | exact fun _ => rfl
    | exact fun _ => id | exact fun _ _ => rfl | rfl | split

theorem keeps_startUpdate (h : Keeps lv s0 s) (core : Nat) (w : BitVec 256) (seq : Nat) : Keeps lv s0 (startUpdate core w seq s) := by
  unfold startUpdate
  try dsimp only
  repeat' first
    | assumption | with_reducible apply keeps_doneAtIssue | with_reducible apply keeps_refuseAtIssue
    | with_reducible apply keeps_issueOp | with_reducible apply keeps_readRecord | exact id | exact fun _ => rfl
    | exact fun _ => id | exact fun _ _ => rfl | rfl | split

theorem keeps_runUpdate (h : Keeps lv s0 s) (core : Nat) (w : BitVec 256) : Keeps lv s0 (runUpdate core w s) := by
  unfold runUpdate
  try dsimp only
  repeat' first
    | assumption | with_reducible apply keeps_attempt | with_reducible apply keeps_startUpdate | exact id | exact fun _ => rfl
    | exact fun _ => id | exact fun _ _ => rfl | rfl | split | intro _

theorem keeps_treeEmpty (h : Keeps lv s0 s) (core lm : Nat) : Keeps lv s0 (treeEmpty core lm s) := by
  unfold treeEmpty
  try dsimp only
  repeat' first
    | assumption | with_reducible apply Keeps.setBit | with_reducible apply Keeps.addCnt | with_reducible apply keeps_setMacSt
    | with_reducible apply keeps_fillPort | with_reducible apply keeps_dropRequest
    | exact id | exact fun _ => rfl | exact fun _ => id | exact fun _ _ => rfl | rfl | split | intro _

theorem keeps_enterTerms (z : Drained) (h : Keeps lv s0 z.s) (core : Nat) (t : Tile) : Keeps lv s0 (enterTerms core t z) := by
  unfold enterTerms
  try dsimp only
  repeat' first
    | assumption | with_reducible apply Keeps.forEach | with_reducible apply keeps_enterNode | exact id | exact fun _ => rfl
    | exact fun _ => id | exact fun _ _ => rfl | rfl | split | intro _

theorem keeps_portRead (h : Keeps lv s0 s) (core port : Nat) : Keeps lv s0 (portRead core port s) := by
  unfold portRead
  try dsimp only
  repeat' first
    | assumption | with_reducible apply keeps_setMacSt | with_reducible apply keeps_drainTile
    | with_reducible apply keeps_enterTerms | exact id | exact fun _ => rfl | exact fun _ => id | exact fun _ _ => rfl | rfl
    | split

theorem keeps_passOn (h : Keeps lv s0 s) (node : NodeId) (r : Option Reduction) (a : Acc) : Keeps lv s0 (passOn node r a s) := by
  unfold passOn
  try dsimp only
  repeat' first
    | assumption | with_reducible apply keeps_netWord | with_reducible apply keeps_enterNode
    | with_reducible apply keeps_sendPacket | with_reducible apply keeps_deliver | with_reducible apply keeps_goOn
    | exact id | exact fun _ => rfl | exact fun _ => id | exact fun _ _ => rfl | rfl | split | intro _

theorem keeps_nodeOutput (h : Keeps lv s0 s) (node : NodeId) (k : ElemKey) : Keeps lv s0 (nodeOutput node k s) := by
  unfold nodeOutput
  try dsimp only
  repeat' first
    | assumption | with_reducible apply keeps_unitCheck | with_reducible apply keeps_takePair
    | with_reducible apply keeps_passOn
    | exact id | exact fun _ => rfl | exact fun _ => id | exact fun _ _ => rfl | rfl | split | intro _

theorem keeps_nodeFold (h : Keeps lv s0 s) (node : NodeId) (k : ElemKey) : Keeps lv s0 (nodeFold node k s) := by
  unfold nodeFold
  try dsimp only
  repeat' first
    | assumption | with_reducible apply Keeps.setBit | with_reducible apply Keeps.addCnt | with_reducible apply Keeps.setNode
    | with_reducible apply keeps_retryWaits
    | exact id | exact fun _ => rfl | exact fun _ => id | exact fun _ _ => rfl | rfl | split | intro _

theorem keeps_raiseKindAt (h : Keeps lv s0 s) (fn : DWord) (kind status addr data : Nat) : Keeps lv s0 (raiseKindAt fn kind status addr data s) := by
  unfold raiseKindAt
  try dsimp only
  repeat' first | assumption | with_reducible apply keeps_pushEvent

theorem keeps_raiseKind (h : Keeps lv s0 s) (kind status addr data : Nat) : Keeps lv s0 (raiseKind kind status addr data s) := by
  unfold raiseKind
  try dsimp only
  repeat' first | assumption | with_reducible apply keeps_raiseKindAt

theorem keeps_capacityChanged (h : Keeps lv s0 s) (status : Nat) : Keeps lv s0 (capacityChanged status s) := by
  unfold capacityChanged
  try dsimp only
  repeat' first
    | assumption | with_reducible apply Keeps.setBit | with_reducible apply Keeps.modFx | with_reducible apply Keeps.modImg
    | with_reducible apply Keeps.whenS | with_reducible apply keeps_raiseKind | exact id | exact fun _ => rfl
    | exact fun _ => id | exact fun _ _ => rfl | rfl | split | intro _

theorem keeps_setLinkState (h : Keeps lv s0 s) (i st reason : Nat) : Keeps lv s0 (setLinkState i st reason s) := by
  unfold setLinkState
  try dsimp only
  repeat' first
    | assumption | with_reducible apply Keeps.setFld | with_reducible apply keeps_capacityChanged | exact id
    | exact fun _ => rfl | exact fun _ => id | exact fun _ _ => rfl | rfl | split

theorem keeps_startTraining (h : Keeps lv s0 s) (i : Nat) : Keeps lv s0 (startTraining i s) := by
  unfold startTraining
  try dsimp only
  repeat' first
    | assumption | with_reducible apply Keeps.setReg | with_reducible apply Keeps.modLink | with_reducible apply Keeps.send
    | with_reducible apply keeps_setLinkState

end Sys2Proof.Machine
end

