-- ==== Sys2Proof/Laws/KeepsFrames.lean ====
section
/-! SUPPORT. `Keeps` (Laws/Keeps.lean) for every function from states to states of register access, frames, votes,
verification, activation and the application of results. -/

set_option maxRecDepth 4000

namespace Sys2Proof.Machine

variable {lv : Nat} {s0 s : State}

theorem keeps_setLatch (h : Keeps lv s0 s) (p : Path) (l : Latch) : Keeps lv s0 (setLatch p l s) := by
  unfold setLatch
  try dsimp only
  repeat' first
    | assumption | with_reducible apply Keeps.modPort | with_reducible apply Keeps.modSvc | exact id | exact fun _ => rfl
    | exact fun _ => id | exact fun _ _ => rfl | rfl | split

theorem keeps_peakRead (h : Keeps lv s0 s) (a : Nat) : Keeps lv s0 (peakRead a s) := by
  unfold peakRead
  try dsimp only
  repeat' first | assumption | with_reducible apply Keeps.setFld

theorem keeps_readReg (h : Keeps lv s0 s) (p : Path) (a : Nat) : Keeps lv s0 (readReg p a s).2.2 := by
  unfold readReg
  try dsimp only
  repeat' first
    | assumption | with_reducible apply Keeps.modFx | with_reducible apply Keeps.whenS | with_reducible apply keeps_setLatch
    | with_reducible apply keeps_peakRead | exact id | exact fun _ => rfl | exact fun _ => id | exact fun _ _ => rfl | rfl
    | split | intro _

theorem keeps_clearCounters (h : Keeps lv s0 s) (a : Nat) (v : Word) : Keeps lv s0 (clearCounters a v s) := by
  unfold clearCounters
  try dsimp only
  repeat' first
    | assumption | with_reducible apply Keeps.setFld | with_reducible apply Keeps.forEach | with_reducible apply Keeps.whenS
    | exact id | exact fun _ => rfl | exact fun _ => id | exact fun _ _ => rfl | rfl | split | intro _

theorem keeps_storeReg (h : Keeps lv s0 s) (a : Nat) (v : Word) : Keeps lv s0 (storeReg a v s) := by
  unfold storeReg
  try dsimp only
  repeat' first | assumption | with_reducible apply Keeps.setReg

theorem keeps_flushQueue (h : Keeps lv s0 s) (hub : Bool) (core q : Nat) : Keeps lv s0 (flushQueue hub core q s) := by
  unfold flushQueue
  split
  · split
    · exact (h.modPort _ id (fun _ => Nat.zero_le _) id).setFld _ _ _ _
    · split
      · exact (h.modPort _ (fun _ => Nat.zero_le _) id id).setFld _ _ _ _
      · exact h
  · split
    · exact h
    · exact (h.modCore _ _).setFld _ _ _ _

theorem keeps_linkEnable (h : Keeps lv s0 s) (i : Nat) (v : Word) : Keeps lv s0 (linkEnable i v s) := by
  unfold linkEnable
  try dsimp only
  repeat' first
    | assumption | with_reducible apply keeps_setLinkState | with_reducible apply keeps_startTraining | exact id
    | exact fun _ => rfl | exact fun _ => id | exact fun _ _ => rfl | rfl | split

theorem keeps_writeClEn (h : Keeps lv s0 s) (v : Word) : Keeps lv s0 (writeClEn v s).1 := by
  unfold writeClEn
  split
  · exact h
  · exact (Keeps.forEach _ _ (fun _ _ k => keeps_linkEnable k _ _) h).setReg _ _

theorem keeps_writeClId (h : Keeps lv s0 s) (v : Word) : Keeps lv s0 (writeClId v s).1 := by
  unfold writeClId
  try dsimp only
  repeat' first
    | assumption | with_reducible apply Keeps.setReg | exact id | exact fun _ => rfl | exact fun _ => id | exact fun _ _ => rfl
    | rfl | split

theorem keeps_sourceChanged (h : Keeps lv s0 s) (old : Nat) : Keeps lv s0 (sourceChanged old s) := by
  unfold sourceChanged
  try dsimp only
  repeat' first
    | assumption | with_reducible apply Keeps.clrBit | with_reducible apply Keeps.modTk | with_reducible apply Keeps.whenS
    | exact id | exact fun _ => rfl | exact fun _ => id | exact fun _ _ => rfl | rfl | split | intro _

theorem keeps_writeEffect (h : Keeps lv s0 s) (a : Nat) (v : Word) : Keeps lv s0 (writeEffect a v s).1 := by
  unfold writeEffect
  split
  · split
    · exact keeps_writeClEn h _
    · split
      · exact keeps_writeClId h _
      · split
        · dsimp only; exact h.modBist _
        · split
          · split
            · exact keeps_openDebug h
            · exact h
          · split
            · exact keeps_sourceChanged (keeps_storeReg h _ _) _
            · split
              · exact Keeps.whenS _ _ (fun _ k => keeps_flushQueue k _ _ _) (keeps_storeReg h _ _)
              · exact keeps_clearCounters (keeps_storeReg h _ _) _ _
  · split
    · exact Keeps.whenS _ _ (fun _ k => keeps_flushQueue k _ _ _) (keeps_storeReg h _ _)
    · exact keeps_clearCounters (keeps_storeReg h _ _) _ _
  · exact keeps_clearCounters (keeps_storeReg h _ _) _ _
  · exact h

theorem keeps_arrayWrite (h : Keeps lv s0 s) (core a : Nat) (l : List Byte) : Keeps lv s0 (arrayWrite core a l s) := by
  unfold arrayWrite
  try dsimp only
  repeat' first
    | assumption | with_reducible apply keeps_writeArrBytes
    | exact id | exact fun _ => rfl | exact fun _ => id | exact fun _ _ => rfl | rfl | split | intro _

theorem keeps_windowWordWrite (h : Keeps lv s0 s) (core a : Nat) (v : Word) : Keeps lv s0 (windowWordWrite core a v s).1 := by
  unfold windowWordWrite
  try dsimp only
  repeat' first
    | assumption | with_reducible apply Keeps.setBit | with_reducible apply keeps_arrayWrite
    | exact id | exact fun _ => rfl | exact fun _ => id | exact fun _ _ => rfl | rfl | split | intro _

theorem keeps_writeReg (h : Keeps lv s0 s) (a : Nat) (v : Word) : Keeps lv s0 (writeReg a v s).1 := by
  unfold writeReg
  try dsimp only
  repeat' first
    | assumption | with_reducible apply keeps_writeEffect | with_reducible apply keeps_windowWordWrite
    | exact id | exact fun _ => rfl | exact fun _ => id | exact fun _ _ => rfl | rfl | split | intro _

theorem keeps_readOnPath (h : Keeps lv s0 s) (p : Path) (a : Nat) : Keeps lv s0 (readOnPath p a s) := by
  unfold readOnPath
  try dsimp only
  repeat' first | assumption | with_reducible apply Keeps.send | with_reducible apply keeps_readReg

theorem keeps_writeOnPath (h : Keeps lv s0 s) (p : Path) (a : Nat) (v : Word) : Keeps lv s0 (writeOnPath p a v s) := by
  unfold writeOnPath
  try dsimp only
  repeat' first | assumption | with_reducible apply Keeps.send | with_reducible apply keeps_writeReg

theorem keeps_answerOn (h : Keeps lv s0 s) (port : Nat) (a : Answer) : Keeps lv s0 (answerOn port a s) := by
  refine Keeps.whenS _ _ (fun _ k => k.send _) (h.modPort _ id id fun e => ?_)
  simp only [List.length_drop, List.length_append, List.length_cons, List.length_nil]
  omega

theorem keeps_loadCode (h : Keeps lv s0 s) (core : Nat) (p : Program) : Keeps lv s0 (loadCode core p s) := by
  unfold loadCode
  try dsimp only
  repeat' first
    | assumption | with_reducible apply Keeps.foldl | with_reducible apply keeps_spStore | exact id | exact fun _ => rfl
    | exact fun _ => id | exact fun _ _ => rfl | rfl | split | intro _

theorem keeps_startCore (h : Keeps lv s0 s) (core : Nat) (f : FrameRec) : Keeps lv s0 (startCore core f s) := by
  unfold startCore
  try dsimp only
  repeat' first
    | assumption | with_reducible apply Keeps.setCore | with_reducible apply Keeps.modCore | with_reducible apply Keeps.whenS
    | with_reducible apply keeps_loadCode | exact id | exact fun _ => rfl | exact fun _ => id | exact fun _ _ => rfl | rfl
    | split | intro _

theorem keeps_mapTags (h : Keeps lv s0 s) (f : PosTag → PosTag) : Keeps lv s0 (mapTags f s) := by
  unfold mapTags
  try dsimp only
  all_goals (with_reducible apply Keeps.rest)
  repeat' assumption

theorem keeps_commitSlot (h : Keeps lv s0 s) (w : DWord) (core k : Nat) : Keeps lv s0 (commitSlot w core k s) := by
  unfold commitSlot
  try dsimp only
  repeat' first
    | assumption | with_reducible apply Keeps.setCore | with_reducible apply Keeps.modPort | exact id | exact fun _ => rfl
    | exact fun _ => id | exact fun _ _ => rfl | rfl | split

theorem keeps_commitEst (h : Keeps lv s0 s) (w : DWord) (core : Nat) : Keeps lv s0 (commitEst w core s) := by
  unfold commitEst
  try dsimp only
  repeat' first
    | assumption | with_reducible apply Keeps.setBit | with_reducible apply Keeps.addCnt | with_reducible apply Keeps.modCore
    | with_reducible apply Keeps.forEach | with_reducible apply Keeps.whenS | with_reducible apply keeps_pushEvent | exact id
    | exact fun _ => rfl | exact fun _ => id | exact fun _ _ => rfl | rfl | split | intro _

theorem keeps_commitWatch (h : Keeps lv s0 s) (core : Nat) : Keeps lv s0 (commitWatch core s) := by
  unfold commitWatch
  try dsimp only
  repeat' first
    | assumption | with_reducible apply Keeps.setCore | with_reducible apply Keeps.foldl
    | exact id | exact fun _ => rfl | exact fun _ => id | exact fun _ _ => rfl | rfl | split | intro _

theorem keeps_commitStale (h : Keeps lv s0 s) (w : DWord) (core : Nat) : Keeps lv s0 (commitStale w core s) := by
  unfold commitStale
  try dsimp only
  repeat' first
    | assumption | with_reducible apply Keeps.setReg | with_reducible apply Keeps.setBit | with_reducible apply Keeps.setCore
    | with_reducible apply Keeps.forEach | with_reducible apply Keeps.whenS | with_reducible apply keeps_stageEvent
    | exact id | exact fun _ => rfl | exact fun _ => id | exact fun _ _ => rfl | rfl | split | intro _

theorem keeps_writeHistory (h : Keeps lv s0 s) (w : DWord) : Keeps lv s0 (writeHistory w s) := by
  unfold writeHistory
  split
  · exact h
  · extract_lets l a id header
    clear_value a header l
    split
    · exact keeps_raise0 (h.setBit _ _) _ _ _ _
    · exact h.hbmTo _ (Mem.wf_write _ _ _)

theorem keeps_releaseEvents (h : Keeps lv s0 s) (f : FrameRec) : Keeps lv s0 (releaseEvents f s) := by
  unfold releaseEvents
  try dsimp only
  repeat' first
    | assumption | with_reducible apply Keeps.setBit | with_reducible apply Keeps.addCnt | with_reducible apply Keeps.forEach
    | with_reducible apply Keeps.whenS | with_reducible apply keeps_pushEvent | exact id | exact fun _ => rfl
    | exact fun _ => id | exact fun _ _ => rfl | rfl | split | intro _

theorem keeps_answerInputs (h : Keeps lv s0 s) (f : FrameRec) : Keeps lv s0 (answerInputs f s) := by
  unfold answerInputs
  try dsimp only
  repeat' first
    | assumption | with_reducible apply Keeps.forEach | with_reducible apply keeps_answerOn | exact id | exact fun _ => rfl
    | exact fun _ => id | exact fun _ _ => rfl | rfl | split | intro _

theorem keeps_commitCore (h : Keeps lv s0 s) (w : DWord) (core : Nat) : Keeps lv s0 (commitCore w core s) := by
  unfold commitCore
  try dsimp only
  repeat' first
    | assumption | with_reducible apply Keeps.forEach | with_reducible apply keeps_commitSlot
    | with_reducible apply keeps_commitEst | with_reducible apply keeps_commitWatch | with_reducible apply keeps_commitStale
    | exact id | exact fun _ => rfl | exact fun _ => id | exact fun _ _ => rfl | rfl | split | intro _

theorem keeps_stagingIn (h : Keeps lv s0 s) (f : FrameRec) (act : State → State)
    (ha : ∀ t, Keeps lv s0 t → Keeps lv s0 (act t)) : Keeps lv s0 (stagingIn f act s).2 :=
  (ha _ (h.modCur fun c => { c with events := f.events, beyond := f.beyond })).modCur
    fun c => { c with events := s.fx.cur.events, beyond := s.fx.cur.beyond }

theorem keeps_commitFrame (h : Keeps lv s0 s) (f : FrameRec) : Keeps lv s0 (commitFrame f s) := by
  unfold commitFrame
  split
  · exact keeps_answerInputs (keeps_releaseEvents h _) _
  · extract_lets s1
    have k1 : Keeps lv s0 s1 := keeps_mapTags h _
    clear_value s1
    have k2 := keeps_stagingIn k1 f (forEach (s1.cores.map (·.1)) (commitCore f.wfn))
      fun t k => Keeps.forEach _ _ (fun _ _ k => keeps_commitCore k _ _) k
    generalize stagingIn f _ s1 = z at k2 ⊢
    obtain ⟨f1, s2⟩ := z
    exact keeps_answerInputs (keeps_releaseEvents ((keeps_writeHistory (k2.modImg _ rfl) _).modFx _ id) _) _

theorem keeps_restoreShapes (h : Keeps lv s0 s)  : Keeps lv s0 (restoreShapes s) := by
  unfold restoreShapes
  try dsimp only
  repeat' first
    | assumption | with_reducible apply Keeps.setReg | with_reducible apply Keeps.forEach
    | exact id | exact fun _ => rfl | exact fun _ => id | exact fun _ _ => rfl | rfl | split | intro _

theorem keeps_discardCore (h : Keeps lv s0 s) (core : Nat) : Keeps lv s0 (discardCore core s) := by
  unfold discardCore
  try dsimp only
  repeat' first
    | assumption | with_reducible apply Keeps.setReg | with_reducible apply Keeps.setCore | with_reducible apply Keeps.forEach
    | exact id | exact fun _ => rfl | exact fun _ => id | exact fun _ _ => rfl | rfl | split | intro _

theorem keeps_setShapes (h : Keeps lv s0 s) (mask : BitVec 768) (n : Nat) (v : Word) : Keeps lv s0 (setShapes mask n v s) :=
  Keeps.forEach _ _ (fun _ _ k => k.setReg _ _) h

theorem keeps_repeatShapes (h : Keeps lv s0 s) : Keeps lv s0 (repeatShapes s) :=
  Keeps.forEach _ _ (fun _ _ k => keeps_setShapes k _ _ _) h

theorem keeps_discardFrames (h : Keeps lv s0 s) (attempt : Nat) (a b : FrameRec) : Keeps lv s0 (discardFrames attempt a b s) := by
  unfold discardFrames
  try dsimp only
  repeat' first
    | assumption | with_reducible apply Keeps.modFx | with_reducible apply Keeps.forEach | with_reducible apply keeps_attempt
    | with_reducible apply keeps_mapTags | with_reducible apply keeps_restoreShapes | with_reducible apply keeps_discardCore
    | exact id | exact fun _ => rfl | exact fun _ => id | exact fun _ _ => rfl | rfl | split | intro _

theorem keeps_loadPower (h : Keeps lv s0 s) (v : Nat) : Keeps lv s0 (loadPower v s) := by
  unfold loadPower
  try dsimp only
  repeat' first
    | assumption | with_reducible apply Keeps.setReg | exact id | exact fun _ => rfl | exact fun _ => id | exact fun _ _ => rfl
    | rfl | split

theorem keeps_loadSpad (h : Keeps lv s0 s) (core : Nat) (banks : Bool) (g : CoreSect) : Keeps lv s0 (loadSpad core banks g s) := by
  unfold loadSpad
  extract_lets p s1 s2 pwr s3
  have k3 : Keeps lv s0 s3 :=
    ((Keeps.forEach _ _ (fun _ _ k => (k.setReg _ _).setReg _ _) h).setReg _ _).setFld _ _ _ _
  clear_value s3
  split
  · exact (k3.setReg _ _).setReg _ _
  · exact k3

theorem keeps_loadToken (h : Keeps lv s0 s) (core : Nat) (g : CoreSect) : Keeps lv s0 (loadToken core g s) := by
  unfold loadToken
  extract_lets k s1 s2
  have k2 : Keeps lv s0 s2 := (h.setReg _ _).modCore _ _
  clear_value s2
  refine Keeps.forEach _ _ (fun q t k => ?_) k2
  dsimp only
  split
  · exact k
  · exact k.setFld _ _ _ _

theorem keeps_setVariant (h : Keeps lv s0 s) (v : Nat) : Keeps lv s0 (setVariant v s) := by
  unfold setVariant
  extract_lets s1 s2 s3
  have k2 : Keeps lv s0 s2 := keeps_loadPower ((h.setFld _ _ _ _).modImg _ rfl) _
  have k3 : Keeps lv s0 s3 := by
    refine Keeps.forEach _ _ (fun c t k => ?_) k2
    split
    · exact k
    · exact keeps_loadToken (keeps_loadSpad k _ _ _) _ _
  clear_value s3
  exact keeps_raiseKindAt k3 _ _ _ _ _

theorem keeps_formVote (h : Keeps lv s0 s)  : Keeps lv s0 (formVote s) := by
  unfold formVote
  try dsimp only
  repeat' first
    | assumption | with_reducible apply Keeps.modFx | exact id | exact fun _ => rfl | exact fun _ => id | exact fun _ _ => rfl
    | rfl | split

theorem keeps_takeVote (h : Keeps lv s0 s) (child : Nat) (pl : VotePl) (late : Bool) : Keeps lv s0 (takeVote child pl late s) := by
  unfold takeVote
  try dsimp only
  repeat' first
    | assumption | with_reducible apply Keeps.setBit | with_reducible apply Keeps.modFx
    | exact id | exact fun _ => rfl | exact fun _ => id | exact fun _ _ => rfl | rfl | split | intro _

theorem keeps_voteTo (h : Keeps lv s0 s) (dst link : Nat) (pl : VotePl) : Keeps lv s0 (voteTo dst link pl s) := by
  unfold voteTo
  try dsimp only
  repeat' first
    | assumption | with_reducible apply keeps_enqueue | with_reducible apply keeps_unreachable
    | with_reducible apply keeps_sendPacket
    | exact id | exact fun _ => rfl | exact fun _ => id | exact fun _ _ => rfl | rfl | split | intro _

theorem keeps_keepResult (h : Keeps lv s0 s) (r : VotePl) : Keeps lv s0 (keepResult r s) := by
  unfold keepResult
  split
  · exact h
  · refine h.modFx _ fun e => ?_
    simp only [List.length_drop, List.length_append, List.length_cons, List.length_nil]
    omega

theorem keeps_forwardResult (h : Keeps lv s0 s) (r : VotePl) : Keeps lv s0 (forwardResult r s) := by
  unfold forwardResult
  try dsimp only
  repeat' first
    | assumption | with_reducible apply Keeps.forEach | with_reducible apply keeps_voteTo | exact id | exact fun _ => rfl
    | exact fun _ => id | exact fun _ _ => rfl | rfl | split | intro _

theorem keeps_sendVote (h : Keeps lv s0 s)  : Keeps lv s0 (sendVote s) := by
  unfold sendVote
  try dsimp only
  repeat' first
    | assumption | with_reducible apply Keeps.setBit | with_reducible apply Keeps.modFx | with_reducible apply Keeps.whenS
    | with_reducible apply keeps_detectFault | with_reducible apply keeps_attempt | with_reducible apply keeps_formVote
    | with_reducible apply keeps_voteTo | with_reducible apply keeps_keepResult | with_reducible apply keeps_forwardResult
    | exact id | exact fun _ => rfl | exact fun _ => id | exact fun _ _ => rfl | rfl | split | intro _

theorem keeps_takeResult (h : Keeps lv s0 s) (src : Nat) (pl : VotePl) : Keeps lv s0 (takeResult src pl s) := by
  unfold takeResult
  try dsimp only
  repeat' first
    | assumption | with_reducible apply keeps_keepResult | with_reducible apply keeps_forwardResult
    | exact id | exact fun _ => rfl | exact fun _ => id | exact fun _ _ => rfl | rfl | split | intro _

theorem keeps_takeQuery (h : Keeps lv s0 s) (nbr : Nat) (fn : DWord) : Keeps lv s0 (takeQuery nbr fn s) := by
  unfold takeQuery
  try dsimp only
  repeat' first
    | assumption | with_reducible apply keeps_voteTo | exact id | exact fun _ => rfl | exact fun _ => id | exact fun _ _ => rfl
    | rfl | split

theorem keeps_takeAnswer (h : Keeps lv s0 s) (nbr : Nat) (pl : VotePl) : Keeps lv s0 (takeAnswer nbr pl s) := by
  unfold takeAnswer
  try dsimp only
  repeat' first
    | assumption | with_reducible apply keeps_keepResult
    | exact id | exact fun _ => rfl | exact fun _ => id | exact fun _ _ => rfl | rfl | split | intro _

theorem keeps_takeVotePacket (h : Keeps lv s0 s) (late : Bool) (p : Packet) : Keeps lv s0 (takeVotePacket late p s) := by
  unfold takeVotePacket
  try dsimp only
  repeat' first
    | assumption | with_reducible apply Keeps.setBit | with_reducible apply Keeps.whenS | with_reducible apply keeps_clCount
    | with_reducible apply keeps_takeVote | with_reducible apply keeps_takeResult | with_reducible apply keeps_takeQuery
    | with_reducible apply keeps_takeAnswer
    | exact id | exact fun _ => rfl | exact fun _ => id | exact fun _ _ => rfl | rfl | split | intro _

theorem keeps_deliverPacket (h : Keeps lv s0 s) (late : Bool) (p : Packet) : Keeps lv s0 (deliverPacket late p s) := by
  unfold deliverPacket
  repeat' split
  · exact keeps_badPacket h
  · exact keeps_takeVotePacket h _ _
  · exact keeps_emit h _ _

theorem keeps_receive (h : Keeps lv s0 s) (i : Nat) (p : Packet) (cw : Codeword) (late : Bool) : Keeps lv s0 (receive i p cw late s) :=
  keeps_rxPacket h i p cw _ fun _ k => keeps_deliverPacket k late p

theorem keeps_queryResults (h : Keeps lv s0 s)  : Keeps lv s0 (queryResults s) := by
  unfold queryResults
  try dsimp only
  repeat' first
    | assumption | with_reducible apply Keeps.forEach | with_reducible apply keeps_attempt | with_reducible apply keeps_voteTo
    | exact id | exact fun _ => rfl | exact fun _ => id | exact fun _ _ => rfl | rfl | split | intro _

theorem keeps_setSlot (h : Keeps lv s0 s) (i : Nat) (x : SlotSt) : Keeps lv s0 (setSlot i x s) :=
  h.modImg _ (List.length_set ..)

theorem keeps_cmdImgVerify (h : Keeps lv s0 s) (tag slot addr len : Nat) : Keeps lv s0 (cmdImgVerify tag slot addr len s).1 := by
  unfold cmdImgVerify
  try dsimp only
  repeat' first
    | assumption | with_reducible apply keeps_setSlot | exact id | exact fun _ => rfl | exact fun _ => id | exact fun _ _ => rfl
    | rfl | split

theorem keeps_verifyDone (h : Keeps lv s0 s) (slot : Nat) (c? : Option ImageContent) : Keeps lv s0 (verifyDone slot c? s) := by
  unfold verifyDone
  try dsimp only
  repeat' first
    | assumption | with_reducible apply Keeps.modImg | with_reducible apply Keeps.whenS | with_reducible apply keeps_raiseKind
    | with_reducible apply keeps_setSlot | exact id | exact fun _ => rfl | exact fun _ => id | exact fun _ _ => rfl | rfl
    | split | intro _

theorem keeps_cmdImgActivate (h : Keeps lv s0 s) (slot a h_ : Nat) : Keeps lv s0 (cmdImgActivate slot a h_ s).1 := by
  unfold cmdImgActivate
  try dsimp only
  repeat' first
    | assumption | with_reducible apply Keeps.modFx | with_reducible apply Keeps.modImg | with_reducible apply Keeps.modPwr
    | with_reducible apply Keeps.whenS | exact id | exact fun _ => rfl | exact fun _ => id | exact fun _ _ => rfl | rfl | split
    | intro _

theorem keeps_cmdImgRelease (h : Keeps lv s0 s) (slot : Nat) : Keeps lv s0 (cmdImgRelease slot s).1 := by
  unfold cmdImgRelease
  try dsimp only
  repeat' first
    | assumption | with_reducible apply keeps_setSlot | exact id | exact fun _ => rfl | exact fun _ => id | exact fun _ _ => rfl
    | rfl | split

theorem keeps_loadFrameSect (h : Keeps lv s0 s) (f : FrameSect) : Keeps lv s0 (loadFrameSect f s) := by
  unfold loadFrameSect
  try dsimp only
  repeat' first
    | assumption | with_reducible apply Keeps.setReg | with_reducible apply Keeps.modTk
    | with_reducible apply keeps_sourceChanged | exact id | exact fun _ => rfl | exact fun _ => id

theorem keeps_startEstimates (h : Keeps lv s0 s) (cores : List Nat) (id : DWord) : Keeps lv s0 (startEstimates cores id s) := by
  unfold startEstimates
  try dsimp only
  repeat' first
    | assumption | with_reducible apply Keeps.putBit | with_reducible apply Keeps.modCore | with_reducible apply Keeps.forEach
    | exact id | exact fun _ => rfl | exact fun _ => id | exact fun _ _ => rfl | rfl | split | intro _

theorem keeps_loadRoles (h : Keeps lv s0 s) (core rows : Nat) (roles : List (Nat × RoleEntry)) :
    Keeps lv s0 (loadRoles core rows roles s) :=
  (Keeps.forEach _ _ (fun _ _ k => k.setFld _ _ _ _) h).setFld _ _ _ _

theorem keeps_clearOffBanks (h : Keeps lv s0 s) (core : Nat) (old : Nat → Nat) : Keeps lv s0 (clearOffBanks core old s) :=
  { h.spadTo _ (SMap.wf_filter memDefault s.spad _) with }

theorem keeps_setBanks (h : Keeps lv s0 s) (core : Nat) : Keeps lv s0 (setBanks core s) := by
  unfold setBanks
  try dsimp only
  repeat' first
    | assumption | with_reducible apply Keeps.modCore
    | exact id | exact fun _ => rfl | exact fun _ => id | exact fun _ _ => rfl | rfl | split | intro _

theorem keeps_loadCore (h : Keeps lv s0 s) (core : Nat) (g? : Option CoreSect) : Keeps lv s0 (loadCore core g? s) := by
  unfold loadCore
  extract_lets old s1 sr bits s2
  have k1 : Keeps lv s0 s1 := h.modCore _ _
  have k2 : Keeps lv s0 s2 := by
    clear_value s1
    unfold s2
    split
    · exact ((keeps_loadRoles k1 _ _ _).setReg _ _).setReg _ _
    · exact keeps_loadToken (keeps_loadSpad (keeps_loadRoles (k1.modCore _ _) _ _ _) _ _ _) _ _
  clear_value s2
  exact keeps_clearOffBanks (keeps_setBanks k2 _) _ _

theorem keeps_freeTags (h : Keeps lv s0 s) (cores : List Nat) : Keeps lv s0 (freeTags cores s) := by
  unfold freeTags
  try dsimp only
  repeat' first
    | assumption | with_reducible apply Keeps.modPort | exact id | exact fun _ => rfl | exact fun _ => id | exact fun _ _ => rfl
    | rfl | split | intro _
  all_goals (with_reducible apply Keeps.rest)
  repeat' assumption

theorem keeps_slotState (h : Keeps lv s0 s) (i st : Nat) : Keeps lv s0 (slotState i st s) := by
  unfold slotState
  try dsimp only
  repeat' first | assumption | with_reducible apply keeps_setSlot

theorem keeps_checkWiring (h : Keeps lv s0 s) (c : ImageContent) : Keeps lv s0 (checkWiring c s) := by
  unfold checkWiring
  try dsimp only
  repeat' first
    | assumption | with_reducible apply Keeps.setBit | with_reducible apply Keeps.forEach
    | with_reducible apply keeps_setLinkState | exact id | exact fun _ => rfl | exact fun _ => id | exact fun _ _ => rfl | rfl
    | split | intro _

theorem keeps_activateWhole (h : Keeps lv s0 s) (p : Pend) (c : ImageContent) : Keeps lv s0 (activateWhole p c s) := by
  unfold activateWhole
  extract_lets old s1 s2 s3 s4 s5 s6 s7 s8 s9 s10 s11 s12
  have k1 : Keeps lv s0 s1 := Keeps.forEach _ _ (fun _ _ k => keeps_slotState k _ _) h
  have k2 : Keeps lv s0 s2 := keeps_slotState k1 _ _
  clear_value s2
  have k4 : Keeps lv s0 s4 := keeps_loadFrameSect (k2.modImg _ rfl) _
  clear_value s4
  have k7 : Keeps lv s0 s7 := (((k4.setFld _ _ _ _).setReg64 _ _).setReg64 _ _).setReg _ _ |>.setFld _ _ _ _
  clear_value s7
  have k8 : Keeps lv s0 s8 := keeps_loadPower k7 _
  have k9 : Keeps lv s0 s9 := Keeps.forEach _ _ (fun _ _ k => (keeps_loadCore k _ _).putBit _ _ _) k8
  clear_value s9
  have k11 : Keeps lv s0 s11 := keeps_startEstimates (keeps_checkWiring (keeps_freeTags k9 _) _) _ _
  clear_value s11
  exact keeps_raiseKindAt ((k11.modFx _ id).modPwr _) _ _ _ _ _

theorem keeps_activateGroup (h : Keeps lv s0 s) (p : Pend) (c : ImageContent) : Keeps lv s0 (activateGroup p c s) := by
  unfold activateGroup
  try dsimp only
  repeat' first
    | assumption | with_reducible apply Keeps.modFx | with_reducible apply Keeps.modImg | with_reducible apply Keeps.forEach
    | with_reducible apply keeps_raiseKindAt | with_reducible apply keeps_startEstimates | with_reducible apply keeps_loadCore
    | with_reducible apply keeps_freeTags | with_reducible apply keeps_slotState | exact id | exact fun _ => rfl
    | exact fun _ => id | exact fun _ _ => rfl | rfl | split | intro _

theorem keeps_activate (h : Keeps lv s0 s) : Keeps lv s0 (activate s) := by
  unfold activate
  split
  · exact h
  · split
    · exact h
    · split
      · exact h
      · split
        · exact keeps_activateWhole h _ _
        · exact keeps_activateGroup h _ _

theorem keeps_deferActivation (h : Keeps lv s0 s)  : Keeps lv s0 (deferActivation s) := by
  unfold deferActivation
  try dsimp only
  repeat' first
    | assumption | with_reducible apply Keeps.modImg | with_reducible apply Keeps.modPwr
    | with_reducible apply keeps_raiseKindAt | exact id | exact fun _ => rfl | exact fun _ => id | exact fun _ _ => rfl | rfl
    | split

theorem keeps_chooseWork (h : Keeps lv s0 s) (fn : DWord) : Keeps lv s0 (chooseWork fn s).2 := by
  unfold chooseWork
  try dsimp only
  repeat' first
    | assumption | with_reducible apply Keeps.modFx | with_reducible apply keeps_attempt | exact id | exact fun _ => rfl
    | exact fun _ => id | exact fun _ _ => rfl | rfl | split

theorem keeps_discardPair (h : Keeps lv s0 s) (attempt : Nat) (h_ : FrameRec) : Keeps lv s0 (discardPair attempt h_ s) := by
  unfold discardPair
  try dsimp only
  repeat' first
    | assumption | with_reducible apply Keeps.modFx | with_reducible apply keeps_attempt
    | with_reducible apply keeps_discardFrames | exact id

theorem keeps_countAttempt (h : Keeps lv s0 s) (r : VotePl) (h_ : FrameRec) : Keeps lv s0 (countAttempt r h_ s) := by
  unfold countAttempt
  repeat' first
    | assumption | with_reducible apply Keeps.modFx | exact id | exact fun _ => rfl | exact fun _ => id
    | exact fun _ _ => rfl | rfl | split

theorem keeps_applyReplay (h : Keeps lv s0 s) (r : VotePl) (h_ : FrameRec) : Keeps lv s0 (applyReplay r h_ s) := by
  unfold applyReplay
  try dsimp only
  repeat' first
    | assumption | with_reducible apply Keeps.setBit | with_reducible apply Keeps.addCnt | with_reducible apply Keeps.modFx
    | with_reducible apply Keeps.modImg | with_reducible apply keeps_raiseFx | with_reducible apply keeps_attempt
    | with_reducible apply keeps_countAttempt
    | with_reducible apply keeps_discardPair | exact id | exact fun _ => rfl | exact fun _ => id | exact fun _ _ => rfl | rfl
    | split

theorem keeps_applyHalt (h : Keeps lv s0 s) (r : VotePl) (h_ : FrameRec) : Keeps lv s0 (applyHalt r h_ s) := by
  unfold applyHalt
  try dsimp only
  repeat' first
    | assumption | with_reducible apply Keeps.setBit | with_reducible apply Keeps.modFx | with_reducible apply Keeps.whenS
    | with_reducible apply keeps_pushEvent | with_reducible apply keeps_attempt | with_reducible apply keeps_countAttempt
    | with_reducible apply keeps_discardPair
    | exact id | exact fun _ => rfl | exact fun _ => id | exact fun _ _ => rfl | rfl | split | intro _

theorem keeps_applyHold (h : Keeps lv s0 s) (hold : Bool) : Keeps lv s0 (applyHold hold s) := by
  unfold applyHold
  try dsimp only
  repeat' first
    | assumption | with_reducible apply Keeps.setBit | with_reducible apply Keeps.modFx | with_reducible apply keeps_raiseFx
    | exact id | exact fun _ => rfl | exact fun _ => id | exact fun _ _ => rfl | rfl | split

theorem keeps_applyVariant (h : Keeps lv s0 s) (down up : Bool) : Keeps lv s0 (applyVariant down up s) := by
  unfold applyVariant
  try dsimp only
  repeat' first
    | assumption | with_reducible apply keeps_setVariant | exact id | exact fun _ => rfl | exact fun _ => id
    | exact fun _ _ => rfl | rfl | split

theorem keeps_applyReadiness (h : Keeps lv s0 s) (r : VotePl) (h_ : FrameRec) : Keeps lv s0 (applyReadiness r h_ s) := by
  unfold applyReadiness
  try dsimp only
  repeat' first
    | assumption | with_reducible apply Keeps.modImg | with_reducible apply keeps_deferActivation | exact id
    | exact fun _ => rfl | exact fun _ => id | exact fun _ _ => rfl | rfl | split

theorem keeps_assignFrame (h : Keeps lv s0 s) (fn : DWord) : Keeps lv s0 (assignFrame fn s) := by
  unfold assignFrame
  try dsimp only
  repeat' first
    | assumption | with_reducible apply Keeps.modFx | with_reducible apply keeps_attempt | with_reducible apply keeps_chooseWork
    | exact id | exact fun _ => rfl | exact fun _ => id | exact fun _ _ => rfl | rfl | split

theorem keeps_shiftCores (h : Keeps lv s0 s) : Keeps lv s0 (shiftCores s) := by
  unfold shiftCores
  dsimp only
  exact Keeps.modFx (s := { s with cores := (s.cores.map fun e => (e.1, shiftCore e.2)).filter fun e => e.2 ≠ {} })
    (h.rest _ _ _ _ _ _ _ _ _ _ _ _ _ _) (fun f => { f with shpPrev := f.shpCur }) id

theorem keeps_applyOutcome (h : Keeps lv s0 s) (r : VotePl) (h_ : FrameRec) : Keeps lv s0 (applyOutcome r h_ s) := by
  unfold applyOutcome
  try dsimp only
  repeat' first
    | assumption | with_reducible apply keeps_commitFrame | with_reducible apply keeps_applyReplay
    | with_reducible apply keeps_applyHalt | with_reducible apply keeps_applyHold | with_reducible apply keeps_applyVariant
    | with_reducible apply keeps_applyReadiness | exact id | exact fun _ => rfl | exact fun _ => id | exact fun _ _ => rfl | rfl
    | split

theorem keeps_applyNext (h : Keeps lv s0 s)  : Keeps lv s0 (applyNext s) := by
  unfold applyNext
  try dsimp only
  repeat' first
    | assumption | with_reducible apply Keeps.modFx | with_reducible apply keeps_activate
    | with_reducible apply keeps_assignFrame | with_reducible apply keeps_shiftCores | with_reducible apply keeps_applyOutcome
    | exact id | exact fun _ => rfl | exact fun _ => id | exact fun _ _ => rfl | rfl | split

end Sys2Proof.Machine
end

