-- ==== Sys2Proof/Laws/KeepsPort.lean ====
section
/-! SUPPORT. `Keeps` (Laws/Keeps.lean) for every function from states to states of recovery, security, the Chipra ports and the links. -/

set_option maxRecDepth 4000

namespace Sys2Proof.Machine

variable {lv : Nat} {s0 s : State}

theorem keeps_lostAt (h : Keeps lv s0 s) (l : Loc) : Keeps lv s0 (lostAt l s) := by
  unfold lostAt
  try dsimp only
  repeat' first
    | assumption | with_reducible apply keeps_detectFault | with_reducible apply keeps_versionLost
    | exact id | exact fun _ => rfl | exact fun _ => id | exact fun _ _ => rfl | rfl | split | intro _

theorem keeps_copyArray (h : Keeps lv s0 s) (src dst : Nat) : Keeps lv s0 (copyArray src dst s) := by
  unfold copyArray
  extract_lets bad sc s1
  have k1 : Keeps lv s0 s1 := by
    have a := (h.macTo _ (Mem.wf_copyRange s.mac (src * 32768) (dst * 32768) 32768)).scaleTo _ (Mem.wf_copyRange s.scale (src * 2048) (dst * 2048) 2048)
    exact { a with }
  clear_value s1
  refine Keeps.forEach _ _ (fun _ _ k => Keeps.forEach _ _ (fun _ _ k => k.macTo _ (Mem.wf_set _ _ _)) k) ?_
  exact Keeps.forEach _ _ (fun _ _ k => Keeps.forEach _ _ (fun _ _ k => k.scaleTo _ (SMap.wf_set _ _ _ _)) k) k1

theorem keeps_restoreTile (h : Keeps lv s0 s) (core lm : Nat) : Keeps lv s0 (restoreTile core lm s) := by
  unfold restoreTile
  try dsimp only
  repeat' first
    | assumption | with_reducible apply Keeps.forEach | with_reducible apply keeps_hbmRead | with_reducible apply keeps_putScale
    | with_reducible apply keeps_writeArrRow | exact id | exact fun _ => rfl | exact fun _ => id | exact fun _ _ => rfl | rfl
    | split | intro _

theorem keeps_restoreMacro (h : Keeps lv s0 s) (core lm old : Nat) : Keeps lv s0 (restoreMacro core lm old s) := by
  unfold restoreMacro
  try dsimp only
  repeat' first
    | assumption | with_reducible apply Keeps.whenS | with_reducible apply keeps_lostAt | with_reducible apply keeps_copyArray
    | with_reducible apply keeps_restoreTile
    | exact id | exact fun _ => rfl | exact fun _ => id | exact fun _ _ => rfl | rfl | split | intro _

theorem keeps_setPmacro (h : Keeps lv s0 s) (core lm pm : Nat) : Keeps lv s0 (setPmacro core lm pm s) := by
  unfold setPmacro
  try dsimp only
  repeat' first | assumption | with_reducible apply Keeps.setFld

theorem keeps_endRotation (h : Keeps lv s0 s) (core : Nat) : Keeps lv s0 (endRotation core s) := by
  unfold endRotation
  try dsimp only
  repeat' first
    | assumption | with_reducible apply Keeps.modCore | with_reducible apply Keeps.modBist | exact id | exact fun _ => rfl
    | exact fun _ => id | exact fun _ _ => rfl | rfl | split

theorem keeps_giveBack (h : Keeps lv s0 s) (core : Nat) : Keeps lv s0 (giveBack core s) := by
  unfold giveBack
  try dsimp only
  repeat' first
    | assumption | with_reducible apply Keeps.modCore | with_reducible apply Keeps.whenS | with_reducible apply keeps_copyArray
    | with_reducible apply keeps_endRotation | exact id | exact fun _ => rfl | exact fun _ => id | exact fun _ _ => rfl | rfl
    | split | intro _

theorem keeps_loseMacro (h : Keeps lv s0 s) (core : Nat) : Keeps lv s0 (loseMacro core s) := by
  unfold loseMacro
  try dsimp only
  repeat' first
    | assumption | with_reducible apply Keeps.modImg | with_reducible apply keeps_capacityChanged | exact id
    | exact fun _ => rfl | exact fun _ => id | exact fun _ _ => rfl | rfl

theorem keeps_remapMacro (h : Keeps lv s0 s) (core lm pm : Nat) (spare : Option Nat) (keep : Bool) : Keeps lv s0 (remapMacro core lm pm spare keep s) := by
  unfold remapMacro
  try dsimp only
  repeat' first
    | assumption | with_reducible apply keeps_copyArray | with_reducible apply keeps_restoreMacro
    | with_reducible apply keeps_setPmacro | with_reducible apply keeps_loseMacro | exact id | exact fun _ => rfl
    | exact fun _ => id | exact fun _ _ => rfl | rfl | split

theorem keeps_mapped (h : Keeps lv s0 s) (r : Retire) (core : Nat) (testPass : Bool) :
    Keeps lv s0 (retireMacro.mapped r core testPass s).1 := by
  unfold retireMacro.mapped
  split
  · exact h
  · split
    · split
      · dsimp only; exact keeps_remapMacro h _ _ _ _ _
      · exact h.markRetired _ _
    · dsimp only; exact keeps_remapMacro h _ _ _ _ _

theorem keeps_retireMacro (h : Keeps lv s0 s) (r : Retire) (core : Nat) (testPass : Bool) :
    Keeps lv s0 (retireMacro r core testPass s).1 := by
  unfold retireMacro
  extract_lets s1 rot
  have k1 : Keeps lv s0 s1 := (h.markRetired _ _).setBit _ _
  clear_value rot s1
  split
  · split
    · extract_lets s2
      have k2 : Keeps lv s0 s2 := keeps_endRotation (k1.modCore _ _) _
      clear_value s2
      split
      · split
        · exact keeps_restoreMacro (keeps_setPmacro k2 _ _ _) _ _ _
        · exact k2.markRetired _ _
      · exact keeps_restoreMacro k2 _ _ _
    · exact keeps_mapped (keeps_giveBack k1 _) _ _ _
  · exact keeps_mapped (keeps_giveBack k1 _) _ _ _

theorem keeps_startRetire (h : Keeps lv s0 s) (r : Retire) : Keeps lv s0 (startRetire r s) := by
  unfold startRetire
  try dsimp only
  repeat' first | assumption | with_reducible apply Keeps.modFx | exact id

theorem keeps_macroRetirement (h : Keeps lv s0 s) (testPass : Bool) : Keeps lv s0 (macroRetirement testPass s) := by
  unfold macroRetirement
  try dsimp only
  repeat' first
    | assumption | with_reducible apply Keeps.setBit | with_reducible apply Keeps.markRetired
    | with_reducible apply keeps_retireMacro | with_reducible apply keeps_startRetire | exact id | exact fun _ => rfl
    | exact fun _ => id | exact fun _ _ => rfl | rfl | split

theorem keeps_copyBanks (h : Keeps lv s0 s) (core old new : Nat) : Keeps lv s0 (copyBanks core old new s) := by
  unfold copyBanks
  extract_lets kept bad lost src hard es s1 s2
  have k1 : Keeps lv s0 s1 :=
    { h.spadTo _ (fun e => Mem.wf_foldSet src (fun e => new * 2 ^ 22 + e.1 % 2 ^ 22) (·.2) _
        (SMap.wf_dropRange memDefault s.spad (new * 2 ^ 22) ((new + 1) * 2 ^ 22) e)) with }
  have k2 : Keeps lv s0 s2 :=
    Keeps.forEach _ _ (fun _ _ k => Keeps.forEach _ _ (fun _ _ k => k.spadTo _ (Mem.wf_set _ _ _)) k) k1
  clear_value s2 lost
  cases lost
  · exact k2
  · exact keeps_lostAt k2 _

theorem keeps_reloadRegs (h : Keeps lv s0 s) (core : Nat) : Keeps lv s0 (reloadRegs core s) := by
  unfold reloadRegs
  split
  · exact h
  · exact keeps_setBanks ((keeps_loadToken (keeps_loadSpad h _ _ _) _ _).setFld _ _ _ _) _

theorem keeps_moveCore (h : Keeps lv s0 s) (core new : Nat) (keep : Bool) : Keeps lv s0 (moveCore core new keep s) := by
  unfold moveCore
  extract_lets s1 old nix n oldPm usable s2 s3 s4 s5 s6
  have k2 : Keeps lv s0 s2 := Keeps.whenS _ _ (fun _ k => keeps_copyBanks k _ _ _) (keeps_endRotation h _)
  clear_value s2
  have k4 : Keeps lv s0 s4 := Keeps.forEach _ _ (fun _ _ k => keeps_setPmacro k _ _ _) (k2.modBist _)
  clear_value s4
  have k5 : Keeps lv s0 s5 := Keeps.whenS _ _ (fun _ k => keeps_capacityChanged (k.modImg _ rfl) _) k4
  clear_value s5
  have k6 : Keeps lv s0 s6 :=
    keeps_reloadRegs (Keeps.modCore k5 _ _) _
  clear_value s6
  exact Keeps.whenS _ _ (fun _ k => Keeps.forEach _ _ (fun _ _ k => keeps_restoreMacro k _ _ _) k) k6

theorem keeps_loseCore (h : Keeps lv s0 s) (die : Nat) : Keeps lv s0 (loseCore die s) := by
  unfold loseCore
  try dsimp only
  repeat' first
    | assumption | with_reducible apply Keeps.modImg | with_reducible apply keeps_capacityChanged | exact id
    | exact fun _ => rfl | exact fun _ => id | exact fun _ _ => rfl | rfl

theorem keeps_abortCoreTest (h : Keeps lv s0 s) (die pcore : Nat) : Keeps lv s0 (abortCoreTest die pcore s) := by
  unfold abortCoreTest
  try dsimp only
  repeat' first
    | assumption | with_reducible apply Keeps.setBit | with_reducible apply Keeps.modBist | exact id | exact fun _ => rfl
    | exact fun _ => id | exact fun _ _ => rfl | rfl | split

theorem keeps_replaceCore (h : Keeps lv s0 s) (die pcore : Nat) (keep : Bool) : Keeps lv s0 (replaceCore die pcore keep s) := by
  unfold replaceCore
  try dsimp only
  repeat' first
    | assumption | with_reducible apply keeps_moveCore | with_reducible apply keeps_loseCore
    | with_reducible apply keeps_abortCoreTest | exact id | exact fun _ => rfl | exact fun _ => id | exact fun _ _ => rfl | rfl
    | split

theorem keeps_retireBankPwr (h : Keeps lv s0 s) (core bank : Nat) : Keeps lv s0 (retireBankPwr core bank s) := by
  unfold retireBankPwr
  try dsimp only
  repeat' first
    | assumption | with_reducible apply Keeps.setFld | with_reducible apply Keeps.modCore
    | exact id | exact fun _ => rfl | exact fun _ => id | exact fun _ _ => rfl | rfl | split | intro _

theorem keeps_clearBankPwr (h : Keeps lv s0 s) (die pcore bank : Nat) : Keeps lv s0 (clearBankPwr die pcore bank s) := by
  unfold clearBankPwr
  try dsimp only
  repeat' first
    | assumption | with_reducible apply Keeps.markRetired | with_reducible apply keeps_retireBankPwr
    | exact id | exact fun _ => rfl | exact fun _ => id | exact fun _ _ => rfl | rfl | split | intro _

theorem keeps_coreSwap (h : Keeps lv s0 s) (testPass : Bool) : Keeps lv s0 (coreSwap testPass s) := by
  unfold coreSwap
  try dsimp only
  repeat' first
    | assumption | with_reducible apply keeps_clearBankPwr | with_reducible apply keeps_raiseFx
    | with_reducible apply Keeps.modFx | with_reducible apply Keeps.setBit | with_reducible apply Keeps.markRetired | with_reducible apply Keeps.whenS
    | with_reducible apply keeps_startRetire | with_reducible apply keeps_replaceCore | exact id | exact fun _ => rfl
    | exact fun _ => id | exact fun _ _ => rfl | rfl | split | intro _

theorem keeps_retireChannel (h : Keeps lv s0 s) (i : Nat) : Keeps lv s0 (retireChannel i s) := by
  unfold retireChannel
  extract_lets top s1 es s2
  have k1 : Keeps lv s0 s1 := (h.markRetired _ _).modImg _ rfl
  have k2 : Keeps lv s0 s2 := { k1.hbmTo _ (SMap.wf_dropRange memDefault s1.hbm (top - channelBytes) top) with }
  clear_value s2
  exact keeps_capacityChanged k2 _

theorem keeps_copyChannel (h : Keeps lv s0 s) (i : Nat) (bad : List Nat) : Keeps lv s0 (copyChannel i bad s) := by
  refine Keeps.forEach _ _ (fun w t k => ?_) h
  extract_lets t1 v t2
  have k1 : Keeps lv s0 t1 := by
    unfold t1
    split
    · split
      · exact keeps_lostAt k _
      · exact k
    · exact k
  have k2 : Keeps lv s0 t2 := k1.usedFree
  clear_value t2
  exact { k2.hbmTo _ (Mem.wf_write _ _ _) with }

theorem keeps_pseudoChannelRemap (h : Keeps lv s0 s) : Keeps lv s0 (pseudoChannelRemap s) := by
  unfold pseudoChannelRemap
  split
  · exact h
  · split
    · exact h
    · exact keeps_startRetire (keeps_copyChannel (keeps_retireChannel (h.setBit _ _) _) _ _) _

theorem keeps_retirementComplete (h : Keeps lv s0 s)  : Keeps lv s0 (retirementComplete s) := by
  unfold retirementComplete
  try dsimp only
  repeat' first
    | assumption | with_reducible apply Keeps.setBit | with_reducible apply Keeps.modFx | with_reducible apply keeps_raiseFx
    | exact id | exact fun _ => rfl | exact fun _ => id | exact fun _ _ => rfl | rfl | split

theorem keeps_onlineFail (h : Keeps lv s0 s) (l : Loc) (source : Nat) : Keeps lv s0 (onlineFail l source s) := by
  unfold onlineFail
  try dsimp only
  repeat' first
    | assumption | with_reducible apply Keeps.setBit | with_reducible apply Keeps.addCnt | with_reducible apply keeps_raiseFx
    | with_reducible apply keeps_newLogEntry

theorem keeps_copyFaults (h : Keeps lv s0 s) (core lm pm : Nat) : Keeps lv s0 (copyFaults core lm pm s) := by
  unfold copyFaults
  try dsimp only
  repeat' first
    | assumption | with_reducible apply Keeps.forEach | with_reducible apply keeps_mcFault | exact id | exact fun _ => rfl
    | exact fun _ => id | exact fun _ _ => rfl | rfl | split | intro _

theorem keeps_rotationStep (h : Keeps lv s0 s) (core : Nat) : Keeps lv s0 (rotationStep core s) := by
  unfold rotationStep
  try dsimp only
  repeat' first
    | assumption | with_reducible apply Keeps.setBit | with_reducible apply Keeps.addCnt | with_reducible apply Keeps.modCore
    | with_reducible apply Keeps.modBist | with_reducible apply keeps_copyArray | with_reducible apply keeps_copyFaults
    | exact id | exact fun _ => rfl | exact fun _ => id | exact fun _ _ => rfl | rfl | split

theorem keeps_rotationTestDone (h : Keeps lv s0 s) (core : Nat) (pass : Bool) : Keeps lv s0 (rotationTestDone core pass s) := by
  unfold rotationTestDone
  try dsimp only
  repeat' first
    | assumption | with_reducible apply Keeps.modCore | with_reducible apply Keeps.markRetired
    | with_reducible apply keeps_remapMacro | with_reducible apply keeps_onlineFail | exact id | exact fun _ => rfl
    | exact fun _ => id | exact fun _ _ => rfl | rfl | split

theorem keeps_rotationCopyBack (h : Keeps lv s0 s) (core : Nat) : Keeps lv s0 (rotationCopyBack core s) := by
  unfold rotationCopyBack
  try dsimp only
  repeat' first
    | assumption | with_reducible apply Keeps.setBit | with_reducible apply Keeps.whenS | with_reducible apply keeps_copyArray
    | with_reducible apply keeps_setPmacro | with_reducible apply keeps_endRotation | with_reducible apply keeps_copyFaults
    | exact id | exact fun _ => rfl | exact fun _ => id | exact fun _ _ => rfl | rfl | split | intro _

theorem keeps_coreTest (h : Keeps lv s0 s) (die : Nat) (r : CoreTestEnd) : Keeps lv s0 (coreTest die r s) := by
  unfold coreTest
  try dsimp only
  repeat' first
    | assumption | with_reducible apply Keeps.modBist | with_reducible apply Keeps.markRetired
    | with_reducible apply keeps_abortCoreTest | with_reducible apply keeps_replaceCore | with_reducible apply keeps_onlineFail
    | exact id | exact fun _ => rfl | exact fun _ => id | exact fun _ _ => rfl | rfl | split

theorem keeps_abortForActivation (h : Keeps lv s0 s)  : Keeps lv s0 (abortForActivation s) := by
  unfold abortForActivation
  try dsimp only
  repeat' first
    | assumption | with_reducible apply Keeps.forEach | with_reducible apply keeps_abortCoreTest | exact id | exact fun _ => rfl
    | exact fun _ => id | exact fun _ _ => rfl | rfl | split | intro _

theorem keeps_cmdFxResume (h : Keeps lv s0 s) (r : Nat) : Keeps lv s0 (cmdFxResume r s).1 := by
  unfold cmdFxResume
  try dsimp only
  repeat' first
    | assumption | with_reducible apply Keeps.modFx | exact id | exact fun _ => rfl | exact fun _ => id | exact fun _ _ => rfl
    | rfl | split

theorem keeps_resume (h : Keeps lv s0 s)  : Keeps lv s0 (resume s) := by
  unfold resume
  try dsimp only
  repeat' first
    | assumption | with_reducible apply Keeps.modFx | with_reducible apply keeps_attempt | exact id | exact fun _ => rfl
    | exact fun _ => id | exact fun _ _ => rfl | rfl | split

theorem keeps_cmdFxExport (h : Keeps lv s0 s) (peer : Nat) : Keeps lv s0 (cmdFxExport peer s).1 := by
  unfold cmdFxExport
  try dsimp only
  repeat' first
    | assumption | with_reducible apply Keeps.modFx | exact id | exact fun _ => rfl | exact fun _ => id | exact fun _ _ => rfl
    | rfl | split

theorem keeps_setPhys (h : Keeps lv s0 s) (i : Nat) (p : NvPage) : Keeps lv s0 (setPhys i p s) := by
  unfold setPhys
  try dsimp only
  repeat' first
    | assumption | with_reducible apply Keeps.modSec | exact id | exact fun _ => rfl | exact fun _ => id | exact fun _ _ => rfl
    | rfl

theorem keeps_cmdNvStore (h : Keeps lv s0 s) (tag : Nat) (p : NvPayload) : Keeps lv s0 (cmdNvStore tag p s).1 := by
  unfold cmdNvStore
  extract_lets fw bad
  split
  · exact h
  · have k : Keeps lv s0 (if p.src = 1 then hbmRead p.addr p.length s else ([], 0, s)).2.2 := by
      split
      · exact keeps_hbmRead h _ _
      · exact h
    generalize (if p.src = 1 then hbmRead p.addr p.length s else ([], 0, s)) = r at k
    obtain ⟨l, w, u⟩ := r
    dsimp only
    repeat' first
      | assumption | with_reducible apply Keeps.setBit | with_reducible apply Keeps.modSec | exact id | exact fun _ => rfl
      | exact fun _ => id | exact fun _ _ => rfl | rfl | split

theorem keeps_cmdLcSet (h : Keeps lv s0 s) (tag : Nat) (p : LcPayload) : Keeps lv s0 (cmdLcSet tag p s).1 := by
  unfold cmdLcSet
  try dsimp only
  repeat' first
    | assumption | with_reducible apply Keeps.setReg | with_reducible apply Keeps.setBit | with_reducible apply Keeps.setReg64
    | with_reducible apply Keeps.modSec | with_reducible apply Keeps.usedFree | with_reducible apply keeps_wipeOasis
    | with_reducible apply keeps_raiseKind | exact id | exact fun _ => rfl | exact fun _ => id | exact fun _ _ => rfl | rfl
    | split

theorem keeps_endStore (h : Keeps lv s0 s) (r : StoreRec) (status : Nat) : Keeps lv s0 (endStore r status s) := by
  unfold endStore
  try dsimp only
  repeat' first
    | assumption | with_reducible apply Keeps.clrBit | with_reducible apply Keeps.modSec | with_reducible apply Keeps.whenS
    | with_reducible apply keeps_raiseKind | exact id | exact fun _ => rfl | exact fun _ => id | exact fun _ _ => rfl | rfl
    | split | intro _

theorem keeps_storeEffect (h : Keeps lv s0 s) (r : StoreRec) : Keeps lv s0 (storeEffect r s) := by
  unfold storeEffect
  try dsimp only
  repeat' first
    | assumption | with_reducible apply Keeps.modSec | with_reducible apply Keeps.whenS | exact id | exact fun _ => rfl
    | exact fun _ => id | exact fun _ _ => rfl | rfl | split | intro _

theorem keeps_writePage (h : Keeps lv s0 s) (page : Nat) (data : List Byte) (group : Nat) (good : Bool) (n : Nat) : Keeps lv s0 (writePage page data group good n s) := by
  unfold writePage
  try dsimp only
  repeat' first | assumption | with_reducible apply keeps_setPhys

theorem keeps_pageStore (h : Keeps lv s0 s) (rb1 rb2 : Bool) : Keeps lv s0 (pageStore rb1 rb2 s) := by
  unfold pageStore
  try dsimp only
  repeat' first
    | assumption | with_reducible apply Keeps.setBit | with_reducible apply Keeps.modSec | with_reducible apply Keeps.whenS
    | with_reducible apply keeps_endStore | with_reducible apply keeps_storeEffect | with_reducible apply keeps_writePage
    | exact id | exact fun _ => rfl | exact fun _ => id | exact fun _ _ => rfl | rfl | split | intro _

theorem keeps_stopDies (h : Keeps lv s0 s) : Keeps lv s0 (stopDies s) := by
  unfold stopDies
  refine Keeps.forEach _ _ (fun i t k => ?_) (h.rest _ _ _ _ _ _ _ _ _ _ _ _ _ _)
  split
  · exact k
  · exact k.setFld _ _ _ _

theorem keeps_tamperTrip (h : Keeps lv s0 s) (t : Tamper) : Keeps lv s0 (tamperTrip t s) := by
  unfold tamperTrip
  exact keeps_stopDies (Keeps.setFld (Keeps.whenS _ _ (fun _ k => k.setBit _ _)
    (((keeps_wipeOasis h).modSec _ rfl rfl).setBit _ _)) _ _ _ _)

theorem keeps_badFrame (h : Keeps lv s0 s) (port : Nat) : Keeps lv s0 (badFrame port s) := by
  unfold badFrame
  try dsimp only
  repeat' first | assumption | with_reducible apply Keeps.setBit | with_reducible apply Keeps.addCnt

theorem keeps_request (h : Keeps lv s0 s) (port tag op : Nat) (k : ReqKind) (serve : State → State)
    (hs : Keeps lv s0 (serve s)) : Keeps lv s0 (request port tag op k serve s) := by
  unfold request
  split
  · exact Keeps.whenS _ _ (fun _ k => k.send _) h
  · split
    · exact keeps_answerOn h _ _
    · exact hs

theorem keeps_reply (h : Keeps lv s0 s) (port tag op status : Nat) : Keeps lv s0 (reply port tag op status s) := by
  unfold reply
  try dsimp only
  repeat' first | assumption | with_reducible apply keeps_answerOn

theorem keeps_cmdShpSet (h : Keeps lv s0 s) (mask : BitVec 768) (n : Nat) (v : Word) : Keeps lv s0 (cmdShpSet mask n v s).1 := by
  unfold cmdShpSet
  try dsimp only
  repeat' first
    | assumption | with_reducible apply Keeps.modCur | with_reducible apply keeps_setShapes | with_reducible apply Keeps.setReg | with_reducible apply Keeps.forEach | exact id | exact fun _ => rfl
    | exact fun _ => id | exact fun _ _ => rfl | rfl | split | intro _

theorem keeps_doCommand (h : Keeps lv s0 s) (tag : Nat) (c : Cmd) : Keeps lv s0 (doCommand tag c s).1 := by
  unfold doCommand
  try dsimp only
  repeat' first
    | assumption | with_reducible apply keeps_writeReg | with_reducible apply keeps_cmdImgVerify
    | with_reducible apply keeps_cmdImgActivate | with_reducible apply keeps_cmdImgRelease
    | with_reducible apply keeps_cmdFxResume | with_reducible apply keeps_cmdFxExport | with_reducible apply keeps_cmdNvStore
    | with_reducible apply keeps_cmdLcSet | with_reducible apply keeps_cmdShpSet | exact id | exact fun _ => rfl
    | exact fun _ => id | exact fun _ _ => rfl | rfl | split

theorem keeps_takeCommand (h : Keeps lv s0 s) (e : CmdEntry) : Keeps lv s0 (takeCommand e s) := by
  unfold takeCommand
  try dsimp only
  repeat' first
    | assumption | with_reducible apply keeps_answerOn | with_reducible apply keeps_doCommand | exact id | exact fun _ => rfl
    | exact fun _ => id | exact fun _ _ => rfl | rfl | split

theorem keeps_takeCommands (h : Keeps lv s0 s) : Keeps lv s0 (takeCommands s) := by
  unfold takeCommands
  exact Keeps.forEach _ _ (fun _ _ k => keeps_takeCommand k _)
    (Keeps.setFld (h.modPort _ id (fun _ => Nat.zero_le _) id) _ _ _ _)

theorem keeps_pushCommand (h : Keeps lv s0 s) (port tag : Nat) (c : Cmd) : Keeps lv s0 (pushCommand port tag c s) := by
  unfold pushCommand
  extract_lets d
  split
  · exact keeps_reply (((h.setBit _ _).addCnt _ _ _ _).setBit _ _) _ _ _ _
  · refine keeps_queueDepthChange (h.modPort _ id (fun _ => ?_) id) _ _ _
    simp only [List.length_append, List.length_cons, List.length_nil]
    omega

theorem keeps_commandNow (h : Keeps lv s0 s) (tag : Nat) (c : Cmd) : Keeps lv s0 (commandNow tag c s) := by
  unfold commandNow
  try dsimp only
  repeat' first
    | assumption | with_reducible apply keeps_request | with_reducible apply keeps_takeCommand | exact id | exact fun _ => rfl
    | exact fun _ => id | exact fun _ _ => rfl | rfl | split

theorem keeps_atOnce (h : Keeps lv s0 s) (f : State → State) (hf : ∀ t, Keeps lv s0 t → Keeps lv s0 (f t)) :
    Keeps lv s0 (atOnce f s) := by
  unfold atOnce
  exact Keeps.forEach _ _ (fun _ _ k => keeps_pushEvent k _) ((hf _ (h.modCur _)).modCur _)

theorem keeps_lockedWrite (h : Keeps lv s0 s)  : Keeps lv s0 (lockedWrite s).1 := by
  unfold lockedWrite
  try dsimp only
  repeat' first | assumption | with_reducible apply Keeps.setBit | with_reducible apply keeps_raise0

theorem keeps_hbmStoreRun (h : Keeps lv s0 s) (a : Nat) (l : List Byte) : Keeps lv s0 (hbmStoreRun a l s) := by
  unfold hbmStoreRun
  try dsimp only
  repeat' first
    | assumption | with_reducible apply Keeps.forEach | with_reducible apply keeps_hbmStore | exact id | exact fun _ => rfl
    | exact fun _ => id | exact fun _ _ => rfl | rfl | split | intro _

theorem keeps_spadWrite (h : Keeps lv s0 s) (core o : Nat) (l : List Byte) : Keeps lv s0 (spadWrite core o l s).1 := by
  unfold spadWrite
  try dsimp only
  repeat' first
    | assumption | with_reducible apply keeps_spWriteS | with_reducible apply keeps_atOnce | exact id | exact fun _ => rfl
    | exact fun _ => id | exact fun _ _ => rfl | rfl | split | intro _

theorem keeps_writeFree (h : Keeps lv s0 s) (a : Nat) (l : List Byte) : Keeps lv s0 (writeFree a l s).1 := by
  unfold writeFree
  try dsimp only
  repeat' first
    | assumption | with_reducible apply keeps_lockedWrite | with_reducible apply keeps_hbmStoreRun
    | with_reducible apply keeps_spadWrite | with_reducible apply keeps_arrayWrite | exact id | exact fun _ => rfl
    | exact fun _ => id | exact fun _ _ => rfl | rfl | split

theorem keeps_stageInput (h : Keeps lv s0 s) (port tag a : Nat) (l : List Byte) : Keeps lv s0 (stageInput port tag a l s).1 := by
  unfold stageInput
  try dsimp only
  repeat' first
    | assumption | with_reducible apply Keeps.setBit | with_reducible apply Keeps.modPort | exact id | exact fun _ => rfl
    | exact fun _ => id | exact fun _ _ => rfl | rfl | split

theorem keeps_writeActive (h : Keeps lv s0 s) (port tag a : Nat) (l : List Byte) : Keeps lv s0 (writeActive port tag a l s).1 := by
  unfold writeActive
  try dsimp only
  repeat' first
    | assumption | with_reducible apply Keeps.setBit | with_reducible apply keeps_raise0
    | with_reducible apply keeps_lockedWrite | with_reducible apply keeps_hbmStoreRun | with_reducible apply keeps_stageInput
    | exact id | exact fun _ => rfl | exact fun _ => id | exact fun _ _ => rfl | rfl | split

theorem keeps_serveWrite (h : Keeps lv s0 s) (port tag a : Nat) (l : List Byte) : Keeps lv s0 (serveWrite port tag a l s) := by
  have k := keeps_writeActive h port tag a l
  unfold serveWrite
  split
  · split <;> (rename_i e; rw [e] at k)
    · exact keeps_reply k _ _ _ _
    · exact k
  · exact keeps_reply (keeps_writeFree h _ _) _ _ _ _

theorem keeps_judgeInput (h : Keeps lv s0 s) (x : Staged) : Keeps lv s0 (judgeInput x s) := by
  have k := fun t e => keeps_landWrite h 0 x.addr x.data false false 0 t e
  unfold judgeInput
  extract_lets no
  split
  · exact (keeps_windowClosed h _ _).modCur _
  · split
    · exact k _ (.inl ‹_›)
    · exact ((k _ (.inr ‹_›)).setBit _ _).modCur _
    · exact (h.setBit _ _).modCur _

theorem keeps_applyInputs (h : Keeps lv s0 s) (again : Bool) : Keeps lv s0 (applyInputs again s) := by
  unfold applyInputs
  try dsimp only
  repeat' first
    | assumption | with_reducible apply Keeps.modCur | with_reducible apply Keeps.modPort | with_reducible apply Keeps.forEach
    | with_reducible apply keeps_judgeInput | exact id | exact fun _ => rfl | exact fun _ => id | exact fun _ _ => rfl | rfl
    | split | intro _

theorem keeps_writerFn (h : Keeps lv s0 s) (f : DWord) : Keeps lv s0 (writerFn f s).2 := by
  unfold writerFn
  split
  · exact h.usedFree
  · exact h

theorem keeps_slotAnswer (h : Keeps lv s0 s) (port tag op core slot n : Nat) (ready : Bool) : Keeps lv s0 (slotAnswer port tag op core slot n ready s) := by
  unfold slotAnswer
  try dsimp only
  repeat' first
    | assumption | with_reducible apply keeps_writerFn | with_reducible apply keeps_spReadS | with_reducible apply keeps_answerOn | with_reducible apply keeps_atOnce
    | exact id | exact fun _ => rfl | exact fun _ => id | exact fun _ _ => rfl | rfl | split | intro _

theorem keeps_serveConsume (h : Keeps lv s0 s) (port tag core slot n : Nat) : Keeps lv s0 (serveConsume port tag core slot n s) := by
  unfold serveConsume
  try dsimp only
  repeat' first
    | assumption | with_reducible apply Keeps.modPort | with_reducible apply Keeps.foldl | with_reducible apply keeps_slotAnswer
    | exact id

theorem keeps_takeConsume (h : Keeps lv s0 s) (port tag core slot n : Nat) : Keeps lv s0 (takeConsume port tag core slot n s) := by
  unfold takeConsume
  try dsimp only
  repeat' first
    | assumption | with_reducible apply Keeps.modPort | with_reducible apply keeps_reply
    | with_reducible apply keeps_serveConsume | exact id | exact fun _ => rfl | exact fun _ => id | exact fun _ _ => rfl | rfl
    | split

theorem keeps_reexamine (h : Keeps lv s0 s) (w : WaitRead) : Keeps lv s0 (reexamine w s) := by
  unfold reexamine
  try dsimp only
  repeat' first
    | assumption | with_reducible apply keeps_reply | with_reducible apply keeps_serveConsume | exact id | exact fun _ => rfl
    | exact fun _ => id | exact fun _ _ => rfl | rfl | split

theorem keeps_consumeReexamine (h : Keeps lv s0 s)  : Keeps lv s0 (consumeReexamine s) := by
  unfold consumeReexamine
  try dsimp only
  repeat' first
    | assumption | with_reducible apply Keeps.modPort | with_reducible apply Keeps.forEach
    | with_reducible apply keeps_reexamine | exact id | exact fun _ => rfl | exact fun _ => id | exact fun _ _ => rfl | rfl
    | split | intro _

theorem keeps_takePeek (h : Keeps lv s0 s) (port tag core slot n : Nat) : Keeps lv s0 (takePeek port tag core slot n s) := by
  unfold takePeek
  try dsimp only
  repeat' first
    | assumption | with_reducible apply keeps_reply | with_reducible apply keeps_slotAnswer | exact id | exact fun _ => rfl
    | exact fun _ => id | exact fun _ _ => rfl | rfl | split

theorem keeps_noteWindowRead (h : Keeps lv s0 s) (core o n : Nat) : Keeps lv s0 (noteWindowRead core o n s) :=
  Keeps.whenS _ _ (fun _ k => keeps_noteArrRead k _ _ _ _) (keeps_noteArrRead h _ _ _ _)

theorem keeps_memAnswer (h : Keeps lv s0 s) (port tag a n : Nat) (data : List Byte) : Keeps lv s0 (memAnswer port tag a n data s) := by
  unfold memAnswer
  try dsimp only
  repeat' first
    | assumption | with_reducible apply keeps_writerFn | with_reducible apply keeps_answerOn | exact id | exact fun _ => rfl | exact fun _ => id
    | exact fun _ _ => rfl | rfl | split

theorem keeps_takeMem (h : Keeps lv s0 s) (port tag a n : Nat) : Keeps lv s0 (takeMem port tag a n s) := by
  unfold takeMem
  try dsimp only
  repeat' first
    | assumption | with_reducible apply keeps_noteWindowRead | with_reducible apply keeps_spEffects | with_reducible apply keeps_hbmRead | with_reducible apply keeps_reply
    | with_reducible apply keeps_atOnce | with_reducible apply keeps_memAnswer | exact id | exact fun _ => rfl
    | exact fun _ => id | exact fun _ _ => rfl | rfl | split | intro _

theorem keeps_takeCapacity (h : Keeps lv s0 s) (port tag n : Nat) : Keeps lv s0 (takeCapacity port tag n s) := by
  unfold takeCapacity
  try dsimp only
  repeat' first | assumption | with_reducible apply keeps_answerOn

theorem keeps_takeAttest (h : Keeps lv s0 s) (port tag a n : Nat) : Keeps lv s0 (takeAttest port tag a n s) := by
  unfold takeAttest
  try dsimp only
  repeat' first
    | assumption | with_reducible apply Keeps.modPort | with_reducible apply keeps_reply | exact id | exact fun _ => rfl
    | exact fun _ => id | exact fun _ _ => rfl | rfl | split

theorem keeps_attestOne (h : Keeps lv s0 s) (w : WaitRead) : Keeps lv s0 (attestOne w s) := by
  unfold attestOne
  try dsimp only
  repeat' first
    | assumption | with_reducible apply keeps_answerOn | with_reducible apply keeps_reply | exact id | exact fun _ => rfl
    | exact fun _ => id | exact fun _ _ => rfl | rfl | split

theorem keeps_attestReport (h : Keeps lv s0 s)  : Keeps lv s0 (attestReport s) := by
  unfold attestReport
  try dsimp only
  repeat' first
    | assumption | with_reducible apply Keeps.modPort | with_reducible apply Keeps.forEach
    | with_reducible apply keeps_attestOne | exact id | exact fun _ => rfl | exact fun _ => id | exact fun _ _ => rfl | rfl
    | split | intro _

theorem keeps_takeRegRead (h : Keeps lv s0 s) (port tag a : Nat) : Keeps lv s0 (takeRegRead port tag a s) := by
  unfold takeRegRead
  try dsimp only
  repeat' first | assumption | with_reducible apply keeps_readReg | with_reducible apply keeps_answerOn

theorem keeps_ackEvents (h : Keeps lv s0 s) (seq : Nat) : Keeps lv s0 (ackEvents seq s) :=
  (h.modPort _ (fun e => Nat.le_trans (List.length_filter_le ..) e) id id).setFld _ _ _ _

theorem keeps_sendEntries (h : Keeps lv s0 s) (port : Nat) (l : List EvEntry) : Keeps lv s0 (sendEntries port l s) := by
  unfold sendEntries
  try dsimp only
  repeat' first
    | assumption | with_reducible apply Keeps.send | with_reducible apply Keeps.forEach | exact id | exact fun _ => rfl
    | exact fun _ => id | exact fun _ _ => rfl | rfl | split | intro _

theorem length_flagLost (due : EvEntry → Bool) (l : List EvEntry) : (flagLost due l).length = l.length := by
  induction l with
  | nil => rfl
  | cons e r ih =>
    unfold flagLost
    split
    · rfl
    · simp [ih]

theorem keeps_reportLost (h : Keeps lv s0 s) (due : EvEntry → Bool) : Keeps lv s0 (reportLost due s) := by
  unfold reportLost
  split
  · exact h.modPort _ (fun e => by rw [length_flagLost]; exact e) id id
  · exact h

theorem keeps_eventResend (h : Keeps lv s0 s) : Keeps lv s0 (eventResend s) := by
  unfold eventResend
  extract_lets up s1 s2
  split
  · exact h
  · exact (Keeps.forEach _ _ (fun _ _ k => keeps_sendEntries k _ _) (keeps_reportLost h _)).modPort _
      (fun e => by rw [List.length_map]; exact e) id id

theorem keeps_portState (h : Keeps lv s0 s) (port : Nat) (up : Bool) : Keeps lv s0 (portState port up s) := by
  unfold portState
  split
  · exact h
  · split
    · exact (keeps_sendEntries (keeps_reportLost (h.setBit _ _) _) _ _).modPort _
        (fun e => by rw [List.length_map]; exact e) id id
    · exact ((h.clrBit _ _).setBit _ _).addCnt _ _ _ _

theorem keeps_takeAckBlock (h : Keeps lv s0 s) (i lseq : Nat) : Keeps lv s0 (takeAckBlock i lseq s) := by
  unfold takeAckBlock
  try dsimp only
  repeat' first
    | assumption | with_reducible apply Keeps.setLink | with_reducible apply keeps_pumpLink | exact id | exact fun _ => rfl
    | exact fun _ => id | exact fun _ _ => rfl | rfl | split

theorem keeps_resend (h : Keeps lv s0 s) (i : Nat) (l : List Packet) : Keeps lv s0 (resend i l s) := by
  unfold resend
  try dsimp only
  repeat' first
    | assumption | with_reducible apply Keeps.setBit | with_reducible apply Keeps.addCnt | with_reducible apply Keeps.modLink
    | with_reducible apply Keeps.send | with_reducible apply Keeps.forEach
    | exact id | exact fun _ => rfl | exact fun _ => id | exact fun _ _ => rfl | rfl | split | intro _

theorem keeps_takeNak (h : Keeps lv s0 s) (i lseq : Nat) : Keeps lv s0 (takeNak i lseq s) := by
  unfold takeNak
  try dsimp only
  repeat' first
    | assumption | with_reducible apply Keeps.setLink | with_reducible apply keeps_resend | exact id | exact fun _ => rfl
    | exact fun _ => id | exact fun _ _ => rfl | rfl | split

theorem keeps_takeCredit (h : Keeps lv s0 s) (i c0 c1 : Nat) : Keeps lv s0 (takeCredit i c0 c1 s) := by
  unfold takeCredit
  try dsimp only
  repeat' first
    | assumption | with_reducible apply Keeps.modLink | with_reducible apply keeps_pumpLink
    | exact id | exact fun _ => rfl | exact fun _ => id | exact fun _ _ => rfl | rfl | split | intro _

theorem keeps_takeEcho (h : Keeps lv s0 s) (i ts turnaround t : Nat) : Keeps lv s0 (takeEcho i ts turnaround t s) := by
  unfold takeEcho
  try dsimp only
  repeat' first
    | assumption | with_reducible apply Keeps.setReg | with_reducible apply Keeps.setBit | with_reducible apply Keeps.modLink
    | with_reducible apply keeps_raise0 | exact id | exact fun _ => rfl | exact fun _ => id | exact fun _ _ => rfl | rfl | split

theorem keeps_retiredNow (h : Keeps lv s0 s) (l : Loc) : Keeps lv s0 (retiredNow l s) := by
  unfold retiredNow
  try dsimp only
  repeat' first
    | assumption | with_reducible apply Keeps.setBit | with_reducible apply keeps_raiseFx
    | with_reducible apply keeps_newLogEntry

theorem keeps_retireLink (h : Keeps lv s0 s) (i : Nat) : Keeps lv s0 (retireLink i s) := by
  unfold retireLink
  extract_lets s1 s2 s3 s4
  have k1 : Keeps lv s0 s1 := h.whenS _ _ fun _ k => k.setBit _ _
  clear_value s1
  have k3 : Keeps lv s0 s3 := ((k1.modLink _ _).setFld _ _ _ _).setBit _ _
  clear_value s3
  exact keeps_retiredNow (keeps_setLinkState (k3.markRetired _ _) _ _ _) _

theorem keeps_moveLane (h : Keeps lv s0 s) (i lane : Nat) (mine : Bool) : Keeps lv s0 (moveLane i lane mine s) := by
  unfold moveLane
  extract_lets s1 s2 s3 s4
  have k3 : Keeps lv s0 s3 := Keeps.whenS _ _ (fun _ k => keeps_retiredNow (k.markRetired _ _) _)
    ((((h.setFld _ _ _ _).setBit _ _).setBit _ _).modLink _ _)
  clear_value s3
  split
  · exact keeps_pumpLink (keeps_resend (keeps_sendAcks k3 _) _ _) _
  · exact k3

theorem keeps_laneFails (h : Keeps lv s0 s) (i lane : Nat) : Keeps lv s0 (laneFails i lane s) := by
  unfold laneFails
  extract_lets l s1
  split
  · exact h
  · have k : Keeps lv s0 s1 := h.setLink _ _
    clear_value s1
    split
    · exact k
    · split
      · exact keeps_retireLink k _
      · exact (k.modLink _ _).send _

theorem keeps_takeSwap (h : Keeps lv s0 s) (i lane : Nat) (isAck : Bool) : Keeps lv s0 (takeSwap i lane isAck s) := by
  unfold takeSwap
  split
  · exact h
  · split
    · split
      · exact keeps_moveLane h _ _ _
      · exact h
    · split
      · exact keeps_retireLink h _
      · exact keeps_moveLane (h.send _) _ _ _

theorem keeps_takeTrain (h : Keeps lv s0 s) (i : Nat) (p : PeerId) : Keeps lv s0 (takeTrain i p s) := by
  unfold takeTrain
  try dsimp only
  repeat' first
    | assumption | with_reducible apply Keeps.setBit | with_reducible apply Keeps.setFld | with_reducible apply Keeps.modLink
    | with_reducible apply keeps_setLinkState | exact id | exact fun _ => rfl | exact fun _ => id | exact fun _ _ => rfl | rfl
    | split

theorem keeps_trainingDone (h : Keeps lv s0 s) (i : Nat) (r : TrainResult) : Keeps lv s0 (trainingDone i r s) := by
  unfold trainingDone
  try dsimp only
  repeat' first
    | assumption | with_reducible apply keeps_pumpLink | with_reducible apply keeps_setLinkState
    | with_reducible apply keeps_resend | exact id | exact fun _ => rfl | exact fun _ => id | exact fun _ _ => rfl | rfl | split

theorem keeps_linkFails (h : Keeps lv s0 s) (i : Nat) (cause : LinkFault) : Keeps lv s0 (linkFails i cause s) := by
  unfold linkFails
  try dsimp only
  repeat' first
    | assumption | with_reducible apply Keeps.setBit | with_reducible apply Keeps.modLink | with_reducible apply Keeps.send
    | with_reducible apply keeps_setLinkState | exact id | exact fun _ => rfl | exact fun _ => id | exact fun _ _ => rfl | rfl
    | split

theorem keeps_cableOff (h : Keeps lv s0 s) (i : Nat) : Keeps lv s0 (cableOff i s) := by
  unfold cableOff
  try dsimp only
  repeat' first
    | assumption | with_reducible apply Keeps.modLink | with_reducible apply keeps_setLinkState | exact id | exact fun _ => rfl
    | exact fun _ => id | exact fun _ _ => rfl | rfl | split

theorem keeps_loseDie (h : Keeps lv s0 s) (d : Nat) : Keeps lv s0 (loseDie d s) := by
  unfold loseDie
  try dsimp only
  repeat' first
    | assumption | with_reducible apply Keeps.modImg | with_reducible apply Keeps.markRetired
    | with_reducible apply keeps_capacityChanged | exact id | exact fun _ => rfl | exact fun _ => id | exact fun _ _ => rfl
    | rfl

theorem keeps_retireDieUnit (h : Keeps lv s0 s) (i : Nat) (l : Loc) : Keeps lv s0 (retireDieUnit i l s) := by
  unfold retireDieUnit
  try dsimp only
  repeat' first
    | assumption | with_reducible apply Keeps.setBit | with_reducible apply Keeps.modBist
    | with_reducible apply Keeps.markRetired | with_reducible apply keeps_raiseFx | with_reducible apply keeps_loseDie
    | exact id | exact fun _ => rfl | exact fun _ => id | exact fun _ _ => rfl | rfl | split

theorem keeps_dieFault (h : Keeps lv s0 s) (l : Loc) : Keeps lv s0 (dieFault l s) := by
  unfold dieFault
  try dsimp only
  repeat' first
    | assumption | with_reducible apply keeps_detectFault | with_reducible apply keeps_retireDieUnit | exact id
    | exact fun _ => rfl | exact fun _ => id | exact fun _ _ => rfl | rfl | split

theorem keeps_flitError (h : Keeps lv s0 s) (d : Nat) (ring second : Bool) : Keeps lv s0 (flitError d ring second s) := by
  unfold flitError
  try dsimp only
  repeat' first
    | assumption | with_reducible apply Keeps.modBist | with_reducible apply keeps_dieFault | exact id | exact fun _ => rfl
    | exact fun _ => id | exact fun _ _ => rfl | rfl | split

end Sys2Proof.Machine
end

