-- ==== Sys2Proof/Laws/KeepsTick.lean ====
section
/-! SUPPORT. `Keeps` (Laws/Keeps.lean) for every function from states to states of power, bring-up, the service port,
Sandglass and the tick. -/

set_option maxRecDepth 4000

namespace Sys2Proof.Machine

variable {lv : Nat} {s0 s : State}

theorem keeps_resumeMacros (h : Keeps lv s0 s)  : Keeps lv s0 (resumeMacros s) := by
  unfold resumeMacros
  try dsimp only
  repeat' first
    | assumption | with_reducible apply Keeps.forEach | with_reducible apply keeps_goOn | exact id | exact fun _ => rfl
    | exact fun _ => id | exact fun _ _ => rfl | rfl | split | intro _

theorem keeps_capRule (h : Keeps lv s0 s)  : Keeps lv s0 (capRule s) := by
  unfold capRule
  try dsimp only
  repeat' first
    | assumption | with_reducible apply Keeps.setBit | with_reducible apply Keeps.modPwr | with_reducible apply Keeps.whenS
    | with_reducible apply keeps_raise0 | with_reducible apply keeps_resumeMacros | exact id | exact fun _ => rfl
    | exact fun _ => id | exact fun _ _ => rfl | rfl | split | intro _

theorem keeps_governorSample (h : Keeps lv s0 s) (pReal : Nat) : Keeps lv s0 (governorSample pReal s) := by
  unfold governorSample
  try dsimp only
  repeat' first
    | assumption | with_reducible apply Keeps.setBit | with_reducible apply Keeps.modPwr | with_reducible apply Keeps.whenS
    | with_reducible apply keeps_raise0 | with_reducible apply keeps_capRule | exact id | exact fun _ => rfl | exact fun _ => id
    | exact fun _ _ => rfl | rfl | split | intro _

theorem keeps_slewFlat (h : Keeps lv s0 s) (pIn : Nat) : Keeps lv s0 (slewFlat pIn s) := by
  unfold slewFlat
  try dsimp only
  repeat' first
    | assumption | with_reducible apply Keeps.setBit | with_reducible apply Keeps.addCnt | with_reducible apply Keeps.whenS
    | exact id | exact fun _ => rfl | exact fun _ => id | exact fun _ _ => rfl | rfl | split | intro _

theorem keeps_moveTarget (h : Keeps lv s0 s)  : Keeps lv s0 (moveTarget s) := by
  unfold moveTarget
  try dsimp only
  repeat' first
    | assumption | with_reducible apply Keeps.setReg | exact id | exact fun _ => rfl | exact fun _ => id | exact fun _ _ => rfl
    | rfl | split | intro _
  all_goals (with_reducible apply Keeps.rest)
  repeat' assumption

theorem keeps_ceilings (h : Keeps lv s0 s)  : Keeps lv s0 (ceilings s) := by
  unfold ceilings
  try dsimp only
  repeat' first | assumption | with_reducible apply Keeps.setFld | with_reducible apply Keeps.modPwr

theorem keeps_governorMs (h : Keeps lv s0 s)  : Keeps lv s0 (governorMs s) := by
  unfold governorMs
  try dsimp only
  repeat' first
    | assumption | with_reducible apply Keeps.setReg | with_reducible apply Keeps.modPwr | with_reducible apply keeps_slewFlat
    | with_reducible apply keeps_moveTarget | with_reducible apply keeps_ceilings
    | exact id | exact fun _ => rfl | exact fun _ => id | exact fun _ _ => rfl | rfl | split | intro _

theorem keeps_preRampStart (h : Keeps lv s0 s)  : Keeps lv s0 (preRampStart s) := by
  unfold preRampStart
  try dsimp only
  repeat' first
    | assumption | with_reducible apply Keeps.modPwr | exact id | exact fun _ => rfl | exact fun _ => id | exact fun _ _ => rfl
    | rfl | split

theorem keeps_descentStart (h : Keeps lv s0 s)  : Keeps lv s0 (descentStart s) := by
  unfold descentStart
  try dsimp only
  repeat' first
    | assumption | with_reducible apply Keeps.modPwr | exact id | exact fun _ => rfl | exact fun _ => id | exact fun _ _ => rfl
    | rfl | split

theorem keeps_stopDie (h : Keeps lv s0 s) (d : Nat) : Keeps lv s0 (stopDie d s) := by
  unfold stopDie
  try dsimp only
  all_goals (with_reducible apply Keeps.rest)
  repeat' assumption

theorem keeps_junctionTrip (h : Keeps lv s0 s) (d : Nat) : Keeps lv s0 (junctionTrip d s) := by
  unfold junctionTrip
  try dsimp only
  repeat' first
    | assumption | with_reducible apply Keeps.setBit | with_reducible apply Keeps.modImg | with_reducible apply Keeps.modBist
    | with_reducible apply keeps_detectFault | with_reducible apply keeps_capacityChanged | with_reducible apply keeps_stopDie
    | exact id | exact fun _ => rfl | exact fun _ => id | exact fun _ _ => rfl | rfl | split

theorem keeps_finishTransition (h : Keeps lv s0 s)  : Keeps lv s0 (finishTransition s) := by
  unfold finishTransition
  try dsimp only
  repeat' first
    | assumption | with_reducible apply Keeps.foldl | with_reducible apply keeps_pageStore | exact id | exact fun _ => rfl
    | exact fun _ => id | exact fun _ _ => rfl | rfl | split | intro _

theorem keeps_powerReset (h : Keeps 0 s0 s) : Keeps 0 s0 (powerReset s) := by
  unfold powerReset
  extract_lets r1 r
  have k : Keeps 0 s r := by
    constructor
    · exact fun _ => rfl
    · exact fun _ => rfl
    · exact fun _ => rfl
    · exact fun _ => rfl
    · exact fun _ => rfl
    · exact fun _ => Nat.zero_le _
    · exact fun _ => Nat.zero_le _
    · exact fun _ => Nat.zero_le _
    · exact fun _ => Nat.zero_le _
    · exact fun _ => rfl
    · rfl
    · rfl
    · exact fun e => absurd e (by decide)
    · exact fun e => absurd e (by decide)
    · exact fun e => absurd e (by decide)
  clear_value r
  exact ((h.trans k).setReg64 _ _).putBit _ _ _

theorem keeps_inputLost (h : Keeps 0 s0 s) (state bitIx : Nat) : Keeps 0 s0 (inputLost state bitIx s) := by
  unfold inputLost
  try dsimp only
  repeat' first
    | assumption | with_reducible apply Keeps.setBit | with_reducible apply Keeps.modPwr
    | with_reducible apply keeps_finishTransition | with_reducible apply keeps_powerReset | exact id | exact fun _ => rfl
    | exact fun _ => id | exact fun _ _ => rfl | rfl | split

theorem keeps_inputRestored (h : Keeps 0 s0 s)  : Keeps 0 s0 (inputRestored s) := by
  unfold inputRestored
  try dsimp only
  repeat' first
    | assumption | with_reducible apply Keeps.setBit | with_reducible apply Keeps.modPwr | with_reducible apply keeps_powerReset
    | exact id | exact fun _ => rfl | exact fun _ => id | exact fun _ _ => rfl | rfl | split

theorem keeps_setStage (h : Keeps lv s0 s) (n : Nat) : Keeps lv s0 (setStage n s) := by
  unfold setStage
  try dsimp only
  repeat' first | assumption | with_reducible apply Keeps.setFld

theorem keeps_fwDigestOf (h : Keeps lv s0 s) (slot : Nat) : Keeps lv s0 (fwDigestOf s slot).2 := by
  unfold fwDigestOf
  try dsimp only
  repeat' first
    | assumption | with_reducible apply Keeps.usedFree | exact id | exact fun _ => rfl | exact fun _ => id
    | exact fun _ _ => rfl | rfl | split

theorem keeps_stageTwo (h : Keeps lv s0 s) (f : BootFindings) : Keeps lv s0 (stageTwo f s).1 := by
  unfold stageTwo
  try dsimp only
  repeat' first
    | assumption | with_reducible apply Keeps.setReg | with_reducible apply Keeps.setBit | with_reducible apply Keeps.setFld
    | with_reducible apply Keeps.modSec | with_reducible apply Keeps.whenS | with_reducible apply keeps_setStage
    | with_reducible apply keeps_fwDigestOf | exact id | exact fun _ => rfl | exact fun _ => id | exact fun _ _ => rfl | rfl
    | split | intro _

theorem keeps_loadClId (h : Keeps lv s0 s)  : Keeps lv s0 (loadClId s) := by
  unfold loadClId
  try dsimp only
  repeat' first
    | assumption | with_reducible apply Keeps.setReg | exact id | exact fun _ => rfl | exact fun _ => id | exact fun _ _ => rfl
    | rfl | split

theorem keeps_loadSlew (h : Keeps lv s0 s)  : Keeps lv s0 (loadSlew s) := by
  unfold loadSlew
  try dsimp only
  repeat' first
    | assumption | with_reducible apply Keeps.setReg | exact id | exact fun _ => rfl | exact fun _ => id | exact fun _ _ => rfl
    | rfl | split

theorem keeps_firstTick (h : Keeps 0 s0 s) : Keeps 0 s0 (firstTick s) := by
  unfold firstTick
  exact Keeps.whenS _ _ (fun _ k => k.setBit _ _) (h.modTk _ (by simp) (by simp) (by simp))

theorem keeps_stageThree (h : Keeps 0 s0 s)  : Keeps 0 s0 (stageThree s) := by
  unfold stageThree
  try dsimp only
  repeat' first
    | assumption | with_reducible apply Keeps.setReg | with_reducible apply Keeps.setReg64 | with_reducible apply Keeps.modSec
    | with_reducible apply Keeps.modBist | with_reducible apply Keeps.usedFree | with_reducible apply keeps_setStage
    | with_reducible apply keeps_loadClId | with_reducible apply keeps_loadSlew | with_reducible apply keeps_firstTick
    | exact id | exact fun _ => rfl | exact fun _ => id | exact fun _ _ => rfl | rfl

theorem keeps_bistRetire (h : Keeps lv s0 s) (base i : Nat) (l : Loc) : Keeps lv s0 (bistRetire base i l s) := by
  unfold bistRetire
  try dsimp only
  repeat' first
    | assumption | with_reducible apply Keeps.setBit | with_reducible apply Keeps.markRetired
    | with_reducible apply keeps_newLogEntry | exact id | exact fun _ => rfl | exact fun _ => id | exact fun _ _ => rfl | rfl
    | split

theorem keeps_bistCore (h : Keeps lv s0 s) (d p : Nat) : Keeps lv s0 (bistCore d p s) := by
  unfold bistCore
  try dsimp only
  repeat' first | assumption | with_reducible apply keeps_bistRetire

theorem keeps_bistFail (h : Keeps lv s0 s) (x : BistFail) : Keeps lv s0 (bistFail x s) := by
  unfold bistFail
  try dsimp only
  repeat' first
    | assumption | with_reducible apply Keeps.setBit | with_reducible apply Keeps.setFld | with_reducible apply Keeps.modBist
    | with_reducible apply keeps_bistRetire | with_reducible apply Keeps.markRetired | with_reducible apply keeps_bistCore | exact id | exact fun _ => rfl
    | exact fun _ => id | exact fun _ _ => rfl | rfl | split

theorem keeps_hubBist (h : Keeps lv s0 s) (f : BootFindings) : Keeps lv s0 (hubBist f s).1 := by
  unfold hubBist
  try dsimp only
  repeat' first
    | assumption | with_reducible apply Keeps.setBit | with_reducible apply Keeps.setFld | with_reducible apply keeps_raise0
    | with_reducible apply keeps_setStage | exact id | exact fun _ => rfl | exact fun _ => id | exact fun _ _ => rfl | rfl
    | split

theorem keeps_bootLink (h : Keeps lv s0 s) (i : Nat) : Keeps lv s0 (bootLink i s) := by
  unfold bootLink
  try dsimp only
  repeat' first
    | assumption | with_reducible apply Keeps.setBit | with_reducible apply Keeps.setFld | with_reducible apply Keeps.modLink
    | exact id | exact fun _ => rfl | exact fun _ => id | exact fun _ _ => rfl | rfl | split

theorem keeps_stageFive (h : Keeps lv s0 s) (f : BootFindings) : Keeps lv s0 (stageFive f s) := by
  unfold stageFive
  try dsimp only
  repeat' first
    | assumption | with_reducible apply Keeps.modImg | with_reducible apply Keeps.forEach
    | with_reducible apply keeps_startTraining | with_reducible apply keeps_setStage | with_reducible apply keeps_bistFail
    | with_reducible apply keeps_bootLink | exact id | exact fun _ => rfl | exact fun _ => id | exact fun _ _ => rfl | rfl
    | split | intro _

theorem keeps_mapMacros (h : Keeps lv s0 s) (core : Nat) : Keeps lv s0 (mapMacros core s) := by
  unfold mapMacros
  try dsimp only
  repeat' first
    | assumption | with_reducible apply Keeps.modImg | with_reducible apply Keeps.forEach | with_reducible apply keeps_setPmacro
    | with_reducible apply keeps_retireBankPwr
    | exact id | exact fun _ => rfl | exact fun _ => id | exact fun _ _ => rfl | rfl | split | intro _

theorem keeps_mapDie (h : Keeps lv s0 s) (d : Nat) : Keeps lv s0 (mapDie d s) := by
  unfold mapDie
  try dsimp only
  repeat' first
    | assumption | with_reducible apply Keeps.modImg | with_reducible apply Keeps.modBist | with_reducible apply Keeps.forEach
    | with_reducible apply keeps_mapMacros | exact id | exact fun _ => rfl | exact fun _ => id | exact fun _ _ => rfl | rfl
    | split | intro _

theorem keeps_dieBist (h : Keeps lv s0 s) (d : Nat) (fails : List BistFail) : Keeps lv s0 (dieBist d fails s) := by
  unfold dieBist
  try dsimp only
  repeat' first
    | assumption | with_reducible apply Keeps.setFld | with_reducible apply Keeps.forEach | with_reducible apply keeps_bistFail
    | with_reducible apply keeps_mapDie | exact id | exact fun _ => rfl | exact fun _ => id | exact fun _ _ => rfl | rfl | split
    | intro _

theorem keeps_stageSixSeven (h : Keeps lv s0 s) (f : BootFindings) : Keeps lv s0 (stageSixSeven f s) := by
  unfold stageSixSeven
  try dsimp only
  repeat' first
    | assumption | with_reducible apply Keeps.modImg | with_reducible apply Keeps.forEach | with_reducible apply keeps_raiseKind
    | with_reducible apply keeps_setStage | with_reducible apply keeps_dieBist | exact id | exact fun _ => rfl
    | exact fun _ => id | exact fun _ _ => rfl | rfl | split | intro _

theorem keeps_chargeHoldup (h : Keeps lv s0 s)  : Keeps lv s0 (chargeHoldup s) := by
  unfold chargeHoldup
  try dsimp only
  repeat' first | assumption | with_reducible apply Keeps.setFld | with_reducible apply Keeps.usedFree

theorem keeps_bringUp (h : Keeps 0 s0 s) (f : BootFindings) : Keeps 0 s0 (bringUp f s) := by
  unfold bringUp
  try dsimp only
  repeat' first
    | assumption | with_reducible apply keeps_stageTwo | with_reducible apply keeps_stageThree
    | with_reducible apply keeps_hubBist | with_reducible apply keeps_stageFive | with_reducible apply keeps_stageSixSeven
    | with_reducible apply keeps_chargeHoldup | exact id | exact fun _ => rfl | exact fun _ => id | exact fun _ _ => rfl | rfl
    | split

theorem keeps_dieRegsReset (h : Keeps lv s0 s) (d : Nat) : Keeps lv s0 (dieRegsReset d s) :=
  h.regsTo _ (SMap.wf_dropRange regReset s.regs _ _)

theorem keeps_coreReset (h : Keeps lv s0 s) (core : Nat) : Keeps lv s0 (coreReset core s) := by
  unfold coreReset
  try dsimp only
  repeat' first | assumption | with_reducible apply Keeps.modCore

theorem keeps_reloadCore (h : Keeps lv s0 s) (core : Nat) : Keeps lv s0 (reloadCore core s) := by
  unfold reloadCore
  try dsimp only
  repeat' first | assumption | with_reducible apply keeps_loadCore | with_reducible apply keeps_coreReset

theorem bring_wf (old m : Mem) (a b n : Nat) (h : Mem.wf m = true) : Mem.wf (bring memDefault old a b n m) = true :=
  Mem.wf_foldSet (old.filter fun e => decide (a ≤ e.1) && decide (e.1 < a + n)) (fun e => b + (e.1 - a)) (·.2)
    (SMap.dropRange m b (b + n)) (SMap.wf_dropRange memDefault m b (b + n) h)

theorem keeps_bringBanks (h : Keeps lv s0 s) (u : State) (old new : Nat) : Keeps lv s0 (bringBanks u old new s) := by
  unfold bringBanks
  split
  · exact h
  · exact { h.spadTo _ (bring_wf u.spad s.spad _ _ _) with }

theorem keeps_bringMacro (h : Keeps lv s0 s) (u : State) (old new : Nat) : Keeps lv s0 (bringMacro u old new s) := by
  unfold bringMacro
  split
  · exact h
  · exact { (h.macTo _ (bring_wf u.mac s.mac _ _ _)).scaleTo _ (bring_wf u.scale s.scale _ _ _) with }

theorem keeps_bringContents (h : Keeps lv s0 s) (d : Nat) (u : State) : Keeps lv s0 (bringContents d u s) :=
  Keeps.forEach _ _ (fun _ _ k => Keeps.forEach _ _ (fun _ _ k => keeps_bringMacro k _ _ _) (keeps_bringBanks k _ _ _)) h

theorem keeps_thermalRelease (h : Keeps lv s0 s) (d : Nat) (fails : List BistFail) : Keeps lv s0 (thermalRelease d fails s) := by
  unfold thermalRelease
  split
  · exact h
  · extract_lets u s1 s2 cores s3 s4 s5 s6
    have k3 : Keeps lv s0 s3 :=
      Keeps.forEach _ _ (fun _ _ k => keeps_coreReset k _) (keeps_dieRegsReset (h.modBist _) _)
    clear_value s3
    have k5 : Keeps lv s0 s5 := keeps_bringContents (keeps_dieBist ((k3.setFld _ _ _ _).modPwr _) _ _) _ _
    clear_value s5
    exact keeps_capacityChanged (keeps_freeTags (Keeps.forEach _ _ (fun _ _ k => keeps_reloadCore k _) k5) _) _

theorem keeps_leaveResult (h : Keeps lv s0 s) (st : Nat) (v : Word) : Keeps lv s0 (leaveResult st v s) := by
  unfold leaveResult
  try dsimp only
  repeat' first | assumption | with_reducible apply Keeps.modSvc

theorem keeps_readRequest (h : Keeps lv s0 s) (a : Nat) : Keeps lv s0 (readRequest a s) := by
  unfold readRequest
  try dsimp only
  repeat' first
    | assumption | with_reducible apply keeps_readReg | with_reducible apply keeps_leaveResult | exact id | exact fun _ => rfl
    | exact fun _ => id | exact fun _ _ => rfl | rfl | split

theorem keeps_writeRequest (h : Keeps lv s0 s) (a : Nat) (v : Word) : Keeps lv s0 (writeRequest a v s) := by
  unfold writeRequest
  try dsimp only
  repeat' first
    | assumption | with_reducible apply keeps_writeReg | with_reducible apply keeps_leaveResult | exact id | exact fun _ => rfl
    | exact fun _ => id | exact fun _ _ => rfl | rfl | split

theorem keeps_privateWrite (h : Keeps lv s0 s) (l : List Byte) : Keeps lv s0 (privateWrite l s) := by
  unfold privateWrite
  try dsimp only
  repeat' first
    | assumption | with_reducible apply keeps_leaveResult | with_reducible apply keeps_readRequest
    | with_reducible apply keeps_writeRequest
    | exact id | exact fun _ => rfl | exact fun _ => id | exact fun _ _ => rfl | rfl | split | intro _

theorem keeps_resultRead (h : Keeps lv s0 s) (n : Nat) : Keeps lv s0 (resultRead n s) := by
  unfold resultRead
  try dsimp only
  repeat' first
    | assumption | with_reducible apply Keeps.modSvc | with_reducible apply Keeps.send | exact id | exact fun _ => rfl
    | exact fun _ => id | exact fun _ _ => rfl | rfl | split

theorem keeps_takeAddress (h : Keeps lv s0 s) (arb : Bool) (a : Nat) : Keeps lv s0 (takeAddress arb a s) := by
  unfold takeAddress
  split
  · exact h
  · exact (Keeps.whenS _ _ (fun _ k => k.send _) h).modSvc _

theorem keeps_retryInterrupt (h : Keeps lv s0 s)  : Keeps lv s0 (retryInterrupt s) := by
  unfold retryInterrupt
  try dsimp only
  repeat' first
    | assumption | with_reducible apply Keeps.modSvc | with_reducible apply Keeps.send | exact id | exact fun _ => rfl
    | exact fun _ => id | exact fun _ _ => rfl | rfl | split

theorem keeps_lockLost (h : Keeps lv s0 s)  : Keeps lv s0 (lockLost s) := by
  unfold lockLost
  try dsimp only
  repeat' first
    | assumption | with_reducible apply Keeps.setBit | with_reducible apply Keeps.clrBit | with_reducible apply Keeps.modTk
    | with_reducible apply Keeps.whenS | with_reducible apply keeps_raise0
    | exact id | exact fun _ => rfl | exact fun _ => id | exact fun _ _ => rfl | rfl | split | intro _

theorem keeps_takeover (h : Keeps lv s0 s)  : Keeps lv s0 (takeover s) := by
  unfold takeover
  try dsimp only
  repeat' first
    | assumption | with_reducible apply Keeps.modTk | exact id | exact fun _ => rfl | exact fun _ => id | exact fun _ _ => rfl
    | rfl | split

theorem keeps_markerEmit (h : Keeps lv s0 s)  : Keeps lv s0 (markerEmit s) := by
  unfold markerEmit
  try dsimp only
  repeat' first
    | assumption | with_reducible apply Keeps.forEach | with_reducible apply keeps_sendBlock
    | exact id | exact fun _ => rfl | exact fun _ => id | exact fun _ _ => rfl | rfl | split | intro _

theorem keeps_fnMismatch (h : Keeps lv s0 s)  : Keeps lv s0 (fnMismatch s) := by
  unfold fnMismatch
  try dsimp only
  repeat' first
    | assumption | with_reducible apply Keeps.setBit | with_reducible apply Keeps.clrBit | with_reducible apply Keeps.modTk
    | exact id | exact fun _ => rfl | exact fun _ => id | exact fun _ _ => rfl

theorem keeps_chooseMarker (h : Keeps lv s0 s) (m : ChosenMarker) (t : Nat) : Keeps lv s0 (chooseMarker m t s) := by
  unfold chooseMarker
  try dsimp only
  repeat' first
    | assumption | with_reducible apply Keeps.setBit | with_reducible apply Keeps.modTk | with_reducible apply Keeps.whenS
    | exact id | exact fun _ => rfl | exact fun _ => id | exact fun _ _ => rfl | rfl | split | intro _

theorem keeps_tickMarker (h : Keeps lv s0 s) (i : Nat) (mk : Marker) (t : Nat) : Keeps lv s0 (tickMarker i mk t s) := by
  unfold tickMarker
  try dsimp only
  repeat' first
    | assumption | with_reducible apply Keeps.setBit | with_reducible apply keeps_fnMismatch
    | with_reducible apply keeps_chooseMarker
    | exact id | exact fun _ => rfl | exact fun _ => id | exact fun _ _ => rfl | rfl | split | intro _

theorem keeps_markerForward (h : Keeps lv s0 s)  : Keeps lv s0 (markerForward s) := by
  unfold markerForward
  try dsimp only
  repeat' first
    | assumption | with_reducible apply Keeps.modTk | with_reducible apply Keeps.forEach | with_reducible apply keeps_sendBlock
    | exact id | exact fun _ => rfl | exact fun _ => id | exact fun _ _ => rfl | rfl | split | intro _

theorem keeps_placeTick (h : Keeps lv s0 s) (t : Nat) : Keeps lv s0 (placeTick t s) := by
  unfold placeTick
  try dsimp only
  repeat' first
    | assumption | with_reducible apply Keeps.setBit | with_reducible apply Keeps.modTk | with_reducible apply Keeps.whenS
    | exact id | exact fun _ => rfl | exact fun _ => id | exact fun _ _ => rfl | rfl | split | intro _

theorem keeps_eventOutside (h : Keeps lv s0 s) (t : Nat) : Keeps lv s0 (eventOutside t s) := by
  unfold eventOutside
  try dsimp only
  repeat' first
    | assumption | with_reducible apply Keeps.setBit | with_reducible apply Keeps.modTk | exact id | exact fun _ => rfl
    | exact fun _ => id

theorem keeps_externalEvent (h : Keeps lv s0 s) (t : Nat) : Keeps lv s0 (externalEvent t s) := by
  unfold externalEvent
  try dsimp only
  repeat' first
    | assumption | with_reducible apply Keeps.modTk | with_reducible apply keeps_placeTick
    | with_reducible apply keeps_eventOutside | exact id | exact fun _ => rfl | exact fun _ => id | exact fun _ _ => rfl | rfl
    | split

theorem keeps_tickFrame (h : Keeps lv s0 s) (port : Nat) (fn : DWord) (t : Nat) : Keeps lv s0 (tickFrame port fn t s) := by
  unfold tickFrame
  try dsimp only
  repeat' first
    | assumption | with_reducible apply Keeps.modTk | with_reducible apply Keeps.whenS | with_reducible apply keeps_fnMismatch
    | with_reducible apply keeps_externalEvent | exact id | exact fun _ => rfl | exact fun _ => id | exact fun _ _ => rfl | rfl
    | split | intro _

theorem keeps_sendFnsync (h : Keeps lv s0 s) (i : Nat) (v : DWord) : Keeps lv s0 (sendFnsync i v s) := by
  unfold sendFnsync
  try dsimp only
  repeat' first
    | assumption | with_reducible apply keeps_enqueue | exact id | exact fun _ => rfl | exact fun _ => id | exact fun _ _ => rfl
    | rfl | split

theorem keeps_broadcastFn (h : Keeps lv s0 s)  : Keeps lv s0 (broadcastFn s) := by
  unfold broadcastFn
  try dsimp only
  repeat' first
    | assumption | with_reducible apply Keeps.forEach | with_reducible apply keeps_sendFnsync | exact id | exact fun _ => rfl
    | exact fun _ => id | exact fun _ _ => rfl | rfl | split | intro _

theorem keeps_takeRequest (h : Keeps lv s0 s)  : Keeps lv s0 (takeRequest s) := by
  unfold takeRequest
  try dsimp only
  repeat' first
    | assumption | with_reducible apply Keeps.modTk | with_reducible apply keeps_sendFnsync
    | with_reducible apply keeps_broadcastFn | exact id | exact fun _ => rfl | exact fun _ => id | exact fun _ _ => rfl | rfl
    | split

theorem keeps_takeFnsync (h : Keeps 1 s0 s) (i : Nat) (v : DWord) : Keeps 1 s0 (takeFnsync i v s) := by
  unfold takeFnsync
  split
  · exact h
  · split
    · exact h
    · extract_lets s1
      have k : Keeps 1 s0 s1 := Keeps.forEach _ _ (fun _ _ k => keeps_sendFnsync k _ _) h
      clear_value s1
      split
      · exact k.modTk _ (fun _ => rfl) (fun _ => rfl) fun e => absurd e (by decide)
      · exact k

theorem keeps_deliverFnsync (h : Keeps 1 s0 s) (i : Nat) (p : Packet) : Keeps 1 s0 (deliverFnsync i p s) := by
  unfold deliverFnsync
  repeat' split
  · exact keeps_badPacket h
  · exact keeps_deliverPacket h _ _
  · exact keeps_takeRequest h
  · exact keeps_takeFnsync h _ _

theorem keeps_putIf (h : Keeps lv s0 s) (a lo w v : Nat) : Keeps lv s0 (putIf a lo w v s) := by
  unfold putIf
  try dsimp only
  repeat' first
    | assumption | with_reducible apply Keeps.setFld | exact id | exact fun _ => rfl | exact fun _ => id | exact fun _ _ => rfl
    | rfl | split

theorem keeps_settle (h : Keeps lv s0 s) : Keeps lv s0 (settle s) := by
  unfold settle
  extract_lets s1 s2 s3 s4
  have k1 : Keeps lv s0 s1 := by
    unfold s1
    split
    · exact h
    · exact (h.setReg _ _).modBist _
  clear_value s1
  have k2 : Keeps lv s0 s2 := keeps_putIf k1 _ _ _ _
  clear_value s2
  have k3 : Keeps lv s0 s3 := by
    unfold s3
    split
    · exact k2
    · exact (k2.setFld _ _ _ _).modSec _ rfl rfl
  clear_value s3
  have k4 : Keeps lv s0 s4 := by
    unfold s4
    split
    · exact k3
    · exact Keeps.whenS _ _ (fun _ k => keeps_loadFrameSect k _) (k3.modImg _ rfl)
  clear_value s4
  split
  · exact k4
  · exact k4.modTk _ (fun _ => rfl) (fun _ => rfl) fun _ => id

theorem keeps_overrunCore (h : Keeps lv s0 s) (i : Nat) : Keeps lv s0 (overrunCore i s) := by
  unfold overrunCore
  try dsimp only
  repeat' first
    | assumption | with_reducible apply Keeps.setBit | with_reducible apply Keeps.addCnt | with_reducible apply Keeps.modCur
    | with_reducible apply keeps_detectFault

theorem keeps_overruns (h : Keeps lv s0 s)  : Keeps lv s0 (overruns s) := by
  unfold overruns
  try dsimp only
  repeat' first
    | assumption | with_reducible apply Keeps.forEach | with_reducible apply keeps_overrunCore | exact id | exact fun _ => rfl
    | exact fun _ => id | exact fun _ _ => rfl | rfl | split | intro _

theorem keeps_thermalStep (h : Keeps lv s0 s)  : Keeps lv s0 (thermalStep s) := by
  unfold thermalStep
  try dsimp only
  repeat' first
    | assumption | with_reducible apply Keeps.setBit | with_reducible apply Keeps.modCur | with_reducible apply keeps_raise0
    | exact id | exact fun _ => rfl | exact fun _ => id | exact fun _ _ => rfl | rfl | split

theorem keeps_countVariant (h : Keeps lv s0 s)  : Keeps lv s0 (countVariant s) := by
  unfold countVariant
  try dsimp only
  repeat' first
    | assumption | with_reducible apply Keeps.modImg | exact id | exact fun _ => rfl | exact fun _ => id | exact fun _ _ => rfl
    | rfl

theorem keeps_publishMargin (h : Keeps lv s0 s) (i : Nat) : Keeps lv s0 (publishMargin i s) := by
  unfold publishMargin
  try dsimp only
  repeat' first | assumption | with_reducible apply keeps_putIf

theorem keeps_lowBlocks (h : Keeps lv s0 s) (i : Nat) : Keeps lv s0 (lowBlocks i s) := by
  unfold lowBlocks
  try dsimp only
  repeat' first
    | assumption | with_reducible apply Keeps.setCore | with_reducible apply Keeps.forEach
    | with_reducible apply keeps_requestRetire | with_reducible apply keeps_raiseFx | with_reducible apply keeps_newLogEntry
    | with_reducible apply keeps_attempt | exact id | exact fun _ => rfl | exact fun _ => id | exact fun _ _ => rfl | rfl
    | split | intro _

theorem keeps_supplyTick (h : Keeps lv s0 s) (d : Nat) : Keeps lv s0 (supplyTick d s) := by
  unfold supplyTick
  try dsimp only
  repeat' first
    | assumption | with_reducible apply Keeps.setBit | with_reducible apply Keeps.modPwr | with_reducible apply Keeps.whenS
    | with_reducible apply keeps_putIf | exact id | exact fun _ => rfl | exact fun _ => id | exact fun _ _ => rfl | rfl | split
    | intro _

theorem keeps_publishPeaks (h : Keeps lv s0 s) (i : Nat) : Keeps lv s0 (publishPeaks i s) := by
  unfold publishPeaks
  try dsimp only
  repeat' first | assumption | with_reducible apply keeps_putIf

theorem keeps_publishNodes (h : Keeps lv s0 s)  : Keeps lv s0 (publishNodes s) := by
  unfold publishNodes
  try dsimp only
  repeat' first
    | assumption | with_reducible apply Keeps.forEach | with_reducible apply keeps_putIf | exact id | exact fun _ => rfl
    | exact fun _ => id | exact fun _ _ => rfl | rfl | split | intro _

theorem keeps_emptyQueues (h : Keeps lv s0 s) (core : Nat) : Keeps lv s0 (emptyQueues core s) := by
  unfold emptyQueues
  try dsimp only
  repeat' first
    | assumption | with_reducible apply Keeps.forEach | with_reducible apply keeps_putIf
    | exact id | exact fun _ => rfl | exact fun _ => id | exact fun _ _ => rfl | rfl | split | intro _

theorem keeps_endGather (h : Keeps lv s0 s) (core : Nat) : Keeps lv s0 (endGather core s) := by
  unfold endGather
  try dsimp only
  repeat' first
    | assumption | with_reducible apply keeps_flushGather
    | exact id | exact fun _ => rfl | exact fun _ => id | exact fun _ _ => rfl | rfl | split | intro _

theorem keeps_dropWaiting (h : Keeps lv s0 s)  : Keeps lv s0 (dropWaiting s) := by
  unfold dropWaiting
  try dsimp only
  repeat' first
    | assumption | with_reducible apply Keeps.forEach | with_reducible apply keeps_clCount
    | with_reducible apply keeps_sendPacket | exact id | exact fun _ => rfl | exact fun _ => id | exact fun _ _ => rfl | rfl
    | split | intro _
  all_goals (with_reducible apply Keeps.rest)
  repeat' assumption

theorem keeps_endFrame (h : Keeps lv s0 s) : Keeps lv s0 (endFrame s) := by
  unfold endFrame
  extract_lets s1 s2 s3 s4 s5 s6
  have k1 : Keeps lv s0 s1 := keeps_overruns h
  clear_value s1
  have k2 : Keeps lv s0 s2 := Keeps.forEach _ _ (fun _ _ k => keeps_publishPeaks (keeps_publishMargin k _) _) k1
  clear_value s2
  have k3 : Keeps lv s0 s3 := keeps_publishNodes (Keeps.forEach _ _ (fun _ _ k => keeps_lowBlocks k _) k2)
  clear_value s3
  have k4 : Keeps lv s0 s4 := Keeps.forEach _ _ (fun _ _ k => keeps_supplyTick k _) k3
  clear_value s4
  have k5 : Keeps lv s0 s5 := Keeps.forEach _ _ (fun _ _ k => keeps_emptyQueues (keeps_endGather k _) _) k4
  clear_value s5
  exact keeps_dropWaiting (k5.rest _ _ _ _ _ _ _ _ _ _ _ _ _ _)

theorem keeps_holdoverTick (h : Keeps lv s0 s)  : Keeps lv s0 (holdoverTick s) := by
  unfold holdoverTick
  try dsimp only
  repeat' first
    | assumption | with_reducible apply Keeps.setBit | with_reducible apply Keeps.addCnt | with_reducible apply Keeps.modTk
    | exact id | exact fun _ => rfl | exact fun _ => id

theorem keeps_markedTick (h : Keeps lv s0 s) (m : ChosenMarker) : Keeps lv s0 (markedTick m s) := by
  unfold markedTick
  try dsimp only
  repeat' first
    | assumption | with_reducible apply Keeps.clrBit | with_reducible apply Keeps.setFld | with_reducible apply Keeps.modTk
    | exact id | exact fun _ => rfl | exact fun _ => id

theorem keeps_advanceFn (h : Keeps 0 s0 s) : Keeps 0 s0 (advanceFn s) := by
  unfold advanceFn
  extract_lets src s1 fn
  have k : Keeps 0 s0 s1 := by
    unfold s1
    clear_value src
    split
    · exact keeps_markedTick h _
    · exact keeps_holdoverTick h
    · exact ((h.clrBit _ _).setBit _ _).modTk _ (by simp) (by simp) (by simp)
    · split
      · exact (h.clrBit _ _).modTk _ (by simp) (by simp) (by simp)
      · exact keeps_holdoverTick h
  exact k.modTk _ (by simp) (by simp) (by simp)

theorem keeps_askFn (h : Keeps lv s0 s)  : Keeps lv s0 (askFn s) := by
  unfold askFn
  try dsimp only
  repeat' first
    | assumption | with_reducible apply keeps_sendFnsync | exact id | exact fun _ => rfl | exact fun _ => id
    | exact fun _ _ => rfl | rfl | split

theorem keeps_leaveFrame (h : Keeps lv s0 s)  : Keeps lv s0 (leaveFrame s) := by
  unfold leaveFrame
  try dsimp only
  repeat' first
    | assumption | with_reducible apply keeps_releaseEvents | exact id | exact fun _ => rfl | exact fun _ => id
    | exact fun _ _ => rfl | rfl | split

theorem keeps_nextFrame (h : Keeps lv s0 s)  : Keeps lv s0 (nextFrame s).1 := by
  unfold nextFrame
  try dsimp only
  repeat' first
    | assumption | with_reducible apply Keeps.setBit | with_reducible apply Keeps.modFx
    | with_reducible apply keeps_queryResults | with_reducible apply keeps_chooseWork | with_reducible apply keeps_shiftCores
    | with_reducible apply keeps_resume | with_reducible apply keeps_leaveFrame | exact id | exact fun _ => rfl
    | exact fun _ => id | exact fun _ _ => rfl | rfl | split

theorem keeps_powerTick (h : Keeps lv s0 s)  : Keeps lv s0 (powerTick s) := by
  unfold powerTick
  try dsimp only
  repeat' first | assumption | with_reducible apply Keeps.modPwr

theorem keeps_snapshotCore (h : Keeps lv s0 s) (i : Nat) : Keeps lv s0 (snapshotCore i s) := by
  unfold snapshotCore
  try dsimp only
  repeat' first
    | assumption | with_reducible apply Keeps.modCore | with_reducible apply Keeps.foldl | with_reducible apply keeps_putIf

theorem keeps_snapshotShapes (h : Keeps lv s0 s)  : Keeps lv s0 (snapshotShapes s) := by
  unfold snapshotShapes
  try dsimp only
  repeat' first
    | assumption | with_reducible apply Keeps.modFx
    | exact id | exact fun _ => rfl | exact fun _ => id | exact fun _ _ => rfl | rfl | split | intro _

theorem keeps_macroHard (h : Keeps lv s0 s) (core lm row block : Nat) : Keeps lv s0 (macroHard core lm row block s) := by
  unfold macroHard
  try dsimp only
  repeat' first
    | assumption | with_reducible apply Keeps.setBit | with_reducible apply keeps_hardError
    | with_reducible apply keeps_mcRecord

theorem keeps_scrubWord (h : Keeps lv s0 s) (core lm r w : Nat) : Keeps lv s0 (scrubWord core lm r w s) := by
  unfold scrubWord
  try dsimp only
  repeat' first
    | assumption | with_reducible apply keeps_mcFault | with_reducible apply keeps_correctWord
    | with_reducible apply keeps_eccCorrected | with_reducible apply keeps_macroHard | exact id | exact fun _ => rfl
    | exact fun _ => id | exact fun _ _ => rfl | rfl | split

theorem keeps_scrubRowRes (h : Keeps lv s0 s) (core lm r : Nat) : Keeps lv s0 (scrubRowRes core lm r s) := by
  unfold scrubRowRes
  try dsimp only
  repeat' first
    | assumption | with_reducible apply Keeps.forEach | with_reducible apply keeps_rowResFault
    | exact id | exact fun _ => rfl | exact fun _ => id | exact fun _ _ => rfl | rfl | split | intro _

theorem keeps_scrubColRes (h : Keeps lv s0 s) (core lm g : Nat) : Keeps lv s0 (scrubColRes core lm g s) := by
  unfold scrubColRes
  try dsimp only
  repeat' first
    | assumption | with_reducible apply Keeps.addCnt | with_reducible apply Keeps.forEach | with_reducible apply keeps_mcFault
    | exact id | exact fun _ => rfl | exact fun _ => id | exact fun _ _ => rfl | rfl | split | intro _

theorem keeps_scrubScale (h : Keeps lv s0 s) (core lm r : Nat) : Keeps lv s0 (scrubScale core lm r s) := by
  unfold scrubScale
  extract_lets k f
  split
  · exact h
  · split
    · exact h
    · exact keeps_eccCorrected (Keeps.modErr (Keeps.forEach _ _ (fun _ _ k => k.scaleTo _ (SMap.wf_set _ _ _ _)) h) _) _
    · exact keeps_mcFault h _ _ _ _ _ _ _

theorem keeps_scrubRow (h : Keeps lv s0 s) (core lm r : Nat) : Keeps lv s0 (scrubRow core lm r s) := by
  unfold scrubRow
  extract_lets s1 s2
  have k1 : Keeps lv s0 s1 := Keeps.forEach _ _ (fun _ _ k => keeps_scrubWord k _ _ _ _) h
  clear_value s1
  have k2 : Keeps lv s0 s2 := keeps_scrubScale (keeps_scrubRowRes k1 _ _ _) _ _ _
  clear_value s2
  split
  · exact keeps_scrubColRes k2 _ _ _
  · exact k2

theorem keeps_scrubMacros (h : Keeps lv s0 s) (core : Nat) : Keeps lv s0 (scrubMacros core s) := by
  unfold scrubMacros
  extract_lets a first n rows todo s1
  split
  · exact h
  refine Keeps.setFld ?_ _ _ _ _
  unfold s1
  split
  · exact h
  · exact Keeps.forEach _ _ (fun _ _ k => Keeps.forEach _ _ (fun _ _ k => keeps_scrubRow k _ _ _) k) h

theorem keeps_bankHard (h : Keeps lv s0 s) (core word : Nat) : Keeps lv s0 (bankHard core word s) := by
  unfold bankHard
  try dsimp only
  repeat' first
    | assumption | with_reducible apply Keeps.setBit | with_reducible apply keeps_hardError
    | with_reducible apply keeps_spRecord

theorem keeps_scrubCode (h : Keeps lv s0 s) (core k : Nat) : Keeps lv s0 (scrubCode core k s) := by
  unfold scrubCode
  extract_lets p word f ix
  clear_value f ix
  split
  · exact h
  · extract_lets s1 s2
    have k1 : Keeps lv s0 s1 := by
      unfold s1
      refine Keeps.forEach _ _ (fun _ _ k => ?_) h
      apply keeps_spStore k
    clear_value s1
    have k2 : Keeps lv s0 s2 := (k1.setBit _ _).addCnt _ _ _ _
    clear_value s2
    split
    · exact keeps_bankHard k2 _ _
    · exact k2
  · exact keeps_spUncorr h _ _ _

theorem keeps_scrubBanks (h : Keeps lv s0 s) (core : Nat) : Keeps lv s0 (scrubBanks core s) :=
  (Keeps.forEach _ _ (fun _ _ k => keeps_scrubCode k _ _) h).setFld _ _ _ _

theorem keeps_activateDue (h : Keeps lv s0 s)  : Keeps lv s0 (activateDue s) := by
  unfold activateDue
  try dsimp only
  repeat' first
    | assumption | with_reducible apply keeps_activate | exact id | exact fun _ => rfl | exact fun _ => id
    | exact fun _ _ => rfl | rfl | split

theorem keeps_keepReg (h : Keeps lv s0 s) (s0_ s1 s2 : State) (a : Nat) : Keeps lv s0 (keepReg s0_ s1 s2 a s) := by
  unfold keepReg
  try dsimp only
  repeat' first
    | assumption | with_reducible apply Keeps.setBit | with_reducible apply Keeps.addCnt | with_reducible apply Keeps.forEach
    | exact id | exact fun _ => rfl | exact fun _ => id | exact fun _ _ => rfl | rfl | split | intro _

theorem keeps_startFrame (h : Keeps lv s0 s) (again : Bool) (r : State) : Keeps lv s0 (startFrame again r s) := by
  unfold startFrame
  extract_lets s1 s2 s3 s4 s5 s6 s7
  have k2 : Keeps lv s0 s2 := keeps_takeCommands (keeps_repeatShapes h)
  clear_value s2
  have k4 : Keeps lv s0 s4 := keeps_powerTick (keeps_snapshotShapes (Keeps.forEach _ _ (fun _ _ k => keeps_snapshotCore k _)
    (keeps_abortForActivation k2)))
  clear_value s4
  have k5 : Keeps lv s0 s5 := Keeps.forEach _ _ (fun _ _ k => keeps_scrubBanks (keeps_scrubMacros k _) _) k4
  clear_value s5
  have k6 : Keeps lv s0 s6 := keeps_applyInputs k5 _
  clear_value s6
  have k7 : Keeps lv s0 s7 := Keeps.forEach _ _ (fun _ t k => keeps_startCore k _ _) k6
  exact Keeps.forEach _ _ (fun _ _ k => keeps_keepReg k _ _ _ _) k7

theorem keeps_retireDies (h : Keeps lv s0 s) : Keeps lv s0 (retireDies s) := by
  unfold retireDies
  try dsimp only
  repeat' first
    | assumption | with_reducible apply Keeps.forEach | with_reducible apply keeps_retireDieUnit
    | exact id | exact fun _ => rfl | exact fun _ => id | exact fun _ _ => rfl | rfl | split | intro _

theorem keeps_tick (h : Keeps 0 s0 s) : Keeps 0 s0 (tick s) := by
  unfold tick
  split
  · exact h
  · extract_lets r s1
    have k1 : Keeps 0 s0 s1 := keeps_countVariant (keeps_thermalStep (keeps_advanceFn (keeps_endFrame
      (keeps_retireDies (keeps_settle (keeps_activateDue h))))))
    clear_value s1
    generalize e : nextFrame s1 = z
    have k2 : Keeps 0 s0 z.1 := e ▸ keeps_nextFrame k1
    obtain ⟨s2, again⟩ := z
    exact keeps_startFrame (keeps_askFn k2) _ _

end Sys2Proof.Machine
end

