-- ==== Sys2Proof/Laws/KeepsCommands.lean ====
section
/-! SUPPORT. What each command keeps, one lemma for the meaning of each row: level 2 of `Keeps` (Laws/Keeps.lean) but for
FNSYNC, which takes a frame number, and for the tick and the commands that reset the module. -/

set_option maxRecDepth 4000

namespace Sys2Proof.Machine

theorem keeps_execNop (core : Nat) (body : BitVec 248) (s t : State) (h : execNop core body s = .next t) : Keeps 2 s t := by
  refine Keeps.answer ?_ h
  try dsimp only
  repeat' first | assumption | exact Keeps.refl _ _ | with_reducible apply keeps_runNop

theorem keeps_execEnd (core : Nat) (body : BitVec 248) (s t : State) (h : execEnd core body s = .next t) : Keeps 2 s t := by
  refine Keeps.answer ?_ h
  try dsimp only
  repeat' first | assumption | exact Keeps.refl _ _ | with_reducible apply keeps_runEnd

theorem keeps_execWait (core : Nat) (body : BitVec 248) (s t : State) (h : execWait core body s = .next t) : Keeps 2 s t := by
  refine Keeps.answer ?_ h
  try dsimp only
  repeat' first | assumption | exact Keeps.refl _ _ | with_reducible apply keeps_runWait

theorem keeps_execSignal (core : Nat) (body : BitVec 248) (s t : State) (h : execSignal core body s = .next t) : Keeps 2 s t
    := by
  refine Keeps.answer ?_ h
  try dsimp only
  repeat' first | assumption | exact Keeps.refl _ _ | with_reducible apply keeps_runSignal

theorem keeps_execFence (core : Nat) (body : BitVec 248) (s t : State) (h : execFence core body s = .next t) : Keeps 2 s t :=
    by
  refine Keeps.answer ?_ h
  try dsimp only
  repeat' first | assumption | exact Keeps.refl _ _ | with_reducible apply keeps_runFence

theorem keeps_execWinOpen (core : Nat) (body : BitVec 248) (s t : State) (h : execWinOpen core body s = .next t) : Keeps 2 s t
    := by
  refine Keeps.answer ?_ h
  try dsimp only
  repeat' first | assumption | exact Keeps.refl _ _ | with_reducible apply keeps_runWinOpen

theorem keeps_execWinClose (core : Nat) (body : BitVec 248) (s t : State) (h : execWinClose core body s = .next t) : Keeps 2 s
    t := by
  refine Keeps.answer ?_ h
  try dsimp only
  repeat' first | assumption | exact Keeps.refl _ _ | with_reducible apply keeps_runWinClose

theorem keeps_execTokenMessageArrival (core tok n : Nat) (s t : State) (h : execTokenMessageArrival core tok n s = .next t) :
    Keeps 2 s t := by
  refine Keeps.answer ?_ h
  try dsimp only
  repeat' first
    | assumption | exact Keeps.refl _ _ | with_reducible apply keeps_tokensArrive | split | intro _ _

theorem keeps_execWdogTrip (core : Nat) (s t : State) (h : execWdogTrip core s = .next t) : Keeps 2 s t := by
  refine Keeps.answer ?_ h
  try dsimp only
  repeat' first | assumption | exact Keeps.refl _ _ | with_reducible apply keeps_tripWatchdog

theorem keeps_execInstructionComplete (core seq : Nat) (s t : State) (h : execInstructionComplete core seq s = .next t) :
    Keeps 2 s t := by
  refine Keeps.answer ?_ h
  try dsimp only
  repeat' first | assumption | exact Keeps.refl _ _ | with_reducible apply keeps_completeInstr

theorem keeps_execTagWaitRelease (core slot : Nat) (s t : State) (h : execTagWaitRelease core slot s = .next t) : Keeps 2 s t
    := by
  refine Keeps.answer ?_ h
  try dsimp only
  repeat' first | assumption | exact Keeps.refl _ _ | with_reducible apply keeps_releaseWait

theorem keeps_execVectorKernelBound (core seq : Nat) (s t : State) (h : execVectorKernelBound core seq s = .next t) : Keeps 2
    s t := by
  refine Keeps.answer ?_ h
  try dsimp only
  repeat' first | assumption | exact Keeps.refl _ _ | with_reducible apply keeps_stopKernel

theorem keeps_execLoad (core : Nat) (body : BitVec 248) (s t : State) (h : execLoad core body s = .next t) : Keeps 2 s t := by
  refine Keeps.answer ?_ h
  try dsimp only
  repeat' first | assumption | exact Keeps.refl _ _ | with_reducible apply keeps_runLoad

theorem keeps_execStore (core : Nat) (body : BitVec 248) (s t : State) (h : execStore core body s = .next t) : Keeps 2 s t :=
    by
  refine Keeps.answer ?_ h
  try dsimp only
  repeat' first | assumption | exact Keeps.refl _ _ | with_reducible apply keeps_runStore

theorem keeps_execSend (core : Nat) (body : BitVec 248) (s t : State) (h : execSend core body s = .next t) : Keeps 2 s t := by
  refine Keeps.answer ?_ h
  try dsimp only
  repeat' first | assumption | exact Keeps.refl _ _ | with_reducible apply keeps_runSend

theorem keeps_execWriteW (core : Nat) (body : BitVec 248) (s t : State) (h : execWriteW core body s = .next t) : Keeps 2 s t
    := by
  refine Keeps.answer ?_ h
  try dsimp only
  repeat' first | assumption | exact Keeps.refl _ _ | with_reducible apply keeps_runWriteW

theorem keeps_execMatmul (core : Nat) (body : BitVec 248) (s t : State) (h : execMatmul core body s = .next t) : Keeps 2 s t
    := by
  refine Keeps.answer ?_ h
  try dsimp only
  repeat' first | assumption | exact Keeps.refl _ _ | with_reducible apply keeps_runMatmul

theorem keeps_execMatmulT (core : Nat) (body : BitVec 248) (s t : State) (h : execMatmulT core body s = .next t) : Keeps 2 s t
    := by
  refine Keeps.answer ?_ h
  try dsimp only
  repeat' first | assumption | exact Keeps.refl _ _ | with_reducible apply keeps_runMatmulT

theorem keeps_execAttend (core : Nat) (body : BitVec 248) (s t : State) (h : execAttend core body s = .next t) : Keeps 2 s t
    := by
  refine Keeps.answer ?_ h
  try dsimp only
  repeat' first | assumption | exact Keeps.refl _ _ | with_reducible apply keeps_runAttend

theorem keeps_execReduce (core : Nat) (body : BitVec 248) (s t : State) (h : execReduce core body s = .next t) : Keeps 2 s t
    := by
  refine Keeps.answer ?_ h
  try dsimp only
  repeat' first | assumption | exact Keeps.refl _ _ | with_reducible apply keeps_runReduce

theorem keeps_execFwPlanReply (core seq : Nat) (s t : State) (h : execFwPlanReply core seq s = .next t) : Keeps 2 s t := by
  refine Keeps.answer ?_ h
  try dsimp only
  repeat' first | assumption | exact Keeps.refl _ _ | with_reducible apply keeps_planReply

theorem keeps_execFwPlanTimeout (core seq : Nat) (s t : State) (h : execFwPlanTimeout core seq s = .next t) : Keeps 2 s t :=
    by
  refine Keeps.answer ?_ h
  try dsimp only
  repeat' first | assumption | exact Keeps.refl _ _ | with_reducible apply keeps_planTimeout

theorem keeps_execVecop (core : Nat) (body : BitVec 248) (s t : State) (h : execVecop core body s = .next t) : Keeps 2 s t :=
    by
  refine Keeps.answer ?_ h
  try dsimp only
  repeat' first | assumption | exact Keeps.refl _ _ | with_reducible apply keeps_runVecop

theorem keeps_execUpdate (core : Nat) (body : BitVec 248) (s t : State) (h : execUpdate core body s = .next t) : Keeps 2 s t
    := by
  refine Keeps.answer ?_ h
  try dsimp only
  repeat' first | assumption | exact Keeps.refl _ _ | with_reducible apply keeps_runUpdate

theorem keeps_execTreeEmpty (core lm : Nat) (s t : State) (h : execTreeEmpty core lm s = .next t) : Keeps 2 s t := by
  refine Keeps.answer ?_ h
  try dsimp only
  repeat' first | assumption | exact Keeps.refl _ _ | with_reducible apply keeps_treeEmpty

theorem keeps_execDrainPortRead (core port : Nat) (s t : State) (h : execDrainPortRead core port s = .next t) : Keeps 2 s t :=
    by
  refine Keeps.answer ?_ h
  try dsimp only
  repeat' first
    | assumption | exact Keeps.refl _ _ | with_reducible apply keeps_portRead | exact id | exact fun _ => rfl
    | exact fun _ => id | rfl | split

theorem keeps_execSeifNodeOutput (node : NodeId) (k : ElemKey) (s t : State) (h : execSeifNodeOutput node k s = .next t) :
    Keeps 2 s t := by
  refine Keeps.answer ?_ h
  try dsimp only
  repeat' first | assumption | exact Keeps.refl _ _ | with_reducible apply keeps_nodeOutput

theorem keeps_execSeifFold (node : NodeId) (k : ElemKey) (s t : State) (h : execSeifFold node k s = .next t) : Keeps 2 s t :=
    by
  refine Keeps.answer ?_ h
  try dsimp only
  repeat' first | assumption | exact Keeps.refl _ _ | with_reducible apply keeps_nodeFold

theorem keeps_execBiDebugOpen  (s t : State) (h : execBiDebugOpen  s = .next t) : Keeps 2 s t := by
  refine Keeps.answer ?_ h
  try dsimp only
  repeat' first | assumption | exact Keeps.refl _ _ | with_reducible apply keeps_openDebug

theorem keeps_execFlush (hubBlock : Bool) (core q : Nat) (s t : State) (h : execFlush hubBlock core q s = .next t) : Keeps 2 s
    t := by
  refine Keeps.answer ?_ h
  try dsimp only
  repeat' first | assumption | exact Keeps.refl _ _ | with_reducible apply keeps_flushQueue

theorem keeps_execTkQPeakRead (p : Path) (hubBlock : Bool) (core q : Nat) (s t : State) (h : execTkQPeakRead p hubBlock core q
    s = .next t) : Keeps 2 s t := by
  refine Keeps.answer ?_ h
  try dsimp only
  repeat' first | assumption | exact Keeps.refl _ _ | with_reducible apply keeps_readOnPath

theorem keeps_execLowWordRead (p : Path) (a : Nat) (s t : State) (h : execLowWordRead p a s = .next t) : Keeps 2 s t := by
  refine Keeps.answer ?_ h
  try dsimp only
  repeat' first | assumption | exact Keeps.refl _ _ | with_reducible apply keeps_readOnPath

theorem keeps_execRegisterWrite (p : Path) (a : Nat) (v : Word) (s t : State) (h : execRegisterWrite p a v s = .next t) :
    Keeps 2 s t := by
  refine Keeps.answer ?_ h
  try dsimp only
  repeat' first | assumption | exact Keeps.refl _ _ | with_reducible apply keeps_writeOnPath

theorem keeps_execClEnWrite (v : Word) (s t : State) (h : execClEnWrite v s = .next t) : Keeps 2 s t := by
  refine Keeps.answer ?_ h
  try dsimp only
  repeat' first | assumption | exact Keeps.refl _ _ | with_reducible apply keeps_writeClEn

theorem keeps_execClIdWrite (v : Word) (s t : State) (h : execClIdWrite v s = .next t) : Keeps 2 s t := by
  refine Keeps.answer ?_ h
  try dsimp only
  repeat' first | assumption | exact Keeps.refl _ _ | with_reducible apply keeps_writeClId

theorem keeps_execVoteForm  (s t : State) (h : execVoteForm  s = .next t) : Keeps 2 s t := by
  refine Keeps.answer ?_ h
  try dsimp only
  repeat' first | assumption | exact Keeps.refl _ _ | with_reducible apply keeps_formVote

theorem keeps_execVote (i : Nat) (p : Packet) (cw : Codeword) (late : Bool) (s t : State) (h : execVote i p cw late s = .next t) :
    Keeps 2 s t := by
  refine Keeps.answer ?_ h
  try dsimp only
  repeat' first
    | assumption | exact Keeps.refl _ _ | with_reducible apply keeps_receive | split | intro _ _

theorem keeps_execVoteDeadline  (s t : State) (h : execVoteDeadline  s = .next t) : Keeps 2 s t := by
  refine Keeps.answer ?_ h
  try dsimp only
  repeat' first | assumption | exact Keeps.refl _ _ | with_reducible apply keeps_sendVote

theorem keeps_execVoteResult (i : Nat) (p : Packet) (cw : Codeword) (s t : State) (h : execVoteResult i p cw s = .next t) :
    Keeps 2 s t := by
  refine Keeps.answer ?_ h
  try dsimp only
  repeat' first
    | assumption | exact Keeps.refl _ _ | with_reducible apply keeps_receive | split | intro _ _

theorem keeps_execResultQuery (i : Nat) (p : Packet) (cw : Codeword) (s t : State) (h : execResultQuery i p cw s = .next t) :
    Keeps 2 s t := by
  refine Keeps.answer ?_ h
  try dsimp only
  repeat' first
    | assumption | exact Keeps.refl _ _ | with_reducible apply keeps_receive | split | intro _ _

theorem keeps_execResultAnswer (i : Nat) (p : Packet) (cw : Codeword) (s t : State) (h : execResultAnswer i p cw s = .next t) :
    Keeps 2 s t := by
  refine Keeps.answer ?_ h
  try dsimp only
  repeat' first
    | assumption | exact Keeps.refl _ _ | with_reducible apply keeps_receive | split | intro _ _

theorem keeps_execImageVerifyDone (slot : Nat) (c? : Option ImageContent) (s t : State) (h : execImageVerifyDone slot c? s =
    .next t) : Keeps 2 s t := by
  refine Keeps.answer ?_ h
  try dsimp only
  repeat' first | assumption | exact Keeps.refl _ _ | with_reducible apply keeps_verifyDone

theorem keeps_execImageActivation  (s t : State) (h : execImageActivation  s = .next t) : Keeps 2 s t := by
  refine Keeps.answer ?_ h
  try dsimp only
  repeat' first
    | assumption | exact Keeps.refl _ _ | with_reducible apply keeps_activate | exact id | exact fun _ => rfl
    | exact fun _ => id | rfl | split

theorem keeps_execVoteResultApply  (s t : State) (h : execVoteResultApply  s = .next t) : Keeps 2 s t := by
  refine Keeps.answer ?_ h
  try dsimp only
  repeat' first | assumption | exact Keeps.refl _ _ | with_reducible apply keeps_applyNext

theorem keeps_execMacroRetirement (testPass : Bool) (s t : State) (h : execMacroRetirement testPass s = .next t) : Keeps 2 s t
    := by
  refine Keeps.answer ?_ h
  try dsimp only
  repeat' first | assumption | exact Keeps.refl _ _ | with_reducible apply keeps_macroRetirement

theorem keeps_execCoreSwap (testPass : Bool) (s t : State) (h : execCoreSwap testPass s = .next t) : Keeps 2 s t := by
  refine Keeps.answer ?_ h
  try dsimp only
  repeat' first | assumption | exact Keeps.refl _ _ | with_reducible apply keeps_coreSwap

theorem keeps_execPseudoChannelRemap  (s t : State) (h : execPseudoChannelRemap  s = .next t) : Keeps 2 s t := by
  refine Keeps.answer ?_ h
  try dsimp only
  repeat' first | assumption | exact Keeps.refl _ _ | with_reducible apply keeps_pseudoChannelRemap

theorem keeps_execRetirementComplete  (s t : State) (h : execRetirementComplete  s = .next t) : Keeps 2 s t := by
  refine Keeps.answer ?_ h
  try dsimp only
  repeat' first | assumption | exact Keeps.refl _ _ | with_reducible apply keeps_retirementComplete

theorem keeps_execRotationStep (core : Nat) (s t : State) (h : execRotationStep core s = .next t) : Keeps 2 s t := by
  refine Keeps.answer ?_ h
  try dsimp only
  repeat' first | assumption | exact Keeps.refl _ _ | with_reducible apply keeps_rotationStep

theorem keeps_execRotationTestDone (core : Nat) (pass : Bool) (s t : State) (h : execRotationTestDone core pass s = .next t) :
    Keeps 2 s t := by
  refine Keeps.answer ?_ h
  try dsimp only
  repeat' first | assumption | exact Keeps.refl _ _ | with_reducible apply keeps_rotationTestDone

theorem keeps_execRotationCopyBack (core : Nat) (s t : State) (h : execRotationCopyBack core s = .next t) : Keeps 2 s t := by
  refine Keeps.answer ?_ h
  try dsimp only
  repeat' first | assumption | exact Keeps.refl _ _ | with_reducible apply keeps_rotationCopyBack

theorem keeps_execCoreTest (die : Nat) (r : CoreTestEnd) (s t : State) (h : execCoreTest die r s = .next t) : Keeps 2 s t :=
    by
  refine Keeps.answer ?_ h
  try dsimp only
  repeat' first | assumption | exact Keeps.refl _ _ | with_reducible apply keeps_coreTest

theorem keeps_execNvPageStore (rb1 rb2 : Bool) (s t : State) (h : execNvPageStore rb1 rb2 s = .next t) : Keeps 2 s t := by
  refine Keeps.answer ?_ h
  try dsimp only
  repeat' first | assumption | exact Keeps.refl _ _ | with_reducible apply keeps_pageStore

theorem keeps_execTamperTrip (t0 : Tamper) (s t : State) (h : execTamperTrip t0 s = .next t) : Keeps 2 s t := by
  exact Keeps.answer (keeps_tamperTrip (Keeps.refl _ _) _) h

theorem keeps_serveRead (h : Keeps lv s0 s) (port : Nat) (f : Frame) : Keeps lv s0 (serveRead port f s) := by
  unfold serveRead
  split
  · exact keeps_takeConsume h _ _ _ _ _
  · exact keeps_takePeek h _ _ _ _ _
  · exact keeps_takeMem h _ _ _ _
  · exact keeps_takeCapacity h _ _ _
  · exact keeps_takeAttest h _ _ _ _
  · exact keeps_reply h _ _ _ _

theorem keeps_serveFrame (h : Keeps lv s0 s) (port : Nat) (f : Frame) : Keeps lv s0 (serveFrame port f s) := by
  unfold serveFrame
  split
  · exact keeps_request h _ _ _ _ _ (keeps_pushCommand h _ _ _)
  · exact keeps_request h _ _ _ _ _ (keeps_serveWrite h _ _ _ _)
  · exact keeps_request h _ _ _ _ _ (keeps_serveRead h _ _)
  · exact keeps_request h _ _ _ _ _ (keeps_takeRegRead h _ _ _)
  · split
    · exact h
    · exact keeps_ackEvents h _
  · split
    · exact h
    · exact keeps_tickFrame h _ _ _
  · exact h

theorem keeps_takeFrame (h : Keeps lv s0 s) (port : Nat) (f : Frame) : Keeps lv s0 (takeFrame port f s) := by
  unfold takeFrame
  split
  · exact h
  · split
    · exact keeps_badFrame h _
    · exact keeps_serveFrame h _ _

theorem keeps_execCmdFrame (port : Nat) (f : Frame) (s t : State) (h : execCmdFrame port f s = .next t) : Keeps 2 s t :=
  Keeps.answer (keeps_takeFrame (Keeps.refl _ _) _ _) h

theorem keeps_execImgVerify (tag slot addr len : Nat) (s t : State) (h : execImgVerify tag slot addr len s = .next t) : Keeps
    2 s t := by
  refine Keeps.answer ?_ h
  try dsimp only
  repeat' first | assumption | exact Keeps.refl _ _ | with_reducible apply keeps_commandNow

theorem keeps_execImgActivate (tag slot a h : Nat) (s t : State) (h : execImgActivate tag slot a h s = .next t) : Keeps 2 s t
    := by
  refine Keeps.answer ?_ h
  try dsimp only
  repeat' first | assumption | exact Keeps.refl _ _ | with_reducible apply keeps_commandNow

theorem keeps_execImgRelease (tag slot : Nat) (s t : State) (h : execImgRelease tag slot s = .next t) : Keeps 2 s t := by
  refine Keeps.answer ?_ h
  try dsimp only
  repeat' first | assumption | exact Keeps.refl _ _ | with_reducible apply keeps_commandNow

theorem keeps_execFxResume (tag r : Nat) (s t : State) (h : execFxResume tag r s = .next t) : Keeps 2 s t := by
  refine Keeps.answer ?_ h
  try dsimp only
  repeat' first | assumption | exact Keeps.refl _ _ | with_reducible apply keeps_commandNow

theorem keeps_execFxExport (tag peer : Nat) (s t : State) (h : execFxExport tag peer s = .next t) : Keeps 2 s t := by
  refine Keeps.answer ?_ h
  try dsimp only
  repeat' first | assumption | exact Keeps.refl _ _ | with_reducible apply keeps_commandNow

theorem keeps_execShpSet (tag : Nat) (mask : BitVec 768) (n : Nat) (v : Word) (s t : State) (h : execShpSet tag mask n v s =
    .next t) : Keeps 2 s t := by
  refine Keeps.answer ?_ h
  try dsimp only
  repeat' first | assumption | exact Keeps.refl _ _ | with_reducible apply keeps_commandNow

theorem keeps_execRegWrite (tag a : Nat) (v : Word) (s t : State) (h : execRegWrite tag a v s = .next t) : Keeps 2 s t := by
  refine Keeps.answer ?_ h
  try dsimp only
  repeat' first | assumption | exact Keeps.refl _ _ | with_reducible apply keeps_commandNow

theorem keeps_execNvStore (tag : Nat) (l : List Byte) (s t : State) (h : execNvStore tag l s = .next t) : Keeps 2 s t := by
  refine Keeps.answer ?_ h
  try dsimp only
  repeat' first | assumption | exact Keeps.refl _ _ | with_reducible apply keeps_commandNow

theorem keeps_execLcSet (tag : Nat) (l : List Byte) (s t : State) (h : execLcSet tag l s = .next t) : Keeps 2 s t := by
  refine Keeps.answer ?_ h
  try dsimp only
  repeat' first | assumption | exact Keeps.refl _ _ | with_reducible apply keeps_commandNow

theorem keeps_execWrite (port : Nat) (f : Frame) (s t : State) (h : execWrite port f s = .next t) : Keeps 2 s t :=
  Keeps.answer (keeps_takeFrame (Keeps.refl _ _) _ _) h

theorem keeps_execConsume (port : Nat) (f : Frame) (s t : State) (h : execConsume port f s = .next t) : Keeps 2 s t :=
  Keeps.answer (keeps_takeFrame (Keeps.refl _ _) _ _) h

theorem keeps_execConsumeReexamine  (s t : State) (h : execConsumeReexamine  s = .next t) : Keeps 2 s t := by
  refine Keeps.answer ?_ h
  try dsimp only
  repeat' first | assumption | exact Keeps.refl _ _ | with_reducible apply keeps_consumeReexamine

theorem keeps_execPeek (port : Nat) (f : Frame) (s t : State) (h : execPeek port f s = .next t) : Keeps 2 s t :=
  Keeps.answer (keeps_takeFrame (Keeps.refl _ _) _ _) h

theorem keeps_execMem (port : Nat) (f : Frame) (s t : State) (h : execMem port f s = .next t) : Keeps 2 s t :=
  Keeps.answer (keeps_takeFrame (Keeps.refl _ _) _ _) h

theorem keeps_execCapacity (port : Nat) (f : Frame) (s t : State) (h : execCapacity port f s = .next t) : Keeps 2 s t :=
  Keeps.answer (keeps_takeFrame (Keeps.refl _ _) _ _) h

theorem keeps_execAttest (port : Nat) (f : Frame) (s t : State) (h : execAttest port f s = .next t) : Keeps 2 s t :=
  Keeps.answer (keeps_takeFrame (Keeps.refl _ _) _ _) h

theorem keeps_execAttestReport  (s t : State) (h : execAttestReport  s = .next t) : Keeps 2 s t := by
  refine Keeps.answer ?_ h
  try dsimp only
  repeat' first | assumption | exact Keeps.refl _ _ | with_reducible apply keeps_attestReport

theorem keeps_execRegRead (port : Nat) (f : Frame) (s t : State) (h : execRegRead port f s = .next t) : Keeps 2 s t :=
  Keeps.answer (keeps_takeFrame (Keeps.refl _ _) _ _) h

theorem keeps_execEvtAck (port : Nat) (f : Frame) (s t : State) (h : execEvtAck port f s = .next t) : Keeps 2 s t :=
  Keeps.answer (keeps_takeFrame (Keeps.refl _ _) _ _) h

theorem keeps_execEventResend  (s t : State) (h : execEventResend  s = .next t) : Keeps 2 s t := by
  refine Keeps.answer ?_ h
  try dsimp only
  repeat' first | assumption | exact Keeps.refl _ _ | with_reducible apply keeps_eventResend

theorem keeps_execPortStateChange (port : Nat) (up : Bool) (s t : State) (h : execPortStateChange port up s = .next t) : Keeps
    2 s t := by
  refine Keeps.answer ?_ h
  try dsimp only
  repeat' first | assumption | exact Keeps.refl _ _ | with_reducible apply keeps_portState

theorem keeps_execWr (i : Nat) (p : Packet) (cw : Codeword) (s t : State) (h : execWr i p cw s = .next t) :
    Keeps 2 s t := by
  refine Keeps.answer ?_ h
  try dsimp only
  repeat' first
    | assumption | exact Keeps.refl _ _ | with_reducible apply keeps_receive | split | intro _ _

theorem keeps_execWrAck (i : Nat) (p : Packet) (cw : Codeword) (s t : State) (h : execWrAck i p cw s = .next t) :
    Keeps 2 s t := by
  refine Keeps.answer ?_ h
  try dsimp only
  repeat' first
    | assumption | exact Keeps.refl _ _ | with_reducible apply keeps_receive | split | intro _ _

theorem keeps_execRdReq (i : Nat) (p : Packet) (cw : Codeword) (s t : State) (h : execRdReq i p cw s = .next t) :
    Keeps 2 s t := by
  refine Keeps.answer ?_ h
  try dsimp only
  repeat' first
    | assumption | exact Keeps.refl _ _ | with_reducible apply keeps_receive | split | intro _ _

theorem keeps_execRdResp (i : Nat) (p : Packet) (cw : Codeword) (s t : State) (h : execRdResp i p cw s = .next t) :
    Keeps 2 s t := by
  refine Keeps.answer ?_ h
  try dsimp only
  repeat' first
    | assumption | exact Keeps.refl _ _ | with_reducible apply keeps_receive | split | intro _ _

theorem keeps_execSeif (i : Nat) (p : Packet) (cw : Codeword) (s t : State) (h : execSeif i p cw s = .next t) :
    Keeps 2 s t := by
  refine Keeps.answer ?_ h
  try dsimp only
  repeat' first
    | assumption | exact Keeps.refl _ _ | with_reducible apply keeps_receive | split | intro _ _

theorem keeps_execAck (i : Nat) (w : BitVec 64) (cw : Codeword) (s t : State) (h : execAck i w cw s = .next t) :
    Keeps 2 s t := by
  refine Keeps.answer ?_ h
  try dsimp only
  repeat' first
    | assumption | exact Keeps.refl _ _ | with_reducible apply keeps_rxBlock | with_reducible apply keeps_takeAckBlock | split | intro _ _

theorem keeps_execNak (i : Nat) (w : BitVec 64) (cw : Codeword) (s t : State) (h : execNak i w cw s = .next t) :
    Keeps 2 s t := by
  refine Keeps.answer ?_ h
  try dsimp only
  repeat' first
    | assumption | exact Keeps.refl _ _ | with_reducible apply keeps_rxBlock | with_reducible apply keeps_takeNak | split | intro _ _

theorem keeps_execCredit (i : Nat) (w : BitVec 64) (cw : Codeword) (s t : State) (h : execCredit i w cw s = .next t) :
    Keeps 2 s t := by
  refine Keeps.answer ?_ h
  try dsimp only
  repeat' first
    | assumption | exact Keeps.refl _ _ | with_reducible apply keeps_rxBlock | with_reducible apply keeps_takeCredit | split | intro _ _

theorem keeps_execProbe (i : Nat) (w : BitVec 64) (cw : Codeword) (around : Nat) (s t : State) (h : execProbe i w cw around s = .next t) :
    Keeps 2 s t := by
  refine Keeps.answer ?_ h
  try dsimp only
  repeat' first
    | assumption | exact Keeps.refl _ _ | with_reducible apply keeps_rxBlock | with_reducible apply keeps_sendBlock | split | intro _ _

theorem keeps_execLinkDelayProbe (i t : Nat) (s t : State) (h : execLinkDelayProbe i tm s = .next t) :
    Keeps 2 s t := by
  refine Keeps.answer ?_ h
  try dsimp only
  repeat' first
    | assumption | exact Keeps.refl _ _ | with_reducible apply keeps_sendBlock | with_reducible apply Keeps.modLink | split | intro _ _

theorem keeps_execProbeEcho (i : Nat) (w : BitVec 64) (cw : Codeword) (tm : Nat) (s t : State) (h : execProbeEcho i w cw tm s = .next t) :
    Keeps 2 s t := by
  refine Keeps.answer ?_ h
  try dsimp only
  repeat' first
    | assumption | exact Keeps.refl _ _ | with_reducible apply keeps_rxBlock | with_reducible apply keeps_takeEcho | split | intro _ _

theorem keeps_execLaneFailure (i lane : Nat) (s t : State) (h : execLaneFailure i lane s = .next t) : Keeps 2 s t := by
  refine Keeps.answer ?_ h
  try dsimp only
  repeat' first | assumption | exact Keeps.refl _ _ | with_reducible apply keeps_laneFails

theorem keeps_execLaneSwap (i : Nat) (w : BitVec 64) (cw : Codeword) (s t : State) (h : execLaneSwap i w cw s = .next t) :
    Keeps 2 s t := by
  refine Keeps.answer ?_ h
  try dsimp only
  repeat' first
    | assumption | exact Keeps.refl _ _ | with_reducible apply keeps_rxBlock | with_reducible apply keeps_takeSwap | split | intro _ _

theorem keeps_execTrain (i : Nat) (w : BitVec 64) (cw : Codeword) (s t : State) (h : execTrain i w cw s = .next t) :
    Keeps 2 s t := by
  refine Keeps.answer ?_ h
  try dsimp only
  repeat' first
    | assumption | exact Keeps.refl _ _ | with_reducible apply keeps_rxBlock | with_reducible apply keeps_takeTrain | split | intro _ _

theorem keeps_execLinkTrainingDone (i : Nat) (r : TrainResult) (s t : State) (h : execLinkTrainingDone i r s = .next t) :
    Keeps 2 s t := by
  refine Keeps.answer ?_ h
  try dsimp only
  repeat' first | assumption | exact Keeps.refl _ _ | with_reducible apply keeps_trainingDone

theorem keeps_execLinkFailure (i : Nat) (cause : LinkFault) (s t : State) (h : execLinkFailure i cause s = .next t) : Keeps 2
    s t := by
  refine Keeps.answer ?_ h
  try dsimp only
  repeat' first | assumption | exact Keeps.refl _ _ | with_reducible apply keeps_linkFails

theorem keeps_execRetrainTimeout (i : Nat) (s t : State) (h : execRetrainTimeout i s = .next t) : Keeps 2 s t := by
  refine Keeps.answer ?_ h
  split
  · exact keeps_retireLink (Keeps.refl _ _) _
  · exact Keeps.refl _ _

theorem keeps_execCableSupplyOff (i : Nat) (s t : State) (h : execCableSupplyOff i s = .next t) : Keeps 2 s t := by
  refine Keeps.answer ?_ h
  try dsimp only
  repeat' first | assumption | exact Keeps.refl _ _ | with_reducible apply keeps_cableOff

theorem keeps_execDieToDieFlitError (d : Nat) (ring second : Bool) (s t : State) (h : execDieToDieFlitError d ring second s =
    .next t) : Keeps 2 s t := by
  refine Keeps.answer ?_ h
  try dsimp only
  repeat' first | assumption | exact Keeps.refl _ _ | with_reducible apply keeps_flitError

theorem keeps_execDieControllerHeartbeatMiss (d : Nat) (s t : State) (h : execDieControllerHeartbeatMiss d s = .next t) :
    Keeps 2 s t := by
  refine Keeps.answer ?_ h
  split
  · exact Keeps.refl _ _
  · exact keeps_dieFault (Keeps.refl _ _) _

theorem keeps_execClockSupplyFault (d : Nat) (s t : State) (h : execClockSupplyFault d s = .next t) : Keeps 2 s t := by
  refine Keeps.answer ?_ h
  try dsimp only
  repeat' first
    | assumption | exact Keeps.refl _ _ | with_reducible apply keeps_dieFault | exact id | exact fun _ => rfl
    | exact fun _ => id | rfl | split

theorem keeps_execGovernorSample (pReal : Nat) (s t : State) (h : execGovernorSample pReal s = .next t) : Keeps 2 s t := by
  refine Keeps.answer ?_ h
  try dsimp only
  repeat' first | assumption | exact Keeps.refl _ _ | with_reducible apply keeps_governorSample

theorem keeps_execGovernorMillisecond  (s t : State) (h : execGovernorMillisecond s = .next t) :
    Keeps 2 s t := by
  refine Keeps.answer ?_ h
  try dsimp only
  repeat' first
    | assumption | exact Keeps.refl _ _ | with_reducible apply keeps_governorMs | split | intro _ _

theorem keeps_execPreRampStart  (s t : State) (h : execPreRampStart  s = .next t) : Keeps 2 s t := by
  refine Keeps.answer ?_ h
  try dsimp only
  repeat' first | assumption | exact Keeps.refl _ _ | with_reducible apply keeps_preRampStart

theorem keeps_execTargetDescentStart  (s t : State) (h : execTargetDescentStart  s = .next t) : Keeps 2 s t := by
  refine Keeps.answer ?_ h
  try dsimp only
  repeat' first | assumption | exact Keeps.refl _ _ | with_reducible apply keeps_descentStart

theorem keeps_execTempSample (tj : List Nat) (s t : State) (h : execTempSample tj s = .next t) : Keeps 2 s t := by
  refine Keeps.answer ?_ h
  try dsimp only
  repeat' first
    | assumption | exact Keeps.refl _ _ | with_reducible apply Keeps.modPwr | exact id | exact fun _ => rfl | exact fun _ => id
    | rfl | split

theorem keeps_execJunctionTrip (d : Nat) (s t : State) (h : execJunctionTrip d s = .next t) : Keeps 2 s t := by
  refine Keeps.answer ?_ h
  try dsimp only
  repeat' first | assumption | exact Keeps.refl _ _ | with_reducible apply keeps_junctionTrip

theorem keeps_execInputLow  (s t : State) (h : execInputLow  s = .next t) : Keeps 0 s t := by
  refine Keeps.answer ?_ h
  try dsimp only
  repeat' first | assumption | exact Keeps.refl _ _ | with_reducible apply keeps_inputLost

theorem keeps_execInputHigh  (s t : State) (h : execInputHigh  s = .next t) : Keeps 0 s t := by
  refine Keeps.answer ?_ h
  try dsimp only
  repeat' first | assumption | exact Keeps.refl _ _ | with_reducible apply keeps_inputLost

theorem keeps_execInputRestored  (s t : State) (h : execInputRestored  s = .next t) : Keeps 0 s t := by
  refine Keeps.answer ?_ h
  try dsimp only
  repeat' first | assumption | exact Keeps.refl _ _ | with_reducible apply keeps_inputRestored

theorem keeps_execBringUp (f : BootFindings) (s t : State) (h : execBringUp f s = .next t) : Keeps 0 s t := by
  refine Keeps.answer ?_ h
  try dsimp only
  repeat' first | assumption | exact Keeps.refl _ _ | with_reducible apply keeps_bringUp

theorem keeps_execDieThermalRelease (d : Nat) (fails : List BistFail) (s t : State) (h : execDieThermalRelease d fails s =
    .next t) : Keeps 2 s t := by
  refine Keeps.answer ?_ h
  try dsimp only
  repeat' first | assumption | exact Keeps.refl _ _ | with_reducible apply keeps_thermalRelease

theorem keeps_execReadRequest (l : List Byte) (s t : State) (h : execReadRequest l s = .next t) :
    Keeps 2 s t := by
  refine Keeps.answer ?_ h
  try dsimp only
  repeat' first
    | assumption | exact Keeps.refl _ _ | with_reducible apply keeps_privateWrite | split | intro _ _

theorem keeps_execWriteRequest (l : List Byte) (s t : State) (h : execWriteRequest l s = .next t) :
    Keeps 2 s t := by
  refine Keeps.answer ?_ h
  try dsimp only
  repeat' first
    | assumption | exact Keeps.refl _ _ | with_reducible apply keeps_privateWrite | split | intro _ _

theorem keeps_execResultRead (n : Nat) (s t : State) (h : execResultRead n s = .next t) : Keeps 2 s t := by
  refine Keeps.answer ?_ h
  try dsimp only
  repeat' first | assumption | exact Keeps.refl _ _ | with_reducible apply keeps_resultRead

theorem keeps_execDynamicAddressAssignment (arb : Bool) (a : Nat) (s t : State) (h : execDynamicAddressAssignment arb a s = .next t) : Keeps 2
    s t := by
  refine Keeps.answer ?_ h
  try dsimp only
  repeat' first | assumption | exact Keeps.refl _ _ | with_reducible apply keeps_takeAddress

theorem keeps_execInBandInterruptRetry  (s t : State) (h : execInBandInterruptRetry  s = .next t) : Keeps 2 s t := by
  refine Keeps.answer ?_ h
  try dsimp only
  repeat' first | assumption | exact Keeps.refl _ _ | with_reducible apply keeps_retryInterrupt

theorem keeps_execLockLost  (s t : State) (h : execLockLost  s = .next t) : Keeps 2 s t := by
  refine Keeps.answer ?_ h
  try dsimp only
  repeat' first | assumption | exact Keeps.refl _ _ | with_reducible apply keeps_lockLost

theorem keeps_execFallbackMasterTakeover  (s t : State) (h : execFallbackMasterTakeover  s = .next t) : Keeps 2 s t := by
  refine Keeps.answer ?_ h
  try dsimp only
  repeat' first | assumption | exact Keeps.refl _ _ | with_reducible apply keeps_takeover

theorem keeps_execMarkerEmit  (s t : State) (h : execMarkerEmit  s = .next t) : Keeps 2 s t := by
  refine Keeps.answer ?_ h
  try dsimp only
  repeat' first | assumption | exact Keeps.refl _ _ | with_reducible apply keeps_markerEmit

theorem keeps_execTickMarker (i : Nat) (w : BitVec 64) (cw : Codeword) (tm : Nat) (s t : State) (h : execTickMarker i w cw tm s = .next t) :
    Keeps 2 s t := by
  refine Keeps.answer ?_ h
  try dsimp only
  repeat' first
    | assumption | exact Keeps.refl _ _ | with_reducible apply keeps_rxBlock | with_reducible apply keeps_tickMarker | split | intro _ _

theorem keeps_execMarkerForward  (s t : State) (h : execMarkerForward  s = .next t) : Keeps 2 s t := by
  refine Keeps.answer ?_ h
  try dsimp only
  repeat' first | assumption | exact Keeps.refl _ _ | with_reducible apply keeps_markerForward

theorem keeps_execTickRefEdge (t0 : Nat) (s t : State) (h : execTickRefEdge t0 s = .next t) : Keeps 2 s t := by
  refine Keeps.answer ?_ h
  try dsimp only
  repeat' first
    | assumption | exact Keeps.refl _ _ | with_reducible apply keeps_externalEvent | exact id | exact fun _ => rfl
    | exact fun _ => id | rfl | split

theorem keeps_execTickFrame (port : Nat) (f : Frame) (s t : State) (h : execTickFrame port f s = .next t) : Keeps 2 s t :=
  Keeps.answer (keeps_takeFrame (Keeps.refl _ _) _ _) h

theorem keeps_execFnsync (i : Nat) (p : Packet) (cw : Codeword) (s t : State) (h : execFnsync i p cw s = .next t) :
    Keeps 1 s t := by
  refine Keeps.answer ?_ h
  try dsimp only
  repeat' first
    | assumption | exact Keeps.refl _ _ | with_reducible apply keeps_deliverFnsync | with_reducible apply keeps_rxPacket | split | intro _ _

theorem keeps_execFnsyncBroadcast  (s t : State) (h : execFnsyncBroadcast  s = .next t) : Keeps 2 s t := by
  refine Keeps.answer ?_ h
  try dsimp only
  repeat' first
    | assumption | exact Keeps.refl _ _ | with_reducible apply keeps_broadcastFn | exact id | exact fun _ => rfl
    | exact fun _ => id | rfl | split

theorem keeps_execWorkWindowEnd  (s t : State) (h : execWorkWindowEnd  s = .next t) : Keeps 2 s t := by
  refine Keeps.answer ?_ h
  try dsimp only
  repeat' first
    | assumption | exact Keeps.refl _ _ | with_reducible apply Keeps.setBit | exact id | exact fun _ => rfl | exact fun _ => id
    | rfl | split

theorem keeps_execTick  (s t : State) (h : execTick  s = .next t) : Keeps 0 s t := by
  refine Keeps.answer ?_ h
  try dsimp only
  repeat' first | assumption | exact Keeps.refl _ _ | with_reducible apply keeps_tick

end Sys2Proof.Machine
end

