-- ==== Sys2Proof/Laws/Queues.lean ====
section
/-! SUPPORT. What the core queues and a signal do, said once (R197, R277 to R282): a queue that changes leaves its depth, its peak
and perhaps an event; an item that passes through leaves as many stages as before. -/

namespace Sys2Proof.Machine

/-! ### What an event leaves of the ports and of the outputs -/

/-- `Eventful s t`: t has another event FIFO, and interrupts and events may have left; no token message has. -/
structure Eventful (s t : State) : Prop where
  port : t.port = { s.port with events := t.port.events, seq := t.port.seq, lostPending := t.port.lostPending }
  svc : t.svc = { s.svc with ibiPending := t.svc.ibiPending }
  out : t.out.filter Out.isToken = s.out.filter Out.isToken

theorem Eventful.refl (s : State) : Eventful s s := ⟨rfl, rfl, rfl⟩

theorem Eventful.trans {s t u : State} (h : Eventful s t) (k : Eventful t u) : Eventful s u :=
  ⟨by rw [k.port, h.port], by rw [k.svc, h.svc], k.out.trans h.out⟩

theorem Eventful.of_eq {s t : State} (hp : t.port = s.port) (hs : t.svc = s.svc) (ho : t.out = s.out) : Eventful s t :=
  ⟨by rw [hp], by rw [hs], by rw [ho]⟩

theorem eventful_sendEvent (e : EvEntry) (s : State) : Eventful s (sendEvent e s) := by
  simp only [sendEvent, forEach, List.foldl]
  split <;> split <;> exact ⟨rfl, rfl, by simp [State.send, Out.isToken]⟩

theorem rest_levelRule (a d0 d1 : Nat) (s : State) : (levelRule a d0 d1 s).1.port = s.port ∧ (levelRule a d0 d1 s).1.svc = s.svc ∧
    (levelRule a d0 d1 s).1.out = s.out := by
  simp only [levelRule, whenS]
  split <;> exact ⟨rfl, rfl, rfl⟩

theorem eventful_levelRule (a d0 d1 : Nat) (s : State) : Eventful s (levelRule a d0 d1 s).1 :=
  let h := rest_levelRule a d0 d1 s
  .of_eq h.1 h.2.1 h.2.2

theorem eventful_whenS (b : Bool) {f : State → State} (hf : ∀ t, Eventful t (f t)) (s : State) : Eventful s (whenS b f s) := by
  cases b
  · exact .refl s
  · exact hf s

theorem eventful_pushEvent (e : Event) (s : State) : Eventful s (pushEvent e s) := by
  unfold pushEvent
  extract_lets d s1 up lost n entry s2
  split
  · exact ⟨rfl, rfl, rfl⟩
  · have h2 : Eventful s s2 := ⟨rfl, rfl, rfl⟩
    refine (h2.trans (eventful_levelRule (hubQA 1 0) d (d + 1) s2)).trans ?_
    refine Eventful.trans (eventful_whenS _ (fun t => ?_) _) (eventful_whenS _ (eventful_sendEvent _) _)
    exact ⟨rfl, rfl, by simp [State.send, State.modSvc, Out.isToken]⟩

/-! ### A queue that changes (R282) -/

variable (core q : Nat) (l : List Nat) (s : State)

/-- The core whose queue changes. -/
def Core.withQueue (c : Core) (q : Nat) (l : List Nat) : Core := { c with queues := SMap.set (fun _ => []) c.queues q l }

theorem eventOnly_setQueue : EventOnly (s.modCore core fun c => c.withQueue q l) (setQueue core q l s) := by
  unfold setQueue
  extract_lets d0 s1
  have h1 : EventOnly (s.modCore core fun c => c.withQueue q l) s1 := .refl _
  split
  · exact h1
  · exact EventOnly.whenS _ _ (fun _ k => eventOnly_pushEvent k _) (eventOnly_levelRule h1 _ _ _)

theorem eventful_setQueue : Eventful s (setQueue core q l s) := by
  unfold setQueue
  extract_lets d0 s1
  have h1 : Eventful s s1 := ⟨rfl, rfl, rfl⟩
  split
  · exact h1
  · exact (h1.trans (eventful_levelRule _ _ _ _)).trans (eventful_whenS _ (fun _ => eventful_pushEvent _ _) _)

theorem regs_setQueue : s.sameRegs (setQueue core q l s) (queueRegs core q ++ eventRegs) := by
  unfold setQueue
  extract_lets d0 s1
  have h1 : s.sameRegs s1 (queueRegs core q ++ eventRegs) := sameRegs_of_regs (sameRegs_refl s _) rfl
  split
  · exact h1
  · refine sameRegs_whenS _ _ (fun t k => sameRegs_trans k (sameRegs_mono (regs_pushEvent _ t) (by simp))) ?_
    exact sameRegs_trans h1 (sameRegs_mono (regs_levelRule _ _ _ s1) (by intro a; simp [queueRegs, coreQA, tkA]; tauto))

/-- Without a level, no event is raised. -/
theorem quiet_setQueue (h : s.regFld (coreQA core q 0) 0 10 = 0) : (setQueue core q l s).port = s.port ∧
    (setQueue core q l s).svc = s.svc ∧ (setQueue core q l s).out = s.out ∧ s.sameRegs (setQueue core q l s) (queueRegs core q) := by
  unfold setQueue
  extract_lets d0 s1
  have h1 : s1.regFld (coreQA core q 0) 0 10 = 0 := h
  have h0 : s.sameRegs s1 (queueRegs core q) := sameRegs_of_regs (sameRegs_refl s _) rfl
  have hn : (levelRule (coreQA core q 0) d0 l.length s1).2 = false := by simp [levelRule, h1]
  split
  · exact ⟨rfl, rfl, rfl, h0⟩
  · have k := rest_levelRule (coreQA core q 0) d0 l.length s1
    have r := sameRegs_trans h0 (sameRegs_mono (regs_levelRule (coreQA core q 0) d0 l.length s1)
      (show [coreQA core q 0 + 4, coreQA core q 0 + 8] ⊆ queueRegs core q by intro a; simp [queueRegs, coreQA, tkA]; tauto))
    simp only [hn, whenS, Bool.false_eq_true, if_false]
    exact ⟨k.1, k.2.1, k.2.2, r⟩

theorem core_setQueue_self : (setQueue core q l s).core core = (s.core core).withQueue q l := by
  rw [State.core_congr (eventOnly_setQueue core q l s).cores]
  simp

theorem core_setQueue_other {j : Nat} (h : j ≠ core) : (setQueue core q l s).core j = s.core j := by
  rw [State.core_congr (eventOnly_setQueue core q l s).cores]
  simp [State.core_modCore, h]

@[simp] theorem queue_withQueue_self (c : Core) : (c.withQueue q l).queue q = l := by simp [Core.withQueue, Core.queue]
theorem queue_withQueue_other (c : Core) {r : Nat} (h : r ≠ q) : (c.withQueue q l).queue r = c.queue r := by
  simp [Core.withQueue, Core.queue, SMap.get_set, h]

/-! ### An item that passes through (R280) -/

/-- s with the cores, the registers, the event port and the outputs of t. -/
def State.withRest (s t : State) : State := { s with cores := t.cores, regs := t.regs, port := t.port, svc := t.svc, out := t.out }

theorem rest_setQueue : setQueue core q l s = s.withRest (setQueue core q l s) := by
  have h := eventOnly_setQueue core q l s
  refine h.eq.trans ?_
  rw [State.withRest, h.cores]
  rfl

theorem withRest_trans {s t u : State} (h : t = s.withRest t) (k : u = t.withRest u) : u = s.withRest u := by
  rw [k, h]
  rfl

/-- Everything that an item passing through a queue can do. -/
theorem passQueue_spec (item : Nat) : (∀ j, j ≠ core → (passQueue core q item s).core j = s.core j) ∧
    Core.passed (s.core core) ((passQueue core q item s).core core) q ∧ s.passedQueue (passQueue core q item s) core q [] ∧
    passQueue core q item s = s.withRest (passQueue core q item s) ∧
    (passQueue core q item s).out.filter Out.isToken = s.out.filter Out.isToken ∧
    (s.regFld (coreQA core q 0) 0 10 = 0 → (passQueue core q item s).out = s.out) := by
  by_cases hc : creditsLeft (s.core core) q = 0
  · rw [show passQueue core q item s = s by simp [passQueue, hc]]
    exact ⟨fun _ _ => rfl, ⟨rfl, fun _ _ => rfl, rfl⟩, ⟨sameRegs_refl _ _, rfl, rfl, fun _ => ⟨rfl, rfl, sameRegs_refl _ _⟩⟩, rfl, rfl, fun _ => rfl⟩
  · let s1 := setQueue core q ((s.core core).queue q ++ [item]) s
    have e : passQueue core q item s = setQueue core q (((s1.core core).queue q).erase item) s1 := by
      simp [passQueue, hc, pushQueue, popQueue, s1]
    rw [e]
    have c1 : s1.core core = (s.core core).withQueue q ((s.core core).queue q ++ [item]) := core_setQueue_self core q _ s
    have v := (eventful_setQueue core q ((s.core core).queue q ++ [item]) s).trans
      (eventful_setQueue core q (((s1.core core).queue q).erase item) s1)
    have r := sameRegs_trans (regs_setQueue core q ((s.core core).queue q ++ [item]) s)
      (regs_setQueue core q (((s1.core core).queue q).erase item) s1)
    have nin : coreQA core q 0 ∉ queueRegs core q := by simp [queueRegs, coreQA, tkA, coreA, dieA]
    have qt (h : s.regFld (coreQA core q 0) 0 10 = 0) := quiet_setQueue core q ((s.core core).queue q ++ [item]) s h
    have q2 (h : s.regFld (coreQA core q 0) 0 10 = 0) := quiet_setQueue core q (((s1.core core).queue q).erase item) s1
      ((congrArg (fun w => fld w 0 10) ((qt h).2.2.2 _ nin)).trans h)
    refine ⟨fun j hj => (core_setQueue_other core q _ s1 hj).trans (core_setQueue_other core q _ s hj), ?_,
      ⟨sameRegs_mono r (by simp), v.port, v.svc, fun h => ⟨(q2 h).1.trans (qt h).1, (q2 h).2.1.trans (qt h).2.1,
        sameRegs_mono (sameRegs_trans (qt h).2.2.2 (q2 h).2.2.2) (by simp)⟩⟩, ?_, v.out, fun h => (q2 h).2.2.1.trans (qt h).2.2.1⟩
    · rw [core_setQueue_self, c1]
      refine ⟨rfl, fun p hp => ?_, ?_⟩
      · rw [queue_withQueue_other _ _ _ hp, queue_withQueue_other _ _ _ hp]
      · rw [queue_withQueue_self, queue_withQueue_self, List.length_erase_of_mem (by simp)]
        simp
    · exact withRest_trans (rest_setQueue core q _ s) (rest_setQueue core q _ s1)

/-! ### A message that leaves through the injection queue (R197, R203) -/

theorem level_not_queueRegs : coreQA core q 0 ∉ queueRegs core q := by simp [queueRegs, coreQA, tkA, coreA, dieA]

theorem level_not_eventRegs : coreQA core q 0 ∉ eventRegs := by
  simp only [eventRegs, List.mem_cons, List.not_mem_nil, or_false, coreQA, tkA, coreA, dieA, hubQA, hubA, dpSticky]
  omega

/-- Nothing but a core and registers given has changed. -/
theorem onlyCore_quiet {s t : State} {also : List Nat} (hc : ∀ j, j ≠ core → t.core j = s.core j)
    (e : t = { s with cores := t.cores, regs := t.regs }) (r : s.sameRegs t also) : s.onlyCore t core [] also := by
  have hp : t.port = s.port := by rw [e]
  have hv : t.svc = s.svc := by rw [e]
  have ho : t.out = s.out := by rw [e]
  have hf : t.flight = s.flight := by rw [e]
  refine ⟨hc, by simp [hf], by simp [ho, tokenOuts], ?_, ⟨sameRegs_mono r (by simp), by rw [hp], by rw [hv],
    fun _ => ⟨hp, hv, sameRegs_mono r (by simp)⟩⟩, fun _ => by simp [ho, tokenOuts], fun _ => ⟨e, r⟩⟩
  rw [e]

/-- A message that follows others out of the core's injection queue: it is one more message, and the core is as it was but for
an item that has passed through queue 24. -/
theorem onlyCore_send {s t : State} {msgs : List (Nat × Nat × Nat)} {also : List Nat} (h : s.onlyCore t core msgs also)
    (hn : coreQA core 24 0 ∉ also) (dst tok cnt item : Nat) :
    s.onlyCore (sendToken dst tok cnt (passQueue core 24 item t)) core (msgs ++ [(dst, tok, cnt)]) also ∧
      Core.passed (t.core core) ((sendToken dst tok cnt (passQueue core 24 item t)).core core) 24 := by
  obtain ⟨hc, hf, ho, ht, ⟨hr, hp, hv, hq⟩, hout, -⟩ := h
  obtain ⟨pc, pp, ⟨qr, qp, qv, qq⟩, pt, po, pout⟩ := passQueue_spec core 24 t item
  have lev : t.regFld (coreQA core 24 0) 0 10 = s.regFld (coreQA core 24 0) 0 10 :=
    congrArg (fun w => fld w 0 10) (hr _ (by simp [hn, level_not_eventRegs core 24, level_not_queueRegs core 24]))
  generalize e : passQueue core 24 item t = u at *
  have hu : u.flight = t.flight := by rw [pt]; rfl
  refine ⟨⟨fun j hj => (pc j hj).trans (hc j hj), ?_, ?_, ?_, ⟨?_, ?_, ?_, fun z => ?_⟩, fun z => ?_, fun z => by simp at z⟩, pp⟩
  · show u.flight ++ [(dst, tok, cnt)] = _
    rw [hu, hf, List.append_assoc]
  · show (Out.token dst tok cnt :: u.out).filter Out.isToken = _
    rw [List.filter_cons_of_pos (by rfl), po, ho]
    simp [tokenOuts]
  · show sendToken dst tok cnt u = _
    rw [sendToken, pt, ht]
    rfl
  · exact sameRegs_trans hr (sameRegs_of_regs (t := sendToken dst tok cnt u) (sameRegs_mono qr (fun a h => by
      rcases List.mem_append.1 h with h | h
      · exact List.mem_append_left _ (List.mem_append_right _ h)
      · exact List.mem_append_right _ h)) rfl)
  · show u.port = _
    rw [qp, hp]
    rfl
  · show u.svc = _
    rw [qv, hv]
    rfl
  · have k := qq (lev.trans z)
    have l := hq z
    exact ⟨k.1.trans l.1, k.2.1.trans l.2.1, sameRegs_trans l.2.2
      (sameRegs_of_regs (t := sendToken dst tok cnt u) (sameRegs_mono k.2.2 fun a h => List.mem_append_right _ h) rfl)⟩
  · show Out.token dst tok cnt :: u.out = _
    rw [pout (lev.trans z), hout z]
    simp [tokenOuts]

end Sys2Proof.Machine
end

