-- ==== Sys2Proof/Laws/Within.lean ====
section
/-! SUPPORT. What the work of macro-instructions stays within: it leaves the tick, the images, the security core, the self-test,
the power budgets, and each core's sequencer, tokens, windows and descriptors as they are, and of an instruction in flight what
issue gave it. `Within bh bp ba bi s0 t`: where `bh`, `bp`, `ba`, `bi` is true, also the HBM, the scratchpads, the arrays, and what
each instruction in flight still has to do. -/

namespace Sys2Proof.Machine

/-- What an instruction in flight still has to do. -/
def Op.ahead (o : Op) : Nat × List Item := (o.seq, o.items)

/-- What issue gives an instruction for good. -/
def Op.given (o : Op) : Nat × BitVec 256 × Nat × Ext × List Opd × Nat × Nat × Nat × List Word :=
  (o.seq, o.word, o.seg, o.ext, o.opds, o.mb, o.ru, o.xid, o.imm)

/-- The part of a core that the work of instructions leaves. -/
def Core.kept (c : Core) : Option CoreSect × SMap (BitVec 512) × SMap Nat × Option Prog × Option (Nat × Nat) × Nat × Bool ×
    Option Waiting × SMap Est × SMap Window × List WinChange × Option Rotation × Nat × List (Nat × BitVec 256 × Nat × Ext × List Opd ×
    Nat × Nat × Nat × List Word) :=
  (c.cfg, c.desc, c.tokens, c.prog, c.loaded, c.pos, c.ended, c.waiting, c.est, c.windows, c.winPend, c.rotation, c.nextRot,
    c.ops.map Op.given)

structure Within (bh bp ba bi : Bool) (s0 t : State) : Prop where
  tk : t.tk = s0.tk
  img : t.img = s0.img
  sec : t.sec = s0.sec
  bist : t.bist = s0.bist
  pwr : { t.pwr with raise := [] } = { s0.pwr with raise := [] }
  pending : t.pending = s0.pending
  kept : ∀ i, (t.core i).kept = (s0.core i).kept
  hbm : bh = true → t.hbm = s0.hbm
  spad : bp = true → t.spad = s0.spad
  mac : ba = true → t.mac = s0.mac
  scale : ba = true → t.scale = s0.scale
  ahead : bi = true → ∀ i, (t.core i).ops.map Op.ahead = (s0.core i).ops.map Op.ahead

variable {bh bp ba bi : Bool} {s0 s t : State}

theorem Within.refl (bh bp ba bi : Bool) (s : State) : Within bh bp ba bi s s :=
  ⟨rfl, rfl, rfl, rfl, rfl, rfl, fun _ => rfl, fun _ => rfl, fun _ => rfl, fun _ => rfl, fun _ => rfl, fun _ _ => rfl⟩

theorem Within.trans (h : Within bh bp ba bi s0 s) (k : Within bh bp ba bi s t) : Within bh bp ba bi s0 t :=
  ⟨k.tk.trans h.tk, k.img.trans h.img, k.sec.trans h.sec, k.bist.trans h.bist, k.pwr.trans h.pwr, k.pending.trans h.pending,
    fun i => (k.kept i).trans (h.kept i), fun e => (k.hbm e).trans (h.hbm e), fun e => (k.spad e).trans (h.spad e),
    fun e => (k.mac e).trans (h.mac e), fun e => (k.scale e).trans (h.scale e), fun e i => (k.ahead e i).trans (h.ahead e i)⟩

/-- An event leaves all of it. -/
theorem Within.event (h : Within bh bp ba bi s0 s) (k : EventOnly s t) : Within bh bp ba bi s0 t :=
  ⟨k.tk.trans h.tk, k.img.trans h.img, k.sec.trans h.sec, k.bist.trans h.bist, by rw [k.pwr]; exact h.pwr, k.pending.trans h.pending,
    fun i => by rw [State.core, k.cores]; exact h.kept i, fun e => k.hbm.trans (h.hbm e), fun e => k.spad.trans (h.spad e),
    fun e => k.mac.trans (h.mac e), fun e => k.scale.trans (h.scale e), fun e i => by rw [State.core, k.cores]; exact h.ahead e i⟩

theorem Within.setReg (h : Within bh bp ba bi s0 s) (a : Nat) (v : Word) : Within bh bp ba bi s0 (s.setReg a v) := { h with }
theorem Within.setBit (h : Within bh bp ba bi s0 s) (a i : Nat) : Within bh bp ba bi s0 (s.setBit a i) := { h with }
theorem Within.clrBit (h : Within bh bp ba bi s0 s) (a i : Nat) : Within bh bp ba bi s0 (s.clrBit a i) := { h with }
theorem Within.putBit (h : Within bh bp ba bi s0 s) (a i : Nat) (b : Bool) : Within bh bp ba bi s0 (s.putBit a i b) := { h with }
theorem Within.setFld (h : Within bh bp ba bi s0 s) (a lo w v : Nat) : Within bh bp ba bi s0 (s.setFld a lo w v) := { h with }
theorem Within.addCnt (h : Within bh bp ba bi s0 s) (a lo w n : Nat) : Within bh bp ba bi s0 (s.addCnt a lo w n) := { h with }
theorem Within.maxFld (h : Within bh bp ba bi s0 s) (a lo w v : Nat) : Within bh bp ba bi s0 (s.maxFld a lo w v) := { h with }
theorem Within.setReg64 (h : Within bh bp ba bi s0 s) (a : Nat) (v : DWord) : Within bh bp ba bi s0 (s.setReg64 a v) := { h with }
theorem Within.setCore (h : Within bh bp ba bi s0 s) (i : Nat) (c : Core) (hc : c.kept = (s.core i).kept)
    (ho : bi = true → c.ops.map Op.ahead = (s.core i).ops.map Op.ahead) : Within bh bp ba bi s0 (s.setCore i c) :=
  have k : ∀ j, ((s.setCore i c).core j).kept = (s0.core j).kept := fun j => by
    rw [State.core_setCore]
    split
    · next e => subst e; exact hc.trans (h.kept _)
    · exact h.kept j
  have l : bi = true → ∀ j, ((s.setCore i c).core j).ops.map Op.ahead = (s0.core j).ops.map Op.ahead := fun e j => by
    rw [State.core_setCore]
    split
    · next e' => subst e'; exact (ho e).trans (h.ahead e _)
    · exact h.ahead e j
  { h with kept := k, ahead := l }
theorem Within.modCore (h : Within bh bp ba bi s0 s) (i : Nat) (f : Core → Core) (hf : (f (s.core i)).kept = (s.core i).kept)
    (ho : bi = true → (f (s.core i)).ops.map Op.ahead = (s.core i).ops.map Op.ahead) : Within bh bp ba bi s0 (s.modCore i f) :=
  h.setCore i _ hf ho
theorem Within.setLink (h : Within bh bp ba bi s0 s) (i : Nat) (l : LinkSt) : Within bh bp ba bi s0 (s.setLink i l) := { h with }
theorem Within.modLink (h : Within bh bp ba bi s0 s) (i : Nat) (f : LinkSt → LinkSt) : Within bh bp ba bi s0 (s.modLink i f) := { h with }
theorem Within.setNode (h : Within bh bp ba bi s0 s) (n : NodeId) (x : Node) : Within bh bp ba bi s0 (s.setNode n x) := by
  cases n
  · exact Within.modCore h _ (fun c => { c with node := x }) rfl fun _ => rfl
  · exact { h with }
  · exact { h with }
theorem Within.modFx (h : Within bh bp ba bi s0 s) (f : CommitSt → CommitSt) : Within bh bp ba bi s0 (s.modFx f) := { h with }
theorem Within.modCur (h : Within bh bp ba bi s0 s) (f : FrameRec → FrameRec) : Within bh bp ba bi s0 (s.modCur f) := { h with }
theorem Within.modPort (h : Within bh bp ba bi s0 s) (f : PortSt → PortSt) : Within bh bp ba bi s0 (s.modPort f) := { h with }
theorem Within.modPwr (h : Within bh bp ba bi s0 s) (f : PowerSt → PowerSt) (hf : { f s.pwr with raise := [] } = { s.pwr with raise := [] }) :
    Within bh bp ba bi s0 (s.modPwr f) :=
  { h with pwr := Eq.trans hf h.pwr }
theorem Within.modSvc (h : Within bh bp ba bi s0 s) (f : ServiceSt → ServiceSt) : Within bh bp ba bi s0 (s.modSvc f) := { h with }
theorem Within.modErr (h : Within bh bp ba bi s0 s) (f : ErrSt → ErrSt) : Within bh bp ba bi s0 (s.modErr f) := { h with }
theorem Within.send (h : Within bh bp ba bi s0 s) (o : Out) : Within bh bp ba bi s0 (s.send o) := { h with }
theorem Within.usedFree (h : Within bh bp ba bi s0 s) : Within bh bp ba bi s0 s.usedFree := { h with }

/-- A literal change of parts that do not count. -/
theorem Within.rest (h : Within bh bp ba bi s0 s) (r : SMap Word) (p : SMap PosTag) (e : ErrSt) (dn : SMap Node) (hn : Node)
    (fl : List (Nat × Nat × Nat)) (l : SMap LinkSt) (ch : ChipSt) (fx : CommitSt) (po : PortSt) (sv : ServiceSt) (fc : Nat)
    (o : List Out) :
    Within bh bp ba bi s0 ⟨r, s.hbm, s.spad, s.mac, s.scale, p, e, s.cores, dn, hn, fl, s.tk, l, ch, fx, s.img, po, s.pwr, s.sec, s.bist,
      sv, fc, o, s.pending⟩ := { h with }

theorem Within.forEach {α : Type} (l : List α) (f : α → State → State) (hf : ∀ x t, Within bh bp ba bi s0 t → Within bh bp ba bi s0 (f x t))
    (h : Within bh bp ba bi s0 s) : Within bh bp ba bi s0 (forEach l f s) := by
  unfold Machine.forEach
  induction l generalizing s with
  | nil => exact h
  | cons x l ih => exact ih (hf x s h)
theorem Within.whenS (b : Bool) (f : State → State) (hf : ∀ t, Within bh bp ba bi s0 t → Within bh bp ba bi s0 (f t)) (h : Within bh bp ba bi s0 s) :
    Within bh bp ba bi s0 (whenS b f s) := by cases b <;> simp [Machine.whenS, h, hf]
theorem Within.foldl {β : Type} (l : List β) (f : State → β → State) (hf : ∀ x t, Within bh bp ba bi s0 t → Within bh bp ba bi s0 (f t x))
    (h : Within bh bp ba bi s0 s) : Within bh bp ba bi s0 (l.foldl f s) := by
  induction l generalizing s with
  | nil => exact h
  | cons x l ih => exact ih (hf x s h)

/-- A fold over a record that carries a state. -/
theorem Within.foldlS {β τ : Type} (p : τ → State) (l : List β) (f : τ → β → τ)
    (hf : ∀ x a, Within bh bp ba bi s0 (p a) → Within bh bp ba bi s0 (p (f a x))) (a : τ) (h : Within bh bp ba bi s0 (p a)) :
    Within bh bp ba bi s0 (p (l.foldl f a)) := by
  induction l generalizing a with
  | nil => exact h
  | cons x l ih => exact ih (f a x) (hf x a h)

/-- A change of an instruction in flight that leaves what issue gave it. -/
theorem within_modOp (h : Within bh bp ba bi s0 s) (core seq : Nat) (f : Op → Op) (hf : ∀ o, (f o).given = o.given)
    (ho : bi = true → ∀ o, (f o).ahead = o.ahead) : Within bh bp ba bi s0 (modOp core seq f s) := by
  have e : ∀ l : List Op, (l.map fun x => if x.seq = seq then f x else x).map Op.given = l.map Op.given := by
    intro l
    induction l with
    | nil => rfl
    | cons x l ih =>
      simp only [List.map_cons, ih]
      by_cases hx : x.seq = seq <;> simp [hx, hf]
  refine h.modCore _ _ (by simp [Core.kept, e]) fun ht => ?_
  show ((s.core core).ops.map fun x => if x.seq = seq then f x else x).map Op.ahead = _
  generalize (s.core core).ops = l
  induction l with
  | nil => rfl
  | cons x l ih =>
    simp only [List.map_cons, ih]
    by_cases hx : x.seq = seq <;> simp [hx, ho ht]

theorem within_spPut (h : Within bh bp ba bi s0 s) (core p : Nat) (b : Byte) (wp : bp = false := by assumption) :
    Within bh bp ba bi s0 (spPut core p b s) :=
  { h with spad := fun e => by simp [wp] at e }
theorem within_ungather (h : Within bh bp ba bi s0 s) (core p : Nat) : Within bh bp ba bi s0 (ungather core p s) := by
  unfold ungather
  dsimp only
  split
  · exact h.modCore _ _ rfl fun _ => rfl
  · exact h
theorem within_spStore (h : Within bh bp ba bi s0 s) (core p : Nat) (b : Byte) (wp : bp = false := by assumption) :
    Within bh bp ba bi s0 (spStore core p b s) := within_spPut (within_ungather h core p) core p b
theorem within_hbmStore (h : Within bh bp ba bi s0 s) (a : Nat) (b : Byte) (wh : bh = false := by assumption) : Within bh bp ba bi s0 (hbmStore a b s) :=
  { h with hbm := fun e => by simp [wh] at e }
theorem within_putScale (h : Within bh bp ba bi s0 s) (pm c v : Nat) (wa : ba = false := by assumption) : Within bh bp ba bi s0 (putScale pm c v s) :=
  { h with scale := fun e => by simp [wa] at e }
theorem within_arrStore (h : Within bh bp ba bi s0 s) (pm o : Nat) (b : Byte) (wa : ba = false := by assumption) : Within bh bp ba bi s0 (arrStore pm o b s) :=
  { h with mac := fun e => by simp [wa] at e }
theorem within_pushEvent (h : Within bh bp ba bi s0 s) (e : Event) : Within bh bp ba bi s0 (pushEvent e s) :=
  h.event (eventOnly_pushEvent (.refl s) e)

end Sys2Proof.Machine
end

