-- ==== Sys2Proof/Laws/WithinOps.lean ====
section
/-! SUPPORT. `Within` (Laws/Within.lean) for every function of the shared operations, the memories, the nodes and the fabric. -/

set_option maxRecDepth 4000

namespace Sys2Proof.Machine

variable {bh bp ba bi : Bool} {s0 s : State}

theorem within_sendEvent (h : Within bh bp ba bi s0 s) (e : EvEntry) : Within bh bp ba bi s0 (sendEvent e s) := by
  unfold sendEvent
  try dsimp only
  repeat' first
    | assumption | with_reducible apply Within.send | with_reducible apply Within.forEach
    | exact fun _ => rfl | exact fun _ _ => rfl | rfl | (intro e; simp_all; done) | split | intro _

theorem within_levelRule (h : Within bh bp ba bi s0 s) (a d0 d1 : Nat) : Within bh bp ba bi s0 (levelRule a d0 d1 s).1 := by
  unfold levelRule
  try dsimp only
  repeat' first
    | assumption | with_reducible apply Within.setBit | with_reducible apply Within.setFld | with_reducible apply Within.maxFld
    | with_reducible apply Within.whenS
    | exact fun _ => rfl | exact fun _ _ => rfl | rfl | (intro e; simp_all; done) | split | intro _

theorem within_raise0 (h : Within bh bp ba bi s0 s) (addr bitIx status data : Nat) : Within bh bp ba bi s0 (raise0 addr bitIx status data s) := by
  unfold raise0
  try dsimp only
  repeat' first
    | assumption | with_reducible apply within_pushEvent
    | exact fun _ => rfl | exact fun _ _ => rfl | rfl | (intro e; simp_all; done) | split | intro _

theorem within_stageEvent (h : Within bh bp ba bi s0 s) (e : Event) : Within bh bp ba bi s0 (stageEvent e s) := by
  unfold stageEvent
  try dsimp only
  repeat' first
    | assumption | with_reducible apply Within.modCur
    | exact fun _ => rfl | exact fun _ _ => rfl | rfl | (intro e; simp_all; done) | split | intro _

theorem within_stage0 (h : Within bh bp ba bi s0 s) (addr bitIx status data : Nat) : Within bh bp ba bi s0 (stage0 addr bitIx status data s) := by
  unfold stage0
  try dsimp only
  repeat' first
    | assumption | with_reducible apply within_stageEvent
    | exact fun _ => rfl | exact fun _ _ => rfl | rfl | (intro e; simp_all; done) | split | intro _

theorem within_stickyEvent (h : Within bh bp ba bi s0 s) (addr bitIx : Nat) : Within bh bp ba bi s0 (stickyEvent addr bitIx s) := by
  unfold stickyEvent
  try dsimp only
  repeat' first
    | assumption | with_reducible apply Within.setBit | with_reducible apply within_stage0
    | exact fun _ => rfl | exact fun _ _ => rfl | rfl | (intro e; simp_all; done) | split | intro _

theorem within_queueDepthChange (h : Within bh bp ba bi s0 s) (q d0 d1 : Nat) : Within bh bp ba bi s0 (queueDepthChange q d0 d1 s) := by
  unfold queueDepthChange
  try dsimp only
  repeat' first
    | assumption | with_reducible apply Within.whenS | with_reducible apply within_levelRule
    | with_reducible apply within_raise0
    | exact fun _ => rfl | exact fun _ _ => rfl | rfl | (intro e; simp_all; done) | split | intro _

theorem within_setQueue (h : Within bh bp ba bi s0 s) (core q : Nat) (l : List Nat) : Within bh bp ba bi s0 (setQueue core q l s) := by
  unfold setQueue
  try dsimp only
  repeat' first
    | assumption | with_reducible apply Within.modCore | with_reducible apply Within.whenS
    | with_reducible apply within_levelRule | with_reducible apply within_raise0
    | exact fun _ => rfl | exact fun _ _ => rfl | rfl | (intro e; simp_all; done) | split | intro _

theorem within_pushQueue (h : Within bh bp ba bi s0 s) (core q item : Nat) : Within bh bp ba bi s0 (pushQueue core q item s) := by
  unfold pushQueue
  try dsimp only
  repeat' first
    | assumption | with_reducible apply within_setQueue
    | exact fun _ => rfl | exact fun _ _ => rfl | rfl | (intro e; simp_all; done) | split | intro _

theorem within_popQueue (h : Within bh bp ba bi s0 s) (core q item : Nat) : Within bh bp ba bi s0 (popQueue core q item s) := by
  unfold popQueue
  try dsimp only
  repeat' first
    | assumption | with_reducible apply within_setQueue
    | exact fun _ => rfl | exact fun _ _ => rfl | rfl | (intro e; simp_all; done) | split | intro _

theorem within_passQueue (h : Within bh bp ba bi s0 s) (core q item : Nat) : Within bh bp ba bi s0 (passQueue core q item s) := by
  unfold passQueue
  try dsimp only
  repeat' first
    | assumption | with_reducible apply within_pushQueue | with_reducible apply within_popQueue
    | exact fun _ => rfl | exact fun _ _ => rfl | rfl | (intro e; simp_all; done) | split | intro _

theorem within_raiseFx (h : Within bh bp ba bi s0 s) (fn : DWord) (bitIx entry action : Nat) : Within bh bp ba bi s0 (raiseFx fn bitIx entry action s) := by
  unfold raiseFx
  try dsimp only
  repeat' first
    | assumption | with_reducible apply within_pushEvent
    | exact fun _ => rfl | exact fun _ _ => rfl | rfl | (intro e; simp_all; done) | split | intro _

theorem within_requestRetire (h : Within bh bp ba bi s0 s) (i : Nat) (l : Loc) : Within bh bp ba bi s0 (requestRetire i l s) := by
  unfold requestRetire
  try dsimp only
  repeat' first
    | assumption | with_reducible apply Within.modFx
    | exact fun _ => rfl | exact fun _ _ => rfl | rfl | (intro e; simp_all; done) | split | intro _

theorem within_newLogEntry (h : Within bh bp ba bi s0 s) (cls : Nat) (l : Loc) (source attempt : Nat) (wfn : DWord) : Within bh bp ba bi s0 (newLogEntry cls l source attempt wfn s) := by
  unfold newLogEntry
  try dsimp only
  repeat' first
    | assumption | with_reducible apply Within.setReg | with_reducible apply Within.setBit | with_reducible apply Within.setFld
    | with_reducible apply Within.addCnt | with_reducible apply Within.setReg64 | with_reducible apply Within.modFx
    | with_reducible apply Within.whenS | with_reducible apply within_raiseFx
    | exact fun _ => rfl | exact fun _ _ => rfl | rfl | (intro e; simp_all; done) | split | intro _

theorem within_classPermanent (h : Within bh bp ba bi s0 s) (i : Nat) (l : Loc) : Within bh bp ba bi s0 (classPermanent i l s) := by
  unfold classPermanent
  try dsimp only
  repeat' first
    | assumption | with_reducible apply Within.setFld | with_reducible apply within_requestRetire
    | with_reducible apply within_raiseFx
    | exact fun _ => rfl | exact fun _ _ => rfl | rfl | (intro e; simp_all; done) | split | intro _

theorem within_logDetection (h : Within bh bp ba bi s0 s) (l : Loc) : Within bh bp ba bi s0 (logDetection l s) := by
  unfold logDetection
  try dsimp only
  repeat' first
    | assumption | with_reducible apply Within.setFld | with_reducible apply Within.addCnt | with_reducible apply Within.modFx
    | with_reducible apply within_newLogEntry | with_reducible apply within_classPermanent
    | exact fun _ => rfl | exact fun _ _ => rfl | rfl | (intro e; simp_all; done) | split | intro _

theorem within_detectFault (h : Within bh bp ba bi s0 s) (l : Loc) : Within bh bp ba bi s0 (detectFault l s) := by
  unfold detectFault
  try dsimp only
  repeat' first
    | assumption | with_reducible apply Within.setBit | with_reducible apply Within.addCnt | with_reducible apply Within.modCur
    | with_reducible apply within_logDetection
    | exact fun _ => rfl | exact fun _ _ => rfl | rfl | (intro e; simp_all; done) | split | intro _

theorem within_hardError (h : Within bh bp ba bi s0 s) (l : Loc) : Within bh bp ba bi s0 (hardError l s) := by
  unfold hardError
  split
  · exact (h.addCnt _ _ _ _).modFx _
  · exact within_requestRetire (within_raiseFx (within_newLogEntry h _ _ _ _ _) _ _ _ _) _ _

theorem within_versionLost (h : Within bh bp ba bi s0 s)  : Within bh bp ba bi s0 (versionLost s) := by
  unfold versionLost
  try dsimp only
  repeat' first
    | assumption | with_reducible apply Within.setBit | with_reducible apply Within.modCur
    | exact fun _ => rfl | exact fun _ _ => rfl | rfl | (intro e; simp_all; done) | split | intro _

theorem within_sendToken (h : Within bh bp ba bi s0 s) (core tok cnt : Nat) : Within bh bp ba bi s0 (sendToken core tok cnt s) := by
  unfold sendToken
  try dsimp only
  repeat' first
    | assumption | with_reducible apply Within.send
    | exact fun _ => rfl | exact fun _ _ => rfl | rfl | (intro e; simp_all; done) | split | intro _
  all_goals (with_reducible apply Within.rest)
  repeat' first
    | assumption | with_reducible apply Within.send
    | exact fun _ => rfl | exact fun _ _ => rfl | rfl | (intro e; simp_all; done) | split | intro _

theorem within_orMeta (h : Within bh bp ba bi s0 s) (core td : Nat) (md : Word) : Within bh bp ba bi s0 (orMeta core td md s) := by
  unfold orMeta
  try dsimp only
  repeat' first
    | assumption | with_reducible apply Within.modCore
    | exact fun _ => rfl | exact fun _ _ => rfl | rfl | (intro e; simp_all; done) | split | intro _

theorem within_addWatch (h : Within bh bp ba bi s0 s) (core td zeros sats nonfin : Nat) : Within bh bp ba bi s0 (addWatch core td zeros sats nonfin s) := by
  unfold addWatch
  try dsimp only
  repeat' first
    | assumption | with_reducible apply Within.modCore
    | exact fun _ => rfl | exact fun _ _ => rfl | rfl | (intro e; simp_all; done) | split | intro _

theorem within_pathCheck (h : Within bh bp ba bi s0 s) (f : BitVec 39) (l : Loc) : Within bh bp ba bi s0 (pathCheck f l s) := by
  unfold pathCheck
  try dsimp only
  repeat' first
    | assumption | with_reducible apply within_detectFault
    | exact fun _ => rfl | exact fun _ _ => rfl | rfl | (intro e; simp_all; done) | split | intro _

theorem within_netWord (h : Within bh bp ba bi s0 s) (d : Nat) : Within bh bp ba bi s0 (netWord d s) := by
  unfold netWord
  try dsimp only
  repeat' first
    | assumption | with_reducible apply Within.modErr | with_reducible apply within_pathCheck
    | exact fun _ => rfl | exact fun _ _ => rfl | rfl | (intro e; simp_all; done) | split | intro _

theorem within_unitCheck (h : Within bh bp ba bi s0 s) (u : Nat) (l : Loc) : Within bh bp ba bi s0 (unitCheck u l s) := by
  unfold unitCheck
  try dsimp only
  repeat' first
    | assumption | with_reducible apply Within.modErr | with_reducible apply Within.whenS
    | with_reducible apply within_detectFault
    | exact fun _ => rfl | exact fun _ _ => rfl | rfl | (intro e; simp_all; done) | split | intro _

theorem within_spRecord (h : Within bh bp ba bi s0 s) (core kind cls word seg : Nat) : Within bh bp ba bi s0 (spRecord core kind cls word seg s) := by
  unfold spRecord
  try dsimp only
  repeat' first
    | assumption | with_reducible apply Within.setReg | with_reducible apply Within.setReg64
    | exact fun _ => rfl | exact fun _ _ => rfl | rfl | (intro e; simp_all; done) | split | intro _

theorem within_spUncorr (h : Within bh bp ba bi s0 s) (r : Req) (word : Nat) (lost : Bool) : Within bh bp ba bi s0 (spUncorr r word lost s) := by
  unfold spUncorr
  try dsimp only
  repeat' first
    | assumption | with_reducible apply Within.setBit | with_reducible apply Within.whenS
    | with_reducible apply within_detectFault | with_reducible apply within_versionLost | with_reducible apply within_spRecord
    | exact fun _ => rfl | exact fun _ _ => rfl | rfl | (intro e; simp_all; done) | split | intro _

theorem within_spEffects (h : Within bh bp ba bi s0 s) (r : Req) (f : SpFlags) : Within bh bp ba bi s0 (spEffects r f s).1 := by
  unfold spEffects
  try dsimp only
  repeat' first
    | assumption | with_reducible apply Within.setBit | with_reducible apply Within.addCnt | with_reducible apply Within.whenS
    | with_reducible apply within_stickyEvent | with_reducible apply within_spRecord | with_reducible apply within_spUncorr
    | exact fun _ => rfl | exact fun _ _ => rfl | rfl | (intro e; simp_all; done) | split | intro _

theorem within_spReadS (h : Within bh bp ba bi s0 s) (r : Req) (tag q n : Nat) : Within bh bp ba bi s0 (spReadS r tag q n s).2.2 := by
  unfold spReadS
  try dsimp only
  repeat' first
    | assumption | with_reducible apply within_spEffects
    | exact fun _ => rfl | exact fun _ _ => rfl | rfl | (intro e; simp_all; done) | split | intro _

theorem within_noteVersion (h : Within bh bp ba bi s0 s) (core slot td : Nat) : Within bh bp ba bi s0 (noteVersion core slot td s) := by
  unfold noteVersion
  try dsimp only
  repeat' first
    | assumption | with_reducible apply Within.modCore
    | exact fun _ => rfl | exact fun _ _ => rfl | rfl | (intro e; simp_all; done) | split | intro _

theorem within_spWriteByte (z : SpWr) (h : Within bh bp ba bi s0 z.s) (r : Req) (tag td : Nat) (x : Nat × Option Byte) (wp : bp = false := by assumption) : Within bh bp ba bi s0 (spWriteByte r tag td x z).s := by
  unfold spWriteByte
  try dsimp only
  repeat' first
    | assumption | with_reducible apply within_spStore | with_reducible apply within_noteVersion
    | exact fun _ => rfl | exact fun _ _ => rfl | rfl | (intro e; simp_all; done) | split | intro _

theorem within_setFull (h : Within bh bp ba bi s0 s) (core slot : Nat) : Within bh bp ba bi s0 (setFull core slot s) := by
  unfold setFull
  try dsimp only
  repeat' first
    | assumption | with_reducible apply Within.modCore
    | exact fun _ => rfl | exact fun _ _ => rfl | rfl | (intro e; simp_all; done) | split | intro _

theorem within_setEmpty (h : Within bh bp ba bi s0 s) (core slot : Nat) : Within bh bp ba bi s0 (setEmpty core slot s) := by
  unfold setEmpty
  try dsimp only
  repeat' first
    | assumption | with_reducible apply Within.modCore
    | exact fun _ => rfl | exact fun _ _ => rfl | rfl | (intro e; simp_all; done) | split | intro _

theorem within_produced (h : Within bh bp ba bi s0 s) (core word : Nat) : Within bh bp ba bi s0 (produced core word s) := by
  unfold produced
  try dsimp only
  repeat' first
    | assumption | with_reducible apply Within.modCore | with_reducible apply within_setFull
    | exact fun _ => rfl | exact fun _ _ => rfl | rfl | (intro e; simp_all; done) | split | intro _

theorem within_spWriteS (h : Within bh bp ba bi s0 s) (r : Req) (tag tdx : Nat) (l : List (Nat × Option Byte)) (wp : bp = false := by assumption) : Within bh bp ba bi s0 (spWriteS r tag tdx l s).2 := by
  unfold spWriteS
  try dsimp only
  repeat' first
    | assumption | with_reducible apply Within.forEach | with_reducible apply Within.whenS | with_reducible apply Within.foldl
    | with_reducible apply Within.foldlS SpWr.s | with_reducible apply within_spEffects
    | with_reducible apply within_spWriteByte | with_reducible apply within_produced
    | exact fun _ => rfl | exact fun _ _ => rfl | rfl | (intro e; simp_all; done) | split | intro _

theorem within_lastInSlot (h : Within bh bp ba bi s0 s) (r : Req) (tag q : Nat) : Within bh bp ba bi s0 (lastInSlot r tag q s) := by
  unfold lastInSlot
  try dsimp only
  repeat' first
    | assumption | with_reducible apply within_setFull
    | exact fun _ => rfl | exact fun _ _ => rfl | rfl | (intro e; simp_all; done) | split | intro _

theorem within_flushEntry (h : Within bh bp ba bi s0 s) (core : Nat) (g : Gather) (wp : bp = false := by assumption) : Within bh bp ba bi s0 (flushEntry core g s) := by
  unfold flushEntry
  try dsimp only
  repeat' first
    | assumption | with_reducible apply Within.setBit | with_reducible apply Within.forEach | with_reducible apply Within.whenS
    | with_reducible apply within_spPut | with_reducible apply within_produced
    | exact fun _ => rfl | exact fun _ _ => rfl | rfl | (intro e; simp_all; done) | split | intro _

theorem within_flushGather (h : Within bh bp ba bi s0 s) (core : Nat) (wp : bp = false := by assumption) : Within bh bp ba bi s0 (flushGather core s) := by
  unfold flushGather
  try dsimp only
  repeat' first
    | assumption | with_reducible apply Within.modCore | with_reducible apply Within.forEach
    | with_reducible apply within_flushEntry
    | exact fun _ => rfl | exact fun _ _ => rfl | rfl | (intro e; simp_all; done) | split | intro _

theorem within_gatherPut (h : Within bh bp ba bi s0 s) (core p : Nat) (b : Byte) (produce : Bool) (wp : bp = false := by assumption) : Within bh bp ba bi s0 (gatherPut core p b produce s) := by
  unfold gatherPut
  try dsimp only
  repeat' first
    | assumption | with_reducible apply Within.setCore | with_reducible apply Within.modCore
    | with_reducible apply within_flushEntry
    | exact fun _ => rfl | exact fun _ _ => rfl | rfl | (intro e; simp_all; done) | split | intro _

theorem within_gatherByteWr (z : SpWr) (h : Within bh bp ba bi s0 z.s) (r : Req) (tag td : Nat) (x : Nat × Byte) (wp : bp = false := by assumption) : Within bh bp ba bi s0 (gatherByteWr r tag td x z).s := by
  unfold gatherByteWr
  try dsimp only
  repeat' first
    | assumption | with_reducible apply within_noteVersion | with_reducible apply within_gatherPut
    | exact fun _ => rfl | exact fun _ _ => rfl | rfl | (intro e; simp_all; done) | split | intro _

theorem within_storeWord (z : SpWr) (h : Within bh bp ba bi s0 z.s) (r : Req) (tag td : Nat) (l : List (Nat × Byte)) (wp : bp = false := by assumption) :
    Within bh bp ba bi s0 (storeWord r tag td l z).s := by
  unfold storeWord
  split
  · exact Within.foldlS SpWr.s _ _ (fun x a k => within_spWriteByte a k r tag td _) _ h
  · exact Within.foldlS SpWr.s _ _ (fun x a k => within_gatherByteWr a k r tag td x) _ h

theorem within_gatherWriteS (h : Within bh bp ba bi s0 s) (r : Req) (tag td q : Nat) (bytes : List Byte) (wp : bp = false := by assumption) : Within bh bp ba bi s0 (gatherWriteS r tag td q bytes s).2 := by
  unfold gatherWriteS
  try dsimp only
  repeat' first
    | assumption | with_reducible apply Within.forEach | with_reducible apply Within.whenS | with_reducible apply Within.foldl
    | with_reducible apply Within.foldlS SpWr.s | with_reducible apply within_spEffects | with_reducible apply within_produced
    | with_reducible apply within_storeWord
    | exact fun _ => rfl | exact fun _ _ => rfl | rfl | (intro e; simp_all; done) | split | intro _

theorem within_hbmFault (h : Within bh bp ba bi s0 s) (a : Nat) : Within bh bp ba bi s0 (hbmFault a s) := by
  unfold hbmFault
  try dsimp only
  repeat' first
    | assumption | with_reducible apply within_detectFault | with_reducible apply within_versionLost
    | exact fun _ => rfl | exact fun _ _ => rfl | rfl | (intro e; simp_all; done) | split | intro _

theorem within_hbmReadVia (h : Within bh bp ba bi s0 s) (f : Nat → Nat) (a n : Nat) : Within bh bp ba bi s0 (hbmReadVia f a n s).2.2 := by
  unfold hbmReadVia
  try dsimp only
  repeat' first
    | assumption | with_reducible apply within_hbmFault
    | exact fun _ => rfl | exact fun _ _ => rfl | rfl | (intro e; simp_all; done) | split | intro _

theorem within_hbmRead (h : Within bh bp ba bi s0 s) (a n : Nat) : Within bh bp ba bi s0 (hbmRead a n s).2.2 := by
  unfold hbmRead
  try dsimp only
  repeat' first
    | assumption | with_reducible apply within_hbmReadVia
    | exact fun _ => rfl | exact fun _ _ => rfl | rfl | (intro e; simp_all; done) | split | intro _

theorem within_copyUnit (h : Within bh bp ba bi s0 s) (v : UnitAt) (wh : bh = false := by assumption) :
    Within bh bp ba bi s0 (copyUnit v s) := by
  have k (m : Mem) (e : ErrSt) : Within bh bp ba bi s0 { s with hbm := m, err := e } :=
    { h with hbm := fun e => by simp [wh] at e }
  unfold copyUnit
  dsimp only
  split
  · exact k _ _
  · exact within_hbmFault (k _ _) _

theorem within_touchUnit (h : Within bh bp ba bi s0 s) (u : UnitAt) (wh : bh = false := by assumption) : Within bh bp ba bi s0 (touchUnit u s) := by
  unfold touchUnit
  split
  · exact h
  · exact (within_copyUnit h _).modCur _

theorem within_hbmWriteByte (z : HbmWr) (h : Within bh bp ba bi s0 z.s) (x : Nat × Byte) (wh : bh = false := by assumption) : Within bh bp ba bi s0 (hbmWriteByte x z).s := by
  unfold hbmWriteByte
  try dsimp only
  repeat' first
    | assumption | with_reducible apply within_hbmStore | with_reducible apply within_touchUnit
    | exact fun _ => rfl | exact fun _ _ => rfl | rfl | (intro e; simp_all; done) | split | intro _

theorem within_hbmWriteS (h : Within bh bp ba bi s0 s) (a : Nat) (bytes : List Byte) (wh : bh = false := by assumption) : Within bh bp ba bi s0 (hbmWriteS a bytes s) := by
  unfold hbmWriteS
  try dsimp only
  repeat' first
    | assumption | with_reducible apply Within.whenS | with_reducible apply Within.foldl
    | with_reducible apply Within.foldlS HbmWr.s | with_reducible apply within_stickyEvent
    | with_reducible apply within_hbmWriteByte
    | exact fun _ => rfl | exact fun _ _ => rfl | rfl | (intro e; simp_all; done) | split | intro _

theorem within_noteUnits (h : Within bh bp ba bi s0 s) (core td a n : Nat) : Within bh bp ba bi s0 (noteUnits core td a n s) := by
  unfold noteUnits
  try dsimp only
  repeat' first
    | assumption | with_reducible apply Within.modCur
    | exact fun _ => rfl | exact fun _ _ => rfl | rfl | (intro e; simp_all; done) | split | intro _

theorem within_noteUnitMd (h : Within bh bp ba bi s0 s) (md : Word) (a n : Nat) : Within bh bp ba bi s0 (noteUnitMd md a n s) := by
  unfold noteUnitMd
  try dsimp only
  repeat' first
    | assumption | with_reducible apply Within.modCur
    | exact fun _ => rfl | exact fun _ _ => rfl | rfl | (intro e; simp_all; done) | split | intro _

theorem within_countConv (h : Within bh bp ba bi s0 s) (core td : Nat) (o : ConvOut) : Within bh bp ba bi s0 (countConv core td o s) := by
  unfold countConv
  try dsimp only
  repeat' first
    | assumption | with_reducible apply Within.modCore | with_reducible apply Within.foldl
    | with_reducible apply within_addWatch
    | exact fun _ => rfl | exact fun _ _ => rfl | rfl | (intro e; simp_all; done) | split | intro _

theorem within_addInput (h : Within bh bp ba bi s0 s) (n : NodeId) (i : NodeIn) : Within bh bp ba bi s0 (addInput n i s) := by
  unfold addInput
  try dsimp only
  repeat' first
    | assumption | with_reducible apply Within.setBit | with_reducible apply Within.setNode | with_reducible apply Within.whenS
    | with_reducible apply within_addWatch
    | exact fun _ => rfl | exact fun _ _ => rfl | rfl | (intro e; simp_all; done) | split | intro _

theorem within_enterNode (h : Within bh bp ba bi s0 s) (n : NodeId) (i : NodeIn) : Within bh bp ba bi s0 (enterNode n i s) := by
  unfold enterNode
  try dsimp only
  repeat' first
    | assumption | with_reducible apply Within.setNode | with_reducible apply within_addInput
    | exact fun _ => rfl | exact fun _ _ => rfl | rfl | (intro e; simp_all; done) | split | intro _

theorem within_retryWaits (h : Within bh bp ba bi s0 s) (n : NodeId) : Within bh bp ba bi s0 (retryWaits n s) := by
  unfold retryWaits
  try dsimp only
  repeat' first
    | assumption | with_reducible apply Within.setNode | with_reducible apply Within.forEach
    | with_reducible apply within_enterNode
    | exact fun _ => rfl | exact fun _ _ => rfl | rfl | (intro e; simp_all; done) | split | intro _

theorem within_takePair (h : Within bh bp ba bi s0 s) (n : NodeId) (a : Acc) : Within bh bp ba bi s0 (takePair n a s) := by
  unfold takePair
  try dsimp only
  repeat' first
    | assumption | with_reducible apply Within.setBit | with_reducible apply Within.setNode | with_reducible apply Within.whenS
    | with_reducible apply within_retryWaits
    | exact fun _ => rfl | exact fun _ _ => rfl | rfl | (intro e; simp_all; done) | split | intro _

theorem within_noteCodeword (h : Within bh bp ba bi s0 s) (i : Nat) (cw : Codeword) : Within bh bp ba bi s0 (noteCodeword i cw s) := by
  unfold noteCodeword
  try dsimp only
  repeat' first
    | assumption | with_reducible apply Within.setReg | with_reducible apply Within.setBit | with_reducible apply Within.addCnt
    | with_reducible apply Within.setLink | with_reducible apply Within.whenS | with_reducible apply Within.foldl
    | exact fun _ => rfl | exact fun _ _ => rfl | rfl | (intro e; simp_all; done) | split | intro _

theorem within_launch (h : Within bh bp ba bi s0 s) (i : Nat) (p : Packet) : Within bh bp ba bi s0 (launch i p s) := by
  unfold launch
  try dsimp only
  repeat' first
    | assumption | with_reducible apply Within.setLink | with_reducible apply Within.send
    | exact fun _ => rfl | exact fun _ _ => rfl | rfl | (intro e; simp_all; done) | split | intro _

theorem within_pushStages (h : Within bh bp ba bi s0 s) (i : Nat) : Within bh bp ba bi s0 (pushStages i s) := by
  unfold pushStages
  try dsimp only
  repeat' first
    | assumption | with_reducible apply Within.setLink | with_reducible apply within_queueDepthChange
    | exact fun _ => rfl | exact fun _ _ => rfl | rfl | (intro e; simp_all; done) | split | intro _

theorem within_popPacket (h : Within bh bp ba bi s0 s) (i : Nat) (p : Packet) : Within bh bp ba bi s0 (popPacket i p s) := by
  unfold popPacket
  try dsimp only
  repeat' first
    | assumption | with_reducible apply Within.setLink | with_reducible apply within_queueDepthChange
    | with_reducible apply within_launch
    | exact fun _ => rfl | exact fun _ _ => rfl | rfl | (intro e; simp_all; done) | split | intro _

theorem within_pump (h : Within bh bp ba bi s0 s) (i n : Nat) : Within bh bp ba bi s0 (pump i n s) := by
  induction n generalizing s with
  | zero => exact h
  | succ n ih =>
    unfold pump
    dsimp only
    split
    · exact within_pushStages h _
    · exact ih (within_popPacket (within_pushStages h _) _ _)

theorem within_pumpLink (h : Within bh bp ba bi s0 s) (i : Nat) : Within bh bp ba bi s0 (pumpLink i s) := within_pump h _ _

theorem within_enqueue (h : Within bh bp ba bi s0 s) (i : Nat) (p : Packet) : Within bh bp ba bi s0 (enqueue i p s) :=
  within_pumpLink (h.modLink _ _) _

theorem within_sendBlock (h : Within bh bp ba bi s0 s) (i : Nat) (w : BitVec 64) : Within bh bp ba bi s0 (sendBlock i w s) := by
  unfold sendBlock
  try dsimp only
  repeat' first
    | assumption | with_reducible apply Within.send | with_reducible apply Within.whenS
    | exact fun _ => rfl | exact fun _ _ => rfl | rfl | (intro e; simp_all; done) | split | intro _

theorem within_sendAcks (h : Within bh bp ba bi s0 s) (i : Nat) : Within bh bp ba bi s0 (sendAcks i s) := by
  unfold sendAcks
  try dsimp only
  repeat' first
    | assumption | with_reducible apply within_sendBlock
    | exact fun _ => rfl | exact fun _ _ => rfl | rfl | (intro e; simp_all; done) | split | intro _

theorem within_rxAccept (h : Within bh bp ba bi s0 s) (i : Nat) (p : Packet) : Within bh bp ba bi s0 (rxAccept i p s) := by
  unfold rxAccept
  try dsimp only
  repeat' first
    | assumption | with_reducible apply Within.setLink | with_reducible apply within_sendAcks
    | exact fun _ => rfl | exact fun _ _ => rfl | rfl | (intro e; simp_all; done) | split | intro _

theorem within_rxNak (h : Within bh bp ba bi s0 s) (i : Nat) : Within bh bp ba bi s0 (rxNak i s) := by
  unfold rxNak
  try dsimp only
  repeat' first
    | assumption | with_reducible apply within_sendBlock
    | exact fun _ => rfl | exact fun _ _ => rfl | rfl | (intro e; simp_all; done) | split | intro _

theorem within_rxBad (h : Within bh bp ba bi s0 s) (i : Nat) (cw : Codeword) : Within bh bp ba bi s0 (rxBad i cw s) := by
  unfold rxBad
  try dsimp only
  repeat' first
    | assumption | with_reducible apply Within.setBit | with_reducible apply Within.whenS | with_reducible apply within_rxNak
    | exact fun _ => rfl | exact fun _ _ => rfl | rfl | (intro e; simp_all; done) | split | intro _

theorem within_waitOnSlot (h : Within bh bp ba bi s0 s) (core slot : Nat) (who : Option Nat) : Within bh bp ba bi s0 (waitOnSlot core slot who s) := by
  unfold waitOnSlot
  try dsimp only
  repeat' first
    | assumption | with_reducible apply Within.setBit | with_reducible apply Within.modCore | with_reducible apply Within.whenS
    | exact fun _ => rfl | exact fun _ _ => rfl | rfl | (intro e; simp_all; done) | split | intro _

theorem within_clCount (h : Within bh bp ba bi s0 s) (bitIx cnt lo : Nat) : Within bh bp ba bi s0 (clCount bitIx cnt lo s) := by
  unfold clCount
  try dsimp only
  repeat' first
    | assumption | with_reducible apply Within.setBit | with_reducible apply Within.addCnt
    | exact fun _ => rfl | exact fun _ _ => rfl | rfl | (intro e; simp_all; done) | split | intro _

theorem within_windowClosed (h : Within bh bp ba bi s0 s) (bitIx lo : Nat) : Within bh bp ba bi s0 (windowClosed bitIx lo s) := by
  unfold windowClosed
  try dsimp only
  repeat' first
    | assumption | with_reducible apply Within.whenS | with_reducible apply within_stage0 | with_reducible apply within_clCount
    | exact fun _ => rfl | exact fun _ _ => rfl | rfl | (intro e; simp_all; done) | split | intro _

theorem within_unreachable (h : Within bh bp ba bi s0 s) (p : Packet) : Within bh bp ba bi s0 (unreachable p s) := by
  unfold unreachable
  try dsimp only
  repeat' first
    | assumption | with_reducible apply Within.whenS | with_reducible apply within_detectFault
    | with_reducible apply within_clCount
    | exact fun _ => rfl | exact fun _ _ => rfl | rfl | (intro e; simp_all; done) | split | intro _

theorem within_refuseSp (h : Within bh bp ba bi s0 s) (r : Req) (f : SpFlags) (t : State)
    (e : refuseSp r f s = .landed t ∨ refuseSp r f s = .refused t) : Within bh bp ba bi s0 t := by
  unfold refuseSp at e
  simp only [reduceCtorEq, Landing.refused.injEq, false_or] at e
  subst e
  exact within_spEffects h _ _

theorem within_landWrite (h : Within bh bp ba bi s0 s) (cls a : Nat) (bytes : List Byte) (tagm last : Bool) (md : Word) (t : State)
    (e : landWrite cls a bytes tagm last md s = .landed t ∨ landWrite cls a bytes tagm last md s = .refused t)  (wh : bh = false := by assumption)
    (wp : bp = false := by assumption) : Within bh bp ba bi s0 t := by
  revert e
  unfold landWrite
  dsimp only
  repeat' first
    | split | (intro e; simp only [reduceCtorEq, Landing.landed.injEq, Landing.refused.injEq, or_false, false_or] at e)
  all_goals first
    | exact within_refuseSp h _ _ _
    | (subst e; exact h)
    | (subst e; exact within_stickyEvent h _ _)
    | (subst e; exact h.whenS _ _ fun t k => within_stickyEvent k _ _)
    | (subst e; exact within_noteUnitMd (within_hbmWriteS h _ _) _ _ _)
    | (subst e; exact (within_spWriteS h _ _ _ _).modCore _ _ rfl fun _ => rfl)
    | (subst e; exact (within_spWriteS h _ _ _ _).whenS _ _ fun t k => within_lastInSlot k _ _ _)

theorem within_takeWr (h : Within bh bp ba bi s0 s) (p : Packet) (wh : bh = false := by assumption) (wp : bp = false := by assumption) :
    Within bh bp ba bi s0 (takeWr p s).1 := by
  have k := fun t e => within_landWrite h 5 p.addr p.data p.tagm p.last (p.md.setWidth 32) t e
  unfold takeWr
  split
  · exact within_clCount h _ _ _
  · split
    · exact h.setBit _ _
    · split
      · exact within_windowClosed h _ _
      · split
        · exact k _ (.inl ‹_›)
        · exact (k _ (.inr ‹_›)).setBit _ _
        · exact h.setBit _ _
        · exact within_waitOnSlot (h.rest _ _ _ _ _ _ _ _ _ _ _ _ _) _ _ _

theorem within_takeAck (h : Within bh bp ba bi s0 s) (p : Packet) : Within bh bp ba bi s0 (takeAck p s) := by
  unfold takeAck
  try dsimp only
  repeat' first
    | assumption | with_reducible apply Within.send | with_reducible apply within_modOp | with_reducible apply within_stage0
    | with_reducible apply within_detectFault | with_reducible apply within_windowClosed
    | exact fun _ => rfl | exact fun _ _ => rfl | rfl | (intro e; simp_all; done) | split | intro _
  all_goals (with_reducible apply Within.rest)
  repeat' first
    | assumption | with_reducible apply Within.send | with_reducible apply within_modOp | with_reducible apply within_stage0
    | with_reducible apply within_detectFault | with_reducible apply within_windowClosed
    | exact fun _ => rfl | exact fun _ _ => rfl | rfl | (intro e; simp_all; done) | split | intro _

theorem within_readCurrent (h : Within bh bp ba bi s0 s) (a n : Nat) : Within bh bp ba bi s0 (readCurrent a n s).2 := by
  unfold readCurrent
  try dsimp only
  repeat' first
    | assumption | with_reducible apply within_spEffects | with_reducible apply within_hbmRead
    | exact fun _ => rfl | exact fun _ _ => rfl | rfl | (intro e; simp_all; done) | split | intro _

theorem within_takeRdReq (h : Within bh bp ba bi s0 s) (p : Packet) : Within bh bp ba bi s0 (takeRdReq p s).1 := by
  have k := within_readCurrent h p.addr p.want
  unfold takeRdReq
  dsimp only
  split
  · exact within_clCount h _ _ _
  · split
    · exact h
    · split <;> (rename_i e; rw [e] at k)
      · exact k
      · exact k.setBit _ _

theorem within_takeRdResp (h : Within bh bp ba bi s0 s) (p : Packet) : Within bh bp ba bi s0 (takeRdResp p s) := by
  unfold takeRdResp
  exact Within.whenS _ _ (fun _ k => within_detectFault k _) (h.rest _ _ _ _ _ _ _ _ _ _ _ _ _)

theorem within_takeSeifEntry (h : Within bh bp ba bi s0 s) (red : Nat) (md : Word) (e : SeifEntry) : Within bh bp ba bi s0 (takeSeifEntry red md e s) := by
  unfold takeSeifEntry
  try dsimp only
  repeat' first
    | assumption | with_reducible apply within_detectFault | with_reducible apply within_enterNode
    | exact fun _ => rfl | exact fun _ _ => rfl | rfl | (intro e; simp_all; done) | split | intro _

theorem within_takeSeif (h : Within bh bp ba bi s0 s) (p : Packet) : Within bh bp ba bi s0 (takeSeif p s) := by
  unfold takeSeif
  try dsimp only
  repeat' first
    | assumption | with_reducible apply Within.forEach | with_reducible apply within_clCount
    | with_reducible apply within_takeSeifEntry
    | exact fun _ => rfl | exact fun _ _ => rfl | rfl | (intro e; simp_all; done) | split | intro _

theorem within_badPacket (h : Within bh bp ba bi s0 s)  : Within bh bp ba bi s0 (badPacket s) := by
  unfold badPacket
  try dsimp only
  repeat' first
    | assumption | with_reducible apply Within.setBit | with_reducible apply within_detectFault
    | exact fun _ => rfl | exact fun _ _ => rfl | rfl | (intro e; simp_all; done) | split | intro _

theorem within_takePacket (h : Within bh bp ba bi s0 s) (p : Packet) (wh : bh = false := by assumption) (wp : bp = false := by assumption) : Within bh bp ba bi s0 (takePacket p s).1 := by
  unfold takePacket
  try dsimp only
  repeat' first
    | assumption | with_reducible apply Within.setBit | with_reducible apply within_detectFault
    | with_reducible apply within_takeWr | with_reducible apply within_takeAck | with_reducible apply within_takeRdReq
    | with_reducible apply within_takeSeif | with_reducible apply within_takeRdResp
    | with_reducible apply within_badPacket | exact id | exact fun _ => rfl | exact fun _ => id | exact fun _ _ => rfl | rfl
    | split

theorem within_emit (h : Within bh bp ba bi s0 s) (n : Nat) (p : Packet) (wh : bh = false := by assumption) (wp : bp = false := by assumption) :
    Within bh bp ba bi s0 (emit n p s) := by
  induction n generalizing s p with
  | zero => exact h
  | succ n ih =>
    unfold emit
    split
    · exact within_enqueue h _ _
    · exact Within.forEach _ _ (fun q t k => ih k q) (within_takePacket h _)
    · dsimp only
      split
      · exact Within.forEach _ _ (fun q t k => within_takePacket k _) (within_unreachable h _)
      · exact Within.forEach _ _ (fun q t k => ih k q) (within_unreachable h _)

theorem within_sendPacket (h : Within bh bp ba bi s0 s) (p : Packet) (wh : bh = false := by assumption) (wp : bp = false := by assumption) :
    Within bh bp ba bi s0 (sendPacket p s) := within_emit h 3 p

theorem within_sendRun (h : Within bh bp ba bi s0 s) (core seq xid : Nat) (d : BitVec 512) (md : Word) (a : Nat) (bytes : List Byte) (last : Bool) (wh : bh = false := by assumption) (wp : bp = false := by assumption) : Within bh bp ba bi s0 (sendRun core seq xid d md a bytes last s) := by
  unfold sendRun
  try dsimp only
  repeat' first
    | assumption | with_reducible apply Within.send | with_reducible apply Within.forEach | with_reducible apply within_modOp
    | with_reducible apply within_sendPacket | with_reducible apply within_split256
    | exact fun _ => rfl | exact fun _ _ => rfl | rfl | (intro e; simp_all; done) | split | intro _
  all_goals (with_reducible apply Within.rest)
  repeat' first
    | assumption | with_reducible apply Within.send | with_reducible apply Within.forEach | with_reducible apply within_modOp
    | with_reducible apply within_sendPacket | with_reducible apply within_split256
    | exact fun _ => rfl | exact fun _ _ => rfl | rfl | (intro e; simp_all; done) | split | intro _

end Sys2Proof.Machine
end

