-- ==== Sys2Proof/Laws/WithinItems.lean ====
section
/-! SUPPORT. `Within` (Laws/Within.lean) for every function of the work items and the engine. -/

set_option maxRecDepth 4000

namespace Sys2Proof.Machine

variable {bh bp ba bi : Bool} {s0 s : State}

theorem within_fetchChecks (h : Within bh bp ba bi s0 s) (core : Nat) (w : BitVec 256) : Within bh bp ba bi s0 (fetchChecks core w s) := by
  unfold fetchChecks
  try dsimp only
  repeat' first
    | assumption | with_reducible apply Within.modErr | with_reducible apply Within.whenS
    | with_reducible apply within_detectFault | with_reducible apply within_pathCheck
    | exact fun _ => rfl | exact fun _ _ => rfl | rfl | (intro e; simp_all; done) | split | intro _

theorem within_signalDone (h : Within bh bp ba bi s0 s) (core : Nat) (w : BitVec 256) : Within bh bp ba bi s0 (signalDone core w s) := by
  unfold signalDone
  try dsimp only
  repeat' first
    | assumption | with_reducible apply Within.whenS | with_reducible apply within_passQueue
    | with_reducible apply within_sendToken
    | exact fun _ => rfl | exact fun _ _ => rfl | rfl | (intro e; simp_all; done) | split | intro _

theorem within_refusal (h : Within bh bp ba bi s0 s) (core seq : Nat) (w : BitVec 256) (r : Refuse) : Within bh bp ba bi s0 (refusal core seq w r s) := by
  unfold refusal
  try dsimp only
  repeat' first
    | assumption | with_reducible apply Within.setBit | with_reducible apply Within.forEach
    | with_reducible apply within_stageEvent | with_reducible apply within_orMeta
    | exact fun _ => rfl | exact fun _ _ => rfl | rfl | (intro e; simp_all; done) | split | intro _

theorem within_dmaRequest (h : Within bh bp ba bi s0 s) (core : Nat) (w : BitVec 256) : Within bh bp ba bi s0 (dmaRequest core w s) := by
  unfold dmaRequest
  try dsimp only
  repeat' first
    | assumption | with_reducible apply Within.modCore | with_reducible apply within_passQueue
    | exact fun _ => rfl | exact fun _ _ => rfl | rfl | (intro e; simp_all; done) | split | intro _

theorem within_vectorRequest (h : Within bh bp ba bi s0 s) (core seq : Nat) (w : BitVec 256) : Within bh bp ba bi s0 (vectorRequest core seq w s) := by
  unfold vectorRequest
  try dsimp only
  repeat' first
    | assumption | with_reducible apply within_pushQueue | with_reducible apply within_passQueue
    | exact fun _ => rfl | exact fun _ _ => rfl | rfl | (intro e; simp_all; done) | split | intro _

theorem within_setSegment (h : Within bh bp ba bi s0 s) (core seg : Nat) : Within bh bp ba bi s0 (setSegment core seg s) := by
  unfold setSegment
  try dsimp only
  repeat' first
    | assumption | with_reducible apply Within.setFld
    | exact fun _ => rfl | exact fun _ _ => rfl | rfl | (intro e; simp_all; done) | split | intro _

theorem within_shapeClamp (h : Within bh bp ba bi s0 s) (core n : Nat) : Within bh bp ba bi s0 (shapeClamp core n s) := by
  unfold shapeClamp
  try dsimp only
  repeat' first
    | assumption | with_reducible apply Within.addCnt | with_reducible apply Within.forEach
    | with_reducible apply within_stickyEvent
    | exact fun _ => rfl | exact fun _ _ => rfl | rfl | (intro e; simp_all; done) | split | intro _

theorem within_readRun (h : Within bh bp ba bi s0 s) (core task seg cls : Nat) (d : BitVec 512) (a n : Nat) : Within bh bp ba bi s0 (readRun core task seg cls d a n s).2.2 := by
  unfold readRun
  try dsimp only
  repeat' first
    | assumption | with_reducible apply within_spReadS | with_reducible apply within_hbmRead
    | exact fun _ => rfl | exact fun _ _ => rfl | rfl | (intro e; simp_all; done) | split | intro _

theorem within_readRowK (h : Within bh bp ba bi s0 s) (core task seg cls : Nat) (kb : Bool) (o : Opd) (b m n : Nat) : Within bh bp ba bi s0 (readRowK core task seg cls kb o b m n s).s := by
  unfold readRowK
  try dsimp only
  repeat' first
    | assumption | with_reducible apply within_readRun
    | exact fun _ => rfl | exact fun _ _ => rfl | rfl | (intro e; simp_all; done) | split | intro _

theorem within_readRow (h : Within bh bp ba bi s0 s) (core task seg cls : Nat) (o : Opd) (b m n : Nat) : Within bh bp ba bi s0 (readRow core task seg cls o b m n s).s := by
  unfold readRow
  try dsimp only
  repeat' first
    | assumption | with_reducible apply within_readRowK
    | exact fun _ => rfl | exact fun _ _ => rfl | rfl | (intro e; simp_all; done) | split | intro _

theorem within_writeRun (h : Within bh bp ba bi s0 s) (core task seg cls : Nat) (o : Opd) (seq xid : Nat) (md : Word) (all rest : Ranges) (a : Nat) (bytes : List Byte) (wh : bh = false := by assumption) (wp : bp = false := by assumption) : Within bh bp ba bi s0 (writeRun core task seg cls o seq xid md all rest a bytes s).2 := by
  unfold writeRun
  try dsimp only
  repeat' first
    | assumption | with_reducible apply Within.whenS | with_reducible apply within_spWriteS
    | with_reducible apply within_lastInSlot | with_reducible apply within_gatherWriteS | with_reducible apply within_hbmWriteS
    | with_reducible apply within_noteUnits | with_reducible apply within_sendRun
    | exact fun _ => rfl | exact fun _ _ => rfl | rfl | (intro e; simp_all; done) | split | intro _

theorem within_writeRow (h : Within bh bp ba bi s0 s) (core task seg cls : Nat) (o : Opd) (seq xid : Nat) (md : Word) (r : RowOut) (wh : bh = false := by assumption) (wp : bp = false := by assumption) : Within bh bp ba bi s0 (writeRow core task seg cls o seq xid md r s).2 := by
  unfold writeRow
  try dsimp only
  repeat' first
    | assumption | with_reducible apply within_writeRun
    | exact fun _ => rfl | exact fun _ _ => rfl | rfl | (intro e; simp_all; done) | split | intro _

theorem within_writeSide (h : Within bh bp ba bi s0 s) (core task seg cls : Nat) (o : Opd) (all rest : List (Nat × Nat)) (b m : Nat) (bytes : List Byte) (wh : bh = false := by assumption) (wp : bp = false := by assumption) : Within bh bp ba bi s0 (writeSide core task seg cls o all rest b m bytes s).2 := by
  unfold writeSide
  try dsimp only
  repeat' first
    | assumption | with_reducible apply Within.whenS | with_reducible apply within_spWriteS
    | with_reducible apply within_lastInSlot | with_reducible apply within_gatherWriteS | with_reducible apply within_hbmWriteS
    | with_reducible apply within_noteUnits
    | exact fun _ => rfl | exact fun _ _ => rfl | rfl | (intro e; simp_all; done) | split | intro _

theorem within_keepRowRes (h : Within bh bp ba bi s0 s) (t0 : State) (pm fmt r q : Nat) : Within bh bp ba bi s0 (keepRowRes t0 pm fmt r q s) := by
  unfold keepRowRes
  try dsimp only
  repeat' first
    | assumption | with_reducible apply Within.modErr
    | exact fun _ => rfl | exact fun _ _ => rfl | rfl | (intro e; simp_all; done) | split | intro _

theorem within_setColRes (h : Within bh bp ba bi s0 s) (pm fmt g j v : Nat) : Within bh bp ba bi s0 (setColRes pm fmt g j v s) := by
  unfold setColRes
  try dsimp only
  repeat' first
    | assumption | with_reducible apply Within.modErr
    | exact fun _ => rfl | exact fun _ _ => rfl | rfl | (intro e; simp_all; done) | split | intro _

theorem within_updateCols (h : Within bh bp ba bi s0 s) (pm fmt g : Nat) : Within bh bp ba bi s0 (updateCols pm fmt g s) :=
  Within.forEach _ _ (fun _ _ k => (Within.forEach _ _ (fun _ _ k => within_setColRes k _ _ _ _ _) k).modErr _) h

theorem within_mcRecord (h : Within bh bp ba bi s0 s) (core kind block lm row : Nat) : Within bh bp ba bi s0 (mcRecord core kind block lm row s) := by
  unfold mcRecord
  try dsimp only
  repeat' first
    | assumption | with_reducible apply Within.setReg | with_reducible apply Within.setReg64
    | exact fun _ => rfl | exact fun _ _ => rfl | rfl | (intro e; simp_all; done) | split | intro _

theorem within_mcFault (h : Within bh bp ba bi s0 s) (core kind block lm row bitIx det : Nat) : Within bh bp ba bi s0 (mcFault core kind block lm row bitIx det s) := by
  unfold mcFault
  try dsimp only
  repeat' first
    | assumption | with_reducible apply Within.setBit | with_reducible apply within_detectFault
    | with_reducible apply within_mcRecord
    | exact fun _ => rfl | exact fun _ _ => rfl | rfl | (intro e; simp_all; done) | split | intro _

theorem within_residueMismatch (h : Within bh bp ba bi s0 s) (fwd : Bool) (core lm g q : Nat) : Within bh bp ba bi s0 (residueMismatch fwd core lm g q s) := by
  unfold residueMismatch
  try dsimp only
  repeat' first
    | assumption | with_reducible apply Within.addCnt | with_reducible apply within_mcFault
    | exact fun _ => rfl | exact fun _ _ => rfl | rfl | (intro e; simp_all; done) | split | intro _

theorem within_fixRowRes (h : Within bh bp ba bi s0 s) (pm r : Nat) : Within bh bp ba bi s0 (fixRowRes pm r s) := by
  unfold fixRowRes
  try dsimp only
  repeat' first
    | assumption | with_reducible apply Within.modErr
    | exact fun _ => rfl | exact fun _ _ => rfl | rfl | (intro e; simp_all; done) | split | intro _

theorem within_writeArrRow (h : Within bh bp ba bi s0 s) (core lm r : Nat) (bytes : List Byte) (wa : ba = false := by assumption) : Within bh bp ba bi s0 (writeArrRow core lm r bytes s) := by
  unfold writeArrRow
  try dsimp only
  repeat' first
    | assumption | with_reducible apply Within.setBit | with_reducible apply Within.forEach | with_reducible apply Within.whenS
    | with_reducible apply within_arrStore | with_reducible apply within_updateCols | with_reducible apply within_fixRowRes
    | exact fun _ => rfl | exact fun _ _ => rfl | rfl | (intro e; simp_all; done) | split | intro _

theorem within_settleWord (h : Within bh bp ba bi s0 s) (pm fmt o : Nat) (p : BitVec 39) (wa : ba = false := by assumption) : Within bh bp ba bi s0 (settleWord pm fmt o p s) := by
  unfold settleWord
  try dsimp only
  repeat' first
    | assumption | with_reducible apply Within.forEach | with_reducible apply within_arrStore
    | with_reducible apply within_keepRowRes | with_reducible apply within_setColRes
    | exact fun _ => rfl | exact fun _ _ => rfl | rfl | (intro e; simp_all; done) | split | intro _

theorem within_correctWord (h : Within bh bp ba bi s0 s) (pm fmt o : Nat) (wa : ba = false := by assumption) : Within bh bp ba bi s0 (correctWord pm fmt o s).1 := by
  unfold correctWord
  try dsimp only
  repeat' first
    | assumption | with_reducible apply within_settleWord
    | exact fun _ => rfl | exact fun _ _ => rfl | rfl | (intro e; simp_all; done) | split | intro _

theorem within_eccCorrected (h : Within bh bp ba bi s0 s) (core : Nat) : Within bh bp ba bi s0 (eccCorrected core s) := by
  unfold eccCorrected
  try dsimp only
  repeat' first
    | assumption | with_reducible apply Within.setBit | with_reducible apply Within.addCnt
    | exact fun _ => rfl | exact fun _ _ => rfl | rfl | (intro e; simp_all; done) | split | intro _

theorem within_mergeWord (h : Within bh bp ba bi s0 s) (core lm o : Nat) (wa : ba = false := by assumption) : Within bh bp ba bi s0 (mergeWord core lm o s) := by
  unfold mergeWord
  try dsimp only
  repeat' first
    | assumption | with_reducible apply Within.whenS | with_reducible apply within_mcFault
    | with_reducible apply within_correctWord | with_reducible apply within_eccCorrected
    | exact fun _ => rfl | exact fun _ _ => rfl | rfl | (intro e; simp_all; done) | split | intro _

theorem within_rowResFault (h : Within bh bp ba bi s0 s) (core lm r q : Nat) : Within bh bp ba bi s0 (rowResFault core lm r q s) := by
  unfold rowResFault
  try dsimp only
  repeat' first
    | assumption | with_reducible apply Within.addCnt | with_reducible apply within_mcFault
    | exact fun _ => rfl | exact fun _ _ => rfl | rfl | (intro e; simp_all; done) | split | intro _

theorem within_rowReadRes (h : Within bh bp ba bi s0 s) (core lm r : Nat) : Within bh bp ba bi s0 (rowReadRes core lm r s) := by
  unfold rowReadRes
  try dsimp only
  repeat' first
    | assumption | with_reducible apply Within.forEach | with_reducible apply within_rowResFault
    | exact fun _ => rfl | exact fun _ _ => rfl | rfl | (intro e; simp_all; done) | split | intro _

theorem within_putCodeBit (h : Within bh bp ba bi s0 s) (pm fmt r j code i : Nat) (wa : ba = false := by assumption) : Within bh bp ba bi s0 (putCodeBit pm fmt r j code i s) := by
  unfold putCodeBit
  try dsimp only
  repeat' first
    | assumption | with_reducible apply within_arrStore
    | exact fun _ => rfl | exact fun _ _ => rfl | rfl | (intro e; simp_all; done) | split | intro _

theorem within_writeBitCol (h : Within bh bp ba bi s0 s) (core lm j i : Nat) (codes : List Nat) (wa : ba = false := by assumption) : Within bh bp ba bi s0 (writeBitCol core lm j i codes s) := by
  unfold writeBitCol
  try dsimp only
  repeat' first
    | assumption | with_reducible apply Within.forEach | with_reducible apply within_mergeWord
    | with_reducible apply within_putCodeBit
    | exact fun _ => rfl | exact fun _ _ => rfl | rfl | (intro e; simp_all; done) | split | intro _

theorem within_writeArrCol (h : Within bh bp ba bi s0 s) (core lm j : Nat) (codes : List Nat) (wa : ba = false := by assumption) : Within bh bp ba bi s0 (writeArrCol core lm j codes s) := by
  refine Within.whenS _ _ (fun _ k => k.setBit _ _) ?_
  refine Within.forEach _ _ (fun _ _ k => k.modErr _) ?_
  refine Within.forEach _ _ (fun _ _ k => within_writeBitCol k _ _ _ _ _) ?_
  exact Within.forEach _ _ (fun _ _ k => within_updateCols k _ _ _) h

theorem within_mergeRow (h : Within bh bp ba bi s0 s) (core lm r : Nat) (wa : ba = false := by assumption) : Within bh bp ba bi s0 (mergeRow core lm r s) := by
  unfold mergeRow
  try dsimp only
  repeat' first
    | assumption | with_reducible apply Within.forEach | with_reducible apply within_mergeWord
    | with_reducible apply within_rowReadRes
    | exact fun _ => rfl | exact fun _ _ => rfl | rfl | (intro e; simp_all; done) | split | intro _

theorem within_writeArrBytes (h : Within bh bp ba bi s0 s) (core lm o : Nat) (bytes : List Byte) (wa : ba = false := by assumption) : Within bh bp ba bi s0 (writeArrBytes core lm o bytes s) := by
  unfold writeArrBytes
  try dsimp only
  repeat' first
    | assumption | with_reducible apply Within.setBit | with_reducible apply Within.forEach | with_reducible apply Within.whenS
    | with_reducible apply within_arrStore | with_reducible apply within_updateCols | with_reducible apply within_fixRowRes
    | with_reducible apply within_mergeRow
    | exact fun _ => rfl | exact fun _ _ => rfl | rfl | (intro e; simp_all; done) | split | intro _

theorem within_noteArrRead (h : Within bh bp ba bi s0 s) (core lm o n : Nat) : Within bh bp ba bi s0 (noteArrRead core lm o n s) := by
  unfold noteArrRead
  try dsimp only
  repeat' first
    | assumption | with_reducible apply Within.forEach | with_reducible apply within_mcFault
    | with_reducible apply within_eccCorrected | with_reducible apply within_rowReadRes
    | exact fun _ => rfl | exact fun _ _ => rfl | rfl | (intro e; simp_all; done) | split | intro _

theorem within_setPosTag (h : Within bh bp ba bi s0 s) (pm n : Nat) (t : PosTag) : Within bh bp ba bi s0 (setPosTag pm n t s) := by
  unfold setPosTag
  try dsimp only
  repeat' first
    | assumption
    | exact fun _ => rfl | exact fun _ _ => rfl | rfl | (intro e; simp_all; done) | split | intro _
  all_goals (with_reducible apply Within.rest)
  repeat' first
    | assumption
    | exact fun _ => rfl | exact fun _ _ => rfl | rfl | (intro e; simp_all; done) | split | intro _

theorem within_marginCheck (h : Within bh bp ba bi s0 s) (core lm : Nat) (blks : List Nat) : Within bh bp ba bi s0 (marginCheck core lm blks s) := by
  refine Within.forEach _ _ (fun blk t k => ?_) h
  extract_lets sl t1 u u2 t2
  have k1 : Within bh bp ba bi s0 t1 := (k.modCore _ _ rfl fun _ => rfl)
  have k2 : Within bh bp ba bi s0 t2 := by
    unfold t2
    clear_value t1
    split
    · exact ((k1.setBit _ _).modPwr (fun p => { p with raise := p.raise.set (core / 64) true }) rfl).modCore _ _ rfl fun _ => rfl
    · exact k1
  clear_value t2
  split
  · exact within_mcFault k2 _ _ _ _ _ _ _
  · exact k2

theorem within_passEffects (h : Within bh bp ba bi s0 s) (core lm : Nat) (fwd : Bool) (blks : List Nat) (before : Tile) (o : PassOut) :
    Within bh bp ba bi s0 (passEffects core lm fwd blks before o s).2 := by
  unfold passEffects
  extract_lets s1 newSat s2 marg
  have k1 : Within bh bp ba bi s0 s1 := Within.forEach _ _ (fun _ _ k => within_residueMismatch k _ _ _ _ _) h
  have k2 : Within bh bp ba bi s0 s2 := Within.whenS _ _ (fun _ k => within_addWatch ((k.setBit _ _).addCnt _ _ _ _) _ _ _ _ _) k1
  clear_value s2 marg
  exact within_marginCheck k2 core lm blks

theorem within_opMd (h : Within bh bp ba bi s0 s) (core seq : Nat) (md : Word) : Within bh bp ba bi s0 (opMd core seq md s) := by
  unfold opMd
  try dsimp only
  repeat' first
    | assumption | with_reducible apply within_modOp
    | exact fun _ => rfl | exact fun _ _ => rfl | rfl | (intro e; simp_all; done) | split | intro _

theorem within_doMove (h : Within bh bp ba bi s0 s) (core : Nat) (op : Op) (b r : Nat) (wh : bh = false := by assumption) (wp : bp = false := by assumption) : Within bh bp ba bi s0 (doMove core op b r s) := by
  unfold doMove
  try dsimp only
  repeat' first
    | assumption | with_reducible apply within_modOp | with_reducible apply within_readRowK
    | with_reducible apply within_writeRow
    | exact fun _ => rfl | exact fun _ _ => rfl | rfl | (intro e; simp_all; done) | split | intro _

theorem within_doShpLoad (h : Within bh bp ba bi s0 s) (core : Nat) (op : Op) : Within bh bp ba bi s0 (doShpLoad core op s) := by
  unfold doShpLoad
  try dsimp only
  repeat' first
    | assumption | with_reducible apply Within.setReg | with_reducible apply within_readRun | with_reducible apply within_opMd
    | exact fun _ => rfl | exact fun _ _ => rfl | rfl | (intro e; simp_all; done) | split | intro _

theorem within_doWall (h : Within bh bp ba bi s0 s) (core : Nat) (op : Op) (b : Nat) (wa : ba = false := by assumption) : Within bh bp ba bi s0 (doWall core op b s) := by
  unfold doWall
  try dsimp only
  repeat' first
    | assumption | with_reducible apply Within.forEach | with_reducible apply within_putScale
    | with_reducible apply within_hbmReadVia | with_reducible apply within_writeArrRow | with_reducible apply within_opMd
    | exact fun _ => rfl | exact fun _ _ => rfl | rfl | (intro e; simp_all; done) | split | intro _

theorem within_readTileScales (h : Within bh bp ba bi s0 s) (src w : Opd) (fmt nb : Nat) : Within bh bp ba bi s0 (readTileScales src w fmt nb s).2 := by
  refine Within.foldlS (fun a : Word × State => a.2) _ _ (fun b a k => ?_) _ h
  refine Within.foldlS (fun a : Word × State => a.2) _ _ (fun t a k => ?_) _ k
  refine Within.foldlS (fun a : Word × State => a.2) _ _ (fun g a k => ?_) _ k
  exact within_hbmReadVia k _ _ _

theorem within_writePos (h : Within bh bp ba bi s0 s) (core lm p : Nat) (col : Bool) (o : ConvOut) (wa : ba = false := by assumption) : Within bh bp ba bi s0 (writePos core lm p col o s) := by
  unfold writePos
  try dsimp only
  repeat' first
    | assumption | with_reducible apply Within.modCore | with_reducible apply Within.forEach
    | with_reducible apply within_putScale | with_reducible apply within_writeArrRow | with_reducible apply within_writeArrCol
    | with_reducible apply within_setPosTag
    | exact fun _ => rfl | exact fun _ _ => rfl | rfl | (intro e; simp_all; done) | split | intro _

theorem within_posBusy (h : Within bh bp ba bi s0 s) (core : Nat) : Within bh bp ba bi s0 (posBusy core s) := by
  unfold posBusy
  try dsimp only
  repeat' first
    | assumption | with_reducible apply within_stickyEvent
    | exact fun _ => rfl | exact fun _ _ => rfl | rfl | (intro e; simp_all; done) | split | intro _

theorem within_posPart (h : Within bh bp ba bi s0 s) (core : Nat) (op : Op) (b n : Nat) (col : Bool) (vals : List Elem) (x : Nat × Nat) (wa : ba = false := by assumption) : Within bh bp ba bi s0 (posPart core op b n col vals x s) := by
  unfold posPart
  try dsimp only
  repeat' first
    | assumption | with_reducible apply within_addWatch | with_reducible apply within_opMd
    | with_reducible apply within_writePos | with_reducible apply within_posBusy
    | exact fun _ => rfl | exact fun _ _ => rfl | rfl | (intro e; simp_all; done) | split | intro _

theorem within_evictPart (h : Within bh bp ba bi s0 s) (core : Nat) (n : Nat) (col : Bool) (x : Nat × Nat) : Within bh bp ba bi s0 (evictPart core n col x s) := by
  unfold evictPart
  try dsimp only
  repeat' first
    | assumption | with_reducible apply within_setPosTag | with_reducible apply within_posBusy
    | exact fun _ => rfl | exact fun _ _ => rfl | rfl | (intro e; simp_all; done) | split | intro _

theorem within_doWpos (h : Within bh bp ba bi s0 s) (core : Nat) (op : Op) (b i : Nat) (wa : ba = false := by assumption) : Within bh bp ba bi s0 (doWpos core op b i s) := by
  unfold doWpos
  try dsimp only
  repeat' first
    | assumption | with_reducible apply Within.forEach | with_reducible apply within_readRow | with_reducible apply within_opMd
    | with_reducible apply within_posPart | with_reducible apply within_evictPart
    | exact fun _ => rfl | exact fun _ _ => rfl | rfl | (intro e; simp_all; done) | split | intro _

theorem within_setMacSt (h : Within bh bp ba bi s0 s) (core lm : Nat) (m : MacroSt) : Within bh bp ba bi s0 (setMacSt core lm m s) := by
  unfold setMacSt
  try dsimp only
  repeat' first
    | assumption | with_reducible apply Within.modCore
    | exact fun _ => rfl | exact fun _ _ => rfl | rfl | (intro e; simp_all; done) | split | intro _

theorem within_fillPort (h : Within bh bp ba bi s0 s) (core port : Nat) : Within bh bp ba bi s0 (fillPort core port s) := by
  unfold fillPort
  try dsimp only
  repeat' first
    | assumption | with_reducible apply Within.forEach | with_reducible apply within_pushQueue
    | exact fun _ => rfl | exact fun _ _ => rfl | rfl | (intro e; simp_all; done) | split | intro _

theorem within_dropRequest (h : Within bh bp ba bi s0 s) (core lm : Nat) : Within bh bp ba bi s0 (dropRequest core lm s) := by
  unfold dropRequest
  try dsimp only
  repeat' first
    | assumption | with_reducible apply within_popQueue
    | exact fun _ => rfl | exact fun _ _ => rfl | rfl | (intro e; simp_all; done) | split | intro _

theorem within_startTile (h : Within bh bp ba bi s0 s) (core lm : Nat) (t : Tile) : Within bh bp ba bi s0 (startTile core lm t s) := by
  unfold startTile
  try dsimp only
  repeat' first
    | assumption | with_reducible apply within_setMacSt | with_reducible apply within_fillPort
    | exact fun _ => rfl | exact fun _ _ => rfl | rfl | (intro e; simp_all; done) | split | intro _

theorem within_refuseTile (h : Within bh bp ba bi s0 s) (core lm : Nat) (t : Tile) : Within bh bp ba bi s0 (refuseTile core lm t s) := by
  unfold refuseTile
  try dsimp only
  repeat' first
    | assumption | with_reducible apply within_stickyEvent | with_reducible apply within_startTile
    | exact fun _ => rfl | exact fun _ _ => rfl | rfl | (intro e; simp_all; done) | split | intro _

theorem within_passInto (h : Within bh bp ba bi s0 s) (core lm P nValid : Nat) (al : Align) (t : Tile) :
    Within bh bp ba bi s0 (passInto core lm P nValid al t s).2 := by
  unfold passInto
  exact within_passEffects h _ _ _ _ _ _

theorem within_fwdTile (h : Within bh bp ba bi s0 s) (core : Nat) (op : Op) (b m c kt nt : Nat) (md : Word) (xs : List (Elem × Rnd)) :
    Within bh bp ba bi s0 (fwdTile core op b m c kt nt md xs s) := by
  unfold fwdTile
  extract_lets x d n lm st first P left t al t1
  split
  · split
    · exact within_refuseTile h _ _ _
    · generalize e : passInto core lm P (min n (op.ext.n - first)) al _ s = r
      have k : Within bh bp ba bi s0 r.2 := e ▸ within_passInto h core lm P _ al _
      clear_value x d n lm st first P left al t1
      obtain ⟨t2, s2⟩ := r
      exact within_startTile k _ _ _
  · split
    · exact h
    · extract_lets al2
      generalize e : passInto core lm P (min n (op.ext.n - first)) al2 _ s = r
      have k : Within bh bp ba bi s0 r.2 := e ▸ within_passInto h core lm P _ al2 _
      clear_value x d n lm st first P left al2
      obtain ⟨t2, s2⟩ := r
      exact within_setMacSt k _ _ _

theorem within_readDriven (h : Within bh bp ba bi s0 s) (core : Nat) (op : Op) (b m n : Nat) : Within bh bp ba bi s0 (readDriven core op b m n s).s := by
  unfold readDriven
  try dsimp only
  repeat' first
    | assumption | with_reducible apply within_addWatch | with_reducible apply within_readRow
    | exact fun _ => rfl | exact fun _ _ => rfl | rfl | (intro e; simp_all; done) | split | intro _

theorem within_fwdPassOf (h : Within bh bp ba bi s0 s) (core : Nat) (op : Op) (b m c ix : Nat) (r : Driven) (t : Nat × Nat) :
    Within bh bp ba bi s0 (fwdPassOf core op b m c ix r t s) := within_fwdTile h _ _ _ _ _ _ _ _ _

theorem within_doFwd (h : Within bh bp ba bi s0 s) (core : Nat) (op : Op) (b m : Nat) : Within bh bp ba bi s0 (doFwd core op b m s) := by
  unfold doFwd
  try dsimp only
  repeat' first
    | assumption | with_reducible apply Within.forEach | with_reducible apply within_readDriven
    | with_reducible apply within_fwdPassOf
    | exact fun _ => rfl | exact fun _ _ => rfl | rfl | (intro e; simp_all; done) | split | intro _

theorem within_readChain (h : Within bh bp ba bi s0 s) (core : Nat) (op : Op) (m n : Nat) : Within bh bp ba bi s0 (readChain core op m n s).2 :=
  Within.foldlS (fun a : List Driven × State => a.2) _ _ (fun _ _ k => within_readDriven k _ _ _ _ _) _ h

theorem within_doChain (h : Within bh bp ba bi s0 s) (core : Nat) (op : Op) (m : Nat) : Within bh bp ba bi s0 (doChain core op m s) := by
  unfold doChain
  try dsimp only
  repeat' first
    | assumption | with_reducible apply Within.forEach | with_reducible apply within_fwdPassOf
    | with_reducible apply within_readChain
    | exact fun _ => rfl | exact fun _ _ => rfl | rfl | (intro e; simp_all; done) | split | intro _

theorem within_transTile (h : Within bh bp ba bi s0 s) (core : Nat) (op : Op) (b m kt g nt : Nat) (md : Word) (ys : List (Elem × Rnd)) :
    Within bh bp ba bi s0 (transTile core op b m kt g nt md ys s) := by
  unfold transTile
  extract_lets x d lm P k0 al rows t rp a t1
  split
  · exact within_refuseTile h _ _ _
  · generalize e : passEffects core lm false _ _ _ s = r
    have k : Within bh bp ba bi s0 r.2 := e ▸ within_passEffects h core lm _ _ _ _
    clear_value rp a t1 t
    obtain ⟨t3, s3⟩ := r
    exact within_startTile k _ _ _

theorem within_doTrans (h : Within bh bp ba bi s0 s) (core : Nat) (op : Op) (b m : Nat) : Within bh bp ba bi s0 (doTrans core op b m s) := by
  unfold doTrans
  extract_lets x d c r
  have k : Within bh bp ba bi s0 r.s := within_readDriven h _ _ _ _ _
  clear_value r
  refine Within.forEach _ _ (fun _ _ k => Within.forEach _ _ (fun _ _ k => Within.forEach _ _ (fun _ _ k => ?_) k) k) k
  exact within_transTile k _ _ _ _ _ _ _ _ _

theorem within_doRed (h : Within bh bp ba bi s0 s) (core : Nat) (op : Op) (b m : Nat) : Within bh bp ba bi s0 (doRed core op b m s) := by
  unfold doRed
  extract_lets x y w n red root mine acc atCore key off one base s1 r es
  have k1 : Within bh bp ba bi s0 s1 := by
    unfold s1
    split
    · generalize e : readRun core _ _ _ _ _ _ _ = z
      have k : Within bh bp ba bi s0 z.2.2 := e ▸ within_readRun h core _ _ _ _ _ _
      obtain ⟨l, md, t⟩ := z
      clear_value root key off base
      rcases root with _ | _ | _ | _
      · exact k
      all_goals exact within_enterNode k _ _
    · exact h
  have k2 : Within bh bp ba bi s0 r.s := within_readRow k1 _ _ _ _ _ _ _ _
  clear_value s1 r es
  refine Within.forEach _ _ (fun e t k => ?_) k2
  exact within_enterNode k _ _

theorem within_fetchKernel (h : Within bh bp ba bi s0 s) (core task seg k : Nat) : Within bh bp ba bi s0 (fetchKernel core task seg k s).2.2 := by
  unfold fetchKernel
  try dsimp only
  repeat' first
    | assumption | with_reducible apply within_spReadS
    | exact fun _ => rfl | exact fun _ _ => rfl | rfl | (intro e; simp_all; done) | split | intro _

theorem within_vecResult (h : Within bh bp ba bi s0 s) (core : Nat) (l : List Word) : Within bh bp ba bi s0 (vecResult core l s).2.2 := by
  unfold vecResult
  try dsimp only
  repeat' first
    | assumption | with_reducible apply within_unitCheck
    | exact fun _ => rfl | exact fun _ _ => rfl | rfl | (intro e; simp_all; done) | split | intro _

theorem within_vecReads (h : Within bh bp ba bi s0 s) (core task seg : Nat) (i : Config.KernelIn) :
    Within bh bp ba bi s0 (vecReads core task seg i s).s :=
  Within.foldlS VecReads.s _ _ (fun _ _ k => within_spEffects k _ _) _ h

theorem within_epilogue (h : Within bh bp ba bi s0 s) (core : Nat) (op : Op) (b : Nat) (vals : List Word) : Within bh bp ba bi s0 (epilogue core op b vals s).2.2 := by
  unfold epilogue
  extract_lets v aux s1 r a
  have k1 : Within bh bp ba bi s0 s1 := within_passQueue h _ _ _
  have k2 : Within bh bp ba bi s0 r.s := by
    unfold r
    split
    · exact within_readRow k1 _ _ _ _ _ _ _ _
    · exact k1
  clear_value s1 r a
  dsimp -zeta only
  extract_lets i x
  have k3 : Within bh bp ba bi s0 x.s := within_vecReads (within_fetchKernel k2 _ _ _ _) _ _ _ _
  clear_value x
  exact within_unitCheck k3 _ _

theorem within_enterSide (h : Within bh bp ba bi s0 s) (core : Nat) (op : Op) (b m first : Nat) (sq : Bool) (vals : List Word) (wi : bi = false := by assumption) : Within bh bp ba bi s0 (enterSide core op b m first sq vals s) := by
  unfold enterSide
  try dsimp only
  repeat' first
    | assumption | with_reducible apply Within.modCore | with_reducible apply within_modOp
    | exact fun _ => rfl | exact fun _ _ => rfl | rfl | (intro e; simp_all; done) | split | intro _

theorem within_sidePair (h : Within bh bp ba bi s0 s) (n : NodeId) (v : Int) : Within bh bp ba bi s0 (sidePair n v s).2 :=
  h.whenS _ _ fun _ k => k.setBit _ _

theorem within_joinSums (h : Within bh bp ba bi s0 s) (n : NodeId) (l : List SideRec) : Within bh bp ba bi s0 (joinSums n l s).2 := by
  unfold joinSums
  extract_lets below
  split
  rename_i v o s1 e
  have k : Within bh bp ba bi s0 s1 := by
    have k := Within.foldlS (fun a : Int × Bool × State => a.2.2) below
      (fun (a : Int × Bool × State) x =>
        match sidePair x.node x.sum a.2.2 with
        | (p, s) => (a.1 + pairInt p.1 p.2.1, a.2.1 || p.2.2, s))
      (fun x a k => within_sidePair k x.node x.sum) (0, false, s) h
    rw [e] at k
    exact k
  generalize e2 : sidePair n _ s1 = z
  have k2 : Within bh bp ba bi s0 z.2 := e2 ▸ within_sidePair k n _
  exact k2

theorem within_sideSum (h : Within bh bp ba bi s0 s) (l : List SideRec) : Within bh bp ba bi s0 (sideSum l s).2 := by
  unfold sideSum
  split
  · exact within_sidePair h _ _
  · exact within_joinSums h _ _
  · split
    rename_i l1 _ _ _ _ _ v o s1 e
    have k : Within bh bp ba bi s0 s1 := by
      have k := Within.foldlS (fun a : Int × Bool × State => a.2.2) ((nubN (l1.map fun x => sideDie x.node)).filter fun d => d ≠ 12)
        (fun (a : Int × Bool × State) d =>
          match joinSums (.die d) (l1.filter fun x => sideDie x.node = d) a.2.2 with
          | (p, s) => (a.1 + pairInt p.1 p.2.1, a.2.1 || p.2.2, s))
        (fun x a k => within_joinSums k _ _) (0, false, s) h
      rw [e] at k
      exact k
    generalize e2 : sidePair .hub _ s1 = z
    have k2 : Within bh bp ba bi s0 z.2 := e2 ▸ within_sidePair k .hub _
    exact k2

theorem within_doSide (h : Within bh bp ba bi s0 s) (core : Nat) (op : Op) (b m : Nat) (wh : bh = false := by assumption) (wp : bp = false := by assumption) : Within bh bp ba bi s0 (doSide core op b m s) := by
  unfold doSide
  try dsimp only
  repeat' first
    | assumption | with_reducible apply Within.modCore | with_reducible apply Within.foldl | with_reducible apply within_modOp
    | with_reducible apply within_writeSide | with_reducible apply within_sideSum
    | exact fun _ => rfl | exact fun _ _ => rfl | rfl | (intro e; simp_all; done) | split | intro _

theorem within_sideOf (h : Within bh bp ba bi s0 s) (core : Nat) (op : Op) (b m : Nat) (vals : List Word) (wi : bi = false := by assumption) : Within bh bp ba bi s0 (sideOf core op b m vals s) := by
  unfold sideOf
  try dsimp only
  repeat' first
    | assumption | with_reducible apply within_addWatch | with_reducible apply within_opMd
    | with_reducible apply within_enterSide
    | exact fun _ => rfl | exact fun _ _ => rfl | rfl | (intro e; simp_all; done) | split | intro _

theorem within_convPut (h : Within bh bp ba bi s0 s) (core : Nat) (op : Op) (b m : Nat) (vals : List Word) (md : Word) (wh : bh = false := by assumption) (wp : bp = false := by assumption) : Within bh bp ba bi s0 (convPut core op b m vals md s) := by
  unfold convPut
  try dsimp only
  repeat' first
    | assumption | with_reducible apply within_modOp | with_reducible apply within_countConv
    | with_reducible apply within_writeRow | with_reducible apply within_epilogue
    | exact fun _ => rfl | exact fun _ _ => rfl | rfl | (intro e; simp_all; done) | split | intro _

theorem within_putRow (h : Within bh bp ba bi s0 s) (core : Nat) (op : Op) (b m : Nat) (vals : List Word) (md : Word) (wh : bh = false := by assumption) (wp : bp = false := by assumption) (wi : bi = false := by assumption) :
    Within bh bp ba bi s0 (putRow core op b m vals md s) := by
  have k := within_sideOf h core op b m vals
  unfold putRow
  dsimp only
  split
  · exact within_convPut k _ _ _ _ _ _
  · exact within_opMd k _ _ _

theorem within_putRaw (h : Within bh bp ba bi s0 s) (core : Nat) (op : Op) (b : Nat) (vals : List (Word × Word)) (md : Word) (wh : bh = false := by assumption) (wp : bp = false := by assumption) : Within bh bp ba bi s0 (putRaw core op b vals md s) := by
  unfold putRaw
  try dsimp only
  repeat' first
    | assumption | with_reducible apply within_modOp | with_reducible apply within_writeRun
    | exact fun _ => rfl | exact fun _ _ => rfl | rfl | (intro e; simp_all; done) | split | intro _

theorem within_doOut (h : Within bh bp ba bi s0 s) (core : Nat) (op : Op) (b m : Nat) (wh : bh = false := by assumption) (wp : bp = false := by assumption) (wi : bi = false := by assumption) : Within bh bp ba bi s0 (doOut core op b m s) := by
  unfold doOut
  try dsimp only
  repeat' first
    | assumption | with_reducible apply within_modOp | with_reducible apply within_putRow | with_reducible apply within_putRaw
    | exact fun _ => rfl | exact fun _ _ => rfl | rfl | (intro e; simp_all; done) | split | intro _

theorem within_deliver (h : Within bh bp ba bi s0 s) (k : ElemKey) (hi lo md : Word) (wi : bi = false := by assumption) : Within bh bp ba bi s0 (deliver k hi lo md s) := by
  unfold deliver
  try dsimp only
  repeat' first
    | assumption | with_reducible apply within_modOp
    | exact fun _ => rfl | exact fun _ _ => rfl | rfl | (intro e; simp_all; done) | split | intro _

theorem within_drainTile (h : Within bh bp ba bi s0 s) (core lm : Nat) (t : Tile) : Within bh bp ba bi s0 (drainTile core lm t s).s := by
  unfold drainTile
  try dsimp only
  repeat' first
    | assumption | with_reducible apply Within.forEach | with_reducible apply within_detectFault
    | with_reducible apply within_unitCheck
    | exact fun _ => rfl | exact fun _ _ => rfl | rfl | (intro e; simp_all; done) | split | intro _

theorem within_attPass (h : Within bh bp ba bi s0 s) (core : Nat) (op : Op) (d : BitVec 512) (m lm P span nValid : Nat)
    (outs : List (Option Nat)) (xs : List (Elem × Rnd)) : Within bh bp ba bi s0 (attPass core op d m lm P span nValid outs xs s).s := by
  unfold attPass
  extract_lets t t1 al
  split
  · exact within_stickyEvent h _ _
  · generalize e : passInto core lm P nValid al _ s = r
    have k : Within bh bp ba bi s0 r.2 := e ▸ within_passInto h core lm P _ al _
    clear_value t1 al
    obtain ⟨t2, s2⟩ := r
    exact within_drainTile (within_passQueue k _ _ _) _ _ _

theorem within_attScores (h : Within bh bp ba bi s0 s) (core : Nat) (op : Op) (b m kb q : Nat) (xs : List (Elem × Rnd)) :
    Within bh bp ba bi s0 (attScores core op b m kb q xs s).s := by
  unfold attScores
  extract_lets d c L nts x r score
  have k : Within bh bp ba bi s0 r.s := by
    refine Within.foldlS Drained.s _ _ (fun nt a k => ?_) _ h
    extract_lets first r1
    exact within_attPass k _ _ _ _ _ _ _ _ _ _
  clear_value r
  exact k

theorem within_loopWrite (h : Within bh bp ba bi s0 s) (core : Nat) (p : List Word) : Within bh bp ba bi s0 (loopWrite core p s) := h.modCore _ _ rfl fun _ => rfl

theorem within_loopRead (h : Within bh bp ba bi s0 s) (core : Nat) : Within bh bp ba bi s0 (loopRead core s).2 :=
  h.modCore core (fun c => { c with loop := c.loop.tail }) rfl fun _ => rfl

theorem within_attValues (h : Within bh bp ba bi s0 s) (core : Nat) (op : Op) (b m kb : Nat) :
    Within bh bp ba bi s0 (attValues core op b m kb s).s := by
  unfold attValues
  generalize e : loopRead core s = z
  have k0 : Within bh bp ba bi s0 z.2 := e ▸ within_loopRead h core
  obtain ⟨p, s1⟩ := z
  dsimp -zeta only
  extract_lets v d c K len s2 xs
  have k : Within bh bp ba bi s0 s2 := within_addWatch k0 _ _ _ _ _
  clear_value s2 xs
  split
  · exact k
  · refine Within.foldlS Drained.s _ _ (fun nt a k => ?_) _ k
    exact within_attPass k _ _ _ _ _ _ _ _ _ _

theorem within_attBlock (z : AttRow) (h : Within bh bp ba bi s0 z.s) (core : Nat) (op : Op) (b m q : Nat) (xs : List (Elem × Rnd)) (kb : Nat) : Within bh bp ba bi s0 (attBlock core op b m q xs z kb).s := by
  unfold attBlock
  extract_lets all sc
  have k1 : Within bh bp ba bi s0 sc.s := within_attScores h _ _ _ _ _ _ _
  clear_value all sc
  split
  · exact h
  · exact within_attValues (within_loopWrite (within_passQueue k1 _ _ _) _ _) _ _ _ _ _

theorem within_doAtt (h : Within bh bp ba bi s0 s) (core : Nat) (op : Op) (b m : Nat) (wh : bh = false := by assumption) (wp : bp = false := by assumption) (wi : bi = false := by assumption) : Within bh bp ba bi s0 (doAtt core op b m s) := by
  unfold doAtt
  extract_lets x q r xs a empty out md st rest s1
  have k1 : Within bh bp ba bi s0 r.s := within_readDriven h _ _ _ _ _
  have k2 : Within bh bp ba bi s0 a.s := Within.foldlS AttRow.s _ _ (fun kb z k => within_attBlock z k _ _ _ _ _ _ _) _ k1
  clear_value a
  have k3 : Within bh bp ba bi s0 s1 := by
    unfold s1
    split
    · have k := within_writeSide k2 core (iTask op.word) op.seg 4 st (outRows op) rest b m (statBytes a)
      exact within_opMd k _ _ _
    · exact k2
  clear_value s1
  exact within_putRow k3 _ _ _ _ _ _

theorem within_readTensor (h : Within bh bp ba bi s0 s) (core : Nat) (op : Op) (o : Opd) (b : Nat) :
    Within bh bp ba bi s0 (readTensor core op o b s).s :=
  Within.foldlS VecIn.s _ _ (fun _ _ k => within_readRow k _ _ _ _ _ _ _ _) _ h

theorem within_putVec (h : Within bh bp ba bi s0 s) (core : Nat) (op : Op) (b m : Nat) (kb : Bool) (o : ConvOut) (wh : bh = false := by assumption) (wp : bp = false := by assumption) : Within bh bp ba bi s0 (putVec core op b m kb o s) := by
  unfold putVec
  try dsimp only
  repeat' first
    | assumption | with_reducible apply within_modOp | with_reducible apply within_countConv
    | with_reducible apply within_writeRow
    | exact fun _ => rfl | exact fun _ _ => rfl | rfl | (intro e; simp_all; done) | split | intro _

theorem within_doVec (h : Within bh bp ba bi s0 s) (core : Nat) (op : Op) (b : Nat) (wh : bh = false := by assumption) (wp : bp = false := by assumption) : Within bh bp ba bi s0 (doVec core op b s) := by
  unfold doVec
  generalize e : fetchKernel core (iTask op.word) op.seg (iKernel op.word) s = z
  have k0 : Within bh bp ba bi s0 z.2.2 := e ▸ within_fetchKernel h _ _ _ _
  obtain ⟨code, md0, s1⟩ := z
  dsimp -zeta only
  extract_lets a bb i v i2 s2 s4 kb rows
  have ka : Within bh bp ba bi s0 a.s := within_readTensor k0 _ _ _ _
  have kb' : Within bh bp ba bi s0 bb.s := within_readTensor ka _ _ _ _
  have kv : Within bh bp ba bi s0 v.s := within_vecReads kb' _ _ _ _
  have k2 : Within bh bp ba bi s0 s2 := within_opMd kv _ _ _
  clear_value a bb i v i2 s2
  have k4 : Within bh bp ba bi s0 s4 := within_opMd (within_unitCheck k2 _ _) _ _ _
  clear_value s4 rows
  split
  · exact k4.setReg _ _
  · refine Within.forEach _ _ (fun r t k => ?_) k4
    split
    · exact k
    · exact within_putVec k _ _ _ _ _ _

theorem within_updByte (z : HbmWr) (h : Within bh bp ba bi s0 z.s) (x : Nat × Byte) (wh : bh = false := by assumption) : Within bh bp ba bi s0 (updByte x z).s := by
  unfold updByte
  try dsimp only
  repeat' first
    | assumption | with_reducible apply within_hbmStore
    | exact fun _ => rfl | exact fun _ _ => rfl | rfl | (intro e; simp_all; done) | split | intro _

theorem within_updWrite (h : Within bh bp ba bi s0 s) (a : Nat) (l : List Byte) (wh : bh = false := by assumption) : Within bh bp ba bi s0 (updWrite a l s) := by
  unfold updWrite
  try dsimp only
  repeat' first
    | assumption | with_reducible apply Within.whenS | with_reducible apply Within.foldl
    | with_reducible apply Within.foldlS HbmWr.s | with_reducible apply within_stickyEvent | with_reducible apply within_updByte
    | exact fun _ => rfl | exact fun _ _ => rfl | rfl | (intro e; simp_all; done) | split | intro _

theorem within_updCopy (h : Within bh bp ba bi s0 s) (r : Nat × Region) (wh : bh = false := by assumption) : Within bh bp ba bi s0 (updCopy s r) := by
  refine Within.forEach _ _ (fun i t k => ?_) h
  dsimp only
  split
  · exact k
  · exact within_copyUnit k _

theorem within_updRow (h : Within bh bp ba bi s0 s) (core : Nat) (op : Op) (o : Opd) (b m : Nat) (vals : List Word) (wh : bh = false := by assumption) : Within bh bp ba bi s0 (updRow core op o b m vals s) := by
  unfold updRow
  try dsimp only
  repeat' first
    | assumption | with_reducible apply within_countConv | with_reducible apply within_opMd
    | with_reducible apply within_updWrite
    | exact fun _ => rfl | exact fun _ _ => rfl | rfl | (intro e; simp_all; done) | split | intro _

theorem within_updNarrow (h : Within bh bp ba bi s0 s) (core : Nat) (op : Op) (b : Nat) (w1 : List (List Word)) (wh : bh = false := by assumption) : Within bh bp ba bi s0 (updNarrow core op b w1 s) := by
  unfold updNarrow
  try dsimp only
  repeat' first
    | assumption | with_reducible apply Within.forEach | with_reducible apply Within.foldl | with_reducible apply within_modOp
    | with_reducible apply within_hbmRead | with_reducible apply within_countConv | with_reducible apply within_opMd
    | with_reducible apply within_updWrite
    | exact fun _ => rfl | exact fun _ _ => rfl | rfl | (intro e; simp_all; done) | split | intro _

theorem within_doUpd (h : Within bh bp ba bi s0 s) (core : Nat) (op : Op) (b : Nat) (wh : bh = false := by assumption) : Within bh bp ba bi s0 (doUpd core op b s) := by
  unfold doUpd
  extract_lets k skip s1 g w m v s2 at' gAt el badG bad count fix put w1 s3 s4 s5 s6 s7 s8 s9
  have k1 : Within bh bp ba bi s0 s1 := by
    unfold s1
    split
    · exact Within.foldl _ _ (fun _ _ k => within_updCopy k _) h
    · exact h
  have kg : Within bh bp ba bi s0 g.s := within_readTensor k1 _ _ _ _
  have kw : Within bh bp ba bi s0 w.s := within_readTensor kg _ _ _ _
  have km : Within bh bp ba bi s0 m.s := by
    clear_value w
    unfold m
    split
    · exact within_readTensor kw _ _ _ _
    · exact kw
  have kv : Within bh bp ba bi s0 v.s := by
    clear_value m
    unfold v
    split
    · exact within_readTensor km _ _ _ _
    · exact km
  have k2 : Within bh bp ba bi s0 s2 := within_opMd kv _ _ _
  have kput : ∀ o rows t, Within bh bp ba bi s0 t → Within bh bp ba bi s0 (put o rows t) := fun o rows t k =>
    Within.forEach _ _ (fun _ _ k => within_updRow k _ _ _ _ _ _) k
  clear_value s2 put
  have k3 : Within bh bp ba bi s0 s3 :=
    Within.whenS _ _ (fun _ k => within_addWatch (within_addWatch k _ _ _ _ _) _ _ _ _ _) k2
  clear_value s3
  have k4 : Within bh bp ba bi s0 s4 := Within.whenS _ _ (fun _ k => within_addWatch k _ _ _ _ _) k3
  clear_value s4
  have k5 : Within bh bp ba bi s0 s5 := Within.whenS _ _ (fun _ k => within_addWatch k _ _ _ _ _) k4
  clear_value s5
  have k6 : Within bh bp ba bi s0 s6 := kput _ _ _ k5
  have k7 : Within bh bp ba bi s0 s7 := Within.whenS _ _ (fun _ k => kput _ _ _ k) k6
  have k8 : Within bh bp ba bi s0 s8 := Within.whenS _ _ (fun _ k => kput _ _ _ k) k7
  clear_value s8
  have k9 : Within bh bp ba bi s0 s9 := within_updNarrow k8 _ _ _ _
  clear_value s9
  exact within_modOp k9 _ _ _ (fun _ => rfl) fun _ _ => rfl

theorem within_settleUpd (h : Within bh bp ba bi s0 s) (core : Nat) (op : Op) : Within bh bp ba bi s0 (settleUpd core op s) := by
  unfold settleUpd
  try dsimp only
  repeat' first
    | assumption | with_reducible apply Within.setBit | with_reducible apply Within.addCnt | with_reducible apply Within.modCore
    | with_reducible apply Within.modCur | with_reducible apply within_stage0
    | exact fun _ => rfl | exact fun _ _ => rfl | rfl | (intro e; simp_all; done) | split | intro _

theorem within_runItem (h : Within bh bp ba bi s0 s) (core : Nat) (op : Op) (i : Item) (wh : bh = false := by assumption) (wp : bp = false := by assumption) (wa : ba = false := by assumption) (wi : bi = false := by assumption) : Within bh bp ba bi s0 (runItem core op i s) := by
  cases i
  · exact within_doFwd h _ _ _ _
  · exact within_doChain h _ _ _
  · exact within_doTrans h _ _ _ _
  · exact within_doAtt h _ _ _ _
  · exact within_doRed h _ _ _ _
  · exact within_doMove h _ _ _ _
  · exact within_doShpLoad h _ _
  · exact within_doWall h _ _ _
  · exact within_doWpos h _ _ _ _
  · exact within_doVec h _ _ _
  · exact within_doUpd h _ _ _
  · exact within_doOut h _ _ _ _
  · exact within_doSide h _ _ _ _

theorem within_stepItem (h : Within bh bp ba bi s0 s) (core : Nat) (op : Op) (i : Item) (rest : List Item) (wh : bh = false := by assumption) (wp : bp = false := by assumption) (wa : ba = false := by assumption) (wi : bi = false := by assumption) : Within bh bp ba bi s0 (stepItem core op i rest s) := by
  unfold stepItem
  try dsimp only
  repeat' first
    | assumption | with_reducible apply Within.forEach | with_reducible apply within_modOp
    | with_reducible apply within_setEmpty | with_reducible apply within_runItem
    | exact fun _ => rfl | exact fun _ _ => rfl | rfl | (intro e; simp_all; done) | split | intro _

theorem within_runItems (h : Within bh bp ba bi s0 s) (core seq n : Nat) (wh : bh = false := by assumption) (wp : bp = false := by assumption) (wa : ba = false := by assumption) (wi : bi = false := by assumption) : Within bh bp ba bi s0 (runItems core seq n s) := by
  induction n generalizing s with
  | zero => exact h
  | succ n ih =>
    unfold runItems
    split
    · exact h
    · split
      · exact h
      · split
        · exact h
        · split
          · refine within_waitOnSlot (within_modOp h _ _ _ ?_ ?_) _ _ _
            · exact fun _ => rfl
            · exact fun _ _ => rfl
          · exact ih (within_stepItem h _ _ _ _)

theorem within_wakeSide (h : Within bh bp ba bi s0 s) (core : Nat) (op : Op) (wh : bh = false := by assumption) (wp : bp = false := by assumption) (wa : ba = false := by assumption) (wi : bi = false := by assumption) : Within bh bp ba bi s0 (wakeSide core op s) := by
  unfold wakeSide
  dsimp only
  repeat' split
  all_goals first | exact h | exact within_runItems h _ _ _

theorem within_goOn (h : Within bh bp ba bi s0 s) (core seq : Nat) (wh : bh = false := by assumption) (wp : bp = false := by assumption) (wa : ba = false := by assumption) (wi : bi = false := by assumption) : Within bh bp ba bi s0 (goOn core seq s) := by
  unfold goOn
  repeat' split
  all_goals first | exact h | exact within_wakeSide (within_runItems h _ _ _) _ _

theorem within_landWaiting (h : Within bh bp ba bi s0 s) (core slot : Nat) (wh : bh = false := by assumption) (wp : bp = false := by assumption) : Within bh bp ba bi s0 (landWaiting core slot s) := by
  unfold landWaiting
  try dsimp only
  repeat' first
    | assumption | with_reducible apply Within.forEach | with_reducible apply within_takeWr
    | with_reducible apply within_sendPacket
    | exact fun _ => rfl | exact fun _ _ => rfl | rfl | (intro e; simp_all; done) | split | intro _
  all_goals (with_reducible apply Within.rest)
  repeat' first
    | assumption | with_reducible apply Within.forEach | with_reducible apply within_takeWr
    | with_reducible apply within_sendPacket
    | exact fun _ => rfl | exact fun _ _ => rfl | rfl | (intro e; simp_all; done) | split | intro _

theorem within_releaseWait (h : Within bh bp ba bi s0 s) (core slot : Nat) (wh : bh = false := by assumption) (wp : bp = false := by assumption) (wa : ba = false := by assumption) (wi : bi = false := by assumption) : Within bh bp ba bi s0 (releaseWait core slot s) := by
  unfold releaseWait
  try dsimp only
  repeat' first
    | assumption | with_reducible apply Within.modCore | with_reducible apply within_modOp | with_reducible apply within_goOn
    | with_reducible apply within_landWaiting
    | exact fun _ => rfl | exact fun _ _ => rfl | rfl | (intro e; simp_all; done) | split | intro _

theorem within_boundEvent (h : Within bh bp ba bi s0 s) (core : Nat) (op : Op) : Within bh bp ba bi s0 (boundEvent core op s) := by
  unfold boundEvent
  try dsimp only
  repeat' first
    | assumption | with_reducible apply within_stageEvent | with_reducible apply within_opMd
    | exact fun _ => rfl | exact fun _ _ => rfl | rfl | (intro e; simp_all; done) | split | intro _

theorem within_stopKernel (h : Within bh bp ba bi s0 s) (core seq : Nat) (wh : bh = false := by assumption) (wp : bp = false := by assumption) (wa : ba = false := by assumption) (wi : bi = false := by assumption) :
    Within bh bp ba bi s0 (stopKernel core seq s) := by
  unfold stopKernel
  split
  · exact h
  · split
    · refine within_boundEvent (Within.modCore (within_modOp (within_runItems (within_popQueue h.usedFree _ _ _) _ _ _) _ _ _ ?_ ?_) _ _ ?_ ?_) _ _
      · exact fun _ => rfl
      · exact fun e => by simp [wi] at e
      · rfl
      · exact fun _ => rfl
    · split
      · refine within_boundEvent (within_modOp h _ _ _ ?_ ?_) _ _
        · exact fun _ => rfl
        · exact fun _ _ => rfl
      · exact h

theorem within_planTimeout (h : Within bh bp ba bi s0 s) (core seq : Nat) (wi : bi = false := by assumption) : Within bh bp ba bi s0 (planTimeout core seq s) := by
  unfold planTimeout
  try dsimp only
  repeat' first
    | assumption | with_reducible apply Within.setBit | with_reducible apply within_modOp
    | with_reducible apply within_detectFault
    | exact fun _ => rfl | exact fun _ _ => rfl | exact fun e => by simp [wi] at e | rfl | (intro e; simp_all; done) | split | intro _

theorem within_readRecord (h : Within bh bp ba bi s0 s) (core : Nat) (w : BitVec 256) (o : Opd) : Within bh bp ba bi s0 (readRecord core w o s).2.2 := by
  unfold readRecord
  try dsimp only
  repeat' first
    | assumption | with_reducible apply within_spReadS | with_reducible apply within_hbmRead
    | exact fun _ => rfl | exact fun _ _ => rfl | rfl | (intro e; simp_all; done) | split | intro _

theorem within_treeEmpty (h : Within bh bp ba bi s0 s) (core lm : Nat) : Within bh bp ba bi s0 (treeEmpty core lm s) := by
  unfold treeEmpty
  try dsimp only
  repeat' first
    | assumption | with_reducible apply Within.setBit | with_reducible apply Within.addCnt
    | with_reducible apply within_setMacSt | with_reducible apply within_fillPort | with_reducible apply within_dropRequest
    | exact fun _ => rfl | exact fun _ _ => rfl | rfl | (intro e; simp_all; done) | split | intro _

theorem within_enterTerms (z : Drained) (h : Within bh bp ba bi s0 z.s) (core : Nat) (t : Tile) : Within bh bp ba bi s0 (enterTerms core t z) := by
  unfold enterTerms
  try dsimp only
  repeat' first
    | assumption | with_reducible apply Within.forEach | with_reducible apply within_enterNode
    | exact fun _ => rfl | exact fun _ _ => rfl | rfl | (intro e; simp_all; done) | split | intro _

theorem within_portRead (h : Within bh bp ba bi s0 s) (core port : Nat) : Within bh bp ba bi s0 (portRead core port s) := by
  unfold portRead
  try dsimp only
  repeat' first
    | assumption | with_reducible apply within_setMacSt | with_reducible apply within_drainTile
    | with_reducible apply within_enterTerms
    | exact fun _ => rfl | exact fun _ _ => rfl | rfl | (intro e; simp_all; done) | split | intro _

theorem within_passOn (h : Within bh bp ba bi s0 s) (node : NodeId) (r : Option Reduction) (a : Acc) (wh : bh = false := by assumption) (wp : bp = false := by assumption) (wa : ba = false := by assumption) (wi : bi = false := by assumption) : Within bh bp ba bi s0 (passOn node r a s) := by
  unfold passOn
  try dsimp only
  repeat' first
    | assumption | with_reducible apply within_netWord | with_reducible apply within_enterNode
    | with_reducible apply within_sendPacket | with_reducible apply within_deliver | with_reducible apply within_goOn
    | exact id | exact fun _ => rfl | exact fun _ => id | exact fun _ _ => rfl | rfl | split | intro _

theorem within_nodeOutput (h : Within bh bp ba bi s0 s) (node : NodeId) (k : ElemKey) (wh : bh = false := by assumption) (wp : bp = false := by assumption) (wa : ba = false := by assumption) (wi : bi = false := by assumption) : Within bh bp ba bi s0 (nodeOutput node k s) := by
  unfold nodeOutput
  try dsimp only
  repeat' first
    | assumption | with_reducible apply within_unitCheck | with_reducible apply within_takePair
    | with_reducible apply within_passOn
    | exact fun _ => rfl | exact fun _ _ => rfl | rfl | (intro e; simp_all; done) | split | intro _

theorem within_nodeFold (h : Within bh bp ba bi s0 s) (node : NodeId) (k : ElemKey) : Within bh bp ba bi s0 (nodeFold node k s) := by
  unfold nodeFold
  try dsimp only
  repeat' first
    | assumption | with_reducible apply Within.setBit | with_reducible apply Within.addCnt | with_reducible apply Within.setNode
    | with_reducible apply within_retryWaits
    | exact fun _ => rfl | exact fun _ _ => rfl | rfl | (intro e; simp_all; done) | split | intro _

end Sys2Proof.Machine
end

