-- ==== Sys2Proof/Laws/Work.lean ====
section
/-! SUPPORT. What the work of an instruction leaves, item by item: a move leaves the memory that it does not write, and an
instruction whose items all leave a part leaves it (R159, R160, R213). -/

namespace Sys2Proof.Machine
variable {bh bp ba bi : Bool} {s0 s : State}

theorem Within.weak {h' p' a' i' : Bool} (h : Within h' p' a' i' s0 s) (kh : bh = true → h' = true) (kp : bp = true → p' = true)
    (ka : ba = true → a' = true) (ki : bi = true → i' = true) : Within bh bp ba bi s0 s :=
  { h with hbm := h.hbm ∘ kh, spad := h.spad ∘ kp, mac := h.mac ∘ ka, scale := h.scale ∘ ka, ahead := h.ahead ∘ ki }

/-- A run written to HBM leaves the scratchpads. -/
theorem within_writeRun_hbm (h : Within bh bp ba bi s0 s) (core task seg cls : Nat) (o : Opd) (seq xid : Nat) (md : Word)
    (all rest : Ranges) (a : Nat) (bytes : List Byte) (ho : dLoc o.d = 1) (wh : bh = false := by assumption) :
    Within bh bp ba bi s0 (writeRun core task seg cls o seq xid md all rest a bytes s).2 := by
  unfold writeRun
  split
  · exact h
  · exact within_noteUnits (within_hbmWriteS h _ _) _ _ _ _

/-- A run written to the scratchpad leaves HBM. -/
theorem within_writeRun_spad (h : Within bh bp ba bi s0 s) (core task seg cls : Nat) (o : Opd) (seq xid : Nat) (md : Word)
    (all rest : Ranges) (a : Nat) (bytes : List Byte) (ho : dLoc o.d = 0) (wp : bp = false := by assumption) :
    Within bh bp ba bi s0 (writeRun core task seg cls o seq xid md all rest a bytes s).2 := by
  unfold writeRun
  split
  · exact h
  · rw [if_neg (by omega), if_neg (by omega)]
    extract_lets r bytes' last
    generalize e : (if cls = 4 then _ else _ : Word × State) = z
    have k : Within bh bp ba bi s0 z.2 := by
      rw [← e]
      split
      · exact within_gatherWriteS h _ _ _ _ _
      · exact within_spWriteS h _ _ _ _
    obtain ⟨md', s1⟩ := z
    dsimp only
    exact Within.whenS _ _ (fun _ k => within_lastInSlot k _ _ _) k

theorem within_writeRow_hbm (h : Within bh bp ba bi s0 s) (core task seg cls : Nat) (o : Opd) (seq xid : Nat) (md : Word)
    (r : RowOut) (ho : dLoc o.d = 1) (wh : bh = false := by assumption) :
    Within bh bp ba bi s0 (writeRow core task seg cls o seq xid md r s).2 := by
  unfold writeRow
  dsimp only
  exact within_writeRun_hbm (within_writeRun_hbm h _ _ _ _ _ _ _ _ _ _ _ _ ho) _ _ _ _ _ _ _ _ _ _ _ _ ho

theorem within_writeRow_spad (h : Within bh bp ba bi s0 s) (core task seg cls : Nat) (o : Opd) (seq xid : Nat) (md : Word)
    (r : RowOut) (ho : dLoc o.d = 0) (wp : bp = false := by assumption) :
    Within bh bp ba bi s0 (writeRow core task seg cls o seq xid md r s).2 := by
  unfold writeRow
  dsimp only
  exact within_writeRun_spad (within_writeRun_spad h _ _ _ _ _ _ _ _ _ _ _ _ ho) _ _ _ _ _ _ _ _ _ _ _ _ ho

/-- A row moved to the scratchpad (LOAD) leaves HBM and the arrays. -/
theorem within_doMove_spad (h : Within bh bp ba bi s0 s) (core : Nat) (op : Op) (b r : Nat) (ho : dLoc (op.opd 1).d = 0)
    (wp : bp = false := by assumption) : Within bh bp ba bi s0 (doMove core op b r s) := by
  unfold doMove
  extract_lets src dst t kb i md rest
  have k : Within bh bp ba bi s0 i.s := within_readRowK h _ _ _ _ _ _ _ _ _
  clear_value i
  generalize e : writeRow _ _ _ _ _ _ _ _ _ _ = z
  have k2 : Within bh bp ba bi s0 z.2 := e ▸ within_writeRow_spad k _ _ _ _ _ _ _ _ _ ho
  obtain ⟨md', s1⟩ := z
  refine within_modOp k2 _ _ _ ?_ ?_
  · exact fun _ => rfl
  · exact fun _ _ => rfl

/-- A row moved to HBM (STORE) leaves the scratchpads and the arrays. -/
theorem within_doMove_hbm (h : Within bh bp ba bi s0 s) (core : Nat) (op : Op) (b r : Nat) (ho : dLoc (op.opd 1).d = 1)
    (wh : bh = false := by assumption) : Within bh bp ba bi s0 (doMove core op b r s) := by
  unfold doMove
  extract_lets src dst t kb i md rest
  have k : Within bh bp ba bi s0 i.s := within_readRowK h _ _ _ _ _ _ _ _ _
  clear_value i
  generalize e : writeRow _ _ _ _ _ _ _ _ _ _ = z
  have k2 : Within bh bp ba bi s0 z.2 := e ▸ within_writeRow_hbm k _ _ _ _ _ _ _ _ _ ho
  obtain ⟨md', s1⟩ := z
  refine within_modOp k2 _ _ _ ?_ ?_
  · exact fun _ => rfl
  · exact fun _ _ => rfl

/-- A predicate on an item of an instruction that depends on what issue gave the instruction alone. -/
def OfGiven (Q : Op → Item → Prop) : Prop := ∀ o o' i, o.given = o'.given → Q o i → Q o' i

theorem find_map_of {l l' : List Op} {seq : Nat} {o' : Op} {τ : Type} (f : Op → Nat × τ) (hf : ∀ o, (f o).1 = o.seq)
    (e : l'.map f = l.map f) (h : (l'.find? fun o => o.seq = seq) = some o') :
    ∃ o, (l.find? fun o => o.seq = seq) = some o ∧ f o = f o' := by
  induction l generalizing l' with
  | nil => cases l' with
    | nil => simp at h
    | cons x l' => simp at e
  | cons y l ih =>
    cases l' with
    | nil => simp at e
    | cons x l' =>
      simp only [List.map_cons, List.cons.injEq] at e
      have q : x.seq = y.seq := by rw [← hf x, ← hf y, e.1]
      by_cases hx : x.seq = seq
      · rw [List.find?_cons_of_pos (by simpa using hx)] at h
        refine ⟨y, ?_, ?_⟩
        · rw [List.find?_cons_of_pos (by simpa using q ▸ hx)]
        · cases h; exact e.1.symm
      · rw [List.find?_cons_of_neg (by simpa using hx)] at h
        obtain ⟨o, h1, h2⟩ := ih e.2 h
        exact ⟨o, by rw [List.find?_cons_of_neg (by simpa using q ▸ hx)]; exact h1, h2⟩

/-- The instruction in flight as the work so far has left it. -/
theorem Within.op (h : Within bh bp ba bi s0 s) {core seq : Nat} {o' : Op} (e : (s.core core).op seq = some o') :
    ∃ o, (s0.core core).op seq = some o ∧ o.given = o'.given := by
  have k : (s.core core).ops.map Op.given = (s0.core core).ops.map Op.given := by
    have := h.kept core
    simp only [Core.kept, Prod.mk.injEq] at this
    exact this.2.2.2.2.2.2.2.2.2.2.2.2.2
  exact find_map_of Op.given (fun _ => rfl) k e

/-- The item list of an instruction after one of its items has run. -/
theorem op_items_of (h : Within bh bp ba true s0 s) {core seq : Nat} {o' : Op} (e : (s.core core).op seq = some o') :
    ∃ o, (s0.core core).op seq = some o ∧ o.items = o'.items := by
  obtain ⟨o, h1, h2⟩ := find_map_of Op.ahead (fun _ => rfl) (h.ahead rfl core) e
  exact ⟨o, h1, congrArg Prod.snd h2⟩

theorem op_modOp_self (core seq : Nat) (f : Op → Op) (hf : ∀ o, (f o).seq = o.seq) (s : State) :
    ((modOp core seq f s).core core).op seq = ((s.core core).op seq).map f := by
  unfold modOp Core.op
  simp only [State.core_modCore, if_true]
  induction (s.core core).ops with
  | nil => rfl
  | cons x l ih =>
    by_cases hx : x.seq = seq
    · simp [hx, hf, List.find?]
    · simp only [List.map_cons, hx, if_false]
      rw [List.find?_cons_of_neg (by simpa using hx), List.find?_cons_of_neg (by simpa using hx)]
      exact ih

/-- One item of an instruction: the item list loses it, and what the item's own work leaves is left. -/
theorem within_stepItem_of (core : Nat) (op : Op) (i : Item) (rest : List Item) (s : State)
    (hr : ∀ t, Within bh bp ba true t (runItem core op i t)) :
    Within bh bp ba false s (stepItem core op i rest s) ∧
      ∀ o', ((stepItem core op i rest s).core core).op op.seq = some o' → o'.items = rest := by
  unfold stepItem
  extract_lets used later s1
  have k0 : Within bh bp ba false s (modOp core op.seq (fun o => { o with items := rest }) s) :=
    within_modOp (.refl _ _ _ _ _) _ _ _ (fun _ => rfl) (fun e => by simp at e)
  have k1 : Within bh bp ba true (modOp core op.seq (fun o => { o with items := rest }) s) s1 := hr _
  have k2 : Within bh bp ba true (modOp core op.seq (fun o => { o with items := rest }) s)
      (forEach (used.filter fun x => !later.contains x) (setEmpty core) s1) :=
    Within.forEach _ _ (fun _ _ k => within_setEmpty k _ _) k1
  refine ⟨k0.trans (k2.weak id id id (fun e => by simp at e)), fun o' e => ?_⟩
  obtain ⟨o, h1, h2⟩ := op_items_of k2 e
  rw [op_modOp_self core op.seq (fun o => { o with items := rest }) (fun _ => rfl) s] at h1
  simp only [Option.map_eq_some_iff] at h1
  obtain ⟨o2, -, rfl⟩ := h1
  exact h2.symm

/-- The work of an instruction whose items all leave some parts leaves them. -/
theorem within_runItems_of (Q : Op → Item → Prop) (hQ : OfGiven Q) (core seq : Nat)
    (hr : ∀ op i t, op.seq = seq → Q op i → Within bh bp ba true t (runItem core op i t)) (n : Nat) (s : State)
    (hi : ∀ op, (s.core core).op seq = some op → ∀ i ∈ op.items, Q op i) : Within bh bp ba false s (runItems core seq n s) := by
  induction n generalizing s with
  | zero => exact .refl _ _ _ _ _
  | succ n ih =>
    unfold runItems
    split
    · exact .refl _ _ _ _ _
    · rename_i op hop
      split
      · exact .refl _ _ _ _ _
      · rename_i i rest hit
        have hs : op.seq = seq := by
          have := List.find?_some hop
          simpa using this
        split
        · exact .refl _ _ _ _ _
        · split
          · refine within_waitOnSlot (within_modOp (.refl _ _ _ _ _) _ _ _ ?_ ?_) _ _ _
            · exact fun _ => rfl
            · exact fun _ _ => rfl
          · obtain ⟨k1, k2⟩ := within_stepItem_of core op i rest s (fun t => hr op i t hs (hi op hop i (by rw [hit]; simp)))
            refine k1.trans (ih _ fun o' ho' j hj => ?_)
            rw [hs] at k2
            rw [k2 o' ho'] at hj
            obtain ⟨o, h1, h2⟩ := k1.op ho'
            rw [hop] at h1
            cases h1
            exact hQ _ _ _ h2 (hi op hop j (by rw [hit]; simp [hj]))

/-- The same of going on with it; of MATMUL and ATTEND the side tree may wake another instruction, so they are not among these. -/
theorem within_goOn_of (Q : Op → Item → Prop) (hQ : OfGiven Q) (core seq : Nat)
    (hr : ∀ op i t, op.seq = seq → Q op i → Within bh bp ba true t (runItem core op i t)) (s : State)
    (hi : ∀ op, (s.core core).op seq = some op → ∀ i ∈ op.items, Q op i)
    (hw : ∀ op, (s.core core).op seq = some op → iOp op.word ≠ 0x10 ∧ iOp op.word ≠ 0x12) :
    Within bh bp ba false s (goOn core seq s) := by
  unfold goOn
  split
  · exact .refl _ _ _ _ _
  · rename_i op hop
    split
    · exact .refl _ _ _ _ _
    · split
      · exact .refl _ _ _ _ _
      · have k := within_runItems_of Q hQ core seq hr (itemFuel op) s hi
        unfold wakeSide
        rw [if_pos (.inl (hw op hop))]
        exact k
end Sys2Proof.Machine
end

