-- ==== Sys2Proof/Tests/Slice0.lean ====
section
/-! SUPPORT. The author's own tests: well-formedness, words of macro-instructions written out from Table 8.2, and for every
statement a concrete state and operands that meet its hypotheses together. -/

/- Each proof below is a kernel evaluation, one after the other: side by side they would hold a stack each. -/
set_option Elab.async false

namespace Sys2Proof.Tests

open Sys2Proof.Machine

/-! ### Well-formedness: an ill-formed term for each check -/

/-- Packets, keys and payloads for the terms below. -/
def pk0 : Packet := { ptype := 1, dst := 0, src := 0, ftag := 0 }

/-- A frame with its CRC. -/
def wire (f : Frame) : Frame := { f with crc := frameCrc f }

/-- A frame of the kinds that have no payload. -/
def fr0 (ftype op len : Nat) : Frame := { ftype := ftype, op := op, tag := 1, len := len }

theorem test_wf_accepts : [Instr.tick, .nop 767 0, .ack 31 0 {}, .junctionTrip 12, .flush true 0 33, .flush false 767 25,
    .seifFold .hub ⟨0, 0, 0, 0, 0⟩, .cmdFrame 1 { fr0 1 255 0 with args := .reserved 255 }].all Instr.wellFormed = true := by decide
theorem test_wf_core : Instr.wellFormed (.nop 768 0) = false := by decide
theorem test_wf_link : Instr.wellFormed (.wr 32 pk0 {}) = false := by decide
theorem test_wf_port : Instr.wellFormed (.evtAck 2 (fr0 5 0 8)) = false := by decide
theorem test_wf_tag : Instr.wellFormed (.fxResume (2 ^ 32) 0) = false := by decide
theorem test_wf_addr : Instr.wellFormed (.lowWordRead .service (2 ^ 48)) = false := by decide
/-- A packet row takes its own TYPE, a VOTE row its own KIND, and a reserved TYPE comes as a WR. -/
theorem test_wf_packets : Instr.wellFormed (.wr 0 pk0 {}) = true ∧ Instr.wellFormed (.wr 0 { pk0 with ptype := 9 } {}) = true ∧
    Instr.wellFormed (.wr 0 { pk0 with ptype := 2 } {}) = false ∧ Instr.wellFormed (.rdReq 0 pk0 {}) = false ∧
    Instr.wellFormed (.wr 0 { pk0 with lseq := 65536 } {}) = false ∧ Instr.wellFormed (.fnsync 0 pk0 {}) = false ∧
    Instr.wellFormed (.vote 0 { pk0 with ptype := 6, vote := some ⟨0, 1, 0, 0, 0, 0, 0⟩ } {} false) = false ∧
    Instr.wellFormed (.voteResult 0 { pk0 with ptype := 6, vote := some ⟨0, 1, 0, 0, 0, 0, 0⟩ } {}) = true := by decide
theorem test_wf_queue : Instr.wellFormed (.flush true 0 34) = false ∧ Instr.wellFormed (.flush false 0 26) = false := by decide
theorem test_wf_node : Instr.wellFormed (.seifFold (.die 12) ⟨0, 0, 0, 0, 0⟩) = false := by decide
theorem test_wf_command : ([Cmd.imgRelease 4, .fxExport 16384, .shpSet 0 64 0, .reserved 256, .nvStore (List.replicate 4097 0)].any fun c =>
    Instr.wellFormed (.cmdFrame 0 { fr0 1 0 0 with args := c })) = false := by decide +kernel
theorem test_wf_ranges : [Instr.fwPlanReply 0 65536, .treeEmpty 0 256, .drainPortRead 0 16, .tagWaitRelease 0 4096,
    .tokenMessageArrival 0 1024 0, .tokenMessageArrival 0 0 65536, .tickMarker 32 0 {} 0, .coreTest 12 .start,
    .imageVerifyDone 4 none, .write 0 { fr0 2 0 4097 with data := List.replicate 4097 0 }, .consume 0 { fr0 3 0 1 with core := 65536 },
    .peek 0 { fr0 3 1 1 with addr := 2 ^ 48 }, .mem 0 { fr0 3 2 1 with tag := 2 ^ 32 }, .tickFrame 0 (fr0 256 0 8),
    .nvStore 0 (List.replicate 4097 0), .ack 32 0 {}, .probe 32 0 {} 0, .laneFailure 0 17, .readRequest (List.replicate 4097 0),
    .dieControllerHeartbeatMiss 12, .clockSupplyFault 13, .tempSample [], .junctionTrip 13, .resultRead 4097,
    .dynamicAddressAssignment false 128].any Instr.wellFormed = false := by decide +kernel

/-! ### Words (Table 8.2) -/

theorem test_word_none : Sys2Proof.decodeTableWord 256 0 = none := by decide
/-- NOP: opcode 0x00, every operand bit zero. -/
theorem test_word_nop : decodeMacroOp 5 0 = some (.nop 5 0) := by decide
/-- END with SIG_EN, bit 12. -/
theorem test_word_end : decodeMacroOp 0 0x1001 = some (.endProg 0 0x10) := by decide
/-- LOAD of task 3 (bits 11:8) from descriptor 1 (bits 72:64) to descriptor 2 (bits 81:73). -/
theorem test_word_load : decodeMacroOp 0 0x401000000000000000308 = some (.load 0 0x4010000000000000003) := by decide
/-- MATMUL: opcode 0x10, ACCUM (bit 205). -/
theorem test_word_matmul : decodeMacroOp 1 (2 ^ 205 + 0x10) = some (.matmul 1 (BitVec.ofNat 248 (2 ^ 197))) := by decide +kernel
/-- UPDATE: opcode 0x19. -/
theorem test_word_update : decodeMacroOp 0 0x19 = some (.update 0 0) := by decide
/-- Opcode 0x05 is reserved. -/
theorem test_word_reserved : decodeMacroOp 0 0x05 = none := by decide

/-! ### States for the witnesses -/

/-- Fields of a word or a descriptor, by lowest bit and value. -/
def pack (l : List (Nat × Nat)) : Nat := l.foldl (fun a f => a + f.2 * 2 ^ f.1) 0
/-- Bits [255:8] of an instruction with the given fields. -/
def bodyOf (l : List (Nat × Nat)) : BitVec 248 := BitVec.ofNat 248 (pack l / 256)
/-- A descriptor with the given fields. -/
def descOf (l : List (Nat × Nat)) : BitVec 512 := BitVec.ofNat 512 (pack l)
/-- A module that is READY, its input on, port 0 UP, with further registers. -/
def readyR (l : List (Nat × Word)) : State :=
  { State.reset with regs := [(dpPortStat 0, 1), (biStatus, 7)] ++ l, pwr := { ({} : PowerSt) with input := 2 } }
/-- The same with no further register. -/
def ready : State := readyR []
/-- Core 0 runs a frame program of task 0 in a code range of 256 bytes. -/
def coreR (c : Core) (l : List (Nat × Word)) : State :=
  { readyR ([(spA 0 0x100, 0x10000)] ++ l) with cores := [(0, { c with prog := some ⟨0, 0⟩ })] }
/-- The same with descriptors. -/
def descR (l : List (List (Nat × Nat))) : State := coreR { desc := (List.range l.length).zip (l.map descOf) } []
/-- An image with nothing in it but what is given later. -/
def bare : ImageContent := default
/-- The image is active in slot 0. -/
def withImage (c : ImageContent) (s : State) : State :=
  { s with img := { s.img with whole := some 0, slots := [{ state := 3, content := some c }, {}, {}, {}] } }
/-- A route table in which module 0 is this one and module 1 is behind link 0. -/
def routed : ImageContent :=
  { bare with route := { vc0 := [(0, ⟨[], true, 0⟩), (1, ⟨[0], false, 1⟩)], vc1 := [(0, ⟨[], true, 0⟩), (1, ⟨[0], false, 1⟩)], expect := [] } }
/-- A packet with its CRC32. -/
def sealed (p : Packet) : Packet := { p with crc := packetCrc p }
/-- Link 0 UP. -/
def linkR (s : State) : State := { s with regs := s.regs ++ [(linkA 0 0, 0x1F2)] }

/-- The command has a next state. -/
def goesOn (o : Host.Outcome State Fault Refusal) : Bool :=
  match o with
  | .next _ => true
  | _ => false

/-! ### The block and the sandglass -/

theorem test_witness_StepRunsTheFrontCommand :
    ({ State.reset with pending := [.tick] } : State).pending = .tick :: [] ∧ State.reset.pending = [] := by decide
theorem test_witness_StepKeepsMemoryCanonical :
    State.reset.memOk = true ∧ ∃ t, step State.reset = .next t := ⟨by decide, _, rfl⟩
theorem test_witness_FrameNumberMovesAtTicks :
    3 ≤ ready.stage ∧ ready.tk.pendingFn = none ∧ ready.tk.waitFirst = false ∧
      ∃ t, exec .lockLost ready = .next t := ⟨by decide, by decide, by decide, _, rfl⟩

/-- A follower that is locked and has been in holdover. -/
def follower (n : Nat) : State :=
  { readyR [(ftSrc, 0), (ftStatus, 1)] with tk := { ({} : TickSt) with started := true, holdRun := n } }
/-- A FRAME section: trees of ranks 0 and 1 with link 0 upstream, this module the fallback master of rank 1. -/
def frame0 : FrameSect := { (default : FrameSect) with trees := [⟨some 0, none, []⟩, ⟨none, none, [1]⟩], fallback := [0] }

theorem test_witness_LockTakeoverAndWorkWindow :
    (4 ≤ (follower 4).tk.holdRun ∧ tickSrc (follower 4) = 0 ∧ (follower 4).tk.lostRun = false) ∧ (follower 3).tk.holdRun < 4 ∧
    (let s := { readyR [(ftSrc, 3)] with tk := { ({} : TickSt) with holdRun := 4 } }
     4 ≤ s.tk.holdRun ∧ tickSrc s ≠ 1 ∧ tickSrc s ≠ 0 ∧ s.tk.lostRun = false ∧ s.port.events.length < 256 ∧ locked s = false) ∧
    (let s := { follower 2 with tk := { (follower 2).tk with sect := some frame0 } }
     fallbackRank s = some 1 ∧ tickSrc s = 0 ∧ 1 + 1 ≤ s.tk.holdRun) ∧
    (let s := { follower 1 with tk := { (follower 1).tk with sect := some frame0 } }
     fallbackRank s = some 1 ∧ s.tk.holdRun < 1 + 1) ∧
    (let s := coreR {} []
     (0, s.core 0) ∈ s.cores ∧ (s.core 0).prog.isSome = true ∧ (s.core 0).ended = false) ∧
    ∀ c ∈ ready.cores, c.2.prog = none := by decide +kernel

theorem test_witness_MarkersLeaveDownTheTree :
    (let s := { readyR [(ftSrc, 0x11)] with tk := { ({} : TickSt) with started := true, sect := some frame0 } }
     masterRank s = some 1 ∧ treeOf s 1 = some ⟨none, none, [1]⟩ ∧ s.tk.started = true) ∧
    (let s := linkR { follower 0 with tk := { (follower 0).tk with sect := some frame0, chosen := some ⟨1, 1, 0, true, false⟩ } }
     s.tk.chosen = some ⟨1, 1, 0, true, false⟩ ∧ treeOf s 1 = some ⟨none, none, [1]⟩) ∧
    (let s := { follower 0 with tk := { (follower 0).tk with chosen := some ⟨1, 1, 0, true, true⟩ } }
     s.tk.chosen = some ⟨1, 1, 0, true, true⟩ ∧ (⟨1, 1, 0, true, true⟩ : ChosenMarker).forwarded = true) := by decide +kernel

theorem test_witness_MarkerSchedulesTheTick :
    let s := linkR { follower 0 with tk := { (follower 0).tk with sect := some frame0 } }
    let mk (n : BitVec 24) : Marker := { fnLo := n, masterIx := 0, hops := 0, delayAcc := 0 }
    (tickSrc s = 0 ∧ s.linkUp 0 = true ∧ s.linkOpen 0 = true ∧ treeOf s 0 = some ⟨some 0, none, []⟩ ∧ 0 < (masterRank s).getD 4 ∧
      (mk 1).delayAcc.toNat + (s.reg (linkA 0 0x10)).toNat ≤ ftLead - 800 ∧ s.tk.waitFirst = false ∧ s.tk.chosen = none ∧
      (mk 1).fnLo = (nextFrameNumber s).setWidth 24 ∧ (mk 2).fnLo ≠ (nextFrameNumber s).setWidth 24) ∧
    (blkTaken 0x5A (markerBlock (mk 1)) {} = true ∧ blkMarker (markerBlock (mk 1)) = mk 1) ∧
    (blkTaken 0x5A (markerBlock (mk 2)) {} = true ∧ blkMarker (markerBlock (mk 2)) = mk 2) ∧
    blkCrcOk (markerBlock (mk 1) + 1) = false ∧
    (let u : State := { s with tk := { s.tk with stopped := true, waitFirst := true } }
     u.tk.stopped = true ∧ u.tk.waitFirst = true ∧ goesOn (exec (.tickMarker 0 (markerBlock (mk 1)) {} 0) u) = true) := by decide +kernel

theorem test_witness_ExternalEventPlacesTheTick :
    (let s := { readyR [(ftSrc, 3)] with tk := { ({} : TickSt) with started := true, nextTick := 800 } }
     tickSrc s = 3 ∧ 3 ≤ s.stage ∧ s.tk.started = true ∧ within100 ((1600 : Nat) + extOffset s) s.tk.nextTick = true) ∧
    (let s := withImage bare { readyR [(ftSrc, 3)] with tk := { ({} : TickSt) with started := true, nextTick := 800 } }
     tickSrc s = 3 ∧ s.active = true ∧ within100 ((1601 : Nat) + extOffset s) s.tk.nextTick = false) ∧
    (let s := { readyR [(ftSrc, 2)] with tk := { ({} : TickSt) with started := true, nextTick := 800 } }
     let f (n : Byte) : Frame := wire { fr0 6 0 8 with data := [n, 0, 0, 0, 0, 0, 0, 0] }
     tickSrc s = 2 ∧ 0 = s.regFld ftSrc 2 1 ∧ s.hears 0 (f 1) = true ∧ s.hears 0 (f 2) = true ∧ s.safe = 0 ∧
       within100 (((f 1).time : Nat) + extOffset s) s.tk.nextTick = true ∧ s.tk.stopped = false ∧
       BitVec.ofNat 64 (leNat (f 1).data) = nextFrameNumber s ∧ BitVec.ofNat 64 (leNat (f 2).data) ≠ nextFrameNumber s) := by decide +kernel

theorem test_witness_FrameNumbersAreSynchronised :
    let p : Packet := sealed { ptype := 7, dst := 0, src := 1, ftag := 0, fnsync := 5 }
    let ok (s : State) : Prop := s.linkUp 0 = true ∧ rxGood p {} = true ∧ p.lseq < 65536 ∧ p.lseq = (s.link 0).lseqRx ∧ p.ptype = 7 ∧
      packetBad p = false ∧ p.fnsync ≠ fnsyncRequest ∧ treeFrom s 0 = some ⟨some 0, none, []⟩
    (let s := linkR { readyR [(ftSrc, 0)] with tk := { ({} : TickSt) with started := true, sect := some frame0 } }
     ok s ∧ tickSrc s = 0 ∧ locked s = false) ∧
    (let s := linkR { follower 0 with tk := { (follower 0).tk with sect := some frame0 } }
     ok s ∧ locked s = true ∧ s.tk.stopped = false) ∧
    (let s := { readyR [(ftSrc, 0x11)] with tk := { ({} : TickSt) with started := true, sect := some frame0 } }
     s.tk.started = true ∧ masterRank s = some 1 ∧ treeOf s 1 = some ⟨none, none, [1]⟩) := by decide +kernel

/-! ### Frame programs -/

theorem test_witness_NopEndWaitAndSignalComplete :
    let s := coreR { tokens := [(3, 1)] } []
    let one := bodyOf [(64, 3), (74, 1)]
    let two := bodyOf [(64, 3), (74, 2)]
    let sig := bodyOf [(82, 1), (112, 1)]
    (reservedHere s 0 = none ∧ canIssue s 0 (fullWord 0x00 0) = true ∧ anySet (fullWord 0x00 0) (hdrReserved ++ [(64, 192)]) = false) ∧
    (reservedHere { s with spad := [(0, 5)] } 0 = some 5 ∧ canIssue { s with spad := [(0, 5)] } 0 5 = true ∧
      ({ s with spad := [(0, 5)] } : State).fx.cur.events.length < 64) ∧
    (canIssue s 0 (fullWord 0x01 0) = true ∧ anySet (fullWord 0x01 0) (hdrReserved ++ [(64, 192)]) = false) ∧
    (canIssue s 0 (fullWord 0x02 one) = true ∧ anySet (fullWord 0x02 one) (hdrReserved ++ waitReserved) = false ∧
      pairsMet ((s.core 0).took (headerPairs s 0 (fullWord 0x02 one))) (waitPairs (fullWord 0x02 one)) = true) ∧
    (canIssue s 0 (fullWord 0x02 two) = true ∧ anySet (fullWord 0x02 two) (hdrReserved ++ waitReserved) = false ∧
      pairsMet ((s.core 0).took (headerPairs s 0 (fullWord 0x02 two))) (waitPairs (fullWord 0x02 two)) = false) ∧
    canIssue s 0 (fullWord 0x03 sig) = true ∧ anySet (fullWord 0x03 sig) (hdrReserved ++ signalReserved) = false ∧
      ∀ m ∈ signalTargets 0 (fullWord 0x03 sig), m.1 < 768 := by decide +kernel

theorem test_witness_FenceOrdersTheProgram :
    let load : Op := { seq := 0, word := 0x08, seg := 0, ext := ⟨1, 1, 0, 1⟩, opds := [] }
    let s := coreR {} []
    let t := coreR { ops := [load], pos := 1 } []
    let w := fullWord 0x04 (bodyOf [(64, 31)])
    (canIssue s 0 w = true ∧ anySet w (hdrReserved ++ [(69, 3), (79, 177)]) = false ∧ fenceMet (s.core 0) (fld w 64 5) = true ∧
      (s.core 0).gather = []) ∧
    canIssue t 0 w = true ∧ fenceMet (t.core 0) (fld w 64 5) = false := by decide +kernel

theorem test_witness_WindowsChangeAtTheNextTick :
    let s := coreR {} []
    let w := fullWord 0x0C (bodyOf [(118, 256)])
    let x := fullWord 0x0C (bodyOf [(118, 255)])
    (canIssue s 0 w = true ∧ anySet w (hdrReserved ++ [(160, 96)]) = false ∧ windowOk s 0 (fld w 70 48) (fld w 118 40) = true) ∧
    (canIssue s 0 x = true ∧ windowOk s 0 (fld x 70 48) (fld x 118 40) = false ∧ s.fx.cur.events.length < 64) ∧
    canIssue s 0 (fullWord 0x0D 0) = true ∧ anySet (fullWord 0x0D 0) (hdrReserved ++ [(70, 186)]) = false := by decide +kernel

theorem test_witness_TokensSaturateAndWaitsTrip :
    let s := coreR { tokens := [(3, 65535)] } []
    let t : State := { s with flight := [(0, 3, 1)] }
    let v : State := { coreR { tokens := [(3, 65530)] } [] with flight := [(0, 3, 2), (0, 4, 1), (0, 3, 3)] }
    let u := coreR { waiting := some ⟨0, [(3, 1)], false, false⟩ } [(tkA 0 0xC, 1)]
    ((takeFlight 0 3 2 v.flight).2.length < v.flight.length ∧ SMap.get (fun _ => 0) v.err.tokFlip 0 = 0 ∧
      (v.core 0).token 3 + (takeFlight 0 3 2 v.flight).1 ≤ 65535) ∧
    (takeFlight 0 3 1 s.flight).2.length = s.flight.length ∧
    ((takeFlight 0 3 1 t.flight).2.length < t.flight.length ∧ SMap.get (fun _ => 0) t.err.tokFlip 0 = 0 ∧
      65535 < (t.core 0).token 3 + (takeFlight 0 3 1 t.flight).1) ∧
    ((u.core 0).waiting = some ⟨0, [(3, 1)], false, false⟩ ∧ u.regFld (tkA 0 0xC) 0 16 ≠ 0 ∧ lowestUnmet (u.core 0) [(3, 1)] = some 3) ∧
    s.regFld (tkA 0 0xC) 0 16 = 0 := by decide +kernel

/-! ### Registers and the service port -/

theorem test_witness_RegisterWritesFollowTheirFields :
    (ready.safeStatus = none ∧ windowCore ready ftGuard = none ∧ accessStatus ready ftGuard = stOK ∧ (ready.active = true → lockedReg ftGuard = false) ∧
      badValue ready ftGuard 5 = false ∧ ftGuard ∉ [clEn, clId, biCtrl, biDebug, ftSrc] ∧ isPeak (ftGuard + 8) = false) ∧
    (windowCore ready (ftGuard + 1) = none ∧ (ftGuard + 1) % 4 ≠ 0 ∧ windowCore ready (hubA 0xF000) = none ∧ regAt (hubA 0xF000) = .none) ∧
    (let s := { ready with img := { ready.img with cores := 0 :: List.replicate 11 64 } }
     windowCore s (tkA 0 0) = none ∧ tkA 0 0 % 4 = 0 ∧ regAt (tkA 0 0) = .core 0 8 0 ∧ s.coreOffered 0 = false) ∧
    (let s := withImage bare ready
     s.safeStatus = none ∧ windowCore s ftPeriod = none ∧ accessStatus s ftPeriod = stOK ∧ s.active = true ∧ lockedReg ftPeriod = true ∧
       windowCore s 0x500000000000 = some 0) ∧
    badValue ready ftPeriod 0 = true := by decide +kernel

theorem test_witness_LowWordReadLatchesTheHighWord :
    (accessStatus ready secLcNonce = stOK ∧ isLow64 secLcNonce = true ∧ ready.latch .port0 = none) ∧
    (let s := ready.modSvc fun v => { v with latch := some ⟨secLcNonce, 9⟩ }
     accessStatus s (secLcNonce + 4) = stOK ∧ isLow64 secLcNonce = true ∧ s.latch .service = some ⟨secLcNonce, 9⟩) ∧
    (accessStatus ready (secLcNonce + 4) = stOK ∧ isLow64 secLcNonce = true ∧ ready.latch .port0 = none) ∧
    3 % 4 ≠ 0 ∧ logEntryAt 3 = none := by decide +kernel

theorem test_witness_PeakReadsAndFlushes :
    33 < 34 ∧ (767 < 768 ∧ 25 < 26 ∧ dieHeldNow ready 11 = false ∧ ready.coreOffered 767 = true) ∧ 1 < 2 ∧ ready.active = false ∧
    (withImage bare ready).active = true := by decide +kernel

theorem test_witness_LinkEnablesAndTheModuleId :
    (let s := readyR [(clEn, 0)]
     s.active = false ∧ s.reg clEn = 0) ∧ ready.reg clEn ≠ 0 ∧ (withImage bare ready).active = true ∧
    (let s := readyR [(clId, 0x80000001), (linkA 1 0, 0x1F5), (linkA 2 0, 0x1F2)]
     s.active = false ∧ s.idValid = true ∧ s.linkState 0 = 0 ∧ s.linkState 1 = 5 ∧ s.linkState 2 = 2) := by decide +kernel

theorem test_witness_ServicePortKeepsOneResult :
    (ready.pwr.input = 2 ∧ ready.svc.latch = none ∧ ready.svc.result = none ∧ isPeak ftPeriod = false ∧ ftPeriod < 2 ^ 48 ∧ 127 < 128) ∧
    ¬(([] : List Byte).length = 7 ∧ ([] : List Byte).head? = some 0x01) ∧ ¬(([] : List Byte).length = 11 ∧ ([] : List Byte).head? = some 0x02) ∧
    (let s := ready.modSvc fun v => { v with result := some (255, 7) }
     s.pwr.input = 2 ∧ s.svc.result = some (255, 7) ∧ 255 < 256) := by decide +kernel

/-! ### Chipra -/

/-- Module 0 of two, link 0 UP to module 1, with a window over the first 8 KiB of HBM and a ping-pong region there. -/
def linked : State :=
  let c := { routed with pingpong := { (default : PingPongSect) with regions := [⟨0, 8192, 8192, 0, 0⟩] } }
  let s := withImage c (linkR ready)
  { s with cores := [(0, { ({} : Core) with windows := [(0, ⟨0, 8192, 3⟩)] })] }
/-- A packet from module 1. -/
def pkt (n : Nat) : Packet := { ptype := n, dst := 0, src := 1, ftag := linked.ftag }

theorem test_witness_RemoteWritesLandInTheNextVersion :
    let p : Packet := sealed { pkt 1 with addr := 4096, data := [7, 8] }
    let u : UnitAt := ⟨0, 0, 8192, 4096⟩
    let q : Packet := sealed { pkt 2 with xid := 9 }
    let r : Packet := sealed { p with ftag := 1 }
    let s : State := { linked with chip := { ({} : ChipSt) with sends := [⟨9, 0, 0, 1⟩] } }
    let v : State := linked.modFx fun f => { f with cur := { f.cur with inPlace := true } }
    (Mem.wf linked.hbm = true ∧ linked.linkUp 0 = true ∧ rxGood p {} = true ∧ p.lseq < 65536 ∧ p.lseq = (linked.link 0).lseqRx ∧
      nextHop linked 0 p.dst = .here ∧ p.ptype = 1 ∧ packetBad p = false ∧ p.ftag = linked.ftag ∧ linked.fx.cur.inPlace = false ∧
      (findWindow linked p.addr p.data.length 0).isSome = true ∧ u.ofs % 4096 + p.data.length ≤ 4096 ∧
      (∀ j, j < p.data.length → localAddr linked (p.addr + j) = .hbm (p.addr + j) ∧
        linked.unitAt (p.addr + j) = some { u with ofs := u.ofs + j } ∧ unitLocked linked (p.addr + j) = false) ∧
      (prevUnits linked).contains u.key = false ∧ nextHop linked 0 p.src ≠ .here ∧ nextHop linked 0 p.src = .link 0 ∧
      (linked.link 0).waiting = [] ∧ (linked.link 0).backlog = [] ∧ (linked.link 0).part = 0 ∧ (linked.link 0).swap = none ∧
      (linked.link 0).canSend (ackOf linked p 0) = true) ∧
    (rxGood r {} = true ∧ packetBad r = false ∧ r.ftag ≠ linked.ftag) ∧
    (v.linkUp 0 = true ∧ p.lseq = (v.link 0).lseqRx ∧ nextHop v 0 p.dst = .here ∧ p.ftag = v.ftag ∧ v.fx.cur.inPlace = true) ∧
    (s.linkUp 0 = true ∧ rxGood q {} = true ∧ q.lseq = (s.link 0).lseqRx ∧ nextHop s 0 q.dst = .here ∧ q.ptype = 2 ∧ packetBad q = false ∧
      q.ackSt = 0 ∧ (s.chip.sends.find? fun x => x.xid = q.xid) = some ⟨9, 0, 0, 1⟩) := by decide +kernel

theorem test_witness_RemoteReadsReturnTheCurrentVersion :
    (let p : Packet := sealed { pkt 3 with addr := 0, want := 2 }
     linked.linkUp 0 = true ∧ rxGood p {} = true ∧ p.lseq = (linked.link 0).lseqRx ∧ nextHop linked 0 p.dst = .here ∧ packetBad p = false ∧
       p.ftag = linked.ftag ∧ (findWindow linked p.addr p.want 1).isSome = true ∧
       (∀ j, j < p.want → localAddr linked (p.addr + j) = .hbm (p.addr + j) ∧ hbmBad linked (hbmReadAddr linked (p.addr + j)) = false) ∧
       nextHop linked 0 p.src = .link 0 ∧ (linked.link 0).waiting = [] ∧ (linked.link 0).backlog = [] ∧ (linked.link 0).part = 0 ∧
       (linked.link 0).swap = none) ∧
    (let s := linked.modFx fun f => { f with exportPeer := some 1 }
     let p : Packet := sealed { pkt 3 with addr := 0x600000000000, want := 2 }
     s.linkUp 0 = true ∧ rxGood p {} = true ∧ packetBad p = false ∧ s.fx.exportPeer = some p.src ∧ localAddr s (p.addr + 0) = .unmapped ∧
       nextHop s 0 p.src = .link 0 ∧ s.link 0 = linked.link 0) ∧
    (∀ q : Packet, q.ptype = 4 → q.data.length ≤ 2 → (linked.link 0).canSend q = true) ∧
    ∀ x ∈ [(0, [1]), (3, [])],
     let p : Packet := sealed { pkt 4 with ackSt := x.1, data := x.2 }
     linked.linkUp 0 = true ∧ linked.linkOpen 0 = true ∧ rxGood p {} = true ∧ p.lseq = (linked.link 0).lseqRx ∧
       nextHop linked 0 p.dst = .here ∧ packetBad p = false := by
  refine ⟨by decide +kernel, by decide +kernel, ?_, by decide +kernel⟩
  intro q h1 h2
  have h : linked.link 0 = {} := by decide +kernel
  simp [h, LinkSt.canSend, vcOf, packetUnits, packetBytes, h1, cdiv]
  omega

theorem test_witness_SeifPacketsEnterTheHubNode :
    let r : Reduction := { (default : Reduction) with id := 5, remotePairs := 1, width := 1 }
    let o : Op := { seq := 0, word := 0x10, seg := 0, ext := ⟨1, 1, 1, 1⟩, opds := [] }
    let e : SeifEntry := { (default : SeifEntry) with elem := 0, hi := 0x3F800000, lo := 0 }
    let s (n : Node) : State := { withImage { routed with reductions := [r] } (linkR (coreR { ops := [o] } [])) with hubNode := n }
    let p : Packet := sealed { ptype := 5, dst := 0, src := 1, ftag := (s {}).ftag, addr := 5, entries := [e] }
    let k : ElemKey := ⟨0, 0, 0, 0, 0⟩
    ((s {}).linkUp 0 = true ∧ rxGood p {} = true ∧ p.lseq = ((s {}).link 0).lseqRx ∧ nextHop (s {}) 1 p.dst = .here ∧ packetBad p = false ∧
      seifKey (s {}) p.addr e.elem = some (r, o, k) ∧ iOp o.word ≠ 0x13 ∧ f32Finite e.hi = true ∧ f32Finite e.lo = true ∧
      hubExpects (s {}) r o.ext k.n ≤ 2 ^ 20 ∧ (s {}).hubNode.find k = none ∧ (s {}).hubNode.used < 8192) ∧
    (let p : Packet := sealed { pkt 5 with entries := [default], ftag := 1 }
     rxGood p {} = true ∧ nextHop linked 1 p.dst = .here ∧ packetBad p = false ∧ p.ftag ≠ linked.ftag) := by decide +kernel

/-- A hub node with no free accumulator and none of the element: the other case of the statement above. -/
theorem test_witness_full_node (c : Nat) :
    let a : Acc := { key := ⟨0, 0, 0, 0, 1⟩, op := 0, expected := 2, received := 1, segs := [], best := none, md := 0, tdIn := 0, ext := ⟨1, 1, 1, 1⟩ }
    let n : Node := { ({} : Node) with accs := List.replicate c a }
    n.find ⟨0, 0, 0, 0, 0⟩ = none ∧ n.used = c := by
  have h (l k : Nat) : (List.replicate l 1).foldl (· + ·) k = k + l := by
    induction l generalizing k with
    | zero => simp
    | succ l ih => rw [List.replicate_succ, List.foldl_cons, ih]; omega
  refine ⟨by simp [Node.find], ?_⟩
  simp only [Node.used, List.map_replicate, accCost, sumN]
  simpa using h c 0

theorem test_witness_OnlyTheExpectedPacketIsAccepted :
    let p (n : Nat) : Packet := sealed { pkt 1 with lseq := n }
    linked.linkUp 0 = true ∧ linked.linkOpen 0 = true ∧ ready.linkUp 0 = false ∧ rxGood { p 0 with crc := (p 0).crc + 1 } {} = false ∧
      rxGood (p 0) { ({} : Codeword) with uncorr := true } = false ∧ (linked.link 0).lseqRx < 65536 ∧
      rxGood (p 65535) {} = true ∧ (p 65535).lseq = ((linked.link 0).lseqRx + 65536 - 1) % 65536 ∧
      rxGood (p 1) {} = true ∧ (p 1).lseq = ((linked.link 0).lseqRx + 65536 - 65535) % 65536 := by decide +kernel

theorem test_witness_AcknowledgementsCreditsAndReplays :
    let s := { linked with links := [(0, { ({} : LinkSt) with replay := [pkt 1] })] }
    s.linkUp 0 = true ∧ 4096 ≤ (s.link 0).freed0 ∧ 1024 ≤ (s.link 0).freed1 ∧ (s.link 0).swap = none ∧
      (s.link 0).replay.filter (fun p => decide ((p.lseq + 65536 - 0 % 65536) % 65536 < 4096)) ≠ [] := by decide +kernel

theorem test_witness_ProbesMeasureTheDelay :
    let s := { linked with links := [(0, { ({} : LinkSt) with probe := some 5 })] }
    1 ≤ s.linkState 0 ∧ s.linkState 0 ≤ 3 ∧ s.linkOpen 0 = true ∧ (s.link 0).probe = some 5 ∧ 0 < 65536 ∧ 1760 ≤ 1760 ∧ 1760 < 1761 := by decide +kernel

theorem test_witness_OneLaneIsSparedASecondRetiresTheLink :
    let s := { readyR [(linkA 0 0, 0x1FA)] with links := [(0, { ({} : LinkSt) with part := 64 })] }
    let t := { linked with links := [(0, { ({} : LinkSt) with swap := some 15, failed := [15] })] }
    (1 ≤ linked.linkState 0 ∧ linked.linkState 0 ≤ 3 ∧ 15 ∉ (linked.link 0).failed ∧ linked.regBit (linkA 0 0) 3 = false ∧
      (linked.link 0).swap = none ∧ 16 ∉ (linked.link 0).failed) ∧
    (1 ≤ s.linkState 0 ∧ s.linkState 0 ≤ 3 ∧ 0 ∉ (s.link 0).failed ∧ s.regBit (linkA 0 0) 3 = true ∧ 0 < (s.link 0).part) ∧
    (linked.linkUp 0 = true ∧ linked.regBit (linkA 0 0) 3 = false) ∧ 1 ≤ t.linkState 0 ∧ t.linkState 0 ≤ 3 ∧ (t.link 0).swap = some 15 := by decide +kernel

theorem test_witness_LinksTrainRetrainAndEnd :
    let s := readyR [(clId, 0x80000000), (linkA 0 0, 0x1F1)]
    let t := { readyR [(linkA 0 0, 0x1F3)] with links := [(0, { ({} : LinkSt) with peer := some ⟨0xD13, 0, 1, 0⟩ })] }
    (s.linkState 0 = 1 ∧ 1 < 2 ^ 14 ∧ 31 < 32 ∧ peerRefusal s 0 { part := 0xD13, step := 0, mid := 1, lnk := 31 } = none) ∧ 1 ≠ 0xD13 ∧
    (t.linkState 0 = 3 ∧ (t.link 0).peer ≠ none ∧ (t.link 0).cableOff = false) ∧ linked.linkUp 0 = true ∧
    resentOften { ({} : LinkSt) with tries := [(7, 8)] } = true ∧
    (let u := readyR [(linkA 12 0, 0x1F2)]
     1 ≤ u.linkState 12 ∧ u.linkState 12 ≤ 3) := by decide +kernel

/-! ### Moves and weights -/

/-- One row of n FP32 elements in HBM, in the scratchpad, or at module 1. -/
def rowF32 (loc n : Nat) : List (Nat × Nat) :=
  [(48, if loc = 3 then 1 else 0), (64, 11), (82, 11), (94, loc), (192, 1), (220, n), (256, 4 * n), (320, 1)]
/-- A move from descriptor 0 to descriptor 1 of one row of n elements. -/
def moveW (n : Nat) : List (Nat × Nat) := [(73, 1), (104, 1), (132, n), (188, 1)]

theorem test_witness_MovesIssueAndWriteOnlyTheirRows :
    let ok (l1 l2 : Nat) (op : BitVec 8) (res : List (Nat × Nat)) (r1 r2 : List Nat) : Bool :=
      let s := descR [rowF32 l1 1, rowF32 l2 1]
      let w := fullWord op (bodyOf (moveW 1))
      let src := opdOf s 0 (iTd0 w)
      let dst := opdOf s 0 (iTd1 w)
      canIssueNew s 0 w && !iB205 w && !anySet w res && !moveExtBad w && memRoleOk false r1 memFmtOk src.d &&
        memRoleOk true r2 memFmtOk dst.d && sameFormat src.d dst.d && outRndOk s dst.d &&
        decide (moveExtents s 0 w src.d = (⟨1, 1, 0, 1⟩, 0)) && moveExtentOk s (moveK s src dst) false src 1 1 1 &&
        moveExtentOk s (moveK s src dst) true dst 1 1 1
    ok 1 0 0x08 moveReserved [0, 1] [0] = true ∧ ok 0 1 0x09 (moveReserved ++ [(205, 1)]) [0] [1] = true ∧
      ok 1 3 0x0A (moveReserved ++ [(205, 1)]) [0, 1] [3] = true := by decide +kernel

theorem test_witness_LoadCopiesItsRow :
    (let s := descR [rowF32 1 2, rowF32 0 2]
     let w := fullWord 0x08 (bodyOf (moveW 2))
     let src := opdOf s 0 (iTd0 w)
     let dst := opdOf s 0 (iTd1 w)
     canIssueNew s 0 w = true ∧ iB205 w = false ∧ anySet w moveReserved = false ∧ moveExtBad w = false ∧
       memRoleOk false [1] memFmtOk src.d = true ∧ memRoleOk true [0] memFmtOk dst.d = true ∧ sameFormat src.d dst.d = true ∧
       outRndOk s dst.d = true ∧ dScaled src.d = false ∧ dTag dst.d = 0 ∧ moveExtents s 0 w src.d = ({ m := 1, n := 2, k := 0, b := 1 }, 0) ∧
       moveExtentOk s false false src 1 1 2 = true ∧ moveExtentOk s false true dst 1 1 2 = true) ∧
    (let s := descR [rowF32 1 1]
     let w := fullWord 0x08 (bodyOf (moveW 1 ++ [(205, 1), (206, 63)]))
     let src := opdOf s 0 (iTd0 w)
     canIssueNew s 0 w = true ∧ iB205 w = true ∧ anySet w moveReserved = false ∧ moveExtBad w = false ∧
       memRoleOk false [1] memFmtOk src.d = true ∧ 1 * fmtBits (dEfmt src.d) = 32 ∧
       moveExtents s 0 w src.d = ({ m := 1, n := 1, k := 0, b := 1 }, 0) ∧ moveExtentOk s (kBlocks s false src) false src 1 1 1 = true ∧
       ∀ j, j < 4 → hbmBad s (hbmReadAddr s (rowAddr src 0 0 + j)) = false) := by decide +kernel

/-- A placement of one tile at macro `mb`, DSCALE 1, of at most k rows and n columns. -/
def placed (mb k n : Nat) : List (Nat × Nat) :=
  [(0, mb), (24, 1), (49, 1), (94, 2), (96, 0x3F800000), (136, 1), (148, 1), (159, 1), (192, k), (220, n), (320, 1)]

theorem test_witness_WeightWritesIssueAndWriteOnlyTheirMacros :
    (let c := { bare with pingpong := { (default : PingPongSect) with regions := [⟨0, 0x100000, 0x1000, 1, 0⟩] } }
     let s := withImage c (coreR { desc :=
       [(0, descOf [(64, 0), (68, 1), (69, 2), (94, 1), (192, 64), (220, 4), (256, 4), (320, 1)]), (1, descOf (placed 0 64 4))] }
       [(roleA 0 0, 1)])
     let w := fullWord 0x0B (bodyOf [(73, 1), (188, 1), (206, 1)])
     let src := opdOf s 0 (iTd0 w)
     let tw := opdOf s 0 (iTd1 w)
     (canIssueNew s 0 w && !anySet w writeReserved && !extBad (iExt w 104) && !extBad (iExt w 132) && !bcBad (iBc w) &&
       !dReservedBad tw.d && decide (dLoc tw.d = 2) && !iB205 w && memRoleOk false [1] memFmtOk src.d &&
       decide (min (bcVal s 0 (iBc w)) (dBMax src.d) = 1) && (placeRefused s 0 tw.d 1).isNone && decide (s.role 0 (dMbase tw.d) = 1) && iAll w &&
       decide (dEfmt src.d = placeFmt s 0 tw.d) && dScaled src.d && decide (dBlk src.d = (if s.deferBit 0 (dMbase tw.d) then 3 else 2)) &&
       rowShapeOk (placeFmt s 0 tw.d) src (dColsMax src.d) (shareCols tw.d (placeFmt s 0 tw.d)) && srOk s tw.d &&
       hbmRangeOk s true false src 1 (shareRows tw.d) (shareCols tw.d (placeFmt s 0 tw.d)) && sourceCurrent s src tw (placeFmt s 0 tw.d) 1 &&
       scalesClose s src tw (placeFmt s 0 tw.d) 1) = true) ∧
    ∀ ev : Bool,
     let s := coreR { desc := [(0, descOf (rowF32 1 4 ++ [(87, if ev then 3 else 0)])), (1, descOf (placed 0 64 4))] } [(roleA 0 0, 3)]
     let w := fullWord 0x0B (bodyOf [(73, 1), (132, 1), (188, 1), (205, ev.toNat)])
     let src := opdOf s 0 (iTd0 w)
     let tw := opdOf s 0 (iTd1 w)
     (canIssueNew s 0 w && !anySet w writeReserved && !extBad (iExt w 104) && !extBad (iExt w 132) && !bcBad (iBc w) &&
       !dReservedBad tw.d && decide (dLoc tw.d = 2) && (iB205 w == ev) && (ev || memRoleOk false [0, 1] memFmtOk src.d) &&
       decide (min (bcVal s 0 (iBc w)) (dBMax (if ev then tw.d else src.d)) = 1) && (placeRefused s 0 tw.d 1).isNone &&
       ((placeMacs tw.d 1).all fun m => decide (s.role 0 m = 3)) && !iAll w && outRndOk s tw.d && !s.colPos 0 (dMbase tw.d) &&
       decide (placeFmt s 0 tw.d ≠ 2) && decide (min (extVal s 0 (iExt w 132)) (dColsMax tw.d) = 1) &&
       decide (extVal s 0 (iExt w 104) + 1 ≤ dKtc tw.d * 512) &&
       (ev || memExtentOk s false src 1 1 (posLen tw.d false (placeFmt s 0 tw.d)))) = true := by decide +kernel

/-! ### Compute -/

/-- One row of n FP32 activations of 12 planes in the scratchpad. -/
def driven (n : Nat) : List (Nat × Nat) := rowF32 0 n ++ [(71, 12)]
/-- Extents m, n, k and B of 1, and the operands TD_W 0, TD_X 1, TD_Y 2, TD_V 3. -/
def ones : List (Nat × Nat) := [(73, 1), (82, 2), (104, 1), (132, 1), (160, 1), (188, 1)]
/-- A core with a placement at macro 0 with further fields, a driven row, an output row and a placement at macro 1. -/
def productWith (more : List (Nat × Nat)) (r0 r1 : Word) (l : List (Nat × Word)) : State :=
  coreR { desc := (List.range 4).zip [descOf (placed 0 1 1 ++ more), descOf (driven 1), descOf (rowF32 0 1), descOf (placed 1 1 1)] }
    ([(roleA 0 0, r0), (roleA 0 1, r1)] ++ l)
/-- The same with no further field. -/
def productCore (r0 r1 : Word) : State := productWith [] r0 r1 []
/-- Firmware tiling: FW_TILE of the placement and of the core. -/
def fwCore (r0 r1 : Word) : State := productWith [(164, 1)] r0 r1 [(sqA 0 0, 0x80000000)]
/-- K tiles past the extent, so nothing is left for the core. -/
def emptyCore (r0 r1 : Word) : State := productWith [(8, 5)] r0 r1 []

theorem test_witness_MatrixProductsIssue :
    let ok (s : State) (op : BitVec 8) (res : BitVec 256 → List (Nat × Nat)) (fw none : Bool) : Bool :=
      let w := fullWord op (bodyOf ones)
      let x := opdOf s 0 (iTd1 w)
      let a := opdOf s 0 (iTd0 w)
      let y := opdOf s 0 (iTdY w)
      let v := opdOf s 0 (iTdV w)
      let o : Op := { seq := 0, word := w, seg := s.seg 0, ext := ⟨1, 1, 1, 1⟩, opds := [x, a, y, v], md := clampMd 0,
                      shp := kernelShp s 0 (if iOp w = 0x10 then iEpi w else 0) }
      let work := computeWork s 0 { o with mb := dMb a.d, ru := dRepl a.d, wave := dWave a.d }
      !anySet w (res w) && canIssueNew s 0 w && productStatic s 0 w x.d a.d y.d v.d && decide (dPlanes x.d = 12) &&
        decide (dPlanes x.d + dAlnSpan x.d ≤ 24) && decide (computeExtents s 0 w x.d a.d = (⟨1, 1, 1, 1⟩, 0)) && !iAccum w &&
        (placeRefused s 0 a.d 1).isNone && decide (dLoc y.d ≠ 3) && (productDynamic s 0 o).isNone && outInside s work (rowWidth s 0 work) &&
        ((s.regBit (sqA 0 0) 31 && dFwTile a.d) == fw) && (work.nothing == none) && decide (iSide w = 0)
    (ok (productCore 1 0x101) 0x10 matmulReserved false false && ok (fwCore 1 0x101) 0x10 matmulReserved true false &&
      ok (emptyCore 1 0x101) 0x10 matmulReserved false true && ok (productCore 1 0x101) 0x11 (fun _ => matmulTReserved) false false &&
      ok (fwCore 1 0x101) 0x11 (fun _ => matmulTReserved) true false &&
      ok (emptyCore 1 0x101) 0x11 (fun _ => matmulTReserved) false true) = true := by decide +kernel

theorem test_witness_AttendIssues :
    let ok (s : State) (fw none : Bool) : Bool :=
      let w := fullWord 0x12 (bodyOf (ones ++ [(91, 3), (240, 2)]))
      let x := opdOf s 0 (iTd1 w)
      let a := opdOf s 0 (iTd0 w)
      let y := opdOf s 0 (iTdY w)
      let v := opdOf s 0 (iTdV w)
      let st := opdOf s 0 (iTdStat w)
      let o : Op := { seq := 0, word := w, seg := s.seg 0, ext := ⟨1, 1, 1, 1⟩, opds := [x, a, y, v, st], md := clampMd 0,
                      imm := [s.reg (shpA 0 (iPosShp w))], shp := kernelShp s 0 (iEpi w) }
      let work := computeWork s 0 { o with mb := dMb a.d, ru := dRepl a.d, wave := dWave a.d }
      !anySet w (hdrReserved ++ [(100, 4), (205, 1)]) && canIssueNew s 0 w && attendStatic s 0 w x.d a.d y.d v.d st.d &&
        decide (dPlanes x.d = 12) && decide (dPlanes x.d + dAlnSpan x.d ≤ 24) && decide (computeExtents s 0 w x.d a.d = (⟨1, 1, 1, 1⟩, 0)) &&
        (attendRefused s 0 a.d v.d 1).isNone && decide (dLoc y.d ≠ 3) && attendFits o && outInside s work (rowWidth s 0 work) &&
        ((s.regBit (sqA 0 0) 31 && dFwTile a.d) == fw) && (work.nothing == none)
    (ok (productCore 0x22 0x102) false false && ok (fwCore 0x22 0x102) true false &&
      ok (productWith [(136, 1), (142, 1)] 0x22 0x102 []) false true) = true := by decide +kernel

theorem test_witness_ReduceIssues :
    let s := productCore 0 0
    let w := fullWord 0x13 (bodyOf [(73, 1), (82, 2), (104, 1), (132, 1), (188, 1)])
    let x := opdOf s 0 (iTd1 w)
    let y := opdOf s 0 (iTdY w)
    (!anySet w (hdrReserved ++ [(64, 9), (91, 9), (100, 4), (160, 28), (221, 35)]) && canIssueNew s 0 w && reduceStatic s w x.d y.d &&
      decide (computeExtents s 0 w x.d 0 = (⟨1, 1, 0, 1⟩, 0)) && memExtentOk s false x 1 1 1 && reduceOutOk s (isDest s 0 0) w y 1 1 &&
      decide (dTag x.d = 0) && !iB205 w && (reductionOf s 0 0).isNone && decide ((s.core 0).node.used < 512) &&
      ((s.core 0).node.find ⟨0, 0, 0, 0, 0⟩).isNone) = true := by decide +kernel

/-- The operands of UPDATE with kernel 1 in HBM: gradient, masters, narrow image. -/
def updCore : State :=
  withImage { bare with pingpong := { (default : PingPongSect) with
    regions := [⟨0x10000, 0x100000, 0x1000, 0, 0⟩, ⟨0x20000, 0x100000, 0x1000, 1, 0⟩, ⟨0x30000, 0x100000, 0x1000, 2, 0⟩] } }
    (coreR { desc := (List.range 3).zip [descOf (rowF32 1 1), descOf ((0, 0x10000) :: rowF32 1 1),
      descOf [(0, 0x20000), (68, 1), (69, 2), (82, 0), (86, 1), (87, 2), (94, 1), (128, 0x30000), (192, 1), (220, 1), (256, 4), (320, 1)]] } [])

theorem test_witness_VectorInstructionsIssueAndAreBounded :
    (let g : CoreSect := { (default : CoreSect) with kernels := [⟨0, 32, 0, 0⟩] }
     let s := coreR { cfg := some g, desc := [(0, descOf (rowF32 0 1))] } []
     let w := fullWord 0x18 (bodyOf [(64, 1), (104, 1), (132, 1), (188, 1)])
     let a := opdOf s 0 (iVa w)
     (canIssueNew s 0 w && !anySet w vectorReserved && !moveExtBad w && decide (iKernel w ≠ 0) && kernelOk s 0 (iKernel w) &&
       memRoleOk false [0, 1] memFmtOk a.d && decide (opdOf s 0 (iVb w) = a) && decide (opdOf s 0 (iVc w) = a) && !iB205 w &&
       outputOk s true a.d && decide (moveExtents s 0 w a.d = (⟨1, 1, 0, 1⟩, 0)) && memExtentOk s false a 1 1 1 &&
       memExtentOk s true a 1 1 1) = true) ∧
    (let s := updCore
     let w := fullWord 0x19 (bodyOf [(64, 1), (81, 1), (90, 2), (104, 1), (132, 1), (188, 1), (212, 0x3F800000)])
     let o := updOpds s 0 w
     let op : Op := { seq := 0, word := w, seg := s.seg 0, ext := ⟨1, 1, 0, 1⟩, opds := o, items := (List.range 1).map .upd }
     (canIssueNew s 0 w && !anySet w (vectorReserved ++ [(205, 1)]) && !moveExtBad w && updateStatic s 0 w &&
       decide (moveExtents s 0 w (nth (opdOf s 0 0) o 0).d = (⟨1, 1, 0, 1⟩, 0)) && updateDynamic s op &&
       ((updRegions s op).all fun r => !updatedLast s r.1)) = true) ∧
    (let op : Op := { seq := 0, word := 0x18, seg := 0, ext := ⟨1, 1, 0, 1⟩, opds := [], items := [.vec 0] }
     let s := coreR { ops := [op] } []
     (s.core 0).op 0 = some op ∧ iOp op.word = 0x18 ∧ op.items ≠ []) ∧
    (let op : Op := { seq := 0, word := fullWord 0x10 (bodyOf [(208, 1)]), seg := 0, ext := ⟨1, 1, 1, 1⟩, opds := [], todo := [(0, 0)] }
     let s := coreR { ops := [op] } []
     (s.core 0).op 0 = some op ∧ iOp op.word = 0x10 ∧ iEpi op.word ≠ 0 ∧ op.todo ≠ []) := by decide +kernel

theorem test_witness_PlansAreAnsweredOrTimeOut :
    let r : TileRule := { (default : TileRule) with mHi := 9, nHi := 9, kHi := 9, bHi := 9, planMb := 1, planRu := 1 }
    let ok (a : BitVec 512) (none : Bool) : Bool :=
      let o (d : BitVec 512) : Opd := { td := 0, d := d, pitch := 4, bStride := 0, sideStride := 0 }
      let op : Op := { seq := 0, word := 0x10, seg := 0, ext := ⟨1, 1, 1, 1⟩, opds := [o (descOf (driven 1)), o a, o (descOf (rowF32 0 1))],
                       planWait := true }
      let s := coreR { cfg := some { (default : CoreSect) with policies := [(0, [r])] }, ops := [op] } []
      let work := computeWork s 0 { op with planWait := false, mb := r.planMb, ru := r.planRu, wave := r.planWave }
      decide ((s.core 0).op 0 = some op) && decide ((rulesOf s 0 0).find? (fun r => ruleCovers r op.ext) = some r) &&
        outInside s work (rowWidth s 0 work) && decide (op.items = []) && (work.nothing == none) && decide (iSide op.word = 0)
    let op : Op := { seq := 0, word := 0x10, seg := 0, ext := ⟨1, 1, 1, 1⟩, opds := [], planWait := true }
    let t := coreR { ops := [op] } []
    (ok (descOf (placed 0 1 1)) false && ok (descOf (placed 0 1 1 ++ [(8, 5)])) true) = true ∧
    ((t.core 0).op 0 = some op ∧ op.planWait = true ∧ (rulesOf t 0 0).find? (fun r => ruleCovers r op.ext) = none ∧
      t.fx.cur.events.length < 64) := by
  decide +kernel

theorem test_witness_DoneInstructionsCompleteAndReleasedAccessesProceed :
    let opd : Opd := { td := 0, d := descOf (rowF32 1 1), pitch := 4, bStride := 0, sideStride := 0 }
    let done : Op := { seq := 0, word := 0x08, seg := 0, ext := ⟨1, 1, 0, 1⟩, opds := [] }
    let busy : Op := { done with opds := [opd], items := [.shpLoad] }
    let upd : Op := { done with word := 0x19 }
    let s := coreR { ops := [done] } []
    let t := coreR { ops := [busy], waits := [(5, some 0)] } []
    let u := { coreR { ops := [upd] } [] with regs := [(nmCtrl, 0x4020)] }
    let p : Packet := { pkt 1 with addr := 0x400000000000 + 5 * 256 }
    let v : State := { coreR { waits := [(5, none)] } [] with chip := { ({} : ChipSt) with waitWr := [p] } }
    ((s.core 0).op 0 = some done ∧ iOp done.word = 0x08 ∧ opDone s 0 done = true) ∧
    ((t.core 0).op 0 = some busy ∧ opDone t 0 busy = false) ∧
    ((u.core 0).op 0 = some upd ∧ iOp upd.word = 0x19 ∧ opDone u 0 upd = true ∧ u.regBit nmCtrl 1 = false) ∧
    (((t.core 0).waits.find? fun w => w.1 = 5 && waitOver t 0 w) = some (5, some 0) ∧ busy.items = .shpLoad :: [] ∧
      firstWait t 0 (iTask busy.word) (itemAcs t 0 busy .shpLoad) = none ∧ busy.planWait = false ∧ t.pwr.cap = false) ∧
    ((v.core 0).waits.find? fun w => w.1 = 5 && waitOver v 0 w) = some (5, none) ∧ v.chip.waitWr.head? = some p ∧
      localAddr v p.addr = .spad 0 1280 ∧ 1280 / 256 = 5 := by decide +kernel

theorem test_witness_TilesSwapAndDrain :
    let x : Tile := { (default : Tile) with wide := [1], sat := [false], residue := [1], exps := [0], outs := [some 0], dscale := 0x3F800000 }
    let op : Op := { seq := 0, word := 0x10, seg := 0, ext := ⟨1, 1, 1, 1⟩, opds := [] }
    let s := coreR { macros := [(0, { ({} : MacroSt) with live := some x })] } []
    let t := coreR { macros := [(0, { ({} : MacroSt) with live := some x, mirage := some x, walk := [x] })] } []
    let u := coreR { ops := [op], macros := [(0, { ({} : MacroSt) with mirage := some x })] } []
    let v := coreR { macros := [(0, { ({} : MacroSt) with live := some { x with passes := 1 }, walk := [x] })] } []
    ((macSt s 0 0).live = some x ∧ x.passes = 0 ∧ (macSt s 0 0).mirage = none) ∧
    ((macSt t 0 0).live = some x ∧ (macSt t 0 0).mirage ≠ none ∧ (macSt t 0 0).walk ≠ [] ∧ (macSt t 0 0).stalled = false) ∧
    ((macSt v 0 0).live = some { x with passes := 1 } ∧ (macSt v 0 0).mirage = none ∧
      (macSt v 0 0).walk.find? (fun y => y.passes = 0) = some x) ∧
    (unitErrOf u (4 * 0) = 0 ∧ (u.core 0).node.used + (drainTile 0 0 x u).terms.length ≤ 512 ∧ x.expected ≤ 2 ^ 20 ∧
      ∀ a ∈ (u.core 0).node.accs, a.expected ≤ 2 ^ 20) ∧
    portMacro u 0 0 = some 0 ∧ (macSt u 0 0).mirage = some x ∧ (u.core 0).op x.seq = some op ∧
      wideCheck 64 x (wideRead u (u.pmIx 0 0) 64 x) = [] ∧ ((drainTile 0 0 x u).terms.map (·.1)).Nodup ∧
      (drainTile 0 0 x u).terms ≠ [] ∧ ∀ y ∈ (drainTile 0 0 x u).terms, f32Finite y.2 = true := by decide +kernel

theorem test_witness_NodesSendWholeElements :
    let k : ElemKey := ⟨0, 0, 0, 0, 0⟩
    let a : Acc := { key := k, op := 0, expected := 1, received := 1, segs := [⟨0, 1, 0⟩], best := none, md := 0, tdIn := 0, ext := ⟨1, 1, 1, 1⟩ }
    let b : Acc := { a with expected := 2 }
    let l : Acc := { a with expected := 2 ^ 20 + 1, received := 2 ^ 20, segs := [⟨0, 2 ^ 20, 5⟩] }
    let r : Reduction := { (default : Reduction) with members := [(0, 0, 0), (64, 0, 0)] }
    let op : Op := { seq := 0, word := 0x18, seg := 0, ext := ⟨2, 1, 1, 1⟩, opds := [] }
    let s (a : Acc) (ops : List Op) := coreR { ops := ops, node := { ({} : Node) with accs := [a] } } []
    let i := withImage { bare with reductions := [r] } (s a [])
    let d : State := { i with dieNodes := [(0, { ({} : Node) with accs := [a] })] }
    (((s b []).node (.core 0)).find k = some b ∧ b.full = false) ∧
    ((i.core 0).node.find k = some a ∧ a.full = true ∧ elemReduction i k = some r ∧ rootOf i r ≠ some (.core 0) ∧ a.op = 0 ∧
      f32Finite a.out.1 = true ∧ f32Finite a.out.2.1 = true ∧ a.out.2.2.2 = false ∧ (i.core 0).node.waits = [] ∧
      unitErrOf i (nodeUnit (.core 0)) = 0 ∧ netFlipOf i 0 = 0 ∧
      nodeWaits (.die 0) (i.node (.die 0)) (upward a (dieExpects i r a.ext k.n 0) (corePos i r 0) 0) = false) ∧
    ((d.node (.die 0)).waits = [] ∧ unitErrOf d (nodeUnit (.die 0)) = 0 ∧ netFlipOf d 12 = 0 ∧
      nodeWaits .hub d.hubNode (upward a (hubExpects d r a.ext k.n) (diePos r 0) 0) = false) ∧
    ((d.node (.die 0)).find k = some a ∧ rootOf d r = some .hub) ∧
    ((((s a [op]).node (.core 0)).find k = some a ∧ ((elemReduction (s a [op]) k).map fun r => rootOf (s a [op]) r).getD (some (.core 0)) = some (.core 0) ∧
      a.lostMd = 0 ∧ ((s a [op]).core k.core).op k.seq = some op ∧ iOp op.word ≠ 0x13 ∧ op.items = [] ∧
      op.rows = [] ∧ rowWidth (s a [op]) k.core op ≠ 1 ∧ iSide op.word = 0 ∧ ((s a [op]).node (.core 0)).waits = [] ∧
      unitErrOf (s a [op]) (nodeUnit (.core 0)) = 0) ∧
    ((s l []).node (.core 0)).find k = some l ∧ l.canFold = true) := by decide +kernel

/-! ### Votes, results and commit -/

/-- A vote or a result for frame 0. -/
def vote0 (kind flags : BitVec 8) : VotePl := ⟨0, kind, flags, 0, 0, 1, 0⟩
/-- A VOTE packet from module 1, in the frame of the module below. -/
def votePkt (ftag : BitVec 8) (pl : VotePl) : Packet :=
  sealed { ptype := 6, dst := 0, src := 1, ftag := ftag, vote := some pl }
/-- A root of a domain of two, with a child behind link 0, at tick 1 after the frame of tick 0. -/
def voter (own : Option VotePl) : State :=
  let c := { routed with domain := { (default : DomainSect) with members := [0, 1], children := [(1, 0)] } }
  let s := withImage c (linkR ready)
  { s with tk := { ({} : TickSt) with fn := 1 }, fx := { ({} : CommitSt) with own := own } }

theorem test_witness_VotesAreJoinedUpTheTree :
    let s := voter (some (vote0 0 0))
    let d : DomainSect := { (default : DomainSect) with members := [0, 1], children := [(1, 0)] }
    let p := votePkt s.ftag (vote0 0 0)
    (voting s = true ∧ s.fx.halt = 0) ∧ voting ready = false ∧
    (comesNext s 0 p {} = true ∧ p.ptype = 6 ∧ p.dst = s.moduleId ∧ p.ftag = s.ftag ∧ p.vote = some (vote0 0 0) ∧ s.domain = some d ∧
      (p.src, 0) ∈ d.children ∧ s.fx.noVote.contains s.fx.prev.fn = false ∧ (vote0 0 0).kind = 0 ∧
      s.fx.sentFor ≠ some s.fx.prev.fn ∧ (vote0 0 0).fn = s.fx.prev.fn) ∧
    (let q := votePkt (s.ftag + 1) (vote0 0 0)
     comesNext s 0 q {} = true ∧ q.ptype = 6 ∧ q.dst = s.moduleId ∧ q.vote.isSome = true ∧ q.ftag ≠ s.ftag) ∧
    (s.fx.own = some (vote0 0 0) ∧ d.children.filterMap (fun c => (s.fx.children.find? fun x => x.1 = c.1).map (·.2)) = [] ∧
      ([] : List VotePl).length ≠ d.children.length) ∧
    (let c : State := s.modFx fun f => { f with children := [(1, vote0 0 0)] }
     d.children.filterMap (fun c' => (c.fx.children.find? fun x => x.1 = c'.1).map (·.2)) = [vote0 0 0] ∧ d.parent = none ∧
       (vote0 0 0).voters + sumN ([vote0 0 0].map (·.voters)) = d.members.length ∧ voteHop c 1 0 = some 0 ∧
       ∀ x ∈ c.fx.results, x.fn ≠ c.fx.prev.fn) := by decide +kernel

/-- A child of a domain of two, whose parent is behind link 0. -/
def childVoter : State :=
  let c := { routed with domain := { (default : DomainSect) with members := [0, 1], parent := some (1, 0) } }
  let s := withImage c (linkR ready)
  { s with tk := { ({} : TickSt) with fn := 1 }, fx := { ({} : CommitSt) with own := some (vote0 0 0) } }
/-- A module in the middle of a domain of three: its parent behind link 0, its child behind link 1. -/
def middleVoter : State :=
  let c := { routed with
    route := { routed.route with vc1 := [(0, ⟨[], true, 0⟩), (1, ⟨[0], false, 1⟩), (2, ⟨[1], false, 1⟩)] }
    domain := { (default : DomainSect) with members := [0, 1, 2], parent := some (1, 0), children := [(2, 1)] } }
  let s := withImage c (readyR [(linkA 0 0, 0x1F2), (linkA 1 0, 0x1F2)])
  { s with tk := { ({} : TickSt) with fn := 1 } }

theorem test_witness_ResultsAreKeptForwardedAndAnswered :
    let comes (s : State) (p : Packet) (pl : VotePl) : Prop := comesNext s 0 p {} = true ∧ p.ptype = 6 ∧ p.dst = s.moduleId ∧ p.ftag = s.ftag ∧
      p.vote = some pl
    (let s := middleVoter
     comes s (votePkt s.ftag (vote0 1 0)) (vote0 1 0) ∧ (s.domain.bind (·.parent)).map (·.1) = some 1 ∧ (∀ x ∈ s.fx.results, x.fn ≠ 0) ∧
       voteHop s 2 1 = some 1) ∧
    (let s := voter none
     comes s (votePkt s.ftag (vote0 1 0)) (vote0 1 0) ∧ (s.domain.bind (·.parent)).map (·.1) ≠ some 1) ∧
    (let t : State := (voter none).modFx fun f => { f with results := [vote0 1 0] }
     comes t (votePkt t.ftag (vote0 2 0)) (vote0 2 0) ∧ neighbourLink t 1 = some 0 ∧
       (t.fx.results.find? fun r => r.fn = 0) = some (vote0 1 0) ∧ voteHop t 1 0 = some 0) ∧
    (let s := voter none
     comes s (votePkt s.ftag (vote0 2 0)) (vote0 2 0) ∧ (∀ x ∈ s.fx.results, x.fn ≠ 0)) ∧
    (let s := voter none
     comes s (votePkt s.ftag (vote0 3 0)) (vote0 3 0) ∧ (neighbourLink s 1).isSome = true ∧ (∀ x ∈ s.fx.results, x.fn ≠ 0)) := by
  decide +kernel

/-- An idle link sends a vote or a result at once: the last hypotheses of the two statements above. -/
theorem test_witness_credit : (∃ k, voteHop childVoter 1 0 = some k ∧ childVoter.sendsVote k) ∧ middleVoter.sendsVote 1 ∧
    (voter none).sendsVote 0 := by
  have h (s : State) (k : Nat) (h0 : s.link k = {}) : s.sendsVote k := by
    refine ⟨by rw [h0], by rw [h0], by rw [h0], by rw [h0], fun q h => ?_⟩
    simp [h0, LinkSt.canSend, vcOf, packetUnits, packetBytes, h, cdiv]
  exact ⟨⟨0, by decide +kernel, h _ _ (by decide +kernel)⟩, h _ _ (by decide +kernel), h _ _ (by decide +kernel)⟩

/-- A result waits for the frame of tick 0, which ran a program. -/
def judged (flags : BitVec 8) : State :=
  { voter none with fx := { ({} : CommitSt) with
      received := [vote0 1 flags], prev := { ({} : FrameRec) with kind := .program }, cur := { ({} : FrameRec) with fn := 1, kind := .program } } }

theorem test_witness_CommitMakesTheFramesVersionsCurrent :
    let s := judged 0
    nextResult s = some (vote0 1 0, s.fx.prev) ∧ s.fx.old = [] ∧ (vote0 1 0).flags = 0 ∧ (vote0 1 0).actions = 0 ∧ s.img.pend = none ∧
      s.fx.prev.kind ≠ .quiet ∧ s.fx.prev.inPlace = false ∧ s.fx.prev.units.Nodup := by decide +kernel

theorem test_witness_ReplayAndHaltDiscardTheOpenFrames :
    (∀ f ∈ ([1, 2, 3] : List (BitVec 8)), nextResult (judged f) = some (vote0 1 f, (judged f).fx.prev)) ∧ (judged 1).fx.old = [] ∧
      (judged 1).img.pend = none ∧ (judged 1).fx.halt = 0 := by decide +kernel

/-! ### Images -/

/-- A PRODUCTION module with slot 0 as given. -/
def slotR (x : SlotSt) : State :=
  { readyR [(clId, 0x80000000), (secLc, 2)] with img := { ({} : ImageSt) with slots := [x, {}, {}, {}] } }
/-- A header that R252 accepts: one section, its table at byte 256, one page long. -/
def header : Mem :=
  [(0, 0x31), (1, 0x49), (2, 0x53), (3, 0x47), (4, 2), (6, 0x13), (7, 0x0D), (11, 1), (12, 1), (17, 0x10), (25, 1)]

theorem test_witness_ImagesAreVerifiedAndReleased :
    (let s := slotR {}
     servesNow s 9 = true ∧ s.img.slots.length = 4 ∧ s.lcState = 2 ∧ s.rebootReq = false ∧ s.debugOpen = false ∧
       (s.slot 3).state = 0 ∧ 0 % 4096 = 0 ∧ 0 + 4096 ≤ s.img.hbmBytes ∧ ∀ i, i < 4 → i ≠ 3 → (s.slot i).state = 0) ∧
    (servesNow ready 9 = true ∧ ready.lcState ≠ 2) ∧
    (let s := { slotR { state := 1, len := 4096 } with hbm := header }
     (s.slot 0).state = 1 ∧ headerOk s (s.slot 0) = true ∧ s.sec.opKey = none ∧ s.port.events.length < 256) ∧ ((slotR { state := 2 }).slot 0).state = 2 ∧ servesNow (slotR { state := 3 }) 9 = true ∧
      ((slotR { state := 3 }).slot 0).state = 3 := by decide +kernel

theorem test_witness_ActivationsAreScheduled :
    let g := { bare with kind := 1 }
    let ok (c : ImageContent) : State := slotR { state := 2, content := some c }
    let act : State := { ok g with img := { (ok g).img with whole := some 1, slots := [{ state := 2, content := some g }, { state := 3, content := some bare }, {}, {}] } }
    let big := { bare with require := { (default : CapRec) with hbmBytes := 2 ^ 60 } }
    (servesNow (ok bare) 1 = true ∧ (ok bare).slotContent 0 = some bare ∧ bare.kind = 0 ∧ (ok bare).lcState = 2 ∧ ((ok bare).slot 0).state = 2 ∧
      (ok bare).fn.toNat + 3 ≤ 3 ∧ 3 < 2 ^ 64 ∧ (ok bare).img.pend = none ∧ withinCapacity (ok bare) bare.require = true) ∧
    (act.slotContent 0 = some g ∧ g.kind = 1 ∧ act.image = some bare ∧ bare.sharedId = g.sharedId ∧ shiftOk 0 g = true) ∧
    ((ok big).slotContent 0 = some big ∧ withinCapacity (ok big) big.require = false) ∧ 2 < (ok bare).fn.toNat + 3 := by decide +kernel

theorem test_witness_ActivationTakesEffectAtItsTick :
    let p : Pend := ⟨0, 1, 0, 0, true, true⟩
    let s := slotR { state := 2, content := some bare }
    let t : State := { s with img := { s.img with pend := some p } }
    (t.img.pend = some p ∧ p.a = t.fn + 1 ∧ p.go = true ∧ p.whole = true ∧ t.img.slots.length = 4 ∧ p.slot < 4 ∧ t.slotContent p.slot = some bare) ∧
      s.img.pend = none := by decide +kernel

/-! ### Recovery and self-test -/

/-- Module 0 with a retirement to carry out. -/
def retiring (u p i : Nat) (started : Bool) : State :=
  { readyR [(roleA 0 0, 3)] with fx := { ({} : CommitSt) with retires := [⟨u, 0, p, i, started, 0⟩] } }

theorem test_witness_FailedUnitsAreRetiredAndReplaced :
    (let s := retiring 0 0 0 false
     nextRetire s [0] = some ⟨0, 0, 0, 0, false, 0⟩ ∧ mayRetire s = true ∧ logicalOf s 0 0 = some 0 ∧ (s.core 0).rotation = none ∧
       ((List.range (SMap.get (fun _ => 256) s.img.macros 0)).find? fun l => s.regFld (roleA 0 l) 8 9 = 0) = some 0 ∧
       SMap.get (fun _ => 0) s.bist.pmacroOf (0 * 256 + 0) = 0 ∧
       freeSpare ((s.markRetired 0 (s.pcIx 0 * 264 + 0)).setBit fxSticky 3) 0 [] = some 256 ∧ s.role 0 0 = 3 ∧
       badWords s (s.pcIx 0 * 264 + 0) = [] ∧ Mem.wf s.mac = true) ∧ nextRetire ready [0] = none ∧
    (let s := retiring 1 0 0 false
     nextRetire s [1, 2] = some ⟨1, 0, 0, 0, false, 0⟩ ∧ mayRetire s = true ∧ logicalOf s 0 0 = some 0 ∧
       freeCore ((s.setBit fxSticky 3).markRetired 26144 (0 * 66 + 0)) 0 = some 64 ∧ Mem.wf s.spad = true ∧ s.err.spFlip = []) ∧
    (let s := ({ retiring 2 0 0 false with img := { (retiring 2 0 0 false).img with whole := some 0 } } : State).setFld (spA 0 0x20) 0 2 0
     nextRetire s [1, 2] = some ⟨2, 0, 0, 0, false, 0⟩ ∧ offBank s ⟨2, 0, 0, 0, false, 0⟩ = true ∧
       logicalOf s 0 0 = some 0) ∧
    (let s := retiring 5 0 7 false
     nextRetire s [5] = some ⟨5, 0, 0, 7, false, 0⟩ ∧ mayRetire s = true ∧ s.err.hbmBad = []) ∧
    ((retiring 0 0 0 true).fx.retires.find? fun r => r.started) = some ⟨0, 0, 0, 0, true, 0⟩ := by decide +kernel

/-- Core 0 with a rotation step. -/
def rotating (r : Option Rotation) : State :=
  { retiring 0 0 0 true with
    cores := [(0, { ({} : Core) with rotation := r })], tk := { ({} : TickSt) with fn := 2 },
    fx := { ({} : CommitSt) with results := [vote0 1 0] } }

theorem test_witness_MacrosRotateAndCoresAreTested :
    (let s := rotating none
     (s.core 0).rotation = none ∧ rotationNext s 0 = some 0 ∧ s.regFld biCtrl 0 16 ≠ 0 ∧ dieHeldNow s 0 = false ∧ s.coreOffered 0 = true ∧
       Mem.wf s.mac = true ∧ ((List.range (s.macrosOf 0)).find? fun l => s.regFld (roleA 0 l) 8 9 = 0 && s.role 0 l ≠ 0) = some 0 ∧
       commitTick s = true ∧ freeSpare s 0 [] = some 256 ∧ badWords s (s.pcIx 0 * 264 + 0) = [] ∧ s.regBit biCtrl 16 = true ∧
       coreTestNext s 0 = some 0 ∧ nth none s.bist.coreTest 0 = none ∧ s.bist.coreTest.length = 12) ∧
    (rotationNext ready 0 = some 0 ∧
      ((List.range (ready.macrosOf 0)).find? fun l => ready.regFld (roleA 0 l) 8 9 = 0 && ready.role 0 l ≠ 0) = none) ∧
    ((rotating (some ⟨0, some 0, 256, false, false⟩)).core 0).rotation = some ⟨0, some 0, 256, false, false⟩ ∧
    ((rotating (some ⟨0, none, 0, false, false⟩)).core 0).rotation = some ⟨0, none, 0, false, false⟩ ∧
    (let s := rotating (some ⟨0, some 0, 256, true, false⟩)
     (s.core 0).rotation = some ⟨0, some 0, 256, true, false⟩ ∧ commitTick s = true ∧ badWords s (s.pcIx 0 * 264 + 256) = []) ∧
    ((rotating (some ⟨0, some 0, 256, false, true⟩)).core 0).rotation = some ⟨0, some 0, 256, false, true⟩ ∧
    (let s := ready.modBist fun b => { b with coreTest := some 64 :: List.replicate 11 none }
     s.bist.coreTest.length = 12 ∧ nth none s.bist.coreTest 0 = some 64) := by decide +kernel

/-! ### The Drundoha ports -/

/-- The header of a READ of 1,632 bytes of kind 3, byte by byte from Table 15.1. -/
theorem test_frame_header : frameHead { fr0 3 3 0x660 with tag := 0x0000A11C, addr := 0x710000000008, core := 0xC8 } =
    [3, 0, 0, 3, 0x1C, 0xA1, 0, 0, 0, 0, 0, 0, 0, 0, 0, 0, 8, 0, 0, 0, 0, 0x71, 0xC8, 0, 0x60, 6, 0, 0, 0, 0, 0, 0] := by decide +kernel

/-- The check value of the CRC-32 of IEEE 802.3: that of the characters 1 to 9. -/
theorem test_crc32 : crc32 [0x31, 0x32, 0x33, 0x34, 0x35, 0x36, 0x37, 0x38, 0x39] = 0xCBF43926 := by decide +kernel

/-- An answer kept with TAG 4. -/
def ans4 : Answer := { tag := 4, op := 0, status := 0, fn := 0 }

theorem test_witness_CommandsAreQueuedAndTaken :
    (let f := wire { fr0 1 3 0 with tag := 4, args := .imgRelease 1 }
     ready.hears 0 f = true ∧ f.ftype = 1 ∧ servesNow ready f.tag = true ∧ cmdOf f = .imgRelease 1 ∧ ready.port.fifo.length < 64) ∧
    (let s := ready.modPort fun p => { p with fifo := List.replicate 64 ⟨0, 1, .fxResume 0⟩ }
     servesNow s 4 = true ∧ 64 ≤ s.port.fifo.length) ∧ 3 ≤ ready.stage ∧ (fr0 1 3 0).crc ≠ frameCrc (fr0 1 3 0) ∧
    ((ready.modPort fun p => { p with answers := [ans4] }).port.answers.find? fun a => a.tag = 4) = some ans4 ∧
    (let s := ready.modFx fun f => { f with halt := 3 }
     servesNow s 4 = true ∧ (s.fx.halt = 1 ∨ s.fx.halt = 3) ∧ s.fn.toNat + 3 ≤ 3 ∧ 3 < 2 ^ 64 ∧ 2 < s.fn.toNat + 3 ∧ s.fx.halt ≠ 0 ∧
       16383 < 16384) ∧ ready.fx.halt = 0 ∧ 63 < 64 ∧ 64 ≤ 64 := by decide +kernel

/-- The active image allows nothing into its staging range and has one ping-pong region. -/
def staged : State :=
  let g : PingPongSect := ⟨0x100000, 0x1000, [⟨0, 8192, 8192, 0, 0⟩], 0, 0, 0, []⟩
  withImage { bare with pingpong := g } ready

theorem test_witness_HostWritesAreStoredOrStaged :
    (ready.active = false ∧ 0 + 1 ≤ ready.img.hbmBytes ∧ runLocked ready 0 1 = false) ∧
    (inStaging staged 0x100FFF 1 = true ∧ runLocked staged 0x100FFF 1 = false) ∧
    (let s := slotR { state := 1, len := 4096 }
     let f := wire { fr0 2 0 1 with data := [7], addr := 4095 }
     servesNow s f.tag = true ∧ s.hears 0 f = true ∧ f.ftype = 2 ∧ runLocked s 4095 1 = true) ∧
    (let f := wire { fr0 2 0 2 with data := [7, 8] }
     servesNow staged f.tag = true ∧ staged.hears 0 f = true ∧ ready.hears 0 f = true ∧ f.data.length = 2 ∧ runLocked staged 0 2 = false ∧ staged.active = true ∧
      inStaging staged 0 2 = false ∧ inStaging staged 0 1 = false ∧ inWeights staged 0 2 = false ∧ stageBytes staged + 2 ≤ 8388608) := by decide +kernel

/-- The stage can hold any number of bytes, so it can be full. -/
theorem test_witness_full_stage (n : Nat) : ∃ l : List Byte, l.length = n ∧
    stageBytes (staged.modPort fun p => { p with stage := [⟨0, 0, 0, l⟩] }) = n := by
  refine ⟨List.replicate n 0, List.length_replicate, ?_⟩
  have h : staged.fx.old ++ [staged.fx.prev, staged.fx.cur] = [{}, {}] ∧ staged.fx.rework = [] := by decide +kernel
  simp [stageBytes, State.modPort, h.1, h.2, sumN]

/-- Core 0 with two logical slots at slot 0, the first FULL. -/
def slotted : State :=
  let s := withImage bare (readyR [(spA 0 0x18, 0x20000)])
  { s with port := { s.port with resultTags := [(0, true)] } }

theorem test_witness_ResultSlotsAreReadOnce :
    (∀ x ∈ [(0, true), (1, false)], servesNow slotted 1 = true ∧ slotted.portUp 0 = true ∧ slotsOk slotted 0 x.1 4 = true ∧
      slotted.resultFull 0 x.1 = x.2 ∧ (slotted.core 0).gather = [] ∧
      ∀ i, i < 4 → (verBase slotted 0 + x.1) * 256 + i < spSize ∧
        bankPwr slotted 0 (((verBase slotted 0 + ((slotted.core 0).verOf x.1).cur * verCount slotted 0 + x.1) * 256 + i) / 64 % 32) = 2 ∧
        spFlip slotted 0 ((verBase slotted 0 + ((slotted.core 0).verOf x.1).cur * verCount slotted 0 + x.1) * 256 + i) = 0) ∧
    (∀ op ∈ [0, 1], ∀ k ∈ [0, 1, 2], let f := wire { fr0 3 op 4 with addr := k }
      slotted.hears 0 f = true ∧ f.ftype = 3 ∧ f.len ≤ 256 ∧ f.core = 0 ∧ f.addr % 2 ^ 14 = k) ∧
    slotsOk slotted 0 2 1 = false ∧ slotsOk ready 0 0 1 = false ∧ ready.port.waitConsume = [] ∧
    (∀ x ∈ [(0, true), (1, false)],
      let s := slotted.modPort fun p => { p with waitConsume := [⟨0, 0, 1, 0, x.1, 1⟩] }
      let t := s.modTk fun k => { k with fn := 1 }
      t.port.waitConsume = [⟨0, 0, 1, 0, x.1, 1⟩] ∧ (0 : DWord) < t.fn ∧ slotsOk t 0 x.1 1 = true ∧ allFull t 0 x.1 1 = x.2) := by
  decide +kernel

theorem test_witness_HostReadsAreAnswered :
    (0 + 4 ≤ ready.img.hbmBytes ∧ ∀ i, i < 4 → hbmBad ready (hbmReadAddr ready (0 + i)) = false ∧ ready.unitAt (0 + i) = none ∧
      staged.unitAt (0 + i) ≠ none) ∧
    (let s := (slotR {}).modSec fun x => { x with identity := some 1 }
     let f := wire (fr0 3 4 832)
     servesNow s f.tag = true ∧ s.hears 0 f = true ∧ canAttest s = true) ∧
    (∀ f ∈ [fr0 3 2 4, fr0 3 3 1632, fr0 3 4 831, fr0 4 0 0], ready.hears 0 (wire f) = true) ∧ canAttest ready = false ∧ ready.port.waitAttest = [] ∧
    (let s := { ((slotR {}).modSec fun x => { x with identity := some 1 }).modPort
        (fun p => { p with waitAttest := [⟨0, 0, 1, 0, 5, 832⟩] }) with tk := { ({} : TickSt) with fn := 1 } }
     s.port.waitAttest = [⟨0, 0, 1, 0, 5, 832⟩] ∧ (0 : DWord) < s.fn ∧ s.safe = 0 ∧ 7 ≤ s.stage ∧ s.sec.identity = some 1) ∧
    ready.latch (portPath 0) = none := by decide +kernel

theorem test_witness_EventsReachTheHost :
    (ready.hears 0 (wire { fr0 5 0 8 with data := [9, 0, 0, 0, 0, 0, 0, 0] }) = true ∧ ready.portUp 1 = false ∧ 3 ≤ ready.stage ∧ ready.safe = 0 ∧ ready.eventsOk = true) ∧
    (let s := ready.modPort fun p => { p with events := [⟨1, ⟨4, 0, 0, 0, 0, 0, false⟩, true⟩], lostPending := true }
     s.portUp 0 = true ∧ s.port.lostPending = true ∧ s.port.events = [⟨1, ⟨4, 0, 0, 0, 0, 0, false⟩, true⟩]) ∧
    (let s := State.reset
     s.portUp 0 = false ∧ s.portUp 1 = false) := by decide +kernel

/-! ### Security and bring-up -/

/-- A MANUFACTURE module with hold-up energy and a store of one page waiting. -/
def storing (checked : Bool) (energy : Word) : State :=
  (readyR [(nvHoldup, energy)]).modSec fun x => { x with queue := [⟨5, 1, 0, [(12, [7])], none, checked⟩] }

theorem test_witness_StoresWritePagesOneAtATime :
    (let pl := nvPayload (5 :: List.replicate 19 0)
     servesNow ready 1 = true ∧ pl.src = 0 ∧ pl.rsvZero = true ∧ pl.group ∈ [1, 4, 5, 6] ∧ groupAllowed ready.lcState pl.group = true ∧
       ((storePages ready pl.group []).any fun x => pageWorn ready x.1) = false ∧ ready.lcBusy = false ∧ ready.sec.queue = [] ∧
       ready.sec.running = false) ∧
    (let pl := nvPayload ([8, 1] ++ List.replicate 14 0 ++ [1, 0, 0, 0])
     pl.group = 8 ∧ pl.src = 1 ∧ pl.rsvZero = true ∧ pl.length = 1 ∧ hbmBad ready (hbmReadAddr ready (pl.addr + 0)) = false ∧
     groupAllowed ready.lcState pl.group = true ∧ ready.debugOpen = false ∧ pl.addr + pl.length ≤ ready.img.hbmBytes ∧
       ready.regFld secFw 0 1 ≠ pl.group - 7 ∧ ((storePages ready pl.group [Mem.get ready.hbm (hbmReadAddr ready (pl.addr + 0))]).any fun x => pageWorn ready x.1) = false) ∧
    groupAllowed ready.lcState 2 = false ∧
    (let s := storing false 0x80000258
     s.sec.queue = [⟨5, 1, 0, [(12, [7])], none, false⟩] ∧ s.sec.stopped = false ∧ pageWorn s 12 = false ∧ inputOk s = true ∧ energyOk s 1 = true) ∧
    (let s := storing false 0x80000257
     s.sec.stopped = false ∧ energyOk s 1 = false) ∧ ready.sec.queue = [] := by decide +kernel

theorem test_witness_TransitionsAreAuthorised :
    (servesNow ready 1 = true ∧ transitionBy ready.lcState 2 = none) ∧
    (let s := readyR [(nvHoldup, 0x80001000)]
     let pl := lcPayload (1 :: List.replicate 263 0)
     pl.target = 1 ∧ pl.rsvZero = true ∧ pl.opKey = 0 ∧ transitionBy s.lcState 1 = some false ∧ s.debugOpen = false ∧ (s.img.slots.all fun x => decide (x.state ≠ 3)) = true ∧ s.sec.queue = [] ∧
       s.lcBusy = false ∧ s.regBit secTamper 3 = false ∧ inputOk s = true) := by decide +kernel

/-- Two pages are written for the transition to IDENTITY, whatever the new key is. -/
theorem test_transition_pages (s : State) (h : s.lcState ≠ 3) : (transitionPages s 1 0).length = 2 := by
  simp [transitionPages, h]
theorem test_witness_transition_energy :
    energyOk (readyR [(nvHoldup, 0x80001000)]) (transitionPages (readyR [(nvHoldup, 0x80001000)]) 1 0).length = true := by
  rw [test_transition_pages _ (by decide +kernel)]
  decide +kernel

theorem test_witness_TamperDebugAndBringUp :
    (ready.lcState = 0 ∧ (ready.img.slots.all fun x => decide (x.state = 0)) = true ∧ ready.sec.queue = [] ∧ ready.sec.running = false ∧
      ready.lcBusy = false) ∧ (slotR {}).lcState = 2 ∧
    (let s : State := { State.reset with pwr := { ({} : PowerSt) with input := 2 } }
     s.pwr.input = 2 ∧ s.stage = 1 ∧ s.safe = 0 ∧ fwWritten s 0 = false ∧ fwWritten s 1 = false ∧ pageFld s 3 0 1 % 2 = 0 ∧ minVersion s ≤ 1) ∧
    ready.stage ≠ 1 := by decide +kernel

/-! ### Power, temperature and the dies -/

theorem test_witness_GovernorHoldsTheTarget :
    (ready.pwr.input = 2 ∧ ready.pwr.cap = false ∧ ready.pwr.preRamp = none ∧ ready.pwr.target < 1 ∧ ready.pwr.overThisFrame = false ∧
      ready.pwr.target ≤ budgetNow ready) ∧
    (let s := ready.modPwr fun p => { p with preRamp := some (0, 300, 1), target := 3000 }
     s.pwr.preRamp = some (0, 300, 1) ∧ 0 + ballastMax s < s.pwr.target ∧ s.pwr.satThisMs = false) ∧ State.reset.pwr.input ≠ 2 := by
  decide +kernel

theorem test_witness_DiesTripAndTheInputResets :
    (ready.pwr.input = 2 ∧ nth false ready.bist.thermHeld 11 = false ∧ dieHeldNow ready 11 = false ∧ ready.sec.queue = []) ∧
    (let s := ready.modBist fun b => { b with thermHeld := b.thermHeld.set 3 true }
     nth false s.bist.thermHeld 3 = true ∧ nth 0 s.pwr.tj 3 + 5 < s.regFld pgCeil 24 8 ∧ nth false s.bist.dieHeld 3 = false ∧
       dieHeldNow s 3 = true) ∧ State.reset.pwr.input ≠ 2 := by decide +kernel

/-! ### Reductions -/

theorem test_witness_ReductionsDoNotDependOnOrder :
    let i (op seq : Nat) (v : Word) (ix : Word) : NodeIn := ⟨⟨0, 0, 0, 0, 0⟩, op, 2, 0, seq, v, ix, 0, 0, 0, ⟨1, 1, 1, 1⟩⟩
    [i 0 0 0x3F800000 0, i 0 1 0x40000000 0].Perm [i 0 1 0x40000000 0, i 0 0 0x3F800000 0] ∧
    (ready.node .hub).find ⟨0, 0, 0, 0, 0⟩ = none ∧ ([i 1 0 0x3F800000 0, i 1 1 0x40000000 1].map (·.lo)).Nodup := by decide +kernel

end Sys2Proof.Tests
end

section
/-! PROOFS. FENCE (R206, R154). The rules come first: what the header wait, completion at issue and the flush of the gather
buffer leave of the state; then the two ways in which an attempt of a FENCE ends. -/

namespace Sys2Proof.Machine

variable {s t : State} {core : Nat} {also : List Nat}

/-! ### Changes within one core and the given registers -/

theorem onlyCore_refl (s : State) (core : Nat) : s.onlyCore s core [] :=
  onlyCore_quiet core (fun _ _ => rfl) rfl (sameRegs_refl s [])

theorem onlyCore_modCore (h : s.onlyCore t core [] also) (f : Core → Core) : s.onlyCore (t.modCore core f) core [] also := by
  obtain ⟨hc, -, -, -, -, -, hm⟩ := h
  obtain ⟨ht, hr⟩ := hm rfl
  refine onlyCore_quiet core (fun j hj => ?_) ?_ (sameRegs_of_regs hr rfl)
  · rw [State.core_modCore, if_neg hj, hc j hj]
  · rw [ht]; rfl

theorem onlyCore_setFld (h : s.onlyCore t core [] also) {a : Nat} (lo w v : Nat) (ha : a ∈ also) :
    s.onlyCore (t.setFld a lo w v) core [] also := by
  obtain ⟨hc, -, -, -, -, -, hm⟩ := h
  obtain ⟨ht, hr⟩ := hm rfl
  exact onlyCore_quiet core hc (by rw [ht]; rfl) (sameRegs_setFld hr lo w v ha)

/-- More registers may have changed. -/
theorem onlyCore_mono {more : List Nat} (h : s.onlyCore t core [] also) (hl : also ⊆ more) : s.onlyCore t core [] more := by
  obtain ⟨hc, -, -, -, -, -, hm⟩ := h
  obtain ⟨ht, hr⟩ := hm rfl
  exact onlyCore_quiet core hc ht (sameRegs_mono hr hl)

/-- No change within a core touches the queue of commands. -/
theorem onlyCore_pending {msgs : List (Nat × Nat × Nat)} (h : s.onlyCore t core msgs also) : t.pending = s.pending := by
  obtain ⟨-, -, -, ht, -⟩ := h
  rw [ht]

/-! ### The header wait (R202) -/

/-- The state in which an attempt that issues runs its instruction: the count of the header wait is taken. -/
def headerTaken (s : State) (core : Nat) (w : BitVec 256) : State :=
  if headerPairs s core w = [] then s else takeTokens core (headerPairs s core w) s

theorem attempt_headerTaken {w : BitVec 256} (h : canIssue s core w = true) (k : Nat → State → State) :
    attempt core w k s = k (s.core core).pos (headerTaken s core w) := attempt_canIssue h k

theorem core_headerTaken (s : State) (core : Nat) (w : BitVec 256) :
    (headerTaken s core w).core core = (s.core core).took (headerPairs s core w) := core_header s core _

theorem onlyCore_headerTaken (s : State) (core : Nat) (w : BitVec 256) : s.onlyCore (headerTaken s core w) core [] := by
  unfold headerTaken
  split
  · exact onlyCore_refl s core
  · exact onlyCore_modCore (onlyCore_refl s core) _

theorem took_ops (c : Core) (l : List (Nat × Nat)) : (c.took l).ops = c.ops := by rw [took_eq]
theorem took_gather (c : Core) (l : List (Nat × Nat)) : (c.took l).gather = c.gather := by rw [took_eq]

/-- Whether a FENCE waits depends on the instructions in flight alone. -/
theorem fenceMet_took (c : Core) (l : List (Nat × Nat)) (mask : Nat) : fenceMet (c.took l) mask = fenceMet c mask := by
  unfold fenceMet
  rw [took_ops]

/-! ### Completion at issue (R197) -/

/-- A core whose sequencer goes on to the next position. -/
def Core.advanced (c : Core) : Core := { c with pos := c.pos + 1, waiting := none }

theorem core_advance (t : State) (core : Nat) : (advance core t).core core = (t.core core).advanced := by
  simp [advance, Core.advanced]

theorem advanced_took (c : Core) (l : List (Nat × Nat)) : (c.took l).advanced = c.wentOn l := by
  simp only [Core.advanced, Core.wentOn, took_pos]

/-- A signal is an item that passes through the core's injection queue, or none. -/
theorem passed_signalDone (t : State) (core : Nat) (w : BitVec 256) :
    Core.passed (t.core core) ((signalDone core w t).core core) 24 := by
  unfold signalDone
  cases iSigEn w
  · exact ⟨rfl, fun _ _ => rfl, rfl⟩
  · obtain ⟨-, hp, -⟩ := passQueue_spec core 24 t 0
    exact hp

/-- The registers that a signal changes are those of the injection queue and of the event FIFO. -/
theorem regs_signalDone (t : State) (core : Nat) (w : BitVec 256) :
    t.sameRegs (signalDone core w t) (queueRegs core 24 ++ eventRegs) := by
  refine sameRegs_whenS _ _ (fun u hu => sameRegs_trans hu ?_) (sameRegs_refl t _)
  obtain ⟨-, -, ⟨hr, -⟩, -⟩ := passQueue_spec core 24 u 0
  exact sameRegs_of_regs hr rfl

theorem onlyCore_signalDone (h : s.onlyCore t core [] also) (hn : coreQA core 24 0 ∉ also) (w : BitVec 256) :
    s.onlyCore (signalDone core w t) core (signalOf core w) also := by
  unfold signalDone signalOf
  cases iSigEn w
  · exact h
  · obtain ⟨hs, -⟩ := onlyCore_send core h hn core (iStok w) 1 0
    exact hs

/-- Completion at issue: the sequencer goes on, and the signal leaves. -/
theorem passed_doneAtIssue (t : State) (core : Nat) (w : BitVec 256) :
    Core.passed (t.core core).advanced ((doneAtIssue core w t).core core) 24 := by
  rw [← core_advance]
  exact passed_signalDone _ core w

theorem onlyCore_doneAtIssue (h : s.onlyCore t core [] also) (hn : coreQA core 24 0 ∉ also) (w : BitVec 256) :
    s.onlyCore (doneAtIssue core w t) core (signalOf core w) also :=
  onlyCore_signalDone (onlyCore_modCore h _) hn w

theorem regs_doneAtIssue (t : State) (core : Nat) (w : BitVec 256) :
    t.sameRegs (doneAtIssue core w t) (queueRegs core 24 ++ eventRegs) :=
  regs_signalDone (advance core t) core w

/-! ### The gather buffer (R158) -/

theorem gather_produced (core word : Nat) (t : State) : ((produced core word t).core core).gather = (t.core core).gather := by
  unfold produced
  split
  · dsimp only
    split <;> simp [setFull]
  · rfl

/-- The words of an entry that is flushed go past the gather buffer. -/
theorem gather_flushEntry (core : Nat) (g : Gather) (t : State) :
    ((flushEntry core g t).core core).gather = (t.core core).gather := by
  unfold flushEntry
  extract_lets valid whole some1 s1 s2
  have h1 : (s1.core core).gather = (t.core core).gather :=
    forEach_same (fun u => (u.core core).gather) _ _ (fun i _ u => by
      split
      · split <;> rfl
      · rfl) t
  have h2 : (s2.core core).gather = (s1.core core).gather :=
    whenS_same (fun u => (u.core core).gather) _ (fun u => u.setBit (spA core 4) 8) (fun _ => rfl) s1
  exact (whenS_same (fun u => (u.core core).gather) _ _ (gather_produced core g.w) s2).trans (h2.trans h1)

theorem gather_flushGather (core : Nat) (t : State) : ((flushGather core t).core core).gather = [] := by
  unfold flushGather
  rw [forEach_same (fun u => (u.core core).gather) _ _ (fun g _ u => gather_flushEntry core g u)]
  simp

/-- A flush leaves the sequencer where it is. -/
theorem pos_flushGather (core : Nat) (t : State) : ((flushGather core t).core core).pos = (t.core core).pos := by
  have hk := (within_flushGather (.refl false false false false t) core rfl).kept core
  simp only [Core.kept, Prod.mk.injEq] at hk
  obtain ⟨-, -, -, -, -, hpos, -⟩ := hk
  exact hpos

/-- The flush of an empty buffer changes nothing that a core holds. -/
theorem core_flushGather_nil (h : (t.core core).gather = []) : (flushGather core t).core core = t.core core := by
  rw [flushGather, h, forEach_nil, State.core_modCore_self, ← h]

theorem onlyCore_flushGather_nil (h : s.onlyCore t core [] also) (hg : (t.core core).gather = []) :
    s.onlyCore (flushGather core t) core [] also := by
  rw [flushGather, hg, forEach_nil]
  exact onlyCore_modCore h _

/-! ### The segment map (R154) -/

theorem seg_setSegment (core v : Nat) (t : State) : (setSegment core v t).seg core = v % 64 :=
  State.regFld_setFld_self t _ 16 6 v (by omega)

/-- The register of the segment map is none of those that a signal changes. -/
theorem segReg_not_signalRegs (core : Nat) : spA core 0x1C ∉ queueRegs core 24 ++ eventRegs := by
  simp only [queueRegs, eventRegs, List.mem_append, List.mem_cons, List.not_mem_nil, or_false, spA, coreQA, tkA, coreA, dieA,
    hubQA, hubA, dpSticky]
  omega

theorem level_ne_segReg (core : Nat) : coreQA core 24 0 ≠ spA core 0x1C := by
  simp only [coreQA, tkA, spA, coreA, dieA]
  omega

theorem seg_doneAtIssue (t : State) (core : Nat) (w : BitVec 256) : (doneAtIssue core w t).seg core = t.seg core :=
  congrArg (fun v => fld v 16 6) (regs_doneAtIssue t core w _ (segReg_not_signalRegs core))

/-! ### FENCE (R206) -/

theorem exec_fence (core : Nat) (body : BitVec 248) (s : State) :
    exec (.fence core body) s = answer s (runFence core (fullWord 0x04 body) s) := rfl

/-- What a FENCE does as it completes, apart from the advance and the signal. -/
def fenceWork (core : Nat) (w : BitVec 256) (s : State) : State :=
  whenS (bit w 72) (setSegment core (fld w 73 6)) (flushGather core s)

/-- The register that a FENCE may change. -/
def fenceRegs (core : Nat) (w : BitVec 256) : List Nat := if bit w 72 then [spA core 0x1C] else []

theorem level_not_fenceRegs (core : Nat) (w : BitVec 256) : coreQA core 24 0 ∉ fenceRegs core w := by
  unfold fenceRegs
  split <;> simp [level_ne_segReg]

/-- The segment map is a register, so a core after a FENCE's work is as the flush leaves it. -/
theorem core_fenceWork (core : Nat) (w : BitVec 256) (t : State) :
    (fenceWork core w t).core core = (flushGather core t).core core :=
  whenS_same (fun u => u.core core) _ (setSegment core (fld w 73 6)) (fun _ => rfl) _

theorem onlyCore_fenceWork (w : BitVec 256) (h : s.onlyCore t core []) (hg : (t.core core).gather = []) :
    s.onlyCore (fenceWork core w t) core [] (fenceRegs core w) := by
  have hf := onlyCore_flushGather_nil h hg
  unfold fenceWork fenceRegs
  cases bit w 72
  · exact hf
  · exact onlyCore_setFld (onlyCore_mono hf (List.nil_subset _)) 16 6 _ (List.mem_singleton_self _)

theorem seg_fenceWork (core : Nat) {w : BitVec 256} (hw : bit w 72 = true) (t : State) :
    (fenceWork core w t).seg core = fld w 73 6 := by
  rw [fenceWork, hw, whenS_true, seg_setSegment]
  exact Nat.mod_mod _ _

section
variable {body : BitVec 248} (hi : canIssue s core (fullWord 0x04 body) = true)
  (hr : anySet (fullWord 0x04 body) (hdrReserved ++ [(69, 3), (79, 177)]) = false)
include hi hr

/-- A FENCE that may issue does its work and completes where the awaited classes have completed; else the sequencer waits. -/
theorem exec_fence_issued : exec (.fence core body) s = answer s
    (if fenceMet (s.core core) (fld (fullWord 0x04 body) 64 5) = true then
      doneAtIssue core (fullWord 0x04 body)
        (fenceWork core (fullWord 0x04 body) (headerTaken s core (fullWord 0x04 body)))
    else setWaiting core [] true (headerTaken s core (fullWord 0x04 body))) := by
  rw [exec_fence, runFence, attempt_headerTaken hi, hr, core_headerTaken, fenceMet_took]
  rfl

/-- With an empty gather buffer, a FENCE that completes changes its core's sequencer and the segment map alone. -/
theorem fence_met_empty (hm : fenceMet (s.core core) (fld (fullWord 0x04 body) 64 5) = true)
    (hg : (s.core core).gather = []) :
    ∃ t, exec (.fence core body) s = .next t ∧
      s.onlyCore t core (signalOf core (fullWord 0x04 body)) (fenceRegs core (fullWord 0x04 body)) ∧
      Core.passed ((s.core core).wentOn (headerPairs s core (fullWord 0x04 body))) (t.core core) 24 ∧
      (bit (fullWord 0x04 body) 72 = true → t.seg core = fld (fullWord 0x04 body) 73 6) := by
  rw [exec_fence_issued hi hr, if_pos hm]
  generalize fullWord 0x04 body = w
  have hg' : ((headerTaken s core w).core core).gather = [] := by rw [core_headerTaken, took_gather, hg]
  have ho := onlyCore_doneAtIssue (onlyCore_fenceWork w (onlyCore_headerTaken s core w) hg') (level_not_fenceRegs core w) w
  refine ⟨_, answer_eq (onlyCore_pending ho), ho, ?_, fun hw => ?_⟩
  · have hp := passed_doneAtIssue (fenceWork core w (headerTaken s core w)) core w
    rwa [core_fenceWork, core_flushGather_nil hg', core_headerTaken, advanced_took] at hp
  · rw [seg_doneAtIssue, seg_fenceWork core hw]

/-- Whatever the gather buffer held, a FENCE that completes leaves it empty, and the sequencer goes on. -/
theorem fence_met_flushes (hm : fenceMet (s.core core) (fld (fullWord 0x04 body) 64 5) = true) :
    ∃ t, exec (.fence core body) s = .next t ∧ (t.core core).gather = [] ∧ (t.core core).pos = (s.core core).pos + 1 := by
  rw [exec_fence_issued hi hr, if_pos hm]
  generalize fullWord 0x04 body = w
  obtain ⟨hc, -⟩ := passed_doneAtIssue (fenceWork core w (headerTaken s core w)) core w
  rw [core_fenceWork] at hc
  refine ⟨_, rfl, ?_, ?_⟩
  · refine (congrArg Core.gather hc).trans ?_
    exact gather_flushGather core _
  · refine (congrArg Core.pos hc).trans ?_
    show ((flushGather core (headerTaken s core w)).core core).pos + 1 = _
    rw [pos_flushGather, core_headerTaken, took_pos]

/-- A FENCE that waits leaves the sequencer at it and the instructions in flight as they are. -/
theorem fence_unmet_stays (hm : fenceMet (s.core core) (fld (fullWord 0x04 body) 64 5) = false) :
    ∃ t, exec (.fence core body) s = .next t ∧ s.onlyCore t core [] ∧ (t.core core).pos = (s.core core).pos ∧
      (t.core core).ops = (s.core core).ops := by
  rw [exec_fence_issued hi hr, if_neg (by rw [hm]; decide)]
  generalize fullWord 0x04 body = w
  have ho : s.onlyCore (setWaiting core [] true (headerTaken s core w)) core [] :=
    onlyCore_modCore (onlyCore_headerTaken s core w) _
  refine ⟨_, answer_eq (onlyCore_pending ho), ho, ?_, ?_⟩
  · simp [setWaiting, core_headerTaken, took_pos]
  · simp [setWaiting, core_headerTaken, took_ops]

end

/-- Settles O13: a FENCE that may issue either does its work and completes, or has the sequencer wait. -/
theorem fenceOrdersTheProgram : Obligations.FenceOrdersTheProgram :=
  ⟨fun _ _ _ hi hr hm hg => fence_met_empty hi hr hm hg, fun _ _ _ hi hr hm => fence_met_flushes hi hr hm,
    fun _ _ _ hi hr hm => fence_unmet_stays hi hr hm⟩

end Sys2Proof.Machine
end

section
/-! PROOFS. Spare lanes (R285, R292, R293, R322). The rules come first: fields of registers and of control blocks, and what the work
on one link leaves of the rest of the machine; then what moves a lane, what retires a link, and the four ways in which a lane that
fails and a LANE_SWAP end. -/

namespace Sys2Proof.Machine

/-! ### Bits of a word after one of its fields was written -/

theorem bit_eq_testBit {n : Nat} (x : BitVec n) (j : Nat) : bit x j = x.toNat.testBit j := (BitVec.testBit_toNat x).symm

theorem bit_putFld {n : Nat} (x : BitVec n) (lo w v j : Nat) (h : lo + w ≤ n) :
    bit (putFld x lo w v) j = if lo ≤ j ∧ j < lo + w then v.testBit (j - lo) else bit x j := by
  have hsplit : x.toNat % 2 ^ lo + v % 2 ^ w * 2 ^ lo + (x.toNat >>> (lo + w)) * 2 ^ (lo + w) =
      2 ^ lo * (2 ^ w * (x.toNat >>> (lo + w)) + v % 2 ^ w) + x.toNat % 2 ^ lo := by
    rw [pow_add]; ring
  rw [bit_eq_testBit x, bit, putFld, BitVec.getLsbD_ofNat, hsplit, Nat.testBit_two_pow_mul_add _ (Nat.mod_lt _ (by positivity)),
    Nat.testBit_two_pow_mul_add _ (Nat.mod_lt _ (by positivity)), Nat.testBit_mod_two_pow, Nat.testBit_mod_two_pow,
    Nat.testBit_shiftRight]
  have hx : n ≤ j → x.toNat.testBit j = false := fun hj =>
    Nat.testBit_lt_two_pow (x.isLt.trans_le (Nat.pow_le_pow_right (by omega) hj))
  rcases lt_or_ge j lo with h1 | h1
  · simp [h1, show j < n by omega, show ¬lo ≤ j by omega]
  · rcases lt_or_ge j (lo + w) with h2 | h2
    · simp [h1, h2, show ¬j < lo by omega, show j - lo < w by omega, show j < n by omega]
    · rw [show lo + w + (j - lo - w) = j by omega]
      by_cases hj : j < n
      · simp [hj, show ¬j < lo by omega, show ¬j - lo < w by omega, show ¬j < lo + w by omega]
      · simp [hj, hx (by omega), show ¬j < lo + w by omega]

theorem State.regBit_setFld (s : State) (a lo w v b j : Nat) (h : lo + w ≤ 32) :
    (s.setFld a lo w v).regBit b j = if b = a ∧ lo ≤ j ∧ j < lo + w then v.testBit (j - lo) else s.regBit b j := by
  unfold State.regBit
  rw [State.reg_setFld]
  by_cases hb : b = a
  · subst hb
    simp [bit_putFld _ _ _ _ _ h]
  · simp [hb]

/-- A field is a function of its bits. -/
theorem State.regFld_congr {s t : State} {a b lo w : Nat} (h : ∀ j, lo ≤ j → j < lo + w → t.regBit b j = s.regBit a j) :
    t.regFld b lo w = s.regFld a lo w := by
  refine Nat.eq_of_testBit_eq fun k => ?_
  simp only [State.regFld, fld, Nat.testBit_mod_two_pow, Nat.testBit_shiftRight]
  by_cases hk : k < w
  · have hbit := h (lo + k) (by omega) (by omega)
    simpa only [State.regBit, bit_eq_testBit, hk, decide_true, Bool.true_and] using hbit
  · simp [hk]

theorem regBit_of_reg {s t : State} {a : Nat} (h : t.reg a = s.reg a) (k : Nat) : t.regBit a k = s.regBit a k := by
  unfold State.regBit
  rw [h]

theorem regFld_of_reg {s t : State} {a : Nat} (h : t.reg a = s.reg a) (lo w : Nat) : t.regFld a lo w = s.regFld a lo w := by
  unfold State.regFld
  rw [h]

/-! ### Fields of a control block (R297) -/

theorem toNat_ctrlBlock (type f : Nat) (ht : type < 256) :
    (ctrlBlock type f).toNat = (type * 2 ^ 48 + f % 2 ^ 48) * 2 ^ 8 +
      (crc8 (BitVec.ofNat 56 (type * 2 ^ 48 + f % 2 ^ 48))).toNat := by
  have hc := (crc8 (BitVec.ofNat 56 (type * 2 ^ 48 + f % 2 ^ 48))).isLt
  rw [ctrlBlock, BitVec.toNat_append, ← Nat.shiftLeft_add_eq_or_of_lt hc, Nat.shiftLeft_eq, BitVec.toNat_ofNat,
    Nat.mod_eq_of_lt (by omega)]

theorem blkFld_ctrlBlock (type f lo n : Nat) (ht : type < 256) (h : lo + n ≤ 48) :
    blkFld (ctrlBlock type f) (8 + lo) n = f / 2 ^ lo % 2 ^ n := by
  have hc := (crc8 (BitVec.ofNat 56 (type * 2 ^ 48 + f % 2 ^ 48))).isLt
  have hbody : (ctrlBlock type f).toNat / 2 ^ 8 = 2 ^ 48 * type + f % 2 ^ 48 := by rw [toNat_ctrlBlock _ _ ht]; omega
  refine Nat.eq_of_testBit_eq fun k => ?_
  rw [blkFld, pow_add, ← Nat.div_div_eq_div_mul, hbody]
  simp only [Nat.testBit_mod_two_pow, Nat.testBit_div_two_pow,
    Nat.testBit_two_pow_mul_add _ (Nat.mod_lt f (by positivity : 0 < 2 ^ 48))]
  by_cases hk : k < n
  · simp [show k + lo < 48 by omega]
  · simp [hk]

theorem blkType_ctrlBlock (type f : Nat) (ht : type < 256) : blkType (ctrlBlock type f) = type := by
  have hc := (crc8 (BitVec.ofNat 56 (type * 2 ^ 48 + f % 2 ^ 48))).isLt
  rw [blkType, blkFld, toNat_ctrlBlock _ _ ht]
  omega

theorem blkCrcOk_ctrlBlock (type f : Nat) : blkCrcOk (ctrlBlock type f) = true := by
  refine decide_eq_true ?_
  rw [ctrlBlock, BitVec.setWidth_append_eq_right, BitVec.extractLsb'_append_eq_left]

theorem blkTaken_ctrlBlock (type f : Nat) (ht : type < 256) {cw : Codeword} (hcw : cw.uncorr = false) :
    blkTaken type (ctrlBlock type f) cw = true := by
  simp [blkTaken, hcw, blkCrcOk_ctrlBlock, blkType_ctrlBlock _ _ ht]

theorem blkLane_swapBlock {lane : Nat} (h : lane < 32) (isAck : Bool) : blkLane (swapBlock lane isAck) = lane := by
  rw [blkLane, swapBlock, blkFld_ctrlBlock _ _ 40 5 (by omega) (by omega)]
  cases isAck <;> simp <;> omega

theorem blkSwapAck_swapBlock (lane : Nat) (isAck : Bool) : blkSwapAck (swapBlock lane isAck) = isAck := by
  have hf := blkFld_ctrlBlock 0xA6 (lane % 32 * 2 ^ 40 + isAck.toNat * 2 ^ 32) 32 1 (by omega) (by omega)
  have hb : blkSwapAck (swapBlock lane isAck) = decide (blkFld (swapBlock lane isAck) 40 1 = 1) := by
    rw [blkSwapAck, ← BitVec.testBit_toNat, Nat.testBit_eq_decide_div_mod_eq]; rfl
  rw [hb, swapBlock, hf]
  cases isAck <;> simp <;> omega

/-! ### What the work on one link leaves -/

/-- The memories, the cores, the tick, the security core, the queue of commands and the other links are as they were; what has
left the module stays seen, and a unit that is retired stays so. -/
structure LinkWork (i : Nat) (s t : State) : Prop where
  bytes : s.sameBytes t
  cores : t.cores = s.cores
  tk : t.tk = s.tk
  sec : t.sec = s.sec
  pending : t.pending = s.pending
  others : ∀ j, j ≠ i → t.link j = s.link j
  retired : ∀ b k, s.isRetired b k = true → t.isRetired b k = true
  out : s.out ⊆ t.out

variable {i lane : Nat} {s0 s t : State}

theorem LinkWork.refl (i : Nat) (s : State) : LinkWork i s s :=
  ⟨fun _ => ⟨rfl, rfl, rfl, rfl⟩, rfl, rfl, rfl, rfl, fun _ _ => rfl, fun _ _ => id, List.Subset.refl _⟩

theorem LinkWork.setReg (h : LinkWork i s0 s) (a : Nat) (v : Word) : LinkWork i s0 (s.setReg a v) := { h with }
theorem LinkWork.setReg64 (h : LinkWork i s0 s) (a : Nat) (v : DWord) : LinkWork i s0 (s.setReg64 a v) := { h with }
theorem LinkWork.setBit (h : LinkWork i s0 s) (a k : Nat) : LinkWork i s0 (s.setBit a k) := { h with }
theorem LinkWork.setFld (h : LinkWork i s0 s) (a lo w v : Nat) : LinkWork i s0 (s.setFld a lo w v) := { h with }
theorem LinkWork.addCnt (h : LinkWork i s0 s) (a lo w n : Nat) : LinkWork i s0 (s.addCnt a lo w n) := { h with }
theorem LinkWork.modFx (h : LinkWork i s0 s) (f : CommitSt → CommitSt) : LinkWork i s0 (s.modFx f) := { h with }
theorem LinkWork.modImg (h : LinkWork i s0 s) (f : ImageSt → ImageSt) : LinkWork i s0 (s.modImg f) := { h with }
theorem LinkWork.send (h : LinkWork i s0 s) (o : Out) : LinkWork i s0 (s.send o) :=
  { h with out := List.subset_cons_of_subset o h.out }
theorem LinkWork.setLink (h : LinkWork i s0 s) (l : LinkSt) : LinkWork i s0 (s.setLink i l) :=
  have k : ∀ j, j ≠ i → (s.setLink i l).link j = s0.link j := fun j hj => by
    rw [State.link_setLink, if_neg hj, h.others j hj]
  { h with others := k }
theorem LinkWork.modLink (h : LinkWork i s0 s) (f : LinkSt → LinkSt) : LinkWork i s0 (s.modLink i f) := h.setLink _

theorem isRetired_markRetired_self (s : State) (b k : Nat) : (s.markRetired b k).isRetired b k = true :=
  SMap.get_set_self _ _ _ _

theorem LinkWork.markRetired (h : LinkWork i s0 s) (b k : Nat) : LinkWork i s0 (s.markRetired b k) := by
  have hr : ∀ c j, s0.isRetired c j = true → (s.markRetired b k).isRetired c j = true := fun c j hj => by
    unfold State.isRetired State.markRetired
    rw [State.modBist_bist, SMap.get_set]
    split
    · rfl
    · exact h.retired c j hj
  exact { h with retired := hr }

theorem LinkWork.whenS (b : Bool) (f : State → State) (hf : ∀ t, LinkWork i s0 t → LinkWork i s0 (f t))
    (h : LinkWork i s0 s) : LinkWork i s0 (whenS b f s) := by
  cases b
  · exact h
  · exact hf s h

theorem LinkWork.forEach {α : Type} (l : List α) (f : α → State → State)
    (hf : ∀ x t, LinkWork i s0 t → LinkWork i s0 (f x t)) (h : LinkWork i s0 s) : LinkWork i s0 (forEach l f s) := forEach_keeps _ l f (fun x _ => hf x) s h

/-- An event leaves all of it, as far as what has left the module stays seen. -/
theorem LinkWork.event (h : LinkWork i s0 s) (k : EventOnly s t) (ho : s.out ⊆ t.out) : LinkWork i s0 t where
  bytes a := by rw [k.hbm, k.spad, k.mac, k.scale]; exact h.bytes a
  cores := k.cores.trans h.cores
  tk := k.tk.trans h.tk
  sec := k.sec.trans h.sec
  pending := k.pending.trans h.pending
  others j hj := by rw [State.link, k.links]; exact h.others j hj
  retired b c hc := by rw [State.isRetired, k.bist]; exact h.retired b c hc
  out := List.Subset.trans h.out ho

/-! ### Events and queue levels (R281, R282) -/

theorem out_sendEvent (e : EvEntry) (s : State) : s.out ⊆ (sendEvent e s).out :=
  forEach_keeps (fun t => s.out ⊆ t.out) _ _ (fun p _ t ht => by
    split
    · exact List.subset_cons_of_subset _ ht
    · exact ht) s (List.Subset.refl _)

theorem out_pushEvent (e : Event) (s : State) : s.out ⊆ (pushEvent e s).out := by
  unfold pushEvent
  extract_lets d s1 up lost n entry s2
  split
  · exact List.Subset.refl _
  · obtain ⟨-, -, hlevel⟩ := rest_levelRule (hubQA 1 0) d (d + 1) s2
    generalize levelRule (hubQA 1 0) d (d + 1) s2 = r at hlevel
    obtain ⟨s3, news⟩ := r
    have hib : s.out ⊆ (whenS news (fun t => (t.send .inBandInterrupt).modSvc fun v => { v with ibiPending := true }) s3).out := by
      rw [← show s3.out = s.out from hlevel]
      cases news
      · exact List.Subset.refl _
      · exact List.subset_cons_self _ _
    cases up
    · exact hib
    · exact List.Subset.trans hib (out_sendEvent _ _)

theorem linkWork_pushEvent (h : LinkWork i s0 s) (e : Event) : LinkWork i s0 (pushEvent e s) :=
  h.event (eventOnly_pushEvent (.refl s) e) (out_pushEvent e s)

theorem eventOnly_queueDepthChange (q d0 d1 : Nat) (s : State) : EventOnly s (queueDepthChange q d0 d1 s) :=
  EventOnly.whenS _ _ (fun _ k => eventOnly_pushEvent k _) (eventOnly_levelRule (.refl s) _ _ _)

theorem linkWork_queueDepthChange (h : LinkWork i s0 s) (q d0 d1 : Nat) : LinkWork i s0 (queueDepthChange q d0 d1 s) := by
  obtain ⟨-, -, hout⟩ := rest_levelRule (hubQA q 0) d0 d1 s
  exact LinkWork.whenS _ _ (fun _ k => linkWork_pushEvent k _)
    (h.event (eventOnly_levelRule (.refl s) _ _ _) (hout ▸ List.Subset.refl _))

/-- The registers that a change of depth may change: those of the hub queue, and of the event FIFO where its level is crossed. -/
def depthRegs (q : Nat) : List Nat := [hubQA q 4, hubQA q 8] ++ eventRegs

theorem regs_queueDepthChange (q d0 d1 : Nat) (s : State) : s.sameRegs (queueDepthChange q d0 d1 s) (depthRegs q) := by
  refine sameRegs_whenS _ _ (fun t k => sameRegs_trans k (sameRegs_mono (regs_pushEvent _ t) (List.subset_append_right _ _))) ?_
  exact sameRegs_mono (regs_levelRule _ _ _ s) (List.subset_append_left _ _)

/-! ### The transmit queue of a link (R277 to R282, R299) -/

/-- What entering and leaving the queue keep, sending what a link may send keeps. -/
theorem pumpLink_keeps (P : State → Prop) (hpush : ∀ t, P t → P (pushStages i t)) (hpop : ∀ p t, P t → P (popPacket i p t))
    (hs : P s) : P (pumpLink i s) := by
  unfold pumpLink
  generalize (s.link i).backlog.length + (s.link i).waiting.length + 1 = n
  induction n generalizing s with
  | zero => exact hs
  | succ n ih =>
    unfold pump
    dsimp only
    split
    · exact hpush s hs
    · exact ih (hpop _ _ (hpush s hs))

theorem linkWork_launch (h : LinkWork i s0 s) (p : Packet) : LinkWork i s0 (launch i p s) := (h.setLink _).send _

theorem linkWork_pushStages (h : LinkWork i s0 s) : LinkWork i s0 (pushStages i s) := by
  unfold pushStages
  extract_lets l l'
  split
  · exact h
  · exact linkWork_queueDepthChange (h.setLink _) _ _ _

theorem linkWork_popPacket (h : LinkWork i s0 s) (p : Packet) : LinkWork i s0 (popPacket i p s) :=
  linkWork_launch (linkWork_queueDepthChange (h.setLink _) _ _ _) p

theorem linkWork_pumpLink (h : LinkWork i s0 s) : LinkWork i s0 (pumpLink i s) :=
  pumpLink_keeps _ (fun _ => linkWork_pushStages) (fun p _ k => linkWork_popPacket k p) h

theorem regs_pushStages (i : Nat) (s : State) : s.sameRegs (pushStages i s) (depthRegs (2 + i)) := by
  unfold pushStages
  extract_lets l l'
  split
  · exact sameRegs_refl s _
  · exact regs_queueDepthChange _ _ _ (s.setLink i l')

theorem regs_popPacket (i : Nat) (p : Packet) (s : State) : s.sameRegs (popPacket i p s) (depthRegs (2 + i)) :=
  sameRegs_of_regs (regs_queueDepthChange (2 + i) _ _ (s.setLink i _)) rfl

theorem regs_pumpLink (i : Nat) (s : State) : s.sameRegs (pumpLink i s) (depthRegs (2 + i)) :=
  pumpLink_keeps (fun t => s.sameRegs t (depthRegs (2 + i))) (fun t k => sameRegs_trans k (regs_pushStages i t))
    (fun p t k => sameRegs_trans k (regs_popPacket i p t)) (sameRegs_refl s _)

/-- Links are a function of their map alone. -/
theorem link_congr (h : t.links = s.links) (j : Nat) : t.link j = s.link j := by unfold State.link; rw [h]

theorem link_queueDepthChange (q d0 d1 : Nat) (s : State) (j : Nat) : (queueDepthChange q d0 d1 s).link j = s.link j :=
  link_congr (eventOnly_queueDepthChange q d0 d1 s).links j

theorem swap_fill (n : Nat) (l : LinkSt) : (LinkSt.fill n l).swap = l.swap := by
  induction n generalizing l with
  | zero => rfl
  | succ n ih =>
    unfold LinkSt.fill
    split
    · rfl
    · dsimp only
      split
      · exact ih _
      · rfl

theorem swap_pushStages (i : Nat) (s : State) : ((pushStages i s).link i).swap = (s.link i).swap := by
  unfold pushStages
  extract_lets l l'
  split
  · rfl
  · rw [link_queueDepthChange, State.link_setLink_self]
    exact swap_fill _ _

theorem swap_launch (i : Nat) (p : Packet) (s : State) : ((launch i p s).link i).swap = (s.link i).swap :=
  (congrArg LinkSt.swap (State.link_setLink_self s i _)).trans rfl

theorem swap_popPacket (i : Nat) (p : Packet) (s : State) : ((popPacket i p s).link i).swap = (s.link i).swap := by
  rw [popPacket, swap_launch, link_queueDepthChange, State.link_setLink_self]

theorem swap_pumpLink (i : Nat) (s : State) : ((pumpLink i s).link i).swap = (s.link i).swap :=
  pumpLink_keeps (fun t => (t.link i).swap = (s.link i).swap) (fun t k => (swap_pushStages i t).trans k)
    (fun p t k => (swap_popPacket i p t).trans k) rfl

/-! ### Codewords and control blocks (R292, R297) -/

theorem linkWork_noteCodeword (h : LinkWork i s0 s) (cw : Codeword) : LinkWork i s0 (noteCodeword i cw s) := by
  unfold noteCodeword
  extract_lets errs s1 s2 l sums top
  have h1 : LinkWork i s0 s1 := LinkWork.whenS _ _ (fun _ k => (k.setBit _ _).addCnt _ _ _ _) h
  have h2 : LinkWork i s0 s2 := LinkWork.whenS _ _ (fun _ k => k.addCnt _ _ _ _) h1
  split
  · exact h2.setLink _
  · exact (h2.setLink _).setReg _ _

theorem regs_noteCodeword (i : Nat) (cw : Codeword) (s : State) :
    s.sameRegs (noteCodeword i cw s) [linkA i 4, linkA i 8, linkA i 0xC, linkA i 0x14] := by
  unfold noteCodeword
  extract_lets errs s1 s2 l sums top
  have h1 : s.sameRegs s1 [linkA i 4, linkA i 8, linkA i 0xC, linkA i 0x14] :=
    sameRegs_whenS _ _ (fun _ k => sameRegs_addCnt (sameRegs_setBit k _ (by simp)) _ _ _ (by simp)) (sameRegs_refl s _)
  have h2 : s.sameRegs s2 [linkA i 4, linkA i 8, linkA i 0xC, linkA i 0x14] :=
    sameRegs_whenS _ _ (fun _ k => sameRegs_addCnt k _ _ _ (by simp)) h1
  split
  · exact sameRegs_of_regs h2 rfl
  · exact sameRegs_setReg (sameRegs_of_regs (t := s2.setLink i _) h2 rfl) _ (by simp)

/-- Of its own link, a codeword changes the records of codewords and symbol errors alone. -/
theorem link_noteCodeword (i : Nat) (cw : Codeword) (s : State) : ∃ n sums,
    (noteCodeword i cw s).link i = { s.link i with codewords := n, symErrs := sums } := by
  unfold noteCodeword
  extract_lets errs s1 s2 l sums top
  have h1 : s1.links = s.links :=
    whenS_same State.links _ (fun t => (t.setBit (linkA i 4) 0).addCnt (linkA i 8) 0 16 1) (fun _ => rfl) s
  have h2 : s2.links = s.links := (whenS_same State.links _ (fun t => t.addCnt (linkA i 0xC) 0 32 1) (fun _ => rfl) s1).trans h1
  have hl : l = s.link i := link_congr h2 i
  split
  · exact ⟨l.codewords + 1, sums, (State.link_setLink_self s2 i _).trans (by rw [hl])⟩
  · exact ⟨0, [], (State.link_setLink_self s2 i _).trans (by rw [hl])⟩

/-- A LANE_SWAP that comes without error to a link with a signal is taken. -/
theorem rxBlock_swapBlock (ha : s.linkAlive i = true) {cw : Codeword} (hcw : cw.uncorr = false) (isAck : Bool)
    (take : State → State) :
    rxBlock i 0xA6 (swapBlock lane isAck) cw take s = take (noteCodeword i cw s) := by
  have hs : 1 ≤ s.linkState i ∧ s.linkState i ≤ 3 := by simpa [State.linkAlive] using ha
  rw [rxBlock, if_pos hs, swapBlock, blkTaken_ctrlBlock _ _ (by omega) hcw]
  rfl

/-! ### Retirement at once (R300, R322, R347) -/

/-- The registers of entry k of the fault log, and those that every new entry may change. -/
def logRegs (k : Nat) : List Nat := [logA k 0, logA k 1, logA k 2, logA k 2 + 4, fxLogHead, fxSticky] ++ eventRegs

theorem linkWork_raiseFx (h : LinkWork i s0 s) (fn : DWord) (bitIx entry action : Nat) :
    LinkWork i s0 (raiseFx fn bitIx entry action s) := linkWork_pushEvent h _

theorem links_raiseFx (fn : DWord) (bitIx entry action : Nat) (s : State) : (raiseFx fn bitIx entry action s).links = s.links :=
  pushEvent_links _ s

theorem linkWork_newLogEntry (h : LinkWork i s0 s) (cls : Nat) (l : Loc) (source attempt : Nat) (wfn : DWord) :
    LinkWork i s0 (newLogEntry cls l source attempt wfn s) := by
  unfold newLogEntry
  extract_lets k wraps s1 s2 s3 s4 s5 key s6
  have h1 : LinkWork i s0 s1 := LinkWork.whenS _ _ (fun _ k => k.setBit _ _) h
  have h3 : LinkWork i s0 s3 := (h1.setReg _ _).setReg _ _
  have h4 : LinkWork i s0 s4 := h3.setReg64 _ _
  have h5 : LinkWork i s0 s5 := (h4.addCnt _ _ _ _).setFld _ _ _ _
  exact linkWork_raiseFx (h5.modFx _) _ _ _ _

theorem linkWork_retiredNow (h : LinkWork i s0 s) (l : Loc) : LinkWork i s0 (retiredNow l s) := by
  unfold retiredNow
  exact linkWork_raiseFx ((linkWork_raiseFx (linkWork_newLogEntry h _ _ _ _ _) _ _ _ _).setBit _ _) _ _ _ _

theorem regs_raiseFx (fn : DWord) (bitIx entry action : Nat) (s : State) :
    s.sameRegs (raiseFx fn bitIx entry action s) eventRegs := regs_pushEvent _ s

theorem sameRegs_setReg64 {l : List Nat} (h : s0.sameRegs s l) {a : Nat} (v : DWord) (ha : a ∈ l) (hb : a + 4 ∈ l) :
    s0.sameRegs (s.setReg64 a v) l := sameRegs_setReg (sameRegs_setReg h _ ha) _ hb

theorem regs_newLogEntry (cls : Nat) (l : Loc) (source attempt : Nat) (wfn : DWord) (s : State) :
    s.sameRegs (newLogEntry cls l source attempt wfn s) (logRegs (s.regFld fxLogHead 0 6)) := by
  unfold newLogEntry
  extract_lets k wraps s1 s2 s3 s4 s5 key s6
  have h1 : s.sameRegs s1 (logRegs k) := sameRegs_whenS _ _ (fun _ h => sameRegs_setBit h _ (by simp [logRegs])) (sameRegs_refl s _)
  have h3 : s.sameRegs s3 (logRegs k) := sameRegs_setReg (sameRegs_setReg h1 _ (by simp [logRegs])) _ (by simp [logRegs])
  have h4 : s.sameRegs s4 (logRegs k) := sameRegs_setReg64 h3 _ (by simp [logRegs]) (by simp [logRegs])
  have h5 : s.sameRegs s5 (logRegs k) := sameRegs_setFld (sameRegs_addCnt h4 _ _ _ (by simp [logRegs])) _ _ _ (by simp [logRegs])
  have h6 : s.sameRegs s6 (logRegs k) := sameRegs_of_regs h5 (State.modFx_regs s5 _)
  exact sameRegs_trans h6 (sameRegs_mono (regs_raiseFx _ _ _ _ s6) (List.subset_append_right _ _))

theorem regs_retiredNow (l : Loc) (s : State) : s.sameRegs (retiredNow l s) (logRegs (s.regFld fxLogHead 0 6)) := by
  have hev : eventRegs ⊆ logRegs (s.regFld fxLogHead 0 6) := List.subset_append_right _ _
  unfold retiredNow
  extract_lets k
  have h1 := regs_newLogEntry 2 l 0 s.fx.cur.attempt s.wfn s
  have h2 := sameRegs_trans h1 (sameRegs_mono (regs_raiseFx s.wfn 0 k 1 _) hev)
  exact sameRegs_trans (sameRegs_setBit h2 3 (by simp [logRegs])) (sameRegs_mono (regs_raiseFx _ _ _ _ _) hev)

theorem links_newLogEntry (cls : Nat) (l : Loc) (source attempt : Nat) (wfn : DWord) (s : State) :
    (newLogEntry cls l source attempt wfn s).links = s.links := by
  unfold newLogEntry
  extract_lets k wraps s1 s2 s3 s4 s5 key s6
  have h1 : s1.links = s.links := whenS_same State.links wraps (fun t => t.setBit fxSticky 10) (fun _ => rfl) s
  have h6 : s6.links = s1.links := by simp [s6, s5, s4, s3, s2]
  rw [links_raiseFx, h6, h1]

theorem links_retiredNow (l : Loc) (s : State) : (retiredNow l s).links = s.links := by
  unfold retiredNow
  rw [links_raiseFx, State.setBit_links, links_raiseFx, links_newLogEntry]

/-- The registers of a link in which the statements about its lanes read: its status, its flags and the status of its queue. -/
def linkRegs (i : Nat) : List Nat := [linkA i 0, linkA i 4, hubQA (2 + i) 4]

theorem linkRegs_not_logRegs (hi : i < 32) {a k : Nat} (ha : a ∈ linkRegs i) (hk : k < 64) : a ∉ logRegs k := by
  simp only [linkRegs, logRegs, eventRegs, List.mem_append, List.mem_cons, List.not_mem_nil, or_false, linkA, logA, hubQA, hubA,
    fxLogHead, fxSticky, dpSticky] at ha ⊢
  omega

theorem fxLogHead_lt (s : State) : s.regFld fxLogHead 0 6 < 64 := Nat.mod_lt _ (by omega)

/-- A retirement at once leaves the link's own registers. -/
theorem reg_retiredNow (hi : i < 32) {a : Nat} (ha : a ∈ linkRegs i) (l : Loc) (s : State) : (retiredNow l s).reg a = s.reg a :=
  regs_retiredNow l s a (linkRegs_not_logRegs hi ha (fxLogHead_lt s))

/-! ### The state of a link (R295) -/

theorem linkWork_capacityChanged (h : LinkWork i s0 s) (status : Nat) : LinkWork i s0 (capacityChanged status s) := by
  unfold capacityChanged
  extract_lets s1 s2
  have h1 : LinkWork i s0 s1 := (h.setBit _ _).modImg _
  exact LinkWork.whenS _ _ (fun _ k => k.modFx _) (linkWork_pushEvent h1 _)

theorem regs_capacityChanged (status : Nat) (s : State) : s.sameRegs (capacityChanged status s) (fxCapSum :: eventRegs) := by
  unfold capacityChanged
  extract_lets s1 s2
  have h1 : s.sameRegs s1 (fxCapSum :: eventRegs) :=
    sameRegs_of_regs (sameRegs_setBit (sameRegs_refl s _) 30 List.mem_cons_self) (State.modImg_regs _ _)
  have h2 : s.sameRegs s2 (fxCapSum :: eventRegs) :=
    sameRegs_trans h1 (sameRegs_mono (regs_pushEvent _ s1) (List.subset_cons_self _ _))
  exact sameRegs_whenS _ _ (fun t k => sameRegs_of_regs k (State.modFx_regs t _)) h2

theorem links_capacityChanged (status : Nat) (s : State) : (capacityChanged status s).links = s.links :=
  (whenS_same State.links _ (fun t => t.modFx fun f => { f with capHalt := true }) (fun _ => rfl) _).trans (pushEvent_links _ _)

theorem linkWork_setLinkState (h : LinkWork i s0 s) (k st reason : Nat) : LinkWork i s0 (setLinkState k st reason s) := by
  unfold setLinkState
  extract_lets was s1 now
  have h1 : LinkWork i s0 s1 := (h.setFld _ _ _ _).setFld _ _ _ _
  split
  · exact h1
  · exact linkWork_capacityChanged h1 _

theorem links_setLinkState (k st reason : Nat) (s : State) : (setLinkState k st reason s).links = s.links := by
  unfold setLinkState
  extract_lets was s1 now
  split
  · rfl
  · exact links_capacityChanged _ s1

theorem regs_setLinkState (i st reason : Nat) (s : State) :
    s.sameRegs (setLinkState i st reason s) (linkA i 0 :: fxCapSum :: eventRegs) := by
  unfold setLinkState
  extract_lets was s1 now
  have h1 : s.sameRegs s1 (linkA i 0 :: fxCapSum :: eventRegs) :=
    sameRegs_setFld (sameRegs_setFld (sameRegs_refl s _) _ _ _ List.mem_cons_self) _ _ _ List.mem_cons_self
  split
  · exact h1
  · exact sameRegs_trans h1 (sameRegs_mono (regs_capacityChanged _ s1) (List.subset_cons_self _ _))

/-- The state of a link is written in its status alone: its flags and its queue are left. -/
theorem reg_setLinkState (hi : i < 32) {a : Nat} (ha : a ∈ [linkA i 4, hubQA (2 + i) 4]) (st reason : Nat) (s : State) :
    (setLinkState i st reason s).reg a = s.reg a := by
  refine regs_setLinkState i st reason s a ?_
  simp only [eventRegs, List.mem_cons, List.not_mem_nil, or_false, linkA, hubQA, hubA, fxCapSum, dpSticky] at ha ⊢
  omega

theorem status_not_capRegs (hi : i < 32) : linkA i 0 ∉ fxCapSum :: eventRegs := by
  simp only [eventRegs, List.mem_cons, List.not_mem_nil, or_false, linkA, hubQA, hubA, fxCapSum, dpSticky]
  omega

theorem linkState_setLinkState {st : Nat} (hi : i < 32) (hst : st < 8) (reason : Nat) (s : State) :
    (setLinkState i st reason s).linkState i = st := by
  have hfld : ((s.setFld (linkA i 0) 0 3 st).setFld (linkA i 0) 28 4 reason).linkState i = st := by
    rw [State.linkState, State.regFld_congr (s := s.setFld (linkA i 0) 0 3 st) (a := linkA i 0),
      State.regFld_setFld_self _ _ _ _ _ (by omega),
      Nat.mod_eq_of_lt (show st < 2 ^ 3 from hst)]
    intro j _ hj
    rw [State.regBit_setFld _ _ _ _ _ _ _ (by omega), if_neg (by omega)]
  unfold setLinkState
  extract_lets was s1 now
  split
  · exact hfld
  · exact (regFld_of_reg (regs_capacityChanged _ s1 _ (status_not_capRegs hi)) 0 3).trans hfld

/-! ### A link is retired (R285, R300) -/

/-- A link whose transmit queue is flushed and whose replay buffer is discarded. -/
def LinkSt.flushed (l : LinkSt) : LinkSt :=
  { l with replay := [], tries := [], waiting := [], backlog := [], part := 0, swap := none, peer := none, probe := none }

/-- The flush of a link that is retired, before its state changes. -/
def flushLink (i : Nat) (s : State) : State :=
  (((whenS (decide (0 < (s.link i).part)) (fun t => t.setBit (hubQA (2 + i) 4) 17) s).modLink i LinkSt.flushed).setFld
    (hubQA (2 + i) 4) 0 9 0).setBit (linkA i 4) 5

theorem retireLink_eq (i : Nat) (s : State) : retireLink i s =
    retiredNow { unit := 4, die := 12, pcore := 0, index := i, det := 10 }
      (setLinkState i 5 0 ((flushLink i s).markRetired 29480 i)) := rfl

theorem linkWork_flushLink (h : LinkWork i s0 s) : LinkWork i s0 (flushLink i s) :=
  (((LinkWork.whenS _ _ (fun _ k => k.setBit _ _) h).modLink _).setFld _ _ _ _).setBit _ _

theorem linkWork_retireLink (h : LinkWork i s0 s) : LinkWork i s0 (retireLink i s) := by
  rw [retireLink_eq]
  exact linkWork_retiredNow (linkWork_setLinkState ((linkWork_flushLink h).markRetired _ _) _ _ _) _

theorem link_flushLink (i : Nat) (s : State) : (flushLink i s).link i = (s.link i).flushed := by
  have hl : (whenS (decide (0 < (s.link i).part)) (fun t => t.setBit (hubQA (2 + i) 4) 17) s).links = s.links :=
    whenS_same State.links _ (fun t => t.setBit (hubQA (2 + i) 4) 17) (fun _ => rfl) s
  refine (State.link_modLink_self _ i _).trans ?_
  rw [link_congr hl]

theorem linkReg_ne_hubQReg {k off q r : Nat} (hq : q < 34) (hr : r < 16) : linkA k off ≠ hubQA q r := by
  simp only [linkA, hubQA, hubA]
  omega

/-- A packet whose stages were partly pushed is told of (R285). -/
theorem flushMidItem_flushLink (hi : i < 32) (hp : 0 < (s.link i).part) : (flushLink i s).regBit (hubQA (2 + i) 4) 17 = true := by
  rw [flushLink, decide_eq_true hp, whenS_true, State.regBit_setBit _ _ _ _ _ (by omega),
    if_neg (linkReg_ne_hubQReg (by omega) (by omega)).symm,
    State.regBit_setFld _ _ _ _ _ _ _ (by omega), if_neg (by omega)]
  exact (State.regBit_setBit s _ _ _ _ (by omega)).trans (by simp)

theorem retiredFlag_flushLink (i : Nat) (s : State) : (flushLink i s).regBit (linkA i 4) 5 = true := by
  rw [flushLink, State.regBit_setBit _ _ _ _ _ (by omega)]
  simp

/-- What stands of a link that is retired: its state, its flag, its unit, its empty buffers, and the flag of a packet partly
pushed. -/
structure LinkRetired (i : Nat) (s t : State) : Prop where
  state : t.linkState i = 5
  link : t.link i = (s.link i).flushed
  unit : t.isRetired 29480 i = true
  flag : t.regBit (linkA i 4) 5 = true
  midItem : 0 < (s.link i).part → t.regBit (hubQA (2 + i) 4) 17 = true

theorem linkRetired_retireLink (hi : i < 32) (s : State) : LinkRetired i s (retireLink i s) := by
  rw [retireLink_eq]
  generalize hu : (flushLink i s).markRetired 29480 i = u
  generalize hl : ({ unit := 4, die := 12, pcore := 0, index := i, det := 10 } : Loc) = l
  have hreg : ∀ a ∈ linkRegs i, (retiredNow l (setLinkState i 5 0 u)).reg a = (setLinkState i 5 0 u).reg a :=
    fun a ha => reg_retiredNow hi ha l _
  have hflag : (retiredNow l (setLinkState i 5 0 u)).reg (linkA i 4) = (flushLink i s).reg (linkA i 4) :=
    (hreg _ (by simp [linkRegs])).trans ((reg_setLinkState hi (by simp) 5 0 u).trans (by rw [← hu]; rfl))
  have hqueue : (retiredNow l (setLinkState i 5 0 u)).reg (hubQA (2 + i) 4) = (flushLink i s).reg (hubQA (2 + i) 4) :=
    (hreg _ (by simp [linkRegs])).trans ((reg_setLinkState hi (by simp) 5 0 u).trans (by rw [← hu]; rfl))
  refine ⟨?_, ?_, ?_, ?_, fun hp => ?_⟩
  · exact (regFld_of_reg (hreg _ (by simp [linkRegs])) 0 3).trans (linkState_setLinkState hi (by omega) 0 u)
  · rw [link_congr (links_retiredNow _ _), link_congr (links_setLinkState _ _ _ _), ← hu]
    exact link_flushLink i s
  · refine (linkWork_retiredNow (linkWork_setLinkState (LinkWork.refl i u) i 5 0) l).retired _ _ ?_
    rw [← hu]
    exact isRetired_markRetired_self _ _ _
  · exact (regBit_of_reg hflag 5).trans (retiredFlag_flushLink i s)
  · exact (regBit_of_reg hqueue 17).trans (flushMidItem_flushLink hi hp)

/-! ### Packets sent again (R298) -/

theorem linkWork_sendBlock (h : LinkWork i s0 s) (w : BitVec 64) : LinkWork i s0 (sendBlock i w s) :=
  LinkWork.whenS _ _ (fun _ k => k.send _) h

theorem linkWork_sendAcks (h : LinkWork i s0 s) : LinkWork i s0 (sendAcks i s) :=
  linkWork_sendBlock (linkWork_sendBlock h _) _

/-- Control blocks change nothing but what has left the module. -/
theorem sendBlock_eq (i : Nat) (w : BitVec 64) (s : State) : ∃ out, sendBlock i w s = { s with out := out } := by
  unfold sendBlock
  cases s.linkOpen i
  · exact ⟨s.out, rfl⟩
  · exact ⟨_, rfl⟩

theorem sendAcks_eq (i : Nat) (s : State) : ∃ out, sendAcks i s = { s with out := out } := by
  obtain ⟨out, hack⟩ := sendBlock_eq i (ackBlock (((s.link i).lseqRx + 65535) % 65536)) s
  obtain ⟨out', hcredit⟩ := sendBlock_eq i (creditBlock (s.link i).rxFreed0 (s.link i).rxFreed1) { s with out := out }
  exact ⟨out', by rw [sendAcks, hack, hcredit]⟩

/-- A link that has sent a packet once more. -/
def LinkSt.tried (p : Packet) (l : LinkSt) : LinkSt :=
  { l with tries := SMap.set (fun _ => 0) l.tries p.lseq (SMap.get (fun _ => 0) l.tries p.lseq + 1) }

/-- One packet of the replay buffer is sent again. -/
def resendOne (i : Nat) (p : Packet) (s : State) : State :=
  (((s.modLink i (LinkSt.tried p)).send (.packet i p)).addCnt (linkA i 8) 16 16 1).setBit (linkA i 4) 2

theorem resend_eq (i : Nat) (l : List Packet) (s : State) : resend i l s = forEach l (resendOne i) s := rfl

theorem linkWork_resendOne (h : LinkWork i s0 s) (p : Packet) : LinkWork i s0 (resendOne i p s) :=
  (((h.modLink _).send _).addCnt _ _ _ _).setBit _ _

theorem linkWork_resend (h : LinkWork i s0 s) (l : List Packet) : LinkWork i s0 (resend i l s) :=
  LinkWork.forEach _ _ (fun p _ k => linkWork_resendOne k p) h

theorem reg_resend (i : Nat) (l : List Packet) (s : State) {a : Nat} (h4 : a ≠ linkA i 4) (h8 : a ≠ linkA i 8) :
    (resend i l s).reg a = s.reg a :=
  forEach_same (fun t => t.reg a) l (resendOne i) (fun p _ t => by
    rw [resendOne, State.reg_setBit, if_neg h4, State.reg_addCnt, if_neg h8]
    rfl) s

/-- A flag of the link that is set stays set. -/
theorem linkFlag_resend (l : List Packet) {k : Nat} (h : s.regBit (linkA i 4) k = true) :
    (resend i l s).regBit (linkA i 4) k = true :=
  forEach_keeps (fun t => t.regBit (linkA i 4) k = true) l (resendOne i) (fun p _ t ht => by
    rw [resendOne, State.regBit_setBit _ _ _ _ _ (by omega), if_pos rfl, State.regBit, State.reg_addCnt,
      if_neg (by simp [linkA, hubA])]
    exact Bool.or_eq_true_iff.2 (.inr ht)) s h

theorem swap_resendOne (i : Nat) (p : Packet) (s : State) : ((resendOne i p s).link i).swap = (s.link i).swap := by
  have hlinks : (resendOne i p s).links = (s.modLink i (LinkSt.tried p)).links := rfl
  rw [link_congr hlinks, State.link_modLink_self, LinkSt.tried]

theorem swap_resend (i : Nat) (l : List Packet) (s : State) : ((resend i l s).link i).swap = (s.link i).swap :=
  forEach_same (fun t => (t.link i).swap) l (resendOne i) (fun p _ t => swap_resendOne i p t) s

theorem packet_mem_resend {l : List Packet} {p : Packet} (hp : p ∈ l) (s : State) : Out.packet i p ∈ (resend i l s).out := by
  rw [resend_eq]
  induction l generalizing s with
  | nil => cases hp
  | cons q l ih =>
    rw [forEach_cons]
    rcases List.mem_cons.1 hp with rfl | hp
    · exact (linkWork_resend (LinkWork.refl i _) l).out List.mem_cons_self
    · exact ih hp _

/-! ### A lane is moved (R292, R293) -/

/-- A link for which no swap waits. -/
def LinkSt.swapDone (l : LinkSt) : LinkSt := { l with swap := none }

/-- A logical lane is put onto lane 16, and no swap waits any more. -/
def laneOnSpare (i lane : Nat) (s : State) : State :=
  (((s.setFld (linkA i 0) 4 5 lane).setBit (linkA i 0) 3).setBit (linkA i 4) 3).modLink i LinkSt.swapDone

/-- A lane on which this module receives is retired as the swap ends. -/
def laneRetired (i lane : Nat) (s : State) : State :=
  retiredNow { unit := 3, die := 12, pcore := 0, index := lane, det := 10 } (s.markRetired 29412 (i * 17 + lane))

/-- The state in which a lane has been moved to lane 16, and the traffic still stands. -/
def laneMoved (i lane : Nat) (mine : Bool) (s : State) : State := whenS mine (laneRetired i lane) (laneOnSpare i lane s)

/-- The traffic of a link resumes. -/
def resumeLink (i : Nat) (s : State) : State :=
  pumpLink i (resend i ((sendAcks i s).link i).replay (sendAcks i s))

theorem moveLane_eq (i lane : Nat) (mine : Bool) (s : State) : moveLane i lane mine s =
    if (laneMoved i lane mine s).linkUp i then resumeLink i (laneMoved i lane mine s) else laneMoved i lane mine s := rfl

theorem linkWork_laneRetired (h : LinkWork i s0 s) (lane : Nat) : LinkWork i s0 (laneRetired i lane s) :=
  linkWork_retiredNow (h.markRetired _ _) _

theorem linkWork_laneMoved (h : LinkWork i s0 s) (lane : Nat) (mine : Bool) : LinkWork i s0 (laneMoved i lane mine s) :=
  LinkWork.whenS _ _ (fun _ k => linkWork_laneRetired k lane) ((((h.setFld _ _ _ _).setBit _ _).setBit _ _).modLink _)

theorem links_laneRetired (i lane : Nat) (s : State) : (laneRetired i lane s).links = s.links :=
  (links_retiredNow _ _).trans (State.markRetired_links s _ _)

theorem reg_laneRetired (hi : i < 32) {a : Nat} (ha : a ∈ linkRegs i) (lane : Nat) (s : State) :
    (laneRetired i lane s).reg a = s.reg a :=
  (reg_retiredNow hi ha _ _).trans (State.reg_congr (State.markRetired_regs s _ _) a)

theorem linkWork_resumeLink (h : LinkWork i s0 s) : LinkWork i s0 (resumeLink i s) :=
  linkWork_pumpLink (linkWork_resend (linkWork_sendAcks h) _)

theorem linkWork_moveLane (h : LinkWork i s0 s) (lane : Nat) (mine : Bool) : LinkWork i s0 (moveLane i lane mine s) := by
  rw [moveLane_eq]
  split
  · exact linkWork_resumeLink (linkWork_laneMoved h lane mine)
  · exact linkWork_laneMoved h lane mine

/-- What stands where a lane has been moved: lane 16 carries it, both flags are set, and the link's state is as it was. -/
structure LaneSpared (i lane : Nat) (s t : State) : Prop where
  used : t.regBit (linkA i 0) 3 = true
  lane : t.regFld (linkA i 0) 4 5 = lane
  flag : t.regBit (linkA i 4) 3 = true
  state : t.linkState i = s.linkState i
  swap : (t.link i).swap = none

/-- Lane 16 and the flags stay as they are while the link's status, and its flags that are set, do. -/
theorem LaneSpared.of_status (h : LaneSpared i lane s0 s) (hstatus : t.reg (linkA i 0) = s.reg (linkA i 0))
    (hflag : t.regBit (linkA i 4) 3 = true) (hswap : (t.link i).swap = (s.link i).swap) : LaneSpared i lane s0 t where
  used := (regBit_of_reg hstatus 3).trans h.used
  lane := (regFld_of_reg hstatus 4 5).trans h.lane
  flag := hflag
  state := (regFld_of_reg hstatus 0 3).trans h.state
  swap := hswap.trans h.swap

theorem status_ne_flags (i : Nat) : linkA i 0 ≠ linkA i 4 := by simp [linkA, hubA]

theorem link_laneOnSpare (i lane : Nat) (s : State) : (laneOnSpare i lane s).link i = (s.link i).swapDone := by
  rw [laneOnSpare, State.link_modLink_self, link_congr (State.setBit_links _ _ _), link_congr (State.setBit_links _ _ _),
    link_congr (State.setFld_links _ _ _ _ _)]

theorem reg_laneOnSpare (i lane : Nat) (s : State) (a : Nat) : (laneOnSpare i lane s).reg a =
    (((s.setFld (linkA i 0) 4 5 lane).setBit (linkA i 0) 3).setBit (linkA i 4) 3).reg a := by
  rw [laneOnSpare, State.reg_congr (State.modLink_regs _ i _)]

theorem regBit_laneOnSpare (i lane j : Nat) (s : State) : (laneOnSpare i lane s).regBit (linkA i 0) j =
    (decide (j = 3) || (s.setFld (linkA i 0) 4 5 lane).regBit (linkA i 0) j) := by
  rw [regBit_of_reg (reg_laneOnSpare i lane s _), State.regBit_setBit _ _ _ _ _ (by omega), if_neg (status_ne_flags i),
    State.regBit_setBit _ _ _ _ _ (by omega), if_pos rfl]

theorem laneSpared_laneOnSpare (hlane : lane < 32) (s : State) : LaneSpared i lane s (laneOnSpare i lane s) where
  used := by simp [regBit_laneOnSpare]
  lane := by
    refine (State.regFld_congr fun j hj _ => (regBit_laneOnSpare i lane j s).trans ?_).trans
      ((State.regFld_setFld_self s (linkA i 0) 4 5 lane (by omega)).trans (Nat.mod_eq_of_lt hlane))
    rw [decide_eq_false (by omega), Bool.false_or]
  flag := by
    rw [regBit_of_reg (reg_laneOnSpare i lane s _), State.regBit_setBit _ _ _ _ _ (by omega)]
    simp
  state := by
    refine State.regFld_congr fun j _ hj => (regBit_laneOnSpare i lane j s).trans ?_
    rw [decide_eq_false (by omega), Bool.false_or, State.regBit_setFld _ _ _ _ _ _ _ (by omega), if_neg (by omega)]
  swap := congrArg LinkSt.swap (link_laneOnSpare i lane s)

theorem laneSpared_laneMoved (hi : i < 32) (hlane : lane < 32) (mine : Bool) (s : State) :
    LaneSpared i lane s (laneMoved i lane mine s) := by
  have h := laneSpared_laneOnSpare (i := i) hlane s
  cases mine
  · exact h
  · rw [laneMoved, whenS_true]
    refine h.of_status (reg_laneRetired hi (by simp [linkRegs]) lane _) ?_ ?_
    · exact (regBit_of_reg (reg_laneRetired hi (by simp [linkRegs]) lane _) 3).trans h.flag
    · exact congrArg LinkSt.swap (link_congr (links_laneRetired i lane _) i)

theorem replay_laneMoved (i lane : Nat) (mine : Bool) (s : State) :
    ((laneMoved i lane mine s).link i).replay = (s.link i).replay := by
  have hlinks : (laneMoved i lane mine s).links = (laneOnSpare i lane s).links :=
    whenS_same State.links mine (laneRetired i lane) (links_laneRetired i lane) _
  rw [link_congr hlinks, link_laneOnSpare, LinkSt.swapDone]

/-- The receiver's lane is retired with its unit. -/
theorem laneUnit_laneMoved (i lane : Nat) (s : State) : (laneMoved i lane true s).isRetired 29412 (i * 17 + lane) = true := by
  rw [laneMoved, whenS_true, laneRetired]
  exact (linkWork_retiredNow (LinkWork.refl i _) _).retired _ _ (isRetired_markRetired_self _ _ _)

theorem linkReg_not_depthRegs (hi : i < 32) {off : Nat} (ho : off < 0x20) : linkA i off ∉ depthRegs (2 + i) := by
  simp only [depthRegs, eventRegs, List.mem_append, List.mem_cons, List.not_mem_nil, or_false, linkA, hubQA, hubA, dpSticky]
  omega

theorem laneSpared_resumeLink (hi : i < 32) (h : LaneSpared i lane s0 s) : LaneSpared i lane s0 (resumeLink i s) := by
  obtain ⟨out, hacks⟩ := sendAcks_eq i s
  rw [resumeLink, hacks]
  generalize hl : (({ s with out := out } : State).link i).replay = l
  have hflag : (resend i l { s with out := out }).regBit (linkA i 4) 3 = true := linkFlag_resend l h.flag
  refine h.of_status ?_ ?_ ?_
  · exact (regs_pumpLink i _ _ (linkReg_not_depthRegs hi (by omega))).trans
      (reg_resend i l _ (status_ne_flags i) (by simp [linkA, hubA]))
  · exact (regBit_of_sameRegs (regs_pumpLink i _) (linkReg_not_depthRegs hi (by omega)) 3).trans hflag
  · exact (swap_pumpLink i _).trans (swap_resend i l _)

/-- Traffic resumes with every packet that is not acknowledged. -/
theorem packet_mem_resumeLink {p : Packet} (hp : p ∈ (s.link i).replay) : Out.packet i p ∈ (resumeLink i s).out := by
  obtain ⟨out, hacks⟩ := sendAcks_eq i s
  rw [resumeLink, hacks]
  exact (linkWork_pumpLink (LinkWork.refl i _)).out (packet_mem_resend hp _)

theorem laneSpared_moveLane (hi : i < 32) (hlane : lane < 32) (mine : Bool) (s : State) :
    LaneSpared i lane s (moveLane i lane mine s) := by
  have h := laneSpared_laneMoved hi hlane mine s
  rw [moveLane_eq]
  split
  · exact laneSpared_resumeLink hi h
  · exact h

theorem packet_mem_moveLane (hi : i < 32) (hlane : lane < 32) (mine : Bool) (hup : s.linkUp i = true) {p : Packet}
    (hp : p ∈ (s.link i).replay) : Out.packet i p ∈ (moveLane i lane mine s).out := by
  have hup' : (laneMoved i lane mine s).linkUp i = true := by
    rw [State.linkUp, (laneSpared_laneMoved hi hlane mine s).state]
    exact hup
  rw [moveLane_eq, if_pos hup']
  refine packet_mem_resumeLink ?_
  rw [replay_laneMoved]
  exact hp

theorem laneUnit_moveLane (i lane : Nat) (s : State) : (moveLane i lane true s).isRetired 29412 (i * 17 + lane) = true := by
  rw [moveLane_eq]
  split
  · exact (linkWork_resumeLink (LinkWork.refl i _)).retired _ _ (laneUnit_laneMoved i lane s)
  · exact laneUnit_laneMoved i lane s

/-! ### A lane fails (R292, R293) -/

theorem exec_laneFailure (i lane : Nat) (s : State) : exec (.laneFailure i lane) s = answer s (laneFails i lane s) := rfl

theorem linkAlive_of_linkState (h1 : 1 ≤ s.linkState i) (h3 : s.linkState i ≤ 3) : s.linkAlive i = true := by
  simp [State.linkAlive, h1, h3]

/-- A link that holds one more lane as failed. -/
def LinkSt.lost (lane : Nat) (l : LinkSt) : LinkSt := { l with failed := l.failed ++ [lane] }

/-- A link that has asked its peer for a swap. -/
def LinkSt.asking (lane : Nat) (l : LinkSt) : LinkSt := { l with swap := some lane }

/-- A lane that fails anew while the link has a signal is recorded; the link is retired where lane 16 can carry no lane more, and
else a swap is asked for. -/
theorem laneFails_cases (ha : s.linkAlive i = true) (hlane : lane < 16) (hnew : lane ∉ (s.link i).failed) : laneFails i lane s =
    if s.spareInUse i ∨ (s.link i).swap.isSome ∨ (s.link i).failed.contains 16 then retireLink i (s.modLink i (LinkSt.lost lane))
    else ((s.modLink i (LinkSt.lost lane)).modLink i (LinkSt.asking lane)).send (.block i (swapBlock lane false)) := by
  have hcomes : ¬(!s.linkAlive i ∨ 17 ≤ lane ∨ (s.link i).failed.contains lane) := by
    rintro (h | h | h)
    · simp [ha] at h
    · omega
    · exact hnew (List.contains_iff_mem.1 h)
  have hspare : ¬(lane = 16 ∧ !(s.modLink i (LinkSt.lost lane)).spareInUse i) := by omega
  exact (if_neg hcomes).trans (if_neg hspare)

/-- The first failure: the peer is asked for a swap. -/
theorem laneFailure_asks (ha : s.linkAlive i = true) (hlane : lane < 16) (hnew : lane ∉ (s.link i).failed)
    (hfree : s.spareInUse i = false) (hswap : (s.link i).swap = none) (hgood : 16 ∉ (s.link i).failed) :
    ∃ t, exec (.laneFailure i lane) s = .next t ∧
      t.link i = { s.link i with failed := (s.link i).failed ++ [lane], swap := some lane } ∧
      (∀ j, j ≠ i → t.link j = s.link j) ∧ t = { s with links := t.links, out := .block i (swapBlock lane false) :: s.out } := by
  have hasks : ¬(s.spareInUse i ∨ (s.link i).swap.isSome ∨ (s.link i).failed.contains 16) := by
    simp [hfree, hswap, hgood]
  rw [exec_laneFailure, laneFails_cases ha hlane hnew, if_neg hasks]
  refine ⟨_, answer_eq rfl, ?_, ?_, rfl⟩
  · rw [link_congr (State.send_links _ _), State.link_modLink_self, State.link_modLink_self]
    rfl
  · exact ((((LinkWork.refl i s).modLink _).modLink _).send _).others

/-- A failure while lane 16 is in use: the link is retired. -/
theorem laneFailure_retires (hi : i < 32) (ha : s.linkAlive i = true) (hlane : lane < 16) (hnew : lane ∉ (s.link i).failed)
    (hused : s.spareInUse i = true) :
    ∃ t, exec (.laneFailure i lane) s = .next t ∧ LinkRetired i (s.modLink i (LinkSt.lost lane)) t ∧ LinkWork i s t := by
  have hwork := linkWork_retireLink ((LinkWork.refl i s).modLink (LinkSt.lost lane))
  rw [exec_laneFailure, laneFails_cases ha hlane hnew, if_pos (.inl hused)]
  exact ⟨_, answer_eq hwork.pending, linkRetired_retireLink hi _, hwork⟩

/-! ### The swap handshake (R292) -/

theorem exec_laneSwap (i : Nat) (w : BitVec 64) (cw : Codeword) (s : State) :
    exec (.laneSwap i w cw) s = answer s (rxBlock i 0xA6 w cw (takeSwap i (blkLane w) (blkSwapAck w)) s) := rfl

theorem exec_laneSwap_swapBlock (ha : s.linkAlive i = true) (hlane : lane < 16) {cw : Codeword} (hcw : cw.uncorr = false)
    (isAck : Bool) :
    exec (.laneSwap i (swapBlock lane isAck) cw) s = answer s (takeSwap i lane isAck (noteCodeword i cw s)) := by
  rw [exec_laneSwap, rxBlock_swapBlock ha hcw, blkLane_swapBlock (by omega), blkSwapAck_swapBlock]

/-- The codeword that brings a block leaves the link's status. -/
theorem status_noteCodeword (i : Nat) (cw : Codeword) (s : State) : (noteCodeword i cw s).reg (linkA i 0) = s.reg (linkA i 0) :=
  regs_noteCodeword i cw s _ (by simp [linkA, hubA])

theorem linkState_noteCodeword (i : Nat) (cw : Codeword) (s : State) : (noteCodeword i cw s).linkState i = s.linkState i :=
  regFld_of_reg (status_noteCodeword i cw s) 0 3

theorem linkAlive_noteCodeword (i : Nat) (cw : Codeword) (s : State) : (noteCodeword i cw s).linkAlive i = s.linkAlive i := by
  rw [State.linkAlive, linkState_noteCodeword]
  rfl

theorem takeSwap_request (ha : s.linkAlive i = true) (hlane : lane < 16) (hfree : s.spareInUse i = false) :
    takeSwap i lane false s = moveLane i lane false (s.send (.block i (swapBlock lane true))) := by
  rw [takeSwap, if_neg (by simp [ha, hlane]), if_neg Bool.false_ne_true, hfree, if_neg Bool.false_ne_true]

theorem takeSwap_ack (ha : s.linkAlive i = true) (hlane : lane < 16) (hswap : (s.link i).swap = some lane) :
    takeSwap i lane true s = moveLane i lane true s := by
  rw [takeSwap, if_neg (by simp [ha, hlane]), if_pos rfl, if_pos hswap]

/-- What either end of a swap leaves: the lane on lane 16, the traffic resumed, and the rest of the machine as it was. -/
structure SwapEnds (i lane : Nat) (s t : State) : Prop where
  spared : LaneSpared i lane s t
  packets : s.linkUp i = true → ∀ p ∈ (s.link i).replay, Out.packet i p ∈ t.out
  work : LinkWork i s t

/-- A lane moved after the codeword of its block, and after control blocks, ends the swap. -/
theorem swapEnds_moveLane (hi : i < 32) (hlane : lane < 16) (mine : Bool) (cw : Codeword) {u : State}
    (hu : LinkWork i s u) (hr : u.regs = (noteCodeword i cw s).regs)
    (hl : u.links = (noteCodeword i cw s).links) : SwapEnds i lane s (moveLane i lane mine u) := by
  have hstate : u.linkState i = s.linkState i :=
    (regFld_of_reg (State.reg_congr hr _) 0 3).trans (linkState_noteCodeword i cw s)
  obtain ⟨used, hlane', flag, state, swap⟩ := laneSpared_moveLane hi (show lane < 32 by omega) mine u
  refine ⟨⟨used, hlane', flag, state.trans hstate, swap⟩, fun hup p hp => ?_, ?_⟩
  · have hup' : u.linkUp i = true := by
      rw [State.linkUp, hstate]
      exact hup
    obtain ⟨n, sums, hlink⟩ := link_noteCodeword i cw s
    refine packet_mem_moveLane hi (by omega) mine hup' ?_
    rw [link_congr hl, hlink]
    exact hp
  · exact linkWork_moveLane hu lane mine

/-- The peer asks: the request is acknowledged, and the lane moves. -/
theorem laneSwap_request (hi : i < 32) (ha : s.linkAlive i = true) (hlane : lane < 16) (hfree : s.spareInUse i = false)
    {cw : Codeword} (hcw : cw.uncorr = false) :
    ∃ t, exec (.laneSwap i (swapBlock lane false) cw) s = .next t ∧ Out.block i (swapBlock lane true) ∈ t.out ∧
      SwapEnds i lane s t := by
  have hfree' : (noteCodeword i cw s).spareInUse i = false := (regBit_of_reg (status_noteCodeword i cw s) 3).trans hfree
  have hwork := (linkWork_noteCodeword (LinkWork.refl i s) cw).send (.block i (swapBlock lane true))
  have hends := swapEnds_moveLane (mine := false) hi hlane cw hwork (State.send_regs _ _) (State.send_links _ _)
  rw [exec_laneSwap_swapBlock ha hlane hcw, takeSwap_request ((linkAlive_noteCodeword i cw s).trans ha) hlane hfree']
  exact ⟨_, answer_eq hends.work.pending, (linkWork_moveLane (LinkWork.refl i _) lane false).out List.mem_cons_self, hends⟩

/-- The peer acknowledges: the lane moves, and the lane that failed is retired. -/
theorem laneSwap_ack (hi : i < 32) (ha : s.linkAlive i = true) (hlane : lane < 16) (hswap : (s.link i).swap = some lane)
    {cw : Codeword} (hcw : cw.uncorr = false) :
    ∃ t, exec (.laneSwap i (swapBlock lane true) cw) s = .next t ∧ t.isRetired 29412 (i * 17 + lane) = true ∧
      SwapEnds i lane s t := by
  obtain ⟨n, sums, hlink⟩ := link_noteCodeword i cw s
  have hswap' : ((noteCodeword i cw s).link i).swap = some lane := by
    rw [hlink]
    exact hswap
  have hends := swapEnds_moveLane (mine := true) hi hlane cw (linkWork_noteCodeword (LinkWork.refl i s) cw) rfl rfl
  rw [exec_laneSwap_swapBlock ha hlane hcw, takeSwap_ack ((linkAlive_noteCodeword i cw s).trans ha) hlane hswap']
  exact ⟨_, answer_eq hends.work.pending, laneUnit_moveLane i lane _, hends⟩

/-- Settles O27: a lane that fails is either recorded with a request to the peer, or retires the link; a LANE_SWAP of either kind
moves the lane. -/
theorem oneLaneIsSparedASecondRetiresTheLink : Obligations.OneLaneIsSparedASecondRetiresTheLink := by
  refine ⟨fun s i lane h1 h3 hlane hnew hfree hswap hgood =>
    laneFailure_asks (linkAlive_of_linkState h1 h3) hlane hnew hfree hswap hgood, fun s i lane hi h1 h3 hlane hnew hused => ?_,
    fun s i lane cw hi h1 h3 hlane hfree hcw => ?_, fun s i lane cw hi h1 h3 hlane hswap hcw => ?_⟩
  · obtain ⟨t, hexec, hret, hwork⟩ := laneFailure_retires hi (linkAlive_of_linkState h1 h3) hlane hnew hused
    have hpart : ((s.modLink i (LinkSt.lost lane)).link i).part = (s.link i).part := by
      rw [State.link_modLink_self]
      rfl
    refine ⟨t, hexec, hret.state, ?_, ?_, ?_, fun hp => hret.midItem (hpart.symm ▸ hp), hret.unit, hret.flag, hwork.others,
      hwork.bytes, hwork.cores, hwork.tk, hwork.sec⟩
    all_goals
      rw [hret.link]
      rfl
  · obtain ⟨t, hexec, hack, hends⟩ := laneSwap_request hi (linkAlive_of_linkState h1 h3) hlane hfree hcw
    exact ⟨t, hexec, hack, hends.spared.used, hends.spared.lane, hends.spared.flag, hends.spared.state, hends.packets,
      hends.work.others, hends.work.bytes, hends.work.cores, hends.work.tk, hends.work.sec⟩
  · obtain ⟨t, hexec, hunit, hends⟩ := laneSwap_ack hi (linkAlive_of_linkState h1 h3) hlane hswap hcw
    exact ⟨t, hexec, hends.spared.used, hends.spared.lane, hends.spared.flag, hends.spared.swap, hunit, hends.packets,
      hends.work.others, hends.work.bytes, hends.work.cores, hends.work.tk, hends.work.sec⟩

end Sys2Proof.Machine
end

section
/-! PROOFS. Reads of 64-bit quantities (R13, R427). The rules come first: where a low word and a TK_Q_PEAK can stand in the
register map, what a read on a path leaves of the rest of the machine, and which value it returns; then the four reads of the
rule. -/

namespace Sys2Proof.Machine

variable {s t : State} {p : Path} {a : Nat}

/-! ### Where low words and TK_Q_PEAK stand -/

/-- What a register address decodes to: the offset that a hub, die or core register is named by is that of its address. -/
theorem regAt_cases (a : Nat) :
    regAt a = .none ∨ (0x700000000000 ≤ a ∧ regAt a = .hub (a - 0x700000000000)) ∨
    (0x710000000000 ≤ a ∧ ((∃ d, regAt a = .die d ((a - 0x710000000000) % 2 ^ 32)) ∨ (∃ c td w, regAt a = .watch c td w) ∨
      ∃ c blk, regAt a = .core c blk ((a - 0x710000000000) % 2 ^ 32 % 0x100000 % 4096))) := by
  unfold regAt
  split
  next hhub =>
    split
    · exact .inr (.inl ⟨hhub.1, rfl⟩)
    · exact .inl rfl
  next =>
    dsimp only
    split
    · exact .inl rfl
    next hdie =>
      have hle : 0x710000000000 ≤ a := Nat.le_of_not_lt fun hlt => hdie (.inl hlt)
      split
      · exact .inr (.inr ⟨hle, .inl ⟨_, rfl⟩⟩)
      split
      · split
        · exact .inr (.inr ⟨hle, .inr (.inl ⟨_, _, _, rfl⟩)⟩)
        · exact .inl rfl
      split
      · exact .inr (.inr ⟨hle, .inr (.inr ⟨_, _, rfl⟩)⟩)
      · exact .inl rfl

/-- The place within a 16-byte line survives the decoding of an address. -/
theorem mod16_of_regAt_hub {o : Nat} (h : regAt a = .hub o) : a % 16 = o % 16 := by
  have hcases := regAt_cases a
  simp [h] at hcases
  omega

theorem mod16_of_regAt_die {d o : Nat} (h : regAt a = .die d o) : a % 16 = o % 16 := by
  have hcases := regAt_cases a
  simp [h] at hcases
  omega

theorem mod16_of_regAt_core {c blk r : Nat} (h : regAt a = .core c blk r) : a % 16 = r % 16 := by
  have hcases := regAt_cases a
  simp [h] at hcases
  omega

/-- A low word never lies at the second word of a line. -/
theorem mod16_of_isLow64 (h : isLow64 a = true) : a % 16 ≠ 4 := by
  unfold isLow64 at h
  split at h
  next o hat =>
    rw [mod16_of_regAt_hub hat]
    simp at h
    omega
  next o hat =>
    rw [mod16_of_regAt_die hat]
    simp at h
    omega
  next blk r hat =>
    rw [mod16_of_regAt_core hat]
    simp at h
    omega
  next => cases h

theorem mod16_of_isPeak (h : isPeak a = true) : a % 16 = 8 := by
  unfold isPeak at h
  split at h
  next o hat =>
    rw [mod16_of_regAt_hub hat]
    simp at h
    exact h.2
  next blk r hat =>
    rw [mod16_of_regAt_core hat]
    simp at h
    exact h.2
  next => cases h

/-- The high word of a 64-bit quantity is no TK_Q_PEAK. -/
theorem isPeak_highWord (h : isLow64 a = true) : isPeak (a + 4) = false := by
  have hlow := mod16_of_isLow64 h
  refine Bool.eq_false_iff.mpr fun hpeak => ?_
  have := mod16_of_isPeak hpeak
  omega

/-- The low word of a 64-bit quantity is no TK_Q_PEAK: the two kinds stand in different blocks. -/
theorem isPeak_lowWord (h : isLow64 a = true) : isPeak a = false := by
  unfold isLow64 at h
  unfold isPeak
  cases hat : regAt a with
  | hub o =>
    simp [hat] at h ⊢
    omega
  | core c blk r =>
    simp [hat] at h ⊢
    omega
  | die d o => rfl
  | watch c td w => rfl
  | none => rfl

/-! ### What a read on a path leaves -/

/-- What a read on path p may change before its value goes out: the latch of p and the marks of the fault log. -/
structure PathRead (p : Path) (s t : State) : Prop where
  others : ∀ q, q ≠ p → t.latch q = s.latch q
  frame : t = { s with
    port := { s.port with latch0 := t.port.latch0, latch1 := t.port.latch1 }, svc := { s.svc with latch := t.svc.latch },
    fx := { s.fx with keys := t.fx.keys } }

theorem PathRead.refl (p : Path) (s : State) : PathRead p s s := ⟨fun _ _ => rfl, rfl⟩

theorem latch_setLatch_self (p : Path) (l : Latch) (s : State) : (setLatch p l s).latch p = some l := by
  cases p <;> rfl

theorem latch_setLatch_other {q : Path} (h : q ≠ p) (l : Latch) (s : State) : (setLatch p l s).latch q = s.latch q := by
  cases p <;> cases q <;> simp_all [setLatch, State.latch]

theorem PathRead.setLatch (h : PathRead p s t) (l : Latch) : PathRead p s (setLatch p l t) := by
  obtain ⟨ho, hf⟩ := h
  refine ⟨fun q hq => (latch_setLatch_other hq l t).trans (ho q hq), ?_⟩
  cases p <;> (rw [hf]; rfl)

theorem PathRead.whenS (b : Bool) {f : State → State} (hf : ∀ t, PathRead p s t → PathRead p s (f t)) (h : PathRead p s t) :
    PathRead p s (whenS b f t) := by
  cases b
  · exact h
  · exact hf t h

/-- The marks of the fault log are on no path. -/
theorem PathRead.modKeys (h : PathRead p s t) (g : List LogKey → List LogKey) :
    PathRead p s (t.modFx fun f => { f with keys := g f.keys }) := by
  obtain ⟨ho, hf⟩ := h
  exact ⟨ho, by rw [hf]; rfl⟩

theorem PathRead.regs (h : PathRead p s t) : t.regs = s.regs := by rw [h.frame]
theorem PathRead.out (h : PathRead p s t) : t.out = s.out := by rw [h.frame]
theorem PathRead.pending (h : PathRead p s t) : t.pending = s.pending := by rw [h.frame]

/-- The state in which the value has gone out. -/
theorem PathRead.sameRegs_send (h : PathRead p s t) (o : Out) : s.sameRegs (t.send o) [] :=
  sameRegs_of_regs (sameRegs_refl s []) h.regs

/-- A read of a register of the fault log marks its entry as read. -/
def markRead (a : Nat) (s : State) : State :=
  match logEntryAt a with
  | some i => s.modFx fun f => { f with keys := f.keys.map fun k => if k.ix = i then { k with read := true } else k }
  | none => s

theorem PathRead.markRead (h : PathRead p s t) (a : Nat) : PathRead p s (markRead a t) := by
  unfold Machine.markRead
  split
  · exact h.modKeys _
  · exact h

theorem markRead_none (h : logEntryAt a = none) (s : State) : markRead a s = s := by
  unfold markRead
  rw [h]

theorem latch_markRead (a : Nat) (s : State) (p : Path) : (markRead a s).latch p = s.latch p := by
  unfold markRead
  split <;> rfl

/-- A read of the low word of a 64-bit quantity latches its high word for the path. -/
def latchHigh (p : Path) (a : Nat) (s : State) : State :=
  whenS (decide (accessStatus s a = stOK) && isLow64 a) (setLatch p { addr := a, v := regValue s (a + 4) }) s

theorem PathRead.latchHigh (p : Path) (a : Nat) (s : State) : PathRead p s (latchHigh p a s) :=
  PathRead.whenS _ (fun _ h => h.setLatch _) (PathRead.refl p s)

theorem latch_latchHigh (hok : accessStatus s a = stOK) (hlow : isLow64 a = true) :
    (latchHigh p a s).latch p = some { addr := a, v := regValue s (a + 4) } := by
  rw [latchHigh, hok, hlow]
  exact latch_setLatch_self p _ s

theorem latchHigh_refused (hst : accessStatus s a ≠ stOK) : latchHigh p a s = s := by
  simp [latchHigh, hst]

/-- What a read of a register other than a TK_Q_PEAK, or one that is refused, leaves. -/
theorem readReg_state (h : (decide (accessStatus s a = stOK) && isPeak a) = false) :
    (readReg p a s).2.2 = markRead a (latchHigh p a s) := by
  simp only [readReg, h, whenS_false]
  rfl

/-! ### The value that a read returns -/

/-- No latch of the path belongs to the word before a: the value is the live one. -/
theorem readReg_live (h : ∀ l, s.latch p = some l → l.addr + 4 ≠ a) : (readReg p a s).1 = regValue s a := by
  unfold readReg
  dsimp only
  split
  next l hl => exact if_neg fun hc => h l hl hc.1
  next => rfl

/-- The latch of the path belongs to the word before: the value is the latched one. -/
theorem readReg_latched {v : Word} (hok : accessStatus s (a + 4) = stOK) (hlow : isLow64 a = true)
    (hl : s.latch p = some { addr := a, v := v }) : (readReg p (a + 4) s).1 = v := by
  simp only [readReg, hl, hok, hlow, and_self, if_true]

/-- A read that is refused returns no latch. -/
theorem readReg_refused (hst : accessStatus s a ≠ stOK) : (readReg p a s).1 = regValue s a := by
  unfold readReg
  dsimp only
  split
  next => exact if_neg fun hc => hst hc.2.2
  next => rfl

/-! ### The reads -/

theorem exec_lowWordRead (p : Path) (a : Nat) (s : State) : exec (.lowWordRead p a) s =
    answer s ((readReg p a s).2.2.send (.regValue p (readReg p a s).1 (accessStatus s a))) := rfl

/-- A read of a register other than a TK_Q_PEAK: its value goes out, and nothing but what is the path's own changes. -/
theorem lowWordRead_next (hok : accessStatus s a = stOK) (hpeak : isPeak a = false) :
    ∃ u, PathRead p s u ∧ u.latch p = (latchHigh p a s).latch p ∧
      exec (.lowWordRead p a) s = .next (u.send (.regValue p (readReg p a s).1 stOK)) := by
  have hread : PathRead p s (markRead a (latchHigh p a s)) := (PathRead.latchHigh p a s).markRead a
  refine ⟨_, hread, latch_markRead a _ p, ?_⟩
  rw [exec_lowWordRead, readReg_state (by simp [hpeak]), hok]
  exact answer_eq hread.pending

/-- A read of a high word: its value goes out, and no stored register and no other latch changes. -/
theorem lowWordRead_highWord {v : Word} (hok : accessStatus s (a + 4) = stOK) (hlow : isLow64 a = true)
    (hv : (readReg p (a + 4) s).1 = v) :
    ∃ t, exec (.lowWordRead p (a + 4)) s = .next t ∧ t.out = .regValue p v stOK :: s.out ∧
      (∀ q, q ≠ p → t.latch q = s.latch q) ∧ s.sameRegs t [] := by
  obtain ⟨u, hread, -, hexec⟩ := lowWordRead_next (p := p) hok (isPeak_highWord hlow)
  rw [hv] at hexec
  exact ⟨_, hexec, congrArg _ hread.out, hread.others, hread.sameRegs_send _⟩

theorem lowWordRead_lowWord (hok : accessStatus s a = stOK) (hlow : isLow64 a = true)
    (hother : ∀ l, s.latch p = some l → l.addr + 4 ≠ a) :
    ∃ t, exec (.lowWordRead p a) s = .next t ∧ t.out = .regValue p (regValue s a) stOK :: s.out ∧
      t.latch p = some { addr := a, v := regValue s (a + 4) } ∧ (∀ q, q ≠ p → t.latch q = s.latch q) ∧
      t = { s with port := { s.port with latch0 := t.port.latch0, latch1 := t.port.latch1 },
                   svc := { s.svc with latch := t.svc.latch }, fx := { s.fx with keys := t.fx.keys }, out := t.out } := by
  obtain ⟨u, hread, hlatch, hexec⟩ := lowWordRead_next (p := p) hok (isPeak_lowWord hlow)
  rw [readReg_live hother] at hexec
  refine ⟨_, hexec, congrArg _ hread.out, hlatch.trans (latch_latchHigh hok hlow), hread.others, ?_⟩
  rw [hread.frame]
  rfl

/-- A read between words is refused, and changes nothing. -/
theorem lowWordRead_unaligned (hunaligned : a % 4 ≠ 0) (hlog : logEntryAt a = none) :
    exec (.lowWordRead p a) s = .next { s with out := .regValue p (regValue s a) stProgramError :: s.out } := by
  have hst : accessStatus s a = stProgramError := if_pos hunaligned
  have hrefused : accessStatus s a ≠ stOK := by
    rw [hst]
    decide
  rw [exec_lowWordRead, readReg_state (by simp [hrefused]), latchHigh_refused hrefused, markRead_none hlog,
    readReg_refused hrefused, hst]
  rfl

/-- Settles O17: a low word's read latches its high word for its path; a high word's read returns the latch of its own register
and else the live word. -/
theorem lowWordReadLatchesTheHighWord : Obligations.LowWordReadLatchesTheHighWord := by
  refine ⟨fun s p a hok hlow hother => lowWordRead_lowWord hok hlow hother,
    fun s p a v hok hlow hl => lowWordRead_highWord hok hlow (readReg_latched hok hlow hl),
    fun s p a hok hlow hother => lowWordRead_highWord hok hlow (readReg_live fun l hl hne => ?_),
    fun s p a hunaligned hlog => lowWordRead_unaligned hunaligned hlog⟩
  exact hother l hl (Nat.add_right_cancel hne)

end Sys2Proof.Machine
end

section
/-! PROOFS. The block: its queue of commands, the words of macro-instructions (R200, R201), what every step keeps (`Keeps` of
Laws/Keeps.lean, taken over the whole of `exec`), the frame number (R37, R38), and the state after reset (R429). -/

namespace Sys2Proof.Machine

variable {s t : State}

/-! ### The queue of commands -/

/-- Settles O1: a step is the meaning of the front command, on the state with the rest of the queue. -/
theorem stepRunsTheFrontCommand : Obligations.StepRunsTheFrontCommand := by
  refine ⟨fun c q s h => ?_, fun s h => ?_⟩
  · rw [step, h]
  · rw [step, h]

/-- Every command answers a next state, and no command touches the queue. -/
theorem exec_next (c : Instr) (s : State) : ∃ t, exec c s = .next t ∧ t.pending = s.pending := by
  cases c <;> exact ⟨_, rfl, rfl⟩

/-- The state after a step; every step answers one. -/
def State.stepped (s : State) : State :=
  match step s with
  | .next t => t
  | .fault _ => s
  | .refused _ => s

theorem step_stepped (s : State) : step s = .next s.stepped ∧ s.stepped.pending = s.pending.tail := by
  cases hq : s.pending with
  | nil =>
    have hs : step s = .next s := by rw [step, hq]
    simp [State.stepped, hs, hq]
  | cons c rest =>
    obtain ⟨t, hexec, ht⟩ := exec_next c { s with pending := rest }
    have hs : step s = .next t := by rw [step, hq]; exact hexec
    simp [State.stepped, hs, ht]

/-- The state after n steps. -/
def State.after (s : State) : Nat → State
  | 0 => s
  | n + 1 => (s.after n).stepped

theorem pending_after (s : State) (n : Nat) : (s.after n).pending = s.pending.drop n := by
  induction n with
  | zero => simp [State.after]
  | succ n ih =>
    obtain ⟨-, hp⟩ := step_stepped (s.after n)
    rw [State.after, hp, ih, List.tail_drop]

/-- Settles O2: n steps take the first n commands of the queue. -/
theorem queueIsServedInOrder : Obligations.QueueIsServedInOrder := by
  intro s
  refine ⟨s.after, rfl, fun n _ => ⟨?_, pending_after s n⟩, ?_⟩
  · obtain ⟨hs, -⟩ := step_stepped (s.after n)
    exact hs
  · rw [pending_after, List.drop_length]

/-! ### Words of macro-instructions (R200, R201, Table 8.2) -/

theorem opcode_append (b : BitVec 248) (o : BitVec 8) : (b ++ o).extractLsb' 0 8 = o := BitVec.extractLsb'_append_eq_right
theorem body_append (b : BitVec 248) (o : BitVec 8) : (b ++ o).extractLsb' 8 248 = b := BitVec.extractLsb'_append_eq_left

/-- A word is its body before its opcode. -/
theorem append_of_opcode {w : BitVec 256} {n : Nat} (h : (w.extractLsb' 0 8).toNat = n) :
    w.extractLsb' 8 248 ++ BitVec.ofNat 8 n = w := by
  have ho : BitVec.ofNat 8 n = w.extractLsb' 0 8 := by rw [← h, BitVec.ofNat_toNat, BitVec.setWidth_eq]
  refine BitVec.eq_of_toNat_eq ?_
  rw [ho, BitVec.toNat_append, BitVec.extractLsb'_toNat, BitVec.extractLsb'_toNat, Nat.shiftRight_zero]
  have hlt := w.isLt
  rw [Nat.mod_eq_of_lt (by rw [Nat.shiftRight_eq_div_pow]; omega), ← Nat.shiftLeft_add_eq_or_of_lt (Nat.mod_lt _ (by positivity)),
    Nat.shiftLeft_eq, Nat.shiftRight_eq_div_pow]
  omega

theorem decode_of_encode {i : Instr} {core : Nat} {w : BitVec 256} (h : encodeMacroOp i = some (core, w)) :
    decodeMacroOp core w = some i := by
  unfold encodeMacroOp at h
  split at h
  case h_18 => cases h
  all_goals
    obtain ⟨rfl, rfl⟩ := Prod.mk.inj (Option.some.inj h)
    simp [decodeMacroOp, opcode_append, body_append]

theorem encode_of_decode {i : Instr} {core : Nat} {w : BitVec 256} (h : decodeMacroOp core w = some i) :
    encodeMacroOp i = some (core, w) := by
  unfold decodeMacroOp at h
  dsimp only at h
  split at h
  case h_18 => cases h
  all_goals
    cases h
    exact congrArg (fun v => some (core, v)) (append_of_opcode ‹_›)

/-- The opcodes of Table 8.2. -/
theorem decode_isSome_iff (core : Nat) (w : BitVec 256) : (decodeMacroOp core w).isSome = true ↔ (w.extractLsb' 0 8).toNat ∈
    [0x00, 0x01, 0x02, 0x03, 0x04, 0x08, 0x09, 0x0A, 0x0B, 0x0C, 0x0D, 0x10, 0x11, 0x12, 0x13, 0x18, 0x19] := by
  unfold decodeMacroOp
  generalize (w.extractLsb' 0 8).toNat = n
  dsimp only
  split
  case h_18 => simp_all
  all_goals simp

/-- Settles O3: both round trips, and the opcodes that spell an instruction. -/
theorem macroOpWordsRoundTrip : Obligations.MacroOpWordsRoundTrip :=
  ⟨fun _ _ _ => decode_of_encode, fun _ _ _ => encode_of_decode, decode_isSome_iff⟩

/-! ### What every command keeps -/

/-- The frame number and the first tick are left by whatever leaves the rest of the sandglass too. -/
theorem Keeps.atTicks (h : Keeps 2 s t) : Keeps 1 s t := h.weak (by omega)

/-- No command but the tick and those that reset the module or bring it up changes FN. -/
theorem keeps_exec_fn {i : Instr} (hTick : i ≠ .tick) (hLow : i ≠ .inputLow) (hHigh : i ≠ .inputHigh)
    (hRestored : i ≠ .inputRestored) (hBring : ∀ f, i ≠ .bringUp f) (h : exec i s = .next t) : Keeps 1 s t := by
  cases i with
  | tick => exact absurd rfl hTick
  | lockLost => exact (keeps_execLockLost s t h).atTicks
  | fallbackMasterTakeover => exact (keeps_execFallbackMasterTakeover s t h).atTicks
  | markerEmit => exact (keeps_execMarkerEmit s t h).atTicks
  | tickMarker _ _ _ _ => exact (keeps_execTickMarker _ _ _ _ s t h).atTicks
  | markerForward => exact (keeps_execMarkerForward s t h).atTicks
  | tickRefEdge _ => exact (keeps_execTickRefEdge _ s t h).atTicks
  | tickFrame _ _ => exact (keeps_execTickFrame _ _ s t h).atTicks
  | fnsync _ _ _ => exact keeps_execFnsync _ _ _ s t h
  | fnsyncBroadcast => exact (keeps_execFnsyncBroadcast s t h).atTicks
  | workWindowEnd => exact (keeps_execWorkWindowEnd s t h).atTicks
  | linkDelayProbe _ _ => exact (keeps_execLinkDelayProbe _ 0 s t h).atTicks
  | nop _ _ => exact (keeps_execNop _ _ s t h).atTicks
  | endProg _ _ => exact (keeps_execEnd _ _ s t h).atTicks
  | wait _ _ => exact (keeps_execWait _ _ s t h).atTicks
  | signal _ _ => exact (keeps_execSignal _ _ s t h).atTicks
  | fence _ _ => exact (keeps_execFence _ _ s t h).atTicks
  | load _ _ => exact (keeps_execLoad _ _ s t h).atTicks
  | store _ _ => exact (keeps_execStore _ _ s t h).atTicks
  | send _ _ => exact (keeps_execSend _ _ s t h).atTicks
  | writeW _ _ => exact (keeps_execWriteW _ _ s t h).atTicks
  | winOpen _ _ => exact (keeps_execWinOpen _ _ s t h).atTicks
  | winClose _ _ => exact (keeps_execWinClose _ _ s t h).atTicks
  | matmul _ _ => exact (keeps_execMatmul _ _ s t h).atTicks
  | fwPlanReply _ _ => exact (keeps_execFwPlanReply _ _ s t h).atTicks
  | fwPlanTimeout _ _ => exact (keeps_execFwPlanTimeout _ _ s t h).atTicks
  | matmulT _ _ => exact (keeps_execMatmulT _ _ s t h).atTicks
  | attend _ _ => exact (keeps_execAttend _ _ s t h).atTicks
  | reduce _ _ => exact (keeps_execReduce _ _ s t h).atTicks
  | vecop _ _ => exact (keeps_execVecop _ _ s t h).atTicks
  | vectorKernelBound _ _ => exact (keeps_execVectorKernelBound _ _ s t h).atTicks
  | update _ _ => exact (keeps_execUpdate _ _ s t h).atTicks
  | instructionComplete _ _ => exact (keeps_execInstructionComplete _ _ s t h).atTicks
  | treeEmpty _ _ => exact (keeps_execTreeEmpty _ _ s t h).atTicks
  | drainPortRead _ _ => exact (keeps_execDrainPortRead _ _ s t h).atTicks
  | seifNodeOutput _ _ => exact (keeps_execSeifNodeOutput _ _ s t h).atTicks
  | seifFold _ _ => exact (keeps_execSeifFold _ _ s t h).atTicks
  | tagWaitRelease _ _ => exact (keeps_execTagWaitRelease _ _ s t h).atTicks
  | tokenMessageArrival _ _ _ => exact (keeps_execTokenMessageArrival _ _ _ s t h).atTicks
  | wdogTrip _ => exact (keeps_execWdogTrip _ s t h).atTicks
  | flush _ _ _ => exact (keeps_execFlush _ _ _ s t h).atTicks
  | tkQPeakRead _ _ _ _ => exact (keeps_execTkQPeakRead _ _ _ _ s t h).atTicks
  | voteForm => exact (keeps_execVoteForm s t h).atTicks
  | vote _ _ _ _ => exact (keeps_execVote _ _ _ _ s t h).atTicks
  | voteDeadline => exact (keeps_execVoteDeadline s t h).atTicks
  | voteResult _ _ _ => exact (keeps_execVoteResult _ _ _ s t h).atTicks
  | resultQuery _ _ _ => exact (keeps_execResultQuery _ _ _ s t h).atTicks
  | resultAnswer _ _ _ => exact (keeps_execResultAnswer _ _ _ s t h).atTicks
  | voteResultApply => exact (keeps_execVoteResultApply s t h).atTicks
  | imageActivation => exact (keeps_execImageActivation s t h).atTicks
  | macroRetirement _ => exact (keeps_execMacroRetirement _ s t h).atTicks
  | coreSwap _ => exact (keeps_execCoreSwap _ s t h).atTicks
  | pseudoChannelRemap => exact (keeps_execPseudoChannelRemap s t h).atTicks
  | retirementComplete => exact (keeps_execRetirementComplete s t h).atTicks
  | rotationStep _ => exact (keeps_execRotationStep _ s t h).atTicks
  | rotationTestDone _ _ => exact (keeps_execRotationTestDone _ _ s t h).atTicks
  | rotationCopyBack _ => exact (keeps_execRotationCopyBack _ s t h).atTicks
  | coreTest _ _ => exact (keeps_execCoreTest _ _ s t h).atTicks
  | cmdFrame _ _ => exact (keeps_execCmdFrame _ _ s t h).atTicks
  | imgVerify _ _ _ _ => exact (keeps_execImgVerify _ _ _ _ s t h).atTicks
  | imageVerifyDone _ _ => exact (keeps_execImageVerifyDone _ _ s t h).atTicks
  | imgActivate _ _ _ _ => exact (keeps_execImgActivate _ _ _ _ s t h).atTicks
  | imgRelease _ _ => exact (keeps_execImgRelease _ _ s t h).atTicks
  | fxResume _ _ => exact (keeps_execFxResume _ _ s t h).atTicks
  | fxExport _ _ => exact (keeps_execFxExport _ _ s t h).atTicks
  | shpSet _ _ _ _ => exact (keeps_execShpSet _ _ _ _ s t h).atTicks
  | regWrite _ _ _ => exact (keeps_execRegWrite _ _ _ s t h).atTicks
  | nvStore _ _ => exact (keeps_execNvStore _ _ s t h).atTicks
  | nvPageStore _ _ => exact (keeps_execNvPageStore _ _ s t h).atTicks
  | lcSet _ _ => exact (keeps_execLcSet _ _ s t h).atTicks
  | write _ _ => exact (keeps_execWrite _ _ s t h).atTicks
  | consume _ _ => exact (keeps_execConsume _ _ s t h).atTicks
  | consumeReexamine => exact (keeps_execConsumeReexamine s t h).atTicks
  | peek _ _ => exact (keeps_execPeek _ _ s t h).atTicks
  | mem _ _ => exact (keeps_execMem _ _ s t h).atTicks
  | capacity _ _ => exact (keeps_execCapacity _ _ s t h).atTicks
  | attest _ _ => exact (keeps_execAttest _ _ s t h).atTicks
  | attestReport => exact (keeps_execAttestReport s t h).atTicks
  | regRead _ _ => exact (keeps_execRegRead _ _ s t h).atTicks
  | evtAck _ _ => exact (keeps_execEvtAck _ _ s t h).atTicks
  | eventResend => exact (keeps_execEventResend s t h).atTicks
  | portStateChange _ _ => exact (keeps_execPortStateChange _ _ s t h).atTicks
  | wr _ _ _ => exact (keeps_execWr _ _ _ s t h).atTicks
  | wrAck _ _ _ => exact (keeps_execWrAck _ _ _ s t h).atTicks
  | rdReq _ _ _ => exact (keeps_execRdReq _ _ _ s t h).atTicks
  | rdResp _ _ _ => exact (keeps_execRdResp _ _ _ s t h).atTicks
  | seif _ _ _ => exact (keeps_execSeif _ _ _ s t h).atTicks
  | ack _ _ _ => exact (keeps_execAck _ _ _ s t h).atTicks
  | nak _ _ _ => exact (keeps_execNak _ _ _ s t h).atTicks
  | credit _ _ _ => exact (keeps_execCredit _ _ _ s t h).atTicks
  | probe _ _ _ _ => exact (keeps_execProbe _ _ _ _ s t h).atTicks
  | probeEcho _ _ _ _ => exact (keeps_execProbeEcho _ _ _ _ s t h).atTicks
  | laneSwap _ _ _ => exact (keeps_execLaneSwap _ _ _ s t h).atTicks
  | laneFailure _ _ => exact (keeps_execLaneFailure _ _ s t h).atTicks
  | train _ _ _ => exact (keeps_execTrain _ _ _ s t h).atTicks
  | linkTrainingDone _ _ => exact (keeps_execLinkTrainingDone _ _ s t h).atTicks
  | linkFailure _ _ => exact (keeps_execLinkFailure _ _ s t h).atTicks
  | retrainTimeout _ => exact (keeps_execRetrainTimeout _ s t h).atTicks
  | clEnWrite _ => exact (keeps_execClEnWrite _ s t h).atTicks
  | clIdWrite _ => exact (keeps_execClIdWrite _ s t h).atTicks
  | dieToDieFlitError _ _ _ => exact (keeps_execDieToDieFlitError _ _ _ s t h).atTicks
  | dieControllerHeartbeatMiss _ => exact (keeps_execDieControllerHeartbeatMiss _ s t h).atTicks
  | clockSupplyFault _ => exact (keeps_execClockSupplyFault _ s t h).atTicks
  | governorSample _ => exact (keeps_execGovernorSample _ s t h).atTicks
  | governorMillisecond => exact (keeps_execGovernorMillisecond s t h).atTicks
  | preRampStart => exact (keeps_execPreRampStart s t h).atTicks
  | targetDescentStart => exact (keeps_execTargetDescentStart s t h).atTicks
  | tempSample _ => exact (keeps_execTempSample _ s t h).atTicks
  | junctionTrip _ => exact (keeps_execJunctionTrip _ s t h).atTicks
  | dieThermalRelease _ _ => exact (keeps_execDieThermalRelease _ _ s t h).atTicks
  | inputLow => exact absurd rfl hLow
  | inputHigh => exact absurd rfl hHigh
  | inputRestored => exact absurd rfl hRestored
  | bringUp f => exact absurd rfl (hBring f)
  | tamperTrip _ => exact (keeps_execTamperTrip _ s t h).atTicks
  | biDebugOpen => exact (keeps_execBiDebugOpen s t h).atTicks
  | lowWordRead _ _ => exact (keeps_execLowWordRead _ _ s t h).atTicks
  | registerWrite _ _ _ => exact (keeps_execRegisterWrite _ _ _ s t h).atTicks
  | readRequest _ => exact (keeps_execReadRequest _ s t h).atTicks
  | writeRequest _ => exact (keeps_execWriteRequest _ s t h).atTicks
  | resultRead _ => exact (keeps_execResultRead _ s t h).atTicks
  | dynamicAddressAssignment _ _ => exact (keeps_execDynamicAddressAssignment _ _ s t h).atTicks
  | cableSupplyOff _ => exact (keeps_execCableSupplyOff _ s t h).atTicks
  | inBandInterruptRetry => exact (keeps_execInBandInterruptRetry s t h).atTicks

theorem keeps_exec {i : Instr} (h : exec i s = .next t) : Keeps 0 s t := by
  by_cases hTick : i = .tick
  · subst hTick; exact keeps_execTick s t h
  by_cases hLow : i = .inputLow
  · subst hLow; exact keeps_execInputLow s t h
  by_cases hHigh : i = .inputHigh
  · subst hHigh; exact keeps_execInputHigh s t h
  by_cases hRestored : i = .inputRestored
  · subst hRestored; exact keeps_execInputRestored s t h
  by_cases hBring : ∃ f, i = .bringUp f
  · obtain ⟨f, rfl⟩ := hBring
    exact keeps_execBringUp f s t h
  exact (keeps_exec_fn hTick hLow hHigh hRestored (fun f hf => hBring ⟨f, hf⟩) h).weak (by omega)

theorem keeps_step (h : step s = .next t) : Keeps 0 s t := by
  cases hq : s.pending with
  | nil =>
    rw [step, hq] at h
    cases h
    exact .refl 0 s
  | cons c rest =>
    obtain ⟨hfront, -⟩ := stepRunsTheFrontCommand
    rw [hfront c rest s hq] at h
    have hq : Keeps 0 s { s with pending := rest } :=
      (Keeps.refl 0 s).same rfl rfl rfl rfl rfl rfl rfl rfl rfl rfl rfl rfl rfl
    exact hq.trans (keeps_exec h)

/-- Settles O4: every store goes through the map's own write. -/
theorem stepKeepsMemoryCanonical : Obligations.StepKeepsMemoryCanonical := by
  intro s t hs h
  have k := keeps_step h
  simp only [State.memOk, Bool.and_eq_true] at hs ⊢
  obtain ⟨⟨⟨hhbm, hspad⟩, hmac⟩, hscale⟩ := hs
  exact ⟨⟨⟨k.hbm hhbm, k.spad hspad⟩, k.mac hmac⟩, k.scale hscale⟩

/-- Settles O5: the sizes and the fuses are among what every command keeps. -/
theorem sizesAndFusesAreKept : Obligations.SizesAndFusesAreKept := by
  refine ⟨fun s t h => ?_, fun s t h => ?_⟩
  · have k := keeps_step h
    exact ⟨k.events, k.fifo, k.answers, k.results, k.slots⟩
  · have k := keeps_step h
    exact ⟨k.vendor, k.secret⟩

/-! ### The frame number (R37, R38) -/

/-- FN after the tick's own advance is the number that the tick before it foresaw. -/
theorem fn_advanceFn (s : State) : (advanceFn s).tk.fn = nextFrameNumber s ∧ (advanceFn s).tk.started = true := by
  unfold advanceFn
  extract_lets src s1 fn
  refine ⟨?_, rfl⟩
  have k : s1.tk.started = s.tk.started ∧ s1.tk.pendingFn = s.tk.pendingFn ∧ s1.tk.fn = s.tk.fn := by
    unfold s1
    split
    · exact ⟨rfl, rfl, rfl⟩
    · exact ⟨rfl, rfl, rfl⟩
    · exact ⟨rfl, rfl, rfl⟩
    · split <;> exact ⟨rfl, rfl, rfl⟩
  obtain ⟨hstarted, hpend, hfn⟩ := k
  show nextFrameNumber s1 = _
  simp only [nextFrameNumber, State.fn, hstarted, hpend, hfn]

/-- The tick has been issued: FN is one more than before it, or 0 at the first tick. -/
def State.ticked (s t : State) : Prop := t.tk.started = true ∧ t.tk.fn = if s.tk.started then s.tk.fn + 1 else 0

theorem ticked_of_keeps {u : State} (h : s.ticked u) (k : Keeps 1 u t) : s.ticked t := by
  obtain ⟨hstarted, hfn⟩ := h
  exact ⟨(k.started le_rfl).trans hstarted, (k.fn le_rfl).trans hfn⟩

theorem ticked_advanceFn (hb : Keeps 2 s t) (hpend : s.tk.pendingFn = none) : s.ticked (advanceFn t) := by
  obtain ⟨hfn, hstarted⟩ := fn_advanceFn t
  refine ⟨hstarted, hfn.trans ?_⟩
  rw [nextFrameNumber, hb.started (by omega), hb.pend le_rfl hpend, Option.getD_none, State.fn, hb.fn (by omega)]

theorem ticked_tick (hdue : tickDue s = true) (hpend : s.tk.pendingFn = none) : s.ticked (tick s) := by
  unfold tick
  split
  · next h => rw [hdue] at h; cases h
  · extract_lets r s1
    have hs1 : s.ticked s1 := ticked_of_keeps (ticked_advanceFn (keeps_endFrame (keeps_retireDies (keeps_settle
      (keeps_activateDue (.refl 2 s))))) hpend) (keeps_countVariant (keeps_thermalStep (.refl 1 _)))
    clear_value s1
    generalize e : nextFrame s1 = z
    have hz : Keeps 1 s1 z.1 := e ▸ keeps_nextFrame (.refl 1 s1)
    obtain ⟨s2, again⟩ := z
    exact ticked_of_keeps hs1 (keeps_startFrame (keeps_askFn hz) again r)

/-- Settles O6: the tick advances FN, and of the other commands only resets and bring-up write it. -/
theorem frameNumberMovesAtTicks : Obligations.FrameNumberMovesAtTicks := by
  refine ⟨fun s hstage hpend hstart => ?_, fun i s t hTick hLow hHigh hRestored hBring h => ?_⟩
  · have hdue : tickDue s = true := by
      rcases hstart with h | h <;> simp [tickDue, hstage, h]
    obtain ⟨hstarted, hfn⟩ := ticked_tick hdue hpend
    exact ⟨{ tick s with pending := s.pending }, rfl, hstarted, hfn⟩
  · have k := keeps_exec_fn hTick hLow hHigh hRestored hBring h
    exact ⟨k.fn le_rfl, k.started le_rfl⟩

/-! ### The state after reset (R429) -/

/-- After reset no register is stored, so each reads the value of its table. -/
theorem reg_reset (a : Nat) : State.reset.reg a = regReset a := rfl

/-- The reset value of a core's macro register follows its offset in the core's window. -/
theorem dieReset_role (c lm : Nat) (hc : c < 64) (hm : lm < 256) :
    dieReset (0x100000 + c * 4096 + (0x400 + 4 * lm)) = BitVec.ofNat 32 (lm * 256) := by
  have hblk : (0x100000 + c * 4096 + (0x400 + 4 * lm)) / 0x100000 = 1 := by omega
  have hr : (0x100000 + c * 4096 + (0x400 + 4 * lm)) % 4096 = 0x400 + 4 * lm := by omega
  unfold dieReset
  dsimp only
  rw [hblk, hr, if_pos rfl, if_neg (by omega), if_neg (by omega), if_pos (by omega),
    show (0x400 + 4 * lm - 0x400) / 4 * 256 = lm * 256 by omega]

theorem regReset_roleA {core lm : Nat} (hc : core < 768) (hm : lm < 256) :
    regReset (roleA core lm) = BitVec.ofNat 32 (lm * 256) := by
  have ha : roleA core lm = 0x710000000000 + core / 64 * 2 ^ 32 + (0x100000 + (core % 64) * 4096 + (0x400 + 4 * lm)) := rfl
  have hofs : (roleA core lm - 0x710000000000) % 2 ^ 32 = 0x100000 + (core % 64) * 4096 + (0x400 + 4 * lm) := by omega
  rw [regReset, if_neg (by omega), hofs, dieReset_role _ _ (Nat.mod_lt _ (by omega)) hm]

theorem role_reset {core lm : Nat} (hc : core < 768) (hm : lm < 256) : State.reset.role core lm = 0 := by
  unfold State.role
  split
  · rw [State.regFld, reg_reset, regReset_roleA hc hm, fld, BitVec.toNat_ofNat, Nat.shiftRight_zero]
    omega
  · rfl

theorem pmacro_reset {core lm : Nat} (hc : core < 768) (hm : lm < 256) : State.reset.pmacro core lm = lm := by
  show State.reset.regFld (roleA core lm) 8 9 = lm
  rw [State.regFld, reg_reset, regReset_roleA hc hm, fld, BitVec.toNat_ofNat, Nat.shiftRight_eq_div_pow]
  omega

/-- Settles O59: each register reads its Reset value, and a link and a logical macro are as their tables give them. -/
theorem resetIsSound : Obligations.ResetIsSound := by
  refine ⟨rfl, rfl, rfl, rfl, rfl, rfl, rfl, rfl, rfl, rfl, rfl, rfl, rfl, rfl, rfl, rfl, rfl, rfl, by decide, by decide,
    fun core lm hc hm => ⟨role_reset hc hm, pmacro_reset hc hm⟩⟩

end Sys2Proof.Machine
end

section
/-! PROOFS. Seif nodes (R134 to R142). The rules come first: what a node holds after an accumulator is written or dropped, and what
one input adds to the accumulator of its element; then the order in which inputs arrive (R136). -/

namespace Sys2Proof.Machine

/-! ### The accumulators of a node -/

theorem find_put_self (x : Node) (a : Acc) : (x.put a).find a.key = some a := by
  unfold Node.put Node.find
  dsimp only
  split
  · next h =>
    generalize x.accs = l at h
    induction l with
    | nil => cases h
    | cons y l ih =>
      by_cases hy : y.key = a.key
      · simp [hy]
      · rw [List.find?_cons_of_neg (by simpa using hy)] at h
        simp [hy, ih h]
  · next h =>
    rw [Option.not_isSome_iff_eq_none, List.find?_eq_none] at h
    rw [List.find?_append, List.find?_eq_none.2 h]
    simp

theorem find_put_other (x : Node) (a : Acc) {k : ElemKey} (hk : k ≠ a.key) : (x.put a).find k = x.find k := by
  unfold Node.put Node.find
  dsimp only
  split
  · generalize x.accs = l
    induction l with
    | nil => rfl
    | cons y l ih =>
      by_cases hy : y.key = a.key
      · simp [hy, Ne.symm hk, ih]
      · by_cases hyk : y.key = k
        · subst hyk
          simp [hy]
        · simp [hy, hyk, ih]
  · rw [List.find?_append]
    cases x.accs.find? fun a => decide (a.key = k) <;> simp [Ne.symm hk]

theorem find_drop_self (x : Node) (k : ElemKey) : (x.drop k).find k = none := by
  simp [Node.drop, Node.find]

theorem find_drop_other (x : Node) {k j : ElemKey} (h : j ≠ k) : (x.drop k).find j = x.find j := by
  unfold Node.drop Node.find
  dsimp only
  induction x.accs with
  | nil => rfl
  | cons y l ih =>
    by_cases hy : y.key = k
    · rw [List.filter_cons_of_neg (by simpa using hy), ih, List.find?_cons_of_neg (by simpa [hy] using Ne.symm h)]
    · rw [List.filter_cons_of_pos (by simpa using hy), List.find?_cons, List.find?_cons, ih]

theorem node_setNode_self (s : State) (n : NodeId) (x : Node) : (s.setNode n x).node n = x := by
  cases n <;> simp [State.setNode, State.node]

/-- A node is written alone: the core, die and hub nodes are three parts of the state. -/
theorem node_setNode_other (s : State) {n j : NodeId} (h : j ≠ n) (x : Node) : (s.setNode n x).node j = s.node j := by
  cases n with
  | core c =>
    cases j with
    | core d => simp only [State.setNode, State.node, State.core_modCore, if_neg (fun e => h (congrArg NodeId.core e))]
    | die d => rfl
    | hub => rfl
  | die d =>
    cases j with
    | core c => rfl
    | die e => exact SMap.get_set_other _ _ _ fun he => h (congrArg NodeId.die he)
    | hub => rfl
  | hub =>
    cases j with
    | core c => rfl
    | die d => rfl
    | hub => exact absurd rfl h

/-! ### One input (R135, R142) -/

/-- The accumulator that the first input of an element opens. -/
def NodeIn.opens (i : NodeIn) : Acc :=
  { key := i.key, op := i.op, expected := i.expected, first := i.first, received := 0, segs := [], folded := i.first / 2 ^ 20,
    best := none, md := 0, tdIn := i.td, ext := i.ext }

/-- The sum that an input adds: its exact pair, or nothing where it is replaced. -/
def NodeIn.adds (i : NodeIn) : Int := if i.bad then 0 else pairInt i.hi i.lo

/-- The metadata that an input brings. -/
def NodeIn.brings (i : NodeIn) : Word := i.md ||| if i.bad then mdFlag 4 else 0

/-- The winner after one more candidate. -/
def NodeIn.wins (i : NodeIn) (best : Option (Word × Nat)) : Option (Word × Nat) :=
  if i.op = 0 ∨ i.bad = true then best
  else some (match best with
    | none => (i.hi, i.lo.toNat)
    | some b => better i.op b (i.hi, i.lo.toNat))

/-- An accumulator with one input more. -/
def Acc.add (i : NodeIn) (a : Acc) : Acc :=
  { a with received := a.received + 1, md := a.md ||| i.brings,
           segs := if i.op = 0 then addSeg (i.seq / 2 ^ 20) i.adds a.segs else a.segs,
           best := i.wins a.best }

/-- The state before an input is added: a value that is replaced or skipped is counted and flagged. -/
def noteInput (n : NodeId) (i : NodeIn) (s : State) : State :=
  whenS i.bad (fun t => (addWatch i.core i.td 0 0 1 t).setBit (nodeSticky n) 3) s

theorem node_noteInput (n j : NodeId) (i : NodeIn) (s : State) : (noteInput n i s).node j = s.node j := by
  refine whenS_same (fun t => t.node j) i.bad (fun t => (addWatch i.core i.td 0 0 1 t).setBit (nodeSticky n) 3) (fun t => ?_) s
  cases j with
  | core c =>
    show ((addWatch i.core i.td 0 0 1 t).core c).node = (t.core c).node
    unfold addWatch
    rw [if_neg (by omega), State.core_modCore]
    split
    · next h => subst h; rfl
    · rfl
  | die d => rfl
  | hub => rfl

/-- The three ways in which an input is added, by its operation and its value. -/
theorem add_cases (i : NodeIn) (a : Acc) : a.add i =
    let a := { a with received := a.received + 1, md := a.md ||| i.md ||| (if i.bad then mdFlag 4 else 0) }
    if i.op = 0 then { a with segs := addSeg (i.seq / 2 ^ 20) (if i.bad then 0 else pairInt i.hi i.lo) a.segs }
    else if i.bad then a
    else { a with best := match a.best with
             | none => some (i.hi, i.lo.toNat)
             | some b => some (better i.op b (i.hi, i.lo.toNat)) } := by
  unfold Acc.add NodeIn.brings NodeIn.adds NodeIn.wins
  rw [← BitVec.or_assoc]
  by_cases hop : i.op = 0
  · simp only [hop, true_or, if_true]
  · cases hbad : i.bad with
    | true => simp only [hop, or_true, if_true, if_false]
    | false => simp only [hop, or_self, Bool.false_eq_true, if_false]; cases a.best <;> rfl

theorem addInput_eq (n : NodeId) (i : NodeIn) (s : State) :
    addInput n i s = (noteInput n i s).setNode n ((s.node n).put ((((s.node n).find i.key).getD i.opens).add i)) := by
  have h : addInput n i s =
      (noteInput n i s).setNode n (((noteInput n i s).node n).put ((((s.node n).find i.key).getD i.opens).add i)) := by
    rw [add_cases]
    rfl
  rw [h, node_noteInput]

/-- The key of the accumulator that takes an input is the input's own. -/
theorem key_accOf (x : Node) (i : NodeIn) : (((x.find i.key).getD i.opens).add i).key = i.key := by
  cases h : x.find i.key with
  | none => rfl
  | some a =>
    have hkey := List.find?_some h
    exact of_decide_eq_true hkey

theorem find_addInput_self (n : NodeId) (i : NodeIn) (s : State) :
    ((addInput n i s).node n).find i.key = some ((((s.node n).find i.key).getD i.opens).add i) := by
  rw [addInput_eq, node_setNode_self]
  have h := find_put_self (s.node n) ((((s.node n).find i.key).getD i.opens).add i)
  rwa [key_accOf] at h

theorem find_addInput_other (n : NodeId) (i : NodeIn) (s : State) {k : ElemKey} (hk : k ≠ i.key) :
    ((addInput n i s).node n).find k = (s.node n).find k := by
  rw [addInput_eq, node_setNode_self]
  exact find_put_other _ _ (by rwa [key_accOf])

/-! ### The sum of the segments (R140) -/

theorem sumI_cons (x : Int) (l : List Int) : sumI (x :: l) = x + sumI l := by
  have h : ∀ (l : List Int) (a : Int), l.foldl (· + ·) a = a + l.foldl (· + ·) 0 := by
    intro l
    induction l with
    | nil => simp
    | cons y l ih => intro a; rw [List.foldl_cons, ih, List.foldl_cons, ih (0 + y)]; ring
  rw [sumI, List.foldl_cons, h, zero_add]
  rfl

theorem sumI_eq_sum (l : List Int) : sumI l = l.sum := by
  induction l with
  | nil => rfl
  | cons x l ih => rw [sumI_cons, ih, List.sum_cons]

/-- An input adds its value to the sum over all segments, whatever segment takes it. -/
theorem sum_addSeg (ix : Nat) (v : Int) (l : List Segment) :
    sumI ((addSeg ix v l).map (·.sum)) = sumI (l.map (·.sum)) + v := by
  induction l with
  | nil => simp [addSeg, sumI]
  | cons x l ih =>
    unfold addSeg
    split
    · simp only [List.map_cons, sumI_cons]; ring
    · simp only [List.map_cons, sumI_cons, ih]; ring

theorem sum_segs_add {i : NodeIn} (hop : i.op = 0) (a : Acc) :
    sumI ((a.add i).segs.map (·.sum)) = sumI (a.segs.map (·.sum)) + i.adds := by
  simp only [Acc.add, hop, if_true, sum_addSeg]

/-! ### Segments as a function of their number -/

/-- The segments of each number, in order. -/
def segsAt (l : List Segment) (ix : Nat) : List Segment := l.filter fun x => x.ix = ix

/-- The segments of a number after one more input of it. -/
def bumpSegs (ix : Nat) (v : Int) : List Segment → List Segment
  | [] => [{ ix := ix, count := 1, sum := v }]
  | x :: rest => { x with count := x.count + 1, sum := x.sum + v } :: rest

theorem segsAt_addSeg (ix : Nat) (v : Int) (l : List Segment) :
    segsAt (addSeg ix v l) = Function.update (segsAt l) ix (bumpSegs ix v (segsAt l ix)) := by
  funext j
  rw [Function.update_apply]
  unfold segsAt
  induction l with
  | nil =>
    by_cases hj : j = ix
    · simp [addSeg, bumpSegs, hj]
    · simp [addSeg, hj, Ne.symm hj]
  | cons x l ih =>
    unfold addSeg
    by_cases hx : x.ix = ix
    · rw [if_pos hx]
      by_cases hj : j = ix
      · simp [bumpSegs, hx, hj]
      · simp [hx, hj, Ne.symm hj]
    · rw [if_neg hx, List.filter_cons, ih]
      by_cases hj : j = ix
      · subst hj
        simp [hx]
      · simp [hj, List.filter_cons]

/-- Two lists with the same segments of each number are the same up to their order. -/
theorem perm_of_segsAt {l m : List Segment} (h : segsAt l = segsAt m) : l.Perm m := by
  refine List.perm_iff_count.2 fun x => ?_
  have hc : ∀ k : List Segment, k.count x = (segsAt k x.ix).count x := fun k => (List.count_filter (by simp)).symm
  rw [hc l, hc m, h]

theorem bumpSegs_comm (ix : Nat) (v w : Int) (l : List Segment) : bumpSegs ix w (bumpSegs ix v l) = bumpSegs ix v (bumpSegs ix w l) := by
  cases l <;> simp only [bumpSegs, Int.add_comm, add_right_comm]

/-! ### What an accumulator shows, without the order of its segments -/

/-- An accumulator but for the order of its segments and what its first input has left in it. -/
structure AccView where
  op : Nat
  expected : Nat
  first : Nat
  folded : Nat
  received : Nat
  md : Word
  best : Option (Word × Nat)
  segs : Nat → List Segment

def Acc.view (a : Acc) : AccView :=
  { op := a.op, expected := a.expected, first := a.first, folded := a.folded, received := a.received, md := a.md, best := a.best,
    segs := segsAt a.segs }

/-- A view with one input more. -/
def AccView.add (v : AccView) (i : NodeIn) : AccView :=
  { v with received := v.received + 1, md := v.md ||| i.brings, best := i.wins v.best,
           segs := if i.op = 0 then Function.update v.segs (i.seq / 2 ^ 20) (bumpSegs (i.seq / 2 ^ 20) i.adds (v.segs (i.seq / 2 ^ 20)))
             else v.segs }

theorem view_add (i : NodeIn) (a : Acc) : (a.add i).view = a.view.add i := by
  unfold Acc.view Acc.add AccView.add
  split <;> simp [segsAt_addSeg]

/-- What leaves a node is a function of the view. -/
theorem out_of_view {a b : Acc} (h : a.view = b.view) :
    (a.received, a.full, a.canFold, a.out) = (b.received, b.full, b.canFold, b.out) := by
  simp only [Acc.view, AccView.mk.injEq] at h
  obtain ⟨hop, hexp, hfirst, hfolded, hrec, hmd, hbest, hsegs⟩ := h
  have hp := perm_of_segsAt hsegs
  have hany : ∀ p : Segment → Bool, a.segs.any p = b.segs.any p := fun p => hp.any_eq
  have hsum : sumI (a.segs.map (·.sum)) = sumI (b.segs.map (·.sum)) := by
    rw [sumI_eq_sum, sumI_eq_sum]
    exact (hp.map _).sum_eq
  have hfull : a.full = b.full := by rw [Acc.full, Acc.full, hrec, hexp, hp.length_eq]
  have hsize : a.segSize = b.segSize := by funext k; rw [Acc.segSize, Acc.segSize, hexp, hfirst]
  have hfold : a.canFold = b.canFold := by rw [Acc.canFold, Acc.canFold, hany, hop, hexp, hfolded, hfirst, hsize]
  have hout : a.out = b.out := by simp only [Acc.out, hop, hsum, hmd, hbest]
  rw [hrec, hfull, hfold, hout]

/-! ### Inputs that arrive in two orders (R136) -/

/-- Two inputs of a sum may change places. -/
theorem AccView.add_comm_sum {i j : NodeIn} (hi : i.op = 0) (hj : j.op = 0) (v : AccView) : (v.add i).add j = (v.add j).add i := by
  have hmd : v.md ||| i.brings ||| j.brings = v.md ||| j.brings ||| i.brings := by
    rw [BitVec.or_assoc, BitVec.or_comm i.brings, BitVec.or_assoc]
  have hwins : j.wins (i.wins v.best) = i.wins (j.wins v.best) := by simp [NodeIn.wins, hi, hj]
  simp only [AccView.add, hmd, hwins, hi, hj, if_true, AccView.mk.injEq, true_and]
  by_cases h : i.seq / 2 ^ 20 = j.seq / 2 ^ 20
  · rw [h, Function.update_self, Function.update_self, Function.update_idem, Function.update_idem, bumpSegs_comm]
  · rw [Function.update_of_ne (Ne.symm h), Function.update_of_ne h, Function.update_comm h]

/-- The order in which MAX and MIN compare (R142). -/
def f32Key (w : Word) : Int := if f32Neg w then -((f32Abs w).toNat : Int) else (f32Abs w).toNat

/-- How far a candidate of a maximum or a minimum leads. -/
def lead (op : Nat) (c : Word × Nat) : Int := if op = 1 then f32Key c.1 else -f32Key c.1

theorem better_eq (op : Nat) (a b : Word × Nat) :
    better op a b = if lead op a < lead op b ∨ lead op a = lead op b ∧ b.2 < a.2 then b else a := by
  unfold better lead f32Lt
  dsimp only
  change (if (if op = 1 then decide (f32Key a.1 < f32Key b.1) else decide (f32Key b.1 < f32Key a.1)) = true then b
    else if (if op = 1 then decide (f32Key b.1 < f32Key a.1) else decide (f32Key a.1 < f32Key b.1)) = true then a
    else if a.2 ≤ b.2 then a else b) = _
  by_cases hop : op = 1 <;> simp only [hop, if_true, if_false, decide_eq_true_eq] <;> grind

/-- Candidates with indices of their own may change places. -/
theorem better_right_comm (op : Nat) (z x y : Word × Nat) (h : x.2 ≠ y.2) :
    better op (better op z x) y = better op (better op z y) x := by
  simp only [better_eq]
  grind

theorem better_comm (op : Nat) (x y : Word × Nat) (h : x.2 ≠ y.2) : better op x y = better op y x := by
  simp only [better_eq]
  grind

theorem wins_comm {i j : NodeIn} (hop : i.op = j.op) (hlo : i.lo ≠ j.lo) (best : Option (Word × Nat)) :
    j.wins (i.wins best) = i.wins (j.wins best) := by
  have hne : i.lo.toNat ≠ j.lo.toNat := fun h => hlo (BitVec.eq_of_toNat_eq h)
  unfold NodeIn.wins
  rw [hop]
  by_cases hj0 : j.op = 0
  · simp [hj0]
  · cases hib : i.bad <;> cases hjb : j.bad <;> simp only [hj0, or_false, or_true, if_true, Bool.false_eq_true, if_false]
    cases best with
    | none => exact congrArg some (better_comm _ _ _ hne)
    | some b => exact congrArg some (better_right_comm _ _ _ _ hne)

/-- Two candidates of a maximum or a minimum may change places. -/
theorem AccView.add_comm_winner {i j : NodeIn} (hop : i.op = j.op) (hj : j.op ≠ 0) (hlo : i.lo ≠ j.lo) (v : AccView) :
    (v.add i).add j = (v.add j).add i := by
  have hmd : v.md ||| i.brings ||| j.brings = v.md ||| j.brings ||| i.brings := by
    rw [BitVec.or_assoc, BitVec.or_comm i.brings, BitVec.or_assoc]
  simp only [AccView.add, hmd, wins_comm hop hlo, hop, hj, if_false]

/-- Inputs that may change places two by two leave the same view in either order. -/
theorem view_foldl_perm {l l' : List NodeIn} (hp : l.Perm l')
    (hc : ∀ i ∈ l, ∀ j ∈ l, ∀ v : AccView, (v.add i).add j = (v.add j).add i) (v : AccView) :
    l.foldl AccView.add v = l'.foldl AccView.add v := hp.foldl_eq' (fun i hi j hj z => hc i hi j hj z) v

/-! ### What a node takes of a list of inputs -/

/-- Whether an input is too early for the segments that are still to be folded (R140). -/
def tooEarly (op expected folded seq : Nat) : Bool :=
  decide (op = 0) && decide (2 ^ 20 < expected) && decide (folded + 2 ≤ seq / 2 ^ 20)

theorem nodeWaits_some {n : NodeId} {x : Node} {i : NodeIn} {a : Acc} (h : x.find i.key = some a) :
    nodeWaits n x i = tooEarly a.op a.expected a.folded i.seq := by
  unfold nodeWaits
  rw [h]
  rfl

theorem nodeWaits_none {n : NodeId} {x : Node} {i : NodeIn} (h : x.find i.key = none) :
    nodeWaits n x i = (decide (nodeLimit n < x.used + accCost i.op i.expected) ||
      tooEarly i.op i.expected (i.first / 2 ^ 20) i.seq) := by
  unfold nodeWaits
  rw [h]
  rfl

theorem enterNode_waits {n : NodeId} {i : NodeIn} {s : State} (h : nodeWaits n (s.node n) i = true) :
    enterNode n i s = s.setNode n { s.node n with waits := (s.node n).waits ++ [i] } := by
  simp only [enterNode, h, if_true]

theorem enterNode_added {n : NodeId} {i : NodeIn} {s : State} (h : nodeWaits n (s.node n) i = false) :
    enterNode n i s = addInput n i s := by
  simp only [enterNode, h, Bool.false_eq_true, if_false]

/-- The accumulators are as they were where an input waits. -/
theorem accs_enterNode_waits {n : NodeId} {i : NodeIn} {s : State} (h : nodeWaits n (s.node n) i = true) :
    ((enterNode n i s).node n).accs = (s.node n).accs := by
  rw [enterNode_waits h, node_setNode_self]

theorem find_of_accs {x y : Node} (h : y.accs = x.accs) (k : ElemKey) : y.find k = x.find k := by unfold Node.find; rw [h]
theorem used_of_accs {x y : Node} (h : y.accs = x.accs) : y.used = x.used := by unfold Node.used; rw [h]

/-- An accumulator that is there takes, of inputs of its element, those that are not too early for it. -/
theorem find_forEach_some {n : NodeId} {k : ElemKey} (l : List NodeIn) (hk : ∀ i ∈ l, i.key = k) {s : State} {a : Acc}
    (h : (s.node n).find k = some a) : ((forEach l (enterNode n) s).node n).find k =
      some ((l.filter fun i => !tooEarly a.op a.expected a.folded i.seq).foldl (fun b i => b.add i) a) := by
  induction l generalizing s a with
  | nil => exact h
  | cons i l ih =>
    have hik : i.key = k := hk i List.mem_cons_self
    have hl : ∀ j ∈ l, j.key = k := fun j hj => hk j (List.mem_cons_of_mem _ hj)
    subst hik
    have hw := nodeWaits_some (n := n) h
    rw [forEach_cons]
    cases he : tooEarly a.op a.expected a.folded i.seq with
    | true =>
      rw [ih hl ((find_of_accs (accs_enterNode_waits (hw.trans he)) _).trans h), List.filter_cons_of_neg (by simp [he])]
    | false =>
      rw [enterNode_added (hw.trans he), ih hl (a := a.add i) (by rw [find_addInput_self, h, Option.getD_some]),
        List.filter_cons_of_pos (by simp [he])]
      rfl

/-- The inputs that a node without the element takes: none where it has no accumulator for it, else those that are not too early. -/
def admitted (n : NodeId) (x : Node) (l : List NodeIn) : List NodeIn :=
  l.filter fun i => !(decide (nodeLimit n < x.used + accCost i.op i.expected) || tooEarly i.op i.expected (i.first / 2 ^ 20) i.seq)

/-- The first input that is taken opens the accumulator. -/
def openAll (l : List NodeIn) : Option Acc := l.head?.map fun i => l.foldl (fun b i => b.add i) i.opens

theorem find_forEach_none {n : NodeId} {k : ElemKey} {op expected first : Nat} (l : List NodeIn)
    (hl : ∀ i ∈ l, i.key = k ∧ i.op = op ∧ i.expected = expected ∧ i.first = first) {s : State} (h : (s.node n).find k = none) :
    ((forEach l (enterNode n) s).node n).find k = openAll (admitted n (s.node n) l) := by
  induction l generalizing s with
  | nil => exact h
  | cons i l ih =>
    obtain ⟨hik, hop, hexp, hfirst⟩ := hl i List.mem_cons_self
    have htail : ∀ j ∈ l, j.key = k ∧ j.op = op ∧ j.expected = expected ∧ j.first = first :=
      fun j hj => hl j (List.mem_cons_of_mem _ hj)
    subst hik
    have hw := nodeWaits_none (n := n) h
    rw [forEach_cons]
    cases hwait : nodeWaits n (s.node n) i with
    | true =>
      have haccs := accs_enterNode_waits hwait
      rw [ih htail ((find_of_accs haccs _).trans h)]
      rw [hwait] at hw
      unfold admitted
      rw [used_of_accs haccs, List.filter_cons_of_neg (by rw [← hw]; decide)]
    | false =>
      rw [hwait] at hw
      obtain ⟨hroom, hearly⟩ := Bool.or_eq_false_iff.1 hw.symm
      rw [enterNode_added hwait, find_forEach_some l (fun j hj => (htail j hj).1) (a := i.opens.add i)
        (by rw [find_addInput_self, h, Option.getD_none])]
      have hhead : admitted n (s.node n) (i :: l) = i :: admitted n (s.node n) l := by
        unfold admitted
        rw [List.filter_cons_of_pos (by rw [← hw]; rfl)]
      have htl : admitted n (s.node n) l = l.filter fun j => !tooEarly i.op i.expected (i.first / 2 ^ 20) j.seq := by
        unfold admitted
        refine List.filter_congr fun j hj => ?_
        obtain ⟨-, hjop, hjexp, hjfirst⟩ := htail j hj
        rw [hjop, hjexp, hjfirst, ← hop, ← hexp, ← hfirst, hroom, Bool.false_or]
      rw [hhead, htl]
      rfl

theorem view_foldl (l : List NodeIn) (a : Acc) : (l.foldl (fun b i => b.add i) a).view = l.foldl AccView.add a.view := by
  induction l generalizing a with
  | nil => rfl
  | cons i l ih => rw [List.foldl_cons, ih, view_add, List.foldl_cons]

theorem view_opens {i j : NodeIn} (hop : i.op = j.op) (hexp : i.expected = j.expected) (hfirst : i.first = j.first) :
    i.opens.view = j.opens.view := by
  simp only [NodeIn.opens, Acc.view, hop, hexp, hfirst]

/-- The view that a list of inputs opens does not depend on its order. -/
theorem view_openAll_perm {l l' : List NodeIn} (hp : l.Perm l')
    (hsame : ∀ i ∈ l, ∀ j ∈ l, i.op = j.op ∧ i.expected = j.expected ∧ i.first = j.first)
    (hc : ∀ i ∈ l, ∀ j ∈ l, ∀ v : AccView, (v.add i).add j = (v.add j).add i) :
    (openAll l).map Acc.view = (openAll l').map Acc.view := by
  cases l with
  | nil => rw [hp.nil_eq]
  | cons i l =>
    cases l' with
    | nil => exact absurd hp.length_eq (by simp)
    | cons j l' =>
      obtain ⟨hop, hexp, hfirst⟩ := hsame i List.mem_cons_self j (hp.mem_iff.2 List.mem_cons_self)
      simp only [openAll, List.head?_cons, Option.map_some, view_foldl, view_opens hop hexp hfirst]
      rw [view_foldl_perm hp hc]

/-- Whatever the node holds, the view of an element after a list of its inputs does not depend on their order. -/
theorem view_forEach_perm {n : NodeId} {k : ElemKey} {l l' : List NodeIn} (hp : l.Perm l')
    (hk : ∀ i ∈ l, i.key = k) (hsame : ∀ i ∈ l, ∀ j ∈ l, i.op = j.op ∧ i.expected = j.expected ∧ i.first = j.first)
    (hc : ∀ i ∈ l, ∀ j ∈ l, ∀ v : AccView, (v.add i).add j = (v.add j).add i) (s : State) :
    (((forEach l (enterNode n) s).node n).find k).map Acc.view = (((forEach l' (enterNode n) s).node n).find k).map Acc.view := by
  cases hfind : (s.node n).find k with
  | some a =>
    rw [find_forEach_some l hk hfind, find_forEach_some l' (fun i hi => hk i (hp.mem_iff.2 hi)) hfind]
    simp only [Option.map_some, view_foldl]
    rw [view_foldl_perm (hp.filter _) fun i hi j hj => hc i (List.mem_of_mem_filter hi) j (List.mem_of_mem_filter hj)]
  | none =>
    cases l with
    | nil => rw [hp.nil_eq]
    | cons x l =>
      have hall : ∀ i ∈ x :: l, i.key = k ∧ i.op = x.op ∧ i.expected = x.expected ∧ i.first = x.first :=
        fun i hi => ⟨hk i hi, hsame i hi x List.mem_cons_self⟩
      rw [find_forEach_none _ hall hfind, find_forEach_none _ (fun i hi => hall i (hp.mem_iff.2 hi)) hfind]
      exact view_openAll_perm (hp.filter _)
        (fun i hi j hj => hsame i (List.mem_of_mem_filter hi) j (List.mem_of_mem_filter hj))
        (fun i hi j hj => hc i (List.mem_of_mem_filter hi) j (List.mem_of_mem_filter hj))

/-- What is read of a node is a function of the view of the element. -/
theorem map_of_view {τ : Type} {f : Acc → τ} (hf : ∀ a b : Acc, a.view = b.view → f a = f b) {o o' : Option Acc}
    (h : o.map Acc.view = o'.map Acc.view) : o.map f = o'.map f := by
  match o, o' with
  | none, none => rfl
  | some a, some b => exact congrArg some (hf a b (Option.some.inj h))

/-- Settles O60: inputs change places two by two, in a sum and, with indices of their own, in a maximum or a minimum. -/
theorem reductionsDoNotDependOnOrder : Obligations.ReductionsDoNotDependOnOrder := by
  refine ⟨fun s n k l l' hp hk hsame => ?_, fun s n k op l l' hp hop _ hk hsame hlo => ?_⟩
  · refine map_of_view (fun a b h => out_of_view h) (view_forEach_perm hp (fun i hi => (hk i hi).1) (fun i hi j hj => ?_)
      (fun i hi j hj => AccView.add_comm_sum (hk i hi).2 (hk j hj).2) s)
    exact ⟨(hk i hi).2.trans (hk j hj).2.symm, hsame i hi j hj⟩
  · have hop0 : op ≠ 0 := by rcases hop with h | h <;> omega
    have hopeq : ∀ i ∈ l, ∀ j ∈ l, i.op = j.op := fun i hi j hj => (hk i hi).2.trans (hk j hj).2.symm
    refine map_of_view (fun a b h => ?_) (view_forEach_perm hp (fun i hi => (hk i hi).1)
      (fun i hi j hj => ⟨hopeq i hi j hj, hsame i hi j hj⟩) (fun i hi j hj v => ?_) s)
    · have hout := out_of_view h
      simp only [Prod.mk.injEq] at hout ⊢
      obtain ⟨hrec, hfull, -, hpair⟩ := hout
      exact ⟨hrec, hfull, hpair⟩
    · by_cases hij : i = j
      · rw [hij]
      · exact AccView.add_comm_winner (hopeq i hi j hj) ((hk j hj).2.symm ▸ hop0)
          (fun h => hij (List.inj_on_of_nodup_map hlo hi hj h)) v

end Sys2Proof.Machine
end

section
/-! PROOFS. The sandglass (R36 to R50, R383, R416). First what an incoming control block or packet does before it is taken. -/

namespace Sys2Proof.Machine

variable {s t u : State} {i : Nat}

/-! ### Codewords and control blocks (R292, R297) -/

/-- Registers and links alone differ. -/
def State.linksDiffer (s t : State) : Prop := t = { s with links := t.links, regs := t.regs }

theorem linksDiffer_setReg (h : s.linksDiffer t) (a : Nat) (v : Word) : s.linksDiffer (t.setReg a v) := by
  unfold State.linksDiffer at h ⊢
  rw [h]
  rfl

theorem linksDiffer_setLink (h : s.linksDiffer t) (j : Nat) (l : LinkSt) : s.linksDiffer (t.setLink j l) := by
  unfold State.linksDiffer at h ⊢
  rw [h]
  rfl

theorem linksDiffer_whenS (b : Bool) (f : State → State) (hf : ∀ u, s.linksDiffer u → s.linksDiffer (f u)) (h : s.linksDiffer t) :
    s.linksDiffer (whenS b f t) := by
  cases b
  · exact h
  · exact hf t h

/-- A codeword changes the records of its link and registers alone. -/
theorem noteCodeword_eq (i : Nat) (cw : Codeword) (s : State) :
    noteCodeword i cw s = { s with links := (noteCodeword i cw s).links, regs := (noteCodeword i cw s).regs } := by
  change s.linksDiffer (noteCodeword i cw s)
  unfold noteCodeword
  extract_lets errs s1 s2 l sums top
  have h1 : s.linksDiffer s1 := linksDiffer_whenS _ _ (fun _ h => linksDiffer_setReg (linksDiffer_setReg h _ _) _ _) rfl
  have h2 : s.linksDiffer s2 := linksDiffer_whenS _ _ (fun _ h => linksDiffer_setReg h _ _) h1
  split
  · exact linksDiffer_setLink h2 _ _
  · exact linksDiffer_setReg (linksDiffer_setLink h2 _ _) _ _

/-- The registers of a link that a codeword may change. -/
def codewordRegs (i : Nat) : List Nat := [linkA i 4, linkA i 8, linkA i 0xC, linkA i 0x14]

theorem sandglass_not_codewordRegs (i : Nat) {off : Nat} (h : off < 0x8400) : hubA off ∉ codewordRegs i := by
  simp only [codewordRegs, linkA, hubA, List.mem_cons, List.not_mem_nil, or_false]
  omega

theorem link_not_codewordRegs (i j : Nat) {off : Nat} (h : off = 0 ∨ off = 0x10) : linkA j off ∉ codewordRegs i := by
  simp only [codewordRegs, linkA, hubA, List.mem_cons, List.not_mem_nil, or_false]
  omega

theorem reg_noteCodeword_hub (i : Nat) (cw : Codeword) (s : State) {off : Nat} (h : off < 0x8400) :
    (noteCodeword i cw s).reg (hubA off) = s.reg (hubA off) := regs_noteCodeword i cw s _ (sandglass_not_codewordRegs i h)

theorem reg_noteCodeword_link (i j : Nat) (cw : Codeword) (s : State) {off : Nat} (h : off = 0 ∨ off = 0x10) :
    (noteCodeword i cw s).reg (linkA j off) = s.reg (linkA j off) := regs_noteCodeword i cw s _ (link_not_codewordRegs i j h)

theorem tk_noteCodeword (i : Nat) (cw : Codeword) (s : State) : (noteCodeword i cw s).tk = s.tk := by rw [noteCodeword_eq]

theorem linkState_noteCodeword_any (i j : Nat) (cw : Codeword) (s : State) : (noteCodeword i cw s).linkState j = s.linkState j :=
  regFld_of_reg (reg_noteCodeword_link i j cw s (.inl rfl)) 0 3

theorem linkUp_noteCodeword (i j : Nat) (cw : Codeword) (s : State) : (noteCodeword i cw s).linkUp j = s.linkUp j := by
  rw [State.linkUp, State.linkUp, linkState_noteCodeword_any]

theorem linkOpen_noteCodeword (i : Nat) (cw : Codeword) (s : State) : (noteCodeword i cw s).linkOpen i = s.linkOpen i := by
  obtain ⟨n, sums, h⟩ := link_noteCodeword i cw s
  rw [State.linkOpen, State.linkOpen, h]

theorem alive_of_linkUp (h : s.linkUp i = true) : 1 ≤ s.linkState i ∧ s.linkState i ≤ 3 := by
  have : s.linkState i = 2 := of_decide_eq_true h
  omega

/-- A block that is taken, on a link that is UP. -/
theorem rxBlock_taken (hup : s.linkUp i = true) {type : Nat} {w : BitVec 64} {cw : Codeword} (hw : blkTaken type w cw = true)
    (take : State → State) : rxBlock i type w cw take s = take (noteCodeword i cw s) := by
  rw [rxBlock, if_pos (alive_of_linkUp hup)]
  exact if_pos hw

/-- A block that is discarded, on a link that is UP. -/
theorem rxBlock_discarded (hup : s.linkUp i = true) {type : Nat} {w : BitVec 64} {cw : Codeword} (hw : blkTaken type w cw = false)
    (take : State → State) : rxBlock i type w cw take s = noteCodeword i cw s := by
  rw [rxBlock, if_pos (alive_of_linkUp hup)]
  exact if_neg (by simp [hw])

theorem blkTaken_false {type : Nat} {w : BitVec 64} {cw : Codeword} (h : cw.uncorr = true ∨ blkCrcOk w = false ∨ blkType w ≠ type) :
    blkTaken type w cw = false := by
  rcases h with h | h | h <;> simp [blkTaken, h]

/-! ### Loss of lock, takeover and the work window (R36, R39, R48) -/

/-- A module that has lost lock, before its event. -/
def State.lockDropped (s : State) : State :=
  ((s.modTk fun k => { k with extIn := 0, waitFirst := k.waitFirst || decide (tickSrc s = 0), lostRun := true }).clrBit ftStatus 0).setBit
    ftSticky 3

theorem lockLost_stays (h : s.tk.holdRun < 4 ∨ tickSrc s = 1 ∨ s.tk.lostRun = true) : lockLost s = s := if_pos h

theorem lockLost_lost (hrun : 4 ≤ s.tk.holdRun) (hsrc : tickSrc s ≠ 1) (hlost : s.tk.lostRun = false) :
    lockLost s = whenS (!decide (tickSrc s = 0)) (raise0 ftSticky 3 stOK 0) s.lockDropped :=
  if_neg (by rintro (h | h | h) <;> simp_all <;> omega)

theorem eventOnly_lockLost {b : Bool} : EventOnly s.lockDropped (whenS b (raise0 ftSticky 3 stOK 0) s.lockDropped) :=
  EventOnly.whenS _ _ (fun _ k => eventOnly_pushEvent k _) (EventOnly.refl _)

theorem regs_lockLost {b : Bool} : s.lockDropped.sameRegs (whenS b (raise0 ftSticky 3 stOK 0) s.lockDropped) eventRegs :=
  sameRegs_whenS _ _ (fun _ k => sameRegs_trans k (regs_pushEvent _ _)) (sameRegs_refl _ _)

theorem regs_lockDropped (s : State) : s.sameRegs s.lockDropped [ftStatus, ftSticky] :=
  sameRegs_setBit (sameRegs_clrBit (sameRegs_of_regs (sameRegs_refl s _) rfl) _ (by simp)) _ (by simp)

theorem locked_lockDropped (s : State) : s.lockDropped.regBit ftStatus 0 = false := by
  rw [State.lockDropped, State.regBit_setBit _ _ _ _ _ (by decide), if_neg (by decide), State.regBit_clrBit _ _ _ _ _ (by decide)]
  simp

theorem lockLostBit_lockDropped (s : State) : s.lockDropped.regBit ftSticky 3 = true := by
  rw [State.lockDropped, State.regBit_setBit _ _ _ _ _ (by decide)]
  simp

/-- An event that joins a FIFO with room is its last entry. -/
theorem pushEvent_joins (e : Event) (s : State) (h : s.port.events.length < 256) :
    (pushEvent e s).port.events.length = s.port.events.length + 1 ∧ ∃ x, (pushEvent e s).port.events.getLast? = some x ∧
      x.ev = { e with lost := x.ev.lost } := by
  rw [events_pushEvent e s h]
  exact ⟨List.length_append, _, List.getLast?_concat, rfl⟩

/-- Loss of lock, with an external source or without. -/
theorem exec_lockLost_lost (hrun : 4 ≤ s.tk.holdRun) (hsrc : tickSrc s ≠ 1) (hlost : s.tk.lostRun = false) :
    ∃ t, exec .lockLost s = .next t ∧
      t.regBit ftStatus 0 = false ∧ t.regBit ftSticky 3 = true ∧
      (tickSrc s ≠ 0 → s.port.events.length < 256 → t.port.events.length = s.port.events.length + 1 ∧
        ∃ e, t.port.events.getLast? = some e ∧ e.ev.kind = 0 ∧ e.ev.status = stOK ∧ e.ev.addr = ftSticky ∧ e.ev.bitIx = 3 ∧
          e.ev.fn = s.fn) ∧
      (tickSrc s = 0 → t = { s with regs := t.regs, tk := t.tk } ∧ s.sameRegs t [ftStatus, ftSticky]) ∧
      t = { s with regs := t.regs, port := t.port, svc := t.svc, out := t.out, tk := t.tk } ∧
      t.tk = { s.tk with extIn := 0, waitFirst := s.tk.waitFirst || decide (tickSrc s = 0), lostRun := true } ∧
      s.sameRegs t (ftStatus :: ftSticky :: eventRegs) := by
  have hex : exec .lockLost s = answer s (lockLost s) := rfl
  rw [hex, lockLost_lost hrun hsrc hlost]
  have hev := eventOnly_lockLost (s := s) (b := !decide (tickSrc s = 0))
  have hregs := regs_lockLost (s := s) (b := !decide (tickSrc s = 0))
  have hjoin (h0 : tickSrc s ≠ 0) : whenS (!decide (tickSrc s = 0)) (raise0 ftSticky 3 stOK 0) s.lockDropped =
      pushEvent (event0 s.fn ftSticky 3 stOK 0) s.lockDropped := by simp [h0, whenS, raise0]; rfl
  have hplain (h0 : tickSrc s = 0) : whenS (!decide (tickSrc s = 0)) (raise0 ftSticky 3 stOK 0) s.lockDropped = s.lockDropped := by
    simp [h0, whenS]
  generalize whenS (!decide (tickSrc s = 0)) (raise0 ftSticky 3 stOK 0) s.lockDropped = t at *
  refine ⟨t, answer_eq (hev.pending.trans rfl), ?_, ?_, fun h0 hlen => ?_, fun h0 => ?_, ?_, hev.tk, ?_⟩
  · rw [regBit_of_reg (hregs ftStatus (by decide)), locked_lockDropped]
  · rw [regBit_of_reg (hregs ftSticky (by decide)), lockLostBit_lockDropped]
  · obtain ⟨hl, x, hx, hxe⟩ := pushEvent_joins (event0 s.fn ftSticky 3 stOK 0) s.lockDropped hlen
    rw [hjoin h0]
    exact ⟨hl, x, hx, by rw [hxe]; exact ⟨rfl, rfl, rfl, rfl, rfl⟩⟩
  · rw [hplain h0]
    exact ⟨rfl, regs_lockDropped s⟩
  · rw [hev.tk]
    exact hev.eq.trans rfl
  · exact sameRegs_trans (sameRegs_mono (regs_lockDropped s) (by simp)) (sameRegs_mono hregs (by intro a; simp; tauto))

theorem takeover_emits {k : Nat} (hk : fallbackRank s = some k) (hsrc : tickSrc s = 0) (hrun : k + 1 ≤ s.tk.holdRun) :
    takeover s = { s with tk := { s.tk with emitting := true } } := by
  rw [takeover, hk]
  exact if_pos ⟨hsrc, hrun⟩

theorem takeover_waits {k : Nat} (hk : fallbackRank s = some k) (hrun : s.tk.holdRun < k + 1) : takeover s = s := by
  rw [takeover, hk]
  exact if_neg fun h => by omega

theorem Core.busy_iff (c : Core) :
    c.busy = true ↔ c.prog.isSome = true ∧ (c.ended = false ∨ ∃ o ∈ c.ops, o.signalled = false) := by
  simp only [Core.busy, Bool.and_eq_true, Bool.not_eq_true', Bool.and_eq_false_iff, List.all_eq_false, Bool.not_eq_true]

theorem Core.busy_false_iff (c : Core) :
    c.busy = false ↔ c.prog = none ∨ (c.ended = true ∧ ∀ o ∈ c.ops, o.signalled = true) := by
  simp only [Core.busy, Bool.and_eq_false_iff, Bool.not_eq_false', Bool.and_eq_true, List.all_eq_true, Option.isSome_eq_false_iff,
    Option.isNone_iff_eq_none]

theorem exec_workWindowEnd (s : State) :
    exec .workWindowEnd s = answer s (if s.cores.any fun c => c.2.busy then s.setBit ftSticky 7 else s) := rfl

theorem exec_workWindowEnd_busy {c : Nat × Core} (hc : c ∈ s.cores) (hp : c.2.prog.isSome = true)
    (hb : c.2.ended = false ∨ ∃ o ∈ c.2.ops, o.signalled = false) : exec .workWindowEnd s = .next (s.setBit ftSticky 7) := by
  have h : (s.cores.any fun c => c.2.busy) = true := List.any_eq_true.2 ⟨c, hc, c.2.busy_iff.2 ⟨hp, hb⟩⟩
  rw [exec_workWindowEnd, if_pos h]
  rfl

theorem exec_workWindowEnd_idle (h : ∀ c ∈ s.cores, c.2.prog = none ∨ (c.2.ended = true ∧ ∀ o ∈ c.2.ops, o.signalled = true)) :
    exec .workWindowEnd s = .next s := by
  have hidle : (s.cores.any fun c => c.2.busy) = false :=
    List.any_eq_false.2 fun c hc => by rw [c.2.busy_false_iff.2 (h c hc)]; decide
  rw [exec_workWindowEnd, hidle]
  rfl

/-- Settles O7: loss of lock changes its own flags and raises at most its event; a takeover and the end of the work window set one
flag each. -/
theorem lockTakeoverAndWorkWindow : Obligations.LockTakeoverAndWorkWindow := by
  refine ⟨⟨fun s => exec_lockLost_lost, fun s h => ?_⟩, fun s k hk hsrc hrun => ?_, fun s k hk hrun => ?_,
    fun s c => exec_workWindowEnd_busy, fun s => exec_workWindowEnd_idle⟩
  · exact (congrArg (answer s) (lockLost_stays h)).trans (answer_eq rfl)
  · exact (congrArg (answer s) (takeover_emits hk hsrc hrun)).trans (answer_eq rfl)
  · exact (congrArg (answer s) (takeover_waits hk hrun)).trans (answer_eq rfl)

/-! ### Markers (R42 to R44, R292) -/

/-- A block sent on each link of a list leaves on those that are in no lane swap. -/
theorem forEach_sendBlock (l : List Nat) (w : BitVec 64) (s : State) :
    forEach l (fun i u => sendBlock i w u) s = { s with out := ((l.filter s.linkOpen).map fun i => Out.block i w).reverse ++ s.out } := by
  induction l generalizing s with
  | nil => rfl
  | cons i l ih =>
    rw [forEach_cons, ih, sendBlock]
    by_cases h : s.linkOpen i
    · rw [h, whenS_true, List.filter_cons_of_pos h, List.map_cons, List.reverse_cons, List.append_assoc]
      rfl
    · rw [Bool.eq_false_iff.2 h, whenS_false, List.filter_cons_of_neg h]

theorem markerEmit_eq {k : Nat} {tr : TickTree} (hk : masterRank s = some k) (ht : treeOf s k = some tr) (hs : s.tk.started = true) :
    markerEmit s = { s with out := (((upLinks s tr.down).filter s.linkOpen).map fun i => Out.block i (markerBlock
      { fnLo := (nextFrameNumber s).setWidth 24, masterIx := BitVec.ofNat 2 k, hops := 0, delayAcc := 0 })).reverse ++ s.out } := by
  rw [markerEmit, hk]
  dsimp only
  rw [ht]
  dsimp only
  rw [hs, Bool.not_true, if_neg Bool.false_ne_true, forEach_sendBlock]

theorem markerForward_again {m : ChosenMarker} (hm : s.tk.chosen = some m) (hf : m.forwarded = true) : markerForward s = s := by
  rw [markerForward, hm]
  dsimp only
  split
  · rfl
  · rw [if_pos hf]

theorem markerForward_eq {m : ChosenMarker} {tr : TickTree} (hm : s.tk.chosen = some m) (ht : treeOf s m.rank = some tr)
    (hf : m.forwarded = false) : markerForward s = { s with
      tk := { s.tk with chosen := some { m with forwarded := true } },
      out := (((upLinks s tr.down).filter s.linkOpen).map fun i => Out.block i (markerBlock
        { fnLo := (nextFrameNumber s).setWidth 24, masterIx := BitVec.ofNat 2 m.rank, hops := BitVec.ofNat 4 m.hops,
          delayAcc := BitVec.ofNat 16 (m.delay + 64) })).reverse ++ s.out } := by
  rw [markerForward, hm]
  dsimp only
  rw [ht]
  dsimp only
  rw [hf, if_neg Bool.false_ne_true, forEach_sendBlock]
  rfl

theorem extractLsb'_eq_of_blkFld {w : BitVec 64} {lo n : Nat} {x : BitVec n} (h : blkFld w lo n = x.toNat) :
    w.extractLsb' lo n = x := by
  apply BitVec.eq_of_toNat_eq
  rw [BitVec.extractLsb'_toNat, Nat.shiftRight_eq_div_pow]
  exact h

/-- The fields of a marker's block (Table 2.2). -/
theorem markerBlock_fields (m : Marker) :
    (markerBlock m).extractLsb' 56 8 = 0x5A ∧ (markerBlock m).extractLsb' 32 24 = m.fnLo ∧
    (markerBlock m).extractLsb' 30 2 = m.masterIx ∧ (markerBlock m).extractLsb' 26 4 = m.hops ∧
    (markerBlock m).extractLsb' 10 16 = m.delayAcc ∧ (markerBlock m).extractLsb' 8 2 = 0 := by
  have hfn := m.fnLo.isLt
  have hix := m.masterIx.isLt
  have hhops := m.hops.isLt
  have hdelay := m.delayAcc.isLt
  have hfld (lo n : Nat) (h : lo + n ≤ 48) := blkFld_ctrlBlock 0x5A
    (m.fnLo.toNat * 2 ^ 24 + m.masterIx.toNat * 2 ^ 22 + m.hops.toNat * 2 ^ 18 + m.delayAcc.toNat * 4) lo n (by decide) h
  have hzero : (m.fnLo.toNat * 2 ^ 24 + m.masterIx.toNat * 2 ^ 22 + m.hops.toNat * 2 ^ 18 + m.delayAcc.toNat * 4) / 2 ^ 0 % 2 ^ 2 = 0 := by
    omega
  refine ⟨extractLsb'_eq_of_blkFld (blkType_ctrlBlock 0x5A _ (by decide)), extractLsb'_eq_of_blkFld ((hfld 24 24 (by decide)).trans ?_),
    extractLsb'_eq_of_blkFld ((hfld 22 2 (by decide)).trans ?_), extractLsb'_eq_of_blkFld ((hfld 18 4 (by decide)).trans ?_),
    extractLsb'_eq_of_blkFld ((hfld 2 16 (by decide)).trans ?_), extractLsb'_eq_of_blkFld ((hfld 0 2 (by decide)).trans hzero)⟩ <;>
    omega

/-- Settles O8: sending a block on each open link of a list, and the fields of a control block. -/
theorem markersLeaveDownTheTree : Obligations.MarkersLeaveDownTheTree := by
  refine ⟨fun s k tr hk ht hs => ?_, fun s m tr hm ht hf => ?_, fun s m hm hf => ?_, fun m => ?_⟩
  · exact (congrArg (answer s) (markerEmit_eq hk ht hs)).trans (answer_eq rfl)
  · exact (congrArg (answer s) (markerForward_eq hm ht hf)).trans (answer_eq rfl)
  · exact (congrArg (answer s) (markerForward_again hm hf)).trans (answer_eq rfl)
  · obtain ⟨htype, hfn, hix, hhops, hdelay, hzero⟩ := markerBlock_fields m
    exact ⟨htype, hfn, hix, hhops, hdelay, hzero, blkCrcOk_ctrlBlock _ _⟩


/-! ### The marker that schedules the tick (R42, R44, R47, R50, R292) -/

theorem tickSrc_congr (h : t.reg ftSrc = s.reg ftSrc) : tickSrc t = tickSrc s := regFld_of_reg h 0 2

theorem treeOf_congr (h : t.tk = s.tk) (k : Nat) : treeOf t k = treeOf s k := by rw [treeOf, treeOf, h]

theorem nextFrameNumber_congr (h : t.tk = s.tk) : nextFrameNumber t = nextFrameNumber s := by
  rw [nextFrameNumber, nextFrameNumber, State.fn, State.fn, h]

theorem masterRank_congr (htk : t.tk = s.tk) (hsrc : t.reg ftSrc = s.reg ftSrc) (hid : t.reg clId = s.reg clId) :
    masterRank t = masterRank s := by
  have hm : t.moduleId = s.moduleId := regFld_of_reg hid 0 14
  rw [masterRank, masterRank, tickSrc_congr hsrc, regFld_of_reg hsrc, fallbackRank, fallbackRank, htk, hm]

/-- The accumulated delay of a marker, with that of the link that it arrives on (R44). -/
def markerDelay (s : State) (i : Nat) (mk : Marker) : Nat := mk.delayAcc.toNat + (s.reg (linkA i 0x10)).toNat

/-- A follower judges a marker that arrives on a link: of a master that outranks it, with no more delay than FT_LEAD less 100 ns
(R44, R47). -/
structure MarkerHeard (s : State) (i : Nat) (mk : Marker) (tr : TickTree) : Prop where
  src : tickSrc s = 0
  up : s.linkUp i = true
  isOpen : s.linkOpen i = true
  tree : treeOf s mk.masterIx.toNat = some tr
  upstream : tr.primary = some i ∨ tr.secondary = some i
  outranks : mk.masterIx.toNat < (masterRank s).getD 4
  early : markerDelay s i mk ≤ ftLead - 800

/-- A codeword does not change how a marker is judged. -/
theorem MarkerHeard.noteCodeword {mk : Marker} {tr : TickTree} (h : MarkerHeard s i mk tr) (cw : Codeword) :
    MarkerHeard (noteCodeword i cw s) i mk tr where
  src := (tickSrc_congr (reg_noteCodeword_hub i cw s (by decide))).trans h.src
  up := (linkUp_noteCodeword i i cw s).trans h.up
  isOpen := (linkOpen_noteCodeword i cw s).trans h.isOpen
  tree := (treeOf_congr (tk_noteCodeword i cw s) _).trans h.tree
  upstream := h.upstream
  outranks := by
    rw [masterRank_congr (tk_noteCodeword i cw s) (reg_noteCodeword_hub i cw s (by decide)) (reg_noteCodeword_hub i cw s (by decide))]
    exact h.outranks
  early := by
    rw [markerDelay, reg_noteCodeword_link i i cw s (.inr rfl)]
    exact h.early

/-- A marker as it is chosen. -/
def chosenOf (s : State) (i : Nat) (mk : Marker) (tr : TickTree) : ChosenMarker :=
  { rank := mk.masterIx.toNat, hops := mk.hops.toNat + 1, delay := markerDelay s i mk, primary := decide (tr.primary = some i) }

/-- The first marker of a frame, where no number is awaited: it is chosen where FN_LO agrees, and else stops the module. -/
theorem tickMarker_heard {mk : Marker} {tr : TickTree} (h : MarkerHeard s i mk tr) (hwait : s.tk.waitFirst = false)
    (hfirst : s.tk.chosen = none) (at_ : Nat) :
    tickMarker i mk at_ s =
      if (nextFrameNumber s).setWidth 24 ≠ mk.fnLo then fnMismatch s else chooseMarker (chosenOf s i mk tr) at_ s := by
  have hpass : ¬ (tickSrc s ≠ 0 ∨ !s.linkUp i ∨ !s.linkOpen i ∨ (!decide (tr.primary = some i) ∧ tr.secondary ≠ some i) ∨
      (masterRank s).getD 4 ≤ mk.masterIx.toNat) := by
    rintro (hs | hu | ho | ⟨hp, hs⟩ | hr)
    · exact hs h.src
    · simp [h.up] at hu
    · simp [h.isOpen] at ho
    · rcases h.upstream with hp' | hs'
      · simp [hp'] at hp
      · exact hs hs'
    · exact absurd h.outranks (by omega)
  have hearly : ¬ ftLead - 800 < mk.delayAcc.toNat + (s.reg (linkA i 0x10)).toNat := Nat.not_lt.2 h.early
  have hsync : ¬ mustSync s = true := by simp [mustSync, hwait]
  rw [tickMarker, h.tree]
  dsimp only
  rw [if_neg hpass, if_neg hearly, if_neg hsync, hfirst]
  rfl

/-- A chosen marker schedules the tick and sets LOCKED. -/
theorem chooseMarker_effect (m : ChosenMarker) (at_ : Nat) (s : State) :
    (chooseMarker m at_ s).tk =
      { s.tk with chosen := some m, nextTick := (at_ + ftLead - m.delay + 4) / 8 * 8, stopped := false, waitFirst := false } ∧
    (chooseMarker m at_ s).regBit ftStatus 0 = true ∧
    ((chooseMarker m at_ s).regBit ftSticky 4 = true ∨ m.rank = s.regFld ftStatus 2 2) ∧
    chooseMarker m at_ s = { s with tk := (chooseMarker m at_ s).tk, regs := (chooseMarker m at_ s).regs } ∧
    s.sameRegs (chooseMarker m at_ s) [ftStatus, ftSticky] := by
  unfold chooseMarker
  dsimp only
  refine ⟨?_, ?_, ?_, ?_, ?_⟩
  · cases decide (m.rank ≠ s.regFld ftStatus 2 2) <;> rfl
  · rw [State.regBit_setBit _ _ _ _ _ (by decide)]
    simp
  · by_cases h : m.rank = s.regFld ftStatus 2 2
    · exact .inr h
    · refine .inl ?_
      rw [State.regBit_setBit _ _ _ _ _ (by decide), if_neg (by decide), decide_eq_true h]
      exact (State.regBit_setBit s ftSticky 4 ftSticky 4 (by decide)).trans (by simp)
  · cases decide (m.rank ≠ s.regFld ftStatus 2 2) <;> rfl
  · refine sameRegs_setBit (sameRegs_of_regs (s := whenS _ (fun u => u.setBit ftSticky 4) s) ?_ rfl) _ (by simp)
    exact sameRegs_whenS _ _ (fun _ k => sameRegs_setBit k _ (by simp)) (sameRegs_refl s _)

/-- FN_MISMATCH stops the module. -/
theorem fnMismatch_effect (s : State) :
    (fnMismatch s).tk = { s.tk with stopped := true, chosen := none, waitFirst := true, pendingFn := none } ∧
    (fnMismatch s).regBit ftSticky 2 = true ∧ (fnMismatch s).regBit ftSticky 3 = true ∧ (fnMismatch s).regBit ftStatus 0 = false ∧
    fnMismatch s = { s with tk := (fnMismatch s).tk, regs := (fnMismatch s).regs } ∧
    s.sameRegs (fnMismatch s) [ftStatus, ftSticky] := by
  have hne : ftSticky ≠ ftStatus := by decide
  have hbit (a j : Nat) : (fnMismatch s).regBit a j = (((s.setBit ftSticky 2).setBit ftSticky 3).clrBit ftStatus 0).regBit a j := rfl
  refine ⟨rfl, ?_, ?_, ?_, rfl, ?_⟩
  · rw [hbit, State.regBit_clrBit _ _ _ _ _ (by decide), if_neg hne, State.regBit_setBit _ _ _ _ _ (by decide), if_pos rfl,
      State.regBit_setBit _ _ _ _ _ (by decide)]
    simp
  · rw [hbit, State.regBit_clrBit _ _ _ _ _ (by decide), if_neg hne, State.regBit_setBit _ _ _ _ _ (by decide)]
    simp
  · rw [hbit, State.regBit_clrBit _ _ _ _ _ (by decide)]
    simp
  · exact sameRegs_clrBit (sameRegs_setBit (sameRegs_setBit (sameRegs_refl s _) _ (by simp)) _ (by simp)) _ (by simp)

/-- A marker that falls in the pause of a lane swap is lost. -/
theorem tickMarker_closed (h : s.linkOpen i = false) (mk : Marker) (at_ : Nat) : tickMarker i mk at_ s = s := by
  unfold tickMarker
  split
  · rfl
  · exact if_pos (by simp [h])

/-- A module that FN_MISMATCH has stopped takes no marker before a new frame number. -/
theorem tickMarker_stopped (hs : s.tk.stopped = true) (hw : s.tk.waitFirst = true) (mk : Marker) (at_ : Nat) :
    (tickMarker i mk at_ s).tk = s.tk := by
  unfold tickMarker
  dsimp only
  split
  · rfl
  · split
    · rfl
    · split
      · rfl
      · rw [if_pos (by simp [mustSync, hs, hw])]

theorem exec_tickMarker (i : Nat) (w : BitVec 64) (cw : Codeword) (at_ : Nat) (s : State) :
    exec (.tickMarker i w cw at_) s = answer s (rxBlock i 0x5A w cw (tickMarker i (blkMarker w) at_) s) := rfl

theorem pending_noteCodeword (i : Nat) (cw : Codeword) (s : State) : (noteCodeword i cw s).pending = s.pending := by
  rw [noteCodeword_eq]

/-- A marker that is heard, first of its frame, on a module that awaits no number. -/
theorem exec_tickMarker_heard {w : BitVec 64} {cw : Codeword} {mk : Marker} {at_ : Nat} {tr : TickTree}
    (hw : blkTaken 0x5A w cw = true) (hmk : blkMarker w = mk) (h : MarkerHeard s i mk tr) (hwait : s.tk.waitFirst = false)
    (hfirst : s.tk.chosen = none) :
    exec (.tickMarker i w cw at_) s = answer s (if (nextFrameNumber s).setWidth 24 ≠ mk.fnLo then fnMismatch (noteCodeword i cw s)
      else chooseMarker (chosenOf s i mk tr) at_ (noteCodeword i cw s)) := by
  have htk := tk_noteCodeword i cw s
  have hchosen : chosenOf (noteCodeword i cw s) i mk tr = chosenOf s i mk tr := by
    rw [chosenOf, chosenOf, markerDelay, markerDelay, reg_noteCodeword_link i i cw s (.inr rfl)]
  rw [exec_tickMarker, rxBlock_taken h.up hw, hmk,
    tickMarker_heard (h.noteCodeword cw) (by rw [htk]; exact hwait) (by rw [htk]; exact hfirst), nextFrameNumber_congr htk, hchosen]

/-- Settles O9: the marker is judged as before its codeword was noted, and is chosen, stops the module or is lost. -/
theorem markerSchedulesTheTick : Obligations.MarkerSchedulesTheTick := by
  refine ⟨fun s i w cw mk at_ tr hsrc hup hopen hw hmk htree hlink hrank hearly hwait hfirst => ?_,
    fun s i w cw at_ hup h => ?_, fun s i w cw at_ hs hwf u hu => ?_⟩
  · have heard : MarkerHeard s i mk tr := ⟨hsrc, hup, hopen, htree, hlink, hrank, hearly⟩
    have hex := exec_tickMarker_heard (at_ := at_) hw hmk heard hwait hfirst
    refine ⟨fun hfn => ?_, fun hfn => ?_⟩
    · rw [if_neg (not_not.2 hfn.symm)] at hex
      obtain ⟨htk, hlock, hchanged, heq, hregs⟩ := chooseMarker_effect (chosenOf s i mk tr) at_ (noteCodeword i cw s)
      generalize chooseMarker (chosenOf s i mk tr) at_ (noteCodeword i cw s) = u at *
      refine ⟨u, hex.trans (answer_eq ?_), by rw [htk]; rfl, by rw [htk]; rfl, hlock, ?_, heq, hregs⟩
      · rw [heq]
        exact pending_noteCodeword i cw s
      · have hreg : (noteCodeword i cw s).reg ftStatus = s.reg ftStatus := reg_noteCodeword_hub i cw s (by decide)
        rw [regFld_of_reg hreg] at hchanged
        exact hchanged
    · rw [if_pos (Ne.symm hfn)] at hex
      obtain ⟨htk, hmis, hlost, hlock, heq, hregs⟩ := fnMismatch_effect (noteCodeword i cw s)
      generalize fnMismatch (noteCodeword i cw s) = u at *
      refine ⟨u, hex.trans (answer_eq ?_), hmis, hlost, hlock, by rw [htk], heq, hregs⟩
      rw [heq]
      exact pending_noteCodeword i cw s
  · have hlost : rxBlock i 0x5A w cw (tickMarker i (blkMarker w) at_) s = noteCodeword i cw s := by
      by_cases ht : blkTaken 0x5A w cw = true
      · have hclosed : s.linkOpen i = false := by
          rcases h with h | h | h | h
          · rw [blkTaken_false (.inl h)] at ht; exact absurd ht (by decide)
          · rw [blkTaken_false (.inr (.inl h))] at ht; exact absurd ht (by decide)
          · rw [blkTaken_false (.inr (.inr h))] at ht; exact absurd ht (by decide)
          · exact h
        rw [rxBlock_taken hup ht, tickMarker_closed ((linkOpen_noteCodeword i cw s).trans hclosed)]
      · exact rxBlock_discarded hup (Bool.eq_false_iff.2 ht) _
    rw [exec_tickMarker, hlost]
    exact answer_eq (pending_noteCodeword i cw s)
  · have htk : (rxBlock i 0x5A w cw (tickMarker i (blkMarker w) at_) s).tk = s.tk := by
      have hn := tk_noteCodeword i cw s
      unfold rxBlock
      dsimp only
      split
      · split
        · exact (tickMarker_stopped (by rw [hn]; exact hs) (by rw [hn]; exact hwf) _ _).trans hn
        · exact hn
      · rfl
    rw [exec_tickMarker, answer_next] at hu
    cases hu
    exact htk

/-! ### External references (R39, R40, R383) -/

/-- An event inside the window places the tick; with another before it, it sets LOCKED. -/
theorem placeTick_effect (at_ : Nat) (s : State) :
    (placeTick at_ s).tk = { s.tk with nextTick := (at_ + extOffset s).toNat, extIn := s.tk.extIn + 1, extOut := 0,
                                       extLast := some at_, extPlaced := true } ∧
    placeTick at_ s = { s with tk := (placeTick at_ s).tk, regs := (placeTick at_ s).regs } ∧
    s.sameRegs (placeTick at_ s) [ftStatus] ∧ (1 ≤ s.tk.extIn → (placeTick at_ s).regBit ftStatus 0 = true) := by
  unfold placeTick
  dsimp only
  refine ⟨?_, ?_, ?_, fun h => ?_⟩
  · cases decide (2 ≤ s.tk.extIn + 1) <;> rfl
  · cases decide (2 ≤ s.tk.extIn + 1) <;> rfl
  · exact sameRegs_whenS _ _ (fun _ k => sameRegs_setBit k _ (by simp)) (sameRegs_of_regs (sameRegs_refl s _) rfl)
  · rw [decide_eq_true (show 2 ≤ s.tk.extIn + 1 by omega), whenS_true, State.regBit_setBit _ _ _ _ _ (by decide)]
    simp

/-- An event outside the window, with an image active, is recorded and leaves the tick. -/
theorem eventOutside_effect (hact : s.active = true) (at_ : Nat) :
    (eventOutside at_ s).regBit ftSticky 6 = true ∧ (eventOutside at_ s).tk.nextTick = s.tk.nextTick ∧
    (eventOutside at_ s).tk.fn = s.tk.fn ∧
    eventOutside at_ s = { s with tk := (eventOutside at_ s).tk, regs := (eventOutside at_ s).regs } ∧
    s.sameRegs (eventOutside at_ s) [ftSticky] := by
  have hmoved : (s.setBit ftSticky 6).active = true := hact
  unfold eventOutside
  dsimp only
  rw [hmoved, Bool.not_true, Bool.and_false]
  refine ⟨?_, rfl, rfl, rfl, sameRegs_of_regs (sameRegs_setBit (sameRegs_refl s _) 6 (List.mem_singleton.2 rfl)) rfl⟩
  exact (State.regBit_setBit s ftSticky 6 ftSticky 6 (by decide)).trans (by simp)

/-- An event after the first tick, from stage 3. -/
theorem externalEvent_started (hst : 3 ≤ s.stage) (hs : s.tk.started = true) (at_ : Nat) :
    externalEvent at_ s = if within100 (at_ + extOffset s) s.tk.nextTick then placeTick at_ s else eventOutside at_ s := by
  rw [externalEvent, if_neg (by omega), if_neg (by simp [hs])]

theorem exec_tickRefEdge (hsrc : tickSrc s = 3) (at_ : Nat) : exec (.tickRefEdge at_) s = answer s (externalEvent at_ s) :=
  (show exec (.tickRefEdge at_) s = answer s (if tickSrc s = 3 then externalEvent at_ s else s) from rfl).trans (by rw [if_pos hsrc])

/-- A frame that a port hears comes to the command that it makes. -/
theorem takeFrame_heard {p : Nat} {f : Frame} (h : s.hears p f = true) (hst : 3 ≤ s.stage) : takeFrame p f s = serveFrame p f s := by
  obtain ⟨⟨hp, hup⟩, hgood⟩ : (p < 2 ∧ s.portUp p = true) ∧ frameBad f = false := by
    simpa [State.hears, Bool.and_eq_true, Bool.not_eq_true'] using h
  rw [takeFrame, if_neg (by simp [frameHeard, hp, hup, hst]), if_neg (by simp [hgood])]

/-- A TICK frame that a port hears, out of a safe state. -/
theorem exec_tickFrame {p : Nat} {f : Frame} (h : s.hears p f = true) (hty : f.ftype = 6) (hst : 3 ≤ s.stage) (hsafe : s.safe = 0) :
    exec (.tickFrame p f) s = answer s (tickFrame p (BitVec.ofNat 64 (leNat f.data)) f.time s) := by
  have hgate : gate s .evtAck = none := by
    rw [gate, if_neg (by simp [hsafe]), if_neg (by simp [hsafe])]
    split <;> rfl
  have hserve : serveFrame p f s = tickFrame p (BitVec.ofNat 64 (leNat f.data)) f.time s := by
    rw [serveFrame, hty]
    exact if_neg (by rw [hgate]; decide)
  exact (congrArg (answer s) ((takeFrame_heard h hst).trans hserve)).trans rfl

theorem tickFrame_other {p : Nat} (hp : p ≠ s.regFld ftSrc 2 1) (fn : DWord) (at_ : Nat) : tickFrame p fn at_ s = s := by
  rw [tickFrame, if_pos (.inr hp)]

/-- A TICK frame that would place the tick: FN decides. -/
theorem tickFrame_places {p at_ : Nat} (hsrc : tickSrc s = 2) (hp : p = s.regFld ftSrc 2 1) (hst : 3 ≤ s.stage)
    (hs : s.tk.started = true) (hin : within100 (at_ + extOffset s) s.tk.nextTick = true) (hstop : s.tk.stopped = false) (fn : DWord) :
    tickFrame p fn at_ s = if fn ≠ nextFrameNumber s then fnMismatch s else placeTick at_ s := by
  have hkept : (s.modTk fun k => { k with stopped := false }) = s := by
    rw [← hstop]
    rfl
  rw [tickFrame, if_neg (by simp [hsrc, hp]), hin, Bool.or_true, Bool.true_and]
  by_cases hfn : fn = nextFrameNumber s
  · have hnotified : whenS (true && !s.tk.waitFirst) (fun u => u.modTk fun k => { k with stopped := false }) s = s := by
      cases s.tk.waitFirst
      · exact hkept
      · rfl
    simp only [hfn, ne_eq, not_true, decide_false, if_false, Bool.false_eq_true, hnotified]
    rw [externalEvent_started hst hs, if_pos hin]
  · simp [hfn]

/-- Settles O10: the window decides whether an event places the tick, and FN whether a TICK frame may. -/
theorem externalEventPlacesTheTick : Obligations.ExternalEventPlacesTheTick := by
  refine ⟨fun s at_ hsrc hst hs hin => ?_, fun s at_ hsrc hst hs hact hout => ?_,
    fun s p f hsrc hears hty hst hsafe hs hin hstop => ⟨fun hp => ?_, fun hp hfn => ?_, fun hp hfn => ?_⟩⟩
  · obtain ⟨htk, heq, hregs, hlock⟩ := placeTick_effect at_ s
    refine ⟨placeTick at_ s, ?_, htk, heq, hregs, hlock⟩
    rw [exec_tickRefEdge hsrc, externalEvent_started hst hs, if_pos hin]
    exact answer_eq (by rw [heq])
  · obtain ⟨hbit, hnext, hfn, heq, hregs⟩ := eventOutside_effect hact at_
    refine ⟨eventOutside at_ s, ?_, hbit, hnext, hfn, heq, hregs⟩
    rw [exec_tickRefEdge hsrc, externalEvent_started hst hs, if_neg (by simp [hout])]
    exact answer_eq (by rw [heq])
  · rw [exec_tickFrame hears hty hst hsafe, tickFrame_other hp]
    exact answer_eq rfl
  · obtain ⟨htk, heq, hregs, -⟩ := placeTick_effect f.time s
    refine ⟨placeTick f.time s, ?_, by rw [htk], by rw [htk], heq, hregs⟩
    rw [exec_tickFrame hears hty hst hsafe, tickFrame_places hsrc hp hst hs hin hstop, if_neg (not_not.2 hfn)]
    exact answer_eq (by rw [heq])
  · obtain ⟨htk, hmis, -, -, heq, -⟩ := fnMismatch_effect s
    refine ⟨fnMismatch s, ?_, hmis, by rw [htk], by rw [htk]⟩
    rw [exec_tickFrame hears hty hst hsafe, tickFrame_places hsrc hp hst hs hin hstop, if_pos hfn]
    exact answer_eq (by rw [heq])

/-! ### Packets that a link accepts (R298) -/

/-- A good packet that is the one expected, on a link that is UP, is accepted. -/
theorem rxPacket_accepted {p : Packet} {cw : Codeword} (hup : s.linkUp i = true) (hgood : rxGood p cw = true) (hlt : p.lseq < 65536)
    (hexp : p.lseq = (s.link i).lseqRx) (deliver : State → State) :
    rxPacket i p cw deliver s = deliver (rxAccept i p (noteCodeword i cw s)) := by
  have hl : ((noteCodeword i cw s).link i).lseqRx = p.lseq := by
    obtain ⟨n, sums, h⟩ := link_noteCodeword i cw s
    rw [h, hexp]
  have hbehind : (((noteCodeword i cw s).link i).lseqRx + 65536 - p.lseq % 65536) % 65536 = 0 := by
    rw [hl, Nat.mod_eq_of_lt hlt]
    omega
  rw [rxPacket, if_neg (by simp [hup])]
  dsimp only
  rw [if_neg (by simp [hgood]), if_pos hbehind]

/-- A packet that is accepted changes the record of its link, and is acknowledged. -/
theorem rxAccept_eq (i : Nat) (p : Packet) (s : State) :
    rxAccept i p s = { s with links := (rxAccept i p s).links, out := (rxAccept i p s).out } := by
  unfold rxAccept
  extract_lets l one l'
  obtain ⟨out, h⟩ := sendAcks_eq i (s.setLink i l')
  rw [h]
  rfl

/-- An accepted packet leaves the sandglass and the registers as its codeword left them. -/
theorem tk_accepted (i : Nat) (p : Packet) (cw : Codeword) (s : State) : (rxAccept i p (noteCodeword i cw s)).tk = s.tk := by
  rw [rxAccept_eq]
  exact tk_noteCodeword i cw s

theorem reg_accepted (i : Nat) (p : Packet) (cw : Codeword) (s : State) {off : Nat} (h : off < 0x8400) :
    (rxAccept i p (noteCodeword i cw s)).reg (hubA off) = s.reg (hubA off) := by
  rw [State.reg_congr (congrArg State.regs (rxAccept_eq i p (noteCodeword i cw s)))]
  exact reg_noteCodeword_hub i cw s h

/-! ### Frame-number synchronisation (R50, R416) -/

/-- An FNSYNC packet with a frame number, that its link accepts. -/
theorem exec_fnsync {p : Packet} {cw : Codeword} (hup : s.linkUp i = true) (hgood : rxGood p cw = true) (hlt : p.lseq < 65536)
    (hexp : p.lseq = (s.link i).lseqRx) (hty : p.ptype = 7) (hok : packetBad p = false) (hnum : p.fnsync ≠ fnsyncRequest) :
    exec (.fnsync i p cw) s = answer s (takeFnsync i p.fnsync (rxAccept i p (noteCodeword i cw s))) := by
  have hex : exec (.fnsync i p cw) s = answer s (rxPacket i p cw (deliverFnsync i p) s) := rfl
  rw [hex, rxPacket_accepted hup hgood hlt hexp, deliverFnsync, if_neg (by simp [hok]), if_neg (by simp [hty]), if_neg hnum]

/-- A number from the primary upstream link, at a leaf of the tree. -/
theorem takeFnsync_leaf {tr : TickTree} (ht : treeFrom s i = some tr) (hp : tr.primary = some i) (hdown : tr.down = []) (v : DWord) :
    takeFnsync i v s = if (tickSrc s = 0 ∧ !locked s) ∨ s.tk.stopped then
      s.modTk fun k => { k with pendingFn := some v, waitFirst := false } else s := by
  rw [takeFnsync, ht]
  dsimp only
  rw [if_neg (by simp [hp]), hdown]
  rfl

theorem broadcastFn_eq {k : Nat} {tr : TickTree} (hk : masterRank s = some k) (ht : treeOf s k = some tr) :
    broadcastFn s = forEach tr.down (fun i u => if u.linkUp i then
          enqueue i { ptype := 7, dst := ((u.link i).peer.map (·.mid)).getD 0, src := u.moduleId, ftag := u.ftag,
                      fnsync := nextFrameNumber s } u else u) s := by
  have hsend : (fun i u => sendFnsync i (nextFrameNumber s) u) = fun i (u : State) => if u.linkUp i then
      enqueue i { ptype := 7, dst := ((u.link i).peer.map (·.mid)).getD 0, src := u.moduleId, ftag := u.ftag,
                  fnsync := nextFrameNumber s } u else u := by
    funext i u
    rw [sendFnsync]
    cases u.linkUp i <;> rfl
  rw [broadcastFn, hk, Option.bind_some, ht, ← hsend]

/-- Settles O11: an accepted FNSYNC packet leaves the sandglass as it was, and is then judged by LOCKED. -/
theorem frameNumbersAreSynchronised : Obligations.FrameNumbersAreSynchronised := by
  refine ⟨fun s i p cw tr hup hgood hlt hexp hty hok hnum htree hprim hsrc hlock hdown => ?_,
    fun s i p cw tr hup hgood hlt hexp hty hok hnum htree hprim hlock hstop hdown => ?_, fun s k tr hs hk ht => ?_⟩
  · have htk := tk_accepted i p cw s
    have hstatus : (rxAccept i p (noteCodeword i cw s)).reg ftStatus = s.reg ftStatus := reg_accepted i p cw s (by decide)
    have hsource : (rxAccept i p (noteCodeword i cw s)).reg ftSrc = s.reg ftSrc := reg_accepted i p cw s (by decide)
    have hex := exec_fnsync hup hgood hlt hexp hty hok hnum
    generalize rxAccept i p (noteCodeword i cw s) = v at *
    have hfree : locked v = false := (regBit_of_reg hstatus 0).trans hlock
    have hfn : v.tk.fn = s.tk.fn := by rw [htk]
    rw [takeFnsync_leaf (by rw [treeFrom, htk]; exact htree) hprim hdown,
      if_pos (.inl ⟨(tickSrc_congr hsource).trans hsrc, by simp [hfree]⟩), answer_next] at hex
    exact ⟨_, hex, rfl, hfn, rfl⟩
  · have htk := tk_accepted i p cw s
    have hstatus : (rxAccept i p (noteCodeword i cw s)).reg ftStatus = s.reg ftStatus := reg_accepted i p cw s (by decide)
    have hex := exec_fnsync hup hgood hlt hexp hty hok hnum
    generalize rxAccept i p (noteCodeword i cw s) = v at *
    have hheld : locked v = true := (regBit_of_reg hstatus 0).trans hlock
    rw [takeFnsync_leaf (by rw [treeFrom, htk]; exact htree) hprim hdown, if_neg (by simp [hheld, htk, hstop]), answer_next] at hex
    exact ⟨_, hex, htk⟩
  · have hex : exec .fnsyncBroadcast s = answer s (if s.tk.started then broadcastFn s else s) := rfl
    rw [hex, if_pos hs, broadcastFn_eq hk ht, answer_next]

end Sys2Proof.Machine
end

section
/-! PROOFS. The order of a frame program, windows and tokens (R199, R205, R216, R271 to R276, R307). First what follows messages
sent through the injection queue, and a refusal at issue. -/

namespace Sys2Proof.Machine

variable {s t u : State} {core : Nat} {also : List Nat} {msgs : List (Nat × Nat × Nat)}

/-! ### Registers that a write of another leaves, and frames of registers and cores -/

variable {a b : Nat}

theorem State.reg_setBit_other (s : State) (h : b ≠ a) (i : Nat) : (s.setBit a i).reg b = s.reg b := by
  rw [State.reg_setBit, if_neg h]
theorem State.reg_setFld_other (s : State) (h : b ≠ a) (lo w v : Nat) : (s.setFld a lo w v).reg b = s.reg b := by
  rw [State.reg_setFld, if_neg h]
theorem State.reg_addCnt_other (s : State) (h : b ≠ a) (lo w n : Nat) : (s.addCnt a lo w n).reg b = s.reg b := by
  rw [State.reg_addCnt, if_neg h]

/-- Registers and cores alone differ. -/
def State.coresDiffer (s t : State) : Prop := t = { s with cores := t.cores, regs := t.regs }

theorem coresDiffer_refl (s : State) : s.coresDiffer s := rfl

theorem coresDiffer_setReg (h : s.coresDiffer t) (a : Nat) (v : Word) : s.coresDiffer (t.setReg a v) := by
  unfold State.coresDiffer at h ⊢
  rw [h]
  rfl
theorem coresDiffer_setBit (h : s.coresDiffer t) (a i : Nat) : s.coresDiffer (t.setBit a i) := coresDiffer_setReg h _ _
theorem coresDiffer_setFld (h : s.coresDiffer t) (a lo w v : Nat) : s.coresDiffer (t.setFld a lo w v) := coresDiffer_setReg h _ _
theorem coresDiffer_addCnt (h : s.coresDiffer t) (a lo w n : Nat) : s.coresDiffer (t.addCnt a lo w n) := coresDiffer_setReg h _ _

theorem coresDiffer_modCore (h : s.coresDiffer t) (i : Nat) (f : Core → Core) : s.coresDiffer (t.modCore i f) := by
  unfold State.coresDiffer at h ⊢
  rw [h]
  rfl

theorem coresDiffer_whenS (b : Bool) (f : State → State) (hf : ∀ u, s.coresDiffer u → s.coresDiffer (f u)) (h : s.coresDiffer t) :
    s.coresDiffer (whenS b f t) := by
  cases b
  · exact h
  · exact hf t h

/-! ### Messages and completion (R197, R273) -/

theorem passed_refl (c : Core) (q : Nat) : Core.passed c c q := ⟨rfl, fun _ _ => rfl, rfl⟩

theorem passed_trans {b c d : Core} {q : Nat} (h : Core.passed b c q) (k : Core.passed c d q) : Core.passed b d q := by
  obtain ⟨hc, hq, hl⟩ := h
  obtain ⟨kc, kq, kl⟩ := k
  exact ⟨by rw [kc, hc], fun r hr => (kq r hr).trans (hq r hr), kl.trans hl⟩

theorem passed_advanced {c d : Core} {q : Nat} (h : Core.passed c d q) : Core.passed c.advanced d.advanced q := by
  obtain ⟨hc, hq, hl⟩ := h
  exact ⟨by rw [hc]; rfl, hq, hl⟩

/-- A change of its core after messages have left. -/
theorem onlyCore_modCore_sent (h : s.onlyCore t core msgs also) (f : Core → Core) :
    s.onlyCore (t.modCore core f) core msgs also := by
  obtain ⟨hc, hf, ho, ht, hq, hout, hm⟩ := h
  obtain ⟨hqr, hrest⟩ := hq
  refine ⟨fun j hj => ?_, hf, ho, ?_, ⟨sameRegs_of_regs hqr rfl, hrest⟩, hout, fun e => ⟨?_, sameRegs_of_regs (hm e).2 rfl⟩⟩
  · rw [State.core_modCore, if_neg hj, hc j hj]
  · rw [ht]
    rfl
  · rw [(hm e).1]
    rfl

theorem onlyCore_signalDone_sent (h : s.onlyCore t core msgs also) (hn : coreQA core 24 0 ∉ also) (w : BitVec 256) :
    s.onlyCore (signalDone core w t) core (msgs ++ signalOf core w) also := by
  unfold signalDone signalOf
  cases iSigEn w
  · rw [if_neg Bool.false_ne_true, List.append_nil]
    exact h
  · exact (onlyCore_send core h hn core (iStok w) 1 0).1

/-- Completion at issue after messages have left. -/
theorem onlyCore_doneAtIssue_sent (h : s.onlyCore t core msgs also) (hn : coreQA core 24 0 ∉ also) (w : BitVec 256) :
    s.onlyCore (doneAtIssue core w t) core (msgs ++ signalOf core w) also :=
  onlyCore_signalDone_sent (onlyCore_modCore_sent h _) hn w

/-- One message for each of a list of targets. -/
def sendTokens (core : Nat) (l : List (Nat × Nat × Nat)) (s : State) : State :=
  forEach l (fun m s => sendToken m.1 m.2.1 m.2.2 (passQueue core 24 0 s)) s

theorem sendTokens_sent (l : List (Nat × Nat × Nat)) (h : s.onlyCore t core msgs []) :
    s.onlyCore (sendTokens core l t) core (msgs ++ l) [] ∧ Core.passed (t.core core) ((sendTokens core l t).core core) 24 := by
  induction l generalizing t msgs with
  | nil => exact ⟨by rw [List.append_nil]; exact h, passed_refl _ _⟩
  | cons m l ih =>
    obtain ⟨ho, hp⟩ := onlyCore_send core h List.not_mem_nil m.1 m.2.1 m.2.2 0
    obtain ⟨hos, hps⟩ := ih ho
    rw [List.append_assoc] at hos
    exact ⟨hos, passed_trans hp hps⟩

/-- What a signal changes beside the message in flight. -/
theorem signalDone_eq (core : Nat) (w : BitVec 256) (t : State) : signalDone core w t =
    { t.withRest (signalDone core w t) with flight := t.flight ++ signalOf core w } := by
  unfold signalDone signalOf
  cases iSigEn w
  · rw [if_neg Bool.false_ne_true, List.append_nil]
    rfl
  · obtain ⟨-, -, -, ht, -⟩ := passQueue_spec core 24 t 0
    rw [whenS_true, sendToken, ht]
    rfl

theorem regs_signalDone_signal (core : Nat) (w : BitVec 256) (t : State) : t.sameRegs (signalDone core w t) (signalRegs core w) := by
  unfold signalRegs
  cases h : iSigEn w
  · rw [signalDone, h]
    exact sameRegs_refl t _
  · exact regs_signalDone t core w

/-! ### A refusal that names nothing (R198) -/

/-- Changes of one core alone. -/
theorem headerTaken_eq (s : State) (core : Nat) (w : BitVec 256) :
    headerTaken s core w = { s with cores := (headerTaken s core w).cores } := header_eq s core _

/-- An instruction refused at issue, its header's count taken, with no sticky bit and no descriptor: it completes, signals and
stages its event. -/
theorem refuseAtIssue_effect (w : BitVec 256) (hroom : s.fx.cur.events.length < 64) :
    let t := refuseAtIssue core (s.core core).pos w {} (headerTaken s core w)
    Core.passed ((s.core core).wentOn (headerPairs s core w)) (t.core core) 24 ∧ t.flight = s.flight ++ signalOf core w ∧
      t.fx.cur.events = s.fx.cur.events ++ [refusalEvent s core (s.core core).pos (iOp w)] ∧ s.sameBytes t ∧
      s.sameRegs t (signalRegs core w) ∧ t.pending = s.pending := by
  dsimp only
  have hh := headerTaken_eq s core w
  have hc := core_headerTaken s core w
  generalize headerTaken s core w = v at *
  have hwfn : v.wfn = s.wfn := by rw [hh]; rfl
  have hstaged : (refusal core (s.core core).pos w {} v) =
      v.modCur fun f => { f with events := f.events ++ [refusalEvent s core (s.core core).pos (iOp w)] } := by
    have hev : v.fx.cur.events.length < 64 := by rw [hh]; exact hroom
    simp only [refusal, forEach_nil, refusalEvent, hwfn, stageEvent, State.modCur, State.modFx, if_pos hev]
  have heq := signalDone_eq core w (advance core (refusal core (s.core core).pos w {} v))
  have hregs := regs_signalDone_signal core w (advance core (refusal core (s.core core).pos w {} v))
  have hpass := passed_doneAtIssue (refusal core (s.core core).pos w {} v) core w
  rw [refuseAtIssue]
  change Core.passed _ ((signalDone core w (advance core (refusal core (s.core core).pos w {} v))).core core) 24 at hpass
  rw [doneAtIssue]
  generalize signalDone core w (advance core (refusal core (s.core core).pos w {} v)) = t at *
  refine ⟨?_, ?_, ?_, ?_, ?_, ?_⟩
  · rw [hstaged] at hpass
    rw [← advanced_took, ← hc]
    exact hpass
  · rw [heq, hstaged, hh]
    rfl
  · rw [heq, hstaged, hh]
    rfl
  · rw [heq, hstaged, hh]
    exact fun _ => ⟨rfl, rfl, rfl, rfl⟩
  · rw [hstaged] at hregs
    exact sameRegs_trans (sameRegs_of_regs (sameRegs_refl s _) (by rw [hh]; rfl)) hregs
  · rw [heq, hstaged, hh]
    rfl

/-! ### NOP, END, WAIT and SIGNAL (R199, R205) -/

/-- An instruction whose work stays within its core, and that completes at issue. -/
theorem completes_quiet {w : BitVec 256} (h : s.onlyCore t core [] []) :
    s.onlyCore (doneAtIssue core w t) core (signalOf core w) ∧
      Core.passed (t.core core).advanced ((doneAtIssue core w t).core core) 24 :=
  ⟨onlyCore_doneAtIssue h List.not_mem_nil w, passed_doneAtIssue t core w⟩

section
variable {body : BitVec 248}

theorem exec_nop_here (hres : reservedHere s core = none) (hi : canIssue s core (fullWord 0x00 body) = true)
    (hr : anySet (fullWord 0x00 body) (hdrReserved ++ [(64, 192)]) = false) :
    exec (.nop core body) s = answer s (doneAtIssue core (fullWord 0x00 body) (headerTaken s core (fullWord 0x00 body))) := by
  have hex : exec (.nop core body) s = answer s (runNop core (fullWord 0x00 body) s) := rfl
  rw [hex, runNop, hres]
  dsimp only
  rw [attempt_headerTaken hi, hr]
  rfl

theorem exec_nop_reserved {v : BitVec 256} (hres : reservedHere s core = some v) (hi : canIssue s core v = true) :
    exec (.nop core body) s = answer s (refuseAtIssue core (s.core core).pos v {} (headerTaken s core v)) := by
  have hex : exec (.nop core body) s = answer s (runNop core (fullWord 0x00 body) s) := rfl
  rw [hex, runNop, hres]
  dsimp only
  rw [attempt_headerTaken hi]

/-- A program that may issue has not passed its end. -/
theorem pastEnd_of_canIssue {w : BitVec 256} (hi : canIssue s core w = true) : pastEnd s core = false := by
  simp only [canIssue, Bool.and_eq_true, Bool.not_eq_true'] at hi
  exact hi.1.1.1.1.1.2

theorem exec_endProg_here (hi : canIssue s core (fullWord 0x01 body) = true)
    (hr : anySet (fullWord 0x01 body) (hdrReserved ++ [(64, 192)]) = false) : exec (.endProg core body) s =
      answer s (endProgram core (doneAtIssue core (fullWord 0x01 body) (headerTaken s core (fullWord 0x01 body)))) := by
  have hex : exec (.endProg core body) s = answer s (runEnd core (fullWord 0x01 body) s) := rfl
  rw [hex, runEnd, if_neg (by simp [pastEnd_of_canIssue hi]), attempt_headerTaken hi, hr]
  rfl

/-- The end of a program is its core's alone. -/
theorem passed_ended {c d : Core} (h : Core.passed c d 24) (hw : c.waiting = none) :
    Core.passed { c with ended := true } { d with ended := true, waiting := none } 24 := by
  obtain ⟨hc, hq, hl⟩ := h
  exact ⟨by rw [hc, ← hw], hq, hl⟩

theorem exec_wait_issued (hi : canIssue s core (fullWord 0x02 body) = true)
    (hr : anySet (fullWord 0x02 body) (hdrReserved ++ waitReserved) = false) : exec (.wait core body) s = answer s
      (if pairsMet ((s.core core).took (headerPairs s core (fullWord 0x02 body))) (waitPairs (fullWord 0x02 body)) then
        doneAtIssue core (fullWord 0x02 body)
          (takeTokens core (waitPairs (fullWord 0x02 body)) (headerTaken s core (fullWord 0x02 body)))
      else setWaiting core (waitPairs (fullWord 0x02 body)) true (headerTaken s core (fullWord 0x02 body))) := by
  have hex : exec (.wait core body) s = answer s (runWait core (fullWord 0x02 body) s) := rfl
  rw [hex, runWait, attempt_headerTaken hi, hr, core_headerTaken]
  rfl

theorem core_takeTokens (l : List (Nat × Nat)) (t : State) : (takeTokens core l t).core core = (t.core core).took l := by
  simp [takeTokens, Core.took]

theorem exec_signal_issued (hi : canIssue s core (fullWord 0x03 body) = true)
    (hr : anySet (fullWord 0x03 body) (hdrReserved ++ signalReserved) = false)
    (hd : ∀ m ∈ signalTargets core (fullWord 0x03 body), m.1 < 768) : exec (.signal core body) s = answer s
      (doneAtIssue core (fullWord 0x03 body)
        (sendTokens core (signalTargets core (fullWord 0x03 body)) (headerTaken s core (fullWord 0x03 body)))) := by
  have hex : exec (.signal core body) s = answer s (runSignal core (fullWord 0x03 body) s) := rfl
  have hdies : (signalTargets core (fullWord 0x03 body)).any (fun t => decide (768 ≤ t.1)) = false :=
    List.any_eq_false.2 fun m hm => by simpa using hd m hm
  rw [hex, runSignal, attempt_headerTaken hi]
  dsimp only
  rw [hr, hdies]
  rfl

end

/-- Settles O12: each works within its core, and completes at issue, waits or is refused. -/
theorem nopEndWaitAndSignalComplete : Obligations.NopEndWaitAndSignalComplete := by
  refine ⟨⟨fun s core body hres hi hr => ?_, fun s core body v hres hi hroom => ?_, fun s core body hi hr => ?_⟩,
    fun s core body hi hr hm => ?_, fun s core body hi hr hm => ?_, fun s core body hi hr hd => ?_⟩
  · rw [exec_nop_here hres hi hr]
    generalize fullWord 0x00 body = w
    obtain ⟨ho, hp⟩ := completes_quiet (w := w) (onlyCore_headerTaken s core w)
    rw [core_headerTaken, advanced_took] at hp
    exact ⟨_, answer_eq (onlyCore_pending ho), ho, hp⟩
  · obtain ⟨⟨hc, -⟩, hflight, hevents, hbytes, hregs, hpend⟩ := refuseAtIssue_effect (core := core) v hroom
    refine ⟨_, (exec_nop_reserved hres hi).trans (answer_eq hpend), ?_, hflight, hevents, hbytes, hregs⟩
    rw [hc]
    rfl
  · rw [exec_endProg_here hi hr]
    generalize fullWord 0x01 body = w
    obtain ⟨ho, hp⟩ := completes_quiet (w := w) (onlyCore_headerTaken s core w)
    rw [core_headerTaken, advanced_took] at hp
    have hend := onlyCore_modCore_sent ho fun c => { c with ended := true, waiting := none }
    refine ⟨_, answer_eq (onlyCore_pending hend), hend, ?_⟩
    rw [endProgram, State.core_modCore_self]
    exact passed_ended hp rfl
  · rw [exec_wait_issued hi hr, if_pos hm]
    generalize fullWord 0x02 body = w
    obtain ⟨ho, hp⟩ := completes_quiet (w := w) (onlyCore_modCore (onlyCore_headerTaken s core w)
      fun c => (waitPairs w).foldl (fun c p => c.setToken p.1 (c.token p.1 - p.2)) c)
    refine ⟨_, answer_eq (onlyCore_pending ho), ho, ?_⟩
    rwa [State.core_modCore_self, core_headerTaken, ← Core.took, ← took_append, advanced_took] at hp
  · rw [exec_wait_issued hi hr, if_neg (by rw [hm]; decide)]
    generalize fullWord 0x02 body = w
    have ho : s.onlyCore (setWaiting core (waitPairs w) true (headerTaken s core w)) core [] :=
      onlyCore_modCore (onlyCore_headerTaken s core w) _
    refine ⟨_, answer_eq (onlyCore_pending ho), ho, ?_, ?_, ?_⟩
    · simp [setWaiting, core_headerTaken, took_pos]
    · simp [setWaiting, core_headerTaken, took_ops]
    · simp [setWaiting, core_headerTaken]
  · rw [exec_signal_issued hi hr hd]
    generalize fullWord 0x03 body = w
    obtain ⟨ho, hp⟩ := sendTokens_sent (signalTargets core w) (onlyCore_headerTaken s core w)
    have hdone := onlyCore_doneAtIssue_sent ho List.not_mem_nil w
    refine ⟨_, answer_eq (onlyCore_pending hdone), hdone, ?_⟩
    have hq := passed_doneAtIssue (sendTokens core (signalTargets core w) (headerTaken s core w)) core w
    rw [core_headerTaken] at hp
    rw [← advanced_took]
    exact passed_trans (passed_advanced hp) hq

/-! ### Windows (R216, R307) -/

section
variable {body : BitVec 248}

theorem windowOk_headerTaken (w : BitVec 256) (base size : Nat) :
    windowOk (headerTaken s core w) core base size = windowOk s core base size := by
  rw [headerTaken_eq]
  rfl

theorem exec_winOpen_issued (hi : canIssue s core (fullWord 0x0C body) = true) : exec (.winOpen core body) s = answer s
    (if anySet (fullWord 0x0C body) (hdrReserved ++ [(160, 96)]) ||
        !windowOk s core (fld (fullWord 0x0C body) 70 48) (fld (fullWord 0x0C body) 118 40) then
      refuseAtIssue core (s.core core).pos (fullWord 0x0C body) {} (headerTaken s core (fullWord 0x0C body))
    else doneAtIssue core (fullWord 0x0C body) (pendWindow core (fld (fullWord 0x0C body) 64 6)
      (some ⟨fld (fullWord 0x0C body) 70 48, fld (fullWord 0x0C body) 118 40, fld (fullWord 0x0C body) 158 2⟩)
      (headerTaken s core (fullWord 0x0C body)))) := by
  have hex : exec (.winOpen core body) s = answer s (runWinOpen core (fullWord 0x0C body) s) := rfl
  rw [hex, runWinOpen, attempt_headerTaken hi]
  dsimp only
  rw [windowOk_headerTaken]

theorem exec_winClose_issued (hi : canIssue s core (fullWord 0x0D body) = true)
    (hr : anySet (fullWord 0x0D body) (hdrReserved ++ [(70, 186)]) = false) : exec (.winClose core body) s = answer s
      (doneAtIssue core (fullWord 0x0D body)
        (pendWindow core (fld (fullWord 0x0D body) 64 6) none (headerTaken s core (fullWord 0x0D body)))) := by
  have hex : exec (.winClose core body) s = answer s (runWinClose core (fullWord 0x0D body) s) := rfl
  rw [hex, runWinClose, attempt_headerTaken hi, hr]
  rfl

theorem winPend_wentOn (c : Core) (l : List (Nat × Nat)) : (c.wentOn l).winPend = c.winPend := by
  rw [Core.wentOn, took_eq]

/-- A window change is registered, and the instruction completes. -/
theorem pendWindow_completes (w : BitVec 256) (win : Nat) (v : Option Window) :
    ∃ t, answer s (doneAtIssue core w (pendWindow core win v (headerTaken s core w))) = .next t ∧
      s.onlyCore t core (signalOf core w) ∧
      Core.passed { (s.core core).wentOn (headerPairs s core w) with
        winPend := (s.core core).winPend ++ [{ win := win, w := v }] } (t.core core) 24 := by
  obtain ⟨ho, hp⟩ := completes_quiet (w := w) (onlyCore_modCore (onlyCore_headerTaken s core w)
    fun c => { c with winPend := c.winPend ++ [{ win := win, w := v }] })
  refine ⟨_, answer_eq (onlyCore_pending ho), ho, ?_⟩
  rw [State.core_modCore_self, core_headerTaken, took_eq] at hp
  rw [← advanced_took, took_eq]
  exact hp

theorem iOp_fullWord (op : BitVec 8) (body : BitVec 248) : iOp (fullWord op body) = op.toNat := by
  have hop := op.isLt
  rw [iOp, fld, fullWord, BitVec.toNat_append, ← Nat.shiftLeft_add_eq_or_of_lt hop, Nat.shiftLeft_eq, Nat.shiftRight_zero]
  omega

end

/-- Settles O14: a window change waits in its core, or the instruction is refused. -/
theorem windowsChangeAtTheNextTick : Obligations.WindowsChangeAtTheNextTick := by
  refine ⟨fun s core body hi hr hok => ?_, fun s core body hi hbad hroom => ?_, fun s core body hi hr => ?_⟩
  · rw [exec_winOpen_issued hi, if_neg (by rw [hr, hok]; decide)]
    exact pendWindow_completes _ _ _
  · obtain ⟨⟨hc, -⟩, hflight, hevents, hbytes, hregs, hpend⟩ := refuseAtIssue_effect (core := core) (fullWord 0x0C body) hroom
    rw [exec_winOpen_issued hi, if_pos (by rw [hbad, Bool.not_false, Bool.or_true])]
    rw [iOp_fullWord] at hevents
    refine ⟨_, answer_eq hpend, ?_, ?_, hflight, hevents, hbytes, hregs⟩
    · exact (congrArg Core.winPend hc).trans (winPend_wentOn _ _)
    · rw [hc]
      rfl
  · rw [exec_winClose_issued hi hr]
    exact pendWindow_completes _ _ _


/-! ### A detected fault (R317, R347) -/

/-- What a detected fault leaves: all but registers, the commit unit's log, the ports and what is seen from outside; and the
running frame's record. -/
structure FaultOnly (s t : State) : Prop where
  eq : t = { s with regs := t.regs, fx := t.fx, port := t.port, svc := t.svc, out := t.out }
  cur : t.fx.cur = s.fx.cur

theorem FaultOnly.refl (s : State) : FaultOnly s s := ⟨rfl, rfl⟩

theorem FaultOnly.trans (h : FaultOnly s t) (k : FaultOnly t u) : FaultOnly s u :=
  ⟨by rw [k.eq, h.eq], k.cur.trans h.cur⟩

theorem FaultOnly.event (h : FaultOnly s t) (k : EventOnly t u) : FaultOnly s u :=
  h.trans ⟨by rw [k.fx]; exact k.eq, by rw [k.fx]⟩

theorem FaultOnly.setReg (h : FaultOnly s t) (a : Nat) (v : Word) : FaultOnly s (t.setReg a v) := h.trans ⟨rfl, rfl⟩
theorem FaultOnly.modFx (h : FaultOnly s t) (f : CommitSt → CommitSt) (hf : (f t.fx).cur = t.fx.cur) : FaultOnly s (t.modFx f) :=
  h.trans ⟨rfl, hf⟩
theorem FaultOnly.whenS (b : Bool) (f : State → State) (hf : ∀ u, FaultOnly s u → FaultOnly s (f u)) (h : FaultOnly s t) :
    FaultOnly s (whenS b f t) := by
  cases b
  · exact h
  · exact hf t h

theorem faultOnly_newLogEntry (h : FaultOnly s t) (cls : Nat) (l : Loc) (source attempt : Nat) (wfn : DWord) :
    FaultOnly s (newLogEntry cls l source attempt wfn t) := by
  unfold newLogEntry
  extract_lets k wraps s1 s2 s3 s4 s5 key s6
  have h1 : FaultOnly s s1 := FaultOnly.whenS _ _ (fun _ h => h.setReg _ _) h
  have h4 : FaultOnly s s4 := (((h1.setReg _ _).setReg _ _).setReg _ _).setReg _ _
  exact (((h4.setReg _ _).setReg _ _).modFx _ rfl).event (eventOnly_pushEvent (.refl _) _)

theorem faultOnly_requestRetire (h : FaultOnly s t) (k : Nat) (l : Loc) : FaultOnly s (requestRetire k l t) := by
  unfold requestRetire
  dsimp only
  split
  · exact h
  · split
    · exact h.modFx _ rfl
    · exact h

theorem faultOnly_classPermanent (h : FaultOnly s t) (k : Nat) (l : Loc) : FaultOnly s (classPermanent k l t) :=
  faultOnly_requestRetire ((h.setReg _ _).event (eventOnly_pushEvent (.refl _) _)) k l

theorem faultOnly_logDetection (l : Loc) (s : State) : FaultOnly s (logDetection l s) := by
  unfold logDetection
  extract_lets attempt wfn
  split
  · exact faultOnly_newLogEntry (.refl s) _ _ _ _ _
  · extract_lets reps s1 s2
    have h2 : FaultOnly s s2 := FaultOnly.modFx (((FaultOnly.refl s).setReg _ _).setReg _ _) _ rfl
    split
    · exact faultOnly_classPermanent h2 _ _
    · exact h2

/-- A detected fault is recorded in the running frame; of the rest it leaves what `FaultOnly` says. -/
theorem detectFault_effect (l : Loc) (s : State) :
    detectFault l s = { s with regs := (detectFault l s).regs, fx := (detectFault l s).fx, port := (detectFault l s).port,
                               svc := (detectFault l s).svc, out := (detectFault l s).out } ∧
    (detectFault l s).fx.cur = { s.fx.cur with
      fault := true, locs := if s.fx.cur.locs.contains l then s.fx.cur.locs else s.fx.cur.locs ++ [l] } := by
  have h := faultOnly_logDetection l (((s.setBit fxSticky 0).addCnt fxCnt 0 16 1).modCur fun f =>
    { f with fault := true, locs := if f.locs.contains l then f.locs else f.locs ++ [l] })
  exact ⟨h.eq, h.cur⟩

/-- Bit j of a register outside the fault log that no entry of the log can share: the second word of an entry lies at 4 in a line of
16 bytes, and a class is written at bit 28 and above. -/
structure OffLog (a j : Nat) : Prop where
  not_logRegs : ∀ k, k < 64 → a ∉ logRegs k
  not_count : a ≠ fxCnt
  line : a % 16 ≠ 4
  low : j < 28

variable {j : Nat}

/-- A die's register is outside the log. -/
theorem offLog_die {a : Nat} (hd : dieA 0 0 ≤ a) (hl : a % 16 ≠ 4) (hj : j < 28) : OffLog a j where
  not_logRegs k hk := by
    simp only [logRegs, eventRegs, List.mem_append, List.mem_cons, List.not_mem_nil, or_false, logA, hubQA, hubA, fxLogHead, fxSticky,
      dpSticky, dieA] at hd ⊢
    omega
  not_count := by
    simp only [dieA, fxCnt, hubA] at hd ⊢
    omega
  line := hl
  low := hj

theorem OffLog.not_eventRegs (h : OffLog a j) : a ∉ eventRegs := fun ha =>
  h.not_logRegs 0 (by decide) (List.mem_append_right _ ha)

theorem OffLog.ne_second (h : OffLog a j) (k : Nat) : a ≠ logA k 1 := by
  have hl := h.line
  rintro rfl
  simp only [logA, hubA] at hl
  omega

theorem OffLog.regBit_setFld_class (h : OffLog a j) (t : State) (k v : Nat) :
    (t.setFld (logA k 0) 28 4 v).regBit a j = t.regBit a j := by
  have hj := h.low
  rw [State.regBit_setFld _ _ _ _ _ _ _ (by decide), if_neg (by omega)]

theorem regs_requestRetire (k : Nat) (l : Loc) (t : State) : (requestRetire k l t).regs = t.regs := by
  unfold requestRetire
  dsimp only
  split
  · rfl
  · split <;> rfl

theorem OffLog.classPermanent (h : OffLog a j) (k : Nat) (l : Loc) (t : State) :
    (classPermanent k l t).regBit a j = t.regBit a j := by
  unfold Machine.classPermanent
  dsimp only
  rw [regBit_of_reg (State.reg_congr (regs_requestRetire _ _ _) a),
    regBit_of_reg (regs_raiseFx _ _ _ _ _ a h.not_eventRegs), h.regBit_setFld_class]

theorem OffLog.logDetection (h : OffLog a j) (l : Loc) (t : State) : (logDetection l t).regBit a j = t.regBit a j := by
  unfold Machine.logDetection
  extract_lets attempt wfn
  split
  · exact regBit_of_reg (regs_newLogEntry _ _ _ _ _ t a (h.not_logRegs _ (fxLogHead_lt t))) j
  · next k _ =>
    extract_lets reps t1 t2
    have h1 : t1.reg a = t.reg a :=
      (State.reg_setFld_other _ (h.ne_second k.ix) _ _ _).trans (State.reg_addCnt_other t (h.ne_second k.ix) _ _ _)
    have hsecond : t2.regBit a j = t.regBit a j :=
      regBit_of_reg ((State.reg_congr (State.modFx_regs t1 _) a).trans h1) j
    split
    · rw [h.classPermanent]
      exact hsecond
    · exact hsecond

/-- A detected fault leaves what lies off the fault log. -/
theorem OffLog.detectFault (h : OffLog a j) (l : Loc) (t : State) : (detectFault l t).regBit a j = t.regBit a j := by
  have hsticky : a ≠ fxSticky := fun ha => h.not_logRegs 0 (by decide) (by simp [ha, logRegs])
  refine (h.logDetection l _).trans (regBit_of_reg (s := t) ?_ j)
  refine Eq.trans (State.reg_congr (State.modCur_regs _ _) a) ?_
  rw [State.reg_addCnt_other _ h.not_count, State.reg_setBit_other _ hsticky]

/-! ### Token counters and the watchdog (R271, R276) -/

theorem takeFlight_length_le (core tok n : Nat) (l : List (Nat × Nat × Nat)) : (takeFlight core tok n l).2.length ≤ l.length := by
  induction l generalizing n with
  | nil => simp [takeFlight]
  | cons m l ih =>
    unfold takeFlight
    split
    · exact (ih (n - 1)).trans (by simp)
    · simpa using ih n

/-- Messages for a counter that arrive together are of those in flight, the oldest first; the rest stays. -/
theorem takeFlight_spec (core tok n : Nat) (l : List (Nat × Nat × Nat)) : ∃ took : List (Nat × Nat × Nat),
    took.length ≤ n ∧ (∀ m ∈ took, m.1 = core ∧ m.2.1 = tok) ∧ (takeFlight core tok n l).1 = sumN (took.map (·.2.2)) ∧
    ((takeFlight core tok n l).2 ++ took).Perm l := by
  induction l generalizing n with
  | nil => exact ⟨[], by simp, by simp, by simp [takeFlight, sumN], by simp [takeFlight]⟩
  | cons m l ih =>
    unfold takeFlight
    split
    · next h =>
      obtain ⟨hn, hcore, htok⟩ := h
      obtain ⟨took, hlen, hfor, hsum, hperm⟩ := ih (n - 1)
      refine ⟨m :: took, ?_, ?_, ?_, List.perm_middle.trans (hperm.cons m)⟩
      · simp only [List.length_cons]
        omega
      · exact List.forall_mem_cons.2 ⟨⟨hcore, htok⟩, hfor⟩
      · simp only [hsum, sumN, ← List.sum_eq_foldl, List.map_cons, List.sum_cons]
    · obtain ⟨took, hlen, hfor, hsum, hperm⟩ := ih n
      exact ⟨took, hlen, hfor, hsum, hperm.cons m⟩

theorem exec_tokenMessageArrival_none {tok n : Nat} (h : (takeFlight core tok n s.flight).2.length = s.flight.length) :
    exec (.tokenMessageArrival core tok n) s = .next s := by
  have hex : exec (.tokenMessageArrival core tok n) s = answer s (tokensArrive core tok n s) := rfl
  rw [hex, tokensArrive]
  dsimp only
  rw [if_pos h]
  rfl

/-- Good messages that arrive pass the ejection queue and are added. -/
theorem exec_tokenMessageArrival_some {tok n : Nat} (h : (takeFlight core tok n s.flight).2.length < s.flight.length)
    (hgood : SMap.get (fun _ => 0) s.err.tokFlip core = 0) : exec (.tokenMessageArrival core tok n) s = answer s
      (addTokens core tok (takeFlight core tok n s.flight).1
        (passQueue core 25 0 { s with flight := (takeFlight core tok n s.flight).2 })) := by
  have hex : exec (.tokenMessageArrival core tok n) s = answer s (tokensArrive core tok n s) := rfl
  have heject : ejectToken core { s with flight := (takeFlight core tok n s.flight).2 } =
      passQueue core 25 0 { s with flight := (takeFlight core tok n s.flight).2 } := by
    unfold ejectToken
    dsimp only
    exact if_pos hgood
  rw [hex, tokensArrive]
  dsimp only
  rw [if_neg (by omega), heject]

theorem token_setToken (c : Core) (k v : Nat) : (c.setToken k v).token k = v := SMap.get_set_self _ _ _ _

theorem passed_setToken {c d : Core} {q : Nat} (h : Core.passed c d q) (k v : Nat) :
    Core.passed (c.setToken k v) (d.setToken k v) q := by
  obtain ⟨hc, hq, hl⟩ := h
  exact ⟨by rw [hc]; rfl, hq, hl⟩

theorem token_passed {c d : Core} {q : Nat} (h : Core.passed c d q) (k : Nat) : d.token k = c.token k := by
  rw [h.1]
  rfl

/-- Counts that the counter can hold. -/
theorem addTokens_fits {tok n : Nat} (h : (s.core core).token tok + n ≤ 65535) :
    addTokens core tok n s = s.modCore core fun c => c.setToken tok ((s.core core).token tok + n) := by
  rw [addTokens]
  dsimp only
  rw [if_pos h, Nat.min_eq_left h]

/-- The registers of the token unit that an overflow changes. -/
def overflowRegs (core : Nat) : List Nat := [tkA core 0, tkA core 4, tkA core 8]

theorem tkA_not_queue25 (core : Nat) {off : Nat} (h : off < 0x100) : tkA core off ∉ [] ++ queueRegs core 25 ++ eventRegs := by
  simp only [queueRegs, eventRegs, coreQA, tkA, coreA, dieA, hubQA, hubA, dpSticky, List.nil_append, List.mem_append, List.mem_cons,
    List.not_mem_nil, or_false]
  omega

theorem tkA_ne (core : Nat) {x y : Nat} (h : x ≠ y) : tkA core x ≠ tkA core y := by
  simp only [tkA, coreA, dieA]
  omega

/-- A counter has reached its limit, and TOK_OVF tells; the event of the frame is not staged yet. -/
def tokensLost (core tok : Nat) (s : State) : State :=
  (((whenS (!(s.regBit (tkA core 0) 0)) (fun x => x.setFld (tkA core 8) 0 10 tok)
    (s.modCore core fun c => c.setToken tok 65535))).addCnt (tkA core 4) 16 16 1).setBit (tkA core 0) 0

/-- Counts beyond what the counter holds. -/
theorem addTokens_overflows {tok n : Nat} (h : 65535 < (s.core core).token tok + n) :
    addTokens core tok n s = stage0 (tkA core 0) 0 stProgramError 0 (tokensLost core tok s) := by
  rw [addTokens]
  dsimp only
  rw [if_neg (by omega), Nat.min_eq_right (by omega)]
  rfl

/-- A staged event is the commit unit's. -/
theorem stage0_eq (addr bitIx st data : Nat) (s : State) :
    stage0 addr bitIx st data s = { s with fx := (stage0 addr bitIx st data s).fx } := rfl

theorem tokensLost_eq (core tok : Nat) (s : State) :
    tokensLost core tok s = { s with cores := (tokensLost core tok s).cores, regs := (tokensLost core tok s).regs } := by
  refine coresDiffer_setBit (coresDiffer_addCnt (coresDiffer_whenS _ _ (fun u h => coresDiffer_setFld h _ _ _ _) ?_) _ _ _ _) _ _
  exact coresDiffer_modCore (coresDiffer_refl s) _ _

theorem cores_tokensLost (core tok : Nat) (s : State) :
    (tokensLost core tok s).cores = (s.modCore core fun c => c.setToken tok 65535).cores :=
  whenS_same State.cores _ (fun x => x.setFld (tkA core 8) 0 10 tok) (fun _ => rfl) _

theorem regs_tokensLost (core tok : Nat) (s : State) : s.sameRegs (tokensLost core tok s) (overflowRegs core) := by
  have h0 : s.sameRegs (s.modCore core fun c => c.setToken tok 65535) (overflowRegs core) :=
    sameRegs_of_regs (sameRegs_refl s _) rfl
  have h1 := sameRegs_whenS (!(s.regBit (tkA core 0) 0)) (fun x => x.setFld (tkA core 8) 0 10 tok)
    (fun _ k => sameRegs_setFld k 0 10 tok (by simp [overflowRegs])) h0
  exact sameRegs_setBit (sameRegs_addCnt h1 16 16 1 (by simp [overflowRegs])) 0 (by simp [overflowRegs])

theorem flag_tokensLost (core tok : Nat) (s : State) : (tokensLost core tok s).regBit (tkA core 0) 0 = true := by
  rw [tokensLost, State.regBit_setBit _ _ _ _ _ (by decide), if_pos rfl]
  rfl

/-- With the flag clear, the counter's number is recorded. -/
theorem first_tokensLost {tok : Nat} (hclear : s.regBit (tkA core 0) 0 = false) :
    (tokensLost core tok s).regFld (tkA core 8) 0 10 = tok % 1024 := by
  have hreg : (tokensLost core tok s).reg (tkA core 8) =
      ((s.modCore core fun c => c.setToken tok 65535).setFld (tkA core 8) 0 10 tok).reg (tkA core 8) := by
    rw [tokensLost, hclear, Bool.not_false, whenS_true]
    rw [State.reg_setBit_other _ (tkA_ne core (by decide)), State.reg_addCnt_other _ (tkA_ne core (by decide))]
  exact (regFld_of_reg hreg 0 10).trans (State.regFld_setFld_self _ (tkA core 8) 0 10 tok (by decide))

/-! ### The watchdog (R276) -/

/-- The trip of a wait, before its fault is logged. -/
def waitTripped (core tok : Nat) (w : Waiting) (s : State) : State :=
  (((whenS (!(s.regBit (tkA core 0) 1)) (fun x => x.setFld (tkA core 8) 16 10 tok) s).setBit (tkA core 0) 1).addCnt
    (tkA core 4) 0 16 1).modCore core fun c => { c with waiting := some { w with tripped := true } }

theorem exec_wdogTrip_none (h : s.regFld (tkA core 0xC) 0 16 = 0) : exec (.wdogTrip core) s = .next s := by
  have hstay : tripWatchdog core s = s := by
    unfold tripWatchdog
    dsimp only
    split
    · rfl
    · split
      · rfl
      · exact if_pos (.inr h)
  exact (congrArg (answer s) hstay).trans (answer_eq rfl)

theorem exec_wdogTrip_trips {tok : Nat} {w : Waiting} (hw : (s.core core).waiting = some w) (ht : w.tripped = false)
    (hlim : s.regFld (tkA core 0xC) 0 16 ≠ 0) (hlow : lowestUnmet (s.core core) w.pairs = some tok) :
    exec (.wdogTrip core) s = answer s (detectFault (coreLoc (waitTripped core tok w s) core 1 0 11) (waitTripped core tok w s)) := by
  have htrip : tripWatchdog core s =
      detectFault (coreLoc (waitTripped core tok w s) core 1 0 11) (waitTripped core tok w s) := by
    rw [tripWatchdog]
    dsimp only
    rw [hw]
    dsimp only
    rw [hlow]
    dsimp only
    rw [if_neg (by rw [ht]; simp [hlim])]
    rfl
  exact congrArg (answer s) htrip

theorem core_waitTripped (core tok : Nat) (w : Waiting) (s : State) :
    (waitTripped core tok w s).core core = { s.core core with waiting := some { w with tripped := true } } := by
  rw [waitTripped, State.core_modCore_self]
  have hc : ((whenS (!(s.regBit (tkA core 0) 1)) (fun x => x.setFld (tkA core 8) 16 10 tok) s).core core) = s.core core :=
    whenS_same (fun u => u.core core) _ (fun x => x.setFld (tkA core 8) 16 10 tok) (fun _ => rfl) s
  rw [← hc]
  rfl

theorem waitTripped_eq (core tok : Nat) (w : Waiting) (s : State) : waitTripped core tok w s =
    { s with cores := (waitTripped core tok w s).cores, regs := (waitTripped core tok w s).regs } := by
  refine coresDiffer_modCore (coresDiffer_addCnt (coresDiffer_setBit (coresDiffer_whenS _ _ (fun u h => ?_) ?_) _ _) _ _ _ _) _ _
  · exact coresDiffer_setFld h _ _ _ _
  · exact coresDiffer_refl s

theorem flag_waitTripped (core tok : Nat) (w : Waiting) (s : State) : (waitTripped core tok w s).regBit (tkA core 0) 1 = true := by
  have hreg : (waitTripped core tok w s).reg (tkA core 0) =
      ((whenS (!(s.regBit (tkA core 0) 1)) (fun x => x.setFld (tkA core 8) 16 10 tok) s).setBit (tkA core 0) 1).reg (tkA core 0) :=
    (State.reg_congr (State.modCore_regs _ _ _) _).trans (State.reg_addCnt_other _ (tkA_ne core (by decide)) _ _ _)
  rw [regBit_of_reg hreg, State.regBit_setBit _ _ _ _ _ (by decide), if_pos rfl]
  rfl

/-- With the flag clear, the lowest token awaited is recorded. -/
theorem first_waitTripped {tok : Nat} {w : Waiting} (hclear : s.regBit (tkA core 0) 1 = false) :
    (waitTripped core tok w s).regFld (tkA core 8) 16 10 = tok % 1024 := by
  have hreg : (waitTripped core tok w s).reg (tkA core 8) = (s.setFld (tkA core 8) 16 10 tok).reg (tkA core 8) := by
    rw [waitTripped, hclear, Bool.not_false, whenS_true]
    refine Eq.trans (State.reg_congr (State.modCore_regs _ _ _) _) ?_
    rw [State.reg_addCnt_other _ (tkA_ne core (by decide)), State.reg_setBit_other _ (tkA_ne core (by decide))]
  exact (regFld_of_reg hreg 16 10).trans (State.regFld_setFld_self _ (tkA core 8) 16 10 tok (by decide))

/-- The token unit's registers lie off the fault log. -/
theorem offLog_tkA (core : Nat) {off : Nat} (hoff : off = 0 ∨ off = 8) (hj : j < 28) : OffLog (tkA core off) j :=
  offLog_die (by simp only [tkA, coreA, dieA]; omega) (by simp only [tkA, coreA, dieA]; omega) hj

theorem regFld_detectFault_tkA (core : Nat) (l : Loc) (t : State) :
    (detectFault l t).regFld (tkA core 8) 16 10 = t.regFld (tkA core 8) 16 10 :=
  State.regFld_congr fun _ _ hk => (offLog_tkA core (.inr rfl) (by omega)).detectFault l t

/-- A wait that trips. -/
theorem wdogTrip_effect {tok : Nat} {w : Waiting} (hw : (s.core core).waiting = some w) (ht : w.tripped = false)
    (hlim : s.regFld (tkA core 0xC) 0 16 ≠ 0) (hlow : lowestUnmet (s.core core) w.pairs = some tok) :
    ∃ t, exec (.wdogTrip core) s = .next t ∧ t.regBit (tkA core 0) 1 = true ∧ t.fx.cur.fault = true ∧
      (t.core core).waiting = some { w with tripped := true } ∧ (t.core core).pos = (s.core core).pos ∧
      (t.core core).tokens = (s.core core).tokens ∧ s.sameBytes t ∧
      (s.regBit (tkA core 0) 1 = false → t.regFld (tkA core 8) 16 10 = tok % 1024) := by
  have hflag := flag_waitTripped core tok w s
  have hcore := core_waitTripped core tok w s
  have hfirst := first_waitTripped (core := core) (s := s) (tok := tok) (w := w)
  have heq := waitTripped_eq core tok w s
  have hex := exec_wdogTrip_trips hw ht hlim hlow
  generalize waitTripped core tok w s = v at *
  generalize coreLoc v core 1 0 11 = l at *
  obtain ⟨hd, hcur⟩ := detectFault_effect l v
  have hkeep : (detectFault l v).regBit (tkA core 0) 1 = v.regBit (tkA core 0) 1 :=
    (offLog_tkA core (.inl rfl) (by decide)).detectFault l v
  have hfld := regFld_detectFault_tkA core l v
  generalize detectFault l v = t at *
  have hcores : t.core core = v.core core := State.core_congr (by rw [hd]) core
  refine ⟨t, hex.trans (answer_eq ?_), hkeep.trans hflag, by rw [hcur], ?_, ?_, ?_, ?_, fun hclear => hfld.trans (hfirst hclear)⟩
  · rw [hd, heq]
  · rw [hcores, hcore]
  · rw [hcores, hcore]
  · rw [hcores, hcore]
  · rw [hd, heq]
    exact fun _ => ⟨rfl, rfl, rfl, rfl⟩

/-! ### Settled -/

/-- Messages that a counter can hold. -/
theorem tokensArrive_fit {tok n : Nat} (h : (takeFlight core tok n s.flight).2.length < s.flight.length)
    (hgood : SMap.get (fun _ => 0) s.err.tokFlip core = 0)
    (hfit : (s.core core).token tok + (takeFlight core tok n s.flight).1 ≤ 65535) :
    ∃ t, exec (.tokenMessageArrival core tok n) s = .next t ∧ t.flight = (takeFlight core tok n s.flight).2 ∧
      Core.passed ((s.core core).setToken tok ((s.core core).token tok + (takeFlight core tok n s.flight).1)) (t.core core) 25 ∧
      (∀ j, j ≠ core → t.core j = s.core j) ∧ s.passedQueue t core 25 [] ∧
      t = { s with cores := t.cores, flight := t.flight, out := t.out, regs := t.regs, port := t.port, svc := t.svc } ∧
      (s.regFld (coreQA core 25 0) 0 10 = 0 → t.out = s.out) := by
  rw [exec_tokenMessageArrival_some h hgood]
  generalize takeFlight core tok n s.flight = r at *
  obtain ⟨hothers, hpassed, hqueue, heq, -, hout⟩ := passQueue_spec core 25 { s with flight := r.2 } 0
  generalize passQueue core 25 0 { s with flight := r.2 } = v at *
  have htoken : (v.core core).token tok = (s.core core).token tok := token_passed hpassed tok
  rw [addTokens_fits (by rw [htoken]; exact hfit), htoken]
  refine ⟨v.modCore core fun c => c.setToken tok ((s.core core).token tok + r.1), answer_eq ?_, ?_, ?_, fun j hj => ?_, ?_, ?_, hout⟩
  · rw [heq]
    rfl
  · rw [heq]
    rfl
  · rw [State.core_modCore_self]
    exact passed_setToken hpassed _ _
  · rw [State.core_modCore, if_neg hj]
    exact hothers j hj
  · exact hqueue
  · rw [heq]
    rfl

/-- Messages beyond what a counter can hold. -/
theorem tokensArrive_overflow {tok n : Nat} (h : (takeFlight core tok n s.flight).2.length < s.flight.length)
    (hgood : SMap.get (fun _ => 0) s.err.tokFlip core = 0)
    (hover : 65535 < (s.core core).token tok + (takeFlight core tok n s.flight).1) :
    ∃ t, exec (.tokenMessageArrival core tok n) s = .next t ∧ (t.core core).token tok = 65535 ∧ t.regBit (tkA core 0) 0 = true ∧
      t.flight = (takeFlight core tok n s.flight).2 ∧ s.sameBytes t ∧
      s.passedQueue t core 25 [tkA core 0, tkA core 4, tkA core 8] ∧
      (s.regBit (tkA core 0) 0 = false → t.regFld (tkA core 8) 0 10 = tok % 1024) := by
  rw [exec_tokenMessageArrival_some h hgood]
  generalize takeFlight core tok n s.flight = r at *
  obtain ⟨-, hpassed, ⟨hregs, hport, hsvc, hquiet⟩, heq, -⟩ := passQueue_spec core 25 { s with flight := r.2 } 0
  generalize passQueue core 25 0 { s with flight := r.2 } = v at *
  have htoken : (v.core core).token tok = (s.core core).token tok := token_passed hpassed tok
  have hflag0 : v.regBit (tkA core 0) 0 = s.regBit (tkA core 0) 0 :=
    regBit_of_reg (hregs _ (tkA_not_queue25 core (by decide))) 0
  rw [addTokens_overflows (by rw [htoken]; exact hover)]
  have hlost := tokensLost_eq core tok v
  have hcores := cores_tokensLost core tok v
  have hlostRegs := regs_tokensLost core tok v
  have hflag := flag_tokensLost core tok v
  have hfirst := first_tokensLost (s := v) (core := core) (tok := tok)
  generalize tokensLost core tok v = u at *
  have hst := stage0_eq (tkA core 0) 0 stProgramError 0 u
  generalize stage0 (tkA core 0) 0 stProgramError 0 u = t at *
  have htr : t.regs = u.regs := by rw [hst]
  have hall (l : List Nat) (hl : s.sameRegs v ([] ++ l)) : s.sameRegs t ([tkA core 0, tkA core 4, tkA core 8] ++ l) :=
    sameRegs_of_regs (sameRegs_trans (sameRegs_mono hl (List.subset_append_right _ _))
      (sameRegs_mono hlostRegs (List.subset_append_left _ _))) htr
  refine ⟨t, answer_eq ?_, ?_, ?_, ?_, ?_, ⟨?_, ?_, ?_, fun hlevel => ⟨?_, ?_, ?_⟩⟩, fun hclear => ?_⟩
  · rw [hst, hlost, heq]
    rfl
  · have hc : t.cores = (v.modCore core fun c => c.setToken tok 65535).cores := by rw [hst, hcores]
    rw [State.core_congr hc, State.core_modCore_self, token_setToken]
  · rw [regBit_of_reg (State.reg_congr htr _)]
    exact hflag
  · rw [hst, hlost, heq]
    rfl
  · rw [hst, hlost, heq]
    exact fun _ => ⟨rfl, rfl, rfl, rfl⟩
  · exact hall _ hregs
  · rw [hst, hlost]
    exact hport
  · rw [hst, hlost]
    exact hsvc
  · rw [hst, hlost]
    exact (hquiet hlevel).1
  · rw [hst, hlost]
    exact (hquiet hlevel).2.1
  · exact hall _ (hquiet hlevel).2.2
  · rw [regFld_of_reg (State.reg_congr htr _)]
    exact hfirst (hflag0.trans hclear)

/-- Settles O15: messages pass the ejection queue and are added, to the limit of the counter; a wait trips once. -/
theorem tokensSaturateAndWaitsTrip : Obligations.TokensSaturateAndWaitsTrip :=
  ⟨⟨fun _ _ _ _ h hgood hfit => tokensArrive_fit h hgood hfit, fun _ _ _ _ h => exec_tokenMessageArrival_none h,
    fun _ _ _ _ h hgood hover => tokensArrive_overflow h hgood hover, takeFlight_spec⟩,
    fun _ _ _ _ _ hw ht hlim hlow => wdogTrip_effect hw ht hlim hlow, fun _ _ h => exec_wdogTrip_none h⟩

end Sys2Proof.Machine
end

section
/-! PROOFS. Register writes and the service port (R12 to R15, R81, R428, R436 to R439). First what an address decodes to, and what
a write to a plain register leaves. -/

namespace Sys2Proof.Machine

variable {s t u : State} {a : Nat} {v : Word}

/-! ### Where registers stand -/

theorem regAt_hub_window (h : 0x700000000000 ≤ a ∧ a < 0x700000010000) :
    regAt a = if hubMapped (a - 0x700000000000) then .hub (a - 0x700000000000) else .none := by
  rw [regAt, if_pos h]

theorem regAt_hub_inv {o : Nat} (h : regAt a = .hub o) :
    (0x700000000000 ≤ a ∧ a < 0x700000010000) ∧ a = hubA o ∧ hubMapped o = true := by
  have hw : 0x700000000000 ≤ a ∧ a < 0x700000010000 := by
    by_contra hn
    rw [regAt, if_neg hn] at h
    dsimp only at h
    repeat' split at h
    all_goals exact absurd h nofun
  rw [regAt_hub_window hw] at h
  split at h
  next hm =>
    have ho := RegAt.hub.inj h
    rw [ho] at hm
    exact ⟨hw, by unfold hubA; omega, hm⟩
  · exact absurd h nofun

theorem regAt_hubA {o : Nat} (h : o < 0x10000) : regAt (hubA o) = if hubMapped o then .hub o else .none := by
  have ho : hubA o - 0x700000000000 = o := by unfold hubA; omega
  rw [regAt_hub_window (by unfold hubA; omega), ho]

/-- The offset of an address in its die's window. -/
def dieOfs (a : Nat) : Nat := (a - 0x710000000000) % 2 ^ 32

theorem regAt_die_window (h : 0x710000000000 ≤ a) (hd : (a - 0x710000000000) / 2 ^ 32 < 12) (h4 : a % 4 = 0) :
    regAt a = if dieOfs a = 0 ∨ dieOfs a = 8 ∨ dieOfs a = 0xC ∨ dieOfs a = 0x300000 ∨ dieOfs a = 0x300004 ∨ dieOfs a = 0x300008 then
        .die ((a - 0x710000000000) / 2 ^ 32) (dieOfs a)
      else if dieOfs a / 0x100000 = 7 then
        (if dieOfs a % 0x100000 < 0x80000 then .watch (64 * ((a - 0x710000000000) / 2 ^ 32) + dieOfs a % 0x100000 / 8192)
          (dieOfs a % 0x100000 % 8192 / 16) (dieOfs a % 0x100000 % 16 / 4) else .none)
      else if dieOfs a % 0x100000 / 4096 < 64 && coreRegMapped (dieOfs a / 0x100000) (dieOfs a % 0x100000 % 4096) then
        .core (64 * ((a - 0x710000000000) / 2 ^ 32) + dieOfs a % 0x100000 / 4096) (dieOfs a / 0x100000) (dieOfs a % 0x100000 % 4096)
      else .none := by
  rw [regAt, if_neg (by omega)]
  dsimp only
  rw [if_neg (by omega)]
  rfl

/-- A register that is in no hub window stands in the window of a die. -/
theorem window_of_regAt (h : regAt a ≠ .none) (hhub : ¬ (0x700000000000 ≤ a ∧ a < 0x700000010000)) :
    0x710000000000 ≤ a ∧ (a - 0x710000000000) / 2 ^ 32 < 12 ∧ a % 4 = 0 := by
  rw [regAt, if_neg hhub] at h
  dsimp only at h
  by_contra hc
  exact h (if_pos (by omega))

theorem not_hub_of_regAt {x : RegAt} (h : regAt a = x) (hx : x ≠ .none) (hh : ∀ o, x ≠ .hub o) :
    ¬ (0x700000000000 ≤ a ∧ a < 0x700000010000) := by
  intro hw
  rw [regAt, if_pos hw] at h
  split at h
  · exact hh _ h.symm
  · exact hx h.symm

/-- What the decoding of a core register's address says of it. -/
theorem regAt_core_inv {c blk r : Nat} (h : regAt a = .core c blk r) :
    0x710000000000 ≤ a ∧ (a - 0x710000000000) / 2 ^ 32 < 12 ∧ a % 4 = 0 ∧ dieOfs a / 0x100000 = blk ∧
    dieOfs a % 0x100000 % 4096 = r ∧ dieOfs a % 0x100000 / 4096 < 64 ∧ coreRegMapped blk r = true := by
  obtain ⟨h1, h2, h3⟩ := window_of_regAt (by rw [h]; nofun) (not_hub_of_regAt h nofun (fun _ => nofun))
  rw [regAt_die_window h1 h2 h3] at h
  split at h
  · cases h
  split at h
  · split at h <;> cases h
  split at h
  next hm =>
    cases h
    simp only [Bool.and_eq_true, decide_eq_true_eq] at hm
    exact ⟨h1, h2, h3, rfl, rfl, hm.1, hm.2⟩
  · cases h

theorem regAt_die_inv {d o : Nat} (h : regAt a = .die d o) : 0x710000000000 ≤ a ∧ dieOfs a = o ∧ d = (a - 0x710000000000) / 2 ^ 32 := by
  obtain ⟨h1, h2, h3⟩ := window_of_regAt (by rw [h]; nofun) (not_hub_of_regAt h nofun (fun _ => nofun))
  rw [regAt_die_window h1 h2 h3] at h
  split at h
  · cases h
    exact ⟨h1, rfl, rfl⟩
  split at h
  · split at h <;> cases h
  split at h <;> cases h

theorem regAt_watch_inv {c td w : Nat} (h : regAt a = .watch c td w) : 0x710000000000 ≤ a ∧ dieOfs a / 0x100000 = 7 := by
  obtain ⟨h1, h2, h3⟩ := window_of_regAt (by rw [h]; nofun) (not_hub_of_regAt h nofun (fun _ => nofun))
  rw [regAt_die_window h1 h2 h3] at h
  split at h
  · cases h
  split at h
  next h7 => exact ⟨h1, h7⟩
  split at h <;> cases h


/-! ### What a write to a plain register leaves (R15) -/

/-- Registers alone differ. -/
def State.regsDiffer (s t : State) : Prop := t = { s with regs := t.regs }

theorem regsDiffer_refl (s : State) : s.regsDiffer s := rfl

theorem regsDiffer_setReg (h : s.regsDiffer t) (b : Nat) (x : Word) : s.regsDiffer (t.setReg b x) := by
  unfold State.regsDiffer at h ⊢
  rw [h]
  rfl

theorem regsDiffer_setFld (h : s.regsDiffer t) (b lo w x : Nat) : s.regsDiffer (t.setFld b lo w x) := regsDiffer_setReg h _ _

theorem regsDiffer_whenS (b : Bool) (f : State → State) (hf : ∀ u, s.regsDiffer u → s.regsDiffer (f u)) (h : s.regsDiffer t) :
    s.regsDiffer (whenS b f t) := by
  cases b
  · exact h
  · exact hf t h

/-- A stored bit under its W1C bit, the value's, its RW bit and what it was. -/
theorem storedBit (w x r o : Bool) : ((o && !r || x && r) && !(x && w)) = if w && x then false else if r then x else o := by
  cases w <;> cases x <;> cases r <;> cases o <;> rfl

/-- A register's bits after a write: W1C bits written with 1 clear, RW bits take the value, and the rest stays. -/
structure PlainWrite (a : Nat) (v : Word) (s t : State) : Prop where
  bits : ∀ i, i < 32 → t.regBit a i = if bit (w1cMask a) i && bit v i then false else if bit (rwMask a) i then bit v i else s.regBit a i
  frame : s.regsDiffer t
  others : s.sameRegs t (a :: (countersOf a).map (·.2.1))

theorem plainWrite_storeReg (a : Nat) (v : Word) (s : State) : PlainWrite a v s (storeReg a v s) where
  bits i hi := by
    unfold State.regBit storeReg
    rw [State.reg_setReg_self]
    simp only [bit, BitVec.getLsbD_and, BitVec.getLsbD_or, BitVec.getLsbD_not, hi, decide_true, Bool.true_and]
    exact storedBit _ _ _ _
  frame := regsDiffer_setReg (regsDiffer_refl s) _ _
  others := sameRegs_setReg (sameRegs_refl s _) _ List.mem_cons_self

/-- No counter stands in the register whose sticky bits clear it. -/
theorem countersOf_ne : ∀ e ∈ countersOf a, e.2.1 ≠ a := by
  unfold countersOf
  cases hat : regAt a with
  | hub o =>
    obtain ⟨-, ha, -⟩ := regAt_hub_inv hat
    subst ha
    dsimp only
    repeat' split
    all_goals
      simp only [List.forall_mem_cons, List.not_mem_nil, false_imp_iff, implies_true, and_true, hubA, ftCnt, hubNodeA, fxCnt,
        fxLogHead, fxEvtDrops, pgCnt, clWclCnt, clCnt, dpPortCnt, biCnt]
      try omega
  | die d o =>
    obtain ⟨h1, ho, hd⟩ := regAt_die_inv hat
    unfold dieOfs at ho
    dsimp only
    split
    · simp only [List.forall_mem_cons, List.not_mem_nil, false_imp_iff, implies_true, and_true, dieNodeA, dieA]
      omega
    · exact List.forall_mem_nil _
  | core c blk r =>
    have hr := mod16_of_regAt_core hat
    dsimp only
    repeat' split
    all_goals
      simp only [List.forall_mem_cons, List.not_mem_nil, false_imp_iff, implies_true, and_true, mcA, drA, spA, sqA, nmA, tkA, coreA,
        dieA]
      try omega
  | watch c td w => exact List.forall_mem_nil _
  | none => exact List.forall_mem_nil _

/-- The counters of cleared sticky bits alone follow a write. -/
theorem PlainWrite.clearCounters (h : PlainWrite a v s t) : PlainWrite a v s (clearCounters a v t) := by
  refine forEach_keeps (PlainWrite a v s) _ _ (fun e he u hu => ?_) t h
  obtain ⟨hbits, hframe, hothers⟩ := hu
  cases (decide (v.toNat &&& e.1 ≠ 0) && decide ((u.reg a).toNat &&& e.1 = 0))
  · exact ⟨hbits, hframe, hothers⟩
  · refine ⟨fun i hi => ?_, regsDiffer_setFld hframe _ _ _ _, sameRegs_setFld hothers _ _ _ ?_⟩
    · rw [← hbits i hi]
      exact regBit_of_reg (State.reg_setFld_other u (countersOf_ne e he).symm _ _ _) i
    · exact List.mem_cons_of_mem _ (List.mem_map_of_mem he)

/-- A word of the watch table has no bit that a write changes. -/
theorem plainWrite_watch {c td w : Nat} (h : regAt a = .watch c td w) : PlainWrite a v s s := by
  obtain ⟨ha, hblk⟩ := regAt_watch_inv h
  have hrw : rwMask a = 0 := by rw [rwMask, h]
  have hw1c : w1cMask a = 0 := by
    rw [w1cMask, if_neg (by omega), show (a - 0x710000000000) % 2 ^ 32 = dieOfs a from rfl]
    simp [dieW1C, hblk]
  exact ⟨fun i _ => by rw [hrw, hw1c]; simp [bit], rfl, sameRegs_refl s _⟩

theorem hubA_add (o k : Nat) : hubA o + k = hubA (o + k) := by
  simp only [hubA, Nat.add_assoc]

/-- A TK_Q_CTRL stands two words before its TK_Q_PEAK. -/
theorem isPeak_of_hubCtrl {o : Nat} (h : regAt a = .hub o) (hlo : 0x6100 ≤ o) (hhi : o < 0x6320) (h16 : o % 16 = 0) :
    isPeak (a + 8) = true := by
  obtain ⟨-, ha, -⟩ := regAt_hub_inv h
  have hm : hubMapped (o + 8) = true := by
    simp only [hubMapped, Bool.and_eq_true, Bool.or_eq_true, decide_eq_true_eq]
    omega
  have hat : regAt (a + 8) = .hub (o + 8) := by
    rw [ha, hubA_add, regAt_hubA (by omega), if_pos hm]
  rw [isPeak, hat]
  simp only [Bool.and_eq_true, decide_eq_true_eq]
  omega

theorem isPeak_of_coreCtrl {c r : Nat} (h : regAt a = .core c 8 r) (hlo : 0x100 ≤ r) (hhi : r < 0x2A0) (h16 : r % 16 = 0) :
    isPeak (a + 8) = true := by
  obtain ⟨h1, hd, h4, hblk, hr, hcore, hmap⟩ := regAt_core_inv h
  have hr290 : r ≤ 0x290 := by
    simp [coreRegMapped] at hmap
    omega
  have hofs : dieOfs (a + 8) = dieOfs a + 8 := by
    unfold dieOfs at hr ⊢
    omega
  have hmap' : coreRegMapped 8 (r + 8) = true := by
    simp only [coreRegMapped, Bool.and_eq_true, Bool.or_eq_true, decide_eq_true_eq]
    simp
    omega
  have hd' : (a + 8 - 0x710000000000) / 2 ^ 32 = (a - 0x710000000000) / 2 ^ 32 := by
    unfold dieOfs at hr hblk
    omega
  have hblk' : (dieOfs a + 8) / 0x100000 = 8 := by omega
  have hr' : (dieOfs a + 8) % 0x100000 % 4096 = r + 8 := by omega
  have hcore' : (dieOfs a + 8) % 0x100000 / 4096 < 64 := by omega
  have hwin := regAt_die_window (a := a + 8) (by omega) (by rw [hd']; exact hd) (by omega)
  rw [hofs, hd', if_neg (by omega), hblk', if_neg (by decide), hr', hmap', Bool.and_true, if_pos (decide_eq_true hcore')] at hwin
  rw [isPeak, hwin]
  simp only [Bool.and_eq_true, decide_eq_true_eq]
  exact ⟨⟨⟨trivial, by omega⟩, by omega⟩, by omega⟩

/-- The registers whose writes have an effect of their own. -/
theorem hub_ne_special {o : Nat} (h : regAt a = .hub o) (ha : a ∉ [clEn, clId, biCtrl, biDebug, ftSrc]) :
    o ≠ 0x8004 ∧ o ≠ 0x8000 ∧ o ≠ 0xC000 ∧ o ≠ 0xC010 ∧ o ≠ 0x1010 := by
  obtain ⟨-, hao, -⟩ := regAt_hub_inv h
  simp only [List.mem_cons, List.not_mem_nil, or_false, not_or, clEn, clId, biCtrl, biDebug, ftSrc, hao, hubA] at ha
  omega

/-- A write that is let through to a plain register. -/
theorem writeEffect_plain (hreg : regAt a ≠ .none) (ha : a ∉ [clEn, clId, biCtrl, biDebug, ftSrc]) (hpeak : isPeak (a + 8) = false) :
    ∃ t, writeEffect a v s = (t, stOK) ∧ PlainWrite a v s t := by
  have hplain : PlainWrite a v s (clearCounters a v (storeReg a v s)) := (plainWrite_storeReg a v s).clearCounters
  unfold writeEffect
  cases hat : regAt a with
  | hub o =>
    obtain ⟨h1, h2, h3, h4, h5⟩ := hub_ne_special hat ha
    have hq : ¬ (0x6100 ≤ o ∧ o < 0x6320 ∧ o % 16 = 0) := fun ⟨hlo, hhi, h16⟩ => by
      rw [isPeak_of_hubCtrl hat hlo hhi h16] at hpeak
      cases hpeak
    dsimp only
    rw [if_neg h1, if_neg h2, if_neg h3, if_neg h4, if_neg h5, if_neg hq]
    exact ⟨_, rfl, hplain⟩
  | die d o => exact ⟨_, rfl, hplain⟩
  | core c blk r =>
    have hq : ¬ (blk = 8 ∧ 0x100 ≤ r ∧ r < 0x2A0 ∧ r % 16 = 0) := fun ⟨hblk, hlo, hhi, h16⟩ => by
      subst hblk
      rw [isPeak_of_coreCtrl hat hlo hhi h16] at hpeak
      cases hpeak
    dsimp only
    rw [if_neg hq]
    exact ⟨_, rfl, hplain⟩
  | watch c td w => exact ⟨s, rfl, plainWrite_watch hat⟩
  | none => exact absurd hat hreg

/-! ### Writes on a path (R12, R14, R81, R428) -/

theorem accessStatus_none (h : a % 4 ≠ 0 ∨ regAt a = .none) : accessStatus s a = stProgramError := by
  rcases h with h | h
  · exact if_pos h
  · rw [accessStatus, h]
    split <;> rfl

variable {p : Path}

theorem exec_registerWrite (p : Path) (a : Nat) (v : Word) (s : State) :
    exec (.registerWrite p a v) s = answer s ((writeReg a v s).1.send (.regStatus p (writeReg a v s).2)) := rfl

section
variable (hsafe : s.safeStatus = none)
include hsafe

theorem writeReg_window {core : Nat} (hw : windowCore s a = some core) : writeReg a v s = windowWordWrite core a v s := by
  rw [writeReg, hsafe, hw]

theorem writeReg_register (hw : windowCore s a = none) : writeReg a v s =
    if accessStatus s a ≠ stOK then (s, accessStatus s a)
    else if (s.active && lockedReg a) || badValue s a v then (s, stProgramError) else writeEffect a v s := by
  rw [writeReg, hsafe, hw]

/-- An access that is refused has no effect but its status. -/
theorem exec_registerWrite_refused (hw : windowCore s a = none) (hst : accessStatus s a ≠ stOK) :
    exec (.registerWrite p a v) s = .next { s with out := .regStatus p (accessStatus s a) :: s.out } := by
  rw [exec_registerWrite, writeReg_register hsafe hw, if_pos hst]
  exact answer_eq rfl

/-- So has one that the register's lock or rule refuses. -/
theorem exec_registerWrite_locked (hw : windowCore s a = none) (hst : accessStatus s a = stOK)
    (h : (s.active = true ∧ lockedReg a = true) ∨ badValue s a v = true) :
    exec (.registerWrite p a v) s = .next { s with out := .regStatus p stProgramError :: s.out } := by
  have hbad : ((s.active && lockedReg a) || badValue s a v) = true := by
    rcases h with ⟨h1, h2⟩ | h
    · rw [h1, h2]
      rfl
    · rw [h, Bool.or_true]
  rw [exec_registerWrite, writeReg_register hsafe hw, if_neg (not_not.2 hst), if_pos hbad]
  exact answer_eq rfl

theorem exec_registerWrite_plain (hw : windowCore s a = none) (hst : accessStatus s a = stOK)
    (hlock : s.active = true → lockedReg a = false) (hbad : badValue s a v = false)
    (ha : a ∉ [clEn, clId, biCtrl, biDebug, ftSrc]) (hpeak : isPeak (a + 8) = false) :
    ∃ t, exec (.registerWrite p a v) s = .next t ∧
      (∀ i, i < 32 → t.regBit a i = if bit (w1cMask a) i && bit v i then false else if bit (rwMask a) i then bit v i else s.regBit a i) ∧
      t = { s with regs := t.regs, out := .regStatus p stOK :: s.out } ∧
      s.sameRegs t (a :: (countersOf a).map (·.2.1)) := by
  have hreg : regAt a ≠ .none := fun hn => by
    rw [accessStatus_none (.inr hn)] at hst
    exact absurd hst (by decide)
  have hgo : ((s.active && lockedReg a) || badValue s a v) = false := by
    rw [hbad, Bool.or_false]
    cases hact : s.active
    · rfl
    · rw [hlock hact]
      rfl
  obtain ⟨t, ht, hbits, hframe, hothers⟩ := writeEffect_plain (s := s) (v := v) hreg ha hpeak
  have hwr : writeReg a v s = (t, stOK) := by
    rw [writeReg_register hsafe hw, if_neg (not_not.2 hst), if_neg (by rw [hgo]; decide), ht]
  unfold State.regsDiffer at hframe
  refine ⟨t.send (.regStatus p stOK), ?_, hbits, ?_, hothers⟩
  · rw [exec_registerWrite, hwr]
    exact answer_eq (by rw [hframe]; rfl)
  · rw [hframe]
    rfl

end

theorem accessStatus_held {core blk r : Nat} (h4 : a % 4 = 0) (h : regAt a = .core core blk r)
    (hheld : dieHeldNow s (core / 64) = true ∨ s.coreOffered core = false) : accessStatus s a = stCapacityLowered := by
  rw [accessStatus, h, if_neg (not_not.2 h4)]
  exact if_pos (by rcases hheld with hh | hh <;> simp [hh])

/-- Settles O16: an access is refused, or its write leaves what `PlainWrite` says. -/
theorem registerWritesFollowTheirFields : Obligations.RegisterWritesFollowTheirFields := by
  refine ⟨fun s p a v hsafe hw hst hlock hbad ha hpeak => exec_registerWrite_plain hsafe hw hst hlock hbad ha hpeak,
    fun s p a v hsafe hw h => ?_, fun s p a core blk r v hsafe hw h4 h hheld => ?_, fun s p a core v hsafe hw hact => ?_,
    fun s p a v hsafe hw hst h => exec_registerWrite_locked hsafe hw hst h⟩
  · have hst := accessStatus_none (s := s) h
    rw [exec_registerWrite_refused hsafe hw (by rw [hst]; decide), hst]
  · have hst := accessStatus_held h4 h hheld
    rw [exec_registerWrite_refused hsafe hw (by rw [hst]; decide), hst]
  · rw [exec_registerWrite, writeReg_window hsafe hw, windowWordWrite, if_pos hact]
    exact answer_eq rfl

end Sys2Proof.Machine
end

section
/-! PROOFS. Link enables and the module's ID (R294, R296), and the service port (R12, R436 to R439). -/

namespace Sys2Proof.Machine

variable {s t u : State} {i j : Nat} {v : Word}

/-! ### The module's ID (R296) -/

theorem toNat_and_mask (v : Word) : (v &&& 0x3FFF).toNat < 2 ^ 14 := by
  have h : (v &&& 0x3FFF).toNat = v.toNat % 2 ^ 14 := (BitVec.toNat_and _ _).trans (Nat.and_two_pow_sub_one_eq_mod _ 14)
  rw [h]
  exact Nat.mod_lt _ (by decide)

theorem clIdWord (v : Word) : fld (0x80000000 ||| (v &&& 0x3FFF)) 0 14 = (v &&& 0x3FFF).toNat ∧
    bit (0x80000000 ||| (v &&& 0x3FFF)) 31 = true := by
  have hlt := toNat_and_mask v
  refine ⟨?_, by simp [bit]⟩
  rw [fld, BitVec.toNat_or, Nat.shiftRight_zero, Nat.or_mod_two_pow, Nat.mod_eq_of_lt hlt]
  exact Nat.zero_or _

theorem exec_clIdWrite_sets (hact : s.active = false) (hen : s.reg clEn = 0) :
    exec (.clIdWrite v) s = .next (s.setReg clId (0x80000000 ||| (v &&& 0x3FFF))) := by
  have hex : exec (.clIdWrite v) s = answer s (writeClId v s).1 := rfl
  rw [hex, writeClId, if_neg (by simp [hact, hen])]
  exact answer_eq rfl

theorem exec_clIdWrite_refused (h : s.active = true ∨ s.reg clEn ≠ 0) : exec (.clIdWrite v) s = .next s := by
  have hex : exec (.clIdWrite v) s = answer s (writeClId v s).1 := rfl
  have hbad : (s.active || decide (s.reg clEn ≠ 0)) = true := by
    rcases h with h | h
    · rw [h, Bool.true_or]
    · rw [decide_eq_true h, Bool.or_true]
  rw [hex, writeClId, if_pos hbad]
  exact answer_eq rfl

/-! ### What a link's state leaves (R294, R295) -/

/-- The registers of a link that its state and its training change. -/
def stateRegs (i : Nat) : List Nat := [linkA i 0, linkA i 0xC, linkA i 0x14]

/-- What a change of a link's state leaves of the machine. -/
def State.linkFrame (s t : State) : Prop :=
  t = { s with regs := t.regs, links := t.links, out := t.out, port := t.port, svc := t.svc,
               img := { s.img with capFn := t.img.capFn }, fx := { s.fx with capHalt := t.fx.capHalt } }

theorem linkFrame_refl (s : State) : s.linkFrame s := rfl

theorem linkFrame_trans (h : s.linkFrame t) (k : t.linkFrame u) : s.linkFrame u := by
  unfold State.linkFrame at h k ⊢
  rw [k, h]

theorem linkFrame_setReg (s : State) (a : Nat) (x : Word) : s.linkFrame (s.setReg a x) := rfl
theorem linkFrame_event (h : EventOnly s t) : s.linkFrame t := by
  unfold State.linkFrame
  rw [h.eq]

theorem linkFrame_whenS (b : Bool) (f : State → State) (hf : ∀ u : State, u.linkFrame (f u)) (s : State) : s.linkFrame (whenS b f s) := by
  cases b
  · exact linkFrame_refl s
  · exact hf s

theorem linkFrame_capacityChanged (status : Nat) (s : State) : s.linkFrame (capacityChanged status s) := by
  unfold capacityChanged
  extract_lets s1 s2
  have h1 : s.linkFrame s1 := linkFrame_trans (linkFrame_setReg s _ _) rfl
  have h2 : s.linkFrame s2 := linkFrame_trans h1 (linkFrame_event (eventOnly_pushEvent (.refl _) _))
  exact linkFrame_trans h2 (linkFrame_whenS _ (fun t => t.modFx fun f => { f with capHalt := true }) (fun _ => rfl) s2)

theorem linkFrame_setLinkState (k st reason : Nat) (s : State) : s.linkFrame (setLinkState k st reason s) := by
  unfold setLinkState
  extract_lets was s1 now
  have h1 : s.linkFrame s1 := linkFrame_trans (linkFrame_setReg s _ _) (linkFrame_setReg _ _ _)
  split
  · exact h1
  · exact linkFrame_trans h1 (linkFrame_capacityChanged _ s1)

/-- A link that starts its training, its state set. -/
def trainingBegun (i : Nat) (s : State) : State :=
  ((s.setReg (linkA i 0xC) 0).setReg (linkA i 0x14) 0).modLink i fun l =>
    { waiting := l.waiting, backlog := l.backlog, part := l.part, failed := l.failed, cableOff := l.cableOff }

theorem startTraining_eq (i : Nat) (s : State) : startTraining i s =
    (trainingBegun i (setLinkState i 1 0 s)).send (trainBlock (trainingBegun i (setLinkState i 1 0 s)) i) := rfl

theorem linkFrame_trainingBegun (i : Nat) (s : State) : s.linkFrame (trainingBegun i s) :=
  linkFrame_trans (linkFrame_trans (linkFrame_setReg s _ _) (linkFrame_setReg _ _ _)) rfl

theorem linkFrame_startTraining (i : Nat) (s : State) : s.linkFrame (startTraining i s) := by
  rw [startTraining_eq]
  exact linkFrame_trans (linkFrame_trans (linkFrame_setLinkState i 1 0 s) (linkFrame_trainingBegun i _)) rfl

/-- The registers that a write of CL_EN may change for link i. -/
def enableRegs (i : Nat) : List Nat := stateRegs i ++ fxCapSum :: eventRegs

theorem regs_trainingBegun (i : Nat) (s : State) : s.sameRegs (trainingBegun i s) (stateRegs i) :=
  sameRegs_of_regs (sameRegs_setReg (sameRegs_setReg (sameRegs_refl s _) 0 (by simp [stateRegs])) 0 (by simp [stateRegs]))
    (State.modLink_regs _ _ _)

theorem regs_setLinkState_enable (i st reason : Nat) (s : State) : s.sameRegs (setLinkState i st reason s) (enableRegs i) :=
  sameRegs_mono (regs_setLinkState i st reason s) (by intro a; simp [enableRegs, stateRegs]; tauto)

theorem regs_startTraining (i : Nat) (s : State) : s.sameRegs (startTraining i s) (enableRegs i) := by
  rw [startTraining_eq]
  exact sameRegs_of_regs (sameRegs_trans (regs_setLinkState_enable i 1 0 s)
    (sameRegs_mono (regs_trainingBegun i _) (List.subset_append_left _ _))) rfl

theorem linkWork_startTraining (i : Nat) (s : State) : LinkWork i s (startTraining i s) := by
  rw [startTraining_eq]
  exact ((((linkWork_setLinkState (.refl i s) i 1 0).setReg _ _).setReg _ _).modLink _).send _

/-- What a link that starts training stands at. -/
theorem startTraining_effect (hi : i < 32) (s : State) : (startTraining i s).linkState i = 1 ∧
    ((startTraining i s).link i).lseqTx = 0 ∧ ((startTraining i s).link i).replay = [] ∧
    Out.block i (trainWord (s.regFld secIdent 8 12) (s.regFld secIdent 0 8) s.moduleId i) ∈ (startTraining i s).out := by
  have hst := linkState_setLinkState hi (show 1 < 8 by decide) 0 s
  have hident (a : Nat) (ha : a ∈ [secIdent, clId]) : (trainingBegun i (setLinkState i 1 0 s)).reg a = s.reg a := by
    refine (sameRegs_trans (regs_setLinkState_enable i 1 0 s)
      (sameRegs_mono (regs_trainingBegun i _) (List.subset_append_left _ _))) a ?_
    simp only [enableRegs, stateRegs, eventRegs, List.mem_append, List.mem_cons, List.not_mem_nil, or_false, linkA, hubQA, hubA,
      fxCapSum, dpSticky, secIdent, clId] at ha ⊢
    omega
  have hkeep : (trainingBegun i (setLinkState i 1 0 s)).reg (linkA i 0) = (setLinkState i 1 0 s).reg (linkA i 0) := by
    refine (State.reg_congr (State.modLink_regs _ _ _) _).trans ((State.reg_setReg_other _ _ ?_).trans (State.reg_setReg_other _ _ ?_)) <;>
      simp only [linkA, hubA] <;> omega
  have hlink : (trainingBegun i (setLinkState i 1 0 s)).link i = _ := State.link_modLink_self _ i _
  rw [startTraining_eq]
  generalize setLinkState i 1 0 s = w at *
  generalize trainingBegun i w = b at *
  refine ⟨(regFld_of_reg hkeep 0 3).trans hst, ?_, ?_, ?_⟩
  · exact congrArg LinkSt.lseqTx hlink
  · exact congrArg LinkSt.replay hlink
  · have hb : trainBlock b i = Out.block i (trainWord (s.regFld secIdent 8 12) (s.regFld secIdent 0 8) s.moduleId i) := by
      rw [trainBlock, regFld_of_reg (hident secIdent (by simp)), regFld_of_reg (hident secIdent (by simp)), State.moduleId,
        regFld_of_reg (hident clId (by simp)), State.moduleId]
    rw [hb]
    exact List.mem_cons_self

/-! ### CL_EN (R294) -/

theorem linkEnable_cases (j : Nat) (v : Word) (s : State) :
    linkEnable j v s = s ∨ linkEnable j v s = setLinkState j 0 6 s ∨ linkEnable j v s = startTraining j s := by
  unfold linkEnable
  dsimp only
  split_ifs
  · exact .inl rfl
  · exact .inr (.inl rfl)
  · exact .inr (.inr rfl)
  · exact .inl rfl

theorem linkFrame_linkEnable (j : Nat) (v : Word) (s : State) : s.linkFrame (linkEnable j v s) := by
  rcases linkEnable_cases j v s with h | h | h <;> rw [h]
  · exact linkFrame_refl s
  · exact linkFrame_setLinkState _ _ _ s
  · exact linkFrame_startTraining j s

theorem regs_linkEnable (j : Nat) (v : Word) (s : State) : s.sameRegs (linkEnable j v s) (enableRegs j) := by
  rcases linkEnable_cases j v s with h | h | h <;> rw [h]
  · exact sameRegs_refl s _
  · exact regs_setLinkState_enable _ _ _ s
  · exact regs_startTraining j s

theorem linkWork_linkEnable (j : Nat) (v : Word) (s : State) : LinkWork j s (linkEnable j v s) := by
  rcases linkEnable_cases j v s with h | h | h <;> rw [h]
  · exact .refl j s
  · exact linkWork_setLinkState (.refl j s) _ _ _
  · exact linkWork_startTraining j s

/-- What the other links' enables leave of link i: its state, its record, and what it trains with. -/
structure LinkKept (i : Nat) (s t : State) : Prop where
  regs : ∀ a ∈ [linkA i 0, secIdent, clId, clEn], t.reg a = s.reg a
  link : t.link i = s.link i
  out : s.out ⊆ t.out

theorem LinkKept.refl (i : Nat) (s : State) : LinkKept i s s := ⟨fun _ _ => rfl, rfl, List.Subset.refl _⟩

theorem LinkKept.enable (h : LinkKept i s t) (hi : i < 32) (hj : j ≠ i) (v : Word) : LinkKept i s (linkEnable j v t) := by
  have hw := linkWork_linkEnable j v t
  refine ⟨fun a ha => (regs_linkEnable j v t a ?_).trans (h.regs a ha), (hw.others i hj.symm).trans h.link, List.Subset.trans h.out hw.out⟩
  simp only [enableRegs, stateRegs, eventRegs, List.mem_append, List.mem_cons, List.not_mem_nil, or_false, linkA, hubQA, hubA,
    fxCapSum, dpSticky, secIdent, clId, clEn] at ha ⊢
  omega

theorem LinkKept.enables (hi : i < 32) (v : Word) (l : List Nat) (hl : i ∉ l) (s : State) :
    LinkKept i s (forEach l (fun j t => linkEnable j v t) s) :=
  forEach_keeps (LinkKept i s) l _ (fun _ hj _ h => h.enable hi (fun e => hl (e ▸ hj)) v) s (.refl i s)

theorem LinkKept.linkState (h : LinkKept i s t) : t.linkState i = s.linkState i :=
  regFld_of_reg (h.regs _ (by simp)) 0 3
theorem LinkKept.idValid (h : LinkKept i s t) : t.idValid = s.idValid := regBit_of_reg (h.regs _ (by simp)) 31
theorem LinkKept.moduleId (h : LinkKept i s t) : t.moduleId = s.moduleId := regFld_of_reg (h.regs _ (by simp)) 0 14
theorem LinkKept.enabled (h : LinkKept i s t) : t.regBit clEn i = s.regBit clEn i := regBit_of_reg (h.regs _ (by simp)) i

theorem forEach_append {β : Type} (l m : List β) (f : β → State → State) (s : State) :
    forEach (l ++ m) f s = forEach m f (forEach l f s) := by
  simp only [forEach, List.foldl_append]

theorem range_split (hi : i < 32) : ∃ m, List.range 32 = List.range i ++ i :: m ∧ i ∉ List.range i ∧ i ∉ m := by
  refine ⟨List.range' (i + 1) (31 - i), ?_, by simp, by simp [List.mem_range']; omega⟩
  have h1 : List.range' 0 i ++ List.range' (0 + i) (32 - i) = List.range' 0 (i + (32 - i)) := List.range'_append_1
  rw [Nat.zero_add, show i + (32 - i) = 32 by omega, ← List.range_eq_range', ← List.range_eq_range',
    show 32 - i = (31 - i) + 1 by omega, List.range'_succ] at h1
  exact h1.symm

/-- All enables, seen from link i: those before, its own, and those after. -/
theorem enables_split (hi : i < 32) (v : Word) (s : State) : ∃ b, LinkKept i s b ∧
    LinkKept i (linkEnable i v b) (forEach (List.range 32) (fun j t => linkEnable j v t) s) := by
  obtain ⟨m, hm, hpre, hpost⟩ := range_split hi
  refine ⟨forEach (List.range i) (fun j t => linkEnable j v t) s, .enables hi v _ hpre s, ?_⟩
  rw [hm, forEach_append, forEach_cons]
  exact .enables hi v m hpost _

/-- What becomes of a link by the bit of its own. -/
theorem linkEnable_effect (hi : i < 32) (v : Word) (b : State) :
    (b.linkState i ≠ 5 → bit v i = false → (linkEnable i v b).linkState i = 0) ∧
    ((b.linkState i = 0 ∨ b.linkState i = 4 ∧ b.regBit clEn i = false) → bit v i = true → b.idValid = true →
      linkEnable i v b = startTraining i b) ∧
    (b.linkState i = 5 → linkEnable i v b = b) ∧ (bit v i = true → b.idValid = false → linkEnable i v b = b) ∧
    (b.linkState i ≠ 0 → b.linkState i ≠ 4 → bit v i = true → linkEnable i v b = b) := by
  refine ⟨fun h5 hb => ?_, fun h hb hid => ?_, fun h5 => if_pos h5, fun hb hid => ?_, fun h0 h4 hb => ?_⟩
  · rw [linkEnable, if_neg h5, hb]
    exact linkState_setLinkState hi (by decide) 6 b
  · rw [linkEnable, if_neg (by rcases h with h | h <;> omega), hb, hid]
    rcases h with h | ⟨h, hen⟩
    · simp [h]
    · simp [h, hen]
  · rw [linkEnable, hb, hid]
    simp
  · rw [linkEnable, hb]
    simp [h0, h4]

theorem exec_clEnWrite_enables (hact : s.active = false) : exec (.clEnWrite v) s =
    answer s ((forEach (List.range 32) (fun i t => linkEnable i v t) s).setReg clEn v) := by
  have hex : exec (.clEnWrite v) s = answer s (writeClEn v s).1 := rfl
  rw [hex, writeClEn, if_neg (by simp [hact])]

theorem linkFrame_enables (v : Word) (s : State) : s.linkFrame (forEach (List.range 32) (fun i t => linkEnable i v t) s) :=
  forEach_keeps s.linkFrame _ _ (fun j _ t h => linkFrame_trans h (linkFrame_linkEnable j v t)) s (linkFrame_refl s)

/-- The registers that a write of CL_EN may change. -/
def clEnRegs : List Nat := clEn :: fxCapSum :: eventRegs ++ (List.range 32).flatMap fun i => [linkA i 0, linkA i 0xC, linkA i 0x14]

theorem regs_enables (v : Word) (s : State) : s.sameRegs (forEach (List.range 32) (fun i t => linkEnable i v t) s) clEnRegs := by
  refine forEach_keeps (fun t => s.sameRegs t clEnRegs) _ _ (fun j hj t h => ?_) s (sameRegs_refl s _)
  refine sameRegs_trans h (sameRegs_mono (regs_linkEnable j v t) fun a ha => ?_)
  rcases List.mem_append.1 ha with ha | ha
  · exact List.mem_append_right _ (List.mem_flatMap.2 ⟨j, hj, ha⟩)
  · exact List.mem_append_left _ (List.mem_cons_of_mem _ ha)

theorem clEn_ne_link (i : Nat) : linkA i 0 ≠ clEn := by
  simp only [linkA, clEn, hubA]
  omega

/-- A write of CL_EN with no image active, seen from one link. -/
theorem clEnWrite_link (hi : i < 32) (v : Word) (s : State) :
    let t := (forEach (List.range 32) (fun i t => linkEnable i v t) s).setReg clEn v
    (s.linkState i ≠ 5 → bit v i = false → t.linkState i = 0) ∧
    ((s.linkState i = 0 ∨ s.linkState i = 4 ∧ s.regBit clEn i = false) → bit v i = true → s.idValid = true →
      t.linkState i = 1 ∧ (t.link i).lseqTx = 0 ∧ (t.link i).replay = [] ∧
      Out.block i (trainWord (s.regFld secIdent 8 12) (s.regFld secIdent 0 8) s.moduleId i) ∈ t.out) ∧
    (s.linkState i = 5 → t.linkState i = 5) ∧ (bit v i = true → s.idValid = false → t.linkState i = s.linkState i) ∧
    (s.linkState i ≠ 0 → s.linkState i ≠ 4 → bit v i = true → t.linkState i = s.linkState i) := by
  obtain ⟨b, hb, ht⟩ := enables_split hi v s
  obtain ⟨hdown, htrain, hretired, hnoid, hstays⟩ := linkEnable_effect hi v b
  generalize forEach (List.range 32) (fun i t => linkEnable i v t) s = w at *
  have hst : (w.setReg clEn v).linkState i = (linkEnable i v b).linkState i :=
    (regFld_of_reg (State.reg_setReg_other w v (clEn_ne_link i)) 0 3).trans ht.linkState
  dsimp only
  rw [hst, ← hb.linkState, ← hb.idValid, ← hb.enabled]
  refine ⟨hdown, fun h hv hid => ?_, fun h5 => by rw [hretired h5]; exact h5, fun hv hid => by rw [hnoid hv hid],
    fun h0 h4 hv => by rw [hstays h0 h4 hv]⟩
  rw [htrain h hv hid] at ht ⊢
  obtain ⟨h1, h2, h3, h4⟩ := startTraining_effect hi b
  rw [hb.moduleId, regFld_of_reg (hb.regs secIdent (by simp)), regFld_of_reg (hb.regs secIdent (by simp))] at h4
  exact ⟨h1, (congrArg LinkSt.lseqTx ht.link).trans h2, (congrArg LinkSt.replay ht.link).trans h3, ht.out h4⟩

/-- Settles O19: each bit of CL_EN works on its own link, and CL_ID is one word. -/
theorem linkEnablesAndTheModuleId : Obligations.LinkEnablesAndTheModuleId := by
  refine ⟨fun s v hact hen => ?_, fun s v h => exec_clIdWrite_refused h, fun s v hact => ?_, fun s v hact => ?_⟩
  · obtain ⟨hid, hvalid⟩ := clIdWord v
    refine ⟨_, exec_clIdWrite_sets hact hen, ?_, ?_, rfl, sameRegs_setReg (sameRegs_refl s _) _ (by simp)⟩
    · rw [State.moduleId, State.regFld, State.reg_setReg_self, hid]
    · rw [State.idValid, State.regBit, State.reg_setReg_self, hvalid]
  · have hex : exec (.clEnWrite v) s = answer s (writeClEn v s).1 := rfl
    rw [hex, writeClEn, if_pos hact]
    exact answer_eq rfl
  · have hlinks := fun i (hi : i < 32) => clEnWrite_link hi v s
    have hframe := linkFrame_enables v s
    have hregs := regs_enables v s
    have hex := exec_clEnWrite_enables (v := v) hact
    generalize forEach (List.range 32) (fun i t => linkEnable i v t) s = w at *
    have hframe' := linkFrame_trans hframe (linkFrame_setReg w clEn v)
    unfold State.linkFrame at hframe'
    refine ⟨w.setReg clEn v, hex.trans (answer_eq (by rw [hframe'])), State.reg_setReg_self _ _ _, hlinks, hframe', ?_⟩
    exact sameRegs_setReg hregs v List.mem_cons_self


/-! ### The service port (R437, R438) -/

theorem length_leBytes (n x : Nat) : (leBytes x n).length = n := by
  induction n generalizing x with
  | zero => rfl
  | succ n ih => simp [leBytes, ih]

theorem leNat_leBytes (n x : Nat) : leNat (leBytes x n) = x % 256 ^ n := by
  induction n generalizing x with
  | zero => simp [leBytes, leNat, Nat.mod_one]
  | succ n ih =>
    rw [leBytes, leNat, ih, BitVec.toNat_ofNat, show 256 ^ (n + 1) = 256 * 256 ^ n by ring, Nat.mod_mul]

theorem leNat_leBytes_of_lt {n x : Nat} (h : x < 256 ^ n) : leNat (leBytes x n) = x := by
  rw [leNat_leBytes, Nat.mod_eq_of_lt h]

variable {a : Nat}

section
variable (halive : s.pwr.input = 2)
include halive

theorem serviceAlive_eq : serviceAlive s = true := decide_eq_true halive

theorem privateWrite_read (ha : a < 2 ^ 48) : privateWrite (0x01 :: leBytes a 6) s = readRequest a s := by
  have haddr : requestAddr (0x01 :: leBytes a 6) = a := by
    rw [requestAddr, List.drop_one, List.tail_cons, List.take_of_length_le (by simp [length_leBytes]),
      leNat_leBytes_of_lt (show a < 256 ^ 6 from ha)]
  rw [privateWrite, serviceAlive_eq halive, Bool.not_true, if_neg Bool.false_ne_true, if_pos ⟨rfl, by simp [length_leBytes]⟩, haddr]

theorem privateWrite_write (ha : a < 2 ^ 48) (v : Word) :
    privateWrite (0x02 :: leBytes a 6 ++ leBytes v.toNat 4) s = writeRequest a v s := by
  have haddr : requestAddr (0x02 :: leBytes a 6 ++ leBytes v.toNat 4) = a := by
    rw [requestAddr, List.cons_append, List.drop_one, List.tail_cons, List.take_append_of_le_length (by simp [length_leBytes]),
      List.take_of_length_le (by simp [length_leBytes]), leNat_leBytes_of_lt (show a < 256 ^ 6 from ha)]
  have hvalue : BitVec.ofNat 32 (leNat ((0x02 :: leBytes a 6 ++ leBytes v.toNat 4).drop 7)) = v := by
    rw [List.drop_append_of_le_length (by simp [length_leBytes]), List.drop_of_length_le (by simp [length_leBytes]), List.nil_append,
      leNat_leBytes_of_lt (show v.toNat < 256 ^ 4 from v.isLt), BitVec.ofNat_toNat, BitVec.setWidth_eq]
  rw [List.cons_append, privateWrite, serviceAlive_eq halive, Bool.not_true, if_neg Bool.false_ne_true,
    if_neg (fun h => absurd h.1 (by decide)), if_pos ⟨rfl, by simp [length_leBytes]⟩, ← List.cons_append, haddr, hvalue]

/-- A private write of another length or OP. -/
theorem privateWrite_other {l : List Byte} (h1 : ¬(l.length = 7 ∧ l.head? = some 0x01)) (h2 : ¬(l.length = 11 ∧ l.head? = some 0x02)) :
    privateWrite l s = { s with svc := { s.svc with result := some (6, 0) } } := by
  cases l with
  | nil =>
    rw [privateWrite, serviceAlive_eq halive, Bool.not_true, if_neg Bool.false_ne_true]
    rfl
  | cons op l =>
    rw [privateWrite, serviceAlive_eq halive, Bool.not_true, if_neg Bool.false_ne_true, if_neg (fun h => h1 ⟨h.2, by rw [List.head?_cons, h.1]⟩), if_neg (fun h => h2 ⟨h.2, by rw [List.head?_cons, h.1]⟩)]
    rfl

theorem resultRead_pending {n st : Nat} {v : Word} (hres : s.svc.result = some (st, v)) : resultRead n s =
    { s with out := .serviceResult (([BitVec.ofNat 8 st] ++ leBytes v.toNat 4).take n) :: s.out,
             svc := { s.svc with result := if 5 ≤ n then none else some (st, v) } } := by
  rw [resultRead, serviceAlive_eq halive, Bool.not_true, if_neg Bool.false_ne_true, hres]
  dsimp only
  split
  · rfl
  · have hkept : { s.svc with result := some (st, v) } = s.svc := by rw [← hres]
    rw [hkept]
    rfl

theorem resultRead_empty {n : Nat} (hres : s.svc.result = none) :
    resultRead n s = { s with out := .serviceResult ([6, 0, 0, 0, 0].take n) :: s.out } := by
  rw [resultRead, serviceAlive_eq halive, Bool.not_true, if_neg Bool.false_ne_true, hres]
  dsimp only
  split
  · have hkept : { s.svc with result := none } = s.svc := by rw [← hres]
    rw [State.modSvc, State.send_svc, hkept]
    rfl
  · rfl

theorem takeAddress_eq {n : Nat} (hn : n < 128) (arbitrated : Bool) : takeAddress arbitrated n s =
    { s with svc := { s.svc with dynAddr := some n },
             out := if arbitrated then .serviceIdentity (provisionalId s) 0x06 0x00 :: s.out else s.out } := by
  rw [takeAddress, serviceAlive_eq halive, Bool.not_true, if_neg Bool.false_ne_true, Nat.mod_eq_of_lt hn]
  cases arbitrated <;> rfl

end

/-- The low half of the provisional ID is the serial number. -/
theorem provisionalId_low (s : State) : (provisionalId s).setWidth 32 = s.reg secSerial := by
  rw [provisionalId, BitVec.setWidth_append_eq_right, State.reg64, BitVec.setWidth_append_eq_right]

/-- A read for the service port leaves no byte, no output and, but of a TK_Q_PEAK, no register changed. -/
theorem readRequest_effect (a : Nat) (s : State) : ∃ w, readRequest a s =
      w.modSvc (fun x => { x with result := some (accessStatus s a, (readReg .service a s).1) }) ∧ w.pending = s.pending ∧
      s.sameBytes w ∧ (isPeak a = false → s.sameRegs w []) ∧ w.out = s.out := by
  refine ⟨(readReg .service a s).2.2, rfl, ?_⟩
  by_cases hp : (decide (accessStatus s a = stOK) && isPeak a) = true
  · have hread : (readReg .service a s).2.2 = markRead a (peakRead a (latchHigh .service a s)) := by
      simp only [readReg, hp, whenS_true]
      rfl
    obtain ⟨-, hframe⟩ := PathRead.latchHigh .service a s
    have hpeak : isPeak a ≠ false := by
      rw [(Bool.and_eq_true_iff.1 hp).2]
      decide
    have hmark := ((PathRead.refl .service (peakRead a (latchHigh .service a s))).markRead a).frame
    rw [hread, hmark, peakRead, hframe]
    exact ⟨rfl, fun _ => ⟨rfl, rfl, rfl, rfl⟩, fun h => absurd h hpeak, rfl⟩
  · have hread := (PathRead.latchHigh .service a s).markRead a
    rw [readReg_state (Bool.eq_false_iff.2 hp)]
    exact ⟨hread.pending, by rw [hread.frame]; exact fun _ => ⟨rfl, rfl, rfl, rfl⟩,
      fun _ => sameRegs_of_regs (sameRegs_refl s []) hread.regs, hread.out⟩

/-- Settles O20: each request is a read, a write or neither, and leaves one result. -/
theorem servicePortKeepsOneResult : Obligations.ServicePortKeepsOneResult := by
  refine ⟨fun s a ha halive hlatch => ?_, fun s a v ha halive => ?_, fun s l halive h1 h2 => ?_,
    fun s n st v halive hres hst => ?_, fun s n halive hres => ?_, fun s a halive ha => ⟨?_, ?_⟩, fun s => ?_⟩
  · obtain ⟨w, hw, hpend, hbytes, hregs, hout⟩ := readRequest_effect a s
    rw [readReg_live (p := .service) hlatch] at hw
    exact ⟨_, (congrArg (answer s) ((privateWrite_read halive ha).trans hw)).trans (answer_eq hpend), rfl, hbytes, hregs, hout⟩
  · have hex : exec (.writeRequest (0x02 :: leBytes a 6 ++ leBytes v.toNat 4)) s = answer s (writeRequest a v s) :=
      congrArg (answer s) (privateWrite_write halive ha v)
    exact ⟨_, hex, rfl, rfl⟩
  · have h := privateWrite_other halive h1 h2
    exact ⟨(congrArg (answer s) h).trans (answer_eq rfl), (congrArg (answer s) h).trans (answer_eq rfl)⟩
  · exact (congrArg (answer s) (resultRead_pending halive hres)).trans (answer_eq rfl)
  · exact (congrArg (answer s) (resultRead_empty halive hres)).trans (answer_eq rfl)
  · exact (congrArg (answer s) (takeAddress_eq halive ha false)).trans (answer_eq rfl)
  · exact ⟨provisionalId s, provisionalId_low s, (congrArg (answer s) (takeAddress_eq halive ha true)).trans (answer_eq rfl)⟩
  · have hex : exec .inBandInterruptRetry s = answer s (retryInterrupt s) := rfl
    rw [hex, retryInterrupt]
    split <;> exact answer_eq rfl

end Sys2Proof.Machine
end

section
/-! PROOFS. What a link receives (R290 to R300, R440): packets, acknowledgements, probes, training and its ends. First the packets
and the records of codewords. -/

namespace Sys2Proof.Machine

variable {s t u : State} {i j : Nat} {cw : Codeword}

/-! ### The record of a codeword (R292, R316) -/

theorem linkA_ne (i : Nat) {x y : Nat} (h : x ≠ y) : linkA i x ≠ linkA i y := by
  simp only [linkA, hubA]
  omega

/-- A counter field after it is counted once. -/
theorem regFld_addCnt_self (s : State) (a lo w n : Nat) (h : lo + w ≤ 32) :
    (s.addCnt a lo w n).regFld a lo w = min (s.regFld a lo w + n) (2 ^ w - 1) := by
  have hlt : min (s.regFld a lo w + n) (2 ^ w - 1) < 2 ^ w := by
    have := Nat.two_pow_pos w
    omega
  rw [State.addCnt, State.regFld_setFld_self _ _ _ _ _ h, satAdd, Nat.mod_eq_of_lt hlt]

/-- An uncorrectable codeword is flagged and counted. -/
def codewordLost (i : Nat) (s : State) : State := (s.setBit (linkA i 4) 0).addCnt (linkA i 8) 0 16 1

/-- The registers after a codeword, but for the lane of the most symbol errors. -/
theorem reg_noteCodeword_uncorr (h : cw.uncorr = true) (s : State) {a : Nat} (ha : a ≠ linkA i 0x14) :
    (noteCodeword i cw s).reg a = (codewordLost i s).reg a := by
  unfold noteCodeword
  dsimp only
  rw [h, whenS_true, if_pos rfl, List.isEmpty_nil, Bool.not_true, whenS_false]
  split
  · exact State.reg_congr (State.setLink_regs _ _ _) a
  · exact (State.reg_setReg_other _ _ ha).trans (State.reg_congr (State.setLink_regs _ _ _) a)

theorem reg_noteCodeword_corrected (h : cw.uncorr = false) (he : cw.errs ≠ []) (s : State) {a : Nat} (ha : a ≠ linkA i 0x14) :
    (noteCodeword i cw s).reg a = (s.addCnt (linkA i 0xC) 0 32 1).reg a := by
  have hne : (!cw.errs.isEmpty) = true := by
    rw [Bool.not_eq_true', List.isEmpty_eq_false_iff]
    exact he
  unfold noteCodeword
  dsimp only
  rw [h, whenS_false, if_neg Bool.false_ne_true, hne, whenS_true]
  split
  · exact State.reg_congr (State.setLink_regs _ _ _) a
  · exact (State.reg_setReg_other _ _ ha).trans (State.reg_congr (State.setLink_regs _ _ _) a)

/-- A good codeword changes the count of corrected codewords and the lane of the most symbol errors alone. -/
theorem regs_noteCodeword_good (h : cw.uncorr = false) (i : Nat) (s : State) :
    s.sameRegs (noteCodeword i cw s) [linkA i 0xC, linkA i 0x14] := by
  unfold noteCodeword
  extract_lets errs s1 s2 l sums top
  have h1 : s1 = s := by simp only [s1, h, whenS_false]
  have h2 : s.sameRegs s2 [linkA i 0xC, linkA i 0x14] :=
    sameRegs_whenS _ _ (fun _ k => sameRegs_addCnt k _ _ _ (by simp)) (by rw [h1]; exact sameRegs_refl s _)
  split
  · exact sameRegs_of_regs h2 rfl
  · exact sameRegs_setReg (sameRegs_of_regs (t := s2.setLink i _) h2 rfl) _ (by simp)

theorem noteCodeword_link_self (i : Nat) (cw : Codeword) (s : State) : (noteCodeword i cw s).link i =
    { s.link i with codewords := ((noteCodeword i cw s).link i).codewords, symErrs := ((noteCodeword i cw s).link i).symErrs } := by
  obtain ⟨n, sums, h⟩ := link_noteCodeword i cw s
  rw [h]

theorem noteCodeword_link_other (i : Nat) (cw : Codeword) (s : State) (h : j ≠ i) : (noteCodeword i cw s).link j = s.link j :=
  (linkWork_noteCodeword (.refl i s) cw).others j h

theorem lseqRx_noteCodeword (i : Nat) (cw : Codeword) (s : State) : ((noteCodeword i cw s).link i).lseqRx = (s.link i).lseqRx := by
  rw [noteCodeword_link_self]

theorem out_noteCodeword (i : Nat) (cw : Codeword) (s : State) : (noteCodeword i cw s).out = s.out := by rw [noteCodeword_eq]

/-! ### Packets that a link does not accept (R298) -/

variable {p : Packet}

/-- A block leaves on a link that is in no lane swap. -/
theorem sendBlock_open (h : s.linkOpen i = true) (w : BitVec 64) : sendBlock i w s = { s with out := .block i w :: s.out } := by
  rw [sendBlock, h, whenS_true]
  rfl

theorem rxNak_open (h : s.linkOpen i = true) : rxNak i s = { s with out := .block i (nakBlock (s.link i).lseqRx) :: s.out } :=
  sendBlock_open h _

theorem rxPacket_down (h : s.linkUp i = false) (deliver : State → State) : rxPacket i p cw deliver s = s := by
  rw [rxPacket, h, Bool.not_false, if_pos rfl]

theorem rxPacket_bad (hup : s.linkUp i = true) (hbad : rxGood p cw = false) (deliver : State → State) :
    rxPacket i p cw deliver s = rxBad i cw (noteCodeword i cw s) := by
  rw [rxPacket, hup, Bool.not_true, if_neg Bool.false_ne_true]
  dsimp only
  rw [hbad, Bool.not_false, if_pos rfl]

/-- How far behind the packet expected a packet lies. -/
theorem rxPacket_behind {n : Nat} (hup : s.linkUp i = true) (hgood : rxGood p cw = true) (h0 : n ≠ 0) (hn : n < 65536)
    (hexp : (s.link i).lseqRx < 65536) (hl : p.lseq = ((s.link i).lseqRx + 65536 - n) % 65536) (deliver : State → State) :
    rxPacket i p cw deliver s = if n ≤ 4096 then noteCodeword i cw s else rxNak i (noteCodeword i cw s) := by
  have hbehind : (((noteCodeword i cw s).link i).lseqRx + 65536 - p.lseq % 65536) % 65536 = n := by
    rw [lseqRx_noteCodeword, hl]
    omega
  rw [rxPacket, hup, Bool.not_true, if_neg Bool.false_ne_true]
  dsimp only
  rw [hgood, Bool.not_true, if_neg Bool.false_ne_true, hbehind, if_neg h0]

/-- What a bad packet leaves on an open link: a NAK, and a flag if its codewords were good. -/
theorem rxBad_effect (hopen : s.linkOpen i = true) :
    rxBad i cw s = { s with regs := (rxBad i cw s).regs, out := .block i (nakBlock (s.link i).lseqRx) :: s.out } ∧
    (cw.uncorr = false → (rxBad i cw s).regBit (linkA i 4) 1 = true ∧ s.sameRegs (rxBad i cw s) [linkA i 4]) ∧
    (cw.uncorr = true → (rxBad i cw s).regs = s.regs) := by
  unfold rxBad
  cases hu : cw.uncorr
  · have hset : (s.setBit (linkA i 4) 1).linkOpen i = true := hopen
    rw [Bool.not_false, whenS_true, rxNak_open hset]
    refine ⟨rfl, fun _ => ⟨?_, sameRegs_of_regs (sameRegs_setBit (sameRegs_refl s _) 1 (List.mem_singleton_self _)) rfl⟩, nofun⟩
    exact (State.regBit_setBit s (linkA i 4) 1 (linkA i 4) 1 (by decide)).trans (by simp)
  · rw [Bool.not_true, whenS_false, rxNak_open hopen]
    exact ⟨rfl, nofun, fun _ => rfl⟩

/-- The commands by which packets come to a link. -/
def packetRows (i : Nat) (p : Packet) (late : Bool) : List (Codeword → Instr) :=
  [Instr.wr i p, .wrAck i p, .rdReq i p, .rdResp i p, .seif i p, .voteResult i p, .resultQuery i p, .resultAnswer i p, .fnsync i p,
    fun cw => .vote i p cw late]

/-- Each is the reception of its packet. -/
theorem exec_packetRow {late : Bool} {c : Codeword → Instr} (hc : c ∈ packetRows i p late) :
    ∃ deliver : State → State, ∀ cw s, exec (c cw) s = answer s (rxPacket i p cw deliver s) := by
  simp only [packetRows, List.mem_cons, List.not_mem_nil, or_false] at hc
  rcases hc with rfl | rfl | rfl | rfl | rfl | rfl | rfl | rfl | rfl | rfl
  case inr.inr.inr.inr.inr.inr.inr.inr.inl => exact ⟨deliverFnsync i p, fun _ _ => rfl⟩
  case inr.inr.inr.inr.inr.inr.inr.inr.inr => exact ⟨deliverPacket late p, fun _ _ => rfl⟩
  all_goals exact ⟨deliverPacket false p, fun _ _ => rfl⟩

theorem exec_packet_bad {c : Codeword → Instr} {deliver : State → State}
    (hc : ∀ cw s, exec (c cw) s = answer s (rxPacket i p cw deliver s)) (hup : s.linkUp i = true) (hopen : s.linkOpen i = true)
    (hbad : rxGood p cw = false) : ∃ t, exec (c cw) s = .next t ∧
      t = { noteCodeword i cw s with regs := t.regs, out := .block i (nakBlock (s.link i).lseqRx) :: s.out } ∧
      (cw.uncorr = false → t.regBit (linkA i 4) 1 = true ∧ (noteCodeword i cw s).sameRegs t [linkA i 4]) ∧
      (cw.uncorr = true → t.regs = (noteCodeword i cw s).regs) := by
  obtain ⟨heq, hgood, hlost⟩ := rxBad_effect (cw := cw) ((linkOpen_noteCodeword i cw s).trans hopen)
  have hex := hc cw s
  rw [rxPacket_bad hup hbad] at hex
  rw [lseqRx_noteCodeword, out_noteCodeword] at heq
  generalize rxBad i cw (noteCodeword i cw s) = t at *
  refine ⟨t, hex.trans (answer_eq ?_), heq, hgood, hlost⟩
  rw [heq]
  exact pending_noteCodeword i cw s

theorem exec_packet_early {c : Codeword → Instr} {deliver : State → State} {n : Nat}
    (hc : ∀ cw s, exec (c cw) s = answer s (rxPacket i p cw deliver s)) (hup : s.linkUp i = true) (hopen : s.linkOpen i = true)
    (hgood : rxGood p cw = true) (hlo : 4096 < n) (hhi : n < 65536) (hexp : (s.link i).lseqRx < 65536)
    (hl : p.lseq = ((s.link i).lseqRx + 65536 - n) % 65536) :
    exec (c cw) s = .next { noteCodeword i cw s with out := .block i (nakBlock (s.link i).lseqRx) :: s.out } := by
  rw [hc, rxPacket_behind hup hgood (by omega) hhi hexp hl, if_neg (by omega),
    rxNak_open ((linkOpen_noteCodeword i cw s).trans hopen), lseqRx_noteCodeword, out_noteCodeword]
  exact answer_eq (pending_noteCodeword i cw s)

theorem exec_packet_duplicate {c : Codeword → Instr} {deliver : State → State} {n : Nat}
    (hc : ∀ cw s, exec (c cw) s = answer s (rxPacket i p cw deliver s)) (hup : s.linkUp i = true) (hgood : rxGood p cw = true)
    (hlo : 1 ≤ n) (hhi : n ≤ 4096) (hexp : (s.link i).lseqRx < 65536) (hl : p.lseq = ((s.link i).lseqRx + 65536 - n) % 65536) :
    exec (c cw) s = .next (noteCodeword i cw s) := by
  rw [hc, rxPacket_behind hup hgood (by omega) (by omega) hexp hl, if_pos hhi]
  exact answer_eq (pending_noteCodeword i cw s)

/-- Settles O24: every packet row is the reception of its packet, and the record of its codeword is one function. -/
theorem onlyTheExpectedPacketIsAccepted : Obligations.OnlyTheExpectedPacketIsAccepted := by
  refine ⟨fun s i p late c hc => ?_, fun s i cw => ⟨fun hu => ⟨?_, ?_⟩, fun hu he => ⟨?_, regs_noteCodeword_good hu i s⟩,
    noteCodeword_eq i cw s, fun j hj => noteCodeword_link_other i cw s hj, noteCodeword_link_self i cw s⟩⟩
  · obtain ⟨deliver, hrow⟩ := exec_packetRow (late := late) hc
    refine ⟨fun hup hopen cw hbad => exec_packet_bad hrow hup hopen hbad,
      fun hup cw n hgood hlo hhi hexp hl => exec_packet_duplicate hrow hup hgood hlo hhi hexp hl,
      fun hup hopen cw n hgood hlo hhi hexp hl => exec_packet_early hrow hup hopen hgood hlo hhi hexp hl, fun hdown cw => ?_⟩
    rw [hrow, rxPacket_down hdown]
    exact answer_eq rfl
  · rw [regBit_of_reg (reg_noteCodeword_uncorr hu s (linkA_ne i (by decide))), codewordLost,
      regBit_of_reg (State.reg_addCnt_other _ (linkA_ne i (by decide)) _ _ _), State.regBit_setBit _ _ _ _ _ (by decide)]
    simp
  · rw [regFld_of_reg (reg_noteCodeword_uncorr hu s (linkA_ne i (by decide))), codewordLost,
      regFld_addCnt_self _ _ _ _ _ (by decide), regFld_of_reg (State.reg_setBit_other s (linkA_ne i (by decide)) _)]
    norm_num
  · rw [regFld_of_reg (reg_noteCodeword_corrected hu he s (linkA_ne i (by decide))), regFld_addCnt_self _ _ _ _ _ (by decide)]
    norm_num

/-! ### The transmit queue as it sends (R277, R299) -/

/-- Packets that a link has to send: those in its queue and those that wait before it. -/
def LinkSt.unsent (l : LinkSt) : Nat := l.waiting.length + l.backlog.length

/-- Whole packets go from before the queue into it. -/
theorem fill_spec (n : Nat) (l : LinkSt) : (LinkSt.fill n l).unsent = l.unsent ∧
    LinkSt.fill n l = { l with waiting := (LinkSt.fill n l).waiting, backlog := (LinkSt.fill n l).backlog,
                               part := (LinkSt.fill n l).part } := by
  induction n generalizing l with
  | zero => exact ⟨rfl, rfl⟩
  | succ n ih =>
    unfold LinkSt.fill
    split
    · exact ⟨rfl, rfl⟩
    next p rest hb =>
      dsimp only
      split
      · obtain ⟨hu, heq⟩ := ih { l with waiting := l.waiting ++ [p], backlog := rest, part := 0 }
        refine ⟨hu.trans ?_, ?_⟩
        · simp only [LinkSt.unsent, List.length_append, List.length_cons, List.length_nil, hb]
          omega
        · rw [heq]
      · exact ⟨rfl, rfl⟩

/-- What sending leaves of a link: its replay buffer with more packets behind, each taken from those to send, and the counts of the
units returned. -/
structure Sending (l0 l : LinkSt) : Prop where
  replay : ∃ sent, l.replay = l0.replay ++ sent ∧ sent.length + l.unsent = l0.unsent
  freed0 : l.freed0 = l0.freed0
  freed1 : l.freed1 = l0.freed1

theorem Sending.refl (l : LinkSt) : Sending l l := ⟨⟨[], by simp⟩, rfl, rfl⟩

theorem sending_pushStages {l0 : LinkSt} (h : Sending l0 (s.link i)) : Sending l0 ((pushStages i s).link i) := by
  unfold pushStages
  extract_lets l l'
  split
  · exact h
  · rw [link_queueDepthChange, State.link_setLink_self]
    obtain ⟨hu, heq⟩ := fill_spec l.backlog.length l
    obtain ⟨⟨sent, hr, hlen⟩, hf0, hf1⟩ := h
    refine ⟨⟨sent, ?_, ?_⟩, ?_, ?_⟩
    · rw [← hr, show l' = _ from heq]
    · rw [← hlen, show l'.unsent = l.unsent from hu]
    · rw [← hf0, show l' = _ from heq]
    · rw [← hf1, show l' = _ from heq]

theorem link_popPacket (i : Nat) (p : Packet) (s : State) : (popPacket i p s).link i =
    let l := { s.link i with waiting := (s.link i).waiting.erase p }
    let q := { p with lseq := l.lseqTx }
    let q := { q with crc := packetCrc q }
    { l with lseqTx := (l.lseqTx + 1) % 65536, replay := l.replay ++ [q],
             sent0 := if vcOf q.ptype = 0 then l.sent0 + packetUnits q else l.sent0,
             sent1 := if vcOf q.ptype = 1 then l.sent1 + packetUnits q else l.sent1 } := by
  have hl : (queueDepthChange (2 + i) (s.link i).depth ({ s.link i with waiting := (s.link i).waiting.erase p } : LinkSt).depth
      (s.setLink i { s.link i with waiting := (s.link i).waiting.erase p })).link i =
      { s.link i with waiting := (s.link i).waiting.erase p } := by
    rw [link_queueDepthChange, State.link_setLink_self]
  rw [popPacket]
  dsimp only
  rw [launch]
  dsimp only
  rw [hl]
  exact State.link_setLink_self _ i _

theorem sending_popPacket {l0 : LinkSt} (hp : p ∈ (s.link i).waiting) (h : Sending l0 (s.link i)) :
    Sending l0 ((popPacket i p s).link i) := by
  rw [link_popPacket]
  dsimp only
  obtain ⟨⟨sent, hr, hlen⟩, hf0, hf1⟩ := h
  refine ⟨⟨sent ++ [_], by rw [hr, List.append_assoc], ?_⟩, hf0, hf1⟩
  have herase := List.length_erase_of_mem hp
  have hpos := List.length_pos_of_mem hp
  simp only [LinkSt.unsent, List.length_append, List.length_cons, List.length_nil] at hlen ⊢
  omega

theorem mem_waiting_of_nextSend (h : nextSend s i = some p) : p ∈ (s.link i).waiting := by
  unfold nextSend at h
  split at h
  · obtain ⟨q, hq, hp⟩ := Option.bind_eq_some_iff.1 h
    split at hp
    · cases hp
      rw [LinkSt.next, Option.or_eq_some_iff] at hq
      rcases hq with hq | ⟨-, hq⟩
      · exact List.mem_of_find?_eq_some hq
      · exact List.mem_of_mem_head? hq
    · cases hp
  · cases h

theorem sending_pumpLink {l0 : LinkSt} (h : Sending l0 (s.link i)) : Sending l0 ((pumpLink i s).link i) := by
  unfold pumpLink
  generalize (s.link i).backlog.length + (s.link i).waiting.length + 1 = n
  induction n generalizing s with
  | zero => exact h
  | succ n ih =>
    unfold pump
    dsimp only
    split
    · exact sending_pushStages h
    next p hp => exact ih (sending_popPacket (mem_waiting_of_nextSend hp) (sending_pushStages h))

/-- What sending leaves of the machine. -/
def State.sendFrame (s t : State) : Prop :=
  t = { s with links := t.links, regs := t.regs, out := t.out, port := t.port, svc := t.svc }

theorem sendFrame_trans (h : s.sendFrame t) (k : t.sendFrame u) : s.sendFrame u := by
  unfold State.sendFrame at h k ⊢
  rw [k, h]

theorem sendFrame_setLink (s : State) (i : Nat) (l : LinkSt) : s.sendFrame (s.setLink i l) := rfl

theorem sendFrame_event (h : EventOnly s t) : s.sendFrame t := by
  unfold State.sendFrame
  rw [h.eq]

theorem sendFrame_noteCodeword (i : Nat) (cw : Codeword) (s : State) : s.sendFrame (noteCodeword i cw s) := by
  unfold State.sendFrame
  rw [noteCodeword_eq]

theorem sendFrame_pushStages (i : Nat) (s : State) : s.sendFrame (pushStages i s) := by
  unfold pushStages
  extract_lets l l'
  split
  · rfl
  · exact sendFrame_trans (sendFrame_setLink s i l') (sendFrame_event (eventOnly_queueDepthChange _ _ _ _))

theorem sendFrame_launch (i : Nat) (p : Packet) (s : State) : s.sendFrame (launch i p s) := rfl

theorem sendFrame_popPacket (i : Nat) (p : Packet) (s : State) : s.sendFrame (popPacket i p s) :=
  sendFrame_trans (sendFrame_trans (sendFrame_setLink s i _) (sendFrame_event (eventOnly_queueDepthChange _ _ _ _)))
    (sendFrame_launch i p _)

theorem sendFrame_pumpLink (i : Nat) (s : State) : s.sendFrame (pumpLink i s) :=
  pumpLink_keeps s.sendFrame (fun t k => sendFrame_trans k (sendFrame_pushStages i t))
    (fun p t k => sendFrame_trans k (sendFrame_popPacket i p t)) rfl

/-! ### ACK and CREDIT (R298, R299) -/

theorem blkLseq_ackBlock {lseq : Nat} (h : lseq < 65536) : blkLseq (ackBlock lseq) = lseq := by
  rw [blkLseq, ackBlock, blkFld_ctrlBlock 0xA1 _ 32 16 (by decide) (by decide)]
  omega

theorem blkLseq_nakBlock {lseq : Nat} (h : lseq < 65536) : blkLseq (nakBlock lseq) = lseq := by
  rw [blkLseq, nakBlock, blkFld_ctrlBlock 0xA2 _ 32 16 (by decide) (by decide)]
  omega

theorem blkCredit_creditBlock (c0 c1 : Nat) : blkCredit (creditBlock c0 c1) = (c0 % 65536, c1 % 65536) := by
  rw [blkCredit, creditBlock, blkFld_ctrlBlock 0xA3 _ 32 16 (by decide) (by decide),
    blkFld_ctrlBlock 0xA3 _ 16 16 (by decide) (by decide)]
  refine Prod.ext ?_ ?_
  · show (c0 % 65536 * 2 ^ 32 + c1 % 65536 * 2 ^ 16) / 2 ^ 32 % 2 ^ 16 = c0 % 65536
    omega
  · show (c0 % 65536 * 2 ^ 32 + c1 % 65536 * 2 ^ 16) / 2 ^ 16 % 2 ^ 16 = c1 % 65536
    omega

/-- The registers that a good codeword and sending may change. -/
def goodRegs (i : Nat) : List Nat := linkA i 0xC :: linkA i 0x14 :: hubQA (2 + i) 4 :: hubQA (2 + i) 8 :: eventRegs

/-- A good codeword and a change of the link's record, and then what the link may send. -/
structure Pumped (i : Nat) (l : LinkSt) (s t : State) : Prop where
  sent : ∃ sent, (t.link i).replay = l.replay ++ sent ∧
    sent.length + (t.link i).waiting.length + (t.link i).backlog.length = (s.link i).waiting.length + (s.link i).backlog.length
  freed0 : (t.link i).freed0 = l.freed0
  freed1 : (t.link i).freed1 = l.freed1
  others : ∀ j, j ≠ i → t.link j = s.link j
  frame : s.sendFrame t
  regs : s.sameRegs t (goodRegs i)

theorem pumped_pumpLink (hgood : cw.uncorr = false) (l : LinkSt) (s : State) (hwait : l.waiting = (s.link i).waiting)
    (hback : l.backlog = (s.link i).backlog) : Pumped i l s (pumpLink i ((noteCodeword i cw s).setLink i l)) := by
  have hwork : LinkWork i s ((noteCodeword i cw s).setLink i l) := (linkWork_noteCodeword (.refl i s) cw).setLink l
  have hsub1 : [linkA i 0xC, linkA i 0x14] ⊆ goodRegs i := by
    intro a
    simp only [goodRegs, List.mem_cons, List.not_mem_nil, or_false]
    tauto
  have hsub2 : depthRegs (2 + i) ⊆ goodRegs i := List.subset_cons_of_subset _ (List.subset_cons_self _ _)
  have hsend : Sending l ((pumpLink i ((noteCodeword i cw s).setLink i l)).link i) :=
    sending_pumpLink (by rw [State.link_setLink_self]; exact .refl l)
  have hframe := sendFrame_trans (sendFrame_trans (sendFrame_noteCodeword i cw s) (sendFrame_setLink _ i l)) (sendFrame_pumpLink i _)
  have hregs := sameRegs_trans (sameRegs_of_regs (sameRegs_mono (regs_noteCodeword_good hgood i s) hsub1) rfl)
    (sameRegs_mono (regs_pumpLink i ((noteCodeword i cw s).setLink i l)) hsub2)
  have hothers := (linkWork_pumpLink hwork).others
  generalize pumpLink i ((noteCodeword i cw s).setLink i l) = t at *
  obtain ⟨⟨sent, hrep, hlen⟩, hf0, hf1⟩ := hsend
  refine ⟨⟨sent, hrep, ?_⟩, hf0, hf1, hothers, hframe, hregs⟩
  rw [LinkSt.unsent, LinkSt.unsent, hwait, hback] at hlen
  omega

theorem pending_of_sendFrame (h : s.sendFrame t) : t.pending = s.pending := by
  unfold State.sendFrame at h
  rw [h]

/-- The link's record when packets are acknowledged. -/
def acked (lseq : Nat) (l : LinkSt) : LinkSt :=
  let keep := l.replay.filter fun p => !decide ((lseq + 65536 - p.lseq) % 65536 < 4096)
  { l with replay := keep, tries := l.tries.filter fun e => keep.any fun p => p.lseq = e.1 }

theorem takeAckBlock_up (h : s.linkUp i = true) (lseq : Nat) :
    takeAckBlock i lseq s = pumpLink i (s.setLink i (acked lseq (s.link i))) := by
  rw [takeAckBlock, h, Bool.not_true, if_neg Bool.false_ne_true]
  rfl

/-- The link's record when units are returned. -/
def credited (c0 c1 : Nat) (l : LinkSt) : LinkSt :=
  { l with freed0 := creditTo 4096 l.freed0 c0, freed1 := creditTo 1024 l.freed1 c1 }

/-- New counts of returned units leave a link's packets. -/
theorem packets_withFreed (l : LinkSt) (f0 f1 : Nat) : ({ l with freed0 := f0, freed1 := f1 } : LinkSt).waiting = l.waiting ∧
    ({ l with freed0 := f0, freed1 := f1 } : LinkSt).backlog = l.backlog ∧
    ({ l with freed0 := f0, freed1 := f1 } : LinkSt).replay = l.replay := ⟨rfl, rfl, rfl⟩

theorem credited_packets (c0 c1 : Nat) (l : LinkSt) : (credited c0 c1 l).waiting = l.waiting ∧
    (credited c0 c1 l).backlog = l.backlog ∧ (credited c0 c1 l).replay = l.replay :=
  packets_withFreed l _ _

theorem takeCredit_eq (i c0 c1 : Nat) (s : State) :
    takeCredit i c0 c1 s = if !s.linkUp i then s else pumpLink i (s.modLink i (credited c0 c1)) := by
  delta takeCredit credited
  exact Eq.refl _

theorem takeCredit_up (h : s.linkUp i = true) (c0 c1 : Nat) :
    takeCredit i c0 c1 s = pumpLink i (s.setLink i (credited c0 c1 (s.link i))) := by
  rw [takeCredit_eq, h, Bool.not_true, if_neg Bool.false_ne_true, State.modLink]

theorem noteCodeword_packets (i : Nat) (cw : Codeword) (s : State) :
    ((noteCodeword i cw s).link i).replay = (s.link i).replay ∧ ((noteCodeword i cw s).link i).waiting = (s.link i).waiting ∧
    ((noteCodeword i cw s).link i).backlog = (s.link i).backlog ∧ ((noteCodeword i cw s).link i).freed0 = (s.link i).freed0 ∧
    ((noteCodeword i cw s).link i).freed1 = (s.link i).freed1 := by
  rw [noteCodeword_link_self]
  exact ⟨rfl, rfl, rfl, rfl, rfl⟩

theorem exec_ack_good {lseq : Nat} (hup : s.linkUp i = true) (hgood : cw.uncorr = false) (hl : lseq < 65536) :
    ∃ l t, l.replay = ((s.link i).replay.filter fun p => !decide ((lseq + 65536 - p.lseq) % 65536 < 4096)) ∧ Pumped i l s t ∧
      exec (.ack i (ackBlock lseq) cw) s = .next t := by
  have hex : exec (.ack i (ackBlock lseq) cw) s =
      answer s (rxBlock i 0xA1 (ackBlock lseq) cw (takeAckBlock i (blkLseq (ackBlock lseq))) s) := rfl
  have htaken : blkTaken 0xA1 (ackBlock lseq) cw = true := blkTaken_ctrlBlock _ _ (by decide) hgood
  rw [rxBlock_taken hup htaken, blkLseq_ackBlock hl, takeAckBlock_up ((linkUp_noteCodeword i i cw s).trans hup)] at hex
  obtain ⟨hrep, hwait, hback, -, -⟩ := noteCodeword_packets i cw s
  have hpump := pumped_pumpLink (i := i) hgood (acked lseq ((noteCodeword i cw s).link i)) s hwait hback
  refine ⟨_, _, ?_, hpump, hex.trans (answer_eq (pending_of_sendFrame hpump.frame))⟩
  rw [acked, hrep]

theorem exec_credit_good (hup : s.linkUp i = true) (hgood : cw.uncorr = false) (c0 c1 : Nat) :
    ∃ l t, l.replay = (s.link i).replay ∧ l.freed0 = creditTo 4096 (s.link i).freed0 (c0 % 65536) ∧
      l.freed1 = creditTo 1024 (s.link i).freed1 (c1 % 65536) ∧ Pumped i l s t ∧
      exec (.credit i (creditBlock c0 c1) cw) s = .next t := by
  have hex : exec (.credit i (creditBlock c0 c1) cw) s = answer s (rxBlock i 0xA3 (creditBlock c0 c1) cw
      (takeCredit i (blkCredit (creditBlock c0 c1)).1 (blkCredit (creditBlock c0 c1)).2) s) := rfl
  have htaken : blkTaken 0xA3 (creditBlock c0 c1) cw = true := blkTaken_ctrlBlock _ _ (by decide) hgood
  rw [rxBlock_taken hup htaken, blkCredit_creditBlock, takeCredit_up ((linkUp_noteCodeword i i cw s).trans hup)] at hex
  obtain ⟨hrep, hwait, hback, hf0, hf1⟩ := noteCodeword_packets i cw s
  obtain ⟨hw, hb, hr⟩ := credited_packets (c0 % 65536) (c1 % 65536) ((noteCodeword i cw s).link i)
  have hpump := pumped_pumpLink (i := i) hgood (credited (c0 % 65536) (c1 % 65536) ((noteCodeword i cw s).link i)) s
    (hw.trans hwait) (hb.trans hback)
  refine ⟨_, _, hr.trans hrep, ?_, ?_, hpump, hex.trans (answer_eq (pending_of_sendFrame hpump.frame))⟩
  · rw [credited, hf0]
  · rw [credited, hf1]

/-- A cumulative count brought up to date. -/
theorem creditTo_spec {units freed c : Nat} (h : units ≤ freed) (hc : c < 65536) :
    (creditTo units freed c - units) % 65536 = c ∧ freed ≤ creditTo units freed c ∧ creditTo units freed c < freed + 65536 := by
  unfold creditTo
  omega

/-! ### NAK (R298, R300) -/

theorem link_resendOne (i : Nat) (p : Packet) (s : State) : (resendOne i p s).link i = LinkSt.tried p (s.link i) := by
  have hl : (resendOne i p s).links = (s.modLink i (LinkSt.tried p)).links := rfl
  rw [link_congr hl, State.link_modLink_self]

/-- Packets sent again: each leaves, is counted, and of the link's record its tries alone change. -/
structure Resent (i : Nat) (again : List Packet) (s t : State) : Prop where
  out : t.out = (again.map fun p => Out.packet i p).reverse ++ s.out
  link : t.link i = { s.link i with tries := (t.link i).tries }
  tries : ∀ n, SMap.get (fun _ => 0) (t.link i).tries n =
    SMap.get (fun _ => 0) (s.link i).tries n + (again.filter fun p => p.lseq = n).length
  count : t.regFld (linkA i 8) 16 16 = min (s.regFld (linkA i 8) 16 16 + again.length) 0xFFFF
  lost : t.regFld (linkA i 8) 0 16 = s.regFld (linkA i 8) 0 16
  frame : t = { s with links := t.links, regs := t.regs, out := t.out }
  regs : s.sameRegs t [linkA i 4, linkA i 8]

theorem regFld_lt (s : State) (a lo w : Nat) : s.regFld a lo w < 2 ^ w := Nat.mod_lt _ (Nat.two_pow_pos w)

theorem Resent.nil (i : Nat) (s : State) : Resent i [] s s where
  out := rfl
  link := rfl
  tries _ := rfl
  count := by
    have := regFld_lt s (linkA i 8) 16 16
    rw [List.length_nil, Nat.add_zero]
    omega
  lost := rfl
  frame := rfl
  regs := sameRegs_refl s _

/-- What resending leaves of the machine. -/
def State.resendFrame (s t : State) : Prop := t = { s with links := t.links, regs := t.regs, out := t.out }

theorem resendFrame_setReg (h : s.resendFrame t) (a : Nat) (v : BitVec 32) : s.resendFrame (t.setReg a v) := by
  unfold State.resendFrame at h ⊢
  rw [h]
  rfl

theorem resendFrame_resendOne (i : Nat) (p : Packet) (s : State) : s.resendFrame (resendOne i p s) := by
  unfold resendOne State.addCnt State.setBit
  have h : s.resendFrame ((s.modLink i (LinkSt.tried p)).send (.packet i p)) := rfl
  exact resendFrame_setReg (resendFrame_setReg h _ _) _ _

/-- A packet tried again and sent leaves the registers. -/
theorem reg_sentAgain (i : Nat) (p : Packet) (s : State) (a : Nat) :
    ((s.modLink i (LinkSt.tried p)).send (.packet i p)).reg a = s.reg a := State.reg_congr rfl a

theorem resent_one (i : Nat) (p : Packet) (s : State) : Resent i [p] s (resendOne i p s) where
  out := by
    unfold resendOne State.addCnt
    rw [State.setBit_out, State.setFld_out]
    rfl
  link := by
    rw [link_resendOne]
    rfl
  tries n := by
    rw [link_resendOne, LinkSt.tried]
    dsimp only
    rw [SMap.get_set]
    by_cases h : n = p.lseq
    · subst h
      simp
    · simp [h, Ne.symm h]
  count := by
    rw [resendOne, regFld_of_reg (State.reg_setBit_other _ (linkA_ne i (by decide)) _), regFld_addCnt_self _ _ _ _ _ (by decide),
      regFld_of_reg (reg_sentAgain i p s _)]
    norm_num
  lost := by
    rw [resendOne, regFld_of_reg (State.reg_setBit_other _ (linkA_ne i (by decide)) _)]
    refine State.regFld_congr fun k _ hk => ?_
    rw [State.addCnt, State.regBit_setFld _ _ _ _ _ _ _ (by decide), if_neg (by omega)]
    exact regBit_of_reg (reg_sentAgain i p s _) k
  frame := resendFrame_resendOne i p s
  regs := sameRegs_setBit (sameRegs_addCnt (sameRegs_of_regs (sameRegs_refl s _) rfl) _ _ _ (by simp)) _ (by simp)

theorem Resent.trans {l m : List Packet} (h : Resent i l s t) (k : Resent i m t u) : Resent i (l ++ m) s u where
  out := by rw [k.out, h.out, List.map_append, List.reverse_append, List.append_assoc]
  link := by rw [k.link, h.link]
  tries n := by rw [k.tries, h.tries, List.filter_append, List.length_append, Nat.add_assoc]
  count := by
    rw [k.count, h.count, List.length_append]
    omega
  lost := k.lost.trans h.lost
  frame := by rw [k.frame, h.frame]
  regs := sameRegs_trans h.regs k.regs

theorem resent_resend (i : Nat) (l : List Packet) (s : State) : Resent i l s (resend i l s) := by
  rw [resend_eq]
  induction l generalizing s with
  | nil => exact .nil i s
  | cons p l ih => exact (resent_one i p s).trans (ih (resendOne i p s))

/-- Packets sent again set REPLAY. -/
theorem replayFlag_resend {l : List Packet} (h : l ≠ []) (s : State) : (resend i l s).regBit (linkA i 4) 2 = true := by
  obtain ⟨p, l, rfl⟩ := List.exists_cons_of_ne_nil h
  rw [resend_eq, forEach_cons, ← resend_eq]
  refine linkFlag_resend l ?_
  rw [resendOne, State.regBit_setBit _ _ _ _ _ (by decide)]
  simp

theorem exec_nak_good {lseq : Nat} (hup : s.linkUp i = true) (hswap : (s.link i).swap = none) (hgood : cw.uncorr = false)
    (hl : lseq < 65536) : exec (.nak i (nakBlock lseq) cw) s = answer s (resend i
      ((s.link i).replay.filter fun p => decide ((p.lseq + 65536 - lseq % 65536) % 65536 < 4096)) (noteCodeword i cw s)) := by
  have hex : exec (.nak i (nakBlock lseq) cw) s =
      answer s (rxBlock i 0xA2 (nakBlock lseq) cw (takeNak i (blkLseq (nakBlock lseq))) s) := rfl
  have hrep : ((noteCodeword i cw s).link i).replay = (s.link i).replay := by rw [noteCodeword_link_self]
  have hopen : (noteCodeword i cw s).linkOpen i = true := by
    rw [linkOpen_noteCodeword, State.linkOpen, hswap]
    rfl
  have htaken : blkTaken 0xA2 (nakBlock lseq) cw = true := blkTaken_ctrlBlock _ _ (by decide) hgood
  rw [hex, rxBlock_taken hup htaken, blkLseq_nakBlock hl, takeNak, linkUp_noteCodeword, hup,
    hopen, hrep]
  rfl

/-- Settles O25: an ACK and a CREDIT change the link's record and let it send; a NAK sends again. -/
theorem acknowledgementsCreditsAndReplays : Obligations.AcknowledgementsCreditsAndReplays := by
  refine ⟨fun s i lseq cw hup hgood hl => ?_, fun s i c0 c1 cw hup hgood h0 h1 => ?_,
    fun s i lseq cw again hup hswap hgood hl hag hne => ?_⟩
  · obtain ⟨l, t, hrep, hpump, hex⟩ := exec_ack_good hup hgood hl
    rw [← hrep]
    exact ⟨t, hex, hpump.sent, hpump.others, hpump.frame, hpump.regs⟩
  · obtain ⟨l, t, hrep, hf0, hf1, hpump, hex⟩ := exec_credit_good hup hgood c0 c1
    obtain ⟨h00, h01, h02⟩ := creditTo_spec h0 (Nat.mod_lt c0 (by decide : 0 < 65536))
    obtain ⟨h10, h11, h12⟩ := creditTo_spec h1 (Nat.mod_lt c1 (by decide : 0 < 65536))
    rw [← hrep]
    rw [← hf0, ← hpump.freed0] at h00 h01 h02
    rw [← hf1, ← hpump.freed1] at h10 h11 h12
    exact ⟨t, hex, h00, h01, h02, h10, h11, h12, hpump.sent, hpump.others, hpump.frame, hpump.regs⟩
  · have hre := resent_resend i again (noteCodeword i cw s)
    have hflag := replayFlag_resend (i := i) hne (noteCodeword i cw s)
    have hlw := linkWork_resend (linkWork_noteCodeword (.refl i s) cw) again
    have hex := exec_nak_good hup hswap hgood hl
    rw [← hag] at hex
    have h8 : (noteCodeword i cw s).reg (linkA i 8) = s.reg (linkA i 8) :=
      regs_noteCodeword_good hgood i s _ (by simp [linkA_ne i])
    have htries : ((noteCodeword i cw s).link i).tries = (s.link i).tries := by rw [noteCodeword_link_self]
    obtain ⟨hout, hlink, htr, hcount, hlost, hframe, hregs⟩ := hre
    rw [out_noteCodeword] at hout
    rw [regFld_of_reg h8] at hcount hlost
    refine ⟨_, hex.trans (answer_eq hlw.pending), hout, hlink, fun n => by rw [htr, htries], hflag, hcount, hlost, hlw.others, ?_, hregs⟩
    rw [hframe, noteCodeword_eq]

end Sys2Proof.Machine
end

section
/-! PROOFS. Probes (R45, R290, R297), and how links train, retrain and end (R294, R295, R300, R440). -/

namespace Sys2Proof.Machine

variable {s t u : State} {i j : Nat} {cw : Codeword}

/-- A block that is taken, on a link that has a signal. -/
theorem rxBlock_taken_alive (h1 : 1 ≤ s.linkState i) (h3 : s.linkState i ≤ 3) {type : Nat} {w : BitVec 64}
    (hw : blkTaken type w cw = true) (take : State → State) : rxBlock i type w cw take s = take (noteCodeword i cw s) := by
  rw [rxBlock, if_pos ⟨h1, h3⟩]
  exact if_pos hw

/-! ### Probes -/

theorem blkTime_probeBlock {ts : Nat} (h : ts < 2 ^ 32) : blkTime (probeBlock ts) = ts := by
  rw [blkTime, probeBlock, blkFld_ctrlBlock 0xA4 _ 16 32 (by decide) (by decide)]
  omega

theorem blkTime_echoBlock (ts around : Nat) : blkTime (echoBlock ts around) = ts % 2 ^ 32 := by
  rw [blkTime, echoBlock, blkFld_ctrlBlock 0xA5 _ 16 32 (by decide) (by decide)]
  omega

theorem blkAround_echoBlock {around : Nat} (h : around < 65536) (ts : Nat) : blkAround (echoBlock ts around) = around := by
  have hf := blkFld_ctrlBlock 0xA5 (ts % 2 ^ 32 * 2 ^ 16 + around % 65536) 0 16 (by decide) (by decide)
  rw [blkAround, echoBlock, hf]
  omega

/-- The probe that is out has come back, and the delay is recorded. -/
def delayKnown (i d : Nat) (s : State) : State :=
  (s.modLink i fun l => { l with probe := none }).setReg (linkA i 0x10) (BitVec.ofNat 32 d)

theorem takeEcho_delay {t0 around d : Nat} (hp : (s.link i).probe = some t0) (hd : d ≤ 65535) :
    takeEcho i (t0 % 2 ^ 32) around (t0 + around + 2 * d) s =
      if 1760 < d then raise0 (linkA i 4) 6 stOK i ((delayKnown i d s).setBit (linkA i 4) 6) else delayKnown i d s := by
  have hhalf : (t0 + around + 2 * d - t0 - around) / 2 = d := by omega
  rw [takeEcho, hp]
  dsimp only
  rw [if_neg (by omega), hhalf, Nat.min_eq_left hd]
  rfl

theorem exec_probeEcho {t0 around d : Nat} (h1 : 1 ≤ s.linkState i) (h3 : s.linkState i ≤ 3) (hgood : cw.uncorr = false)
    (ha : around < 65536) (hp : (s.link i).probe = some t0) (hd : d ≤ 65535) :
    exec (.probeEcho i (echoBlock t0 around) cw (t0 + around + 2 * d)) s = answer s
      (if 1760 < d then raise0 (linkA i 4) 6 stOK i ((delayKnown i d (noteCodeword i cw s)).setBit (linkA i 4) 6)
       else delayKnown i d (noteCodeword i cw s)) := by
  have hex : exec (.probeEcho i (echoBlock t0 around) cw (t0 + around + 2 * d)) s = answer s (rxBlock i 0xA5 (echoBlock t0 around) cw
      (takeEcho i (blkTime (echoBlock t0 around)) (blkAround (echoBlock t0 around)) (t0 + around + 2 * d)) s) := rfl
  have htaken : blkTaken 0xA5 (echoBlock t0 around) cw = true := blkTaken_ctrlBlock _ _ (by decide) hgood
  have hp' : ((noteCodeword i cw s).link i).probe = some t0 := by
    rw [noteCodeword_link_self]
    exact hp
  rw [hex, rxBlock_taken_alive h1 h3 htaken, blkTime_echoBlock, blkAround_echoBlock ha, takeEcho_delay hp' hd]

theorem pending_delayKnown (i d : Nat) (s : State) : (delayKnown i d s).pending = s.pending := rfl

theorem link_modLink_other (h : j ≠ i) (s : State) (f : LinkSt → LinkSt) : (s.modLink i f).link j = s.link j :=
  (State.link_modLink s i j f).trans (if_neg h)

theorem link_delayKnown (i d : Nat) (s : State) : (delayKnown i d s).link i = { s.link i with probe := none } := by
  have hl : (delayKnown i d s).links = (s.modLink i fun l => { l with probe := none }).links := State.setReg_links _ _ _
  rw [link_congr hl, State.link_modLink_self]

theorem links_delayKnown_other (h : j ≠ i) (d : Nat) (s : State) : (delayKnown i d s).link j = s.link j := by
  have hl : (delayKnown i d s).links = (s.modLink i fun l => { l with probe := none }).links := State.setReg_links _ _ _
  rw [link_congr hl, link_modLink_other h]

theorem reg_delayKnown (i d : Nat) (s : State) : (delayKnown i d s).reg (linkA i 0x10) = BitVec.ofNat 32 d :=
  State.reg_setReg_self _ _ _

theorem regs_delayKnown (i d : Nat) (s : State) : s.sameRegs (delayKnown i d s) [linkA i 0x10] :=
  sameRegs_setReg (sameRegs_of_regs (sameRegs_refl s _) (State.modLink_regs _ _ _)) _ (List.mem_singleton_self _)

theorem delayKnown_eq (i d : Nat) (s : State) :
    delayKnown i d s = { s with links := (delayKnown i d s).links, regs := (delayKnown i d s).regs } := rfl

/-- A delay above 220 ns is flagged and told. -/
def delayOver (i d : Nat) (s : State) : State := raise0 (linkA i 4) 6 stOK i ((delayKnown i d s).setBit (linkA i 4) 6)

theorem regs_delayOver (i d : Nat) (s : State) : s.sameRegs (delayOver i d s) (linkA i 0x10 :: linkA i 4 :: eventRegs) := by
  refine sameRegs_trans (sameRegs_setBit (a := linkA i 4) (sameRegs_mono (regs_delayKnown i d s) ?_) 6 (by simp)) ?_
  · exact List.cons_subset_cons _ (List.nil_subset _)
  · exact sameRegs_mono (regs_pushEvent _ _)
      (List.subset_cons_of_subset _ (List.subset_cons_of_subset _ (List.Subset.refl eventRegs)))

theorem linkRegs_not_eventRegs (hi : i < 32) {x : Nat} (hx : x < 0x40) : linkA i x ∉ eventRegs := by
  simp only [eventRegs, List.mem_cons, List.not_mem_nil, or_false, linkA, hubQA, hubA, dpSticky]
  omega

theorem reg_delayOver (hi : i < 32) {x : Nat} (hx : x < 0x40) (d : Nat) (s : State) :
    (delayOver i d s).reg (linkA i x) = ((delayKnown i d s).setBit (linkA i 4) 6).reg (linkA i x) :=
  regs_pushEvent _ _ _ (linkRegs_not_eventRegs hi hx)

theorem delayOver_eq (i d : Nat) (s : State) : ∃ t, delayOver i d s = t ∧
    t = { s with links := t.links, regs := t.regs, port := t.port, svc := t.svc, out := t.out } := by
  have hset : ∀ u : State, ((delayKnown i d s).setBit (linkA i 4) 6).sendFrame u → s.sendFrame u := fun u k =>
    sendFrame_trans (show s.sendFrame ((delayKnown i d s).setBit (linkA i 4) 6) from rfl) k
  exact ⟨_, rfl, hset _ (sendFrame_event (eventOnly_pushEvent (.refl _) _))⟩

/-- Settles O26: each of the three blocks is taken on a link with a signal, and half the round trip is exact. -/
theorem probesMeasureTheDelay : Obligations.ProbesMeasureTheDelay := by
  refine ⟨fun s i t0 h1 h3 hopen => ?_, fun s i ts around cw h1 h3 hopen hgood hts => ?_,
    fun s i t0 around d cw h1 h3 hgood ha hp hd => ?_, fun s i t0 around d cw h1 h3 hgood ha hp hlo hd hi => ?_⟩
  · have hset : (s.modLink i fun l => { l with probe := some t0 }).linkOpen i = true := by
      rw [State.linkOpen, State.link_modLink_self]
      exact hopen
    have hex : exec (.linkDelayProbe i t0) s = answer s (if s.linkAlive i && s.linkOpen i then
        sendBlock i (probeBlock t0) (s.modLink i fun l => { l with probe := some t0 }) else s) := rfl
    rw [hex, linkAlive_of_linkState h1 h3, hopen, Bool.and_self, if_pos rfl, sendBlock_open hset]
    refine ⟨_, answer_eq rfl, ?_, fun j hj => ?_, rfl⟩
    · exact (link_congr (s := s.modLink i fun l => { l with probe := some t0 }) rfl i).trans (State.link_modLink_self s i _)
    · exact (link_congr (s := s.modLink i fun l => { l with probe := some t0 }) rfl j).trans (link_modLink_other hj s _)
  · have hex : exec (.probe i (probeBlock ts) cw around) s = answer s (rxBlock i 0xA4 (probeBlock ts) cw
        (sendBlock i (echoBlock (blkTime (probeBlock ts)) around)) s) := rfl
    have htaken : blkTaken 0xA4 (probeBlock ts) cw = true := blkTaken_ctrlBlock _ _ (by decide) hgood
    rw [hex, rxBlock_taken_alive h1 h3 htaken, blkTime_probeBlock hts, sendBlock_open ((linkOpen_noteCodeword i cw s).trans hopen),
      out_noteCodeword]
    exact answer_eq (pending_noteCodeword i cw s)
  · have hex := exec_probeEcho h1 h3 hgood ha hp (by omega : d ≤ 65535)
    rw [if_neg (by omega)] at hex
    refine ⟨_, hex.trans (answer_eq ((pending_delayKnown i d _).trans (pending_noteCodeword i cw s))), reg_delayKnown i d _,
      link_delayKnown i d _, fun j hj => (links_delayKnown_other hj d _).trans (noteCodeword_link_other i cw s hj), ?_,
      regs_delayKnown i d _⟩
    rw [delayKnown_eq, noteCodeword_eq]
  · have hex := exec_probeEcho h1 h3 hgood ha hp hd
    rw [if_pos hlo] at hex
    change _ = answer s (delayOver i d (noteCodeword i cw s)) at hex
    have hbit : (delayOver i d (noteCodeword i cw s)).regBit (linkA i 4) 6 = true := by
      rw [regBit_of_reg (reg_delayOver hi (by decide) d _), State.regBit_setBit _ _ _ _ _ (by decide)]
      simp
    have hreg : (delayOver i d (noteCodeword i cw s)).reg (linkA i 0x10) = BitVec.ofNat 32 d := by
      rw [reg_delayOver hi (by decide) d, State.reg_setBit_other _ (linkA_ne i (by decide)), reg_delayKnown]
    have hevent := pushEvent_joins (event0 ((delayKnown i d (noteCodeword i cw s)).setBit (linkA i 4) 6).fn (linkA i 4) 6 stOK i)
      ((delayKnown i d (noteCodeword i cw s)).setBit (linkA i 4) 6)
    have hport : ((delayKnown i d (noteCodeword i cw s)).setBit (linkA i 4) 6).port = s.port := by
      rw [State.setBit_port, delayKnown_eq, noteCodeword_eq]
    rw [hport] at hevent
    have hframe : s.sendFrame (delayOver i d (noteCodeword i cw s)) := by
      obtain ⟨_, rfl, h⟩ := delayOver_eq i d (noteCodeword i cw s)
      exact sendFrame_trans (sendFrame_noteCodeword i cw s) h
    have hregs := regs_delayOver i d (noteCodeword i cw s)
    refine ⟨_, hex.trans (answer_eq (pending_of_sendFrame hframe)), hreg, hbit, fun hroom => ?_, hframe, hregs⟩
    obtain ⟨-, x, hlast, hx⟩ := hevent hroom
    refine ⟨x, hlast, ?_, ?_, ?_⟩
    · rw [hx, event0]
    · rw [hx, event0]
    · rw [hx, event0]

/-! ### The state of a link and its reason -/

theorem regFld_setLinkState_reason {reason : Nat} (hi : i < 32) (hr : reason < 16) (st : Nat) (s : State) :
    (setLinkState i st reason s).regFld (linkA i 0) 28 4 = reason := by
  have hfld : ((s.setFld (linkA i 0) 0 3 st).setFld (linkA i 0) 28 4 reason).regFld (linkA i 0) 28 4 = reason := by
    rw [State.regFld_setFld_self _ _ _ _ _ (by omega), Nat.mod_eq_of_lt (show reason < 2 ^ 4 from hr)]
  unfold setLinkState
  extract_lets was s1 now
  split
  · exact hfld
  · exact (regFld_of_reg (regs_capacityChanged _ s1 _ (status_not_capRegs hi)) 28 4).trans hfld

/-- A link that was not UP and is not UP changes no capacity. -/
theorem setLinkState_down {st : Nat} (hup : s.linkUp i = false) (hst : st ≠ 2) (reason : Nat) :
    setLinkState i st reason s = (s.setFld (linkA i 0) 0 3 st).setFld (linkA i 0) 28 4 reason := by
  unfold setLinkState
  dsimp only
  rw [if_pos (.inl (by rw [hup, decide_eq_false hst]))]

theorem linkUp_false_of {n : Nat} (h : s.linkState i = n) (hn : n ≠ 2) : s.linkUp i = false := by
  rw [State.linkUp, h, decide_eq_false hn]

/-- The hub registers below the links that a change of a link's state leaves alone. -/
theorem reg_setLinkState_hub {off : Nat} (h : off = 0x10 ∨ off = 0x8000) (st reason : Nat) (s : State) :
    (setLinkState i st reason s).reg (hubA off) = s.reg (hubA off) := by
  refine regs_setLinkState i st reason s _ ?_
  simp only [eventRegs, List.mem_cons, List.not_mem_nil, or_false, linkA, hubQA, hubA, fxCapSum, dpSticky]
  omega

/-! ### TRAIN (R295) -/

/-- The fields of a TRAIN block, each out of their sum. -/
theorem trainFields {a b c d : Nat} (ha : a < 2 ^ 12) (hb : b < 2 ^ 8) (hc : c < 2 ^ 14) (hd : d < 2 ^ 5) :
    (a * 2 ^ 36 + b * 2 ^ 28 + c * 2 ^ 14 + d * 2 ^ 9) / 2 ^ 36 % 2 ^ 12 = a ∧
    (a * 2 ^ 36 + b * 2 ^ 28 + c * 2 ^ 14 + d * 2 ^ 9) / 2 ^ 28 % 2 ^ 8 = b ∧
    (a * 2 ^ 36 + b * 2 ^ 28 + c * 2 ^ 14 + d * 2 ^ 9) / 2 ^ 14 % 2 ^ 14 = c ∧
    (a * 2 ^ 36 + b * 2 ^ 28 + c * 2 ^ 14 + d * 2 ^ 9) / 2 ^ 9 % 2 ^ 5 = d := by
  refine ⟨?_, ?_, ?_, ?_⟩
  · omega
  · omega
  · omega
  · omega

theorem blkPeer_trainWord {part : Nat} (step mid lnk : Nat) (hp : part < 4096) : blkPeer (trainWord part step mid lnk) =
    { part := part, step := step % 256, mid := mid % 16384, lnk := lnk % 32 } := by
  have hfld := fun lo n h => blkFld_ctrlBlock 0xA7
    (part % 4096 * 2 ^ 36 + step % 256 * 2 ^ 28 + mid % 16384 * 2 ^ 14 + lnk % 32 * 2 ^ 9) lo n (by decide) h
  obtain ⟨h36, h28, h14, h9⟩ := trainFields (b := step % 256) (c := mid % 16384) (d := lnk % 32) (show part < 2 ^ 12 from hp)
    (Nat.mod_lt _ (by decide)) (Nat.mod_lt _ (by decide)) (Nat.mod_lt _ (by decide))
  rw [Nat.mod_eq_of_lt hp] at hfld
  rw [blkPeer, trainWord, Nat.mod_eq_of_lt hp, hfld 36 12 (by decide), hfld 28 8 (by decide), hfld 14 14 (by decide),
    hfld 9 5 (by decide), h36, h28, h14, h9]

/-- A TRAIN block's identity is recorded in the link's status. -/
def peerNoted (i : Nat) (p : PeerId) (s : State) : State := (s.setFld (linkA i 0) 14 14 p.mid).setFld (linkA i 0) 9 5 p.lnk

theorem reg_peerNoted_other {a : Nat} (h : a ≠ linkA i 0) (p : PeerId) (s : State) : (peerNoted i p s).reg a = s.reg a := by
  rw [peerNoted, State.reg_setFld_other _ h, State.reg_setFld_other _ h]

theorem regs_peerNoted (i : Nat) (p : PeerId) (s : State) : s.sameRegs (peerNoted i p s) [linkA i 0] := fun _ ha =>
  reg_peerNoted_other (List.ne_of_not_mem_cons ha) p s

theorem flds_peerNoted (i : Nat) (p : PeerId) (s : State) : (peerNoted i p s).regFld (linkA i 0) 14 14 = p.mid % 2 ^ 14 ∧
    (peerNoted i p s).regFld (linkA i 0) 9 5 = p.lnk % 2 ^ 5 ∧ (peerNoted i p s).linkState i = s.linkState i := by
  have hout : ∀ k, k < 9 ∨ 14 ≤ k → (peerNoted i p s).regBit (linkA i 0) k = (s.setFld (linkA i 0) 14 14 p.mid).regBit (linkA i 0) k :=
    fun k hk => by rw [peerNoted, State.regBit_setFld _ _ _ _ _ _ _ (by decide), if_neg (by omega)]
  refine ⟨?_, State.regFld_setFld_self _ _ _ _ _ (by decide), State.regFld_congr fun k _ hk => ?_⟩
  · rw [State.regFld_congr fun k hk _ => hout k (.inr hk), State.regFld_setFld_self _ _ _ _ _ (by decide)]
  · rw [hout k (by omega), State.regBit_setFld _ _ _ _ _ _ _ (by decide), if_neg (by omega)]

/-- The judgement of a peer turns on the image and on the module's own ID. -/
theorem peerRefusal_congr (hi : t.image = s.image) (hm : t.moduleId = s.moduleId) (p : PeerId) :
    peerRefusal t i p = peerRefusal s i p := by
  unfold peerRefusal
  rw [hi, hm]

theorem linkA_ne_hubA {off : Nat} (h : off < 0x8400) (i x : Nat) : hubA off ≠ linkA i x := by
  simp only [linkA, hubA]
  omega

theorem peerRefusal_peerNoted (p q : PeerId) (cw : Codeword) (s : State) :
    peerRefusal (peerNoted i q (noteCodeword i cw s)) i p = peerRefusal s i p := by
  refine peerRefusal_congr ?_ (regFld_of_reg ?_ 0 14) p
  · show (noteCodeword i cw s).image = s.image
    rw [noteCodeword_eq]
    rfl
  · exact (reg_peerNoted_other (linkA_ne_hubA (by decide) i 0) q _).trans (reg_noteCodeword_hub i cw s (by decide))

theorem exec_train {part step mid lnk : Nat} (h1 : s.linkState i = 1) (hgood : cw.uncorr = false) :
    exec (.train i (trainWord part step mid lnk) cw) s =
      answer s (takeTrain i (blkPeer (trainWord part step mid lnk)) (noteCodeword i cw s)) := by
  have hex : exec (.train i (trainWord part step mid lnk) cw) s = answer s (rxBlock i 0xA7 (trainWord part step mid lnk) cw
      (takeTrain i (blkPeer (trainWord part step mid lnk))) s) := rfl
  have htaken : blkTaken 0xA7 (trainWord part step mid lnk) cw = true := blkTaken_ctrlBlock _ _ (by decide) hgood
  rw [hex, rxBlock_taken_alive (by omega) (by omega) htaken]

theorem takeTrain_peer {p : PeerId} (h1 : s.linkState i = 1) (hok : peerRefusal (peerNoted i p s) i p = none) :
    takeTrain i p s = (peerNoted i p s).modLink i fun l => { l with peer := some p } := by
  unfold takeTrain
  dsimp only
  rw [if_neg (by omega), show (s.setFld (linkA i 0) 14 14 p.mid).setFld (linkA i 0) 9 5 p.lnk = peerNoted i p s from rfl, hok]

/-- A peer of another PART ends the training. -/
theorem takeTrain_part {p : PeerId} (h1 : s.linkState i = 1) (hp : p.part ≠ 0xD13) :
    takeTrain i p s = setLinkState i 4 3 ((peerNoted i p s).modLink i fun l => { l with peer := none }) := by
  have hno : peerRefusal (peerNoted i p s) i p = some (3, none) := if_pos hp
  unfold takeTrain
  dsimp only
  rw [if_neg (by omega), show (s.setFld (linkA i 0) 14 14 p.mid).setFld (linkA i 0) 9 5 p.lnk = peerNoted i p s from rfl, hno]
  exact if_pos h1

theorem linkWork_peerNoted (h : LinkWork i s t) (j : Nat) (p : PeerId) : LinkWork i s (peerNoted j p t) :=
  (h.setFld _ _ _ _).setFld _ _ _ _

/-! ### Training that ends, failure, retraining and the cable (R294, R300, R440) -/

theorem trainingDone_up (hst : s.linkState i = 1 ∨ s.linkState i = 3) (hpeer : (s.link i).peer ≠ none)
    (hcable : (s.link i).cableOff = false) : trainingDone i .up s =
      pumpLink i (resend i ((setLinkState i 2 0 s).link i).replay (setLinkState i 2 0 s)) := by
  have hnone : ¬ ((s.link i).peer.isNone = true ∨ (s.link i).cableOff = true) := by
    simp [hpeer, hcable]
  unfold trainingDone
  dsimp only
  rw [if_neg (by omega), if_neg hnone]

/-- Packets to send again and what then goes leave the link's state. -/
theorem linkState_resumed (hi : i < 32) (l : List Packet) (s : State) : (pumpLink i (resend i l s)).linkState i = s.linkState i :=
  regFld_of_reg ((regs_pumpLink i _ _ (linkReg_not_depthRegs hi (by decide))).trans
    (reg_resend i l s (linkA_ne i (by decide)) (linkA_ne i (by decide)))) 0 3

theorem linkFails_effect (hi : i < 32) (h : s.linkUp i = true) {c : LinkFault} (hc : c = .resendLimit → resentOften (s.link i) = true) :
    (linkFails i c s).linkState i = 3 ∧ (linkFails i c s).regBit (linkA i 4) 4 = true ∧
    (linkFails i c s).link i = { s.link i with peer := none, probe := none, swap := none, tries := [] } ∧
    trainBlock s i ∈ (linkFails i c s).out ∧ LinkWork i s (linkFails i c s) := by
  have hgo : ¬ ((!s.linkUp i) = true ∨ (c = .resendLimit ∧ (!resentOften (s.link i)) = true)) := by
    rintro (hno | ⟨hr, hno⟩)
    · rw [h] at hno
      cases hno
    · rw [hc hr] at hno
      cases hno
  have hwork : LinkWork i s (setLinkState i 3 0 (s.setBit (linkA i 4) 4)) := linkWork_setLinkState ((LinkWork.refl i s).setBit _ _) _ _ _
  have hstate := linkState_setLinkState hi (by decide : 3 < 8) 0 (s.setBit (linkA i 4) 4)
  have hreg := reg_setLinkState hi (a := linkA i 4) (by simp) 3 0 (s.setBit (linkA i 4) 4)
  have hlinks := links_setLinkState i 3 0 (s.setBit (linkA i 4) 4)
  have hident : (setLinkState i 3 0 (s.setBit (linkA i 4) 4)).reg secIdent = s.reg secIdent :=
    (reg_setLinkState_hub (.inl rfl) 3 0 _).trans (State.reg_setBit_other s (linkA_ne_hubA (by decide) i 4) 4)
  have hid : (setLinkState i 3 0 (s.setBit (linkA i 4) 4)).reg clId = s.reg clId :=
    (reg_setLinkState_hub (.inr rfl) 3 0 _).trans (State.reg_setBit_other s (linkA_ne_hubA (by decide) i 4) 4)
  unfold linkFails
  rw [if_neg hgo]
  dsimp only
  generalize setLinkState i 3 0 (s.setBit (linkA i 4) 4) = v at *
  have hcut : ∀ f : LinkSt → LinkSt, trainBlock (v.modLink i f) i = trainBlock s i := fun f => by
    rw [trainBlock, trainBlock, State.moduleId, State.moduleId, regFld_of_reg (State.reg_congr (State.modLink_regs v i f) _),
      regFld_of_reg (State.reg_congr (State.modLink_regs v i f) _), regFld_of_reg (State.reg_congr (State.modLink_regs v i f) _),
      regFld_of_reg hident, regFld_of_reg hident, regFld_of_reg hid]
  rw [hcut]
  refine ⟨hstate, ?_, ?_, List.mem_cons_self, (hwork.modLink _).send _⟩
  · refine (regBit_of_reg hreg 4).trans ?_
    rw [State.regBit_setBit _ _ _ _ _ (by decide)]
    simp
  · refine (link_congr (s := v.modLink i fun l => { l with peer := none, probe := none, swap := none, tries := [] }) rfl i).trans ?_
    rw [State.link_modLink_self, link_congr hlinks]
    rfl

/-- Settles O28: each command by the step of the link's state that it makes. -/
theorem linksTrainRetrainAndEnd : Obligations.LinksTrainRetrainAndEnd := by
  refine ⟨fun s i part step mid lnk cw h1 hp hs hm hl hgood hok => ?_, fun s i part step mid lnk cw hi h1 hp hpart hgood => ?_,
    fun s i hi hst hpeer hcable => ?_, fun s i hi h1 => ?_, fun s i c hi hup hc => ?_, fun s i hi h3 => ?_,
    fun s i hlo hi h1 h3 => ?_⟩
  · have hex := exec_train (part := part) (step := step) (mid := mid) (lnk := lnk) h1 hgood
    rw [blkPeer_trainWord step mid lnk hp, Nat.mod_eq_of_lt hs, Nat.mod_eq_of_lt (show mid < 16384 from hm), Nat.mod_eq_of_lt hl,
      takeTrain_peer ((linkState_noteCodeword_any i i cw s).trans h1)
      ((peerRefusal_peerNoted _ _ cw s).trans hok)] at hex
    generalize hpid : ({ part := part, step := step, mid := mid, lnk := lnk } : PeerId) = p at *
    obtain ⟨hmid, hlnk, hstate⟩ := flds_peerNoted i p (noteCodeword i cw s)
    have hlink := State.link_modLink_self (peerNoted i p (noteCodeword i cw s)) i fun l => { l with peer := some p }
    have hregs : (noteCodeword i cw s).sameRegs ((peerNoted i p (noteCodeword i cw s)).modLink i fun l => { l with peer := some p })
        [linkA i 0] := sameRegs_of_regs (regs_peerNoted i p (noteCodeword i cw s)) (State.modLink_regs _ _ _)
    have hwork : LinkWork i s ((peerNoted i p (noteCodeword i cw s)).modLink i fun l => { l with peer := some p }) :=
      (linkWork_peerNoted (linkWork_noteCodeword (.refl i s) cw) i p).modLink _
    refine ⟨_, hex.trans (answer_eq hwork.pending), by rw [hlink], ?_, ?_, ?_, ?_, hregs, hwork.others⟩
    · rw [regFld_of_reg (State.reg_congr (State.modLink_regs _ _ _) _), hmid, ← hpid]
      exact Nat.mod_eq_of_lt hm
    · rw [regFld_of_reg (State.reg_congr (State.modLink_regs _ _ _) _), hlnk, ← hpid]
      exact Nat.mod_eq_of_lt hl
    · rw [State.linkState, regFld_of_reg (State.reg_congr (State.modLink_regs _ _ _) _)]
      exact hstate.trans ((linkState_noteCodeword_any i i cw s).trans h1)
    · have hframe : peerNoted i p (noteCodeword i cw s) =
          { noteCodeword i cw s with regs := (peerNoted i p (noteCodeword i cw s)).regs } := rfl
      rw [hframe, noteCodeword_eq]
      rfl
  · have hex := exec_train (part := part) (step := step) (mid := mid) (lnk := lnk) h1 hgood
    rw [takeTrain_part ((linkState_noteCodeword_any i i cw s).trans h1) (by rw [blkPeer_trainWord step mid lnk hp]; exact hpart)] at hex
    have hwork := linkWork_setLinkState ((linkWork_peerNoted (linkWork_noteCodeword (.refl i s) cw) i
      (blkPeer (trainWord part step mid lnk))).modLink fun l => { l with peer := none }) i 4 3
    refine ⟨_, hex.trans (answer_eq hwork.pending), linkState_setLinkState hi (by decide) _ _,
      regFld_setLinkState_reason hi (by decide) _ _, ?_, hwork.bytes⟩
    rw [link_congr (links_setLinkState _ _ _ _), State.link_modLink_self]
  · have hex : exec (.linkTrainingDone i .up) s = answer s (trainingDone i .up s) := rfl
    rw [trainingDone_up hst hpeer hcable] at hex
    have hstate := linkState_setLinkState hi (by decide : 2 < 8) 0 s
    have hreplay : ((setLinkState i 2 0 s).link i).replay = (s.link i).replay := by rw [link_congr (links_setLinkState _ _ _ _)]
    have hwork := linkWork_setLinkState (.refl i s) i 2 0
    rw [hreplay] at hex
    generalize setLinkState i 2 0 s = v at *
    have hall := linkWork_pumpLink (linkWork_resend hwork (s.link i).replay)
    refine ⟨_, hex.trans (answer_eq hall.pending), (linkState_resumed hi _ v).trans hstate, fun p hp => ?_, hall.others, hall.bytes,
      hall.cores, hall.tk, hall.sec⟩
    exact (linkWork_pumpLink (.refl i _)).out (packet_mem_resend hp v)
  · have hex : exec (.linkTrainingDone i .noSignal) s = answer s (setLinkState i 4 1 s) := by
      have hrow : exec (.linkTrainingDone i .noSignal) s = answer s (trainingDone i .noSignal s) := rfl
      rw [hrow, trainingDone, if_neg (by omega)]
      exact congrArg (answer s) (if_pos h1)
    have hstate := linkState_setLinkState hi (by decide : 4 < 8) 1 s
    have hreason := regFld_setLinkState_reason hi (by decide : 1 < 16) 4 s
    rw [setLinkState_down (linkUp_false_of h1 (by decide)) (by decide)] at hex hstate hreason
    exact ⟨_, hex.trans (answer_eq rfl), hstate, hreason, rfl,
      sameRegs_setFld (sameRegs_setFld (sameRegs_refl s _) _ _ _ (List.mem_singleton_self _)) _ _ _ (List.mem_singleton_self _)⟩
  · obtain ⟨hstate, hflag, hlink, hout, hwork⟩ := linkFails_effect hi hup hc
    have hex : exec (.linkFailure i c) s = answer s (linkFails i c s) := rfl
    exact ⟨_, hex.trans (answer_eq hwork.pending), hstate, hflag, by rw [hlink], by rw [hlink], by rw [hlink], hout, hwork.others,
      hwork.bytes, hwork.cores, hwork.tk, hwork.sec⟩
  · have hex : exec (.retrainTimeout i) s = answer s (retireLink i s) := congrArg (answer s) (if_pos h3)
    obtain ⟨hstate, hlink, hunit, -, -⟩ := linkRetired_retireLink hi s
    have hwork := linkWork_retireLink (.refl i s)
    refine ⟨_, hex.trans (answer_eq hwork.pending), hstate, hunit, ?_, hwork.others, hwork.bytes, hwork.cores⟩
    rw [hlink]
    rfl
  · have hex : exec (.cableSupplyOff i) s = answer s (setLinkState i 4 1 (s.modLink i fun l => { l with cableOff := true })) := by
      have hrow : exec (.cableSupplyOff i) s = answer s (cableOff i s) := rfl
      have halive : (s.modLink i fun l => { l with cableOff := true }).linkAlive i = true := linkAlive_of_linkState h1 h3
      rw [hrow, cableOff, if_neg (by omega)]
      exact congrArg (answer s) (if_pos halive)
    have hwork := linkWork_setLinkState ((LinkWork.refl i s).modLink fun l => { l with cableOff := true }) i 4 1
    refine ⟨_, hex.trans (answer_eq hwork.pending), linkState_setLinkState hi (by decide) _ _,
      regFld_setLinkState_reason hi (by decide) _ _, ?_, hwork.others, hwork.bytes, hwork.cores⟩
    rw [link_congr (links_setLinkState _ _ _ _), State.link_modLink_self]

end Sys2Proof.Machine
end

section
/-! PROOFS. Moves (R213) and weight writes (R214 to R216): statements that fail in states no step reaches, where a fault-log entry
stands for a register that is not in the log. -/

namespace Sys2Proof.Machine

/-! ### States of the counterexamples -/

/-- Fields of a word or a descriptor, by lowest bit and value. -/
def packed (l : List (Nat × Nat)) : Nat := l.foldl (fun a f => a + f.2 * 2 ^ f.1) 0

/-- A descriptor with the given fields. -/
def asDesc (l : List (Nat × Nat)) : BitVec 512 := BitVec.ofNat 512 (packed l)

/-- Bits [255:8] of an instruction with the given fields. -/
def asBody (l : List (Nat × Nat)) : BitVec 248 := BitVec.ofNat 248 (packed l / 256)

/-- Core 0 at the start of a program of task 0, with descriptors and further registers. -/
def runningCore (desc : List (List (Nat × Nat))) (l : List (Nat × Word)) : State :=
  { State.reset with
    regs := [(dpPortStat 0, 1), (biStatus, 7), (spA 0 0x100, 0x10000)] ++ l, pwr := { ({} : PowerSt) with input := 2 }
    cores := [(0, { ({} : Core) with desc := (List.range desc.length).zip (desc.map asDesc), prog := some ⟨0, 0⟩ })] }

/-- A section in which the DMA engine owns every bank's write port in segment 0. -/
def dmaWrites : CoreSect :=
  { (default : CoreSect) with
    spads := [{ tasks := [], vbase := 0, vcount := 0, bankPwr := 0, segs := [(List.replicate 32 0, List.replicate 32 5)] }] }

/-- One row of n FP32 elements at address 0 of HBM (1) or the scratchpad (0). -/
def f32Row (loc n : Nat) : List (Nat × Nat) := [(64, 11), (82, 11), (94, loc), (192, 1), (220, n), (256, 4 * n), (320, 1)]

/-- A placement of one tile at a macro, DSCALE 1, of at most k rows and n columns. -/
def tileAt (mb k n : Nat) : List (Nat × Nat) :=
  [(0, mb), (24, 1), (49, 1), (94, 2), (96, 0x3F800000), (136, 1), (148, 1), (159, 1), (192, k), (220, n), (320, 1)]

/-- A location of HBM data that are bad. -/
def badHbm : Loc := { unit := 5, die := 12, pcore := 0, index := 0, det := 9 }

/-- A fault-log entry at a location whose index is out of range, so that its second word is the register at an address. -/
def loggedAt (a : Nat) (l : Loc) : LogKey :=
  { ix := (a - logA 0 1) / 16, loc := l, wfn := 0, source := 0, replays := [], read := true }

/-- The next state of a command that has one. -/
def outcomeOf (o : Host.Outcome State Fault Refusal) : State :=
  match o with
  | .next t => t
  | _ => State.reset

theorem outcomeOf_eq {o : Host.Outcome State Fault Refusal} {t : State} (h : o = .next t) : outcomeOf o = t := by
  rw [h]; rfl

/-! ### Moves -/

/-- LOAD of one element from descriptor 0 to descriptor 1. -/
def loadBody : BitVec 248 := asBody [(73, 1), (104, 1), (132, 1), (188, 1)]

/-- The byte at HBM address 0 is bad and not zero, and the log entry of its fault stands for the data range of task 0. -/
def loadAstray (range : List (Nat × Word)) : State :=
  let s := runningCore [f32Row 1 1, f32Row 0 1] range
  { s with cores := [(0, { s.core 0 with cfg := some dmaWrites })], hbm := [(0, 1)], err := { s.err with hbmBad := [(0, true)] },
           fx := { s.fx with cur := { s.fx.cur with attempt := 1 }, keys := [loggedAt (spA 0 0x104) badHbm] } }

/-- The word, source and destination of the LOAD. -/
def loadWord : BitVec 256 := fullWord 0x08 loadBody
def loadSrc : Opd := opdOf (loadAstray []) 0 (iTd0 loadWord)
def loadDst : Opd := opdOf (loadAstray []) 0 (iTd1 loadWord)

/-- A request of a task whose data range is empty reaches no byte of the scratchpad (R151). -/
theorem spTarget_emptyRange {s : State} {r : Req} {task : Nat} (ht : r.task = some task) (hf : r.fetch = false)
    (h : s.reg (spA r.core (0x104 + 8 * task)) = 0) (wr : Bool) (tag q : Nat) : (spTarget s r wr tag q).phys = none := by
  have hq : fld (0 : Word) 16 15 = 0 := by decide
  have ho : reqOffset s r q = none := by
    rw [reqOffset, ht]
    change (if r.fetch then _ else taskOffset s r.core task q) = none
    rw [hf, if_neg Bool.false_ne_true, taskOffset, h, hq]
    exact if_neg fun hlt => absurd hlt.1 (by omega)
  rw [spTarget, ho]

/-- The requests of the LOAD. -/
def loadReq : Req := { core := 0, task := some (iTask loadWord), seg := (loadAstray []).seg 0, cls := 5 }

theorem spTarget_loadAstray (x tag : Nat) : (spTarget (loadAstray []) loadReq true tag x).phys = none :=
  spTarget_emptyRange (task := iTask loadWord) rfl rfl (by decide +kernel) true tag x

/-- Refutes O29: a fault-log entry whose index is out of range stands for a register that is not in the log. Where that register
is a task's data range, the fault of a bad byte read from HBM (R238) moves the range while a LOAD is at work, and a byte lands where the range of
before had none. -/
theorem not_movesIssueAndWriteOnlyTheirRows : ¬ Obligations.MovesIssueAndWriteOnlyTheirRows := by
  unfold Obligations.MovesIssueAndWriteOnlyTheirRows
  rintro ⟨hload, -, -⟩
  obtain ⟨t, ht, -, hspad, -⟩ := hload (loadAstray []) 0 loadBody loadWord loadSrc loadDst { m := 1, n := 1, k := 0, b := 1 } 0 rfl rfl rfl
    (by decide +kernel) (by decide +kernel) (by decide +kernel) (by decide +kernel) (by decide +kernel) (by decide +kernel)
    (by decide +kernel) (by decide +kernel) (by decide +kernel) (by decide) (by decide) (by decide) (by decide +kernel) (by decide +kernel)
  have hwritten : Mem.get (outcomeOf (exec (.load 0 loadBody) (loadAstray []))).spad 256 = 1 := by decide +kernel
  rw [outcomeOf_eq ht] at hwritten
  have hkept := hspad 256 fun x p _ hp => nomatch (spTarget_loadAstray x _).symm.trans hp
  rw [hwritten] at hkept
  exact absurd hkept (by decide +kernel)

/-- Refutes O30: as for O29, with a data range that is not empty. The fault of the bad byte moves it, and the byte lands in the range
of after. -/
theorem not_loadCopiesItsRow : ¬ Obligations.LoadCopiesItsRow := by
  unfold Obligations.LoadCopiesItsRow
  rintro ⟨hload, -⟩
  obtain ⟨t, ht, hrow⟩ := hload (loadAstray [(spA 0 0x104, 0x10002)]) 0 loadBody loadWord loadSrc loadDst 1 rfl (by decide +kernel) (by decide +kernel)
    (by decide +kernel) (by decide +kernel) (by decide +kernel) (by decide +kernel) (by decide +kernel) (by decide +kernel)
    (by decide +kernel) (by decide +kernel) (by decide +kernel) (by decide +kernel) (by decide +kernel) (by decide)
    (by decide +kernel) (by decide +kernel)
  have hbyte := hrow 0 512 (by decide +kernel) (by decide +kernel)
  have hunwritten : Mem.get (outcomeOf (exec (.load 0 loadBody) (loadAstray [(spA 0 0x104, 0x10002)]))).spad 512 = 0 := by decide +kernel
  rw [outcomeOf_eq ht] at hunwritten
  have hat : (loadAstray [(spA 0 0x104, 0x10002)]).pcIx 0 * 2 ^ 22 + 512 = 512 := by decide +kernel
  rw [hat, hunwritten] at hbyte
  exact absurd hbyte (by decide +kernel)

/-! ### Weights -/

/-- WRITE_W of one position from descriptor 0 to the placement of descriptor 1. -/
def writeBody : BitVec 248 := asBody [(73, 1), (132, 1), (188, 1)]

/-- The row in HBM is bad, and the log entry of its fault stands for the role register of macro 1, the transient macro of the
placement. -/
def writeAstray : State :=
  let s := runningCore [f32Row 1 4, tileAt 1 64 4] [(roleA 0 1, 3)]
  { s with hbm := [(2, 0x80), (3, 0x3F)], err := { s.err with hbmBad := [(0, true)] },
           fx := { s.fx with cur := { s.fx.cur with attempt := 3 }, keys := [loggedAt (roleA 0 1) badHbm] } }

/-- Refutes O31: as for O29, with the log entry of the fault standing for a macro's role register. The fault of the bad row moves
PMACRO, and the weights land in a physical macro that was not one of the placement's. -/
theorem not_weightWritesIssueAndWriteOnlyTheirMacros : ¬ Obligations.WeightWritesIssueAndWriteOnlyTheirMacros := by
  unfold Obligations.WeightWritesIssueAndWriteOnlyTheirMacros
  rintro ⟨-, hpos⟩
  obtain ⟨t, ht, -, hmac, -⟩ := hpos writeAstray 0 writeBody (fullWord 0x0B writeBody) _ _ 1 1 false rfl rfl rfl (by decide +kernel)
    (by decide +kernel) (by decide +kernel) (by decide +kernel) (by decide +kernel) (by decide +kernel) (by decide +kernel)
    (by decide +kernel) (by decide +kernel) (by decide +kernel) (by decide) (by decide +kernel) (by decide +kernel) (by decide)
    (by decide +kernel) (by decide +kernel) (by decide +kernel) (by decide) (by decide +kernel) (by decide +kernel)
  have hwritten : Mem.get (outcomeOf (exec (.writeW 0 writeBody) writeAstray)).mac (256 * 32768) = 64 := by decide +kernel
  rw [outcomeOf_eq ht, hmac (256 * 32768) (by decide +kernel)] at hwritten
  exact absurd hwritten (by decide +kernel)

end Sys2Proof.Machine

end

section
/-! PROOFS. Compute (R143, R173, R190, R210) and die trips (R363): statements that fail where a side tree's destination is an
instruction of another kind, where an instruction has signalled already, or where a fault-log entry stands for a flag. -/

namespace Sys2Proof.Machine

/-! ### A side tree that ends in a weight write -/

/-- One driven row of 12 planes in the scratchpad. -/
def drivenRow : List (Nat × Nat) := f32Row 0 1 ++ [(71, 12)]

/-- An operand of no pitch but that of its one row. -/
def operand (td : Nat) (d : List (Nat × Nat)) : Opd := { td := td, d := asDesc d, pitch := 4, bStride := 0, sideStride := 0 }

/-- A WRITE_W of position 5 in flight, with its one position left to write into macro 2. -/
def writeOp : Op :=
  { seq := 5, word := 0x0B, seg := 0, ext := ⟨1, 1, 0, 1⟩, opds := [operand 0 (f32Row 1 1), operand 1 (tileAt 2 64 1)],
    items := [.wpos 0 0], signalled := true }

/-- An image whose one side tree has the instruction of position 0 as its member, and that of position 5 as its destination. -/
def sideImage : ImageContent := { (default : ImageContent) with sides := [{ members := [(0, 0)], destCore := 0, destSeq := 5 }] }

/-- The weight write is the destination of the side tree of the program's first instruction. -/
def wakesWrite (r0 r1 : Word) (ops : List Op) (cfg : Option CoreSect) : State :=
  let s := runningCore [tileAt 0 1 1, drivenRow, f32Row 0 1, tileAt 1 1 1] [(roleA 0 0, r0), (roleA 0 1, r1), (roleA 0 2, 3)]
  { s with hbm := [(2, 0x80), (3, 0x3F)], cores := [(0, { s.core 0 with ops := ops ++ [writeOp], cfg := cfg })],
           img := { s.img with whole := some 0, slots := [{ state := 3, content := some sideImage }] } }

/-- Extents of 1, the operands TD_W 0, TD_X 1, TD_Y 2, TD_V 3, a side record, and further fields. -/
def productBody (more : List (Nat × Nat)) : BitVec 248 :=
  asBody ([(73, 1), (82, 2), (104, 1), (132, 1), (160, 1), (188, 1), (206, 1)] ++ more)

/-- Refutes O32: the product gives its share of the side record, and wakes the destination of its side tree (R143). Where that is a
weight write, an array changes. -/
theorem not_matrixProductsIssue : ¬ Obligations.MatrixProductsIssue := by
  unfold Obligations.MatrixProductsIssue
  intro h
  obtain ⟨t, ht, hmac, -⟩ := h (wakesWrite 1 0x101 [] none) 0 (productBody []) (fullWord 0x10 (productBody [])) _ _ _ _
    ⟨1, 1, 1, 1⟩ 0 _ _ (.matmul 0 (productBody [])) false
    (.inl ⟨rfl, rfl, by decide +kernel⟩) rfl rfl rfl rfl (by decide +kernel) (by decide +kernel) (by decide +kernel) (by decide +kernel)
    (by decide +kernel) (by decide +kernel) (by decide +kernel) (by decide +kernel) (by decide) (by decide) (by decide) (by decide)
    rfl (by decide +kernel) (by decide +kernel) rfl (by decide +kernel)
  have hwritten : Mem.get (outcomeOf (exec (.matmul 0 (productBody [])) (wakesWrite 1 0x101 [] none))).mac 0 = 64 := by decide +kernel
  rw [outcomeOf_eq ht, hmac] at hwritten
  exact absurd hwritten (by decide +kernel)

/-- An ATTEND with a side record, whose softmax statistics go nowhere. -/
def attendBody : BitVec 248 := productBody [(91, 3), (240, 2)]

/-- The loop-back buffer is full, so the softmax of an ATTEND waits (R225). -/
def loopIsFull (s : State) : State := s.modCore 0 fun c => { c with loop := List.replicate 4 [] }

/-- Refutes O33: as for O32. -/
theorem not_attendIssues : ¬ Obligations.AttendIssues := by
  unfold Obligations.AttendIssues
  intro h
  obtain ⟨t, ht, hmac, -⟩ := h (loopIsFull (wakesWrite 0x22 0x102 [] none)) 0 attendBody (fullWord 0x12 attendBody) _ _ _ _ _ ⟨1, 1, 1, 1⟩ 0 _ _ false rfl
    (by decide +kernel) rfl rfl rfl rfl rfl (by decide +kernel) (by decide +kernel) (by decide +kernel) (by decide +kernel) (by decide +kernel)
    (by decide +kernel) (by decide +kernel) (by decide) (by decide) (by decide) (by decide) rfl (by decide +kernel) (by decide +kernel) rfl
    (by decide +kernel)
  have hwritten : Mem.get (outcomeOf (exec (.attend 0 attendBody) (loopIsFull (wakesWrite 0x22 0x102 [] none)))).mac 0 = 64 := by
    decide +kernel
  rw [outcomeOf_eq ht, hmac] at hwritten
  exact absurd hwritten (by decide +kernel)

/-- A MATMUL in flight that awaits its plan. -/
def planOp : Op :=
  { seq := 0, word := fullWord 0x10 (productBody []), seg := 0, ext := ⟨1, 1, 1, 1⟩,
    opds := [operand 0 drivenRow, operand 0 (tileAt 0 1 1), operand 0 (f32Row 0 1)], planWait := true }

/-- A rule that covers every small extent. -/
def anyPlan : TileRule := { (default : TileRule) with mHi := 9, nHi := 9, kHi := 9, bHi := 9, planMb := 1, planRu := 1 }

/-- A section whose policy is that rule. -/
def plans : CoreSect := { (default : CoreSect) with policies := [(0, [anyPlan])] }

/-- Refutes O36: as for O32, where the product gives its share once its plan has come. -/
theorem not_plansAreAnsweredOrTimeOut : ¬ Obligations.PlansAreAnsweredOrTimeOut := by
  unfold Obligations.PlansAreAnsweredOrTimeOut
  rintro ⟨hreply, -, -⟩
  obtain ⟨t, ht, hmac, -⟩ := hreply (wakesWrite 1 0x101 [planOp] (some plans)) 0 0 planOp _ anyPlan (by decide +kernel) rfl (by decide +kernel)
    rfl (by decide +kernel) (fun i hi => nomatch hi)
  have hwritten : Mem.get (outcomeOf (exec (.fwPlanReply 0 0) (wakesWrite 1 0x101 [planOp] (some plans)))).mac 0 = 64 := by decide +kernel
  rw [outcomeOf_eq ht, hmac] at hwritten
  exact absurd hwritten (by decide +kernel)

/-! ### An instruction that has signalled -/

/-- A MATMUL with SIG_EN and nothing left to do, which has signalled. -/
def signalledOp : Op := { seq := 0, word := fullWord 0x10 (asBody [(12, 1)]), seg := 0, ext := ⟨1, 1, 1, 1⟩, opds := [], signalled := true }

/-- Core 0 with that instruction in flight. -/
def hasSignalled : State := { State.reset with cores := [(0, { ({} : Core) with ops := [signalledOp] })] }

/-- Refutes O37: an instruction that signalled when it issued its last pass (R211) sends no second token when it completes. -/
theorem not_doneInstructionsCompleteAndReleasedAccessesProceed : ¬ Obligations.DoneInstructionsCompleteAndReleasedAccessesProceed := by
  unfold Obligations.DoneInstructionsCompleteAndReleasedAccessesProceed
  rintro ⟨hdone, -⟩
  obtain ⟨t, ht, -, ⟨-, hflight, -⟩, -⟩ := hdone hasSignalled 0 0 signalledOp (by decide +kernel) (by decide +kernel) (by decide +kernel)
    (by decide +kernel)
  have hnone : (outcomeOf (exec (.instructionComplete 0 0) hasSignalled)).flight = [] := by decide +kernel
  rw [outcomeOf_eq ht, hflight] at hnone
  exact absurd hnone (by decide +kernel)

/-! ### A die trip whose log entry stands for its own flag -/

/-- The log entry of the trip of die 0 stands for PG_STICKY, where the trip is flagged. -/
def tripsUnflagged : State :=
  { runningCore [] [] with
    fx := { ({} : CommitSt) with keys := [loggedAt pgSticky { unit := 7, die := 0, pcore := 0, index := 0, det := 15 }] } }

/-- Refutes O58: a fault-log entry whose index is out of range stands for a register that is not in the log. Where it stands for
PG_STICKY, the fault of a junction trip (R363) writes its attempt over the flag of the trip. -/
theorem not_diesTripAndTheInputResets : ¬ Obligations.DiesTripAndTheInputResets := by
  unfold Obligations.DiesTripAndTheInputResets
  rintro ⟨-, htrip, -⟩
  obtain ⟨t, ht, -, hflag, -⟩ := htrip tripsUnflagged 0 (by decide) rfl (by decide +kernel) (by decide +kernel)
  have hclear : (outcomeOf (exec (.junctionTrip 0) tripsUnflagged)).regBit pgSticky 5 = false := by decide +kernel
  rw [outcomeOf_eq ht, hflag] at hclear
  exact absurd hclear (by decide)

end Sys2Proof.Machine

end

section
/-! PROOFS. Packets over Chipra (R298, R311): statements that fail in states no step reaches, where the registers of a link of an index out
of range stand for other ones. -/

namespace Sys2Proof.Machine

/-- An active image with routes to this module and to module 1, which is behind one link. -/
def routedBy (i : Nat) : ImageContent :=
  { (default : ImageContent) with
    route := { vc0 := [(0, ⟨[], true, 0⟩), (1, ⟨[i], false, 1⟩)], vc1 := [(0, ⟨[], true, 0⟩), (1, ⟨[i], false, 1⟩)], expect := [] } }

/-- The image is active in slot 0. -/
def underImage (c : ImageContent) (s : State) : State :=
  { s with img := { s.img with whole := some 0, slots := [{ state := 3, content := some c }] } }

/-- A packet with its CRC32. -/
def withCrc (p : Packet) : Packet := { p with crc := packetCrc p }

/-! ### Queue statistics over a flag -/

/-- A WR of 256 bytes. -/
def longWr : Packet := { ptype := 1, dst := 1, src := 0, ftag := 0, data := List.replicate 256 0 }

/-- Links 0 and 494 are UP; packets wait for link 494, whose lane swap holds them back. -/
def farLink : State :=
  underImage (routedBy 494) { State.reset with
    regs := [(linkA 0 0, 2), (linkA 494 0, 2)], links := [(494, { ({} : LinkSt) with swap := some 0, waiting := List.replicate 3 longWr })] }

/-- A WR of another frame. -/
def staleWr : Packet := withCrc { ptype := 1, dst := 0, src := 1, ftag := 1, data := [0] }

/-- Refutes O21: the answer to a stale write waits for its link. Where that link has the index 494, the register of its queue's peak depth
is CL_STICKY, and the depth 4 is written over the flag STALE. -/
theorem not_remoteWritesLandInTheNextVersion : ¬ Obligations.RemoteWritesLandInTheNextVersion := by
  unfold Obligations.RemoteWritesLandInTheNextVersion
  rintro ⟨-, hstale, -⟩
  obtain ⟨t, ht, hflag, -⟩ := (hstale farLink 0 staleWr {} (by decide +kernel) (by decide +kernel) (by decide) (by decide +kernel)
    (by decide +kernel) rfl (by decide +kernel)).1 (by decide +kernel)
  have hclear : (outcomeOf (exec (.wr 0 staleWr {}) farLink)).regBit clSticky 2 = false := by decide +kernel
  rw [outcomeOf_eq ht, hflag] at hclear
  exact absurd hclear (by decide)

/-! ### FEC statistics over a role -/

/-- The link index at which the count of corrected codewords is the role register of macro 3 of core 0. -/
def roleLink : Nat := (roleA 0 3 - linkA 0 0xC) / 0x20

/-- A MATMUL in flight whose placement holds the channels 64 to 127 in the format of role register 7, and none of them in format 1. -/
def reducedOp : Op := { seq := 0, word := 0x10, seg := 0, ext := ⟨1, 128, 1, 1⟩, opds := [] }

/-- Its reduction, with one pair from another module for each element. -/
def farReduction : Reduction := { (default : Reduction) with id := 5, members := [(0, 0, 0)], remotePairs := 1, width := 128 }

/-- Element 64. -/
def elem64 : ElemKey := ⟨0, 0, 0, 0, 64⟩

/-- One of the two inputs of element 64 has come. -/
def halfElement : Acc :=
  { key := elem64, op := 0, expected := 2, received := 1, segs := [], best := none, md := 0, tdIn := 0, ext := ⟨1, 128, 1, 1⟩ }

/-- The second input is to come over the link whose FEC count is a role register. -/
def roleCounted : State :=
  let s := runningCore [tileAt 3 1 64 ++ [(33, 1)]] [(roleA 0 3, 7), (linkA roleLink 0, 2)]
  underImage { routedBy roleLink with reductions := [farReduction] }
    { s with cores := [(0, { s.core 0 with ops := [reducedOp] })], spad := [(0, 0x10)], hubNode := { ({} : Node) with accs := [halfElement] } }

/-- The second input. -/
def secondPair : Packet :=
  withCrc { ptype := 5, dst := 0, src := 1, ftag := roleCounted.ftag, addr := 5, vc := true,
            entries := [{ (default : SeifEntry) with elem := 64, hi := 0x3F800000, lo := 0 }] }

/-- Refutes O23: a codeword with a corrected symbol is counted before its packet is judged (R292). Where the index of its link is out of
range, that count is a macro's role register: the macro changes its format, the core holds no term of the element any longer, and the
packet is unexpected. -/
theorem not_seifPacketsEnterTheHubNode : ¬ Obligations.SeifPacketsEnterTheHubNode := by
  unfold Obligations.SeifPacketsEnterTheHubNode
  rintro ⟨henter, -⟩
  obtain ⟨t, ht, ⟨a, ha, hcount, -⟩, -⟩ := (henter roleCounted roleLink secondPair { errs := [1] } _ farReduction reducedOp elem64 (by decide +kernel)
    (by decide +kernel) (by decide) (by decide +kernel) (by decide +kernel) rfl (by decide +kernel) rfl rfl (by decide +kernel)
    (by decide +kernel) (by decide +kernel) (by decide +kernel) (by decide +kernel) (by decide +kernel)).1 (by decide +kernel)
  have hkept : (outcomeOf (exec (.seif roleLink secondPair { errs := [1] }) roleCounted)).hubNode.find elem64 = some halfElement := by
    decide +kernel
  rw [outcomeOf_eq ht, ha] at hkept
  rw [Option.some.inj hkept] at hcount
  exact absurd hcount (by decide +kernel)

end Sys2Proof.Machine

end

section
/-! PROOFS. The load-slew governor (R350 to R360). -/

namespace Sys2Proof.Machine

variable {s t : State}

/-! ### What a sample changes -/

/-- Only the power state, PG_STICKY and what an event changes differ. -/
structure PowerOnly (s t : State) : Prop where
  event : EventOnly { s with pwr := t.pwr } t
  regs : s.sameRegs t (pgSticky :: eventRegs)

theorem PowerOnly.refl (s : State) : PowerOnly s s := ⟨.refl s, sameRegs_refl s _⟩

theorem PowerOnly.trans {u : State} (h : PowerOnly s t) (k : PowerOnly t u) : PowerOnly s u where
  event := EventOnly.trans (s := { t with pwr := u.pwr }) { h.event with pwr := rfl } k.event
  regs := sameRegs_trans h.regs k.regs

theorem PowerOnly.modPwr (h : PowerOnly s t) (f : PowerSt → PowerSt) : PowerOnly s (t.modPwr f) :=
  ⟨{ h.event with pwr := rfl }, sameRegs_of_regs h.regs rfl⟩

theorem PowerOnly.flag (h : PowerOnly s t) (i : Nat) : PowerOnly s (t.setBit pgSticky i) :=
  ⟨h.event.setBit _ _, sameRegs_setBit h.regs i (by simp)⟩

theorem PowerOnly.raise (h : PowerOnly s t) (i : Nat) : PowerOnly s (raise0 pgSticky i stOK 0 t) := by
  have hp := eventOnly_pushEvent (.refl t) (event0 t.fn pgSticky i stOK 0)
  have hpwr : (raise0 pgSticky i stOK 0 t).pwr = t.pwr := hp.pwr
  refine ⟨?_, sameRegs_trans h.regs (sameRegs_mono (regs_pushEvent _ t) fun a ha => List.mem_cons_of_mem _ ha)⟩
  rw [hpwr]
  exact h.event.trans hp

theorem regBit_raise0 (a i status data : Nat) {b : Nat} (hb : b ∉ eventRegs) (j : Nat) (s : State) :
    (raise0 a i status data s).regBit b j = s.regBit b j := by
  unfold State.regBit
  rw [raise0, regs_pushEvent _ s b hb]

theorem pwr_raise0 (a i status data : Nat) (s : State) : (raise0 a i status data s).pwr = s.pwr :=
  (eventOnly_pushEvent (.refl s) _).pwr

theorem pgSticky_not_eventRegs : pgSticky ∉ eventRegs := by decide

/-- A case of Table 14.3 that raises its event. -/
theorem regBit_flag_raise (i j : Nat) (hi : i < 32) (s : State) :
    (raise0 pgSticky i stOK 0 (s.setBit pgSticky i)).regBit pgSticky j = (decide (j = i) || s.regBit pgSticky j) := by
  rw [regBit_raise0 _ _ _ _ pgSticky_not_eventRegs, State.regBit_setBit _ _ _ _ _ hi]
  simp

/-- A case of Table 14.3 is flagged, raised, and noted in the power state. -/
def raiseCase (i : Nat) (f : PowerSt → PowerSt) (t : State) : State := (raise0 pgSticky i stOK 0 (t.setBit pgSticky i)).modPwr f

theorem PowerOnly.raiseCase (h : PowerOnly s t) (i : Nat) (f : PowerSt → PowerSt) : PowerOnly s (raiseCase i f t) :=
  ((h.flag i).raise i).modPwr f

theorem pwr_raiseCase (i : Nat) (f : PowerSt → PowerSt) (t : State) : (raiseCase i f t).pwr = f t.pwr := by
  change f (raise0 pgSticky i stOK 0 (t.setBit pgSticky i)).pwr = f t.pwr
  rw [pwr_raise0]
  rfl

theorem regBit_raiseCase (i j : Nat) (hi : i < 32) (f : PowerSt → PowerSt) (t : State) :
    (raiseCase i f t).regBit pgSticky j = (decide (j = i) || t.regBit pgSticky j) :=
  regBit_flag_raise i j hi t

/-! ### A sample -/

/-- The mean of the samples is above 3,250 W. -/
def capDue (s : State) : Bool := decide (3250 * s.pwr.samples.length < sumN s.pwr.samples)

theorem capRule_eq (h : s.pwr.cap = false) : capRule s =
    whenS (capDue s && !s.pwr.capThisFrame) (raiseCase 9 fun p => { p with capThisFrame := true })
      (s.modPwr fun p => { p with cap := capDue s }) := by
  unfold capRule
  simp only [h, Bool.false_eq_true, if_false, Bool.false_and, whenS_false]
  rfl

/-- The cap follows the mean of the samples (R356); it raises its event once a frame. -/
theorem capRule_off (h : s.pwr.cap = false) :
    PowerOnly s (capRule s) ∧ (∀ j, j ≠ 9 → (capRule s).regBit pgSticky j = s.regBit pgSticky j) ∧
      ∃ b, (capRule s).pwr = { s.pwr with cap := capDue s, capThisFrame := b } := by
  rw [capRule_eq h]
  cases capDue s && !s.pwr.capThisFrame <;> simp only [whenS_true, whenS_false]
  case false => exact ⟨(PowerOnly.refl s).modPwr _, fun _ _ => rfl, s.pwr.capThisFrame, rfl⟩
  case true =>
    refine ⟨((PowerOnly.refl s).modPwr _).raiseCase 9 _, fun j hj => ?_, true, pwr_raiseCase _ _ _⟩
    rw [regBit_raiseCase 9 j (by decide), decide_eq_false hj, Bool.false_or]
    rfl

/-- The real power is below the target by more than the ballast can fill (Table 14.3). -/
def ballastSaturated (pReal : Nat) (s : State) : Bool := decide (pReal + ballastMax s < s.pwr.target) && !s.pwr.satThisMs

/-- The real power is above the target (Table 14.3). -/
def aboveTarget (pReal : Nat) (s : State) : Bool := decide (s.pwr.target < pReal) && !s.pwr.overThisFrame

/-- The power state with a sample taken. -/
def withSample (pReal : Nat) (s : State) : PowerSt :=
  let ballast := min (s.pwr.target - pReal) (ballastMax s)
  { s.pwr with
    ballast := ballast, samples := ((pReal + ballast) :: s.pwr.samples).take 1000, ballasts := (ballast :: s.pwr.ballasts).take 1000 }

/-- BALLAST_SAT is flagged. -/
def flagSaturated (t : State) : State := (t.setBit pgSticky 1).modPwr fun p => { p with satThisMs := true }

/-- The state when the cap is judged: the sample taken, and the cases of Table 14.3 flagged. -/
def sampled (pReal : Nat) (s : State) : State :=
  whenS (aboveTarget pReal s) (raiseCase 0 fun p => { p with overThisFrame := true })
    (whenS (ballastSaturated pReal s) flagSaturated (s.modPwr fun _ => withSample pReal s))

theorem governorSample_eq (pReal : Nat) (hi : s.pwr.input = 2) : governorSample pReal s = capRule (sampled pReal s) := by
  have hkept : (whenS (ballastSaturated pReal s) flagSaturated (s.modPwr fun _ => withSample pReal s)).pwr.overThisFrame =
      s.pwr.overThisFrame := whenS_same (·.pwr.overThisFrame) _ flagSaturated (fun _ => rfl) _
  unfold governorSample
  rw [if_neg (by simp [hi]), sampled, aboveTarget, ← hkept]
  rfl

theorem sampled_effect (pReal : Nat) (s : State) :
    PowerOnly s (sampled pReal s) ∧
      (∃ b c, (sampled pReal s).pwr = { withSample pReal s with satThisMs := b, overThisFrame := c }) ∧
      (aboveTarget pReal s = true → (sampled pReal s).regBit pgSticky 0 = true) ∧
      (ballastSaturated pReal s = true → (sampled pReal s).regBit pgSticky 1 = true) := by
  have h0 : PowerOnly s (s.modPwr fun _ => withSample pReal s) := (PowerOnly.refl s).modPwr _
  have hflag (t : State) : (flagSaturated t).regBit pgSticky 1 = true := by
    change (t.setBit pgSticky 1).regBit pgSticky 1 = true
    rw [State.regBit_setBit _ _ _ _ _ (by decide), if_pos rfl, decide_eq_true rfl, Bool.true_or]
  unfold sampled
  cases ballastSaturated pReal s <;> cases aboveTarget pReal s <;> simp only [whenS_true, whenS_false]
  · exact ⟨h0, ⟨_, _, rfl⟩, nofun, nofun⟩
  · refine ⟨h0.raiseCase 0 _, ⟨_, true, pwr_raiseCase _ _ _⟩, fun _ => ?_, nofun⟩
    rw [regBit_raiseCase 0 0 (by decide), decide_eq_true rfl, Bool.true_or]
  · exact ⟨(h0.flag 1).modPwr _, ⟨true, _, rfl⟩, nofun, fun _ => hflag _⟩
  · refine ⟨((h0.flag 1).modPwr _).raiseCase 0 _, ⟨true, true, pwr_raiseCase _ _ _⟩, fun _ => ?_, fun _ => ?_⟩
    · rw [regBit_raiseCase 0 0 (by decide), decide_eq_true rfl, Bool.true_or]
    · rw [regBit_raiseCase 0 1 (by decide), hflag, Bool.or_true]

/-! ### A millisecond -/

theorem budgetNow_congr (hi : t.img = s.img) (hf : t.fx = s.fx) (hw : t.pwr.workBudget = s.pwr.workBudget)
    (hr : t.reg ftStatus = s.reg ftStatus) : budgetNow t = budgetNow s := by
  have hc : t.image = s.image := by unfold State.image State.slotContent; rw [hi]
  have hv : t.variant = s.variant := by unfold State.variant State.regFld; rw [hr]
  unfold budgetNow workBudget State.active
  rw [hi, hf, hw, hc, hv]

/-- Only registers and the power state differ. -/
def State.powerFrame (s t : State) : Prop := t = { s with pwr := t.pwr, regs := t.regs }

theorem State.powerFrame.trans {u : State} (h : s.powerFrame t) (k : t.powerFrame u) : s.powerFrame u := by
  rw [State.powerFrame, k, h]

theorem slewFlat_effect (pIn : Nat) (s : State) :
    slewFlat pIn s = { s with regs := (slewFlat pIn s).regs } ∧ s.sameRegs (slewFlat pIn s) [pgSticky, pgCnt] := by
  have hstep (t : State) (i lo : Nat) : (t.setBit pgSticky i).addCnt pgCnt lo 16 1 =
      { t with regs := ((t.setBit pgSticky i).addCnt pgCnt lo 16 1).regs } := rfl
  have hwhen (b : Bool) (i lo : Nat) (t : State) (h : t = { s with regs := t.regs } ∧ s.sameRegs t [pgSticky, pgCnt]) :
      let u := whenS b (fun t => (t.setBit pgSticky i).addCnt pgCnt lo 16 1) t
      u = { s with regs := u.regs } ∧ s.sameRegs u [pgSticky, pgCnt] := by
    cases b
    · exact h
    · refine ⟨?_, sameRegs_addCnt (sameRegs_setBit h.2 _ (by simp)) _ _ _ (by simp)⟩
      simp only [whenS_true]
      rw [h.1]
      rfl
  unfold slewFlat
  refine hwhen _ _ _ _ ?_
  cases s.pwr.means with
  | nil => exact ⟨rfl, sameRegs_refl s _⟩
  | cons m l => exact hwhen _ _ _ _ ⟨rfl, sameRegs_refl s _⟩

/-- P_TGT after a millisecond in which no pre-ramp runs (R354, R360). -/
def nextTarget (s : State) : Nat :=
  if s.pwr.target ≤ budgetNow s then min (budgetNow s) (s.pwr.target + s.regFld pgCtrl 0 11)
  else if s.pwr.descending then max (budgetNow s) (s.pwr.target - s.regFld pgCtrl 0 11)
  else s.pwr.target

theorem moveTarget_effect (h : s.pwr.preRamp = none) :
    (moveTarget s).pwr.target = nextTarget s ∧ (moveTarget s).pwr.means = s.pwr.means ∧ (moveTarget s).pwr.cTh = s.pwr.cTh ∧
      s.powerFrame (moveTarget s) ∧ (moveTarget s).reg pgTarget = BitVec.ofNat 32 (budgetNow s * 65536 + nextTarget s) ∧
      s.sameRegs (moveTarget s) [pgTarget] := by
  have hset (p : PowerSt) (v : Word) : s.sameRegs (({ s with pwr := p } : State).setReg pgTarget v) [pgTarget] :=
    sameRegs_setReg (sameRegs_of_regs (sameRegs_refl s _) rfl) v (by simp)
  unfold moveTarget nextTarget
  rw [h]
  dsimp only
  by_cases hle : s.pwr.target ≤ budgetNow s
  · simp only [if_pos hle]
    exact ⟨rfl, rfl, rfl, rfl, State.reg_setReg_self _ _ _, hset _ _⟩
  · simp only [if_neg hle]
    by_cases hd : s.pwr.descending = true
    · simp only [if_pos hd]
      exact ⟨rfl, rfl, rfl, rfl, State.reg_setReg_self _ _ _, hset _ _⟩
    · simp only [if_neg hd]
      split
      · exact ⟨rfl, rfl, rfl, rfl, State.reg_setReg_self _ _ _, hset _ _⟩
      · exact ⟨rfl, rfl, rfl, rfl, State.reg_setReg_self _ _ _, hset _ _⟩

theorem ceilings_effect (s : State) :
    (ceilings s).pwr.target = s.pwr.target ∧ (ceilings s).pwr.means = s.pwr.means ∧
      (ceilings s).pwr.pendCeff = min (ceilings s).pwr.cTh (ceilings s).pwr.cV ∧ (ceilings s).pwr.cTh ≤ s.pwr.cTh + 1 ∧
      s.powerFrame (ceilings s) ∧ s.sameRegs (ceilings s) [pgCeil] := by
  have hregs (f : PowerSt → PowerSt) (v : Nat) : s.sameRegs ((s.modPwr f).setFld pgCeil 8 8 v) [pgCeil] :=
    sameRegs_setFld (sameRegs_of_regs (sameRegs_refl s _) rfl) _ _ _ (by simp)
  unfold ceilings
  extract_lets ceil tj th ms cV
  split
  next cTh ms' hc =>
    have hle : cTh ≤ s.pwr.cTh + 1 := by
      clear_value th ms
      split at hc
      · obtain ⟨rfl, rfl⟩ := Prod.mk.inj hc
        omega
      · split at hc
        all_goals
          obtain ⟨rfl, rfl⟩ := Prod.mk.inj hc
          omega
    exact ⟨rfl, rfl, rfl, hle, rfl, hregs _ _⟩

/-- The state after the means of a millisecond are read out and checked. -/
def meansRead (s : State) : State :=
  (slewFlat (meanOf s.pwr.samples)
    (s.setReg pgPower (BitVec.ofNat 32 (meanOf s.pwr.ballasts % 65536 * 65536 + meanOf s.pwr.samples % 65536)))).modPwr
    fun p => { p with means := (meanOf s.pwr.samples :: p.means).take 1000, satThisMs := false }

theorem governorMs_eq (hi : s.pwr.input = 2) : governorMs s = ceilings (moveTarget (meansRead s)) := by
  unfold governorMs
  rw [if_neg (by simp [hi])]
  rfl

theorem meansRead_effect (s : State) :
    (meansRead s).pwr = { s.pwr with means := (meanOf s.pwr.samples :: s.pwr.means).take 1000, satThisMs := false } ∧
      s.powerFrame (meansRead s) ∧ s.sameRegs (meansRead s) [pgPower, pgSticky, pgCnt] ∧
      (meansRead s).reg pgPower = BitVec.ofNat 32 (meanOf s.pwr.ballasts % 65536 * 65536 + meanOf s.pwr.samples % 65536) := by
  unfold meansRead
  generalize hv : BitVec.ofNat 32 (meanOf s.pwr.ballasts % 65536 * 65536 + meanOf s.pwr.samples % 65536) = v
  obtain ⟨heq, hregs⟩ := slewFlat_effect (meanOf s.pwr.samples) (s.setReg pgPower v)
  generalize slewFlat (meanOf s.pwr.samples) (s.setReg pgPower v) = t at heq hregs
  have hpwr : t.pwr = s.pwr := by rw [heq]; rfl
  refine ⟨?_, ?_, ?_, ?_⟩
  · simp only [State.modPwr, hpwr]
  · have hframe : s.powerFrame t := by rw [State.powerFrame, hpwr, heq]; rfl
    exact hframe.trans rfl
  · have hset : s.sameRegs (s.setReg pgPower v) [pgPower, pgSticky, pgCnt] := sameRegs_setReg (sameRegs_refl s _) v (by simp)
    exact sameRegs_of_regs (sameRegs_trans hset (sameRegs_mono hregs (List.subset_cons_self _ _))) rfl
  · exact (hregs pgPower (by decide)).trans (State.reg_setReg_self s _ _)

theorem governorMs_effect (hi : s.pwr.input = 2) (hp : s.pwr.preRamp = none) :
    let t := governorMs s
    t.reg pgPower = BitVec.ofNat 32 (meanOf s.pwr.ballasts % 65536 * 65536 + meanOf s.pwr.samples % 65536) ∧
      t.pwr.means = (meanOf s.pwr.samples :: s.pwr.means).take 1000 ∧ t.pwr.target = nextTarget s ∧
      t.reg pgTarget = BitVec.ofNat 32 (budgetNow s * 65536 + nextTarget s) ∧
      t.pwr.pendCeff = min t.pwr.cTh t.pwr.cV ∧ t.pwr.cTh ≤ s.pwr.cTh + 1 ∧
      s.powerFrame t ∧ s.sameRegs t [pgPower, pgSticky, pgCnt, pgTarget, pgCeil] := by
  obtain ⟨hpwr, hframe, hregs, hpower⟩ := meansRead_effect s
  have hctrl : (meansRead s).regFld pgCtrl 0 11 = s.regFld pgCtrl 0 11 := by
    unfold State.regFld
    rw [hregs pgCtrl (by decide)]
  have himg : (meansRead s).img = s.img := by rw [hframe]
  have hfx : (meansRead s).fx = s.fx := by rw [hframe]
  have hbudget : budgetNow (meansRead s) = budgetNow s :=
    budgetNow_congr himg hfx (by rw [hpwr]) (hregs ftStatus (by decide))
  have hnext : nextTarget (meansRead s) = nextTarget s := by
    unfold nextTarget
    rw [hctrl, hbudget, hpwr]
  obtain ⟨htgt, hmeans, hcTh, hmframe, hreg, hmregs⟩ := moveTarget_effect (s := meansRead s) (by rw [hpwr]; exact hp)
  obtain ⟨ctgt, cmeans, cpend, ccTh, cframe, cregs⟩ := ceilings_effect (moveTarget (meansRead s))
  rw [hnext] at htgt hreg
  rw [hbudget] at hreg
  rw [hpwr] at hmeans hcTh
  simp only [governorMs_eq hi]
  refine ⟨?_, cmeans.trans hmeans, ctgt.trans htgt, (cregs _ (by decide)).trans hreg, cpend, hcTh ▸ ccTh, ?_, ?_⟩
  · exact (cregs _ (by decide)).trans ((hmregs _ (by decide)).trans hpower)
  · exact (hframe.trans hmframe).trans cframe
  · refine sameRegs_trans (sameRegs_trans (sameRegs_mono hregs ?_) (sameRegs_mono hmregs ?_)) (sameRegs_mono cregs ?_) <;> simp

/-- P_TGT moves by the slew at most, and by all of it towards a budget that is above it. -/
theorem nextTarget_slew (s : State) :
    nextTarget s ≤ s.pwr.target + s.regFld pgCtrl 0 11 ∧ s.pwr.target ≤ nextTarget s + s.regFld pgCtrl 0 11 ∧
      (s.pwr.target ≤ budgetNow s → nextTarget s = min (budgetNow s) (s.pwr.target + s.regFld pgCtrl 0 11)) := by
  unfold nextTarget
  split
  · omega
  · split <;> omega

/-- Settles O57: a sample and a millisecond taken apart into their steps, each with what it changes. -/
theorem governorHoldsTheTarget : Obligations.GovernorHoldsTheTarget := by
  unfold Obligations.GovernorHoldsTheTarget
  refine ⟨fun s pReal hi hc => ?_, fun s pIn ballast hi hp hpin hb => ?_, fun s g sl h => ?_, fun s h => ?_, fun s => ?_,
    fun s pReal hi => ⟨?_, ?_⟩⟩
  · obtain ⟨hframe, ⟨b, c, hpwr⟩, habove, hsat⟩ := sampled_effect pReal s
    have hoff : (sampled pReal s).pwr.cap = false := by rw [hpwr]; exact hc
    obtain ⟨hframe', hbit, d, hpwr'⟩ := capRule_off hoff
    have hall : PowerOnly s (capRule (sampled pReal s)) := hframe.trans hframe'
    have hex : exec (.governorSample pReal) s = .next (capRule (sampled pReal s)) :=
      (congrArg (answer s) (governorSample_eq pReal hi)).trans (answer_eq hall.event.pending)
    have hcap : capDue (sampled pReal s) = decide (3250 * (withSample pReal s).samples.length < sumN (withSample pReal s).samples) := by
      unfold capDue
      rw [hpwr]
    refine ⟨_, hex, ?_, ?_, ?_, ?_, ?_, fun h1 h2 => ?_, fun h1 h2 => ?_, hall.event.eq, hall.regs⟩
    · rw [hpwr', hpwr]; rfl
    · rw [hpwr', hpwr]; rfl
    · rw [hpwr', hpwr]; rfl
    · rw [hpwr', hpwr]; rfl
    · rw [hpwr', hcap, hpwr]
    · rw [hbit 0 (by decide)]
      exact habove (by simp [aboveTarget, h1, h2])
    · rw [hbit 1 (by decide)]
      exact hsat (by simp [ballastSaturated, h1, h2])
  · subst hpin hb
    obtain ⟨hpower, hmeans, htgt, hreg, hpend, hcTh, hframe, hregs⟩ := governorMs_effect hi hp
    obtain ⟨hup, hdown, hrise⟩ := nextTarget_slew s
    have hex : exec .governorMillisecond s = .next (governorMs s) := answer_eq (by rw [hframe])
    rw [← htgt] at hup hdown hrise hreg
    exact ⟨_, hex, hpower, hmeans, hup, hdown, hrise, hreg, hpend, hcTh, hframe, hregs⟩
  · have : preRampStart s = s.modPwr fun p => { p with ramping := true } := by rw [preRampStart, h]; rfl
    exact (congrArg (answer s) this).trans (answer_eq rfl)
  · have : preRampStart s = s := by rw [preRampStart, h]
    exact (congrArg (answer s) this).trans (answer_eq rfl)
  · change answer s (descentStart s) = _
    rw [descentStart]
    split
    · exact answer_eq rfl
    · exact answer_eq rfl
  · exact (congrArg (answer s) (if_pos hi)).trans (answer_eq rfl)
  · exact (congrArg (answer s) (if_pos hi)).trans (answer_eq rfl)

end Sys2Proof.Machine

end

section
/-! PROOFS. The Drundoha ports (R367 to R374): answers, the requests that are served, and how events reach the host. -/

namespace Sys2Proof.Machine

variable {s t u : State} {p tag : Nat} {f : Frame}

/-! ### Answers -/

/-- The answers kept once one more is given (R371). -/
def keptWith (l : List Answer) (a : Answer) : List Answer := (l ++ [a]).drop (l.length + 1 - 64)

theorem getLast?_keptWith (l : List Answer) (a : Answer) : (keptWith l a).getLast? = some a := by
  rw [keptWith, List.getLast?_drop, if_neg (by simp), List.getLast?_concat]

theorem answerOn_eq (p : Nat) (a : Answer) (s : State) : answerOn p a s =
    { s with
      port := { s.port with answers := keptWith s.port.answers a }
      out := if s.portUp p = true then .frame p (answerFrame a) :: s.out else s.out } := by
  unfold answerOn
  have hup : (s.modPort fun q => { q with answers := (q.answers ++ [a]).drop (q.answers.length + 1 - 64) }).portUp p = s.portUp p := rfl
  simp only [hup]
  cases s.portUp p <;> rfl

theorem onlyAnswer_answerOn (p : Nat) (a : Answer) (s : State) : s.onlyAnswer (answerOn p a s) := by
  rw [answerOn_eq]
  rfl

theorem answered_answerOn (p : Nat) (a : Answer) (s : State) : s.answered (answerOn p a s) p a := by
  rw [answerOn_eq]
  exact ⟨getLast?_keptWith _ _, fun hup => by simp [hup]⟩

/-- An answer that is given in a state with the same ports UP. -/
theorem answered_after (h : s.portUp p = t.portUp p) (a : Answer) : s.answered (answerOn p a t) p a := by
  obtain ⟨hlast, hout⟩ := answered_answerOn p a t
  exact ⟨hlast, fun hup => hout (h ▸ hup)⟩

/-! ### Requests that are served -/

theorem servesNow_spec (h : servesNow s tag = true) :
    7 ≤ s.stage ∧ s.safe = 0 ∧ (s.port.answers.find? fun a => a.tag = tag) = none ∧ ∀ k, gate s k = none := by
  simp only [servesNow, Bool.and_eq_true, decide_eq_true_eq, Bool.not_eq_true', List.any_eq_false] at h
  obtain ⟨⟨hst, hsafe⟩, htag⟩ := h
  refine ⟨hst, hsafe, List.find?_eq_none.2 (by simpa using htag), fun k => ?_⟩
  rw [gate, if_neg (by simp [hsafe]), if_neg (by simp [hsafe]), if_neg (by omega)]

theorem request_served (h : servesNow s tag = true) (p op : Nat) (k : ReqKind) (serve : State → State) :
    request p tag op k serve s = serve s := by
  obtain ⟨-, -, hfind, hgate⟩ := servesNow_spec h
  rw [request, hfind, hgate]

/-- A command given at its tick acts and is answered on port 0. -/
theorem commandNow_served (h : servesNow s tag = true) (c : Cmd) :
    commandNow tag c s = answerOn 0 { tag := tag, op := cmdOp c, status := (doCommand tag c s).2, fn := s.fn } (doCommand tag c s).1 := by
  obtain ⟨hst, -, -, hgate⟩ := servesNow_spec h
  rw [commandNow, if_neg (by omega), request_served h, takeCommand, hgate]

/-- A command that is refused has no other effect. -/
theorem commandNow_refused (h : servesNow s tag = true) {c : Cmd} {st : Nat} (hc : doCommand tag c s = (s, st)) :
    ∃ t, answer s (commandNow tag c s) = .next t ∧ s.answered t 0 (shortAnswer s tag (cmdOp c) st) ∧ s.onlyAnswer t := by
  rw [commandNow_served h, hc]
  refine ⟨_, answer_eq ?_, answered_answerOn _ _ s, onlyAnswer_answerOn _ _ s⟩
  rw [answerOn_eq]

/-! ### Events -/

theorem mem_chunks {α : Type} {n : Nat} (hn : 0 < n) {k : Nat} {l : List α} (hk : l.length ≤ k) {e : α} (he : e ∈ l) :
    ∃ c ∈ chunks n l k, c.length ≤ n ∧ e ∈ c := by
  induction k generalizing l with
  | zero => simp_all
  | succ k ih =>
    have hne : l ≠ [] := by rintro rfl; simp at he
    rw [chunks, if_neg (by simpa using hne)]
    rw [← List.take_append_drop n l, List.mem_append] at he
    rcases he with h | h
    · exact ⟨_, List.mem_cons_self, by simp, h⟩
    · obtain ⟨c, hc, hlen, hmem⟩ := ih (l := l.drop n) (by rw [List.length_drop]; omega) h
      exact ⟨c, List.mem_cons_of_mem _ hc, hlen, hmem⟩

theorem mem_chunksOf {α : Type} {n : Nat} (hn : 0 < n) {l : List α} {e : α} (he : e ∈ l) : ∃ c ∈ chunksOf n l, c.length ≤ n ∧ e ∈ c :=
  mem_chunks hn le_rfl he

theorem chunksOf_cons {α : Type} (n : Nat) (x : α) (l : List α) : ∃ r, x :: r ∈ chunksOf (n + 1) (x :: l) :=
  ⟨l.take n, by simp [chunksOf, chunks]⟩

/-- Only what leaves the module differs, and what had left stays so. -/
structure SendsOnly (s t : State) : Prop where
  eq : t = { s with out := t.out }
  out : s.out ⊆ t.out

theorem SendsOnly.refl (s : State) : SendsOnly s s := ⟨rfl, List.Subset.refl _⟩

theorem SendsOnly.trans (h : SendsOnly s t) (k : SendsOnly t u) : SendsOnly s u :=
  ⟨by rw [k.eq, h.eq], List.Subset.trans h.out k.out⟩

theorem SendsOnly.forEach {α : Type} {g : α → State → State} (hg : ∀ x s, SendsOnly s (g x s)) (l : List α) (s : State) :
    SendsOnly s (forEach l g s) := by
  induction l generalizing s with
  | nil => exact .refl s
  | cons x l ih => exact (hg x s).trans (ih _)

/-- Each element of the list has acted. -/
theorem mem_out_forEach {α : Type} {g : α → State → State} (hg : ∀ x s, SendsOnly s (g x s)) {o : Out} {x : α}
    (hx : ∀ s, o ∈ (g x s).out) {l : List α} (hl : x ∈ l) (s : State) : o ∈ (forEach l g s).out := by
  induction l generalizing s with
  | nil => simp at hl
  | cons y l ih =>
    rcases List.mem_cons.1 hl with rfl | h
    · exact (SendsOnly.forEach hg l _).out (hx s)
    · exact ih h _

/-- An EVENT frame of entries leaves on a port. -/
def sendChunk (p : Nat) (c : List EvEntry) (t : State) : State :=
  match c with
  | [] => t
  | _ => t.send (.frame p (eventFrame c))

theorem sendsOnly_sendChunk (p : Nat) (c : List EvEntry) (s : State) : SendsOnly s (sendChunk p c s) := by
  cases c with
  | nil => exact .refl s
  | cons e r => exact ⟨rfl, List.subset_cons_self _ _⟩

theorem sendsOnly_sendEntries (p : Nat) (l : List EvEntry) (s : State) : SendsOnly s (sendEntries p l s) :=
  SendsOnly.forEach (sendsOnly_sendChunk p) (chunksOf 64 l) s

theorem mem_sendEntries {e : EvEntry} {r l : List EvEntry} (h : e :: r ∈ chunksOf 64 l) (p : Nat) (s : State) :
    Out.frame p (eventFrame (e :: r)) ∈ (sendEntries p l s).out :=
  mem_out_forEach (sendsOnly_sendChunk p) (fun _ => List.mem_cons_self) h s

/-- Every entry of the list leaves in a frame of 64 at most. -/
theorem sendEntries_sends (p : Nat) {l : List EvEntry} {e : EvEntry} (he : e ∈ l) (s : State) :
    ∃ c, c.length ≤ 64 ∧ e ∈ c ∧ Out.frame p (eventFrame c) ∈ (sendEntries p l s).out := by
  obtain ⟨c, hc, hlen, hmem⟩ := mem_chunksOf (n := 64) (by decide) he
  cases c with
  | nil => simp at hmem
  | cons x r => exact ⟨x :: r, hlen, hmem, mem_sendEntries hc p s⟩

/-- EVENT_LOST changes no entry but for its own bit. -/
theorem mem_flagLost {due : EvEntry → Bool} {l : List EvEntry} {e : EvEntry} (he : e ∈ l) :
    ∃ x ∈ flagLost due l, x.seq = e.seq ∧ x.sent = e.sent ∧ x.ev = { e.ev with lost := x.ev.lost } := by
  induction l with
  | nil => simp at he
  | cons y l ih =>
    rw [flagLost]
    rcases List.mem_cons.1 he with rfl | h
    · split
      · exact ⟨_, List.mem_cons_self, rfl, rfl, rfl⟩
      · exact ⟨_, List.mem_cons_self, rfl, rfl, rfl⟩
    · split
      · exact ⟨e, List.mem_cons_of_mem _ h, rfl, rfl, rfl⟩
      · obtain ⟨x, hx, hrest⟩ := ih h
        exact ⟨x, List.mem_cons_of_mem _ hx, hrest⟩

theorem mem_reportLost (due : EvEntry → Bool) {s : State} {e : EvEntry} (he : e ∈ s.port.events) :
    ∃ x ∈ (reportLost due s).port.events, x.seq = e.seq ∧ x.sent = e.sent ∧ x.ev = { e.ev with lost := x.ev.lost } := by
  unfold reportLost
  split
  · exact mem_flagLost he
  · exact ⟨e, he, rfl, rfl, rfl⟩

theorem reportLost_eq (due : EvEntry → Bool) (s : State) : reportLost due s = { s with port := (reportLost due s).port } := by
  unfold reportLost
  split <;> rfl

/-- The first entry held carries EVENT_LOST after a loss. -/
theorem reportLost_first {e : EvEntry} {rest : List EvEntry} (hl : s.port.lostPending = true) (he : s.port.events = e :: rest) :
    (reportLost (fun _ => true) s).port.lostPending = false ∧
      (reportLost (fun _ => true) s).port.events = { e with ev := { e.ev with lost := true } } :: rest := by
  rw [reportLost, if_pos (by simp [hl, he])]
  exact ⟨rfl, by simp [State.modPort, he, flagLost]⟩

/-- The entries held leave on a port. -/
def sendHeld (p : Nat) (t : State) : State := sendEntries p t.port.events t

theorem forEach_sendHeld (l : List Nat) (t : State) : forEach l sendHeld t = forEach l (fun p => sendEntries p t.port.events) t := by
  induction l generalizing t with
  | nil => rfl
  | cons p l ih =>
    have hport : (sendHeld p t).port = t.port := by rw [sendHeld, (sendsOnly_sendEntries p _ t).eq]
    rw [forEach_cons, forEach_cons, ih, hport]
    rfl

/-- What a resend sends, before the entries are marked. -/
def resentAll (s : State) : State := forEach ([0, 1].filter fun p => s.portUp p) sendHeld (reportLost (fun _ => true) s)

theorem eventResend_eq (h : s.portUp 0 = true ∨ s.portUp 1 = true) :
    eventResend s = (resentAll s).modPort fun p => { p with events := p.events.map fun e => { e with sent := true } } := by
  unfold eventResend
  rw [if_neg (by rcases h with h | h <;> simp [List.filter, h] <;> cases s.portUp 0 <;> simp)]
  rfl

theorem sendsOnly_resentAll (s : State) : SendsOnly (reportLost (fun _ => true) s) (resentAll s) := by
  rw [resentAll, forEach_sendHeld]
  exact .forEach (fun p => sendsOnly_sendEntries p _) _ _

/-- A frame that holds the entries held leaves on each port that is UP. -/
theorem mem_resentAll (hp : p < 2) (hup : s.portUp p = true) {o : Out}
    (ho : ∀ t, o ∈ (sendEntries p (reportLost (fun _ => true) s).port.events t).out) : o ∈ (resentAll s).out := by
  rw [resentAll, forEach_sendHeld]
  refine mem_out_forEach (fun p => sendsOnly_sendEntries p _) (x := p) ho ?_ _
  rw [List.mem_filter]
  exact ⟨by simp; omega, hup⟩

/-- An acknowledgement takes the entries it covers out of the FIFO (R374). -/
theorem exec_evtAck (h : s.hears p f = true) (hty : f.ftype = 5) (hst : 3 ≤ s.stage) (hsafe : s.safe = 0) :
    exec (.evtAck p f) s = answer s (ackEvents (leNat f.data) s) := by
  have hgate : gate s .evtAck = none := by
    rw [gate, if_neg (by simp [hsafe]), if_neg (by simp [hsafe])]
    split <;> rfl
  have hserve : serveFrame p f s = ackEvents (leNat f.data) s := by
    rw [serveFrame, hty]
    exact if_neg (by rw [hgate]; decide)
  exact (congrArg (answer s) ((takeFrame_heard h hst).trans hserve)).trans rfl

theorem ackEvents_effect (seq : Nat) (s : State) :
    (ackEvents seq s).port = { s.port with events := s.port.events.filter fun e => decide (seq < e.seq) } ∧
      (s.eventsOk = true → (ackEvents seq s).regFld (hubQA 1 4) 0 9 = (ackEvents seq s).port.events.length) ∧
      s.sameRegs (ackEvents seq s) [hubQA 1 4] := by
  refine ⟨rfl, fun hok => ?_, sameRegs_setFld (sameRegs_of_regs (sameRegs_refl s _) rfl) _ _ _ (by simp)⟩
  have hle : s.port.events.length ≤ 256 := of_decide_eq_true hok
  have hkept := List.length_filter_le (fun e : EvEntry => decide (seq < e.seq)) s.port.events
  refine (State.regFld_setFld_self _ _ 0 9 _ (by decide)).trans (Nat.mod_eq_of_lt ?_)
  exact lt_of_le_of_lt (hkept.trans hle) (by decide)

/-- Only the ports, the registers and what leaves the module differ. -/
def State.portFrame (s t : State) : Prop := t = { s with port := t.port, regs := t.regs, out := t.out }

theorem State.portFrame.trans (h : s.portFrame t) (k : t.portFrame u) : s.portFrame u := by
  rw [State.portFrame, k, h]

theorem SendsOnly.portFrame (h : SendsOnly s t) : s.portFrame t := by
  rw [State.portFrame, h.eq]

/-- The state in which a port that comes UP sends what was not sent. -/
def cameUp (p : Nat) (s : State) : State := reportLost (fun e => !e.sent) (s.setBit (dpPortStat p) 0)

theorem portState_up (hp : p < 2) (hdown : s.portUp p = false) : portState p true s =
    (sendEntries p ((cameUp p s).port.events.filter fun e => !e.sent) (cameUp p s)).modPort
      fun q => { q with events := q.events.map fun e => { e with sent := true } } := by
  rw [portState, if_neg (by simp [hdown]; omega), if_pos rfl]
  rfl

theorem cameUp_port (p : Nat) (s : State) : (cameUp p s).port = (reportLost (fun e => !e.sent) s).port := by
  have hport : (s.setBit (dpPortStat p) 0).port = s.port := rfl
  rw [cameUp, reportLost, reportLost, hport]
  split <;> rfl

/-- A port that comes UP: what was not sent leaves, then every entry counts as sent. -/
theorem portUp_effect (hp : p < 2) (hdown : s.portUp p = false) :
    let t := portState p true s
    t.portUp p = true ∧ t.port = { (reportLost (fun e => !e.sent) s).port with
        events := (reportLost (fun e => !e.sent) s).port.events.map fun e => { e with sent := true } } ∧
      (∀ e ∈ s.port.events, e.sent = false → ∃ l, l.length ≤ 64 ∧
        (∃ x ∈ l, x.seq = e.seq ∧ x.ev = { e.ev with lost := x.ev.lost }) ∧ Out.frame p (eventFrame l) ∈ t.out) ∧
      t = { s with port := t.port, regs := t.regs, out := t.out } ∧ s.sameRegs t [dpPortStat p] := by
  have hcame : cameUp p s = { s with port := (cameUp p s).port, regs := (s.setBit (dpPortStat p) 0).regs } := by
    rw [cameUp, reportLost_eq]
    rfl
  have hbit : (s.setBit (dpPortStat p) 0).portUp p = true := (State.regBit_setBit s _ 0 _ 0 (by decide)).trans (by simp)
  have hset : s.sameRegs (s.setBit (dpPortStat p) 0) [dpPortStat p] := sameRegs_setBit (sameRegs_refl s _) _ (by simp)
  have hport := cameUp_port p s
  have hsends := sendsOnly_sendEntries p ((cameUp p s).port.events.filter fun e => !e.sent) (cameUp p s)
  simp only [portState_up hp hdown]
  refine ⟨?_, ?_, fun e he hsent => ?_, ?_, ?_⟩
  · rw [hsends.eq, hcame]
    exact hbit
  · rw [hsends.eq]
    simp only [State.modPort, hport]
  · obtain ⟨x, hx, hseq, hxs, hev⟩ := mem_reportLost (fun e => !e.sent) he
    rw [← hport] at hx
    have hdue : x ∈ (cameUp p s).port.events.filter fun e => !e.sent := List.mem_filter.2 ⟨hx, by simp [hxs, hsent]⟩
    obtain ⟨c, hlen, hmem, hout⟩ := sendEntries_sends p hdue (cameUp p s)
    exact ⟨c, hlen, ⟨x, hmem, hseq, hev⟩, hout⟩
  · exact ((show s.portFrame (cameUp p s) by rw [State.portFrame, hcame]).trans hsends.portFrame).trans rfl
  · refine sameRegs_of_regs hset ?_
    rw [hsends.eq, hcame]
    rfl

theorem portState_down (hp : p < 2) (hup : s.portUp p = true) : portState p false s =
    ((s.clrBit (dpPortStat p) 0).setBit dpSticky 1).addCnt (dpPortCnt p) 16 16 1 := by
  rw [portState, if_neg (by simp [hup]; omega), if_neg Bool.false_ne_true]

theorem portRegs_ne (hp : p < 2) : dpPortStat p ≠ dpSticky ∧ dpPortStat p ≠ dpPortCnt p ∧ dpPortCnt p ≠ dpSticky := by
  interval_cases p <;> decide

/-- A port that goes DOWN is flagged and counted (R367). -/
theorem portDown_effect (hp : p < 2) (s : State) :
    let t := ((s.clrBit (dpPortStat p) 0).setBit dpSticky 1).addCnt (dpPortCnt p) 16 16 1
    t.portUp p = false ∧ t.regBit dpSticky 1 = true ∧ t.regFld (dpPortCnt p) 16 16 = min (s.regFld (dpPortCnt p) 16 16 + 1) 0xFFFF ∧
      s.sameRegs t [dpPortStat p, dpSticky, dpPortCnt p] := by
  obtain ⟨h1, h2, h3⟩ := portRegs_ne hp
  refine ⟨?_, ?_, ?_, ?_⟩
  · unfold State.portUp State.regBit
    rw [State.reg_addCnt_other _ h2, State.reg_setBit_other _ h1]
    exact (State.regBit_clrBit s _ 0 _ 0 (by decide)).trans (by simp)
  · unfold State.regBit
    rw [State.reg_addCnt_other _ h3.symm]
    exact (State.regBit_setBit _ _ 1 _ 1 (by decide)).trans (by simp)
  · refine (regFld_addCnt_self _ _ 16 16 1 (by decide)).trans ?_
    unfold State.regFld
    rw [State.reg_setBit_other _ h3, State.reg_clrBit, if_neg h2.symm]
    rfl
  · exact sameRegs_addCnt (sameRegs_setBit (sameRegs_clrBit (sameRegs_refl s _) _ (by simp)) _ (by simp)) _ _ _ (by simp)

/-- Settles O53: what is sent and what is marked are told apart; a resend goes over the ports, a port's entries in frames of 64. -/
theorem eventsReachTheHost : Obligations.EventsReachTheHost := by
  unfold Obligations.EventsReachTheHost
  refine ⟨fun s seq p f hears hty hseq hst hsafe => ?_, fun s hup => ?_, fun s h0 h1 => ?_, fun s p hp hdown => ?_, fun s p hp hup => ?_,
    fun s p => ?_⟩
  · subst hseq
    obtain ⟨hport, hlen, hregs⟩ := ackEvents_effect (leNat f.data) s
    exact ⟨_, (exec_evtAck hears hty hst hsafe).trans (answer_eq rfl), hport, hlen, rfl, hregs⟩
  · have hsends := sendsOnly_resentAll s
    have hport : (resentAll s).port = (reportLost (fun _ => true) s).port := by rw [hsends.eq]
    have hall : resentAll s = { s with port := (resentAll s).port, out := (resentAll s).out } := by
      rw [hport]
      conv_lhs => rw [hsends.eq, reportLost_eq]
    refine ⟨_, (congrArg (answer s) (eventResend_eq hup)).trans (answer_eq ?_), ?_, fun p e rest hp hpu hl he => ?_, fun p hp hpu e he => ?_, ?_⟩
    · rw [hall]
      rfl
    · simp only [State.modPort, hport]
    · obtain ⟨hpend, hfirst⟩ := reportLost_first hl he
      refine ⟨?_, ?_⟩
      · simp only [State.modPort, hport, hpend]
      · obtain ⟨r, hr⟩ := chunksOf_cons 63 { e with ev := { e.ev with lost := true } } rest
        exact ⟨r, mem_resentAll hp hpu fun t => mem_sendEntries (hfirst ▸ hr) p t⟩
    · obtain ⟨x, hx, hseq, -, hev⟩ := mem_reportLost (fun _ => true) he
      obtain ⟨c, hc, hlen, hmem⟩ := mem_chunksOf (n := 64) (by decide) hx
      cases c with
      | nil => simp at hmem
      | cons y r => exact ⟨y :: r, hlen, ⟨x, hmem, hseq, hev⟩, mem_resentAll hp hpu fun t => mem_sendEntries hc p t⟩
    · rw [hall]
      rfl
  · have : eventResend s = s := by rw [eventResend]; simp [List.filter, h0, h1]
    exact (congrArg (answer s) this).trans (answer_eq rfl)
  · obtain ⟨hbit, hport, hsent, heq, hregs⟩ := portUp_effect hp hdown
    exact ⟨portState p true s, answer_eq (by rw [heq]), hbit, hport, hsent, heq, hregs⟩
  · obtain ⟨hdown, hbit, hcnt, hregs⟩ := portDown_effect hp s
    exact ⟨_, (congrArg (answer s) (portState_down hp hup)).trans (answer_eq rfl), hdown, hbit, hcnt, rfl, hregs⟩
  · have : portState p (s.portUp p) s = s := if_pos (.inr rfl)
    exact (congrArg (answer s) this).trans (answer_eq rfl)

end Sys2Proof.Machine

end

section
/-! PROOFS. Images (R254 to R257, R268): verification, release, and activation that is scheduled. -/

namespace Sys2Proof.Machine

variable {s t : State} {tag slot : Nat}

/-! ### Slots -/

theorem nth_set {α : Type} (d : α) (l : List α) (i j : Nat) (x : α) (hi : i < l.length) :
    nth d (l.set i x) j = if j = i then x else nth d l j := by
  unfold nth
  rw [List.getD_eq_getElem?_getD, List.getElem?_set, List.getD_eq_getElem?_getD]
  by_cases h : i = j
  · subst h; simp [hi]
  · simp [h, Ne.symm h]

theorem slot_setSlot (hlen : s.img.slots.length = 4) (hs : slot < 4) (x : SlotSt) (i : Nat) :
    (setSlot slot x s).slot i = if i = slot then x else s.slot i :=
  nth_set ({} : SlotSt) s.img.slots slot i x (by omega)

theorem slot_congr (h : t.img.slots = s.img.slots) (i : Nat) : t.slot i = s.slot i := by
  unfold State.slot
  rw [h]

/-- A command that changes nothing but the slots is answered, and only slots and answers differ. -/
theorem commandNow_slot (h : servesNow s tag = true) {c : Cmd} {x : SlotSt} (hc : doCommand tag c s = (setSlot slot x s, stOK))
    (hlen : s.img.slots.length = 4) (hs : slot < 4) :
    ∃ t, answer s (commandNow tag c s) = .next t ∧ t.slot slot = x ∧ (∀ i, i ≠ slot → t.slot i = s.slot i) ∧
      s.answered t 0 (shortAnswer s tag (cmdOp c) stOK) ∧
      t = { s with img := { s.img with slots := t.img.slots }, port := { s.port with answers := t.port.answers }, out := t.out } := by
  rw [commandNow_served h, hc]
  have heq := answerOn_eq 0 { tag := tag, op := cmdOp c, status := stOK, fn := s.fn } (setSlot slot x s)
  have hslots : (answerOn 0 { tag := tag, op := cmdOp c, status := stOK, fn := s.fn } (setSlot slot x s)).img.slots =
      (setSlot slot x s).img.slots := by rw [heq]
  have hslot (i : Nat) := (slot_congr hslots i).trans (slot_setSlot hlen hs x i)
  refine ⟨_, answer_eq (by rw [heq]; rfl), ?_, fun i hi => ?_, answered_after rfl _, ?_⟩
  · rw [hslot, if_pos rfl]
  · rw [hslot, if_neg hi]
  · rw [heq]
    rfl

/-! ### Verification -/

/-- Two ranges of which one ends before the other begins. -/
theorem disjoint_pair {a m b n : Nat} (h : a + m ≤ b ∨ b + n ≤ a) : disjoint [(a, m), (b, n)] = true := by
  simp only [disjoint, List.all_cons, List.all_nil, Bool.and_true, Bool.or_eq_true, decide_eq_true_eq]
  omega

theorem cmdImgVerify_taken {addr len : Nat} (hlc : s.lcState = 2) (hrb : s.rebootReq = false) (hdb : s.debugOpen = false) (hs : slot < 4)
    (hst : (s.slot slot).state = 0) (ha : addr % 4096 = 0) (hend : addr + len ≤ s.img.hbmBytes)
    (hfree : ∀ i, i < 4 → i ≠ slot → (s.slot i).state ≠ 0 →
      (s.slot i).addr + (s.slot i).len ≤ addr ∨ addr + len ≤ (s.slot i).addr) :
    cmdImgVerify tag slot addr len s = (setSlot slot { state := 1, addr := addr, len := len, tag := tag } s, stOK) := by
  have hclear : ((((List.range 4).filter fun i => decide (i ≠ slot) && decide ((s.slot i).state ≠ 0)).map s.slot).all
      fun o => disjoint [(o.addr, o.len), (addr, len)]) = true := by
    rw [List.all_eq_true]
    intro o ho
    obtain ⟨i, hi, rfl⟩ := List.mem_map.1 ho
    simp only [List.mem_filter, List.mem_range, Bool.and_eq_true, decide_eq_true_eq] at hi
    exact disjoint_pair (hfree i hi.1 hi.2.1 hi.2.2)
  rw [cmdImgVerify]
  simp only [hclear]
  rw [if_neg (by simp [hlc, hrb, hdb, hst, ha]; omega)]

theorem cmdImgVerify_refused {addr len : Nat} (h : s.lcState ≠ 2 ∨ s.rebootReq = true ∨ s.debugOpen = true ∨ 4 ≤ slot ∨
    (s.slot slot).state ≠ 0 ∨ addr % 4096 ≠ 0 ∨ s.img.hbmBytes < addr + len) :
    cmdImgVerify tag slot addr len s = (s, stProgramError) := by
  rw [cmdImgVerify]
  exact if_pos (by tauto)

/-- The next tick takes the FRAME section of a whole image (R416). -/
def noteFrame (c : ImageContent) (t : State) : State := t.modImg fun g => { g with nextFrame := some c.frame }

/-- What the end of verification does before its event. -/
def verified (slot : Nat) (r : Option ImageContent) (s : State) : State :=
  match r with
  | none => setSlot slot {} s
  | some c => whenS (decide (c.kind = 0) && !s.active) (noteFrame c)
      (setSlot slot { s.slot slot with state := 2, content := some c } s)

theorem verifyDone_eq (hs : slot < 4) (hst : (s.slot slot).state = 1) (c? : Option ImageContent) :
    ∃ data, verifyDone slot c? s =
      raiseKind 1 (verifyImage s (s.slot slot) c?).1 slot data (verified slot (verifyImage s (s.slot slot) c?).2 s) := by
  unfold verifyDone
  simp only [hst, ne_eq, not_true, or_false, if_neg (show ¬4 ≤ slot by omega)]
  rcases verifyImage s (s.slot slot) c? with ⟨st, _ | c⟩
  · exact ⟨0, rfl⟩
  · exact ⟨c.imageId.toNat, rfl⟩

theorem verified_frame (slot : Nat) (r : Option ImageContent) (s : State) :
    verified slot r s = { s with img := (verified slot r s).img } ∧ (verified slot r s).img.whole = s.img.whole := by
  rcases r with _ | c
  · exact ⟨rfl, rfl⟩
  · simp only [verified]
    cases decide (c.kind = 0) && !s.active <;> exact ⟨rfl, rfl⟩

theorem verified_slots (slot : Nat) (c : ImageContent) (s : State) :
    (verified slot (some c) s).img.slots = (setSlot slot { s.slot slot with state := 2, content := some c } s).img.slots :=
  whenS_same (·.img.slots) _ (noteFrame c) (fun _ => rfl) _

/-- The end of verification: what becomes of the slot, and its event. -/
theorem exec_imageVerifyDone (hlen : s.img.slots.length = 4) (hs : slot < 4) (hst : (s.slot slot).state = 1) (c? : Option ImageContent) :
    ∃ t, exec (.imageVerifyDone slot c?) s = .next t ∧
      (∀ c, (verifyImage s (s.slot slot) c?).2 = some c → t.slot slot = { s.slot slot with state := 2, content := some c } ∧
        (c.kind = 0 → s.active = false → t.img.nextFrame = some c.frame)) ∧
      ((verifyImage s (s.slot slot) c?).2 = none → t.slot slot = {}) ∧ (∀ i, i ≠ slot → t.slot i = s.slot i) ∧
      (s.port.events.length < 256 → ∃ e, t.port.events.getLast? = some e ∧ e.ev.kind = 1 ∧
        e.ev.status = (verifyImage s (s.slot slot) c?).1 ∧ e.ev.addr = slot) ∧
      t.img.whole = s.img.whole ∧ s.sameBytes t ∧ s.sameRegs t eventRegs ∧ t.cores = s.cores ∧ t.fx = s.fx := by
  obtain ⟨data, hdone⟩ := verifyDone_eq hs hst c?
  generalize verifyImage s (s.slot slot) c? = r at hdone
  obtain ⟨heq, hwhole⟩ := verified_frame slot r.2 s
  generalize hu : verified slot r.2 s = u at hdone heq hwhole
  have hev := eventOnly_pushEvent (.refl u) { kind := 1, status := r.1, fn := u.fn, addr := slot, bitIx := 0, data := data }
  have hslots (i : Nat) : (verifyDone slot c? s).slot i = u.slot i := slot_congr (by rw [hdone]; exact congrArg _ hev.img) i
  have himg : (verifyDone slot c? s).img = u.img := by rw [hdone]; exact hev.img
  refine ⟨verifyDone slot c? s, answer_eq ?_, fun c hc => ⟨?_, fun hk ha => ?_⟩, fun hn => ?_, fun i hi => ?_, fun hroom => ?_, ?_, ?_, ?_, ?_, ?_⟩
  · rw [hdone]
    exact hev.pending.trans (by rw [heq])
  · rw [hslots, ← hu, hc, slot_congr (verified_slots slot c s), slot_setSlot hlen hs, if_pos rfl]
  · rw [himg, ← hu, hc]
    simp only [verified, hk, decide_true, ha, Bool.not_false, Bool.and_true, whenS_true]
    rfl
  · rw [hslots, ← hu, hn]
    exact (slot_setSlot hlen hs _ _).trans (if_pos rfl)
  · rw [hslots, ← hu]
    rcases r.2 with _ | c
    · exact (slot_setSlot hlen hs _ _).trans (if_neg hi)
    · rw [slot_congr (verified_slots slot c s), slot_setSlot hlen hs, if_neg hi]
  · obtain ⟨-, x, hx, hxe⟩ := pushEvent_joins { kind := 1, status := r.1, fn := u.fn, addr := slot, bitIx := 0, data := data } u
      (by rw [heq]; exact hroom)
    refine ⟨x, by rw [hdone]; exact hx, ?_, ?_, ?_⟩ <;> rw [hxe]
  · rw [himg, hwhole]
  · have hbytes : (verifyDone slot c? s).hbm = s.hbm ∧ (verifyDone slot c? s).spad = s.spad ∧ (verifyDone slot c? s).mac = s.mac ∧
        (verifyDone slot c? s).scale = s.scale := by
      rw [hdone]
      exact ⟨hev.hbm.trans (by rw [heq]), hev.spad.trans (by rw [heq]), hev.mac.trans (by rw [heq]), hev.scale.trans (by rw [heq])⟩
    obtain ⟨h1, h2, h3, h4⟩ := hbytes
    exact fun a => by rw [h1, h2, h3, h4]; exact ⟨rfl, rfl, rfl, rfl⟩
  · rw [hdone]
    exact sameRegs_trans (sameRegs_of_regs (sameRegs_refl s _) (by rw [heq])) (regs_pushEvent _ u)
  · rw [hdone]
    exact hev.cores.trans (by rw [heq])
  · rw [hdone]
    exact hev.fx.trans (by rw [heq])

theorem cmdImgRelease_refused (h : 4 ≤ slot ∨ (s.slot slot).state = 1 ∨ (s.slot slot).state = 3) :
    cmdImgRelease slot s = (s, stProgramError) := by
  rw [cmdImgRelease]
  exact if_pos h

theorem cmdImgRelease_taken (hs : slot < 4) (hst : (s.slot slot).state = 2) : cmdImgRelease slot s = (setSlot slot {} s, stOK) := by
  simp only [cmdImgRelease, hst]
  rw [if_neg (by omega), if_neg (by omega)]

/-- Settles O44: what each command does to its slot, and the answer that goes with it. -/
theorem imagesAreVerifiedAndReleased : Obligations.ImagesAreVerifiedAndReleased := by
  unfold Obligations.ImagesAreVerifiedAndReleased
  refine ⟨fun s tag slot addr len hserve hlen hlc hrb hdb hs hst ha hend hfree => ?_, fun s tag slot addr len hserve h => ?_,
    fun s slot c? hlen hs hst => exec_imageVerifyDone hlen hs hst c?, fun s slot c? hlen hs hst hok hkey hroom => ?_,
    fun s tag slot hserve hlen hs hst => ?_, fun s tag slot hserve h => ?_⟩
  · exact commandNow_slot hserve (c := .imgVerify slot addr len) (cmdImgVerify_taken hlc hrb hdb hs hst ha hend hfree) hlen hs
  · exact commandNow_refused hserve (c := .imgVerify slot addr len) (cmdImgVerify_refused h)
  · have hbad : verifyImage s (s.slot slot) c? = (stBadSignature, none) := by
      rw [verifyImage, hok, hkey]
      rfl
    obtain ⟨t, ht, -, hempty, -, hev, -⟩ := exec_imageVerifyDone hlen hs hst c?
    obtain ⟨e, he, -, hstatus, -⟩ := hev hroom
    rw [hbad] at hempty hstatus
    exact ⟨t, e, ht, hempty rfl, he, hstatus⟩
  · exact commandNow_slot hserve (c := .imgRelease slot) (cmdImgRelease_taken hs hst) hlen hs
  · exact commandNow_refused hserve (c := .imgRelease slot) (cmdImgRelease_refused h)

/-! ### Activation that is scheduled -/

/-- The pending activation of a command that is accepted (R257). -/
def pendOf (slot a h : Nat) (whole : Bool) : Pend := ⟨slot, BitVec.ofNat 64 a, h, 0, whole, false⟩

/-- The state in which an activation is pending; where no image gave a domain before, the frames to vote on begin now. -/
def scheduled (p : Pend) (s : State) : State :=
  whenS s.domain.isNone (fun t => t.modFx fun f => { f with nextFn := t.fn, noVote := [], received := [], old := [] })
    (s.modImg fun g => { g with pend := some p })

/-- What follows from a whole image that is accepted. -/
def awaits (p : Pend) (c : ImageContent) (s : State) : State :=
  ((scheduled p s).modFx fun f => { f with capHalt := false }).modPwr fun w =>
    { w with preRamp := preRampOf ((scheduled p s).modFx fun f => { f with capHalt := false }) c }

/-- Nothing but the pending activation, the pre-ramp and what the module votes on differs. -/
theorem awaits_effect (p : Pend) (c : ImageContent) (s : State) :
    ∃ f, f.cur = s.fx.cur ∧ f.halt = s.fx.halt ∧ f.capHalt = false ∧ awaits p c s =
      { s with img := { s.img with pend := some p }, pwr := { s.pwr with preRamp := preRampOf s c }, fx := f } := by
  unfold awaits scheduled
  cases s.domain.isNone
  · exact ⟨{ s.fx with capHalt := false }, rfl, rfl, rfl, rfl⟩
  · exact ⟨{ s.fx with nextFn := s.fn, noVote := [], received := [], old := [], capHalt := false }, rfl, rfl, rfl, rfl⟩

section
variable {a h : Nat} {c : ImageContent}

theorem cmdImgActivate_whole (hc : s.slotContent slot = some c) (hk : c.kind = 0) (hlc : s.lcState = 2) (hst : (s.slot slot).state = 2)
    (ha : s.fn.toNat + 3 ≤ a) (ha' : a < 2 ^ 64) (hp : s.img.pend = none) (hcap : withinCapacity s c.require = true) :
    cmdImgActivate slot a h s = (awaits (pendOf slot a h true) c s, stOK) := by
  rw [cmdImgActivate, hc]
  simp only [hk, hcap, decide_true, Bool.not_true, Bool.false_and, Bool.and_false, Bool.false_eq_true, if_false]
  rw [if_neg (by simp [hlc, hst, hp]; omega)]
  rfl

theorem cmdImgActivate_group {w : ImageContent} (hc : s.slotContent slot = some c) (hk : c.kind = 1) (hw : s.image = some w)
    (hid : w.sharedId = c.sharedId) (hsh : shiftOk h c = true) (hlc : s.lcState = 2) (hst : (s.slot slot).state = 2)
    (ha : s.fn.toNat + 3 ≤ a) (ha' : a < 2 ^ 64) (hp : s.img.pend = none) :
    cmdImgActivate slot a h s = (s.modImg fun g => { g with pend := some (pendOf slot a h false) }, stOK) := by
  have hdom : s.domain.isNone = false := by rw [State.domain, hw]; rfl
  rw [cmdImgActivate, hc]
  simp only [hk, hw, hid, hsh, hdom]
  rw [if_neg (by simp [hlc, hst, hp]; omega), if_neg (by simp [hid]), if_neg (by simp)]
  rfl

theorem cmdImgActivate_over (hc : s.slotContent slot = some c) (hk : c.kind = 0) (hlc : s.lcState = 2) (hst : (s.slot slot).state = 2)
    (ha : s.fn.toNat + 3 ≤ a) (ha' : a < 2 ^ 64) (hp : s.img.pend = none) (hcap : withinCapacity s c.require = false) :
    cmdImgActivate slot a h s = (s, stCapacityLowered) := by
  rw [cmdImgActivate, hc]
  simp only [hk, hcap, decide_true, Bool.not_true, Bool.false_and, Bool.false_eq_true, if_false]
  rw [if_neg (by simp [hlc, hst, hp]; omega)]
  rfl

theorem cmdImgActivate_refused (hno : s.slotContent slot = none ∨ s.lcState ≠ 2 ∨ (s.slot slot).state ≠ 2 ∨ a < s.fn.toNat + 3 ∨
    s.img.pend ≠ none) : cmdImgActivate slot a h s = (s, stProgramError) := by
  rw [cmdImgActivate]
  cases hc : s.slotContent slot with
  | none => rfl
  | some c =>
    refine if_pos ?_
    rcases hno with h | h | h | h | h
    · simp [hc] at h
    · exact .inl h
    · exact .inr (.inl h)
    · exact .inr (.inr (.inr (.inl h)))
    · exact .inr (.inr (.inr (.inr (Option.isSome_iff_ne_none.2 h))))

end

/-- Settles O45: the four cases of the command, each with its status. -/
theorem activationsAreScheduled : Obligations.ActivationsAreScheduled := by
  unfold Obligations.ActivationsAreScheduled
  refine ⟨fun s tag slot a h c hserve hc hk hlc hst ha ha' hp hcap => ?_,
    fun s tag slot a h c w hserve hc hk hw hid hsh hlc hst ha ha' hp => ?_, fun s tag slot a h c hserve hc hk hlc hst ha ha' hp hcap => ?_,
    fun s tag slot a h hserve hno => ?_⟩
  · have hdo := cmdImgActivate_whole (h := h) hc hk hlc hst ha ha' hp hcap
    obtain ⟨f, hcur, hhalt, hcap', heq⟩ := awaits_effect (pendOf slot a h true) c s
    have hrun : commandNow tag (.imgActivate slot a h) s = answerOn 0 (shortAnswer s tag 2 stOK) (awaits (pendOf slot a h true) c s) :=
      (commandNow_served hserve _).trans (by simp only [doCommand, hdo]; rfl)
    rw [heq] at hrun
    refine ⟨_, (congrArg (answer s) hrun).trans (answer_eq ?_), ?_⟩
    · rw [answerOn_eq]
    · refine ⟨?_, ?_, ?_, answered_after rfl _, ?_, ?_, ?_, fun x => ?_, fun x _ => ?_, ?_, ?_⟩
      all_goals rw [answerOn_eq]
      · rfl
      · exact hcap'
      · exact hcur
      · exact hhalt
      · exact ⟨rfl, rfl, rfl, rfl⟩
      · rfl
  · have hdo := cmdImgActivate_group (h := h) hc hk hw hid hsh hlc hst ha ha' hp
    refine ⟨_, (congrArg (answer s) (commandNow_served hserve (.imgActivate slot a h))).trans (answer_eq ?_), ?_⟩
    · simp only [doCommand, hdo, answerOn_eq]
      rfl
    · simp only [doCommand, hdo]
      refine ⟨?_, answered_after rfl _, ?_⟩
      · rw [answerOn_eq]
        rfl
      · rw [answerOn_eq]
        rfl
  · exact commandNow_refused hserve (c := .imgActivate slot a h) (cmdImgActivate_over hc hk hlc hst ha ha' hp hcap)
  · exact commandNow_refused hserve (c := .imgActivate slot a h) (cmdImgActivate_refused hno)

end Sys2Proof.Machine

end

section
/-! PROOFS. Commands over the Drundoha ports (R369, R371, R372): a register write leaves the ports UP, and how commands are queued and
taken. -/

namespace Sys2Proof.Machine

variable {s t u : State} {p tag : Nat} {f : Frame}

/-! ### No register write takes a port down -/

theorem portUp_of_reg (h : t.reg (dpPortStat p) = s.reg (dpPortStat p)) : t.portUp p = s.portUp p := by
  unfold State.portUp State.regBit
  rw [h]

theorem portUp_of_sameRegs {l : List Nat} (h : s.sameRegs t l) (hl : dpPortStat p ∉ l) : t.portUp p = s.portUp p :=
  portUp_of_reg (h _ hl)

theorem portUp_of_regs (h : t.regs = s.regs) : t.portUp p = s.portUp p := portUp_of_reg (State.reg_congr h _)

theorem dieA_le_coreA (blk core off : Nat) : dieA 0 0 ≤ coreA blk core off := by
  simp only [coreA, dieA]
  omega

section
variable (hp : p < 2)
include hp

/-- The state of a port lies off the fault log. -/
theorem offLog_portStat : OffLog (dpPortStat p) 0 where
  not_logRegs k hk := by
    simp only [logRegs, eventRegs, List.mem_append, List.mem_cons, List.not_mem_nil, or_false, logA, hubQA, hubA, fxLogHead, fxSticky,
      dpSticky, dpPortStat]
    omega
  not_count := by
    simp only [fxCnt, hubA, dpPortStat]
    omega
  line := by
    simp only [hubA, dpPortStat]
    omega
  low := by decide

theorem portStat_ne_die {a : Nat} (ha : dieA 0 0 ≤ a) : dpPortStat p ≠ a := by
  simp only [dpPortStat, hubA, dieA] at ha ⊢
  omega

theorem portUp_detectFault (l : Loc) (s : State) : (detectFault l s).portUp p = s.portUp p := (offLog_portStat hp).detectFault l s

theorem portUp_setBit_mcA (core off i : Nat) (s : State) : (s.setBit (mcA core off) i).portUp p = s.portUp p :=
  portUp_of_reg (State.reg_setBit_other _ (portStat_ne_die hp (dieA_le_coreA _ _ _)) _)

theorem portUp_mcFault (core kind block lm row bitIx det : Nat) (s : State) :
    (mcFault core kind block lm row bitIx det s).portUp p = s.portUp p := by
  rw [mcFault, portUp_detectFault hp, portUp_setBit_mcA hp]
  unfold mcRecord
  extract_lets st v
  split
  · rfl
  · refine portUp_of_reg (Eq.trans (State.reg_setReg_other _ _ (portStat_ne_die hp ?_)) ?_)
    · exact (dieA_le_coreA _ _ _).trans (Nat.le_add_right _ 4)
    · exact (State.reg_setReg_other _ _ (portStat_ne_die hp (dieA_le_coreA _ _ _))).trans
        (State.reg_setReg_other _ _ (portStat_ne_die hp (dieA_le_coreA _ _ _)))

theorem portUp_addCnt_mcA (core off lo w n : Nat) (s : State) : (s.addCnt (mcA core off) lo w n).portUp p = s.portUp p :=
  portUp_of_reg (State.reg_addCnt_other _ (portStat_ne_die hp (dieA_le_coreA _ _ _)) _ _ _)

end

/-! #### Window writes -/

theorem portUp_arrStore (pm o : Nat) (b : Byte) (s : State) : (arrStore pm o b s).portUp p = s.portUp p := rfl

theorem portUp_setColRes (pm fmt g j v : Nat) (s : State) : (setColRes pm fmt g j v s).portUp p = s.portUp p := rfl

theorem portUp_updateCols (pm fmt g : Nat) (s : State) : (updateCols pm fmt g s).portUp p = s.portUp p := by
  unfold updateCols
  refine forEach_same (·.portUp p) _ _ (fun w _ t => ?_) s
  dsimp only
  refine Eq.trans (portUp_of_regs rfl) (forEach_same (·.portUp p) _ _ (fun j _ u => ?_) t)
  exact portUp_setColRes _ _ _ _ _ _

theorem portUp_keepRowRes (t0 : State) (pm fmt r q : Nat) (s : State) : (keepRowRes t0 pm fmt r q s).portUp p = s.portUp p := by
  unfold keepRowRes
  split <;> rfl

theorem portUp_settleWord (pm fmt o : Nat) (m : BitVec 39) (s : State) : (settleWord pm fmt o m s).portUp p = s.portUp p := by
  unfold settleWord
  extract_lets w t r g chans
  have ht : t.portUp p = s.portUp p := forEach_same (·.portUp p) _ _ (fun i _ u => portUp_arrStore _ _ _ u) s
  split
  · exact ht
  · refine Eq.trans (forEach_same (·.portUp p) _ _ (fun j _ u => ?_) _) ((portUp_keepRowRes _ _ _ _ _ _).trans ht)
    exact portUp_setColRes _ _ _ _ _ _

section
variable (hp : p < 2)
include hp

theorem portUp_mergeWord (core lm o : Nat) (s : State) : (mergeWord core lm o s).portUp p = s.portUp p := by
  have hfault (b : Bool) (t : State) : (whenS b (mcFault core 1 (o % 64 / 8) lm (o / 64) 1 1) t).portUp p = t.portUp p :=
    whenS_same (·.portUp p) b (mcFault core 1 (o % 64 / 8) lm (o / 64) 1 1) (fun _ => portUp_mcFault hp _ _ _ _ _ _ _ _) t
  have hcorr (b : Bool) (t : State) : (whenS b (eccCorrected core) t).portUp p = t.portUp p :=
    whenS_same (·.portUp p) b (eccCorrected core)
      (fun _ => (portUp_addCnt_mcA hp _ _ _ _ _ _).trans (portUp_setBit_mcA hp _ _ _ _)) t
  unfold mergeWord correctWord
  cases eccOf (arrFlip s (s.pmIx core lm) o) with
  | clean => exact (hfault _ _).trans (hcorr _ _)
  | corrected m => exact ((hfault _ _).trans (hcorr _ _)).trans (portUp_settleWord _ _ _ _ _)
  | uncorr m => exact ((hfault _ _).trans (hcorr _ _)).trans (portUp_settleWord _ _ _ _ _)

theorem portUp_mergeRow (core lm r : Nat) (s : State) : (mergeRow core lm r s).portUp p = s.portUp p := by
  unfold mergeRow rowReadRes
  refine (forEach_same (·.portUp p) _ _ (fun _ _ _ => ?_) _).trans (forEach_same (·.portUp p) _ _ (fun _ _ _ => portUp_mergeWord hp _ _ _ _) s)
  exact (portUp_mcFault hp _ _ _ _ _ _ _ _).trans (portUp_addCnt_mcA hp _ _ _ _ _ _)

theorem portUp_writeArrBytes (core lm o : Nat) (bytes : List Byte) (s : State) : (writeArrBytes core lm o bytes s).portUp p = s.portUp p := by
  unfold writeArrBytes
  extract_lets pm fmt part s1 s2
  have h1 : s1.portUp p = s.portUp p := forEach_same (·.portUp p) _ _ (fun _ _ _ => portUp_updateCols _ _ _ _) s
  have h2 : s2.portUp p = s1.portUp p := forEach_same (·.portUp p) _ _ (fun _ _ _ => portUp_mergeRow hp _ _ _ _) s1
  refine (forEach_same (·.portUp p) _ _ (fun x _ t => ?_) s2).trans (h2.trans h1)
  exact whenS_same (·.portUp p) _ (fun u => u.setBit (mcA core 4) 8) (fun _ => portUp_setBit_mcA hp _ _ _ _) _

theorem portUp_windowWordWrite (core a : Nat) (v : Word) (s : State) : (windowWordWrite core a v s).1.portUp p = s.portUp p := by
  have hput (o : Nat) (l : List Byte) (t : State) :
      (if o / 32768 < t.macrosOf core then writeArrBytes core (o / 32768) (o % 32768) l t else t).portUp p = t.portUp p := by
    split
    · exact portUp_writeArrBytes hp _ _ _ _ _
    · rfl
  unfold windowWordWrite
  split
  · exact portUp_setBit_mcA hp _ _ _ _
  · split
    · rfl
    · split
      · rfl
      · exact (hput _ _ _).trans (hput _ _ _)

/-! #### Writes to registers -/

/-- The state of a port is a register whose stored part no write changes. -/
theorem portUp_storeReg (a : Nat) (v : Word) (s : State) : (storeReg a v s).portUp p = s.portUp p := by
  by_cases ha : dpPortStat p = a
  · subst ha
    have hrw : rwMask (dpPortStat p) = 0#32 := by interval_cases p <;> decide
    have hw1c : w1cMask (dpPortStat p) = 0#32 := by interval_cases p <;> decide
    refine portUp_of_reg ?_
    rw [storeReg, State.reg_setReg_self, hrw, hw1c]
    simp only [BitVec.and_zero, BitVec.or_zero, show ~~~(0#32) = BitVec.allOnes 32 from rfl, BitVec.and_allOnes]
  · exact portUp_of_reg (State.reg_setReg_other _ _ ha)

/-- No counter stands in the register of a port's state. -/
theorem portStat_not_counter (a : Nat) : ∀ e ∈ countersOf a, dpPortStat p ≠ e.2.1 := by
  unfold countersOf
  cases hat : regAt a with
  | hub o =>
    obtain ⟨-, ha, -⟩ := regAt_hub_inv hat
    subst ha
    dsimp only
    repeat' split
    all_goals
      simp only [List.forall_mem_cons, List.not_mem_nil, false_imp_iff, implies_true, and_true, hubA, ftCnt, hubNodeA, fxCnt,
        fxLogHead, fxEvtDrops, pgCnt, clWclCnt, clCnt, dpPortCnt, dpPortStat, biCnt]
      try omega
  | die d o =>
    dsimp only
    split
    · refine List.forall_mem_cons.2 ⟨portStat_ne_die hp ?_, List.forall_mem_nil _⟩
      simp only [dieNodeA, dieA]
      omega
    · exact List.forall_mem_nil _
  | core c blk r =>
    have hge : dieA 0 0 ≤ a := (regAt_core_inv hat).1
    have hnext : dpPortStat p ≠ a + 4 := portStat_ne_die hp (hge.trans (Nat.le_add_right _ _))
    have hcore (blk off : Nat) : dpPortStat p ≠ coreA blk c off := portStat_ne_die hp (dieA_le_coreA _ _ _)
    dsimp only
    repeat' split
    all_goals
      simp only [List.forall_mem_cons, List.not_mem_nil, false_imp_iff, implies_true, and_true, mcA, drA, spA, sqA, nmA, tkA, hcore,
        hnext, ne_eq, not_false_eq_true]
  | watch c td w => exact List.forall_mem_nil _
  | none => exact List.forall_mem_nil _

theorem portUp_clearCounters (a : Nat) (v : Word) (s : State) : (clearCounters a v s).portUp p = s.portUp p := by
  refine forEach_same (·.portUp p) _ _ (fun e he t => ?_) s
  refine whenS_same (·.portUp p) _ (fun u => u.setFld e.2.1 e.2.2.1 e.2.2.2 0) (fun u => ?_) t
  exact portUp_of_reg (State.reg_setFld_other _ (portStat_not_counter hp a e he) _ _ _)

theorem portUp_flushQueue (hub : Bool) (core q : Nat) (s : State) : (flushQueue hub core q s).portUp p = s.portUp p := by
  have hq (k : Nat) (hk : k < 2) (v : Nat) (t : State) : (t.setFld (hubQA k 4) 0 9 v).portUp p = t.portUp p :=
    portUp_of_reg (State.reg_setFld_other _ (by simp only [dpPortStat, hubQA, hubA]; omega) _ _ _)
  unfold flushQueue
  split
  · split
    · exact hq 0 (by decide) _ _
    · split
      · exact hq 1 (by decide) _ _
      · rfl
  · split
    · rfl
    · exact portUp_of_reg (State.reg_setFld_other _ (portStat_ne_die hp (dieA_le_coreA _ _ _)) _ _ _)

theorem portUp_writeClEn (v : Word) (s : State) : (writeClEn v s).1.portUp p = s.portUp p := by
  unfold writeClEn
  split
  · rfl
  · have hall : (forEach (List.range 32) (fun i t => linkEnable i v t) s).portUp p = s.portUp p := by
      refine forEach_same (·.portUp p) _ _ (fun i hi t => portUp_of_sameRegs (regs_linkEnable i v t) ?_) s
      have hlt := List.mem_range.1 hi
      simp only [enableRegs, stateRegs, eventRegs, List.mem_append, List.mem_cons, List.not_mem_nil, or_false, linkA, hubQA, hubA,
        fxCapSum, dpSticky, dpPortStat]
      omega
    exact (portUp_of_reg (State.reg_setReg_other _ _ (by simp only [dpPortStat, clEn, hubA]; omega))).trans hall

theorem portUp_writeEffect (a : Nat) (v : Word) (s : State) : (writeEffect a v s).1.portUp p = s.portUp p := by
  have hstored : (clearCounters a v (storeReg a v s)).portUp p = s.portUp p :=
    (portUp_clearCounters hp a v _).trans (portUp_storeReg hp a v s)
  have hflush (b hub : Bool) (core q : Nat) : (whenS b (flushQueue hub core q) (storeReg a v s)).portUp p = s.portUp p :=
    (whenS_same (·.portUp p) b (flushQueue hub core q) (fun _ => portUp_flushQueue hp _ _ _ _) _).trans (portUp_storeReg hp a v s)
  unfold writeEffect
  cases regAt a with
  | hub o =>
    dsimp only
    split_ifs
    · exact portUp_writeClEn hp v s
    · unfold writeClId
      split
      · rfl
      · exact portUp_of_reg (State.reg_setReg_other _ _ (by simp only [dpPortStat, clId, hubA]; omega))
    · rfl
    · unfold openDebug wipeOasis
      dsimp only
      have hlc (i : Nat) (t : State) : (t.setBit secLc i).portUp p = t.portUp p :=
        portUp_of_reg (State.reg_setBit_other _ (by simp only [dpPortStat, secLc, hubA]; omega) _)
      split
      · exact (hlc _ _).trans (hlc _ _)
      · rfl
    · rfl
    · refine Eq.trans ?_ (portUp_storeReg hp a v s)
      unfold sourceChanged
      dsimp only
      split
      · rfl
      · refine whenS_same (·.portUp p) _ (fun t => t.clrBit ftStatus 0) (fun t => portUp_of_reg ?_) _
        rw [State.reg_clrBit, if_neg (by simp only [dpPortStat, ftStatus, hubA]; omega)]
    · exact hflush _ _ _ _
    · exact hstored
  | core c blk r =>
    dsimp only
    split
    · exact hflush _ _ _ _
    · exact hstored
  | die d o => exact hstored
  | watch core td w => rfl
  | none => rfl

theorem portUp_writeReg (a : Nat) (v : Word) (s : State) : (writeReg a v s).1.portUp p = s.portUp p := by
  unfold writeReg
  split
  · rfl
  · exact portUp_windowWordWrite hp _ _ _ _
  · dsimp only
    split
    · rfl
    · split
      · rfl
      · exact portUp_writeEffect hp a v s

end

/-! ### The command FIFO -/

/-- The depth of a queue after a change stands in its status register (R279, R282). -/
theorem regFld_queueDepthChange (q d0 : Nat) {d1 : Nat} (hd : d1 < 512) (hq : hubQA q 4 ∉ eventRegs) (s : State) :
    (queueDepthChange q d0 d1 s).regFld (hubQA q 4) 0 9 = d1 := by
  have hlevel : (levelRule (hubQA q 0) d0 d1 s).1.regFld (hubQA q 4) 0 9 = d1 := by
    have hset (t : State) : (t.setFld (hubQA q 4) 0 9 d1).regFld (hubQA q 4) 0 9 = d1 :=
      (State.regFld_setFld_self t (hubQA q 4) 0 9 d1 (by decide)).trans (Nat.mod_eq_of_lt hd)
    refine Eq.trans (whenS_same (·.regFld (hubQA q 4) 0 9) _ (fun t => t.setBit (hubQA q 4) 16) (fun t => ?_) _) (hset _)
    refine State.regFld_congr fun j _ hj => ?_
    rw [State.regBit_setBit _ _ _ _ _ (by decide), if_pos rfl, decide_eq_false (by omega), Bool.false_or]
  unfold queueDepthChange
  generalize levelRule (hubQA q 0) d0 d1 s = r at hlevel
  obtain ⟨t, news⟩ := r
  exact (whenS_same (·.regFld (hubQA q 4) 0 9) news (raise0 (hubQA q 4) 16 stOK q)
    (fun u => regFld_of_reg (regs_pushEvent _ u _ hq) 0 9) t).trans hlevel

theorem eventful_queueDepthChange (q d0 d1 : Nat) (s : State) : Eventful s (queueDepthChange q d0 d1 s) :=
  (eventful_levelRule (hubQA q 0) d0 d1 s).trans (eventful_whenS _ (fun t => eventful_pushEvent _ t) _)

/-- A CMD frame that is served comes to the command FIFO. -/
theorem exec_cmdFrame (h : s.hears p f = true) (hty : f.ftype = 1) (hserve : servesNow s f.tag = true) :
    exec (.cmdFrame p f) s = answer s (pushCommand p f.tag (cmdOf f) s) := by
  have hst : 3 ≤ s.stage := by
    have := (servesNow_spec hserve).1
    omega
  have hfrm : serveFrame p f s = pushCommand p f.tag (cmdOf f) s := by
    rw [serveFrame, hty]
    exact request_served hserve _ _ _ _
  exact congrArg (answer s) ((takeFrame_heard h hst).trans hfrm)

theorem pushCommand_room (hroom : s.port.fifo.length < 64) (c : Cmd) : pushCommand p tag c s =
    queueDepthChange 0 s.port.fifo.length (s.port.fifo.length + 1)
      (s.modPort fun q => { q with fifo := q.fifo ++ [{ port := p, tag := tag, cmd := c }] }) := by
  rw [pushCommand]
  exact if_neg (by omega)

/-- A command joins the FIFO (R372, R281). -/
theorem exec_cmdFrame_queued (h : s.hears p f = true) (hty : f.ftype = 1) (hserve : servesNow s f.tag = true)
    (hroom : s.port.fifo.length < 64) :
    ∃ t, exec (.cmdFrame p f) s = .next t ∧ t.port.fifo = s.port.fifo ++ [{ port := p, tag := f.tag, cmd := cmdOf f }] ∧
      t.port.answers = s.port.answers ∧ t.regFld (hubQA 0 4) 0 9 = s.port.fifo.length + 1 ∧
      t = { s with port := t.port, regs := t.regs, out := t.out, svc := t.svc } ∧
      s.sameRegs t (hubQA 0 4 :: hubQA 0 8 :: eventRegs) := by
  generalize hu : (s.modPort fun q => { q with fifo := q.fifo ++ [{ port := p, tag := f.tag, cmd := cmdOf f }] }) = u
  have hex := (exec_cmdFrame h hty hserve).trans (congrArg (answer s) (pushCommand_room hroom (cmdOf f)))
  rw [hu] at hex
  have hev := eventOnly_queueDepthChange 0 s.port.fifo.length (s.port.fifo.length + 1) u
  have hport := (eventful_queueDepthChange 0 s.port.fifo.length (s.port.fifo.length + 1) u).port
  have hregs := regs_queueDepthChange 0 s.port.fifo.length (s.port.fifo.length + 1) u
  refine ⟨_, hex.trans (answer_eq ?_), ?_, ?_, regFld_queueDepthChange 0 _ (by omega) (by decide) u, ?_, ?_⟩
  · exact hev.pending.trans (by rw [← hu]; rfl)
  · rw [hport, ← hu]
    rfl
  · rw [hport, ← hu]
    rfl
  · conv_lhs => rw [hev.eq]
    rw [← hu]
    rfl
  · exact sameRegs_trans (sameRegs_of_regs (sameRegs_refl s _) (by rw [← hu]; rfl)) hregs

theorem regs_answerOn (p : Nat) (a : Answer) (s : State) : (answerOn p a s).regs = s.regs := by rw [answerOn_eq]

theorem regBit_answerOn (p : Nat) (a : Answer) (s : State) (b i : Nat) : (answerOn p a s).regBit b i = s.regBit b i :=
  regBit_of_reg (State.reg_congr (regs_answerOn p a s) b) i

/-- The full command FIFO is recorded (R281). -/
def cmdFull (s : State) : State := ((s.setBit (hubQA 0 4) 18).addCnt (hubQA 0 8) 16 16 1).setBit dpSticky 2

theorem cmdFull_effect (s : State) : s.regsDiffer (cmdFull s) ∧ s.sameRegs (cmdFull s) [hubQA 0 4, hubQA 0 8, dpSticky] ∧
    (cmdFull s).regBit (hubQA 0 4) 18 = true ∧ (cmdFull s).regBit dpSticky 2 = true := by
  refine ⟨regsDiffer_setReg (regsDiffer_setReg (regsDiffer_setReg (regsDiffer_refl s) _ _) _ _) _ _, ?_, ?_, ?_⟩
  · exact sameRegs_setBit (sameRegs_addCnt (sameRegs_setBit (sameRegs_refl s _) _ (by simp)) _ _ _ (by simp)) _ (by simp)
  · refine (regBit_of_reg ((State.reg_setBit_other _ (by decide) 2).trans (State.reg_addCnt_other _ (by decide) _ _ _)) 18).trans ?_
    exact (State.regBit_setBit _ _ 18 _ 18 (by decide)).trans (by simp)
  · exact (State.regBit_setBit _ _ 2 _ 2 (by decide)).trans (by simp)

theorem pushCommand_full (hfull : 64 ≤ s.port.fifo.length) (c : Cmd) :
    pushCommand p tag c s = reply p tag (cmdOp c) stNotReady (cmdFull s) := by
  rw [pushCommand]
  exact if_pos hfull

theorem reply_after (h : s.regsDiffer u) (p tag op st : Nat) : reply p tag op st u = answerOn p (shortAnswer s tag op st) u := by
  have hfn : u.fn = s.fn := by rw [h]; rfl
  rw [reply, hfn, shortAnswer]

/-- A command is refused at a full FIFO (R281). -/
theorem exec_cmdFrame_full (h : s.hears p f = true) (hty : f.ftype = 1) (hserve : servesNow s f.tag = true)
    (hfull : 64 ≤ s.port.fifo.length) :
    ∃ t, exec (.cmdFrame p f) s = .next t ∧ s.answered t p (shortAnswer s f.tag (cmdOp (cmdOf f)) stNotReady) ∧
      t.regBit (hubQA 0 4) 18 = true ∧ t.regBit dpSticky 2 = true ∧ t.port.fifo = s.port.fifo ∧
      t = { s with port := { s.port with answers := t.port.answers }, out := t.out, regs := t.regs } ∧
      s.sameRegs t [hubQA 0 4, hubQA 0 8, dpSticky] := by
  have hp : p < 2 := by
    simp only [State.hears, Bool.and_eq_true, decide_eq_true_eq] at h
    exact h.1.1
  obtain ⟨heq, hregs, hovf, hbit⟩ := cmdFull_effect s
  have hrun := (exec_cmdFrame h hty hserve).trans (congrArg (answer s) ((pushCommand_full hfull (cmdOf f)).trans (reply_after heq _ _ _ _)))
  generalize cmdFull s = u at *
  have hup : s.portUp p = u.portUp p := by
    refine (portUp_of_sameRegs hregs ?_).symm
    simp only [dpPortStat, hubQA, hubA, dpSticky, List.mem_cons, List.not_mem_nil, or_false]
    omega
  refine ⟨_, hrun.trans (answer_eq ?_), answered_after hup _, (regBit_answerOn _ _ _ _ _).trans hovf,
    (regBit_answerOn _ _ _ _ _).trans hbit, ?_, ?_, ?_⟩
  all_goals rw [answerOn_eq]
  · rw [heq]
  · rw [heq]
  · rw [heq]
  · exact sameRegs_of_regs hregs rfl

/-! ### Frames of any row -/

theorem exec_frameRows {i : Instr} (h : i ∈ frameRows p f) (s : State) : exec i s = answer s (takeFrame p f s) := by
  simp only [frameRows, List.mem_cons, List.not_mem_nil, or_false] at h
  obtain rfl | rfl | rfl | rfl | rfl | rfl | rfl | rfl | rfl | rfl := h <;> rfl

/-- A malformed frame is discarded and counted (R369). -/
theorem exec_badFrame (hp : p < 2) (hup : s.portUp p = true) (hst : 3 ≤ s.stage) (hbad : frameBad f = true) {i : Instr}
    (hi : i ∈ frameRows p f) :
    ∃ t, exec i s = .next t ∧ t.regBit dpSticky 0 = true ∧
      t.regFld (dpPortCnt p) 0 16 = min (s.regFld (dpPortCnt p) 0 16 + 1) 0xFFFF ∧ t = { s with regs := t.regs } ∧
      s.sameRegs t [dpSticky, dpPortCnt p] := by
  have hne : dpSticky ≠ dpPortCnt p := by
    simp only [dpSticky, dpPortCnt, hubA]
    omega
  have htake : takeFrame p f s = badFrame p s := by
    rw [takeFrame, if_neg (by simp [frameHeard, hp, hup, hst]), if_pos hbad]
  refine ⟨_, (exec_frameRows hi s).trans ((congrArg (answer s) htake).trans (answer_eq rfl)), ?_, ?_, rfl, ?_⟩
  · refine (regBit_of_reg (State.reg_addCnt_other _ hne _ _ _) 0).trans ?_
    exact (State.regBit_setBit _ _ 0 _ 0 (by decide)).trans (by simp)
  · refine (regFld_addCnt_self _ _ 0 16 1 (by decide)).trans ?_
    rw [regFld_of_reg (State.reg_setBit_other _ hne.symm 0)]
    norm_num
  · exact sameRegs_addCnt (sameRegs_setBit (sameRegs_refl s _) _ (by simp)) _ _ _ (by simp)

/-- A request whose TAG is that of an answer kept gets that answer again (R371). -/
theorem request_repeated {a : Answer} (ha : (s.port.answers.find? fun a => a.tag = tag) = some a) (hup : s.portUp p = true) (op : Nat)
    (k : ReqKind) (serve : State → State) :
    request p tag op k serve s = { s with out := .frame p (answerFrame a) :: s.out } := by
  rw [request, ha]
  dsimp only
  rw [hup, whenS_true]
  rfl

theorem exec_repeatedTag {a : Answer} (h : s.hears p f = true) (hlo : 1 ≤ f.ftype) (hhi : f.ftype ≤ 4) (hst : 3 ≤ s.stage)
    (ha : (s.port.answers.find? fun a => a.tag = f.tag) = some a) {i : Instr} (hi : i ∈ frameRows p f) :
    exec i s = .next { s with out := .frame p (answerFrame a) :: s.out } := by
  have hup : s.portUp p = true := by
    simp only [State.hears, Bool.and_eq_true] at h
    exact h.1.2
  have hserve : serveFrame p f s = { s with out := .frame p (answerFrame a) :: s.out } := by
    unfold serveFrame
    obtain hty | hty | hty | hty : f.ftype = 1 ∨ f.ftype = 2 ∨ f.ftype = 3 ∨ f.ftype = 4 := by omega
    all_goals
      rw [hty]
      exact request_repeated ha hup _ _ _
  rw [exec_frameRows hi, takeFrame_heard h hst, hserve]
  exact answer_eq rfl

/-! ### Commands at their tick -/

/-- A command that changes the commit unit alone, and is then answered. -/
theorem commandNow_fx (h : servesNow s tag = true) {c : Cmd} {x : CommitSt} {st : Nat} (hc : doCommand tag c s = ({ s with fx := x }, st)) :
    ∃ t, answer s (commandNow tag c s) = .next t ∧ t.fx = x ∧ s.answered t 0 (shortAnswer s tag (cmdOp c) st) ∧
      t = { s with fx := t.fx, port := { s.port with answers := t.port.answers }, out := t.out } := by
  rw [commandNow_served h, hc]
  have heq := answerOn_eq 0 { tag := tag, op := cmdOp c, status := st, fn := s.fn } { s with fx := x }
  refine ⟨_, answer_eq (by rw [heq]), by rw [heq], answered_after rfl _, ?_⟩
  rw [heq]

/-! #### Shape registers -/

theorem shpA_inj {i j n : Nat} (hn : n < 64) : shpA i n = shpA j n ↔ i = j := by
  refine ⟨fun h => ?_, fun h => h ▸ rfl⟩
  simp only [shpA, sqA, coreA, dieA] at h
  omega

theorem reg_forEach_setReg {β : Type} (at_ : β → Nat) (v : Word) (l : List β) (b : Nat) (s : State) :
    (forEach l (fun x t => t.setReg (at_ x) v) s).reg b = if b ∈ l.map at_ then v else s.reg b := by
  induction l generalizing s with
  | nil => simp
  | cons x xs ih =>
    rw [forEach_cons, ih, State.reg_setReg, List.map_cons]
    by_cases hx : b = at_ x <;> by_cases hxs : b ∈ xs.map at_ <;> simp [hx, hxs]

theorem regsDiffer_forEach_setReg {β : Type} (at_ : β → Nat) (v : Word) (l : List β) (s : State) :
    s.regsDiffer (forEach l (fun x t => t.setReg (at_ x) v) s) :=
  forEach_keeps s.regsDiffer l _ (fun _ _ _ h => regsDiffer_setReg h _ _) s (regsDiffer_refl s)

/-- SHP_SET gives the shape register of every offered core of its mask the value, and no other register (R372). -/
theorem reg_setShapes (mask : BitVec 768) {n : Nat} (hn : n < 64) (v : Word) (s : State) :
    (∀ i, i < 768 → (setShapes mask n v s).reg (shpA i n) = if bit mask i && s.coreOffered i then v else s.reg (shpA i n)) ∧
      s.sameRegs (setShapes mask n v s) ((List.range 768).map fun i => shpA i n) := by
  have hreg (b : Nat) := reg_forEach_setReg (fun i => shpA i n) v ((List.range 768).filter fun i => bit mask i && s.coreOffered i) b s
  refine ⟨fun i hi => (hreg _).trans (if_congr ?_ rfl rfl), fun b hb => (hreg b).trans (if_neg fun h => hb ?_)⟩
  · simp only [List.mem_map, List.mem_filter, List.mem_range, shpA_inj hn]
    exact ⟨fun ⟨j, ⟨_, hj⟩, e⟩ => e ▸ hj, fun h => ⟨i, ⟨hi, h⟩, rfl⟩⟩
  · obtain ⟨j, hj, rfl⟩ := List.mem_map.1 h
    exact List.mem_map.2 ⟨j, (List.mem_filter.1 hj).1, rfl⟩

theorem exec_shpSet (h : servesNow s tag = true) (mask : BitVec 768) {n : Nat} (hn : n < 64) (v : Word) :
    ∃ t, exec (.shpSet tag mask n v) s = .next t ∧ s.answered t 0 (shortAnswer s tag 6 stOK) ∧
      (∀ i, i < 768 → t.reg (shpA i n) = if bit mask i && s.coreOffered i then v else s.reg (shpA i n)) ∧
      s.sameRegs t ((List.range 768).map fun i => shpA i n) ∧
      t = { s with regs := t.regs, fx := { s.fx with cur := { s.fx.cur with shpSets := s.fx.cur.shpSets ++ [(mask, n, v)] } },
                   port := { s.port with answers := t.port.answers }, out := t.out } := by
  have hdiff : s.regsDiffer (setShapes mask n v s) := regsDiffer_forEach_setReg _ _ _ _
  obtain ⟨hset, hsame⟩ := reg_setShapes mask hn v s
  have hdo : doCommand tag (.shpSet mask n v) s =
      ((setShapes mask n v s).modCur fun f => { f with shpSets := f.shpSets ++ [(mask, n, v)] }, stOK) := if_neg (by omega)
  have hrun : exec (.shpSet tag mask n v) s = answer s (answerOn 0 (shortAnswer s tag 6 stOK)
      ((setShapes mask n v s).modCur fun f => { f with shpSets := f.shpSets ++ [(mask, n, v)] })) := by
    refine congrArg (answer s) ((commandNow_served h _).trans ?_)
    rw [hdo]
    rfl
  generalize setShapes mask n v s = u at *
  have hup : s.portUp 0 = u.portUp 0 := by
    refine (portUp_of_sameRegs hsame fun hm => ?_).symm
    obtain ⟨j, -, hj⟩ := List.mem_map.1 hm
    exact portStat_ne_die (p := 0) (by decide) (dieA_le_coreA _ _ _) hj.symm
  have heq := answerOn_eq 0 (shortAnswer s tag 6 stOK) (u.modCur fun f => { f with shpSets := f.shpSets ++ [(mask, n, v)] })
  refine ⟨_, hrun.trans (answer_eq ?_), ?_, fun i hi => ?_, ?_, ?_⟩
  · rw [heq, hdiff]
    rfl
  · exact answered_after (t := u.modCur _) (hup.trans (portUp_of_regs rfl).symm) _
  · exact (State.reg_congr (regs_answerOn _ _ _) _).trans (hset i hi)
  · exact sameRegs_of_regs hsame (regs_answerOn _ _ _)
  · rw [heq]
    conv_lhs => rw [hdiff]
    conv_rhs => rw [hdiff]
    rfl

/-! #### Register writes -/

theorem exec_regWrite (h : servesNow s tag = true) (a : Nat) (v : Word) :
    ∃ t, exec (.regWrite tag a v) s = .next t ∧ s.answered t 0 (shortAnswer s tag 7 (writeReg a v s).2) ∧
      t = { (writeReg a v s).1 with
        pending := s.pending, out := t.out, port := { (writeReg a v s).1.port with answers := t.port.answers } } := by
  have hup := portUp_writeReg (p := 0) (by decide) a v s
  have hrun : exec (.regWrite tag a v) s = answer s (answerOn 0 (shortAnswer s tag 7 (writeReg a v s).2) (writeReg a v s).1) :=
    congrArg (answer s) (commandNow_served h _)
  generalize writeReg a v s = r at *
  have heq := answerOn_eq 0 (shortAnswer s tag 7 r.2) r.1
  refine ⟨_, hrun.trans (answer_next _ _), answered_after hup.symm _, ?_⟩
  rw [heq]

/-- Settles O49: each command runs `commandNow` or `pushCommand`, whose effect the lemmas above give. -/
theorem commandsAreQueuedAndTaken : Obligations.CommandsAreQueuedAndTaken := by
  unfold Obligations.CommandsAreQueuedAndTaken
  refine ⟨fun s p f h hty hserve hroom => exec_cmdFrame_queued h hty hserve hroom,
    fun s p f h hty hserve hfull => exec_cmdFrame_full h hty hserve hfull, fun s p f hp hup hst hbad i hi => ?_,
    fun s p f a h hlo hhi hst ha i hi => exec_repeatedTag h hlo hhi hst ha hi, fun s tag r h hhalt hlo hhi => ?_,
    fun s tag r h hlo => ?_, fun s tag peer h hhalt hpeer => ?_, fun s tag peer h hhalt => ?_,
    fun s tag n mask v h hn => exec_shpSet h mask hn v, fun s tag n mask v h hn => ?_, fun s tag a v h => exec_regWrite h a v⟩
  · refine exec_badFrame hp hup hst ?_ hi
    simp only [frameBad, Bool.or_eq_true, decide_eq_true_eq, Bool.not_eq_true']
    tauto
  · exact commandNow_fx h (c := .fxResume r) (if_neg (by omega))
  · exact commandNow_refused h (c := .fxResume r) (if_pos (.inr (.inr (.inl hlo))))
  · exact commandNow_fx h (c := .fxExport peer) (if_neg (by omega))
  · exact commandNow_refused h (c := .fxExport peer) (if_pos (.inl hhalt))
  · exact commandNow_refused h (c := .shpSet mask n v) (if_pos hn)

end Sys2Proof.Machine

end

section
/-! PROOFS. WRITE over a Drundoha port (R255, R376 to R378): bytes are stored, staged or dropped. -/

namespace Sys2Proof.Machine

variable {s t u : State} {p : Nat} {f : Frame}

/-! ### Runs of HBM -/

theorem mem_rangeFrom {x a n : Nat} : x ∈ rangeFrom a n ↔ a ≤ x ∧ x < a + n := by
  induction n generalizing a with
  | zero =>
    simp only [rangeFrom, List.not_mem_nil, false_iff]
    omega
  | succ n ih =>
    rw [rangeFrom, List.mem_cons, ih]
    omega

/-- A run that lies below the usable bytes of HBM is one of HBM (R17). -/
theorem runAt_hbm {a n : Nat} (hn : 0 < n) (h : a + n ≤ s.img.hbmBytes) : runAt s a n = .hbm := by
  have hlocal (x : Nat) (hx : a ≤ x ∧ x < a + n) : localAddr s x = .hbm x := if_pos (by omega)
  unfold runAt
  extract_lets part first
  have hpart (x : Nat) (hx : a ≤ x ∧ x < a + n) : part x = .hbm := by simp only [part, hlocal x hx]
  have hfirst : first = .hbm := hpart a (by omega)
  rw [if_pos (List.all_eq_true.2 fun x hx => by simp [hpart x (mem_rangeFrom.1 hx), hfirst]), hlocal a (by omega)]
  exact hfirst

theorem hbmStoreRun_cons (a : Nat) (b : Byte) (l : List Byte) (s : State) :
    hbmStoreRun a (b :: l) s = hbmStoreRun (a + 1) l (hbmStore a b s) := rfl

/-- Bytes and marks of HBM alone differ. -/
def State.hbmFrame (s t : State) : Prop := t = { s with hbm := t.hbm, err := { s.err with hbmBad := t.err.hbmBad } }

theorem State.hbmFrame.trans (h : s.hbmFrame t) (k : t.hbmFrame u) : s.hbmFrame u := by
  rw [State.hbmFrame, k, h]

theorem hbmFrame_hbmStoreRun (a : Nat) (l : List Byte) (s : State) : s.hbmFrame (hbmStoreRun a l s) := by
  induction l generalizing a s with
  | nil => rfl
  | cons b l ih =>
    rw [hbmStoreRun_cons]
    exact State.hbmFrame.trans (t := hbmStore a b s) rfl (ih _ _)

theorem get_hbmStoreRun_outside {a x : Nat} (l : List Byte) (s : State) (h : x < a ∨ a + l.length ≤ x) :
    Mem.get (hbmStoreRun a l s).hbm x = Mem.get s.hbm x := by
  induction l generalizing a s with
  | nil => rfl
  | cons b l ih =>
    simp only [List.length_cons] at h
    rw [hbmStoreRun_cons, ih _ (by omega)]
    exact Mem.get_set_other _ _ (by omega)

theorem get_hbmStoreRun {a : Nat} (l : List Byte) (s : State) {i : Nat} (hi : i < l.length) :
    Mem.get (hbmStoreRun a l s).hbm (a + i) = nth 0 l i := by
  induction l generalizing a s i with
  | nil => exact absurd hi (Nat.not_lt_zero i)
  | cons b l ih =>
    rw [hbmStoreRun_cons]
    cases i with
    | zero => exact (get_hbmStoreRun_outside l _ (by omega)).trans (Mem.get_set_self _ _ _)
    | succ i =>
      rw [show a + (i + 1) = a + 1 + i by omega]
      exact ih _ (by simpa using hi)

theorem hbmBad_hbmStore (a : Nat) (b : Byte) (s : State) (x : Nat) :
    hbmBad (hbmStore a b s) x = if x / 64 = a / 64 then false else hbmBad s x := SMap.get_set _ _ _ _ _

theorem hbmBad_hbmStoreRun_false {a x : Nat} (l : List Byte) (h : hbmBad s x = false) : hbmBad (hbmStoreRun a l s) x = false := by
  induction l generalizing a s with
  | nil => exact h
  | cons b l ih =>
    rw [hbmStoreRun_cons]
    refine ih ?_
    rw [hbmBad_hbmStore, h, ite_self]

/-- Stored bytes are good (R376). -/
theorem hbmBad_hbmStoreRun {a : Nat} (l : List Byte) (s : State) {i : Nat} (hi : i < l.length) :
    hbmBad (hbmStoreRun a l s) (a + i) = false := by
  induction l generalizing a s i with
  | nil => exact absurd hi (Nat.not_lt_zero i)
  | cons b l ih =>
    rw [hbmStoreRun_cons]
    cases i with
    | zero => exact hbmBad_hbmStoreRun_false l ((hbmBad_hbmStore a b s a).trans (if_pos rfl))
    | succ i =>
      rw [show a + (i + 1) = a + 1 + i by omega]
      exact ih _ (by simpa using hi)

/-! ### A WRITE that is served -/

/-- A WRITE that is heard has from 1 to 4,096 bytes (Table 15.2). -/
theorem data_pos_of_hears (h : s.hears p f = true) (hty : f.ftype = 2) : 0 < f.data.length := by
  simp only [State.hears, Bool.and_eq_true, Bool.not_eq_true', frameBad, Bool.or_eq_false_iff, Bool.not_eq_false', frameLenOk, hty] at h
  obtain ⟨-, ⟨⟨⟨-, hlen⟩, -⟩, -⟩, -⟩ := h
  simp only [show ¬(2 : Nat) = 3 by decide, show ¬(2 : Nat) = 1 by decide, if_false, if_true, Bool.and_eq_true, decide_eq_true_eq] at hlen
  exact hlen.2.1

section
variable (h : s.hears p f = true) (hty : f.ftype = 2) (hserve : servesNow s f.tag = true)
  (hin : f.addr + f.data.length ≤ s.img.hbmBytes)
include h hty hserve

theorem exec_write : exec (.write p f) s = answer s (serveWrite p f.tag f.addr f.data s) := by
  have hst : 3 ≤ s.stage := by
    have := (servesNow_spec hserve).1
    omega
  have hfrm : serveFrame p f s = serveWrite p f.tag f.addr f.data s := by
    rw [serveFrame, hty]
    exact request_served hserve _ _ _ _
  exact congrArg (answer s) ((takeFrame_heard h hst).trans hfrm)

include hin

theorem runAt_write : runAt s f.addr f.data.length = .hbm := runAt_hbm (data_pos_of_hears h hty) hin

/-- The bytes of a WRITE to HBM that no image holds, or to its staging range, are stored (R376, R377). -/
theorem serveWrite_stored (hlock : runLocked s f.addr f.data.length = false)
    (hto : s.active = false ∨ inStaging s f.addr f.data.length = true) :
    serveWrite p f.tag f.addr f.data s = reply p f.tag 0 stOK (hbmStoreRun f.addr f.data s) := by
  have hrun := runAt_write h hty hserve hin
  unfold serveWrite
  cases hact : s.active with
  | true =>
    have hst : inStaging s f.addr f.data.length = true := hto.resolve_left (by simp [hact])
    rw [if_pos rfl, writeActive]
    simp only [hrun, hlock, hst, if_true, Bool.false_eq_true, if_false]
  | false =>
    rw [if_neg (by decide), writeFree]
    simp only [hrun, hlock, Bool.false_eq_true, if_false]

/-- A WRITE into a locked slot range is dropped (R255). -/
theorem serveWrite_locked (hlock : runLocked s f.addr f.data.length = true) :
    serveWrite p f.tag f.addr f.data s = reply p f.tag 0 stProgramError (lockedWrite s).1 := by
  have hrun := runAt_write h hty hserve hin
  unfold serveWrite
  cases hact : s.active with
  | true =>
    rw [if_pos rfl, writeActive]
    simp only [hrun, hlock, if_true]
    rfl
  | false =>
    rw [if_neg (by decide), writeFree]
    simp only [hrun, hlock, if_true]
    rfl

theorem writeActive_staged (hlock : runLocked s f.addr f.data.length = false) (hst : inStaging s f.addr f.data.length = false)
    (hst1 : inStaging s f.addr 1 = false) (hw : inWeights s f.addr f.data.length = false) :
    writeActive p f.tag f.addr f.data s = stageInput p f.tag f.addr f.data s := by
  rw [writeActive]
  simp only [runAt_write h hty hserve hin, hlock, hst, hst1, hw, Bool.false_eq_true, if_false, Bool.or_self]

theorem exec_write_stored (hlock : runLocked s f.addr f.data.length = false)
    (hto : s.active = false ∨ inStaging s f.addr f.data.length = true) :
    ∃ t, exec (.write p f) s = .next t ∧ s.answered t p (shortAnswer s f.tag 0 stOK) ∧
      (∀ i, i < f.data.length → Mem.get t.hbm (f.addr + i) = nth 0 f.data i ∧ hbmBad t (f.addr + i) = false) ∧
      (∀ x, (x < f.addr ∨ f.addr + f.data.length ≤ x) → Mem.get t.hbm x = Mem.get s.hbm x) ∧
      t = { s with
        hbm := t.hbm, err := { s.err with hbmBad := t.err.hbmBad }, port := { s.port with answers := t.port.answers }, out := t.out } := by
  have hframe := hbmFrame_hbmStoreRun f.addr f.data s
  have hget (i : Nat) (hi : i < f.data.length) := get_hbmStoreRun (a := f.addr) f.data s hi
  have hgood (i : Nat) (hi : i < f.data.length) := hbmBad_hbmStoreRun (a := f.addr) f.data s hi
  have hout (x : Nat) (hx : x < f.addr ∨ f.addr + f.data.length ≤ x) := get_hbmStoreRun_outside f.data s hx
  have hrun := (exec_write h hty hserve).trans (congrArg (answer s) (serveWrite_stored h hty hserve hin hlock hto))
  generalize hbmStoreRun f.addr f.data s = u at *
  have hfn : u.fn = s.fn := by rw [State.fn, hframe, State.fn]
  have hup : s.portUp p = u.portUp p := (portUp_of_regs (congrArg State.regs hframe)).symm
  rw [reply, hfn] at hrun
  refine ⟨_, hrun.trans (answer_eq ?_), answered_after hup _, fun i hi => ⟨?_, ?_⟩, fun x hx => ?_, ?_⟩
  all_goals rw [answerOn_eq]
  · rw [hframe]
  · exact hget i hi
  · exact hgood i hi
  · exact hout x hx
  · rw [hframe]

theorem exec_write_locked (hlock : runLocked s f.addr f.data.length = true) :
    ∃ t, exec (.write p f) s = .next t ∧ s.answered t p (shortAnswer s f.tag 0 stProgramError) ∧
      t.regBit secImgState 31 = true ∧ t = { s with regs := t.regs, port := t.port, svc := t.svc, out := t.out } ∧
      s.sameRegs t (secImgState :: eventRegs) := by
  have hp : p < 2 := by
    simp only [State.hears, Bool.and_eq_true, decide_eq_true_eq] at h
    exact h.1.1
  have hrun := (exec_write h hty hserve).trans (congrArg (answer s) (serveWrite_locked h hty hserve hin hlock))
  have hev : EventOnly s (lockedWrite s).1 := eventOnly_pushEvent ((EventOnly.refl s).setBit _ _) _
  have hregs : s.sameRegs (lockedWrite s).1 (secImgState :: eventRegs) :=
    sameRegs_trans (sameRegs_setBit (sameRegs_refl s _) _ (by simp)) (sameRegs_mono (regs_pushEvent _ _) (by simp))
  have hbit : (lockedWrite s).1.regBit secImgState 31 = true :=
    (regBit_of_reg (regs_pushEvent _ _ secImgState (by decide)) 31).trans
      ((State.regBit_setBit _ _ 31 _ 31 (by decide)).trans (by simp))
  generalize (lockedWrite s).1 = u at *
  have hfn : u.fn = s.fn := by rw [State.fn, hev.tk, State.fn]
  have hup : s.portUp p = u.portUp p := by
    refine (portUp_of_sameRegs hregs ?_).symm
    simp only [secImgState, eventRegs, List.mem_cons, List.not_mem_nil, or_false, hubQA, hubA, dpSticky, dpPortStat]
    omega
  rw [reply, hfn] at hrun
  refine ⟨_, hrun.trans (answer_eq ?_), answered_after hup _, (regBit_answerOn _ _ _ _ _).trans hbit, ?_, ?_⟩
  · rw [answerOn_eq]
    exact hev.pending
  · rw [answerOn_eq]
    conv_lhs => rw [hev.eq]
    rfl
  · exact sameRegs_of_regs hregs (regs_answerOn _ _ _)

theorem exec_write_staged (hact : s.active = true) (hlock : runLocked s f.addr f.data.length = false)
    (hst : inStaging s f.addr f.data.length = false) (hst1 : inStaging s f.addr 1 = false)
    (hw : inWeights s f.addr f.data.length = false) :
    (stageBytes s + f.data.length ≤ 8388608 →
      exec (.write p f) s = .next { s with
        port := { s.port with stage := s.port.stage ++ [{ port := p, tag := f.tag, addr := f.addr, data := f.data }] } }) ∧
    (8388608 < stageBytes s + f.data.length →
      ∃ t, exec (.write p f) s = .next t ∧ s.answered t p (shortAnswer s f.tag 0 stNotReady) ∧
        t.regBit dpSticky 3 = true ∧ t = { s with
          regs := t.regs, port := { s.port with answers := t.port.answers }, out := t.out } ∧ s.sameRegs t [dpSticky]) := by
  have hp : p < 2 := by
    simp only [State.hears, Bool.and_eq_true, decide_eq_true_eq] at h
    exact h.1.1
  have hrun := exec_write h hty hserve
  rw [serveWrite, if_pos hact, writeActive_staged h hty hserve hin hlock hst hst1 hw, stageInput] at hrun
  refine ⟨fun hroom => ?_, fun hfull => ?_⟩
  · rw [if_neg (by omega)] at hrun
    exact hrun.trans (answer_eq rfl)
  · rw [if_pos hfull] at hrun
    simp only [reply] at hrun
    have hregs : s.sameRegs (s.setBit dpSticky 3) [dpSticky] := sameRegs_setBit (sameRegs_refl s _) _ (by simp)
    have hup : s.portUp p = (s.setBit dpSticky 3).portUp p := by
      refine (portUp_of_sameRegs hregs ?_).symm
      simp only [List.mem_cons, List.not_mem_nil, or_false, hubA, dpSticky, dpPortStat]
      omega
    refine ⟨_, hrun.trans (answer_eq ?_), answered_after hup _, (regBit_answerOn _ _ _ _ _).trans ?_, ?_, ?_⟩
    · rw [answerOn_eq]
      rfl
    · exact (State.regBit_setBit _ _ 3 _ 3 (by decide)).trans (by simp)
    · rw [answerOn_eq]
      rfl
    · exact sameRegs_of_regs hregs (regs_answerOn _ _ _)

end

/-- Settles O50: a WRITE to HBM is stored, dropped whole, or staged, by the branch of `serveWrite` that it takes. -/
theorem hostWritesAreStoredOrStaged : Obligations.HostWritesAreStoredOrStaged := by
  unfold Obligations.HostWritesAreStoredOrStaged
  exact ⟨fun s p f h hty hserve hin hlock hto => exec_write_stored h hty hserve hin hlock hto,
    fun s p f h hty hserve hin hlock => exec_write_locked h hty hserve hin hlock,
    fun s p f h hty hserve hin hlock hact hst hst1 hw => exec_write_staged h hty hserve hin hact hlock hst hst1 hw⟩

end Sys2Proof.Machine

end

section
/-! PROOFS. CONSUME and PEEK over a Drundoha port (R380 to R382): result slots are read, and read once. -/

namespace Sys2Proof.Machine

variable {s t u : State} {p : Nat} {f : Frame}

/-! ### What a hub access of a scratchpad leaves alone -/

/-- What the hub's reads of a scratchpad keep: every byte of memory, the state of the ports and what they hold, but for events. -/
structure HubAccess (s t : State) : Prop where
  mem : t.hbm = s.hbm ∧ t.spad = s.spad ∧ t.mac = s.mac ∧ t.scale = s.scale
  eventful : Eventful s t
  portUp : ∀ p, p < 2 → t.portUp p = s.portUp p

theorem HubAccess.refl (s : State) : HubAccess s s := ⟨⟨rfl, rfl, rfl, rfl⟩, Eventful.refl s, fun _ _ => rfl⟩

theorem HubAccess.trans (h : HubAccess s t) (k : HubAccess t u) : HubAccess s u := by
  obtain ⟨⟨hh, hs, hm, hc⟩, hev, hup⟩ := h
  obtain ⟨⟨kh, ks, km, kc⟩, kev, kup⟩ := k
  exact ⟨⟨kh.trans hh, ks.trans hs, km.trans hm, kc.trans hc⟩, hev.trans kev, fun p hp => (kup p hp).trans (hup p hp)⟩

theorem HubAccess.whenS (b : Bool) {f : State → State} (hf : ∀ u, HubAccess u (f u)) (s : State) : HubAccess s (whenS b f s) := by
  cases b
  · exact HubAccess.refl s
  · exact hf s

theorem HubAccess.forEach {β : Type} (l : List β) (f : β → State → State) (hf : ∀ x u, HubAccess u (f x u)) (s : State) :
    HubAccess s (forEach l f s) :=
  forEach_keeps (HubAccess s) l f (fun x _ u h => h.trans (hf x u)) s (HubAccess.refl s)

/-- A register of a die, and with it one of a core, is none of a port. -/
theorem HubAccess.setReg {a : Nat} (ha : dieA 0 0 ≤ a) (v : Word) (s : State) : HubAccess s (s.setReg a v) :=
  ⟨⟨rfl, rfl, rfl, rfl⟩, Eventful.of_eq rfl rfl rfl,
    fun _ hp => portUp_of_reg (State.reg_setReg_other _ _ (portStat_ne_die hp ha))⟩

theorem HubAccess.modCur (f : FrameRec → FrameRec) (s : State) : HubAccess s (s.modCur f) :=
  ⟨⟨rfl, rfl, rfl, rfl⟩, Eventful.of_eq rfl rfl rfl, fun _ _ => rfl⟩

theorem HubAccess.setFxSticky (i : Nat) (s : State) : HubAccess s (s.setBit fxSticky i) := by
  refine ⟨⟨rfl, rfl, rfl, rfl⟩, Eventful.of_eq rfl rfl rfl, fun p hp => portUp_of_reg (State.reg_setBit_other _ ?_ _)⟩
  simp only [dpPortStat, fxSticky, hubA]
  omega

theorem hubAccess_pushEvent (e : Event) (s : State) : HubAccess s (pushEvent e s) := by
  have hev : EventOnly s (pushEvent e s) := eventOnly_pushEvent (EventOnly.refl s) e
  refine ⟨⟨hev.hbm, hev.spad, hev.mac, hev.scale⟩, eventful_pushEvent e s, fun p hp => portUp_of_sameRegs (regs_pushEvent e s) ?_⟩
  simp only [eventRegs, List.mem_cons, List.not_mem_nil, or_false, hubQA, hubA, dpSticky, dpPortStat]
  omega

/-! #### Detected faults raise events and change nothing else of a port -/

theorem Eventful.setReg (h : Eventful s t) (a : Nat) (v : Word) : Eventful s (t.setReg a v) := h.trans (Eventful.of_eq rfl rfl rfl)

theorem Eventful.modFx (h : Eventful s t) (f : CommitSt → CommitSt) : Eventful s (t.modFx f) := h.trans (Eventful.of_eq rfl rfl rfl)

theorem eventful_newLogEntry (cls : Nat) (l : Loc) (source attempt : Nat) (wfn : DWord) (s : State) :
    Eventful s (newLogEntry cls l source attempt wfn s) := by
  unfold newLogEntry
  extract_lets i wraps s1 s2 s3 s4 s5 key s6
  have h1 : Eventful s s1 := eventful_whenS wraps (f := fun t => t.setBit fxSticky 10) (fun _ => Eventful.of_eq rfl rfl rfl) s
  have h4 : Eventful s s4 := (((h1.setReg _ _).setReg _ _).setReg _ _).setReg _ _
  exact (((h4.setReg _ _).setReg _ _).modFx _).trans (eventful_pushEvent _ _)

theorem eventful_requestRetire (i : Nat) (l : Loc) (s : State) : Eventful s (requestRetire i l s) := by
  unfold requestRetire
  extract_lets r
  split
  · exact Eventful.refl s
  · split
    · exact Eventful.of_eq rfl rfl rfl
    · exact Eventful.refl s

theorem eventful_classPermanent (i : Nat) (l : Loc) (s : State) : Eventful s (classPermanent i l s) := by
  unfold classPermanent
  extract_lets s1
  have h1 : Eventful s s1 := Eventful.of_eq rfl rfl rfl
  exact (h1.trans (eventful_pushEvent _ _)).trans (eventful_requestRetire _ _ _)

theorem eventful_logDetection (l : Loc) (s : State) : Eventful s (logDetection l s) := by
  unfold logDetection
  extract_lets a w
  split
  · exact eventful_newLogEntry _ _ _ _ _ _
  · extract_lets reps s1 s2
    have h2 : Eventful s s2 := Eventful.of_eq rfl rfl rfl
    split
    · exact h2.trans (eventful_classPermanent _ _ _)
    · exact h2

theorem eventful_detectFault (l : Loc) (s : State) : Eventful s (detectFault l s) := by
  unfold detectFault
  extract_lets s1 s2
  have h2 : Eventful s s2 := Eventful.of_eq rfl rfl rfl
  exact h2.trans (eventful_logDetection l s2)

theorem hubAccess_detectFault (l : Loc) (s : State) : HubAccess s (detectFault l s) := by
  obtain ⟨heq, -⟩ := detectFault_effect l s
  refine ⟨?_, eventful_detectFault l s, fun p hp => portUp_detectFault hp l s⟩
  rw [heq]
  exact ⟨rfl, rfl, rfl, rfl⟩

/-! #### The effects of a read -/

theorem spA_ge (core off : Nat) : dieA 0 0 ≤ spA core off := dieA_le_coreA _ _ _

theorem hubAccess_stickyEvent (core off i : Nat) (s : State) : HubAccess s (stickyEvent (spA core off) i s) := by
  refine HubAccess.trans (t := s.setBit (spA core off) i) (HubAccess.setReg (spA_ge core off) _ s) ?_
  exact HubAccess.modCur (fun f => if f.events.length < 64 then _ else _) _

theorem hubAccess_spRecord (core kind cls word seg : Nat) (s : State) : HubAccess s (spRecord core kind cls word seg s) := by
  unfold spRecord
  extract_lets st v
  split
  · exact HubAccess.refl s
  · refine (HubAccess.setReg (spA_ge _ _) _ s).trans ((HubAccess.setReg (spA_ge _ _) _ _).trans (HubAccess.setReg ?_ _ _))
    exact (spA_ge _ _).trans (Nat.le_add_right _ 4)

theorem hubAccess_spUncorr (r : Req) (word : Nat) (lost : Bool) (s : State) : HubAccess s (spUncorr r word lost s) := by
  unfold spUncorr
  extract_lets s1 s2
  have h1 : HubAccess s s1 := (hubAccess_spRecord _ _ _ _ _ s).trans (HubAccess.setReg (spA_ge _ _) _ _)
  refine (h1.trans (hubAccess_detectFault _ _)).trans (HubAccess.whenS lost (fun u => ?_) _)
  exact (HubAccess.setFxSticky 8 u).trans (HubAccess.modCur _ _)

theorem hubAccess_spEffects (r : Req) (fl : SpFlags) (s : State) : HubAccess s (spEffects r fl s).1 := by
  unfold spEffects
  extract_lets a s1 s2 s3 s4 s5 s6 s7 s8
  have h1 : HubAccess s s1 := by
    simp only [s1]
    split
    · exact HubAccess.refl s
    · exact (hubAccess_spRecord _ _ _ _ _ s).trans (HubAccess.setReg (spA_ge _ _) _ _)
  have h2 : HubAccess s1 s2 := HubAccess.whenS _ (hubAccess_stickyEvent _ _ _) s1
  have h3 : HubAccess s2 s3 := by
    simp only [s3]
    split
    · exact HubAccess.refl s2
    · exact hubAccess_spUncorr _ _ _ s2
  have h4 : HubAccess s3 s4 := HubAccess.whenS _
    (fun u => (HubAccess.setReg (spA_ge _ _) _ u).trans (HubAccess.setReg (spA_ge _ _) _ _)) s3
  have hsticky (b : Bool) (i : Nat) (u : State) : HubAccess u (whenS b (stickyEvent a i) u) :=
    HubAccess.whenS b (hubAccess_stickyEvent _ _ _) u
  exact (((((((h1.trans h2).trans h3).trans h4).trans (hsticky _ _ _)).trans (hsticky _ _ _)).trans (hsticky _ _ _)).trans
    (hsticky _ _ _))

theorem hubAccess_atOnce {g : State → State} (hg : ∀ u, HubAccess u (g u)) (s : State) : HubAccess s (atOnce g s) := by
  unfold atOnce
  refine HubAccess.trans ?_ (HubAccess.forEach _ _ (fun _ _ => hubAccess_pushEvent _ _) _)
  exact ((HubAccess.modCur _ s).trans (hg _)).trans (HubAccess.modCur _ _)

/-- An access without an effect, whose events would go out at once, has none. -/
theorem atOnce_none {g : State → State} (hg : g (s.modCur fun c => { c with events := [] }) = s.modCur fun c => { c with events := [] }) :
    atOnce g s = s := by
  unfold atOnce
  rw [hg]
  rfl

/-! ### Reads that meet no error -/

theorem rangeFrom_eq_map (a n : Nat) : rangeFrom a n = (List.range n).map fun i => a + i := by
  induction n generalizing a with
  | zero => rfl
  | succ n ih =>
    rw [rangeFrom, ih, List.range_succ_eq_map, List.map_cons, List.map_map]
    exact congrArg _ (List.map_congr_left fun i _ => by simp only [Function.comp_apply]; omega)

theorem readBytes_concat (r : Req) (tag : Nat) (qs : List Nat) (q : Nat) (s : State) :
    readBytes s r tag (qs ++ [q]) = ((readBytes s r tag qs).1 ++ [(spReadByte s r tag q (readBytes s r tag qs).2).1],
      (spReadByte s r tag q (readBytes s r tag qs).2).2) := by
  simp only [readBytes, List.foldl_append, List.foldl_cons, List.foldl_nil]

/-- A byte that reaches the array, with no byte gathered and no bit flipped, is read as it is. -/
theorem spReadByte_good {r : Req} {tag q x : Nat} (hx : (spTarget s r false tag q).phys = some x) (hg : (s.core r.core).gather = [])
    (hfl : spFlip s r.core x = 0) (fl : SpFlags) :
    spReadByte s r tag q fl = (Mem.get s.spad (s.pcIx r.core * 2 ^ 22 + x), fl) := by
  have hclean : eccOf (spFlip s r.core x) = .clean := by
    rw [hfl]
    decide
  have hpat : patByte Ecc.clean.pat x = 0 := by simp [patByte, Ecc.pat, fld]
  unfold spReadByte
  simp only [hx, gatherByte, hg, List.find?_nil, Option.bind_none, hclean, hpat]
  rw [show Mem.get s.spad (s.pcIx r.core * 2 ^ 22 + x) ^^^ (0 : Byte) = Mem.get s.spad (s.pcIx r.core * 2 ^ 22 + x) from BitVec.xor_zero]

theorem readBytes_good {r : Req} {tag : Nat} (at_ : Nat → Nat) (qs : List Nat) (hg : (s.core r.core).gather = [])
    (h : ∀ q ∈ qs, (spTarget s r false tag q).phys = some (at_ q) ∧ spFlip s r.core (at_ q) = 0) :
    readBytes s r tag qs = (qs.map fun q => Mem.get s.spad (s.pcIx r.core * 2 ^ 22 + at_ q), {}) := by
  induction qs using List.reverseRecOn with
  | nil => rfl
  | append_singleton qs q ih =>
    obtain ⟨hx, hfl⟩ := h q (by simp)
    rw [readBytes_concat, ih fun q hq => h q (by simp [hq]), spReadByte_good hx hg hfl, List.map_append, List.map_singleton]

theorem spEffects_none (r : Req) (s : State) : (spEffects r {} s).1 = s := rfl

theorem spReadS_good {r : Req} {tag q n : Nat} {l : List Byte} (h : spRead s r tag q n = (l, {})) : (spReadS r tag q n s).2.2 = s := by
  unfold spReadS
  rw [h]
  exact spEffects_none r s

/-- Where byte i of a logical slot lies in its current copy (R164). -/
def slotByte (s : State) (core slot i : Nat) : Nat :=
  (verBase s core + ((s.core core).verOf slot).cur * verCount s core + slot) * 256 + i

theorem spTarget_slot {core slot i : Nat} (hi : i < 256) (hslot : slot < verCount s core)
    (hsz : (verBase s core + slot) * 256 + i < spSize) (hpwr : bankPwr s core (slotByte s core slot i / 64 % 32) = 2) :
    (spTarget s { core := core } false 0 ((verBase s core + slot) * 256 + i)).phys = some (slotByte s core slot i) := by
  have hreq : reqOffset s { core := core } ((verBase s core + slot) * 256 + i) = some ((verBase s core + slot) * 256 + i) := if_pos hsz
  have hdiv : ((verBase s core + slot) * 256 + i) / 256 = verBase s core + slot := by omega
  have hmod : ((verBase s core + slot) * 256 + i) % 256 = i := by omega
  have hkind : slotKind s core (verBase s core + slot) = .logical slot := by
    unfold slotKind
    dsimp only
    rw [if_pos ⟨Nat.le_add_right _ _, Nat.add_lt_add_left hslot _⟩, Nat.add_sub_cancel_left]
  have hplace : spPlace s { core := core } false 0 ((verBase s core + slot) * 256 + i) = some (slotByte s core slot i) := by
    unfold spPlace
    rw [hdiv, hmod]
    simp only [hkind, ne_eq, not_true_eq_false, if_false, Bool.false_eq_true]
    rfl
  unfold spTarget
  simp only [hreq, hplace, ne_eq, not_true_eq_false, false_and, if_false, Option.isSome_none, Bool.false_and, Bool.or_false,
    Option.getD_some, hpwr, decide_false, Bool.false_eq_true]

theorem joinInfo_single (e : DWord × Word) : joinInfo [e] = e := by
  obtain ⟨w, m⟩ := e
  have hm : 0 ||| m = m := by simp
  have hw : (if (0 : DWord).toNat < w.toNat then w else 0) = w := by
    split
    · rfl
    · rename_i hz
      exact (BitVec.eq_of_toNat_eq (by simpa using hz)).symm
  simp only [joinInfo, List.foldl_cons, List.foldl_nil, hw, hm]

/-! ### One slot -/

section
variable {core slot n : Nat}

theorem slotsOf_one (h1 : 1 ≤ n) (h : n ≤ 256) : slotsOf slot n = [slot] := by
  have hcd : cdiv n 256 = 1 := by
    unfold cdiv
    omega
  rw [slotsOf, hcd]
  rfl

theorem allFull_one (h1 : 1 ≤ n) (h : n ≤ 256) : allFull s core slot n = s.resultFull core slot := by
  rw [allFull, slotsOf_one h1 h]
  simp only [List.all_cons, List.all_nil, Bool.and_true]

theorem lt_verCount_of_slotsOk (h1 : 1 ≤ n) (h : slotsOk s core slot n = true) : slot < verCount s core := by
  simp only [slotsOk, Bool.and_eq_true, decide_eq_true_eq] at h
  obtain ⟨-, hle⟩ := h
  rw [cdiv] at hle
  omega

/-- The record of the data that a slot holds: the WFN of the frame that wrote them, and their metadata (R382). -/
def State.slotInfo (s : State) (core slot : Nat) : DWord × Word := SMap.get (fun _ => (0, 0)) s.port.resultInfo (tagKey core slot)

/-- The bytes of a slot's current copy. -/
def slotBytes (s : State) (core slot n : Nat) : List Byte :=
  (List.range n).map fun i => Mem.get s.spad (s.pcIx core * 2 ^ 22 + slotByte s core slot i)

/-- A slot whose every byte that is read is awake and without an error. -/
def SlotGood (s : State) (core slot n : Nat) : Prop :=
  ∀ i, i < n → (verBase s core + slot) * 256 + i < spSize ∧ bankPwr s core (slotByte s core slot i / 64 % 32) = 2 ∧
    spFlip s core (slotByte s core slot i) = 0

theorem spRead_slot (h : n ≤ 256) (hslot : slot < verCount s core) (hg : (s.core core).gather = []) (hgood : SlotGood s core slot n) :
    spRead s { core := core } 0 ((verBase s core + slot) * 256) n = (slotBytes s core slot n, {}) := by
  have hread := readBytes_good (s := s) (r := { core := core }) (tag := 0)
    (fun q => slotByte s core slot (q - (verBase s core + slot) * 256)) (rangeFrom ((verBase s core + slot) * 256) n) hg
    fun q hq => by
      obtain ⟨hlo, hhi⟩ := mem_rangeFrom.1 hq
      obtain ⟨i, rfl⟩ := Nat.exists_eq_add_of_le hlo
      have hi : i < n := by omega
      obtain ⟨hsz, hpwr, hfl⟩ := hgood i hi
      dsimp only
      rw [Nat.add_sub_cancel_left]
      exact ⟨spTarget_slot (by omega) hslot hsz hpwr, hfl⟩
  rw [spRead, hread, rangeFrom_eq_map, List.map_map, slotBytes]
  refine congrArg₂ Prod.mk (List.map_congr_left fun i _ => ?_) rfl
  simp only [Function.comp_apply, Nat.add_sub_cancel_left]

/-- The WFN of an answer, and how many free values it takes (R382). -/
theorem writerFn_spec (f : DWord) (s : State) : s.writerOf (writerFn f s).2 (writerFn f s).1 f ∧
    (writerFn f s).2 = { s with freeCount := (writerFn f s).2.freeCount } := by
  unfold writerFn State.writerOf
  split <;> exact ⟨⟨rfl, rfl⟩, rfl⟩

/-- A good slot is answered with the bytes of its current copy, its WFN and its metadata, and the read has no other effect. -/
theorem slotAnswer_good (h1 : 1 ≤ n) (h : n ≤ 256) (hslot : slot < verCount s core) (hg : (s.core core).gather = [])
    (hgood : SlotGood s core slot n) (p tag op : Nat) (ready : Bool) :
    ∃ a, slotAnswer p tag op core slot n ready s = answerOn p a (writerFn (s.slotInfo core slot).1 s).2 ∧
      a.tag = tag ∧ a.op = op ∧ a.status = stOK ∧ a.ready = ready ∧ a.fn = (writerFn (s.slotInfo core slot).1 s).1 ∧
      a.md = (s.slotInfo core slot).2.setWidth 14 ∧ a.data = slotBytes s core slot n := by
  have hread := spRead_slot h hslot hg hgood
  have hsame : atOnce (fun t => (spReadS { core := core } 0 ((verBase s core + slot) * 256) n t).2.2) s = s :=
    atOnce_none (spReadS_good (s := s.modCur fun c => { c with events := [] }) hread)
  have hinfo : (slotsOf slot n).map (fun k => SMap.get (fun _ => (0, 0)) s.port.resultInfo (tagKey core k)) = [s.slotInfo core slot] := by
    rw [slotsOf_one h1 h]
    rfl
  unfold slotAnswer
  rw [hinfo, joinInfo_single]
  dsimp only
  rw [hread, hsame]
  generalize blkOf _ _ = b
  refine ⟨_, rfl, ?_⟩
  cases b <;> exact ⟨rfl, rfl, rfl, rfl, rfl, rfl, rfl⟩

end

/-! ### READ of kinds CONSUME and PEEK -/

theorem reply_alone (p tag op st : Nat) (s : State) :
    ∃ t, answer s (reply p tag op st s) = .next t ∧ s.answered t p (shortAnswer s tag op st) ∧ s.onlyAnswer t := by
  refine ⟨_, answer_eq ?_, answered_answerOn _ _ s, onlyAnswer_answerOn _ _ s⟩
  rw [reply, answerOn_eq]

theorem exec_read (h : s.hears p f = true) (hty : f.ftype = 3) (hserve : servesNow s f.tag = true) {i : Instr} (hi : i ∈ frameRows p f) :
    exec i s = answer s (serveRead p f s) := by
  have hst : 3 ≤ s.stage := by
    have := (servesNow_spec hserve).1
    omega
  have hfrm : serveFrame p f s = serveRead p f s := by
    rw [serveFrame, hty]
    exact request_served hserve _ _ _ _
  rw [exec_frameRows hi, takeFrame_heard h hst, hfrm]

theorem exec_consume (h : s.hears p f = true) (hty : f.ftype = 3) (hserve : servesNow s f.tag = true) (hop : f.op = 0) :
    exec (.consume p f) s = answer s (takeConsume p f.tag f.core (f.addr % 2 ^ 14) f.len s) := by
  rw [exec_read h hty hserve (by simp [frameRows]), serveRead, hop]
  rfl

theorem exec_peek (h : s.hears p f = true) (hty : f.ftype = 3) (hserve : servesNow s f.tag = true) (hop : f.op = 1) :
    exec (.peek p f) s = answer s (takePeek p f.tag f.core (f.addr % 2 ^ 14) f.len s) := by
  rw [exec_read h hty hserve (by simp [frameRows]), serveRead, hop]
  rfl

/-- A READ asks for at least one byte (Table 15.2). -/
theorem len_pos_of_hears (h : s.hears p f = true) (hty : f.ftype = 3) : 1 ≤ f.len := by
  simp only [State.hears, Bool.and_eq_true, Bool.not_eq_true', frameBad, Bool.or_eq_false_iff, Bool.not_eq_false', frameLenOk, hty,
    if_true, decide_eq_true_eq] at h
  omega

/-! #### Result tags -/

/-- The tags of a run of slots become EMPTY. -/
def emptied (core : Nat) (l : List Nat) (m : SMap Bool) : SMap Bool :=
  l.foldl (fun m k => SMap.set (fun _ => false) m (tagKey core k) false) m

theorem get_emptied (core : Nat) (l : List Nat) (m : SMap Bool) (j : Nat) : SMap.get (fun _ => false) (emptied core l m) j =
    if j ∈ l.map (tagKey core) then false else SMap.get (fun _ => false) m j := by
  induction l generalizing m with
  | nil => simp [emptied]
  | cons k l ih =>
    refine (ih _).trans ?_
    rw [SMap.get_set, List.map_cons]
    by_cases hk : j = tagKey core k <;> by_cases hl : j ∈ l.map (tagKey core) <;> simp [hk, hl]

theorem serveConsume_eq {a : Answer} {core slot n tag : Nat} (ha : slotAnswer p tag 0 core slot n false s = answerOn p a u) :
    serveConsume p tag core slot n s =
      (answerOn p a u).modPort fun q => { q with resultTags := emptied core (slotsOf slot n) q.resultTags } := by
  rw [serveConsume, ha]
  rfl

/-- Every slot answer is given after an access that leaves the rest alone. -/
theorem slotAnswer_shape (p tag op core slot n : Nat) (ready : Bool) (s : State) :
    ∃ a u, slotAnswer p tag op core slot n ready s = answerOn p a u ∧ HubAccess s u ∧ a.tag = tag ∧ a.op = op ∧ a.status = stOK := by
  have hacc : HubAccess s (atOnce (fun t => (spReadS { core := core } 0 ((verBase s core + slot) * 256) n t).2.2) s) :=
    hubAccess_atOnce (fun u => hubAccess_spEffects _ _ u) s
  have hfree (w : DWord) (v : State) : HubAccess v (writerFn w v).2 := by
    rw [(writerFn_spec w v).2]
    exact ⟨⟨rfl, rfl, rfl, rfl⟩, Eventful.of_eq rfl rfl rfl, fun _ _ => rfl⟩
  unfold slotAnswer
  dsimp only
  generalize atOnce _ s = v at hacc ⊢
  generalize blkOf _ _ = b
  refine ⟨_, _, rfl, hacc.trans (hfree _ v), ?_⟩
  cases b <;> exact ⟨rfl, rfl, rfl⟩

section
variable {core slot n tag : Nat}

theorem takePeek_good (h1 : 1 ≤ n) (h : n ≤ 256) (hok : slotsOk s core slot n = true) (hg : (s.core core).gather = [])
    (hgood : SlotGood s core slot n) (p tag : Nat) :
    ∃ t a, answer s (takePeek p tag core slot n s) = .next t ∧ s.answered t p a ∧ a.tag = tag ∧ a.op = 1 ∧ a.status = stOK ∧
      a.ready = s.resultFull core slot ∧ s.writerOf t a.fn (s.slotInfo core slot).1 ∧
      t = { s with port := { s.port with answers := t.port.answers }, out := t.out, freeCount := t.freeCount } ∧
      a.md = (s.slotInfo core slot).2.setWidth 14 ∧ a.data = slotBytes s core slot n := by
  obtain ⟨a, hrun, htag, hop, hst, hready, hfn, hmd, hdata⟩ :=
    slotAnswer_good h1 h (lt_verCount_of_slotsOk h1 hok) hg hgood p tag 1 (s.resultFull core slot)
  obtain ⟨hw, hu⟩ := writerFn_spec (s.slotInfo core slot).1 s
  have htake : takePeek p tag core slot n s = answerOn p a (writerFn (s.slotInfo core slot).1 s).2 := by
    rw [takePeek, hok, if_neg (by decide), allFull_one h1 h]
    exact hrun
  rw [htake]
  rw [← hfn] at hw
  generalize (writerFn (s.slotInfo core slot).1 s).2 = u at *
  have hup : s.portUp p = u.portUp p := (portUp_of_regs (congrArg State.regs hu)).symm
  refine ⟨_, a, answer_eq ?_, answered_after hup a, htag, hop, hst, hready, ?_, ?_, hmd, hdata⟩
  all_goals rw [answerOn_eq]
  · rw [hu]
  · exact hw
  · rw [hu]

theorem takeConsume_good (h1 : 1 ≤ n) (h : n ≤ 256) (hok : slotsOk s core slot n = true) (hfull : s.resultFull core slot = true)
    (hg : (s.core core).gather = []) (hgood : SlotGood s core slot n) (p tag : Nat) :
    ∃ t a, answer s (takeConsume p tag core slot n s) = .next t ∧ s.answered t p a ∧ a.tag = tag ∧ a.op = 0 ∧ a.status = stOK ∧
      s.writerOf t a.fn (s.slotInfo core slot).1 ∧ a.data = slotBytes s core slot n ∧ t.resultFull core slot = false ∧
      (∀ k, k ≠ tagKey core slot → SMap.get (fun _ => false) t.port.resultTags k = SMap.get (fun _ => false) s.port.resultTags k) ∧
      t = { s with port := { s.port with answers := t.port.answers, resultTags := t.port.resultTags }, out := t.out,
                   freeCount := t.freeCount } := by
  obtain ⟨a, hrun, htag, hop, hst, -, hfn, -, hdata⟩ :=
    slotAnswer_good h1 h (lt_verCount_of_slotsOk h1 hok) hg hgood p tag 0 false
  obtain ⟨hw, hu⟩ := writerFn_spec (s.slotInfo core slot).1 s
  have htake : takeConsume p tag core slot n s = serveConsume p tag core slot n s := by
    rw [takeConsume, hok, if_neg (by decide), allFull_one h1 h, if_pos hfull]
  rw [htake, serveConsume_eq hrun, slotsOf_one h1 h]
  rw [← hfn] at hw
  generalize (writerFn (s.slotInfo core slot).1 s).2 = u at *
  have hup : s.portUp p = u.portUp p := (portUp_of_regs (congrArg State.regs hu)).symm
  have htags : u.port.resultTags = s.port.resultTags := by rw [hu]
  have hget := get_emptied core [slot] s.port.resultTags
  obtain ⟨hlast, hout⟩ := answered_after hup a
  refine ⟨_, a, answer_eq ?_, ⟨hlast, hout⟩, htag, hop, hst, ?_, hdata, ?_, fun k hk => ?_, ?_⟩
  all_goals rw [answerOn_eq]
  · rw [hu]
    rfl
  · exact hw
  · refine Eq.trans (congrArg (fun m => SMap.get (fun _ => false) (emptied core [slot] m) (tagKey core slot)) htags) ?_
    exact (hget _).trans (if_pos (by simp))
  · refine Eq.trans (congrArg (fun m => SMap.get (fun _ => false) (emptied core [slot] m) k) htags) ?_
    exact (hget _).trans (if_neg (by simpa using hk))
  · rw [hu]
    rfl

end

/-! ### A CONSUME that waited -/

theorem consumeReexamine_none (h : ∀ w ∈ s.port.waitConsume, ¬ w.fn < s.fn) : consumeReexamine s = s := by
  have hdue : (s.port.waitConsume.filter fun w => decide (w.fn < s.fn)) = [] :=
    List.filter_eq_nil_iff.2 fun w hw => by simpa using h w hw
  have hkeep : (s.port.waitConsume.filter fun w => !decide (w.fn < s.fn)) = s.port.waitConsume :=
    List.filter_eq_self.2 fun w hw => by simpa using h w hw
  unfold consumeReexamine
  rw [hdue, forEach_nil, State.modPort, hkeep]

theorem consumeReexamine_one {w : WaitRead} (hw : s.port.waitConsume = [w]) (hdue : w.fn < s.fn) :
    consumeReexamine s = reexamine w { s with port := { s.port with waitConsume := [] } } := by
  have hmod : (s.modPort fun p => { p with waitConsume := p.waitConsume.filter fun w => !decide (w.fn < s.fn) }) =
      { s with port := { s.port with waitConsume := [] } } := by
    simp only [State.modPort, hw, List.filter_cons, hdue, decide_true, Bool.not_true, Bool.false_eq_true, if_false, List.filter_nil]
  unfold consumeReexamine
  rw [hmod, hw, List.filter_cons_of_pos (by simpa using hdue), List.filter_nil, forEach_cons, forEach_nil]

theorem reexamine_full {w : WaitRead} (hp : w.port < 2) (hwait : s.port.waitConsume = []) (hok : slotsOk s w.core w.slot w.len = true)
    (hfull : allFull s w.core w.slot w.len = true) :
    ∃ a, s.answered (reexamine w s) w.port a ∧ a.tag = w.tag ∧ a.op = 0 ∧ a.status = stOK ∧
      (reexamine w s).port.waitConsume = [] ∧ (∀ k ∈ slotsOf w.slot w.len, (reexamine w s).resultFull w.core k = false) ∧
      s.sameBytes (reexamine w s) := by
  obtain ⟨a, u, hrun, ⟨⟨hhbm, hspad, hmac, hscale⟩, hev, hup⟩, htag, hop, hst⟩ :=
    slotAnswer_shape w.port w.tag 0 w.core w.slot w.len false s
  have hre : reexamine w s = serveConsume w.port w.tag w.core w.slot w.len s := by
    rw [reexamine, hok, hfull]
    rfl
  rw [hre, serveConsume_eq hrun]
  obtain ⟨hlast, hout⟩ := answered_after (hup _ hp).symm a
  refine ⟨a, ⟨hlast, hout⟩, htag, hop, hst, ?_, fun k hk => ?_, fun x => ?_⟩
  all_goals rw [answerOn_eq]
  · exact (show u.port.waitConsume = s.port.waitConsume by rw [hev.port]).trans hwait
  · exact (get_emptied _ _ _ _).trans (if_pos (List.mem_map_of_mem hk))
  · exact ⟨congrArg (Mem.get · x) hhbm, congrArg (Mem.get · x) hspad, congrArg (Mem.get · x) hmac, congrArg (Mem.get · x) hscale⟩

/-- Settles O51: a slot read ends in `slotAnswer`, which for a good slot gives its bytes and takes at most a free value, and for
any slot leaves memory, the port's state and the other waiting reads alone. -/
theorem resultSlotsAreReadOnce : Obligations.ResultSlotsAreReadOnce := by
  unfold Obligations.ResultSlotsAreReadOnce
  refine ⟨fun s p core slot f full h hty hserve hlen hcore hslot hok hfull hg hgood => ?_, fun s p f h hty hserve hno => ⟨?_, ?_⟩,
    fun s hw => ?_, fun s w hw hp hdue hok => ⟨fun hfull => ?_, fun hno => ?_⟩⟩
  · have h1 : 1 ≤ f.len := len_pos_of_hears h hty
    refine ⟨fun hop => ?_, fun hop hyes => ?_, fun hop hno => ?_⟩
    · rw [exec_peek h hty hserve hop, ← hcore, ← hslot, ← hfull]
      exact takePeek_good h1 hlen hok hg hgood p f.tag
    · rw [exec_consume h hty hserve hop, ← hcore, ← hslot]
      exact takeConsume_good h1 hlen hok (hfull.trans hyes) hg hgood p f.tag
    · rw [exec_consume h hty hserve hop, ← hcore, ← hslot, takeConsume, hok, if_neg (by decide), allFull_one h1 hlen, hfull, hno,
        if_neg (by decide)]
      exact answer_eq rfl
  · intro hop
    rw [exec_consume h hty hserve hop, takeConsume, hno, if_pos (by decide)]
    exact reply_alone _ _ _ _ s
  · intro hop
    rw [exec_peek h hty hserve hop, takePeek, hno, if_pos (by decide)]
    exact reply_alone _ _ _ _ s
  · exact (congrArg (answer s) (consumeReexamine_none hw)).trans (answer_eq rfl)
  · obtain ⟨a, hans, htag, hop, hst, hwait, hempty, hbytes⟩ :=
      reexamine_full (s := { s with port := { s.port with waitConsume := [] } }) hp rfl hok hfull
    have hrun := (congrArg (answer s) (consumeReexamine_one hw hdue)).trans (answer_next _ _)
    exact ⟨_, a, hrun, hans, htag, hop, hst, hwait, hempty, hbytes⟩
  · have hre : reexamine w { s with port := { s.port with waitConsume := [] } } =
        answerOn w.port (shortAnswer s w.tag 0 stNotReady) { s with port := { s.port with waitConsume := [] } } :=
      if_neg (by simp only [Bool.and_eq_true, not_and]; exact fun _ => ne_true_of_eq_false hno)
    have hrun := (congrArg (answer s) ((consumeReexamine_one hw hdue).trans hre))
    refine ⟨_, hrun.trans (answer_eq ?_), answered_after (t := { s with port := { s.port with waitConsume := [] } }) rfl _, ?_, ?_⟩
    all_goals rw [answerOn_eq]

end Sys2Proof.Machine

end

section
/-! PROOFS. Reads over a Drundoha port (R267, R373, R380, R398, R399): memory, capacity, attestation and registers. -/

namespace Sys2Proof.Machine

variable {s t u : State} {p : Nat} {f : Frame}

/-- An answer alone, given after a step that leaves all but the count of free values. -/
theorem answerOn_alone (p : Nat) (a : Answer) (s : State) :
    ∃ t, answer s (answerOn p a s) = .next t ∧ s.answered t p a ∧ s.onlyAnswer t :=
  ⟨_, answer_eq (by rw [answerOn_eq]), answered_answerOn _ _ s, onlyAnswer_answerOn _ _ s⟩

/-! ### MEM -/

theorem hbmRead_good {a n : Nat} (h : ∀ i, i < n → hbmBad s (hbmReadAddr s (a + i)) = false) :
    hbmRead a n s = ((List.range n).map fun i => Mem.get s.hbm (hbmReadAddr s (a + i)), 0, s) := by
  have hnone : ((rangeFrom a n).map (hbmReadAddr s)).find? (fun x => hbmBad s x) = none := by
    refine List.find?_eq_none.2 fun x hx => ?_
    obtain ⟨y, hy, rfl⟩ := List.mem_map.1 hx
    obtain ⟨hlo, hhi⟩ := mem_rangeFrom.1 hy
    obtain ⟨i, rfl⟩ := Nat.exists_eq_add_of_le hlo
    rw [h i (by omega)]
    decide
  unfold hbmRead hbmReadVia
  extract_lets as l
  rw [show as.find? (fun x => hbmBad s x) = none from hnone]
  simp only [l, as, rangeFrom_eq_map, List.map_map, Function.comp_def]

theorem byteInfo_hbm {x : Nat} (hx : x < s.img.hbmBytes) :
    byteInfo s x = (s.unitAt x).map fun u => SMap.get (fun _ => (0, 0)) s.img.unitInfo u.key := by
  have hl : localAddr s x = .hbm x := if_pos hx
  rw [byteInfo, hl]

theorem mapM_eq_none {α β : Type} {g : α → Option β} {l : List α} : l.mapM g = none ↔ ∃ x ∈ l, g x = none := by
  induction l with
  | nil => simp
  | cons x l ih =>
    rw [List.mapM_cons]
    cases hx : g x with
    | none => simp [hx]
    | some y => cases hl : l.mapM g <;> simp_all

/-- A run of HBM is uncommitted where one of its bytes is in no unit (R380). -/
theorem runInfo_hbm {a n : Nat} (h : a + n ≤ s.img.hbmBytes) : runInfo s a n = none ↔ ∃ i, i < n ∧ s.unitAt (a + i) = none := by
  rw [runInfo, mapM_eq_none]
  constructor
  · rintro ⟨x, hx, hnone⟩
    obtain ⟨hlo, hhi⟩ := mem_rangeFrom.1 hx
    obtain ⟨i, rfl⟩ := Nat.exists_eq_add_of_le hlo
    rw [byteInfo_hbm (by omega), Option.map_eq_none_iff] at hnone
    exact ⟨i, by omega, hnone⟩
  · rintro ⟨i, hi, hnone⟩
    exact ⟨a + i, mem_rangeFrom.2 (by omega), by rw [byteInfo_hbm (by omega), hnone]; rfl⟩

/-- The answer of a MEM read holds its data, and tells whether they are committed. -/
theorem memAnswer_effect (p tag a n : Nat) (data : List Byte) (s : State) :
    ∃ t b, answer s (memAnswer p tag a n data s) = .next t ∧ s.answered t p b ∧ b.tag = tag ∧ b.op = 2 ∧ b.status = stOK ∧
      b.data = data ∧
      t = { s with port := { s.port with answers := t.port.answers }, out := t.out, freeCount := t.freeCount } ∧
      (runInfo s a n = none → b.uncommitted = true ∧ b.fn = s.fn ∧ s.onlyAnswer t) ∧
      (runInfo s a n ≠ none → b.uncommitted = false) := by
  unfold memAnswer
  cases runInfo s a n with
  | none =>
    generalize runBlk s a n = blk
    obtain ⟨t, ht, hans, honly⟩ := answerOn_alone p
      (withBlk blk { tag := tag, op := 2, status := stOK, fn := s.fn, uncommitted := true, data := data }) s
    refine ⟨t, _, ht, hans, ?_⟩
    have hfree : t = { s with port := { s.port with answers := t.port.answers }, out := t.out, freeCount := t.freeCount } := by
      conv_lhs => rw [honly]
      rw [honly]
    cases blk <;> exact ⟨rfl, rfl, rfl, rfl, hfree, fun _ => ⟨rfl, rfl, honly⟩, fun h => absurd rfl h⟩
  | some l =>
    dsimp only
    obtain ⟨-, hu⟩ := writerFn_spec (joinInfo l).1 s
    generalize writerFn (joinInfo l).1 s = r at hu ⊢
    obtain ⟨fn, u⟩ := r
    dsimp only at hu ⊢
    generalize runBlk u a n = blk
    have hup : s.portUp p = u.portUp p := (portUp_of_regs (congrArg State.regs hu)).symm
    refine ⟨_, _, answer_eq ?_, answered_after hup _, ?_⟩
    · rw [answerOn_eq, hu]
    · have ht (b : Answer) : answerOn p b u = { s with
          port := { s.port with answers := (answerOn p b u).port.answers }, out := (answerOn p b u).out,
          freeCount := (answerOn p b u).freeCount } := by
        rw [answerOn_eq, hu]
      cases blk <;> exact ⟨rfl, rfl, rfl, rfl, ht _, fun h => absurd h (Option.some_ne_none l), fun _ => rfl⟩

section
variable (h : s.hears p f = true) (hty : f.ftype = 3) (hserve : servesNow s f.tag = true)
include h hty hserve

theorem exec_mem_hbm (hop : f.op = 2) (hin : f.addr + f.len ≤ s.img.hbmBytes)
    (hgood : ∀ i, i < f.len → hbmBad s (hbmReadAddr s (f.addr + i)) = false) :
    exec (.mem p f) s = answer s (memAnswer p f.tag f.addr f.len
      ((List.range f.len).map fun i => Mem.get s.hbm (hbmReadAddr s (f.addr + i))) s) := by
  have hrun : exec (.mem p f) s = answer s (takeMem p f.tag f.addr f.len s) := by
    rw [exec_read h hty hserve (by simp [frameRows]), serveRead, hop]
    rfl
  rw [hrun, takeMem, runAt_hbm (len_pos_of_hears h hty) hin, hbmRead_good hgood]

theorem exec_capacity (hop : f.op = 3) : exec (.capacity p f) s = answer s (takeCapacity p f.tag f.len s) := by
  rw [exec_read h hty hserve (by simp [frameRows]), serveRead, hop]
  rfl

theorem exec_attest (hop : f.op = 4) : exec (.attest p f) s = answer s (takeAttest p f.tag f.addr f.len s) := by
  rw [exec_read h hty hserve (by simp [frameRows]), serveRead, hop]
  rfl

end

/-! ### Attestation reports -/

theorem length_keyBytes (k : BitVec 512) : (keyBytes k).length = 64 := length_leBytes _ _

theorem length_digestBytes (c : Option ImageContent) : (digestBytes c).length = 32 := length_leBytes _ _

/-- The first 28 bytes of a report, the last two of which are the first of a reserved field (Table 16.7). -/
def reportHead (s : State) (a tag : Nat) : List Byte :=
  leBytes 0x41545331 4 ++ leBytes 1 2 ++ leBytes s.lcState 1 ++ leBytes
    ((decide (s.regFld secTamper 0 3 ≠ 0)).toNat + 2 * (decide (mapBytes s ≠ storedMap s)).toNat) 1 ++
    leBytes (s.reg secIdent).toNat 4 ++ leBytes s.moduleId 2 ++ List.replicate 2 0 ++ leBytes a 6 ++ leBytes tag 4 ++ List.replicate 2 0

theorem length_reportHead (a tag : Nat) (s : State) : (reportHead s a tag).length = 28 := by
  simp only [reportHead, List.length_append, length_leBytes, List.length_replicate]

/-- A report's body has 768 bytes and begins with its head (Table 16.7). -/
theorem reportBody_eq (s : State) (a tag : Nat) (key : BitVec 256) :
    ∃ l, reportBody s a tag key = reportHead s a tag ++ l ∧ l.length = 740 := by
  have hgroups (g : Nat → Option ImageContent) : ((List.range 16).flatMap fun i => digestBytes (g i)).length = 512 := by
    simp only [List.length_flatMap, length_digestBytes, List.map_const', List.length_range, List.sum_replicate, smul_eq_mul]
  have hsplit : (List.replicate 6 0 : List Byte) = List.replicate 2 0 ++ List.replicate 4 0 := rfl
  unfold reportBody reportHead
  simp only [hsplit, List.append_assoc]
  refine ⟨_, rfl, ?_⟩
  simp only [List.length_append, length_leBytes, List.length_replicate, length_digestBytes, hgroups, length_keyBytes]

theorem length_reportBody (s : State) (a tag : Nat) (key : BitVec 256) : (reportBody s a tag key).length = 768 := by
  obtain ⟨l, hl, hlen⟩ := reportBody_eq s a tag key
  rw [hl, List.length_append, length_reportHead, hlen]

/-- A report is its body and the signature of it (R399). -/
theorem reportBytes_parts (s : State) (a tag : Nat) (key : BitVec 256) :
    (reportBytes s a tag key).take 28 = reportHead s a tag ∧ (reportBytes s a tag key).take 768 = reportBody s a tag key ∧
      (reportBytes s a tag key).drop 768 =
        leBytes (Config.sm2Sign key (leBytes (hashOf (reportBody s a tag key)) 32)).toNat 64 := by
  have hlen := length_reportBody s a tag key
  obtain ⟨l, hl, -⟩ := reportBody_eq s a tag key
  refine ⟨?_, List.take_left' hlen, List.drop_left' hlen⟩
  rw [reportBytes, hl, List.append_assoc]
  exact List.take_left' (length_reportHead a tag s)

theorem attestReport_none (h : ∀ w ∈ s.port.waitAttest, ¬ w.fn < s.fn) : attestReport s = s := by
  have hdue : (s.port.waitAttest.filter fun w => decide (w.fn < s.fn)) = [] :=
    List.filter_eq_nil_iff.2 fun w hw => by simpa using h w hw
  have hkeep : (s.port.waitAttest.filter fun w => !decide (w.fn < s.fn)) = s.port.waitAttest :=
    List.filter_eq_self.2 fun w hw => by simpa using h w hw
  unfold attestReport
  rw [hdue, forEach_nil, State.modPort, hkeep]

theorem attestReport_one {w : WaitRead} (hw : s.port.waitAttest = [w]) (hdue : w.fn < s.fn) :
    attestReport s = attestOne w { s with port := { s.port with waitAttest := [] } } := by
  have hmod : (s.modPort fun p => { p with waitAttest := p.waitAttest.filter fun w => !decide (w.fn < s.fn) }) =
      { s with port := { s.port with waitAttest := [] } } := by
    simp only [State.modPort, hw, List.filter_cons, hdue, decide_true, Bool.not_true, Bool.false_eq_true, if_false, List.filter_nil]
  unfold attestReport
  rw [hmod, hw, List.filter_cons_of_pos (by simpa using hdue), List.filter_nil, forEach_cons, forEach_nil]

theorem gate_none (hsafe : s.safe = 0) (hst : 7 ≤ s.stage) (k : ReqKind) : gate s k = none := by
  rw [gate, if_neg (by simp [hsafe]), if_neg (by simp [hsafe]), if_neg (by omega)]

theorem attestOne_served {w : WaitRead} {key : BitVec 256} (hsafe : s.safe = 0) (hst : 7 ≤ s.stage) (hkey : s.sec.identity = some key) :
    attestOne w s =
      answerOn w.port { tag := w.tag, op := 4, status := stOK, fn := s.fn, data := reportBytes s w.slot w.tag key } s := by
  rw [attestOne, gate_none hsafe hst, hkey]

/-! ### REG_READ -/

theorem portUp_setLatch (q : Path) (l : Latch) (s : State) : (setLatch q l s).portUp p = s.portUp p := by
  cases q <;> rfl

/-- What the parts of a register read keep, the read keeps. -/
theorem readReg_keeps {γ : Type} (g : State → γ) (q : Path) (a : Nat) (s : State) (hlatch : ∀ l u, g (setLatch q l u) = g u)
    (hmark : ∀ u, g (markRead a u) = g u) (hpeak : isPeak a = true → ∀ u, g (peakRead a u) = g u) : g (readReg q a s).2.2 = g s := by
  have hhigh : g (latchHigh q a s) = g s := whenS_same g _ (setLatch q _) (fun u => hlatch _ u) s
  have hread : (readReg q a s).2.2 =
      markRead a (whenS (decide (accessStatus s a = stOK) && isPeak a) (peakRead a) (latchHigh q a s)) := rfl
  rw [hread, hmark]
  cases hp : isPeak a with
  | false => rw [Bool.and_false, whenS_false, hhigh]
  | true => exact (whenS_same g _ (peakRead a) (hpeak hp) _).trans hhigh

theorem regs_markRead (a : Nat) (s : State) : (markRead a s).regs = s.regs := by
  unfold markRead
  split <;> rfl

theorem portStat_not_peak (hp : p < 2) {a : Nat} (h : isPeak a = true) : dpPortStat p ≠ a := by
  intro he
  unfold isPeak at h
  split at h
  next o hat =>
    obtain ⟨-, ha, -⟩ := regAt_hub_inv hat
    simp only [Bool.and_eq_true, decide_eq_true_eq] at h
    simp only [← he, dpPortStat, hubA] at ha
    omega
  next c blk r hat => exact portStat_ne_die hp (regAt_core_inv hat).1 he
  next => exact Bool.noConfusion h

/-- The bytes of every memory, as one value. -/
def State.mems (s : State) : Mem × Mem × Mem × Mem := (s.hbm, s.spad, s.mac, s.scale)

theorem sameBytes_of_mems (h : t.mems = s.mems) : s.sameBytes t := by
  obtain ⟨hh, hs, hm, hc⟩ : t.hbm = s.hbm ∧ t.spad = s.spad ∧ t.mac = s.mac ∧ t.scale = s.scale := by simpa [State.mems] using h
  exact fun a => ⟨by rw [hh], by rw [hs], by rw [hm], by rw [hc]⟩

/-- A register that is read over a port: no other effect but on latches, marks and a peak (R373). -/
theorem readReg_effect (hp : p < 2) (q : Path) (a : Nat) (s : State) :
    (readReg q a s).2.2.portUp p = s.portUp p ∧ s.sameBytes (readReg q a s).2.2 ∧
      (isPeak a = false → s.sameRegs (readReg q a s).2.2 []) ∧ (readReg q a s).2.2.fn = s.fn := by
  have hlatch {γ : Type} (g : State → γ) (hg : ∀ (u : State) (x : PortSt) (y : ServiceSt), g { u with port := x, svc := y } = g u) (l : Latch)
      (u : State) : g (setLatch q l u) = g u := by
    cases q <;> exact hg u _ _
  have hmark {γ : Type} (g : State → γ) (hg : ∀ (u : State) (x : CommitSt), g { u with fx := x } = g u) (u : State) :
      g (markRead a u) = g u := by
    unfold markRead
    split
    · exact hg u _
    · rfl
  refine ⟨?_, sameBytes_of_mems ?_, fun hno x _ => ?_, ?_⟩
  · refine readReg_keeps (·.portUp p) q a s (hlatch (·.portUp p) fun _ _ _ => rfl) (hmark (·.portUp p) fun _ _ => rfl) fun hpk u => ?_
    exact portUp_of_reg (State.reg_setFld_other _ (portStat_not_peak hp hpk) _ _ _)
  · exact readReg_keeps State.mems q a s (hlatch _ fun _ _ _ => rfl) (hmark _ fun _ _ => rfl) fun _ _ => rfl
  · exact readReg_keeps (·.reg x) q a s (hlatch (·.reg x) fun _ _ _ => rfl) (hmark (·.reg x) fun _ _ => rfl)
      fun hpk => Bool.noConfusion (hno.symm.trans hpk)
  · exact readReg_keeps State.fn q a s (hlatch _ fun _ _ _ => rfl) (hmark _ fun _ _ => rfl) fun _ _ => rfl

/-- The answer of a REG_READ: the value and the status. -/
def regAnswer (s : State) (tag a : Nat) : Answer :=
  { tag := tag, op := 0, status := accessStatus s a, fn := s.fn, data := leBytes (regValue s a).toNat 4 }

theorem exec_regRead (h : s.hears p f = true) (hty : f.ftype = 4) (hserve : servesNow s f.tag = true)
    (hl : ∀ l, s.latch (portPath p) = some l → l.addr + 4 ≠ f.addr) :
    ∃ t, exec (.regRead p f) s = .next t ∧
      s.answered t p (regAnswer s f.tag f.addr) ∧ s.sameBytes t ∧ (isPeak f.addr = false → s.sameRegs t []) := by
  have hp : p < 2 := by
    simp only [State.hears, Bool.and_eq_true, decide_eq_true_eq] at h
    exact h.1.1
  have hst : 3 ≤ s.stage := by
    have := (servesNow_spec hserve).1
    omega
  have hfrm : serveFrame p f s = takeRegRead p f.tag f.addr s := by
    rw [serveFrame, hty]
    exact request_served hserve _ _ _ _
  obtain ⟨hup, hbytes, hregs, hfn⟩ := readReg_effect hp (portPath p) f.addr s
  have hv := readReg_live hl
  have htake : takeRegRead p f.tag f.addr s = answerOn p (regAnswer s f.tag f.addr) (readReg (portPath p) f.addr s).2.2 := by
    rw [regAnswer, ← hv, ← hfn]
    rfl
  have hrun : exec (.regRead p f) s = answer s (answerOn p (regAnswer s f.tag f.addr) (readReg (portPath p) f.addr s).2.2) := by
    rw [exec_frameRows (p := p) (f := f) (by simp [frameRows]), takeFrame_heard h hst, hfrm, htake]
  generalize (readReg (portPath p) f.addr s).2.2 = u at *
  obtain ⟨hlast, hout⟩ := answered_after (t := u) hup.symm (regAnswer s f.tag f.addr)
  refine ⟨_, hrun.trans (answer_next _ _), ⟨hlast, hout⟩, fun x => ?_, fun hno => sameRegs_of_regs (hregs hno) ?_⟩
  · rw [answerOn_eq]
    exact hbytes x
  · rw [answerOn_eq]

/-- Settles O52: a MEM read ends in `memAnswer`, a report in `attestOne`, a register read in `readReg`. -/
theorem hostReadsAreAnswered : Obligations.HostReadsAreAnswered := by
  unfold Obligations.HostReadsAreAnswered
  refine ⟨fun s p a n f h hty hserve hop ha hn hin hgood => ?_, fun s p f h hty hserve hop => ?_,
    fun s p f h hty hserve hop hlen hcan => ?_, fun s p f h hty hserve hop hno => ?_, fun s hw => ?_,
    fun s w key hw hp hdue hsafe hst hkey => ?_, fun s p a f h hty hserve ha hl => ?_⟩
  · subst ha hn
    obtain ⟨t, b, ht, hans, htag, hop', hst, hdata, heq, hun, hco⟩ := memAnswer_effect p f.tag f.addr f.len
      ((List.range f.len).map fun i => Mem.get s.hbm (hbmReadAddr s (f.addr + i))) s
    refine ⟨t, b, (exec_mem_hbm h hty hserve hop hin hgood).trans ht, hans, htag, hop', hst, hdata, heq,
      fun hex => hun ((runInfo_hbm hin).2 hex), fun hall => hco fun hnone => ?_⟩
    obtain ⟨i, hi, hno⟩ := (runInfo_hbm hin).1 hnone
    exact hall i hi hno
  · obtain ⟨t, ht, hans, honly⟩ := answerOn_alone p { tag := f.tag, op := 3, status := stOK, fn := s.fn, data := (capBytes s).take f.len } s
    exact ⟨t, _, (exec_capacity h hty hserve hop).trans ht, hans, honly, rfl, rfl, rfl, rfl⟩
  · rw [exec_attest h hty hserve hop, takeAttest, if_neg (by simp [hlen, hcan]), hlen]
    exact answer_eq rfl
  · rw [exec_attest h hty hserve hop, takeAttest, if_pos (by simpa using hno)]
    exact reply_alone _ _ _ _ s
  · exact (congrArg (answer s) (attestReport_none hw)).trans (answer_eq rfl)
  · obtain ⟨htake, hbody, hsig⟩ := reportBytes_parts { s with port := { s.port with waitAttest := [] } } w.slot w.tag key
    have hrun := (congrArg (answer s) ((attestReport_one hw hdue).trans
      (attestOne_served (s := { s with port := { s.port with waitAttest := [] } }) hsafe hst hkey)))
    refine ⟨_, _, hrun.trans (answer_eq ?_), answered_after (t := { s with port := { s.port with waitAttest := [] } }) rfl _, rfl, rfl,
      rfl, htake, ?_, ?_⟩
    · rw [answerOn_eq]
    · dsimp only
      rw [hbody, hsig]
    · rw [answerOn_eq]
  · subst ha
    exact exec_regRead h hty hserve hl

end Sys2Proof.Machine

end

section
/-! PROOFS. The security core's stores (R400 to R404, R406). -/

namespace Sys2Proof.Machine

variable {s t u : State} {tag : Nat}

/-! ### Commands of the security core -/

/-- The security core and its registers alone have changed, before the answer on port 0. -/
def State.secFrame (s t : State) : Prop := t = { s with sec := t.sec, regs := t.regs, freeCount := t.freeCount }

theorem State.secFrame.trans (h : s.secFrame t) (k : t.secFrame u) : s.secFrame u := by
  rw [State.secFrame, k, h]

theorem secFrame_refl (s : State) : s.secFrame s := rfl

/-- A command that changes the security core alone, and is then answered. -/
theorem commandNow_sec (h : servesNow s tag = true) {c : Cmd} {x : SecSt} {st : Nat} (hc : doCommand tag c s = ({ s with sec := x }, st)) :
    ∃ t, answer s (commandNow tag c s) = .next t ∧ s.answered t 0 (shortAnswer s tag (cmdOp c) st) ∧ t.sec = x ∧
      t = { s with sec := t.sec, port := { s.port with answers := t.port.answers }, out := t.out } := by
  rw [commandNow_served h, hc]
  have heq := answerOn_eq 0 { tag := tag, op := cmdOp c, status := st, fn := s.fn } { s with sec := x }
  refine ⟨_, answer_eq (by rw [heq]), answered_after rfl _, by rw [heq], ?_⟩
  rw [heq]

/-! ### NV_STORE -/

/-- What NV_STORE refuses whatever its source holds (R402, R404). -/
def nvRefused (p : NvPayload) (s : State) : Bool :=
  !p.rsvZero || decide (p.group = 0) || decide (8 < p.group) || decide (p.src ≠ groupSrc p.group) ||
    !groupAllowed s.lcState p.group || (s.debugOpen && ((decide (p.group = 7) || decide (p.group = 8)) || decide (p.group = 3))) ||
    (decide (p.src = 1) && (decide (s.img.hbmBytes < p.addr + p.length) || decide (p.length = 0))) ||
    ((decide (p.group = 7) || decide (p.group = 8)) && (decide (1560576 < p.length) || decide (s.regFld secFw 0 1 = p.group - 7))) ||
    (decide (p.group = 2) && s.rebootReq)

theorem cmdNvStore_refused {p : NvPayload} (h : nvRefused p s = true) (tag : Nat) : cmdNvStore tag p s = (s, stProgramError) := if_pos h

/-- The store that joins the queue (R402). -/
def storeOf (p : NvPayload) (tag : Nat) (l : List Byte) (s : State) : StoreRec := ⟨p.group, tag, p.src, storePages s p.group l, none, false⟩

/-- The check of a store's source (R404). -/
def storeCheck (g : Nat) (s : State) (l : List Byte) : Nat := if g = 2 then checkRotation s l else if g = 3 then checkBoot s l else stOK

/-- A store that is not refused, with its source read without an error, is checked and joins an empty queue (R402, R404). -/
theorem cmdNvStore_allowed {p : NvPayload} {l : List Byte} (h : nvRefused p s = false)
    (hl : (if p.src = 1 then hbmRead p.addr p.length s else ([], 0, s)) = (l, 0, s)) (tag : Nat) :
    (storeCheck p.group s l ≠ stOK → cmdNvStore tag p s = (s, storeCheck p.group s l)) ∧
    (storeCheck p.group s l = stOK → ((storePages s p.group l).any fun x => pageWorn s x.1) = false → s.lcBusy = false →
      s.sec.queue = [] → s.sec.running = false →
      cmdNvStore tag p s = ({ s with sec := { s.sec with queue := [storeOf p tag l s] } }, stOK)) := by
  have hrun : cmdNvStore tag p s = if storeCheck p.group s l ≠ stOK then (s, storeCheck p.group s l)
      else if (storePages s p.group l).any fun x => pageWorn s x.1 then (s.setBit nvSticky 3, stProgramError)
      else if s.lcBusy ∨ 8 ≤ (if s.sec.running then s.sec.queue.length - 1 else s.sec.queue.length) ∨
          (p.src = 1 ∧ s.sec.queue.any fun q => q.src = 1) then (s, stNotReady)
      else (s.modSec fun x => { x with queue := x.queue ++ [storeOf p tag l s] }, stOK) := by
    unfold cmdNvStore
    extract_lets fw bad
    rw [if_neg (show ¬ bad = true from ne_true_of_eq_false h), hl]
    rfl
  refine ⟨fun hchk => hrun.trans (if_pos hchk), fun hchk hworn hbusy hq hr => ?_⟩
  rw [hrun, if_neg (not_not.2 hchk), if_neg (ne_true_of_eq_false hworn), if_neg (by simp [hbusy, hq, hr]), State.modSec, hq,
    List.nil_append]

theorem nvRefused_own {p : NvPayload} (hg : p.group ∈ [1, 4, 5, 6]) (hsrc : p.src = 0) (hrsv : p.rsvZero = true)
    (hlc : groupAllowed s.lcState p.group = true) : nvRefused p s = false := by
  simp only [List.mem_cons, List.not_mem_nil, or_false] at hg
  obtain hg | hg | hg | hg := hg <;> rw [hg] at hlc <;> simp [nvRefused, hsrc, hrsv, hlc, hg, groupSrc]

theorem nvRefused_read {p : NvPayload} (hg : p.group ∈ [2, 3, 7, 8]) (hsrc : p.src = 1) (hrsv : p.rsvZero = true)
    (hlc : groupAllowed s.lcState p.group = true) (hdebug : p.group = 2 ∨ s.debugOpen = false) (hreboot : p.group = 2 → s.rebootReq = false)
    (hlen : p.length ≠ 0) (hin : p.addr + p.length ≤ s.img.hbmBytes)
    (hfw : 7 ≤ p.group → p.length ≤ 1560576 ∧ s.regFld secFw 0 1 ≠ p.group - 7) : nvRefused p s = false := by
  have hin' : ¬ s.img.hbmBytes < p.addr + p.length := by omega
  simp only [List.mem_cons, List.not_mem_nil, or_false] at hg
  obtain hg | hg | hg | hg := hg <;> rw [hg] at hlc hfw hdebug hreboot <;>
    simp_all [nvRefused, groupSrc]

theorem exec_nvStore_queued {d l : List Byte} (hserve : servesNow s tag = true) (h : nvRefused (nvPayload d) s = false)
    (hl : (if (nvPayload d).src = 1 then hbmRead (nvPayload d).addr (nvPayload d).length s else ([], 0, s)) = (l, 0, s)) :
    (storeCheck (nvPayload d).group s l ≠ stOK → ∃ t, exec (.nvStore tag d) s = .next t ∧
      s.answered t 0 (shortAnswer s tag 8 (storeCheck (nvPayload d).group s l)) ∧ s.onlyAnswer t) ∧
    (storeCheck (nvPayload d).group s l = stOK → ((storePages s (nvPayload d).group l).any fun x => pageWorn s x.1) = false →
      s.lcBusy = false → s.sec.queue = [] → s.sec.running = false → ∃ t, exec (.nvStore tag d) s = .next t ∧
        s.answered t 0 (shortAnswer s tag 8 stOK) ∧ t.sec = { s.sec with queue := [storeOf (nvPayload d) tag l s] } ∧
        t = { s with sec := t.sec, port := { s.port with answers := t.port.answers }, out := t.out }) := by
  obtain ⟨hbad, hgood⟩ := cmdNvStore_allowed h hl tag
  exact ⟨fun hchk => commandNow_refused hserve (c := .nvStore d) (hbad hchk),
    fun hchk hworn hbusy hq hr => commandNow_sec hserve (c := .nvStore d) (hgood hchk hworn hbusy hq hr)⟩

/-! ### Pages (R401, R403, R406) -/

theorem nvPhys_congr (h : t.sec.nvm = s.sec.nvm) (i : Nat) : nvPhys t i = nvPhys s i := by rw [nvPhys, h, nvPhys]

theorem nvPhys_setPhys (i j : Nat) (x : NvPage) (s : State) : nvPhys (setPhys i x s) j = if j = i then x else nvPhys s j :=
  SMap.get_set _ _ _ _ _

/-- A page that is written: its data, its trailer and its count, in the copy that is not read, and no other page (R401). -/
theorem writePage_effect (page : Nat) (data : List Byte) (group : Nat) (good : Bool) (n : Nat) (s : State) :
    (nvPhys (writePage page data group good n s) (targetPhys s page)).data = data ∧
    (nvPhys (writePage page data group good n s) (targetPhys s page)).len = data.length ∧
    (nvPhys (writePage page data group good n s) (targetPhys s page)).complete = good ∧
    (nvPhys (writePage page data group good n s) (targetPhys s page)).worn = (!good || (nvPhys s (targetPhys s page)).worn) ∧
    (nvPhys (writePage page data group good n s) (targetPhys s page)).writes = (nvPhys s (targetPhys s page)).writes + n ∧
    (∀ i, i ≠ targetPhys s page → nvPhys (writePage page data group good n s) i = nvPhys s i) := by
  unfold writePage
  extract_lets i old gen
  have hself (x : NvPage) : nvPhys (setPhys i x s) (targetPhys s page) = x := (nvPhys_setPhys _ _ _ _).trans (if_pos rfl)
  rw [hself]
  exact ⟨rfl, rfl, rfl, rfl, rfl, fun j hj => (nvPhys_setPhys _ _ _ _).trans (if_neg hj)⟩

theorem writePage_frame (page : Nat) (data : List Byte) (group : Nat) (good : Bool) (n : Nat) (s : State) :
    writePage page data group good n s = { s with sec := { s.sec with nvm := (writePage page data group good n s).sec.nvm } } := rfl

/-- What a store's end leaves alone: all but the security core, the registers and what an event changes. -/
structure StoreEnd (s t : State) : Prop where
  eq : t = { s with sec := t.sec, regs := t.regs, port := t.port, svc := t.svc, out := t.out }
  nvm : t.sec.nvm = s.sec.nvm
  regs : s.sameRegs t (nvSticky :: secLc :: eventRegs)

theorem StoreEnd.trans (h : StoreEnd s t) (k : StoreEnd t u) : StoreEnd s u :=
  ⟨by rw [k.eq, h.eq], k.nvm.trans h.nvm, sameRegs_trans h.regs k.regs⟩

/-- A store ends: it leaves the queue, a transition is no longer under way, and its outcome is an event (R402). -/
theorem endStore_effect (r : StoreRec) (status : Nat) (s : State) :
    StoreEnd s (endStore r status s) ∧ (endStore r status s).sec = { s.sec with queue := s.sec.queue.tail, running := false } ∧
      (∀ i, (endStore r status s).regBit nvSticky i = s.regBit nvSticky i) := by
  generalize hv : whenS r.transition.isSome (fun t => t.clrBit secLc 3)
    (s.modSec fun x => { x with queue := x.queue.tail, running := false }) = v
  have hend : endStore r status s = raiseKind 5 status 0 r.tag v := by rw [← hv]; rfl
  have hsec : v.sec = { s.sec with queue := s.sec.queue.tail, running := false } := by
    rw [← hv]
    exact whenS_same State.sec _ (fun t => t.clrBit secLc 3) (fun _ => rfl) _
  have hdiff : s.secFrame v := by
    rw [← hv]
    cases r.transition.isSome <;> rfl
  have hfree : v.freeCount = s.freeCount := by
    rw [← hv]
    exact whenS_same State.freeCount _ (fun t => t.clrBit secLc 3) (fun _ => rfl) _
  have hregs : s.sameRegs v [secLc] := by
    rw [← hv]
    exact sameRegs_whenS _ _ (fun u h => sameRegs_clrBit h _ (by simp)) (sameRegs_of_regs (sameRegs_refl s _) rfl)
  have hev : EventOnly v (raiseKind 5 status 0 r.tag v) := eventOnly_pushEvent (EventOnly.refl v) _
  have hevregs : v.sameRegs (raiseKind 5 status 0 r.tag v) eventRegs := regs_pushEvent _ v
  rw [hend]
  refine ⟨⟨?_, ?_, ?_⟩, hev.sec.trans hsec, fun i => ?_⟩
  · rw [hev.eq, hdiff, hfree]
  · rw [hev.sec, hsec]
  · exact sameRegs_trans (sameRegs_mono hregs (by simp)) (sameRegs_mono hevregs (by simp))
  · exact regBit_of_reg ((hevregs _ (by decide)).trans (hregs _ (by decide))) i

/-- What a completed store brings about, in the security core alone (R393, R404). -/
theorem storeEffect_effect (r : StoreRec) (s : State) :
    ∃ k, storeEffect r s = { s with sec := { s.sec with
      opKey := k, newState := if r.transition.isSome then r.transition else s.sec.newState } } := by
  unfold storeEffect
  cases decide (r.group = 2) <;> cases r.transition.isSome <;> simp only [whenS_true, whenS_false, Bool.false_eq_true, if_true, if_false]
  · exact ⟨s.sec.opKey, rfl⟩
  · exact ⟨s.sec.opKey, rfl⟩
  · exact ⟨storedOpKey s, rfl⟩
  · exact ⟨storedOpKey s, rfl⟩

section
variable {r : StoreRec} {rest : List StoreRec} {page : Nat} {data : List Byte} {more : List (Nat × List Byte)} {rb1 rb2 : Bool}

/-- A page that has a sound copy and the energy it needs is written, with a note where the first read-back failed (R401, R403). -/
theorem pageStore_next (hq : s.sec.queue = r :: rest) (hstop : s.sec.stopped = false) (hp : r.pages = (page, data) :: more)
    (hworn : pageWorn s page = false) (hen : r.checked = true ∨ inputOk s = true ∧ energyOk s 1 = true) :
    pageStore rb1 rb2 s =
      (let t := writePage page data r.group (rb1 || rb2) (if rb1 then 1 else 2) (whenS (!rb1) (fun t => t.setBit nvSticky 2) s)
       if !(rb1 || rb2) then endStore r stProgramError t
       else if more.isEmpty then endStore r stOK (storeEffect r (t.setBit nvSticky 0))
       else t.modSec fun x => { x with queue := { r with pages := more } :: rest, running := true }) := by
  have hgo : (!r.checked && (!inputOk s || !energyOk s 1)) = false := by
    obtain hc | ⟨hi, he⟩ := hen
    · rw [hc]
      rfl
    · rw [hi, he, Bool.not_true, Bool.or_self, Bool.and_false]
  unfold pageStore
  rw [hq]
  dsimp only
  rw [hstop, if_neg (by decide), hp]
  dsimp only
  rw [hgo, if_neg (by decide), hworn, if_neg (by decide)]

/-- The state after a page is written: its copy, and the note of a failed first read-back (R401, R406). -/
def pageWritten (page : Nat) (data : List Byte) (group : Nat) (rb1 rb2 : Bool) (s : State) : State :=
  writePage page data group (rb1 || rb2) (if rb1 then 1 else 2) (whenS (!rb1) (fun t => t.setBit nvSticky 2) s)

theorem pageWritten_effect (page : Nat) (data : List Byte) (group : Nat) (rb1 rb2 : Bool) (s : State) :
    (pageWritten page data group rb1 rb2 s).sec = { s.sec with nvm := (pageWritten page data group rb1 rb2 s).sec.nvm } ∧
    pageWritten page data group rb1 rb2 s =
      { s with sec := (pageWritten page data group rb1 rb2 s).sec, regs := (pageWritten page data group rb1 rb2 s).regs } ∧
    s.sameRegs (pageWritten page data group rb1 rb2 s) [nvSticky] ∧
    (rb1 = false → (pageWritten page data group rb1 rb2 s).regBit nvSticky 2 = true) := by
  have hnote : s.sameRegs (s.setBit nvSticky 2) [nvSticky] := sameRegs_setBit (sameRegs_refl s _) _ (by simp)
  unfold pageWritten
  cases rb1 <;> simp only [Bool.not_true, Bool.not_false, whenS_true, whenS_false]
  · exact ⟨rfl, rfl, hnote, fun _ => (State.regBit_setBit s nvSticky 2 nvSticky 2 (by decide)).trans (by simp)⟩
  · exact ⟨rfl, rfl, sameRegs_refl s _, fun h => Bool.noConfusion h⟩

/-- The copies after a page is written. -/
theorem pageWritten_pages (page : Nat) (data : List Byte) (group : Nat) (rb1 rb2 : Bool) (s : State)
    (ht : (t.sec.nvm) = (pageWritten page data group rb1 rb2 s).sec.nvm) :
    (nvPhys t (targetPhys s page)).data = data ∧ (nvPhys t (targetPhys s page)).len = data.length ∧
    (nvPhys t (targetPhys s page)).complete = (rb1 || rb2) ∧
    (nvPhys t (targetPhys s page)).worn = (!(rb1 || rb2) || (nvPhys s (targetPhys s page)).worn) ∧
    (nvPhys t (targetPhys s page)).writes = (nvPhys s (targetPhys s page)).writes + (if rb1 then 1 else 2) ∧
    (∀ i, i ≠ targetPhys s page → nvPhys t i = nvPhys s i) := by
  have h := writePage_effect page data group (rb1 || rb2) (if rb1 then 1 else 2) (whenS (!rb1) (fun t => t.setBit nvSticky 2) s)
  have hsame (i : Nat) : nvPhys (whenS (!rb1) (fun t => t.setBit nvSticky 2) s) i = nvPhys s i := by cases rb1 <;> rfl
  have htarget : targetPhys (whenS (!rb1) (fun t => t.setBit nvSticky 2) s) page = targetPhys s page := by cases rb1 <;> rfl
  have hnew (i : Nat) := nvPhys_congr ht i
  simp only [htarget, hsame] at h
  simp only [hnew]
  exact h

theorem exec_nvPageStore_good (hq : s.sec.queue = r :: rest) (hstop : s.sec.stopped = false) (hp : r.pages = (page, data) :: more)
    (hworn : pageWorn s page = false) (hen : r.checked = true ∨ inputOk s = true ∧ energyOk s 1 = true) (hrb : (rb1 || rb2) = true) :
    ∃ t, exec (.nvPageStore rb1 rb2) s = .next t ∧ (nvPhys t (targetPhys s page)).data = data ∧
      (nvPhys t (targetPhys s page)).len = data.length ∧ (nvPhys t (targetPhys s page)).complete = true ∧
      (nvPhys t (targetPhys s page)).writes = (nvPhys s (targetPhys s page)).writes + (if rb1 then 1 else 2) ∧
      (∀ i, i ≠ targetPhys s page → nvPhys t i = nvPhys s i) ∧
      t.sec.queue = (if more = [] then rest else { r with pages := more } :: rest) ∧
      t.sec.newState = (if more = [] ∧ r.transition.isSome then r.transition else s.sec.newState) ∧
      (rb1 = false → t.regBit nvSticky 2 = true) ∧
      t = { s with sec := t.sec, regs := t.regs, port := t.port, svc := t.svc, out := t.out } ∧
      s.sameRegs t (nvSticky :: secLc :: eventRegs) := by
  have hrun := congrArg (answer s) (pageStore_next (rb1 := rb1) (rb2 := rb2) hq hstop hp hworn hen)
  have hpages (t : State) (ht : t.sec.nvm = (pageWritten page data r.group rb1 rb2 s).sec.nvm) :=
    pageWritten_pages page data r.group rb1 rb2 s ht
  obtain ⟨hsec, hframe, hregs, hnote⟩ := pageWritten_effect page data r.group rb1 rb2 s
  change answer s (pageStore rb1 rb2 s) = answer s (if !(rb1 || rb2) then endStore r stProgramError (pageWritten page data r.group rb1 rb2 s)
    else if more.isEmpty then endStore r stOK (storeEffect r ((pageWritten page data r.group rb1 rb2 s).setBit nvSticky 0))
    else (pageWritten page data r.group rb1 rb2 s).modSec fun x =>
      { x with queue := { r with pages := more } :: rest, running := true }) at hrun
  rw [hrb, if_neg (by decide)] at hrun
  generalize pageWritten page data r.group rb1 rb2 s = v at *
  have hpend : v.pending = s.pending := by rw [hframe]
  have hnew : v.sec.newState = s.sec.newState := by rw [hsec]
  have hqueue : v.sec.queue = r :: rest := by rw [hsec, hq]
  cases more with
  | nil =>
    obtain ⟨k, heff⟩ := storeEffect_effect r (v.setBit nvSticky 0)
    obtain ⟨hend, hesec, hebit⟩ := endStore_effect r stOK (storeEffect r (v.setBit nvSticky 0))
    rw [List.isEmpty_nil, if_pos rfl] at hrun
    generalize endStore r stOK (storeEffect r (v.setBit nvSticky 0)) = t at *
    generalize storeEffect r (v.setBit nvSticky 0) = w at *
    have hnvm : t.sec.nvm = v.sec.nvm := by rw [hend.nvm, heff]; rfl
    obtain ⟨hdata, hlen, hcomplete, -, hwrites, hother⟩ := hpages t hnvm
    refine ⟨t, hrun.trans (answer_eq ?_), hdata, hlen, hcomplete.trans hrb, hwrites, hother, ?_, ?_, fun h1 => ?_, ?_, ?_⟩
    · rw [hend.eq, heff]
      exact hpend
    · rw [hesec, heff, if_pos rfl]
      exact congrArg List.tail hqueue
    · rw [hesec, heff]
      exact if_congr (by simp) rfl hnew
    · rw [hebit, regBit_of_reg (State.reg_congr (s := v.setBit nvSticky 0) (by rw [heff]) nvSticky)]
      exact (State.regBit_setBit _ _ 0 _ 2 (by decide)).trans (by simp [hnote h1])
    · rw [hend.eq, heff, hframe]
      rfl
    · have hbit : v.sameRegs (v.setBit nvSticky 0) [nvSticky] := sameRegs_setBit (sameRegs_refl v _) _ (by simp)
      have hw : s.sameRegs w [nvSticky] := sameRegs_of_regs (sameRegs_trans hregs hbit) (by rw [heff])
      exact sameRegs_trans (sameRegs_mono hw (by simp)) hend.regs
  | cons m ms =>
    rw [List.isEmpty_cons, if_neg (by decide)] at hrun
    obtain ⟨hdata, hlen, hcomplete, -, hwrites, hother⟩ := hpages (v.modSec fun x =>
      { x with queue := { r with pages := m :: ms } :: rest, running := true }) rfl
    refine ⟨_, hrun.trans (answer_eq ?_), hdata, hlen, hcomplete.trans hrb, hwrites, hother, ?_, ?_, fun h1 => ?_, ?_, ?_⟩
    · exact hpend
    · rw [if_neg (by simp)]
      rfl
    · rw [if_neg (by simp)]
      exact hnew
    · exact hnote h1
    · rw [hframe]
      rfl
    · exact sameRegs_mono (sameRegs_of_regs hregs rfl) (by simp)

/-- A page with no good read-back is worn, and ends its store (R406). -/
theorem exec_nvPageStore_failed (hq : s.sec.queue = r :: rest) (hstop : s.sec.stopped = false) (hp : r.pages = (page, data) :: more)
    (hworn : pageWorn s page = false) (hen : r.checked = true ∨ inputOk s = true ∧ energyOk s 1 = true) :
    ∃ t, exec (.nvPageStore false false) s = .next t ∧ (nvPhys t (targetPhys s page)).complete = false ∧
      (nvPhys t (targetPhys s page)).worn = true ∧ (∀ i, i ≠ targetPhys s page → nvPhys t i = nvPhys s i) ∧ t.sec.queue = rest := by
  have hrun : pageStore false false s = endStore r stProgramError (pageWritten page data r.group false false s) :=
    pageStore_next (rb1 := false) (rb2 := false) hq hstop hp hworn hen
  obtain ⟨hsec, -, -, -⟩ := pageWritten_effect page data r.group false false s
  obtain ⟨hend, hesec, -⟩ := endStore_effect r stProgramError (pageWritten page data r.group false false s)
  obtain ⟨-, -, hcomplete, hw, -, hother⟩ := pageWritten_pages page data r.group false false s hend.nvm
  refine ⟨_, (congrArg (answer s) hrun).trans (answer_next _ _), hcomplete, hw, hother, ?_⟩
  have hqueue : (pageWritten page data r.group false false s).sec.queue = r :: rest := by rw [hsec, hq]
  exact (congrArg SecSt.queue hesec).trans (congrArg List.tail hqueue)

/-- Without the hold-up energy a store ends with nothing written (R403). -/
theorem exec_nvPageStore_low (hq : s.sec.queue = r :: rest) (hstop : s.sec.stopped = false) (hp : r.pages ≠ [])
    (hchk : r.checked = false) (hlow : inputOk s = false ∨ energyOk s 1 = false) :
    ∃ t, exec (.nvPageStore rb1 rb2) s = .next t ∧ t.sec.nvm = s.sec.nvm ∧ t.sec.queue = rest ∧ t.regBit nvSticky 1 = true := by
  obtain ⟨⟨page, data⟩, more, hpages⟩ := List.exists_cons_of_ne_nil hp
  have hno : (!r.checked && (!inputOk s || !energyOk s 1)) = true := by
    obtain h | h := hlow <;> simp [hchk, h]
  have hrun : pageStore rb1 rb2 s = endStore r stHoldupLow (s.setBit nvSticky 1) := by
    unfold pageStore
    rw [hq]
    dsimp only
    rw [hstop, if_neg (by decide), hpages]
    dsimp only
    rw [hno, if_pos rfl]
  obtain ⟨hend, hesec, hebit⟩ := endStore_effect r stHoldupLow (s.setBit nvSticky 1)
  refine ⟨_, (congrArg (answer s) hrun).trans (answer_next _ _), hend.nvm, ?_, (hebit 1).trans ?_⟩
  · exact (congrArg SecSt.queue hesec).trans (congrArg List.tail hq)
  · exact (State.regBit_setBit _ _ 1 _ 1 (by decide)).trans (by simp)

end

/-- Settles O54: a store is judged by `cmdNvStore` and its pages are written by `pageStore`, one at a time. -/
theorem storesWritePagesOneAtATime : Obligations.StoresWritePagesOneAtATime := by
  unfold Obligations.StoresWritePagesOneAtATime
  refine ⟨fun s tag d pl hpl hserve hg hsrc hrsv hlc hworn hbusy hq hr => ?_,
    fun s tag d l pl hpl hserve hg hsrc hrsv hlc hdebug hreboot hlen hin hfw hgood hl => ?_, fun s tag d pl hpl hserve hno => ?_,
    fun s r rest page data more rb1 rb2 hq hstop hp hworn hen hrb => exec_nvPageStore_good hq hstop hp hworn hen hrb,
    fun s r rest page data more hq hstop hp hworn hen => exec_nvPageStore_failed hq hstop hp hworn hen,
    fun s r rest rb1 rb2 hq hstop hp hchk hlow => exec_nvPageStore_low hq hstop hp hchk hlow, fun s rb1 rb2 hq => ?_⟩
  · subst hpl
    have hchk : storeCheck (nvPayload d).group s [] = stOK := by
      simp only [List.mem_cons, List.not_mem_nil, or_false] at hg
      rw [storeCheck, if_neg (by omega), if_neg (by omega)]
    have hst := (exec_nvStore_queued hserve (nvRefused_own hg hsrc hrsv hlc) (l := []) (if_neg (by omega))).2 hchk hworn hbusy hq hr
    simpa only [storeOf, hsrc] using hst
  · subst hpl
    have hread : (if (nvPayload d).src = 1 then hbmRead (nvPayload d).addr (nvPayload d).length s else ([], 0, s)) = (l, 0, s) := by
      rw [if_pos hsrc, hl]
      exact hbmRead_good hgood
    obtain ⟨hbad, hok⟩ := exec_nvStore_queued hserve (nvRefused_read hg hsrc hrsv hlc hdebug hreboot hlen hin hfw) hread
    refine ⟨storeCheck (nvPayload d).group s l, rfl, hbad, fun hchk hworn hbusy hq hr => ?_⟩
    have hst := hok hchk hworn hbusy hq hr
    simpa only [storeOf, hsrc] using hst
  · subst hpl
    refine commandNow_refused hserve (c := .nvStore d) (cmdNvStore_refused ?_ tag)
    obtain hno | hno | hno := hno <;> simp [nvRefused, hno]
  · have hrun : pageStore rb1 rb2 s = s := by
      unfold pageStore
      rw [hq]
    exact (congrArg (answer s) hrun).trans (answer_eq rfl)

end Sys2Proof.Machine

end

section
/-! PROOFS. LC_SET (R391 to R393, R395): a transition is authorised, and what it brings about at once. -/

namespace Sys2Proof.Machine

variable {s t u : State} {tag : Nat}

/-! ### The nonce -/

theorem State.reg64_setReg64 (s : State) (a : Nat) (v : DWord) : (s.setReg64 a v).reg64 a = v := by
  rw [State.reg64, State.setReg64, State.reg_setReg_self, State.reg_setReg_other _ _ (by omega), State.reg_setReg_self]
  ext i hi
  simp only [BitVec.getElem_append, BitVec.getElem_setWidth, BitVec.getLsbD_ushiftRight]
  split
  · exact (BitVec.getLsbD_eq_getElem hi)
  · rename_i hge
    rw [show 32 + (i - 32) = i by omega]
    exact BitVec.getLsbD_eq_getElem hi

/-- The nonce takes a free value (R391). -/
def renewNonce (s : State) : State := (s.setReg64 secLcNonce (s.free 64)).usedFree

theorem renewNonce_effect (s : State) :
    renewNonce s = { s with regs := (renewNonce s).regs, freeCount := s.freeCount + 1 } ∧
      (renewNonce s).reg64 secLcNonce = s.free 64 ∧ s.sameRegs (renewNonce s) [secLcNonce, secLcNonce + 4] :=
  ⟨rfl, State.reg64_setReg64 s secLcNonce _, sameRegs_of_regs (sameRegs_setReg64 (sameRegs_refl s _) _ (by simp) (by simp)) rfl⟩

/-! ### A transition -/

/-- What stands in the way of a transition that is in the table (R391 to R396, R421). -/
def lcBlocked (p : LcPayload) (s : State) : Bool :=
  !p.rsvZero || s.debugOpen || (s.img.slots.any fun x => decide (x.state = 3)) || !s.sec.queue.isEmpty || s.lcBusy ||
    (decide (p.target ≠ 2) && decide (p.opKey ≠ 0)) || (s.regBit secTamper 3 && decide (p.target ≠ 4))

/-- The oasis is wiped and the reboot asked for (R393, R395). -/
def transitionWipe (s : State) : State := (wipeOasis (renewNonce s.usedFree)).setBit secLc 6

/-- A transition is under way, with its pages queued (R393). -/
def transitionStarted (tag target : Nat) (pages : List (Nat × List Byte)) (s : State) : State :=
  ((transitionWipe s).setBit secLc 3).modSec fun x => { x with queue := [⟨0, tag, 0, pages, some target, true⟩] }

theorem cmdLcSet_unknown {p : LcPayload} (h : transitionBy s.lcState p.target = none) (tag : Nat) :
    cmdLcSet tag p s = (renewNonce s, stProgramError) := by
  unfold cmdLcSet
  rw [h]
  rfl

theorem cmdLcSet_unsigned {p : LcPayload} {op : Bool} (h : transitionBy s.lcState p.target = some op) (hb : lcBlocked p s = false)
    (hsig : lcAuthorised s p op = false) (tag : Nat) : cmdLcSet tag p s = (renewNonce s, stBadSignature) := by
  unfold cmdLcSet
  extract_lets renew bad
  rw [h]
  dsimp only
  rw [if_neg (show ¬ bad = true from ne_true_of_eq_false hb), hsig]
  rfl

theorem inputOk_of_reg (h : t.reg nvHoldup = s.reg nvHoldup) : inputOk t = inputOk s := regBit_of_reg h 31

theorem energyOk_of_reg (h : t.reg nvHoldup = s.reg nvHoldup) (n : Nat) : energyOk t n = energyOk s n := by
  rw [energyOk, regFld_of_reg h, energyOk]

theorem regs_transitionWipe (s : State) : s.sameRegs (transitionWipe s) [secLcNonce, secLcNonce + 4, secLc] := by
  have hnonce : s.sameRegs (renewNonce s.usedFree) [secLcNonce, secLcNonce + 4] :=
    sameRegs_trans (sameRegs_of_regs (sameRegs_refl s _) rfl) (renewNonce_effect s.usedFree).2.2
  have hsec : s.sameRegs ((renewNonce s.usedFree).modSec fun x => { x with identity := none, opKey := none })
      [secLcNonce, secLcNonce + 4, secLc] := sameRegs_of_regs (sameRegs_mono hnonce (by simp)) rfl
  exact sameRegs_setBit (sameRegs_setBit hsec _ (by simp)) _ (by simp)

theorem cmdLcSet_started {p : LcPayload} {op : Bool} (h : transitionBy s.lcState p.target = some op) (hb : lcBlocked p s = false)
    (hsig : lcAuthorised s p op = true) (hin : inputOk s = true)
    (hen : energyOk s (transitionPages s p.target p.opKey).length = true) (tag : Nat) :
    cmdLcSet tag p s = (transitionStarted tag p.target (transitionPages s p.target p.opKey) s, stOK) := by
  have hreg : (transitionWipe s).reg nvHoldup = s.reg nvHoldup := regs_transitionWipe s _ (by decide)
  have hgo : (!inputOk (transitionWipe s) || !energyOk (transitionWipe s) (transitionPages s p.target p.opKey).length) = false := by
    rw [inputOk_of_reg hreg, energyOk_of_reg hreg, hin, hen]
    rfl
  unfold cmdLcSet
  extract_lets renew bad
  rw [h]
  dsimp only
  rw [if_neg (show ¬ bad = true from ne_true_of_eq_false hb), hsig, if_neg (by decide)]
  exact if_neg (ne_true_of_eq_false hgo)

theorem transitionWipe_eq (s : State) : transitionWipe s =
    { s with
      sec := { s.sec with identity := none, opKey := none }, regs := (transitionWipe s).regs, freeCount := s.freeCount + 2 } := rfl

theorem transitionStarted_eq (tag target : Nat) (pages : List (Nat × List Byte)) (s : State) : transitionStarted tag target pages s =
    { s with
      sec := { s.sec with identity := none, opKey := none, queue := [⟨0, tag, 0, pages, some target, true⟩] }
      regs := ((transitionWipe s).setBit secLc 3).regs, freeCount := s.freeCount + 2 } := by
  rw [transitionStarted]
  generalize hu : transitionWipe s = u
  have h := transitionWipe_eq s
  rw [hu] at h
  rw [State.modSec, h]
  rfl

theorem regs_transitionStarted (tag target : Nat) (pages : List (Nat × List Byte)) (s : State) :
    s.sameRegs (transitionStarted tag target pages s) [secLcNonce, secLcNonce + 4, secLc] := by
  have h : s.sameRegs ((transitionWipe s).setBit secLc 3) [secLcNonce, secLcNonce + 4, secLc] :=
    sameRegs_setBit (regs_transitionWipe s) _ (by simp)
  exact sameRegs_of_regs h (by rw [transitionStarted_eq])

theorem State.regBit_modSec (s : State) (f : SecSt → SecSt) (a j : Nat) : (s.modSec f).regBit a j = s.regBit a j := rfl

theorem State.regBit_setBit_self (s : State) (a : Nat) {i : Nat} (hi : i < 32) (j : Nat) :
    (s.setBit a i).regBit a j = (decide (j = i) || s.regBit a j) :=
  (State.regBit_setBit s a i a j hi).trans (if_pos rfl)

/-- The bits of SEC_LC after a transition is accepted: LC_BUSY, WIPED and REBOOT_REQ (R393, R395). -/
theorem regBit_transitionStarted (tag target : Nat) (pages : List (Nat × List Byte)) (s : State) (j : Nat) :
    (transitionStarted tag target pages s).regBit secLc j = (decide (j = 3) || decide (j = 6) || decide (j = 4) || s.regBit secLc j) := by
  have hbase : (renewNonce s.usedFree).regBit secLc j = s.regBit secLc j :=
    regBit_of_reg ((renewNonce_effect s.usedFree).2.2 secLc (by decide)) j
  rw [transitionStarted, State.regBit_modSec, State.regBit_setBit_self _ _ (by decide), transitionWipe,
    State.regBit_setBit_self _ _ (by decide), wipeOasis, State.regBit_setBit_self _ _ (by decide), State.regBit_modSec, hbase]
  simp only [Bool.or_assoc]

/-! ### LC_SET as it is taken -/

/-- A command of the security core is answered after its effect. -/
theorem commandNow_after (h : servesNow s tag = true) {c : Cmd} {st : Nat} (hc : doCommand tag c s = (u, st)) (hup : u.portUp 0 = s.portUp 0) :
    ∃ t, answer s (commandNow tag c s) = .next t ∧ s.answered t 0 (shortAnswer s tag (cmdOp c) st) ∧
      t = { u with pending := s.pending, port := { u.port with answers := t.port.answers }, out := t.out } := by
  rw [commandNow_served h, hc]
  refine ⟨_, answer_next _ _, answered_after hup.symm _, ?_⟩
  rw [answerOn_eq]

theorem lcSet_portUp (h : s.sameRegs u [secLcNonce, secLcNonce + 4, secLc]) : u.portUp 0 = s.portUp 0 :=
  portUp_of_sameRegs h (by decide)

theorem exec_lcSet_unknown {d : List Byte} (hserve : servesNow s tag = true) (h : transitionBy s.lcState (lcPayload d).target = none) :
    ∃ t, exec (.lcSet tag d) s = .next t ∧ s.answered t 0 (shortAnswer s tag 9 stProgramError) ∧ t.reg64 secLcNonce = s.free 64 ∧
      t.freeCount = s.freeCount + 1 ∧ t.sec = s.sec ∧ s.sameRegs t [secLcNonce, secLcNonce + 4] ∧ s.sameBytes t := by
  obtain ⟨heq, hnonce, hregs⟩ := renewNonce_effect s
  obtain ⟨t, ht, hans, hte⟩ := commandNow_after hserve (c := .lcSet d) (cmdLcSet_unknown h tag)
    (lcSet_portUp (sameRegs_mono hregs (by simp)))
  generalize renewNonce s = u at *
  have htregs : t.regs = u.regs := by rw [hte]
  refine ⟨t, ht, hans, ?_, ?_, ?_, sameRegs_of_regs hregs htregs, sameBytes_of_mems ?_⟩
  · rw [← hnonce, State.reg64, State.reg64, State.reg_congr htregs, State.reg_congr htregs]
  · rw [hte, heq]
  · rw [hte, heq]
  · rw [hte, heq]
    rfl

/-- An LC_SET that nothing blocks: refused without its signature, and else under way (R391 to R393, R395). -/
theorem exec_lcSet_transition {d : List Byte} {op : Bool} (hserve : servesNow s tag = true)
    (h : transitionBy s.lcState (lcPayload d).target = some op) (hb : lcBlocked (lcPayload d) s = false) (hin : inputOk s = true)
    (hen : energyOk s (transitionPages s (lcPayload d).target (lcPayload d).opKey).length = true) :
    ∃ t, exec (.lcSet tag d) s = .next t ∧ t.freeCount ≠ s.freeCount ∧ s.sameBytes t ∧ t.lcState = s.lcState ∧
      s.sameRegs t [secLcNonce, secLcNonce + 4, secLc] ∧
      (lcAuthorised s (lcPayload d) op = false →
        s.answered t 0 (shortAnswer s tag 9 stBadSignature) ∧ t.sec = s.sec ∧ t.reg secLc = s.reg secLc) ∧
      (lcAuthorised s (lcPayload d) op = true → s.answered t 0 (shortAnswer s tag 9 stOK) ∧ t.sec.identity = none ∧ t.sec.opKey = none ∧
        t.lcBusy = true ∧ t.rebootReq = true ∧ t.regBit secLc 4 = true ∧
        ∃ r, t.sec.queue = [r] ∧ r.transition = some (lcPayload d).target ∧
          r.pages = transitionPages s (lcPayload d).target (lcPayload d).opKey ∧
          r.pages.getLast? = some (0, [BitVec.ofNat 8 (lcPayload d).target]) ∧ t.sec.nvm = s.sec.nvm) := by
  cases hsig : lcAuthorised s (lcPayload d) op with
  | false =>
    obtain ⟨heq, -, hregs⟩ := renewNonce_effect s
    obtain ⟨t, ht, hans, hte⟩ := commandNow_after hserve (c := .lcSet d) (cmdLcSet_unsigned h hb hsig tag)
      (lcSet_portUp (sameRegs_mono hregs (by simp)))
    generalize renewNonce s = u at *
    have htregs : s.sameRegs t [secLcNonce, secLcNonce + 4] := sameRegs_of_regs hregs (by rw [hte])
    have hlc : t.reg secLc = s.reg secLc := htregs _ (by decide)
    refine ⟨t, ht, ?_, sameBytes_of_mems ?_, regFld_of_reg hlc 0 3, sameRegs_mono htregs (by simp), fun _ => ⟨hans, ?_, hlc⟩,
      fun hyes => Bool.noConfusion hyes⟩
    · rw [hte, heq]
      exact Nat.succ_ne_self _
    · rw [hte, heq]
      rfl
    · rw [hte, heq]
  | true =>
    have hregs := regs_transitionStarted tag (lcPayload d).target (transitionPages s (lcPayload d).target (lcPayload d).opKey) s
    have hbits := regBit_transitionStarted tag (lcPayload d).target (transitionPages s (lcPayload d).target (lcPayload d).opKey) s
    have hlast : (transitionPages s (lcPayload d).target (lcPayload d).opKey).getLast? = some (0, [BitVec.ofNat 8 (lcPayload d).target]) := by
      rw [transitionPages, List.getLast?_concat]
    have heq := transitionStarted_eq tag (lcPayload d).target (transitionPages s (lcPayload d).target (lcPayload d).opKey) s
    obtain ⟨t, ht, hans, hte⟩ := commandNow_after hserve (c := .lcSet d) (cmdLcSet_started h hb hsig hin hen tag) (lcSet_portUp hregs)
    generalize transitionPages s (lcPayload d).target (lcPayload d).opKey = pages at *
    generalize transitionStarted tag (lcPayload d).target pages s = u at *
    have htregs : s.sameRegs t [secLcNonce, secLcNonce + 4, secLc] := sameRegs_of_regs hregs (by rw [hte])
    have htbit (j : Nat) : t.regBit secLc j = (decide (j = 3) || decide (j = 6) || decide (j = 4) || s.regBit secLc j) :=
      (regBit_of_reg (State.reg_congr (by rw [hte]) secLc) j).trans (hbits j)
    have hlc : t.lcState = s.lcState := State.regFld_congr fun j _ hj => by
      rw [htbit j]
      simp only [show ¬ j = 3 by omega, show ¬ j = 6 by omega, show ¬ j = 4 by omega, decide_false, Bool.false_or]
    refine ⟨t, ht, ?_, sameBytes_of_mems ?_, hlc, htregs, fun hno => Bool.noConfusion hno, fun _ => ⟨hans, ?_, ?_, ?_, ?_, ?_,
      ⟨0, tag, 0, pages, some (lcPayload d).target, true⟩, ?_, rfl, rfl, hlast, ?_⟩⟩
    · rw [hte, heq]
      exact Nat.ne_of_gt (Nat.lt_add_of_pos_right (by decide))
    · rw [hte, heq]
      rfl
    · rw [hte, heq]
    · rw [hte, heq]
    · exact htbit 3
    · exact htbit 6
    · exact htbit 4
    · rw [hte, heq]
    · rw [hte, heq]

/-- Settles O55: an LC_SET always renews the nonce, and one that is authorised starts its transition. -/
theorem transitionsAreAuthorised : Obligations.TransitionsAreAuthorised := by
  unfold Obligations.TransitionsAreAuthorised
  refine ⟨fun s tag d pl hpl hserve h => ?_, fun s tag d pl op hpl hserve h hrsv hdebug hslots hq hbusy hkey hmesh hin hen => ?_⟩
  · subst hpl
    exact exec_lcSet_unknown hserve h
  · subst hpl
    refine exec_lcSet_transition hserve h ?_ hin hen
    have hno : (s.img.slots.any fun x => decide (x.state = 3)) = false := by
      refine List.any_eq_false.2 fun x hx => ?_
      simpa using List.all_eq_true.1 hslots x hx
    have hkey' : (decide ((lcPayload d).target ≠ 2) && decide ((lcPayload d).opKey ≠ 0)) = false := by
      obtain hk | hk := hkey
      · rw [decide_eq_false (not_not.2 hk), Bool.false_and]
      · rw [decide_eq_false (not_not.2 hk), Bool.and_false]
    have hmesh' : (s.regBit secTamper 3 && decide ((lcPayload d).target ≠ 4)) = false := by
      obtain hm | hm := hmesh <;> simp [hm]
    rw [lcBlocked, hrsv, hdebug, hno, hq, hbusy, hkey', hmesh']
    rfl

end Sys2Proof.Machine

end

section
/-! PROOFS. Tamper, debug and bring-up (R388, R395, R396, R408 to R414, R421). -/

namespace Sys2Proof.Machine

variable {s t u : State}

/-! ### A tamper trip -/

theorem prog_map_stopped (m : SMap Core) (g : Core → Core) (hg : ∀ c, (g c).prog = none) (i : Nat) :
    (SMap.get (fun _ => ({} : Core)) (m.map fun e => (e.1, g e.2)) i).prog = none := by
  induction m with
  | nil => rfl
  | cons e m ih =>
    obtain ⟨k, c⟩ := e
    rw [List.map_cons, SMap.get]
    split
    · exact hg c
    · exact ih

/-- A link that is not retired goes DOWN (R396). -/
def linkStopped (i : Nat) (t : State) : State := if t.linkState i = 5 then t else t.setFld (linkA i 0) 0 3 0

theorem linkStopped_regs (i : Nat) (s : State) : s.regsDiffer (linkStopped i s) ∧ s.sameRegs (linkStopped i s) [linkA i 0] := by
  unfold linkStopped
  split
  · exact ⟨regsDiffer_refl s, sameRegs_refl s _⟩
  · exact ⟨regsDiffer_setReg (regsDiffer_refl s) _ _, sameRegs_setFld (sameRegs_refl s _) _ _ _ (by simp)⟩

theorem linkState_linkStopped (i j : Nat) (s : State) :
    (linkStopped i s).linkState j = if j = i then (if s.linkState i = 5 then 5 else 0) else s.linkState j := by
  split
  next h =>
    subst h
    unfold linkStopped
    split
    · assumption
    · exact (State.regFld_setFld_self s (linkA j 0) 0 3 0 (by decide)).trans (by decide)
  next h =>
    refine regFld_of_reg ((linkStopped_regs i s).2 _ ?_) 0 3
    simp only [List.mem_cons, List.not_mem_nil, or_false, linkA, hubA]
    omega

theorem regsDiffer_trans (h : s.regsDiffer t) (k : t.regsDiffer u) : s.regsDiffer u := by rw [State.regsDiffer, k, h]

theorem linksStopped_effect (l : List Nat) (s : State) :
    s.regsDiffer (forEach l linkStopped s) ∧ s.sameRegs (forEach l linkStopped s) (l.map fun i => linkA i 0) ∧
      ∀ j, (forEach l linkStopped s).linkState j = if j ∈ l then (if s.linkState j = 5 then 5 else 0) else s.linkState j := by
  induction l generalizing s with
  | nil => exact ⟨regsDiffer_refl s, sameRegs_refl s _, fun j => by simp⟩
  | cons i l ih =>
    obtain ⟨hd, hr, hl⟩ := ih (linkStopped i s)
    obtain ⟨hd', hr'⟩ := linkStopped_regs i s
    refine ⟨regsDiffer_trans hd' hd, sameRegs_trans (sameRegs_mono hr' (by simp)) (sameRegs_mono hr (by simp)), fun j => ?_⟩
    rw [forEach_cons, hl, linkState_linkStopped]
    by_cases hj : j = i <;> by_cases hm : j ∈ l <;> simp [hj, hm]
    all_goals split <;> simp_all

/-- The registers of the security core and the safe state at a tamper trip (R396). -/
def tamperNoted (k : Tamper) (s : State) : State :=
  (whenS (decide (k = .mesh)) (fun u => u.setBit secTamper 3)
    (((wipeOasis s).modSec fun x => { x with stopped := true, queue := [], running := false }).setBit secTamper (tamperBit k))).setFld
    biStatus 8 3 2

theorem tamperNoted_effect (k : Tamper) (s : State) :
    tamperNoted k s = { s with
      sec := { s.sec with identity := none, opKey := none, stopped := true, queue := [], running := false }
      regs := (tamperNoted k s).regs } ∧
    s.sameRegs (tamperNoted k s) [secTamper, secLc, biStatus] ∧ (tamperNoted k s).safe = 2 ∧ (tamperNoted k s).stage = s.stage ∧
    (tamperNoted k s).regBit secTamper (tamperBit k) = true ∧ (k = .mesh → (tamperNoted k s).regBit secTamper 3 = true) ∧
    (tamperNoted k s).regBit secLc 4 = true := by
  have hbit : tamperBit k < 32 := by cases k <;> decide
  generalize hv : (((wipeOasis s).modSec fun x => { x with stopped := true, queue := [], running := false }).setBit secTamper
    (tamperBit k)) = v
  generalize hw : whenS (decide (k = .mesh)) (fun u => u.setBit secTamper 3) v = w
  have heq : tamperNoted k s = w.setFld biStatus 8 3 2 := by rw [← hw, ← hv]; rfl
  have hve : v = { s with
      sec := { s.sec with identity := none, opKey := none, stopped := true, queue := [], running := false }, regs := v.regs } := by
    rw [← hv]
    rfl
  have hwipe : s.sameRegs (wipeOasis s) [secLc] :=
    sameRegs_setBit (sameRegs_of_regs (sameRegs_refl s _) rfl) _ (by simp)
  have hvr : s.sameRegs v [secTamper, secLc] := by
    rw [← hv]
    exact sameRegs_setBit (sameRegs_of_regs (sameRegs_mono hwipe (by simp)) rfl) _ (by simp)
  have hvw : v.regsDiffer w := by
    rw [← hw]
    cases decide (k = .mesh)
    · exact regsDiffer_refl v
    · exact regsDiffer_setReg (regsDiffer_refl v) _ _
  have hwr : s.sameRegs w [secTamper, secLc] := by
    rw [← hw]
    exact sameRegs_whenS _ _ (fun _ h => sameRegs_setBit h _ (by simp)) hvr
  have hvbit : v.regBit secTamper (tamperBit k) = true := by
    rw [← hv, State.regBit_setBit_self _ _ hbit, decide_eq_true rfl, Bool.true_or]
  have hvlc : v.regBit secLc 4 = true := by
    rw [← hv]
    refine (regBit_of_reg (State.reg_setBit_other _ (by decide) _) 4).trans ?_
    rw [State.regBit_modSec, wipeOasis, State.regBit_setBit_self _ _ (by decide)]
    rfl
  have hwmono (j : Nat) (h : v.regBit secTamper j = true) : w.regBit secTamper j = true := by
    rw [← hw]
    cases decide (k = .mesh)
    · exact h
    · rw [whenS_true, State.regBit_setBit_self _ _ (by decide), h, Bool.or_true]
  have hwlc : w.regBit secLc 4 = true := by
    rw [← hw]
    cases decide (k = .mesh)
    · exact hvlc
    · exact (regBit_of_reg (State.reg_setBit_other v (by decide) 3) 4).trans hvlc
  have hlast {a : Nat} (ha : a ≠ biStatus) (j : Nat) : (w.setFld biStatus 8 3 2).regBit a j = w.regBit a j :=
    regBit_of_reg (State.reg_setFld_other w ha 8 3 2) j
  rw [heq]
  refine ⟨?_, ?_, ?_, ?_, ?_, fun hk => ?_, ?_⟩
  · conv_lhs => rw [hvw, hve]
    rfl
  · exact sameRegs_setFld (sameRegs_mono hwr (by simp)) _ _ _ (by simp)
  · exact (State.regFld_setFld_self w biStatus 8 3 2 (by decide)).trans (by decide)
  · refine (State.regFld_congr fun j _ hj => ?_ : (w.setFld biStatus 8 3 2).regFld biStatus 0 4 = w.regFld biStatus 0 4).trans ?_
    · rw [State.regBit_setFld _ _ _ _ _ _ _ (by decide), if_neg (by omega)]
    · exact regFld_of_reg (hwr _ (by decide)) 0 4
  · exact (hlast (by decide) _).trans (hwmono _ hvbit)
  · refine (hlast (by decide) _).trans ?_
    rw [← hw, decide_eq_true hk, whenS_true, State.regBit_setBit_self _ _ (by decide)]
    rfl
  · exact (hlast (by decide) _).trans hwlc

/-- A tamper trip (R396). -/
theorem exec_tamperTrip (k : Tamper) (s : State) : ∃ t, exec (.tamperTrip k) s = .next t ∧ t.sec.identity = none ∧ t.sec.opKey = none ∧
    t.sec.stopped = true ∧ t.sec.queue = [] ∧ t.sec.nvm = s.sec.nvm ∧ t.safe = 2 ∧ t.stage = s.stage ∧
    t.regBit secTamper (tamperBit k) = true ∧ (k = .mesh → t.regBit secTamper 3 = true) ∧ t.regBit secLc 4 = true ∧
    (∀ j, (t.core j).prog = none) ∧ t.flight = [] ∧
    (∀ i, i < 32 → t.linkState i = if s.linkState i = 5 then 5 else 0) ∧ s.sameBytes t ∧
    s.sameRegs t (secTamper :: secLc :: biStatus :: (List.range 32).map fun i => linkA i 0) := by
  obtain ⟨heq, hregs, hsafe, hstage, hbit, hmesh, hlc⟩ := tamperNoted_effect k s
  have hrun : exec (.tamperTrip k) s = answer s (stopDies (tamperNoted k s)) := rfl
  generalize tamperNoted k s = u at *
  generalize hc : ({ u with
    cores := u.cores.map fun e => (e.1, { e.2 with prog := none, ops := [], waiting := none, ended := true }), flight := [] } : State) = v
  have hstop : stopDies u = forEach (List.range 32) linkStopped v := by rw [← hc]; rfl
  have hvregs : v.regs = u.regs := by rw [← hc]
  obtain ⟨hdiff, hl, hstate⟩ := linksStopped_effect (List.range 32) v
  have hoff {a : Nat} (ha : a < hubA 0x8400 ∨ hubA 0x8800 ≤ a) : a ∉ (List.range 32).map fun i => linkA i 0 := by
    simp only [List.mem_map, List.mem_range, not_exists, not_and, linkA, hubA] at ha ⊢
    intro i hi
    omega
  rw [hstop] at hrun
  generalize forEach (List.range 32) linkStopped v = w at *
  have hreg {a : Nat} (ha : a < hubA 0x8400 ∨ hubA 0x8800 ≤ a) : w.reg a = u.reg a :=
    (hl a (hoff ha)).trans (State.reg_congr hvregs a)
  have hsec : w.sec = u.sec := by rw [hdiff, ← hc]
  have husec : u.sec = { s.sec with identity := none, opKey := none, stopped := true, queue := [], running := false } := by rw [heq]
  have hpend : w.pending = s.pending := by rw [hdiff, ← hc, heq]
  have hcores : w.cores = u.cores.map fun e => (e.1, { e.2 with prog := none, ops := [], waiting := none, ended := true }) := by
    rw [hdiff, ← hc]
  have hus : s.sameRegs u (secTamper :: secLc :: biStatus :: (List.range 32).map fun i => linkA i 0) :=
    sameRegs_mono hregs (by simp)
  rw [husec] at hsec
  refine ⟨w, hrun.trans (answer_eq hpend), ?_, ?_, ?_, ?_, ?_, ?_, ?_, ?_, fun hk => ?_, ?_, fun j => ?_, ?_, fun i hi => ?_,
    sameBytes_of_mems ?_, ?_⟩
  · rw [hsec]
  · rw [hsec]
  · rw [hsec]
  · rw [hsec]
  · rw [hsec]
  · exact (regFld_of_reg (hreg (by decide)) 8 3).trans hsafe
  · exact (regFld_of_reg (hreg (by decide)) 0 4).trans hstage
  · exact (regBit_of_reg (hreg (by decide)) _).trans hbit
  · exact (regBit_of_reg (hreg (by decide)) _).trans (hmesh hk)
  · exact (regBit_of_reg (hreg (by decide)) _).trans hlc
  · rw [State.core, hcores]
    exact prog_map_stopped _ (fun c => { c with prog := none, ops := [], waiting := none, ended := true }) (fun _ => rfl) j
  · rw [hdiff, ← hc]
  · have hv : v.linkState i = s.linkState i := by
      refine regFld_of_reg ((State.reg_congr hvregs _).trans (hregs _ ?_)) 0 3
      simp only [List.mem_cons, List.not_mem_nil, or_false, linkA, hubA, secTamper, secLc, biStatus]
      omega
    rw [hstate, if_pos (List.mem_range.2 hi), hv]
  · rw [hdiff, ← hc, heq]
    rfl
  · refine sameRegs_trans hus (sameRegs_mono (sameRegs_trans (sameRegs_of_regs (sameRegs_refl u _) hvregs) hl) ?_)
    exact fun a ha => by simp only [List.mem_cons]; exact .inr (.inr (.inr ha))

/-! ### Debug (R421) -/

theorem exec_biDebugOpen (h : (s.lcState = 0 ∨ s.lcState = 3)) (hslots : (s.img.slots.all fun x => decide (x.state = 0)) = true)
    (hq : s.sec.queue = []) (hr : s.sec.running = false) (hbusy : s.lcBusy = false) :
    ∃ t, exec .biDebugOpen s = .next t ∧ t.debugOpen = true ∧ t.regBit secLc 4 = true ∧
      t.lcState = s.lcState ∧ t = { s with sec := { s.sec with identity := none, opKey := none }, regs := t.regs } ∧
      s.sameRegs t [secLc] := by
  have hok : ((decide (s.lcState = 0) || decide (s.lcState = 3)) && (s.img.slots.all fun x => decide (x.state = 0)) &&
      s.sec.queue.isEmpty && !s.sec.running && !s.lcBusy) = true := by
    rw [hslots, hq, hr, hbusy]
    obtain h | h := h <;> simp [h]
  have hrun : (openDebug s).1 = (wipeOasis s).setBit secLc 5 := by
    unfold openDebug
    dsimp only
    rw [if_pos hok]
  have hbits (j : Nat) : ((wipeOasis s).setBit secLc 5).regBit secLc j = (decide (j = 5) || (decide (j = 4) || s.regBit secLc j)) := by
    rw [State.regBit_setBit_self _ _ (by decide), wipeOasis, State.regBit_setBit_self _ _ (by decide), State.regBit_modSec]
  refine ⟨_, (congrArg (answer s) hrun).trans (answer_eq rfl), hbits 5, hbits 4, State.regFld_congr fun j _ hj => ?_, rfl, ?_⟩
  · rw [hbits, decide_eq_false (by omega), decide_eq_false (by omega), Bool.false_or, Bool.false_or]
  · exact sameRegs_setBit (sameRegs_setBit (sameRegs_of_regs (sameRegs_refl s _) rfl) _ (by simp)) _ (by simp)

theorem exec_biDebugOpen_refused
    (h : (s.lcState ≠ 0 ∧ s.lcState ≠ 3) ∨ (s.img.slots.any fun x => decide (x.state ≠ 0)) = true ∨ s.sec.queue ≠ []) :
    exec .biDebugOpen s = .next s := by
  have hok : ((decide (s.lcState = 0) || decide (s.lcState = 3)) && (s.img.slots.all fun x => decide (x.state = 0)) &&
      s.sec.queue.isEmpty && !s.sec.running && !s.lcBusy) = false := by
    obtain ⟨h0, h3⟩ | h | h := h
    · simp [h0, h3]
    · have hall : (s.img.slots.all fun x => decide (x.state = 0)) = false := by
        simpa [List.all_eq_false, List.any_eq_true] using h
      simp [hall]
    · simp [h]
  have hrun : (openDebug s).1 = s := by
    unfold openDebug
    dsimp only
    rw [if_neg (ne_true_of_eq_false hok)]
  exact (congrArg (answer s) hrun).trans (answer_eq rfl)

end Sys2Proof.Machine

end

section
/-! PROOFS. Bring-up (R386 to R396, R405, R408 to R415): what every stage keeps, and how it ends. -/

namespace Sys2Proof.Machine

variable {s t u : State}

/-! ### What the stages after the first tick keep -/

/-- The NVM, the memories, the time, SEC_FW and the safe state. -/
structure BootKeep (s t : State) : Prop where
  nvm : t.sec.nvm = s.sec.nvm
  mems : t.mems = s.mems
  tk : t.tk = s.tk
  fw : t.reg secFw = s.reg secFw
  safe : t.safe = s.safe

theorem BootKeep.refl (s : State) : BootKeep s s := ⟨rfl, rfl, rfl, rfl, rfl⟩

theorem BootKeep.trans (h : BootKeep s t) (k : BootKeep t u) : BootKeep s u :=
  ⟨k.nvm.trans h.nvm, k.mems.trans h.mems, k.tk.trans h.tk, k.fw.trans h.fw, k.safe.trans h.safe⟩

/-- A step that changes neither SEC_FW nor the state of bring-up. -/
theorem BootKeep.of_reg (hnvm : t.sec.nvm = s.sec.nvm) (hmems : t.mems = s.mems) (htk : t.tk = s.tk)
    (hr : ∀ a ∈ [secFw, biStatus], t.reg a = s.reg a) : BootKeep s t :=
  ⟨hnvm, hmems, htk, hr _ (by simp), regFld_of_reg (hr _ (by simp)) 8 3⟩

theorem BootKeep.of_regs (hnvm : t.sec.nvm = s.sec.nvm) (hmems : t.mems = s.mems) (htk : t.tk = s.tk) (hr : t.regs = s.regs) :
    BootKeep s t := BootKeep.of_reg hnvm hmems htk fun a _ => State.reg_congr hr a

theorem BootKeep.of_sameRegs {l : List Nat} (hnvm : t.sec.nvm = s.sec.nvm) (hmems : t.mems = s.mems) (htk : t.tk = s.tk)
    (hr : s.sameRegs t l) (hl : ∀ a ∈ [secFw, biStatus], a ∉ l) : BootKeep s t :=
  BootKeep.of_reg hnvm hmems htk fun a ha => hr a (hl a ha)

theorem BootKeep.setReg {a : Nat} (ha : a ∉ [secFw, biStatus]) (v : Word) (s : State) : BootKeep s (s.setReg a v) :=
  BootKeep.of_reg rfl rfl rfl fun b hb => State.reg_setReg_other s v (fun e => ha (e ▸ hb))

/-- A register of a die or a core. -/
theorem not_boot_of_die {a : Nat} (ha : dieA 0 0 ≤ a) : a ∉ [secFw, biStatus] := by
  simp only [List.mem_cons, List.not_mem_nil, or_false, secFw, biStatus, hubA, dieA] at ha ⊢
  omega

theorem BootKeep.whenS (b : Bool) {f : State → State} (hf : ∀ u, BootKeep u (f u)) (s : State) : BootKeep s (whenS b f s) := by
  cases b
  · exact BootKeep.refl s
  · exact hf s

theorem BootKeep.forEach {β : Type} (l : List β) (f : β → State → State) (hf : ∀ x u, BootKeep u (f x u)) (s : State) :
    BootKeep s (forEach l f s) :=
  forEach_keeps (BootKeep s) l f (fun x _ u h => h.trans (hf x u)) s (BootKeep.refl s)

theorem bootKeep_modBist (f : TestSt → TestSt) (s : State) : BootKeep s (s.modBist f) := BootKeep.of_regs rfl rfl rfl rfl
theorem bootKeep_modImg (f : ImageSt → ImageSt) (s : State) : BootKeep s (s.modImg f) := BootKeep.of_regs rfl rfl rfl rfl
theorem bootKeep_modCore (i : Nat) (f : Core → Core) (s : State) : BootKeep s (s.modCore i f) := BootKeep.of_regs rfl rfl rfl rfl
theorem bootKeep_modLink (i : Nat) (f : LinkSt → LinkSt) (s : State) : BootKeep s (s.modLink i f) := BootKeep.of_regs rfl rfl rfl rfl

theorem bootKeep_modSec (f : SecSt → SecSt) (s : State) (hf : (f s.sec).nvm = s.sec.nvm) : BootKeep s (s.modSec f) :=
  BootKeep.of_regs hf rfl rfl rfl
theorem bootKeep_usedFree (s : State) : BootKeep s s.usedFree := BootKeep.of_regs rfl rfl rfl rfl

theorem bootKeep_markRetired (b i : Nat) (s : State) : BootKeep s (s.markRetired b i) := BootKeep.of_regs rfl rfl rfl rfl

theorem boot_not_eventRegs : ∀ a ∈ [secFw, biStatus], a ∉ eventRegs := by decide

theorem bootKeep_pushEvent (e : Event) (s : State) : BootKeep s (pushEvent e s) := by
  have hev : EventOnly s (pushEvent e s) := eventOnly_pushEvent (EventOnly.refl s) e
  refine BootKeep.of_sameRegs (by rw [hev.sec]) ?_ hev.tk (regs_pushEvent e s) boot_not_eventRegs
  rw [State.mems, hev.hbm, hev.spad, hev.mac, hev.scale, State.mems]

theorem boot_not_logRegs {k : Nat} (hk : k < 64) : ∀ a ∈ [secFw, biStatus], a ∉ logRegs k := by
  intro a ha hl
  simp only [List.mem_cons, List.not_mem_nil, or_false] at ha
  simp only [logRegs, List.mem_append, List.mem_cons, List.not_mem_nil, or_false] at hl
  obtain hl | hl := hl
  · simp only [logA, fxLogHead, fxSticky, secFw, biStatus, hubA] at ha hl
    omega
  · exact boot_not_eventRegs a (by simpa using ha) hl

theorem bootKeep_newLogEntry (cls : Nat) (l : Loc) (source attempt : Nat) (wfn : DWord) (s : State) :
    BootKeep s (newLogEntry cls l source attempt wfn s) := by
  have h := (faultOnly_newLogEntry (FaultOnly.refl s) cls l source attempt wfn).eq
  have hk : s.regFld fxLogHead 0 6 < 64 := regFld_lt s fxLogHead 0 6
  refine BootKeep.of_sameRegs ?_ ?_ ?_ (regs_newLogEntry cls l source attempt wfn s) (boot_not_logRegs hk)
  all_goals rw [h]
  rfl

/-! ### Self-test -/

theorem bootKeep_bistRetire (base i : Nat) (l : Loc) (s : State) : BootKeep s (bistRetire base i l s) := by
  unfold bistRetire
  split
  · exact BootKeep.refl s
  · exact ((bootKeep_markRetired _ _ s).trans (BootKeep.setReg (by decide) _ _)).trans (bootKeep_newLogEntry _ _ _ _ _ _)

theorem boot_not_biDieA (d : Nat) : biDieA d ∉ [secFw, biStatus] := by
  simp only [List.mem_cons, List.not_mem_nil, or_false, secFw, biStatus, hubA, biDieA]
  omega

theorem bootKeep_bistFail (x : BistFail) (s : State) : BootKeep s (bistFail x s) := by
  cases x with
  | array d p pm => exact bootKeep_bistRetire _ _ _ s
  | bank d p b => exact (bootKeep_bistRetire _ _ _ s).trans (bootKeep_markRetired _ _ _)
  | core d p => exact bootKeep_bistRetire _ _ _ s
  | die d => exact ((bootKeep_modBist _ s).trans (BootKeep.setReg (boot_not_biDieA d) _ _)).trans (BootKeep.setReg (by decide) _ _)
  | ring d => exact bootKeep_bistRetire _ _ _ s
  | channel i => exact bootKeep_bistRetire _ _ _ s
  | hub => exact BootKeep.refl s

theorem bootKeep_retireBankPwr (core bank : Nat) (s : State) : BootKeep s (retireBankPwr core bank s) :=
  (BootKeep.setReg (not_boot_of_die (spA_ge _ _)) _ s).trans (bootKeep_modCore _ _ _)

theorem bootKeep_mapMacros (core : Nat) (s : State) : BootKeep s (mapMacros core s) := by
  unfold mapMacros
  extract_lets ix n s1 s2
  have h1 : BootKeep s s1 := bootKeep_modImg _ s
  have h2 : BootKeep s1 s2 :=
    BootKeep.forEach _ _ (fun m u => BootKeep.setReg (not_boot_of_die (dieA_le_coreA _ _ _)) _ u) s1
  exact (h1.trans h2).trans (BootKeep.forEach _ _ (fun b u => bootKeep_retireBankPwr _ _ u) s2)

theorem bootKeep_mapDie (d : Nat) (s : State) : BootKeep s (mapDie d s) := by
  unfold mapDie
  split
  · exact bootKeep_modImg _ s
  · extract_lets l s1 s2
    have h1 : BootKeep s s1 := bootKeep_modImg _ s
    have h2 : BootKeep s1 s2 := BootKeep.forEach _ _ (fun c u => bootKeep_modBist _ u) s1
    exact (h1.trans h2).trans (BootKeep.forEach _ _ (fun c u => bootKeep_mapMacros _ u) s2)

theorem bootKeep_dieBist (d : Nat) (fails : List BistFail) (s : State) : BootKeep s (dieBist d fails s) := by
  unfold dieBist
  extract_lets s1 s2
  have h1 : BootKeep s s1 := BootKeep.forEach _ _ (fun x u => bootKeep_bistFail x u) s
  have h2 : BootKeep s1 s2 := by
    simp only [s2]
    split
    · exact BootKeep.refl s1
    · exact BootKeep.setReg (boot_not_biDieA d) _ s1
  exact (h1.trans h2).trans (bootKeep_mapDie d s2)

/-! ### Links -/

theorem boot_not_linkA (i x : Nat) (hx : x < 0x20) (hi : i < 32) : linkA i x ∉ [secFw, biStatus] := by
  simp only [List.mem_cons, List.not_mem_nil, or_false, secFw, biStatus, hubA, linkA]
  omega

theorem bootKeep_startTraining {i : Nat} (hi : i < 32) (s : State) : BootKeep s (startTraining i s) := by
  have h := linkFrame_startTraining i s
  refine BootKeep.of_sameRegs ?_ ?_ ?_ (regs_startTraining i s) fun a ha hm => ?_
  · rw [h]
  · rw [h]
    rfl
  · rw [h]
  · simp only [List.mem_cons, List.not_mem_nil, or_false] at ha
    simp only [enableRegs, stateRegs, List.mem_append, List.mem_cons, List.not_mem_nil, or_false] at hm
    obtain hm | hm | hm := hm
    · simp only [linkA, hubA, secFw, biStatus] at ha hm
      omega
    · simp only [fxCapSum, hubA, secFw, biStatus] at ha hm
      omega
    · exact boot_not_eventRegs a (by simpa using ha) hm

theorem bootKeep_bootLink {i : Nat} (hi : i < 32) (s : State) : BootKeep s (bootLink i s) := by
  unfold bootLink
  extract_lets bad s1
  have h1 : BootKeep s s1 := bootKeep_modLink _ _ s
  have hreg (v : Word) (u : State) : BootKeep u (u.setReg (linkA i 0) v) := BootKeep.setReg (boot_not_linkA i 0 (by decide) hi) v u
  split
  · exact h1.trans (hreg _ _)
  · split
    · exact h1
    · exact h1.trans ((hreg _ _).trans (hreg _ _))

/-! ### The stages -/

/-- A stage begins: its number alone changes. -/
theorem setStage_effect (n : Nat) (s : State) : BootKeep s (setStage n s) ∧ (setStage n s).stage = n % 16 := by
  refine ⟨⟨rfl, rfl, rfl, State.reg_setFld_other s (by decide) 0 4 n, State.regFld_congr fun j hj _ => ?_⟩,
    State.regFld_setFld_self s biStatus 0 4 n (by decide)⟩
  rw [setStage, State.regBit_setFld _ _ _ _ _ _ _ (by decide), if_neg (by omega)]

theorem bootKeep_stageFive (f : BootFindings) (s : State) : BootKeep s (stageFive f s) := by
  unfold stageFive
  extract_lets s1 s2 s3
  have h1 : BootKeep s s1 := (setStage_effect 5 s).1
  have h2 : BootKeep s1 s2 := BootKeep.forEach _ _ (fun x u => by
    split
    · exact bootKeep_bistFail _ u
    · exact BootKeep.refl u) s1
  have h3 : BootKeep s2 s3 := bootKeep_modImg _ s2
  refine forEach_keeps (BootKeep s) _ _ (fun i hi u h => ?_) s3 ((h1.trans h2).trans h3)
  have hlt := List.mem_range.1 hi
  dsimp only
  split
  · exact h.trans ((bootKeep_bootLink hlt u).trans (bootKeep_startTraining hlt _))
  · exact h.trans (bootKeep_bootLink hlt u)

theorem stage_pushEvent (e : Event) (s : State) : (pushEvent e s).stage = s.stage :=
  regFld_of_reg (regs_pushEvent e s biStatus (by decide)) 0 4

theorem stageSixSeven_effect (f : BootFindings) (s : State) :
    BootKeep s (stageSixSeven f s) ∧ (stageSixSeven f s).stage = 7 := by
  unfold stageSixSeven
  extract_lets s1 s2
  have h1 : BootKeep s s1 := (setStage_effect 6 s).1.trans (BootKeep.forEach _ _ (fun d u => bootKeep_dieBist d f.fails u) _)
  have h2 : BootKeep s1 s2 := (bootKeep_modImg _ s1).trans (setStage_effect 7 _).1
  have hst : s2.stage = 7 := (setStage_effect 7 _).2
  exact ⟨(h1.trans h2).trans (bootKeep_pushEvent _ s2), (stage_pushEvent _ s2).trans hst⟩

theorem chargeHoldup_effect (s : State) : BootKeep s (chargeHoldup s) ∧ (chargeHoldup s).stage = s.stage := by
  have h : BootKeep s (s.setFld nvHoldup 0 16 (max 6000 (s.free 16 : BitVec 16).toNat)) := BootKeep.setReg (by decide) _ s
  exact ⟨h.trans (bootKeep_usedFree _), regFld_of_reg (State.reg_setFld_other s (by decide) 0 16 _) 0 4⟩

/-! #### Stage 3: settings and the first tick -/

/-- The settings that stage 3 loads (R296, R358, R405). -/
def settingsLoaded (s : State) : State :=
  let s := loadSlew (loadClId (setStage 3 s))
  let s := s.modBist fun b => { b with retired := storedRetired s }
  let s := s.modSec fun x => { x with cal := storedCal s, opKey := if s.lcState = 2 then storedOpKey s else none }
  (s.setReg64 secLcNonce (s.free 64)).usedFree

theorem stageThree_eq (s : State) : stageThree s = firstTick (settingsLoaded s) := rfl

theorem bootKeep_loadClId (s : State) : BootKeep s (loadClId s) := by
  unfold loadClId
  extract_lets v
  split
  · exact BootKeep.setReg (by decide) _ s
  · exact BootKeep.refl s

theorem bootKeep_loadSlew (s : State) : BootKeep s (loadSlew s) := by
  unfold loadSlew
  split
  · exact BootKeep.refl s
  · exact (BootKeep.setReg (by decide) _ s).trans (BootKeep.setReg (by decide) _ _)

theorem bootKeep_settingsLoaded (s : State) : BootKeep s (settingsLoaded s) := by
  unfold settingsLoaded
  extract_lets s1 s2 s3
  have h1 : BootKeep s s1 := ((setStage_effect 3 s).1.trans (bootKeep_loadClId _)).trans (bootKeep_loadSlew _)
  have h2 : BootKeep s1 s2 := bootKeep_modBist _ s1
  have h3 : BootKeep s2 s3 := bootKeep_modSec _ s2 rfl
  have h4 : BootKeep s3 (s3.setReg64 secLcNonce (s3.free 64)) :=
    (BootKeep.setReg (by decide) _ s3).trans (BootKeep.setReg (by decide) _ _)
  exact (((h1.trans h2).trans h3).trans h4).trans (bootKeep_usedFree _)

/-- The first tick has FN 0 (R37). -/
theorem firstTick_effect (s : State) : (firstTick s).fn = 0 ∧ (firstTick s).sec.nvm = s.sec.nvm ∧ (firstTick s).mems = s.mems ∧
    (firstTick s).reg secFw = s.reg secFw ∧ (firstTick s).safe = s.safe := by
  unfold firstTick
  extract_lets src p ext s1
  cases decide (src = 1)
  · exact ⟨rfl, rfl, rfl, rfl, rfl⟩
  · have hreg {a : Nat} (ha : a ≠ ftStatus) : (s1.setBit ftStatus 0).reg a = s.reg a := State.reg_setBit_other s1 ha 0
    exact ⟨rfl, rfl, rfl, hreg (by decide), regFld_of_reg (hreg (by decide)) 8 3⟩

/-! #### Stage 2: the firmware slot that runs -/

/-- The life-cycle state is shown, and the mesh is looked at, before a firmware slot is chosen (R390, R394). -/
def lifeShown (f : BootFindings) (s : State) : State :=
  let s := setStage 2 (whenS f.meshOpen (fun t => t.setBit secTamper 3) s)
  s.setFld secLc 0 3 (bootState s)

theorem stageTwo_none {f : BootFindings} (h : bootSlot f (lifeShown f s) = none) :
    stageTwo f s = ((lifeShown f s).setFld biStatus 8 3 1, false) := by
  change (match bootSlot f (lifeShown f s) with
    | none => ((lifeShown f s).setFld biStatus 8 3 1, false)
    | some slot => _) = _
  rw [h]

theorem lifeShown_effect (f : BootFindings) (s : State) :
    s.regsDiffer (lifeShown f s) ∧ s.sameRegs (lifeShown f s) [secTamper, secLc, biStatus] ∧ (lifeShown f s).stage = 2 ∧
      (lifeShown f s).safe = s.safe := by
  unfold lifeShown
  extract_lets s1
  have h0 : s.regsDiffer (whenS f.meshOpen (fun t => t.setBit secTamper 3) s) := by
    cases f.meshOpen
    · exact regsDiffer_refl s
    · exact regsDiffer_setReg (regsDiffer_refl s) _ _
  have hr0 : s.sameRegs (whenS f.meshOpen (fun t => t.setBit secTamper 3) s) [secTamper, secLc, biStatus] :=
    sameRegs_whenS _ _ (fun _ h => sameRegs_setBit h _ (by simp)) (sameRegs_refl s _)
  have hst : s1.stage = 2 := (setStage_effect 2 _).2
  have hsafe : s1.safe = s.safe := (setStage_effect 2 _).1.safe.trans (regFld_of_reg ?_ 8 3)
  · refine ⟨regsDiffer_setReg (regsDiffer_setReg h0 _ _) _ _, ?_, ?_, ?_⟩
    · exact sameRegs_setFld (sameRegs_setFld hr0 _ _ _ (by simp)) _ _ _ (by simp)
    · exact (regFld_of_reg (State.reg_setFld_other s1 (by decide) 0 3 _) 0 4).trans hst
    · exact (regFld_of_reg (State.reg_setFld_other s1 (by decide) 0 3 _) 8 3).trans hsafe
  · exact whenS_same (·.reg biStatus) _ (fun t => t.setBit secTamper 3) (fun u => State.reg_setBit_other u (by decide) 3) s

/-- What the boot ROM finds in NVM depends on NVM alone. -/
theorem fwWritten_congr (h : t.sec = s.sec) (slot : Nat) : fwWritten t slot = fwWritten s slot := by
  unfold fwWritten nvPhys
  rw [h]

theorem pageFld_congr (h : t.sec = s.sec) (p o n : Nat) : pageFld t p o n = pageFld s p o n := by
  unfold pageFld logicalPage readCopy nvPhys
  rw [h]

theorem minVersion_congr (h : t.sec = s.sec) : minVersion t = minVersion s := pageFld_congr h 3 2 2

theorem bootSlot_none {f : BootFindings} (h0 : fwWritten s 0 = false) (h1 : fwWritten s 1 = false) (hf : f.slotValid = (false, false)) :
    bootSlot f s = none := by
  have hbad (slot : Nat) (h : slot < 2) : slotGood f s slot = false := by
    have hw : fwWritten s slot = false := by interval_cases slot <;> assumption
    rw [slotGood, hw, if_neg (by decide), hf]
    interval_cases slot <;> rfl
  have hlt : pageFld s 3 0 1 % 2 < 2 := Nat.mod_lt _ (by decide)
  unfold bootSlot
  dsimp only
  rw [hbad _ hlt, hbad _ (by omega)]
  rfl

theorem bootSlot_zero {f : BootFindings} (ha : pageFld s 3 0 1 % 2 = 0) (h0 : fwWritten s 0 = false) (hf : f.slotValid.1 = true)
    (hv : 1 ≤ f.slotVersion.1) (hm : minVersion s ≤ f.slotVersion.1) : bootSlot f s = some 0 := by
  have hgood : slotGood f s 0 = true := by
    rw [slotGood, h0, if_neg (by decide)]
    simp only [ofSlot, if_true, hf, hv, hm, decide_true, Bool.and_self]
  unfold bootSlot
  dsimp only
  rw [ha, hgood]
  rfl

/-- Firmware slot 0 runs, its contents not modelled: SEC_FW shows it, and the keys are loaded (R386, R388). -/
theorem stageTwo_zero {f : BootFindings} (h : bootSlot f (lifeShown f s) = some 0) (h0 : fwWritten (lifeShown f s) 0 = false) :
    (stageTwo f s).2 = true ∧ (stageTwo f s).1.regFld secFw 0 1 = 0 ∧ (stageTwo f s).1.safe = s.safe ∧
      (stageTwo f s).1.sec.nvm = s.sec.nvm ∧ (stageTwo f s).1.mems = s.mems := by
  obtain ⟨hdiff, -, -, hsafe⟩ := lifeShown_effect f s
  have hrun : stageTwo f s = (match bootSlot f (lifeShown f s) with
    | none => ((lifeShown f s).setFld biStatus 8 3 1, false)
    | some slot =>
      let s := (lifeShown f s).setReg secFw (BitVec.ofNat 32 (slotVersion f (lifeShown f s) slot % 65536 * 65536 + slot))
      let (d, s) := fwDigestOf s slot
      (s.modSec fun x =>
        { x with fwDigest := d, stopped := false, identity := if s.hasIdentity then (storedSalt s).map (identityKey x.secret) else none },
       true)) := rfl
  generalize lifeShown f s = u at *
  rw [h] at hrun
  dsimp only at hrun
  have hdig (v : Word) : fwDigestOf (u.setReg secFw v) 0 = ((u.setReg secFw v).free 256, (u.setReg secFw v).usedFree) :=
    if_neg (ne_true_of_eq_false ((fwWritten_congr rfl 0).trans h0))
  rw [hdig] at hrun
  have hfw (v : Nat) : (u.setReg secFw (BitVec.ofNat 32 (v % 65536 * 65536 + 0))).regFld secFw 0 1 = 0 := by
    rw [State.regFld, State.reg_setReg_self, fld, BitVec.toNat_ofNat]
    omega
  have hnvm : u.sec.nvm = s.sec.nvm := by rw [hdiff]
  have hmems : u.mems = s.mems := by rw [hdiff]; rfl
  rw [hrun]
  refine ⟨rfl, hfw _, ?_, ?_, ?_⟩
  · exact (regFld_of_reg (State.reg_setReg_other u _ (by decide)) 8 3).trans hsafe
  · exact hnvm
  · exact hmems

/-! ### Bring-up -/

theorem bringUp_idle {f : BootFindings} (h : s.pwr.input ≠ 2 ∨ s.stage ≠ 1 ∨ s.safe ≠ 0) : bringUp f s = s := if_pos h

section
variable {f : BootFindings} (hin : s.pwr.input = 2) (hst : s.stage = 1) (hsafe : s.safe = 0)
include hin hst hsafe

/-- Without a good firmware slot bring-up ends in safe state 1 (R388). -/
theorem exec_bringUp_noFirmware (h0 : fwWritten s 0 = false) (h1 : fwWritten s 1 = false) (hf : f.slotValid = (false, false)) :
    ∃ t, exec (.bringUp f) s = .next t ∧ t.safe = 1 ∧ t.stage = 2 ∧ t.sec = s.sec ∧ t.tk = s.tk ∧
      t.img = s.img ∧ s.sameBytes t ∧ s.sameRegs t [secTamper, secLc, biStatus] := by
  obtain ⟨hdiff, hregs, hstage, -⟩ := lifeShown_effect f s
  have hsec : (lifeShown f s).sec = s.sec := by rw [hdiff]
  have hno : bootSlot f (lifeShown f s) = none :=
    bootSlot_none ((fwWritten_congr hsec 0).trans h0) ((fwWritten_congr hsec 1).trans h1) hf
  have hrun : bringUp f s = (lifeShown f s).setFld biStatus 8 3 1 := by
    rw [bringUp, if_neg (by simp [hin, hst, hsafe]), stageTwo_none hno]
    rfl
  generalize lifeShown f s = u at *
  have hpend : u.pending = s.pending := by rw [hdiff]
  have htk : u.tk = s.tk := by rw [hdiff]
  have himg : u.img = s.img := by rw [hdiff]
  have hmems : u.mems = s.mems := by rw [hdiff]; rfl
  refine ⟨_, (congrArg (answer s) hrun).trans (answer_eq ?_), ?_, ?_, ?_, ?_, ?_, sameBytes_of_mems ?_, ?_⟩
  · exact hpend
  · exact (State.regFld_setFld_self u biStatus 8 3 1 (by decide)).trans (by decide)
  · refine (State.regFld_congr fun j _ hj => ?_ : (u.setFld biStatus 8 3 1).regFld biStatus 0 4 = u.regFld biStatus 0 4).trans hstage
    rw [State.regBit_setFld _ _ _ _ _ _ _ (by decide), if_neg (by omega)]
  · exact hsec
  · exact htk
  · exact himg
  · exact hmems
  · exact sameRegs_setFld hregs _ _ _ (by simp)

/-- With firmware slot 0 good, bring-up ends READY, or in safe state 3 where the hub fails (R408 to R414). -/
theorem exec_bringUp_slotZero (ha : pageFld s 3 0 1 % 2 = 0) (h0 : fwWritten s 0 = false) (hf : f.slotValid.1 = true)
    (hv : 1 ≤ f.slotVersion.1) (hm : minVersion s ≤ f.slotVersion.1) :
    ∃ t, exec (.bringUp f) s = .next t ∧ t.fn = 0 ∧ (f.fails.contains .hub = false → t.stage = 7 ∧ t.safe = 0) ∧
      (f.fails.contains .hub = true → t.stage = 4 ∧ t.safe = 3 ∧ t.regBit biSticky 0 = true) ∧
      t.regFld secFw 0 1 = 0 ∧ t.sec.nvm = s.sec.nvm ∧ t.hbm = s.hbm ∧ t.mac = s.mac ∧ t.spad = s.spad := by
  obtain ⟨hdiff, -, -, -⟩ := lifeShown_effect f s
  have hsec : (lifeShown f s).sec = s.sec := by rw [hdiff]
  have h0' : fwWritten (lifeShown f s) 0 = false := (fwWritten_congr hsec 0).trans h0
  have hslot : bootSlot f (lifeShown f s) = some 0 :=
    bootSlot_zero ((congrArg (· % 2) (pageFld_congr hsec 3 0 1)).trans ha) h0' hf hv ((minVersion_congr hsec).trans_le hm)
  obtain ⟨hgo, hfw, hsafe2, hnvm2, hmems2⟩ := stageTwo_zero hslot h0'
  have hrun : bringUp f s = (if !(hubBist f (stageThree (stageTwo f s).1)).2 then (hubBist f (stageThree (stageTwo f s).1)).1
      else chargeHoldup (stageSixSeven f (stageFive f (hubBist f (stageThree (stageTwo f s).1)).1))) := by
    unfold bringUp
    rw [if_neg (by simp [hin, hst, hsafe])]
    dsimp only
    rw [hgo]
    rfl
  have hthree := bootKeep_settingsLoaded (stageTwo f s).1
  rw [stageThree_eq] at hrun
  generalize (stageTwo f s).1 = u at *
  obtain ⟨hfn, hnvm3, hmems3, hfw3, hsafe3⟩ := firstTick_effect (settingsLoaded u)
  generalize settingsLoaded u = v at *
  generalize firstTick v = w at *
  have wnvm : w.sec.nvm = s.sec.nvm := (hnvm3.trans hthree.nvm).trans hnvm2
  have wmems : w.mems = s.mems := (hmems3.trans hthree.mems).trans hmems2
  have wfw : w.regFld secFw 0 1 = 0 := (regFld_of_reg (hfw3.trans hthree.fw) 0 1).trans hfw
  have wsafe : w.safe = 0 := ((hsafe3.trans hthree.safe).trans hsafe2).trans hsafe
  obtain ⟨h4, hst4⟩ := setStage_effect 4 w
  have hmem {t : State} (h : t.mems = s.mems) : t.hbm = s.hbm ∧ t.mac = s.mac ∧ t.spad = s.spad := by
    simp only [State.mems, Prod.mk.injEq] at h
    exact ⟨h.1, h.2.2.1, h.2.1⟩
  cases hhub : f.fails.contains BistFail.hub with
  | false =>
    have hbist : hubBist f w = (setStage 4 w, true) := by
      unfold hubBist
      dsimp only
      rw [hhub]
      rfl
    rw [hbist] at hrun
    obtain ⟨h7, hst7⟩ := stageSixSeven_effect f (stageFive f (setStage 4 w))
    obtain ⟨h8, hst8⟩ := chargeHoldup_effect (stageSixSeven f (stageFive f (setStage 4 w)))
    have hall : BootKeep w (chargeHoldup (stageSixSeven f (stageFive f (setStage 4 w)))) :=
      ((h4.trans (bootKeep_stageFive f _)).trans h7).trans h8
    have hstage := hst8.trans hst7
    have hfin := (congrArg (answer s) hrun).trans (answer_next _ _)
    simp only [Bool.not_true, Bool.false_eq_true, if_false] at hfin
    generalize chargeHoldup (stageSixSeven f (stageFive f (setStage 4 w))) = x at *
    refine ⟨_, hfin, ?_, fun _ => ⟨hstage, hall.safe.trans wsafe⟩, fun h => Bool.noConfusion h, (regFld_of_reg hall.fw 0 1).trans wfw,
      hall.nvm.trans wnvm, hmem (hall.mems.trans wmems)⟩
    exact (congrArg (·.fn) hall.tk).trans hfn
  | true =>
    have hbist : hubBist f w = (raise0 biSticky 0 stOK 0 (((setStage 4 w).setFld biStatus 8 3 3).setBit biSticky 0), false) := by
      unfold hubBist
      dsimp only
      rw [hhub]
      rfl
    rw [hbist] at hrun
    generalize setStage 4 w = y at *
    have hset : ((y.setFld biStatus 8 3 3).setBit biSticky 0).reg biStatus = (y.setFld biStatus 8 3 3).reg biStatus :=
      State.reg_setBit_other _ (by decide) 0
    have hsafe4 : ((y.setFld biStatus 8 3 3).setBit biSticky 0).safe = 3 :=
      (regFld_of_reg hset 8 3).trans ((State.regFld_setFld_self y biStatus 8 3 3 (by decide)).trans (by decide))
    have hstage4 : ((y.setFld biStatus 8 3 3).setBit biSticky 0).stage = 4 := by
      refine (regFld_of_reg hset 0 4).trans ((State.regFld_congr fun j _ hj => ?_ : _ = y.regFld biStatus 0 4).trans hst4)
      rw [State.regBit_setFld _ _ _ _ _ _ _ (by decide), if_neg (by omega)]
    have hbit4 : ((y.setFld biStatus 8 3 3).setBit biSticky 0).regBit biSticky 0 = true := by
      rw [State.regBit_setBit_self _ _ (by decide)]
      rfl
    have hfw4 : ((y.setFld biStatus 8 3 3).setBit biSticky 0).reg secFw = y.reg secFw :=
      (State.reg_setBit_other _ (by decide) 0).trans (State.reg_setFld_other y (by decide) 8 3 3)
    have hkept4 : ((y.setFld biStatus 8 3 3).setBit biSticky 0).sec.nvm = y.sec.nvm ∧
      ((y.setFld biStatus 8 3 3).setBit biSticky 0).mems = y.mems ∧ ((y.setFld biStatus 8 3 3).setBit biSticky 0).tk = y.tk := ⟨rfl, rfl, rfl⟩
    generalize (y.setFld biStatus 8 3 3).setBit biSticky 0 = z at *
    have hev : BootKeep z (raise0 biSticky 0 stOK 0 z) := bootKeep_pushEvent _ z
    have hevst : (raise0 biSticky 0 stOK 0 z).stage = z.stage := stage_pushEvent _ z
    have hevbit : (raise0 biSticky 0 stOK 0 z).regBit biSticky 0 = z.regBit biSticky 0 :=
      regBit_of_reg (regs_pushEvent _ z _ (by decide)) 0
    have hfin := (congrArg (answer s) hrun).trans (answer_next _ _)
    simp only [Bool.not_false, if_true] at hfin
    generalize raise0 biSticky 0 stOK 0 z = x at *
    obtain ⟨hnvm4, hmems4, htk4⟩ := hkept4
    refine ⟨_, hfin, ?_, fun h => Bool.noConfusion h,
      fun _ => ⟨hevst.trans hstage4, hev.safe.trans hsafe4, hevbit.trans hbit4⟩,
      (regFld_of_reg (hev.fw.trans (hfw4.trans h4.fw)) 0 1).trans wfw, (hev.nvm.trans (hnvm4.trans h4.nvm)).trans wnvm,
      hmem ((hev.mems.trans (hmems4.trans h4.mems)).trans wmems)⟩
    exact (congrArg (·.fn) (hev.tk.trans (htk4.trans h4.tk))).trans hfn

end

/-- Settles O56: a tamper trip, the opening of debug and each way in which bring-up ends. -/
theorem tamperDebugAndBringUp : Obligations.TamperDebugAndBringUp := by
  unfold Obligations.TamperDebugAndBringUp
  refine ⟨fun s k => exec_tamperTrip k s, fun s h hslots hq hr hbusy => exec_biDebugOpen h hslots hq hr hbusy,
    fun s h => exec_biDebugOpen_refused h, fun s f hin hst hsafe h0 h1 hf => exec_bringUp_noFirmware hin hst hsafe h0 h1 hf,
    fun s f hin hst hsafe ha h0 hf hv hm => exec_bringUp_slotZero hin hst hsafe ha h0 hf hv hm, fun s f h => ?_⟩
  exact (congrArg (answer s) (bringUp_idle h)).trans (answer_eq rfl)

end Sys2Proof.Machine

end

section
/-! PROOFS. Packets that leave at once, and the remote reads that they answer (R298, R299, R304, R312). -/

namespace Sys2Proof.Machine

variable {s t u : State} {i j k : Nat} {p q : Packet} {cw : Codeword}

/-! ### A packet that finds its link idle -/

/-- A link with nothing waiting, which can send the packet now (R299). -/
structure IdleFor (s : State) (k : Nat) (q : Packet) : Prop where
  up : s.linkUp k = true
  waiting : (s.link k).waiting = []
  backlog : (s.link k).backlog = []
  part : (s.link k).part = 0
  swap : (s.link k).swap = none
  can : (s.link k).canSend q = true
  units : packetUnits q ≤ 64

theorem packetUnits_pos (q : Packet) : 0 < packetUnits q := by
  rw [packetUnits, cdiv]
  generalize packetBytes q = n
  omega

theorem linkUp_of_sameRegs {l : List Nat} (h : s.sameRegs t l) (hl : linkA k 0 ∉ l) : t.linkUp k = s.linkUp k := by
  have hst : t.linkState k = s.linkState k := regFld_of_reg (h _ hl) 0 3
  rw [State.linkUp, hst, State.linkUp]

theorem linkState_modPort (f : PortSt → PortSt) (k : Nat) (s : State) : (s.modPort f).linkState k = s.linkState k := rfl

theorem linkState_setBit_high {a b : Nat} (hb : 3 ≤ b) (hb' : b < 32) (k : Nat) (s : State) :
    (s.setBit a b).linkState k = s.linkState k := by
  refine State.regFld_congr fun j _ hj => ?_
  rw [State.regBit_setBit _ _ _ _ _ hb']
  split
  next hk => rw [hk, decide_eq_false (by omega), Bool.false_or]
  next => rfl

theorem linkState_addCnt {a : Nat} (ha : linkA k 0 ≠ a) (lo w n : Nat) (s : State) : (s.addCnt a lo w n).linkState k = s.linkState k :=
  regFld_of_reg (State.reg_addCnt_other s ha lo w n) 0 3

theorem linkState_of_regs (h : t.regs = s.regs) (k : Nat) : t.linkState k = s.linkState k := regFld_of_reg (State.reg_congr h _) 0 3

theorem linkState_whenS (b : Bool) {f : State → State} (hf : ∀ u, (f u).linkState k = u.linkState k) (s : State) :
    (whenS b f s).linkState k = s.linkState k := whenS_same (·.linkState k) b f hf s

theorem linkA_ne_hubQA {q x : Nat} (hq : q < 2) (hx : x < 16) (k : Nat) : linkA k 0 ≠ hubQA q x := by
  simp only [linkA, hubQA, hubA]
  omega

theorem linkState_levelRule {a : Nat} (h4 : linkA k 0 ≠ a + 4) (h8 : linkA k 0 ≠ a + 8) (d0 d1 : Nat) (s : State) :
    (levelRule a d0 d1 s).1.linkState k = s.linkState k :=
  regFld_of_reg (regs_levelRule a d0 d1 s _ (by simp [h4, h8])) 0 3

/-- An event changes no link's state: of the registers that links and events share, it sets one other bit. -/
theorem linkUp_pushEvent (e : Event) (s : State) : (pushEvent e s).linkUp k = s.linkUp k := by
  have hstate : (pushEvent e s).linkState k = s.linkState k := by
    unfold pushEvent
    extract_lets d s1 up lost n entry s2
    split
    · rw [linkState_modPort, linkState_setBit_high (by decide) (by decide)]
      exact (linkState_addCnt (linkA_ne_hubQA (by decide) (by decide) k) _ _ _ _).trans
        (linkState_setBit_high (by decide) (by decide) k s)
    · have h2 : (levelRule (hubQA 1 0) d (d + 1) s2).1.linkState k = s.linkState k :=
        (linkState_levelRule (linkA_ne_hubQA (q := 1) (x := 4) (by decide) (by decide) k) (linkA_ne_hubQA (q := 1) (x := 8) (by decide) (by decide) k) _ _
          s2).trans (linkState_modPort _ k s)
      generalize levelRule (hubQA 1 0) d (d + 1) s2 = r at h2
      obtain ⟨v, news⟩ := r
      refine (linkState_whenS _ (fun w => linkState_of_regs (regs_sendEvent _ w) k) _).trans ?_
      refine Eq.trans (linkState_whenS _ (fun w => ?_) _) h2
      exact linkState_of_regs rfl k
  rw [State.linkUp, hstate, State.linkUp]

/-- A change of a link's queue leaves the link's state. -/
theorem linkUp_queueDepthChange (k d0 d1 : Nat) (s : State) : (queueDepthChange (2 + k) d0 d1 s).linkUp k = s.linkUp k := by
  have hne (x : Nat) (hx : x < 16) : linkA k 0 ≠ hubQA (2 + k) x := by
    simp only [linkA, hubQA, hubA]
    omega
  have hlevel : (levelRule (hubQA (2 + k) 0) d0 d1 s).1.linkUp k = s.linkUp k := by
    rw [State.linkUp, linkState_levelRule (a := hubQA (2 + k) 0) (hne 4 (by decide)) (hne 8 (by decide)), State.linkUp]
  unfold queueDepthChange
  generalize levelRule (hubQA (2 + k) 0) d0 d1 s = r at hlevel
  obtain ⟨v, news⟩ := r
  exact (whenS_same (·.linkUp k) news (raise0 (hubQA (2 + k) 4) 16 stOK (2 + k)) (fun u => linkUp_pushEvent _ u) v).trans hlevel

/-- The queue of a link with one packet in it. -/
def LinkSt.holding (l : LinkSt) (q : Packet) : LinkSt := { l with waiting := [q], backlog := [], part := 0 }

/-- The packet enters the fabric's queue of the link. -/
def offered (k : Nat) (q : Packet) (s : State) : State := s.modLink k fun l => { l with backlog := l.backlog ++ [q] }

/-- The packet is in the transmit queue of the link (R277). -/
def queued (k : Nat) (q : Packet) (s : State) : State :=
  queueDepthChange (2 + k) 0 (packetUnits q) ((offered k q s).setLink k ((s.link k).holding q))

theorem link_queued (k : Nat) (q : Packet) (s : State) : (queued k q s).link k = (s.link k).holding q := by
  rw [queued, link_congr (eventOnly_queueDepthChange _ _ _ _).links, State.link_setLink_self]

theorem link_offered (h : IdleFor s k q) : (offered k q s).link k = { s.link k with backlog := [q] } := by
  rw [offered, State.link_modLink_self, h.backlog]
  rfl

theorem depth_idle (h : IdleFor s k q) (b : List Packet) : LinkSt.depth { s.link k with backlog := b } = 0 := by
  simp only [LinkSt.depth, h.waiting, h.part, List.map_nil, sumN, List.foldl_nil]

theorem depth_holding (l : LinkSt) (q : Packet) : (l.holding q).depth = packetUnits q := by
  simp only [LinkSt.holding, LinkSt.depth, List.map_cons, List.map_nil, sumN, List.foldl_cons, List.foldl_nil]
  omega

theorem fill_one (h : IdleFor s k q) : LinkSt.fill 1 { s.link k with backlog := [q] } = (s.link k).holding q := by
  have hu := h.units
  rw [LinkSt.fill, depth_idle h]
  simp only [linkStages, h.part, h.waiting, Nat.sub_zero, List.nil_append, if_pos hu, LinkSt.fill]
  rfl

theorem pushStages_offered (h : IdleFor s k q) : pushStages k (offered k q s) = queued k q s := by
  have hpos := packetUnits_pos q
  have hlink := link_offered h
  have hfill : LinkSt.fill ((offered k q s).link k).backlog.length ((offered k q s).link k) = (s.link k).holding q := by
    rw [hlink]
    exact fill_one h
  unfold pushStages
  extract_lets l l'
  have hl' : l' = (s.link k).holding q := hfill
  have hl : l.depth = 0 := (congrArg LinkSt.depth hlink).trans (depth_idle h [q])
  rw [hl', depth_holding, hl, if_neg (by omega), queued]

theorem nextSend_queued (h : IdleFor s k q) : nextSend (queued k q s) k = some q := by
  have hup : (queued k q s).linkUp k = true := (linkUp_queueDepthChange k _ _ _).trans h.up
  have hopen : (queued k q s).linkOpen k = true := by
    rw [State.linkOpen, link_queued, LinkSt.holding, h.swap]
    rfl
  have hnext : ((s.link k).holding q).next = some q := by
    unfold LinkSt.next LinkSt.holding
    by_cases hv : vcOf q.ptype = 1 <;> simp [hv]
  have hcan : ((s.link k).holding q).canSend q = true := h.can
  rw [nextSend, hup, hopen, link_queued, if_pos (by decide), hnext, Option.bind_some, if_pos hcan]

theorem link_popPacket_queued (k : Nat) (q : Packet) (s : State) : ((popPacket k q (queued k q s)).link k).waiting = [] ∧
    ((popPacket k q (queued k q s)).link k).backlog = [] := by
  rw [link_popPacket, link_queued]
  exact ⟨List.erase_cons_head q [], rfl⟩

/-- A link with nothing waiting sends nothing. -/
theorem pump_empty (hw : (s.link k).waiting = []) (hb : (s.link k).backlog = []) (n : Nat) : pump k n s = s := by
  have hpush : pushStages k s = s := by
    have hfill : LinkSt.fill (s.link k).backlog.length (s.link k) = s.link k := by rw [hb]; rfl
    unfold pushStages
    dsimp only
    rw [hfill, if_pos rfl]
  have hnext : nextSend s k = none := by
    unfold nextSend LinkSt.next
    rw [hw]
    split <;> rfl
  induction n with
  | zero => rfl
  | succ n ih =>
    unfold pump
    dsimp only
    rw [hpush, hnext]

/-- A packet on an idle link leaves at once (R277, R299). -/
theorem enqueue_idle (h : IdleFor s k q) : enqueue k q s = popPacket k q (queued k q s) := by
  obtain ⟨hw, hb⟩ := link_popPacket_queued k q s
  have hfuel : ((offered k q s).link k).backlog.length + ((offered k q s).link k).waiting.length + 1 = 2 := by
    rw [link_offered h, h.waiting]
    rfl
  change pumpLink k (offered k q s) = _
  rw [pumpLink, hfuel, pump, pushStages_offered h, nextSend_queued h]
  exact pump_empty hw hb 1

/-! #### What a packet that leaves changes -/

/-- The packet as the link sends it: with its LSEQ and CRC (R298, R301). -/
def sentAs (q : Packet) (lseq : Nat) : Packet :=
  let p := { q with lseq := lseq }
  { p with crc := packetCrc p }

theorem out_popPacket (k : Nat) (q : Packet) (s : State) : Out.packet k (sentAs q (s.link k).lseqTx) ∈ (popPacket k q s).out ∧
    s.out ⊆ (popPacket k q s).out := by
  have hlink : (queueDepthChange (2 + k) (s.link k).depth ({ s.link k with waiting := (s.link k).waiting.erase q } : LinkSt).depth
      (s.setLink k { s.link k with waiting := (s.link k).waiting.erase q })).link k =
      { s.link k with waiting := (s.link k).waiting.erase q } := by
    rw [link_congr (eventOnly_queueDepthChange _ _ _ _).links, State.link_setLink_self]
  refine ⟨?_, (linkWork_popPacket (.refl k s) q).out⟩
  refine List.mem_cons.2 (.inl ?_)
  rw [hlink]
  rfl

theorem out_enqueue_idle (h : IdleFor s k q) :
    Out.packet k (sentAs q (s.link k).lseqTx) ∈ (enqueue k q s).out ∧ s.out ⊆ (enqueue k q s).out := by
  have hlink := link_queued k q s
  obtain ⟨hsent, hout⟩ := out_popPacket k q (queued k q s)
  have hq : LinkWork k s (queued k q s) := linkWork_queueDepthChange (((LinkWork.refl k s).modLink _).setLink _) _ _ _
  rw [enqueue_idle h]
  rw [hlink] at hsent
  exact ⟨hsent, fun _ hx => hout (hq.out hx)⟩

theorem linkWork_enqueue (h : LinkWork k s t) (q : Packet) : LinkWork k s (enqueue k q t) := linkWork_pumpLink (h.modLink _)

/-! ### A packet that its link accepts -/

/-- The state in which an accepted packet is delivered. -/
def accepted (i : Nat) (p : Packet) (cw : Codeword) (s : State) : State := rxAccept i p (noteCodeword i cw s)

theorem accepted_eq (i : Nat) (p : Packet) (cw : Codeword) (s : State) : accepted i p cw s =
    { s with links := (accepted i p cw s).links, regs := (accepted i p cw s).regs, out := (accepted i p cw s).out } := by
  have h := noteCodeword_eq i cw s
  have hregs : (accepted i p cw s).regs = (noteCodeword i cw s).regs := by rw [accepted, rxAccept_eq]
  rw [hregs, accepted, rxAccept_eq]
  generalize (rxAccept i p (noteCodeword i cw s)).links = l
  generalize (rxAccept i p (noteCodeword i cw s)).out = o
  rw [h]

/-- Of a link, the acceptance of a packet changes what the receiver counts. -/
theorem link_accepted (i : Nat) (p : Packet) (cw : Codeword) (s : State) (j : Nat) : ∃ c e r f0 f1, (accepted i p cw s).link j =
    { s.link j with codewords := c, symErrs := e, lseqRx := r, rxFreed0 := f0, rxFreed1 := f1 } := by
  unfold accepted rxAccept
  extract_lets l one l'
  obtain ⟨out, h⟩ := sendAcks_eq i ((noteCodeword i cw s).setLink i l')
  have hlink : (sendAcks i ((noteCodeword i cw s).setLink i l')).link j = ((noteCodeword i cw s).setLink i l').link j :=
    link_congr (by rw [h]) j
  rw [hlink]
  by_cases hj : j = i
  · subst hj
    obtain ⟨n, sums, hnoted⟩ := link_noteCodeword j cw s
    have hl : l = { s.link j with codewords := n, symErrs := sums } := hnoted
    rw [State.link_setLink_self]
    have hl' : l' = { l with lseqRx := l'.lseqRx, rxFreed0 := l'.rxFreed0, rxFreed1 := l'.rxFreed1 } := rfl
    exact ⟨n, sums, l'.lseqRx, l'.rxFreed0, l'.rxFreed1, hl'.trans (by rw [hl])⟩
  · have hother : ((noteCodeword i cw s).setLink i l').link j = s.link j :=
      (((LinkWork.refl i _).setLink l').others j hj).trans (noteCodeword_link_other i cw s hj)
    exact ⟨_, _, _, _, _, hother⟩

theorem linkUp_accepted (i : Nat) (p : Packet) (cw : Codeword) (s : State) (j : Nat) :
    (accepted i p cw s).linkUp j = s.linkUp j := by
  have hregs : (accepted i p cw s).regs = (noteCodeword i cw s).regs := by rw [accepted, rxAccept_eq]
  rw [← linkUp_noteCodeword i j cw s, State.linkUp, linkState_of_regs hregs, State.linkUp]

theorem nextHop_congr (himg : t.img = s.img) (hup : ∀ j, t.linkUp j = s.linkUp j) (vc dst : Nat) :
    nextHop t vc dst = nextHop s vc dst := by
  have himage : t.image = s.image := by unfold State.image State.slotContent; rw [himg]
  unfold nextHop
  simp only [himage, hup]

theorem nextHop_accepted (i : Nat) (p : Packet) (cw : Codeword) (s : State) (vc dst : Nat) :
    nextHop (accepted i p cw s) vc dst = nextHop s vc dst :=
  nextHop_congr (by rw [accepted_eq]) (linkUp_accepted i p cw s) vc dst

theorem idleFor_accepted (h : IdleFor s k q) (i : Nat) (p : Packet) (cw : Codeword) : IdleFor (accepted i p cw s) k q := by
  obtain ⟨c, e, r, f0, f1, hl⟩ := link_accepted i p cw s k
  have hcan : ((accepted i p cw s).link k).canSend q = (s.link k).canSend q := by rw [hl]; rfl
  exact ⟨(linkUp_accepted i p cw s k).trans h.up, by rw [hl]; exact h.waiting, by rw [hl]; exact h.backlog, by rw [hl]; exact h.part,
    by rw [hl]; exact h.swap, hcan.trans h.can, h.units⟩

theorem sameBytes_accepted (i : Nat) (p : Packet) (cw : Codeword) (s : State) : s.sameBytes (accepted i p cw s) :=
  sameBytes_of_mems (by rw [accepted_eq]; rfl)

/-- A packet for this module that its link accepts: it is taken, and its answers are routed. -/
theorem deliver_here (hbad : packetBad p = false) (hty : p.ptype ≠ 6) (hhop : nextHop s (vcOf p.ptype) p.dst = .here) :
    deliverPacket false p s = forEach (takePacket p s).2 (emit 2) (takePacket p s).1 := by
  rw [deliverPacket, hbad, if_neg (by decide), if_neg fun h => hty h.1, emit, hhop]

/-- The row of an accepted packet whose delivery leaves the queue. -/
theorem exec_accepted {c : Codeword → Instr} {late : Bool} (hc : ∀ cw s, exec (c cw) s = answer s (rxPacket i p cw (deliverPacket late p) s))
    (hup : s.linkUp i = true) (hgood : rxGood p cw = true) (hlt : p.lseq < 65536) (hexp : p.lseq = (s.link i).lseqRx)
    (hpending : (deliverPacket late p (accepted i p cw s)).pending = s.pending) :
    exec (c cw) s = .next (deliverPacket late p (accepted i p cw s)) := by
  rw [hc, rxPacket_accepted hup hgood hlt hexp]
  exact answer_eq hpending

theorem linkUp_of_nextHop {vc dst : Nat} (h : nextHop s vc dst = .link k) : s.linkUp k = true := by
  unfold nextHop at h
  split at h
  · simp at h
  · split at h
    · simp at h
    · split at h
      next hfind =>
        have hk := Hop.link.inj h
        subst hk
        exact List.find?_some hfind
      next => simp at h

/-! ### Remote reads (R312) -/

/-- The response to a read, with a status and data (R98, R301, R312). -/
def readResponse (s : State) (p : Packet) (st : Nat) (l : List Byte) : Packet :=
  let b := if st = 0 then runBlk s p.addr p.want else none
  let md := if st = 0 then (joinInfo ((runInfo s p.addr p.want).getD [])).2 else 0
  { ackOf s p st with ptype := 4, addr := p.addr, data := l, blk := b.getD 0, nonconf := b.any (· ≠ 1), md := md.setWidth 14 }

/-- Whether a module may read here: an export is open to it, or it reads in its frame through a window (R312, R345). -/
def mayRead (s : State) (p : Packet) : Prop :=
  s.fx.exportPeer = some p.src ∨ p.ftag = s.ftag ∧ (findWindow s p.addr p.want 1).isSome = true

theorem takeRdReq_allowed (h : mayRead s p) : takeRdReq p s =
    match readCurrent p.addr p.want s with
    | (some l, t) => (t, [readResponse s p 0 l])
    | (none, t) => (t.setBit clSticky 4, [readResponse s p 2 []]) := by
  unfold takeRdReq
  extract_lets resp exported
  have hframe : ¬ (!decide exported && decide (p.ftag ≠ s.ftag)) = true := by
    rcases h with h | ⟨h, -⟩ <;> simp [exported, h]
  have hwindow : ¬ (!decide exported && (findWindow s p.addr p.want 1).isNone) = true := by
    rcases h with h | ⟨-, h⟩
    · simp [exported, h]
    · rw [Option.isNone_eq_false_iff.2 h, Bool.and_false]
      decide
  rw [if_neg hframe, if_neg hwindow]
  rfl

theorem runAt_of_hbm {a n : Nat} (hn : 0 < n) (h : ∀ j, j < n → localAddr s (a + j) = .hbm (a + j)) : runAt s a n = .hbm := by
  have hlocal (x : Nat) (hx : a ≤ x ∧ x < a + n) : localAddr s x = .hbm x := by
    have := h (x - a) (by omega)
    rwa [Nat.add_sub_cancel' hx.1] at this
  unfold runAt
  extract_lets part first
  have hpart (x : Nat) (hx : a ≤ x ∧ x < a + n) : part x = .hbm := by simp only [part, hlocal x hx]
  have hfirst : first = .hbm := hpart a (by omega)
  rw [if_pos (List.all_eq_true.2 fun x hx => by simp [hpart x (mem_rangeFrom.1 hx), hfirst]), hlocal a (by omega)]
  exact hfirst

theorem runAt_of_none {a n j : Nat} (hj : j < n) (h : localAddr s (a + j) = .unmapped ∨ localAddr s (a + j) = .register) :
    runAt s a n = .bad := by
  unfold runAt
  extract_lets part first
  have hpart : part (a + j) = .bad := by rcases h with h | h <;> simp only [part, h]
  split
  next hall =>
    have hfirst : first = .bad := by
      have := List.all_eq_true.1 hall (a + j) (mem_rangeFrom.2 (by omega))
      rw [← of_decide_eq_true this, hpart]
    split
    next c o ha =>
      have : first = .spad c 0 := by simp only [first, part, ha]
      rw [hfirst] at this
      simp at this
    next => exact hfirst
  next => rfl

/-- A read of committed bytes of HBM. -/
theorem readCurrent_hbm {a n : Nat} (hn : 0 < n)
    (h : ∀ j, j < n → localAddr s (a + j) = .hbm (a + j) ∧ hbmBad s (hbmReadAddr s (a + j)) = false) :
    readCurrent a n s = (some ((rangeFrom a n).map fun x => Mem.get s.hbm (hbmReadAddr s x)), s) := by
  rw [readCurrent, runAt_of_hbm hn fun j hj => (h j hj).1]
  dsimp only
  rw [hbmRead_good fun j hj => (h j hj).2, rangeFrom_eq_map, List.map_map]
  rfl

theorem readCurrent_none {a n j : Nat} (hj : j < n) (h : localAddr s (a + j) = .unmapped ∨ localAddr s (a + j) = .register) :
    readCurrent a n s = (none, s) := by rw [readCurrent, runAt_of_none hj h]

/-- A field of nine bits that is raised to less than 2^j keeps its bit j. -/
theorem regBit_maxFld {b d j : Nat} (hd : d < 2 ^ j) (a : Nat) (s : State) : (s.maxFld b 0 9 d).regBit a j = s.regBit a j := by
  rw [State.maxFld, State.regBit_setFld _ _ _ _ _ _ _ (by decide)]
  split
  next h =>
    obtain ⟨rfl, -, hj⟩ := h
    have hfld : (s.regFld a 0 9).testBit j = s.regBit a j := by
      simp only [State.regFld, fld, State.regBit, Nat.testBit_mod_two_pow, Nat.testBit_shiftRight, Nat.zero_add, hj, decide_true, Bool.true_and]
      rfl
    rw [Nat.sub_zero, ← hfld]
    generalize s.regFld a 0 9 = v
    rcases Nat.le_total (min d (2 ^ 9 - 1)) v with hle | hle
    · rw [Nat.max_eq_left hle]
    · have hm : min d (2 ^ 9 - 1) < 2 ^ j := by omega
      rw [Nat.max_eq_right hle, Nat.testBit_lt_two_pow hm, Nat.testBit_lt_two_pow (by omega)]
  next => rfl

/-- A shallow queue leaves CL_STICKY[4], even of a link whose registers reach CL_STICKY. -/
theorem regBit_queueDepthChange {d1 : Nat} (hd : d1 < 2 ^ 4) (k d0 : Nat) (s : State) :
    (queueDepthChange (2 + k) d0 d1 s).regBit clSticky 4 = s.regBit clSticky 4 := by
  have h4 : clSticky ≠ hubQA (2 + k) 0 + 4 := by
    simp only [clSticky, hubQA, hubA]
    omega
  have hlevel : (levelRule (hubQA (2 + k) 0) d0 d1 s).1.regBit clSticky 4 = s.regBit clSticky 4 := by
    unfold levelRule
    extract_lets lvl cross news s1 s2
    have h1 : s1.regBit clSticky 4 = s.regBit clSticky 4 := regBit_maxFld hd _ s
    have h2 : s2.regBit clSticky 4 = s1.regBit clSticky 4 := regBit_of_reg (State.reg_setFld_other s1 h4 _ _ _) 4
    refine Eq.trans (whenS_same (·.regBit clSticky 4) cross (fun t => t.setBit (hubQA (2 + k) 0 + 4) 16) (fun u => ?_) s2) (h2.trans h1)
    exact regBit_of_reg (State.reg_setBit_other u h4 _) 4
  unfold queueDepthChange
  generalize levelRule (hubQA (2 + k) 0) d0 d1 s = r at hlevel
  obtain ⟨v, news⟩ := r
  refine Eq.trans (whenS_same (·.regBit clSticky 4) news (raise0 (hubQA (2 + k) 4) 16 stOK (2 + k)) (fun u => ?_) v) hlevel
  exact regBit_of_reg (regs_pushEvent _ u clSticky (by simp [eventRegs, clSticky, hubQA, hubA, dpSticky])) 4

theorem regBit_popPacket {q : Packet} (h : (s.link k).waiting = [q]) (hpart : (s.link k).part = 0) :
    (popPacket k q s).regBit clSticky 4 = s.regBit clSticky 4 := by
  unfold popPacket
  extract_lets l l'
  have hd : l'.depth = 0 := by
    have hw : l.waiting = [q] := h
    have hp : l.part = 0 := hpart
    simp only [l', LinkSt.depth, hw, hp, List.erase_cons_head, List.map_nil, sumN, List.foldl_nil]
  rw [hd]
  have hlaunch (u : State) : (launch k q u).regs = u.regs := rfl
  exact (regBit_of_reg (State.reg_congr (hlaunch _) _) 4).trans (regBit_queueDepthChange (by decide) k _ _)

theorem regBit_enqueue_idle (h : IdleFor s k q) (hu : packetUnits q < 2 ^ 4) :
    (enqueue k q s).regBit clSticky 4 = s.regBit clSticky 4 := by
  have hl := link_queued k q s
  rw [enqueue_idle h, regBit_popPacket (by rw [hl]; rfl) (by rw [hl]; rfl), queued, regBit_queueDepthChange hu]
  rfl

theorem packetUnits_readResponse {st : Nat} {l : List Byte} (hl : l.length ≤ 256) : packetUnits (readResponse s p st l) ≤ 5 := by
  have hb : packetBytes (readResponse s p st l) = l.length := rfl
  rw [packetUnits, cdiv, hb]
  omega

theorem idleFor_readResponse {st n : Nat} {l : List Byte} (hn : n ≤ 256) (hl : l.length ≤ n) (hup : s.linkUp k = true)
    (hw : (s.link k).waiting = []) (hb : (s.link k).backlog = []) (hp : (s.link k).part = 0) (hs : (s.link k).swap = none)
    (hcan : ∀ q : Packet, q.ptype = 4 → q.data.length ≤ n → (s.link k).canSend q = true) (u : State) :
    IdleFor s k (readResponse u p st l) :=
  ⟨hup, hw, hb, hp, hs, hcan _ rfl hl, (packetUnits_readResponse (hl.trans hn)).trans (by decide)⟩

/-- An answer that leaves at once, on the link of its route. -/
theorem emit_idle {vc n : Nat} (hvc : vcOf q.ptype = vc) (hhop : nextHop s vc q.dst = .link k) : emit (n + 1) q s = enqueue k q s := by
  rw [emit, hvc, hhop]

theorem want_le (h : packetBad p = false) (hty : p.ptype = 3) : 0 < p.want ∧ p.want ≤ 256 := by
  unfold packetBad at h
  extract_lets d at h
  simp only [hty] at h
  split at h
  · simp at h
  · simp at h
    omega

theorem idleFor_setBit (h : IdleFor s k q) (a : Nat) {b : Nat} (hb : 3 ≤ b) (hb' : b < 32) : IdleFor (s.setBit a b) k q := by
  have hup : (s.setBit a b).linkUp k = true := by
    rw [State.linkUp, linkState_setBit_high hb hb']
    exact h.up
  exact ⟨hup, h.waiting, h.backlog, h.part, h.swap, h.can, h.units⟩

theorem mayRead_accepted (h : mayRead s p) (i : Nat) (cw : Codeword) : mayRead (accepted i p cw s) p := by
  rw [accepted_eq]
  exact h

theorem localAddr_accepted (i : Nat) (p : Packet) (cw : Codeword) (s : State) (a : Nat) :
    localAddr (accepted i p cw s) a = localAddr s a := by
  rw [accepted_eq]
  rfl

theorem hbmReadAddr_accepted (i : Nat) (p : Packet) (cw : Codeword) (s : State) (a : Nat) :
    hbmReadAddr (accepted i p cw s) a = hbmReadAddr s a := by
  rw [accepted_eq]
  rfl

theorem hbmBad_accepted (i : Nat) (p : Packet) (cw : Codeword) (s : State) (a : Nat) :
    hbmBad (accepted i p cw s) a = hbmBad s a := by
  rw [accepted_eq]
  rfl

theorem hbm_accepted (i : Nat) (p : Packet) (cw : Codeword) (s : State) : (accepted i p cw s).hbm = s.hbm := by
  rw [accepted_eq]

theorem findSome?_congr {α β : Type} {f g : α → Option β} {l : List α} (h : ∀ x ∈ l, f x = g x) : l.findSome? f = l.findSome? g := by
  induction l with
  | nil => rfl
  | cons x xs ih =>
    rw [List.findSome?_cons, List.findSome?_cons, h x List.mem_cons_self, ih fun y hy => h y (List.mem_cons_of_mem x hy)]

/-- The block size of a run of HBM follows the image alone (R98). -/
theorem runBlk_accepted {a n : Nat} (h : ∀ j, j < n → localAddr s (a + j) = .hbm (a + j)) (i : Nat) (p : Packet) (cw : Codeword) :
    runBlk (accepted i p cw s) a n = runBlk s a n := by
  have hunit (x : Nat) : (accepted i p cw s).unitAt x = s.unitAt x := by
    rw [accepted_eq]
    rfl
  have himage : (accepted i p cw s).image = s.image := by
    rw [accepted_eq]
    rfl
  have hbyte (j : Nat) (hj : j < n) : byteBlk (accepted i p cw s) (a + j) = byteBlk s (a + j) := by
    simp only [byteBlk, localAddr_accepted, h j hj, hunit, himage]
  refine findSome?_congr fun x hx => ?_
  obtain ⟨hlo, hhi⟩ := mem_rangeFrom.1 hx
  obtain ⟨m, rfl⟩ := Nat.exists_eq_add_of_le hlo
  exact hbyte m (by omega)

/-- A read is served with the response that its link then sends. -/
theorem deliver_rdReq {v : State} (hbad : packetBad p = false) (hty : p.ptype = 3) (hhop : nextHop s 0 p.dst = .here)
    (htake : takeRdReq p s = (v, [q])) (hq : vcOf q.ptype = 0) (hback : nextHop v 0 q.dst = .link k) :
    deliverPacket false p s = enqueue k q v := by
  have htaken : takePacket p s = (v, [q]) := by
    rw [takePacket, hbad, if_neg (by decide), if_neg (by simp [hty]), if_neg (by simp [hty]), if_pos hty, htake]
  rw [deliver_here hbad (by simp [hty]) (by rw [hty]; exact hhop), htaken]
  exact emit_idle hq hback

/-- A read of committed bytes is answered with them (R312). -/
theorem read_answered (hup : s.linkUp i = true) (hgood : rxGood p cw = true) (hlt : p.lseq < 65536) (hexp : p.lseq = (s.link i).lseqRx)
    (hhop : nextHop s 0 p.dst = .here) (hty : p.ptype = 3) (hbad : packetBad p = false) (hmay : mayRead s p)
    (hback : nextHop s 0 p.src = .link k) (hidle : ∀ st l, l.length ≤ p.want → ∀ u, IdleFor s k (readResponse u p st l))
    (hbytes : ∀ j, j < p.want → localAddr s (p.addr + j) = .hbm (p.addr + j) ∧ hbmBad s (hbmReadAddr s (p.addr + j)) = false) :
    ∃ t, exec (.rdReq i p cw) s = .next t ∧ s.sameBytes t ∧
      ∃ q, Out.packet k q ∈ t.out ∧ q.ptype = 4 ∧ q.ackSt = 0 ∧ q.dst = p.src ∧ q.xid = p.xid ∧ q.addr = p.addr ∧
        q.blk = (runBlk s p.addr p.want).getD 0 ∧ q.nonconf = (runBlk s p.addr p.want).any (· ≠ 1) ∧
        q.data = (rangeFrom p.addr p.want).map fun a => Mem.get s.hbm (hbmReadAddr s a) := by
  have hblk := runBlk_accepted (fun j hj => (hbytes j hj).1) i p cw
  have hread : readCurrent p.addr p.want (accepted i p cw s) =
      (some ((rangeFrom p.addr p.want).map fun a => Mem.get s.hbm (hbmReadAddr s a)), accepted i p cw s) := by
    have hgoodBytes := readCurrent_hbm (s := accepted i p cw s) (want_le hbad hty).1 fun j hj => by
      rw [localAddr_accepted, hbmReadAddr_accepted, hbmBad_accepted]
      exact hbytes j hj
    rw [hgoodBytes, hbm_accepted]
    simp only [hbmReadAddr_accepted]
  have htake := takeRdReq_allowed (mayRead_accepted hmay i cw)
  rw [hread] at htake
  have hlen : ((rangeFrom p.addr p.want).map fun a => Mem.get s.hbm (hbmReadAddr s a)).length ≤ p.want := by
    rw [rangeFrom_eq_map]
    simp
  generalize (rangeFrom p.addr p.want).map (fun a => Mem.get s.hbm (hbmReadAddr s a)) = l at *
  have hidle' := idleFor_accepted (hidle 0 l hlen (accepted i p cw s)) i p cw
  have hdeliver := deliver_rdReq hbad hty ((nextHop_accepted i p cw s 0 p.dst).trans hhop) htake rfl
    ((nextHop_accepted i p cw s 0 p.src).trans hback)
  have hwork := linkWork_enqueue (.refl k (accepted i p cw s)) (readResponse (accepted i p cw s) p 0 l)
  have hsame := sameBytes_accepted i p cw s
  have hpending : (accepted i p cw s).pending = s.pending := by rw [accepted_eq]
  have hout := out_enqueue_idle hidle'
  rw [← hdeliver] at hwork hout
  exact ⟨_, exec_accepted (fun _ _ => rfl) hup hgood hlt hexp (hwork.pending.trans hpending),
    fun a => ⟨(hwork.bytes a).1.trans (hsame a).1, (hwork.bytes a).2.1.trans (hsame a).2.1, (hwork.bytes a).2.2.1.trans (hsame a).2.2.1,
      (hwork.bytes a).2.2.2.trans (hsame a).2.2.2⟩, _, hout.1, rfl, rfl, rfl, rfl, rfl, congrArg (·.getD 0) hblk,
      congrArg (·.any (· ≠ 1)) hblk, rfl⟩

/-- A read of bytes that no memory has is refused without data (R17, R18, R312). -/
theorem read_refused (hup : s.linkUp i = true) (hgood : rxGood p cw = true) (hlt : p.lseq < 65536) (hexp : p.lseq = (s.link i).lseqRx)
    (hhop : nextHop s 0 p.dst = .here) (hty : p.ptype = 3) (hbad : packetBad p = false) (hmay : mayRead s p)
    (hback : nextHop s 0 p.src = .link k) (hidle : ∀ st l, l.length ≤ p.want → ∀ u, IdleFor s k (readResponse u p st l))
    (hj : j < p.want) (hnone : localAddr s (p.addr + j) = .unmapped ∨ localAddr s (p.addr + j) = .register) :
    ∃ t, exec (.rdReq i p cw) s = .next t ∧ s.sameBytes t ∧ t.regBit clSticky 4 = true ∧
      ∃ q, Out.packet k q ∈ t.out ∧ q.ptype = 4 ∧ q.ackSt = 2 ∧ q.dst = p.src ∧ q.data = [] := by
  have hread : readCurrent p.addr p.want (accepted i p cw s) = (none, accepted i p cw s) :=
    readCurrent_none hj (by rwa [localAddr_accepted])
  have htake := takeRdReq_allowed (mayRead_accepted hmay i cw)
  rw [hread] at htake
  have hidle' := idleFor_setBit (idleFor_accepted (hidle 2 [] (Nat.zero_le _) (accepted i p cw s)) i p cw) clSticky (b := 4)
    (by decide) (by decide)
  have hhopBack : nextHop ((accepted i p cw s).setBit clSticky 4) 0 p.src = .link k := by
    refine (nextHop_congr ?_ (fun m => ?_) 0 p.src).trans ((nextHop_accepted i p cw s 0 p.src).trans hback)
    · simp
    · rw [State.linkUp, linkState_setBit_high (by decide) (by decide), State.linkUp]
  have hdeliver := deliver_rdReq hbad hty ((nextHop_accepted i p cw s 0 p.dst).trans hhop) htake rfl hhopBack
  have hwork := linkWork_enqueue ((LinkWork.refl k (accepted i p cw s)).setBit clSticky 4) (readResponse (accepted i p cw s) p 2 [])
  have hbit := regBit_enqueue_idle hidle' (Nat.lt_of_le_of_lt (packetUnits_readResponse (Nat.zero_le _)) (by decide))
  have hset : ((accepted i p cw s).setBit clSticky 4).regBit clSticky 4 = true := State.regBit_setBit_self _ clSticky (i := 4) (by decide) 4
  have hsame := sameBytes_accepted i p cw s
  have hpending : (accepted i p cw s).pending = s.pending := by rw [accepted_eq]
  have hout := out_enqueue_idle hidle'
  rw [← hdeliver] at hwork hout hbit
  exact ⟨_, exec_accepted (fun _ _ => rfl) hup hgood hlt hexp (hwork.pending.trans hpending),
    fun a => ⟨(hwork.bytes a).1.trans (hsame a).1, (hwork.bytes a).2.1.trans (hsame a).2.1, (hwork.bytes a).2.2.1.trans (hsame a).2.2.1,
      (hwork.bytes a).2.2.2.trans (hsame a).2.2.2⟩, hbit.trans hset, _, hout.1, rfl, rfl, rfl, rfl⟩

/-! #### The response (R312) -/

theorem link_accepted_other (hj : j ≠ i) (p : Packet) (cw : Codeword) (s : State) : (accepted i p cw s).link j = s.link j := by
  unfold accepted rxAccept
  extract_lets l one l'
  obtain ⟨out, h⟩ := sendAcks_eq i ((noteCodeword i cw s).setLink i l')
  have hlink : (sendAcks i ((noteCodeword i cw s).setLink i l')).link j = ((noteCodeword i cw s).setLink i l').link j :=
    link_congr (by rw [h]) j
  exact hlink.trans ((((LinkWork.refl i _).setLink l').others j hj).trans (noteCodeword_link_other i cw s hj))

theorem lseqRx_accepted (i : Nat) (p : Packet) (cw : Codeword) (s : State) :
    ((accepted i p cw s).link i).lseqRx = ((s.link i).lseqRx + 1) % 65536 := by
  unfold accepted rxAccept
  extract_lets l one l'
  obtain ⟨out, h⟩ := sendAcks_eq i ((noteCodeword i cw s).setLink i l')
  have hlink : (sendAcks i ((noteCodeword i cw s).setLink i l')).link i = l' :=
    (link_congr (by rw [h]) i).trans (State.link_setLink_self _ _ _)
  rw [hlink, ← lseqRx_noteCodeword i cw s]

/-- On a link in no lane swap the acknowledgement and the credit leave at once (R298, R299). -/
theorem accepted_open (h : s.linkOpen i = true) (p : Packet) (cw : Codeword) : accepted i p cw s =
    { noteCodeword i cw s with
      links := (accepted i p cw s).links
      out := .block i (creditBlock ((accepted i p cw s).link i).rxFreed0 ((accepted i p cw s).link i).rxFreed1) ::
        .block i (ackBlock ((((accepted i p cw s).link i).lseqRx + 65535) % 65536)) :: s.out } := by
  unfold accepted rxAccept
  extract_lets l one l'
  have hswap : l'.swap = (s.link i).swap := by
    change ((noteCodeword i cw s).link i).swap = _
    rw [noteCodeword_link_self]
  have hlink : ((noteCodeword i cw s).setLink i l').link i = l' := State.link_setLink_self _ _ _
  have hopen (out : List Out) : State.linkOpen { (noteCodeword i cw s).setLink i l' with out := out } i = true := by
    have hkept : State.link { (noteCodeword i cw s).setLink i l' with out := out } i = l' := (link_congr rfl i).trans hlink
    rw [State.linkOpen, hkept, hswap]
    exact h
  have hsend : sendAcks i ((noteCodeword i cw s).setLink i l') = { (noteCodeword i cw s).setLink i l' with
      out := .block i (creditBlock l'.rxFreed0 l'.rxFreed1) :: .block i (ackBlock ((l'.lseqRx + 65535) % 65536)) :: s.out } := by
    rw [sendAcks, sendBlock_open (hopen _), sendBlock_open (hopen _), hlink]
    simp only [State.setLink, out_noteCodeword]
  have hfinal : (sendAcks i ((noteCodeword i cw s).setLink i l')).link i = l' := (link_congr (by rw [hsend]) i).trans hlink
  rw [hfinal, hsend]
  rfl

/-- A response for this module is kept; one that tells of a read that failed is a detected fault (R305, R312). -/
theorem deliver_rdResp (hbad : packetBad p = false) (hty : p.ptype = 4) (hhop : nextHop s 0 p.dst = .here) :
    deliverPacket false p s = takeRdResp p s := by
  have htaken : takePacket p s = (takeRdResp p s, []) := by
    rw [takePacket, hbad, if_neg (by decide), if_neg (by simp [hty]), if_neg (by simp [hty]), if_neg (by simp [hty]), if_pos hty]
  rw [deliver_here hbad (by simp [hty]) (by rw [hty]; exact hhop), htaken]
  rfl

theorem takeRdResp_effect (p : Packet) (s : State) :
    (takeRdResp p s).links = s.links ∧ (takeRdResp p s).chip.responses = s.chip.responses ++ [p] ∧ s.sameBytes (takeRdResp p s) ∧
    (takeRdResp p s).pending = s.pending ∧ (p.ackSt < 3 → takeRdResp p s = { s with chip := (takeRdResp p s).chip }) ∧
    (3 ≤ p.ackSt → (takeRdResp p s).fx.cur.fault = true) := by
  unfold takeRdResp
  by_cases h : 3 ≤ p.ackSt
  · obtain ⟨heq, hcur⟩ := detectFault_effect routeLoc { s with chip := { s.chip with responses := s.chip.responses ++ [p] } }
    rw [decide_eq_true h, whenS_true]
    refine ⟨?_, ?_, ?_, ?_, fun hlt => absurd h (by omega), fun _ => ?_⟩
    · rw [heq]
    · rw [heq]
    · refine sameBytes_of_mems ?_
      rw [heq]
      rfl
    · rw [heq]
    · rw [hcur]
  · rw [decide_eq_false h, whenS_false]
    exact ⟨rfl, rfl, fun _ => ⟨rfl, rfl, rfl, rfl⟩, rfl, fun _ => rfl, fun hge => absurd hge h⟩

theorem ackBlock_of_next {n : Nat} (h : n < 65536) : ((n + 1) % 65536 + 65535) % 65536 = n := by omega

/-- A response is accepted in order and kept (R312). -/
theorem response_kept (hup : s.linkUp i = true) (hopen : s.linkOpen i = true) (hgood : rxGood p cw = true) (hlt : p.lseq < 65536)
    (hexp : p.lseq = (s.link i).lseqRx) (hhop : nextHop s 0 p.dst = .here) (hty : p.ptype = 4) (hbad : packetBad p = false) :
    ∃ t, exec (.rdResp i p cw) s = .next t ∧ (t.link i).lseqRx = (p.lseq + 1) % 65536 ∧ (∀ j, j ≠ i → t.link j = s.link j) ∧
      t.chip.responses = s.chip.responses ++ [p] ∧ s.sameBytes t ∧
      (p.ackSt < 3 → t.out = .block i (creditBlock (t.link i).rxFreed0 (t.link i).rxFreed1) :: .block i (ackBlock p.lseq) :: s.out ∧
        t = { noteCodeword i cw s with links := t.links, out := t.out, chip := t.chip }) ∧
      (3 ≤ p.ackSt → t.fx.cur.fault = true) := by
  have hdeliver := deliver_rdResp (s := accepted i p cw s) hbad hty ((nextHop_accepted i p cw s 0 p.dst).trans hhop)
  obtain ⟨hlinks, hresp, hbytes, hpending, hplain, hfault⟩ := takeRdResp_effect p (accepted i p cw s)
  have hexec := exec_accepted (c := .rdResp i p) (late := false) (fun _ _ => rfl) hup hgood hlt hexp
    (by rw [hdeliver, hpending, accepted_eq])
  rw [hdeliver] at hexec
  have hlseq : ((accepted i p cw s).link i).lseqRx = (p.lseq + 1) % 65536 := by rw [lseqRx_accepted, hexp]
  have hsame := sameBytes_accepted i p cw s
  have hchip : (accepted i p cw s).chip = s.chip := by rw [accepted_eq]
  refine ⟨_, hexec, ?_, fun j hj => ?_, ?_, fun a => ?_, fun hst => ?_, hfault⟩
  · rw [link_congr hlinks, hlseq]
  · rw [link_congr hlinks, link_accepted_other hj]
  · rw [hresp, hchip]
  · exact ⟨(hbytes a).1.trans (hsame a).1, (hbytes a).2.1.trans (hsame a).2.1, (hbytes a).2.2.1.trans (hsame a).2.2.1,
      (hbytes a).2.2.2.trans (hsame a).2.2.2⟩
  · have hout : (takeRdResp p (accepted i p cw s)).out = (accepted i p cw s).out := by rw [hplain hst]
    have hopened := accepted_open hopen p cw
    have houtA := congrArg State.out hopened
    rw [hlseq, ackBlock_of_next hlt] at houtA
    refine ⟨?_, ?_⟩
    · rw [link_congr hlinks, hout]
      exact houtA
    · have := hplain hst
      rw [hlinks, hout]
      generalize takeRdResp p (accepted i p cw s) = v at this ⊢
      rw [this]
      generalize v.chip = c
      generalize (accepted i p cw s).out = o at hopened ⊢
      exact congrArg (fun w : State => { w with out := o, chip := c }) hopened

/-- Settles O22: the read is served on the state in which its packet was accepted, whose memories and image are those of before. -/
theorem remoteReadsReturnTheCurrentVersion : Obligations.RemoteReadsReturnTheCurrentVersion := by
  refine ⟨fun s i k p cw hup hgood hlt hexp hhop hty hbad hmay hback hw hb hp hs hcan => ?_,
    fun s i p cw hup hopen hgood hlt hexp hhop hty hbad => response_kept hup hopen hgood hlt hexp hhop hty hbad⟩
  have hidle (st : Nat) (l : List Byte) (hl : l.length ≤ p.want) (u : State) : IdleFor s k (readResponse u p st l) :=
    idleFor_readResponse (want_le hbad hty).2 hl (linkUp_of_nextHop hback) hw hb hp hs hcan u
  refine ⟨fun hbytes => read_answered hup hgood hlt hexp hhop hty hbad hmay hback hidle hbytes, ?_⟩
  rintro ⟨j, hj, hnone⟩
  exact read_refused hup hgood hlt hexp hhop hty hbad hmay hback hidle hj hnone

end Sys2Proof.Machine

end

section
/-! PROOFS. VOTE packets: what one that is sent leaves, and one that is taken (R304, R330 to R334). -/

namespace Sys2Proof.Machine

variable {s t u : State} {i j k : Nat} {p q : Packet} {cw : Codeword} {pl : VotePl}

/-! ### What a module that sends VOTE packets leaves -/

/-- A bit of a register below the fault log that no detected fault changes. -/
structure LowBit (a j : Nat) : Prop where
  below : a < hubA 0x5400
  not_count : a ≠ fxCnt
  not_head : a ≠ fxLogHead
  not_flag : a = fxSticky → j ≠ 0 ∧ j ≠ 10

/-- What a detected fault, or a packet that leaves, changes: registers, links, the ports, and of the commit unit its log and the running
frame's record. -/
structure Posted (s t : State) : Prop where
  eq : t = { s with regs := t.regs, links := t.links, fx := t.fx, port := t.port, svc := t.svc, out := t.out }
  fx : t.fx = { s.fx with cur := t.fx.cur, keys := t.fx.keys, retires := t.fx.retires }
  fault : s.fx.cur.fault = true → t.fx.cur.fault = true
  low : ∀ a j, LowBit a j → t.regBit a j = s.regBit a j
  up : ∀ k, t.linkUp k = s.linkUp k

theorem Posted.refl (s : State) : Posted s s := ⟨rfl, rfl, id, fun _ _ _ => rfl, fun _ => rfl⟩

theorem Posted.trans (h : Posted s t) (k : Posted t u) : Posted s u :=
  ⟨by rw [k.eq, h.eq], by rw [k.fx, h.fx], fun hf => k.fault (h.fault hf), fun a j hl => (k.low a j hl).trans (h.low a j hl),
    fun l => (k.up l).trans (h.up l)⟩

/-- A register that is neither below the fault log nor a link's state. -/
def highReg (a : Nat) : Prop := (hubA 0x5400 ≤ a ∨ a = fxCnt ∨ a = fxLogHead) ∧ ∀ k, linkA k 0 ≠ a

theorem highReg.ne_low {a b : Nat} (h : highReg a) (hl : LowBit b j) : b ≠ a := by
  rintro rfl
  rcases h.1 with h | h | h
  · exact absurd hl.below (by omega)
  · exact hl.not_count h
  · exact hl.not_head h

theorem Posted.setReg (h : Posted s t) {a : Nat} (ha : highReg a) (v : Word) : Posted s (t.setReg a v) :=
  h.trans ⟨rfl, rfl, id, fun _ _ hl => regBit_of_reg (State.reg_setReg_other t v (ha.ne_low hl)) _,
    fun k => congrArg (fun n => decide (n = 2)) (regFld_of_reg (State.reg_setReg_other t v (ha.2 k)) 0 3)⟩

theorem Posted.modFx (h : Posted s t) (f : CommitSt → CommitSt)
    (hf : f t.fx = { t.fx with cur := (f t.fx).cur, keys := (f t.fx).keys, retires := (f t.fx).retires })
    (hfault : t.fx.cur.fault = true → (f t.fx).cur.fault = true) : Posted s (t.modFx f) :=
  h.trans ⟨rfl, hf, hfault, fun _ _ _ => rfl, fun _ => rfl⟩

theorem Posted.whenS (b : Bool) {f : State → State} (hf : ∀ u, Posted s u → Posted s (f u)) (h : Posted s t) :
    Posted s (whenS b f t) := by
  cases b
  · exact h
  · exact hf t h

theorem Posted.forEach {α : Type} {f : α → State → State} (hf : ∀ x u, Posted s u → Posted s (f x u)) (l : List α) (h : Posted s t) :
    Posted s (forEach l f t) :=
  forEach_keeps (Posted s) l f (fun x _ => hf x) t h

theorem Posted.event (h : Posted s t) (k : EventOnly t u) (hlow : ∀ a j, LowBit a j → u.regBit a j = t.regBit a j)
    (hup : ∀ l, u.linkUp l = t.linkUp l) : Posted s u :=
  h.trans ⟨by rw [k.links, k.fx]; exact k.eq, by rw [k.fx], by rw [k.fx]; exact id, hlow, hup⟩

theorem not_mem_eventRegs {a : Nat} (h : LowBit a j) : a ∉ eventRegs := by
  have := h.below
  simp only [eventRegs, List.mem_cons, List.not_mem_nil, or_false, hubQA, hubA, dpSticky] at this ⊢
  omega

theorem Posted.pushEvent (h : Posted s t) (e : Event) : Posted s (pushEvent e t) :=
  h.event (eventOnly_pushEvent (.refl t) e) (fun a j hl => regBit_of_reg (regs_pushEvent e t a (not_mem_eventRegs hl)) j)
    fun _ => linkUp_pushEvent e t

/-! #### A detected fault -/

theorem highReg_logA {n w : Nat} (hn : n < 64) (hw : w < 4) : highReg (logA n w) := by
  refine ⟨.inl ?_, fun k => ?_⟩ <;> simp only [linkA, logA, hubA] <;> omega

theorem highReg_second (n : Nat) : highReg (logA n 1) := by
  refine ⟨.inl ?_, fun k => ?_⟩ <;> simp only [linkA, logA, hubA] <;> omega

theorem highReg_count : highReg fxCnt := by
  refine ⟨.inr (.inl rfl), fun k => ?_⟩
  simp only [linkA, fxCnt, hubA]
  omega

theorem highReg_head : highReg fxLogHead := by
  refine ⟨.inr (.inr rfl), fun k => ?_⟩
  simp only [linkA, fxLogHead, hubA]
  omega

theorem Posted.setFlag (h : Posted s t) {b : Nat} (hb : b = 0 ∨ b = 10) : Posted s (t.setBit fxSticky b) := by
  have hne (k : Nat) : linkA k 0 ≠ fxSticky := by
    simp only [linkA, fxSticky, hubA]
    omega
  refine h.trans ⟨rfl, rfl, id, fun a j hl => ?_, fun k => ?_⟩
  · rw [State.regBit_setBit _ _ _ _ _ (by omega)]
    split
    next ha =>
      subst ha
      have := hl.not_flag rfl
      rw [decide_eq_false (by omega), Bool.false_or]
    next => rfl
  · exact congrArg (fun n => decide (n = 2)) (regFld_of_reg (State.reg_setBit_other t (hne k) b) 0 3)

theorem posted_newLogEntry (h : Posted s t) (cls : Nat) (l : Loc) (source attempt : Nat) (wfn : DWord) :
    Posted s (newLogEntry cls l source attempt wfn t) := by
  unfold newLogEntry
  extract_lets k wraps s1 s2 s3 s4 s5 key s6
  have hk : k < 64 := regFld_lt _ _ _ _
  have h1 : Posted s s1 := Posted.whenS _ (fun _ h => h.setFlag (.inr rfl)) h
  have h2 : Posted s s2 := h1.setReg (highReg_logA hk (by decide)) _
  have h3 : Posted s s3 := h2.setReg (highReg_logA hk (by decide)) _
  have h4 : Posted s s4 := (h3.setReg (highReg_logA hk (by decide)) _).setReg (a := logA k 2 + 4) (highReg_logA (w := 3) hk (by decide)) _
  exact (((h4.setReg highReg_head _).setReg highReg_head _).modFx _ rfl id).pushEvent _

theorem posted_requestRetire (h : Posted s t) (k : Nat) (l : Loc) : Posted s (requestRetire k l t) := by
  unfold requestRetire
  dsimp only
  split
  · exact h
  · split
    · exact h.modFx _ rfl id
    · exact h

/-- The class of an entry is written at bit 28, above a link's state. -/
theorem Posted.setClass (h : Posted s t) (n v : Nat) : Posted s (t.setFld (logA n 0) 28 4 v) := by
  refine h.trans ⟨rfl, rfl, id, fun a j hl => ?_, fun k => ?_⟩
  · refine regBit_of_reg (State.reg_setFld_other t ?_ _ _ _) j
    have := hl.below
    simp only [logA, hubA] at this ⊢
    omega
  · refine congrArg (fun n => decide (n = 2)) (State.regFld_congr fun j _ hj => ?_)
    rw [State.regBit_setFld _ _ _ _ _ _ _ (by decide)]
    exact if_neg (by omega)

theorem posted_logDetection (l : Loc) (s : State) : Posted s (logDetection l s) := by
  unfold logDetection
  extract_lets attempt wfn
  split
  · exact posted_newLogEntry (.refl s) _ _ _ _ _
  · extract_lets reps s1 s2
    have h2 : Posted s s2 := Posted.modFx (((Posted.refl s).setReg (highReg_second _) _).setReg (highReg_second _) _) _ rfl id
    split
    · exact posted_requestRetire ((h2.setClass _ _).pushEvent _) _ _
    · exact h2

theorem Posted.detectFault (h : Posted s t) (l : Loc) : Posted s (detectFault l t) :=
  (((h.setFlag (.inl rfl)).setReg highReg_count _).modFx
    (fun f => { f with cur := { f.cur with
      fault := true, locs := if f.cur.locs.contains l then f.cur.locs else f.cur.locs ++ [l] } })
    rfl fun _ => rfl).trans (posted_logDetection l _)

theorem fault_detectFault (l : Loc) (s : State) : (detectFault l s).fx.cur.fault = true := by rw [(detectFault_effect l s).2]

/-! #### A packet that leaves, or has no way -/

theorem highReg_hub {off : Nat} (h : 0x5400 ≤ off) (h' : off < 0x8400) : highReg (hubA off) := by
  refine ⟨.inl ?_, fun k => ?_⟩ <;> simp only [linkA, hubA] <;> omega

theorem linkUp_queueDepthChange_any (q d0 d1 l : Nat) (s : State) : (queueDepthChange q d0 d1 s).linkUp l = s.linkUp l := by
  have hne (x : Nat) (hx : x = 4 ∨ x = 8) : linkA l 0 ≠ hubQA q 0 + x := by
    simp only [linkA, hubQA, hubA]
    omega
  have hlevel : (levelRule (hubQA q 0) d0 d1 s).1.linkUp l = s.linkUp l := by
    rw [State.linkUp, linkState_levelRule (a := hubQA q 0) (hne 4 (.inl rfl)) (hne 8 (.inr rfl)), State.linkUp]
  unfold queueDepthChange
  generalize levelRule (hubQA q 0) d0 d1 s = r at hlevel
  obtain ⟨v, news⟩ := r
  exact (whenS_same (·.linkUp l) news (raise0 (hubQA q 4) 16 stOK q) (fun u => linkUp_pushEvent _ u) v).trans hlevel

theorem posted_queueDepthChange (h : Posted s t) (k d0 d1 : Nat) : Posted s (queueDepthChange (2 + k) d0 d1 t) := by
  refine h.event (eventOnly_queueDepthChange _ _ _ _) (fun a j hl => regBit_of_reg (regs_queueDepthChange _ _ _ t a ?_) j)
    fun l => linkUp_queueDepthChange_any _ _ _ l t
  have hbelow := hl.below
  have hev := not_mem_eventRegs hl
  rw [depthRegs, List.mem_append, not_or]
  refine ⟨?_, hev⟩
  simp only [List.mem_cons, List.not_mem_nil, or_false, hubQA, hubA] at hbelow ⊢
  omega

theorem Posted.links (h : Posted s t) (l : SMap LinkSt) (o : List Out) : Posted s { t with links := l, out := o } :=
  h.trans ⟨rfl, rfl, id, fun _ _ _ => rfl, fun _ => rfl⟩

theorem posted_pushStages (h : Posted s t) (i : Nat) : Posted s (pushStages i t) := by
  unfold pushStages
  extract_lets l l'
  split
  · exact h
  · exact posted_queueDepthChange (h.links _ _) _ _ _

theorem posted_popPacket (h : Posted s t) (i : Nat) (p : Packet) : Posted s (popPacket i p t) :=
  (posted_queueDepthChange (h.links _ _) _ _ _).links _ _

theorem Posted.enqueue (h : Posted s t) (i : Nat) (p : Packet) : Posted s (enqueue i p t) :=
  pumpLink_keeps (Posted s) (fun _ k => posted_pushStages k i) (fun p _ k => posted_popPacket k i p) (h.links _ _)

theorem Posted.unreachable (h : Posted s t) (p : Packet) : Posted s (unreachable p t) :=
  Posted.whenS _ (fun _ k => k.detectFault routeLoc) ((h.setReg (highReg_hub (off := 0x8008) (by decide) (by decide)) _).setReg
    (highReg_hub (off := 0x8010) (by decide) (by decide)) _)

theorem Posted.badPacket (h : Posted s t) : Posted s (badPacket t) :=
  (h.setReg (highReg_hub (off := 0x8008) (by decide) (by decide)) _).detectFault routeLoc

/-- A packet that asks for no answer leaves, is taken here, or has no way. -/
theorem Posted.emitVote (h : Posted s t) (hty : p.ptype = 6) (n : Nat) : Posted s (emit n p t) := by
  cases n with
  | zero => exact h
  | succ n =>
    have hnone : unreachableAnswer t p = [] := by simp [unreachableAnswer, hty]
    have htake : takePacket p t = (t, []) ∨ takePacket p t = (Machine.badPacket t, []) := by
      unfold takePacket
      by_cases hb : packetBad p = true <;> simp [hb, hty]
    unfold emit
    split
    · exact h.enqueue _ _
    · rcases htake with htake | htake <;> rw [htake]
      · exact h
      · exact h.badPacket
    · extract_lets r u
      have hr : r = [] := hnone
      rw [hr]
      split
      · exact h.unreachable p
      · exact h.unreachable p

/-- A VOTE packet to a tree neighbour (R304, R329). -/
theorem Posted.voteTo (h : Posted s t) (dst link : Nat) (pl : VotePl) : Posted s (voteTo dst link pl t) := by
  unfold Machine.voteTo
  extract_lets p
  split
  · exact h.emitVote rfl 3
  · split
    · exact h.enqueue _ _
    · exact h.unreachable _

theorem Posted.img (h : Posted s t) : t.img = s.img := by rw [h.eq]
theorem Posted.tk (h : Posted s t) : t.tk = s.tk := by rw [h.eq]
theorem Posted.cores (h : Posted s t) : t.cores = s.cores := by rw [h.eq]
theorem Posted.pending (h : Posted s t) : t.pending = s.pending := by rw [h.eq]
theorem Posted.mems (h : Posted s t) : t.mems = s.mems := by
  rw [h.eq]
  rfl

theorem image_congr (h : t.img = s.img) : t.image = s.image := by unfold State.image State.slotContent; rw [h]

theorem domain_congr (h : t.img = s.img) : t.domain = s.domain := by
  unfold State.domain State.slotContent
  rw [image_congr h, h]

theorem voteHop_congr (himg : t.img = s.img) (hup : ∀ j, t.linkUp j = s.linkUp j) (dst l : Nat) : voteHop t dst l = voteHop s dst l := by
  have hactive : t.active = s.active := by unfold State.active; rw [himg]
  unfold voteHop
  rw [hactive, nextHop_congr himg hup, hup]

theorem Posted.voteHop (h : Posted s t) (dst l : Nat) : voteHop t dst l = voteHop s dst l := voteHop_congr h.img h.up dst l

theorem Posted.forwardResult (h : Posted s t) (r : VotePl) : Posted s (forwardResult r t) := by
  unfold Machine.forwardResult
  split
  · exact h
  · exact Posted.forEach (fun c u k => k.voteTo c.1 c.2 r) _ h

/-! #### A VOTE packet that has a way -/

theorem voteHop_up {dst l : Nat} (h : voteHop s dst l = some k) : s.linkUp k = true := by
  unfold Machine.voteHop at h
  split at h
  · split at h
    next hh =>
      obtain rfl := Option.some.inj h
      exact linkUp_of_nextHop hh
    next => simp at h
  · split at h
    next hup =>
      obtain rfl := Option.some.inj h
      exact hup
    next => simp at h

/-- It goes to the queue of its link. -/
theorem voteTo_hop {dst l : Nat} (h : voteHop s dst l = some k) (pl : VotePl) :
    voteTo dst l pl s = enqueue k (votePacket dst s.moduleId s.ftag pl) s := by
  unfold Machine.voteHop at h
  unfold Machine.voteTo
  extract_lets p
  split at h
  next ha =>
    rw [if_pos ha]
    split at h
    next hh =>
      obtain rfl := Option.some.inj h
      exact emit_idle (n := 2) rfl hh
    next => simp at h
  next ha =>
    rw [if_neg ha]
    split at h
    next hup =>
      obtain rfl := Option.some.inj h
      exact if_pos hup
    next => simp at h

theorem idleFor_vote {dst l : Nat} (hhop : voteHop s dst l = some k) (h : s.sendsVote k) (n : Nat) (tag : BitVec 8) (pl : VotePl) :
    IdleFor s k (votePacket dst n tag pl) := by
  obtain ⟨hw, hb, hp, hs, hcan⟩ := h
  exact ⟨voteHop_up hhop, hw, hb, hp, hs, hcan _ rfl, (by decide : cdiv (24 + 16) 64 ≤ 64)⟩

/-- On an idle link it leaves at once (R279, R299). -/
theorem voteTo_sent {dst l : Nat} (hhop : voteHop s dst l = some k) (h : s.sendsVote k) (pl : VotePl) :
    ∃ q, Out.packet k q ∈ (voteTo dst l pl s).out ∧ q.vote = some pl ∧ q.dst = dst := by
  rw [voteTo_hop hhop]
  exact ⟨_, (out_enqueue_idle (idleFor_vote hhop h _ _ _)).1, rfl, rfl⟩

theorem fx_enqueue (k : Nat) (q : Packet) (s : State) : (enqueue k q s).fx = s.fx := by
  have h := sendFrame_pumpLink k (offered k q s)
  unfold State.sendFrame at h
  change (pumpLink k (offered k q s)).fx = s.fx
  rw [h]
  rfl

theorem sendsVote_congr (h : t.links = s.links) (hs : s.sendsVote k) : t.sendsVote k := by
  have hl := link_congr h k
  unfold State.sendsVote
  rw [hl]
  exact hs

/-! ### VOTE packets that are taken -/

theorem comesNext_spec (h : comesNext s i p cw = true) :
    s.linkUp i = true ∧ rxGood p cw = true ∧ p.lseq < 65536 ∧ p.lseq = (s.link i).lseqRx ∧ packetBad p = false := by
  simp only [comesNext, Bool.and_eq_true, decide_eq_true_eq, Bool.not_eq_true'] at h
  obtain ⟨⟨⟨⟨hup, hgood⟩, hlt⟩, hexp⟩, hbad⟩ := h
  exact ⟨hup, hgood, hlt, hexp, hbad⟩

/-- A packet whose codeword is good changes the records of its link alone (R292). -/
theorem regs_accepted (h : rxGood p cw = true) (i : Nat) (s : State) : s.sameRegs (accepted i p cw s) (rxRegs i) := by
  have hgood : cw.uncorr = false := by
    simp only [rxGood, Bool.and_eq_true, Bool.not_eq_true'] at h
    exact h.1
  exact sameRegs_of_regs (regs_noteCodeword_good hgood i s) (by rw [accepted, rxAccept_eq])

theorem img_accepted (i : Nat) (p : Packet) (cw : Codeword) (s : State) : (accepted i p cw s).img = s.img := by rw [accepted_eq]

theorem fx_accepted (i : Nat) (p : Packet) (cw : Codeword) (s : State) : (accepted i p cw s).fx = s.fx := by rw [accepted_eq]

theorem ftag_accepted (i : Nat) (p : Packet) (cw : Codeword) (s : State) : (accepted i p cw s).ftag = s.ftag := by
  have htk : (accepted i p cw s).tk = s.tk := tk_accepted i p cw s
  rw [State.ftag, State.fn, htk, State.ftag, State.fn]

theorem moduleId_accepted (i : Nat) (p : Packet) (cw : Codeword) (s : State) : (accepted i p cw s).moduleId = s.moduleId :=
  regFld_of_reg (reg_accepted i p cw s (off := 0x8000) (by decide)) 0 14

theorem mems_accepted (i : Nat) (p : Packet) (cw : Codeword) (s : State) : (accepted i p cw s).mems = s.mems := by
  rw [accepted_eq]
  rfl

theorem sendsVote_accepted (hs : s.sendsVote k) (i : Nat) (p : Packet) (cw : Codeword) : (accepted i p cw s).sendsVote k := by
  obtain ⟨n, e, r, f0, f1, hl⟩ := link_accepted i p cw s k
  unfold State.sendsVote
  rw [hl]
  exact hs

/-- A VOTE packet for this module that its link accepts is taken on the state in which it was accepted. -/
theorem exec_votePacket {c : Codeword → Instr} {late : Bool}
    (hc : ∀ cw s, exec (c cw) s = answer s (rxPacket i p cw (deliverPacket late p) s)) (hcome : comesNext s i p cw = true)
    (hty : p.ptype = 6) (hdst : p.dst = s.moduleId) : exec (c cw) s = answer s (takeVotePacket late p (accepted i p cw s)) := by
  obtain ⟨hup, hgood, hlt, hexp, hbad⟩ := comesNext_spec hcome
  have hdeliver : deliverPacket late p (accepted i p cw s) = takeVotePacket late p (accepted i p cw s) := by
    rw [deliverPacket, hbad, if_neg (by decide), if_pos ⟨hty, by rw [moduleId_accepted, hdst]⟩]
  rw [hc, rxPacket_accepted hup hgood hlt hexp]
  exact congrArg (answer s) hdeliver

theorem takeVotePacket_inFrame (hv : p.vote = some pl) (htag : p.ftag = s.ftag) (late : Bool) : takeVotePacket late p s =
    if pl.kind = 0 then takeVote p.src pl late s
    else if pl.kind = 1 then takeResult p.src pl s
    else if pl.kind = 2 then takeQuery p.src pl.fn s
    else if pl.kind = 3 then takeAnswer p.src pl s
    else s := by
  rw [takeVotePacket, hv]
  exact if_neg (not_not_intro htag)

theorem exec_voteComes {c : Codeword → Instr} {late : Bool}
    (hc : ∀ cw s, exec (c cw) s = answer s (rxPacket i p cw (deliverPacket late p) s)) (h : voteComes s i p cw pl) :
    exec (c cw) s = answer s (
      if pl.kind = 0 then takeVote p.src pl late (accepted i p cw s)
      else if pl.kind = 1 then takeResult p.src pl (accepted i p cw s)
      else if pl.kind = 2 then takeQuery p.src pl.fn (accepted i p cw s)
      else if pl.kind = 3 then takeAnswer p.src pl (accepted i p cw s)
      else accepted i p cw s) := by
  obtain ⟨hcome, hty, hdst, htag, hv⟩ := h
  rw [exec_votePacket hc hcome hty hdst, takeVotePacket_inFrame hv (htag.trans (ftag_accepted i p cw s).symm)]

/-- The packet is accepted and nothing else happens. -/
theorem only_accepted (h : voteComes s i p cw pl) : ∃ t, answer s (accepted i p cw s) = .next t ∧ s.sameRegs t (rxRegs i) ∧
    t = { s with links := t.links, out := t.out, regs := t.regs } :=
  ⟨_, answer_eq (by rw [accepted_eq]), regs_accepted (comesNext_spec h.1).2.1 i s, accepted_eq i p cw s⟩

/-! #### Results (R330, R334) -/

/-- A result that is new is kept among the last 16 and waits to be applied. -/
def CommitSt.keeping (r : VotePl) (f : CommitSt) : CommitSt :=
  { f with results := (f.results ++ [r]).drop (f.results.length + 1 - 16),
           received := if f.nextFn ≤ r.fn then f.received ++ [r] else f.received }

theorem keepResult_new {r : VotePl} (h : ∀ x ∈ s.fx.results, x.fn ≠ r.fn) : keepResult r s = s.modFx (CommitSt.keeping r) := by
  refine if_neg ?_
  rw [List.any_eq_true]
  rintro ⟨x, hx, hfn⟩
  exact h x hx (of_decide_eq_true hfn)

/-- A result from the parent goes on to the children and is kept. -/
theorem result_from_parent {d : DomainSect} (h : voteComes s i p cw pl) (hd : s.domain = some d)
    (hparent : d.parent.map (·.1) = some p.src) (hkind : pl.kind = 1) (hnew : ∀ x ∈ s.fx.results, x.fn ≠ pl.fn) :
    ∃ t, exec (.voteResult i p cw) s = .next t ∧ t.fx.results = (s.fx.results ++ [pl]).drop (s.fx.results.length + 1 - 16) ∧
      t.fx.received = (if s.fx.nextFn ≤ pl.fn then s.fx.received ++ [pl] else s.fx.received) ∧
      (∀ c k, d.children = [c] → voteHop s c.1 c.2 = some k → s.sendsVote k →
        ∃ q, Out.packet k q ∈ t.out ∧ q.vote = some pl ∧ q.dst = c.1) ∧
      s.sameBytes t ∧ t.cores = s.cores ∧ t.tk = s.tk ∧ t.img = s.img := by
  have hdomain : (accepted i p cw s).domain = some d := (domain_congr (img_accepted i p cw s)).trans hd
  have hfx := fx_accepted i p cw s
  have hpost := Posted.forwardResult (.refl (accepted i p cw s)) pl
  have hresults : (forwardResult pl (accepted i p cw s)).fx.results = s.fx.results := by rw [hpost.fx, hfx]
  have hreceived : (forwardResult pl (accepted i p cw s)).fx.received = s.fx.received := by rw [hpost.fx, hfx]
  have hnext : (forwardResult pl (accepted i p cw s)).fx.nextFn = s.fx.nextFn := by rw [hpost.fx, hfx]
  have htake : takeResult p.src pl (accepted i p cw s) = (forwardResult pl (accepted i p cw s)).modFx (CommitSt.keeping pl) := by
    rw [takeResult, hdomain, Option.bind_some, if_pos hparent]
    exact keepResult_new (by rwa [hresults])
  have hsent (c : Nat × Nat) (k : Nat) (hc : d.children = [c]) (hhop : voteHop s c.1 c.2 = some k) (hs : s.sendsVote k) :
      ∃ q, Out.packet k q ∈ (forwardResult pl (accepted i p cw s)).out ∧ q.vote = some pl ∧ q.dst = c.1 := by
    have hone : forwardResult pl (accepted i p cw s) = voteTo c.1 c.2 pl (accepted i p cw s) := by
      rw [forwardResult, hdomain]
      dsimp only
      rw [hc]
      rfl
    rw [hone]
    exact voteTo_sent ((voteHop_congr (img_accepted i p cw s) (linkUp_accepted i p cw s) _ _).trans hhop) (sendsVote_accepted hs i p cw) pl
  have hexec := exec_voteComes (c := .voteResult i p) (late := false) (fun _ _ => rfl) h
  rw [if_neg (by simp [hkind]), if_pos hkind, htake] at hexec
  generalize forwardResult pl (accepted i p cw s) = w at *
  refine ⟨_, hexec.trans (answer_eq ?_), ?_, ?_, hsent, ?_, ?_, ?_, ?_⟩
  · exact hpost.pending.trans (by rw [accepted_eq])
  · rw [← hresults]; rfl
  · rw [← hreceived, ← hnext]; rfl
  · exact sameBytes_of_mems (hpost.mems.trans (mems_accepted i p cw s))
  · exact hpost.cores.trans (by rw [accepted_eq])
  · exact hpost.tk.trans (by rw [accepted_eq])
  · exact hpost.img.trans (img_accepted i p cw s)

/-- A result of another module is not taken. -/
theorem result_of_other (h : voteComes s i p cw pl) (hother : (s.domain.bind (·.parent)).map (·.1) ≠ some p.src) (hkind : pl.kind = 1) :
    ∃ t, exec (.voteResult i p cw) s = .next t ∧ s.sameRegs t (rxRegs i) ∧
      t = { s with links := t.links, out := t.out, regs := t.regs } := by
  have htake : takeResult p.src pl (accepted i p cw s) = accepted i p cw s := by
    rw [takeResult, domain_congr (img_accepted i p cw s), if_neg hother]
  have hexec := exec_voteComes (c := .voteResult i p) (late := false) (fun _ _ => rfl) h
  rw [if_neg (by simp [hkind]), if_pos hkind, htake] at hexec
  rw [hexec]
  exact only_accepted h

/-- A query for a result that is kept is answered with it. -/
theorem query_answered {l : Nat} {r : VotePl} (h : voteComes s i p cw pl) (hkind : pl.kind = 2)
    (hnbr : neighbourLink s p.src = some l) (hfind : (s.fx.results.find? fun r => r.fn = pl.fn) = some r)
    (hhop : voteHop s p.src l = some k) (hs : s.sendsVote k) :
    ∃ t q, exec (.resultQuery i p cw) s = .next t ∧ Out.packet k q ∈ t.out ∧ q.vote = some { r with kind := 3 } ∧ q.dst = p.src ∧
      t.fx = s.fx ∧ s.sameBytes t ∧ t.cores = s.cores ∧ t.tk = s.tk := by
  have hnbr' : neighbourLink (accepted i p cw s) p.src = some l := by
    rw [← hnbr, neighbourLink, domain_congr (img_accepted i p cw s), neighbourLink]
  have hfx := fx_accepted i p cw s
  have htake : takeQuery p.src pl.fn (accepted i p cw s) = voteTo p.src l { r with kind := 3 } (accepted i p cw s) := by
    rw [takeQuery, hnbr', hfx, hfind]
  have hhop' := (voteHop_congr (img_accepted i p cw s) (linkUp_accepted i p cw s) p.src l).trans hhop
  obtain ⟨q, hq, hvote, hdst⟩ := voteTo_sent hhop' (sendsVote_accepted hs i p cw) { r with kind := 3 }
  have hpost := Posted.voteTo (.refl (accepted i p cw s)) p.src l { r with kind := 3 }
  have hexec := exec_voteComes (c := .resultQuery i p) (late := false) (fun _ _ => rfl) h
  rw [if_neg (by simp [hkind]), if_neg (by simp [hkind]), if_pos hkind, htake] at hexec
  refine ⟨_, q, hexec.trans (answer_eq ?_), hq, hvote, hdst, ?_, ?_, ?_, ?_⟩
  · exact hpost.pending.trans (by rw [accepted_eq])
  · rw [voteTo_hop hhop', fx_enqueue, hfx]
  · exact sameBytes_of_mems (hpost.mems.trans (mems_accepted i p cw s))
  · exact hpost.cores.trans (by rw [accepted_eq])
  · exact hpost.tk.trans (by rw [accepted_eq])

/-- A query for another result is not answered. -/
theorem query_unanswered (h : voteComes s i p cw pl) (hkind : pl.kind = 2) (hnone : ∀ x ∈ s.fx.results, x.fn ≠ pl.fn) :
    ∃ t, exec (.resultQuery i p cw) s = .next t ∧ s.sameRegs t (rxRegs i) ∧
      t = { s with links := t.links, out := t.out, regs := t.regs } := by
  have hfind : (accepted i p cw s).fx.results.find? (fun r => r.fn = pl.fn) = none := by
    rw [fx_accepted, List.find?_eq_none]
    exact fun x hx => by simpa using hnone x hx
  have htake : takeQuery p.src pl.fn (accepted i p cw s) = accepted i p cw s := by
    rw [takeQuery, hfind]
    split
    next hsome => simp at hsome
    next => rfl
  have hexec := exec_voteComes (c := .resultQuery i p) (late := false) (fun _ _ => rfl) h
  rw [if_neg (by simp [hkind]), if_neg (by simp [hkind]), if_pos hkind, htake] at hexec
  rw [hexec]
  exact only_accepted h

/-- The answer to a query is kept as the result that it is. -/
theorem answer_kept (h : voteComes s i p cw pl) (hkind : pl.kind = 3) (hnbr : (neighbourLink s p.src).isSome = true)
    (hnew : ∀ x ∈ s.fx.results, x.fn ≠ pl.fn) :
    ∃ t, exec (.resultAnswer i p cw) s = .next t ∧
      t.fx.results = (s.fx.results ++ [{ pl with kind := 1 }]).drop (s.fx.results.length + 1 - 16) ∧
      t.fx.received = (if s.fx.nextFn ≤ pl.fn then s.fx.received ++ [{ pl with kind := 1 }] else s.fx.received) ∧
      s.sameRegs t (rxRegs i) ∧
      t = { s with fx := { s.fx with results := t.fx.results, received := t.fx.received }, links := t.links, out := t.out, regs := t.regs } := by
  have hnbr' : (neighbourLink (accepted i p cw s) p.src).isSome = true := by
    rw [← hnbr, neighbourLink, domain_congr (img_accepted i p cw s), neighbourLink]
  have hfx := fx_accepted i p cw s
  have htake : takeAnswer p.src pl (accepted i p cw s) = (accepted i p cw s).modFx (CommitSt.keeping { pl with kind := 1 }) := by
    rw [takeAnswer, if_pos hnbr']
    exact keepResult_new (by rwa [hfx])
  have hexec := exec_voteComes (c := .resultAnswer i p) (late := false) (fun _ _ => rfl) h
  rw [if_neg (by simp [hkind]), if_neg (by simp [hkind]), if_neg (by simp [hkind]), if_pos hkind, htake] at hexec
  have hkept : ((accepted i p cw s).modFx (CommitSt.keeping { pl with kind := 1 })).fx = s.fx.keeping { pl with kind := 1 } :=
    congrArg (CommitSt.keeping { pl with kind := 1 }) hfx
  refine ⟨_, hexec.trans (answer_eq ?_), ?_, ?_, ?_, ?_⟩
  · rw [State.modFx_pending, accepted_eq]
  · rw [hkept]; rfl
  · rw [hkept]; rfl
  · exact sameRegs_of_regs (regs_accepted (comesNext_spec h.1).2.1 i s) (State.modFx_regs _ _)
  · rw [hkept, State.modFx, hfx]
    have heq := accepted_eq i p cw s
    generalize accepted i p cw s = u at heq ⊢
    rw [heq]
    rfl

/-- Settles O41: each kind of VOTE packet is taken on the state in which its link accepted it. -/
theorem resultsAreKeptForwardedAndAnswered : Obligations.ResultsAreKeptForwardedAndAnswered :=
  ⟨fun _ _ _ _ _ _ h hd hparent hkind hnew => result_from_parent h hd hparent hkind hnew,
    fun _ _ _ _ _ h hother hkind => result_of_other h hother hkind,
    fun _ _ _ _ _ _ _ _ h hkind hnbr hfind hhop hs => query_answered h hkind hnbr hfind hhop hs,
    fun _ _ _ _ _ h hkind hnone => query_unanswered h hkind hnone,
    fun _ _ _ _ _ h hkind hnbr hnew => answer_kept h hkind hnbr hnew⟩

end Sys2Proof.Machine

end

section
/-! PROOFS. The commit vote: a module's own vote, a child's, and the joined one (R330, R332). -/

namespace Sys2Proof.Machine

variable {s t u : State} {i j k : Nat} {p : Packet} {cw : Codeword} {pl v own : VotePl} {d : DomainSect}

/-! ### Flags (Table 13.6) -/

theorem bit_voteFlags (a b c d e f g h : Bool) :
    (List.range 8).map (bit (voteFlags a b c d e f g h)) = [a, b, c, d, e, f, g, h] := by
  revert a b c d e f g h
  decide +kernel

theorem bit_voteFlags_get (a b c d e f g h : Bool) {i : Nat} (hi : i < 8) :
    bit (voteFlags a b c d e f g h) i = ([a, b, c, d, e, f, g, h] : List Bool)[i]'hi := by
  have := bit_voteFlags a b c d e f g h
  simp only [← this, List.getElem_map, List.getElem_range]

/-- The flags that any of the joined votes sets (R332). -/
def anyFlags : List Nat := [0, 1, 2, 3, 6, 7]

/-- The flags that all of the joined votes set (R332). -/
def allFlags : List Nat := [4, 5]

theorem vflag_joinVotes_any (a b : VotePl) (hi : i ∈ anyFlags) : vflag (joinVotes a b) i = (vflag a i || vflag b i) := by
  simp only [anyFlags, List.mem_cons, List.not_mem_nil, or_false] at hi
  rcases hi with rfl | rfl | rfl | rfl | rfl | rfl <;> exact bit_voteFlags_get _ _ _ _ _ _ _ _ (by decide)

theorem vflag_joinVotes_all (a b : VotePl) (hi : i ∈ allFlags) : vflag (joinVotes a b) i = (vflag a i && vflag b i) := by
  simp only [allFlags, List.mem_cons, List.not_mem_nil, or_false] at hi
  rcases hi with rfl | rfl <;> exact bit_voteFlags_get _ _ _ _ _ _ _ _ (by decide)

theorem vflag_joined_any (hi : i ∈ anyFlags) (l : List VotePl) (own : VotePl) :
    vflag (l.foldl joinVotes own) i = (vflag own i || l.any fun g => vflag g i) := by
  induction l generalizing own with
  | nil => simp
  | cons g l ih => rw [List.foldl_cons, ih, vflag_joinVotes_any _ _ hi, List.any_cons, Bool.or_assoc]

theorem vflag_joined_all (hi : i ∈ allFlags) (l : List VotePl) (own : VotePl) :
    vflag (l.foldl joinVotes own) i = (vflag own i && l.all fun g => vflag g i) := by
  induction l generalizing own with
  | nil => simp
  | cons g l ih => rw [List.foldl_cons, ih, vflag_joinVotes_all _ _ hi, List.all_cons, Bool.and_assoc]

theorem sumN_cons (n : Nat) (l : List Nat) : sumN (n :: l) = n + sumN l := by
  simp only [sumN, ← List.sum_eq_foldl_nat, List.sum_cons]

theorem voters_joined (l : List VotePl) (own : VotePl) : (l.foldl joinVotes own).voters = own.voters + sumN (l.map (·.voters)) := by
  induction l generalizing own with
  | nil => rfl
  | cons g l ih =>
    rw [List.foldl_cons, ih, List.map_cons, sumN_cons, ← Nat.add_assoc]
    rfl

theorem fn_joinVotes (a b : VotePl) : (joinVotes a b).fn = a.fn := by dsimp only [joinVotes]

theorem fn_joined (l : List VotePl) (own : VotePl) : (l.foldl joinVotes own).fn = own.fn := by
  induction l generalizing own with
  | nil => rfl
  | cons g l ih =>
    rw [List.foldl_cons]
    exact (ih _).trans (fn_joinVotes own g)

theorem vflag_withMissing (v : VotePl) (hi : i < 8) :
    vflag (withMissing v) i = (decide (i = 1) || (decide (i ≠ 4) && decide (i ≠ 5) && vflag v i)) := by
  have hbit : vflag (withMissing v) i = ((vflag v i || (2 : BitVec 8).getLsbD i) && (0xCF : BitVec 8).getLsbD i) := by
    simp only [vflag, withMissing, bit, BitVec.getLsbD_and, BitVec.getLsbD_or]
  have hmask : ∀ k : Fin 8, ∀ x : Bool, ((x || (2 : BitVec 8).getLsbD k) && (0xCF : BitVec 8).getLsbD k) =
      (decide (k.1 = 1) || (decide (k.1 ≠ 4) && decide (k.1 ≠ 5) && x)) := by decide
  rw [hbit, hmask ⟨i, hi⟩]

/-! ### The own vote (R330) -/

theorem formVote_voting (h : voting s = true) : exec .voteForm s = .next { s with fx := { s.fx with own := some (ownVote s) } } := by
  have hform : formVote s = { s with fx := { s.fx with own := some (ownVote s) } } := by
    rw [formVote, if_pos h]
    rfl
  change answer s (formVote s) = _
  rw [hform]
  exact answer_eq rfl

theorem formVote_not_voting (h : voting s = false) : exec .voteForm s = .next s := by
  change answer s (formVote s) = _
  rw [formVote, h, if_neg (by decide)]
  exact answer_eq rfl

theorem vflag_ownVote (h : s.fx.halt = 0) :
    vflag (ownVote s) 0 = (s.fx.prev.fault || s.fx.prev.overrun || s.fx.prev.inPlace || decide (s.fx.prev.thermal = some true)) ∧
    vflag (ownVote s) 2 = ((s.fx.retires.any fun r => !offBank s r) || decide (s.fx.prev.thermal = some false)) ∧
    vflag (ownVote s) 6 = s.fx.capHalt ∧ vflag (ownVote s) 7 = s.fx.prev.lost := by
  have hhalt : (!decide (s.fx.halt ≠ 0)) = true := by simp [h]
  refine ⟨?_, ?_, bit_voteFlags_get _ _ _ _ _ _ _ _ (by decide), bit_voteFlags_get _ _ _ _ _ _ _ _ (by decide)⟩
  · refine (bit_voteFlags_get _ _ _ _ _ _ _ _ (by decide)).trans ?_
    simp only [List.getElem_cons_zero, hhalt, Bool.true_and, Bool.or_assoc]
  · refine (bit_voteFlags_get _ _ _ _ _ _ _ _ (by decide)).trans ?_
    simp only [List.getElem_cons_succ, List.getElem_cons_zero, hhalt, Bool.true_and]

/-! ### A child's vote (R332) -/

theorem isChild_accepted (hd : s.domain = some d) (hc : ∃ l, (p.src, l) ∈ d.children) (i : Nat) (cw : Codeword) :
    isChild (accepted i p cw s) p.src = true := by
  obtain ⟨l, hmem⟩ := hc
  have hany : (d.children.any fun c => decide (c.1 = p.src)) = true := List.any_eq_true.2 ⟨_, hmem, decide_eq_true rfl⟩
  rw [isChild, domain_congr (img_accepted i p cw s), hd]
  exact hany

/-- A vote that comes in its frame and in time is kept. -/
theorem vote_kept (h : voteComes s i p cw pl) (hd : s.domain = some d) (hc : ∃ l, (p.src, l) ∈ d.children)
    (hnv : s.fx.noVote.contains s.fx.prev.fn = false) (hkind : pl.kind = 0) (hsent : s.fx.sentFor ≠ some s.fx.prev.fn)
    (hfn : pl.fn = s.fx.prev.fn) :
    ∃ t, exec (.vote i p cw false) s = .next t ∧ (t.link i).lseqRx = (p.lseq + 1) % 65536 ∧
      t.fx.children = (s.fx.children.filter fun c => c.1 ≠ p.src) ++ [(p.src, pl)] ∧ s.sameRegs t (rxRegs i) ∧
      t = { s with fx := { s.fx with children := t.fx.children }, links := t.links, out := t.out, regs := t.regs } := by
  have hfx := fx_accepted i p cw s
  have htake : takeVote p.src pl false (accepted i p cw s) = (accepted i p cw s).modFx fun f =>
      { f with children := (f.children.filter fun c => c.1 ≠ p.src) ++ [(p.src, pl)] } := by
    rw [takeVote, isChild_accepted hd hc, hfx, hnv, if_neg (by decide), if_neg (by simpa using hsent), if_neg (by simp [hfn])]
  have hexec := exec_voteComes (c := fun cw => .vote i p cw false) (fun _ _ => rfl) h
  rw [if_pos hkind, htake] at hexec
  have hlseq : ((accepted i p cw s).link i).lseqRx = (p.lseq + 1) % 65536 := by
    rw [lseqRx_accepted, (comesNext_spec h.1).2.2.2.1]
  have hregs := regs_accepted (comesNext_spec h.1).2.1 i s
  have heq := accepted_eq i p cw s
  have hpending : (accepted i p cw s).pending = s.pending := by rw [heq]
  generalize accepted i p cw s = u at *
  refine ⟨_, hexec.trans (answer_eq ?_), (congrArg LinkSt.lseqRx (link_congr rfl i)).trans hlseq, ?_, sameRegs_of_regs hregs rfl, ?_⟩
  · rw [State.modFx_pending, hpending]
  · rw [State.modFx_fx, hfx]
  · rw [State.modFx, hfx, heq]

/-- A late vote is recorded and not kept. -/
theorem vote_late (h : voteComes s i p cw pl) (hd : s.domain = some d) (hc : ∃ l, (p.src, l) ∈ d.children)
    (hnv : s.fx.noVote.contains s.fx.prev.fn = false) (hkind : pl.kind = 0) :
    ∃ t, exec (.vote i p cw true) s = .next t ∧ t.regBit fxSticky 5 = true ∧ s.sameRegs t (fxSticky :: rxRegs i) ∧
      t = { s with links := t.links, out := t.out, regs := t.regs } := by
  have htake : takeVote p.src pl true (accepted i p cw s) = (accepted i p cw s).setBit fxSticky 5 := by
    rw [takeVote, isChild_accepted hd hc, fx_accepted, hnv, if_neg (by decide), Bool.true_or, if_pos rfl]
  have hexec := exec_voteComes (c := fun cw => .vote i p cw true) (fun _ _ => rfl) h
  rw [if_pos hkind, htake] at hexec
  have hregs := regs_accepted (comesNext_spec h.1).2.1 i s
  have heq := accepted_eq i p cw s
  have hpending : (accepted i p cw s).pending = s.pending := by rw [heq]
  generalize accepted i p cw s = u at *
  refine ⟨_, hexec.trans (answer_eq ?_), State.regBit_setBit_self _ fxSticky (i := 5) (by decide) 5,
    sameRegs_setBit (sameRegs_mono hregs (List.subset_cons_self _ _)) 5 List.mem_cons_self, ?_⟩
  · rw [State.setBit_pending, hpending]
  · rw [State.setBit, State.setReg, heq]

/-- A vote of another frame is STALE (R308). -/
theorem vote_stale (hcome : comesNext s i p cw = true) (hty : p.ptype = 6) (hdst : p.dst = s.moduleId) (hv : p.vote.isSome = true)
    (htag : p.ftag ≠ s.ftag) :
    ∃ t, exec (.vote i p cw false) s = .next t ∧ t.regBit clSticky 2 = true ∧ s.sameRegs t (clSticky :: clCnt :: rxRegs i) ∧
      t = { s with links := t.links, out := t.out, regs := t.regs } := by
  obtain ⟨pl, hpl⟩ := Option.isSome_iff_exists.1 hv
  have htake : takeVotePacket false p (accepted i p cw s) = clCount 2 clCnt 16 (accepted i p cw s) := by
    rw [takeVotePacket, hpl]
    refine (if_pos (by rwa [ftag_accepted])).trans ?_
    rw [Bool.false_and, Bool.false_and, whenS_false]
  have hexec := exec_votePacket (c := fun cw => .vote i p cw false) (fun _ _ => rfl) hcome hty hdst
  rw [htake] at hexec
  have hregs := regs_accepted (comesNext_spec hcome).2.1 i s
  have heq := accepted_eq i p cw s
  have hpending : (accepted i p cw s).pending = s.pending := by rw [heq]
  generalize accepted i p cw s = u at *
  have hne : clSticky ≠ clCnt := by simp [clSticky, clCnt, hubA]
  refine ⟨_, hexec.trans (answer_eq ?_), ?_, ?_, ?_⟩
  · rw [clCount, State.addCnt_pending, State.setBit_pending, hpending]
  · rw [clCount, regBit_of_reg (State.reg_addCnt_other _ hne 16 16 1)]
    exact State.regBit_setBit_self _ clSticky (i := 2) (by decide) 2
  · refine sameRegs_addCnt (sameRegs_setBit (sameRegs_mono hregs ?_) 2 List.mem_cons_self) 16 16 1
      (List.mem_cons_of_mem _ List.mem_cons_self)
    exact List.subset_cons_of_subset _ (List.subset_cons_self _ _)
  · rw [clCount, State.addCnt, State.setFld, State.setReg, State.setBit, State.setReg, heq]

/-! ### The deadline (R330, R332) -/

/-- A missing or mismatched vote is recorded: an absent child, and a detected fault. -/
def noted (absent short : Bool) (s : State) : State :=
  whenS (absent || short) (detectFault voteLoc) (whenS absent (fun t => t.setBit fxSticky 4) s)

/-- The state in which the joined vote leaves. -/
def joined (absent short : Bool) (v : VotePl) (s : State) : State :=
  (noted absent short s).modFx fun f => { f with sentFor := some f.prev.fn, combined := some v }

/-- The result of the root (Table 13.7). -/
def rootResult (s : State) (v : VotePl) : VotePl := { v with kind := 1, flags := (decideVote s v).1, actions := (decideVote s v).2 }

/-- The votes of the children that came. -/
def childVotes (s : State) (d : DomainSect) : List VotePl :=
  d.children.filterMap fun c => (s.fx.children.find? fun x => x.1 = c.1).map (·.2)

def absentChild (s : State) (d : DomainSect) : Bool := decide ((childVotes s d).length ≠ d.children.length)

def shortCount (s : State) (d : DomainSect) (own : VotePl) : Bool :=
  d.parent.isNone && decide (((childVotes s d).foldl joinVotes own).voters ≠ d.members.length)

/-- The joined vote of a node (R332). -/
def joinedVote (s : State) (d : DomainSect) (own : VotePl) : VotePl :=
  let v := (childVotes s d).foldl joinVotes own
  let v' := if absentChild s d || shortCount s d own then withMissing v else v
  { v' with attempt := rootAttempt s v' }

/-- What the node does with its joined vote. -/
def dispatchVote (d : DomainSect) (v : VotePl) (s : State) : State :=
  match d.parent with
  | some p => voteTo p.1 p.2 v s
  | none => forwardResult (rootResult s v) (keepResult (rootResult s v) s)

theorem sendVote_eq (hd : s.domain = some d) (hvoting : voting s = true) (hown : s.fx.own = some own) (hfn : own.fn = s.fx.prev.fn)
    (hsent : s.fx.sentFor ≠ some s.fx.prev.fn) : sendVote s =
    dispatchVote d (joinedVote s d own) (joined (absentChild s d) (shortCount s d own) (joinedVote s d own) s) := by
  have hsome : s.fx.own.isNone = false := by rw [hown]; rfl
  unfold sendVote
  rw [hsome, if_neg (by decide)]
  dsimp only
  rw [hd, hown]
  dsimp only
  rw [if_neg (by simp [hvoting, hfn, hsent])]
  rfl

/-! #### What the record leaves -/

/-- The state with an absent child recorded, or without. -/
def marked (absent : Bool) (s : State) : State := whenS absent (fun t => t.setBit fxSticky 4) s

theorem regs_marked (absent : Bool) (s : State) : s.sameRegs (marked absent s) [fxSticky] :=
  sameRegs_whenS _ _ (fun _ k => sameRegs_setBit k _ (by simp)) (sameRegs_refl s _)

theorem marked_eq (absent : Bool) (s : State) : marked absent s = { s with regs := (marked absent s).regs } := by
  cases absent <;> rfl

theorem posted_noted (absent short : Bool) (s : State) : Posted (marked absent s) (noted absent short s) :=
  Posted.whenS _ (fun _ k => k.detectFault voteLoc) (.refl _)

theorem links_noted (absent short : Bool) (s : State) : (noted absent short s).links = s.links := by
  have h : (marked absent s).links = s.links := by rw [marked_eq]
  refine Eq.trans (whenS_same (·.links) (absent || short) (detectFault voteLoc) (fun u => ?_) (marked absent s)) h
  rw [(detectFault_effect voteLoc u).1]

theorem fx_noted (absent short : Bool) (s : State) : (noted absent short s).fx =
    { s.fx with cur := (noted absent short s).fx.cur, keys := (noted absent short s).fx.keys,
                retires := (noted absent short s).fx.retires } := by
  have h : (marked absent s).fx = s.fx := by rw [marked_eq]
  have hp := (posted_noted absent short s).fx
  rwa [h] at hp

theorem linkUp_noted (absent short : Bool) (s : State) (k : Nat) : (noted absent short s).linkUp k = s.linkUp k := by
  have hne : linkA k 0 ∉ [fxSticky] := by
    simp only [List.mem_cons, List.not_mem_nil, or_false, linkA, fxSticky, hubA]
    omega
  exact ((posted_noted absent short s).up k).trans (linkUp_of_sameRegs (regs_marked absent s) hne)

theorem img_noted (absent short : Bool) (s : State) : (noted absent short s).img = s.img :=
  (posted_noted absent short s).img.trans (by rw [marked_eq])

theorem low_noted {a : Nat} (ha : LowBit a j) (hne : a ≠ fxSticky) (absent short : Bool) (s : State) :
    (noted absent short s).regBit a j = s.regBit a j :=
  ((posted_noted absent short s).low a j ha).trans (regBit_of_reg (regs_marked absent s a (by simpa using hne)) j)

theorem noted_none (s : State) : noted false false s = s := rfl

theorem fault_noted {absent short : Bool} (h : (absent || short) = true) (s : State) : (noted absent short s).fx.cur.fault = true := by
  rw [noted, h, whenS_true]
  exact fault_detectFault _ _

theorem lowBit_absent : LowBit fxSticky 4 := ⟨by decide, by decide, by decide, fun _ => by decide⟩

theorem absent_noted (absent short : Bool) (s : State) :
    (noted absent short s).regBit fxSticky 4 = (absent || s.regBit fxSticky 4) := by
  rw [(posted_noted absent short s).low _ _ lowBit_absent]
  cases absent
  · rfl
  · exact State.regBit_setBit_self s fxSticky (i := 4) (by decide) 4

/-- The root decides as on the state before. -/
theorem decideVote_congr (himg : t.img = s.img) (hhalt : t.fx.halt = s.fx.halt)
    (hlow : ∀ a j, LowBit a j → a ≠ fxSticky → t.regBit a j = s.regBit a j) (v : VotePl) : decideVote t v = decideVote s v := by
  have hctrl : t.regFld fxCtrl 0 4 = s.regFld fxCtrl 0 4 :=
    State.regFld_congr fun j _ _ => hlow _ _ ⟨by decide, by decide, by decide, fun h => absurd h (by decide)⟩ (by decide)
  have hvariant : t.variant = s.variant :=
    State.regFld_congr fun j _ _ => hlow _ _ ⟨by decide, by decide, by decide, fun h => absurd h (by decide)⟩ (by decide)
  unfold decideVote
  rw [image_congr himg, hvariant, hctrl, hhalt]

theorem decideVote_joined (absent short : Bool) (v v' : VotePl) (s : State) : decideVote (joined absent short v s) v' = decideVote s v' :=
  decideVote_congr ((State.modFx_img _ _).trans (img_noted absent short s))
    ((congrArg CommitSt.halt (State.modFx_fx _ _)).trans (by rw [fx_noted]))
    (fun _ _ hl hne => (regBit_of_reg (State.reg_congr (State.modFx_regs _ _) _) _).trans (low_noted hl hne absent short s)) v'

/-! #### What the joined vote leaves -/

/-- The state from which the node's packets leave: the root has kept its result. -/
def dispatchBase (d : DomainSect) (v : VotePl) (s : State) : State :=
  match d.parent with
  | some _ => s
  | none => keepResult (rootResult s v) s

theorem keepResult_eq (r : VotePl) (s : State) : keepResult r s =
    { s with fx := { s.fx with results := (keepResult r s).fx.results, received := (keepResult r s).fx.received } } := by
  unfold keepResult
  split <;> rfl

theorem dispatchBase_eq (d : DomainSect) (v : VotePl) (s : State) : dispatchBase d v s =
    { s with fx := { s.fx with results := (dispatchBase d v s).fx.results, received := (dispatchBase d v s).fx.received } } := by
  unfold dispatchBase
  split
  · rfl
  · exact keepResult_eq _ s

theorem posted_dispatch (d : DomainSect) (v : VotePl) (s : State) : Posted (dispatchBase d v s) (dispatchVote d v s) := by
  unfold dispatchBase dispatchVote
  split
  · exact Posted.voteTo (.refl s) _ _ _
  · exact Posted.forwardResult (.refl _) _

/-- Where every tree neighbour has a way, the packets that leave are no detected fault (R305). -/
theorem cur_dispatch (hd : s.domain = some d)
    (hways : ∀ x, (d.parent = some x ∨ d.parent = none ∧ x ∈ d.children) → (voteHop s x.1 x.2).isSome = true) (v : VotePl) :
    (dispatchVote d v s).fx.cur = s.fx.cur := by
  unfold dispatchVote
  split
  next p hp =>
    obtain ⟨k, hk⟩ := Option.isSome_iff_exists.1 (hways p (.inl hp))
    rw [voteTo_hop hk, fx_enqueue]
  next hp =>
    have hbase := keepResult_eq (rootResult s v) s
    have hcur : (keepResult (rootResult s v) s).fx.cur = s.fx.cur := by rw [hbase]
    have himg : (keepResult (rootResult s v) s).img = s.img := by rw [hbase]
    have hup (k : Nat) : (keepResult (rootResult s v) s).linkUp k = s.linkUp k := by
      have hregs : (keepResult (rootResult s v) s).regs = s.regs := by rw [hbase]
      rw [State.linkUp, linkState_of_regs hregs, State.linkUp]
    rw [forwardResult, domain_congr himg, hd]
    generalize keepResult (rootResult s v) s = w at hcur himg hup ⊢
    refine (forEach_keeps (fun u => Posted w u ∧ u.fx.cur = s.fx.cur) d.children _ (fun x hx u hu => ?_) w ⟨.refl w, hcur⟩).2
    obtain ⟨k, hk⟩ := Option.isSome_iff_exists.1 (hways x (.inr ⟨hp, hx⟩))
    have hk' : voteHop u x.1 x.2 = some k := (hu.1.voteHop _ _).trans ((voteHop_congr himg hup _ _).trans hk)
    refine ⟨hu.1.voteTo _ _ _, ?_⟩
    rw [voteTo_hop hk', fx_enqueue, hu.2]

theorem joined_regs (absent short : Bool) (v : VotePl) (s : State) : (joined absent short v s).regs = (noted absent short s).regs := rfl

theorem voteHop_joined (absent short : Bool) (v : VotePl) (s : State) (dst l : Nat) :
    voteHop (joined absent short v s) dst l = voteHop s dst l := by
  refine voteHop_congr ((State.modFx_img _ _).trans (img_noted absent short s)) (fun k => ?_) dst l
  have hstate := linkState_of_regs (joined_regs absent short v s) k
  exact (congrArg (fun n => decide (n = 2)) hstate).trans (linkUp_noted absent short s k)

/-- The vote is recorded as sent for the frame that ended. -/
theorem fx_joined (absent short : Bool) (v : VotePl) (s : State) : (joined absent short v s).fx =
    { (noted absent short s).fx with sentFor := some s.fx.prev.fn, combined := some v } := by
  have hprev : (noted absent short s).fx.prev = s.fx.prev := by rw [fx_noted]
  exact (State.modFx_fx _ _).trans (congrArg (fun f : FrameRec =>
    { (noted absent short s).fx with sentFor := some f.fn, combined := some v }) hprev)

theorem mem_drop_last {α : Type} (l : List α) (x : α) : x ∈ (l ++ [x]).drop (l.length + 1 - 16) := by
  rw [List.drop_append_of_le_length (by omega)]
  exact List.mem_append_right _ (List.mem_singleton_self x)

/-- The root keeps its result (R330). -/
theorem root_keeps (hp : d.parent = none) (absent short : Bool) (hv : v.fn = s.fx.prev.fn)
    (hnew : ∀ x ∈ s.fx.results, x.fn ≠ s.fx.prev.fn) :
    rootResult s v ∈ (dispatchBase d v (joined absent short v s)).fx.results := by
  have hroot : rootResult (joined absent short v s) v = rootResult s v := by
    rw [rootResult, decideVote_joined, rootResult]
  have hresults : (joined absent short v s).fx.results = s.fx.results := by
    rw [fx_joined]
    exact (congrArg CommitSt.results (fx_noted absent short s)).trans rfl
  have hkeep : keepResult (rootResult s v) (joined absent short v s) =
      (joined absent short v s).modFx (CommitSt.keeping (rootResult s v)) := by
    refine keepResult_new fun x hx => ?_
    rw [hresults] at hx
    exact fun h => hnew x hx (h.trans hv)
  unfold dispatchBase
  rw [hp]
  dsimp only
  rw [hroot, hkeep]
  exact mem_drop_last _ _

theorem decideVote_commit (h : s.fx.halt = 0) (h0 : vflag v 0 = false) (h1 : vflag v 1 = false) (h3 : vflag v 3 = false)
    (h6 : vflag v 6 = false) (h7 : vflag v 7 = false) : (decideVote s v).1 = 0 := by
  unfold decideVote
  simp [h, h0, h1, h3, h6, h7]

theorem decideVote_halt (h : vflag v 6 = true) : (decideVote s v).1 = 3 := by
  unfold decideVote
  simp [h]

/-! #### The joined vote itself -/

theorem fn_joinedVote (h : own.fn = s.fx.prev.fn) : (joinedVote s d own).fn = s.fx.prev.fn := by
  refine Eq.trans ?_ ((fn_joined (childVotes s d) own).trans h)
  unfold joinedVote
  dsimp only
  split <;> rfl

theorem voters_joinedVote (s : State) (d : DomainSect) (own : VotePl) :
    (joinedVote s d own).voters = own.voters + sumN ((childVotes s d).map (·.voters)) := by
  refine Eq.trans ?_ (voters_joined (childVotes s d) own)
  unfold joinedVote
  dsimp only
  split <;> rfl

theorem vflag_joinedVote_missing (h : (absentChild s d || shortCount s d own) = true) (hi : i < 8) :
    vflag (joinedVote s d own) i =
      (decide (i = 1) || (decide (i ≠ 4) && decide (i ≠ 5) && vflag ((childVotes s d).foldl joinVotes own) i)) := by
  refine Eq.trans ?_ (vflag_withMissing _ hi)
  unfold joinedVote
  dsimp only
  rw [if_pos h]
  rfl

theorem vflag_joinedVote_complete (h : (absentChild s d || shortCount s d own) = false) (i : Nat) :
    vflag (joinedVote s d own) i = vflag ((childVotes s d).foldl joinVotes own) i := by
  unfold joinedVote
  dsimp only
  rw [h, if_neg (by decide)]
  rfl

theorem missing_iff (s : State) (d : DomainSect) (own : VotePl) : (absentChild s d || shortCount s d own) = true ↔
    (childVotes s d).length ≠ d.children.length ∨
      d.parent = none ∧ own.voters + sumN ((childVotes s d).map (·.voters)) ≠ d.members.length := by
  rw [Bool.or_eq_true, absentChild, shortCount, Bool.and_eq_true, decide_eq_true_eq, decide_eq_true_eq, Option.isNone_iff_eq_none,
    voters_joined]

/-- FAIL, HOLD, SLOW, HALT and LOST are set if any of the votes has them, complete or not. -/
theorem vflag_joinedVote_any (hi : i ∈ [0, 2, 3, 6, 7]) :
    vflag (joinedVote s d own) i = (vflag own i || (childVotes s d).any fun g => vflag g i) := by
  have hany : i ∈ anyFlags := by
    revert i
    decide
  have hmask : i < 8 ∧ i ≠ 1 ∧ i ≠ 4 ∧ i ≠ 5 := by
    revert i
    decide
  obtain ⟨hlt, h1, h4, h5⟩ := hmask
  rw [← vflag_joined_any hany]
  cases h : absentChild s d || shortCount s d own
  · exact vflag_joinedVote_complete h i
  · rw [vflag_joinedVote_missing h hlt, decide_eq_false h1, decide_eq_true h4, decide_eq_true h5, Bool.false_or, Bool.true_and,
      Bool.true_and]

/-! ### The deadline as a whole -/

/-- The state after the deadline. -/
def votedOn (s : State) (d : DomainSect) (own : VotePl) : State :=
  dispatchVote d (joinedVote s d own) (joined (absentChild s d) (shortCount s d own) (joinedVote s d own) s)

/-- The state from which the packets of the deadline leave, and what they leave of it. -/
def votedBase (s : State) (d : DomainSect) (own : VotePl) : State :=
  dispatchBase d (joinedVote s d own) (joined (absentChild s d) (shortCount s d own) (joinedVote s d own) s)

theorem posted_votedOn (s : State) (d : DomainSect) (own : VotePl) : Posted (votedBase s d own) (votedOn s d own) :=
  posted_dispatch _ _ _

theorem fx_votedBase (s : State) (d : DomainSect) (own : VotePl) : (votedBase s d own).fx =
    { (noted (absentChild s d) (shortCount s d own) s).fx with
      sentFor := some s.fx.prev.fn, combined := some (joinedVote s d own),
      results := (votedBase s d own).fx.results, received := (votedBase s d own).fx.received } := by
  have h := congrArg State.fx (dispatchBase_eq d (joinedVote s d own)
    (joined (absentChild s d) (shortCount s d own) (joinedVote s d own) s))
  rwa [fx_joined] at h

theorem regs_votedBase (s : State) (d : DomainSect) (own : VotePl) :
    (votedBase s d own).regs = (noted (absentChild s d) (shortCount s d own) s).regs := by
  rw [votedBase, dispatchBase_eq, joined_regs]

/-- What the deadline leaves as it was. -/
theorem frame_votedOn (s : State) (d : DomainSect) (own : VotePl) : s.sameBytes (votedOn s d own) ∧ (votedOn s d own).cores = s.cores ∧
    (votedOn s d own).tk = s.tk ∧ (votedOn s d own).img = s.img ∧ (votedOn s d own).pending = s.pending := by
  have hp := posted_votedOn s d own
  have hb := dispatchBase_eq d (joinedVote s d own) (joined (absentChild s d) (shortCount s d own) (joinedVote s d own) s)
  have hn := posted_noted (absentChild s d) (shortCount s d own) s
  have hm := marked_eq (absentChild s d) s
  refine ⟨sameBytes_of_mems (hp.mems.trans ?_), hp.cores.trans ?_, hp.tk.trans ?_, hp.img.trans ?_, hp.pending.trans ?_⟩
  · have hmarked : (marked (absentChild s d) s).mems = s.mems := by
      rw [hm]
      rfl
    refine Eq.trans ?_ (hn.mems.trans hmarked)
    rw [votedBase, hb]
    rfl
  · rw [votedBase, hb]
    exact hn.cores.trans (by rw [hm])
  · rw [votedBase, hb]
    exact hn.tk.trans (by rw [hm])
  · rw [votedBase, hb]
    exact hn.img.trans (by rw [hm])
  · rw [votedBase, hb]
    exact hn.pending.trans (by rw [hm])

theorem absent_votedOn (s : State) (d : DomainSect) (own : VotePl) :
    (votedOn s d own).regBit fxSticky 4 = (absentChild s d || s.regBit fxSticky 4) := by
  rw [(posted_votedOn s d own).low _ _ lowBit_absent, ← absent_noted (absentChild s d) (shortCount s d own) s]
  exact regBit_of_reg (State.reg_congr (regs_votedBase s d own) _) 4

theorem fault_votedOn (h : (absentChild s d || shortCount s d own) = true) : (votedOn s d own).fx.cur.fault = true := by
  refine (posted_votedOn s d own).fault ?_
  rw [fx_votedBase]
  exact fault_noted h s

/-- A node sends its joined vote to its parent. -/
theorem votedOn_sends {x : Nat × Nat} (hp : d.parent = some x) (hhop : voteHop s x.1 x.2 = some k) (hs : s.sendsVote k) :
    ∃ q, Out.packet k q ∈ (votedOn s d own).out ∧ q.vote = some (joinedVote s d own) ∧ q.dst = x.1 := by
  have hlinks : (joined (absentChild s d) (shortCount s d own) (joinedVote s d own) s).links = s.links :=
    (State.modFx_links _ _).trans (links_noted _ _ s)
  unfold votedOn dispatchVote
  rw [hp]
  exact voteTo_sent ((voteHop_joined _ _ _ s _ _).trans hhop) (sendsVote_congr hlinks hs) _

theorem cur_votedOn (h : (absentChild s d || shortCount s d own) = false) (hd : s.domain = some d)
    (hways : ∀ x, (d.parent = some x ∨ d.parent = none ∧ x ∈ d.children) → (voteHop s x.1 x.2).isSome = true) :
    (votedOn s d own).fx.cur = s.fx.cur := by
  obtain ⟨ha, hs⟩ : absentChild s d = false ∧ shortCount s d own = false := Bool.or_eq_false_iff.1 h
  have hdomain : (joined (absentChild s d) (shortCount s d own) (joinedVote s d own) s).domain = some d :=
    (domain_congr ((State.modFx_img _ _).trans (img_noted _ _ s))).trans hd
  refine (cur_dispatch hdomain (fun x hx => ?_) _).trans ?_
  · rw [voteHop_joined]
    exact hways x hx
  · rw [fx_joined, ha, hs, noted_none]

/-- Settles O40: the joined vote is formed on the state before, and what records and carries it keeps the bits that it is judged
by. -/
theorem votesAreJoinedUpTheTree : Obligations.VotesAreJoinedUpTheTree := by
  refine ⟨fun s hv hh => ⟨ownVote s, formVote_voting hv, rfl, rfl, vflag_ownVote hh⟩, fun s hv => formVote_not_voting hv,
    fun s i p cw pl d h hd hc hnv hkind hsent hfn => vote_kept h hd hc hnv hkind hsent hfn,
    fun s i p cw pl d h hd hc hnv hkind => vote_late h hd hc hnv hkind,
    fun s i p cw hcome hty hdst hv htag => vote_stale hcome hty hdst hv htag, ?_⟩
  rintro s d own got missing hd hvoting hown hfn hsent rfl hmissing
  have hmiss : missing ↔ (absentChild s d || shortCount s d own) = true := hmissing.trans (missing_iff s d own).symm
  obtain ⟨hbytes, hcores, htk, himg, hpending⟩ := frame_votedOn s d own
  have hexec : exec .voteDeadline s = .next (votedOn s d own) := by
    change answer s (sendVote s) = _
    rw [sendVote_eq hd hvoting hown hfn hsent]
    exact answer_eq hpending
  have hposted := posted_votedOn s d own
  refine ⟨votedOn s d own, joinedVote s d own, hexec, ?_, ?_, fn_joinedVote hfn, fun i hi => vflag_joinedVote_any hi,
    voters_joinedVote s d own, fun hm => ?_, fun hlen => ?_, fun hlen => ?_, fun hm => ?_, fun p k hp hhop hs => votedOn_sends hp hhop hs,
    fun hp hnew => ?_, hbytes, hcores, htk, himg⟩
  · rw [hposted.fx, fx_votedBase]
  · rw [hposted.fx, fx_votedBase]
  · have hm' := hmiss.1 hm
    exact ⟨vflag_joinedVote_missing hm' (i := 1) (by decide), vflag_joinedVote_missing hm' (i := 4) (by decide),
      vflag_joinedVote_missing hm' (i := 5) (by decide), fault_votedOn hm'⟩
  · have habsent : absentChild s d = true := decide_eq_true hlen
    rw [absent_votedOn, habsent, Bool.true_or]
  · have habsent : absentChild s d = false := decide_eq_false (not_not_intro hlen)
    rw [absent_votedOn, habsent, Bool.false_or]
  · have hm' : (absentChild s d || shortCount s d own) = false := by
      rw [← Bool.not_eq_true]
      exact fun h => hm (hmiss.2 h)
    refine ⟨fun i hi => ?_, ?_, fun hways => ?_⟩
    · rw [vflag_joinedVote_complete hm', vflag_joined_all (i := i) hi]
      rfl
    · rw [vflag_joinedVote_complete hm', vflag_joined_any (i := 1) (by decide)]
      rfl
    · rw [cur_votedOn hm' hd hways]
  · refine ⟨rootResult s (joinedVote s d own), ?_, fn_joinedVote hfn, rfl, rfl, rfl,
      fun hh h0 h1 h3 h6 h7 => decideVote_commit hh h0 h1 h3 h6 h7, fun h6 => decideVote_halt h6⟩
    rw [hposted.fx]
    exact root_keeps hp _ _ (fn_joinedVote hfn) hnew

end Sys2Proof.Machine

end

section
/-! PROOFS. Replay and halt (R335, R336), and retirement (R339): statements that fail in states no step reaches, one whose version
table lists a slot twice, and one where a fault-log entry stands for a register that is not in the log. -/

namespace Sys2Proof.Machine

/-- The result of frame 0: REPLAY. -/
def replayResult : VotePl := { fn := 0, kind := 1, flags := 1, actions := 0, attempt := 0, voters := 0, firstFail := 0xFFFF }

/-- Core 0 lists slot 5 twice: first as it stands after reset, behind it with current copy 2. -/
def listsTwice : State :=
  { State.reset with
    cores := [(0, { ({} : Core) with ver := [(5, {}), (5, { cur := 2 })] })]
    fx := { ({} : CommitSt) with received := [replayResult] } }

/-- Refutes O43: a discard drops the entries that equal the reset value from the version tables, so that the entry behind one, of the
same slot, becomes the slot's. -/
theorem not_replayAndHaltDiscardTheOpenFrames : ¬ Obligations.ReplayAndHaltDiscardTheOpenFrames := by
  unfold Obligations.ReplayAndHaltDiscardTheOpenFrames
  rintro ⟨hreplay, -⟩
  obtain ⟨t, ht, -, hver, -⟩ := hreplay listsTwice replayResult {} (by decide +kernel) (by decide) (by decide) (by decide) (by decide +kernel)
  have hcur : (((outcomeOf (exec .voteResultApply listsTwice)).core 0).verOf 5).cur = 2 := by decide +kernel
  rw [outcomeOf_eq ht, (hver 0 5).2.2] at hcur
  exact absurd hcur (by decide +kernel)

/-! ### A retired macro whose loss is logged over its own role -/

/-- The retirement of macro 1 of core 0. -/
def failedMacro : Retire := { unit := 0, die := 0, pcore := 0, index := 1, started := false, entry := 0 }

/-- Macro 1 of core 0, a kept transient, is to be retired, and a word of it cannot be read back; the log entry of that loss stands
for its role. -/
def losesItsRole : State :=
  let s := runningCore [] [(roleA 0 0, 0), (roleA 0 1, 3 + 256)]
  { s with
    img := { s.img with macros := [(0, 2)] }
    err := { s.err with macFlip := [(8192, 3)] }
    fx := { ({} : CommitSt) with
      retires := [failedMacro]
      keys := [loggedAt (roleA 0 1) (macroLoc 1)] } }

/-- Refutes O47: a fault-log entry whose index is out of range stands for a register that is not in the log. Where it stands for the
role of the macro that moves to a spare, the loss of a word (R343) writes its attempt over the spare's number. -/
theorem not_failedUnitsAreRetiredAndReplaced : ¬ Obligations.FailedUnitsAreRetiredAndReplaced := by
  unfold Obligations.FailedUnitsAreRetiredAndReplaced
  rintro ⟨hmacro, -⟩
  obtain ⟨t, ht, -, hmoved, -⟩ := hmacro losesItsRole failedMacro 0 1 2 (by decide +kernel) (by decide +kernel) (by decide +kernel) (by decide +kernel)
    (by decide) (by decide) (by decide) (by decide +kernel) (by decide +kernel) (by decide +kernel)
  have hstray : (outcomeOf (exec (.macroRetirement true) losesItsRole)).pmacro 0 1 = 256 := by decide +kernel
  rw [outcomeOf_eq ht, hmoved] at hstray
  exact absurd hstray (by decide)

end Sys2Proof.Machine

end

section
/-! PROOFS. The online self-test: macro rotation and the core test (R418 to R420). -/

namespace Sys2Proof.Machine

variable {s t u : State} {core lm home spare pm q : Nat}

/-! ### Copies of a range of bytes -/

/-- An entry of a memory in canonical form is what its byte reads as. -/
theorem Mem.get_of_mem {m : Mem} (h : Mem.wf m = true) {e : Nat × Byte} (he : e ∈ m) : Mem.get m e.1 = e.2 := by
  have hsorted := ((SMap.wf_iff memDefault m).1 h).1
  clear h
  induction m with
  | nil => simp at he
  | cons x m ih =>
    obtain ⟨j, v⟩ := x
    obtain ⟨hx, hm⟩ := List.pairwise_cons.1 hsorted
    rw [Mem.get, SMap.get]
    rcases List.mem_cons.1 he with rfl | he
    · exact if_pos rfl
    · have hlt := hx e he
      exact (if_neg (Nat.ne_of_lt hlt)).trans (ih he hm)

/-- A byte without an entry reads as the default. -/
theorem Mem.get_of_not_mem {m : Mem} {a : Nat} (h : ∀ e ∈ m, e.1 ≠ a) : Mem.get m a = memDefault a := by
  induction m with
  | nil => rfl
  | cons x m ih =>
    obtain ⟨j, v⟩ := x
    rw [Mem.get, SMap.get, if_neg (h _ List.mem_cons_self)]
    exact ih fun e he => h e (List.mem_cons_of_mem _ he)

theorem Mem.get_foldSet_other {f : Nat × Byte → Nat} {l : List (Nat × Byte)} {a : Nat} (h : ∀ e ∈ l, f e ≠ a) (m : Mem) :
    Mem.get (l.foldl (fun m e => Mem.set m (f e) e.2) m) a = Mem.get m a := by
  induction l generalizing m with
  | nil => rfl
  | cons x l ih =>
    rw [List.foldl_cons, ih (fun e he => h e (List.mem_cons_of_mem _ he)),
      Mem.get_set_other m x.2 (h x List.mem_cons_self).symm]

theorem Mem.get_foldSet_mem {f : Nat × Byte → Nat} {l : List (Nat × Byte)} (hinj : l.Pairwise fun x y => f x ≠ f y) {e : Nat × Byte}
    (he : e ∈ l) (m : Mem) : Mem.get (l.foldl (fun m e => Mem.set m (f e) e.2) m) (f e) = e.2 := by
  induction l generalizing m with
  | nil => simp at he
  | cons x l ih =>
    obtain ⟨hx, hl⟩ := List.pairwise_cons.1 hinj
    rw [List.foldl_cons]
    rcases List.mem_cons.1 he with rfl | he
    · rw [Mem.get_foldSet_other (fun y hy => (hx y hy).symm), Mem.get_set_self]
    · exact ih hl he _

theorem Mem.get_dropRange {m : Mem} {lo hi a : Nat} : Mem.get (SMap.dropRange m lo hi) a =
    if lo ≤ a ∧ a < hi then memDefault a else Mem.get m a := by
  induction m with
  | nil => simp [SMap.dropRange, Mem.get, SMap.get]
  | cons x m ih =>
    obtain ⟨j, v⟩ := x
    rw [SMap.dropRange, List.filter_cons]
    split
    next hkeep =>
      have hkeep : j < lo ∨ hi ≤ j := by simpa using hkeep
      by_cases hj : j = a
      · have hleft : Mem.get ((j, v) :: SMap.dropRange m lo hi) a = v := if_pos hj
        have hright : Mem.get ((j, v) :: m) a = v := if_pos hj
        exact hleft.trans (by rw [if_neg (by omega), hright])
      · have hleft : Mem.get ((j, v) :: SMap.dropRange m lo hi) a = Mem.get (SMap.dropRange m lo hi) a := if_neg hj
        have hright : Mem.get ((j, v) :: m) a = Mem.get m a := if_neg hj
        exact hleft.trans (by rw [ih, hright])
    next hdrop =>
      have hdrop : ¬ (j < lo ∨ hi ≤ j) := by simpa using hdrop
      refine Eq.trans ih ?_
      by_cases ha : lo ≤ a ∧ a < hi
      · rw [if_pos ha, if_pos ha]
      · have hright : Mem.get ((j, v) :: m) a = Mem.get m a := if_neg (by omega)
        rw [if_neg ha, if_neg ha, hright]

/-- A range that is copied reads as the range that it was copied from; the rest reads as before. -/
theorem Mem.get_copyRange {m : Mem} (h : Mem.wf m = true) (src dst n a : Nat) : Mem.get (Mem.copyRange m src dst n) a =
    if dst ≤ a ∧ a < dst + n then Mem.get m (src + (a - dst)) else Mem.get m a := by
  have hsorted := ((SMap.wf_iff memDefault m).1 h).1
  unfold Mem.copyRange
  extract_lets es
  have hes (e : Nat × Byte) : e ∈ es ↔ e ∈ m ∧ src ≤ e.1 ∧ e.1 < src + n := by
    simp only [es, List.mem_filter, Bool.and_eq_true, decide_eq_true_eq]
  by_cases ha : dst ≤ a ∧ a < dst + n
  · rw [if_pos ha]
    by_cases hin : ∃ e ∈ m, e.1 = src + (a - dst)
    · obtain ⟨e, he, hea⟩ := hin
      have hmem : e ∈ es := (hes e).2 ⟨he, by omega⟩
      have hpair : es.Pairwise fun x y => dst + (x.1 - src) ≠ dst + (y.1 - src) := by
        refine (hsorted.filter _).imp_of_mem fun {x y} hx hy hlt => ?_
        have hx := (hes x).1 hx
        omega
      have hat : dst + (e.1 - src) = a := by omega
      have hget := Mem.get_foldSet_mem (f := fun e => dst + (e.1 - src)) hpair hmem (SMap.dropRange m dst (dst + n))
      rw [hat] at hget
      rw [hget, ← hea, Mem.get_of_mem h he]
    · have hnone : ∀ e ∈ m, e.1 ≠ src + (a - dst) := fun e he heq => hin ⟨e, he, heq⟩
      rw [Mem.get_foldSet_other (f := fun e => dst + (e.1 - src)) (fun e he hea => ?_), Mem.get_dropRange, if_pos ha,
        Mem.get_of_not_mem hnone]
      · rfl
      · have hin := (hes e).1 he
        exact hnone e hin.1 (by omega)
  · rw [if_neg ha, Mem.get_foldSet_other (f := fun e => dst + (e.1 - src)) (fun e he hea => ?_), Mem.get_dropRange, if_neg ha]
    have hin := (hes e).1 he
    omega

/-! ### A copied array (R339, R418) -/

/-- What the copy of an array without an uncorrectable word changes. -/
theorem copyArray_effect {src dst : Nat} (h : badWords s src = []) : copyArray src dst s =
    { s with mac := Mem.copyRange s.mac (src * 32768) (dst * 32768) 32768, scale := (copyArray src dst s).scale,
             ptags := (copyArray src dst s).ptags, err := (copyArray src dst s).err } := by
  unfold copyArray
  extract_lets bad sc s1
  have hbad : bad = [] := h
  rw [hbad, forEach_nil]
  have hscale : forEach sc (fun w t => forEach (List.range 4) (fun i t =>
      let a := dst * 2048 + w.1 * 4 + i
      { t with scale := SMap.set (fun _ => 0) t.scale a (SMap.get (fun _ => 0) t.scale a ^^^ patByte w.2 i) }) t) s1 =
      { s1 with scale := (forEach sc (fun w t => forEach (List.range 4) (fun i t =>
        let a := dst * 2048 + w.1 * 4 + i
        { t with scale := SMap.set (fun _ => 0) t.scale a (SMap.get (fun _ => 0) t.scale a ^^^ patByte w.2 i) }) t) s1).scale } := by
    refine forEach_keeps (fun t => t = { s1 with scale := t.scale }) sc _ (fun w _ t ht => ?_) s1 rfl
    refine forEach_keeps (fun t => t = { s1 with scale := t.scale }) (List.range 4) _ (fun i _ v hv => ?_) t ht
    rw [hv]
  rw [hscale]

theorem mac_copyArray {src dst : Nat} (h : badWords s src = []) (hwf : Mem.wf s.mac = true) :
    (∀ o, o < 32768 → Mem.get (copyArray src dst s).mac (dst * 32768 + o) = Mem.get s.mac (src * 32768 + o)) ∧
    ∀ a, a / 32768 ≠ dst → Mem.get (copyArray src dst s).mac a = Mem.get s.mac a := by
  rw [copyArray_effect h]
  refine ⟨fun o ho => ?_, fun a ha => ?_⟩
  · rw [Mem.get_copyRange hwf, if_pos (by omega), Nat.add_sub_cancel_left]
  · rw [Mem.get_copyRange hwf, if_neg (by omega)]

/-! ### A rotation step (R418) -/

/-- The physical macro that serves a logical one while it is tested. -/
def State.lends (s : State) (core lm n : Nat) : State :=
  s.modBist fun b => { b with pmacroOf := SMap.set (fun _ => 0) b.pmacroOf (core * 256 + lm) n }

theorem pmacro_lends (s : State) (core lm q : Nat) : (s.lends core lm (q + 1)).pmacro core lm = q := by
  have h : SMap.get (fun _ => 0) (s.lends core lm (q + 1)).bist.pmacroOf (core * 256 + lm) = q + 1 := SMap.get_set_self _ _ _ _
  rw [State.pmacro, h]

theorem pmacro_lends_zero (s : State) (core lm : Nat) : (s.lends core lm 0).pmacro core lm = s.regFld (roleA core lm) 8 9 := by
  have h : SMap.get (fun _ => 0) (s.lends core lm 0).bist.pmacroOf (core * 256 + lm) = 0 := SMap.get_set_self _ _ _ _
  rw [State.pmacro, h]
  rfl

/-- The guards under which a rotation step looks for its logical macro. -/
structure Rotates (s : State) (core pm : Nat) : Prop where
  free : (s.core core).rotation = none
  next : rotationNext s core = some pm
  enabled : s.regFld biCtrl 0 16 ≠ 0
  running : dieHeldNow s (core / 64) = false
  offered : s.coreOffered core = true

/-- The logical macro that a physical macro serves (R418). -/
def servedBy (s : State) (core pm : Nat) : Option Nat :=
  (List.range (s.macrosOf core)).find? fun l => s.regFld (roleA core l) 8 9 = pm && s.role core l ≠ 0

theorem rotationStep_unused (h : Rotates s core pm) (hlm : servedBy s core pm = none) : rotationStep core s =
    s.modCore core fun c => { c with rotation := some ⟨pm, none, 0, false, false⟩, nextRot := pm + 1 } := by
  unfold servedBy at hlm
  unfold rotationStep
  rw [h.free, h.next]
  dsimp only
  rw [if_neg (by simp [h.enabled, h.running, h.offered]), hlm]

/-- The state in which the macro is tested, on its spare. -/
def lent (core pm lm q : Nat) (s : State) : State :=
  ((copyArray (s.pcIx core * 264 + pm) (s.pcIx core * 264 + q) (s.modCore core fun c => { c with nextRot := pm + 1 })).lends
    core lm (q + 1)).modCore core fun c => { c with rotation := some ⟨pm, some lm, q, false, false⟩ }

theorem rotationStep_serving (h : Rotates s core pm) (hlm : servedBy s core pm = some lm) (htick : commitTick s = true)
    (hspare : freeSpare s core [] = some q) (hgood : badWords s (s.pcIx core * 264 + pm) = []) :
    rotationStep core s = lent core pm lm q s := by
  have hgood' : badWords (s.modCore core fun c => { c with nextRot := pm + 1 }) (s.pcIx core * 264 + pm) = [] := hgood
  unfold servedBy at hlm
  unfold rotationStep
  rw [h.free, h.next]
  dsimp only
  rw [if_neg (by simp [h.enabled, h.running, h.offered]), hlm]
  dsimp only
  rw [if_neg (by simp [htick]), hspare]
  dsimp only
  rw [hgood', if_neg (by decide)]
  rfl

/-- The core and the array after the step; the rest is as it was. -/
theorem lent_effect (hgood : badWords s (s.pcIx core * 264 + pm) = []) (hwf : Mem.wf s.mac = true) :
    ((lent core pm lm q s).core core).rotation = some ⟨pm, some lm, q, false, false⟩ ∧
    ((lent core pm lm q s).core core).nextRot = pm + 1 ∧ (lent core pm lm q s).pmacro core lm = q ∧
    (∀ o, o < 32768 → Mem.get (lent core pm lm q s).mac ((s.pcIx core * 264 + q) * 32768 + o) =
      Mem.get s.mac ((s.pcIx core * 264 + pm) * 32768 + o)) ∧
    (∀ a, a / 32768 ≠ s.pcIx core * 264 + q → Mem.get (lent core pm lm q s).mac a = Mem.get s.mac a) ∧
    (∀ j, j ≠ core → (lent core pm lm q s).core j = s.core j) ∧ (lent core pm lm q s).hbm = s.hbm ∧ (lent core pm lm q s).spad = s.spad ∧
    s.sameRegs (lent core pm lm q s) [] ∧ (lent core pm lm q s).fx = s.fx ∧ (lent core pm lm q s).img = s.img ∧
    (lent core pm lm q s).tk = s.tk ∧ (lent core pm lm q s).pending = s.pending := by
  have hgood' : badWords (s.modCore core fun c => { c with nextRot := pm + 1 }) (s.pcIx core * 264 + pm) = [] := hgood
  have hcopy := copyArray_effect (dst := s.pcIx core * 264 + q) hgood'
  obtain ⟨hinto, hrest⟩ := mac_copyArray (dst := s.pcIx core * 264 + q) hgood' (s := s.modCore core fun c => { c with nextRot := pm + 1 }) hwf
  unfold lent
  generalize copyArray (s.pcIx core * 264 + pm) (s.pcIx core * 264 + q) (s.modCore core fun c => { c with nextRot := pm + 1 }) = u at *
  have hcore (j : Nat) : ((u.lends core lm (q + 1)).core j) = (s.modCore core fun c => { c with nextRot := pm + 1 }).core j := by
    have hlent : (u.lends core lm (q + 1)).cores = u.cores := State.modBist_cores _ _
    rw [State.core_congr hlent]
    exact State.core_congr (by rw [hcopy]) j
  refine ⟨?_, ?_, ?_, hinto, hrest, fun j hj => ?_, ?_, ?_, ?_, ?_, ?_, ?_, ?_⟩
  · rw [State.core_modCore_self]
  · rw [State.core_modCore_self, hcore, State.core_modCore_self]
  · exact pmacro_lends u core lm q
  · rw [State.core_modCore, if_neg hj, hcore, State.core_modCore, if_neg hj]
  all_goals rw [hcopy]
  · rfl
  · rfl
  · exact fun _ _ => rfl
  · rfl
  · rfl
  · rfl
  · rfl

/-! ### The end of a test (R419) -/

/-- What an online retirement leaves: memories, cores and what is queued. -/
structure OnlineOnly (s t : State) : Prop where
  mems : t.mems = s.mems
  cores : t.cores = s.cores
  bist : t.bist = s.bist
  pending : t.pending = s.pending

theorem onlineOnly_onlineFail (l : Loc) (source : Nat) (s : State) : OnlineOnly s (onlineFail l source s) := by
  unfold onlineFail
  extract_lets i s1 s2
  have h1 : FaultOnly s s1 := faultOnly_newLogEntry (.refl s) _ _ _ _ _
  have h2 : FaultOnly s (pushEvent (event0 s2.fn fxSticky 3 stOK (i + 256 * 2)) (s2.setBit fxSticky 3)) :=
    (((h1.setReg _ _).setReg _ _).setReg _ _).event (eventOnly_pushEvent (.refl _) _)
  exact ⟨by unfold State.mems; rw [raiseFx, h2.eq], by rw [raiseFx, h2.eq], by rw [raiseFx, h2.eq], by rw [raiseFx, h2.eq]⟩

/-- The registers by which an online retirement tells (R419, R420). -/
theorem onlineFail_tells (l : Loc) (source : Nat) (s : State) : (onlineFail l source s).regBit biSticky 3 = true ∧
    (onlineFail l source s).regBit fxSticky 3 = true ∧
    (onlineFail l source s).regFld biCnt 0 16 = min (s.regFld biCnt 0 16 + 1) 0xFFFF := by
  unfold onlineFail
  extract_lets i s1 s2
  have hi : i < 64 := regFld_lt _ _ _ _
  have hlog := regs_newLogEntry 2 l source 0 s.wfn s
  have hev := regs_pushEvent (event0 s2.fn fxSticky 3 stOK (i + 256 * 2)) (s2.setBit fxSticky 3)
  have hcnt : biCnt ∉ logRegs i := by
    simp only [logRegs, eventRegs, List.mem_append, List.mem_cons, List.not_mem_nil, or_false, logA, hubQA, hubA, fxLogHead, fxSticky,
      dpSticky, biCnt]
    omega
  refine ⟨?_, ?_, ?_⟩
  · have hne : biSticky ≠ fxSticky := by decide
    have hne' : biSticky ≠ biCnt := by decide
    refine (regBit_of_reg (hev biSticky (by decide)) 3).trans ?_
    refine (regBit_of_reg (State.reg_setBit_other _ hne 3) 3).trans ?_
    refine (regBit_of_reg (State.reg_addCnt_other _ hne' 0 16 1) 3).trans ?_
    exact State.regBit_setBit_self s1 biSticky (i := 3) (by decide) 3
  · refine (regBit_of_reg (hev fxSticky (by decide)) 3).trans ?_
    exact State.regBit_setBit_self s2 fxSticky (i := 3) (by decide) 3
  · have hne : biCnt ≠ fxSticky := by decide
    have hne' : biCnt ≠ biSticky := by decide
    refine (regFld_of_reg (hev biCnt (by decide)) 0 16).trans ?_
    refine (regFld_of_reg (State.reg_setBit_other _ hne 3) 0 16).trans ?_
    refine (regFld_addCnt_self _ _ _ _ _ (by decide)).trans ?_
    have hsame : (s1.setBit biSticky 3).regFld biCnt 0 16 = s.regFld biCnt 0 16 :=
      (regFld_of_reg (State.reg_setBit_other _ hne' 3) 0 16).trans (regFld_of_reg (hlog biCnt hcnt) 0 16)
    exact congrArg (fun n => min (n + 1) 0xFFFF) hsame

theorem rotationTestDone_passed {r : Rotation} (hr : (s.core core).rotation = some r) (ht : r.tested = false) (hf : r.failed = false)
    (hlm : r.lm = some lm) : rotationTestDone core true s =
    s.modCore core fun c => { c with rotation := some { r with tested := true, failed := false } } := by
  unfold rotationTestDone
  rw [hr]
  dsimp only
  rw [if_neg (by simp [ht, hf]), hlm]
  rfl

theorem rotationTestDone_passed_unused {r : Rotation} (hr : (s.core core).rotation = some r) (ht : r.tested = false)
    (hf : r.failed = false) (hlm : r.lm = none) : rotationTestDone core true s =
    s.modCore core fun c => { c with rotation := none } := by
  unfold rotationTestDone
  rw [hr]
  dsimp only
  rw [if_neg (by simp [ht, hf]), hlm]
  rfl

/-- The retirement that a failed test asks for. -/
def testFails (core : Nat) (r : Rotation) (s : State) : State :=
  onlineFail { unit := 0, die := core / 64, pcore := s.pcore core, index := r.home, det := 0 } 2
    (s.markRetired 0 (s.pcIx core * 264 + r.home))

theorem rotationTestDone_failed {r : Rotation} (hr : (s.core core).rotation = some r) (ht : r.tested = false) (hf : r.failed = false)
    (hlm : r.lm = some lm) : rotationTestDone core false s =
    (testFails core r s).modCore core fun c => { c with rotation := some { r with tested := false, failed := true } } := by
  unfold rotationTestDone
  rw [hr]
  dsimp only
  rw [if_neg (by simp [ht, hf]), hlm]
  rfl

/-- A macro that fails its test is retired, and its rotation says so. -/
theorem failed_effect {r : Rotation} (hr : (s.core core).rotation = some r) (ht : r.tested = false) (hf : r.failed = false)
    (hlm : r.lm = some lm) : ∃ t, exec (.rotationTestDone core false) s = .next t ∧
      (t.core core).rotation = some { r with tested := false, failed := true } ∧
      t.isRetired 0 (s.pcIx core * 264 + r.home) = true ∧ t.regBit biSticky 3 = true ∧ t.regBit fxSticky 3 = true ∧
      t.regFld biCnt 0 16 = min (s.regFld biCnt 0 16 + 1) 0xFFFF ∧ s.sameBytes t ∧ (∀ j, j ≠ core → t.core j = s.core j) := by
  have h := onlineOnly_onlineFail { unit := 0, die := core / 64, pcore := s.pcore core, index := r.home, det := 0 } 2
    (s.markRetired 0 (s.pcIx core * 264 + r.home))
  obtain ⟨hbi, hfx, hcnt⟩ := onlineFail_tells { unit := 0, die := core / 64, pcore := s.pcore core, index := r.home, det := 0 } 2
    (s.markRetired 0 (s.pcIx core * 264 + r.home))
  have hretired := isRetired_markRetired_self s 0 (s.pcIx core * 264 + r.home)
  have hexec : exec (.rotationTestDone core false) s = answer s (rotationTestDone core false s) := rfl
  rw [rotationTestDone_failed hr ht hf hlm, testFails] at hexec
  generalize onlineFail { unit := 0, die := core / 64, pcore := s.pcore core, index := r.home, det := 0 } 2
    (s.markRetired 0 (s.pcIx core * 264 + r.home)) = u at *
  refine ⟨_, hexec.trans (answer_eq ?_), ?_, ?_, hbi, hfx, hcnt, sameBytes_of_mems ?_, fun j hj => ?_⟩
  · exact h.pending
  · rw [State.core_modCore_self]
  · unfold State.isRetired at hretired ⊢
    rw [State.modCore_bist, h.bist]
    exact hretired
  · exact h.mems
  · rw [State.core_modCore, if_neg hj]
    exact State.core_congr h.cores j

/-! ### The way back (R418, R419) -/

/-- A rotation step that ends: the spare is free again. -/
theorem endRotation_some {r : Rotation} (hr : (s.core core).rotation = some r) (hlm : r.lm = some lm) :
    endRotation core s = (s.modCore core fun c => { c with rotation := none }).lends core lm 0 := by
  unfold endRotation
  extract_lets rot t
  have hrot : rot.bind (·.lm) = some lm := by rw [show rot = some r from hr]; exact hlm
  rw [hrot]
  rfl

/-- After a passed test the contents go back. -/
theorem rotationCopyBack_passed (hr : (s.core core).rotation = some ⟨home, some lm, spare, true, false⟩) (htick : commitTick s = true)
    (hgood : badWords s (s.pcIx core * 264 + spare) = []) : rotationCopyBack core s =
    ((copyArray (s.pcIx core * 264 + spare) (s.pcIx core * 264 + home) s).modCore core fun c => { c with rotation := none }).lends core lm 0 := by
  have hcore : ((copyArray (s.pcIx core * 264 + spare) (s.pcIx core * 264 + home) s).core core).rotation =
      some ⟨home, some lm, spare, true, false⟩ := by
    have hcores : (copyArray (s.pcIx core * 264 + spare) (s.pcIx core * 264 + home) s).cores = s.cores := by rw [copyArray_effect hgood]
    rw [State.core_congr hcores, hr]
  unfold rotationCopyBack
  rw [hr]
  dsimp only
  rw [if_neg (by simp [htick]), if_neg (by decide), hgood, List.isEmpty_nil, Bool.not_true, whenS_false]
  exact endRotation_some hcore rfl

/-- After a failed test the spare keeps them. -/
theorem rotationCopyBack_failed (hr : (s.core core).rotation = some ⟨home, some lm, spare, false, true⟩) (htick : commitTick s = true) :
    rotationCopyBack core s = setPmacro core lm spare ((s.modCore core fun c => { c with rotation := none }).lends core lm 0) := by
  unfold rotationCopyBack
  rw [hr]
  dsimp only
  rw [if_neg (by simp [htick]), if_pos rfl]
  exact congrArg _ (endRotation_some hr rfl)

theorem passed_goes_back (hr : (s.core core).rotation = some ⟨home, some lm, spare, true, false⟩) (htick : commitTick s = true)
    (hwf : Mem.wf s.mac = true) (hgood : badWords s (s.pcIx core * 264 + spare) = []) :
    ∃ t, exec (.rotationCopyBack core) s = .next t ∧ (t.core core).rotation = none ∧ t.pmacro core lm = s.regFld (roleA core lm) 8 9 ∧
      (∀ o, o < 32768 →
        Mem.get t.mac ((s.pcIx core * 264 + home) * 32768 + o) = Mem.get s.mac ((s.pcIx core * 264 + spare) * 32768 + o)) ∧
      (∀ a, a / 32768 ≠ s.pcIx core * 264 + home → Mem.get t.mac a = Mem.get s.mac a) ∧ t.hbm = s.hbm ∧ t.spad = s.spad ∧
      s.sameRegs t [] ∧ (∀ j, j ≠ core → t.core j = s.core j) := by
  have hcopy := copyArray_effect (dst := s.pcIx core * 264 + home) hgood
  obtain ⟨hinto, hrest⟩ := mac_copyArray (dst := s.pcIx core * 264 + home) hgood hwf
  have hexec : exec (.rotationCopyBack core) s = answer s (rotationCopyBack core s) := rfl
  rw [rotationCopyBack_passed hr htick hgood] at hexec
  generalize copyArray (s.pcIx core * 264 + spare) (s.pcIx core * 264 + home) s = u at *
  have hcore (j : Nat) : u.core j = s.core j := State.core_congr (by rw [hcopy]) j
  have hregs : u.regs = s.regs := by rw [hcopy]
  have hlent (v : State) : (v.lends core lm 0).cores = v.cores := State.modBist_cores _ _
  refine ⟨_, hexec.trans (answer_eq ?_), ?_, ?_, hinto, hrest, ?_, ?_, fun a _ => State.reg_congr hregs a, fun j hj => ?_⟩
  · change u.pending = s.pending
    rw [hcopy]
  · rw [State.core_congr (hlent _), State.core_modCore_self]
  · rw [pmacro_lends_zero]
    exact regFld_of_reg (State.reg_congr hregs _) 8 9
  · change u.hbm = s.hbm
    rw [hcopy]
  · change u.spad = s.spad
    rw [hcopy]
  · rw [State.core_congr (hlent _), State.core_modCore, if_neg hj, hcore]

theorem failed_keeps_spare (hr : (s.core core).rotation = some ⟨home, some lm, spare, false, true⟩) (htick : commitTick s = true)
    (hspare : spare < 512) :
    ∃ t, exec (.rotationCopyBack core) s = .next t ∧ (t.core core).rotation = none ∧ t.regFld (roleA core lm) 8 9 = spare ∧
      t.pmacro core lm = spare ∧ s.sameBytes t ∧ s.sameRegs t [roleA core lm] ∧ (∀ j, j ≠ core → t.core j = s.core j) := by
  have hexec : exec (.rotationCopyBack core) s = answer s (rotationCopyBack core s) := rfl
  rw [rotationCopyBack_failed hr htick] at hexec
  have hlent (v : State) : (v.lends core lm 0).cores = v.cores := State.modBist_cores _ _
  have hfld (v : State) : (setPmacro core lm spare v).regFld (roleA core lm) 8 9 = spare := by
    rw [setPmacro, State.regFld_setFld_self _ _ _ _ _ (by decide)]
    exact Nat.mod_eq_of_lt hspare
  have hcores (v : State) : (setPmacro core lm spare v).cores = v.cores := State.setFld_cores _ _ _ _ _
  refine ⟨_, hexec.trans (answer_eq rfl), ?_, hfld _, ?_, fun _ => ⟨rfl, rfl, rfl, rfl⟩, ?_, fun j hj => ?_⟩
  · rw [State.core_congr (hcores _), State.core_congr (hlent _), State.core_modCore_self]
  · have hzero : SMap.get (fun _ => 0) (setPmacro core lm spare ((s.modCore core fun c => { c with rotation := none }).lends
        core lm 0)).bist.pmacroOf (core * 256 + lm) = 0 := SMap.get_set_self _ _ _ _
    rw [State.pmacro, hzero]
    exact hfld _
  · exact sameRegs_setFld (sameRegs_of_regs (sameRegs_refl s _) rfl) 8 9 spare (List.mem_singleton_self _)
  · rw [State.core_congr (hcores _), State.core_congr (hlent _), State.core_modCore, if_neg hj]

/-! ### The core test (R420) -/

/-- A test that ends. -/
def endsTest (die : Nat) (s : State) : State := s.modBist fun b => { b with coreTest := b.coreTest.set die none }

/-- What the replacement of a core without its contents leaves: memories, what was retired, and what the self-test has told. -/
structure Replaced (s t : State) : Prop where
  mems : t.mems = s.mems
  retired : ∀ b k, s.isRetired b k = true → t.isRetired b k = true
  told : s.regBit biSticky 3 = true → t.regBit biSticky 3 = true
  tests : ∀ d, nth none s.bist.coreTest d = none → nth none t.bist.coreTest d = none
  pending : t.pending = s.pending

theorem Replaced.refl (s : State) : Replaced s s := ⟨rfl, fun _ _ => id, id, fun _ => id, rfl⟩

theorem Replaced.trans (h : Replaced s t) (k : Replaced t u) : Replaced s u :=
  ⟨k.mems.trans h.mems, fun b i hr => k.retired b i (h.retired b i hr), fun hb => k.told (h.told hb), fun d hd => k.tests d (h.tests d hd),
    k.pending.trans h.pending⟩

theorem coreA_ne_biSticky (blk core off : Nat) : biSticky ≠ coreA blk core off := by
  simp only [biSticky, coreA, dieA, hubA]
  omega

theorem Replaced.setReg (h : Replaced s t) {a : Nat} (ha : biSticky ≠ a) (v : Word) : Replaced s (t.setReg a v) :=
  h.trans ⟨rfl, fun _ _ => id, fun hb => (regBit_of_reg (State.reg_setReg_other t v ha) 3).trans hb, fun _ => id, rfl⟩

theorem Replaced.coreReg (h : Replaced s t) (blk core off : Nat) (v : Word) : Replaced s (t.setReg (coreA blk core off) v) :=
  h.setReg (coreA_ne_biSticky blk core off) v

theorem Replaced.modCore (h : Replaced s t) (i : Nat) (f : Core → Core) : Replaced s (t.modCore i f) :=
  h.trans ⟨rfl, fun _ _ => id, id, fun _ => id, rfl⟩

theorem Replaced.modImg (h : Replaced s t) (f : ImageSt → ImageSt) : Replaced s (t.modImg f) :=
  h.trans ⟨rfl, fun _ _ => id, id, fun _ => id, rfl⟩

theorem Replaced.modFx (h : Replaced s t) (f : CommitSt → CommitSt) : Replaced s (t.modFx f) :=
  h.trans ⟨rfl, fun _ _ => id, id, fun _ => id, rfl⟩

theorem Replaced.modBist (h : Replaced s t) {f : TestSt → TestSt} (hr : (f t.bist).retired = t.bist.retired)
    (ht : ∀ d, nth none t.bist.coreTest d = none → nth none (f t.bist).coreTest d = none) : Replaced s (t.modBist f) := by
  refine h.trans ⟨rfl, fun b k hk => ?_, id, ht, rfl⟩
  unfold State.isRetired at hk ⊢
  rw [State.modBist_bist, hr]
  exact hk

theorem Replaced.pushEvent (h : Replaced s t) (e : Event) : Replaced s (pushEvent e t) := by
  have k := eventOnly_pushEvent (.refl t) e
  refine h.trans ⟨?_, fun b i hr => ?_, fun hb => ?_, fun d hd => ?_, k.pending⟩
  · unfold State.mems
    rw [k.hbm, k.spad, k.mac, k.scale]
  · unfold State.isRetired at hr ⊢
    rwa [k.bist]
  · exact (regBit_of_reg (regs_pushEvent e t biSticky (by decide)) 3).trans hb
  · rwa [k.bist]

theorem Replaced.whenS (b : Bool) {f : State → State} (hf : ∀ u, Replaced s u → Replaced s (f u)) (h : Replaced s t) :
    Replaced s (whenS b f t) := by
  cases b
  · exact h
  · exact hf t h

theorem Replaced.forEach {α : Type} (l : List α) {f : α → State → State} (hf : ∀ x u, Replaced s u → Replaced s (f x u))
    (h : Replaced s t) : Replaced s (forEach l f t) := forEach_keeps (Replaced s) l f (fun x _ => hf x) t h

theorem replaced_capacityChanged (h : Replaced s t) (status : Nat) : Replaced s (capacityChanged status t) :=
  Replaced.whenS _ (fun _ k => k.modFx _) (((h.setReg (by decide) _).modImg _).pushEvent _)

theorem replaced_endRotation (h : Replaced s t) (core : Nat) : Replaced s (endRotation core t) := by
  unfold endRotation
  dsimp only
  split
  · exact h.modCore _ _
  · exact (h.modCore _ _).modBist rfl fun _ => id

theorem replaced_loadSpad (h : Replaced s t) (core : Nat) (banks : Bool) (g : CoreSect) : Replaced s (loadSpad core banks g t) := by
  unfold loadSpad
  extract_lets p s1 s2 pwr s3
  have h1 : Replaced s s1 := Replaced.forEach _ (fun _ _ k => (k.coreReg _ _ _ _).coreReg _ _ _ _) h
  have h3 : Replaced s s3 := (h1.coreReg _ _ _ _).coreReg _ _ _ _
  split
  · exact (h3.coreReg _ _ _ _).coreReg _ _ _ _
  · exact h3

theorem replaced_loadToken (h : Replaced s t) (core : Nat) (g : CoreSect) : Replaced s (loadToken core g t) := by
  unfold loadToken
  extract_lets k s1 s2
  have h2 : Replaced s s2 := (h.coreReg _ _ _ _).modCore _ _
  refine Replaced.forEach _ (fun q u ku => ?_) h2
  dsimp only
  split
  · exact ku
  · exact ku.coreReg _ _ _ _

theorem replaced_setBanks (h : Replaced s t) (core : Nat) : Replaced s (setBanks core t) := by
  unfold setBanks
  dsimp only
  split
  · exact h
  · exact h.modCore _ _

theorem replaced_reloadRegs (h : Replaced s t) (core : Nat) : Replaced s (reloadRegs core t) := by
  unfold reloadRegs
  split
  · exact h
  · exact replaced_setBanks ((replaced_loadToken (replaced_loadSpad h _ _ _) _ _).coreReg _ _ _ _) _

theorem replaced_moveCore (h : Replaced s t) (core new : Nat) : Replaced s (moveCore core new false t) := by
  unfold moveCore
  extract_lets s1 old nix n oldPm usable s2 s3 s4 s5 s6
  have h1 : Replaced s s1 := replaced_endRotation h core
  have h2 : Replaced s s2 := h1
  have h3 : Replaced s s3 := h2.modBist rfl fun _ => id
  have h4 : Replaced s s4 := Replaced.forEach _ (fun _ _ k => k.coreReg _ _ _ _) h3
  have h5 : Replaced s s5 := Replaced.whenS _ (fun _ k => replaced_capacityChanged (k.modImg _) _) h4
  exact replaced_reloadRegs (h5.modCore _ _) core

theorem nth_set_none {l : List (Option Nat)} {i d : Nat} (h : nth none l d = none) : nth none (l.set i none) d = none := by
  unfold nth at h ⊢
  rw [List.getD_eq_getElem?_getD] at h ⊢
  rw [List.getElem?_set]
  split
  · split
    · rfl
    · rfl
  · exact h

theorem replaced_abortCoreTest (h : Replaced s t) (die pcore : Nat) : Replaced s (abortCoreTest die pcore t) := by
  unfold abortCoreTest
  split
  · refine (h.modBist (f := fun b => { b with coreTest := b.coreTest.set die none }) rfl fun _ => nth_set_none).trans
      ⟨rfl, fun _ _ => id, fun hb => ?_, fun _ => id, rfl⟩
    exact (State.regBit_setBit_self _ biSticky (i := 6) (by decide) 3).trans (by rw [hb, Bool.or_true])
  · exact h

theorem replaced_replaceCore (h : Replaced s t) (die pcore : Nat) : Replaced s (replaceCore die pcore false t) := by
  unfold replaceCore
  split
  · exact h
  · split
    · exact replaced_moveCore (replaced_abortCoreTest h _ _) _ _
    · dsimp only
      have hlost : Replaced s (loseCore die t) := replaced_capacityChanged (h.modImg _) _
      split
      · exact hlost
      · exact replaced_moveCore hlost _ _

/-! #### The ends of a test -/

variable {die p : Nat}

theorem coreTest_starts (hdie : die < 12) (hlen : s.bist.coreTest.length = 12) (hnone : nth none s.bist.coreTest die = none)
    (hon : s.regBit biCtrl 16 = true) (hheld : dieHeldNow s die = false) (hnext : coreTestNext s die = some p) :
    ∃ t, exec (.coreTest die .start) s = .next t ∧ nth none t.bist.coreTest die = some p ∧
      t = { s with bist := { s.bist with coreTest := t.bist.coreTest, coreNext := t.bist.coreNext } } := by
  have htest : coreTest die .start s = s.modBist fun b =>
      { b with coreTest := b.coreTest.set die (some p), coreNext := b.coreNext.set die (p + 1) } := by
    unfold coreTest
    rw [hnone]
    dsimp only
    rw [if_neg (by simp [hon, hheld, hdie]), hnext]
  refine ⟨_, (congrArg (answer s) htest).trans (answer_eq rfl), ?_, rfl⟩
  exact (nth_set none _ die die _ (by omega)).trans (if_pos rfl)

theorem coreTest_passes (hdie : die < 12) (hlen : s.bist.coreTest.length = 12) (hp : nth none s.bist.coreTest die = some p) :
    ∃ t, exec (.coreTest die .pass) s = .next t ∧ nth none t.bist.coreTest die = none ∧
      t = { s with bist := { s.bist with coreTest := t.bist.coreTest } } := by
  have htest : coreTest die .pass s = endsTest die s := by
    unfold coreTest
    rw [hp]
    rfl
  refine ⟨_, (congrArg (answer s) htest).trans (answer_eq rfl), ?_, rfl⟩
  exact (nth_set none _ die die _ (by omega)).trans (if_pos rfl)

theorem coreTest_aborts (hdie : die < 12) (hlen : s.bist.coreTest.length = 12) (hp : nth none s.bist.coreTest die = some p) :
    ∃ t, exec (.coreTest die .abort) s = .next t ∧ nth none t.bist.coreTest die = none ∧ t.regBit biSticky 6 = true ∧
      t = { s with bist := { s.bist with coreTest := t.bist.coreTest }, regs := t.regs } ∧ s.sameRegs t [biSticky] := by
  have htest : coreTest die .abort s = (endsTest die s).setBit biSticky 6 := by
    unfold coreTest
    rw [hp]
    exact if_pos hp
  refine ⟨_, (congrArg (answer s) htest).trans (answer_eq rfl), ?_, State.regBit_setBit_self _ biSticky (i := 6) (by decide) 6, rfl, ?_⟩
  · exact (nth_set none _ die die _ (by omega)).trans (if_pos rfl)
  · exact sameRegs_setBit (sameRegs_of_regs (sameRegs_refl s _) rfl) 6 (List.mem_singleton_self _)

theorem coreTest_fails (hdie : die < 12) (hlen : s.bist.coreTest.length = 12) (hp : nth none s.bist.coreTest die = some p) :
    ∃ t, exec (.coreTest die .fail) s = .next t ∧ nth none t.bist.coreTest die = none ∧ t.isRetired 26144 (die * 66 + p) = true ∧
      t.regBit biSticky 3 = true ∧ t.hbm = s.hbm ∧ t.mac = s.mac ∧ t.spad = s.spad := by
  have htest : coreTest die .fail s = replaceCore die p false (onlineFail { unit := 1, die := die, pcore := p, index := 0, det := 0 } 3
      ((endsTest die s).markRetired 26144 (die * 66 + p))) := by
    unfold coreTest
    rw [hp]
    rfl
  have h := onlineOnly_onlineFail { unit := 1, die := die, pcore := p, index := 0, det := 0 } 3
    ((endsTest die s).markRetired 26144 (die * 66 + p))
  have htold := (onlineFail_tells { unit := 1, die := die, pcore := p, index := 0, det := 0 } 3
    ((endsTest die s).markRetired 26144 (die * 66 + p))).1
  have hretired := isRetired_markRetired_self (endsTest die s) 26144 (die * 66 + p)
  have hended : nth none ((endsTest die s).markRetired 26144 (die * 66 + p)).bist.coreTest die = none :=
    (nth_set none s.bist.coreTest die die none (by omega)).trans (if_pos rfl)
  generalize onlineFail { unit := 1, die := die, pcore := p, index := 0, det := 0 } 3
    ((endsTest die s).markRetired 26144 (die * 66 + p)) = u at *
  have hr := replaced_replaceCore (.refl u) die p
  have hmems : (replaceCore die p false u).mems = s.mems := hr.mems.trans h.mems
  obtain ⟨hhbm, hspad, hmac, -⟩ : (replaceCore die p false u).hbm = s.hbm ∧ (replaceCore die p false u).spad = s.spad ∧
      (replaceCore die p false u).mac = s.mac ∧ (replaceCore die p false u).scale = s.scale := by simpa [State.mems] using hmems
  refine ⟨_, (congrArg (answer s) htest).trans (answer_eq (hr.pending.trans h.pending)), hr.tests die ?_, hr.retired _ _ ?_,
    hr.told htold, hhbm, hmac, hspad⟩
  · rw [h.bist]
    exact hended
  · unfold State.isRetired at hretired ⊢
    rw [h.bist]
    exact hretired

/-- Settles O48: each step of a rotation and of a core test, by the state that it leaves. -/
theorem macrosRotateAndCoresAreTested : Obligations.MacrosRotateAndCoresAreTested := by
  refine ⟨fun s core pm lm q hfree hnext hen hrun hoff hwf hlm htick hq hgood => ?_, fun s core pm hfree hnext hen hrun hoff hlm => ?_,
    fun s core lm r hr ht hf hlm => ⟨?_, failed_effect hr ht hf hlm⟩, fun s core r hr ht hf hlm => ?_,
    fun s core lm home spare hr htick hwf hgood => passed_goes_back hr htick hwf hgood,
    fun s core lm home spare hr htick hsp => failed_keeps_spare hr htick hsp,
    fun s die p hdie hlen hnone hon hheld hnext => coreTest_starts hdie hlen hnone hon hheld hnext,
    fun s die p hdie hlen hp => ⟨coreTest_passes hdie hlen hp, coreTest_aborts hdie hlen hp, coreTest_fails hdie hlen hp⟩⟩
  · obtain ⟨h1, h2, h3, h4, h5, h6, h7, h8, h9, h10, h11, h12, h13⟩ := lent_effect (lm := lm) (q := q) hgood hwf
    have hexec : exec (.rotationStep core) s = .next (lent core pm lm q s) := by
      change answer s (rotationStep core s) = _
      rw [rotationStep_serving ⟨hfree, hnext, hen, hrun, hoff⟩ hlm htick hq hgood]
      exact answer_eq h13
    exact ⟨_, hexec, h1, h2, h3, h4, h5, h6, h7, h8, h9, h10, h11, h12⟩
  · exact (congrArg (answer s) (rotationStep_unused ⟨hfree, hnext, hen, hrun, hoff⟩ hlm)).trans (answer_eq rfl)
  · exact (congrArg (answer s) (rotationTestDone_passed hr ht hf hlm)).trans (answer_eq rfl)
  · exact (congrArg (answer s) (rotationTestDone_passed_unused hr ht hf hlm)).trans (answer_eq rfl)

end Sys2Proof.Machine

end

section
/-! PROOFS. The seif nodes: the output of a full node and the fold of a long sum (R134, R135, R138, R140). -/

namespace Sys2Proof.Machine

variable {s t u : State} {node n : NodeId} {core seq i d : Nat} {k j : ElemKey} {a : Acc} {r : Reduction} {op : Op}

/-! ### What the programs and placements of the cores give -/

/-- The parts that say which cores hold terms of an element are as they were: registers, image, scratchpads, the cores' physical
places, programs and descriptors. -/
structure SameCode (s t : State) : Prop where
  regs : t.regs = s.regs
  img : t.img = s.img
  spad : t.spad = s.spad
  bist : t.bist = s.bist
  prog : ∀ j, (t.core j).prog = (s.core j).prog
  desc : ∀ j, (t.core j).desc = (s.core j).desc

theorem sameCode_setNode (s : State) (n : NodeId) (x : Node) : SameCode s (s.setNode n x) := by
  cases n with
  | core c =>
    refine ⟨rfl, rfl, rfl, rfl, fun j => ?_, fun j => ?_⟩
    all_goals
      rw [State.setNode, State.core_modCore]
      split
      · next h => rw [h]
      · rfl
  | die d => exact ⟨rfl, rfl, rfl, rfl, fun _ => rfl, fun _ => rfl⟩
  | hub => exact ⟨rfl, rfl, rfl, rfl, fun _ => rfl, fun _ => rfl⟩

theorem contentOf_congr (h : t.img = s.img) (core : Nat) : t.contentOf core = s.contentOf core := by
  have hg : groupOf t core = groupOf s core := by unfold groupOf; rw [image_congr h]
  unfold State.contentOf State.slotContent
  rw [hg, image_congr h, h]

theorem instrAt_congr (h : SameCode s t) (core seq : Nat) : instrAt t core seq = instrAt s core seq := by
  have hpc : t.pcIx core = s.pcIx core := by unfold State.pcIx State.pcore; rw [h.bist]
  have hcode (task q : Nat) : codeOffset t core task q = codeOffset s core task q := by
    unfold codeOffset
    rw [State.reg_congr h.regs]
  unfold instrAt
  simp only [h.prog, h.spad, hpc, hcode]

theorem destReduction_congr (h : t.img = s.img) (core seq : Nat) : destReduction t core seq = destReduction s core seq := by
  unfold destReduction
  rw [contentOf_congr h]

theorem elemReduction_congr (h : t.img = s.img) (k : ElemKey) : elemReduction t k = elemReduction s k := destReduction_congr h _ _

theorem moduleId_of_regs (h : t.regs = s.regs) : t.moduleId = s.moduleId := regFld_of_reg (State.reg_congr h _) 0 14

theorem rootOf_congr (h : t.regs = s.regs) (r : Reduction) : rootOf t r = rootOf s r := by
  unfold rootOf
  rw [moduleId_of_regs h]

theorem chansAt_congr (h : t.regs = s.regs) (core : Nat) (d : BitVec 512) : chansAt t core d = chansAt s core d :=
  congrArg chansOf (regFld_of_reg (State.reg_congr h _) 3 2)

theorem memberHolds_congr (h : SameCode s t) (core seq : Nat) (e : Ext) (n : Nat) :
    memberHolds t core seq e n = memberHolds s core seq e n := by
  have hfmt (lm : Nat) : t.mfmt core lm = s.mfmt core lm := regFld_of_reg (State.reg_congr h.regs _) 3 2
  have htd (i : Nat) : (t.core core).td i = (s.core core).td i := by unfold Core.td; rw [h.desc]
  unfold memberHolds
  simp only [instrAt_congr h, htd, hfmt]

theorem holders_congr (h : SameCode s t) (r : Reduction) (e : Ext) (n : Nat) : holders t r e n = holders s r e n := by
  unfold holders
  simp only [memberHolds_congr h]

theorem accumPair_congr (h : SameCode s t) (r : Reduction) (x y : Option NodeId) : accumPair t r x y = accumPair s r x y := by
  unfold accumPair
  simp only [instrAt_congr h]

theorem dieExpects_congr (h : SameCode s t) (r : Reduction) (e : Ext) (n d : Nat) : dieExpects t r e n d = dieExpects s r e n d := by
  unfold dieExpects
  rw [holders_congr h, accumPair_congr h, rootOf_congr h.regs]

theorem corePos_congr (h : SameCode s t) (r : Reduction) (core : Nat) : corePos t r core = corePos s r core := by
  unfold corePos
  rw [accumPair_congr h, rootOf_congr h.regs]

theorem hubExpects_congr (h : SameCode s t) (r : Reduction) (e : Ext) (n : Nat) : hubExpects t r e n = hubExpects s r e n := by
  unfold hubExpects
  rw [holders_congr h, accumPair_congr h, rootOf_congr h.regs]

theorem rowWidth_congr (h : t.regs = s.regs) (core : Nat) (op : Op) : rowWidth t core op = rowWidth s core op := by
  unfold rowWidth shareWidth
  simp only [chansAt_congr h]

/-! ### The pair leaves its node (R135, R137) -/

theorem Acc.wrong_zero (md : Word) (a : Acc) : a.wrong 0 md = a := if_pos rfl

/-- A pair that did not overflow leaves a node where no input waits. -/
theorem takePair_quiet (hw : (s.node n).waits = []) (hovf : a.out.2.2.2 = false) :
    takePair n a s = s.setNode n ((s.node n).drop a.key) := by
  unfold takePair
  have hretry : retryWaits n (s.setNode n ((s.node n).drop a.key)) = s.setNode n ((s.node n).drop a.key) := by
    unfold retryWaits
    rw [node_setNode_self]
    exact if_pos (by rw [Node.drop, hw]; rfl)
  rw [hretry, hovf]
  rfl

theorem unitErrOf_setNode (s : State) (n : NodeId) (x : Node) (v : Nat) : unitErrOf (s.setNode n x) v = unitErrOf s v := by
  cases n <;> rfl

theorem netFlipOf_setNode (s : State) (n : NodeId) (x : Node) (v : Nat) : netFlipOf (s.setNode n x) v = netFlipOf s v := by
  cases n <;> rfl

theorem key_of_find {x : Node} (h : x.find k = some a) : a.key = k := by
  have hk := List.find?_some h
  exact of_decide_eq_true hk

/-- A full node whose units are right, whose pair did not overflow and where no input waits passes its pair on. -/
theorem nodeOutput_full (hf : (s.node n).find k = some a) (hfull : a.full = true) (hcan : canDeliver s n (elemReduction s k) k = true)
    (hovf : a.out.2.2.2 = false) (hw : (s.node n).waits = []) (hunit : unitErrOf s (nodeUnit n) = 0) :
    nodeOutput n k s = passOn n (elemReduction s k) a (s.setNode n ((s.node n).drop k)) := by
  have hkey := key_of_find hf
  unfold nodeOutput
  rw [hf]
  dsimp only
  rw [hunit, Acc.wrong_zero, hfull, hcan, Bool.and_self, if_pos rfl, takePair_quiet hw hovf, unitCheck,
    if_pos (by rw [unitErrOf_setNode, hunit]), hkey]

theorem nodeOutput_short (hf : (s.node n).find k = some a) (hfull : a.full = false) : nodeOutput n k s = s := by
  unfold nodeOutput
  rw [hf]
  exact if_neg (by simp [hfull])

theorem exec_seifNodeOutput (h : nodeOutput n k s = t) (hp : t.pending = s.pending) : exec (.seifNodeOutput n k) s = .next t :=
  (congrArg (answer s) h).trans (answer_eq hp)

/-! ### The pair enters the node above (R134, R136) -/

theorem netWord_clean (h : netFlipOf s d = 0) : netWord d s = s := if_pos h

theorem pathMd_zero : pathMd 0 = 0 := by decide

theorem passOn_core (hroot : rootOf s r ≠ some (.core i)) (hflip : netFlipOf s (i / 64) = 0) :
    passOn (.core i) (some r) a s =
      enterNode (.die (i / 64)) (upward a (dieExpects s r a.ext a.key.n (i / 64)) (corePos s r i) 0) s := by
  unfold passOn
  dsimp only
  rw [hflip, pathMd_zero, netWord_clean hflip]
  exact if_neg hroot

theorem passOn_die (hroot : rootOf s r = some .hub) (hflip : netFlipOf s 12 = 0) :
    passOn (.die d) (some r) a s = enterNode .hub (upward a (hubExpects s r a.ext a.key.n) (diePos r d) 0) s := by
  unfold passOn
  dsimp only
  rw [hflip, pathMd_zero, netWord_clean hflip]
  have hne : rootOf s r ≠ some (.die d) := by rw [hroot]; exact fun h => NodeId.noConfusion (Option.some.inj h)
  exact (if_neg hne).trans (if_pos hroot)

/-- What an element's accumulator is after one good input of a sum (R136). -/
structure OneMore (x : Node) (i : NodeIn) (b : Acc) : Prop where
  key : b.key = i.key
  expected : b.expected = ((x.find i.key).map (·.expected)).getD i.expected
  received : b.received = ((x.find i.key).map (·.received)).getD 0 + 1
  sum : sumI (b.segs.map (·.sum)) = ((x.find i.key).map fun c => sumI (c.segs.map (·.sum))).getD 0 + pairInt i.hi i.lo

/-- A good input of a sum that need not wait is added, and nothing else happens. -/
theorem enterNode_good {v : NodeIn} (hop : v.op = 0) (hbad : v.bad = false) (hw : nodeWaits n (s.node n) v = false) :
    ∃ b, enterNode n v s = s.setNode n ((s.node n).put b) ∧ OneMore (s.node n) v b := by
  have hnote : noteInput n v s = s := by rw [noteInput, hbad]; rfl
  have hadds : v.adds = pairInt v.hi v.lo := by rw [NodeIn.adds, hbad]; rfl
  refine ⟨(((s.node n).find v.key).getD v.opens).add v, ?_, key_accOf _ _, ?_, ?_, ?_⟩
  · rw [enterNode_added hw, addInput_eq, hnote]
  · cases (s.node n).find v.key <;> rfl
  · cases (s.node n).find v.key <;> rfl
  · rw [sum_segs_add hop, hadds]
    cases (s.node n).find v.key <;> rfl

/-- A node below gives up its accumulator, and the pair enters the node above: what the two nodes then hold. -/
theorem pair_goesUp {lower upper : NodeId} {v : NodeIn} (hne : upper ≠ lower) (hkey : v.key = k) (hop : v.op = 0) (hbad : v.bad = false)
    (hw : nodeWaits upper (s.node upper) v = false) :
    ∃ b, enterNode upper v (s.setNode lower ((s.node lower).drop k)) =
        (s.setNode lower ((s.node lower).drop k)).setNode upper ((s.node upper).put b) ∧
      OneMore (s.node upper) v b ∧
      ∀ t, t = (s.setNode lower ((s.node lower).drop k)).setNode upper ((s.node upper).put b) →
        (t.node lower).find k = none ∧ (t.node upper).find k = some b ∧
        ∀ j, j ≠ k → (t.node lower).find j = (s.node lower).find j ∧ (t.node upper).find j = (s.node upper).find j := by
  have hup : (s.setNode lower ((s.node lower).drop k)).node upper = s.node upper := node_setNode_other s hne _
  obtain ⟨b, he, hb⟩ := enterNode_good (s := s.setNode lower ((s.node lower).drop k)) hop hbad (by rwa [hup])
  rw [hup] at he hb
  have hbkey : b.key = k := hb.key.trans hkey
  refine ⟨b, he, hb, fun t ht => ?_⟩
  have hlow : t.node lower = (s.node lower).drop k := by rw [ht, node_setNode_other _ (Ne.symm hne), node_setNode_self]
  have hupp : t.node upper = (s.node upper).put b := by rw [ht, node_setNode_self]
  rw [hlow, hupp]
  exact ⟨find_drop_self _ _, hbkey ▸ find_put_self _ b,
    fun j hj => ⟨find_drop_other _ hj, find_put_other _ b (by rwa [hbkey])⟩⟩

theorem upward_good (hop : a.op = 0) (hhi : f32Finite a.out.1 = true) (hlo : f32Finite a.out.2.1 = true) (e q : Nat) (way : Word) :
    (upward a e q way).bad = false := by
  show (if a.op = 0 then !(f32Finite a.out.1 && f32Finite a.out.2.1) else f32IsNan a.out.1) = false
  rw [if_pos hop, hhi, hlo]
  rfl

theorem canDeliver_up (h : rootOf s r ≠ some n) : canDeliver s n (some r) k = true := by
  unfold canDeliver
  exact Bool.or_eq_true_iff.2 (.inl (decide_eq_true h))

/-- The pair of a full core node goes to its die node. -/
theorem coreOutput (hf : (s.core i).node.find k = some a) (hfull : a.full = true) (hr : elemReduction s k = some r)
    (hroot : rootOf s r ≠ some (.core i)) (hop : a.op = 0) (hhi : f32Finite a.out.1 = true) (hlo : f32Finite a.out.2.1 = true)
    (hovf : a.out.2.2.2 = false) (hwaits : (s.core i).node.waits = []) (hunit : unitErrOf s (nodeUnit (.core i)) = 0)
    (hflip : netFlipOf s (i / 64) = 0)
    (hroom : nodeWaits (.die (i / 64)) (s.node (.die (i / 64)))
      (upward a (dieExpects s r a.ext k.n (i / 64)) (corePos s r i) 0) = false) :
    ∃ t b, exec (.seifNodeOutput (.core i) k) s = .next t ∧ (t.core i).node.find k = none ∧
      (t.node (.die (i / 64))).find k = some b ∧
      b.received = (((s.node (.die (i / 64))).find k).map (·.received)).getD 0 + 1 ∧
      sumI (b.segs.map (·.sum)) =
        (((s.node (.die (i / 64))).find k).map fun c => sumI (c.segs.map (·.sum))).getD 0 + pairInt a.out.1 a.out.2.1 ∧
      (∀ j, j ≠ k → (t.core i).node.find j = (s.core i).node.find j ∧
        (t.node (.die (i / 64))).find j = (s.node (.die (i / 64))).find j) ∧
      (∀ j, j ≠ i → t.core j = s.core j) ∧ t = { s with cores := t.cores, dieNodes := t.dieNodes } := by
  have hkey := key_of_find hf
  obtain ⟨b, he, hb, hnodes⟩ := pair_goesUp (s := s) (lower := .core i) (upper := .die (i / 64)) (fun h => NodeId.noConfusion h)
    (v := upward a (dieExpects s r a.ext k.n (i / 64)) (corePos s r i) 0) hkey hop (upward_good hop hhi hlo _ _ _) hroom
  have hcode := sameCode_setNode s (.core i) ((s.node (.core i)).drop k)
  have hout : nodeOutput (.core i) k s =
      (s.setNode (.core i) ((s.node (.core i)).drop k)).setNode (.die (i / 64)) ((s.node (.die (i / 64))).put b) := by
    rw [nodeOutput_full (n := .core i) hf hfull (by rw [hr]; exact canDeliver_up hroot) hovf hwaits hunit, hr,
      passOn_core (by rwa [rootOf_congr hcode.regs]) (by rwa [netFlipOf_setNode]), dieExpects_congr hcode, corePos_congr hcode, hkey, he]
  obtain ⟨hgone, hthere, hrest⟩ := hnodes _ rfl
  obtain ⟨-, -, hreceived, hsum⟩ := hb
  have hvkey : (upward a (dieExpects s r a.ext k.n (i / 64)) (corePos s r i) 0).key = k := hkey
  rw [hvkey] at hreceived hsum
  exact ⟨_, b, exec_seifNodeOutput hout rfl, hgone, hthere, hreceived, hsum, hrest,
    fun j hj => (State.core_modCore s i j fun c => { c with node := (s.node (.core i)).drop k }).trans (if_neg hj), rfl⟩

/-- The pair of a full die node goes to the hub node. -/
theorem dieOutput (hf : (s.node (.die d)).find k = some a) (hfull : a.full = true) (hr : elemReduction s k = some r)
    (hroot : rootOf s r = some .hub) (hop : a.op = 0) (hhi : f32Finite a.out.1 = true) (hlo : f32Finite a.out.2.1 = true)
    (hovf : a.out.2.2.2 = false) (hwaits : (s.node (.die d)).waits = []) (hunit : unitErrOf s (nodeUnit (.die d)) = 0)
    (hflip : netFlipOf s 12 = 0) (hroom : nodeWaits .hub s.hubNode (upward a (hubExpects s r a.ext k.n) (diePos r d) 0) = false) :
    ∃ t b, exec (.seifNodeOutput (.die d) k) s = .next t ∧ (t.node (.die d)).find k = none ∧ t.hubNode.find k = some b ∧
      b.received = ((s.hubNode.find k).map (·.received)).getD 0 + 1 ∧
      sumI (b.segs.map (·.sum)) = ((s.hubNode.find k).map fun c => sumI (c.segs.map (·.sum))).getD 0 + pairInt a.out.1 a.out.2.1 ∧
      (∀ j, j ≠ k → t.hubNode.find j = s.hubNode.find j) ∧
      t = { s with dieNodes := t.dieNodes, hubNode := t.hubNode } := by
  have hkey := key_of_find hf
  obtain ⟨b, he, hb, hnodes⟩ := pair_goesUp (s := s) (lower := .die d) (upper := .hub) (fun h => NodeId.noConfusion h)
    (v := upward a (hubExpects s r a.ext k.n) (diePos r d) 0) hkey hop (upward_good hop hhi hlo _ _ _) hroom
  have hcode := sameCode_setNode s (.die d) ((s.node (.die d)).drop k)
  have hne : rootOf s r ≠ some (.die d) := by rw [hroot]; exact fun h => NodeId.noConfusion (Option.some.inj h)
  have hout : nodeOutput (.die d) k s =
      (s.setNode (.die d) ((s.node (.die d)).drop k)).setNode .hub ((s.node .hub).put b) := by
    rw [nodeOutput_full hf hfull (by rw [hr]; exact canDeliver_up hne) hovf hwaits hunit, hr,
      passOn_die (by rwa [rootOf_congr hcode.regs]) (by rwa [netFlipOf_setNode]), hubExpects_congr hcode, hkey, he]
  obtain ⟨hgone, hthere, hrest⟩ := hnodes _ rfl
  obtain ⟨-, -, hreceived, hsum⟩ := hb
  have hvkey : (upward a (hubExpects s r a.ext k.n) (diePos r d) 0).key = k := hkey
  rw [hvkey] at hreceived hsum
  exact ⟨_, b, exec_seifNodeOutput hout rfl, hgone, hthere, hreceived, hsum, fun j hj => (hrest j hj).2, rfl⟩

/-! ### The pair reaches its instruction (R138) -/

/-- The rows of an instruction after the first element of a row of them has arrived. -/
def Op.withElement (k : ElemKey) (hi lo md : Word) (o : List RowBuf) : List RowBuf :=
  (o.filter fun x => !(x.b = k.b && x.m = k.m)) ++ [⟨k.b, k.m, [(k.n, hi, lo)], md⟩]

/-- The first element of a row of more than one joins the rows of its instruction. -/
theorem deliver_first {hi lo md : Word} (hop : (s.core k.core).op k.seq = some op) (hred : iOp op.word ≠ 0x13)
    (hnew : (op.rows.find? fun r => r.b = k.b && r.m = k.m) = none) (hwidth : rowWidth s k.core op ≠ 1) :
    deliver k hi lo md s = modOp k.core k.seq (fun o => { o with rows := Op.withElement k hi lo md op.rows }) s := by
  unfold deliver
  rw [hop]
  have hdone : decide ((([] : List (Nat × Word × Word)) ++ [(k.n, hi, lo)]).length = rowWidth s k.core op) = false :=
    decide_eq_false fun h => hwidth h.symm
  have hmd : (0 : Word) ||| md = md := BitVec.zero_or
  simp only [hred, decide_false, Bool.false_eq_true, if_false, hnew, Option.getD_none, hdone, hmd]
  rfl

/-- An instruction with nothing left to do, and no side record to wake, stays as it is. -/
theorem goOn_idle (hop : (s.core core).op seq = some op) (hitems : op.items = []) (hside : iSide op.word = 0) : goOn core seq s = s := by
  have hrun : ∀ n, runItems core seq n s = s := by
    intro n
    cases n with
    | zero => rfl
    | succ n =>
      unfold runItems
      rw [hop]
      dsimp only
      rw [hitems]
  have hwake : wakeSide core op s = s := by
    unfold wakeSide
    exact if_pos (.inr (.inl hside))
  unfold goOn
  rw [hop]
  dsimp only
  rw [hrun, hwake, ite_self, ite_self]

theorem passOn_root (hroot : ((r' : Option Reduction).map fun r => rootOf s r).getD (some n) = some n) :
    passOn n r' a s = goOn a.key.core a.key.seq (deliver a.key a.out.1 a.out.2.1 (a.out.2.2.1 ||| a.lostMd) s) := by
  unfold passOn
  exact if_pos hroot

theorem ops_setNode (s : State) (n : NodeId) (x : Node) (j : Nat) :
    ((s.setNode n x).core j).ops = (s.core j).ops ∧ ((s.setNode n x).core j).sequencer = (s.core j).sequencer ∧
      ((s.setNode n x).core j).fixed = (s.core j).fixed := by
  cases n with
  | core c =>
    rw [State.setNode, State.core_modCore]
    split
    · next h => subst h; exact ⟨rfl, rfl, rfl⟩
    · exact ⟨rfl, rfl, rfl⟩
  | die d => exact ⟨rfl, rfl, rfl⟩
  | hub => exact ⟨rfl, rfl, rfl⟩

theorem node_modOp (core seq : Nat) (f : Op → Op) (s : State) (n : NodeId) : (modOp core seq f s).node n = s.node n := by
  cases n with
  | core c =>
    simp only [State.node, modOp, State.core_modCore]
    split
    · next h => rw [h]
    · rfl
  | die d => rfl
  | hub => rfl

theorem sequencer_modOp (core seq : Nat) (f : Op → Op) (s : State) (j : Nat) :
    ((modOp core seq f s).core j).sequencer = (s.core j).sequencer ∧ ((modOp core seq f s).core j).fixed = (s.core j).fixed := by
  rw [modOp, State.core_modCore]
  split
  · next h => subst h; exact ⟨rfl, rfl⟩
  · exact ⟨rfl, rfl⟩

theorem mems_setNode (s : State) (n : NodeId) (x : Node) : (s.setNode n x).mems = s.mems := by cases n <;> rfl

/-- The pair of the node that finishes an element reaches its instruction. -/
theorem rootOutput (hf : (s.node node).find k = some a) (hfull : a.full = true)
    (hroot : ((elemReduction s k).map fun r => rootOf s r).getD (some node) = some node) (hovf : a.out.2.2.2 = false)
    (hlost : a.lostMd = 0) (hop : (s.core k.core).op k.seq = some op) (hred : iOp op.word ≠ 0x13) (hitems : op.items = [])
    (hnew : (op.rows.find? fun r => r.b = k.b && r.m = k.m) = none) (hwidth : rowWidth s k.core op ≠ 1) (hside : iSide op.word = 0)
    (hwaits : (s.node node).waits = []) (hunit : unitErrOf s (nodeUnit node) = 0) :
    ∃ t, exec (.seifNodeOutput node k) s = .next t ∧ (t.node node).find k = none ∧
      (t.core k.core).op k.seq = some { op with rows := (op.rows.filter fun x => !(x.b = k.b && x.m = k.m)) ++
        [⟨k.b, k.m, [(k.n, a.out.1, a.out.2.1)], a.out.2.2.1⟩] } ∧
      s.sameBytes t ∧ s.sameRegs t [] ∧ ∀ j, (t.core j).sequencer = (s.core j).sequencer ∧ (t.core j).fixed = (s.core j).fixed := by
  have hkey := key_of_find hf
  generalize hu : s.setNode node ((s.node node).drop k) = u
  have hmd : a.out.2.2.1 ||| a.lostMd = a.out.2.2.1 := by rw [hlost]; exact BitVec.or_zero
  have hcode : SameCode s u := hu ▸ sameCode_setNode s node _
  have hopu : (u.core k.core).op k.seq = some op := by
    rw [← hop, ← hu]
    exact congrArg (List.find? fun o : Op => decide (o.seq = k.seq)) (ops_setNode s node _ k.core).1
  let f : Op → Op := fun o => { o with rows := Op.withElement k a.out.1 a.out.2.1 a.out.2.2.1 op.rows }
  have hopt : ((modOp k.core k.seq f u).core k.core).op k.seq = some (f op) := by
    rw [op_modOp_self k.core k.seq f (fun _ => rfl), hopu]
    rfl
  have hout : nodeOutput node k s = modOp k.core k.seq f u := by
    rw [nodeOutput_full hf hfull (by unfold canDeliver; rw [hop]; exact Bool.or_true _) hovf hwaits hunit, hu,
      passOn_root (by simp only [rootOf_congr hcode.regs]; exact hroot), hmd, hkey,
      deliver_first hopu hred hnew (by rwa [rowWidth_congr hcode.regs])]
    exact goOn_idle hopt hitems hside
  refine ⟨_, exec_seifNodeOutput hout (by rw [← hu]; cases node <;> rfl), ?_, hopt, ?_, ?_, fun j => ?_⟩
  · rw [node_modOp, ← hu, node_setNode_self]
    exact find_drop_self _ _
  · exact sameBytes_of_mems (show u.mems = s.mems by rw [← hu]; exact mems_setNode s node _)
  · exact sameRegs_of_regs (sameRegs_refl s []) hcode.regs
  · obtain ⟨hseq, hfix⟩ := sequencer_modOp k.core k.seq f u j
    obtain ⟨-, hseq', hfix'⟩ := ops_setNode s node ((s.node node).drop k) j
    rw [hu] at hseq' hfix'
    exact ⟨hseq.trans hseq', hfix.trans hfix'⟩

/-! ### The fold of a long sum (R140) -/

/-- Nothing but the node, its two registers and the watch counts of the cores has changed. -/
structure AtNode (n : NodeId) (s t : State) : Prop where
  regs : s.sameRegs t [nodeSticky n, nodeFolds n]
  mems : t.mems = s.mems
  flight : t.flight = s.flight
  pending : t.pending = s.pending
  cores : ∀ j, (t.core j).sequencer = (s.core j).sequencer ∧ (t.core j).ops = (s.core j).ops

theorem AtNode.refl (n : NodeId) (s : State) : AtNode n s s := ⟨sameRegs_refl s _, rfl, rfl, rfl, fun _ => ⟨rfl, rfl⟩⟩

theorem AtNode.setBit (h : AtNode n s t) (b : Nat) : AtNode n s (t.setBit (nodeSticky n) b) :=
  { h with regs := sameRegs_setBit h.regs b List.mem_cons_self }

theorem AtNode.addFold (h : AtNode n s t) : AtNode n s (t.addCnt (nodeFolds n) 0 32 1) :=
  { h with regs := sameRegs_addCnt h.regs 0 32 1 (List.mem_cons_of_mem _ List.mem_cons_self) }

theorem AtNode.modCore (h : AtNode n s t) (c : Nat) (f : Core → Core)
    (hf : (f (t.core c)).sequencer = (t.core c).sequencer ∧ (f (t.core c)).ops = (t.core c).ops) : AtNode n s (t.modCore c f) := by
  have hc : ∀ j, ((t.modCore c f).core j).sequencer = (s.core j).sequencer ∧ ((t.modCore c f).core j).ops = (s.core j).ops := fun j => by
    rw [State.core_modCore]
    split
    · next e =>
      subst e
      exact ⟨hf.1.trans (h.cores _).1, hf.2.trans (h.cores _).2⟩
    · exact h.cores j
  exact ⟨sameRegs_of_regs h.regs rfl, h.mems, h.flight, h.pending, hc⟩

theorem AtNode.setNode (h : AtNode n s t) (m : NodeId) (x : Node) : AtNode n s (t.setNode m x) := by
  cases m with
  | core c => exact h.modCore c (fun c => { c with node := x }) ⟨rfl, rfl⟩
  | die d => exact { h with }
  | hub => exact { h with }

theorem AtNode.addWatch (h : AtNode n s t) (core td z x f : Nat) : AtNode n s (addWatch core td z x f t) := by
  unfold Machine.addWatch
  split
  · exact h
  · exact h.modCore core _ ⟨rfl, rfl⟩

theorem AtNode.enterNode (h : AtNode n s t) (v : NodeIn) : AtNode n s (enterNode n v t) := by
  cases hw : nodeWaits n (t.node n) v with
  | true =>
    rw [enterNode_waits hw]
    exact h.setNode n _
  | false =>
    rw [enterNode_added hw, addInput_eq]
    refine AtNode.setNode ?_ n _
    unfold noteInput
    cases v.bad with
    | false => exact h
    | true => exact (h.addWatch _ _ _ _ _).setBit 3

theorem AtNode.retryWaits (h : AtNode n s t) : AtNode n s (retryWaits n t) := by
  unfold Machine.retryWaits
  dsimp only
  split
  · exact h
  · exact forEach_keeps (AtNode n s) _ _ (fun v _ u hu => hu.enterNode v) _ (h.setNode n _)

theorem nodeSticky_ne_nodeFolds (n : NodeId) : nodeSticky n ≠ nodeFolds n := by
  cases n <;> simp [nodeSticky, nodeFolds, drA, coreA, dieNodeA, dieA, hubNodeA, hubA]

/-- A full segment is rounded into the next, counted and flagged. -/
theorem foldOutput (hf : (s.node node).find k = some a) (hfold : a.canFold = true) :
    ∃ t, exec (.seifFold node k) s = .next t ∧ t.regBit (nodeSticky node) 1 = true ∧
      ((s.node node).waits = [] → (t.node node).find k = some (a.fold (foldRnd s a)) ∧
        ∀ j, j ≠ k → (t.node node).find j = (s.node node).find j) ∧
      s.sameRegs t [nodeSticky node, nodeFolds node] ∧ s.sameBytes t ∧ t.flight = s.flight ∧
      ∀ j, (t.core j).sequencer = (s.core j).sequencer ∧ (t.core j).ops = (s.core j).ops := by
  have hkey : (a.fold (foldRnd s a)).key = k := (key_of_find hf : a.key = k)
  generalize hv : s.setNode node ((s.node node).put (a.fold (foldRnd s a))) = v
  have hat : AtNode node s (((retryWaits node v).setBit (nodeSticky node) 1).addCnt (nodeFolds node) 0 32 1) := by
    rw [← hv]
    exact (((AtNode.refl node s).setNode node _).retryWaits.setBit 1).addFold
  have hout : nodeFold node k s = ((retryWaits node v).setBit (nodeSticky node) 1).addCnt (nodeFolds node) 0 32 1 := by
    unfold nodeFold
    rw [hf, ← hv]
    exact if_pos hfold
  have hnode (w : State) : ((w.setBit (nodeSticky node) 1).addCnt (nodeFolds node) 0 32 1).node node = w.node node := by
    cases node <;> rfl
  refine ⟨_, (congrArg (answer s) hout).trans (answer_eq hat.pending), ?_, fun hw => ?_, hat.regs, sameBytes_of_mems hat.mems, hat.flight,
    hat.cores⟩
  · rw [regBit_of_reg (State.reg_addCnt_other _ (nodeSticky_ne_nodeFolds node) 0 32 1), State.regBit_setBit_self _ _ (by omega)]
    rfl
  · have hretry : retryWaits node v = v := by
      unfold retryWaits
      have hwv : (v.node node).waits = [] := by rw [← hv, node_setNode_self]; exact hw
      exact if_pos (by rw [hwv]; rfl)
    rw [hnode, hretry, ← hv, node_setNode_self]
    exact ⟨hkey ▸ find_put_self _ (a.fold (foldRnd s a)), fun j hj => find_put_other _ _ (by rwa [hkey])⟩

/-- Settles O39: a node that is short of an input does nothing; else its accumulator is freed and the pair enters the node above, or
the rows of its instruction; a fold changes the node, its two registers and, for inputs that waited, watch counts alone. -/
theorem nodesSendWholeElements : Obligations.NodesSendWholeElements := by
  unfold Obligations.NodesSendWholeElements
  refine ⟨fun s node k a hf hfull => exec_seifNodeOutput (nodeOutput_short hf hfull) rfl, ?_, ?_, ?_, ?_⟩
  · intro s i k a r hf hfull hr hroot hop hhi hlo hovf hwaits hunit hflip hroom
    exact coreOutput hf hfull hr hroot hop hhi hlo hovf hwaits hunit hflip hroom
  · intro s d k a r hf hfull hr hroot hop hhi hlo hovf hwaits hunit hflip hroom
    exact dieOutput hf hfull hr hroot hop hhi hlo hovf hwaits hunit hflip hroom
  · intro s node k a op hf hfull hroot hovf hlost hop hred hitems hnew hwidth hside hwaits hunit
    exact rootOutput hf hfull hroot hovf hlost hop hred hitems hnew hwidth hside hwaits hunit
  · intro s node k a hf hfold
    exact foldOutput hf hfold

end Sys2Proof.Machine

end

section
/-! PROOFS. The accumulator sets of the macros and the drain ports (R127 to R137). -/

namespace Sys2Proof.Machine

variable {s t u : State} {core q lm port : Nat} {k : ElemKey} {m : MacroSt} {x z : Tile}

/-! ### Work on the drain port's queue (R129, R282) -/

/-- One queue of a core has changed, with what its level brings about, and nothing else. -/
structure QueueOnly (core q : Nat) (s t : State) : Prop where
  self : t.core core = { s.core core with queues := (t.core core).queues }
  others : ∀ j, j ≠ core → t.core j = s.core j
  queue : ∀ r, r ≠ q → (t.core core).queue r = (s.core core).queue r
  passed : s.passedQueue t core q []
  eq : t = { s with cores := t.cores, regs := t.regs, port := t.port, svc := t.svc, out := t.out }

theorem QueueOnly.refl (core q : Nat) (s : State) : QueueOnly core q s s :=
  ⟨rfl, fun _ _ => rfl, fun _ _ => rfl, ⟨sameRegs_refl s _, rfl, rfl, fun _ => ⟨rfl, rfl, sameRegs_refl s _⟩⟩, rfl⟩

theorem QueueOnly.trans (h : QueueOnly core q s t) (k : QueueOnly core q t u) : QueueOnly core q s u := by
  obtain ⟨hr, hp, hv, hq⟩ := h.passed
  obtain ⟨kr, kp, kv, kq⟩ := k.passed
  have hlevel : t.regFld (coreQA core q 0) 0 10 = s.regFld (coreQA core q 0) 0 10 :=
    regFld_of_reg (hr _ (by simp [level_not_queueRegs, level_not_eventRegs])) 0 10
  refine ⟨by rw [k.self, h.self], fun j hj => (k.others j hj).trans (h.others j hj), fun r hne => (k.queue r hne).trans (h.queue r hne),
    ⟨sameRegs_trans hr kr, by rw [kp, hp], by rw [kv, hv], fun hz => ?_⟩, by rw [k.eq, h.eq]⟩
  obtain ⟨hp', hv', hr'⟩ := hq hz
  obtain ⟨kp', kv', kr'⟩ := kq (hlevel.trans hz)
  exact ⟨kp'.trans hp', kv'.trans hv', sameRegs_trans hr' kr'⟩

theorem QueueOnly.pending (h : QueueOnly core q s t) : t.pending = s.pending := by rw [h.eq]

theorem QueueOnly.mems (h : QueueOnly core q s t) : t.mems = s.mems := by rw [h.eq]; rfl

theorem queueOnly_setQueue (core q : Nat) (l : List Nat) (s : State) : QueueOnly core q s (setQueue core q l s) := by
  have hv := eventful_setQueue core q l s
  refine ⟨?_, fun j hj => core_setQueue_other core q l s hj, fun r hr => ?_,
    ⟨regs_setQueue core q l s, hv.port, hv.svc, fun hz => ?_⟩, rest_setQueue core q l s⟩
  · rw [core_setQueue_self]
    rfl
  · rw [core_setQueue_self, queue_withQueue_other q l _ hr]
  · obtain ⟨hp, hs, -, hregs⟩ := quiet_setQueue core q l s hz
    exact ⟨hp, hs, hregs⟩

theorem queueOnly_pushQueue (core q item : Nat) (s : State) : QueueOnly core q s (pushQueue core q item s) := by
  unfold pushQueue
  split
  · exact .refl core q s
  · exact queueOnly_setQueue core q _ s

/-- A port's macro gives up its request, and requests that had no place move up. -/
theorem queueOnly_nextRequest (core lm : Nat) (s : State) :
    QueueOnly core (4 + lm / 16) s (fillPort core (lm / 16) (dropRequest core lm s)) :=
  forEach_keeps (QueueOnly core (4 + lm / 16) s) _ _ (fun item _ t h => h.trans (queueOnly_pushQueue core _ item t)) _
    (queueOnly_setQueue core _ _ s)

/-! ### The sets of a macro (R127, R128) -/

theorem macSt_setMacSt_self (core lm : Nat) (m : MacroSt) (s : State) : macSt (setMacSt core lm m s) core lm = m := by
  simp [macSt, setMacSt]

theorem macSt_setMacSt_other {j : Nat} (h : j ≠ lm) (m : MacroSt) (s : State) : macSt (setMacSt core lm m s) core j = macSt s core j := by
  unfold macSt setMacSt
  rw [State.core_modCore_self]
  exact SMap.get_set_other _ _ _ h

theorem regs_setMacSt (core lm : Nat) (m : MacroSt) (s : State) : (setMacSt core lm m s).regs = s.regs := rfl

theorem macSt_of_macros (h : (t.core core).macros = (s.core core).macros) (j : Nat) : macSt t core j = macSt s core j := by
  unfold macSt
  rw [h]

/-- The sets of one macro change, and its port's queue follows. -/
theorem swap_effect (m : MacroSt) (ht : t = fillPort core (lm / 16) (dropRequest core lm (setMacSt core lm m s))) :
    macSt t core lm = m ∧ (∀ k, k ≠ lm → macSt t core k = macSt s core k) ∧ (∀ j, j ≠ core → t.core j = s.core j) ∧
      t.core core = { s.core core with macros := (t.core core).macros, queues := (t.core core).queues } ∧
      (∀ q, q ≠ 4 + lm / 16 → (t.core core).queue q = (s.core core).queue q) ∧ s.passedQueue t core (4 + lm / 16) [] ∧
      t = { s with cores := t.cores, regs := t.regs, port := t.port, svc := t.svc, out := t.out } := by
  have h : QueueOnly core (4 + lm / 16) (setMacSt core lm m s) t := ht ▸ queueOnly_nextRequest core lm _
  have hmac (j : Nat) : macSt t core j = macSt (setMacSt core lm m s) core j := macSt_of_macros (by rw [h.self]) j
  have hcore : (setMacSt core lm m s).core core = { s.core core with macros := SMap.set (fun _ => {}) (s.core core).macros lm m } :=
    State.core_modCore_self s core _
  obtain ⟨hr, hrest⟩ := h.passed
  refine ⟨(hmac lm).trans (macSt_setMacSt_self core lm m s), fun j hj => (hmac j).trans (macSt_setMacSt_other hj m s),
    fun j hj => (h.others j hj).trans ((State.core_modCore s core j _).trans (if_neg hj)), ?_, fun q hq => (h.queue q hq).trans ?_,
    ⟨sameRegs_trans (sameRegs_of_regs (sameRegs_refl s _) rfl) hr, hrest⟩, ?_⟩
  · rw [h.self, hcore]
  · rw [hcore]
    rfl
  · rw [h.eq]
    rfl

/-! ### TREE_EMPTY -/

theorem exec_treeEmpty (h : treeEmpty core lm s = t) (hp : t.pending = s.pending) : exec (.treeEmpty core lm) s = .next t :=
  (congrArg (answer s) h).trans (answer_eq hp)

/-- The complete live tile goes to the free mirage set. -/
theorem treeEmpty_swaps (hlive : (macSt s core lm).live = some x) (hpasses : x.passes = 0) (hfree : (macSt s core lm).mirage = none) :
    treeEmpty core lm s = fillPort core (lm / 16) (dropRequest core lm
      (setMacSt core lm ⟨(macSt s core lm).walk.head?, some x, (macSt s core lm).walk.tail, false⟩ s)) := by
  unfold treeEmpty
  simp only [hlive, hpasses, hfree, ne_eq, not_true_eq_false, if_false, Option.isNone_none, if_true]

/-- A refused tile goes past the open chain before it (R133). -/
theorem treeEmpty_refused (hlive : (macSt s core lm).live = some x) (hpasses : x.passes ≠ 0) (hfree : (macSt s core lm).mirage = none)
    (hz : (macSt s core lm).walk.find? (fun y => y.passes = 0) = some z) :
    treeEmpty core lm s = fillPort core (lm / 16) (dropRequest core lm
      (setMacSt core lm { macSt s core lm with mirage := some z, walk := (macSt s core lm).walk.erase z } s)) := by
  unfold treeEmpty
  simp only [hlive, hpasses, hfree, hz, ne_eq, not_false_eq_true, if_true, Option.isNone_none]

/-- The start of the tile behind is stalled, and counted once. -/
theorem treeEmpty_stalls (hlive : (macSt s core lm).live = some x) (hpasses : x.passes = 0) (htaken : (macSt s core lm).mirage ≠ none)
    (hbehind : (macSt s core lm).walk ≠ []) (hfirst : (macSt s core lm).stalled = false) :
    treeEmpty core lm s =
      setMacSt core lm { macSt s core lm with stalled := true } ((s.setBit (drA core 0) 6).addCnt (drA core 4) 16 16 1) := by
  have hnone : (macSt s core lm).mirage.isNone = false := Option.isNone_eq_false_iff.2 (Option.isSome_iff_ne_none.2 htaken)
  have hgo : ((macSt s core lm).walk.isEmpty || (macSt s core lm).stalled) = false := by simp [hbehind, hfirst]
  unfold treeEmpty
  simp only [hlive, hpasses, ne_eq, not_true_eq_false, if_false, hnone, hgo, Bool.false_eq_true]

theorem drA_ne (core : Nat) : drA core 0 ≠ drA core 4 := by simp [drA, coreA, dieA]

theorem stall_effect (hlive : (macSt s core lm).live = some x) (hpasses : x.passes = 0) (htaken : (macSt s core lm).mirage ≠ none)
    (hbehind : (macSt s core lm).walk ≠ []) (hfirst : (macSt s core lm).stalled = false) :
    ∃ t, exec (.treeEmpty core lm) s = .next t ∧ macSt t core lm = { macSt s core lm with stalled := true } ∧
      t.regBit (drA core 0) 6 = true ∧ t.regFld (drA core 4) 16 16 = min (s.regFld (drA core 4) 16 16 + 1) 0xFFFF ∧
      s.sameRegs t [drA core 0, drA core 4] ∧ t = { s with cores := t.cores, regs := t.regs } := by
  refine ⟨_, exec_treeEmpty (treeEmpty_stalls hlive hpasses htaken hbehind hfirst) rfl, macSt_setMacSt_self _ _ _ _, ?_, ?_, ?_, rfl⟩
  · rw [regBit_of_reg (State.reg_congr (regs_setMacSt _ _ _ _) _),
      regBit_of_reg (State.reg_addCnt_other _ (drA_ne core) 16 16 1), State.regBit_setBit_self _ _ (by omega)]
    rfl
  · rw [regFld_of_reg (State.reg_congr (regs_setMacSt _ _ _ _) _), regFld_addCnt_self _ _ _ _ _ (by omega),
      regFld_of_reg (State.reg_setBit_other s (drA_ne core).symm 6)]
    norm_num
  · exact sameRegs_of_regs (sameRegs_addCnt (sameRegs_setBit (sameRegs_refl s _) 6 List.mem_cons_self) 16 16 1
      (List.mem_cons_of_mem _ List.mem_cons_self)) (regs_setMacSt _ _ _ _)

/-! ### The terms of a tile enter the core node (R131, R137) -/

/-- A core's node has changed, and nothing else. -/
structure NodeAlone (core : Nat) (s t : State) : Prop where
  self : t.core core = { s.core core with node := (t.core core).node }
  others : ∀ j, j ≠ core → t.core j = s.core j
  eq : t = { s with cores := t.cores }

theorem NodeAlone.refl (core : Nat) (s : State) : NodeAlone core s s := ⟨rfl, fun _ _ => rfl, rfl⟩

theorem NodeAlone.trans (h : NodeAlone core s t) (k : NodeAlone core t u) : NodeAlone core s u :=
  ⟨by rw [k.self, h.self], fun j hj => (k.others j hj).trans (h.others j hj), by rw [k.eq, h.eq]⟩

theorem nodeAlone_setNode (s : State) (core : Nat) (x : Node) : NodeAlone core s (s.setNode (.core core) x) := by
  refine ⟨?_, fun j hj => ?_, rfl⟩
  · rw [State.setNode, State.core_modCore_self]
  · rw [State.setNode, State.core_modCore, if_neg hj]

/-- No accumulator of a node is for more than 2^20 inputs. -/
def Node.short (x : Node) : Prop := ∀ a ∈ x.accs, a.expected ≤ 2 ^ 20

theorem accCost_short {op e : Nat} (h : e ≤ 2 ^ 20) : accCost op e = 1 := if_neg fun hc => Nat.not_lt.2 h hc.2

theorem used_short {x : Node} (h : x.short) : x.used = x.accs.length := by
  have hmap : (x.accs.map fun a => accCost a.op a.expected) = x.accs.map fun _ => 1 :=
    List.map_congr_left fun a ha => accCost_short (h a ha)
  unfold Node.used
  rw [hmap]
  induction x.accs with
  | nil => rfl
  | cons a l ih => rw [List.map_cons, sumN_cons, ih, List.length_cons, Nat.add_comm]

theorem mem_put {x : Node} {a b : Acc} (h : b ∈ (x.put a).accs) : b = a ∨ b ∈ x.accs := by
  unfold Node.put at h
  dsimp only at h
  split at h
  · obtain ⟨c, hc, rfl⟩ := List.mem_map.1 h
    split
    · exact .inl rfl
    · exact .inr hc
  · rcases List.mem_append.1 h with h | h
    · exact .inr h
    · exact .inl (List.mem_singleton.1 h)

theorem length_put (x : Node) (a : Acc) : (x.put a).accs.length ≤ x.accs.length + 1 := by
  unfold Node.put
  dsimp only
  split <;> simp

/-- Nothing waits at a node of short sums that has an accumulator free. -/
theorem nodeWaits_short {n : NodeId} {x : Node} {v : NodeIn} (hx : x.short) (hv : v.expected ≤ 2 ^ 20)
    (hroom : x.accs.length < nodeLimit n) :
    nodeWaits n x v = false := by
  cases hf : x.find v.key with
  | none =>
    rw [nodeWaits_none hf, used_short hx, accCost_short hv, tooEarly]
    simp only [decide_eq_false (Nat.not_lt.2 hv), decide_eq_false (Nat.not_lt.2 hroom), Bool.and_false, Bool.false_and, Bool.or_self]
  | some a =>
    have ha := hx a (List.mem_of_find?_eq_some hf)
    rw [nodeWaits_some hf, tooEarly, decide_eq_false (Nat.not_lt.2 ha), Bool.and_false, Bool.false_and]

theorem OneMore.short {x : Node} {v : NodeIn} {b : Acc} (h : OneMore x v b) (hx : x.short) (hv : v.expected ≤ 2 ^ 20) :
    (x.put b).short := by
  intro a ha
  rcases mem_put ha with rfl | ha
  · rw [h.expected]
    cases hf : x.find v.key with
    | none => exact hv
    | some c => exact hx c (List.mem_of_find?_eq_some hf)
  · exact hx a ha

/-- Good inputs of elements of their own, of short sums and with room for all, are each added. -/
theorem enterAll_distinct (l : List NodeIn) (hkeys : (l.map (·.key)).Nodup)
    (hl : ∀ v ∈ l, v.op = 0 ∧ v.bad = false ∧ v.expected ≤ 2 ^ 20) (s : State) (hx : (s.core core).node.short)
    (hroom : (s.core core).node.accs.length + l.length ≤ 512) :
    NodeAlone core s (forEach l (enterNode (.core core)) s) ∧
      (∀ v ∈ l, ∃ b, ((forEach l (enterNode (.core core)) s).core core).node.find v.key = some b ∧ OneMore (s.core core).node v b) ∧
      ∀ k, (∀ v ∈ l, k ≠ v.key) → ((forEach l (enterNode (.core core)) s).core core).node.find k = (s.core core).node.find k := by
  induction l generalizing s with
  | nil => exact ⟨.refl core s, fun v hv => absurd hv List.not_mem_nil, fun _ _ => rfl⟩
  | cons v l ih =>
    obtain ⟨hop, hbad, hexp⟩ := hl v List.mem_cons_self
    obtain ⟨hfresh, hkeys⟩ := List.nodup_cons.1 hkeys
    rw [List.length_cons] at hroom
    obtain ⟨b, he, hb⟩ := enterNode_good (n := .core core) hop hbad
      (nodeWaits_short (x := (s.core core).node) hx hexp (by rw [nodeLimit]; omega))
    have hnode : ((enterNode (.core core) v s).core core).node = (s.core core).node.put b := by
      rw [he]
      exact node_setNode_self s (.core core) _
    have hself : ((s.core core).node.put b).find v.key = some b := by rw [← hb.key]; exact find_put_self _ b
    have hother {k : ElemKey} (h : k ≠ v.key) : ((s.core core).node.put b).find k = (s.core core).node.find k :=
      find_put_other _ b (by rwa [hb.key])
    obtain ⟨halone, hin, hout⟩ := ih hkeys (fun w hw => hl w (List.mem_cons_of_mem _ hw)) (enterNode (.core core) v s)
      (by rw [hnode]; exact hb.short hx hexp)
      (by rw [hnode]; have := length_put (s.core core).node b; omega)
    rw [hnode] at hin hout
    have hne {w : NodeIn} (hw : w ∈ l) : w.key ≠ v.key := fun h => hfresh (List.mem_map.2 ⟨_, hw, h⟩)
    rw [forEach_cons]
    refine ⟨NodeAlone.trans (by rw [he]; exact nodeAlone_setNode s core _) halone, fun w hw => ?_, fun k hk => ?_⟩
    · rcases List.mem_cons.1 hw with rfl | hw
      · exact ⟨b, (hout _ fun w hw => (hne hw).symm).trans hself, hb⟩
      · obtain ⟨c, hc, hck, hce, hcr, hcs⟩ := hin w hw
        rw [hother (hne hw)] at hce hcr hcs
        exact ⟨c, hc, hck, hce, hcr, hcs⟩
    · rw [hout k fun w hw => hk w (List.mem_cons_of_mem _ hw), hother (hk v List.mem_cons_self)]

/-! ### DRAIN_PORT_READ -/

theorem destOf_congr (h : t.img = s.img) (core seq : Nat) : destOf t core seq = destOf s core seq := by
  unfold destOf reductionOf
  rw [contentOf_congr h]

/-- The input that a term of a drained tile makes at its core node. -/
def termIn (s : State) (core : Nat) (x : Tile) (op : Op) (md : Word) (y : Nat × Word) : NodeIn :=
  { key := ⟨(destOf s core x.seq).1, (destOf s core x.seq).2, x.b, x.m, y.1⟩, op := 0, expected := x.expected, seq := x.seqNo,
    hi := y.2, lo := 0, md := md, core := core, td := (op.opd 0).td, ext := op.ext }

theorem termIn_good (s : State) (core : Nat) (x : Tile) (op : Op) (md : Word) {y : Nat × Word} (h : f32Finite y.2 = true) :
    (termIn s core x op md y).bad = false := by
  show (!(f32Finite y.2 && f32Finite 0)) = false
  rw [h]
  decide

theorem keys_termIn (s : State) (core : Nat) (x : Tile) (op : Op) (md : Word) (l : List (Nat × Word)) (h : (l.map (·.1)).Nodup) :
    ((l.map (termIn s core x op md)).map (·.key)).Nodup := by
  rw [List.map_map]
  refine List.Nodup.of_map (fun k : ElemKey => k.n) ?_
  rw [List.map_map]
  exact h

/-- A tile whose residues agree, read by a port whose unit is right: its terms, and no other effect. -/
theorem drainTile_clean {v : State} (hreg : v.regs = s.regs) (hbist : v.bist = s.bist) (herr : v.err = s.err)
    (hcheck : wideCheck (if x.residue.length = 1 then 64 else x.wide.length / 2) x
      (wideRead s (s.pmIx core lm) (if x.residue.length = 1 then 64 else x.wide.length / 2) x) = [])
    (hunit : unitErrOf s (4 * core) = 0) :
    (drainTile core lm x v).terms = (drainTile core lm x s).terms ∧ (drainTile core lm x v).s = v := by
  have hpm : v.pmIx core lm = s.pmIx core lm := by
    unfold State.pmIx State.pcIx State.pcore State.pmacro
    rw [hbist, regFld_of_reg (State.reg_congr hreg _)]
  have hwide (half : Nat) : wideRead v (v.pmIx core lm) half x = wideRead s (s.pmIx core lm) half x := by
    rw [hpm]
    unfold wideRead
    rw [herr]
  have hu (n : Nat) : unitErrOf v n = unitErrOf s n := by unfold unitErrOf; rw [herr]
  unfold drainTile
  dsimp only
  rw [hwide, hcheck, forEach_nil, forEach_nil, hu]
  exact ⟨rfl, if_pos ((hu _).trans hunit)⟩

/-- The tile of the port's lowest macro is read out of its mirage set, and its terms enter the core node. -/
theorem portRead_effect {op : Op} {r : Drained} (hport : port < 16) (hlm : portMacro s core port = some lm)
    (hx : (macSt s core lm).mirage = some x) (hop : (s.core core).op x.seq = some op) (hr : r = drainTile core lm x s)
    (hcheck : wideCheck (if x.residue.length = 1 then 64 else x.wide.length / 2) x
      (wideRead s (s.pmIx core lm) (if x.residue.length = 1 then 64 else x.wide.length / 2) x) = [])
    (hnodup : (r.terms.map (·.1)).Nodup) (hfin : ∀ y ∈ r.terms, f32Finite y.2 = true) (hunit : unitErrOf s (4 * core) = 0)
    (hroom : (s.core core).node.used + r.terms.length ≤ 512) (hexp : x.expected ≤ 2 ^ 20)
    (hshort : ∀ a ∈ (s.core core).node.accs, a.expected ≤ 2 ^ 20) :
    ∃ t, exec (.drainPortRead core port) s = .next t ∧ macSt t core lm = { macSt s core lm with mirage := none } ∧
      (∀ k, k ≠ lm → macSt t core k = macSt s core k) ∧
      (∀ y ∈ r.terms, ∀ k : ElemKey, k = ⟨(destOf s core x.seq).1, (destOf s core x.seq).2, x.b, x.m, y.1⟩ →
        ∃ a, (t.core core).node.find k = some a ∧
          a.received = (((s.core core).node.find k).map (·.received)).getD 0 + 1 ∧
          sumI (a.segs.map (·.sum)) = (((s.core core).node.find k).map fun b => sumI (b.segs.map (·.sum))).getD 0 + pairInt y.2 0) ∧
      (∀ k, (∀ y ∈ r.terms, k ≠ ⟨(destOf s core x.seq).1, (destOf s core x.seq).2, x.b, x.m, y.1⟩) →
        (t.core core).node.find k = (s.core core).node.find k) ∧
      (t.core core).ops = (s.core core).ops ∧ (∀ j, j ≠ core → t.core j = s.core j) ∧ t = { s with cores := t.cores } := by
  generalize hv : setMacSt core lm { macSt s core lm with mirage := none } s = v
  have hvcore : v.core core = { s.core core with macros := (v.core core).macros } := by
    rw [← hv, setMacSt, State.core_modCore_self]
  have hvother (j : Nat) (hj : j ≠ core) : v.core j = s.core j := by rw [← hv, setMacSt, State.core_modCore, if_neg hj]
  have hveq : v = { s with cores := v.cores } := by rw [← hv]; rfl
  have hvnode : (v.core core).node = (s.core core).node := by rw [hvcore]
  obtain ⟨hterms, hstate⟩ := drainTile_clean (v := v) (by rw [hveq]) (by rw [hveq]) (by rw [hveq]) hcheck hunit
  rw [← hr] at hterms
  generalize hd : drainTile core lm x v = d at hterms hstate
  have himg : v.img = s.img := by rw [hveq]
  have hvop : (v.core core).op x.seq = some op := by rw [← hop, hvcore]; rfl
  have hread : portRead core port s = forEach (r.terms.map (termIn s core x op d.md)) (enterNode (.core core)) v := by
    unfold portRead
    rw [hlm]
    dsimp only
    rw [hx]
    dsimp only
    rw [hv, hd]
    unfold enterTerms
    rw [hstate, hvop, hterms, destOf_congr himg]
    unfold forEach
    rw [List.foldl_map]
    rfl
  have hlen : (v.core core).node.accs.length + (r.terms.map (termIn s core x op d.md)).length ≤ 512 := by
    rw [hvnode, List.length_map, ← used_short hshort]
    exact hroom
  have hgood : ∀ w ∈ r.terms.map (termIn s core x op d.md), w.op = 0 ∧ w.bad = false ∧ w.expected ≤ 2 ^ 20 := by
    intro w hw
    obtain ⟨y, hy, rfl⟩ := List.mem_map.1 hw
    exact ⟨rfl, termIn_good s core x op d.md (hfin y hy), hexp⟩
  obtain ⟨halone, hin, hout⟩ := enterAll_distinct _ (keys_termIn s core x op d.md r.terms hnodup) hgood v (hvnode ▸ hshort) hlen
  rw [← hread] at halone hin hout
  rw [hvnode] at hin hout
  generalize ht : portRead core port s = t at halone hin hout
  have hmac (j : Nat) : macSt t core j = macSt v core j := macSt_of_macros (by rw [halone.self]) j
  have hteq : t = { s with cores := t.cores } := by rw [halone.eq, hveq]
  refine ⟨t, ?_, ?_, fun j hj => ?_, fun y hy k hk => ?_, fun k hk => ?_, ?_, fun j hj => (halone.others j hj).trans (hvother j hj), hteq⟩
  · have hexec : exec (.drainPortRead core port) s = answer s t := by rw [← ht]; exact congrArg (answer s) (if_pos hport)
    rw [hexec]
    exact answer_eq (by rw [hteq])
  · rw [hmac, ← hv, macSt_setMacSt_self]
  · rw [hmac, ← hv, macSt_setMacSt_other hj]
  · obtain ⟨a, ha, -, -, hreceived, hsum⟩ := hin _ (List.mem_map_of_mem hy)
    subst hk
    exact ⟨a, ha, hreceived, hsum⟩
  · refine hout k fun w hw => ?_
    obtain ⟨y, hy, rfl⟩ := List.mem_map.1 hw
    exact hk y hy
  · rw [halone.self, hvcore]

/-- Settles O38: the swap changes one macro's sets and its port's queue; a stall is flagged and counted; the terms of a drained
tile, of elements of their own and with room for all, are each added to the core node. -/
theorem tilesSwapAndDrain : Obligations.TilesSwapAndDrain := by
  unfold Obligations.TilesSwapAndDrain
  refine ⟨?_, ?_, ?_, ?_⟩
  · intro s core lm x hlive hpasses hfree
    have hswap := treeEmpty_swaps hlive hpasses hfree
    generalize ht : treeEmpty core lm s = t at hswap
    have h := swap_effect _ hswap
    have hp : t.pending = s.pending := by rw [h.2.2.2.2.2.2]
    exact ⟨t, exec_treeEmpty ht hp, h⟩
  · intro s core lm x z hlive hpasses hfree hz
    have hswap := treeEmpty_refused hlive hpasses hfree hz
    generalize ht : treeEmpty core lm s = t at hswap
    obtain ⟨hself, hother, hcores, hcore, -, hqueue, heq⟩ := swap_effect _ hswap
    exact ⟨t, exec_treeEmpty ht (by rw [heq]), hself, hother, hcores, by rw [hcore], hqueue,
      sameBytes_of_mems (by rw [heq]; rfl)⟩
  · intro s core lm x hlive hpasses htaken hbehind hfirst
    exact stall_effect hlive hpasses htaken hbehind hfirst
  · intro s core port lm x op r hport hlm hx hop hr hcheck hnodup hfin hunit hroom hexp hshort
    exact portRead_effect hport hlm hx hop hr hcheck hnodup hfin hunit hroom hexp hshort

end Sys2Proof.Machine

end

section
/-! PROOFS. REDUCE at issue (R142, R219): its checks, its place in flight and the terms that enter its core's node. -/

namespace Sys2Proof.Machine

variable {s t u : State} {bh bp ba bi : Bool} {core seq n : Nat} {w : BitVec 256} {op : Op} {x : Opd}

/-! ### Reading a row leaves the cores (R151, R155) -/

theorem cores_spRecord (core kind cls word seg : Nat) (s : State) : (spRecord core kind cls word seg s).cores = s.cores := by
  unfold spRecord
  dsimp only
  split <;> rfl

theorem cores_detectFault (l : Loc) (s : State) : (detectFault l s).cores = s.cores := by rw [(detectFault_effect l s).1]

theorem cores_spUncorr (r : Req) (word : Nat) (lost : Bool) (s : State) : (spUncorr r word lost s).cores = s.cores := by
  unfold spUncorr
  exact (whenS_same (·.cores) lost versionLost (fun _ => rfl) _).trans ((cores_detectFault _ _).trans (cores_spRecord _ _ _ _ _ s))

theorem cores_stickyEvent (a b : Nat) (s : State) : (stickyEvent a b s).cores = s.cores := by
  unfold stickyEvent stage0 stageEvent
  rfl

theorem cores_spEffects (r : Req) (f : SpFlags) (s : State) : (spEffects r f s).1.cores = s.cores := by
  have hsticky (b : Bool) (k : Nat) (t : State) : (whenS b (stickyEvent (spA r.core 4) k) t).cores = t.cores :=
    whenS_same (·.cores) b _ (cores_stickyEvent _ _) t
  unfold spEffects
  extract_lets a s1 s2 s3 s4 s5 s6 s7 s8
  have h1 : s1.cores = s.cores := by
    unfold s1
    split
    · rfl
    · exact cores_spRecord _ _ _ _ _ s
  have h2 : s2.cores = s1.cores := hsticky _ _ _
  have h3 : s3.cores = s2.cores := by
    unfold s3
    split
    · rfl
    · exact cores_spUncorr _ _ _ _
  have h4 : s4.cores = s3.cores :=
    whenS_same (·.cores) _ (fun t => (t.setBit a 0).addCnt (spA r.core 8) 16 16 f.corrected.length) (fun _ => rfl) _
  have h8 : s8.cores = s4.cores := (hsticky _ _ _).trans ((hsticky _ _ _).trans ((hsticky _ _ _).trans (hsticky _ _ _)))
  exact h8.trans (h4.trans (h3.trans (h2.trans h1)))

theorem cores_hbmFault (a : Nat) (s : State) : (hbmFault a s).cores = s.cores := by
  unfold hbmFault
  dsimp only
  split
  · split
    · exact cores_detectFault _ s
    · exact cores_detectFault _ s
  · exact cores_detectFault _ s

theorem cores_readRun (core task seg cls : Nat) (d : BitVec 512) (a n : Nat) (s : State) :
    (readRun core task seg cls d a n s).2.2.cores = s.cores := by
  unfold readRun
  split
  · rfl
  · split
    · exact cores_spEffects _ _ s
    · unfold hbmRead hbmReadVia
      dsimp only
      split
      · rfl
      · exact cores_hbmFault _ s

theorem cores_readRow (core task seg cls : Nat) (o : Opd) (b m n : Nat) (s : State) :
    (readRow core task seg cls o b m n s).s.cores = s.cores :=
  (cores_readRun core task seg cls o.d _ _ _).trans (cores_readRun core task seg cls o.d _ _ s)

theorem length_elems (r : RowIn) (o : Opd) (n : Nat) : (r.elems o n).length = n := by
  unfold RowIn.elems rowElems
  rw [List.length_map, List.length_range]

/-! ### The terms of a REDUCE (R142) -/

theorem received_foldl (l : List NodeIn) (a : Acc) : (l.foldl (fun b i => b.add i) a).received = a.received + l.length ∧
    (l.foldl (fun b i => b.add i) a).expected = a.expected ∧ (l.foldl (fun b i => b.add i) a).op = a.op := by
  induction l generalizing a with
  | nil => exact ⟨rfl, rfl, rfl⟩
  | cons i l ih =>
    obtain ⟨hr, he, ho⟩ := ih (a.add i)
    rw [List.foldl_cons, List.length_cons]
    have hone : (a.add i).received = a.received + 1 := rfl
    exact ⟨by omega, he.trans rfl, ho.trans rfl⟩

/-- Inputs of one element of at most 2^20, of which the node has none yet and for which it has an accumulator, are all taken. -/
theorem find_enterAll {nd : NodeId} {k : ElemKey} {o expected : Nat} (l : List NodeIn) (hne : l ≠ [])
    (hl : ∀ i ∈ l, i.key = k ∧ i.op = o ∧ i.expected = expected ∧ i.first = 0) (hexp : expected ≤ 2 ^ 20)
    (hroom : (s.node nd).used < nodeLimit nd) (hk : (s.node nd).find k = none) :
    ∃ a, ((forEach l (enterNode nd) s).node nd).find k = some a ∧ a.received = l.length ∧ a.expected = expected ∧ a.op = o := by
  have hall : admitted nd (s.node nd) l = l := by
    unfold admitted
    refine List.filter_eq_self.2 fun i hi => ?_
    obtain ⟨-, hop, hie, -⟩ := hl i hi
    rw [hop, hie, accCost_short hexp, tooEarly, decide_eq_false (Nat.not_lt.2 (Nat.succ_le_of_lt hroom)),
      decide_eq_false (Nat.not_lt.2 hexp), Bool.and_false, Bool.false_and]
    rfl
  obtain ⟨i, l', rfl⟩ := List.exists_cons_of_ne_nil hne
  obtain ⟨-, hop, hie, -⟩ := hl i List.mem_cons_self
  obtain ⟨hr, he, ho⟩ := received_foldl (i :: l') i.opens
  refine ⟨_, (find_forEach_none _ hl hk).trans (by rw [hall]; rfl), ?_, ?_, ?_⟩
  · rw [hr]
    exact Nat.zero_add _
  · exact he.trans hie
  · exact ho.trans hop

/-- An element of a REDUCE that no other core takes part in, without the pair at TD_Y: its n terms enter the core node. -/
theorem doRed_alone (hred : reductionOf s core op.seq = none) (hacc : iB205 op.word = false) (hpos : op.ext.n ≠ 0)
    (hexp : op.ext.n ≤ 2 ^ 20) (hroom : (s.core core).node.used < 512)
    (hk : (s.core core).node.find ⟨core, op.seq, 0, 0, 0⟩ = none) :
    ∃ a, ((doRed core op 0 0 s).core core).node.find ⟨core, op.seq, 0, 0, 0⟩ = some a ∧ a.received = op.ext.n ∧
      a.expected = op.ext.n ∧ a.op = iRop op.word := by
  unfold doRed
  extract_lets x y w n red root mine acc atCore key off one base s1 r es
  have hacc' : acc = false := by unfold acc; rw [hacc, Bool.and_false]
  have hred' : red = none := hred
  have hs1 : s1 = s := by unfold s1; rw [hacc', Bool.false_and]; rfl
  have hone : one = 0 := by unfold one; rw [hacc']; rfl
  have hkey : key = ⟨core, op.seq, 0, 0, 0⟩ := by unfold key; rw [hred']
  have hcores : r.s.cores = s.cores := (cores_readRow _ _ _ _ _ _ _ _ _).trans (by rw [hs1])
  have hlen : es.length = n := length_elems r x n
  let term (e : (Elem × Nat) × Nat) : NodeIn :=
    { base with seq := off + one + e.2, hi := (elemF32 e.1).1, lo := if iRop w = 0 then 0 else BitVec.ofNat 32 (dIndexBase x.d + e.2),
                md := op.md ||| r.md ||| (if (elemF32 e.1).2 then mdFlag 7 else 0) }
  have hterms : ∀ i ∈ (es.zip (List.range es.length)).map term,
      i.key = ⟨core, op.seq, 0, 0, 0⟩ ∧ i.op = iRop op.word ∧ i.expected = op.ext.n ∧ i.first = 0 := by
    intro i hi
    obtain ⟨e, -, rfl⟩ := List.mem_map.1 hi
    refine ⟨hkey, rfl, ?_, ?_⟩
    · show n + (if atCore then one else 0) = op.ext.n
      rw [hone, ite_self]
      rfl
    · show (if (atCore && acc) = true then 0 else off + one) = 0
      rw [hacc', hone, Bool.and_false]
      show off = 0
      unfold off
      rw [hred']
      rfl
  have hcount : ((es.zip (List.range es.length)).map term).length = op.ext.n := by
    rw [List.length_map, List.length_zip, List.length_range, Nat.min_self, hlen]
  have hnode : r.s.node (.core core) = (s.core core).node := by
    show (r.s.core core).node = _
    rw [State.core_congr hcores]
  obtain ⟨a, ha, hr, he, ho⟩ := find_enterAll (s := r.s) (nd := .core core) _
    (fun h => hpos (by rw [← hcount, h]; rfl)) hterms hexp (by rw [hnode]; exact hroom) (by rw [hnode]; exact hk)
  refine ⟨a, ?_, hr.trans hcount, he, ho⟩
  rw [← ha]
  unfold forEach
  rw [List.foldl_map]
  rfl

/-! ### The work of an issued REDUCE -/

theorem node_setEmpty (core slot : Nat) (s : State) (j : Nat) : ((setEmpty core slot s).core j).node = (s.core j).node := by
  rw [setEmpty, State.core_modCore]
  split
  · next h => rw [h]
  · rfl

/-- The accesses of a row have the tag mode of its descriptor. -/
theorem tag_rowAcs {kb wr : Bool} {b m k : Nat} {a : Acs} (ha : a ∈ rowAcs kb wr x b m k) : a.tag = dTag x.d := by
  unfold rowAcs at ha
  generalize rowScales kb wr x b m k = qk at ha
  obtain ⟨q, c⟩ := qk
  dsimp only at ha
  split at ha
  · exact absurd ha List.not_mem_nil
  · rcases List.mem_cons.1 ha with rfl | ha
    · rfl
    · split at ha
      · rw [List.mem_singleton.1 ha]
      · exact absurd ha List.not_mem_nil

/-- A row that is not tagged waits on nothing (R159). -/
theorem firstWait_untagged {b m k task : Nat} (h : dTag x.d = 0) : firstWait s core task (rowAcs false false x b m k) = none :=
  List.findSome?_eq_none_iff.2 fun _ ha => if_pos ((tag_rowAcs ha).trans h)

/-- The one element of a REDUCE is worked through at issue. -/
theorem goOn_reduce (hop : (s.core core).op seq = some op) (hseq : op.seq = seq) (hword : iOp op.word = 0x13) (hplan : op.planWait = false)
    (hwait : op.waitSlot = none) (hitems : op.items = [.red 0 0]) (htag : dTag (op.opd 0).d = 0) (hacc : iB205 op.word = false)
    (hred : reductionOf s core seq = none) (hpos : op.ext.n ≠ 0) (hexp : op.ext.n ≤ 2 ^ 20) (hroom : (s.core core).node.used < 512)
    (hk : (s.core core).node.find ⟨core, seq, 0, 0, 0⟩ = none) :
    ∃ a, ((goOn core seq s).core core).node.find ⟨core, seq, 0, 0, 0⟩ = some a ∧ a.received = op.ext.n ∧
      a.expected = op.ext.n ∧ a.op = iRop op.word := by
  subst hseq
  have hfirst : firstWait s core (iTask op.word) (itemAcs s core op (.red 0 0)) = none := by
    have hacs : itemAcs s core op (.red 0 0) = rowAcs false false (op.opd 0) 0 0 op.ext.n := by
      show rowAcs false false (op.opd 0) 0 0 op.ext.n ++ (if (iB205 op.word && isDest s core op.seq) = true then _ else []) = _
      rw [hacc, Bool.false_and]
      exact List.append_nil _
    rw [hacs]
    exact firstWait_untagged htag
  have hdone : ∀ o, ((stepItem core op (.red 0 0) [] s).core core).op op.seq = some o → o.items = [] :=
    (within_stepItem_of core op (.red 0 0) [] s fun t => within_doRed (.refl true true true true t) core op 0 0).2
  have hrest (k : Nat) : runItems core op.seq k (stepItem core op (.red 0 0) [] s) = stepItem core op (.red 0 0) [] s := by
    cases k with
    | zero => rfl
    | succ k =>
      unfold runItems
      split
      · rfl
      · next o ho => rw [hdone o ho]
  have hrun : runItems core op.seq (itemFuel op) s = stepItem core op (.red 0 0) [] s := by
    have hfuel : itemFuel op = 3 := by rw [itemFuel, hitems]; rfl
    rw [hfuel]
    unfold runItems
    rw [hop]
    dsimp only
    rw [hitems]
    dsimp only
    rw [hwait, hword, hfirst]
    exact (if_neg (by simp)).trans (hrest 2)
  have hgo : goOn core op.seq s = stepItem core op (.red 0 0) [] s := by
    have hwake (v : State) : wakeSide core op v = v := if_pos (.inl (by rw [hword]; decide))
    unfold goOn
    rw [hop]
    dsimp only
    rw [hrun, hword, hplan, hwake, show isMacroOp 0x13 = false by decide, Bool.and_false]
    rfl
  generalize hm : modOp core op.seq (fun o => { o with items := [] }) s = m
  have hmnode : (m.core core).node = (s.core core).node := by rw [← hm]; exact node_modOp core op.seq _ s (.core core)
  have hmred : reductionOf m core op.seq = none := by rw [← hm]; exact hred
  obtain ⟨a, ha, hr⟩ := doRed_alone (s := m) hmred hacc hpos hexp (by rw [hmnode]; exact hroom) (by rw [hmnode]; exact hk)
  refine ⟨a, ?_, hr⟩
  rw [← ha, hgo, ← hm]
  unfold stepItem
  refine congrArg (fun nd : Node => nd.find _) ?_
  exact forEach_same (fun v => (v.core core).node) _ (setEmpty core) (fun sl _ v => node_setEmpty core sl v core) _

/-! ### REDUCE goes into flight (R180, R196) -/

/-- The request of a transfer changes one queue of the core and the engine whose turn is next. -/
theorem dmaRequest_effect (core : Nat) (w : BitVec 256) (s : State) :
    (dmaRequest core w s).core core =
        { s.core core with queues := ((dmaRequest core w s).core core).queues, dmaNext := ((dmaRequest core w s).core core).dmaNext } ∧
      (∀ j, j ≠ core → (dmaRequest core w s).core j = s.core j) ∧ dmaRequest core w s = s.withRest (dmaRequest core w s) := by
  unfold dmaRequest
  dsimp only
  split
  · obtain ⟨hother, ⟨hcore, -⟩, -, hrest, -⟩ := passQueue_spec core ((s.core core).dmaNext % 4) s 0
    refine ⟨?_, fun j hj => ?_, ?_⟩
    · rw [State.core_modCore_self, hcore]
    · rw [State.core_modCore, if_neg hj, hother j hj]
    · rw [hrest]
      rfl
  · exact ⟨rfl, fun _ _ => rfl, rfl⟩

/-- A REDUCE takes its place in flight: its core's sequencer goes on, and it is the last instruction in flight there. -/
theorem putInFlight_effect (hword : iOp op.word = 0x13) (s : State) :
    ((putInFlight core op s).core core).sequencer = (s.core core).advanced.sequencer ∧
      ((putInFlight core op s).core core).fixed = (s.core core).fixed ∧
      ((putInFlight core op s).core core).ops = (s.core core).ops ++ [op] ∧
      ((putInFlight core op s).core core).node = (s.core core).node ∧
      (∀ j, j ≠ core → (putInFlight core op s).core j = s.core j) ∧ putInFlight core op s = s.withRest (putInFlight core op s) := by
  obtain ⟨hcore, hother, hrest⟩ := dmaRequest_effect core op.word (advance core s)
  have hadvance := core_advance s core
  unfold putInFlight
  have hvec (t : State) : vectorRequest core op.seq op.word t = t := by
    unfold vectorRequest
    rw [hword, if_neg (by decide), if_neg (by decide)]
  rw [hvec]
  generalize dmaRequest core op.word (advance core s) = d at *
  refine ⟨?_, ?_, ?_, ?_, fun j hj => ?_, ?_⟩
  · rw [State.core_modCore_self, hcore, hadvance]
    rfl
  · rw [State.core_modCore_self, hcore, hadvance]
    rfl
  · rw [State.core_modCore_self, hcore, hadvance]
    rfl
  · rw [State.core_modCore_self, hcore, hadvance]
    rfl
  · rw [State.core_modCore, if_neg hj, hother j hj, advance, State.core_modCore, if_neg hj]
  · rw [hrest]
    rfl

/-- What the work of an instruction keeps of a core, in the terms of the statements. -/
theorem Within.issuedParts (h : Within bh bp ba bi s t) (j : Nat) : (t.core j).sequencer = (s.core j).sequencer ∧
    (t.core j).fixed = (s.core j).fixed ∧ (t.core j).ops.map Op.asIssued = (s.core j).ops.map Op.asIssued := by
  have hk := h.kept j
  simp only [Core.kept, Prod.mk.injEq] at hk
  obtain ⟨hcfg, hdesc, htok, hprog, -, hpos, hended, hwait, hest, hwin, -, -, -, hops⟩ := hk
  refine ⟨by simp only [Core.sequencer, hpos, hended, hwait, htok], by simp only [Core.fixed, hcfg, hprog, hdesc, hest, hwin], ?_⟩
  have hmap (l : List Op) : l.map Op.asIssued = (l.map Op.given).map fun g => (g.1, g.2.1, g.2.2.1, g.2.2.2.1, g.2.2.2.2.1) := by
    rw [List.map_map]
    rfl
  rw [hmap, hmap, hops]

/-- An instruction of which nothing is in flight is the one that has just issued. -/
theorem op_append {c d : Core} (hnew : (c.op seq).isNone = true) (hops : d.ops = c.ops ++ [op]) (hseq : op.seq = seq) :
    d.op seq = some op := by
  have hnone : c.ops.find? (fun o => decide (o.seq = seq)) = none := Option.isNone_iff_eq_none.1 hnew
  unfold Core.op
  rw [hops, List.find?_append, hnone, Option.none_or, List.find?_cons_of_pos (by simpa using hseq)]

/-- Whether an item is a step of a REDUCE. -/
def Item.isRed (i : Item) : Prop := ∃ b m, i = .red b m

/-- A REDUCE that issues and whose work goes on: what is kept, and what is as issue gives it. -/
theorem issueOp_reduce (hword : iOp op.word = 0x13) (hseq : op.seq = seq) (hnew : ((s.core core).op seq).isNone = true)
    (hitems : ∀ i ∈ op.items, i.isRed) :
    Within true true true false (putInFlight core op s) (issueOp core op s) ∧
      ((putInFlight core op s).core core).op seq = some op := by
  obtain ⟨-, -, hops, -⟩ := putInFlight_effect (core := core) hword s
  have hop := op_append hnew hops hseq
  refine ⟨?_, hop⟩
  unfold issueOp
  rw [hseq]
  refine within_goOn_of (fun _ i => i.isRed) (fun _ _ _ _ h => h) core seq ?_ _ ?_ ?_
  · rintro o i t - ⟨b, m, rfl⟩
    exact within_doRed (.refl true true true true t) core o b m
  · intro o ho
    rw [hop] at ho
    rw [← Option.some.inj ho]
    exact hitems
  · intro o ho
    rw [hop] at ho
    rw [← Option.some.inj ho, hword]
    decide

/-! ### The checks of REDUCE at issue (R184, R219) -/

/-- A clamp is flagged, counted and told by an event of the frame, and changes nothing else. -/
theorem shapeClamp_effect (core n : Nat) (s : State) :
    shapeClamp core n s = { s with regs := (shapeClamp core n s).regs, fx := (shapeClamp core n s).fx } ∧
      s.sameRegs (shapeClamp core n s) [sqA core 4, sqA core 8] := by
  refine forEach_keeps (fun t => t = { s with regs := t.regs, fx := t.fx } ∧ s.sameRegs t [sqA core 4, sqA core 8]) _ _ ?_ s
    ⟨rfl, sameRegs_refl s _⟩
  rintro - - t ⟨ht, hr⟩
  refine ⟨by rw [ht]; rfl, sameRegs_of_regs (sameRegs_setBit (sameRegs_addCnt hr 16 16 1 ?_) 0 ?_) rfl⟩ <;> simp

theorem opdOf_headerTaken (s : State) (core : Nat) (w : BitVec 256) (td : Nat) : opdOf (headerTaken s core w) core td = opdOf s core td := by
  have hc := core_headerTaken s core w
  rw [took_eq] at hc
  have hs := headerTaken_eq s core w
  generalize headerTaken s core w = v at *
  have herr : descError v core td = descError s core td := by rw [hs]; rfl
  have hshp (k : Nat) : v.shp core k = s.shp core k := by rw [hs]; rfl
  have htd : (v.core core).td td = (s.core core).td td := by rw [hc]; rfl
  unfold opdOf strideVal
  simp only [htd, herr, hshp]

theorem seg_ne_sticky (core : Nat) : spA core 0x1C ∉ [sqA core 4, sqA core 8] := by
  simp only [List.mem_cons, List.not_mem_nil, or_false, spA, sqA, coreA, dieA]
  omega

theorem clId_ne_sticky (core : Nat) : clId ∉ [sqA core 4, sqA core 8] := by
  simp only [List.mem_cons, List.not_mem_nil, or_false, clId, hubA, sqA, coreA, dieA]
  omega

theorem isDest_congr (himg : t.img = s.img) (hid : t.reg clId = s.reg clId) (core seq : Nat) : isDest t core seq = isDest s core seq := by
  have hm : t.moduleId = s.moduleId := regFld_of_reg hid 0 14
  unfold isDest reductionOf
  rw [contentOf_congr himg, hm]

/-- The instruction that a REDUCE puts in flight. -/
def reduceOp (s : State) (core seq : Nat) (w : BitVec 256) (x y : Opd) (e : Ext) (n : Nat) : Op :=
  { seq := seq, word := w, seg := s.seg core, ext := e, opds := [x, { td := 0, d := 0, pitch := 0, bStride := 0, sideStride := 0 }, y],
    md := clampMd n, items := (allRows e.b e.m).map fun r => .red r.1 r.2, xid := if dLoc y.d = 3 then freeXid s core else 0,
    todo := if isDest s core seq then allRows e.b 1 else [] }

section
variable {body : BitVec 248} {y : Opd} {e : Ext}

/-- A REDUCE that passes its checks issues, with its segment, extents and operands as they were before the attempt. -/
theorem exec_reduce_issues (hw : w = fullWord 0x13 body)
    (hres : anySet w (hdrReserved ++ [(64, 9), (91, 9), (100, 4), (160, 28), (221, 35)]) = false) (hx : x = opdOf s core (iTd1 w))
    (hy : y = opdOf s core (iTdY w)) (hcan : canIssue s core w = true) (hstatic : reduceStatic s w x.d y.d = true)
    (hext : computeExtents s core w x.d 0 = (e, n)) (hm : e.m ≠ 0) (hn : e.n ≠ 0) (hb : e.b ≠ 0)
    (hxok : memExtentOk s false x e.b e.m e.n = true) (hyok : reduceOutOk s (isDest s core (s.core core).pos) w y e.b e.m = true) :
    ∃ u o, exec (.reduce core body) s = answer s (issueOp core o u) ∧ o = reduceOp u core (s.core core).pos w x y e n ∧
      o.seg = s.seg core ∧ u.cores = (headerTaken s core w).cores ∧
      u = { s with cores := u.cores, regs := u.regs, fx := u.fx } := by
  have hopd := opdOf_headerTaken s core w
  have hs := headerTaken_eq s core w
  have hattempt := attempt_headerTaken hcan (startReduce core w)
  generalize hv : headerTaken s core w = v at *
  have hstatic' : reduceStatic v w x.d y.d = true := by rw [← hstatic, hs]; rfl
  have hext' : computeExtents v core w x.d 0 = (e, n) := by rw [← hext, hs]; rfl
  obtain ⟨hu, hregs⟩ := shapeClamp_effect core n v
  generalize huv : shapeClamp core n v = u at *
  have himg : u.img = s.img := by rw [hu, hs]
  have hregv (a : Nat) : v.reg a = s.reg a := State.reg_congr (by rw [hs]) a
  have hdest : isDest u core (s.core core).pos = isDest s core (s.core core).pos :=
    isDest_congr himg ((hregs _ (clId_ne_sticky core)).trans (hregv _)) core _
  have hxok' : memExtentOk u false x e.b e.m e.n = true := by rw [← hxok, hu, hs]; rfl
  have hyok' : reduceOutOk u (isDest u core (s.core core).pos) w y e.b e.m = true := by rw [hdest, ← hyok, hu, hs]; rfl
  refine ⟨u, reduceOp u core (s.core core).pos w x y e n, ?_, rfl, regFld_of_reg ((hregs _ (seg_ne_sticky core)).trans (hregv _)) 16 6,
    by rw [hu], by rw [hu, hs]⟩
  have hrun : exec (.reduce core body) s = answer s (attempt core w (startReduce core w) s) := by rw [hw]; rfl
  rw [hrun, hattempt]
  refine congrArg (answer s) ?_
  unfold startReduce
  rw [hopd, hopd, ← hx, ← hy]
  dsimp only
  rw [hres, hstatic', hext', huv]
  dsimp only
  rw [hxok', hyok', if_neg (by decide), if_neg (by tauto), if_neg (by decide)]
  rfl

end

/-- Settles O34: a REDUCE that passes its checks goes into flight and its steps run; they change no byte, and the terms of a
single element, with no other core's and no pair of TD_Y, are all taken by the core node. -/
theorem reduceIssues : Obligations.ReduceIssues := by
  unfold Obligations.ReduceIssues
  intro s core body w x y e n hw hres hx hy hcan hstatic hext hm hn hb hxok hyok
  obtain ⟨hcan, hnew⟩ := Bool.and_eq_true_iff.1 hcan
  obtain ⟨u, o, hexec, ho, hseg, hcores, hu⟩ := exec_reduce_issues hw hres hx hy hcan hstatic hext hm hn hb hxok hyok
  have hword : iOp o.word = 0x13 := by
    have : o.word = w := by rw [ho]; rfl
    rw [this, hw, iOp_fullWord]
    rfl
  have hseq : o.seq = (s.core core).pos := by rw [ho]; rfl
  have hucore : u.core core = (s.core core).took (headerPairs s core w) :=
    (State.core_congr hcores core).trans (core_headerTaken s core w)
  have huother (j : Nat) (hj : j ≠ core) : u.core j = s.core j :=
    (State.core_congr hcores j).trans ((onlyCore_headerTaken s core w).1 j hj)
  have htook := took_eq (s.core core) (headerPairs s core w)
  have hitems : ∀ i ∈ o.items, i.isRed := by
    rw [ho]
    intro i hi
    obtain ⟨r, -, rfl⟩ := List.mem_map.1 hi
    exact ⟨r.1, r.2, rfl⟩
  obtain ⟨hseqv, hfixv, hopsv, hnodev, hotherv, hv⟩ := putInFlight_effect (core := core) hword u
  obtain ⟨hwithin, hop⟩ := issueOp_reduce (core := core) hword hseq (s := u) (by rw [hucore, htook]; exact hnew) hitems
  have hgo : issueOp core o u = goOn core (s.core core).pos (putInFlight core o u) := by rw [issueOp, hseq]
  generalize hvv : putInFlight core o u = v at *
  have hpend : (issueOp core o u).pending = s.pending := by rw [hwithin.pending, hv, hu]; rfl
  rw [hucore] at hseqv hfixv hopsv hnodev
  refine ⟨issueOp core o u, hexec.trans (answer_eq hpend), ⟨?_, ?_, fun j hj => ?_, fun j => ?_, ?_, ?_, ?_, ?_, hpend⟩, ?_, ?_⟩
  · rw [(hwithin.issuedParts core).1, hseqv, advanced_took]
  · rw [(hwithin.issuedParts core).2.2, hopsv, took_ops, List.map_append, List.map_singleton, Op.asIssued, hseg, ho]
    rfl
  · obtain ⟨hsq, -, hops⟩ := hwithin.issuedParts j
    rw [hsq, hops, hotherv j hj, huother j hj]
    exact ⟨rfl, rfl⟩
  · rw [(hwithin.issuedParts j).2.1]
    by_cases hj : j = core
    · rw [hj, hfixv, htook]
      rfl
    · rw [hotherv j hj, huother j hj]
  · rw [hwithin.tk, hv, hu]
    rfl
  · rw [hwithin.img, hv, hu]
    rfl
  · rw [hwithin.sec, hv, hu]
    rfl
  · rw [hwithin.bist, hv, hu]
    rfl
  · refine sameBytes_of_mems ?_
    rw [State.mems, hwithin.hbm rfl, hwithin.spad rfl, hwithin.mac rfl, hwithin.scale rfl, hv, hu]
    rfl
  · intro htag hacc hred hm1 hb1 hexp hroom hk
    have hnode : (v.core core).node = (s.core core).node := by rw [hnodev, htook]
    have himg : v.img = s.img := by rw [hv, hu]; rfl
    rw [hgo]
    obtain ⟨a, ha, hr, he, hop'⟩ := goOn_reduce hop hseq hword (by rw [ho]; rfl) (by rw [ho]; rfl) (by rw [ho, reduceOp, hm1, hb1]; rfl)
      (by rw [ho]; exact htag) (by rw [ho]; exact hacc) (by unfold reductionOf; rw [contentOf_congr himg]; exact hred)
      (by rw [ho]; exact hn) (by rw [ho]; exact hexp) (by rw [hnode]; exact hroom) (by rw [hnode]; exact hk)
    refine ⟨a, ha, ?_, ?_, ?_⟩
    · rw [hr, ho]
      rfl
    · rw [he, ho]
      rfl
    · rw [hop', ho]
      rfl

end Sys2Proof.Machine

end

section
/-! PROOFS. An image becomes active (R256, R260). -/

namespace Sys2Proof.Machine

variable {s t u : State} {core : Nat} {g : Option CoreSect}

/-! ### What loading an image leaves -/

/-- The registers of Tables 2.9, 9.10 and 13.17 that the statement speaks of. -/
def loadedRegs : List Nat := [ftStatus, nmCtrl, fxCtrl]

/-- The slots and the active image, the sandglass, HBM, the arrays, the security core and three registers are as they were. -/
structure Loads (s t : State) : Prop where
  whole : t.img.whole = s.img.whole
  slots : t.img.slots = s.img.slots
  actA : t.img.actA = s.img.actA
  pend : t.img.pend = s.img.pend
  groups : t.img.groups = s.img.groups
  low : ∀ a ∈ loadedRegs, t.reg a = s.reg a
  tk : t.tk = s.tk
  hbm : t.hbm = s.hbm
  mac : t.mac = s.mac
  scale : t.scale = s.scale
  sec : t.sec = s.sec
  pending : t.pending = s.pending

theorem Loads.refl (s : State) : Loads s s := ⟨rfl, rfl, rfl, rfl, rfl, fun _ _ => rfl, rfl, rfl, rfl, rfl, rfl, rfl⟩

theorem Loads.trans (h : Loads s t) (k : Loads t u) : Loads s u :=
  ⟨k.whole.trans h.whole, k.slots.trans h.slots, k.actA.trans h.actA, k.pend.trans h.pend, k.groups.trans h.groups,
    fun a ha => (k.low a ha).trans (h.low a ha), k.tk.trans h.tk, k.hbm.trans h.hbm, k.mac.trans h.mac, k.scale.trans h.scale,
    k.sec.trans h.sec, k.pending.trans h.pending⟩

theorem Loads.setReg (h : Loads s t) {a : Nat} (ha : a ∉ loadedRegs) (v : Word) : Loads s (t.setReg a v) := by
  have hlow : ∀ b ∈ loadedRegs, (t.setReg a v).reg b = s.reg b := fun b hb => by
    have hne : b ≠ a := fun e => ha (e ▸ hb)
    rw [State.reg_setReg, if_neg hne]
    exact h.low b hb
  exact { h with low := hlow }

theorem Loads.modCore (h : Loads s t) (i : Nat) (f : Core → Core) : Loads s (t.modCore i f) := { h with low := h.low }

theorem Loads.event (h : Loads s t) (k : EventOnly t u) (hr : t.sameRegs u eventRegs) : Loads s u := by
  have hlow : ∀ a ∈ loadedRegs, a ∉ eventRegs := by decide
  exact h.trans ⟨by rw [k.img], by rw [k.img], by rw [k.img], by rw [k.img], by rw [k.img],
    fun a ha => hr a (hlow a ha), k.tk, k.hbm, k.mac, k.scale, k.sec, k.pending⟩

theorem Loads.pushEvent (h : Loads s t) (e : Event) : Loads s (pushEvent e t) :=
  h.event (eventOnly_pushEvent (.refl t) e) (regs_pushEvent e t)

theorem Loads.forEach {α : Type} (l : List α) {f : α → State → State} (hf : ∀ x u, Loads s u → Loads s (f x u)) (h : Loads s t) :
    Loads s (forEach l f t) := forEach_keeps (Loads s) l f (fun x _ u hu => hf x u hu) t h

/-- A register of a core's block is none of those. -/
theorem coreA_not_loaded (blk core off : Nat) : coreA blk core off ∉ loadedRegs := by
  have h := dieA_le_coreA blk core off
  simp only [loadedRegs, List.mem_cons, List.not_mem_nil, or_false, ftStatus, nmCtrl, fxCtrl, hubA, dieA] at h ⊢
  omega

theorem linkA_not_loaded (i off : Nat) : linkA i off ∉ loadedRegs := by
  simp only [loadedRegs, List.mem_cons, List.not_mem_nil, or_false, ftStatus, nmCtrl, fxCtrl, hubA, linkA]
  omega

/-- A register of one core is written. -/
theorem Loads.coreReg (h : Loads s t) (blk core off : Nat) (v : Word) : Loads s (t.setReg (coreA blk core off) v) :=
  h.setReg (coreA_not_loaded blk core off) v

/-! ### One core (R253, R260) -/

/-- A core with its new configuration, and nothing left of before. -/
structure Fresh (g : Option CoreSect) (c d : Core) : Prop where
  cfg : d.cfg = g
  ops : d.ops = []
  ver : d.ver = []
  windows : d.windows = []
  prog : d.prog = none
  tokens : d.tokens = c.tokens

/-- One core is loaded, the others are as they were. -/
structure CoreLoaded (core : Nat) (g : Option CoreSect) (s t : State) : Prop where
  loads : Loads s t
  self : Fresh g (s.core core) (t.core core)
  others : ∀ j, j ≠ core → t.core j = s.core j

theorem CoreLoaded.coreReg (h : CoreLoaded core g s t) (blk off : Nat) (v : Word) :
    CoreLoaded core g s (t.setReg (coreA blk core off) v) := ⟨h.loads.coreReg blk core off v, h.self, h.others⟩

theorem CoreLoaded.modCore (h : CoreLoaded core g s t) (f : Core → Core)
    (hf : Fresh g (s.core core) (t.core core) → Fresh g (s.core core) (f (t.core core))) : CoreLoaded core g s (t.modCore core f) := by
  refine ⟨h.loads.modCore core f, ?_, fun j hj => ?_⟩
  · rw [State.core_modCore_self]
    exact hf h.self
  · rw [State.core_modCore, if_neg hj]
    exact h.others j hj

theorem CoreLoaded.forEach {α : Type} (l : List α) {f : α → State → State}
    (hf : ∀ x u, CoreLoaded core g s u → CoreLoaded core g s (f x u)) (h : CoreLoaded core g s t) : CoreLoaded core g s (forEach l f t) :=
  forEach_keeps (CoreLoaded core g s) l f (fun x _ u hu => hf x u hu) t h

theorem CoreLoaded.roles (h : CoreLoaded core g s t) (rows : Nat) (roles : List (Nat × RoleEntry)) :
    CoreLoaded core g s (loadRoles core rows roles t) :=
  (h.forEach _ fun _ _ hu => hu.coreReg _ _ _).coreReg _ _ _

theorem CoreLoaded.spad (h : CoreLoaded core g s t) (banks : Bool) (c : CoreSect) : CoreLoaded core g s (loadSpad core banks c t) := by
  unfold loadSpad
  extract_lets p s1 s2 pwr s3
  have h1 : CoreLoaded core g s s1 := h.forEach _ fun _ _ hu => (hu.coreReg _ _ _).coreReg _ _ _
  have h3 : CoreLoaded core g s s3 := (h1.coreReg _ _ _).coreReg _ _ _
  split
  · exact (h3.coreReg _ _ _).coreReg _ _ _
  · exact h3

theorem CoreLoaded.token (h : CoreLoaded core g s t) (c : CoreSect) : CoreLoaded core g s (loadToken core c t) := by
  unfold loadToken
  extract_lets k s1 s2
  have h2 : CoreLoaded core g s s2 := (h.coreReg _ _ _).modCore _ fun hc => { hc with }
  refine h2.forEach _ fun q u hu => ?_
  dsimp only
  split
  · exact hu
  · exact hu.coreReg _ _ _

theorem CoreLoaded.banks (h : CoreLoaded core g s t) : CoreLoaded core g s (setBanks core t) := by
  unfold setBanks
  dsimp only
  split
  · exact h
  · exact h.modCore _ fun hc => { hc with }

theorem CoreLoaded.clearOff (h : CoreLoaded core g s t) (old : Nat → Nat) : CoreLoaded core g s (clearOffBanks core old t) :=
  ⟨{ h.loads with low := h.loads.low }, h.self, h.others⟩

/-- The core as it is cleared before its section is loaded. -/
theorem coreLoaded_cleared (core : Nat) (g : Option CoreSect) (s : State) :
    CoreLoaded core g s (s.modCore core fun c =>
      { c with cfg := g, desc := [], full := [], ver := [], gather := [], prog := none, loaded := none, ended := false, waiting := none,
               ops := [], macros := [], localPos := [], windows := [], winPend := [], waits := [] }) := by
  refine ⟨(Loads.refl s).modCore core _, ?_, fun j hj => ?_⟩
  · rw [State.core_modCore_self]
    exact ⟨rfl, rfl, rfl, rfl, rfl, rfl⟩
  · rw [State.core_modCore, if_neg hj]

theorem coreLoaded_loadCore (core : Nat) (g : Option CoreSect) (s : State) : CoreLoaded core g s (loadCore core g s) := by
  have h := coreLoaded_cleared core g s
  unfold loadCore
  generalize (fun b => bankPwr s core b) = old
  dsimp only
  cases g with
  | none => exact (((h.roles _ _).coreReg _ _ _).coreReg _ _ _).banks.clearOff old
  | some c =>
    have hdesc := h.modCore (fun d => { d with desc := c.descs.foldl (fun m d => SMap.set (fun _ => 0) m d.1 d.2) [] })
      fun hc => ⟨hc.cfg, hc.ops, hc.ver, hc.windows, hc.prog, hc.tokens⟩
    exact ((hdesc.roles c.scrubRows c.roles).spad true c |>.token c).banks.clearOff old

/-- Every core of a list without repetition is loaded with its own section. -/
theorem loads_loadCores (l : List Nat) (hl : l.Nodup) (sect : Nat → Option CoreSect) (b : Bool) (s : State) :
    let t := forEach l (fun i t => (loadCore i (sect i) t).putBit (sqA i 0) 31 b) s
    Loads s t ∧ (∀ i ∈ l, Fresh (sect i) (s.core i) (t.core i)) ∧ ∀ j, j ∉ l → t.core j = s.core j := by
  induction l generalizing s with
  | nil => exact ⟨.refl s, fun _ h => absurd h List.not_mem_nil, fun _ _ => rfl⟩
  | cons i l ih =>
    obtain ⟨hi, hl⟩ := List.nodup_cons.1 hl
    have h := (coreLoaded_loadCore i (sect i) s).coreReg 0x500000 0
      (putB ((loadCore i (sect i) s).reg (sqA i 0)) 31 b)
    obtain ⟨hloads, hin, hout⟩ := ih hl ((loadCore i (sect i) s).putBit (sqA i 0) 31 b)
    have h : CoreLoaded i (sect i) s ((loadCore i (sect i) s).putBit (sqA i 0) 31 b) := h
    dsimp only at hloads hin hout ⊢
    rw [forEach_cons]
    refine ⟨h.loads.trans hloads, fun j hj => ?_, fun j hj => ?_⟩
    · rcases List.mem_cons.1 hj with rfl | hj
      · rw [hout j hi]
        exact h.self
      · have hne : j ≠ i := fun e => hi (e ▸ hj)
        rw [← h.others j hne]
        exact hin j hj
    · rw [List.mem_cons, not_or] at hj
      rw [hout j hj.2, h.others j hj.1]

/-! ### Links, estimates and power (R244, R295, R351) -/

theorem Loads.capacityChanged (h : Loads s t) (status : Nat) : Loads s (capacityChanged status t) := by
  unfold Machine.capacityChanged
  extract_lets s1 s2
  have h1 : Loads s s1 := by
    have h0 : Loads s (t.setBit fxCapSum 30) := h.setReg (by decide) _
    exact h0.trans ⟨rfl, rfl, rfl, rfl, rfl, fun _ _ => rfl, rfl, rfl, rfl, rfl, rfl, rfl⟩
  have h2 : Loads s s2 := h1.pushEvent _
  cases hb : (!(s2.img.pend.any (·.whole)) && (activeRequires s2).any fun r => !withinCapacity s2 r)
  · exact h2
  · exact h2.trans ⟨rfl, rfl, rfl, rfl, rfl, fun _ _ => rfl, rfl, rfl, rfl, rfl, rfl, rfl⟩

theorem Loads.setLinkState (h : Loads s t) (i st reason : Nat) : Loads s (setLinkState i st reason t) := by
  unfold Machine.setLinkState
  extract_lets was s1 now
  have h1 : Loads s s1 := (h.setReg (linkA_not_loaded i 0) _).setReg (linkA_not_loaded i 0) _
  split
  · exact h1
  · exact h1.capacityChanged _

theorem loads_checkWiring (c : ImageContent) (s : State) : Loads s (checkWiring c s) := by
  refine (Loads.refl s).forEach _ fun e u hu => ?_
  dsimp only
  split
  · exact Loads.setLinkState (hu.setReg (by decide) _) _ _ _
  · exact hu

/-- The cores and the result tags, which no link state changes. -/
theorem checkWiring_leaves (c : ImageContent) (s : State) :
    (checkWiring c s).cores = s.cores ∧ (checkWiring c s).port.resultTags = s.port.resultTags := by
  refine forEach_keeps (fun t => t.cores = s.cores ∧ t.port.resultTags = s.port.resultTags) _ _ (fun e _ u hu => ?_) s ⟨rfl, rfl⟩
  dsimp only
  split
  · have hcap (st : Nat) (v : State) : (capacityChanged st v).cores = v.cores ∧
        (capacityChanged st v).port.resultTags = v.port.resultTags := by
      unfold capacityChanged
      extract_lets s1 s2
      have hev : s2.cores = s1.cores ∧ s2.port.resultTags = s1.port.resultTags :=
        ⟨(eventOnly_pushEvent (.refl s1) _).cores, by unfold s2 raiseKind raiseKindAt; rw [(eventful_pushEvent _ s1).port]⟩
      exact ⟨(whenS_same (·.cores) _ (fun t => t.modFx fun f => { f with capHalt := true }) (fun _ => rfl) s2).trans hev.1,
        (whenS_same (·.port.resultTags) _ (fun t => t.modFx fun f => { f with capHalt := true }) (fun _ => rfl) s2).trans hev.2⟩
    unfold setLinkState
    extract_lets was s1 now
    split
    · exact hu
    · exact ⟨(hcap _ s1).1.trans hu.1, (hcap _ s1).2.trans hu.2⟩
  · exact hu

theorem loads_loadPower (v : Nat) (s : State) : Loads s (loadPower v s) ∧ (loadPower v s).cores = s.cores := by
  unfold loadPower
  split
  · exact ⟨.refl s, rfl⟩
  · exact ⟨((Loads.refl s).setReg (by decide) _).setReg (by decide) _, rfl⟩

/-- The estimates of cores start; the rest of a core stays. -/
structure EstOnly (s t : State) : Prop where
  loads : Loads s t
  cores : ∀ j, t.core j = { s.core j with est := (t.core j).est, stale := (t.core j).stale }
  port : t.port = s.port

theorem EstOnly.modCore (h : EstOnly s t) (i : Nat) (f : Core → Core)
    (hf : f (t.core i) = { t.core i with est := (f (t.core i)).est, stale := (f (t.core i)).stale }) : EstOnly s (t.modCore i f) := by
  refine ⟨h.loads.modCore i f, fun j => ?_, h.port⟩
  rw [State.core_modCore]
  split
  · next e =>
    subst e
    rw [hf, h.cores]
  · exact h.cores j

theorem estOnly_startEstimates (cores : List Nat) (id : DWord) (s : State) : EstOnly s (startEstimates cores id s) := by
  unfold startEstimates
  extract_lets pick keys s1
  have h0 : EstOnly s s := ⟨.refl s, fun _ => rfl, rfl⟩
  have h1 : EstOnly s s1 := by
    refine forEach_keeps (EstOnly s) _ _ (fun i _ u hu => ?_) s h0
    have hu1 := hu.modCore i (fun c => { c with est := [], stale := [] }) rfl
    dsimp only
    split
    · exact hu1
    · exact ⟨hu1.loads.coreReg _ _ _ _, hu1.cores, hu1.port⟩
  refine forEach_keeps (EstOnly s) _ _ (fun k _ u hu => ?_) s1 h1
  dsimp only
  split
  · exact hu.modCore _ _ rfl
  · exact hu

/-! ### Slots and the FRAME section (R35, R256) -/

theorem content_slotState (i st j : Nat) (s : State) : ((slotState i st s).slot j).content = (s.slot j).content := by
  by_cases hi : i < s.img.slots.length
  · have h : (slotState i st s).slot j = if j = i then { s.slot i with state := st } else s.slot j := nth_set _ _ _ _ _ hi
    rw [h]
    split
    · next e => rw [e]
    · rfl
  · have h : (slotState i st s).img.slots = s.img.slots := List.set_eq_of_length_le (Nat.not_lt.1 hi)
    rw [slot_congr h]

theorem length_slotState (i st : Nat) (s : State) : (slotState i st s).img.slots.length = s.img.slots.length := List.length_set

/-- The slots' states have changed, and nothing else. -/
structure SlotStates (s t : State) : Prop where
  content : ∀ j, (t.slot j).content = (s.slot j).content
  length : t.img.slots.length = s.img.slots.length
  eq : t = { s with img := t.img }

theorem SlotStates.slotState (h : SlotStates s t) (i st : Nat) : SlotStates s (slotState i st t) :=
  ⟨fun j => (content_slotState i st j t).trans (h.content j), (length_slotState i st t).trans h.length,
    by rw [h.eq]; rfl⟩

/-- Registers and the sandglass alone have changed. -/
def ClockOnly (s t : State) : Prop := ∃ r k, t = { s with regs := r, tk := k }

theorem ClockOnly.setReg (h : ClockOnly s t) (a : Nat) (v : Word) : ClockOnly s (t.setReg a v) := by
  obtain ⟨r, k, rfl⟩ := h
  exact ⟨_, k, rfl⟩

theorem ClockOnly.modTk (h : ClockOnly s t) (f : TickSt → TickSt) : ClockOnly s (t.modTk f) := by
  obtain ⟨r, k, rfl⟩ := h
  exact ⟨r, _, rfl⟩

theorem ClockOnly.eq (h : ClockOnly s t) : t = { s with regs := t.regs, tk := t.tk } := by
  obtain ⟨r, k, rfl⟩ := h
  rfl

/-- A new source of the tick keeps the period. -/
theorem sourceChanged_effect (old : Nat) (h : ClockOnly s t) :
    ClockOnly s (sourceChanged old t) ∧ (sourceChanged old t).tk.period = t.tk.period := by
  unfold sourceChanged
  extract_lets src s1
  split
  · exact ⟨h, rfl⟩
  · have h1 : ClockOnly s s1 := h.modTk _
    cases decide (src ≠ 1)
    · exact ⟨h1, rfl⟩
    · exact ⟨h1.setReg _ _, rfl⟩

theorem loadFrameSect_effect (f : FrameSect) (s : State) :
    ClockOnly s (loadFrameSect f s) ∧ (loadFrameSect f s).tk.period = f.periodNs := by
  unfold loadFrameSect
  extract_lets old s1 s2
  have h2 : ClockOnly s s2 := by
    have h0 : ClockOnly s s := ⟨_, _, rfl⟩
    exact (((h0.setReg _ _).setReg _ _).setReg _ _).setReg _ _
  exact sourceChanged_effect old (h2.modTk _)

/-! ### Tags (R379) -/

/-- A map reads its default where it has no entry. -/
theorem SMap.get_no_entry {α : Type} (d : Nat → α) {m : SMap α} {k : Nat} (h : ∀ e ∈ m, e.1 ≠ k) : SMap.get d m k = d k := by
  induction m with
  | nil => rfl
  | cons x m ih =>
    obtain ⟨j, v⟩ := x
    rw [SMap.get, if_neg (h _ List.mem_cons_self)]
    exact ih fun e he => h e (List.mem_cons_of_mem _ he)

theorem resultFull_freeTags {k : Nat} (hc : core < 768) (hk : k < 4096) (ht : t.port.resultTags = (freeTags allCores s).port.resultTags) :
    t.resultFull core k = false := by
  unfold State.resultFull
  rw [ht]
  refine SMap.get_no_entry _ fun e he hek => ?_
  have hmem : (!allCores.contains (e.1 / 4096)) = true := (List.mem_filter.1 he).2
  have hdiv : e.1 / 4096 = core := by rw [hek, tagKey]; omega
  have hin : allCores.contains core = true := List.contains_iff_mem.2 (List.mem_range.2 hc)
  rw [hdiv, hin] at hmem
  exact Bool.noConfusion hmem

/-! ### The activation -/

/-- The registers that a whole image loads beside those of its FRAME section. -/
def loadRegs (c : ImageContent) (s : State) : State :=
  let s := s.setFld fxCtrl 0 4 c.domain.replayMax
  let s := (s.setReg64 nmHist (BitVec.ofNat 64 c.pingpong.histAddr)).setReg64 nmHistSide (BitVec.ofNat 64 c.pingpong.histSide)
  (s.setReg nmCtrl c.nmCtrl).setFld ftStatus 8 2 0

theorem reg_setReg64_other (s : State) {a b : Nat} (h : b ≠ a) (h4 : b ≠ a + 4) (v : DWord) : (s.setReg64 a v).reg b = s.reg b := by
  rw [State.setReg64, State.reg_setReg, if_neg h4, State.reg_setReg, if_neg h]

/-- Registers alone have changed. -/
def RegsOnly (s t : State) : Prop := ∃ r, t = { s with regs := r }

theorem RegsOnly.setReg (h : RegsOnly s t) (a : Nat) (v : Word) : RegsOnly s (t.setReg a v) := by
  obtain ⟨r, rfl⟩ := h
  exact ⟨_, rfl⟩

theorem RegsOnly.eq (h : RegsOnly s t) : t = { s with regs := t.regs } := by
  obtain ⟨r, rfl⟩ := h
  rfl

theorem loadRegs_effect (c : ImageContent) (s : State) :
    RegsOnly s (loadRegs c s) ∧ (loadRegs c s).variant = 0 ∧ (loadRegs c s).reg nmCtrl = c.nmCtrl ∧
      (loadRegs c s).regFld fxCtrl 0 4 = c.domain.replayMax % 16 := by
  have hframe : RegsOnly s (loadRegs c s) := by
    have h0 : RegsOnly s s := ⟨_, rfl⟩
    exact ((((((h0.setReg _ _).setReg _ _).setReg _ _).setReg _ _).setReg _ _).setReg _ _).setReg _ _
  refine ⟨hframe, ?_⟩
  unfold loadRegs
  dsimp only
  have hfld : (s.setFld fxCtrl 0 4 c.domain.replayMax).regFld fxCtrl 0 4 = c.domain.replayMax % 16 :=
    State.regFld_setFld_self s fxCtrl 0 4 c.domain.replayMax (by omega)
  generalize s.setFld fxCtrl 0 4 c.domain.replayMax = s1 at hfld
  have hhist (a b : DWord) : ((s1.setReg64 nmHist a).setReg64 nmHistSide b).reg fxCtrl = s1.reg fxCtrl := by
    rw [reg_setReg64_other _ (by decide) (by decide), reg_setReg64_other _ (by decide) (by decide)]
  have hhist := hhist (BitVec.ofNat 64 c.pingpong.histAddr) (BitVec.ofNat 64 c.pingpong.histSide)
  generalize State.setReg64 (s1.setReg64 nmHist _) nmHistSide _ = s2 at hhist
  refine ⟨State.regFld_setFld_self _ ftStatus 8 2 0 (by omega), ?_, ?_⟩
  · rw [State.reg_setFld_other _ (by decide), State.reg_setReg, if_pos rfl]
  · rw [regFld_of_reg (State.reg_setFld_other _ (by decide) 8 2 0), regFld_of_reg ((State.reg_setReg s2 _ _ _).trans (if_neg (by decide))),
      regFld_of_reg hhist, hfld]

/-- The slots' states as an image becomes active: those of before are VERIFIED, its own is ACTIVE. -/
def activeSlots (slot : Nat) (s : State) : State :=
  slotState slot 3 (forEach (s.img.whole.toList ++ s.img.groups.map (·.2)) (fun i t => slotState i 2 t) s)

theorem activeSlots_effect {slot : Nat} (hlen : s.img.slots.length = 4) (hslot : slot < 4) :
    SlotStates s (activeSlots slot s) ∧ ((activeSlots slot s).slot slot).state = 3 := by
  have hbefore : SlotStates s (forEach (s.img.whole.toList ++ s.img.groups.map (·.2)) (fun i t => slotState i 2 t) s) :=
    forEach_keeps (SlotStates s) _ _ (fun i _ t ht => ht.slotState i 2) s ⟨fun _ => rfl, rfl, rfl⟩
  unfold activeSlots
  generalize forEach (s.img.whole.toList ++ s.img.groups.map (·.2)) (fun i t => slotState i 2 t) s = t at hbefore
  refine ⟨hbefore.slotState slot 3, ?_⟩
  rw [slotState, slot_setSlot (hbefore.length.trans hlen) hslot, if_pos rfl]

/-- The image unit as a whole image becomes active. -/
def newImage (p : Pend) (c : ImageContent) (old : List (Nat × Region)) (g : ImageSt) : ImageSt :=
  { g with whole := some p.slot, groups := [], groupBase := [], actA := p.a, wholeA := p.a, pend := none, varCount := 0, varSkip := true,
           updRec := [], sides := initialSides old g.sides c.pingpong.regions,
           unitInfo := initialInfo old g.unitInfo c.pingpong.regions, quietTo := 0, quietGroup := none }

/-- The state in which the cores are loaded. -/
def loadGlobals (p : Pend) (c : ImageContent) (s : State) : State :=
  loadPower 0 (loadRegs c (loadFrameSect c.frame ((activeSlots p.slot s).modImg (newImage p c s.regions))))

/-- The state in which the cores are loaded, and their tags freed. -/
def loadAllCores (c : ImageContent) (s : State) : State :=
  forEach allCores (fun i t => (loadCore i (c.cores.find? fun g => g.core = i) t).putBit (sqA i 0) 31 c.fwTiling) s

/-- The state as the cores are loaded, with the links and estimates of the new image. -/
def loadRest (c : ImageContent) (s : State) : State :=
  startEstimates allCores c.imageId (checkWiring c (freeTags allCores (loadAllCores c s)))

/-- The commit unit starts anew. -/
def newCommit (p : Pend) (f : CommitSt) : CommitSt :=
  { f with wfn := p.a - 1, halt := 0, hold := false, rework := [], attempts := 0, resumeAt := none, exportPeer := none, lastWork := {} }

theorem activateWhole_eq (p : Pend) (c : ImageContent) (s : State) : activateWhole p c s =
    raiseKindAt p.a 2 stOK 0 p.a.toNat
      (((loadRest c (loadGlobals p c s)).modFx (newCommit p)).modPwr fun w => { w with preRamp := none, ramping := false }) := rfl

/-- The state in which the cores are loaded: the globals of the new image. -/
theorem loadGlobals_effect {p : Pend} {c : ImageContent} (hlen : s.img.slots.length = 4) (hslot : p.slot < 4)
    (hc : s.slotContent p.slot = some c) :
    let t := loadGlobals p c s
    (t.img.whole = some p.slot ∧ t.img.actA = p.a ∧ t.img.pend = none ∧ t.img.groups = [] ∧ (t.slot p.slot).state = 3 ∧
      (t.slot p.slot).content = some c) ∧
    (t.variant = 0 ∧ t.reg nmCtrl = c.nmCtrl ∧ t.regFld fxCtrl 0 4 = c.domain.replayMax % 16 ∧ t.tk.period = c.frame.periodNs) ∧
    t.cores = s.cores ∧ t.hbm = s.hbm ∧ t.mac = s.mac ∧ t.scale = s.scale ∧ t.sec = s.sec ∧ t.pending = s.pending := by
  dsimp only
  obtain ⟨hslots, hstate⟩ := activeSlots_effect hlen hslot
  have hcontent : ((activeSlots p.slot s).slot p.slot).content = some c := (hslots.content _).trans hc
  have heq := hslots.eq
  unfold loadGlobals
  generalize activeSlots p.slot s = s1 at *
  generalize s.regions = old
  obtain ⟨hclock, hperiod⟩ := loadFrameSect_effect c.frame (s1.modImg (newImage p c old))
  have hclock := hclock.eq
  generalize loadFrameSect c.frame (s1.modImg (newImage p c old)) = s2 at *
  obtain ⟨hregs, hvariant, hctrl, hmax⟩ := loadRegs_effect c s2
  have hregs := hregs.eq
  generalize loadRegs c s2 = s3 at *
  obtain ⟨hloads, hcores⟩ := loads_loadPower 0 s3
  generalize loadPower 0 s3 = t at *
  have himg : s3.img = newImage p c old s1.img := by rw [hregs, hclock]; rfl
  have hslot3 : t.slot p.slot = s1.slot p.slot := slot_congr (by rw [hloads.slots, himg]; rfl) _
  have hlow {a : Nat} (ha : a ∈ loadedRegs) : t.reg a = s3.reg a := hloads.low a ha
  refine ⟨⟨?_, ?_, ?_, ?_, ?_, ?_⟩, ⟨?_, ?_, ?_, ?_⟩, ?_, ?_, ?_, ?_, ?_, ?_⟩
  · rw [hloads.whole, himg]
    rfl
  · rw [hloads.actA, himg]
    rfl
  · rw [hloads.pend, himg]
    rfl
  · rw [hloads.groups, himg]
    rfl
  · rw [hslot3, hstate]
  · rw [hslot3, hcontent]
  · rw [← hvariant]
    exact regFld_of_reg (hlow (by decide)) 8 2
  · rw [hlow (by decide), hctrl]
  · rw [regFld_of_reg (hlow (by decide)), hmax]
  · rw [hloads.tk, hregs, hperiod]
  · rw [hcores, hregs, hclock, State.modImg, heq]
  · rw [hloads.hbm, hregs, hclock, State.modImg, heq]
  · rw [hloads.mac, hregs, hclock, State.modImg, heq]
  · rw [hloads.scale, hregs, hclock, State.modImg, heq]
  · rw [hloads.sec, hregs, hclock, State.modImg, heq]
  · rw [hloads.pending, hregs, hclock, State.modImg, heq]

/-- The cores of the new image, their tags, its links and estimates. -/
theorem loadRest_effect (c : ImageContent) (s : State) :
    Loads s (loadRest c s) ∧ (∀ i, i < 768 → Fresh (c.cores.find? fun g => g.core = i) (s.core i) ((loadRest c s).core i)) ∧
      ∀ core k, core < 768 → k < 4096 → (loadRest c s).resultFull core k = false := by
  unfold loadRest
  obtain ⟨hcores, hfresh, -⟩ := loads_loadCores allCores List.nodup_range (fun i => c.cores.find? fun g => g.core = i) c.fwTiling s
  have hfresh : ∀ i ∈ allCores, Fresh (c.cores.find? fun g => g.core = i) (s.core i) ((loadAllCores c s).core i) := hfresh
  have hcores : Loads s (loadAllCores c s) := hcores
  generalize loadAllCores c s = s1 at *
  have hfree : Loads s1 (freeTags allCores s1) := ⟨rfl, rfl, rfl, rfl, rfl, fun _ _ => rfl, rfl, rfl, rfl, rfl, rfl, rfl⟩
  have hwire := loads_checkWiring c (freeTags allCores s1)
  obtain ⟨hwcores, hwtags⟩ := checkWiring_leaves c (freeTags allCores s1)
  have hest := estOnly_startEstimates allCores c.imageId (checkWiring c (freeTags allCores s1))
  generalize checkWiring c (freeTags allCores s1) = s2 at *
  generalize startEstimates allCores c.imageId s2 = t at *
  refine ⟨((hcores.trans hfree).trans hwire).trans hest.loads, fun i hi => ?_, fun core k hcore hk => ?_⟩
  · obtain ⟨hcfg, hops, hver, hwin, hprog, htok⟩ := hfresh i (List.mem_range.2 hi)
    have hs2 : s2.core i = s1.core i := (State.core_congr hwcores i).trans rfl
    rw [hest.cores i, hs2]
    exact ⟨hcfg, hops, hver, hwin, hprog, htok⟩
  · exact resultFull_freeTags hcore hk (by rw [hest.port, hwtags])

/-- A whole image becomes active at its tick. -/
theorem activation_effect {p : Pend} {c : ImageContent} (hpend : s.img.pend = some p) (ha : p.a = s.fn + 1) (hgo : p.go = true)
    (hwhole : p.whole = true) (hlen : s.img.slots.length = 4) (hslot : p.slot < 4) (hc : s.slotContent p.slot = some c) :
    ∃ t, exec .imageActivation s = .next t ∧ t.img.whole = some p.slot ∧ (t.slot p.slot).state = 3 ∧ t.image = some c ∧
      t.img.actA = p.a ∧ t.img.pend = none ∧ t.img.groups = [] ∧ t.fx.wfn = p.a - 1 ∧ t.fx.halt = 0 ∧ t.fx.rework = [] ∧
      t.variant = 0 ∧ t.reg nmCtrl = c.nmCtrl ∧ t.regFld fxCtrl 0 4 = c.domain.replayMax % 16 ∧ t.tk.period = c.frame.periodNs ∧
      (∀ i, i < 768 → (t.core i).cfg = (c.cores.find? fun g => g.core = i) ∧ (t.core i).ops = [] ∧ (t.core i).ver = [] ∧
        (t.core i).windows = [] ∧ (t.core i).prog = none ∧ (t.core i).tokens = (s.core i).tokens) ∧
      (∀ core k, core < 768 → k < 4096 → t.resultFull core k = false) ∧ t.hbm = s.hbm ∧ t.mac = s.mac ∧ t.scale = s.scale ∧
      t.sec = s.sec := by
  have hexec : exec .imageActivation s = answer s (activateWhole p c s) := by
    have hnow : (s.img.pend.map fun p => decide (p.a = s.fn + 1)).getD false = true := by
      rw [hpend]
      exact decide_eq_true ha
    have hact : activate s = activateWhole p c s := by
      unfold activate
      rw [hpend]
      dsimp only
      rw [hgo, hc]
      dsimp only
      rw [hwhole]
      rfl
    rw [← hact]
    exact congrArg (answer s) (if_pos hnow)
  rw [activateWhole_eq] at hexec
  obtain ⟨⟨gwhole, gactA, gpend, ggroups, gstate, gcontent⟩, ⟨gvariant, gctrl, gmax, gperiod⟩, gcores, ghbm, gmac, gscale, gsec,
    gpending⟩ := loadGlobals_effect hlen hslot hc
  generalize loadGlobals p c s = s1 at *
  obtain ⟨hloads, hfresh, htags⟩ := loadRest_effect c s1
  generalize loadRest c s1 = s2 at *
  generalize hs3 : (s2.modFx (newCommit p)).modPwr (fun w => { w with preRamp := none, ramping := false }) = s3 at *
  have h3 : Loads s2 s3 := hs3 ▸ ⟨rfl, rfl, rfl, rfl, rfl, fun _ _ => rfl, rfl, rfl, rfl, rfl, rfl, rfl⟩
  have hfx3 : s3.fx = newCommit p s2.fx := hs3 ▸ rfl
  have hcores3 : s3.cores = s2.cores := hs3 ▸ rfl
  have hport3 : s3.port = s2.port := hs3 ▸ rfl
  have h4 : Loads s3 (raiseKindAt p.a 2 stOK 0 p.a.toNat s3) := (Loads.refl s3).pushEvent _
  have hev : EventOnly s3 (raiseKindAt p.a 2 stOK 0 p.a.toNat s3) := eventOnly_pushEvent (.refl s3) _
  have hport : (raiseKindAt p.a 2 stOK 0 p.a.toNat s3).port.resultTags = s3.port.resultTags := by
    rw [raiseKindAt, (eventful_pushEvent _ s3).port]
  generalize raiseKindAt p.a 2 stOK 0 p.a.toNat s3 = t at *
  have hall := (hloads.trans h3).trans h4
  have hfx : t.fx = newCommit p s2.fx := hev.fx.trans hfx3
  have hslots : t.slot p.slot = s1.slot p.slot := slot_congr hall.slots _
  have hwhole : t.img.whole = some p.slot := hall.whole.trans gwhole
  refine ⟨t, hexec.trans (answer_eq (hall.pending.trans gpending)), hwhole, by rw [hslots, gstate], ?_, hall.actA.trans gactA,
    hall.pend.trans gpend, hall.groups.trans ggroups, by rw [hfx]; rfl, by rw [hfx]; rfl, by rw [hfx]; rfl, ?_, ?_, ?_, ?_, fun i hi => ?_,
    fun core k hcore hk => ?_, hall.hbm.trans ghbm, hall.mac.trans gmac, hall.scale.trans gscale, hall.sec.trans gsec⟩
  · unfold State.image
    rw [hwhole]
    show (t.slot p.slot).content = some c
    rw [hslots, gcontent]
  · rw [← gvariant]
    exact regFld_of_reg (hall.low _ (by decide)) 8 2
  · rw [hall.low _ (by decide), gctrl]
  · rw [regFld_of_reg (hall.low _ (by decide)), gmax]
  · rw [hall.tk, gperiod]
  · obtain ⟨hcfg, hops, hver, hwin, hprog, htok⟩ := hfresh i hi
    have hcore : t.core i = s2.core i := State.core_congr (hev.cores.trans hcores3) i
    have hcore1 : s1.core i = s.core i := State.core_congr gcores i
    rw [hcore]
    exact ⟨hcfg, hops, hver, hwin, hprog, by rw [htok, hcore1]⟩
  · have htag := htags core k hcore hk
    unfold State.resultFull at htag ⊢
    rw [hport, hport3]
    exact htag

/-- Settles O46: the globals of the new image are loaded first, then each core with its section; the tags are freed, and links and
estimates follow, which leave all that the statement speaks of. -/
theorem activationTakesEffectAtItsTick : Obligations.ActivationTakesEffectAtItsTick := by
  unfold Obligations.ActivationTakesEffectAtItsTick
  refine ⟨fun s p c hpend ha hgo hwhole hlen hslot hc => activation_effect hpend ha hgo hwhole hlen hslot hc, fun s h => ?_⟩
  have hnone : (if (s.img.pend.map fun p => decide (p.a = s.fn + 1)).getD false then activate s else s) = s := by
    split
    · next hnow =>
      unfold activate
      split
      · rfl
      · next p hp =>
        rw [hp] at hnow
        have hgo := (h p hp).resolve_left fun hne => hne (of_decide_eq_true hnow)
        rw [hgo]
        rfl
    · rfl
  exact (congrArg (answer s) hnone).trans (answer_eq rfl)

end Sys2Proof.Machine

end

section
/-! PROOFS. COMMIT is applied (R165, R325, R335, R379). -/

namespace Sys2Proof.Machine

variable {s t u : State} {core k : Nat} {f : FrameRec}

/-! ### What a commit changes -/

/-- A slot whose version pending for the frame before the running one becomes current. -/
def VerSlot.committed (v : VerSlot) : VerSlot :=
  match v.pendPrev with
  | none => v
  | some n => { v with cur := n, pendPrev := none, tdsPrev := [], mdPrev := 0 }

theorem VerSlot.committed_none {v : VerSlot} (h : v.pendPrev = none) : v.committed = v := by unfold committed; rw [h]

theorem VerSlot.committed_some {v : VerSlot} {n : Nat} (h : v.pendPrev = some n) :
    v.committed = { v with cur := n, pendPrev := none, tdsPrev := [], mdPrev := 0 } := by unfold committed; rw [h]

theorem VerSlot.pendPrev_committed (v : VerSlot) : v.committed.pendPrev = none := by
  cases h : v.pendPrev with
  | none => rw [committed_none h, h]
  | some n => rw [committed_some h]

theorem VerSlot.committed_committed (v : VerSlot) : v.committed.committed = v.committed := committed_none v.pendPrev_committed

/-- Versions become current and their result tags FULL; the scratchpads, the arrays, the sandglass, the place of the history and,
without a history, HBM are as they were, and so are the halt, the hold and the work to run again. -/
structure Promotes (s t : State) : Prop where
  ver : ∀ j k, (t.core j).verOf k = (s.core j).verOf k ∨ (t.core j).verOf k = ((s.core j).verOf k).committed
  kept : ∀ j k, s.resultFull j k = true → t.resultFull j k = true
  tag : ∀ j k, ((s.core j).verOf k).pendPrev ≠ none → ((t.core j).verOf k).pendPrev = none → t.resultFull j k = true
  pend : t.img.pend = s.img.pend
  hist : t.reg64 nmHist = s.reg64 nmHist
  hbm : s.reg64 nmHist = 0 → t.hbm = s.hbm
  spad : t.spad = s.spad
  mac : t.mac = s.mac
  scale : t.scale = s.scale
  tk : t.tk = s.tk
  pending : t.pending = s.pending
  halt : t.fx.halt = s.fx.halt
  hold : t.fx.hold = s.fx.hold
  rework : t.fx.rework = s.fx.rework
  noVote : t.fx.noVote = s.fx.noVote

/-- The cores' versions, the result tags, the memories and the history's place are the same. -/
theorem promotes_of_same (hver : ∀ j, (t.core j).ver = (s.core j).ver) (htags : t.port.resultTags = s.port.resultTags)
    (hpend : t.img.pend = s.img.pend) (hhist : t.reg64 nmHist = s.reg64 nmHist) (hhbm : s.reg64 nmHist = 0 → t.hbm = s.hbm)
    (hspad : t.spad = s.spad) (hmac : t.mac = s.mac) (hscale : t.scale = s.scale) (htk : t.tk = s.tk) (hq : t.pending = s.pending)
    (hfx : (t.fx.halt, t.fx.hold, t.fx.rework, t.fx.noVote) = (s.fx.halt, s.fx.hold, s.fx.rework, s.fx.noVote)) : Promotes s t := by
  have hv (j k : Nat) : (t.core j).verOf k = (s.core j).verOf k := by unfold Core.verOf; rw [hver]
  have hf (j k : Nat) : t.resultFull j k = s.resultFull j k := by unfold State.resultFull; rw [htags]
  simp only [Prod.mk.injEq] at hfx
  obtain ⟨hhalt, hhold, hrework, hnoVote⟩ := hfx
  refine ⟨fun j k => .inl (hv j k), fun j k h => (hf j k).trans h, fun j k h h' => absurd ((congrArg _ (hv j k).symm).trans h') h,
    hpend, hhist, hhbm, hspad, hmac, hscale, htk, hq, hhalt, hhold, hrework, hnoVote⟩

theorem Promotes.refl (s : State) : Promotes s s := promotes_of_same (fun _ => rfl) rfl rfl rfl (fun _ => rfl) rfl rfl rfl rfl rfl rfl

/-- A version that is not pending stays so. -/
theorem Promotes.settled (h : Promotes s t) {j k : Nat} (hn : ((s.core j).verOf k).pendPrev = none) :
    ((t.core j).verOf k).pendPrev = none := by
  rcases h.ver j k with hv | hv
  · rw [hv, hn]
  · rw [hv, VerSlot.pendPrev_committed]

theorem Promotes.trans (h : Promotes s t) (g : Promotes t u) : Promotes s u := by
  have hver : ∀ j k, (u.core j).verOf k = (s.core j).verOf k ∨ (u.core j).verOf k = ((s.core j).verOf k).committed := by
    intro j k
    rcases g.ver j k with hg | hg <;> rcases h.ver j k with hh | hh
    · exact .inl (hg.trans hh)
    · exact .inr (hg.trans hh)
    · exact .inr (by rw [hg, hh])
    · exact .inr (by rw [hg, hh, VerSlot.committed_committed])
  have htag : ∀ j k, ((s.core j).verOf k).pendPrev ≠ none → ((u.core j).verOf k).pendPrev = none → u.resultFull j k = true := by
    intro j k hs hu
    by_cases ht : ((t.core j).verOf k).pendPrev = none
    · exact g.kept j k (h.tag j k hs ht)
    · exact g.tag j k ht hu
  exact ⟨hver, fun j k hk => g.kept j k (h.kept j k hk), htag, g.pend.trans h.pend, g.hist.trans h.hist,
    fun hz => (g.hbm (h.hist.trans hz)).trans (h.hbm hz), g.spad.trans h.spad, g.mac.trans h.mac, g.scale.trans h.scale, g.tk.trans h.tk,
    g.pending.trans h.pending, g.halt.trans h.halt, g.hold.trans h.hold, g.rework.trans h.rework, g.noVote.trans h.noVote⟩

/-- The same, and the image unit is as it was. -/
structure Commits (s t : State) : Prop extends Promotes s t where
  img : t.img = s.img

theorem Commits.refl (s : State) : Commits s s := ⟨.refl s, rfl⟩

theorem Commits.trans (h : Commits s t) (g : Commits t u) : Commits s u := ⟨h.toPromotes.trans g.toPromotes, g.img.trans h.img⟩

theorem reg64_setReg_other {a b : Nat} (h : b ≠ a) (h4 : b + 4 ≠ a) (v : Word) (s : State) : (s.setReg a v).reg64 b = s.reg64 b := by
  unfold State.reg64
  rw [State.reg_setReg, if_neg h4, State.reg_setReg, if_neg h]

theorem commits_setReg {a : Nat} (h : nmHist ≠ a) (h4 : nmHist + 4 ≠ a) (v : Word) (s : State) : Commits s (s.setReg a v) :=
  ⟨promotes_of_same (fun _ => rfl) rfl rfl (reg64_setReg_other h h4 v s) (fun _ => rfl) rfl rfl rfl rfl rfl rfl, rfl⟩

theorem Commits.setReg (h : Commits s t) {a : Nat} (ha : nmHist ≠ a) (h4 : nmHist + 4 ≠ a) (v : Word) : Commits s (t.setReg a v) :=
  h.trans (commits_setReg ha h4 v t)

/-- A register of the numerics block of a core is written. -/
theorem Commits.nmReg (h : Commits s t) (core off : Nat) (v : Word) : Commits s (t.setReg (nmA core off) v) := by
  have hle : dieA 0 0 ≤ nmA core off := dieA_le_coreA 0x600000 core off
  simp only [dieA] at hle
  refine h.setReg ?_ ?_ v <;> simp only [nmHist, hubA] <;> omega

theorem Commits.modCore (h : Commits s t) (i : Nat) (g : Core → Core) (hg : (g (t.core i)).ver = (t.core i).ver) :
    Commits s (t.modCore i g) := by
  refine h.trans ⟨promotes_of_same (fun j => ?_) rfl rfl rfl (fun _ => rfl) rfl rfl rfl rfl rfl rfl, rfl⟩
  rw [State.core_modCore]
  split
  · next e => rw [hg, e]
  · rfl

theorem Commits.modFx (h : Commits s t) (g : CommitSt → CommitSt)
    (hg : ((g t.fx).halt, (g t.fx).hold, (g t.fx).rework, (g t.fx).noVote) = (t.fx.halt, t.fx.hold, t.fx.rework, t.fx.noVote)) :
    Commits s (t.modFx g) := h.trans ⟨promotes_of_same (fun _ => rfl) rfl rfl rfl (fun _ => rfl) rfl rfl rfl rfl rfl hg, rfl⟩

theorem Commits.pushEvent (h : Commits s t) (e : Event) : Commits s (pushEvent e t) := by
  have k := eventOnly_pushEvent (.refl t) e
  have hr := regs_pushEvent e t
  have hnot : nmHist ∉ eventRegs ∧ nmHist + 4 ∉ eventRegs := by decide
  have hhist : (Machine.pushEvent e t).reg64 nmHist = t.reg64 nmHist := by
    unfold State.reg64
    rw [hr _ hnot.1, hr _ hnot.2]
  exact h.trans ⟨promotes_of_same (fun j => by rw [State.core_congr k.cores]) (by rw [(eventful_pushEvent e t).port]) (by rw [k.img]) hhist
    (fun _ => k.hbm) k.spad k.mac k.scale k.tk k.pending (by rw [k.fx]), k.img⟩

theorem Commits.whenS (h : Commits s t) (b : Bool) {g : State → State} (hg : ∀ v, Commits s v → Commits s (g v)) :
    Commits s (whenS b g t) := by
  cases b
  · exact h
  · exact hg t h

theorem Commits.forEach {α : Type} (h : Commits s t) (l : List α) {g : α → State → State}
    (hg : ∀ x v, Commits s v → Commits s (g x v)) : Commits s (forEach l g t) :=
  forEach_keeps (Commits s) l g (fun x _ v hv => hg x v hv) t h

/-! ### The versions of a core (R165, R379) -/

/-- A core in which one slot has committed. -/
def Core.commitVer (k : Nat) (c : Core) : Core := { c with ver := SMap.set (fun _ => {}) c.ver k (c.verOf k).committed }

theorem verOf_commitVer (c : Core) (k x : Nat) : (c.commitVer k).verOf x = if x = k then (c.verOf k).committed else c.verOf x := by
  unfold Core.commitVer Core.verOf
  exact SMap.get_set _ _ _ _ _

/-- The tag of a slot becomes FULL, with what its record says. -/
def markFull (core k : Nat) (i : DWord × Word) (p : PortSt) : PortSt :=
  { p with resultTags := SMap.set (fun _ => false) p.resultTags (tagKey core k) true,
           resultInfo := SMap.set (fun _ => (0, 0)) p.resultInfo (tagKey core k) i }

theorem commitSlot_none (w : DWord) (h : ((s.core core).verOf k).pendPrev = none) : commitSlot w core k s = s := by
  unfold commitSlot
  dsimp only
  rw [h]

theorem commitSlot_some (w : DWord) {n : Nat} (h : ((s.core core).verOf k).pendPrev = some n) : commitSlot w core k s =
    (s.modCore core (Core.commitVer k)).modPort (markFull core k (w, slotMeta (s.core core) ((s.core core).verOf k))) := by
  have hc (v : VerSlot) (hv : ((s.core core).verOf k).committed = v) :
      { s.core core with ver := SMap.set (fun _ => {}) (s.core core).ver k v } = (s.core core).commitVer k := by
    rw [← hv]
    rfl
  unfold commitSlot
  dsimp only
  rw [h]
  dsimp only
  rw [hc _ (VerSlot.committed_some h)]
  rfl

/-- A slot commits: its version becomes current, its tag FULL. -/
theorem commits_commitSlot (w : DWord) (core k : Nat) (s : State) : Commits s (commitSlot w core k s) ∧
    (((commitSlot w core k s).core core).verOf k).pendPrev = none := by
  cases hn : ((s.core core).verOf k).pendPrev with
  | none =>
    rw [commitSlot_none w hn]
    exact ⟨.refl s, hn⟩
  | some n =>
    rw [commitSlot_some w hn]
    generalize (w, slotMeta (s.core core) ((s.core core).verOf k)) = i
    generalize ht : (s.modCore core (Core.commitVer k)).modPort (markFull core k i) = t
    have hcore (j : Nat) : t.core j = if j = core then (s.core core).commitVer k else s.core j :=
      by rw [← ht, State.core_congr (State.modPort_cores _ _), State.core_modCore]
    have hself : (t.core core).verOf k = ((s.core core).verOf k).committed := by
      rw [hcore, if_pos rfl, verOf_commitVer, if_pos rfl]
    have hother (j x : Nat) (h : ¬(j = core ∧ x = k)) : (t.core j).verOf x = (s.core j).verOf x := by
      rw [hcore]
      split
      · next e =>
        subst e
        rw [verOf_commitVer, if_neg fun hx => h ⟨rfl, hx⟩]
      · rfl
    have hport : t.port.resultTags = SMap.set (fun _ => false) s.port.resultTags (tagKey core k) true := by rw [← ht]; rfl
    have htag (j x : Nat) : t.resultFull j x = if tagKey j x = tagKey core k then true else s.resultFull j x :=
      by unfold State.resultFull; rw [hport, SMap.get_set]
    have hver : ∀ j x, (t.core j).verOf x = (s.core j).verOf x ∨ (t.core j).verOf x = ((s.core j).verOf x).committed := by
      intro j x
      by_cases h : j = core ∧ x = k
      · rw [h.1, h.2]
        exact .inr hself
      · exact .inl (hother j x h)
    have hkept : ∀ j x, s.resultFull j x = true → t.resultFull j x = true := by
      intro j x h
      rw [htag]
      split
      · rfl
      · exact h
    have hfull : ∀ j x, ((s.core j).verOf x).pendPrev ≠ none → ((t.core j).verOf x).pendPrev = none → t.resultFull j x = true := by
      intro j x h h'
      by_cases e : j = core ∧ x = k
      · rw [htag, e.1, e.2, if_pos rfl]
      · rw [hother j x e] at h'
        exact absurd h' h
    have heq : t = { s with cores := t.cores, port := t.port } := by rw [← ht]; rfl
    refine ⟨⟨⟨hver, hkept, hfull, ?_, ?_, fun _ => ?_, ?_, ?_, ?_, ?_, ?_, ?_, ?_, ?_, ?_⟩, ?_⟩,
      by rw [hself, VerSlot.pendPrev_committed]⟩
    all_goals
      rw [heq]
    rfl

/-- Every slot of the core that has a version commits. -/
theorem commits_slots (w : DWord) (core : Nat) (l : List Nat) (s : State) : Commits s (forEach l (commitSlot w core) s) ∧
    ∀ k ∈ l, (((forEach l (commitSlot w core) s).core core).verOf k).pendPrev = none := by
  induction l generalizing s with
  | nil => exact ⟨.refl s, fun _ h => absurd h List.not_mem_nil⟩
  | cons x l ih =>
    obtain ⟨hx, hnone⟩ := commits_commitSlot w core x s
    obtain ⟨hl, hrest⟩ := ih (commitSlot w core x s)
    rw [forEach_cons]
    refine ⟨hx.trans hl, fun k hk => ?_⟩
    rcases List.mem_cons.1 hk with rfl | hk
    · exact hl.settled hnone
    · exact hrest k hk

/-! ### Estimates, watch and stale layers (R243, R247, R248) -/

theorem Commits.commitEst (h : Commits s t) (w : DWord) (core : Nat) : Commits s (commitEst w core t) := by
  refine h.forEach _ fun o u hu => ?_
  obtain ⟨e, sat, warm⟩ := estCommit ((u.core core).estOf o.entry) o
  refine Commits.whenS (Commits.whenS (hu.modCore core _ rfl) sat fun v hv => ?_) warm fun v hv => ?_
  · exact (hv.nmReg core 0 _).nmReg core 4 _
  · exact (hv.nmReg core 0 _).pushEvent _

theorem Commits.commitWatch (h : Commits s t) (core : Nat) : Commits s (commitWatch core t) :=
  h.modCore core (fun c => { c with watch := _ }) rfl

theorem Commits.modCur (h : Commits s t) (g : FrameRec → FrameRec) : Commits s (t.modCur g) :=
  h.modFx (fun x => { x with cur := g x.cur }) rfl

theorem Commits.stageEvent (h : Commits s t) (e : Event) : Commits s (stageEvent e t) := h.modCur _

theorem Commits.commitStale (h : Commits s t) (w : DWord) (core : Nat) : Commits s (commitStale w core t) := by
  refine h.forEach _ fun layer u hu => ?_
  extract_lets changed c e silent hit e' stale s1 a s2
  have h1 : Commits s s1 := hu.modCore core (fun c => { c with stale := stale }) rfl
  split
  · exact h1
  · have h2 : Commits s s2 := h1.whenS _ fun v hv => hv.nmReg core 8 _
    exact (h2.nmReg core 0 _).stageEvent _

theorem commits_commitCore (w : DWord) (core : Nat) (s : State) : Commits s (commitCore w core s) ∧
    ∀ k, (((commitCore w core s).core core).verOf k).pendPrev = none := by
  unfold commitCore
  obtain ⟨hslots, hnone⟩ := commits_slots w core ((s.core core).ver.map (·.1)) s
  dsimp only
  generalize forEach ((s.core core).ver.map (·.1)) (commitSlot w core) s = v at *
  have hrest : Commits v (commitStale w core (commitWatch core (commitEst w core v))) :=
    (((Commits.refl v).commitEst w core).commitWatch core).commitStale w core
  refine ⟨hslots.trans hrest, fun k => hrest.settled ?_⟩
  by_cases hk : k ∈ (s.core core).ver.map (·.1)
  · exact hnone k hk
  · refine hslots.settled ?_
    have hdefault : (s.core core).verOf k = {} :=
      SMap.get_no_entry (fun _ => ({} : VerSlot)) fun e he hek => hk (List.mem_map.2 ⟨e, he, hek⟩)
    rw [hdefault]

/-- Every core commits. -/
theorem commits_cores (w : DWord) (l : List Nat) (s : State) : Commits s (forEach l (commitCore w) s) ∧
    ∀ j ∈ l, ∀ k, (((forEach l (commitCore w) s).core j).verOf k).pendPrev = none := by
  induction l generalizing s with
  | nil => exact ⟨.refl s, fun _ h => absurd h List.not_mem_nil⟩
  | cons x l ih =>
    obtain ⟨hx, hnone⟩ := commits_commitCore w x s
    obtain ⟨hl, hrest⟩ := ih (commitCore w x s)
    rw [forEach_cons]
    refine ⟨hx.trans hl, fun j hj => ?_⟩
    rcases List.mem_cons.1 hj with rfl | hj
    · exact fun k => hl.settled (hnone k)
    · exact hrest j hj

/-- A core that is not listed has no version pending. -/
theorem verOf_unlisted {j : Nat} (h : j ∉ s.cores.map (·.1)) (k : Nat) : ((s.core j).verOf k).pendPrev = none := by
  have hcore : s.core j = {} := SMap.get_no_entry (fun _ => ({} : Core)) fun e he hej => h (List.mem_map.2 ⟨e, he, hej⟩)
  rw [hcore]
  rfl

/-! ### The rest of a commit (R245, R325, R328, R378) -/

/-- The history is written, or refused with its event. -/
theorem commits_writeHistory (w : DWord) (s : State) : Commits s (writeHistory w s) := by
  unfold writeHistory
  dsimp only
  split
  · exact .refl s
  · next hz =>
    split
    · exact ((Commits.refl s).setReg (by decide) (by decide) _).pushEvent _
    · exact ⟨promotes_of_same (fun _ => rfl) rfl rfl rfl (fun h => absurd h hz) rfl rfl rfl rfl rfl rfl, rfl⟩

theorem Commits.answerOn (h : Commits s t) (port : Nat) (a : Answer) : Commits s (answerOn port a t) := by
  unfold Machine.answerOn
  extract_lets s1
  have h1 : Commits s s1 := h.trans ⟨promotes_of_same (fun _ => rfl) rfl rfl rfl (fun _ => rfl) rfl rfl rfl rfl rfl rfl, rfl⟩
  exact h1.whenS _ fun v hv => hv.trans ⟨promotes_of_same (fun _ => rfl) rfl rfl rfl (fun _ => rfl) rfl rfl rfl rfl rfl rfl, rfl⟩

theorem Commits.releaseEvents (h : Commits s t) (f : FrameRec) : Commits s (releaseEvents f t) := by
  unfold Machine.releaseEvents
  extract_lets evs s1
  have h1 : Commits s s1 := h.whenS _ fun v hv => (hv.setReg (by decide) (by decide) _).setReg (by decide) (by decide) _
  exact h1.forEach _ fun e v hv => hv.pushEvent e

theorem Commits.answerInputs (h : Commits s t) (f : FrameRec) : Commits s (answerInputs f t) := by
  unfold Machine.answerInputs
  extract_lets bad s1
  have h1 : Commits s s1 := h.forEach _ fun x v hv => by
    split
    · exact hv
    · exact hv.answerOn _ _
  exact h1.forEach _ fun x v hv => hv.answerOn _ _

/-- Each of a list of units without repetition changes its side. -/
theorem get_toggles (l : List Nat) (hl : l.Nodup) (m : SMap Bool) (k : Nat) :
    SMap.get (fun _ => false) (l.foldl (fun m k => SMap.set (fun _ => false) m k (!(SMap.get (fun _ => false) m k))) m) k =
      if k ∈ l then !SMap.get (fun _ => false) m k else SMap.get (fun _ => false) m k := by
  induction l generalizing m with
  | nil => rfl
  | cons x l ih =>
    obtain ⟨hx, hl⟩ := List.nodup_cons.1 hl
    rw [List.foldl_cons, ih hl, SMap.get_set]
    by_cases hk : k = x
    · subst hk
      rw [if_neg hx, if_pos rfl, if_pos List.mem_cons_self]
    · rw [if_neg hk]
      simp only [List.mem_cons, hk, false_or]

/-- The cores commit with the frame's own staging list. -/
theorem commits_stagingIn (h : Commits s t) (f : FrameRec) (l : List Nat) :
    Commits s (stagingIn f (forEach l (commitCore f.wfn)) t).2 ∧
      (∀ j ∈ l, ∀ k, (((stagingIn f (forEach l (commitCore f.wfn)) t).2.core j).verOf k).pendPrev = none) ∧
      (stagingIn f (forEach l (commitCore f.wfn)) t).1.units = f.units := by
  unfold stagingIn
  extract_lets v
  have hstart : Commits s (t.modCur fun c => { c with events := f.events, beyond := f.beyond }) := h.modCur _
  obtain ⟨hcores, hnone⟩ := commits_cores f.wfn l (t.modCur fun c => { c with events := f.events, beyond := f.beyond })
  refine ⟨?_, hnone, rfl⟩
  dsimp only
  exact Commits.modCur (hstart.trans hcores) _

/-- A frame commits. -/
theorem commitFrame_effect (hkind : f.kind ≠ .quiet) (hplace : f.inPlace = false) (hunits : f.units.Nodup) (s : State) :
    Promotes s (commitFrame f s) ∧ (∀ j k, (((commitFrame f s).core j).verOf k).pendPrev = none) ∧
      ∀ k, (commitFrame f s).sideOf k = if k ∈ f.units then !s.sideOf k else s.sideOf k := by
  unfold commitFrame
  rw [if_neg (by simp [hkind, hplace])]
  have htags : Commits s (mapTags (commitTag f.wfn) s) :=
    ⟨promotes_of_same (fun _ => rfl) rfl rfl rfl (fun _ => rfl) rfl rfl rfl rfl rfl rfl, rfl⟩
  have hlist : (mapTags (commitTag f.wfn) s).cores = s.cores := rfl
  dsimp only
  obtain ⟨hcores, hnone, hu⟩ := commits_stagingIn htags f (s.cores.map (·.1))
  rw [hlist]
  generalize stagingIn f (forEach (s.cores.map (·.1)) (commitCore f.wfn)) (mapTags (commitTag f.wfn) s) = g at *
  obtain ⟨g, v⟩ := g
  dsimp only at hcores hnone hu ⊢
  generalize hx : v.modImg _ = x
  have hvx : Promotes v x := hx ▸ promotes_of_same (fun _ => rfl) rfl rfl rfl (fun _ => rfl) rfl rfl rfl rfl rfl rfl
  have hrest : Commits x (answerInputs g (releaseEvents g ((writeHistory g.wfn x).modFx fun x =>
      { x with lastWork := g, watchFn := g.wfn, attempts := if x.attemptWfn = g.wfn then 0 else x.attempts }))) :=
    (((commits_writeHistory g.wfn x).modFx _ rfl).releaseEvents g).answerInputs g
  generalize answerInputs g _ = t at *
  refine ⟨(hcores.toPromotes.trans hvx).trans hrest.toPromotes, fun j k => ?_, fun k => ?_⟩
  · by_cases hj : j ∈ s.cores.map (·.1)
    · exact hrest.settled (hvx.settled (hnone j hj k))
    · exact ((hcores.toPromotes.trans hvx).trans hrest.toPromotes).settled (verOf_unlisted hj k)
  · have hsides : x.img.sides = g.units.foldl (fun m k => SMap.set (fun _ => false) m k (!(SMap.get (fun _ => false) m k))) s.img.sides := by
      rw [← hx, ← hcores.img]
      rfl
    unfold State.sideOf
    rw [hrest.img, hsides, hu]
    exact get_toggles f.units hunits s.img.sides k

/-! ### The result is applied (R334, R335) -/

/-- A result without a HOLD ends a hold. -/
theorem applyHold_false (s : State) : Promotes { s with fx := { s.fx with hold := false } } (applyHold false s) := by
  unfold applyHold
  dsimp only
  rw [if_neg (by simp)]
  split
  · exact ((Commits.refl _).pushEvent _).toPromotes
  · exact .refl _

theorem applyHold_leaves (s : State) : (applyHold false s).img.pend = s.img.pend ∧ (applyHold false s).img.sides = s.img.sides := by
  unfold applyHold
  dsimp only
  rw [if_neg (by simp)]
  split
  · have k := eventOnly_pushEvent (.refl { s with fx := { s.fx with hold := false } })
    exact ⟨congrArg (·.pend) (k _).img, congrArg (·.sides) (k _).img⟩
  · exact ⟨rfl, rfl⟩

theorem applyVariant_none (s : State) : applyVariant false false s = s := by
  unfold applyVariant
  simp

theorem applyReadiness_none (r : VotePl) (h : FrameRec) (hp : s.img.pend = none) : applyReadiness r h s = s := by
  unfold applyReadiness
  rw [hp]

/-- Settles O42: the cores, and in each core the slots, that have a version pending commit; what follows leaves versions, tags and
sides, and the result's own record ends the application. -/
theorem commitMakesTheFramesVersionsCurrent : Obligations.CommitMakesTheFramesVersionsCurrent := by
  unfold Obligations.CommitMakesTheFramesVersionsCurrent
  intro s r h hnext hold hflags hactions hpend hkind hplace hunits
  obtain ⟨hframe, hnone, hsides⟩ := commitFrame_effect hkind hplace hunits s
  have hout : applyOutcome r h s = applyHold false (commitFrame h s) := by
    unfold applyOutcome
    rw [hflags, if_pos rfl, hactions, show bit (0 : BitVec 8) 0 = false by decide, show bit (0 : BitVec 8) 1 = false by decide,
      show bit (0 : BitVec 8) 2 = false by decide]
    dsimp only
    rw [applyVariant_none, applyReadiness_none]
    exact (applyHold_leaves _).1.trans (hframe.pend.trans hpend)
  have hhold := applyHold_false (commitFrame h s)
  have himg := (applyHold_leaves (commitFrame h s)).2
  generalize commitFrame h s = v at *
  generalize applyHold false v = x at *
  have hvx : Promotes { v with fx := { v.fx with hold := false } } x := hhold
  have happly : applyNext s = x.modFx fun f =>
      { f with nextFn := afterFrame x r.fn, received := f.received.filter fun y => y.fn ≠ r.fn, applied := true,
               old := f.old.filter fun y => afterFrame x r.fn ≤ y.fn } := by
    unfold applyNext
    rw [hnext]
    dsimp only
    rw [hout, hold]
    rfl
  have hver (j k : Nat) : (x.core j).verOf k = (v.core j).verOf k := by
    rcases hvx.ver j k with hx | hx
    · exact hx
    · exact hx.trans (VerSlot.committed_none (hnone j k))
  have hafter : afterFrame x r.fn = afterFrame s r.fn := by
    unfold afterFrame
    rw [hvx.noVote.trans hframe.noVote]
  rw [hafter] at happly
  refine ⟨_, (congrArg (answer s) happly).trans (answer_eq (hvx.pending.trans hframe.pending)), fun k => ?_, fun core k n hn => ?_,
    fun core k hn => ?_, fun core k n hn => ?_, rfl, rfl, hvx.halt.trans hframe.halt, hvx.hold, hvx.rework.trans hframe.rework,
    hvx.spad.trans hframe.spad, hvx.mac.trans hframe.mac, hvx.scale.trans hframe.scale,
    fun hz => (hvx.hbm (hframe.hist.trans hz)).trans (hframe.hbm hz), hvx.tk.trans hframe.tk⟩
  · rw [← hsides k]
    exact congrArg (fun m => SMap.get (fun _ => false) m k) himg
  · have hc : (v.core core).verOf k = ((s.core core).verOf k).committed := by
      rcases hframe.ver core k with hv | hv
      · exact absurd ((congrArg VerSlot.pendPrev hv).symm.trans (hnone core k)) (by rw [hn]; exact Option.some_ne_none n)
      · exact hv
    show ((x.core core).verOf k).cur = n ∧ ((x.core core).verOf k).pendPrev = none
    rw [hver, hc, VerSlot.committed_some hn]
    exact ⟨rfl, rfl⟩
  · show (x.core core).verOf k = (s.core core).verOf k
    rw [hver]
    rcases hframe.ver core k with hv | hv
    · exact hv
    · exact hv.trans (VerSlot.committed_none hn)
  · exact hvx.kept core k (hframe.tag core k (by rw [hn]; exact Option.some_ne_none n) (hnone core k))

end Sys2Proof.Machine

end

section
/-! PROOFS. The vector unit (R220, R228 to R233): VECOP and UPDATE at issue, and the bound of a kernel. O35 is not settled here: its last
clause is about a number of iterations that the spec leaves to time, a free value (log entry 3). -/

namespace Sys2Proof.Machine

variable {s t u v : State} {bh bp ba : Bool} {core seq n q : Nat} {w : BitVec 256} {op : Op} {e : Ext}

/-! ### A vector instruction takes its place in flight (R180, R196, R221) -/

theorem queueOnly_passQueue (core q item : Nat) (s : State) : QueueOnly core q s (passQueue core q item s) := by
  unfold passQueue
  split
  · exact .refl core q s
  · exact (queueOnly_pushQueue core q item s).trans (queueOnly_setQueue core q _ _)

theorem dmaRequest_vector (h : iOp w = 0x18 ∨ iOp w = 0x19) (core : Nat) (s : State) : dmaRequest core w s = s := by
  have hno : isDmaOp (s.core core) w = false := by
    unfold isDmaOp
    rcases h with h | h <;> rw [h] <;> rfl
  unfold dmaRequest
  dsimp only
  rw [hno]
  rfl

/-- An instruction that needs one queue of its core, and no DMA engine, goes into flight. -/
theorem putInFlight_queueOnly (hdma : ∀ t, dmaRequest core op.word t = t)
    (hq : QueueOnly core q (advance core s) (vectorRequest core op.seq op.word (advance core s))) :
    ((putInFlight core op s).core core).sequencer = (s.core core).advanced.sequencer ∧
      ((putInFlight core op s).core core).fixed = (s.core core).fixed ∧
      ((putInFlight core op s).core core).ops = (s.core core).ops ++ [op] ∧
      ((putInFlight core op s).core core).queue q = ((vectorRequest core op.seq op.word (advance core s)).core core).queue q ∧
      (∀ j, j ≠ core → (putInFlight core op s).core j = s.core j) ∧ s.passedQueue (putInFlight core op s) core q [] ∧
      putInFlight core op s = s.withRest (putInFlight core op s) := by
  have hadvance := core_advance s core
  obtain ⟨hself, hothers, -, hpassed, heq⟩ := hq
  unfold putInFlight
  rw [hdma]
  generalize vectorRequest core op.seq op.word (advance core s) = d at *
  refine ⟨?_, ?_, ?_, ?_, fun j hj => ?_, hpassed, ?_⟩
  · rw [State.core_modCore_self, hself, hadvance]
    rfl
  · rw [State.core_modCore_self, hself, hadvance]
    rfl
  · rw [State.core_modCore_self, hself, hadvance]
    rfl
  · rw [State.core_modCore_self]
    rfl
  · rw [State.core_modCore, if_neg hj, hothers j hj, advance, State.core_modCore, if_neg hj]
  · rw [heq]
    rfl

/-- An instruction issues: its attempt took the header's count, it went into flight, and its work keeps what issue gives. -/
theorem issued_of_work (hnew : ((s.core core).op (s.core core).pos).isNone = true) (hcores : u.cores = (headerTaken s core w).cores)
    (hu : Within true true true true (headerTaken s core w) u) (hgiven : op.asIssued = ((s.core core).pos, w, s.seg core, e, op.opds))
    (hdma : ∀ t, dmaRequest core op.word t = t)
    (hq : QueueOnly core q (advance core u) (vectorRequest core op.seq op.word (advance core u)))
    (hwork : ((putInFlight core op u).core core).op (s.core core).pos = some op → Within bh bp ba false (putInFlight core op u) t) :
    s.issued t core w e op.opds ∧ (bh = true → t.hbm = s.hbm) ∧ (bp = true → t.spad = s.spad) ∧
      (ba = true → t.mac = s.mac ∧ t.scale = s.scale) := by
  obtain ⟨hseqv, hfixv, hopsv, -, hotherv, -, hv⟩ := putInFlight_queueOnly hdma hq
  have hucore : u.core core = (s.core core).took (headerPairs s core w) :=
    (State.core_congr hcores core).trans (core_headerTaken s core w)
  have huother (j : Nat) (hj : j ≠ core) : u.core j = s.core j :=
    (State.core_congr hcores j).trans ((onlyCore_headerTaken s core w).1 j hj)
  have htook := took_eq (s.core core) (headerPairs s core w)
  have hs := headerTaken_eq s core w
  have hwithin := hwork (op_append (by rw [hucore, htook]; exact hnew) hopsv (congrArg Prod.fst hgiven))
  rw [hucore] at hseqv hfixv hopsv
  generalize putInFlight core op u = v at *
  generalize headerTaken s core w = h at *
  refine ⟨⟨?_, ?_, fun j hj => ?_, fun j => ?_, ?_, ?_, ?_, ?_, ?_⟩, fun hh => ?_, fun hh => ?_, fun hh => ⟨?_, ?_⟩⟩
  · rw [(hwithin.issuedParts core).1, hseqv, advanced_took]
  · rw [(hwithin.issuedParts core).2.2, hopsv, took_ops, List.map_append, List.map_singleton, hgiven]
  · obtain ⟨hsq, -, hops⟩ := hwithin.issuedParts j
    rw [hsq, hops, hotherv j hj, huother j hj]
    exact ⟨rfl, rfl⟩
  · rw [(hwithin.issuedParts j).2.1]
    by_cases hj : j = core
    · rw [hj, hfixv, htook]
      rfl
    · rw [hotherv j hj, huother j hj]
  · rw [hwithin.tk, hv, State.withRest, hu.tk, hs]
  · rw [hwithin.img, hv, State.withRest, hu.img, hs]
  · rw [hwithin.sec, hv, State.withRest, hu.sec, hs]
  · rw [hwithin.bist, hv, State.withRest, hu.bist, hs]
  · rw [hwithin.pending, hv, State.withRest, hu.pending, hs]
  · rw [hwithin.hbm hh, hv, State.withRest, hu.hbm rfl, hs]
  · rw [hwithin.spad hh, hv, State.withRest, hu.spad rfl, hs]
  · rw [hwithin.mac hh, hv, State.withRest, hu.mac rfl, hs]
  · rw [hwithin.scale hh, hv, State.withRest, hu.scale rfl, hs]

/-! ### VECOP (R220) -/

/-- The instruction that a VECOP puts in flight. -/
def vecopOp (s : State) (core seq : Nat) (w : BitVec 256) (a b c : Opd) (e : Ext) (n : Nat) : Op :=
  { seq := seq, word := w, seg := s.seg core, ext := e, opds := [a, b, c], md := clampMd n, items := (List.range e.b).map .vec,
    todo := if iB205 w then [] else allRows e.b e.m, shp := kernelShp s core (iKernel w),
    xid := if !iB205 w && decide (dLoc c.d = 3) then freeXid s core else 0 }

/-- A VECOP in flight waits for its completion. -/
theorem goOn_vecop (hop : (s.core core).op seq = some op) (hword : iOp op.word = 0x18) : goOn core seq s = s := by
  unfold goOn
  rw [hop]
  exact if_pos (.inl hword)

/-- The vector unit's queue has room for a VECOP that issues. -/
theorem creditsLeft_vecop (hcan : canIssue s core w = true) (hword : iOp w = 0x18) : creditsLeft (s.core core) 22 ≠ 0 := by
  simp only [canIssue, Bool.and_eq_true, Bool.not_eq_true', queuesFull, List.any_eq_false, decide_eq_true_eq] at hcan
  obtain ⟨⟨⟨⟨-, hroom⟩, -⟩, -⟩, -⟩ := hcan
  refine hroom 22 ?_
  unfold issueQueues
  rw [hword]
  simp

theorem shapeClamp_zero (core : Nat) (s : State) : shapeClamp core 0 s = s := rfl

section
variable {body : BitVec 248} {a b c : Opd}

/-- A VECOP that passes its checks goes into flight. -/
theorem exec_vecop_issues (hw : w = fullWord 0x18 body) (ha : a = opdOf s core (iVa w)) (hb : b = opdOf s core (iVb w))
    (hc : c = opdOf s core (iVc w)) (hcan : canIssue s core w = true) (hres : anySet w vectorReserved = false)
    (hbad : moveExtBad w = false) (hk : iKernel w ≠ 0) (hkernel : kernelOk s core (iKernel w) = true)
    (hra : memRoleOk false [0, 1] memFmtOk a.d = true) (hrb : memRoleOk false [0, 1] memFmtOk b.d = true)
    (hrc : iB205 w = false → outputOk s true c.d = true) (hext : moveExtents s core w a.d = (e, n)) (hm : e.m ≠ 0) (hn : e.n ≠ 0)
    (hbn : e.b ≠ 0) (hxa : memExtentOk s false a e.b e.m e.n = true) (hxb : memExtentOk s false b e.b e.m e.n = true)
    (hxc : iB205 w = false → memExtentOk s true c e.b e.m e.n = true) :
    exec (.vecop core body) s = answer s (issueOp core
      (vecopOp (shapeClamp core n (headerTaken s core w)) core (s.core core).pos w a b c e n) (shapeClamp core n (headerTaken s core w))) := by
  have hopd := opdOf_headerTaken s core w
  have hs := headerTaken_eq s core w
  have hattempt := attempt_headerTaken hcan (startVecop core w)
  have hcore := core_headerTaken s core w
  rw [took_eq] at hcore
  generalize headerTaken s core w = h at *
  have hkernel' : kernelOk h core (iKernel w) = true := by
    rw [← hkernel]
    unfold kernelOk kernelOf
    rw [hcore]
  have hrc' : (!iB205 w && !outputOk h true c.d) = false := by
    rw [show outputOk h true c.d = outputOk s true c.d by rw [hs]; rfl]
    cases hbit : iB205 w
    · rw [hrc hbit]; rfl
    · rfl
  have hext' : moveExtents h core w a.d = (e, n) := by rw [← hext, hs]; rfl
  obtain ⟨hu, -⟩ := shapeClamp_effect core n h
  generalize huv : shapeClamp core n h = u at *
  have hmem (wr : Bool) (o : Opd) : memExtentOk u wr o e.b e.m e.n = memExtentOk s wr o e.b e.m e.n := by rw [hu, hs]; rfl
  have hxc' : (!iB205 w && !memExtentOk u true c e.b e.m e.n) = false := by
    rw [hmem]
    cases hbit : iB205 w
    · rw [hxc hbit]; rfl
    · rfl
  have hrun : exec (.vecop core body) s = answer s (attempt core w (startVecop core w) s) := by rw [hw]; rfl
  rw [hrun, hattempt]
  refine congrArg (answer s) ?_
  unfold startVecop
  rw [hopd, hopd, hopd, ← ha, ← hb, ← hc]
  dsimp only
  rw [hres, hbad, decide_eq_false hk, hkernel', hra, hrb, hrc', hext', huv]
  dsimp only
  rw [hmem, hmem, hxa, hxb, hxc', if_neg (by decide), if_neg (by tauto), if_neg (by decide)]
  rfl

/-- A VECOP that passes its checks issues, waits in the vector unit's queue and changes no byte. -/
theorem vecop_issues (hw : w = fullWord 0x18 body) (ha : a = opdOf s core (iVa w)) (hb : b = opdOf s core (iVb w))
    (hc : c = opdOf s core (iVc w)) (hcan : canIssueNew s core w = true) (hres : anySet w vectorReserved = false)
    (hbad : moveExtBad w = false) (hk : iKernel w ≠ 0) (hkernel : kernelOk s core (iKernel w) = true)
    (hra : memRoleOk false [0, 1] memFmtOk a.d = true) (hrb : memRoleOk false [0, 1] memFmtOk b.d = true)
    (hrc : iB205 w = false → outputOk s true c.d = true) (hext : moveExtents s core w a.d = (e, n)) (hm : e.m ≠ 0) (hn : e.n ≠ 0)
    (hbn : e.b ≠ 0) (hxa : memExtentOk s false a e.b e.m e.n = true) (hxb : memExtentOk s false b e.b e.m e.n = true)
    (hxc : iB205 w = false → memExtentOk s true c e.b e.m e.n = true) :
    ∃ t, exec (.vecop core body) s = .next t ∧ s.issued t core w e [a, b, c] ∧ s.sameBytes t ∧
      (t.core core).queue 22 = (s.core core).queue 22 ++ [(s.core core).pos] ∧
      (n = 0 → s.passedQueue t core 22 [] ∧
        t = { s with cores := t.cores, regs := t.regs, port := t.port, svc := t.svc, out := t.out }) := by
  obtain ⟨hcan, hnew⟩ := Bool.and_eq_true_iff.1 hcan
  have hexec := exec_vecop_issues hw ha hb hc hcan hres hbad hk hkernel hra hrb hrc hext hm hn hbn hxa hxb hxc
  have hword : iOp w = 0x18 := by rw [hw, iOp_fullWord]; rfl
  have hs := headerTaken_eq s core w
  obtain ⟨hu, hregs⟩ := shapeClamp_effect core n (headerTaken s core w)
  have huw : Within true true true true (headerTaken s core w) (shapeClamp core n (headerTaken s core w)) :=
    within_shapeClamp (.refl _ _ _ _ _) core n
  have hzero : n = 0 → shapeClamp core n (headerTaken s core w) = headerTaken s core w := by
    rintro rfl
    exact shapeClamp_zero core _
  have hseg : (shapeClamp core n (headerTaken s core w)).seg core = s.seg core :=
    regFld_of_reg ((hregs _ (seg_ne_sticky core)).trans (State.reg_congr (by rw [hs]) _)) 16 6
  have hucore : (shapeClamp core n (headerTaken s core w)).core core = (s.core core).took (headerPairs s core w) :=
    (State.core_congr (by rw [hu]) core).trans (core_headerTaken s core w)
  have hcores : (shapeClamp core n (headerTaken s core w)).cores = (headerTaken s core w).cores := by rw [hu]
  generalize shapeClamp core n (headerTaken s core w) = u at *
  generalize ho : vecopOp u core (s.core core).pos w a b c e n = o at *
  have how : o.word = w := by rw [← ho]; rfl
  have hos : o.seq = (s.core core).pos := by rw [← ho]; rfl
  have hopds : o.opds = [a, b, c] := by rw [← ho]; rfl
  have hdma (t : State) : dmaRequest core o.word t = t := dmaRequest_vector (.inl (by rw [how]; exact hword)) core t
  have hvec (t : State) : vectorRequest core o.seq o.word t = pushQueue core 22 (s.core core).pos t := by
    unfold vectorRequest
    rw [how, hos, if_pos hword]
  have hq : QueueOnly core 22 (advance core u) (vectorRequest core o.seq o.word (advance core u)) := by
    rw [hvec]
    exact queueOnly_pushQueue core 22 _ _
  obtain ⟨-, -, hops, hqueue, -, hpassed, hv⟩ := putInFlight_queueOnly hdma hq
  have hop := op_append (by rw [hucore, took_eq]; exact hnew) hops hos
  have hgo : issueOp core o u = putInFlight core o u := by
    unfold issueOp
    rw [hos]
    exact goOn_vecop hop (by rw [how]; exact hword)
  rw [hgo] at hexec
  obtain ⟨hissued, hhbm, hspad, harr⟩ := issued_of_work (bh := true) (bp := true) (ba := true) (op := o) (e := e) hnew hcores huw
    (by rw [← ho, ← hseg]; rfl) hdma hq fun _ => .refl _ _ _ _ _
  rw [hopds] at hissued
  have hpend : (putInFlight core o u).pending = s.pending := hissued.2.2.2.2.2.2.2.2
  refine ⟨putInFlight core o u, hexec.trans (answer_eq hpend), hissued, sameBytes_of_mems ?_, ?_, fun h0 => ?_⟩
  · rw [State.mems, hhbm rfl, hspad rfl, (harr rfl).1, (harr rfl).2]
    rfl
  · have hroom : creditsLeft ((advance core u).core core) 22 ≠ 0 := by
      rw [core_advance, hucore, took_eq]
      exact creditsLeft_vecop hcan hword
    rw [hqueue, hvec]
    unfold pushQueue
    rw [if_neg hroom, core_setQueue_self, queue_withQueue_self, core_advance, hucore, took_eq]
    rfl
  · have hh : u = { s with cores := u.cores } := by
      rw [hzero h0]
      exact hs
    generalize putInFlight core o u = v at *
    refine ⟨?_, hv.trans ?_⟩
    · rw [hh] at hpassed
      exact hpassed
    · rw [hh]
      rfl

end

/-! ### UPDATE (R228 to R233) -/

theorem cores_readRecord (core : Nat) (w : BitVec 256) (o : Opd) (s : State) : (readRecord core w o s).2.2.cores = s.cores := by
  unfold readRecord
  split
  · unfold hbmRead hbmReadVia
    dsimp only
    split
    · rfl
    · exact cores_hbmFault _ s
  · exact cores_spEffects _ _ s

/-- Whether an item is an iteration of an UPDATE. -/
def Item.isUpd (i : Item) : Prop := ∃ b, i = .upd b

section
variable {body : BitVec 248} {o : List Opd}

/-- The instruction that an UPDATE puts in flight: with its constants and the metadata of its record. -/
def updateOp (core : Nat) (w : BitVec 256) (b : Opd) (op : Op) (s : State) : Op :=
  { op with imm := ((List.range 8).map fun i => (BitVec.ofNat 32 (leNat (((readRecord core w b s).1.drop (4 * i)).take 4)) : Word)) ++
              [(stepOf (iImm w) (dLrExp b.d)).getD 0],
            md := (readRecord core w b s).2.1 }

theorem updOpds_headerTaken (s : State) (core : Nat) (w : BitVec 256) : updOpds (headerTaken s core w) core w = updOpds s core w := by
  unfold updOpds
  simp only [opdOf_headerTaken]

/-- An UPDATE that passes its checks reads its record and goes into flight. -/
theorem exec_update_issues (hw : w = fullWord 0x19 body) (ho : o = updOpds s core w) (hcan : canIssue s core w = true)
    (hres : anySet w (vectorReserved ++ [(205, 1)]) = false) (hbad : moveExtBad w = false) (hstatic : updateStatic s core w = true)
    (hext : moveExtents s core w (nth (opdOf s core 0) o 0).d = (e, 0)) (hm : e.m ≠ 0) (hn : e.n ≠ 0) (hb : e.b ≠ 0)
    (hop : op = { seq := (s.core core).pos, word := w, seg := s.seg core, ext := e, opds := o, items := (List.range e.b).map .upd })
    (hdyn : updateDynamic s op = true) (hlast : ∀ r ∈ updRegions s op, updatedLast s r.1 = false) :
    exec (.update core body) s = answer s (issueOp core (updateOp core w (nth (opdOf s core 0) o 1) op (headerTaken s core w))
      (readRecord core w (nth (opdOf s core 0) o 1) (headerTaken s core w)).2.2) := by
  have hopd := opdOf_headerTaken s core w
  have hupd := updOpds_headerTaken s core w
  have hs := headerTaken_eq s core w
  have hattempt := attempt_headerTaken hcan (startUpdate core w)
  generalize headerTaken s core w = h at *
  have hstatic' : updateStatic h core w = true := by
    rw [← hstatic]
    unfold updateStatic
    rw [hupd, hopd, hs]
  have hext' : moveExtents h core w (nth (opdOf s core 0) o 0).d = (e, 0) := by rw [← hext, hs]; rfl
  have hseg : h.seg core = s.seg core := by rw [hs]; rfl
  have hdyn' : updateDynamic h op = true := by rw [← hdyn, hs]; rfl
  have hlast' : ((updRegions h op).any fun r => updatedLast h r.1) = false := by
    rw [List.any_eq_false]
    intro r hr
    rw [show updatedLast h r.1 = updatedLast s r.1 by rw [hs]; rfl, hlast r (by rw [hs] at hr; exact hr)]
    exact Bool.false_ne_true
  have hrun : exec (.update core body) s = answer s (attempt core w (startUpdate core w) s) := by rw [hw]; rfl
  rw [hrun, hattempt]
  refine congrArg (answer s) ?_
  unfold startUpdate
  rw [hupd, hopd, ← ho]
  dsimp only
  rw [hres, hbad, hstatic', hext', hseg, ← hop]
  dsimp only
  rw [hdyn', hlast', if_neg (by decide), if_neg (by decide), if_neg (by decide), if_neg (by tauto), if_neg (by decide), if_neg (by decide)]
  subst hop
  rfl

/-- An UPDATE that passes its checks issues, and changes no scratchpad byte and no array. -/
theorem update_issues (hw : w = fullWord 0x19 body) (ho : o = updOpds s core w) (hcan : canIssueNew s core w = true)
    (hres : anySet w (vectorReserved ++ [(205, 1)]) = false) (hbad : moveExtBad w = false) (hstatic : updateStatic s core w = true)
    (hext : moveExtents s core w (nth (opdOf s core 0) o 0).d = (e, 0)) (hm : e.m ≠ 0) (hn : e.n ≠ 0) (hb : e.b ≠ 0)
    (hop : op = { seq := (s.core core).pos, word := w, seg := s.seg core, ext := e, opds := o, items := (List.range e.b).map .upd })
    (hdyn : updateDynamic s op = true) (hlast : ∀ r ∈ updRegions s op, updatedLast s r.1 = false) :
    ∃ t, exec (.update core body) s = .next t ∧ s.issued t core w e o ∧ t.spad = s.spad ∧ t.mac = s.mac ∧ t.scale = s.scale := by
  obtain ⟨hcan, hnew⟩ := Bool.and_eq_true_iff.1 hcan
  have hexec := exec_update_issues hw ho hcan hres hbad hstatic hext hm hn hb hop hdyn hlast
  have hword : iOp w = 0x19 := by rw [hw, iOp_fullWord]; rfl
  generalize nth (opdOf s core 0) o 1 = b at *
  have huw : Within true true true true (headerTaken s core w) (readRecord core w b (headerTaken s core w)).2.2 :=
    within_readRecord (.refl _ _ _ _ _) core w b
  have hcores := cores_readRecord core w b (headerTaken s core w)
  generalize hx : updateOp core w b op (headerTaken s core w) = x at *
  generalize (readRecord core w b (headerTaken s core w)).2.2 = u at *
  have hxw : x.word = w := by rw [← hx, updateOp, hop]
  have hxo : x.opds = o := by rw [← hx, updateOp, hop]
  have hxs : x.seq = (s.core core).pos := by rw [← hx, updateOp, hop]
  have hxi : x.items = (List.range e.b).map .upd := by rw [← hx, updateOp, hop]
  have hq : QueueOnly core 23 (advance core u) (vectorRequest core x.seq x.word (advance core u)) := by
    unfold vectorRequest
    rw [hxw, hword, if_neg (by decide), if_pos rfl]
    exact queueOnly_passQueue core 23 _ _
  obtain ⟨hissued, -, hspad, harr⟩ := issued_of_work (bh := false) (bp := true) (ba := true) (op := x) (e := e) (t := issueOp core x u)
    hnew hcores huw (by rw [← hx, updateOp, hop]; rfl) (fun t => dmaRequest_vector (.inr (by rw [hxw]; exact hword)) core t) hq
    fun hin => by
      unfold issueOp
      rw [hxs]
      refine within_goOn_of (fun _ i => i.isUpd) (fun _ _ _ _ h => h) core _ ?_ _ ?_ ?_
      · rintro y i t - ⟨k, rfl⟩
        exact within_doUpd (.refl false true true true t) core y k rfl
      · intro y hy i hi
        rw [hin] at hy
        rw [← Option.some.inj hy, hxi] at hi
        obtain ⟨k, -, rfl⟩ := List.mem_map.1 hi
        exact ⟨k, rfl⟩
      · intro y hy
        rw [hin] at hy
        rw [← Option.some.inj hy, hxw, hword]
        decide
  rw [hxo] at hissued
  have hpend : (issueOp core x u).pending = s.pending := hissued.2.2.2.2.2.2.2.2
  exact ⟨issueOp core x u, hexec.trans (answer_eq hpend), hissued, hspad rfl, harr rfl⟩

end

/-! ### The bound of a kernel (R220) -/

theorem op_seq (hop : (s.core core).op seq = some op) : op.seq = seq := by simpa using List.find?_some hop

/-- What an instruction's bound leaves of it: its flag of lost work is set. -/
theorem op_boundEvent (hop : (s.core core).op op.seq = some op) (x : Op) (hx : x.seq = op.seq) :
    ((boundEvent core x s).core core).op op.seq = some { op with md := op.md ||| mdFlag 1 } := by
  have hmd := op_modOp_self core op.seq (fun o => { o with md := o.md ||| mdFlag 1 }) (fun _ => rfl) s
  rw [hop] at hmd
  unfold boundEvent stageEvent opMd
  rw [hx]
  exact hmd

theorem bit_mdFlag_one (md : Word) : bit (md ||| mdFlag 1) 1 = true := by
  unfold bit mdFlag
  simp

/-- Where the frame's events have room left afterwards, the event of a stopped kernel is among them. -/
theorem kind_boundEvent (core : Nat) (op : Op) (s : State) (hroom : (boundEvent core op s).fx.cur.events.length < 64) :
    ∃ ev ∈ (boundEvent core op s).fx.cur.events, ev.kind = 6 := by
  generalize he : refusalEvent s core op.seq (iOp op.word) = ev
  have hcur : (boundEvent core op s).fx.cur = if s.fx.cur.events.length < 64
      then { s.fx.cur with events := s.fx.cur.events ++ [ev] } else { s.fx.cur with beyond := s.fx.cur.beyond + 1 } := by
    rw [← he]
    rfl
  rw [hcur] at hroom ⊢
  split
  · exact ⟨ev, List.mem_append_right _ List.mem_cons_self, by rw [← he]; rfl⟩
  · next hfull =>
    rw [if_neg hfull] at hroom
    exact absurd hroom hfull

/-- An epilogue that its bound has stopped loses the row in hand, and an event of the frame tells. -/
theorem bound_epilogue (hop : (s.core core).op seq = some op) (hword : iOp op.word = 0x10 ∨ iOp op.word = 0x12)
    (hepi : iEpi op.word ≠ 0) (htodo : op.todo ≠ []) :
    ∃ t o, exec (.vectorKernelBound core seq) s = .next t ∧ (t.core core).op seq = some o ∧ o.items = op.items ∧
      o.todo = op.todo.tail ∧ bit o.md 1 = true ∧ s.sameBytes t ∧ s.sameRegs t [] ∧
      (s.fx.cur.events.length < 64 → t.fx.cur.events = s.fx.cur.events ++ [refusalEvent s core seq (iOp op.word)]) := by
  have hseq := op_seq hop
  subst hseq
  have hne : ¬ (iOp op.word = 0x18 ∧ op.items ≠ []) := fun h => by rcases hword with hw | hw <;> rw [hw] at h <;> exact absurd h.1 (by decide)
  have hstop : stopKernel core op.seq s = boundEvent core op (modOp core op.seq (fun o => { o with todo := o.todo.tail }) s) := by
    unfold stopKernel
    rw [hop]
    dsimp only
    rw [if_neg hne, if_pos ⟨hword, hepi, htodo⟩]
  have hfound := op_modOp_self core op.seq (fun o => { o with todo := o.todo.tail }) (fun _ => rfl) s
  rw [hop] at hfound
  refine ⟨stopKernel core op.seq s, { op with todo := op.todo.tail, md := op.md ||| mdFlag 1 }, answer_eq ?_, ?_, rfl, rfl,
    bit_mdFlag_one op.md, ?_, ?_, fun hroom => ?_⟩
  · rw [hstop]
    rfl
  · rw [hstop]
    exact op_boundEvent (op := { op with todo := op.todo.tail }) hfound op rfl
  · rw [hstop]
    exact sameBytes_of_mems rfl
  · rw [hstop]
    exact sameRegs_of_regs (sameRegs_refl s _) rfl
  · rw [hstop]
    unfold boundEvent stageEvent
    show (if s.fx.cur.events.length < 64 then _ else _ : FrameRec).events = _
    rw [if_pos hroom]
    rfl

theorem op_popQueue (core q item seq : Nat) (s : State) : ((popQueue core q item s).core core).op seq = (s.core core).op seq := by
  unfold popQueue
  rw [core_setQueue_self]
  rfl

/-- A VECOP's bound takes it off the vector unit's queue and counts the free value. -/
theorem stopKernel_vecop (hop : (s.core core).op seq = some op) (hword : iOp op.word = 0x18) (hitems : op.items ≠ []) :
    stopKernel core seq s = boundEvent core op
      ((modOp core seq (fun o => { o with items := [], todo := [], waitSlot := none })
        (runItems core seq ((s.free 16).toNat % op.items.length) (popQueue core 22 seq s.usedFree))).modCore core fun c =>
          { c with waits := c.waits.filter fun w => w.2 ≠ some seq }) := by
  unfold stopKernel
  rw [hop]
  exact if_pos ⟨hword, hitems⟩

/-- A VECOP that its bound stops before its first iteration: nothing is written, it has no work left, and an event of the frame
tells. -/
theorem bound_vecop (hfree : s.free 16 = 0) (hop : (s.core core).op seq = some op) (hword : iOp op.word = 0x18) (hitems : op.items ≠ []) :
    ∃ t o, exec (.vectorKernelBound core seq) s = .next t ∧ (t.core core).op seq = some o ∧ o.items = [] ∧ o.todo = [] ∧
      bit o.md 1 = true ∧ (t.fx.cur.events.length < 64 → ∃ ev ∈ t.fx.cur.events, ev.kind = 6) ∧ t.mac = s.mac ∧ t.scale = s.scale ∧
      t.tk = s.tk ∧ t.img = s.img ∧ (∀ j, (t.core j).sequencer = (s.core j).sequencer ∧ (t.core j).fixed = (s.core j).fixed) := by
  have hseq := op_seq hop
  subst hseq
  have hstop := stopKernel_vecop hop hword hitems
  rw [hfree, show (0 : BitVec 16).toNat = 0 from rfl, Nat.zero_mod, runItems] at hstop
  have hkept : ((popQueue core 22 op.seq s.usedFree).core core).op op.seq = some op := (op_popQueue core 22 op.seq op.seq s.usedFree).trans hop
  have hpop : Within true true true true s (popQueue core 22 op.seq s.usedFree) := within_popQueue (Within.usedFree (.refl _ _ _ _ s)) core 22 _
  generalize popQueue core 22 op.seq s.usedFree = p at *
  have hfound := op_modOp_self core op.seq (fun o => { o with items := [], todo := [], waitSlot := none }) (fun _ => rfl) p
  rw [hkept] at hfound
  have hstopped : Within true true true false s (modOp core op.seq (fun o => { o with items := [], todo := [], waitSlot := none }) p) :=
    within_modOp (hpop.weak id id id (fun h => by simp at h)) core op.seq _ (fun _ => rfl) (fun h => by simp at h)
  generalize modOp core op.seq (fun o => { o with items := [], todo := [], waitSlot := none }) p = m at *
  have hwithin : Within true true true false s (stopKernel core op.seq s) := by
    rw [hstop]
    exact within_boundEvent (Within.modCore hstopped core (fun c => { c with waits := c.waits.filter fun w => w.2 ≠ some op.seq }) rfl
      (fun h => by simp at h)) core op
  refine ⟨stopKernel core op.seq s, { op with items := [], todo := [], waitSlot := none, md := op.md ||| mdFlag 1 },
    answer_eq hwithin.pending, ?_, rfl, rfl, bit_mdFlag_one op.md, ?_, hwithin.mac rfl, hwithin.scale rfl, hwithin.tk, hwithin.img,
    fun j => ⟨(hwithin.issuedParts j).1, (hwithin.issuedParts j).2.1⟩⟩
  · rw [hstop]
    refine op_boundEvent (op := { op with items := [], todo := [], waitSlot := none }) ?_ op rfl
    rw [State.core_modCore_self]
    exact hfound
  · rw [hstop]
    exact kind_boundEvent core op _

/-! ### How far O35 goes

Three of its clauses hold (`vecop_issues`, `update_issues`, `bound_epilogue`). The fourth runs the first iterations of a VECOP, as many as
the free value says, and takes any items to be its iterations; so it holds where every free value is 0, and where one is not, a state whose
VECOP holds an item of a WRITE_W breaks it. -/

/-- The first direction: no iteration runs before the bound. -/
theorem vectorInstructions_of_free_eq_zero (hfree : ∀ k, Config.free 16 k = 0) : Obligations.VectorInstructionsIssueAndAreBounded := by
  unfold Obligations.VectorInstructionsIssueAndAreBounded
  refine ⟨?_, ?_, ?_, ?_⟩
  · intro s core body w a b c e n hw ha hb hc hcan hres hbad hk hkernel hra hrb hrc hext hm hn hbn hxa hxb hxc
    exact vecop_issues hw ha hb hc hcan hres hbad hk hkernel hra hrb hrc hext hm hn hbn hxa hxb hxc
  · intro s core body w o e op hw ho hcan hres hbad hstatic hext hm hn hb hop hdyn hlast
    exact update_issues hw ho hcan hres hbad hstatic hext hm hn hb hop hdyn hlast
  · intro s core seq op hop hword hepi htodo
    exact bound_epilogue hop hword hepi htodo
  · intro s core seq op hop hword hitems
    exact bound_vecop (hfree s.freeCount) hop hword hitems

/-- A VECOP whose first item is a WRITE_W's; the others load shape registers. -/
def weightItems : Op :=
  { seq := 0, word := 0x18, seg := 0, ext := ⟨1, 1, 0, 1⟩, opds := [operand 0 (f32Row 1 1), operand 1 (tileAt 2 64 1)],
    items := .wpos 0 0 :: List.replicate 65535 .shpLoad }

/-- It is in flight on core 0. -/
def holdsWeightItems : State :=
  let s := runningCore [f32Row 1 1, tileAt 2 64 1] [(roleA 0 2, 3)]
  { s with hbm := [(2, 0x80), (3, 0x3F)], cores := [(0, { s.core 0 with ops := [weightItems] })] }

/-- The state after the first item. -/
def wroteWeights : State := stepItem 0 weightItems (.wpos 0 0) (List.replicate 65535 .shpLoad) (popQueue 0 22 0 holdsWeightItems.usedFree)

/-- Further items that load shape registers write no weight. -/
theorem mac_shpLoads (hitems : ∀ op, (s.core core).op seq = some op → ∀ i ∈ op.items, i = .shpLoad) (k : Nat) :
    (runItems core seq k s).mac = s.mac :=
  (within_runItems_of (bh := false) (bp := false) (ba := true) (fun _ i => i = .shpLoad) (fun _ _ _ _ h => h) core seq
    (fun op _ t _ h => by rw [h]; exact within_doShpLoad (.refl _ _ _ _ t) core op) k s hitems).mac rfl

/-- An item that nothing holds back is done, and the work goes on. -/
theorem runItems_cons {i : Item} {rest : List Item} (hop : (s.core core).op seq = some op) (hitems : op.items = i :: rest)
    (hslot : op.waitSlot = none) (hword : iOp op.word ≠ 0x12) (hfirst : firstWait s core (iTask op.word) (itemAcs s core op i) = none)
    (k : Nat) : runItems core seq (k + 1) s = runItems core seq k (stepItem core op i rest s) := by
  rw [runItems, hop]
  dsimp only
  rw [hitems]
  dsimp only
  rw [hslot, hfirst]
  exact if_neg (by simp [hword])

/-- The first item of the VECOP writes a weight. -/
theorem runItems_weightItems (k : Nat) :
    runItems 0 0 (k + 1) (popQueue 0 22 0 holdsWeightItems.usedFree) = runItems 0 0 k wroteWeights :=
  runItems_cons (op_popQueue 0 22 0 0 holdsWeightItems.usedFree) rfl rfl (by decide +kernel) (by decide +kernel) k

theorem mac_runItems_weightItems (k : Nat) : (runItems 0 0 k wroteWeights).mac = wroteWeights.mac := by
  have hrest := (within_stepItem_of (bh := false) (bp := false) (ba := false) 0 weightItems (.wpos 0 0) (List.replicate 65535 .shpLoad)
    (popQueue 0 22 0 holdsWeightItems.usedFree) fun t => within_doWpos (.refl _ _ _ _ t) 0 weightItems 0 0 rfl).2
  refine mac_shpLoads (fun op hop i hi => ?_) k
  rw [hrest op hop] at hi
  exact List.eq_of_mem_replicate hi

/-- The other direction, for the first free value: among 2^16 items its value is the number of those that run, and the first of them writes
an array. -/
theorem free_eq_zero_of_vectorInstructions (h : Obligations.VectorInstructionsIssueAndAreBounded) : Config.free 16 0 = 0 := by
  unfold Obligations.VectorInstructionsIssueAndAreBounded at h
  obtain ⟨-, -, -, hbound⟩ := h
  by_contra hfree
  have hop : (holdsWeightItems.core 0).op 0 = some weightItems := rfl
  have hword : iOp weightItems.word = 0x18 := by decide +kernel
  have hitems : weightItems.items ≠ [] := List.cons_ne_nil _ _
  have hlen : weightItems.items.length = 65535 + 1 := by
    show (List.replicate 65535 Item.shpLoad).length + 1 = 65535 + 1
    rw [List.length_replicate]
  obtain ⟨k, hk⟩ : ∃ k, (holdsWeightItems.free 16).toNat = k + 1 :=
    Nat.exists_eq_succ_of_ne_zero fun h0 => hfree (BitVec.eq_of_toNat_eq h0)
  obtain ⟨t, o, ht, -, -, -, -, -, hmac, -⟩ := hbound holdsWeightItems 0 0 weightItems hop hword hitems
  have hstop := stopKernel_vecop hop hword hitems
  rw [hlen, Nat.mod_eq_of_lt (holdsWeightItems.free 16).isLt, hk, runItems_weightItems] at hstop
  have hafter : t.mac = wroteWeights.mac := by
    have hexec : exec (.vectorKernelBound 0 0) holdsWeightItems = answer holdsWeightItems (stopKernel 0 0 holdsWeightItems) := rfl
    rw [hexec, answer_next, hstop] at ht
    rw [← outcomeOf_eq ht, ← mac_runItems_weightItems k]
    rfl
  have hwritten : Mem.get wroteWeights.mac 0 = 64 := by decide +kernel
  rw [← hafter, hmac] at hwritten
  exact absurd hwritten (by decide +kernel)

end Sys2Proof.Machine

end
